-- ==== Sys2Proof/Word.lean ====
section
/-! DEFINITION. The word types of the Vorgon V3 (R8, R12, R85) and the sparse table used for register files, memories and tables. -/

namespace Sys2Proof

/-- One byte of memory. -/
abbrev Byte := BitVec 8

/-- One 32-bit register (R8). -/
abbrev Word := BitVec 32

/-- A 64-bit value: a register pair (R8), a virtual address before its check (R12), a trigger counter (R311). -/
abbrev Dword := BitVec 64

/-- The program counter (R8): 56 bits. -/
abbrev PcWord := BitVec 56

/-- A sparse table: pairs of a key and a value, keys strictly rising. What an unlisted key reads as is said
by the reader (`Sys2Proof.Machine.mapGet`). -/
abbrev FMap (α : Type) := List (Nat × α)

end Sys2Proof
end

