-- ==== Sys2Proof/Syntax.lean ====
section
/-! DEFINITION. The syntax: operand types and `Instr`, one constructor for each row of spec/opcode_table.json.
The first 202 constructors are instruction words (R38), the next four are hints (R31), the rest are the steps of the
device that have no word (95_what_each_step_holds.md). -/

namespace Sys2Proof

/-- A register number 0-63 (R8). -/
abbrev Reg := BitVec 6

/-- The guard of a head (R21): the predicate number, 7 for unguarded, and `gn`. -/
structure Guard where
  idx : BitVec 3
  neg : Bool
  deriving DecidableEq, Repr

/-- The b selector of R24: a register of the instruction's own file, a group register, an immediate 0 to 63, an
immediate -32 to -1 (as its low five bits), an entry of the constants table. -/
inductive BSel where
  | own (r : BitVec 6)
  | grp (r : BitVec 6)
  | imm (n : BitVec 6)
  | neg (n : BitVec 5)
  | const (c : BitVec 5)
  deriving DecidableEq, Repr

/-- Conditions of `cmp` (R39). -/
inductive Cond where
  | eq | ne | lt | le | gt | ge
  deriving DecidableEq, Repr

/-- Conditions of `fcmp` (R125). -/
inductive FCond where
  | eq | ne | lt | le | gt | ge | un | ord
  deriving DecidableEq, Repr

/-- Orders of form M (R28). -/
inductive Ord where
  | plain | acq | rel | ar
  deriving DecidableEq, Repr

/-- Scopes of R28 and R205. -/
inductive Scope where
  | grp | wg | clus | quad | dev | sys | fab
  deriving DecidableEq, Repr

/-- Floating types of R37 with their codes 0 to 4. -/
inductive FType where
  | f32 | f16 | bf16 | e4m3 | e5m2
  deriving DecidableEq, Repr

/-- Integer types of R37 with their codes 5 to 12. -/
inductive IType where
  | i8 | n8 | i16 | n16 | i32 | n32 | i64 | n64
  deriving DecidableEq, Repr

/-- DX block formats (R253). -/
inductive DxFmt where
  | dx8 | dx6 | dx4
  deriving DecidableEq, Repr

/-- Functions of `gred`, `scan` and `tree.red` (R166). -/
inductive GFn where
  | addI32 | minI32 | maxI32 | minN32 | maxN32 | and | or | xor | faddF32 | fminF32 | fmaxF32
  deriving DecidableEq, Repr

/-- Outstanding-operation classes (R113). -/
inductive OpClass where
  | loads | stores | copies | tiles | remote
  deriving DecidableEq, Repr

/-- The special registers of R11. -/
inductive SReg where
  | thread | group | levelId | owner | ownerCyc | rotaSlot | rotaMap | melt | leaseLeft | flags | flagArm | detlvl
  | tmask | tcause | tdetailA | tdetailB | tdetailC | trapPc
  deriving DecidableEq, Repr

/-- The payload of a MOD hint (R35). `rnd` is the rounding override, `scope` replaces the scope (7: none). -/
structure ModFields where
  rnd : BitVec 3
  sat : Bool
  cache : BitVec 2
  scope : BitVec 3
  nega : Bool
  negb : Bool
  absa : Bool
  absb : Bool
  negd : Bool
  deriving DecidableEq, Repr

/-- Why an owner is held (R153): each cause holds it until that cause ends. -/
inductive HoldCause where
  | emergencyIsland (i : Nat)
  | emergencyLid
  | migration (core : Nat)
  | switch (core lane mask : Nat)
  | preempted (core lane : Nat)
  | retrain (link : Nat)
  | stack (n : Nat)
  | silo (port : Nat)
  | canary (i : Nat)
  | other (n : Nat)
  deriving DecidableEq, Repr

/-- A switch of lane slots (R155): the core is physical, `slots` lists slot numbers. -/
structure SwitchSpec where
  core : Nat
  lane : Nat
  slots : List Nat
  outgoing : Nat
  incoming : Nat
  destroy : Bool
  deriving DecidableEq, Repr

/-- Kinds of owners (R143). -/
inductive OwnerKind where
  | isolated | elastic | sys
  deriving DecidableEq, Repr

/-- A share of one lane in a creation record (R420, R429): rota slots and a mask of contexts. -/
structure LaneShare where
  core : Nat
  lane : Nat
  slots : List Nat
  ctxMask : Nat
  deriving DecidableEq, Repr

/-- The shares of one core in a creation record (R429); the core is logical. -/
structure CoreShare where
  core : Nat
  scratchBase : Nat
  scratchLen : Nat
  obufFirst : Nat
  obufCount : Nat
  scaleFirst : Nat
  scaleCount : Nat
  accFirst : Nat
  accCount : Nat
  l1Ways : Nat
  deriving DecidableEq, Repr

/-- A move of an elastic context's border (R157): it gains or gives up slots of one lane, and the firmware may give it another mask of contexts on the
lane, another share of the core and other ways of L2 slices with it (R429). -/
structure BorderSpec where
  owner : Nat
  core : Nat
  lane : Nat
  slots : List Nat
  gain : Bool
  ctxMask : Option Nat := none
  share : Option CoreShare := none
  l2Ways : List (Nat × Nat) := []
  deriving DecidableEq, Repr

/-- The shared structures with a rota table of their own beside the lanes, the ways and Drover (R144, R391). -/
inductive Shared where
  | link | recovery | dram | walker | copy | tensor | trigger | tree
  deriving DecidableEq, Repr

/-- A partition's creation record (R420, R429). `tables` gives the owner's slots in the rota tables of the other shared structures, `remap` gives the physical core of each logical core, `quotas` a
quota in joules for each island, `l2Ways` a way mask for each slice, `stripes` the striped region's start in each vault. A record that names no budget or
drain has those of R427, and one that names no swap threshold that of R293. `linkSlots` gives the slots of links where they are others than those of
`tables`, by the link's place, and `queueBufs` the buffers of input queues where they are others than `linkBufs` (R391). -/
structure PartRec where
  owner : Nat
  kind : OwnerKind
  cores : List Nat
  remap : List (Nat × Nat)
  lanes : List LaneShare
  shares : List CoreShare
  l2Ways : List (Nat × Nat)
  quotas : List (Nat × Nat)
  budget : Nat := 32768
  drain : Nat := 2048
  swapT : Nat := 262144
  root : Nat
  vaults : List Nat
  stripes : List (Nat × Nat)
  stripeLen : Nat
  signer : Nat
  gift : Bool
  signed : Bool
  members : List Nat
  drover : List Nat
  target : Nat
  tables : List (Shared × List Nat)
  linkBufs : Nat
  linkSlots : List (Nat × List Nat) := []
  queueBufs : List (Nat × Nat) := []
  deriving DecidableEq, Repr

/-- A chunk of a network operation arriving at this device (R316, R406): the sender's rank and its number there, operation (0 to 3 as R315 codes
it, 4 the answer to an operation of this device, 5 that it failed at its peer) and function, target address, data bytes (an atomic's operand), the
bytes of the chunk, order and level of a reduce-put (R319), the counter to raise; the number of the chunk and the bytes of the operation, whether
its last raises the counter (R320), and whether a port and mesh slot of the owner has served it, which nothing from outside is (R407). -/
structure NetMsg where
  owner : Nat
  source : Nat
  entry : Nat
  op : Nat
  fn : Nat
  remote : Nat
  data : List Byte
  len : Nat
  order : Nat
  level : Nat
  rctr : Option Nat
  chunk : Nat := 0
  total : Nat := 0
  raises : Bool := true
  served : Bool := false
  deriving DecidableEq, Repr

/-- A 32-byte mesh flit as a link carries it (R389, R399): its packet, where that goes (router, port), its class and age, whether it is the
packet's last; the packet's owner, mesh, misroutes so far, the router it comes from, the flits of the reply it asks for and the address it asks of;
the router and port of the adapter it reached, the 32 bytes it carries, which a header flit has not, and the check value of their sector, which
travels in the sideband. On a scale-up port `dst` is the rank of the device it goes to. -/
structure MeshFlit where
  packet : Nat
  dst : Nat
  port : Nat
  prio : Nat
  age : Nat
  last : Bool
  owner : Nat
  reply : Bool := false
  misroutes : Nat := 0
  src : Nat := 0
  answer : Nat := 0
  leaves : Nat := 0
  exit : Nat := 7
  check : Option (BitVec 16) := none
  addr : Nat := 0
  data : List Byte := []
  deriving DecidableEq, Repr

/-- A flit of a link (R399): its owner, sequence number, whether its CRC is good as it arrives, the mesh flits it carries, the slot of the link's
rota table in which it was sent (R391). -/
structure Flit where
  owner : Nat
  seq : BitVec 16
  crcOk : Bool
  cargo : List MeshFlit
  slot : Nat := 0
  deriving DecidableEq, Repr

/-- An access of the host port that is no register write (R411, R419, R421): a byte of memory read or written at an address, a register of an owner's
window read at its offset, an entry of the black-box recorder read by its number through the management window, in a session or not. -/
inductive HostAccess where
  | read
  | write (b : BitVec 8)
  | register (o : Nat)
  | record (session : Option Nat)
  deriving DecidableEq, Repr

/-- What an SPDM requester offers in NEGOTIATE_ALGORITHMS (R422). -/
structure SpdmOffer where
  sm2 : Bool
  sm3 : Bool
  sm4gcm : Bool
  deriving DecidableEq, Repr

/-- What bring-up meets (R428): the firmware's signature, its measurement, whether training succeeds, the port
indices read on the eighteen planes (R405), the creation record of SYS. -/
structure BringUp where
  signature : Bool
  training : Bool
  ports : List Nat
  measurements : List Nat
  sys : PartRec
  deriving DecidableEq, Repr

/-- One constructor for each row of spec/opcode_table.json, the steps that
reach the device from outside last. `u` is bit U of the head (R21), `h` the guard. -/
inductive Instr where
  /-- ADD (R93): Integer add of a and the b operand, wrapping modulo 2^32, or saturating under MOD SAT. -/
  | add (u : Bool) (h : Guard) (d a : Reg) (b : BSel)
  /-- SUB (R93): Integer subtract of the b operand from a, wrapping modulo 2^32. -/
  | sub (u : Bool) (h : Guard) (d a : Reg) (b : BSel)
  /-- MUL (R93): Low 32 bits of the product of a and b. -/
  | mul (u : Bool) (h : Guard) (d a : Reg) (b : BSel)
  /-- MULH_I32 (R93): High 32 bits of the signed 64-bit product of a and b. -/
  | mulhI32 (u : Bool) (h : Guard) (d a : Reg) (b : BSel)
  /-- MULH_N32 (R93): High 32 bits of the unsigned 64-bit product of a and b. -/
  | mulhN32 (u : Bool) (h : Guard) (d a : Reg) (b : BSel)
  /-- MAD (R93): Low 32 bits of a times b plus the old value of d. -/
  | mad (u : Bool) (h : Guard) (d a : Reg) (b : BSel)
  /-- ADDX (R93): 64-bit add of Pair(a) and the widened b operand into Pair(d). -/
  | addx (u : Bool) (h : Guard) (d a : Reg) (b : BSel)
  /-- SUBX (R93): 64-bit subtract of the widened b operand from Pair(a) into Pair(d). -/
  | subx (u : Bool) (h : Guard) (d a : Reg) (b : BSel)
  /-- MIN_I32 (R93): Signed minimum of a and b. -/
  | minI32 (u : Bool) (h : Guard) (d a : Reg) (b : BSel)
  /-- MAX_I32 (R93): Signed maximum of a and b. -/
  | maxI32 (u : Bool) (h : Guard) (d a : Reg) (b : BSel)
  /-- MIN_N32 (R93): Unsigned minimum of a and b. -/
  | minN32 (u : Bool) (h : Guard) (d a : Reg) (b : BSel)
  /-- MAX_N32 (R93): Unsigned maximum of a and b. -/
  | maxN32 (u : Bool) (h : Guard) (d a : Reg) (b : BSel)
  /-- AND (R93): Bitwise AND of a and b. -/
  | andB (u : Bool) (h : Guard) (d a : Reg) (b : BSel)
  /-- OR (R93): Bitwise OR of a and b. -/
  | orB (u : Bool) (h : Guard) (d a : Reg) (b : BSel)
  /-- XOR (R93): Bitwise XOR of a and b. -/
  | xorB (u : Bool) (h : Guard) (d a : Reg) (b : BSel)
  /-- ANDN (R93): a AND NOT b. -/
  | andnB (u : Bool) (h : Guard) (d a : Reg) (b : BSel)
  /-- SHL (R93): Shift a left by b, zero when b is 32 or more. -/
  | shl (u : Bool) (h : Guard) (d a : Reg) (b : BSel)
  /-- SHR (R93): Logical shift right of a by b. -/
  | shr (u : Bool) (h : Guard) (d a : Reg) (b : BSel)
  /-- SAR (R93): Arithmetic shift right of a by b. -/
  | sar (u : Bool) (h : Guard) (d a : Reg) (b : BSel)
  /-- ROTL (R93): Rotate a left by b mod 32. -/
  | rotl (u : Bool) (h : Guard) (d a : Reg) (b : BSel)
  /-- NEG (R94): Two's complement negation of a. -/
  | negI (u : Bool) (h : Guard) (d a : Reg)
  /-- ABS (R94): Absolute value of a as signed. -/
  | absI (u : Bool) (h : Guard) (d a : Reg)
  /-- NOT (R94): Bitwise NOT of a. -/
  | notB (u : Bool) (h : Guard) (d a : Reg)
  /-- CLZ (R94): Count of leading zero bits of a. -/
  | clz (u : Bool) (h : Guard) (d a : Reg)
  /-- POPC (R94): Count of one bits of a. -/
  | popc (u : Bool) (h : Guard) (d a : Reg)
  /-- BREV (R94): Bit reversal of a. -/
  | brev (u : Bool) (h : Guard) (d a : Reg)
  /-- MOV (R94): Copy of a within one register file. -/
  | mov (u : Bool) (h : Guard) (d a : Reg)
  /-- SXT_I8 (R94): Sign-extends bits 7:0 of a to 32 bits. -/
  | sxtI8 (u : Bool) (h : Guard) (d a : Reg)
  /-- SXT_I16 (R94): Sign-extends bits 15:0 of a to 32 bits. -/
  | sxtI16 (u : Bool) (h : Guard) (d a : Reg)
  /-- SXT_I32 (R94): Sign-extends a to 64 bits in Pair(d). -/
  | sxtI32 (u : Bool) (h : Guard) (d a : Reg)
  /-- ZXT_N8 (R94): Zero-extends bits 7:0 of a. -/
  | zxtN8 (u : Bool) (h : Guard) (d a : Reg)
  /-- ZXT_N16 (R94): Zero-extends bits 15:0 of a. -/
  | zxtN16 (u : Bool) (h : Guard) (d a : Reg)
  /-- ZXT_N32 (R94): Zero-extends a to 64 bits in Pair(d). -/
  | zxtN32 (u : Bool) (h : Guard) (d a : Reg)
  /-- BFX_N32 (R95): Extracts a bit field of a, zero-extended. -/
  | bfxN32 (u : Bool) (h : Guard) (d a : Reg) (b : BSel)
  /-- BFX_I32 (R95): Extracts a bit field of a, sign-extended. -/
  | bfxI32 (u : Bool) (h : Guard) (d a : Reg) (b : BSel)
  /-- BFI (R95): Inserts the low bits of a into a field of d. -/
  | bfi (u : Bool) (h : Guard) (d a : Reg) (b : BSel)
  /-- LEA (R96): Pair(d) := Pair(a) plus the sign-extended b shifted by s. -/
  | lea (u : Bool) (h : Guard) (d : BitVec 5) (k : BitVec 2) (a : BitVec 5) (b : BSel)
  /-- SEL (R98): Selects a or b per thread by the predicate named in the guard field. -/
  | sel (u : Bool) (p : BitVec 3) (n : Bool) (d a : Reg) (b : BSel)
  /-- CMP_I32 (R99): Signed compare of a and b into a destination predicate. -/
  | cmpI32 (u : Bool) (h : Guard) (c : Cond) (p : BitVec 3) (a : Reg) (b : BSel)
  /-- CMP_N32 (R99): Unsigned compare of a and b into a destination predicate. -/
  | cmpN32 (u : Bool) (h : Guard) (c : Cond) (p : BitVec 3) (a : Reg) (b : BSel)
  /-- PAND (R100): AND of two predicates. -/
  | pand (u : Bool) (h : Guard) (d a b : BitVec 3)
  /-- POR (R100): OR of two predicates. -/
  | por (u : Bool) (h : Guard) (d a b : BitVec 3)
  /-- PXOR (R100): XOR of two predicates. -/
  | pxor (u : Bool) (h : Guard) (d a b : BitVec 3)
  /-- PNOT (R100): NOT of a predicate. -/
  | pnot (u : Bool) (h : Guard) (d a : BitVec 3)
  /-- MOVI (R97): Writes the sign-extended immediate to d. -/
  | movi (u : Bool) (h : Guard) (d : Reg) (i : BitVec 14)
  /-- MOVH (R97): Writes the immediate to d + 1, the high half of a pair. -/
  | movh (u : Bool) (h : Guard) (d : Reg) (i : BitVec 14)
  /-- BRA (R102): Relative branch, uniform or per-thread with divergence. -/
  | bra (u : Bool) (h : Guard) (f : BitVec 20)
  /-- CALL (R103): Relative call writing the return address to Pair(g62). -/
  | call (h : Guard) (f : BitVec 20)
  /-- LOOP (R106): Starts a hardware loop of gN iterations over the following body. -/
  | loop (h : Guard) (c : Reg) (l : BitVec 14)
  /-- NOP (R104): No operation. -/
  | nop (u : Bool) (h : Guard)
  /-- BRX (R104): Indirect jump to Pair(a), popping loops that the target leaves. -/
  | brx (h : Guard) (a : Reg)
  /-- CALLX (R104): Indirect call to Pair(a), linking into Pair(d). -/
  | callx (h : Guard) (d a : Reg)
  /-- RET (R104): Returns to Pair(a) without popping loops. -/
  | ret (h : Guard) (a : Reg)
  /-- BRK (R108): Ends the innermost hardware loop. -/
  | brk (h : Guard)
  /-- EXIT (R105): Ends the group or the active threads. -/
  | exit (u : Bool) (h : Guard)
  /-- GETS (R115): Reads a special register into d. -/
  | gets (u : Bool) (h : Guard) (d : Reg) (r : SReg)
  /-- WAIT (R114): Issues once each outstanding-operation counter is at most its limit. -/
  | wait (h : Guard) (l t c e r : BitVec 4)
  /-- WAITC (R114): Issues once the named class counter is at most the value of gN. -/
  | waitc (h : Guard) (k : OpClass) (a : Reg)
  /-- LD_GLB_N8 (R109): Plain load of one byte, zero-extended. -/
  | ldGlbN8 (u : Bool) (h : Guard) (d a : Reg) (f : BitVec 3)
  /-- LD_GLB_N16 (R109): Plain load of two bytes, zero-extended. -/
  | ldGlbN16 (u : Bool) (h : Guard) (d a : Reg) (f : BitVec 3)
  /-- LD_GLB_B32 (R109): Plain load of four bytes. -/
  | ldGlbB32 (u : Bool) (h : Guard) (d a : Reg) (f : BitVec 3)
  /-- LD_GLB_B64 (R109): Plain load of eight bytes into a pair. -/
  | ldGlbB64 (u : Bool) (h : Guard) (d a : Reg) (f : BitVec 3)
  /-- LD_GLB_B128 (R109): Plain load of sixteen bytes into four registers. -/
  | ldGlbB128 (u : Bool) (h : Guard) (d a : Reg) (f : BitVec 3)
  /-- ST_GLB_B8 (R109): Plain store of one byte. -/
  | stGlbB8 (u : Bool) (h : Guard) (d a : Reg) (f : BitVec 3)
  /-- ST_GLB_B16 (R109): Plain store of two bytes. -/
  | stGlbB16 (u : Bool) (h : Guard) (d a : Reg) (f : BitVec 3)
  /-- ST_GLB_B32 (R109): Plain store of four bytes. -/
  | stGlbB32 (u : Bool) (h : Guard) (d a : Reg) (f : BitVec 3)
  /-- ST_GLB_B64 (R109): Plain store of eight bytes from a pair. -/
  | stGlbB64 (u : Bool) (h : Guard) (d a : Reg) (f : BitVec 3)
  /-- ST_GLB_B128 (R109): Plain store of sixteen bytes from four registers. -/
  | stGlbB128 (u : Bool) (h : Guard) (d a : Reg) (f : BitVec 3)
  /-- FADD (R121): FP32 add, rounded once. -/
  | fadd (u : Bool) (h : Guard) (d a : Reg) (b : BSel)
  /-- FSUB (R121): FP32 subtract, rounded once. -/
  | fsub (u : Bool) (h : Guard) (d a : Reg) (b : BSel)
  /-- FMUL (R121): FP32 multiply, rounded once. -/
  | fmul (u : Bool) (h : Guard) (d a : Reg) (b : BSel)
  /-- FFMA (R121): FP32 fused multiply-add with d as addend, rounded once. -/
  | ffma (u : Bool) (h : Guard) (d a : Reg) (b : BSel)
  /-- FMIN (R122): FP32 minimum of a and b. -/
  | fmin (u : Bool) (h : Guard) (d a : Reg) (b : BSel)
  /-- FMAX (R122): FP32 maximum of a and b. -/
  | fmax (u : Bool) (h : Guard) (d a : Reg) (b : BSel)
  /-- FNEG (R123): Inverts the sign of an FP32 value. -/
  | fneg (u : Bool) (h : Guard) (d a : Reg)
  /-- FABS (R123): Clears the sign of an FP32 value. -/
  | fabs (u : Bool) (h : Guard) (d a : Reg)
  /-- FCLASS (R124): Writes a one-hot class mask of an FP32 value. -/
  | fclass (u : Bool) (h : Guard) (d a : Reg)
  /-- FRND_RN (R123): Rounds an FP32 value to an integral value, nearest-even. -/
  | frndRn (u : Bool) (h : Guard) (d a : Reg)
  /-- FRND_RZ (R123): Rounds an FP32 value to an integral value toward zero. -/
  | frndRz (u : Bool) (h : Guard) (d a : Reg)
  /-- FRND_RD (R123): Rounds an FP32 value to an integral value toward minus infinity. -/
  | frndRd (u : Bool) (h : Guard) (d a : Reg)
  /-- FRND_RU (R123): Rounds an FP32 value to an integral value toward plus infinity. -/
  | frndRu (u : Bool) (h : Guard) (d a : Reg)
  /-- RCP (R131): Correctly rounded reciprocal. -/
  | rcp (u : Bool) (h : Guard) (d a : Reg)
  /-- RSQRT (R131): Correctly rounded reciprocal square root. -/
  | rsqrt (u : Bool) (h : Guard) (d a : Reg)
  /-- SQRT (R131): Correctly rounded square root in the instruction's mode. -/
  | sqrt (u : Bool) (h : Guard) (d a : Reg)
  /-- EXP2 (R131): Correctly rounded 2 to the power x. -/
  | exp2 (u : Bool) (h : Guard) (d a : Reg)
  /-- LOG2 (R131): Correctly rounded base-2 logarithm. -/
  | log2 (u : Bool) (h : Guard) (d a : Reg)
  /-- SINPI (R131): Correctly rounded sin(pi x). -/
  | sinpi (u : Bool) (h : Guard) (d a : Reg)
  /-- COSPI (R131): Correctly rounded cos(pi x). -/
  | cospi (u : Bool) (h : Guard) (d a : Reg)
  /-- SINCOSPI (R131): Writes sin(pi x) to d and cos(pi x) to d + 1. -/
  | sincospi (u : Bool) (h : Guard) (d a : Reg)
  /-- TANH (R131): Correctly rounded hyperbolic tangent. -/
  | tanh (u : Bool) (h : Guard) (d a : Reg)
  /-- FCMP (R125): FP32 compare into a destination predicate. -/
  | fcmp (u : Bool) (h : Guard) (c : FCond) (p : BitVec 3) (a : Reg) (b : BSel)
  /-- FCVT (R127): Conversion between two floating types. -/
  | fcvt (u : Bool) (h : Guard) (d a : Reg) (t y : FType)
  /-- FCVTI (R127): Conversion from a floating type to an integer type. -/
  | fcvti (u : Bool) (h : Guard) (d a : Reg) (t : IType) (y : FType)
  /-- ICVTF (R127): Conversion from an integer type to a floating type. -/
  | icvtf (u : Bool) (h : Guard) (d a : Reg) (t : FType) (y : IType)
  /-- HADD2 (R128): Packed FP16 or BF16 add of two element pairs. -/
  | hadd2 (h : Guard) (d a : Reg) (f g : Bool) (b : Reg)
  /-- HMUL2 (R128): Packed FP16 or BF16 multiply. -/
  | hmul2 (h : Guard) (d a : Reg) (f g : Bool) (b : Reg)
  /-- HFMA2 (R128): Packed FP16 or BF16 fused multiply-add. -/
  | hfma2 (h : Guard) (d a : Reg) (f g : Bool) (b : Reg)
  /-- DOT2 (R129): Exact two-element dot product added to FP32 d, rounded once. -/
  | dot2 (h : Guard) (d a : Reg) (f g : Bool) (b : Reg)
  /-- VOTE_MASK (R162): Gathers a predicate of the active threads into a g mask. -/
  | voteMask (h : Guard) (d : Reg) (p : BitVec 3)
  /-- VOTE_EVERY (R162): Sets a q predicate when the predicate holds in every active thread. -/
  | voteEvery (h : Guard) (q p : BitVec 3)
  /-- VOTE_SOME (R162): Sets a q predicate when the predicate holds in some active thread. -/
  | voteSome (h : Guard) (q p : BitVec 3)
  /-- VOTE_SAME (R162): Sets a q predicate when the b operand is equal in every active thread. -/
  | voteSame (h : Guard) (q : BitVec 3) (b : BSel)
  /-- VOTE_COUNT (R162): Counts the active threads where the predicate holds. -/
  | voteCount (h : Guard) (d : Reg) (p : BitVec 3)
  /-- SHFL_AT (R164): Each thread copies a register from thread n. -/
  | shflAt (h : Guard) (d a : Reg) (r : Bool) (k : BitVec 5)
  /-- SHFL_BACK (R164): Each thread copies a register from the thread n places below. -/
  | shflBack (h : Guard) (d a : Reg) (r : Bool) (k : BitVec 5)
  /-- SHFL_FWD (R164): Each thread copies a register from the thread n places above. -/
  | shflFwd (h : Guard) (d a : Reg) (r : Bool) (k : BitVec 5)
  /-- SHFL_MIX (R164): Each thread copies a register from its index XOR n. -/
  | shflMix (h : Guard) (d a : Reg) (r : Bool) (k : BitVec 5)
  /-- BCAST (R165): Broadcasts a register of one thread to every active thread. -/
  | bcast (h : Guard) (d a : Reg) (b : BSel)
  /-- GRED (R167): Reduces a v register over the active threads into a g register. -/
  | gred (h : Guard) (d a : Reg) (f : GFn)
  /-- SCAN (R168): Inclusive prefix combination over the active threads. -/
  | scan (h : Guard) (d a : Reg) (f : GFn)
  /-- SCAN_EXCL (R168): Exclusive prefix combination over the active threads. -/
  | scanExcl (h : Guard) (d a : Reg) (f : GFn)
  /-- ELECT (R163): Writes the lowest active thread's index and optionally marks it in a predicate. -/
  | elect (h : Guard) (d : Reg) (p : BitVec 3)
  /-- XCHG (R171): Issues one side of a register exchange with the partner group in the paired cluster. -/
  | xchg (h : Guard) (d a : Reg) (t : BitVec 6)
  /-- JOIN_ARM (R173): Arms a join register with the mask given by b. -/
  | joinArm (h : Guard) (k : BitVec 3) (b : BSel)
  /-- JOIN_ARM_RUN (R173): Arms a join register with b ANDed with the Running set. -/
  | joinArmRun (h : Guard) (k : BitVec 3) (b : BSel)
  /-- JOIN_WAIT (R174): The Running threads arrive at a join register and become Joined. -/
  | joinWait (h : Guard) (k : BitVec 3)
  /-- YIELD (R175): Makes the group not ready until the owner's other ready groups have issued. -/
  | yield (h : Guard)
  /-- SLOT_REL (R176): Publishes a release of the owner's lane slots for a length of owner cycles. -/
  | slotRel (h : Guard) (a : Reg) (b : BSel)
  /-- SLOT_Q (R177): Queries when the first covered release run of a slot ends. -/
  | slotQ (h : Guard) (d : Reg) (b : BSel)
  /-- SCOPED_LD_GLB_B32 (R230): Four-byte load with optional acquire at a scope. -/
  | scopedLdGlbB32 (u : Bool) (h : Guard) (d a : Reg) (o : Ord) (x : Scope) (f : BitVec 3)
  /-- SCOPED_LD_GLB_B64 (R230): Eight-byte load with optional acquire at a scope. -/
  | scopedLdGlbB64 (u : Bool) (h : Guard) (d a : Reg) (o : Ord) (x : Scope) (f : BitVec 3)
  /-- SCOPED_ST_GLB_B32 (R230): Four-byte store with optional release at a scope. -/
  | scopedStGlbB32 (u : Bool) (h : Guard) (d a : Reg) (o : Ord) (x : Scope) (f : BitVec 3)
  /-- SCOPED_ST_GLB_B64 (R230): Eight-byte store with optional release at a scope. -/
  | scopedStGlbB64 (u : Bool) (h : Guard) (d a : Reg) (o : Ord) (x : Scope) (f : BitVec 3)
  /-- LDS_B32 (R231): Four-byte scratchpad load through a 32-bit scratch-window offset. -/
  | ldsB32 (u : Bool) (h : Guard) (d a : Reg) (o : Ord) (x : Scope) (f : BitVec 3)
  /-- LDS_B64 (R231): Eight-byte scratchpad load. -/
  | ldsB64 (u : Bool) (h : Guard) (d a : Reg) (o : Ord) (x : Scope) (f : BitVec 3)
  /-- STS_B32 (R231): Four-byte scratchpad store. -/
  | stsB32 (u : Bool) (h : Guard) (d a : Reg) (o : Ord) (x : Scope) (f : BitVec 3)
  /-- STS_B64 (R231): Eight-byte scratchpad store. -/
  | stsB64 (u : Bool) (h : Guard) (d a : Reg) (o : Ord) (x : Scope) (f : BitVec 3)
  /-- LDC (R232): Constant load from a read-only page. -/
  | ldc (u : Bool) (h : Guard) (d a : Reg) (f : BitVec 3)
  /-- ATOM_ADD_N32 (R236): Atomic 32-bit add returning the old value. -/
  | atomAddN32 (u : Bool) (h : Guard) (d a : Reg) (o : Ord) (x : Scope)
  /-- ATOM_ADD_N64 (R236): Atomic 64-bit add returning the old value. -/
  | atomAddN64 (u : Bool) (h : Guard) (d a : Reg) (o : Ord) (x : Scope)
  /-- ATOM_MIN_I32 (R236): Atomic signed minimum. -/
  | atomMinI32 (u : Bool) (h : Guard) (d a : Reg) (o : Ord) (x : Scope)
  /-- ATOM_MAX_I32 (R236): Atomic signed maximum. -/
  | atomMaxI32 (u : Bool) (h : Guard) (d a : Reg) (o : Ord) (x : Scope)
  /-- ATOM_MIN_N32 (R236): Atomic unsigned minimum. -/
  | atomMinN32 (u : Bool) (h : Guard) (d a : Reg) (o : Ord) (x : Scope)
  /-- ATOM_MAX_N32 (R236): Atomic unsigned maximum. -/
  | atomMaxN32 (u : Bool) (h : Guard) (d a : Reg) (o : Ord) (x : Scope)
  /-- ATOM_OR (R236): Atomic OR. -/
  | atomOr (u : Bool) (h : Guard) (d a : Reg) (o : Ord) (x : Scope)
  /-- ATOM_AND (R236): Atomic AND. -/
  | atomAnd (u : Bool) (h : Guard) (d a : Reg) (o : Ord) (x : Scope)
  /-- ATOM_EXCH_B32 (R236): Atomic 32-bit exchange. -/
  | atomExchB32 (u : Bool) (h : Guard) (d a : Reg) (o : Ord) (x : Scope)
  /-- ATOM_CAS_B32 (R236): Atomic 32-bit compare and swap. -/
  | atomCasB32 (u : Bool) (h : Guard) (d a : Reg) (o : Ord) (x : Scope)
  /-- ATOM_EXCH_B64 (R236): Atomic 64-bit exchange. -/
  | atomExchB64 (u : Bool) (h : Guard) (d a : Reg) (o : Ord) (x : Scope)
  /-- ATOM_CAS_B64 (R236): Atomic 64-bit compare and swap. -/
  | atomCasB64 (u : Bool) (h : Guard) (d a : Reg) (o : Ord) (x : Scope)
  /-- ATOM_ADD_F32 (R235): Atomic FP32 add returning the old value. -/
  | atomAddF32 (u : Bool) (h : Guard) (d a : Reg) (o : Ord) (x : Scope)
  /-- ATOM_MIN_F32 (R236): Atomic FP32 minimum. -/
  | atomMinF32 (u : Bool) (h : Guard) (d a : Reg) (o : Ord) (x : Scope)
  /-- ATOM_MAX_F32 (R236): Atomic FP32 maximum. -/
  | atomMaxF32 (u : Bool) (h : Guard) (d a : Reg) (o : Ord) (x : Scope)
  /-- RED_ADD_N32 (R236): Reduction 32-bit add without a returned value. -/
  | redAddN32 (u : Bool) (h : Guard) (d a : Reg) (o : Ord) (x : Scope)
  /-- RED_ADD_N64 (R236): Reduction 64-bit add. -/
  | redAddN64 (u : Bool) (h : Guard) (d a : Reg) (o : Ord) (x : Scope)
  /-- RED_MIN_I32 (R236): Reduction signed minimum. -/
  | redMinI32 (u : Bool) (h : Guard) (d a : Reg) (o : Ord) (x : Scope)
  /-- RED_MAX_I32 (R236): Reduction signed maximum. -/
  | redMaxI32 (u : Bool) (h : Guard) (d a : Reg) (o : Ord) (x : Scope)
  /-- RED_MIN_N32 (R236): Reduction unsigned minimum. -/
  | redMinN32 (u : Bool) (h : Guard) (d a : Reg) (o : Ord) (x : Scope)
  /-- RED_MAX_N32 (R236): Reduction unsigned maximum. -/
  | redMaxN32 (u : Bool) (h : Guard) (d a : Reg) (o : Ord) (x : Scope)
  /-- RED_OR (R236): Reduction OR. -/
  | redOr (u : Bool) (h : Guard) (d a : Reg) (o : Ord) (x : Scope)
  /-- RED_AND (R236): Reduction AND. -/
  | redAnd (u : Bool) (h : Guard) (d a : Reg) (o : Ord) (x : Scope)
  /-- RED_ADD_F32 (R235): Reduction FP32 add. -/
  | redAddF32 (u : Bool) (h : Guard) (d a : Reg) (o : Ord) (x : Scope)
  /-- RED_MIN_F32 (R236): Reduction FP32 minimum. -/
  | redMinF32 (u : Bool) (h : Guard) (d a : Reg) (o : Ord) (x : Scope)
  /-- RED_MAX_F32 (R236): Reduction FP32 maximum. -/
  | redMaxF32 (u : Bool) (h : Guard) (d a : Reg) (o : Ord) (x : Scope)
  /-- FENCE (R237): Acquire, release or acquire-release fence at a scope. -/
  | fence (h : Guard) (o : Ord) (x : Scope)
  /-- BAR_ARR (R240): Arrives at a named barrier without waiting. -/
  | barArr (h : Guard) (b : BitVec 4) (k : BitVec 6)
  /-- BAR_WAIT (R240): Waits for the next phase of a named barrier. -/
  | barWait (h : Guard) (b : BitVec 4)
  /-- BAR_SYNC (R240): Arrives at a named barrier and waits for the phase. -/
  | barSync (h : Guard) (b : BitVec 4) (k : BitVec 6)
  /-- OWN_TAKE (R244): Records a request to make a line range Private to the workgroup. -/
  | ownTake (h : Guard) (d a : Reg)
  /-- OWN_GIVE (R244): Records a request to give up a Private line range. -/
  | ownGive (h : Guard) (d a : Reg)
  /-- PREF (R245): Requests that a line be prefetched into the owner's caches. -/
  | pref (u : Bool) (h : Guard) (a : Reg)
  /-- TRIG (R246): Marks threads as triggered for the early-trigger promise. -/
  | trig (u : Bool) (h : Guard)
  /-- CP_IN_SCR (R299): Copies a tensor tile from memory into scratchpad. -/
  | cpInScr (h : Guard) (k : BitVec 4) (a : Reg) (b : BitVec 4) (e : Bool)
  /-- CP_IN_OBUF (R299): Copies a tensor tile from memory into an operand-buffer reservation. -/
  | cpInObuf (h : Guard) (k : BitVec 4) (a : Reg) (b : BitVec 4) (e : Bool)
  /-- CP_OUT_SCR (R299): Copies a tensor tile from scratchpad to memory. -/
  | cpOutScr (h : Guard) (k : BitVec 4) (a : Reg) (b : BitVec 4) (e : Bool)
  /-- TREC_TAB (R297): Loads a tensor slot from the image's tensor-record table. -/
  | trecTab (h : Guard) (k : BitVec 4) (b : BSel)
  /-- TREC_BASE (R297): Replaces a tensor slot's base address. -/
  | trecBase (h : Guard) (k : BitVec 4) (a : Reg)
  /-- OBUF_RSV_TPL (R302): Fills a reservation record from a template. -/
  | obufRsvTpl (h : Guard) (k : BitVec 4) (b : BSel)
  /-- OBUF_RSV_REG (R302): Fills a reservation record from a register pair. -/
  | obufRsvReg (h : Guard) (k : BitVec 4) (a : Reg)
  /-- OBUF_FREE (R302): Ends an operand-buffer reservation. -/
  | obufFree (h : Guard) (k : BitVec 4)
  /-- MMA (R303): Enters one quarter operation per active quarter into the lane's matrix queue. -/
  | mma (h : Guard) (d a b : Reg)
  /-- MMA_FENCE (R304): Closes a batch of mma instructions and writes its number. -/
  | mmaFence (h : Guard) (d : Reg)
  /-- MMA_WAIT (R304): Issues once the named batch is complete. -/
  | mmaWait (h : Guard) (b : BSel)
  /-- ACC_ZERO (R305): Enters a tile operation that zeroes an accumulator tile. -/
  | accZero (h : Guard) (d : Reg)
  /-- ACC_RD (R305): Enters a tile operation that reads one accumulator row into v registers. -/
  | accRd (h : Guard) (d a : Reg) (b : BSel)
  /-- DRAIN (R306): Enters a tile operation that writes straight and transposed images of a tile. -/
  | drain (h : Guard) (d a : Reg) (k : BitVec 4) (e : Bool)
  /-- QCVT (R307): Quantises the group's 32 values into one DX block. -/
  | qcvt (h : Guard) (d a : Reg) (f : DxFmt) (k : Reg)
  /-- DEQ (R308): Asks for the next item of a Drover queue. -/
  | deq (h : Guard) (d : Reg) (q : BitVec 3) (b : BSel)
  /-- ENQ (R309): Submits a 64-byte item to a Drover queue. -/
  | enq (h : Guard) (q : BitVec 3) (a : Reg) (b : BSel)
  /-- JPOST (R309): Submits a job card to a per-core queue of a logical core. -/
  | jpost (h : Guard) (q : BitVec 3) (a : Reg) (b : BSel)
  /-- DISP (R310): Reads a shape-bucket dispatch table and selects a bucket. -/
  | disp (h : Guard) (d a : Reg) (b : BSel)
  /-- SETS (R373): Writes a writable special register. -/
  | sets (h : Guard) (r : SReg) (b : BSel)
  /-- TRAP (R375): Raises a software trap with a code. -/
  | trap (u : Bool) (h : Guard) (b : BSel)
  /-- RTE (R376): Leaves trap mode, restoring the Frame and resuming at TRAP_PC. -/
  | rte (h : Guard)
  /-- HALT (R377): Ends the launch of the issuing group with a code. -/
  | halt (h : Guard) (b : BSel)
  /-- LEASE_REQ (R379): Presents a sprint-lease request to the island's power controller. -/
  | leaseReq (h : Guard) (d a : Reg) (l : BitVec 2) (q : BitVec 3)
  /-- LEASE_END (R379): Ends the owner's live lease on the island. -/
  | leaseEnd (h : Guard)
  /-- RAND (R380): Draws a per-thread random value from the group's key and counter. -/
  | rand (h : Guard) (d : Reg)
  /-- RAND_SEED (R380): Sets the group's random key and zeroes its counter. -/
  | randSeed (h : Guard) (a : Reg)
  /-- CTX_GSAVE (R383): SYS saves a group's context image. -/
  | ctxGsave (h : Guard) (d a : Reg)
  /-- CTX_GREST (R383): SYS creates a group from a context image. -/
  | ctxGrest (h : Guard) (d a : Reg)
  /-- CTX_WSAVE (R383): SYS saves a workgroup's core-wide image. -/
  | ctxWsave (h : Guard) (d a : Reg)
  /-- CTX_WREST (R383): SYS restores a workgroup's core-wide state. -/
  | ctxWrest (h : Guard) (d a : Reg)
  /-- CTX_REMAP (R383): SYS sets one logical-to-physical remap entry. -/
  | ctxRemap (h : Guard) (d : Reg)
  /-- NPOST (R317): Reads a trigger record and arms a network operation entry. -/
  | npost (h : Guard) (a : Reg)
  /-- NCTR_ADD (R313): Adds to a trigger counter, plain or with release. -/
  | nctrAdd (h : Guard) (o : Ord) (x : Scope) (a : Reg) (b : BSel)
  /-- NCTR_RD (R314): Reads a trigger counter with acquire at device scope. -/
  | nctrRd (h : Guard) (d a : Reg)
  /-- NCTR_WAIT (R314): Waits until a trigger counter reaches a threshold. -/
  | nctrWait (h : Guard) (a : Reg) (b : BSel)
  /-- NPUT (R318): Fires a put from a register block at issue. -/
  | nput (h : Guard) (a : Reg) (o : Ord) (x : Scope)
  /-- NGET (R318): Fires a get from a register block at issue. -/
  | nget (h : Guard) (a : Reg) (o : Ord) (x : Scope)
  /-- TREE_RED (R322): Contributes elements to a reduction across the launch's workgroups. -/
  | treeRed (h : Guard) (d a : Reg) (c : BitVec 3) (f : GFn)
  /-- TREE_BAR (R323): Arrives at a device-wide barrier over the reduction tree. -/
  | treeBar (h : Guard)
  /-- HINT_WIDE (R33): Extends an immediate, offset or length field of the bound instruction. -/
  | hintWide (p : BitVec 22)
  /-- HINT_SCHED (R34): Sets reuse, yield and stall scheduling for the bound instruction. -/
  | hintSched (r : BitVec 3) (y : Bool) (k : BitVec 4)
  /-- HINT_MOD (R35): Sets rounding, saturation, cache, scope and operand modifiers of the bound instruction. -/
  | hintMod (m : ModFields)
  /-- HINT_TYPE (R36): Sets source and destination lanes of a bound conversion. -/
  | hintType (k : Bool) (d a : BitVec 2)
  /-- ACCESS_REPLY (R111): A load or atomic reply becomes visible at its horizon, writing the destination and lowering the counter. -/
  | accessReply (k t : Nat)
  /-- STORE_RETURN (R111): A store or reduction is returned and takes effect at its visible cycle. -/
  | storeReturn (k t : Nat)
  /-- HELD_ACCESS_SEND (R251): A held release, address-match or Shared-line access is sent once what it waits for is performed. -/
  | heldAccessSend (k t : Nat)
  /-- PREFETCH_FILL (R245): A prefetched line is filled into the owner's L2 and L1 ways. -/
  | prefetchFill (o c l : Nat) (cache : BitVec 2)
  /-- SWITCH_END (R179): After 4,096 cycles the incoming owner is restored or created and resumes. -/
  | switchEnd (w : SwitchSpec)
  /-- RETIREMENT (R178): An owner whose last group on a lane has ended with counters zero retires and may publish its slots. -/
  | retirement (o l : Nat)
  /-- WORKGROUP_COMMIT (R222): At levels 1 and 2 a completed workgroup applies its commit buffer after lower workgroups. -/
  | workgroupCommit (w : Nat)
  /-- LAUNCH_COMPLETION (R416): A launch completes when all its workgroups have ended and operations completed, and its event is written. -/
  | launchCompletion (l : Nat)
  /-- HALT_PROPAGATE (R377): Other groups of a halted launch end at their boundary after w + 256. -/
  | haltPropagate (l : Nat)
  /-- DEPENDANT_RELEASE (R288): A dependant launch's groups become ready once every producer thread has triggered or ended. -/
  | dependantRelease (l : Nat)
  /-- ITEM_APPEND (R283): A group's enq or jpost item is appended or refused at w + H. -/
  | itemAppend (k : Nat)
  /-- DEQ_DELIVERY (R284): A queue item becomes visible to a waiting deq. -/
  | deqDelivery (k : Nat)
  /-- DEQ_CLOSED_INDICATION (R326): A deq on a closed, empty ring receives the closed indication. -/
  | deqClosedIndication (k : Nat)
  /-- SWAP_OUT (R293): A workgroup waiting at barriers beyond the threshold with an engine outstanding is swapped out. -/
  | swapOut (w : Nat)
  /-- COPY_BEAT (R240): A beat of an engine operation lands, lowering the barrier's PENDING. -/
  | copyBeat (k n : Nat)
  /-- COPY_COMPLETION (R301): A copy completes, flipping its granules back, arriving on its barrier and lowering its counter. -/
  | copyCompletion (k : Nat)
  /-- DRAIN_COMPLETION (R306): A drain completes with its images performed at device scope. -/
  | drainCompletion (k : Nat)
  /-- MATRIX_PASS_RESULT (R265): A pass's results are written at L + 16, completing its operations. -/
  | matrixPassResult (k : Nat)
  /-- XCHG_COMPLETE (R171): A matched exchange delivers each side's values at W + 16. -/
  | xchgComplete (k : Nat)
  /-- TREE_RED_COMPLETE (R322): A tree reduction's results become visible once all participants have contributed. -/
  | treeRedComplete (k : Nat)
  /-- TREE_BAR_COMPLETE (R323): A tree barrier completes once every participant has arrived. -/
  | treeBarComplete (k : Nat)
  /-- DISP_RESULT (R310): A dispatch's results are written at the latest visible cycle of its table lines. -/
  | dispResult (k : Nat)
  /-- NCTR_WAIT_MET (R314): A polling nctr.wait finds the counter at its threshold. -/
  | nctrWaitMet (k : Nat)
  /-- ENTRY_ARM (R317): An npost record becomes visible and its entry is armed or refused. -/
  | entryArm (k : Nat)
  /-- MESSAGE_ARRIVAL (R316): A network operation is performed at the peer and raises its rctr. -/
  | messageArrival (m : NetMsg)
  /-- LOCAL_COMPLETION (R316): A network operation reaches local completion, raising lctr and freeing its entry. -/
  | localCompletion (k : Nat)
  /-- NETWORK_OPERATION_FAULT (R320): A fired operation meeting a fault writes nothing further, frees its entry and reports an event. -/
  | networkOperationFault (k : Nat)
  /-- CONTEXT_OP_COMPLETE (R383): A SYS context operation completes and writes its status. -/
  | contextOpComplete (k : Nat)
  /-- LEASE_DECISION (R364): The power controller grants or refuses a lease at w + 256. -/
  | leaseDecision (k : Nat)
  /-- LEASE_EXPIRY (R366): LEASE_LEFT reaching zero ends the lease with an expiry trap. -/
  | leaseExpiry (o i : Nat)
  /-- MELT_UPDATE (R360): Every 10 us firmware updates each quota's melted amount. -/
  | meltUpdate
  /-- RAIL_EPOCH (R365): At each 100 us epoch island voltages rise or fall as leases require. -/
  | railEpoch
  /-- CLOCK_STEP (R365): An island clock steps to or from a sprint level at a period boundary. -/
  | clockStep (i l : Nat)
  /-- CORE_STATE_TRANSFER_END (R353): A 65,536-cycle core-state transfer ends and the owner resumes on its core. -/
  | coreStateTransferEnd (o c d : Nat)
  /-- CANARY_RELAX (R426): After 1 s without a failure the island voltage falls one step. -/
  | canaryRelax (i : Nat)
  /-- RETRAIN_RETRY (R400): An unfinished retrain is retried every 1 ms, failing the link after 100 tries. -/
  | retrainRetry (l : Nat)
  /-- EVENT_WRITE (R417): An event enters the owner's ring when it has room. -/
  | eventWrite (o c : Nat)
  /-- DEFERRED_TRAP_DELIVERY (R329): A pending deferred trap is taken in the group's first eligible window at or after its cycle. -/
  | deferredTrapDelivery (g : Nat)
  /-- HOLD_BEGIN (R153): A hold suspends every slot of an owner from a period boundary. -/
  | holdBegin (o : Nat) (c : HoldCause)
  /-- HOLD_END (R153): A hold ends at a period boundary and the owner resumes. -/
  | holdEnd (o : Nat) (c : HoldCause)
  /-- SWITCH_BEGIN (R155): A switch of lane slots begins, saving the outgoing owner's contexts. -/
  | switchBegin (w : SwitchSpec)
  /-- BORDER_MOVE (R157): The service controller moves an elastic context's borders at a workgroup completion. -/
  | borderMove (w : BorderSpec)
  /-- LEASE_RESIDENT (R194): Residing of a launch's lease completes and its pages are in place. -/
  | leaseResident (l i : Nat) (f : List Nat)
  /-- WORKGROUP_PLACEMENT (R278): Drover places a workgroup on a core with room in an owner's Drover slot. -/
  | workgroupPlacement (l : Nat)
  /-- SWAP_IN (R293): A swapped-out workgroup whose wake condition holds is restored on its core. -/
  | swapIn (w : Nat)
  /-- MATRIX_PASS (R265): A lane slice takes the owner's oldest tile operations, fusing quarters on one B. -/
  | matrixPass (o l : Nat)
  /-- THERMAL_SAMPLE (R357): Every 10 us core sensors are sampled. -/
  | thermalSample (r : List (Nat × Nat)) (p : Nat)
  /-- MIGRATION_MOVE (R357): An owner's move to a target core begins as a hold at its next period boundary. -/
  | migrationMove (o c d : Nat)
  /-- DRAM_STACK_OVERTEMP (R188): A stack at 105 degrees holds every owner with data in it. -/
  | dramStackOvertemp (n : Nat)
  /-- DRAM_STACK_COOL (R188): A stack falling below 105 degrees ends its hold. -/
  | dramStackCool (n : Nat)
  /-- SILO_LINK_DOWN (R198): A Silo port link going down holds owners with Resident Silo leases behind it. -/
  | siloLinkDown (p : Nat)
  /-- SILO_LINK_UP (R198): A Silo port link returning ends the hold. -/
  | siloLinkUp (p : Nat)
  /-- CANARY_FAILURE (R426): A canary failure raises the island voltage step, or holds owners at +40 mV. -/
  | canaryFailure (i : Nat)
  /-- ROUTER_ARBITRATION (R393): Requests for an egress port in an owner's fabric cycle are arbitrated by age, priority and tie pointer. Ports 0 to 7 are
  the request mesh's, 8 to 15 the reply mesh's, 16 stands for the Bellwether ring; `o` is the slot of the link's rota table. -/
  | routerArbitration (r p o : Nat)
  /-- PACKET_MISROUTE (R392): A packet blocked 64 owner cycles may request a non-productive port. Input queues 0 to 7 are the request mesh's, 8 to 15 the
  reply mesh's. -/
  | packetMisroute (r q o p : Nat)
  /-- BELLWETHER_CAPTURE (R394): The owner's token reaching a router with a suspect packet is captured and the packet enters the deadlock lane. -/
  | bellwetherCapture (o r : Nat)
  /-- DEADLOCK_LANE_EJECT (R395): The lane packet is accepted at its ejection port and the token resumes. -/
  | deadlockLaneEject (o : Nat)
  /-- FLIT_RECEIVE (R399): A die-to-die flit is received, checked, unpacked and its whole packets injected. -/
  | flitReceive (l : Nat) (f : Flit)
  /-- FLIT_ACKNOWLEDGE (R400): An acknowledgement frees flits from the sender's replay buffer. -/
  | flitAcknowledge (l n : Nat)
  /-- LANE_FAILURE (R400): A lane failing its signal check starts a retrain. -/
  | laneFailure (l : Nat)
  /-- RETRAIN_COMPLETE (R400): The hold ends when every replayed flit has been acknowledged. -/
  | retrainComplete (l : Nat)
  /-- LAUNCH (R272): Host command that accepts an image and launch record and starts residing, declaring and placing. -/
  | launch (o q : Nat)
  /-- ENQ_COMMAND (R283): Host command that appends an item to an owner's queue. -/
  | enqCommand (o q : Nat)
  /-- QCLOSE (R284): Host command that closes a queue. -/
  | qclose (o q : Nat)
  /-- QDELETE (R414): Host command that deletes a closed, empty queue. -/
  | qdelete (o q : Nat)
  /-- CANCEL (R414): Host command that disarms the partition's entries naming a counter. -/
  | cancel (o q : Nat)
  /-- RESYNC (R418): Host command that writes a snapshot summary to a host buffer. -/
  | resync (o q : Nat)
  /-- EV_CTL_WRITE (R417): Write of EV_CTL; enabling resets EV_HEAD and EV_TAIL. -/
  | evCtlWrite (o : Nat) (v : Word)
  /-- EV_HEAD_WRITE (R417): Write of EV_HEAD, freeing ring entries for held events. -/
  | evHeadWrite (o : Nat) (v : Word)
  /-- LQ_CTL_WRITE (R412): Write of LQ_CTL: enable resets head and tail, ERR clears by writing 1. -/
  | lqCtlWrite (o q : Nat) (v : Word)
  /-- LQ_TAIL_WRITE (R413): Doorbell write that makes commands available to Drover. -/
  | lqTailWrite (o q : Nat) (v : Word)
  /-- REGISTER_WRITE (R411): Write of an owner-window register without behaviour of its own. -/
  | registerWrite (o a : Nat) (v : Dword)
  /-- FREEZE (R419): Management-window write that freezes the black-box recorder. -/
  | freeze
  /-- HOST_MEMORY_REQUEST (R421): A host-port request naming an isolated partition's frame completes with Completer Abort. -/
  | hostMemoryRequest (a : Nat) (w : HostAccess)
  /-- PARTITION_CREATE (R420): Firmware creates a partition from its creation record, or refuses it. -/
  | partitionCreate (r : PartRec)
  /-- PARTITION_DESTROY (R420): Firmware destroys a partition, erasing its key and scrubbing its frames. -/
  | partitionDestroy (o : Nat)
  /-- L2_COLUMN_OFF (R402): Firmware switches off the L2 slices of unused columns. -/
  | l2ColumnOff (q c : Nat)
  /-- GET_VERSION (R422): SPDM request for supported versions. -/
  | getVersion
  /-- GET_CAPABILITIES (R422): SPDM capabilities request. -/
  | getCapabilities (v : Nat)
  /-- NEGOTIATE_ALGORITHMS (R422): SPDM algorithm negotiation with SM2, SM3 and SM4-GCM only. -/
  | negotiateAlgorithms (r : SpdmOffer)
  /-- GET_DIGESTS (R422): SPDM request for certificate chain digests. -/
  | getDigests
  /-- GET_CERTIFICATE (R422): SPDM request for a certificate chain of slot 0 or 1. -/
  | getCertificate (c a n : Nat)
  /-- CHALLENGE (R422): SPDM challenge authentication. -/
  | challenge (c n : Nat)
  /-- GET_MEASUREMENTS (R422): SPDM request for device and partition measurements. -/
  | getMeasurements (i : Nat)
  /-- KEY_EXCHANGE (R423): SPDM key exchange, optionally binding the session to a partition. -/
  | keyExchange (c : Nat) (p : Option Nat)
  /-- FINISH (R422): SPDM session finish. -/
  | finish (i : Nat) (m : Bool)
  /-- HEARTBEAT (R422): SPDM session heartbeat. -/
  | heartbeat (i : Nat)
  /-- KEY_UPDATE (R423): SPDM update of session keys only. -/
  | keyUpdate (i : Nat)
  /-- END_SESSION (R422): SPDM end of session. -/
  | endSession (i : Nat)
  /-- UNSUPPORTED_SPDM_REQUEST (R422): Any other SPDM request is answered with ERROR UnsupportedRequest. -/
  | unsupportedSpdmRequest (c : Nat)
  /-- POWER_GOOD (R428): Regulators reach power-good and bring-up measures firmware, trains links and creates SYS. -/
  | powerGood (r : BringUp)
  /-- WARM_RESET (R419): A warm reset, which the black-box recorder survives. -/
  | warmReset
  /-- RESIDENCY_CONFIRM (R408): A device learns through the fabric manager that every device named by a fab-domain launch has made its leases Resident, and may then create groups. -/
  | residencyConfirm (l : Nat)
  /-- FLIT_REPLAY (R400): A sender receives a receiver's request for replay and resends from the first unacknowledged flit, retraining the link after more than 8 replays in a row. -/
  | flitReplay (l n : Nat)
  deriving DecidableEq, Repr

end Sys2Proof
end

