-- ==== Sys2Proof/Machine/Float.lean ====
section
/-! DEFINITION. Scalar number formats (R78 to R88), exact rational rounding, `Deliver`, `Narrow`, `Widen`, and floating
arithmetic (R116 to R129), as functions of bits, mode and flags only (R120). A flag set is the low four bits of `FLAGS`. -/

namespace Sys2Proof.Machine

/-! ### Flags (R14) -/

/-- A set of flags in the layout of `FLAGS` bits 3:0. -/
abbrev Flags := BitVec 4

def flagINX : Flags := 1#4
def flagOVF : Flags := 2#4
def flagINV : Flags := 4#4
def flagSAT : Flags := 8#4

/-! ### Rounding modes (R83) -/

inductive RMode where
  | rn | rz | rdn | rup
  deriving DecidableEq, Repr

/-- RND 1 to 4; 0 leaves the default (R35). -/
def RMode.ofRnd (b : BitVec 3) (dflt : RMode) : RMode :=
  if b = 1#3 then .rn else if b = 2#3 then .rz else if b = 3#3 then .rdn else if b = 4#3 then .rup else dflt

/-! ### Exact values -/

/-- An exact finite value: (-1)^s * n / d, with d > 0. A zero keeps its sign in s (R82). -/
structure Exact where
  s : Bool
  n : Nat
  d : Nat
  deriving DecidableEq, Repr

/-- n * 2^e as an exact value. -/
def Exact.dyadic (s : Bool) (n : Nat) (e : Int) : Exact :=
  if 0 ≤ e then ⟨s, n * 2 ^ e.toNat, 1⟩ else ⟨s, n, 2 ^ (-e).toNat⟩

def Exact.ofInt (i : Int) : Exact := ⟨decide (i < 0), i.natAbs, 1⟩

/-- The signed numerator. -/
def Exact.num (x : Exact) : Int := if x.s then -(x.n : Int) else (x.n : Int)

def Exact.isZero (x : Exact) : Bool := decide (x.n = 0)

def Exact.mul (x y : Exact) : Exact := ⟨x.s != y.s, x.n * y.n, x.d * y.d⟩

/-- Exact sum. A zero sum of opposite signs is +0, or -0 toward minus infinity; of like signs it keeps the sign (R82). -/
def Exact.add (m : RMode) (x y : Exact) : Exact :=
  let t : Int := x.num * (y.d : Int) + y.num * (x.d : Int)
  let zs := if x.n = 0 ∧ y.n = 0 ∧ x.s = y.s then x.s else decide (m = .rdn)
  if t = 0 then ⟨zs, 0, 1⟩ else ⟨decide (t < 0), t.natAbs, x.d * y.d⟩

/-- x < y as numbers. -/
def Exact.lt (x y : Exact) : Bool := decide (x.num * (y.d : Int) < y.num * (x.d : Int))

def Exact.eqv (x y : Exact) : Bool := decide (x.num * (y.d : Int) = y.num * (x.d : Int))

/-- The value of a floating code. -/
inductive FVal where
  | nan
  | inf (s : Bool)
  | fin (x : Exact)
  deriving DecidableEq, Repr

def FVal.isNan : FVal → Bool
  | .nan => true
  | .inf _ | .fin _ => false

def FVal.neg : FVal → FVal
  | .nan => .nan
  | .inf s => .inf (!s)
  | .fin x => .fin { x with s := !x.s }

def FVal.abs : FVal → FVal
  | .nan => .nan
  | .inf _ => .inf false
  | .fin x => .fin { x with s := false }

/-! ### Layouts (R78 to R80) -/

/-- A float layout: exponent and fraction widths, bias, and whether the all-ones exponent codes infinities. -/
structure Layout where
  ew : Nat
  mw : Nat
  bias : Nat
  hasInf : Bool
  deriving DecidableEq, Repr

def layoutOf : FType → Layout
  | .f32 => ⟨8, 23, 127, true⟩
  | .f16 => ⟨5, 10, 15, true⟩
  | .bf16 => ⟨8, 7, 127, true⟩
  | .e4m3 => ⟨4, 3, 7, false⟩
  | .e5m2 => ⟨5, 2, 15, true⟩

def Layout.width (f : Layout) : Nat := 1 + f.ew + f.mw

/-- The canonical NaN: sign 0 and every other bit set (R80, R81). -/
def Layout.nan (f : Layout) : Nat := 2 ^ (f.ew + f.mw) - 1

def Layout.signBit (f : Layout) (s : Bool) : Nat := if s then 2 ^ (f.ew + f.mw) else 0

def Layout.infinity (f : Layout) (s : Bool) : Nat := f.signBit s + (2 ^ f.ew - 1) * 2 ^ f.mw

/-- The largest finite code: below the infinity, or below the NaN where the format has no infinity (R80). -/
def Layout.largest (f : Layout) (s : Bool) : Nat :=
  f.signBit s + (if f.hasInf then (2 ^ f.ew - 1) * 2 ^ f.mw - 1 else f.nan - 1)

/-- The value of a code (R79). -/
def Layout.value (f : Layout) (c : Nat) : FVal :=
  let s := decide (c / 2 ^ (f.ew + f.mw) % 2 = 1)
  let e := c / 2 ^ f.mw % 2 ^ f.ew
  let m := c % 2 ^ f.mw
  if e = 2 ^ f.ew - 1 ∧ f.hasInf then (if m = 0 then .inf s else .nan)
  else if ¬f.hasInf ∧ e = 2 ^ f.ew - 1 ∧ m = 2 ^ f.mw - 1 then .nan
  else if e = 0 then .fin (Exact.dyadic s m (1 - (f.bias : Int) - f.mw))
  else .fin (Exact.dyadic s (2 ^ f.mw + m) ((e : Int) - f.bias - f.mw))

/-- The magnitude of a finite code as an exact value. -/
def Layout.magnitude (f : Layout) (c : Nat) : Exact :=
  match f.value c with
  | .fin x => { x with s := false }
  | .nan | .inf _ => ⟨false, 0, 1⟩

/-! ### Rounding (R83) -/

/-- n / d rounded to an integer; `s` is the sign of the value whose magnitude it is. -/
def roundNat (m : RMode) (s : Bool) (n d : Nat) : Nat :=
  let q := n / d
  let r := n % d
  match m with
  | .rn => if d < 2 * r ∨ (2 * r = d ∧ q % 2 = 1) then q + 1 else q
  | .rz => q
  | .rdn => if s ∧ r ≠ 0 then q + 1 else q
  | .rup => if ¬s ∧ r ≠ 0 then q + 1 else q

/-- The greatest e with 2^e ≤ n / d, for n, d > 0. -/
def log2Ratio (n d : Nat) : Int :=
  let l : Int := (Nat.log2 n : Int) - (Nat.log2 d : Int)
  let below : Bool := if 0 ≤ l then decide (n < d * 2 ^ l.toNat) else decide (n * 2 ^ (-l).toNat < d)
  if below then l - 1 else l

/-- A rounded magnitude k * 2^q. -/
structure Rounded where
  k : Nat
  q : Int
  deriving DecidableEq, Repr

/-- RoundUnbounded to a precision of mw fraction bits, with the subnormal spacing 2^(emin - mw) kept (R83). -/
def roundFloat (mw : Nat) (emin : Int) (m : RMode) (x : Exact) : Rounded :=
  if x.n = 0 then ⟨0, emin - mw⟩ else
  let e := log2Ratio x.n x.d
  let q := (if e < emin then emin else e) - mw
  let k := if 0 ≤ q then roundNat m x.s x.n (x.d * 2 ^ q.toNat) else roundNat m x.s (x.n * 2 ^ (-q).toNat) x.d
  ⟨k, q⟩

def Rounded.exact (s : Bool) (y : Rounded) : Exact := Exact.dyadic s y.k y.q

def Layout.emin (f : Layout) : Int := 1 - (f.bias : Int)

/-- Encode of R87: the code of a rounded value that lies within the format's range. -/
def Layout.encode (f : Layout) (s : Bool) (y : Rounded) : Nat :=
  let y := if 2 ^ (f.mw + 1) ≤ y.k then (⟨y.k / 2, y.q + 1⟩ : Rounded) else y
  if y.k < 2 ^ f.mw then f.signBit s + y.k
  else f.signBit s + (y.q + f.mw + f.bias).toNat * 2 ^ f.mw + (y.k - 2 ^ f.mw)

/-- ToInfinity of chapter 6. -/
def toInfinity (m : RMode) (s : Bool) : Bool :=
  match m with
  | .rn => true
  | .rz => false
  | .rdn => s
  | .rup => !s

/-- A result and the flags it raises. -/
structure FRes where
  bits : Nat
  fl : Flags
  deriving DecidableEq, Repr

/-- Deliver (R84): an exact finite result rounded once. -/
def deliver (f : Layout) (m : RMode) (sat : Bool) (x : Exact) : FRes :=
  let y := roundFloat f.mw f.emin m x
  let inx : Flags := if (y.exact x.s).eqv x then 0#4 else flagINX
  if !((f.magnitude (f.largest false)).lt (y.exact false)) then ⟨f.encode x.s y, inx⟩
  else if sat then ⟨f.largest x.s, flagINX ||| flagOVF ||| flagSAT⟩
  else if toInfinity m x.s then ⟨f.infinity x.s, flagINX ||| flagOVF⟩
  else ⟨f.largest x.s, flagINX ||| flagOVF⟩

/-! ### Narrowing and widening (R86, R87) -/

/-- H of R80: half-way between the largest finite magnitude and the next of the grid continued upwards. -/
def Layout.halfBeyond (f : Layout) : Exact :=
  let top := roundFloat f.mw f.emin .rz (f.magnitude (f.largest false))
  Exact.dyadic false (2 * top.k + 1) (top.q - 1)

/-- Narrow of R87 to a floating format. -/
def narrowFloat (f : Layout) (v2 : Bool) (m : RMode) (x : FVal) : FRes :=
  match x with
  | .nan => ⟨f.nan, 0#4⟩
  | .inf s => if v2 then ⟨f.nan, flagINV⟩ else ⟨f.largest s, flagSAT ||| flagOVF ||| flagINX⟩
  | .fin x =>
    if m = .rn ∧ (Exact.mk false x.n x.d).eqv f.halfBeyond then ⟨f.largest x.s, flagOVF ||| flagINX⟩
    else
      let y := roundFloat f.mw f.emin m x
      let inx : Flags := if (y.exact x.s).eqv x then 0#4 else flagINX
      if !((f.magnitude (f.largest false)).lt (y.exact false)) then ⟨f.encode x.s y, inx⟩
      else ⟨f.largest x.s, inx ||| flagSAT ||| flagOVF⟩

/-- Widen of R86: NaN and infinities are delivered as such, finite values rounded by R83. A finite value never exceeds the
destination's range. -/
def widenFloat (f : Layout) (m : RMode) (x : FVal) : FRes :=
  match x with
  | .nan => ⟨f.nan, 0#4⟩
  | .inf s => ⟨f.infinity s, 0#4⟩
  | .fin x => deliver f m false x

/-- Width and signedness of an integer type (R85). -/
def intWidth : IType → Nat
  | .i8 | .n8 => 8
  | .i16 | .n16 => 16
  | .i32 | .n32 => 32
  | .i64 | .n64 => 64

def intSigned : IType → Bool
  | .i8 | .i16 | .i32 | .i64 => true
  | .n8 | .n16 | .n32 | .n64 => false

def intMax (t : IType) : Int := if (intSigned t) then 2 ^ ((intWidth t) - 1) - 1 else 2 ^ (intWidth t) - 1
def intMin (t : IType) : Int := if (intSigned t) then -(2 ^ ((intWidth t) - 1)) else 0

/-- The two's complement code of an integer in n bits. -/
def intBits (n : Nat) (i : Int) : Nat := (i % (2 ^ n : Int)).toNat

/-- Narrow of R87 to an integer type. -/
def narrowInt (t : IType) (m : RMode) (x : FVal) : FRes :=
  let largest (s : Bool) : Nat := intBits (intWidth t) (if s then (intMin t) else (intMax t))
  match x with
  | .nan => ⟨0, flagINV⟩
  | .inf s => ⟨largest s, flagSAT ||| flagOVF ||| flagINX⟩
  | .fin x =>
    if m = .rn ∧ x.s = false ∧ x.eqv ⟨false, (2 * (intMax t) + 1).toNat, 2⟩ then ⟨largest false, flagOVF ||| flagINX⟩
    else
      let k := roundNat m x.s x.n x.d
      let y : Int := if x.s then -(k : Int) else k
      let inx : Flags := if (Exact.ofInt y).eqv x then 0#4 else flagINX
      if (intMin t) ≤ y ∧ y ≤ (intMax t) then ⟨intBits (intWidth t) y, inx⟩
      else ⟨largest x.s, inx ||| flagSAT ||| flagOVF⟩

/-- Narrowing between floating formats (R86): the destination's largest finite magnitude is the smaller. -/
def narrowing (src dst : FType) : Bool :=
  ((layoutOf dst).magnitude ((layoutOf dst).largest false)).lt ((layoutOf src).magnitude ((layoutOf src).largest false))

/-- An integer source is narrowing when its range exceeds the destination's largest finite magnitude (R86). -/
def narrowingFromInt (src : IType) (dst : FType) : Bool :=
  ((layoutOf dst).magnitude ((layoutOf dst).largest false)).lt (Exact.ofInt (max (intMax src) (-(intMin src))))

/-- The result of `fcvt` (R127). -/
def convFF (src dst : FType) (v2 : Bool) (m : RMode) (c : Nat) : FRes :=
  let x := (layoutOf src).value c
  if narrowing src dst then narrowFloat (layoutOf dst) v2 m x else widenFloat (layoutOf dst) m x

/-- The result of `fcvti` (R127). -/
def convFI (src : FType) (dst : IType) (m : RMode) (c : Nat) : FRes := narrowInt dst m ((layoutOf src).value c)

/-- The integer that a code of `t` stands for. -/
def intValue (t : IType) (c : Nat) : Int :=
  if (intSigned t) ∧ 2 ^ ((intWidth t) - 1) ≤ c then (c : Int) - 2 ^ (intWidth t) else c

/-- The result of `icvtf` (R127). -/
def convIF (src : IType) (dst : FType) (v2 : Bool) (m : RMode) (c : Nat) : FRes :=
  let x : FVal := .fin (Exact.ofInt (intValue src c))
  if narrowingFromInt src dst then narrowFloat (layoutOf dst) v2 m x else widenFloat (layoutOf dst) m x

/-- SaturateInt (R85). -/
def saturateInt (t : IType) (x : Int) : Int × Flags :=
  if (intMax t) < x then ((intMax t), flagSAT ||| flagOVF)
  else if x < (intMin t) then ((intMin t), flagSAT ||| flagOVF)
  else (x, 0#4)

/-! ### Arithmetic (R121, R122, R128, R129) -/

/-- Modifiers of a MOD hint on one operand (R116). -/
def applyMod (absF negF : Bool) (x : FVal) : FVal :=
  let x := if absF then x.abs else x
  if negF then x.neg else x

/-- The outcome of adding exact or infinite terms: NaN first, then opposite infinities, then an infinity. -/
def sumVals (f : Layout) (m : RMode) (sat : Bool) (ts : List FVal) : FRes :=
  if ts.any FVal.isNan then ⟨f.nan, 0#4⟩
  else
    let pos := ts.any (fun t => decide (t = .inf false))
    let neg := ts.any (fun t => decide (t = .inf true))
    if pos && neg then ⟨f.nan, flagINV⟩
    else if pos then ⟨f.infinity false, 0#4⟩
    else if neg then ⟨f.infinity true, 0#4⟩
    else
      let xs := ts.filterMap (fun t => match t with
        | .fin x => some x
        | .nan | .inf _ => none)
      match xs with
      | [] => ⟨0, 0#4⟩
      | x :: rest => deliver f m sat (rest.foldl (Exact.add m) x)

/-- The exact product of two values; `none` for 0 × ∞. -/
def mulVals (x y : FVal) : Option FVal :=
  match x, y with
  | .nan, _ => some .nan
  | _, .nan => some .nan
  | .inf s, .inf t => some (.inf (s != t))
  | .inf s, .fin y => if y.n = 0 then none else some (.inf (s != y.s))
  | .fin x, .inf t => if x.n = 0 then none else some (.inf (x.s != t))
  | .fin x, .fin y => some (.fin (x.mul y))

/-- `fadd`, `hadd2`. -/
def addF (f : Layout) (m : RMode) (sat : Bool) (x y : FVal) : FRes := sumVals f m sat [x, y]

/-- `fmul`, `hmul2`. -/
def mulF (f : Layout) (m : RMode) (sat : Bool) (x y : FVal) : FRes :=
  match mulVals x y with
  | none => ⟨f.nan, flagINV⟩
  | some .nan => ⟨f.nan, 0#4⟩
  | some (.inf s) => ⟨f.infinity s, 0#4⟩
  | some (.fin p) => deliver f m sat p

/-- `ffma`, `hfma2`: a NaN operand is tested before 0 × ∞. -/
def fmaF (f : Layout) (m : RMode) (sat : Bool) (x y z : FVal) : FRes :=
  if x.isNan || y.isNan || z.isNan then ⟨f.nan, 0#4⟩
  else match mulVals x y with
    | none => ⟨f.nan, flagINV⟩
    | some p => sumVals f m sat [p, z]

/-- `dot2` (R129): two products and the addend, rounded once to FP32. -/
def dot2F (m : RMode) (sat : Bool) (a0 b0 a1 b1 z : FVal) : FRes :=
  let f := (layoutOf .f32)
  if a0.isNan || b0.isNan || a1.isNan || b1.isNan || z.isNan then ⟨f.nan, 0#4⟩
  else match mulVals a0 b0, mulVals a1 b1 with
    | some p, some q => sumVals f m sat [p, q, z]
    | _, _ => ⟨f.nan, flagINV⟩

/-- The order of R122 on non-NaN values: -0 is less than +0. -/
def ltVal (x y : FVal) : Bool :=
  match x, y with
  | .nan, _ => false
  | _, .nan => false
  | .inf s, .inf t => s && !t
  | .inf s, .fin _ => s
  | .fin _, .inf t => !t
  | .fin x, .fin y => x.lt y || (decide (x.n = 0 ∧ y.n = 0) && x.s && !y.s)

/-- x < y as numbers, with +0 equal to -0 (R125). -/
def ltNum (x y : FVal) : Bool :=
  match x, y with
  | .fin x, .fin y => x.lt y
  | x, y => ltVal x y

def eqNum (x y : FVal) : Bool :=
  match x, y with
  | .nan, _ => false
  | _, .nan => false
  | .inf s, .inf t => s == t
  | .inf _, .fin _ => false
  | .fin _, .inf _ => false
  | .fin x, .fin y => x.eqv y

/-- The truth of an `fcmp` condition (R125). -/
def fcmpTrue (c : FCond) (x y : FVal) : Bool :=
  let un := x.isNan || y.isNan
  match c with
  | .eq => !un && eqNum x y
  | .ne => un || !eqNum x y
  | .lt => !un && ltNum x y
  | .le => !un && (ltNum x y || eqNum x y)
  | .gt => !un && ltNum y x
  | .ge => !un && (ltNum y x || eqNum x y)
  | .un => un
  | .ord => !un

/-- FP32 bits and their value. -/
def f32Val (w : Word) : FVal := (layoutOf .f32).value w.toNat

def f32NaN : Word := 0x7FFFFFFF#32

/-- The code of a value that FP32 holds exactly. -/
def f32Code (x : FVal) : Word :=
  match x with
  | .nan => f32NaN
  | .inf s => BitVec.ofNat 32 ((layoutOf .f32).infinity s)
  | .fin x => BitVec.ofNat 32 ((layoutOf .f32).encode x.s (roundFloat 23 (-126) .rz x))

/-- `fmin` and `fmax` on bits: one of the operands, or the canonical NaN (R122). -/
def fminBits (x y : Word) : Word :=
  if (f32Val x).isNan || (f32Val y).isNan then f32NaN else if ltVal (f32Val y) (f32Val x) then y else x

def fmaxBits (x y : Word) : Word :=
  if (f32Val x).isNan || (f32Val y).isNan then f32NaN else if ltVal (f32Val x) (f32Val y) then y else x

/-- `frnd` (R123): an integral value with the sign of x; no flag. -/
def frndVal (m : RMode) (x : FVal) : FVal :=
  match x with
  | .nan => .nan
  | .inf s => .inf s
  | .fin x => .fin ⟨x.s, roundNat m x.s x.n x.d, 1⟩

/-- `fclass` (R124). -/
def fclassMask (w : Word) : Word :=
  match f32Val w with
  | .nan => 256#32
  | .inf s => if s then 1#32 else 128#32
  | .fin x =>
    if x.n = 0 then (if x.s then 8#32 else 16#32)
    else if w.extractLsb' 23 8 = 0#8 then (if x.s then 4#32 else 32#32)
    else (if x.s then 2#32 else 64#32)

end Sys2Proof.Machine
end

