-- ==== Sys2Proof/Config.lean ====
section
/-! DEFINITION. What the spec leaves open: constants without a body, applied to a counter of the state or to the values they depend on.
A claim about them holds for every value they could have. -/

namespace Sys2Proof

/-- Further quanta of a reply or an engine operation beyond the limits of R252 and R328, by the owner's record and the number of the choice in
the owner's own stream: the spec leaves the number open (DESIGN CHOICE, log 5). -/
opaque Config.quanta : Option PartRec → Nat → Nat

/-- Whether the switch planes serve an owner's traffic in dedicated slots, as the fabric manager configures them outside the device
(R407; DESIGN CHOICE, log 5). -/
opaque Config.planeSlots : Nat → Bool

/-- Cycles that a chunk of a fired network operation after its first takes beyond those of R409 in dedicated slots, by the owner's record, the
operation's length and the number of the choice in the owner's own stream (DESIGN CHOICE, log 5). -/
opaque Config.netCycles : Option PartRec → Nat → Nat → Nat

/-- Cycles that a network operation takes each way without dedicated slots, by the number of the choice of the device: they may vary from run to run
(R409; DESIGN CHOICE, log 5). -/
opaque Config.netOpen : Nat → Nat

/-- Which of the ways that come into question a line fills (R184), by the owner's record and the number of the choice in the owner's own stream:
replacement is left open (DESIGN CHOICE, log 6). -/
opaque Config.way : Option PartRec → Nat → Nat

/-- The set of a line address in L1 and in an L2 slice (R184): the spec gives 64 and 1,024 sets and not the index (DESIGN CHOICE, log 6). -/
opaque Config.l1Set : Nat → BitVec 6
opaque Config.l2Set : Nat → BitVec 10

/-- The fixed hash of a line address over the eight slices of a quadrant (R185): the spec does not give it (DESIGN CHOICE, log 7). -/
opaque Config.slice : Nat → BitVec 3

/-- Random bits of the device (R199, R423): keys and nonces (DESIGN CHOICE, log 8). -/
opaque Config.random : Nat → BitVec 256

/-- The SM3 digest of a byte string (R71, R422): GB/T 32905 is outside the spec (DESIGN CHOICE, log 9). -/
opaque Config.sm3 : List Byte → BitVec 256

/-- Whether an SM2 signature (by key, message, signature) verifies (R72, R422): GB/T 32918 is outside the spec (DESIGN CHOICE, log 9). -/
opaque Config.sm2Ok : Nat → List Byte → List Byte → Bool

/-- An SM2 signature by a device key (R422; DESIGN CHOICE, log 9). -/
opaque Config.sm2Sign : BitVec 256 → List Byte → List Byte

/-- The device identity key, which is fused, and the alias key that a boot derives from measurement 2 (R422): the spec gives neither (DESIGN CHOICE,
log 9). -/
opaque Config.identityKey : BitVec 256
opaque Config.aliasKey : BitVec 256 → BitVec 256

/-- Whether a secured message (by session key) passes its AEAD check, its plain text, and a plain text secured (R423): SM4-GCM is outside the
spec (DESIGN CHOICE, log 9). -/
opaque Config.sm4Ok : Nat → List Byte → Bool
opaque Config.sm4Plain : Nat → List Byte → List Byte
opaque Config.sm4Wrap : Nat → List Byte → List Byte

/-- A byte of the cipher text of a 128-byte line of a sealed page, by key, line address, plain bytes and place (R199): SM4-XTS is outside the spec (DESIGN
CHOICE, log 9). -/
opaque Config.cipher : BitVec 256 → Nat → List Byte → Nat → Byte

/-- The SM3 digest of a creation record (R422): the spec gives a record's contents and not its bytes (DESIGN CHOICE, log 9). -/
opaque Config.recordDigest : PartRec → BitVec 256

/-- The certificate chain of a slot, by slot and measurement 2 (R422): its contents are outside the spec (DESIGN CHOICE, log 9). -/
opaque Config.chain : Nat → BitVec 256 → List Byte

/-- The lanes of a die-to-die link, beside its spares (R400): the spec does not give their number (DESIGN CHOICE, log 12). -/
opaque Config.dieLanes : Nat

/-- Values the spec says are left undefined or unstated, by a counter of the state (DESIGN CHOICE, log 11). -/
opaque Config.freeWord : Nat → Word

end Sys2Proof
end

