-- ==== Sys2Proof/WellFormed.lean ====
section
/-! DEFINITION. Well-formed instructions: the reserved field values of R22, R24, R25, R26, R28, R30, R35, R37, R39 and of
each instruction's description that depend on the fields' values. What depends on the state (a hint, the trap mode, the owner)
is checked where the instruction executes. -/

namespace Sys2Proof

/-- gn = 1 with guard 7 is reserved (R21). -/
def Guard.ok (h : Guard) : Bool := !(h.neg && decide (h.idx = 7#3))

/-- An even register number, where a pair is required (R22). -/
def evenR (r : Reg) : Bool := !r.getLsbD 0

/-- A register number that is a multiple of `k`. -/
def multR (k : Nat) (r : Reg) : Bool := decide (r.toNat % k = 0)

/-- Entries 0xEC to 0xEF are reserved anywhere, 0xE0 to 0xE2 in a uniform instruction (R25). -/
def BSel.ok (u : Bool) : BSel → Bool
  | .const c => decide (c.toNat < 12 ∨ 16 ≤ c.toNat) && !(u && decide (c.toNat < 3))
  | .own _ | .grp _ | .imm _ | .neg _ => true

/-- A 64-bit operand names an even register (R24). -/
def BSel.evenReg : BSel → Bool
  | .own r | .grp r => evenR r
  | .imm _ | .neg _ | .const _ => true

def BSel.isConst : BSel → Bool
  | .const _ => true
  | .own _ | .grp _ | .imm _ | .neg _ => false

/-- `bcast` takes a g register or an immediate (R165). -/
def BSel.isGrpOrImm : BSel → Bool
  | .grp _ | .imm _ | .neg _ => true
  | .own _ | .const _ => false

/-- A g register 0x00-0x7F or an immediate 0 to 63 (R297). -/
def BSel.isRegOrImm : BSel → Bool
  | .own _ | .grp _ | .imm _ => true
  | .neg _ | .const _ => false

/-- The row operand of `acc.rd` (R305): a g register, which a per-thread word names by 0x40-0x7F (R24), or an
immediate 0 to 31. -/
def BSel.isRegOrRow : BSel → Bool
  | .grp _ => true
  | .imm n => decide (n.toNat < 32)
  | .own _ | .neg _ | .const _ => false

def BSel.isReg : BSel → Bool
  | .own _ | .grp _ => true
  | .imm _ | .neg _ | .const _ => false

def BSel.multReg4 : BSel → Bool
  | .own r | .grp r => multR 4 r
  | .imm _ | .neg _ | .const _ => true

/-- The 64-bit special registers (R115). -/
def SReg.wide : SReg → Bool
  | .ownerCyc | .rotaMap | .leaseLeft | .trapPc => true
  | .thread | .group | .levelId | .owner | .rotaSlot | .melt | .flags | .flagArm | .detlvl | .tmask | .tcause
  | .tdetailA | .tdetailB | .tdetailC => false

/-- The registers writable in trap mode only (R373). -/
def SReg.isTrap : SReg → Bool
  | .tmask | .tcause | .tdetailA | .tdetailB | .tdetailC | .trapPc => true
  | .thread | .group | .levelId | .owner | .ownerCyc | .rotaSlot | .rotaMap | .melt | .leaseLeft | .flags | .flagArm
  | .detlvl => false

/-- The registers that some `sets` may write (R373). -/
def SReg.writable (r : SReg) : Bool := r.isTrap || decide (r = .flags) || decide (r = .flagArm)

/-- Integer types of 64 bits (R126). -/
def IType.wide : IType → Bool
  | .i64 | .n64 => true
  | .i8 | .n8 | .i16 | .n16 | .i32 | .n32 => false

/-- ord 00 requires scope 0 (R28). -/
def ordOk (o : Ord) (x : Scope) : Bool := !decide (o = .plain) || decide (x = .grp)

/-- The ords of a scoped load (R224). -/
def Ord.isLoad : Ord → Bool
  | .plain | .acq => true
  | .rel | .ar => false

/-- The ords of a scoped store or `red` (R224). -/
def Ord.isStore : Ord → Bool
  | .plain | .rel => true
  | .acq | .ar => false

/-- The ord and scope of `nctr.add`, `nput` and `nget` (R313, R318). -/
def netOrd (o : Ord) (x : Scope) : Bool :=
  (decide (o = .plain) && decide (x = .grp)) ||
  (decide (o = .rel) && (decide (x = .dev) || decide (x = .sys) || decide (x = .fab)))

/-- No field of the instruction holds a reserved value. -/
def Instr.wf : Instr → Bool
  | .add u h _ _ b => h.ok && b.ok u
  | .sub u h _ _ b => h.ok && b.ok u
  | .mul u h _ _ b => h.ok && b.ok u
  | .mulhI32 u h _ _ b => h.ok && b.ok u
  | .mulhN32 u h _ _ b => h.ok && b.ok u
  | .mad u h _ _ b => h.ok && b.ok u
  | .addx u h d a b => h.ok && b.ok u && evenR d && evenR a && b.evenReg
  | .subx u h d a b => h.ok && b.ok u && evenR d && evenR a && b.evenReg
  | .minI32 u h _ _ b => h.ok && b.ok u
  | .maxI32 u h _ _ b => h.ok && b.ok u
  | .minN32 u h _ _ b => h.ok && b.ok u
  | .maxN32 u h _ _ b => h.ok && b.ok u
  | .andB u h _ _ b => h.ok && b.ok u
  | .orB u h _ _ b => h.ok && b.ok u
  | .xorB u h _ _ b => h.ok && b.ok u
  | .andnB u h _ _ b => h.ok && b.ok u
  | .shl u h _ _ b => h.ok && b.ok u
  | .shr u h _ _ b => h.ok && b.ok u
  | .sar u h _ _ b => h.ok && b.ok u
  | .rotl u h _ _ b => h.ok && b.ok u
  | .negI _ h _ _ => h.ok
  | .absI _ h _ _ => h.ok
  | .notB _ h _ _ => h.ok
  | .clz _ h _ _ => h.ok
  | .popc _ h _ _ => h.ok
  | .brev _ h _ _ => h.ok
  | .mov _ h _ _ => h.ok
  | .sxtI8 _ h _ _ => h.ok
  | .sxtI16 _ h _ _ => h.ok
  | .sxtI32 _ h d _ => h.ok && evenR d
  | .zxtN8 _ h _ _ => h.ok
  | .zxtN16 _ h _ _ => h.ok
  | .zxtN32 _ h d _ => h.ok && evenR d
  | .bfxN32 u h _ _ b => h.ok && b.ok u
  | .bfxI32 u h _ _ b => h.ok && b.ok u
  | .bfi u h _ _ b => h.ok && b.ok u
  | .lea u h _ _ _ b => h.ok && b.ok u
  | .sel u p _ _ _ b => decide (p ≠ 7#3) && b.ok u
  | .cmpI32 u h _ p _ b => h.ok && b.ok u && decide (p ≠ 7#3)
  | .cmpN32 u h _ p _ b => h.ok && b.ok u && decide (p ≠ 7#3)
  | .pand _ h d _ _ => h.ok && decide (d ≠ 7#3)
  | .por _ h d _ _ => h.ok && decide (d ≠ 7#3)
  | .pxor _ h d _ _ => h.ok && decide (d ≠ 7#3)
  | .pnot _ h d _ => h.ok && decide (d ≠ 7#3)
  | .movi _ h _ _ => h.ok
  | .movh _ h d _ => h.ok && evenR d
  | .bra _ h _ => h.ok
  | .call h _ => h.ok
  | .loop h _ _ => h.ok
  | .nop _ h => h.ok
  | .brx h a => h.ok && evenR a
  | .callx h d a => h.ok && evenR d && evenR a
  | .ret h a => h.ok && evenR a
  | .brk h => h.ok
  | .exit _ h => h.ok
  | .gets u h d r => h.ok && (!r.wide || evenR d) && !(u && decide (r = .thread))
  | .wait h _ _ _ _ _ => h.ok
  | .waitc h _ _ => h.ok
  | .ldGlbN8 _ h _ a _ => h.ok && evenR a
  | .ldGlbN16 _ h _ a _ => h.ok && evenR a
  | .ldGlbB32 _ h _ a _ => h.ok && evenR a
  | .ldGlbB64 _ h d a _ => h.ok && evenR a && evenR d
  | .ldGlbB128 _ h d a _ => h.ok && evenR a && multR 4 d
  | .stGlbB8 _ h _ a _ => h.ok && evenR a
  | .stGlbB16 _ h _ a _ => h.ok && evenR a
  | .stGlbB32 _ h _ a _ => h.ok && evenR a
  | .stGlbB64 _ h d a _ => h.ok && evenR a && evenR d
  | .stGlbB128 _ h d a _ => h.ok && evenR a && multR 4 d
  | .fadd u h _ _ b => h.ok && b.ok u
  | .fsub u h _ _ b => h.ok && b.ok u
  | .fmul u h _ _ b => h.ok && b.ok u
  | .ffma u h _ _ b => h.ok && b.ok u
  | .fmin u h _ _ b => h.ok && b.ok u
  | .fmax u h _ _ b => h.ok && b.ok u
  | .fneg _ h _ _ => h.ok
  | .fabs _ h _ _ => h.ok
  | .fclass _ h _ _ => h.ok
  | .frndRn _ h _ _ => h.ok
  | .frndRz _ h _ _ => h.ok
  | .frndRd _ h _ _ => h.ok
  | .frndRu _ h _ _ => h.ok
  | .rcp _ h _ _ => h.ok
  | .rsqrt _ h _ _ => h.ok
  | .sqrt _ h _ _ => h.ok
  | .exp2 _ h _ _ => h.ok
  | .log2 _ h _ _ => h.ok
  | .sinpi _ h _ _ => h.ok
  | .cospi _ h _ _ => h.ok
  | .sincospi _ h d _ => h.ok && evenR d
  | .tanh _ h _ _ => h.ok
  | .fcmp u h _ p _ b => h.ok && b.ok u && decide (p ≠ 7#3)
  | .fcvt _ h _ _ _ _ => h.ok
  | .fcvti _ h d _ t _ => h.ok && (!t.wide || evenR d)
  | .icvtf _ h _ a _ y => h.ok && (!y.wide || evenR a)
  | .hadd2 h _ _ _ _ _ => h.ok
  | .hmul2 h _ _ _ _ _ => h.ok
  | .hfma2 h _ _ _ _ _ => h.ok
  | .dot2 h _ _ _ _ _ => h.ok
  | .voteMask h _ _ => h.ok
  | .voteEvery h q _ => h.ok && decide (q ≠ 7#3)
  | .voteSome h q _ => h.ok && decide (q ≠ 7#3)
  | .voteSame h q b => h.ok && b.ok false && decide (q ≠ 7#3)
  | .voteCount h _ _ => h.ok
  | .shflAt h _ _ _ _ => h.ok
  | .shflBack h _ _ _ _ => h.ok
  | .shflFwd h _ _ _ _ => h.ok
  | .shflMix h _ _ _ _ => h.ok
  | .bcast h _ _ b => h.ok && b.ok false && b.isGrpOrImm
  | .gred h _ _ _ => h.ok
  | .scan h _ _ _ => h.ok
  | .scanExcl h _ _ _ => h.ok
  | .elect h _ _ => h.ok
  | .xchg h _ _ _ => h.ok
  | .joinArm h _ b => h.ok && b.ok true
  | .joinArmRun h _ b => h.ok && b.ok true
  | .joinWait h _ => h.ok
  | .yield h => h.ok
  | .slotRel h _ b => h.ok && b.ok true
  | .slotQ h d b => h.ok && b.ok true && evenR d
  | .scopedLdGlbB32 _ h _ a o x _ => h.ok && evenR a && ordOk o x && o.isLoad
  | .scopedLdGlbB64 _ h d a o x _ => h.ok && evenR a && evenR d && ordOk o x && o.isLoad
  | .scopedStGlbB32 _ h _ a o x _ => h.ok && evenR a && ordOk o x && o.isStore
  | .scopedStGlbB64 _ h d a o x _ => h.ok && evenR a && evenR d && ordOk o x && o.isStore
  | .ldsB32 _ h _ _ o x _ => h.ok && ordOk o x && o.isLoad
  | .ldsB64 _ h d _ o x _ => h.ok && evenR d && ordOk o x && o.isLoad
  | .stsB32 _ h _ _ o x _ => h.ok && ordOk o x && o.isStore
  | .stsB64 _ h d _ o x _ => h.ok && evenR d && ordOk o x && o.isStore
  | .ldc _ h _ a _ => h.ok && evenR a
  | .atomAddN32 _ h _ a o x => h.ok && evenR a && ordOk o x
  | .atomAddN64 _ h d a o x => h.ok && evenR a && ordOk o x && evenR d
  | .atomMinI32 _ h _ a o x => h.ok && evenR a && ordOk o x
  | .atomMaxI32 _ h _ a o x => h.ok && evenR a && ordOk o x
  | .atomMinN32 _ h _ a o x => h.ok && evenR a && ordOk o x
  | .atomMaxN32 _ h _ a o x => h.ok && evenR a && ordOk o x
  | .atomOr _ h _ a o x => h.ok && evenR a && ordOk o x
  | .atomAnd _ h _ a o x => h.ok && evenR a && ordOk o x
  | .atomExchB32 _ h _ a o x => h.ok && evenR a && ordOk o x
  | .atomCasB32 _ h d a o x => h.ok && evenR a && ordOk o x && evenR d
  | .atomExchB64 _ h d a o x => h.ok && evenR a && ordOk o x && evenR d
  | .atomCasB64 _ h d a o x => h.ok && evenR a && ordOk o x && multR 4 d
  | .atomAddF32 _ h _ a o x => h.ok && evenR a && ordOk o x
  | .atomMinF32 _ h _ a o x => h.ok && evenR a && ordOk o x
  | .atomMaxF32 _ h _ a o x => h.ok && evenR a && ordOk o x
  | .redAddN32 _ h _ a o x => h.ok && evenR a && ordOk o x && o.isStore
  | .redAddN64 _ h d a o x => h.ok && evenR a && ordOk o x && o.isStore && evenR d
  | .redMinI32 _ h _ a o x => h.ok && evenR a && ordOk o x && o.isStore
  | .redMaxI32 _ h _ a o x => h.ok && evenR a && ordOk o x && o.isStore
  | .redMinN32 _ h _ a o x => h.ok && evenR a && ordOk o x && o.isStore
  | .redMaxN32 _ h _ a o x => h.ok && evenR a && ordOk o x && o.isStore
  | .redOr _ h _ a o x => h.ok && evenR a && ordOk o x && o.isStore
  | .redAnd _ h _ a o x => h.ok && evenR a && ordOk o x && o.isStore
  | .redAddF32 _ h _ a o x => h.ok && evenR a && ordOk o x && o.isStore
  | .redMinF32 _ h _ a o x => h.ok && evenR a && ordOk o x && o.isStore
  | .redMaxF32 _ h _ a o x => h.ok && evenR a && ordOk o x && o.isStore
  | .fence h o _ => h.ok && decide (o ≠ .plain)
  | .barArr h _ k => h.ok && decide (k ≠ 0#6)
  | .barWait h _ => h.ok
  | .barSync h _ k => h.ok && decide (k ≠ 0#6)
  | .ownTake h _ a => h.ok && evenR a
  | .ownGive h _ a => h.ok && evenR a
  | .pref _ h a => h.ok && evenR a
  | .trig _ h => h.ok
  | .cpInScr h _ a _ _ => h.ok && multR 8 a
  | .cpInObuf h _ a _ _ => h.ok && multR 8 a
  | .cpOutScr h _ a _ _ => h.ok && multR 8 a
  | .trecTab h _ b => h.ok && b.ok true && b.isRegOrImm
  | .trecBase h _ a => h.ok && evenR a
  | .obufRsvTpl h _ b => h.ok && b.ok true && b.isRegOrImm
  | .obufRsvReg h _ a => h.ok && evenR a
  | .obufFree h _ => h.ok
  | .mma h d a b => h.ok && multR 4 a && evenR b && decide (d.toNat < 32)
  | .mmaFence h _ => h.ok
  | .mmaWait h b => h.ok && b.ok true && b.isRegOrImm
  | .accZero h d => h.ok && decide (d.toNat < 32)
  | .accRd h _ a b => h.ok && b.ok false && decide (a.toNat < 32) && b.isRegOrRow
  | .drain h d a _ _ => h.ok && multR 8 a && decide (d.toNat < 32)
  | .qcvt h _ _ _ k => h.ok && evenR k
  | .deq h d q b => h.ok && b.ok true && b.isRegOrImm && multR 16 d && decide (q ≠ 7#3)
  | .enq h q a b => h.ok && b.ok true && b.isRegOrImm && multR 16 a && decide (q ≠ 7#3)
  | .jpost h q a b => h.ok && b.ok true && multR 16 a && decide (q ≠ 7#3) && b.isReg
  | .disp h d a b => h.ok && b.ok true && multR 16 d && evenR a && b.isReg && b.multReg4
  | .sets h r b => h.ok && b.ok true && r.writable && (!decide (r = .trapPc) || b.evenReg)
  | .trap u h b => h.ok && b.ok u
  | .rte h => h.ok
  | .halt h b => h.ok && b.ok true
  | .leaseReq h _ a l q => h.ok && evenR a && decide (l = 1#2 ∨ l = 2#2) && decide (q ≠ 7#3)
  | .leaseEnd h => h.ok
  | .rand h _ => h.ok
  | .randSeed h a => h.ok && evenR a
  | .ctxGsave h d a => h.ok && evenR d && evenR a
  | .ctxGrest h d a => h.ok && evenR d && evenR a
  | .ctxWsave h d a => h.ok && evenR d && evenR a
  | .ctxWrest h d a => h.ok && evenR d && evenR a
  | .ctxRemap h d => h.ok && evenR d
  | .npost h a => h.ok && evenR a
  | .nctrAdd h o x _ b => h.ok && b.ok true && b.evenReg && !b.isConst && netOrd o x
  | .nctrRd h d _ => h.ok && evenR d
  | .nctrWait h _ b => h.ok && b.ok true && b.evenReg && !b.isConst
  | .nput h a o x => h.ok && multR 8 a && netOrd o x
  | .nget h a o x => h.ok && multR 8 a && netOrd o x
  | .treeRed h d a c _ => h.ok && decide (d.toNat + c.toNat < 64) && decide (a.toNat + c.toNat < 64)
  | .treeBar h => h.ok
  | .hintWide _ => true
  | .hintSched _ _ _ => true
  | .hintMod m => decide (m.rnd.toNat < 5)
  | .hintType _ _ _ => true
  | .accessReply _ _ => true
  | .storeReturn _ _ => true
  | .heldAccessSend _ _ => true
  | .prefetchFill _ _ _ _ => true
  | .deferredTrapDelivery _ => true
  | .holdBegin _ _ => true
  | .holdEnd _ _ => true
  | .switchBegin _ => true
  | .switchEnd _ => true
  | .retirement _ _ => true
  | .borderMove _ => true
  | .leaseResident _ _ _ => true
  | .workgroupPlacement _ => true
  | .workgroupCommit _ => true
  | .launchCompletion _ => true
  | .haltPropagate _ => true
  | .dependantRelease _ => true
  | .itemAppend _ => true
  | .deqDelivery _ => true
  | .deqClosedIndication _ => true
  | .swapOut _ => true
  | .swapIn _ => true
  | .copyBeat _ _ => true
  | .copyCompletion _ => true
  | .drainCompletion _ => true
  | .matrixPass _ _ => true
  | .matrixPassResult _ => true
  | .xchgComplete _ => true
  | .treeRedComplete _ => true
  | .treeBarComplete _ => true
  | .dispResult _ => true
  | .nctrWaitMet _ => true
  | .entryArm _ => true
  | .messageArrival _ => true
  | .localCompletion _ => true
  | .networkOperationFault _ => true
  | .contextOpComplete _ => true
  | .leaseDecision _ => true
  | .leaseExpiry _ _ => true
  | .meltUpdate => true
  | .railEpoch => true
  | .clockStep _ _ => true
  | .thermalSample _ _ => true
  | .migrationMove _ _ _ => true
  | .coreStateTransferEnd _ _ _ => true
  | .dramStackOvertemp _ => true
  | .dramStackCool _ => true
  | .siloLinkDown _ => true
  | .siloLinkUp _ => true
  | .canaryFailure _ => true
  | .canaryRelax _ => true
  | .routerArbitration _ _ _ => true
  | .packetMisroute _ _ _ _ => true
  | .bellwetherCapture _ _ => true
  | .deadlockLaneEject _ => true
  | .flitReceive _ _ => true
  | .flitAcknowledge _ _ => true
  | .laneFailure _ => true
  | .retrainComplete _ => true
  | .retrainRetry _ => true
  | .launch _ _ => true
  | .enqCommand _ _ => true
  | .qclose _ _ => true
  | .qdelete _ _ => true
  | .cancel _ _ => true
  | .resync _ _ => true
  | .eventWrite _ _ => true
  | .evCtlWrite _ _ => true
  | .evHeadWrite _ _ => true
  | .lqCtlWrite _ _ _ => true
  | .lqTailWrite _ _ _ => true
  | .registerWrite _ _ _ => true
  | .freeze => true
  | .hostMemoryRequest _ _ => true
  | .partitionCreate _ => true
  | .partitionDestroy _ => true
  | .l2ColumnOff _ _ => true
  | .getVersion => true
  | .getCapabilities _ => true
  | .negotiateAlgorithms _ => true
  | .getDigests => true
  | .getCertificate _ _ _ => true
  | .challenge _ _ => true
  | .getMeasurements _ => true
  | .keyExchange _ _ => true
  | .finish _ _ => true
  | .heartbeat _ => true
  | .keyUpdate _ => true
  | .endSession _ => true
  | .unsupportedSpdmRequest _ => true
  | .powerGood _ => true
  | .warmReset => true
  | .residencyConfirm _ => true
  | .flitReplay _ _ => true

end Sys2Proof
end

