-- ==== Sys2Proof/Decode.lean ====
section
/-! DEFINITION. The decoder of R21 to R40, total on every word and rejecting by the reason code of R40, and the encoder
written from the same tables. Reason 2 (a hint that binds nothing) and the checks that depend on the group's state are made
where the word executes. -/

namespace Sys2Proof

/-- The reason codes of an encoding trap (R40). -/
inductive EncReason where
  | unassigned | hintKind | hintBinds | uOne | uZero | guard | field | sreg
  deriving DecidableEq, Repr

/-- The number of a reason (R40). -/
def EncReason.code : EncReason → Nat
  | .unassigned => 0 | .hintKind => 1 | .hintBinds => 2 | .uOne => 3 | .uZero => 4 | .guard => 5 | .field => 6 | .sreg => 7

/-! ### Field codes (DEDUCED, log 15) -/

def BSel.ofBits (b : BitVec 8) : BSel :=
  if b.extractLsb' 6 2 = 0#2 then .own (b.extractLsb' 0 6)
  else if b.extractLsb' 6 2 = 1#2 then .grp (b.extractLsb' 0 6)
  else if b.extractLsb' 6 2 = 2#2 then .imm (b.extractLsb' 0 6)
  else if b.getLsbD 5 then .const (b.extractLsb' 0 5)
  else .neg (b.extractLsb' 0 5)

def BSel.bits : BSel → BitVec 8
  | .own r => 0#2 ++ r
  | .grp r => 1#2 ++ r
  | .imm n => 2#2 ++ n
  | .neg n => 6#3 ++ n
  | .const c => 7#3 ++ c

def Ord.ofBits (b : BitVec 2) : Ord :=
  if b = 0#2 then .plain else if b = 1#2 then .acq else if b = 2#2 then .rel else .ar

def Ord.bits : Ord → BitVec 2
  | .plain => 0#2 | .acq => 1#2 | .rel => 2#2 | .ar => 3#2

def FCond.ofBits (b : BitVec 3) : FCond :=
  if b = 0#3 then .eq else if b = 1#3 then .ne else if b = 2#3 then .lt else if b = 3#3 then .le
  else if b = 4#3 then .gt else if b = 5#3 then .ge else if b = 6#3 then .un else .ord

def FCond.bits : FCond → BitVec 3
  | .eq => 0#3 | .ne => 1#3 | .lt => 2#3 | .le => 3#3 | .gt => 4#3 | .ge => 5#3 | .un => 6#3 | .ord => 7#3

/-- Look a code up in a list of the assigned codes; a code not listed is a reserved field value. -/
def codeOf {α : Type} (r : EncReason) : List (Nat × α) → Nat → Except EncReason α
  | [], _ => .error r
  | (k, v) :: rest, n => if k = n then .ok v else codeOf r rest n

def condOf (b : BitVec 3) : Except EncReason Cond :=
  codeOf .field [(0, .eq), (1, .ne), (2, .lt), (3, .le), (4, .gt), (5, .ge)] b.toNat

def Cond.bits : Cond → BitVec 3
  | .eq => 0#3 | .ne => 1#3 | .lt => 2#3 | .le => 3#3 | .gt => 4#3 | .ge => 5#3

def scopeOf (b : BitVec 3) : Except EncReason Scope :=
  codeOf .field [(0, .grp), (1, .wg), (2, .clus), (3, .quad), (4, .dev), (5, .sys), (6, .fab)] b.toNat

def Scope.bits : Scope → BitVec 3
  | .grp => 0#3 | .wg => 1#3 | .clus => 2#3 | .quad => 3#3 | .dev => 4#3 | .sys => 5#3 | .fab => 6#3

def classOf (b : BitVec 3) : Except EncReason OpClass :=
  codeOf .field [(0, .loads), (1, .stores), (2, .copies), (3, .tiles), (4, .remote)] b.toNat

def OpClass.bits : OpClass → BitVec 3
  | .loads => 0#3 | .stores => 1#3 | .copies => 2#3 | .tiles => 3#3 | .remote => 4#3

/-- The type codes of R37. -/
def scalarOf (b : BitVec 4) : Except EncReason (FType ⊕ IType) :=
  codeOf .field [(0, .inl .f32), (1, .inl .f16), (2, .inl .bf16), (3, .inl .e4m3), (4, .inl .e5m2), (5, .inr .i8),
    (6, .inr .n8), (7, .inr .i16), (8, .inr .n16), (9, .inr .i32), (10, .inr .n32), (11, .inr .i64), (12, .inr .n64)] b.toNat

def FType.bits : FType → BitVec 4
  | .f32 => 0#4 | .f16 => 1#4 | .bf16 => 2#4 | .e4m3 => 3#4 | .e5m2 => 4#4

def IType.bits : IType → BitVec 4
  | .i8 => 5#4 | .n8 => 6#4 | .i16 => 7#4 | .n16 => 8#4 | .i32 => 9#4 | .n32 => 10#4 | .i64 => 11#4 | .n64 => 12#4

/-- `qcvt` codes its format by 1 to 3 (R307). -/
def dxOf (b : BitVec 2) : Except EncReason DxFmt :=
  codeOf .field [(1, .dx8), (2, .dx6), (3, .dx4)] b.toNat

def DxFmt.bits : DxFmt → BitVec 2
  | .dx8 => 1#2 | .dx6 => 2#2 | .dx4 => 3#2

def gfnOf (b : BitVec 4) : Except EncReason GFn :=
  codeOf .field [(0, .addI32), (1, .minI32), (2, .maxI32), (3, .minN32), (4, .maxN32), (5, .and), (6, .or), (7, .xor),
    (8, .faddF32), (9, .fminF32), (10, .fmaxF32)] b.toNat

def GFn.bits : GFn → BitVec 4
  | .addI32 => 0#4 | .minI32 => 1#4 | .maxI32 => 2#4 | .minN32 => 3#4 | .maxN32 => 4#4 | .and => 5#4 | .or => 6#4
  | .xor => 7#4 | .faddF32 => 8#4 | .fminF32 => 9#4 | .fmaxF32 => 10#4

/-- The special-register numbers of R11. -/
def sregOf (b : BitVec 6) : Except EncReason SReg :=
  codeOf .sreg [(0x00, .thread), (0x01, .group), (0x02, .levelId), (0x03, .owner), (0x04, .ownerCyc), (0x05, .rotaSlot),
    (0x06, .rotaMap), (0x07, .melt), (0x08, .leaseLeft), (0x09, .flags), (0x0A, .flagArm), (0x0B, .detlvl), (0x0C, .tmask),
    (0x0D, .tcause), (0x0E, .tdetailA), (0x0F, .tdetailB), (0x10, .tdetailC), (0x11, .trapPc)] b.toNat

def SReg.bits : SReg → BitVec 6
  | .thread => 0x00#6 | .group => 0x01#6 | .levelId => 0x02#6 | .owner => 0x03#6 | .ownerCyc => 0x04#6 | .rotaSlot => 0x05#6
  | .rotaMap => 0x06#6 | .melt => 0x07#6 | .leaseLeft => 0x08#6 | .flags => 0x09#6 | .flagArm => 0x0A#6 | .detlvl => 0x0B#6
  | .tmask => 0x0C#6 | .tcause => 0x0D#6 | .tdetailA => 0x0E#6 | .tdetailB => 0x0F#6 | .tdetailC => 0x10#6 | .trapPc => 0x11#6

/-! ### Decoding -/

/-- Major 0x38 (R37, R126): the two types name the instruction; two integer types are a reserved field value. -/
def decodeConvert (u : Bool) (h : Guard) (d a : Reg) (dt st : BitVec 4) : Except EncReason Instr := do
  let dt ← scalarOf dt
  let st ← scalarOf st
  match dt, st with
  | .inl t, .inl y => pure (.fcvt u h d a t y)
  | .inr t, .inl y => pure (.fcvti u h d a t y)
  | .inl t, .inr y => pure (.icvtf u h d a t y)
  | .inr _, .inr _ => .error .field

/-- Major 0x70 (R373): a reserved field comes before a register that no `sets` may write (R40). -/
def decodeSets (h : Guard) (r z : BitVec 6) (b : BSel) : Except EncReason Instr :=
  if z ≠ 0#6 ∨ b.ok true = false then .error .field else do
    let r ← sregOf r
    if r.writable then pure (.sets h r b) else .error .sreg

/-- Bits 19:0 by the form and the function code that the major opcode fixes (R26 to R30, R38, R39). Major 0x7F is not
decoded here. -/
def decodeBody (op : BitVec 7) (u : Bool) (h : Guard) (bs : BitVec 20) : Except EncReason Instr :=
  match op.toNat with
  | 0x00 =>
    .ok (.add u h (bs.extractLsb' 14 6) (bs.extractLsb' 8 6) (BSel.ofBits (bs.extractLsb' 0 8)))
  | 0x01 =>
    .ok (.sub u h (bs.extractLsb' 14 6) (bs.extractLsb' 8 6) (BSel.ofBits (bs.extractLsb' 0 8)))
  | 0x02 =>
    .ok (.mul u h (bs.extractLsb' 14 6) (bs.extractLsb' 8 6) (BSel.ofBits (bs.extractLsb' 0 8)))
  | 0x03 =>
    .ok (.mulhI32 u h (bs.extractLsb' 14 6) (bs.extractLsb' 8 6) (BSel.ofBits (bs.extractLsb' 0 8)))
  | 0x04 =>
    .ok (.mulhN32 u h (bs.extractLsb' 14 6) (bs.extractLsb' 8 6) (BSel.ofBits (bs.extractLsb' 0 8)))
  | 0x05 =>
    .ok (.mad u h (bs.extractLsb' 14 6) (bs.extractLsb' 8 6) (BSel.ofBits (bs.extractLsb' 0 8)))
  | 0x06 =>
    .ok (.addx u h (bs.extractLsb' 14 6) (bs.extractLsb' 8 6) (BSel.ofBits (bs.extractLsb' 0 8)))
  | 0x07 =>
    .ok (.subx u h (bs.extractLsb' 14 6) (bs.extractLsb' 8 6) (BSel.ofBits (bs.extractLsb' 0 8)))
  | 0x08 =>
    .ok (.minI32 u h (bs.extractLsb' 14 6) (bs.extractLsb' 8 6) (BSel.ofBits (bs.extractLsb' 0 8)))
  | 0x09 =>
    .ok (.maxI32 u h (bs.extractLsb' 14 6) (bs.extractLsb' 8 6) (BSel.ofBits (bs.extractLsb' 0 8)))
  | 0x0A =>
    .ok (.minN32 u h (bs.extractLsb' 14 6) (bs.extractLsb' 8 6) (BSel.ofBits (bs.extractLsb' 0 8)))
  | 0x0B =>
    .ok (.maxN32 u h (bs.extractLsb' 14 6) (bs.extractLsb' 8 6) (BSel.ofBits (bs.extractLsb' 0 8)))
  | 0x0C =>
    .ok (.andB u h (bs.extractLsb' 14 6) (bs.extractLsb' 8 6) (BSel.ofBits (bs.extractLsb' 0 8)))
  | 0x0D =>
    .ok (.orB u h (bs.extractLsb' 14 6) (bs.extractLsb' 8 6) (BSel.ofBits (bs.extractLsb' 0 8)))
  | 0x0E =>
    .ok (.xorB u h (bs.extractLsb' 14 6) (bs.extractLsb' 8 6) (BSel.ofBits (bs.extractLsb' 0 8)))
  | 0x0F =>
    .ok (.andnB u h (bs.extractLsb' 14 6) (bs.extractLsb' 8 6) (BSel.ofBits (bs.extractLsb' 0 8)))
  | 0x10 =>
    .ok (.shl u h (bs.extractLsb' 14 6) (bs.extractLsb' 8 6) (BSel.ofBits (bs.extractLsb' 0 8)))
  | 0x11 =>
    .ok (.shr u h (bs.extractLsb' 14 6) (bs.extractLsb' 8 6) (BSel.ofBits (bs.extractLsb' 0 8)))
  | 0x12 =>
    .ok (.sar u h (bs.extractLsb' 14 6) (bs.extractLsb' 8 6) (BSel.ofBits (bs.extractLsb' 0 8)))
  | 0x13 =>
    .ok (.rotl u h (bs.extractLsb' 14 6) (bs.extractLsb' 8 6) (BSel.ofBits (bs.extractLsb' 0 8)))
  | 0x14 =>
    if bs &&& 0x000FF#20 = 0x00000#20 then .ok (.negI u h (bs.extractLsb' 14 6) (bs.extractLsb' 8 6)) else
    if bs &&& 0x000FF#20 = 0x00001#20 then .ok (.absI u h (bs.extractLsb' 14 6) (bs.extractLsb' 8 6)) else
    if bs &&& 0x000FF#20 = 0x00002#20 then .ok (.notB u h (bs.extractLsb' 14 6) (bs.extractLsb' 8 6)) else
    if bs &&& 0x000FF#20 = 0x00003#20 then .ok (.clz u h (bs.extractLsb' 14 6) (bs.extractLsb' 8 6)) else
    if bs &&& 0x000FF#20 = 0x00004#20 then .ok (.popc u h (bs.extractLsb' 14 6) (bs.extractLsb' 8 6)) else
    if bs &&& 0x000FF#20 = 0x00005#20 then .ok (.brev u h (bs.extractLsb' 14 6) (bs.extractLsb' 8 6)) else
    if bs &&& 0x000FF#20 = 0x00006#20 then .ok (.mov u h (bs.extractLsb' 14 6) (bs.extractLsb' 8 6)) else
    if bs &&& 0x000FF#20 = 0x00008#20 then .ok (.sxtI8 u h (bs.extractLsb' 14 6) (bs.extractLsb' 8 6)) else
    if bs &&& 0x000FF#20 = 0x00009#20 then .ok (.sxtI16 u h (bs.extractLsb' 14 6) (bs.extractLsb' 8 6)) else
    if bs &&& 0x000FF#20 = 0x0000A#20 then .ok (.sxtI32 u h (bs.extractLsb' 14 6) (bs.extractLsb' 8 6)) else
    if bs &&& 0x000FF#20 = 0x0000C#20 then .ok (.zxtN8 u h (bs.extractLsb' 14 6) (bs.extractLsb' 8 6)) else
    if bs &&& 0x000FF#20 = 0x0000D#20 then .ok (.zxtN16 u h (bs.extractLsb' 14 6) (bs.extractLsb' 8 6)) else
    if bs &&& 0x000FF#20 = 0x0000E#20 then .ok (.zxtN32 u h (bs.extractLsb' 14 6) (bs.extractLsb' 8 6)) else
    .error .field
  | 0x15 =>
    .ok (.bfxN32 u h (bs.extractLsb' 14 6) (bs.extractLsb' 8 6) (BSel.ofBits (bs.extractLsb' 0 8)))
  | 0x16 =>
    .ok (.bfxI32 u h (bs.extractLsb' 14 6) (bs.extractLsb' 8 6) (BSel.ofBits (bs.extractLsb' 0 8)))
  | 0x17 =>
    .ok (.bfi u h (bs.extractLsb' 14 6) (bs.extractLsb' 8 6) (BSel.ofBits (bs.extractLsb' 0 8)))
  | 0x18 =>
    .ok (.lea u h (bs.extractLsb' 15 5) (bs.extractLsb' 14 1 ++ bs.extractLsb' 8 1) (bs.extractLsb' 9 5) (BSel.ofBits (bs.extractLsb' 0 8)))
  | 0x19 =>
    .ok (.sel u h.idx h.neg (bs.extractLsb' 14 6) (bs.extractLsb' 8 6) (BSel.ofBits (bs.extractLsb' 0 8)))
  | 0x1A =>
    do let c ← condOf (bs.extractLsb' 17 3); pure (.cmpI32 u h c (bs.extractLsb' 14 3) (bs.extractLsb' 8 6) (BSel.ofBits (bs.extractLsb' 0 8)))
  | 0x1B =>
    do let c ← condOf (bs.extractLsb' 17 3); pure (.cmpN32 u h c (bs.extractLsb' 14 3) (bs.extractLsb' 8 6) (BSel.ofBits (bs.extractLsb' 0 8)))
  | 0x1C =>
    if bs &&& 0xE38F8#20 = 0x00000#20 then .ok (.pand u h (bs.extractLsb' 14 3) (bs.extractLsb' 8 3) (bs.extractLsb' 0 3)) else
    if bs &&& 0xE38F8#20 = 0x20000#20 then .ok (.por u h (bs.extractLsb' 14 3) (bs.extractLsb' 8 3) (bs.extractLsb' 0 3)) else
    if bs &&& 0xE38F8#20 = 0x40000#20 then .ok (.pxor u h (bs.extractLsb' 14 3) (bs.extractLsb' 8 3) (bs.extractLsb' 0 3)) else
    if bs &&& 0xE38FF#20 = 0x60000#20 then .ok (.pnot u h (bs.extractLsb' 14 3) (bs.extractLsb' 8 3)) else
    .error .field
  | 0x1D =>
    .ok (.movi u h (bs.extractLsb' 14 6) (bs.extractLsb' 0 14))
  | 0x1E =>
    .ok (.movh u h (bs.extractLsb' 14 6) (bs.extractLsb' 0 14))
  | 0x20 =>
    .ok (.bra u h (bs.extractLsb' 0 20))
  | 0x21 =>
    .ok (.call h (bs.extractLsb' 0 20))
  | 0x22 =>
    .ok (.loop h (bs.extractLsb' 14 6) (bs.extractLsb' 0 14))
  | 0x23 =>
    if bs &&& 0xFFFFF#20 = 0x00000#20 then .ok (.nop u h) else
    if bs &&& 0xFC0FF#20 = 0x00001#20 then .ok (.brx h (bs.extractLsb' 8 6)) else
    if bs &&& 0x000FF#20 = 0x00002#20 then .ok (.callx h (bs.extractLsb' 14 6) (bs.extractLsb' 8 6)) else
    if bs &&& 0xFC0FF#20 = 0x00003#20 then .ok (.ret h (bs.extractLsb' 8 6)) else
    if bs &&& 0xFFFFF#20 = 0x00004#20 then .ok (.brk h) else
    if bs &&& 0xFFFFF#20 = 0x00005#20 then .ok (.exit u h) else
    if bs &&& 0x000FF#20 = 0x00006#20 then do let r ← sregOf (bs.extractLsb' 8 6); pure (.gets u h (bs.extractLsb' 14 6) r) else
    .error .field
  | 0x24 =>
    .ok (.wait h (bs.extractLsb' 16 4) (bs.extractLsb' 12 4) (bs.extractLsb' 8 4) (bs.extractLsb' 4 4) (bs.extractLsb' 0 4))
  | 0x25 =>
    if bs &&& 0x1C0FF#20 = 0x00000#20 then do let k ← classOf (bs.extractLsb' 17 3); pure (.waitc h k (bs.extractLsb' 8 6)) else
    .error .field
  | 0x26 =>
    if bs &&& 0x000F8#20 = 0x00000#20 then .ok (.ldGlbN8 u h (bs.extractLsb' 14 6) (bs.extractLsb' 8 6) (bs.extractLsb' 0 3)) else
    .error .field
  | 0x27 =>
    if bs &&& 0x000F8#20 = 0x00000#20 then .ok (.ldGlbN16 u h (bs.extractLsb' 14 6) (bs.extractLsb' 8 6) (bs.extractLsb' 0 3)) else
    .error .field
  | 0x28 =>
    if bs &&& 0x000F8#20 = 0x00000#20 then .ok (.ldGlbB32 u h (bs.extractLsb' 14 6) (bs.extractLsb' 8 6) (bs.extractLsb' 0 3)) else
    .error .field
  | 0x29 =>
    if bs &&& 0x000F8#20 = 0x00000#20 then .ok (.ldGlbB64 u h (bs.extractLsb' 14 6) (bs.extractLsb' 8 6) (bs.extractLsb' 0 3)) else
    .error .field
  | 0x2A =>
    if bs &&& 0x000F8#20 = 0x00000#20 then .ok (.ldGlbB128 u h (bs.extractLsb' 14 6) (bs.extractLsb' 8 6) (bs.extractLsb' 0 3)) else
    .error .field
  | 0x2B =>
    if bs &&& 0x000F8#20 = 0x00000#20 then .ok (.stGlbB8 u h (bs.extractLsb' 14 6) (bs.extractLsb' 8 6) (bs.extractLsb' 0 3)) else
    .error .field
  | 0x2C =>
    if bs &&& 0x000F8#20 = 0x00000#20 then .ok (.stGlbB16 u h (bs.extractLsb' 14 6) (bs.extractLsb' 8 6) (bs.extractLsb' 0 3)) else
    .error .field
  | 0x2D =>
    if bs &&& 0x000F8#20 = 0x00000#20 then .ok (.stGlbB32 u h (bs.extractLsb' 14 6) (bs.extractLsb' 8 6) (bs.extractLsb' 0 3)) else
    .error .field
  | 0x2E =>
    if bs &&& 0x000F8#20 = 0x00000#20 then .ok (.stGlbB64 u h (bs.extractLsb' 14 6) (bs.extractLsb' 8 6) (bs.extractLsb' 0 3)) else
    .error .field
  | 0x2F =>
    if bs &&& 0x000F8#20 = 0x00000#20 then .ok (.stGlbB128 u h (bs.extractLsb' 14 6) (bs.extractLsb' 8 6) (bs.extractLsb' 0 3)) else
    .error .field
  | 0x30 =>
    .ok (.fadd u h (bs.extractLsb' 14 6) (bs.extractLsb' 8 6) (BSel.ofBits (bs.extractLsb' 0 8)))
  | 0x31 =>
    .ok (.fsub u h (bs.extractLsb' 14 6) (bs.extractLsb' 8 6) (BSel.ofBits (bs.extractLsb' 0 8)))
  | 0x32 =>
    .ok (.fmul u h (bs.extractLsb' 14 6) (bs.extractLsb' 8 6) (BSel.ofBits (bs.extractLsb' 0 8)))
  | 0x33 =>
    .ok (.ffma u h (bs.extractLsb' 14 6) (bs.extractLsb' 8 6) (BSel.ofBits (bs.extractLsb' 0 8)))
  | 0x34 =>
    .ok (.fmin u h (bs.extractLsb' 14 6) (bs.extractLsb' 8 6) (BSel.ofBits (bs.extractLsb' 0 8)))
  | 0x35 =>
    .ok (.fmax u h (bs.extractLsb' 14 6) (bs.extractLsb' 8 6) (BSel.ofBits (bs.extractLsb' 0 8)))
  | 0x36 =>
    if bs &&& 0x000FF#20 = 0x00000#20 then .ok (.fneg u h (bs.extractLsb' 14 6) (bs.extractLsb' 8 6)) else
    if bs &&& 0x000FF#20 = 0x00001#20 then .ok (.fabs u h (bs.extractLsb' 14 6) (bs.extractLsb' 8 6)) else
    if bs &&& 0x000FF#20 = 0x00002#20 then .ok (.fclass u h (bs.extractLsb' 14 6) (bs.extractLsb' 8 6)) else
    if bs &&& 0x000FF#20 = 0x00004#20 then .ok (.frndRn u h (bs.extractLsb' 14 6) (bs.extractLsb' 8 6)) else
    if bs &&& 0x000FF#20 = 0x00005#20 then .ok (.frndRz u h (bs.extractLsb' 14 6) (bs.extractLsb' 8 6)) else
    if bs &&& 0x000FF#20 = 0x00006#20 then .ok (.frndRd u h (bs.extractLsb' 14 6) (bs.extractLsb' 8 6)) else
    if bs &&& 0x000FF#20 = 0x00007#20 then .ok (.frndRu u h (bs.extractLsb' 14 6) (bs.extractLsb' 8 6)) else
    if bs &&& 0x000FF#20 = 0x00010#20 then .ok (.rcp u h (bs.extractLsb' 14 6) (bs.extractLsb' 8 6)) else
    if bs &&& 0x000FF#20 = 0x00011#20 then .ok (.rsqrt u h (bs.extractLsb' 14 6) (bs.extractLsb' 8 6)) else
    if bs &&& 0x000FF#20 = 0x00012#20 then .ok (.sqrt u h (bs.extractLsb' 14 6) (bs.extractLsb' 8 6)) else
    if bs &&& 0x000FF#20 = 0x00013#20 then .ok (.exp2 u h (bs.extractLsb' 14 6) (bs.extractLsb' 8 6)) else
    if bs &&& 0x000FF#20 = 0x00014#20 then .ok (.log2 u h (bs.extractLsb' 14 6) (bs.extractLsb' 8 6)) else
    if bs &&& 0x000FF#20 = 0x00015#20 then .ok (.sinpi u h (bs.extractLsb' 14 6) (bs.extractLsb' 8 6)) else
    if bs &&& 0x000FF#20 = 0x00016#20 then .ok (.cospi u h (bs.extractLsb' 14 6) (bs.extractLsb' 8 6)) else
    if bs &&& 0x000FF#20 = 0x00017#20 then .ok (.sincospi u h (bs.extractLsb' 14 6) (bs.extractLsb' 8 6)) else
    if bs &&& 0x000FF#20 = 0x00018#20 then .ok (.tanh u h (bs.extractLsb' 14 6) (bs.extractLsb' 8 6)) else
    .error .field
  | 0x37 =>
    .ok (.fcmp u h (FCond.ofBits (bs.extractLsb' 17 3)) (bs.extractLsb' 14 3) (bs.extractLsb' 8 6) (BSel.ofBits (bs.extractLsb' 0 8)))
  | 0x38 => decodeConvert u h (bs.extractLsb' 14 6) (bs.extractLsb' 8 6) (bs.extractLsb' 4 4) (bs.extractLsb' 0 4)
  | 0x39 =>
    .ok (.hadd2 h (bs.extractLsb' 14 6) (bs.extractLsb' 8 6) (bs.getLsbD 7) (bs.getLsbD 6) (bs.extractLsb' 0 6))
  | 0x3A =>
    .ok (.hmul2 h (bs.extractLsb' 14 6) (bs.extractLsb' 8 6) (bs.getLsbD 7) (bs.getLsbD 6) (bs.extractLsb' 0 6))
  | 0x3B =>
    .ok (.hfma2 h (bs.extractLsb' 14 6) (bs.extractLsb' 8 6) (bs.getLsbD 7) (bs.getLsbD 6) (bs.extractLsb' 0 6))
  | 0x3C =>
    .ok (.dot2 h (bs.extractLsb' 14 6) (bs.extractLsb' 8 6) (bs.getLsbD 7) (bs.getLsbD 6) (bs.extractLsb' 0 6))
  | 0x40 =>
    if bs &&& 0x038FF#20 = 0x00000#20 then .ok (.voteMask h (bs.extractLsb' 14 6) (bs.extractLsb' 8 3)) else
    if bs &&& 0xE38FF#20 = 0x00800#20 then .ok (.voteEvery h (bs.extractLsb' 14 3) (bs.extractLsb' 8 3)) else
    if bs &&& 0xE38FF#20 = 0x01000#20 then .ok (.voteSome h (bs.extractLsb' 14 3) (bs.extractLsb' 8 3)) else
    if bs &&& 0xE3F00#20 = 0x01800#20 then .ok (.voteSame h (bs.extractLsb' 14 3) (BSel.ofBits (bs.extractLsb' 0 8))) else
    if bs &&& 0x038FF#20 = 0x02000#20 then .ok (.voteCount h (bs.extractLsb' 14 6) (bs.extractLsb' 8 3)) else
    .error .field
  | 0x41 =>
    if bs &&& 0x000C0#20 = 0x00000#20 then .ok (.shflAt h (bs.extractLsb' 14 6) (bs.extractLsb' 8 6) (bs.getLsbD 5) (bs.extractLsb' 0 5)) else
    if bs &&& 0x000C0#20 = 0x00040#20 then .ok (.shflBack h (bs.extractLsb' 14 6) (bs.extractLsb' 8 6) (bs.getLsbD 5) (bs.extractLsb' 0 5)) else
    if bs &&& 0x000C0#20 = 0x00080#20 then .ok (.shflFwd h (bs.extractLsb' 14 6) (bs.extractLsb' 8 6) (bs.getLsbD 5) (bs.extractLsb' 0 5)) else
    if bs &&& 0x000C0#20 = 0x000C0#20 then .ok (.shflMix h (bs.extractLsb' 14 6) (bs.extractLsb' 8 6) (bs.getLsbD 5) (bs.extractLsb' 0 5)) else
    .error .field
  | 0x42 =>
    .ok (.bcast h (bs.extractLsb' 14 6) (bs.extractLsb' 8 6) (BSel.ofBits (bs.extractLsb' 0 8)))
  | 0x43 =>
    if bs &&& 0x000F0#20 = 0x00000#20 then do let f ← gfnOf (bs.extractLsb' 0 4); pure (.gred h (bs.extractLsb' 14 6) (bs.extractLsb' 8 6) f) else
    .error .field
  | 0x44 =>
    if bs &&& 0x000F0#20 = 0x00000#20 then do let f ← gfnOf (bs.extractLsb' 0 4); pure (.scan h (bs.extractLsb' 14 6) (bs.extractLsb' 8 6) f) else
    if bs &&& 0x000F0#20 = 0x00080#20 then do let f ← gfnOf (bs.extractLsb' 0 4); pure (.scanExcl h (bs.extractLsb' 14 6) (bs.extractLsb' 8 6) f) else
    .error .field
  | 0x45 =>
    if bs &&& 0x038FF#20 = 0x00000#20 then .ok (.elect h (bs.extractLsb' 14 6) (bs.extractLsb' 8 3)) else
    .error .field
  | 0x46 =>
    if bs &&& 0x000C0#20 = 0x00080#20 then .ok (.xchg h (bs.extractLsb' 14 6) (bs.extractLsb' 8 6) (bs.extractLsb' 0 6)) else
    .error .field
  | 0x47 =>
    if bs &&& 0x1FF00#20 = 0x00000#20 then .ok (.joinArm h (bs.extractLsb' 17 3) (BSel.ofBits (bs.extractLsb' 0 8))) else
    if bs &&& 0x1FF00#20 = 0x10000#20 then .ok (.joinArmRun h (bs.extractLsb' 17 3) (BSel.ofBits (bs.extractLsb' 0 8))) else
    .error .field
  | 0x48 =>
    if bs &&& 0x1FFFF#20 = 0x00000#20 then .ok (.joinWait h (bs.extractLsb' 17 3)) else
    .error .field
  | 0x49 =>
    if bs &&& 0xFFFFF#20 = 0x00000#20 then .ok (.yield h) else
    .error .field
  | 0x4A =>
    if bs &&& 0xFC000#20 = 0x00000#20 then .ok (.slotRel h (bs.extractLsb' 8 6) (BSel.ofBits (bs.extractLsb' 0 8))) else
    .error .field
  | 0x4B =>
    if bs &&& 0x03F00#20 = 0x00000#20 then .ok (.slotQ h (bs.extractLsb' 14 6) (BSel.ofBits (bs.extractLsb' 0 8))) else
    .error .field
  | 0x50 =>
    do let x ← scopeOf (bs.extractLsb' 3 3); pure (.scopedLdGlbB32 u h (bs.extractLsb' 14 6) (bs.extractLsb' 8 6) (Ord.ofBits (bs.extractLsb' 6 2)) x (bs.extractLsb' 0 3))
  | 0x51 =>
    do let x ← scopeOf (bs.extractLsb' 3 3); pure (.scopedLdGlbB64 u h (bs.extractLsb' 14 6) (bs.extractLsb' 8 6) (Ord.ofBits (bs.extractLsb' 6 2)) x (bs.extractLsb' 0 3))
  | 0x52 =>
    do let x ← scopeOf (bs.extractLsb' 3 3); pure (.scopedStGlbB32 u h (bs.extractLsb' 14 6) (bs.extractLsb' 8 6) (Ord.ofBits (bs.extractLsb' 6 2)) x (bs.extractLsb' 0 3))
  | 0x53 =>
    do let x ← scopeOf (bs.extractLsb' 3 3); pure (.scopedStGlbB64 u h (bs.extractLsb' 14 6) (bs.extractLsb' 8 6) (Ord.ofBits (bs.extractLsb' 6 2)) x (bs.extractLsb' 0 3))
  | 0x54 =>
    do let x ← scopeOf (bs.extractLsb' 3 3); pure (.ldsB32 u h (bs.extractLsb' 14 6) (bs.extractLsb' 8 6) (Ord.ofBits (bs.extractLsb' 6 2)) x (bs.extractLsb' 0 3))
  | 0x55 =>
    do let x ← scopeOf (bs.extractLsb' 3 3); pure (.ldsB64 u h (bs.extractLsb' 14 6) (bs.extractLsb' 8 6) (Ord.ofBits (bs.extractLsb' 6 2)) x (bs.extractLsb' 0 3))
  | 0x56 =>
    do let x ← scopeOf (bs.extractLsb' 3 3); pure (.stsB32 u h (bs.extractLsb' 14 6) (bs.extractLsb' 8 6) (Ord.ofBits (bs.extractLsb' 6 2)) x (bs.extractLsb' 0 3))
  | 0x57 =>
    do let x ← scopeOf (bs.extractLsb' 3 3); pure (.stsB64 u h (bs.extractLsb' 14 6) (bs.extractLsb' 8 6) (Ord.ofBits (bs.extractLsb' 6 2)) x (bs.extractLsb' 0 3))
  | 0x58 =>
    if bs &&& 0x000F8#20 = 0x00000#20 then .ok (.ldc u h (bs.extractLsb' 14 6) (bs.extractLsb' 8 6) (bs.extractLsb' 0 3)) else
    .error .field
  | 0x59 =>
    if bs &&& 0x00007#20 = 0x00000#20 then do let x ← scopeOf (bs.extractLsb' 3 3); pure (.atomAddN32 u h (bs.extractLsb' 14 6) (bs.extractLsb' 8 6) (Ord.ofBits (bs.extractLsb' 6 2)) x) else
    if bs &&& 0x00007#20 = 0x00001#20 then do let x ← scopeOf (bs.extractLsb' 3 3); pure (.atomAddN64 u h (bs.extractLsb' 14 6) (bs.extractLsb' 8 6) (Ord.ofBits (bs.extractLsb' 6 2)) x) else
    if bs &&& 0x00007#20 = 0x00002#20 then do let x ← scopeOf (bs.extractLsb' 3 3); pure (.atomMinI32 u h (bs.extractLsb' 14 6) (bs.extractLsb' 8 6) (Ord.ofBits (bs.extractLsb' 6 2)) x) else
    if bs &&& 0x00007#20 = 0x00003#20 then do let x ← scopeOf (bs.extractLsb' 3 3); pure (.atomMaxI32 u h (bs.extractLsb' 14 6) (bs.extractLsb' 8 6) (Ord.ofBits (bs.extractLsb' 6 2)) x) else
    if bs &&& 0x00007#20 = 0x00004#20 then do let x ← scopeOf (bs.extractLsb' 3 3); pure (.atomMinN32 u h (bs.extractLsb' 14 6) (bs.extractLsb' 8 6) (Ord.ofBits (bs.extractLsb' 6 2)) x) else
    if bs &&& 0x00007#20 = 0x00005#20 then do let x ← scopeOf (bs.extractLsb' 3 3); pure (.atomMaxN32 u h (bs.extractLsb' 14 6) (bs.extractLsb' 8 6) (Ord.ofBits (bs.extractLsb' 6 2)) x) else
    if bs &&& 0x00007#20 = 0x00006#20 then do let x ← scopeOf (bs.extractLsb' 3 3); pure (.atomOr u h (bs.extractLsb' 14 6) (bs.extractLsb' 8 6) (Ord.ofBits (bs.extractLsb' 6 2)) x) else
    if bs &&& 0x00007#20 = 0x00007#20 then do let x ← scopeOf (bs.extractLsb' 3 3); pure (.atomAnd u h (bs.extractLsb' 14 6) (bs.extractLsb' 8 6) (Ord.ofBits (bs.extractLsb' 6 2)) x) else
    .error .field
  | 0x5A =>
    if bs &&& 0x00007#20 = 0x00000#20 then do let x ← scopeOf (bs.extractLsb' 3 3); pure (.atomExchB32 u h (bs.extractLsb' 14 6) (bs.extractLsb' 8 6) (Ord.ofBits (bs.extractLsb' 6 2)) x) else
    if bs &&& 0x00007#20 = 0x00001#20 then do let x ← scopeOf (bs.extractLsb' 3 3); pure (.atomCasB32 u h (bs.extractLsb' 14 6) (bs.extractLsb' 8 6) (Ord.ofBits (bs.extractLsb' 6 2)) x) else
    if bs &&& 0x00007#20 = 0x00002#20 then do let x ← scopeOf (bs.extractLsb' 3 3); pure (.atomExchB64 u h (bs.extractLsb' 14 6) (bs.extractLsb' 8 6) (Ord.ofBits (bs.extractLsb' 6 2)) x) else
    if bs &&& 0x00007#20 = 0x00003#20 then do let x ← scopeOf (bs.extractLsb' 3 3); pure (.atomCasB64 u h (bs.extractLsb' 14 6) (bs.extractLsb' 8 6) (Ord.ofBits (bs.extractLsb' 6 2)) x) else
    if bs &&& 0x00007#20 = 0x00004#20 then do let x ← scopeOf (bs.extractLsb' 3 3); pure (.atomAddF32 u h (bs.extractLsb' 14 6) (bs.extractLsb' 8 6) (Ord.ofBits (bs.extractLsb' 6 2)) x) else
    if bs &&& 0x00007#20 = 0x00005#20 then do let x ← scopeOf (bs.extractLsb' 3 3); pure (.atomMinF32 u h (bs.extractLsb' 14 6) (bs.extractLsb' 8 6) (Ord.ofBits (bs.extractLsb' 6 2)) x) else
    if bs &&& 0x00007#20 = 0x00006#20 then do let x ← scopeOf (bs.extractLsb' 3 3); pure (.atomMaxF32 u h (bs.extractLsb' 14 6) (bs.extractLsb' 8 6) (Ord.ofBits (bs.extractLsb' 6 2)) x) else
    .error .field
  | 0x5B =>
    if bs &&& 0x00007#20 = 0x00000#20 then do let x ← scopeOf (bs.extractLsb' 3 3); pure (.redAddN32 u h (bs.extractLsb' 14 6) (bs.extractLsb' 8 6) (Ord.ofBits (bs.extractLsb' 6 2)) x) else
    if bs &&& 0x00007#20 = 0x00001#20 then do let x ← scopeOf (bs.extractLsb' 3 3); pure (.redAddN64 u h (bs.extractLsb' 14 6) (bs.extractLsb' 8 6) (Ord.ofBits (bs.extractLsb' 6 2)) x) else
    if bs &&& 0x00007#20 = 0x00002#20 then do let x ← scopeOf (bs.extractLsb' 3 3); pure (.redMinI32 u h (bs.extractLsb' 14 6) (bs.extractLsb' 8 6) (Ord.ofBits (bs.extractLsb' 6 2)) x) else
    if bs &&& 0x00007#20 = 0x00003#20 then do let x ← scopeOf (bs.extractLsb' 3 3); pure (.redMaxI32 u h (bs.extractLsb' 14 6) (bs.extractLsb' 8 6) (Ord.ofBits (bs.extractLsb' 6 2)) x) else
    if bs &&& 0x00007#20 = 0x00004#20 then do let x ← scopeOf (bs.extractLsb' 3 3); pure (.redMinN32 u h (bs.extractLsb' 14 6) (bs.extractLsb' 8 6) (Ord.ofBits (bs.extractLsb' 6 2)) x) else
    if bs &&& 0x00007#20 = 0x00005#20 then do let x ← scopeOf (bs.extractLsb' 3 3); pure (.redMaxN32 u h (bs.extractLsb' 14 6) (bs.extractLsb' 8 6) (Ord.ofBits (bs.extractLsb' 6 2)) x) else
    if bs &&& 0x00007#20 = 0x00006#20 then do let x ← scopeOf (bs.extractLsb' 3 3); pure (.redOr u h (bs.extractLsb' 14 6) (bs.extractLsb' 8 6) (Ord.ofBits (bs.extractLsb' 6 2)) x) else
    if bs &&& 0x00007#20 = 0x00007#20 then do let x ← scopeOf (bs.extractLsb' 3 3); pure (.redAnd u h (bs.extractLsb' 14 6) (bs.extractLsb' 8 6) (Ord.ofBits (bs.extractLsb' 6 2)) x) else
    .error .field
  | 0x5C =>
    if bs &&& 0x00007#20 = 0x00004#20 then do let x ← scopeOf (bs.extractLsb' 3 3); pure (.redAddF32 u h (bs.extractLsb' 14 6) (bs.extractLsb' 8 6) (Ord.ofBits (bs.extractLsb' 6 2)) x) else
    if bs &&& 0x00007#20 = 0x00005#20 then do let x ← scopeOf (bs.extractLsb' 3 3); pure (.redMinF32 u h (bs.extractLsb' 14 6) (bs.extractLsb' 8 6) (Ord.ofBits (bs.extractLsb' 6 2)) x) else
    if bs &&& 0x00007#20 = 0x00006#20 then do let x ← scopeOf (bs.extractLsb' 3 3); pure (.redMaxF32 u h (bs.extractLsb' 14 6) (bs.extractLsb' 8 6) (Ord.ofBits (bs.extractLsb' 6 2)) x) else
    .error .field
  | 0x5D =>
    if bs &&& 0xFFF07#20 = 0x00000#20 then do let x ← scopeOf (bs.extractLsb' 3 3); pure (.fence h (Ord.ofBits (bs.extractLsb' 6 2)) x) else
    .error .field
  | 0x5E =>
    if bs &&& 0xC00FF#20 = 0x00000#20 then .ok (.barArr h (bs.extractLsb' 14 4) (bs.extractLsb' 8 6)) else
    if bs &&& 0xC3FFF#20 = 0x00001#20 then .ok (.barWait h (bs.extractLsb' 14 4)) else
    if bs &&& 0xC00FF#20 = 0x00002#20 then .ok (.barSync h (bs.extractLsb' 14 4) (bs.extractLsb' 8 6)) else
    .error .field
  | 0x5F =>
    if bs &&& 0x000FF#20 = 0x00000#20 then .ok (.ownTake h (bs.extractLsb' 14 6) (bs.extractLsb' 8 6)) else
    if bs &&& 0x000FF#20 = 0x00001#20 then .ok (.ownGive h (bs.extractLsb' 14 6) (bs.extractLsb' 8 6)) else
    if bs &&& 0xFC0FF#20 = 0x00002#20 then .ok (.pref u h (bs.extractLsb' 8 6)) else
    if bs &&& 0xFFFFF#20 = 0x00003#20 then .ok (.trig u h) else
    .error .field
  | 0x60 =>
    if bs &&& 0x0C007#20 = 0x00000#20 then .ok (.cpInScr h (bs.extractLsb' 16 4) (bs.extractLsb' 8 6) (bs.extractLsb' 4 4) (bs.getLsbD 3)) else
    if bs &&& 0x0C007#20 = 0x04000#20 then .ok (.cpInObuf h (bs.extractLsb' 16 4) (bs.extractLsb' 8 6) (bs.extractLsb' 4 4) (bs.getLsbD 3)) else
    .error .field
  | 0x61 =>
    if bs &&& 0x0C007#20 = 0x00000#20 then .ok (.cpOutScr h (bs.extractLsb' 16 4) (bs.extractLsb' 8 6) (bs.extractLsb' 4 4) (bs.getLsbD 3)) else
    .error .field
  | 0x62 =>
    if bs &&& 0x0FF00#20 = 0x00000#20 then .ok (.trecTab h (bs.extractLsb' 16 4) (BSel.ofBits (bs.extractLsb' 0 8))) else
    if bs &&& 0x0C0FF#20 = 0x04000#20 then .ok (.trecBase h (bs.extractLsb' 16 4) (bs.extractLsb' 8 6)) else
    .error .field
  | 0x63 =>
    if bs &&& 0x0FF00#20 = 0x00000#20 then .ok (.obufRsvTpl h (bs.extractLsb' 16 4) (BSel.ofBits (bs.extractLsb' 0 8))) else
    if bs &&& 0x0C0FF#20 = 0x04000#20 then .ok (.obufRsvReg h (bs.extractLsb' 16 4) (bs.extractLsb' 8 6)) else
    .error .field
  | 0x64 =>
    if bs &&& 0x0FFFF#20 = 0x00000#20 then .ok (.obufFree h (bs.extractLsb' 16 4)) else
    .error .field
  | 0x65 =>
    if bs &&& 0x000C0#20 = 0x00040#20 then .ok (.mma h (bs.extractLsb' 14 6) (bs.extractLsb' 8 6) (bs.extractLsb' 0 6)) else
    .error .field
  | 0x66 =>
    if bs &&& 0x03FFF#20 = 0x00000#20 then .ok (.mmaFence h (bs.extractLsb' 14 6)) else
    .error .field
  | 0x67 =>
    if bs &&& 0xFFF00#20 = 0x00000#20 then .ok (.mmaWait h (BSel.ofBits (bs.extractLsb' 0 8))) else
    .error .field
  | 0x68 =>
    if bs &&& 0x03FFF#20 = 0x00000#20 then .ok (.accZero h (bs.extractLsb' 14 6)) else
    .error .field
  | 0x69 =>
    .ok (.accRd h (bs.extractLsb' 14 6) (bs.extractLsb' 8 6) (BSel.ofBits (bs.extractLsb' 0 8)))
  | 0x6A =>
    if bs &&& 0x00007#20 = 0x00000#20 then .ok (.drain h (bs.extractLsb' 14 6) (bs.extractLsb' 8 6) (bs.extractLsb' 4 4) (bs.getLsbD 3)) else
    .error .field
  | 0x6B =>
    do let f ← dxOf (bs.extractLsb' 6 2); pure (.qcvt h (bs.extractLsb' 14 6) (bs.extractLsb' 8 6) f (bs.extractLsb' 0 6))
  | 0x6C =>
    if bs &&& 0x00700#20 = 0x00000#20 then .ok (.deq h (bs.extractLsb' 14 6) (bs.extractLsb' 11 3) (BSel.ofBits (bs.extractLsb' 0 8))) else
    .error .field
  | 0x6D =>
    if bs &&& 0x1C000#20 = 0x00000#20 then .ok (.enq h (bs.extractLsb' 17 3) (bs.extractLsb' 8 6) (BSel.ofBits (bs.extractLsb' 0 8))) else
    .error .field
  | 0x6E =>
    if bs &&& 0x1C000#20 = 0x00000#20 then .ok (.jpost h (bs.extractLsb' 17 3) (bs.extractLsb' 8 6) (BSel.ofBits (bs.extractLsb' 0 8))) else
    .error .field
  | 0x6F =>
    .ok (.disp h (bs.extractLsb' 14 6) (bs.extractLsb' 8 6) (BSel.ofBits (bs.extractLsb' 0 8)))
  | 0x70 => decodeSets h (bs.extractLsb' 14 6) (bs.extractLsb' 8 6) (BSel.ofBits (bs.extractLsb' 0 8))
  | 0x71 =>
    if bs &&& 0xFFF00#20 = 0x00000#20 then .ok (.trap u h (BSel.ofBits (bs.extractLsb' 0 8))) else
    .error .field
  | 0x72 =>
    if bs &&& 0xFFFFF#20 = 0x00000#20 then .ok (.rte h) else
    .error .field
  | 0x73 =>
    if bs &&& 0xFFF00#20 = 0x00000#20 then .ok (.halt h (BSel.ofBits (bs.extractLsb' 0 8))) else
    .error .field
  | 0x74 =>
    if bs &&& 0x000C8#20 = 0x00000#20 then .ok (.leaseReq h (bs.extractLsb' 14 6) (bs.extractLsb' 8 6) (bs.extractLsb' 4 2) (bs.extractLsb' 0 3)) else
    if bs &&& 0xFFFFF#20 = 0x00040#20 then .ok (.leaseEnd h) else
    .error .field
  | 0x75 =>
    if bs &&& 0x03FFF#20 = 0x00000#20 then .ok (.rand h (bs.extractLsb' 14 6)) else
    if bs &&& 0xFC0FF#20 = 0x00001#20 then .ok (.randSeed h (bs.extractLsb' 8 6)) else
    .error .field
  | 0x76 =>
    if bs &&& 0x000FF#20 = 0x00000#20 then .ok (.ctxGsave h (bs.extractLsb' 14 6) (bs.extractLsb' 8 6)) else
    if bs &&& 0x000FF#20 = 0x00001#20 then .ok (.ctxGrest h (bs.extractLsb' 14 6) (bs.extractLsb' 8 6)) else
    if bs &&& 0x000FF#20 = 0x00002#20 then .ok (.ctxWsave h (bs.extractLsb' 14 6) (bs.extractLsb' 8 6)) else
    if bs &&& 0x000FF#20 = 0x00003#20 then .ok (.ctxWrest h (bs.extractLsb' 14 6) (bs.extractLsb' 8 6)) else
    if bs &&& 0x03FFF#20 = 0x00004#20 then .ok (.ctxRemap h (bs.extractLsb' 14 6)) else
    .error .field
  | 0x77 =>
    if bs &&& 0xFC0FF#20 = 0x00000#20 then .ok (.npost h (bs.extractLsb' 8 6)) else
    .error .field
  | 0x78 =>
    if bs &&& 0x04000#20 = 0x00000#20 then do let x ← scopeOf (bs.extractLsb' 15 3); pure (.nctrAdd h (Ord.ofBits (bs.extractLsb' 18 2)) x (bs.extractLsb' 8 6) (BSel.ofBits (bs.extractLsb' 0 8))) else
    .error .field
  | 0x79 =>
    if bs &&& 0x000FF#20 = 0x00000#20 then .ok (.nctrRd h (bs.extractLsb' 14 6) (bs.extractLsb' 8 6)) else
    .error .field
  | 0x7A =>
    if bs &&& 0xFC000#20 = 0x00000#20 then .ok (.nctrWait h (bs.extractLsb' 8 6) (BSel.ofBits (bs.extractLsb' 0 8))) else
    .error .field
  | 0x7B =>
    if bs &&& 0xFC007#20 = 0x00000#20 then do let x ← scopeOf (bs.extractLsb' 3 3); pure (.nput h (bs.extractLsb' 8 6) (Ord.ofBits (bs.extractLsb' 6 2)) x) else
    .error .field
  | 0x7C =>
    if bs &&& 0xFC007#20 = 0x00000#20 then do let x ← scopeOf (bs.extractLsb' 3 3); pure (.nget h (bs.extractLsb' 8 6) (Ord.ofBits (bs.extractLsb' 6 2)) x) else
    .error .field
  | 0x7D =>
    if bs &&& 0x00080#20 = 0x00000#20 then do let f ← gfnOf (bs.extractLsb' 0 4); pure (.treeRed h (bs.extractLsb' 14 6) (bs.extractLsb' 8 6) (bs.extractLsb' 4 3) f) else
    .error .field
  | 0x7E =>
    if bs &&& 0xFFFFF#20 = 0x00000#20 then .ok (.treeBar h) else
    .error .field
  | _ => .error .unassigned

/-- The payload of a MOD hint (R35); bits 7:0 are reserved. -/
def decodeMod (p : BitVec 22) : ModFields :=
  { rnd := p.extractLsb' 19 3, sat := p.getLsbD 18, cache := p.extractLsb' 16 2, scope := p.extractLsb' 13 3,
    nega := p.getLsbD 12, negb := p.getLsbD 11, absa := p.getLsbD 10, absb := p.getLsbD 9, negd := p.getLsbD 8 }

/-- A hint (R31, R34, R35, R36): kinds 4 to 7 are reserved. -/
def decodeHint (k : BitVec 3) (p : BitVec 22) : Except EncReason Instr :=
  match k.toNat with
  | 0 => .ok (.hintWide p)
  | 1 => if p.extractLsb' 8 14 = 0#14 then .ok (.hintSched (p.extractLsb' 5 3) (p.getLsbD 4) (p.extractLsb' 0 4)) else .error .field
  | 2 => if p.extractLsb' 0 8 = 0#8 then .ok (.hintMod (decodeMod p)) else .error .field
  | 3 => if p.extractLsb' 5 17 = 0#17 then .ok (.hintType (p.getLsbD 4) (p.extractLsb' 2 2) (p.extractLsb' 0 2)) else .error .field
  | _ => .error .hintKind

/-- Majors that are assigned (R38). -/
def assignedMajor (op : BitVec 7) : Bool :=
  !(decide (op = 0x1F#7) || decide (0x3D ≤ op.toNat ∧ op.toNat ≤ 0x3F) || decide (0x4C ≤ op.toNat ∧ op.toNat ≤ 0x4F))

/-- The form that the map permits: `some true` uniform only, `some false` per-thread only, `none` both (R38, R39). In
majors 0x23 and 0x5F the function code decides; a reserved code is left to the field check. (DEDUCED, log 14) -/
def permittedU (op : BitVec 7) (fn : BitVec 8) : Option Bool :=
  let n := op.toNat
  if n = 0x23 then (if 1 ≤ fn.toNat ∧ fn.toNat ≤ 4 then some true else none)
  else if n = 0x5F then (if fn.toNat ≤ 1 then some true else none)
  else if n = 0x21 ∨ n = 0x22 ∨ n = 0x24 ∨ n = 0x25 ∨ (0x47 ≤ n ∧ n ≤ 0x4B) ∨ n = 0x5D ∨ n = 0x5E then some true
  else if (0x39 ≤ n ∧ n ≤ 0x3C) ∨ (0x40 ≤ n ∧ n ≤ 0x46) ∨ n = 0x65 ∨ n = 0x69 ∨ n = 0x6B ∨ n = 0x75 then some false
  else if 0x60 ≤ n ∧ n ≠ 0x71 ∧ n ≠ 0x7F then some true
  else none

/-- Decode one word (R21, R40): the lowest reason that applies is reported. -/
def decode (w : Word) : Except EncReason Instr :=
  let op := w.extractLsb' 25 7
  let u := w.getLsbD 24
  let h : Guard := ⟨w.extractLsb' 21 3, w.getLsbD 20⟩
  if op = 0x7F#7 then do
    let i ← decodeHint (w.extractLsb' 22 3) (w.extractLsb' 0 22)
    if i.wf then pure i else .error .field
  else if assignedMajor op = false then .error .unassigned
  else match permittedU op (w.extractLsb' 0 8), u with
    | some false, true => .error .uOne
    | some true, false => .error .uZero
    | some true, true | some false, false | none, _ =>
      if h.ok = false then .error .guard else do
        let i ← decodeBody op u h (w.extractLsb' 0 20)
        if i.wf then pure i else .error .field

/-- The host's question: the instruction whose bits are `w`. Every instruction is one 32-bit word (R21), stored little-endian
(R3), so bit 0 of the number is bit 0 of the word; `nbits` is at most 32. -/
def decodeTableWord (nbits w : Nat) : Option Instr :=
  match decode (BitVec.ofNat 32 (w % 2 ^ nbits)) with
  | .ok i => some i
  | .error _ => none

/-! ### Encoding -/

/-- The parts of a word that is not a hint (R21): major, U, guard, bits 19:0. -/
structure Parts where
  op : BitVec 7
  u : Bool
  h : Guard
  x : BitVec 20
  deriving DecidableEq, Repr

/-- One bit. -/
def bit (b : Bool) : BitVec 1 := BitVec.ofBool b

/-- The word of the parts. -/
def Parts.word (p : Parts) : Word := p.op ++ bit p.u ++ p.h.idx ++ bit p.h.neg ++ p.x

/-- The parts of an instruction word; `none` for hints and for steps that have no word. -/
def encodeParts : Instr → Option Parts
  | .add u h d a b => some ⟨0x00#7, u, h, d ++ a ++ b.bits⟩
  | .sub u h d a b => some ⟨0x01#7, u, h, d ++ a ++ b.bits⟩
  | .mul u h d a b => some ⟨0x02#7, u, h, d ++ a ++ b.bits⟩
  | .mulhI32 u h d a b => some ⟨0x03#7, u, h, d ++ a ++ b.bits⟩
  | .mulhN32 u h d a b => some ⟨0x04#7, u, h, d ++ a ++ b.bits⟩
  | .mad u h d a b => some ⟨0x05#7, u, h, d ++ a ++ b.bits⟩
  | .addx u h d a b => some ⟨0x06#7, u, h, d ++ a ++ b.bits⟩
  | .subx u h d a b => some ⟨0x07#7, u, h, d ++ a ++ b.bits⟩
  | .minI32 u h d a b => some ⟨0x08#7, u, h, d ++ a ++ b.bits⟩
  | .maxI32 u h d a b => some ⟨0x09#7, u, h, d ++ a ++ b.bits⟩
  | .minN32 u h d a b => some ⟨0x0A#7, u, h, d ++ a ++ b.bits⟩
  | .maxN32 u h d a b => some ⟨0x0B#7, u, h, d ++ a ++ b.bits⟩
  | .andB u h d a b => some ⟨0x0C#7, u, h, d ++ a ++ b.bits⟩
  | .orB u h d a b => some ⟨0x0D#7, u, h, d ++ a ++ b.bits⟩
  | .xorB u h d a b => some ⟨0x0E#7, u, h, d ++ a ++ b.bits⟩
  | .andnB u h d a b => some ⟨0x0F#7, u, h, d ++ a ++ b.bits⟩
  | .shl u h d a b => some ⟨0x10#7, u, h, d ++ a ++ b.bits⟩
  | .shr u h d a b => some ⟨0x11#7, u, h, d ++ a ++ b.bits⟩
  | .sar u h d a b => some ⟨0x12#7, u, h, d ++ a ++ b.bits⟩
  | .rotl u h d a b => some ⟨0x13#7, u, h, d ++ a ++ b.bits⟩
  | .negI u h d a => some ⟨0x14#7, u, h, d ++ a ++ 0#8⟩
  | .absI u h d a => some ⟨0x14#7, u, h, d ++ a ++ 1#8⟩
  | .notB u h d a => some ⟨0x14#7, u, h, d ++ a ++ 2#8⟩
  | .clz u h d a => some ⟨0x14#7, u, h, d ++ a ++ 3#8⟩
  | .popc u h d a => some ⟨0x14#7, u, h, d ++ a ++ 4#8⟩
  | .brev u h d a => some ⟨0x14#7, u, h, d ++ a ++ 5#8⟩
  | .mov u h d a => some ⟨0x14#7, u, h, d ++ a ++ 6#8⟩
  | .sxtI8 u h d a => some ⟨0x14#7, u, h, d ++ a ++ 8#8⟩
  | .sxtI16 u h d a => some ⟨0x14#7, u, h, d ++ a ++ 9#8⟩
  | .sxtI32 u h d a => some ⟨0x14#7, u, h, d ++ a ++ 10#8⟩
  | .zxtN8 u h d a => some ⟨0x14#7, u, h, d ++ a ++ 12#8⟩
  | .zxtN16 u h d a => some ⟨0x14#7, u, h, d ++ a ++ 13#8⟩
  | .zxtN32 u h d a => some ⟨0x14#7, u, h, d ++ a ++ 14#8⟩
  | .bfxN32 u h d a b => some ⟨0x15#7, u, h, d ++ a ++ b.bits⟩
  | .bfxI32 u h d a b => some ⟨0x16#7, u, h, d ++ a ++ b.bits⟩
  | .bfi u h d a b => some ⟨0x17#7, u, h, d ++ a ++ b.bits⟩
  | .lea u h d k a b => some ⟨0x18#7, u, h, d ++ (k.extractLsb' 1 1) ++ a ++ (k.extractLsb' 0 1) ++ b.bits⟩
  | .sel u p n d a b => some ⟨0x19#7, u, ⟨p, n⟩, d ++ a ++ b.bits⟩
  | .cmpI32 u h c p a b => some ⟨0x1A#7, u, h, c.bits ++ p ++ a ++ b.bits⟩
  | .cmpN32 u h c p a b => some ⟨0x1B#7, u, h, c.bits ++ p ++ a ++ b.bits⟩
  | .pand u h d a b => some ⟨0x1C#7, u, h, 0#3 ++ d ++ 0#3 ++ a ++ 0#5 ++ b⟩
  | .por u h d a b => some ⟨0x1C#7, u, h, 1#3 ++ d ++ 0#3 ++ a ++ 0#5 ++ b⟩
  | .pxor u h d a b => some ⟨0x1C#7, u, h, 2#3 ++ d ++ 0#3 ++ a ++ 0#5 ++ b⟩
  | .pnot u h d a => some ⟨0x1C#7, u, h, 3#3 ++ d ++ 0#3 ++ a ++ 0#8⟩
  | .movi u h d i => some ⟨0x1D#7, u, h, d ++ i⟩
  | .movh u h d i => some ⟨0x1E#7, u, h, d ++ i⟩
  | .bra u h f => some ⟨0x20#7, u, h, f⟩
  | .call h f => some ⟨0x21#7, true, h, f⟩
  | .loop h c l => some ⟨0x22#7, true, h, c ++ l⟩
  | .nop u h => some ⟨0x23#7, u, h, 0#20⟩
  | .brx h a => some ⟨0x23#7, true, h, 0#6 ++ a ++ 1#8⟩
  | .callx h d a => some ⟨0x23#7, true, h, d ++ a ++ 2#8⟩
  | .ret h a => some ⟨0x23#7, true, h, 0#6 ++ a ++ 3#8⟩
  | .brk h => some ⟨0x23#7, true, h, 4#20⟩
  | .exit u h => some ⟨0x23#7, u, h, 5#20⟩
  | .gets u h d r => some ⟨0x23#7, u, h, d ++ r.bits ++ 6#8⟩
  | .wait h l t c e r => some ⟨0x24#7, true, h, l ++ t ++ c ++ e ++ r⟩
  | .waitc h k a => some ⟨0x25#7, true, h, k.bits ++ 0#3 ++ a ++ 0#8⟩
  | .ldGlbN8 u h d a f => some ⟨0x26#7, u, h, d ++ a ++ 0#5 ++ f⟩
  | .ldGlbN16 u h d a f => some ⟨0x27#7, u, h, d ++ a ++ 0#5 ++ f⟩
  | .ldGlbB32 u h d a f => some ⟨0x28#7, u, h, d ++ a ++ 0#5 ++ f⟩
  | .ldGlbB64 u h d a f => some ⟨0x29#7, u, h, d ++ a ++ 0#5 ++ f⟩
  | .ldGlbB128 u h d a f => some ⟨0x2A#7, u, h, d ++ a ++ 0#5 ++ f⟩
  | .stGlbB8 u h d a f => some ⟨0x2B#7, u, h, d ++ a ++ 0#5 ++ f⟩
  | .stGlbB16 u h d a f => some ⟨0x2C#7, u, h, d ++ a ++ 0#5 ++ f⟩
  | .stGlbB32 u h d a f => some ⟨0x2D#7, u, h, d ++ a ++ 0#5 ++ f⟩
  | .stGlbB64 u h d a f => some ⟨0x2E#7, u, h, d ++ a ++ 0#5 ++ f⟩
  | .stGlbB128 u h d a f => some ⟨0x2F#7, u, h, d ++ a ++ 0#5 ++ f⟩
  | .fadd u h d a b => some ⟨0x30#7, u, h, d ++ a ++ b.bits⟩
  | .fsub u h d a b => some ⟨0x31#7, u, h, d ++ a ++ b.bits⟩
  | .fmul u h d a b => some ⟨0x32#7, u, h, d ++ a ++ b.bits⟩
  | .ffma u h d a b => some ⟨0x33#7, u, h, d ++ a ++ b.bits⟩
  | .fmin u h d a b => some ⟨0x34#7, u, h, d ++ a ++ b.bits⟩
  | .fmax u h d a b => some ⟨0x35#7, u, h, d ++ a ++ b.bits⟩
  | .fneg u h d a => some ⟨0x36#7, u, h, d ++ a ++ 0#8⟩
  | .fabs u h d a => some ⟨0x36#7, u, h, d ++ a ++ 1#8⟩
  | .fclass u h d a => some ⟨0x36#7, u, h, d ++ a ++ 2#8⟩
  | .frndRn u h d a => some ⟨0x36#7, u, h, d ++ a ++ 4#8⟩
  | .frndRz u h d a => some ⟨0x36#7, u, h, d ++ a ++ 5#8⟩
  | .frndRd u h d a => some ⟨0x36#7, u, h, d ++ a ++ 6#8⟩
  | .frndRu u h d a => some ⟨0x36#7, u, h, d ++ a ++ 7#8⟩
  | .rcp u h d a => some ⟨0x36#7, u, h, d ++ a ++ 16#8⟩
  | .rsqrt u h d a => some ⟨0x36#7, u, h, d ++ a ++ 17#8⟩
  | .sqrt u h d a => some ⟨0x36#7, u, h, d ++ a ++ 18#8⟩
  | .exp2 u h d a => some ⟨0x36#7, u, h, d ++ a ++ 19#8⟩
  | .log2 u h d a => some ⟨0x36#7, u, h, d ++ a ++ 20#8⟩
  | .sinpi u h d a => some ⟨0x36#7, u, h, d ++ a ++ 21#8⟩
  | .cospi u h d a => some ⟨0x36#7, u, h, d ++ a ++ 22#8⟩
  | .sincospi u h d a => some ⟨0x36#7, u, h, d ++ a ++ 23#8⟩
  | .tanh u h d a => some ⟨0x36#7, u, h, d ++ a ++ 24#8⟩
  | .fcmp u h c p a b => some ⟨0x37#7, u, h, c.bits ++ p ++ a ++ b.bits⟩
  | .fcvt u h d a t y => some ⟨0x38#7, u, h, d ++ a ++ t.bits ++ y.bits⟩
  | .fcvti u h d a t y => some ⟨0x38#7, u, h, d ++ a ++ t.bits ++ y.bits⟩
  | .icvtf u h d a t y => some ⟨0x38#7, u, h, d ++ a ++ t.bits ++ y.bits⟩
  | .hadd2 h d a f g b => some ⟨0x39#7, false, h, d ++ a ++ (bit f) ++ (bit g) ++ b⟩
  | .hmul2 h d a f g b => some ⟨0x3A#7, false, h, d ++ a ++ (bit f) ++ (bit g) ++ b⟩
  | .hfma2 h d a f g b => some ⟨0x3B#7, false, h, d ++ a ++ (bit f) ++ (bit g) ++ b⟩
  | .dot2 h d a f g b => some ⟨0x3C#7, false, h, d ++ a ++ (bit f) ++ (bit g) ++ b⟩
  | .voteMask h d p => some ⟨0x40#7, false, h, d ++ 0#3 ++ p ++ 0#8⟩
  | .voteEvery h q p => some ⟨0x40#7, false, h, 0#3 ++ q ++ 1#3 ++ p ++ 0#8⟩
  | .voteSome h q p => some ⟨0x40#7, false, h, 0#3 ++ q ++ 2#3 ++ p ++ 0#8⟩
  | .voteSame h q b => some ⟨0x40#7, false, h, 0#3 ++ q ++ 24#6 ++ b.bits⟩
  | .voteCount h d p => some ⟨0x40#7, false, h, d ++ 4#3 ++ p ++ 0#8⟩
  | .shflAt h d a r k => some ⟨0x41#7, false, h, d ++ a ++ 0#2 ++ (bit r) ++ k⟩
  | .shflBack h d a r k => some ⟨0x41#7, false, h, d ++ a ++ 1#2 ++ (bit r) ++ k⟩
  | .shflFwd h d a r k => some ⟨0x41#7, false, h, d ++ a ++ 2#2 ++ (bit r) ++ k⟩
  | .shflMix h d a r k => some ⟨0x41#7, false, h, d ++ a ++ 3#2 ++ (bit r) ++ k⟩
  | .bcast h d a b => some ⟨0x42#7, false, h, d ++ a ++ b.bits⟩
  | .gred h d a f => some ⟨0x43#7, false, h, d ++ a ++ 0#4 ++ f.bits⟩
  | .scan h d a f => some ⟨0x44#7, false, h, d ++ a ++ 0#4 ++ f.bits⟩
  | .scanExcl h d a f => some ⟨0x44#7, false, h, d ++ a ++ 8#4 ++ f.bits⟩
  | .elect h d p => some ⟨0x45#7, false, h, d ++ 0#3 ++ p ++ 0#8⟩
  | .xchg h d a t => some ⟨0x46#7, false, h, d ++ a ++ 2#2 ++ t⟩
  | .joinArm h k b => some ⟨0x47#7, true, h, k ++ 0#9 ++ b.bits⟩
  | .joinArmRun h k b => some ⟨0x47#7, true, h, k ++ 256#9 ++ b.bits⟩
  | .joinWait h k => some ⟨0x48#7, true, h, k ++ 0#17⟩
  | .yield h => some ⟨0x49#7, true, h, 0#20⟩
  | .slotRel h a b => some ⟨0x4A#7, true, h, 0#6 ++ a ++ b.bits⟩
  | .slotQ h d b => some ⟨0x4B#7, true, h, d ++ 0#6 ++ b.bits⟩
  | .scopedLdGlbB32 u h d a o x f => some ⟨0x50#7, u, h, d ++ a ++ o.bits ++ x.bits ++ f⟩
  | .scopedLdGlbB64 u h d a o x f => some ⟨0x51#7, u, h, d ++ a ++ o.bits ++ x.bits ++ f⟩
  | .scopedStGlbB32 u h d a o x f => some ⟨0x52#7, u, h, d ++ a ++ o.bits ++ x.bits ++ f⟩
  | .scopedStGlbB64 u h d a o x f => some ⟨0x53#7, u, h, d ++ a ++ o.bits ++ x.bits ++ f⟩
  | .ldsB32 u h d a o x f => some ⟨0x54#7, u, h, d ++ a ++ o.bits ++ x.bits ++ f⟩
  | .ldsB64 u h d a o x f => some ⟨0x55#7, u, h, d ++ a ++ o.bits ++ x.bits ++ f⟩
  | .stsB32 u h d a o x f => some ⟨0x56#7, u, h, d ++ a ++ o.bits ++ x.bits ++ f⟩
  | .stsB64 u h d a o x f => some ⟨0x57#7, u, h, d ++ a ++ o.bits ++ x.bits ++ f⟩
  | .ldc u h d a f => some ⟨0x58#7, u, h, d ++ a ++ 0#5 ++ f⟩
  | .atomAddN32 u h d a o x => some ⟨0x59#7, u, h, d ++ a ++ o.bits ++ x.bits ++ 0#3⟩
  | .atomAddN64 u h d a o x => some ⟨0x59#7, u, h, d ++ a ++ o.bits ++ x.bits ++ 1#3⟩
  | .atomMinI32 u h d a o x => some ⟨0x59#7, u, h, d ++ a ++ o.bits ++ x.bits ++ 2#3⟩
  | .atomMaxI32 u h d a o x => some ⟨0x59#7, u, h, d ++ a ++ o.bits ++ x.bits ++ 3#3⟩
  | .atomMinN32 u h d a o x => some ⟨0x59#7, u, h, d ++ a ++ o.bits ++ x.bits ++ 4#3⟩
  | .atomMaxN32 u h d a o x => some ⟨0x59#7, u, h, d ++ a ++ o.bits ++ x.bits ++ 5#3⟩
  | .atomOr u h d a o x => some ⟨0x59#7, u, h, d ++ a ++ o.bits ++ x.bits ++ 6#3⟩
  | .atomAnd u h d a o x => some ⟨0x59#7, u, h, d ++ a ++ o.bits ++ x.bits ++ 7#3⟩
  | .atomExchB32 u h d a o x => some ⟨0x5A#7, u, h, d ++ a ++ o.bits ++ x.bits ++ 0#3⟩
  | .atomCasB32 u h d a o x => some ⟨0x5A#7, u, h, d ++ a ++ o.bits ++ x.bits ++ 1#3⟩
  | .atomExchB64 u h d a o x => some ⟨0x5A#7, u, h, d ++ a ++ o.bits ++ x.bits ++ 2#3⟩
  | .atomCasB64 u h d a o x => some ⟨0x5A#7, u, h, d ++ a ++ o.bits ++ x.bits ++ 3#3⟩
  | .atomAddF32 u h d a o x => some ⟨0x5A#7, u, h, d ++ a ++ o.bits ++ x.bits ++ 4#3⟩
  | .atomMinF32 u h d a o x => some ⟨0x5A#7, u, h, d ++ a ++ o.bits ++ x.bits ++ 5#3⟩
  | .atomMaxF32 u h d a o x => some ⟨0x5A#7, u, h, d ++ a ++ o.bits ++ x.bits ++ 6#3⟩
  | .redAddN32 u h d a o x => some ⟨0x5B#7, u, h, d ++ a ++ o.bits ++ x.bits ++ 0#3⟩
  | .redAddN64 u h d a o x => some ⟨0x5B#7, u, h, d ++ a ++ o.bits ++ x.bits ++ 1#3⟩
  | .redMinI32 u h d a o x => some ⟨0x5B#7, u, h, d ++ a ++ o.bits ++ x.bits ++ 2#3⟩
  | .redMaxI32 u h d a o x => some ⟨0x5B#7, u, h, d ++ a ++ o.bits ++ x.bits ++ 3#3⟩
  | .redMinN32 u h d a o x => some ⟨0x5B#7, u, h, d ++ a ++ o.bits ++ x.bits ++ 4#3⟩
  | .redMaxN32 u h d a o x => some ⟨0x5B#7, u, h, d ++ a ++ o.bits ++ x.bits ++ 5#3⟩
  | .redOr u h d a o x => some ⟨0x5B#7, u, h, d ++ a ++ o.bits ++ x.bits ++ 6#3⟩
  | .redAnd u h d a o x => some ⟨0x5B#7, u, h, d ++ a ++ o.bits ++ x.bits ++ 7#3⟩
  | .redAddF32 u h d a o x => some ⟨0x5C#7, u, h, d ++ a ++ o.bits ++ x.bits ++ 4#3⟩
  | .redMinF32 u h d a o x => some ⟨0x5C#7, u, h, d ++ a ++ o.bits ++ x.bits ++ 5#3⟩
  | .redMaxF32 u h d a o x => some ⟨0x5C#7, u, h, d ++ a ++ o.bits ++ x.bits ++ 6#3⟩
  | .fence h o x => some ⟨0x5D#7, true, h, 0#12 ++ o.bits ++ x.bits ++ 0#3⟩
  | .barArr h b k => some ⟨0x5E#7, true, h, 0#2 ++ b ++ k ++ 0#8⟩
  | .barWait h b => some ⟨0x5E#7, true, h, 0#2 ++ b ++ 1#14⟩
  | .barSync h b k => some ⟨0x5E#7, true, h, 0#2 ++ b ++ k ++ 2#8⟩
  | .ownTake h d a => some ⟨0x5F#7, true, h, d ++ a ++ 0#8⟩
  | .ownGive h d a => some ⟨0x5F#7, true, h, d ++ a ++ 1#8⟩
  | .pref u h a => some ⟨0x5F#7, u, h, 0#6 ++ a ++ 2#8⟩
  | .trig u h => some ⟨0x5F#7, u, h, 3#20⟩
  | .cpInScr h k a b e => some ⟨0x60#7, true, h, k ++ 0#2 ++ a ++ b ++ (bit e) ++ 0#3⟩
  | .cpInObuf h k a b e => some ⟨0x60#7, true, h, k ++ 1#2 ++ a ++ b ++ (bit e) ++ 0#3⟩
  | .cpOutScr h k a b e => some ⟨0x61#7, true, h, k ++ 0#2 ++ a ++ b ++ (bit e) ++ 0#3⟩
  | .trecTab h k b => some ⟨0x62#7, true, h, k ++ 0#8 ++ b.bits⟩
  | .trecBase h k a => some ⟨0x62#7, true, h, k ++ 1#2 ++ a ++ 0#8⟩
  | .obufRsvTpl h k b => some ⟨0x63#7, true, h, k ++ 0#8 ++ b.bits⟩
  | .obufRsvReg h k a => some ⟨0x63#7, true, h, k ++ 1#2 ++ a ++ 0#8⟩
  | .obufFree h k => some ⟨0x64#7, true, h, k ++ 0#16⟩
  | .mma h d a b => some ⟨0x65#7, false, h, d ++ a ++ 1#2 ++ b⟩
  | .mmaFence h d => some ⟨0x66#7, true, h, d ++ 0#14⟩
  | .mmaWait h b => some ⟨0x67#7, true, h, 0#12 ++ b.bits⟩
  | .accZero h d => some ⟨0x68#7, true, h, d ++ 0#14⟩
  | .accRd h d a b => some ⟨0x69#7, false, h, d ++ a ++ b.bits⟩
  | .drain h d a k e => some ⟨0x6A#7, true, h, d ++ a ++ k ++ (bit e) ++ 0#3⟩
  | .qcvt h d a f k => some ⟨0x6B#7, false, h, d ++ a ++ f.bits ++ k⟩
  | .deq h d q b => some ⟨0x6C#7, true, h, d ++ q ++ 0#3 ++ b.bits⟩
  | .enq h q a b => some ⟨0x6D#7, true, h, q ++ 0#3 ++ a ++ b.bits⟩
  | .jpost h q a b => some ⟨0x6E#7, true, h, q ++ 0#3 ++ a ++ b.bits⟩
  | .disp h d a b => some ⟨0x6F#7, true, h, d ++ a ++ b.bits⟩
  | .sets h r b => some ⟨0x70#7, true, h, r.bits ++ 0#6 ++ b.bits⟩
  | .trap u h b => some ⟨0x71#7, u, h, 0#12 ++ b.bits⟩
  | .rte h => some ⟨0x72#7, true, h, 0#20⟩
  | .halt h b => some ⟨0x73#7, true, h, 0#12 ++ b.bits⟩
  | .leaseReq h d a l q => some ⟨0x74#7, true, h, d ++ a ++ 0#2 ++ l ++ 0#1 ++ q⟩
  | .leaseEnd h => some ⟨0x74#7, true, h, 64#20⟩
  | .rand h d => some ⟨0x75#7, false, h, d ++ 0#14⟩
  | .randSeed h a => some ⟨0x75#7, false, h, 0#6 ++ a ++ 1#8⟩
  | .ctxGsave h d a => some ⟨0x76#7, true, h, d ++ a ++ 0#8⟩
  | .ctxGrest h d a => some ⟨0x76#7, true, h, d ++ a ++ 1#8⟩
  | .ctxWsave h d a => some ⟨0x76#7, true, h, d ++ a ++ 2#8⟩
  | .ctxWrest h d a => some ⟨0x76#7, true, h, d ++ a ++ 3#8⟩
  | .ctxRemap h d => some ⟨0x76#7, true, h, d ++ 4#14⟩
  | .npost h a => some ⟨0x77#7, true, h, 0#6 ++ a ++ 0#8⟩
  | .nctrAdd h o x a b => some ⟨0x78#7, true, h, o.bits ++ x.bits ++ 0#1 ++ a ++ b.bits⟩
  | .nctrRd h d a => some ⟨0x79#7, true, h, d ++ a ++ 0#8⟩
  | .nctrWait h a b => some ⟨0x7A#7, true, h, 0#6 ++ a ++ b.bits⟩
  | .nput h a o x => some ⟨0x7B#7, true, h, 0#6 ++ a ++ o.bits ++ x.bits ++ 0#3⟩
  | .nget h a o x => some ⟨0x7C#7, true, h, 0#6 ++ a ++ o.bits ++ x.bits ++ 0#3⟩
  | .treeRed h d a c f => some ⟨0x7D#7, true, h, d ++ a ++ 0#1 ++ c ++ f.bits⟩
  | .treeBar h => some ⟨0x7E#7, true, h, 0#20⟩
  | .hintWide _ => none
  | .hintSched _ _ _ => none
  | .hintMod _ => none
  | .hintType _ _ _ => none
  | .accessReply _ _ => none
  | .storeReturn _ _ => none
  | .heldAccessSend _ _ => none
  | .prefetchFill _ _ _ _ => none
  | .deferredTrapDelivery _ => none
  | .holdBegin _ _ => none
  | .holdEnd _ _ => none
  | .switchBegin _ => none
  | .switchEnd _ => none
  | .retirement _ _ => none
  | .borderMove _ => none
  | .leaseResident _ _ _ => none
  | .workgroupPlacement _ => none
  | .workgroupCommit _ => none
  | .launchCompletion _ => none
  | .haltPropagate _ => none
  | .dependantRelease _ => none
  | .itemAppend _ => none
  | .deqDelivery _ => none
  | .deqClosedIndication _ => none
  | .swapOut _ => none
  | .swapIn _ => none
  | .copyBeat _ _ => none
  | .copyCompletion _ => none
  | .drainCompletion _ => none
  | .matrixPass _ _ => none
  | .matrixPassResult _ => none
  | .xchgComplete _ => none
  | .treeRedComplete _ => none
  | .treeBarComplete _ => none
  | .dispResult _ => none
  | .nctrWaitMet _ => none
  | .entryArm _ => none
  | .messageArrival _ => none
  | .localCompletion _ => none
  | .networkOperationFault _ => none
  | .contextOpComplete _ => none
  | .leaseDecision _ => none
  | .leaseExpiry _ _ => none
  | .meltUpdate => none
  | .railEpoch => none
  | .clockStep _ _ => none
  | .thermalSample _ _ => none
  | .migrationMove _ _ _ => none
  | .coreStateTransferEnd _ _ _ => none
  | .dramStackOvertemp _ => none
  | .dramStackCool _ => none
  | .siloLinkDown _ => none
  | .siloLinkUp _ => none
  | .canaryFailure _ => none
  | .canaryRelax _ => none
  | .routerArbitration _ _ _ => none
  | .packetMisroute _ _ _ _ => none
  | .bellwetherCapture _ _ => none
  | .deadlockLaneEject _ => none
  | .flitReceive _ _ => none
  | .flitAcknowledge _ _ => none
  | .laneFailure _ => none
  | .retrainComplete _ => none
  | .retrainRetry _ => none
  | .launch _ _ => none
  | .enqCommand _ _ => none
  | .qclose _ _ => none
  | .qdelete _ _ => none
  | .cancel _ _ => none
  | .resync _ _ => none
  | .eventWrite _ _ => none
  | .evCtlWrite _ _ => none
  | .evHeadWrite _ _ => none
  | .lqCtlWrite _ _ _ => none
  | .lqTailWrite _ _ _ => none
  | .registerWrite _ _ _ => none
  | .freeze => none
  | .hostMemoryRequest _ _ => none
  | .partitionCreate _ => none
  | .partitionDestroy _ => none
  | .l2ColumnOff _ _ => none
  | .getVersion => none
  | .getCapabilities _ => none
  | .negotiateAlgorithms _ => none
  | .getDigests => none
  | .getCertificate _ _ _ => none
  | .challenge _ _ => none
  | .getMeasurements _ => none
  | .keyExchange _ _ => none
  | .finish _ _ => none
  | .heartbeat _ => none
  | .keyUpdate _ => none
  | .endSession _ => none
  | .unsupportedSpdmRequest _ => none
  | .powerGood _ => none
  | .warmReset => none
  | .residencyConfirm _ => none
  | .flitReplay _ _ => none

/-- The payload of a MOD hint. -/
def encodeMod (m : ModFields) : BitVec 22 :=
  m.rnd ++ bit m.sat ++ m.cache ++ m.scope ++ bit m.nega ++ bit m.negb ++ bit m.absa ++ bit m.absb ++ bit m.negd ++ 0#8

/-- The kind and payload of a hint (R31). -/
def encodeHint : Instr → Option (BitVec 25)
  | .hintWide p => some (0#3 ++ p)
  | .hintSched r y k => some (1#3 ++ 0#14 ++ r ++ bit y ++ k)
  | .hintMod m => some (2#3 ++ encodeMod m)
  | .hintType k d a => some (3#3 ++ 0#17 ++ bit k ++ d ++ a)
  | _ => none

/-- The word of an instruction or hint, and `none` for the steps that have no word. -/
def encode (i : Instr) : Option Word :=
  match encodeParts i with
  | some p => some p.word
  | none => (encodeHint i).map (fun x => 0x7F#7 ++ x)

end Sys2Proof
end

