-- ==== Sys2Proof/Machine/FMap.lean ====
section
/-! DEFINITION. Sparse tables: reading with a default, writing, the canonical form (keys strictly rising, no entry equal
to the default). Register files, memories and tables of records are kept in it. -/

namespace Sys2Proof.Machine

/-- Put a member before the first that is not below it. -/
def insertBy {α : Type} (le : α → α → Bool) (x : α) : List α → List α
  | [] => [x]
  | y :: ys => if le x y then x :: y :: ys else y :: insertBy le x ys

end Sys2Proof.Machine

/-- A list in order; equals keep their places. -/
def List.inOrder {α : Type} (xs : List α) (le : α → α → Bool) : List α := xs.foldr (Sys2Proof.Machine.insertBy le) []

namespace Sys2Proof.Machine

/-- What key `k` reads as; `d` where it is not listed. -/
def mapGet {α : Type} (d : α) : FMap α → Nat → α
  | [], _ => d
  | (k', v) :: m, k => if k' = k then v else mapGet d m k

/-- The listed value, if any. -/
def mapFind {α : Type} : FMap α → Nat → Option α
  | [], _ => none
  | (k', v) :: m, k => if k' = k then some v else mapFind m k

/-- Without any entry at `k`. -/
def mapErase {α : Type} : FMap α → Nat → FMap α
  | [], _ => []
  | (k', v) :: m, k => if k' = k then mapErase m k else (k', v) :: mapErase m k

/-- With the entry `(k, v)`, in key order. -/
def mapPut {α : Type} : FMap α → Nat → α → FMap α
  | [], k, v => [(k, v)]
  | (k', v') :: m, k, v =>
    if k < k' then (k, v) :: (k', v') :: m else if k' = k then (k, v) :: m else (k', v') :: mapPut m k v

/-- Write `v` at `k`; a value equal to the default is not listed. -/
def mapSet {α : Type} [DecidableEq α] (d : α) (m : FMap α) (k : Nat) (v : α) : FMap α :=
  if v = d then mapErase m k else mapPut m k v

/-- Change the value at `k`. -/
def mapMod {α : Type} [DecidableEq α] (d : α) (m : FMap α) (k : Nat) (f : α → α) : FMap α :=
  mapSet d m k (f (mapGet d m k))

/-- The keys are strictly rising. -/
def mapSorted {α : Type} : FMap α → Bool
  | [] => true
  | (k, _) :: m => (match m with
    | [] => true
    | (k', _) :: _ => decide (k < k')) && mapSorted m

/-- The canonical form. -/
def mapWf {α : Type} [DecidableEq α] (d : α) (m : FMap α) : Bool :=
  mapSorted m && m.all (fun p => !decide (p.2 = d))

/-- The least key above every listed one, used to number new records. -/
def mapFresh {α : Type} : FMap α → Nat
  | [] => 0
  | (k, _) :: m => max (k + 1) (mapFresh m)

/-- Change every listed value. -/
def mapAll {α : Type} (f : α → α) : FMap α → FMap α
  | [] => []
  | (k, v) :: m => (k, f v) :: mapAll f m

end Sys2Proof.Machine
end

