-- ==== Sys2Proof/Machine/State.lean ====
section
/-! DEFINITION. The state of the device, as plain data, the reasons a step can stop, and the state right after reset. Records are kept in
sparse tables by number: owners, islands, launches, workgroups, groups and the operations in flight. -/

namespace Sys2Proof.Machine

/-- Why the machine stops. -/
inductive Fault where
  /-- A host-port request names a physical address that no memory answers (R182). Safe: the spec says no such memory exists. -/
  | unpopulated (a : Nat)
  deriving DecidableEq, Repr

/-- Why an instruction is not given a meaning. -/
inductive Refusal where
  /-- Raised by an arm of `exec` whose instruction has no meaning yet. Safe: nothing is claimed about it. -/
  | notModelled (mnemonic : String)
  deriving DecidableEq, Repr

/-! ### Groups (R8) -/

/-- The state of a thread (R136). -/
inductive TState where
  | running | parked | joined (k : BitVec 3) | ended
  deriving DecidableEq, Repr

/-- A thread's state, its resume address and its `trig` mark (R136, R246). -/
structure Thread where
  st : TState := .running
  resume : PcWord := 0
  trig : Bool := false
  deriving DecidableEq, Repr

/-- A join register (R141). -/
structure JoinReg where
  armed : Bool := false
  expect : BitVec 32 := 0
  arrived : BitVec 32 := 0
  deriving DecidableEq, Repr

/-- The registers of one hardware loop (R8). -/
structure LoopReg where
  ls : PcWord := 0
  le : PcWord := 0
  lc : Word := 0
  deriving DecidableEq, Repr

/-- The Frame that a trap saves (R329); `first` keeps that trap's cause and detail for the event of a double fault, whatever the handler writes
to the trap registers (R349, R374). -/
structure Frame where
  threads : FMap Thread := []
  n : Nat := 0
  loops : FMap LoopReg := []
  first : List Word := []
  deriving DecidableEq, Repr

/-- A pending trap record (R333): the 96-bit detail, its threads, LOST, and the owner cycle at which it is due. -/
structure PendRec where
  a : Word := 0
  b : Word := 0
  c : Word := 0
  mask : Word := 0
  lost : Bool := false
  due : Nat := 0
  deriving DecidableEq, Repr

/-- A hint that has issued and whose bound instruction has not (R32). -/
structure HintSlot where
  pc : PcWord
  word : Word
  ins : Instr
  deriving DecidableEq, Repr

/-- One raise of an outstanding-operation counter (R113): the class, the operation, whether it has returned. -/
structure Out where
  cls : OpClass
  op : Nat
  back : Bool := false
  deriving DecidableEq, Repr

/-- One batch of tile operations (R267): its number, whether it is closed, the operations not yet complete. -/
structure Batch where
  num : Nat := 0
  closed : Bool := false
  ops : List Nat := []
  deriving DecidableEq, Repr

/-- What a waiting group returns to when its barrier wait is withdrawn (R242): the barrier instruction's address and the loops at its issue. -/
structure BarMark where
  pc : PcWord := 0
  n : Nat := 0
  loops : FMap LoopReg := []
  deriving DecidableEq, Repr

/-- A release fence (R237, R229): its scope, the operations it covers, the threads whose history it has joined (R204), and whether it orders later
loads too, as `fence.ar` does (R207). -/
structure FenceRec where
  scope : Scope
  ops : List Nat
  hist : BitVec 32
  loads : Bool := false
  deriving DecidableEq, Repr

/-- A temporal group (R8) with its place (R11, R135) and the model's bookkeeping of what it waits for. `gate` lists the operations
that each acquire gate of R228 waits for and whether L1 is then invalidated, `fences` the release fences (R229), `seen` the stores of
other groups that happen before this group's next access (R210), `heard` those that an acquire fence would add, `avail` the interlock
(R18), `late` the replies of R19, `yieldFor` the groups that a `yield` waits for and whether each has issued since (R175). `away` marks a group whose context is saved: it holds no context until it is restored (R155, R350);
`rank` gives the owner cycle of a restoration and the saved rank until the group issues again (R351). -/
structure Group where
  live : Bool := false
  away : Bool := false
  owner : Nat := 0
  launch : Nat := 0
  wg : Nat := 0
  index : Nat := 0
  core : Nat := 0
  lane : Nat := 0
  ctx : Nat := 0
  pc : PcWord := 0
  v : FMap Word := []
  g : FMap Word := []
  p : FMap (BitVec 32) := []
  q : BitVec 7 := 0
  threads : FMap Thread := []
  joins : FMap JoinReg := []
  loops : FMap LoopReg := []
  n : Nat := 0
  flags : Word := 0
  flagArm : Word := 0
  tmask : Word := 0
  tcause : Word := 0
  tdetA : Word := 0
  tdetB : Word := 0
  tdetC : Word := 0
  trapPc : Dword := 0
  trapMode : Bool := false
  noResume : Bool := false
  frame : Frame := {}
  pend : FMap PendRec := []
  outs : List Out := []
  waitSlot : Option Nat := none
  waited : FMap Word := []
  waitFrom : Nat := 0
  barMark : BarMark := {}
  batch : Nat := 0
  batches : List Batch := []
  randKey : Dword := 0
  randCtr : Dword := 0
  xchgN : Nat := 0
  treeN : Nat := 0
  hint : Option HintSlot := none
  avail : FMap Nat := []
  late : FMap Nat := []
  stall : Nat := 0
  skip : Bool := false
  yieldFor : List (Nat × Bool) := []
  readyAt : Nat := 0
  busy : Option Nat := none
  gate : List (List Nat × Bool) := []
  fences : List FenceRec := []
  seen : List Nat := []
  heard : List Nat := []
  lastIssue : Nat := 0
  rank : Option (Nat × Nat) := none
  deriving DecidableEq, Repr

/-! ### Workgroups -/

/-- A named barrier (R238). `carry` lists the operations that happen before the arrivals of this phase, `past` those of earlier phases (R209). -/
structure Barrier where
  phase : Word := 0
  pending : Word := 0
  latched : Bool := false
  expect : BitVec 6 := 0
  arrived : BitVec 6 := 0
  engines : BitVec 6 := 0
  carry : List Nat := []
  past : List Nat := []
  deriving DecidableEq, Repr

/-- The pending guard-granule fault of a workgroup (R197), and the groups it has been delivered to. -/
structure GuardRec where
  bank : Nat
  kind : Nat
  addr : Dword
  got : List Nat := []
  deriving DecidableEq, Repr

/-- An ownership request (R244). -/
structure OwnReq where
  start : Nat
  lines : Nat
  give : Bool
  deriving DecidableEq, Repr

/-- Operations of `atom` and `red` (R234). -/
inductive AtomOp where
  | addN32 | addN64 | minI32 | maxI32 | minN32 | maxN32 | or | and | exchB32 | casB32 | exchB64 | casB64 | addF32 | minF32 | maxF32
  deriving DecidableEq, Repr

/-- An entry of a commit buffer (R221): a store, or a reduction with its operation; its group, and the place of its instruction in the order in
which instructions issue (R222). -/
structure CommitEntry where
  addr : Nat
  value : List Byte
  op : Option AtomOp
  group : Nat
  serial : Nat
  deriving DecidableEq, Repr

/-- A workgroup (R135): `ended` when its groups have all ended, `done` when it has completed (R105), `scratch` its padded allocation (R196),
`reserved` the entries of its commit buffer that issued instructions have yet to fill (R221). -/
structure Workgroup where
  live : Bool := false
  owner : Nat := 0
  launch : Nat := 0
  index : Nat := 0
  core : Nat := 0
  groups : List Nat := []
  barriers : FMap Barrier := []
  guard : Option GuardRec := none
  own : List OwnReq := []
  commit : List CommitEntry := []
  reserved : Nat := 0
  committed : Bool := false
  ended : Bool := false
  done : Bool := false
  byTrap : Bool := false
  scratch : Nat := 0
  deriving DecidableEq, Repr

/-- A lease of a launch (R57, R194): its range, permissions, tier and interleave, and whether it is Resident. -/
structure Lease where
  base : Nat
  len : Nat
  r : Bool
  w : Bool
  x : Bool
  silo : Bool
  vault : Bool
  resident : Bool := false
  deriving DecidableEq, Repr

/-! ### Memory operations in flight -/

/-- Where an access is served (R180): a physical address of HBM or Silo, a byte of a physical core's scratchpad slice, a guard granule,
a trigger counter of the owner. -/
inductive Place where
  | mem (pa : Nat)
  | scr (core off : Nat)
  | guard
  | ctr (n : Nat)
  deriving DecidableEq, Repr

/-- What an access does. -/
inductive AccKind where
  | load | store | atom (op : AtomOp) | red (op : AtomOp)
  deriving DecidableEq, Repr

/-- What a held access waits for (R229, R212, R221): an operation performed at workgroup scope (`wg`) or at home, one thread's access so
performed, one thread's access sent, the commits of the workgroups of a launch below an index. -/
inductive Await where
  | op (id : Nat) (wg : Bool)
  | acc (id thread : Nat) (wg : Bool)
  | sent (id thread : Nat)
  | commits (launch index : Nat)
  deriving DecidableEq, Repr

/-- One thread's access. `vis` is its visible cycle once it is sent; `hor` the horizon of its class; `data` the bytes to store or, for a
load, the value fixed at its issue or sending (R250); `l1` that it is served by an L1 line, `fill1` that it fills one, `buffered` that
it goes to a commit buffer (R221), `cache` its CACHE field (R35). `gone` lists the bytes of a store that a store ordered after it has already taken
the place of (R211), `path` the table entries that its walk has read (R191), `settled` that a save has made its effect while its group is still to see it return (R247, R153). -/
structure Acc where
  thread : Nat
  va : Nat
  place : Place
  size : Nat
  data : List Byte
  data2 : List Byte := []
  hor : Nat
  wait : List Await := []
  sent : Option Nat := none
  vis : Nat := 0
  extra : Nat := 0
  done : Bool := false
  l1 : Bool := false
  fill1 : Bool := false
  buffered : Bool := false
  cache : BitVec 2 := 0
  gone : List Nat := []
  path : List Nat := []
  settled : Bool := false
  deriving DecidableEq, Repr

/-- A memory instruction in flight: its group, owner, logical core and island, the window's first cycle, its threads' history (R204), its
destination register and file, its accesses, the operations its release side covers (R210), those of other groups that happen before it
(R211), and whether its threads share requests as those of `ldc` do (R232). -/
structure MemOp where
  gid : Nat
  owner : Nat
  launch : Nat
  wg : Nat
  core : Nat
  island : Nat
  pc : PcWord
  w : Nat
  kind : AccKind
  cls : OpClass
  uni : Bool
  dst : Reg
  ord : Ord
  scope : Scope
  hist : BitVec 32
  covers : List Nat := []
  after : List Nat := []
  shared : Bool := false
  accs : List Acc
  deriving DecidableEq, Repr

/-! ### Engines, tiles and queues -/

/-- A reservation record (R258). -/
structure Rsv where
  scaleOff : BitVec 14 := 0
  length : BitVec 10 := 0
  offset : BitVec 9 := 0
  blen : BitVec 6 := 0
  fmt : BitVec 5 := 0
  valid : Bool := false
  deriving DecidableEq, Repr

/-- A tensor record (R69): its format code, rank, base, dimensions and strides, and the tile's rows and columns. -/
structure Trec where
  fmt : Nat := 0
  rank : Nat := 0
  base : Dword := 0
  dims : List Word := []
  strides : List Dword := []
  rows : Nat := 0
  cols : Nat := 0
  deriving DecidableEq, Repr

/-- A place an engine operation writes: memory, or a byte of the slice, the operand buffer or the scale memory of its logical core, which may
move to another physical core (R356). -/
inductive EngPlace where
  | mem (pa : Nat) | scr (off : Nat) | obuf (off : Nat) | scale (off : Nat)
  deriving DecidableEq, Repr

/-- A copy as its instruction gave it (R299): direction, kind, record, the registers g[a] to g[a + 7], the first byte of its tile on the core,
and of its scale pairs in scale memory. -/
structure CopyJob where
  out : Bool
  obuf : Bool
  tensor : Trec
  args : List Word
  first : Nat
  pairs : Nat
  deriving DecidableEq, Repr

/-- An image a drain makes (R269, R306): its address, format code, whether it is transposed, its bytes, its first byte in the slice when it
goes to scratch. -/
structure Image where
  addr : Dword
  fmt : Nat
  transposed : Bool
  size : Nat
  off : Option Nat
  deriving DecidableEq, Repr

/-- What an engine operation does. -/
inductive EngJob where
  | copy (j : CopyJob)
  | drain (images : List Image) (scale : Word) (k : Nat) (arm : Word)
  deriving DecidableEq, Repr

/-- A copy or a drain in flight (R301, R306): the bytes it writes with their places once it has read its source, the bytes that have landed,
its granules, the barrier it arrives on, the code of the first faulting element, a failing sector's mark and address, a drain's flags, what it
waits for before it reads (R221), further quanta (R328), its completion cycle, the operations that happen before its hand-off (R209), the entries
of the commit buffer kept for it (R221), and the lines it reads, which enter L2 at its completion (R250). -/
structure EngOp where
  gid : Nat
  owner : Nat
  launch : Nat
  wg : Nat
  core : Nat
  island : Nat
  pc : PcWord
  w : Nat
  cls : OpClass
  job : EngJob
  writes : List (EngPlace × Byte) := []
  bytes : Nat := 0
  landed : Nat := 0
  granScr : List Nat := []
  granObuf : List Nat := []
  bar : Option Nat := none
  fault : Option Nat := none
  bad : Option (Nat × Nat) := none
  fl : BitVec 4 := 0
  wait : List Await := []
  extra : Nat := 0
  due : Option Nat := none
  covers : List Nat := []
  reserved : Nat := 0
  lines : List Nat := []
  deriving DecidableEq, Repr

/-- An operand of a quarter operation (R260): its reservation, format code, first byte in the core's operand buffer and of its scale pairs. -/
structure OperandAt where
  res : Nat
  fmt : Nat
  off : Nat
  pairs : Nat
  deriving DecidableEq, Repr

/-- A tile operation in a lane's queue (R265): a quarter operation, `acc.zero`, `acc.rd` or `drain`. -/
inductive TileWork where
  | quarter (q : Nat) (a b : OperandAt) (ta tb : Word)
  | zero
  | read (row : Nat) (dst : Reg) (mask : BitVec 32)
  | drain (eng : Nat)
  deriving DecidableEq, Repr

/-- An entry of a lane's tile queue: its operation, its workgroup, the cycle it entered, the tile (by its number on the core). -/
structure TileEntry where
  op : Nat
  wg : Nat
  enter : Nat
  tile : Nat
  work : TileWork
  deriving DecidableEq, Repr

/-- A tile operation that has not completed (R261, R265): its group, the core and tile it holds, the entries not yet written, its address, and the
mark of a failing sector that it has read (R201). -/
structure TileOp where
  gid : Nat
  owner : Nat
  core : Nat
  tile : Nat
  left : Nat
  pc : PcWord := 0
  bad : Option Nat := none
  deriving DecidableEq, Repr

/-- A pass of a lane slice (R265): the windows of its owner it still needs, its entries, and the tile elements and registers it will write,
fixed at its first cycle. -/
structure Pass where
  owner : Nat
  core : Nat
  lane : Nat
  island : Nat
  left : Nat
  entries : List TileEntry := []
  tiles : FMap Word := []
  regs : List (Nat × Word) := []
  deriving DecidableEq, Repr

/-- A queue an accepted launch has declared (R282), and the owner cycle at which it was closed (R326). -/
structure QDecl where
  entries : Nat
  closed : Bool := false
  closedAt : Nat := 0
  deriving DecidableEq, Repr

/-- An item of a ring and the owner cycle of its append (R283). -/
structure QItem where
  bytes : List Byte
  at_ : Nat
  taken : Option Nat := none
  deriving DecidableEq, Repr

/-- What an issued instruction waits for until its result is due (R329): `deq` (R284), `enq` and `jpost` (R283), `disp` (R310), `xchg`
(R171), tree instructions (R321), `nctr.wait` (R314), `lease.req` (R379), a context operation (R383). -/
inductive WaitKind where
  | deq (q ring : Nat) (d : Reg) (p : BitVec 3) (item : Option (List Byte))
  | append (q ring : Nat) (item : List Byte) (p : BitVec 3)
  | disp (d : Reg) (shape : List Word) (bad : Bool)
  | xchg (num : Nat) (tag : Nat) (d : Reg) (vals : FMap Word) (mask : BitVec 32) (met : Bool)
  | tree (num : Nat) (bar : Bool) (d : Reg) (c : Nat) (f : GFn) (vals : List Word) (fl : BitVec 4)
  | nctrWait (n : Nat) (at_ : Dword)
  | lease (d a : Reg) (level q : Nat) (cycles : Dword)
  | ctx (fn : Nat) (d : Reg) (desc addr : Dword) (status : Word) (image : List Byte)
  deriving DecidableEq, Repr

/-- An instruction that has issued and waits (R329): what its arrival still waits for as a release (R323), the cycle at which it is due, and the
group or workgroup that a context operation named when it issued (R382). -/
structure WaitOp where
  gid : Nat
  owner : Nat
  island : Nat
  pc : PcWord
  w : Nat
  kind : WaitKind
  due : Option Nat := none
  hold : List Await := []
  target : Option Nat := none
  deriving DecidableEq, Repr

/-! ### Launches (R68, R272) -/

/-- An operand-buffer template of an image (R70). -/
structure Template where
  offset : Nat
  length : Nat
  fmt : Nat
  blen : Nat
  scaleOff : Nat
  deriving DecidableEq, Repr

/-- A declared level (R56): size, domain code, scope code. -/
structure LevelDecl where
  size : Nat
  domain : Nat
  scope : Nat
  deriving DecidableEq, Repr

/-- The stages of a launch in the order of R418. -/
inductive Stage where
  | residing | placing | running | completing | done
  deriving DecidableEq, Repr

/-- A launch: its record, its image's tables, where it came from, how far it is. `children` is the range of child indices of a
`fab` launch (R276). -/
structure Launch where
  owner : Nat := 0
  queue : Nat := 0
  tag : Word := 0
  kernel : Nat := 0
  entry : PcWord := 0
  handler : Option PcWord := none
  detlvl : Nat := 0
  flagArm : Word := 0
  scratch : Nat := 0
  producerGroup : Option Nat := none
  levels : List LevelDecl := []
  leases : List Lease := []
  queues : List (Nat × Nat) := []
  preloads : List (Nat × Nat × Dword) := []
  trecs : List Trec := []
  templates : List Template := []
  sections : List (Nat × List Byte) := []
  children : Nat × Nat := (0, 0)
  producer : Option Nat := none
  waits : Bool := false
  confirmed : Bool := true
  secured : Bool := false
  stage : Stage := .residing
  placed : Nat := 0
  groups : Nat := 0
  table : FMap Nat := []
  halted : Option Word := none
  haltAt : Option Nat := none
  byTrap : Bool := false
  deriving DecidableEq, Repr

/-! ### Network operations (R315 to R320) -/

/-- A trigger record (R315). -/
structure NetRec where
  op : Nat := 0
  fn : Nat := 0
  peer : Nat := 0
  tctr : Nat := 0
  order : Nat := 0
  threshold : Dword := 0
  local_ : Dword := 0
  remote : Dword := 0
  length : Nat := 0
  lctr : Option Nat := none
  rctr : Option Nat := none
  operand : Dword := 0
  deriving DecidableEq, Repr

/-- The life of an operation: its record being read (R317), armed, fired with its reads still held (R221, R318), fired, or freed by a fault while
what it had read before is still on its way (R320). -/
inductive NetStage where
  | reading | armed | held | fired | failed
  deriving DecidableEq, Repr

/-- A network operation: an entry of `npost` or an operation of `nput` or `nget`. `lim` is the offset of a failing sector (R320), `data` what
a put sends, a get brings or an atomic returns, `hold` what its reads wait for (R221, R318), `bad` a failing sector's mark and address (R201),
`dest` where the pieces of what it brings go, fixed when it fires, `reserved` the entries of its workgroup's commit buffer kept for it (R221),
`at_` the cycle at which it fired, `parts` what its chunks have brought back so far (R406). -/
structure NetOp where
  owner : Nat
  launch : Nat
  gid : Nat
  island : Nat
  pc : PcWord
  va : Dword
  post : Bool
  detlvl : Nat
  what : NetRec
  serial : Nat := 0
  stage : NetStage := .reading
  tag : Word := 0
  data : List Byte := []
  lim : Option Nat := none
  hold : List Await := []
  bad : Option (Nat × Nat) := none
  dest : List Nat := []
  reserved : Nat := 0
  at_ : Nat := 0
  parts : FMap (List Byte) := []
  deriving DecidableEq, Repr

/-! ### Owners -/

/-- Hayloft's quota of an owner on an island (R359, R360). `melted` counts in units of 10⁻⁷ J; `full` is the state of R367. -/
structure Quota where
  joules : Nat := 0
  melted : Nat := 0
  full : Bool := false
  frac : BitVec 16 := 0
  charging : Nat := 0
  deriving DecidableEq, Repr

/-- A sprint lease of an owner on an island (R362 to R366): `endAt` is the owner cycle at which it runs out, `fell` the wall instant from which
the gap runs, `waitFall` that the clock has yet to fall, `stepAt` the wall tick from which the clock may step to its level (R365). -/
structure Sprint where
  live : Bool := false
  level : Nat := 0
  endAt : Nat := 0
  gid : Nat := 0
  fell : Option Nat := none
  waitFall : Bool := false
  stepAt : Option Nat := none
  deriving DecidableEq, Repr

/-- A host launch queue's registers (R411, R412), the status of the last command taken, and its launch where that command is a LAUNCH whose status is
still to come (R418). -/
structure LqRegs where
  base : Dword := 0
  ctl : Word := 0x4000
  head : Word := 0
  tail : Word := 0
  last : Word := 0
  lastLaunch : Option Nat := none
  deriving DecidableEq, Repr

/-- An event (R416) waiting to enter its owner's ring. -/
structure Event where
  kind : Nat
  source : Nat
  seq : Nat
  tag : Word
  status : Word
  wall : Nat
  data : List Byte
  secured : Bool := false
  deriving DecidableEq, Repr

/-- An owner: its creation record (R420), its cycle counters by island (R13), holds (R153), trigger counters (R311), queues and rings
(R282), host registers (R411), events, Drover pointers (R271, R292, R413), slot releases (R150) as (first, end) periods by lane and slot,
the ownership table (R220), the L2 columns off at its creation (R402), the leaf entries of pages kept allocated between leases (R194), the current record by cluster (R158), quotas and
leases by island. `retired` lists, by lane, the (first, end) periods that retirement publishes (R152), `used` the lanes on which it has had a
group (R178). `doneNow` counts the workgroups completed in the millisecond `doneMs` of wall time, `doneBefore` those of the one before it (R420).
`held` lists the causes of holds asked for and not ended, `heldOn` the islands on which the owner is held. -/
structure Owner where
  live : Bool := false
  part : Option PartRec := none
  lqGranted : Bool := false
  cyc : FMap Nat := []
  held : List HoldCause := []
  heldOn : FMap Bool := []
  lanes : FMap (Nat × Nat) := []
  remap : FMap Nat := []
  nctr : FMap Dword := []
  qdecl : FMap QDecl := []
  rings : FMap (List QItem) := []
  lq : FMap LqRegs := []
  evBase : Dword := 0
  evCtl : Word := 0
  evHead : Word := 0
  evTail : Word := 0
  evSeq : FMap Nat := []
  events : List Event := []
  cmdPtr : Nat := 0
  placePtr : Nat := 0
  alternate : Bool := false
  releases : FMap (List (Nat × Nat)) := []
  retired : FMap (List (Nat × Nat)) := []
  used : List Nat := []
  doneMs : Nat := 0
  doneNow : Nat := 0
  doneBefore : Nat := 0
  table : FMap Nat := []
  tags : List Word := []
  kept : FMap Nat := []
  record : FMap Nat := []
  quotas : FMap Quota := []
  sprints : FMap Sprint := []
  gifted : FMap Nat := []
  key : BitVec 256 := 0
  session : Option Nat := none
  colsOff : List (Nat × Nat) := []
  deriving DecidableEq, Repr

/-! ### The device -/

/-- An island's clock (R365): the cycles since bring-up, the wall tick at which the current one began, the level of its clock and of its
rail, the emergency state of R369, the canary steps of R426 in force and wanted at the next epoch, whether a failing canary holds its owners. -/
structure Island where
  cyc : Nat := 0
  tick : Nat := 0
  clock : Nat := 0
  rail : Nat := 0
  emergency : Bool := false
  emergEnd : Option Nat := none
  canary : Nat := 0
  canaryGoal : Nat := 0
  canaryAt : Nat := 0
  canaryHold : Bool := false
  deriving DecidableEq, Repr

/-- A line of an owner in a core's L1 (R184): its way, what a CACHE field asked for it (R35), its 128 bytes as filled. -/
structure L1Line where
  owner : Nat
  core : Nat
  line : Nat
  way : Nat
  cache : BitVec 2
  data : List Byte
  deriving DecidableEq, Repr

/-- A line of an owner in an L2 slice (R184): the slice, the line, its way, what a CACHE field asked for it. -/
structure L2Line where
  owner : Nat
  slice : Nat
  line : Nat
  way : Nat
  cache : BitVec 2
  deriving DecidableEq, Repr

/-- An entry of a core's TLB (R193): its owner and logical core, the first address and the size in bits of its page, the leaf entry as it was
loaded, with the A and D bits that walks have set since, and the address of that entry. -/
structure TlbEntry where
  owner : Nat
  core : Nat
  base : Nat
  bits : Nat
  entry : Nat
  at_ : Nat
  deriving DecidableEq, Repr

/-- Which clock an agenda entry is counted on. -/
inductive Clk where
  | owner (o island : Nat)
  | island (i : Nat)
  | wall
  deriving DecidableEq, Repr

/-- Something that falls due at a cycle of its clock. -/
structure Pend where
  clk : Clk
  due : Nat
  ev : Instr
  deriving DecidableEq, Repr

/-- A record of the black box (R419). -/
structure BoxRec where
  wall : Nat
  source : Nat
  owner : Nat
  kind : Nat
  data : List Byte
  deriving DecidableEq, Repr

/-- A core-state transfer (R353) under way: its owner and logical core, the physical cores it leaves and enters, the island cycle at which it
began. -/
structure Transfer where
  owner : Nat
  core : Nat
  src : Nat
  dst : Nat
  start : Nat
  deriving DecidableEq, Repr

/-- What the latest thermal sample raised (R385): its wall tick, the moves and the causes of holds that date from it. -/
structure Sample where
  tick : Nat := 0
  moves : List (Nat × Nat × Nat) := []
  causes : List HoldCause := []
  deriving DecidableEq, Repr

/-- How the last host-port request completed (R411, R419, R421): with data, with an entry of the recorder, or turned away. -/
inductive Completion where
  | ok (data : Nat) | entry (r : BoxRec) | completerAbort | unsupportedRequest
  deriving DecidableEq, Repr

/-- What the next step does: choose, or let the current group issue (`second` after the first word of a window). -/
inductive Turn where
  | free
  | issue (second : Bool)
  deriving DecidableEq, Repr

/-! ### The fabric (R389 to R401) -/

/-- What of a packet stands in one input queue of a die's mesh (R389 to R395): the packet's owner and number, the router and queue, its number in
order of arrival there, the router and port the packet goes to, class, age; of its flits those that stand here, those yet to come, those that have
passed on. `outer` tells that they come from outside the mesh, as buffers fall free; `wait` counts cycles without a candidate port, `stuck` cycles at
the head without winning, `want` the port (plus one) it asks for by R392's exception, `lane` that it is in the deadlock lane; `reply` is its mesh,
`src` the router it comes from, `answer` the flits of the reply it asks for, `addr` the address it asks of; `data` and `checks` the bytes that each
flit carries and the check value of their sector (R399). -/
structure Packet where
  id : Nat := 0
  owner : Nat
  router : Nat
  queue : Nat
  num : Nat
  dst : Nat
  port : Nat
  prio : Nat
  age : Nat := 0
  flits : Nat := 1
  wait : Nat := 0
  stuck : Nat := 0
  misroutes : Nat := 0
  want : Nat := 0
  lane : Bool := false
  reply : Bool := false
  src : Nat := 0
  answer : Nat := 0
  more : Nat := 0
  sent : Nat := 0
  outer : Bool := false
  addr : Nat := 0
  data : List (List Byte) := []
  checks : List (Option (BitVec 16)) := []
  deriving DecidableEq, Repr

/-- One direction of a link (R399, R400): flits waiting at each adapter to be packed, the replay buffer, the next sequence number each side has, how
often the first flit was replayed in a row, whether the receiver has asked for replay, the flits of packets that have not come whole. -/
structure LinkWay where
  waiting : FMap (List MeshFlit) := []
  replay : List Flit := []
  next : BitVec 16 := 0
  expect : BitVec 16 := 0
  replays : Nat := 0
  asked : Bool := false
  partial_ : FMap (List MeshFlit) := []
  deriving DecidableEq, Repr

/-- What has become of a link (R400). -/
inductive LinkState where
  | up | retraining | failed | degraded
  deriving DecidableEq, Repr

/-- A die-to-die link or a scale-up port (R398, R400, R405): lanes in use, spares left, tries of the retrain under way, the lanes lost in it,
slots of each owner once firmware has scaled them. -/
structure Link where
  state : LinkState := .up
  lanes : Nat := 0
  spares : Nat := 0
  tries : Nat := 0
  lost : Nat := 0
  slots : FMap Nat := []
  deriving DecidableEq, Repr

/-- The fabric: what stands in its input queues, tie pointers of R393, the part of a packet that holds an egress port with the beats that have passed of
the flit under way (R389), each owner's Bellwether (R394: the place of the ring it has reached, the lane packet of the router that captured it), links and their directions; `through` the pointer
by which a slice's replies of an owner alternate between its two routers (R390). -/
structure Fabric where
  packets : FMap Packet := []
  tie : FMap Nat := []
  hold : FMap (Nat × Nat) := []
  tokenAt : FMap Nat := []
  captured : FMap Nat := []
  links : FMap Link := []
  ways : FMap LinkWay := []
  through : FMap Nat := []
  count : Nat := 0
  deriving DecidableEq, Repr

/-! ### SPDM (R422, R423) -/

/-- A session: whether it is established, the partition it is bound to, its key generation. -/
structure Session where
  up : Bool := false
  partition : Option Nat := none
  generation : Nat := 0
  deriving DecidableEq, Repr

/-- What the responder answers. -/
inductive SpdmReply where
  | version | capabilities | algorithms (ok : Bool) | digests (d : List (BitVec 256)) | certificate (slot : Nat) (part : List Byte)
  | challengeAuth (slot : Nat) (sig : List Byte) | measurements (m : List (Nat × BitVec 256)) | keyExchangeRsp (id : Nat) (rand : BitVec 256) (sig : List Byte)
  | finishRsp (id : Nat) | heartbeatAck (id : Nat) | keyUpdateAck (id : Nat) | endSessionAck (id : Nat) | error (code : Nat)
  deriving DecidableEq, Repr

structure Spdm where
  on : Bool := false
  negotiated : Bool := false
  measurements : FMap (BitVec 256) := []
  sessions : FMap Session := []
  replies : List SpdmReply := []
  deriving DecidableEq, Repr

/-- The device. `inbox` holds what reaches it from outside in order (host, firmware, sensors, other devices); `agenda` what it has itself
set to fall due; `checks` holds the check values of 32-byte sectors of memory that are not those of the bytes they hold, by sector number
(R200); `faulty` marks sectors that hold an uncorrectable error (1 + SOURCE, R201), of memory, the slices, the operand buffers and the accumulators; `tables` holds the owner of each slot of the rota tables of R144 by
structure; `rsvOld` and `trecOld` give what a slot holds until an owner cycle at which an instruction's result takes its place (R295); `unsettled` lists groups that
have ended or begun to wait and whose consequences for other groups are still to be drawn; `lanesLeft` the lanes still to be served in the window of
their island; `chunks` the chunks performed here of operations of other devices that have more to come, by source, entry and number (R406); `frames` the owner of
each 64 KiB frame that Drover or firmware has allocated; `switches` the switches under way with the island cycle
at which each began, `toBegin` those asked for that begin at the next period of their island, `borders` the border moves that wait for a workgroup completion (R157), `bordering` the switches
that they have become, `boundary` the islands that stand at the first cycle
of a window whose boundary procedure is still to come, `began` one more than the wall tick at whose boundaries holds, switches and moves have last begun
(R13). `openTick` and `opens` are the model's own: they count choices the spec leaves open, of the
device and, by owner and stream, of that owner's own streams (DESIGN CHOICE, log 10). Sensors read 0 before a sample (DESIGN CHOICE, log 13), the rank 0 before
bring-up (DESIGN CHOICE, log 19). -/
structure State where
  powered : Bool := false
  rank : Nat := 0
  inDomain : Bool := false
  now : Nat := 0
  turn : Turn := .free
  cur : Nat := 0
  inbox : List Instr := []
  agenda : List Pend := []
  lanesLeft : List Nat := []
  openTick : Nat := 0
  opens : FMap Nat := []
  nextId : Nat := 0
  issueSerial : Nat := 0
  owners : FMap Owner := []
  islands : FMap Island := []
  rota : FMap Nat := []
  launches : FMap Launch := []
  wgs : FMap Workgroup := []
  groups : FMap Group := []
  ops : FMap MemOp := []
  engs : FMap EngOp := []
  waits : FMap WaitOp := []
  nets : FMap NetOp := []
  heldMsgs : List NetMsg := []
  chunks : List (Nat × Nat × Nat) := []
  queues : FMap (List TileEntry) := []
  passes : FMap Pass := []
  tileOps : FMap TileOp := []
  rsv : FMap Rsv := []
  rsvOld : FMap (Rsv × Nat) := []
  trec : FMap Trec := []
  trecOld : FMap (Option Trec × Nat) := []
  mem : List Host.Cell := []
  faulty : FMap Nat := []
  checks : FMap (BitVec 16) := []
  scratch : FMap Byte := []
  obuf : FMap Byte := []
  scale : FMap Byte := []
  acc : FMap Word := []
  engScr : FMap Bool := []
  engObuf : FMap Bool := []
  readHold : FMap Nat := []
  l1 : List L1Line := []
  l2 : List L2Line := []
  tlb : List TlbEntry := []
  tables : FMap Nat := []
  frames : FMap Nat := []
  hostMem : FMap Byte := []
  port : Option Completion := none
  box : List BoxRec := []
  boxFrozen : Bool := false
  sensors : FMap Nat := []
  meltSensor : Nat := 0
  stacksHot : List Nat := []
  siloDown : List Nat := []
  migrations : List (Nat × Nat) := []
  moves : List (Nat × Nat × Nat) := []
  transfers : List Transfer := []
  switches : List (SwitchSpec × Nat) := []
  toBegin : List SwitchSpec := []
  borders : List BorderSpec := []
  bordering : List (SwitchSpec × BorderSpec) := []
  boundary : List Nat := []
  began : Nat := 0
  sample : Sample := {}
  swapped : FMap Nat := []
  lidEmergency : Bool := false
  columnsOff : List (Nat × Nat) := []
  fabric : Fabric := {}
  spdm : Spdm := {}
  netSerial : Nat := 0
  unsettled : List Nat := []
  deriving DecidableEq, Repr

/-- The machine right after reset: nothing powered, nothing created, memory with nothing listed (R428). Every register of a group is
created by a launch with the values of R8; no group exists yet. What the spec leaves open at reset is 0 (DESIGN CHOICE, log 4, 10, 13, 16 to 19). -/
def State.reset : State := {}

end Sys2Proof.Machine
end

