-- ==== Sys2Proof/Machine/Ops.lean ====
section
/-! DEFINITION. The named operations that every meaning is written with: records, registers, threads, completing an instruction, taking
an exception and returning from one, ending groups, posting events. -/

namespace Sys2Proof.Machine

/-! ### Records -/

/-- The group whose instruction issues. -/
def State.grp (s : State) : Group := mapGet {} s.groups s.cur

def State.setGrp (s : State) (g : Group) : State := { s with groups := mapPut s.groups s.cur g }

def State.groupAt (s : State) (k : Nat) : Group := mapGet {} s.groups k
def State.setGroupAt (s : State) (k : Nat) (g : Group) : State := { s with groups := mapPut s.groups k g }
def State.ownerAt (s : State) (o : Nat) : Owner := mapGet {} s.owners o
def State.setOwner (s : State) (o : Nat) (x : Owner) : State := { s with owners := mapPut s.owners o x }
def State.wgAt (s : State) (k : Nat) : Workgroup := mapGet {} s.wgs k
def State.setWg (s : State) (k : Nat) (x : Workgroup) : State := { s with wgs := mapPut s.wgs k x }
def State.launchAt (s : State) (k : Nat) : Launch := mapGet {} s.launches k
def State.setLaunch (s : State) (k : Nat) (x : Launch) : State := { s with launches := mapPut s.launches k x }
def State.islandAt (s : State) (k : Nat) : Island := mapGet {} s.islands k
def State.setIsland (s : State) (k : Nat) (x : Island) : State := { s with islands := mapPut s.islands k x }

/-- Change one owner. -/
def State.modOwner (s : State) (o : Nat) (f : Owner → Owner) : State := s.setOwner o (f (s.ownerAt o))
def State.modWg (s : State) (k : Nat) (f : Workgroup → Workgroup) : State := s.setWg k (f (s.wgAt k))
def State.modGroup (s : State) (k : Nat) (f : Group → Group) : State := s.setGroupAt k (f (s.groupAt k))
def State.modLaunch (s : State) (k : Nat) (f : Launch → Launch) : State := s.setLaunch k (f (s.launchAt k))

/-- A number for a new record. -/
def State.fresh (s : State) : Nat := s.nextId

/-- The next open choice: the number to apply a constant of Config to, and the counter moved on. -/
def State.tickOpen (s : State) : State := { s with openTick := s.openTick + 1 }

/-- The streams in which an owner's open choices are counted: the instructions of an island (by its number), network operations, the fills of
L1 on a core and of an L2 slice. What one stream has chosen moves no other stream's choices (R149, R252). -/
def streamNet : Nat := 32
def streamL1 (core : Nat) : Nat := 64 + core
def streamL2 (slice : Nat) : Nat := 1024 + slice
def openKey (o x : Nat) : Nat := o * 2048 + x

/-- The number of the next open choice of an owner in a stream, and the choices counted on (R149, R252). -/
def State.openOf (s : State) (o x : Nat) : Nat := mapGet 0 s.opens (openKey o x)
def State.bumpOpen (s : State) (o x n : Nat) : State := { s with opens := mapPut s.opens (openKey o x) (s.openOf o x + n) }

/-! ### Places (R2) -/

def clusterOf (core : Nat) : Nat := core / 4
def quadrantOf (core : Nat) : Nat := core / 32
def dieOf (core : Nat) : Nat := core / 128
def rowOf (core : Nat) : Nat := core % 32 / 8
def colOf (core : Nat) : Nat := core % 8
def islandOf (core : Nat) : Nat := quadrantOf core * 2 + rowOf core / 2

/-- The physical core that a logical core of an owner stands on (R355). -/
def State.phys (s : State) (o c : Nat) : Nat := mapGet c (s.ownerAt o).remap c

def State.groupCore (s : State) (g : Group) : Nat := s.phys g.owner g.core
def State.groupIsland (s : State) (g : Group) : Nat := islandOf (s.groupCore g)

/-- An owner's cycle count on an island (R13). -/
def State.cycOf (s : State) (o i : Nat) : Nat := mapGet 0 (s.ownerAt o).cyc i

/-- The owner cycle of the current group at the first cycle of its window. -/
def State.win (s : State) : Nat := s.cycOf s.grp.owner (s.groupIsland s.grp)

/-- Set an event to fall due. -/
def State.schedule (s : State) (clk : Clk) (due : Nat) (ev : Instr) : State := { s with agenda := s.agenda ++ [⟨clk, due, ev⟩] }

/-- At once: at the present wall instant, after what is already due. -/
def State.soon (s : State) (ev : Instr) : State := s.schedule .wall s.now ev

/-- A wall time in ns (R416): 18 ticks a ns. -/
def State.wallNs (s : State) : Nat := s.now / 18

/-! ### Rota tables (R144, R391) -/

/-- The number of a structure with a rota table. -/
def sharedNum : Shared → Nat
  | .link => 0
  | .recovery => 1
  | .dram => 2
  | .walker => 3
  | .copy => 4
  | .tensor => 5
  | .trigger => 6
  | .tree => 7

/-- The key of a slot of a structure's rota table at a place: for links 0 to 3 are the meshes of the dies, 4 to 7 the die-to-die links, 8 to 25 the
scale-up ports, 26 the Bellwether ring, from 64 on single mesh links; every other structure has one table (DESIGN CHOICE, log 35). -/
def tableKey (x : Shared) (place slot : Nat) : Nat := (place * 8 + sharedNum x) * 64 + slot

/-- The place of the table of a mesh link: the one that leaves a router by a port on the request or the reply mesh. -/
def meshPlace (r p : Nat) (reply : Bool) : Nat := 64 + (r * 4 + p) * 2 + (if reply then 1 else 0)

/-- The number of an input queue of a mesh. -/
def queueKey (r q : Nat) (reply : Bool) : Nat := (r * 8 + q) * 2 + (if reply then 1 else 0)

/-- The owner of a slot of a rota table: the free pool where none holds it (R143). -/
def State.tableOwner (s : State) (x : Shared) (place slot : Nat) : Nat := mapGet 62 s.tables (tableKey x place slot)

/-- An owner has slots of its own on a link: its record lists them for that link. -/
def State.ownSlots (s : State) (o place : Nat) : Bool := ((s.ownerAt o).part.map (fun r => (mapFind r.linkSlots place).isSome)).getD false

/-- The owner of a slot of a mesh link: the one whose list for that link has it, else the one that has it on the die's links and no list for this
(R391). -/
def State.meshSlot (s : State) (r p : Nat) (reply : Bool) (slot : Nat) : Nat :=
  match mapFind s.tables (tableKey .link (meshPlace r p reply) slot) with
  | some o => o
  | none => let o := s.tableOwner .link (dieOf r) slot; if s.ownSlots o (meshPlace r p reply) then 62 else o

/-! ### Thread sets -/

/-- The mask of the threads that satisfy f. -/
def maskOf (f : Nat → Bool) : BitVec 32 :=
  (List.range 32).foldl (fun m t => if f t then m ||| BitVec.twoPow 32 t else m) 0#32

/-- The members of a mask, ascending. -/
def bitsOf (m : BitVec 32) : List Nat := (List.range 32).filter (fun t => m.getLsbD t)

/-- The lowest member, if any. -/
def lowestBit (m : BitVec 32) : Option Nat := (bitsOf m).head?

def Group.thread (g : Group) (t : Nat) : Thread := mapGet {} g.threads t
def Group.setThread (g : Group) (t : Nat) (x : Thread) : Group := { g with threads := mapSet {} g.threads t x }

def Group.stateMask (g : Group) (f : TState → Bool) : BitVec 32 := maskOf (fun t => f (g.thread t).st)

def TState.isRunning : TState → Bool
  | .running => true
  | .parked | .joined _ | .ended => false

def TState.isEnded : TState → Bool
  | .ended => true
  | .running | .parked | .joined _ => false

/-- The active mask (R136). -/
def Group.running (g : Group) : BitVec 32 := g.stateMask TState.isRunning
/-- NotEnded() of R142. -/
def Group.notEnded (g : Group) : BitVec 32 := g.stateMask (fun x => !x.isEnded)
/-- A group left with no thread has ended (R105). -/
def Group.isEnded (g : Group) : Bool := decide (g.notEnded = 0#32)

/-! ### Registers -/

/-- The key of v register r of thread t. -/
def regKey (r : Reg) (t : Nat) : Nat := 32 * r.toNat + t

def Group.getV (g : Group) (r : Reg) (t : Nat) : Word := mapGet 0#32 g.v (regKey r t)
def Group.setV (g : Group) (r : Reg) (t : Nat) (w : Word) : Group := { g with v := mapSet 0#32 g.v (regKey r t) w }
def Group.getG (g : Group) (r : Reg) : Word := mapGet 0#32 g.g r.toNat
def Group.setG (g : Group) (r : Reg) (w : Word) : Group := { g with g := mapSet 0#32 g.g r.toNat w }

/-- The pair of an even g register, high half in the next (R89). -/
def Group.getG64 (g : Group) (r : Reg) : Dword := g.getG (r + 1) ++ g.getG r
def Group.setG64 (g : Group) (r : Reg) (w : Dword) : Group :=
  (g.setG r (w.extractLsb' 0 32)).setG (r + 1) (w.extractLsb' 32 32)

/-- What a register instruction works for: one thread, or the group once (`none`) (R89). -/
abbrev Lane := Option Nat

def Group.rd (g : Group) (l : Lane) (r : Reg) : Word :=
  match l with
  | none => g.getG r
  | some t => g.getV r t

def Group.wr (g : Group) (l : Lane) (r : Reg) (w : Word) : Group :=
  match l with
  | none => g.setG r w
  | some t => g.setV r t w

def Group.rd64 (g : Group) (l : Lane) (r : Reg) : Dword := g.rd l (r + 1) ++ g.rd l r
def Group.wr64 (g : Group) (l : Lane) (r : Reg) (w : Dword) : Group :=
  (g.wr l r (w.extractLsb' 0 32)).wr l (r + 1) (w.extractLsb' 32 32)

/-- A predicate of a thread; number 7 reads as true (R26). -/
def Group.getP (g : Group) (i : BitVec 3) (t : Nat) : Bool := decide (i = 7#3) || (mapGet 0#32 g.p i.toNat).getLsbD t
def Group.setP (g : Group) (i : BitVec 3) (t : Nat) (x : Bool) : Group :=
  let m := mapGet 0#32 g.p i.toNat
  { g with p := mapSet 0#32 g.p i.toNat (if x then m ||| BitVec.twoPow 32 t else m &&& ~~~BitVec.twoPow 32 t) }
def Group.getQ (g : Group) (i : BitVec 3) : Bool := decide (i = 7#3) || g.q.getLsbD i.toNat
def Group.setQ (g : Group) (i : BitVec 3) (x : Bool) : Group :=
  { g with q := if x then g.q ||| BitVec.twoPow 7 i.toNat else g.q &&& ~~~BitVec.twoPow 7 i.toNat }

def Group.rp (g : Group) (l : Lane) (i : BitVec 3) : Bool :=
  match l with
  | none => g.getQ i
  | some t => g.getP i t

def Group.wp (g : Group) (l : Lane) (i : BitVec 3) (x : Bool) : Group :=
  match l with
  | none => g.setQ i x
  | some t => g.setP i t x

/-! ### Guards and Active() (R21, R89) -/

def Group.guardQ (g : Group) (h : Guard) : Bool := decide (h.idx = 7#3) || (g.q.getLsbD h.idx.toNat != h.neg)
def Group.guardP (g : Group) (h : Guard) (t : Nat) : Bool := decide (h.idx = 7#3) || ((mapGet 0#32 g.p h.idx.toNat).getLsbD t != h.neg)

/-- Active(): the Running threads whose guard holds. -/
def Group.active (g : Group) (h : Guard) : BitVec 32 := maskOf (fun t => (g.thread t).st.isRunning && g.guardP h t)

/-- What the body of an instruction runs for: every active thread, or the group once when its q guard holds (R89). -/
def Group.lanes (g : Group) (u : Bool) (h : Guard) : List Lane :=
  if u then (if g.guardQ h then [none] else []) else (bitsOf (g.active h)).map some

/-- The threads an instruction runs for, as TMASK names them: a uniform instruction stands for the Running set (R331). -/
def laneMask (g : Group) (ls : List Lane) : BitVec 32 :=
  if ls.contains none then g.running else maskOf (fun t => ls.contains (some t))

/-- Write a value for each lane to register d; the values are computed before any is written. -/
def Group.writeAll (g : Group) (ls : List Lane) (d : Reg) (f : Lane → Word) : Group := ls.foldl (fun g' l => g'.wr l d (f l)) g
def Group.writeAll64 (g : Group) (ls : List Lane) (d : Reg) (f : Lane → Dword) : Group := ls.foldl (fun g' l => g'.wr64 l d (f l)) g
def Group.writePred (g : Group) (ls : List Lane) (d : BitVec 3) (f : Lane → Bool) : Group := ls.foldl (fun g' l => g'.wp l d (f l)) g

/-! ### The interlock (R18) -/

/-- The number of a register or predicate in the interlock's table: v 0-63, g 64-127, p 128-134, q 136-142. -/
def locV (r : Reg) : Nat := r.toNat
def locG (r : Reg) : Nat := 64 + r.toNat
def locP (i : BitVec 3) : Nat := 128 + i.toNat
def locQ (i : BitVec 3) : Nat := 136 + i.toNat
def locR (u : Bool) (r : Reg) : Nat := if u then locG r else locV r
def locPred (u : Bool) (i : BitVec 3) : Nat := if u then locQ i else locP i

/-- Results are available `lat` cycles after the window's first cycle. -/
def Group.mark (g : Group) (now lat : Nat) (locs : List Nat) : Group :=
  { g with avail := locs.foldl (fun m k => mapPut m k (now + lat)) (g.avail.filter (fun p => decide (now < p.2))) }

/-! ### Completing an instruction (R10, R107) -/

def Group.loop (g : Group) (k : Nat) : LoopReg := mapGet {} g.loops k
def Group.setLoop (g : Group) (k : Nat) (x : LoopReg) : Group := { g with loops := mapSet {} g.loops k x }

/-- The end-of-iteration step of R107 at address x, over the n innermost loops; `popped` loops keep their registers. -/
def endStep : Nat → Group → PcWord → Group
  | 0, g, _ => g
  | n + 1, g, x =>
    let l := g.loop n
    if x = l.le - 4 then
      let g1 := g.setLoop n { l with lc := l.lc - 1 }
      if l.lc - 1 ≠ 0 then { g1 with pc := l.ls } else endStep n { g1 with n := n } x
    else g

/-- The group has completed the instruction at its PC without redirecting it: PC advances by 4 and the end-of-iteration step runs. -/
def Group.complete (g : Group) : Group := endStep g.n { g with pc := g.pc + 4, hint := none } g.pc

/-- Complete with the group as changed by the instruction's effect. -/
def State.finish (s : State) (g : Group) : State := s.setGrp g.complete

/-- What the group would return to if the instruction it issues were withdrawn. -/
def Group.markHere (g : Group) : BarMark :=
  { pc := (match g.hint with
      | some h => h.pc
      | none => g.pc), n := g.n, loops := g.loops }

/-- The address that a trap of the pair reports (R32). -/
def Group.trapAt (g : Group) : PcWord :=
  match g.hint with
  | some h => h.pc
  | none => g.pc

/-! ### Events and the black box (R416, R419) -/

/-- Little-endian bytes of a number. -/
def leBytes : Nat → Nat → List Byte
  | 0, _ => []
  | k + 1, n => BitVec.ofNat 8 n :: leBytes k (n / 256)

/-- The number little-endian bytes stand for. -/
def ofBytes : List Byte → Nat
  | [] => 0
  | b :: bs => b.toNat + 256 * ofBytes bs

/-- Record in the black box unless it is frozen; it keeps the last 4,096 records. (DESIGN CHOICE, log 61) -/
def State.boxPut (s : State) (r : BoxRec) : State :=
  if s.boxFrozen then s else { s with box := (s.box ++ [r]).drop ((s.box.length + 1) - 4096) }

def State.freezeBox (s : State) : State := { s with boxFrozen := true }

/-- Post an event to an owner (R416, R417): it takes its source's next number and waits to enter the ring. -/
def State.post (s : State) (o kind source : Nat) (tag status : Word) (data : List Byte) (secured : Bool) : State :=
  let w := s.ownerAt o
  let n := mapGet 0 w.evSeq source + 1
  let e : Event := ⟨kind, source, n, tag, status, s.wallNs, data, secured⟩
  let s := s.setOwner o { w with evSeq := mapSet 0 w.evSeq source n, events := w.events ++ [e] }
  let s := s.boxPut ⟨s.wallNs, source, o, kind, (data ++ List.replicate 16 0#8).take 16⟩
  s.soon (.eventWrite o source)

/-! ### Ending threads and groups (R105, R142) -/

/-- The lowest resume address of the threads of a set. -/
def lowestResume (m : FMap Thread) (set : BitVec 32) : Option PcWord :=
  (bitsOf set).foldl (fun r t =>
    let a := (mapGet {} m t).resume
    match r with
    | none => some a
    | some b => some (if a < b then a else b)) none

def setStates (m : FMap Thread) (set : BitVec 32) (f : Thread → Thread) : FMap Thread :=
  (bitsOf set).foldl (fun m t => mapSet {} m t (f (mapGet {} m t))) m

/-- CheckRelease (R142). A release makes its threads Running when no thread is, at the lowest resume address among them, and Parked
otherwise. In trap mode a thread that had arrived before the trap is released in the Frame, where it is Joined (R329, R346). -/
def Group.checkRelease (g : Group) (k : Nat) : Group :=
  let j := mapGet {} g.joins k
  if j.armed = false then g
  else if j.expect = 0#32 then { g with joins := mapSet {} g.joins k { j with armed := false } }
  else if j.arrived = j.expect then
    let joined (m : FMap Thread) : BitVec 32 := maskOf (fun t => j.arrived.getLsbD t && decide ((mapGet {} m t).st = .joined (BitVec.ofNat 3 k)))
    let park (m : FMap Thread) : FMap Thread := setStates m (joined m) (fun t => { t with st := .parked })
    let here := joined g.threads
    let g1 := { g with
      joins := mapSet {} g.joins k {}
      frame := if g.trapMode then { g.frame with threads := park g.frame.threads } else g.frame
      threads := park g.threads }
    if g1.running = 0#32 then
      match lowestResume g1.threads here with
      | none => g1
      | some a =>
        let first := maskOf (fun t => here.getLsbD t && decide ((mapGet {} g1.threads t).resume = a))
        { g1 with threads := setStates g1.threads first (fun t => { t with st := .running }), pc := a }
    else g1
  else g

/-- The threads a release of join k would merge, for the histories of R204. -/
def Group.releaseSet (g : Group) (k : Nat) : BitVec 32 :=
  let j := mapGet {} g.joins k
  if j.armed ∧ j.expect ≠ 0#32 ∧ j.arrived = j.expect then j.arrived else 0#32

/-- ThreadsEnd (R142) for one join register. -/
def Group.joinEnd (g : Group) (set : BitVec 32) (k : Nat) : Group :=
  let j := mapGet {} g.joins k
  if j.armed then
    Group.checkRelease { g with joins := mapSet {} g.joins k { j with expect := j.expect &&& ~~~set, arrived := j.arrived &&& ~~~set } } k
  else g

/-- End the threads of a set: they are Ended, in trap mode also in the Frame, and leave every armed join register. -/
def Group.endThreads (g : Group) (set : BitVec 32) : Group :=
  let g := { g with threads := setStates g.threads set (fun t => { t with st := .ended }) }
  let g := if g.trapMode then { g with frame := { g.frame with threads := setStates g.frame.threads set (fun t => { t with st := .ended }) } } else g
  (List.range 8).foldl (fun g k => g.joinEnd set k) g

/-- Merge histories (R204): every operation of the group that lies in the history of a thread of the set joins all of them. -/
def State.mergeHist (s : State) (gid : Nat) (set : BitVec 32) : State :=
  let s := { s with ops := mapAll (fun o => if o.gid = gid ∧ o.hist &&& set ≠ 0#32 then { o with hist := o.hist ||| set } else o) s.ops }
  s.modGroup gid (fun g => { g with fences := g.fences.map (fun f => if f.hist &&& set ≠ 0#32 then { f with hist := f.hist ||| set } else f) })

/-- Every group of a workgroup has ended. -/
def State.wgEnded (s : State) (w : Workgroup) : Bool := w.groups.all (fun k => (s.groupAt k).isEnded)

/-- A group has ended: its waits are withdrawn, and a workgroup whose groups have all ended completes (R105). -/
def State.groupGone (s : State) (gid : Nat) : State :=
  let g := s.groupAt gid
  let s := s.setGroupAt gid { g with waitSlot := none, busy := none, hint := none, trapMode := false }
  let s := { s with unsettled := s.unsettled ++ [gid] }
  let w := s.wgAt g.wg
  if s.wgEnded w ∧ w.ended = false then (s.setWg g.wg { w with ended := true }).soon (.workgroupCommit g.wg) else s

/-- End a whole group as a uniform `exit` does (R105, R139). -/
def State.endGroup (s : State) (gid : Nat) : State :=
  (s.setGroupAt gid ((s.groupAt gid).endThreads (s.groupAt gid).notEnded)).groupGone gid

/-! ### Taking a trap (R329, R330) -/

/-- The cause groups (R335 to R344). -/
def causeEncoding : Nat := 1
def causeMemory : Nat := 2
def causeArithmetic : Nat := 3
def causeEngine : Nat := 4
def causeSync : Nat := 5
def causeNetwork : Nat := 6
def causeLease : Nat := 7
def causeIntegrity : Nat := 8
def causeHardware : Nat := 9
def causeSoftware : Nat := 10

/-- A trap's cause, the bits of TCAUSE, its threads and its 96-bit detail (R334). -/
structure Trap where
  cause : Nat
  lost : Bool := false
  noResume : Bool := false
  deferred : Bool := false
  mask : BitVec 32
  a : Word := 0
  b : Word := 0
  c : Word := 0
  deriving DecidableEq, Repr

/-- TCAUSE as R330 lays it out. -/
def Trap.tcause (t : Trap) : Word :=
  BitVec.ofNat 32 (t.cause + (if t.deferred then 256 else 0) + (if t.noResume then 512 else 0) + (if t.lost then 1024 else 0))

/-- TakeTrap (R329): the Frame is saved, the trap registers are written, every thread not Ended runs, n is 0, and PC is the handler. -/
def Group.takeTrap (g : Group) (t : Trap) (pc handler : PcWord) : Group :=
  { g with
    frame := { threads := g.threads, n := g.n, loops := g.loops, first := [t.tcause, t.a, t.b, t.c] }
    trapPc := pc.setWidth 64
    tcause := t.tcause
    tmask := t.mask
    tdetA := t.a
    tdetB := t.b
    tdetC := t.c
    threads := setStates g.threads g.notEnded (fun x => { x with st := .running })
    n := 0
    trapMode := true
    noResume := t.noResume
    hint := none
    stall := 0
    skip := false
    pc := handler }

/-- A double fault (R349): the group ends at once, and the owner receives the event with both traps, the first as it was taken. (DEDUCED, log 49) -/
def State.doubleFault (s : State) (t : Trap) : State :=
  let g := s.grp
  let l := s.launchAt g.launch
  let word (w : Word) := leBytes 4 w.toNat
  let first := if g.trapMode then (List.range 4).map (fun i => g.frame.first.getD i 0#32) else [0#32, 0#32, 0#32, 0#32]
  let data := ([t.tcause, t.a, t.b, t.c] ++ first).flatMap word
  ((s.endGroup s.cur).post g.owner 3 0 l.tag (BitVec.ofNat 32 t.cause) data l.secured).freezeBox

/-- Take a trap of the current group at an address: its handler runs, or it is a double fault (R345, R349). -/
def State.trapAtPc (s : State) (t : Trap) (pc : PcWord) : State :=
  let g := s.grp
  match (s.launchAt g.launch).handler with
  | none => s.doubleFault t
  | some h =>
    if g.trapMode then s.doubleFault t
    else
      let s := s.mergeHist s.cur g.notEnded
      let s := s.setGrp (s.grp.takeTrap t pc h)
      if t.cause = causeHardware then s.freezeBox else s

/-- A trap of a waiting group at the instruction it waits in: the wait is withdrawn and the loops stand as that instruction found them. -/
def State.trapGroup (s : State) (gid : Nat) (t : Trap) : State :=
  let b := (s.groupAt gid).barMark
  let s1 := s.modGroup gid (fun g => { g with waitSlot := none, busy := none, n := b.n, loops := b.loops, pc := b.pc })
  { (State.trapAtPc { s1 with cur := gid } t b.pc) with cur := s.cur }

/-- A precise trap of the current instruction (R329): nothing of it has taken effect. -/
def State.trap (s : State) (t : Trap) : State := s.trapAtPc t s.grp.trapAt

/-! ### Details (R336 to R344) -/

/-- A memory trap (R337). -/
def memTrap (mask : BitVec 32) (kind code : Nat) (addr : Dword) : Trap :=
  { cause := causeMemory, noResume := decide (code = 6), mask := mask, a := BitVec.ofNat 32 (kind * 256 + code),
    b := addr.extractLsb' 0 32, c := addr.extractLsb' 32 32 }

/-- A synchronisation trap (R340). -/
def syncTrap (mask : BitVec 32) (detail index : Nat) (value : Dword) : Trap :=
  { cause := causeSync, mask := mask, a := BitVec.ofNat 32 (index * 256 + detail), b := value.extractLsb' 0 32, c := value.extractLsb' 32 32 }

/-- An engine trap (R339). -/
def engTrap (mask : BitVec 32) (detail fcode : Nat) (pc : PcWord) : Trap :=
  let v : Dword := pc.setWidth 64
  { cause := causeEngine, mask := mask, a := BitVec.ofNat 32 (fcode * 256 + detail), b := v.extractLsb' 0 32, c := v.extractLsb' 32 32 }

/-- A network trap (R341). -/
def netTrap (mask : BitVec 32) (detail field : Nat) (pc : PcWord) : Trap :=
  let v : Dword := pc.setWidth 64
  { cause := causeNetwork, mask := mask, a := BitVec.ofNat 32 (field * 256 + detail), b := v.extractLsb' 0 32, c := v.extractLsb' 32 32 }

/-- An encoding trap (R336): a hint reports the bound word too. (DEDUCED, log 38) -/
def encTrap (g : Group) (reason : Nat) (word : Word) : Trap :=
  match g.hint with
  | none => { cause := causeEncoding, mask := g.running, a := BitVec.ofNat 32 reason, b := word }
  | some h => { cause := causeEncoding, mask := g.running, a := BitVec.ofNat 32 (16 + reason), b := h.word, c := word }

/-- PCOFF of R334: bits 25:2 of the distance from the kernel entry, or all ones when it is 2^26 bytes or more. -/
def pcOff (entry pc : PcWord) : Nat :=
  let d := (pc - entry).toNat
  if 2 ^ 26 ≤ d then 0xFFFFFF else d / 4

/-- An integrity or hardware-error trap (R343). -/
def sectorTrap (cause : Nat) (mask : BitVec 32) (addr : Dword) (off source consumer : Nat) : Trap :=
  let a : Dword := addr &&& 0xFFFFFFFFFFFFFFE0#64
  { cause := cause, deferred := true, mask := mask, a := BitVec.ofNat 32 (off * 256 + source * 4 + consumer),
    b := a.extractLsb' 0 32, c := a.extractLsb' 32 32 }

/-! ### Selection (R138) -/

/-- When no thread runs, select the Parked threads of the lowest resume address, or trap "join unreachable". -/
def State.select (s : State) : State :=
  let g := s.grp
  if g.running ≠ 0#32 ∨ g.isEnded = true then s else
  let parked := g.stateMask (fun x => decide (x = .parked))
  match lowestResume g.threads parked with
  | some a =>
    let set := maskOf (fun t => parked.getLsbD t && decide ((g.thread t).resume = a))
    s.setGrp { g with threads := setStates g.threads set (fun t => { t with st := .running }), pc := a }
  | none =>
    match lowestBit g.notEnded with
    | none => s
    | some t =>
      let th := g.thread t
      let k := match th.st with
        | .joined k => k.toNat
        | .running | .parked | .ended => 0
      s.trapAtPc (syncTrap g.notEnded 5 k 0) (th.resume - 4)

/-! ### Returning from a trap (R347, R348, R376) -/

/-- Restore the Frame: threads Ended in trap mode stay Ended. -/
def Group.restoreFrame (g : Group) (target : PcWord) : Group :=
  { g with
    threads := (List.range 32).foldl (fun m t =>
      if (mapGet {} g.threads t).st.isEnded then m
      else
        let f := mapGet {} g.frame.threads t
        mapSet {} m t { f with trig := (mapGet {} g.threads t).trig }) g.threads
    n := g.frame.n
    loops := g.frame.loops
    trapMode := false
    noResume := false
    hint := none
    pc := target }

/-- End every group of a workgroup, marked as ended by a trap (R348). -/
def State.endWorkgroup (s : State) (k : Nat) : State :=
  let s := s.modWg k (fun w => { w with byTrap := true })
  let s := s.modLaunch (s.wgAt k).launch (fun l => { l with byTrap := true })
  (s.wgAt k).groups.foldl (fun s g => s.endGroup g) s

/-- `rte` in trap mode with its guard true (R376). -/
def State.returnFromTrap (s : State) : State :=
  let g := s.grp
  let target := g.trapPc
  if target.extractLsb' 56 8 ≠ 0#8 then s.doubleFault (memTrap g.running 5 0 target)
  else if target.extractLsb' 0 2 ≠ 0#2 then s.doubleFault (memTrap g.running 5 1 target)
  else if g.noResume then s.endWorkgroup g.wg
  else
    let s := s.mergeHist s.cur g.notEnded
    (s.setGrp (s.grp.restoreFrame (target.extractLsb' 0 56))).select

/-! ### Pending records (R333) -/

/-- A deferred trap fills its record, or sets LOST when the record is full. -/
def Group.record (g : Group) (cause : Nat) (r : PendRec) : Group :=
  match mapFind g.pend cause with
  | none => { g with pend := mapPut g.pend cause r }
  | some old => { g with pend := mapPut g.pend cause { old with lost := true } }

/-! ### Outstanding operations (R113) -/

def Group.count (g : Group) (c : OpClass) : Nat := (g.outs.filter (fun o => decide (o.cls = c))).length

/-- Raise a counter for an operation. -/
def Group.raiseCount (g : Group) (c : OpClass) (op : Nat) : Group := { g with outs := g.outs ++ [⟨c, op, false⟩] }

/-- Drop the oldest operations of a class that have returned: counters are lowered in order (R111). -/
def dropBack (c : OpClass) : List Out → List Out
  | [] => []
  | o :: os => if o.cls = c then (if o.back then dropBack c os else o :: os) else o :: dropBack c os

/-- An operation has returned. -/
def Group.returned (g : Group) (op : Nat) : Group :=
  match g.outs.find? (fun o => decide (o.op = op)) with
  | none => g
  | some x => { g with outs := dropBack x.cls (g.outs.map (fun o => if o.op = op then { o with back := true } else o)) }

end Sys2Proof.Machine
end

