-- ==== Sys2Proof/Machine/Operands.lean ====
section
/-! DEFINITION. Operand forms: the b selector (R24, R25), its widening to 64 bits, floating operands with modifiers (R116), the fields of
a hint as the bound instruction reads them (R33 to R36), and what a hint can bind (R32, R90, R117, R126, R160, R225, R239, R243, R294, R372). -/

namespace Sys2Proof.Machine

/-! ### The hint of the pair -/

/-- A WIDE payload (R33). -/
def Group.wide (g : Group) : Option (BitVec 22) :=
  match g.hint with
  | some ⟨_, _, .hintWide p⟩ => some p
  | _ => none

/-- Every field of MOD at its reset value (R35). -/
def modReset : ModFields := ⟨0#3, false, 0#2, 7#3, false, false, false, false, false⟩

/-- The MOD fields that apply to the instruction (R35). -/
def Group.modf (g : Group) : ModFields :=
  match g.hint with
  | some ⟨_, _, .hintMod m⟩ => m
  | _ => modReset

/-- The KEEP, DLANE and SLANE of a TYPE hint (R36). -/
def Group.typeHint (g : Group) : Option (Bool × BitVec 2 × BitVec 2) :=
  match g.hint with
  | some ⟨_, _, .hintType k d a⟩ => some (k, d, a)
  | _ => none

/-- Mode() (R83): the override of RND, else nearest-even. -/
def Group.mode (g : Group) : RMode := RMode.ofRnd g.modf.rnd .rn

/-! ### The b selector -/

/-- Entry c of the constants table (R25), for the thread of the lane. -/
def constEntry (g : Group) (l : Lane) (c : BitVec 5) : Word :=
  let t : Nat := match l with
    | some t => t
    | none => 0
  match c.toNat with
  | 0 => BitVec.ofNat 32 t
  | 1 => BitVec.ofNat 32 (t / 8)
  | 2 => BitVec.ofNat 32 (t % 8)
  | 3 => BitVec.ofNat 32 g.index
  | 4 => BitVec.ofNat 32 g.core
  | 5 => 64#32
  | 6 => 128#32
  | 7 => 256#32
  | 8 => 0x000000FF#32
  | 9 => 0x0000FFFF#32
  | 10 => 0x7FFFFFFF#32
  | 11 => 0x80000000#32
  | 16 => 0x3F000000#32
  | 17 => 0x3F800000#32
  | 18 => 0x40000000#32
  | 19 => 0x40800000#32
  | 20 => 0xBF800000#32
  | 21 => 0xBF000000#32
  | 22 => 0x3FB8AA3B#32
  | 23 => 0x3F317218#32
  | 24 => 0x40490FDB#32
  | 25 => 0x3EA2F983#32
  | 26 => 0x7F800000#32
  | 27 => 0xFF800000#32
  | 28 => 0x7F7FFFFF#32
  | 29 => 0x00800000#32
  | 30 => 0x7FFFFFFF#32
  | 31 => 0x3C003C00#32
  | _ => 0#32

/-- An immediate 0 to 63, or the 28-bit operand of R33 under a WIDE hint. -/
def immOf (g : Group) (w : Nat) (n : BitVec 6) : BitVec w :=
  match g.wide with
  | some p => (p ++ n : BitVec 28).signExtend w
  | none => n.setWidth w

/-- An immediate -32 to -1: its five bits below ones. -/
def negOf (w : Nat) (n : BitVec 5) : BitVec w := (1#1 ++ n : BitVec 6).signExtend w

/-- OpB(): the b operand in 32 bits (R24, R89). -/
def Group.opB (g : Group) (l : Lane) (b : BSel) : Word :=
  match b with
  | .own r => g.rd l r
  | .grp r => g.getG r
  | .imm n => immOf g 32 n
  | .neg n => negOf 32 n
  | .const c => constEntry g l c

/-- The b operand in 64 bits: a pair, a sign-extended immediate, a zero-extended constant (R24). -/
def Group.opB64 (g : Group) (l : Lane) (b : BSel) : Dword :=
  match b with
  | .own r => g.rd64 l r
  | .grp r => g.getG64 r
  | .imm n => immOf g 64 n
  | .neg n => negOf 64 n
  | .const c => (constEntry g l c).setWidth 64

/-- The b operand of a floating instruction: an immediate is the integer as FP32 (R24, R116). -/
def Group.opBF (g : Group) (l : Lane) (b : BSel) : Word :=
  match b with
  | .own r => g.rd l r
  | .grp r => g.getG r
  | .imm n => f32Code (.fin (Exact.ofInt n.toNat))
  | .neg n => f32Code (.fin (Exact.ofInt ((n.toNat : Int) - 32)))
  | .const c => constEntry g l c

/-- The b operand of a group instruction in the g file. -/
def Group.opG (g : Group) (b : BSel) : Word := g.opB none b

/-- The sign bit of an FP32 word cleared or inverted as MOD asks (R116); a NaN stays a NaN. -/
def modWord (abs neg : Bool) (w : Word) : Word :=
  let w := if abs then w &&& 0x7FFFFFFF#32 else w
  if neg then w ^^^ 0x80000000#32 else w

/-- OpA() of a floating instruction as bits. -/
def Group.opAF (g : Group) (l : Lane) (a : Reg) : Word := modWord g.modf.absa g.modf.nega (g.rd l a)

/-- OpB() of a floating instruction as bits, after modifiers. -/
def Group.opBM (g : Group) (l : Lane) (b : BSel) : Word := modWord g.modf.absb g.modf.negb (g.opBF l b)

/-! ### Addresses (R28, R33, R226) -/

/-- The offset of form M in units of the access size: off3, or the signed value under a WIDE hint. -/
def Group.offM (g : Group) (off : BitVec 3) : Int :=
  match g.wide with
  | some p => (p ++ off : BitVec 25).toInt
  | none => (off.toNat : Int)

/-- Pair(a) + offset × size, in 64 bits. -/
def Group.addrM (g : Group) (l : Lane) (a : Reg) (off : BitVec 3) (size : Nat) : Dword :=
  g.rd64 l a + BitVec.ofInt 64 (g.offM off * size)

/-- The branch displacement in bytes, in 64 bits (R29, R33). -/
def Group.dispB (g : Group) (off : BitVec 20) : Dword :=
  match g.wide with
  | some p => ((p ++ off : BitVec 42).signExtend 62) ++ 0#2
  | none => (off.signExtend 62) ++ 0#2

/-- The scope an ordering instruction acts at: MOD SCOPE replaces it when its ord is not plain (R225). -/
def Group.scopeOr (g : Group) (o : Ord) (x : Scope) : Scope :=
  if o = .plain then x else
  match scopeOf g.modf.scope with
  | .ok y => y
  | .error _ => x

/-! ### What a hint binds -/

/-- The MOD fields an instruction accepts (R35, R90, R117, R225, R237, R243). -/
structure ModSet where
  rnd : Bool := false
  sat : Bool := false
  cache : Bool := false
  scope : Bool := false
  a : Bool := false
  b : Bool := false
  d : Bool := false
  deriving DecidableEq, Repr

/-- A form M access: CACHE always, SCOPE when its ord is not plain. -/
def memMods (o : Ord) : ModSet := { cache := true, scope := decide (o ≠ .plain) }

/-- Which MOD fields apply; `none` fields set anywhere else bind nothing. -/
def modSet : Instr → ModSet
  | .add .. | .sub .. | .mul .. | .mad .. | .addx .. | .subx .. => { sat := true }
  | .fadd .. | .fsub .. | .fmul .. => { rnd := true, sat := true, a := true, b := true }
  | .ffma .. => { rnd := true, sat := true, a := true, b := true, d := true }
  | .fmin .. | .fmax .. | .fcmp .. => { a := true, b := true }
  | .fneg .. | .fabs .. | .frndRn .. | .frndRz .. | .frndRd .. | .frndRu .. => { a := true }
  | .sqrt .. => { rnd := true, a := true }
  | .rcp .. | .exp2 .. => { sat := true, a := true }
  | .rsqrt .. | .log2 .. | .sinpi .. | .cospi .. | .sincospi .. | .tanh .. => { a := true }
  | .fcvt .. | .fcvti .. | .icvtf .. => { rnd := true }
  | .hadd2 .. | .hmul2 .. => { rnd := true, sat := true, a := true, b := true }
  | .hfma2 .. | .dot2 .. => { rnd := true, sat := true, a := true, b := true, d := true }
  | .ldGlbN8 .. | .ldGlbN16 .. | .ldGlbB32 .. | .ldGlbB64 .. | .ldGlbB128 .. => { cache := true }
  | .stGlbB8 .. | .stGlbB16 .. | .stGlbB32 .. | .stGlbB64 .. | .stGlbB128 .. => { cache := true }
  | .scopedLdGlbB32 _ _ _ _ o _ _ | .scopedLdGlbB64 _ _ _ _ o _ _ | .scopedStGlbB32 _ _ _ _ o _ _ | .scopedStGlbB64 _ _ _ _ o _ _ => memMods o
  | .ldsB32 .. | .ldsB64 .. | .stsB32 .. | .stsB64 .. | .ldc .. | .pref .. => { cache := true }
  | .atomAddN32 _ _ _ _ o _ | .atomAddN64 _ _ _ _ o _ | .atomMinI32 _ _ _ _ o _ | .atomMaxI32 _ _ _ _ o _ | .atomMinN32 _ _ _ _ o _
  | .atomMaxN32 _ _ _ _ o _ | .atomOr _ _ _ _ o _ | .atomAnd _ _ _ _ o _ | .atomExchB32 _ _ _ _ o _ | .atomCasB32 _ _ _ _ o _
  | .atomExchB64 _ _ _ _ o _ | .atomCasB64 _ _ _ _ o _ | .atomAddF32 _ _ _ _ o _ | .atomMinF32 _ _ _ _ o _ | .atomMaxF32 _ _ _ _ o _ => memMods o
  | .redAddN32 _ _ _ _ o _ | .redAddN64 _ _ _ _ o _ | .redMinI32 _ _ _ _ o _ | .redMaxI32 _ _ _ _ o _ | .redMinN32 _ _ _ _ o _
  | .redMaxN32 _ _ _ _ o _ | .redOr _ _ _ _ o _ | .redAnd _ _ _ _ o _ | .redAddF32 _ _ _ _ o _ | .redMinF32 _ _ _ _ o _
  | .redMaxF32 _ _ _ _ o _ => memMods o
  | .fence .. => { scope := true }
  | _ => {}

/-- Every field that is set applies, and at least one is set (R32, R35). -/
def modBinds (m : ModFields) (x : ModSet) : Bool :=
  decide (m ≠ modReset) && (x.rnd || decide (m.rnd = 0#3)) && (x.sat || !m.sat) && (x.cache || decide (m.cache = 0#2)) &&
  (x.scope || decide (m.scope = 7#3)) && (x.a || (!m.nega && !m.absa)) && (x.b || (!m.negb && !m.absb)) && (x.d || !m.negd)

/-- An immediate 0 to 63 that a WIDE hint extends (R33). -/
def BSelImm : BSel → Bool
  | .imm _ => true
  | .own _ | .grp _ | .neg _ | .const _ => false

/-- The instructions with a field that a WIDE hint extends (R33). -/
def wideBinds : Instr → Bool
  | .add _ _ _ _ b | .sub _ _ _ _ b | .mul _ _ _ _ b | .mulhI32 _ _ _ _ b | .mulhN32 _ _ _ _ b | .mad _ _ _ _ b | .addx _ _ _ _ b
  | .subx _ _ _ _ b | .minI32 _ _ _ _ b | .maxI32 _ _ _ _ b | .minN32 _ _ _ _ b | .maxN32 _ _ _ _ b | .andB _ _ _ _ b | .orB _ _ _ _ b
  | .xorB _ _ _ _ b | .andnB _ _ _ _ b | .shl _ _ _ _ b | .shr _ _ _ _ b | .sar _ _ _ _ b | .rotl _ _ _ _ b | .bfxN32 _ _ _ _ b
  | .bfxI32 _ _ _ _ b | .bfi _ _ _ _ b => BSelImm b
  | .lea _ _ _ _ _ b | .sel _ _ _ _ _ b | .cmpI32 _ _ _ _ _ b | .cmpN32 _ _ _ _ _ b => BSelImm b
  | .movi .. | .movh .. | .bra .. | .call .. | .loop .. => true
  | .ldGlbN8 .. | .ldGlbN16 .. | .ldGlbB32 .. | .ldGlbB64 .. | .ldGlbB128 .. => true
  | .stGlbB8 .. | .stGlbB16 .. | .stGlbB32 .. | .stGlbB64 .. | .stGlbB128 .. => true
  | .scopedLdGlbB32 .. | .scopedLdGlbB64 .. | .scopedStGlbB32 .. | .scopedStGlbB64 .. => true
  | .ldsB32 .. | .ldsB64 .. | .stsB32 .. | .stsB64 .. | .ldc .. => true
  | _ => false

/-- The widths of the two sides of a conversion in bits: destination, source (R126). -/
def ftypeWidth : FType → Nat
  | .f32 => 32
  | .f16 | .bf16 => 16
  | .e4m3 | .e5m2 => 8

def convWidths : Instr → Option (Nat × Nat)
  | .fcvt _ _ _ _ t y => some (ftypeWidth t, ftypeWidth y)
  | .fcvti _ _ _ _ t y => some (intWidth t, ftypeWidth y)
  | .icvtf _ _ _ _ t y => some (ftypeWidth t, intWidth y)
  | _ => none

/-- A lane within a 32-bit register of a type of w bits; a side of 32 or 64 bits has lane 0 only (R36, R126). -/
def laneOk (w : Nat) (n : BitVec 2) : Bool := decide (n.toNat * w + w ≤ 32) || decide (n = 0#2)

/-- The reason, if any, why a hint fails against the instruction it stands before: 2 where it binds nothing, 6 for a reserved lane. -/
def hintReason (h i : Instr) : Option Nat :=
  match h with
  | .hintWide _ => if wideBinds i then none else some 2
  | .hintSched _ _ _ => none
  | .hintMod m => if modBinds m (modSet i) then none else some 2
  | .hintType k d a =>
    match convWidths i with
    | none => some 2
    | some (wd, wa) =>
      if k = false ∧ d = 0#2 ∧ a = 0#2 then some 2
      else if !(laneOk wd d) || !(laneOk wa a) || (k && decide (32 ≤ wd)) then some 6
      else none
  | _ => some 2

/-- A reserved field value or register that depends on the group: a `loop` of length 0 without WIDE (R30), `rte` outside trap mode (R376), a
`sets` of a trap register outside trap mode (R373), a context operation outside SYS (R382). -/
def stateReason (g : Group) (i : Instr) : Option Nat :=
  match i with
  | .loop _ _ l =>
    if l = 0#14 then (match g.wide with
      | some p => if p = 0#22 then some 6 else none
      | none => some 6) else none
  | .rte _ => if g.trapMode then none else some 6
  | .sets _ r _ => if r.isTrap && !g.trapMode then some 7 else none
  | .ctxGsave .. | .ctxGrest .. | .ctxWsave .. | .ctxWrest .. | .ctxRemap .. => if g.owner = 63 then none else some 6
  | _ => none

end Sys2Proof.Machine
end

