-- ==== Sys2Proof/Machine/Flags.lean ====
section
/-! DEFINITION. Flags: raising them per thread into the group's FLAGS (R14), the overflow trap record of R88, and integer results under MOD
SAT (R90). -/

namespace Sys2Proof.Machine

/-- Raise the flags of each lane: they are ORed into FLAGS, and the first overflow under V2 with OVF_TRAP is recorded. (DEDUCED, log 47) -/
def Group.raise (g : Group) (ls : List Lane) (f : Lane → BitVec 4) : Group :=
  let all := ls.foldl (fun x l => x ||| f l) 0#4
  let g1 := { g with flags := g.flags ||| all.setWidth 32 }
  let armed := g.flagArm.getLsbD 0 && g.flagArm.getLsbD 1
  if armed ∧ all.getLsbD 1 ∧ mapFind g.pend causeArithmetic = none then
    let who := ls.filter (fun l => (f l).getLsbD 1)
    let pc : Dword := g.pc.setWidth 64
    { g1 with pend := mapPut g1.pend causeArithmetic { a := BitVec.ofNat 32 (all.toNat * 16), b := pc.extractLsb' 0 32, c := pc.extractLsb' 32 32, mask := laneMask g who } }
  else g1

/-- An integer result with the flags it raises. -/
structure IRes (w : Nat) where
  val : BitVec w
  fl : BitVec 4
  deriving DecidableEq, Repr

/-- The wrapped result, or under MOD SAT the exact one saturated as a signed value (R90). -/
def satOr32 (sat : Bool) (wrap : Word) (exact : Int) : IRes 32 :=
  if sat then ⟨BitVec.ofInt 32 (saturateInt .i32 exact).1, (saturateInt .i32 exact).2⟩ else ⟨wrap, 0#4⟩

def satOr64 (sat : Bool) (wrap : Dword) (exact : Int) : IRes 64 :=
  if sat then ⟨BitVec.ofInt 64 (saturateInt .i64 exact).1, (saturateInt .i64 exact).2⟩ else ⟨wrap, 0#4⟩

end Sys2Proof.Machine
end

