-- ==== Sys2Proof/Machine/Integer.lean ====
section
/-! DEFINITION. Integer arithmetic, logic, shifts, bit fields, moves, compares and predicates: majors 0x00 to 0x1E (R89 to R100). -/

namespace Sys2Proof.Machine

/-- The answer of a meaning. -/
abbrev Res := Host.Outcome State Fault Refusal

/-- Enter written registers in the interlock, when the instruction ran for some lane. -/
def Group.stamp (g : Group) (now lat : Nat) (ls : List Lane) (locs : List Nat) : Group := if ls.isEmpty then g else g.mark now lat locs

/-- A 32-bit result written to d for every lane (R89). -/
def State.alu (s : State) (u : Bool) (h : Guard) (d : Reg) (lat : Nat) (f : Lane → Word) : State :=
  let g := s.grp
  let ls := g.lanes u h
  s.finish ((g.writeAll ls d f).stamp s.win lat ls [locR u d])

/-- A 64-bit result written to Pair(d). -/
def State.alu64 (s : State) (u : Bool) (h : Guard) (d : Reg) (lat : Nat) (f : Lane → Dword) : State :=
  let g := s.grp
  let ls := g.lanes u h
  s.finish ((g.writeAll64 ls d f).stamp s.win lat ls [locR u d, locR u (d + 1)])

/-- A 32-bit result with flags. -/
def State.aluF (s : State) (u : Bool) (h : Guard) (d : Reg) (lat : Nat) (f : Lane → IRes 32) : State :=
  let g := s.grp
  let ls := g.lanes u h
  s.finish (((g.writeAll ls d (fun l => (f l).val)).raise ls (fun l => (f l).fl)).stamp s.win lat ls [locR u d])

/-- A 64-bit result with flags. -/
def State.alu64F (s : State) (u : Bool) (h : Guard) (d : Reg) (lat : Nat) (f : Lane → IRes 64) : State :=
  let g := s.grp
  let ls := g.lanes u h
  s.finish (((g.writeAll64 ls d (fun l => (f l).val)).raise ls (fun l => (f l).fl)).stamp s.win lat ls [locR u d, locR u (d + 1)])

/-- A predicate written for every lane. -/
def State.setPreds (s : State) (u : Bool) (h : Guard) (p : BitVec 3) (lat : Nat) (f : Lane → Bool) : State :=
  let g := s.grp
  let ls := g.lanes u h
  s.finish ((g.writePred ls p f).stamp s.win lat ls [locPred u p])

/-! ### The functions of R93 to R95 -/

/-- The high half of the signed product. -/
def mulhS (x y : Word) : Word := (x.signExtend 64 * y.signExtend 64).extractLsb' 32 32
/-- The high half of the unsigned product. -/
def mulhU (x y : Word) : Word := (x.setWidth 64 * y.setWidth 64).extractLsb' 32 32
def minS (x y : Word) : Word := if x.slt y then x else y
def maxS (x y : Word) : Word := if x.slt y then y else x
def minU (x y : Word) : Word := if x.ult y then x else y
def maxU (x y : Word) : Word := if x.ult y then y else x
/-- Shifts by n read as unsigned: 0, or copies of the sign, from 32 on. -/
def shlW (x n : Word) : Word := if 32 ≤ n.toNat then 0#32 else x <<< n.toNat
def shrW (x n : Word) : Word := if 32 ≤ n.toNat then 0#32 else x >>> n.toNat
def sarW (x n : Word) : Word := x.sshiftRight (min n.toNat 31)
def rotlW (x n : Word) : Word := x.rotateLeft (n.toNat % 32)
def absW (x : Word) : Word := if x.slt 0#32 then 0#32 - x else x
/-- The number of leading zero bits. -/
def clzW (x : Word) : Word := if x = 0#32 then 32#32 else BitVec.ofNat 32 (31 - Nat.log2 x.toNat)
/-- The number of one bits. -/
def popcW (x : Word) : Word := BitVec.ofNat 32 (bitsOf x).length
/-- Bit i moved to bit 31 - i. -/
def brevW (x : Word) : Word := maskOf (fun i => x.getLsbD (31 - i))

/-- The position and effective width of a bit field (R95). -/
def fieldOf (b : Word) : Nat × Nat :=
  let pos := (b.extractLsb' 0 5).toNat
  let w := min (b.extractLsb' 5 6).toNat 32
  (pos, min w (32 - pos))

/-- A mask of the low n bits. -/
def lowMask (n : Nat) : Word := BitVec.ofNat 32 (2 ^ n - 1)

def bfxU (x b : Word) : Word := (x >>> (fieldOf b).1) &&& lowMask (fieldOf b).2
def bfxS (x b : Word) : Word :=
  let w := (fieldOf b).2
  let f := bfxU x b
  if w ≠ 0 ∧ f.getLsbD (w - 1) then f ||| ~~~lowMask w else f
def bfiW (d x b : Word) : Word :=
  let m := lowMask (fieldOf b).2 <<< (fieldOf b).1
  (d &&& ~~~m) ||| ((x <<< (fieldOf b).1) &&& m)

/-- A cond B (R99), by the order given. -/
def condTrue (c : Cond) (lt : Word → Word → Bool) (x y : Word) : Bool :=
  match c with
  | .eq => x == y
  | .ne => x != y
  | .lt => lt x y
  | .le => !lt y x
  | .gt => lt y x
  | .ge => !lt x y

/-! ### Meanings -/

/-- `add` (R93): wrapping, or saturated under MOD SAT (R90). -/
def execAdd (u : Bool) (h : Guard) (d a : Reg) (b : BSel) (s : State) : Res :=
  let g := s.grp
  .next (s.aluF u h d 4 (fun l => satOr32 g.modf.sat (g.rd l a + g.opB l b) ((g.rd l a).toInt + (g.opB l b).toInt)))

/-- `sub` (R93): wrapping, or saturated under MOD SAT (R90). -/
def execSub (u : Bool) (h : Guard) (d a : Reg) (b : BSel) (s : State) : Res :=
  let g := s.grp
  .next (s.aluF u h d 4 (fun l => satOr32 g.modf.sat (g.rd l a - g.opB l b) ((g.rd l a).toInt - (g.opB l b).toInt)))

/-- `mul` (R93): wrapping, or saturated under MOD SAT (R90). -/
def execMul (u : Bool) (h : Guard) (d a : Reg) (b : BSel) (s : State) : Res :=
  let g := s.grp
  .next (s.aluF u h d 4 (fun l => satOr32 g.modf.sat (g.rd l a * g.opB l b) ((g.rd l a).toInt * (g.opB l b).toInt)))

/-- `mulh.i32` (R93). -/
def execMulhI32 (u : Bool) (h : Guard) (d a : Reg) (b : BSel) (s : State) : Res :=
  let g := s.grp
  .next (s.alu u h d 4 (fun l => mulhS (g.rd l a) (g.opB l b)))

/-- `mulh.n32` (R93). -/
def execMulhN32 (u : Bool) (h : Guard) (d a : Reg) (b : BSel) (s : State) : Res :=
  let g := s.grp
  .next (s.alu u h d 4 (fun l => mulhU (g.rd l a) (g.opB l b)))

/-- `mad` (R93): wrapping, or saturated under MOD SAT (R90). -/
def execMad (u : Bool) (h : Guard) (d a : Reg) (b : BSel) (s : State) : Res :=
  let g := s.grp
  .next (s.aluF u h d 4 (fun l => satOr32 g.modf.sat (g.rd l a * g.opB l b + g.rd l d) ((g.rd l a).toInt * (g.opB l b).toInt + (g.rd l d).toInt)))

/-- `addx` (R93): on pairs, wrapping, or saturated under MOD SAT (R90). -/
def execAddx (u : Bool) (h : Guard) (d a : Reg) (b : BSel) (s : State) : Res :=
  let g := s.grp
  .next (s.alu64F u h d 4 (fun l =>
    satOr64 g.modf.sat (g.rd64 l a + g.opB64 l b) ((g.rd64 l a).toInt + (g.opB64 l b).toInt)))

/-- `subx` (R93): on pairs, wrapping, or saturated under MOD SAT (R90). -/
def execSubx (u : Bool) (h : Guard) (d a : Reg) (b : BSel) (s : State) : Res :=
  let g := s.grp
  .next (s.alu64F u h d 4 (fun l =>
    satOr64 g.modf.sat (g.rd64 l a - g.opB64 l b) ((g.rd64 l a).toInt - (g.opB64 l b).toInt)))

/-- `min.i32` (R93). -/
def execMinI32 (u : Bool) (h : Guard) (d a : Reg) (b : BSel) (s : State) : Res :=
  let g := s.grp
  .next (s.alu u h d 4 (fun l => minS (g.rd l a) (g.opB l b)))

/-- `max.i32` (R93). -/
def execMaxI32 (u : Bool) (h : Guard) (d a : Reg) (b : BSel) (s : State) : Res :=
  let g := s.grp
  .next (s.alu u h d 4 (fun l => maxS (g.rd l a) (g.opB l b)))

/-- `min.n32` (R93). -/
def execMinN32 (u : Bool) (h : Guard) (d a : Reg) (b : BSel) (s : State) : Res :=
  let g := s.grp
  .next (s.alu u h d 4 (fun l => minU (g.rd l a) (g.opB l b)))

/-- `max.n32` (R93). -/
def execMaxN32 (u : Bool) (h : Guard) (d a : Reg) (b : BSel) (s : State) : Res :=
  let g := s.grp
  .next (s.alu u h d 4 (fun l => maxU (g.rd l a) (g.opB l b)))

/-- `and` (R93). -/
def execAndB (u : Bool) (h : Guard) (d a : Reg) (b : BSel) (s : State) : Res :=
  let g := s.grp
  .next (s.alu u h d 4 (fun l => g.rd l a &&& g.opB l b))

/-- `or` (R93). -/
def execOrB (u : Bool) (h : Guard) (d a : Reg) (b : BSel) (s : State) : Res :=
  let g := s.grp
  .next (s.alu u h d 4 (fun l => g.rd l a ||| g.opB l b))

/-- `xor` (R93). -/
def execXorB (u : Bool) (h : Guard) (d a : Reg) (b : BSel) (s : State) : Res :=
  let g := s.grp
  .next (s.alu u h d 4 (fun l => g.rd l a ^^^ g.opB l b))

/-- `andn` (R93). -/
def execAndnB (u : Bool) (h : Guard) (d a : Reg) (b : BSel) (s : State) : Res :=
  let g := s.grp
  .next (s.alu u h d 4 (fun l => g.rd l a &&& ~~~g.opB l b))

/-- `shl` (R93). -/
def execShl (u : Bool) (h : Guard) (d a : Reg) (b : BSel) (s : State) : Res :=
  let g := s.grp
  .next (s.alu u h d 4 (fun l => shlW (g.rd l a) (g.opB l b)))

/-- `shr` (R93). -/
def execShr (u : Bool) (h : Guard) (d a : Reg) (b : BSel) (s : State) : Res :=
  let g := s.grp
  .next (s.alu u h d 4 (fun l => shrW (g.rd l a) (g.opB l b)))

/-- `sar` (R93). -/
def execSar (u : Bool) (h : Guard) (d a : Reg) (b : BSel) (s : State) : Res :=
  let g := s.grp
  .next (s.alu u h d 4 (fun l => sarW (g.rd l a) (g.opB l b)))

/-- `rotl` (R93). -/
def execRotl (u : Bool) (h : Guard) (d a : Reg) (b : BSel) (s : State) : Res :=
  let g := s.grp
  .next (s.alu u h d 4 (fun l => rotlW (g.rd l a) (g.opB l b)))

/-- `neg` (R94). -/
def execNegI (u : Bool) (h : Guard) (d a : Reg) (s : State) : Res :=
  let g := s.grp
  .next (s.alu u h d 4 (fun l => 0#32 - g.rd l a))

/-- `abs` (R94). -/
def execAbsI (u : Bool) (h : Guard) (d a : Reg) (s : State) : Res :=
  let g := s.grp
  .next (s.alu u h d 4 (fun l => absW (g.rd l a)))

/-- `not` (R94). -/
def execNotB (u : Bool) (h : Guard) (d a : Reg) (s : State) : Res :=
  let g := s.grp
  .next (s.alu u h d 4 (fun l => ~~~g.rd l a))

/-- `clz` (R94). -/
def execClz (u : Bool) (h : Guard) (d a : Reg) (s : State) : Res :=
  let g := s.grp
  .next (s.alu u h d 4 (fun l => clzW (g.rd l a)))

/-- `popc` (R94). -/
def execPopc (u : Bool) (h : Guard) (d a : Reg) (s : State) : Res :=
  let g := s.grp
  .next (s.alu u h d 4 (fun l => popcW (g.rd l a)))

/-- `brev` (R94). -/
def execBrev (u : Bool) (h : Guard) (d a : Reg) (s : State) : Res :=
  let g := s.grp
  .next (s.alu u h d 4 (fun l => brevW (g.rd l a)))

/-- `mov` (R94). -/
def execMov (u : Bool) (h : Guard) (d a : Reg) (s : State) : Res :=
  let g := s.grp
  .next (s.alu u h d 4 (fun l => g.rd l a))

/-- `sxt.i8` (R94). -/
def execSxtI8 (u : Bool) (h : Guard) (d a : Reg) (s : State) : Res :=
  let g := s.grp
  .next (s.alu u h d 4 (fun l => ((g.rd l a).extractLsb' 0 8).signExtend 32))

/-- `sxt.i16` (R94). -/
def execSxtI16 (u : Bool) (h : Guard) (d a : Reg) (s : State) : Res :=
  let g := s.grp
  .next (s.alu u h d 4 (fun l => ((g.rd l a).extractLsb' 0 16).signExtend 32))

/-- `sxt.i32` (R94): into Pair(d). -/
def execSxtI32 (u : Bool) (h : Guard) (d a : Reg) (s : State) : Res :=
  let g := s.grp
  .next (s.alu64 u h d 4 (fun l => (g.rd l a).signExtend 64))

/-- `zxt.n8` (R94). -/
def execZxtN8 (u : Bool) (h : Guard) (d a : Reg) (s : State) : Res :=
  let g := s.grp
  .next (s.alu u h d 4 (fun l => ((g.rd l a).extractLsb' 0 8).setWidth 32))

/-- `zxt.n16` (R94). -/
def execZxtN16 (u : Bool) (h : Guard) (d a : Reg) (s : State) : Res :=
  let g := s.grp
  .next (s.alu u h d 4 (fun l => ((g.rd l a).extractLsb' 0 16).setWidth 32))

/-- `zxt.n32` (R94): into Pair(d). -/
def execZxtN32 (u : Bool) (h : Guard) (d a : Reg) (s : State) : Res :=
  let g := s.grp
  .next (s.alu64 u h d 4 (fun l => (g.rd l a).setWidth 64))

/-- `bfx.n32` (R95). -/
def execBfxN32 (u : Bool) (h : Guard) (d a : Reg) (b : BSel) (s : State) : Res :=
  let g := s.grp
  .next (s.alu u h d 4 (fun l => bfxU (g.rd l a) (g.opB l b)))

/-- `bfx.i32` (R95). -/
def execBfxI32 (u : Bool) (h : Guard) (d a : Reg) (b : BSel) (s : State) : Res :=
  let g := s.grp
  .next (s.alu u h d 4 (fun l => bfxS (g.rd l a) (g.opB l b)))

/-- `bfi` (R95). -/
def execBfi (u : Bool) (h : Guard) (d a : Reg) (b : BSel) (s : State) : Res :=
  let g := s.grp
  .next (s.alu u h d 4 (fun l => bfiW (g.rd l d) (g.rd l a) (g.opB l b)))

/-- `lea` (R96): the b operand sign-extended and shifted by k, added to a pair. -/
def execLea (u : Bool) (h : Guard) (d : BitVec 5) (k : BitVec 2) (a : BitVec 5) (b : BSel) (s : State) : Res :=
  let g := s.grp
  .next (s.alu64 u h (d ++ 0#1) 4 (fun l => g.rd64 l (a ++ 0#1) + ((g.opB l b).signExtend 64 <<< k.toNat)))

/-- `sel` (R26, R98): for every Running thread, or once for the group, without a guard. -/
def execSel (u : Bool) (p : BitVec 3) (n : Bool) (d a : Reg) (b : BSel) (s : State) : Res :=
  let g := s.grp
  .next (s.alu u ⟨7#3, false⟩ d 4 (fun l => if g.rp l p != n then g.rd l a else g.opB l b))

/-- `cmp.i32` (R99). -/
def execCmpI32 (u : Bool) (h : Guard) (c : Cond) (p : BitVec 3) (a : Reg) (b : BSel) (s : State) : Res :=
  let g := s.grp
  .next (s.setPreds u h p 4 (fun l => condTrue c BitVec.slt (g.rd l a) (g.opB l b)))

/-- `cmp.n32` (R99). -/
def execCmpN32 (u : Bool) (h : Guard) (c : Cond) (p : BitVec 3) (a : Reg) (b : BSel) (s : State) : Res :=
  let g := s.grp
  .next (s.setPreds u h p 4 (fun l => condTrue c BitVec.ult (g.rd l a) (g.opB l b)))

/-- `pand` (R100). -/
def execPand (u : Bool) (h : Guard) (d a b : BitVec 3) (s : State) : Res :=
  let g := s.grp
  .next (s.setPreds u h d 4 (fun l => g.rp l a && g.rp l b))

/-- `por` (R100). -/
def execPor (u : Bool) (h : Guard) (d a b : BitVec 3) (s : State) : Res :=
  let g := s.grp
  .next (s.setPreds u h d 4 (fun l => g.rp l a || g.rp l b))

/-- `pxor` (R100). -/
def execPxor (u : Bool) (h : Guard) (d a b : BitVec 3) (s : State) : Res :=
  let g := s.grp
  .next (s.setPreds u h d 4 (fun l => g.rp l a != g.rp l b))

/-- `pnot` (R100). -/
def execPnot (u : Bool) (h : Guard) (d a : BitVec 3) (s : State) : Res :=
  let g := s.grp
  .next (s.setPreds u h d 4 (fun l => !g.rp l a))

/-- The operand of form I: imm14, or the low half of the 36 bits of a WIDE hint (R33, R97). -/
def Group.immI (g : Group) (i : BitVec 14) : Word :=
  match g.wide with
  | some p => (p ++ i : BitVec 36).setWidth 32
  | none => i.signExtend 32

/-- `movi` (R97). -/
def execMovi (u : Bool) (h : Guard) (d : Reg) (i : BitVec 14) (s : State) : Res :=
  let g := s.grp
  .next (s.alu u h d 4 (fun _ => g.immI i))

/-- `movh` (R97): into d + 1. -/
def execMovh (u : Bool) (h : Guard) (d : Reg) (i : BitVec 14) (s : State) : Res :=
  let g := s.grp
  .next (s.alu u h (d + 1) 4 (fun _ => g.immI i))

end Sys2Proof.Machine
end

