-- ==== Sys2Proof/Machine/Special.lean ====
section
/-! DEFINITION. The special functions of R130 to R132: exact cases first, every other result correctly rounded. A value that is
not exact is enclosed between two rationals whose roundings agree; the enclosure is computed in fixed point with an error count, and
its precision doubles until they do. -/

namespace Sys2Proof.Machine

/-! ### Fixed-point enclosures -/

/-- A value v with |v * 2^p - a| ≤ e. -/
structure Approx where
  a : Int
  e : Nat
  deriving DecidableEq, Repr

/-- The integer square root, by bits from 2^b down. -/
def isqrtFrom (n : Nat) : Nat → Nat → Nat
  | 0, acc => if (acc + 1) * (acc + 1) ≤ n then acc + 1 else acc
  | b + 1, acc => if (acc + 2 ^ (b + 1)) * (acc + 2 ^ (b + 1)) ≤ n then isqrtFrom n b (acc + 2 ^ (b + 1)) else isqrtFrom n b acc

def isqrt (n : Nat) : Nat := isqrtFrom n (Nat.log2 n / 2 + 1) 0

/-- Terms of the series of artanh(1/k) * 2^p: the sum of 2^p / ((2i+1) k^(2i+1)), each term with an error below 2. -/
def artanhInv (p k : Nat) : Nat → Nat → Nat → Nat
  | 0, _, acc => acc
  | fuel + 1, i, acc => artanhInv p k fuel (i + 1) (acc + 2 ^ p / ((2 * i + 1) * k ^ (2 * i + 1)))

/-- ln 2 = 2 artanh(1/3). -/
def ln2Approx (p : Nat) : Approx := ⟨2 * (artanhInv p 3 (p / 3 + 2) 0 0 : Int), 2 * (p / 3 + 4)⟩

/-- The alternating sum for arctan(1/k) * 2^p. -/
def arctanInv (p k : Nat) : Nat → Nat → Int → Int
  | 0, _, acc => acc
  | fuel + 1, i, acc =>
    let t : Int := (2 ^ p / ((2 * i + 1) * k ^ (2 * i + 1)) : Nat)
    arctanInv p k fuel (i + 1) (if i % 2 = 0 then acc + t else acc - t)

/-- π = 16 arctan(1/5) - 4 arctan(1/239). -/
def piApprox (p : Nat) : Approx :=
  ⟨16 * arctanInv p 5 (p / 4 + 2) 0 0 - 4 * arctanInv p 239 (p / 15 + 2) 0 0, 20 * (p / 4 + 4)⟩

/-- The product of two approximations at precision p, both below 2^(p+3) in magnitude. -/
def Approx.mul (p : Nat) (x y : Approx) : Approx :=
  ⟨x.a * y.a / (2 ^ p : Int), (x.e * (y.a.natAbs + y.e) + y.e * x.a.natAbs) / 2 ^ p + 2⟩

/-- n / d as an approximation. -/
def Approx.ofRatio (p : Nat) (n : Int) (d : Nat) : Approx := ⟨n * (2 ^ p : Int) / (d : Int), 1⟩

/-- Sum of x^i / i! from the current term on; `t` is the term. -/
def expTerms (p : Nat) (x : Approx) : Nat → Nat → Approx → Approx → Approx
  | 0, _, _, acc => ⟨acc.a, acc.e + 2⟩
  | fuel + 1, i, t, acc =>
    let t' := Approx.mul p t x
    let t' : Approx := ⟨t'.a / ((i + 1 : Nat) : Int), t'.e / (i + 1) + 2⟩
    expTerms p x fuel (i + 1) t' ⟨acc.a + t'.a, acc.e + t'.e⟩

/-- e^x for |x| < 1, with p / 4 + 20 terms. -/
def expApprox (p : Nat) (x : Approx) : Approx := expTerms p x (p / 4 + 20) 0 ⟨2 ^ p, 0⟩ ⟨2 ^ p, 0⟩

/-- Sum of the alternating series with terms t, t x²/((i+1)(i+2)), … for sine (i = 1) and cosine (i = 0). -/
def trigTerms (p : Nat) (x2 : Approx) : Nat → Nat → Bool → Approx → Approx → Approx
  | 0, _, _, _, acc => ⟨acc.a, acc.e + 2⟩
  | fuel + 1, i, neg, t, acc =>
    let t' := Approx.mul p t x2
    let t' : Approx := ⟨t'.a / (((i + 1) * (i + 2) : Nat) : Int), t'.e / ((i + 1) * (i + 2)) + 2⟩
    trigTerms p x2 fuel (i + 2) (!neg) t' ⟨if neg then acc.a - t'.a else acc.a + t'.a, acc.e + t'.e⟩

def sinApprox (p : Nat) (x : Approx) : Approx := trigTerms p (Approx.mul p x x) (p / 6 + 12) 1 true x x
def cosApprox (p : Nat) (x : Approx) : Approx := trigTerms p (Approx.mul p x x) (p / 6 + 12) 0 true ⟨2 ^ p, 0⟩ ⟨2 ^ p, 0⟩

/-- 2 artanh(z) for 0 ≤ z ≤ 1/3: the sum of 2 z^(2i+1)/(2i+1). -/
def artanhTerms (p : Nat) (z2 : Approx) : Nat → Nat → Approx → Approx → Approx
  | 0, _, _, acc => ⟨2 * acc.a, 2 * acc.e + 4⟩
  | fuel + 1, i, t, acc =>
    let t' := Approx.mul p t z2
    artanhTerms p z2 fuel (i + 1) t' ⟨acc.a + t'.a / ((2 * i + 3 : Nat) : Int), acc.e + t'.e + 1⟩

/-! ### Rounding an enclosed value -/

/-- An integer over 2^p as an exact value. -/
def fixedExact (p : Nat) (a : Int) : Exact := ⟨decide (a < 0), a.natAbs, 2 ^ p⟩

/-- Round a value known to be no exact case, from ever finer enclosures; INX is set because it is not exact (R131). (DEDUCED, log 56) -/
def roundEnclosed (sat : Bool) (f : Nat → Approx) : Nat → Nat → FRes
  | 0, p =>
    let x := f p
    let r := deliver (layoutOf .f32) .rn sat (fixedExact p x.a)
    ⟨r.bits, r.fl ||| flagINX⟩
  | fuel + 1, p =>
    let x := f p
    let lo := deliver (layoutOf .f32) .rn sat (fixedExact p (x.a - x.e))
    let hi := deliver (layoutOf .f32) .rn sat (fixedExact p (x.a + x.e))
    if lo.bits = hi.bits then ⟨lo.bits, lo.fl ||| hi.fl ||| flagINX⟩ else roundEnclosed sat f fuel (2 * p)

/-- The precisions tried: 320, 640, … bits. -/
def enclose (sat : Bool) (f : Nat → Approx) : FRes := roundEnclosed sat f 5 320

/-! ### The functions -/

def fNaN : FRes := ⟨(layoutOf .f32).nan, 0#4⟩
def fInvalid : FRes := ⟨(layoutOf .f32).nan, flagINV⟩
def fInf (s : Bool) : FRes := ⟨(layoutOf .f32).infinity s, 0#4⟩
def fZero (s : Bool) : FRes := ⟨(layoutOf .f32).signBit s, 0#4⟩

/-- Deliver an exact value in FP32. -/
def fExact (m : RMode) (sat : Bool) (x : Exact) : FRes := deliver (layoutOf .f32) m sat x

/-- `rcp` (R132): the exact quotient, rounded. -/
def rcpF (sat : Bool) (x : FVal) : FRes :=
  match x with
  | .nan => fNaN
  | .inf s => fZero s
  | .fin x => if x.n = 0 then fInf x.s else fExact .rn sat ⟨x.s, x.d, x.n⟩

/-- √(n/d) rounded in mode m: the root of n * 4^k / d to 200 bits below, with the lost part as one more bit. -/
def sqrtExact (m : RMode) (n d : Nat) : FRes :=
  let t := n * 2 ^ 600 / d
  let r := isqrt t
  let whole : Bool := decide (r * r * d = n * 2 ^ 600)
  fExact m false (if whole then ⟨false, r, 2 ^ 300⟩ else ⟨false, 2 * r + 1, 2 ^ 301⟩)

/-- `sqrt` (R132). -/
def sqrtF (m : RMode) (x : FVal) : FRes :=
  match x with
  | .nan => fNaN
  | .inf s => if s then fInvalid else fInf false
  | .fin x => if x.n = 0 then fZero x.s else if x.s then fInvalid else sqrtExact m x.n x.d

/-- `rsqrt` (R132). -/
def rsqrtF (x : FVal) : FRes :=
  match x with
  | .nan => fNaN
  | .inf s => if s then fInvalid else fZero false
  | .fin x => if x.n = 0 then fInf x.s else if x.s then fInvalid else sqrtExact .rn x.d x.n

/-- 2^(n/d) for a fractional exponent in the working range: 2^i * e^(f ln 2). -/
def exp2Approx (x : Exact) (p : Nat) : Approx :=
  let i : Int := x.num / (x.d : Int)
  let f := Approx.mul p (Approx.ofRatio p (x.num - i * (x.d : Int)) x.d) (ln2Approx p)
  let r := expApprox p f
  if 0 ≤ i then ⟨r.a * 2 ^ i.toNat, r.e * 2 ^ i.toNat⟩ else ⟨r.a / 2 ^ (-i).toNat, r.e / 2 ^ (-i).toNat + 2⟩

/-- `exp2` (R132). Beyond 128 it overflows as `Deliver` gives; below -200 it rounds to +0 with INX. -/
def exp2F (sat : Bool) (x : FVal) : FRes :=
  match x with
  | .nan => fNaN
  | .inf s => if s then fZero false else fInf false
  | .fin x =>
    if !(x.lt ⟨false, 128, 1⟩) then fExact .rn sat ⟨false, 2 ^ 128, 1⟩
    else if x.lt ⟨true, 200, 1⟩ then fExact .rn sat ⟨false, 1, 2 ^ 200⟩
    else if x.n % x.d = 0 then
      let i : Int := x.num / (x.d : Int)
      fExact .rn sat (Exact.dyadic false 1 i)
    else enclose sat (exp2Approx x)

/-- log₂(n/d) = e + 2 artanh((m-1)/(m+1)) / ln 2 with n/d = m * 2^e, 1 ≤ m < 2. -/
def log2Approx (n d : Nat) (p : Nat) : Approx :=
  let e := log2Ratio n d
  let n' := if 0 ≤ e then n else n * 2 ^ (-e).toNat
  let d' := if 0 ≤ e then d * 2 ^ e.toNat else d
  let z := Approx.ofRatio p ((n' : Int) - d') (n' + d')
  let l := artanhTerms p (Approx.mul p z z) (p / 3 + 4) 0 z z
  let c := ln2Approx p
  ⟨l.a * (2 ^ p : Int) / c.a + e * (2 ^ p : Int), 2 * (l.e + 1) + 4 * c.e + 4⟩

/-- `log2` (R132). -/
def log2F (x : FVal) : FRes :=
  match x with
  | .nan => fNaN
  | .inf s => if s then fInvalid else fInf false
  | .fin x =>
    if x.n = 0 then fInf true
    else if x.s then fInvalid
    else
      let e := log2Ratio x.n x.d
      if (Exact.mk false x.n x.d).eqv (Exact.dyadic false 1 e) then fExact .rn false (Exact.ofInt e)
      else enclose false (log2Approx x.n x.d)

/-- For x = n/d in magnitude: its nearest integer below and the fraction over d. -/
def sinpiMag (s : Bool) (n d : Nat) (p : Nat) : Approx :=
  let q := n / d
  let r := n % d
  let r' := if d < 2 * r then d - r else r
  let y := sinApprox p (Approx.mul p (piApprox p) (Approx.ofRatio p r' d))
  if (s != decide (q % 2 = 1)) then ⟨-y.a, y.e⟩ else y

/-- `sinpi` (R132). -/
def sinpiF (x : FVal) : FRes :=
  match x with
  | .nan => fNaN
  | .inf _ => fInvalid
  | .fin x =>
    if x.n % x.d = 0 then fZero x.s
    else if 2 * x.n % x.d = 0 then
      let i : Int := x.num / (x.d : Int)
      fExact .rn false ⟨decide (i % 2 = 1), 1, 1⟩
    else enclose false (sinpiMag x.s x.n x.d)

def cospiMag (n d : Nat) (p : Nat) : Approx :=
  let q := n / d
  let r := n % d
  let y := if d < 2 * r then
      let c := cosApprox p (Approx.mul p (piApprox p) (Approx.ofRatio p (d - r) d))
      (⟨-c.a, c.e⟩ : Approx)
    else cosApprox p (Approx.mul p (piApprox p) (Approx.ofRatio p r d))
  if q % 2 = 1 then ⟨-y.a, y.e⟩ else y

/-- `cospi` (R132). -/
def cospiF (x : FVal) : FRes :=
  match x with
  | .nan => fNaN
  | .inf _ => fInvalid
  | .fin x =>
    if x.n % x.d = 0 then fExact .rn false ⟨decide (x.n / x.d % 2 = 1), 1, 1⟩
    else if 2 * x.n % x.d = 0 then fZero false
    else enclose false (cospiMag x.n x.d)

/-- e^(2n/d) for n/d below 16: (e^(n/(32 d)))^64 by squaring six times. -/
def expDouble (n d : Nat) (p : Nat) : Approx :=
  let r := expApprox p (Approx.ofRatio p n (32 * d))
  let sq (x : Approx) := Approx.mul p x x
  sq (sq (sq (sq (sq (sq r)))))

/-- tanh(n/d) = 1 - 2 / (e^(2n/d) + 1), for 0 < n/d < 16. -/
def tanhApprox (s : Bool) (n d : Nat) (p : Nat) : Approx :=
  let t := expDouble n d p
  let den : Int := t.a + 2 ^ p
  let y : Int := 2 ^ p - 2 * 2 ^ p * 2 ^ p / den
  ⟨if s then -y else y, t.e + 4⟩

/-- `tanh` (R132). From 16 on it lies within 2^-40 of ±1, so it rounds to ±1 with INX. -/
def tanhF (x : FVal) : FRes :=
  match x with
  | .nan => fNaN
  | .inf s => fExact .rn false ⟨s, 1, 1⟩
  | .fin x =>
    if x.n = 0 then fZero x.s
    else if 16 * x.d ≤ x.n then fExact .rn false ⟨x.s, 2 ^ 40 - 1, 2 ^ 40⟩
    else enclose false (tanhApprox x.s x.n x.d)

end Sys2Proof.Machine
end

