-- ==== Sys2Proof/Machine/FloatOps.lean ====
section
/-! DEFINITION. Floating-point instructions: majors 0x30 to 0x3C (R116 to R132). -/

namespace Sys2Proof.Machine

/-- An FP32 result as 32 bits with its flags. -/
def FRes.word (r : FRes) : IRes 32 := ⟨BitVec.ofNat 32 r.bits, r.fl⟩

/-- OpA() and OpB() as FP32 values (R116). -/
def Group.fA (g : Group) (l : Lane) (a : Reg) : FVal := f32Val (g.opAF l a)
def Group.fB (g : Group) (l : Lane) (b : BSel) : FVal := f32Val (g.opBM l b)

/-- The addend d with NEGD applied (R116). -/
def Group.fD (g : Group) (l : Lane) (d : Reg) : FVal := f32Val (modWord false g.modf.negd (g.rd l d))

/-- `fadd` (R121). -/
def execFadd (u : Bool) (h : Guard) (d a : Reg) (b : BSel) (s : State) : Res :=
  let g := s.grp
  .next (s.aluF u h d 12 (fun l => (addF (layoutOf .f32) g.mode g.modf.sat (g.fA l a) (g.fB l b)).word))

/-- `fsub` (R121). -/
def execFsub (u : Bool) (h : Guard) (d a : Reg) (b : BSel) (s : State) : Res :=
  let g := s.grp
  .next (s.aluF u h d 12 (fun l => (addF (layoutOf .f32) g.mode g.modf.sat (g.fA l a) (g.fB l b).neg).word))

/-- `fmul` (R121). -/
def execFmul (u : Bool) (h : Guard) (d a : Reg) (b : BSel) (s : State) : Res :=
  let g := s.grp
  .next (s.aluF u h d 12 (fun l => (mulF (layoutOf .f32) g.mode g.modf.sat (g.fA l a) (g.fB l b)).word))

/-- `ffma` (R121). -/
def execFfma (u : Bool) (h : Guard) (d a : Reg) (b : BSel) (s : State) : Res :=
  let g := s.grp
  .next (s.aluF u h d 12 (fun l => (fmaF (layoutOf .f32) g.mode g.modf.sat (g.fA l a) (g.fB l b) (g.fD l d)).word))

/-- `fmin` (R122): one of the operands after modifiers, bit for bit; no flag. -/
def execFmin (u : Bool) (h : Guard) (d a : Reg) (b : BSel) (s : State) : Res :=
  let g := s.grp
  .next (s.alu u h d 12 (fun l => fminBits (g.opAF l a) (g.opBM l b)))

/-- `fmax` (R122): one of the operands after modifiers, bit for bit; no flag. -/
def execFmax (u : Bool) (h : Guard) (d a : Reg) (b : BSel) (s : State) : Res :=
  let g := s.grp
  .next (s.alu u h d 12 (fun l => fmaxBits (g.opAF l a) (g.opBM l b)))

/-- `fneg` (R123). -/
def execFneg (u : Bool) (h : Guard) (d a : Reg) (s : State) : Res :=
  let g := s.grp
  .next (s.alu u h d 12 (fun l => f32Code (g.fA l a).neg))

/-- `fabs` (R123). -/
def execFabs (u : Bool) (h : Guard) (d a : Reg) (s : State) : Res :=
  let g := s.grp
  .next (s.alu u h d 12 (fun l => f32Code (g.fA l a).abs))

/-- `fclass` (R124). -/
def execFclass (u : Bool) (h : Guard) (d a : Reg) (s : State) : Res :=
  let g := s.grp
  .next (s.alu u h d 12 (fun l => fclassMask (g.rd l a)))

/-- `frnd.rn` (R123). -/
def execFrndRn (u : Bool) (h : Guard) (d a : Reg) (s : State) : Res :=
  let g := s.grp
  .next (s.alu u h d 12 (fun l => f32Code (frndVal .rn (g.fA l a))))

/-- `frnd.rz` (R123). -/
def execFrndRz (u : Bool) (h : Guard) (d a : Reg) (s : State) : Res :=
  let g := s.grp
  .next (s.alu u h d 12 (fun l => f32Code (frndVal .rz (g.fA l a))))

/-- `frnd.rd` (R123). -/
def execFrndRd (u : Bool) (h : Guard) (d a : Reg) (s : State) : Res :=
  let g := s.grp
  .next (s.alu u h d 12 (fun l => f32Code (frndVal .rdn (g.fA l a))))

/-- `frnd.ru` (R123). -/
def execFrndRu (u : Bool) (h : Guard) (d a : Reg) (s : State) : Res :=
  let g := s.grp
  .next (s.alu u h d 12 (fun l => f32Code (frndVal .rup (g.fA l a))))

/-- `rcp` (R130 to R132). -/
def execRcp (u : Bool) (h : Guard) (d a : Reg) (s : State) : Res :=
  let g := s.grp
  .next (s.aluF u h d 28 (fun l => (rcpF g.modf.sat (g.fA l a)).word))

/-- `rsqrt` (R130 to R132). -/
def execRsqrt (u : Bool) (h : Guard) (d a : Reg) (s : State) : Res :=
  let g := s.grp
  .next (s.aluF u h d 28 (fun l => (rsqrtF (g.fA l a)).word))

/-- `sqrt` (R130 to R132). -/
def execSqrt (u : Bool) (h : Guard) (d a : Reg) (s : State) : Res :=
  let g := s.grp
  .next (s.aluF u h d 28 (fun l => (sqrtF g.mode (g.fA l a)).word))

/-- `exp2` (R130 to R132). -/
def execExp2 (u : Bool) (h : Guard) (d a : Reg) (s : State) : Res :=
  let g := s.grp
  .next (s.aluF u h d 28 (fun l => (exp2F g.modf.sat (g.fA l a)).word))

/-- `log2` (R130 to R132). -/
def execLog2 (u : Bool) (h : Guard) (d a : Reg) (s : State) : Res :=
  let g := s.grp
  .next (s.aluF u h d 28 (fun l => (log2F (g.fA l a)).word))

/-- `sinpi` (R130 to R132). -/
def execSinpi (u : Bool) (h : Guard) (d a : Reg) (s : State) : Res :=
  let g := s.grp
  .next (s.aluF u h d 28 (fun l => (sinpiF (g.fA l a)).word))

/-- `cospi` (R130 to R132). -/
def execCospi (u : Bool) (h : Guard) (d a : Reg) (s : State) : Res :=
  let g := s.grp
  .next (s.aluF u h d 28 (fun l => (cospiF (g.fA l a)).word))

/-- `sincospi` (R130, R131): sine to d and cosine to d + 1, their flags ORed. -/
def execSincospi (u : Bool) (h : Guard) (d a : Reg) (s : State) : Res :=
  let g := s.grp
  .next (s.alu64F u h d 28 (fun l =>
    let x := (sinpiF (g.fA l a)).word
    let y := (cospiF (g.fA l a)).word
    ⟨y.val ++ x.val, x.fl ||| y.fl⟩))

/-- `tanh` (R130 to R132). -/
def execTanh (u : Bool) (h : Guard) (d a : Reg) (s : State) : Res :=
  let g := s.grp
  .next (s.aluF u h d 28 (fun l => (tanhF (g.fA l a)).word))

/-- `fcmp` (R125): no flag. -/
def execFcmp (u : Bool) (h : Guard) (c : FCond) (p : BitVec 3) (a : Reg) (b : BSel) (s : State) : Res :=
  let g := s.grp
  .next (s.setPreds u h p 12 (fun l => fcmpTrue c (g.fA l a) (g.fB l b)))

/-! ### Conversions (R126, R127) -/

/-- The source lane of a conversion (R36). -/
def Group.srcLane (g : Group) : Nat :=
  match g.typeHint with
  | some (_, _, a) => a.toNat
  | none => 0

/-- The source code of w bits of a register: a lane, a register, or a pair. -/
def Group.convSrc (g : Group) (l : Lane) (a : Reg) (w : Nat) : Nat :=
  if w = 64 then (g.rd64 l a).toNat else (g.rd l a).toNat / 2 ^ (g.srcLane * w) % 2 ^ w

/-- WriteLane (R127): the word that d holds afterwards, for a result of w bits; `sx` is a signed integer destination. -/
def writeLane (old : Word) (hint : Option (Bool × BitVec 2 × BitVec 2)) (w : Nat) (sx : Bool) (code : Nat) : Word :=
  let v := code % 2 ^ w
  if 32 ≤ w then BitVec.ofNat 32 v else
  match hint with
  | some (keep, d, _) =>
    let lane := lowMask w <<< (d.toNat * w)
    (if keep then old &&& ~~~lane else 0#32) ||| (BitVec.ofNat 32 v <<< (d.toNat * w))
  | none => if sx ∧ 2 ^ (w - 1) ≤ v then BitVec.ofNat 32 v ||| ~~~lowMask w else BitVec.ofNat 32 v

/-- V2 of FLAG_ARM (R15). -/
def Group.v2 (g : Group) : Bool := g.flagArm.getLsbD 0

/-- `fcvt` (R127). -/
def execFcvt (u : Bool) (h : Guard) (d a : Reg) (t y : FType) (s : State) : Res :=
  let g := s.grp
  .next (s.aluF u h d 12 (fun l =>
    let r := convFF y t g.v2 g.mode (g.convSrc l a (ftypeWidth y))
    ⟨writeLane (g.rd l d) g.typeHint (ftypeWidth t) false r.bits, r.fl⟩))

/-- `fcvti` (R127): a 64-bit result goes to Pair(d). -/
def execFcvti (u : Bool) (h : Guard) (d a : Reg) (t : IType) (y : FType) (s : State) : Res :=
  let g := s.grp
  if intWidth t = 64 then
    .next (s.alu64F u h d 12 (fun l =>
      let r := convFI y t g.mode (g.convSrc l a (ftypeWidth y))
      ⟨BitVec.ofNat 64 r.bits, r.fl⟩))
  else
    .next (s.aluF u h d 12 (fun l =>
      let r := convFI y t g.mode (g.convSrc l a (ftypeWidth y))
      ⟨writeLane (g.rd l d) g.typeHint (intWidth t) (intSigned t) r.bits, r.fl⟩))

/-- `icvtf` (R127). -/
def execIcvtf (u : Bool) (h : Guard) (d a : Reg) (t : FType) (y : IType) (s : State) : Res :=
  let g := s.grp
  .next (s.aluF u h d 12 (fun l =>
    let r := convIF y t g.v2 g.mode (g.convSrc l a (intWidth y))
    ⟨writeLane (g.rd l d) g.typeHint (ftypeWidth t) false r.bits, r.fl⟩))

/-! ### Packed half precision (R128, R129) -/

/-- The packed b operand: v0-v63 or g0-g63. -/
def Group.opK (g : Group) (l : Lane) (b : BitVec 7) : Word :=
  if b.getLsbD 6 then g.getG (b.extractLsb' 0 6) else g.rd l (b.extractLsb' 0 6)

/-- FP16, or BF16 where the format bit is set. -/
def fmtK (f : Bool) : FType := if f then .bf16 else .f16

/-- Element i of a packed word, after modifiers on its sign. -/
def elemK (f : Bool) (abs neg : Bool) (w : Word) (i : Nat) : FVal :=
  applyMod abs neg ((layoutOf (fmtK f)).value ((w.extractLsb' (16 * i) 16).toNat))

/-- Two packed results, their flags ORed. -/
def packK (x y : FRes) : IRes 32 := ⟨BitVec.ofNat 16 y.bits ++ BitVec.ofNat 16 x.bits, x.fl ||| y.fl⟩

def Group.kA (g : Group) (f : Bool) (l : Lane) (a : Reg) (i : Nat) : FVal := elemK f g.modf.absa g.modf.nega (g.rd l a) i
def Group.kB (g : Group) (f : Bool) (l : Lane) (b : BitVec 7) (i : Nat) : FVal := elemK f g.modf.absb g.modf.negb (g.opK l b) i
def Group.kD (g : Group) (f : Bool) (l : Lane) (d : Reg) (i : Nat) : FVal := elemK f false g.modf.negd (g.rd l d) i

/-- `hadd2` (R128). -/
def execHadd2 (h : Guard) (d a : Reg) (f g : Bool) (b : BitVec 6) (s : State) : Res :=
  let x := s.grp
  let b7 : BitVec 7 := BitVec.ofBool g ++ b
  let r (l : Lane) (i : Nat) := addF (layoutOf (fmtK f)) x.mode x.modf.sat (x.kA f l a i) (x.kB f l b7 i)
  .next (s.aluF false h d 12 (fun l => packK (r l 0) (r l 1)))

/-- `hmul2` (R128). -/
def execHmul2 (h : Guard) (d a : Reg) (f g : Bool) (b : BitVec 6) (s : State) : Res :=
  let x := s.grp
  let b7 : BitVec 7 := BitVec.ofBool g ++ b
  let r (l : Lane) (i : Nat) := mulF (layoutOf (fmtK f)) x.mode x.modf.sat (x.kA f l a i) (x.kB f l b7 i)
  .next (s.aluF false h d 12 (fun l => packK (r l 0) (r l 1)))

/-- `hfma2` (R128). -/
def execHfma2 (h : Guard) (d a : Reg) (f g : Bool) (b : BitVec 6) (s : State) : Res :=
  let x := s.grp
  let b7 : BitVec 7 := BitVec.ofBool g ++ b
  let r (l : Lane) (i : Nat) := fmaF (layoutOf (fmtK f)) x.mode x.modf.sat (x.kA f l a i) (x.kB f l b7 i) (x.kD f l d i)
  .next (s.aluF false h d 12 (fun l => packK (r l 0) (r l 1)))

/-- `dot2` (R129): both products and the FP32 addend, rounded once. -/
def execDot2 (h : Guard) (d a : Reg) (f g : Bool) (b : BitVec 6) (s : State) : Res :=
  let x := s.grp
  let b7 : BitVec 7 := BitVec.ofBool g ++ b
  .next (s.aluF false h d 12 (fun l =>
    (dot2F x.mode x.modf.sat (x.kA f l a 0) (x.kB f l b7 0) (x.kA f l a 1) (x.kB f l b7 1) (x.fD l d)).word))

end Sys2Proof.Machine
end

