-- ==== Sys2Proof/Machine/Mem.lean ====
section
/-! DEFINITION. Memory: the spaces of the virtual map, physical placement, the page walk, the checks of an access, horizons, the values loads
return and the effects of stores, atomics and trigger counters (R180 to R197, R205 to R213, R221, R229, R250 to R252, R311). -/

namespace Sys2Proof.Machine

/-! ### The virtual map (R180) -/

/-- The space an address below 2^56 lies in. -/
inductive Space where
  | memory | scratch (core off : Nat) | counter (n : Nat) | reserved
  deriving DecidableEq, Repr

def scratchBase : Nat := 0x00F0000000000000
def counterBase : Nat := 0x00F1000000000000

def spaceOf (a : Nat) : Space :=
  if a < scratchBase then .memory
  else if a < scratchBase + 0x10000000 then .scratch ((a - scratchBase) / 0x80000) ((a - scratchBase) % 0x80000)
  else if counterBase ≤ a ∧ a < counterBase + 0x8000 then .counter ((a - counterBase) / 8)
  else .reserved

/-! ### Physical placement (R182, R183) -/

def stripeBase : Nat := 0x1000000000000
def siloBase : Nat := 0x2000000000000

/-- The owner's creation record. -/
def State.part (s : State) (o : Nat) : Option PartRec := (s.ownerAt o).part

/-- StripedToVault (R183) on an address relative to the striped range. -/
def stripedToVault (r : PartRec) (x : Nat) : Option Nat :=
  let n := r.vaults.length
  let j := x / 2048
  match r.vaults[j % n]? with
  | none => none
  | some v => some (v * 0x80000000 + mapGet 0 r.stripes v + j / n * 2048 + x % 2048)

/-- A striped address lies in the owner's striped window (R183). -/
def inStripes (r : PartRec) (pa len : Nat) : Bool :=
  decide (stripeBase ≤ pa) && decide (pa + len ≤ stripeBase + r.stripeLen * r.vaults.length)

/-- The direct or Silo address that holds a physical address's byte. -/
def State.canon (s : State) (o pa : Nat) : Nat :=
  if stripeBase ≤ pa ∧ pa < siloBase then
    match s.part o with
    | none => pa
    | some r => (stripedToVault r (pa - stripeBase)).getD pa
  else pa

/-- A direct frame is populated below offset 0x5968_0000 of its vault's window (R182). -/
def directOk (pa : Nat) : Bool := decide (pa < 0x10000000000) && decide (pa % 0x80000000 < 0x59680000)
/-- Silo is taken as populated to the most the spec allows, 2,048 GB of 10⁹ bytes: how much is attached it does not say (R1, R4, R182; DESIGN
CHOICE, log 63). -/
def siloOk (pa : Nat) : Bool := decide (siloBase ≤ pa) && decide (pa < siloBase + 2048000000000)

/-- The canonical form of memory: addresses strictly rising, no byte listed that reads as an unlisted one does (DESIGN CHOICE, log 4). -/
def Memory.wf (m : List Host.Cell) : Bool := mapWf 0#8 m

/-- One byte of memory; what nothing has written reads as 0 (DESIGN CHOICE, log 4). -/
def State.byte (s : State) (a : Nat) : Byte := mapGet 0#8 s.mem a
def State.bytes (s : State) (a n : Nat) : List Byte := (List.range n).map (fun i => s.byte (a + i))

def putBytes (m : FMap Byte) (a : Nat) : List Byte → FMap Byte
  | [] => m
  | b :: bs => putBytes (mapSet 0#8 m a b) (a + 1) bs

/-- The numbers of the 32-byte sectors that n bytes from a place touch. -/
def sectorsOf (a n : Nat) : List Nat := (List.range ((a % 32 + n + 31) / 32)).map (fun i => a / 32 + i)

/-- CRC-16 with polynomial 0x1021, initial value 0xFFFF, no reflection and no final XOR (R200). -/
def crcStep (c : BitVec 16) : BitVec 16 := if c.getLsbD 15 then (c <<< 1) ^^^ 0x1021#16 else c <<< 1
def crcByte (c : BitVec 16) (b : Byte) : BitVec 16 := (List.range 8).foldl (fun c _ => crcStep c) (c ^^^ (b ++ 0#8))
def crc16 (bs : List Byte) : BitVec 16 := bs.foldl crcByte 0xFFFF#16

/-- Sectors written get new check values, those of the bytes they then hold, and hold no error any more (R200). -/
def State.freshSectors (s : State) (ks : List Nat) : State :=
  { s with checks := ks.foldl mapErase s.checks, faulty := ks.foldl mapErase s.faulty }

/-- Write bytes of memory. -/
def State.putMem (s : State) (a : Nat) (bs : List Byte) : State :=
  State.freshSectors { s with mem := putBytes s.mem a bs } (sectorsOf a bs.length)

/-- The check value held beside a sector of memory: that of the bytes written to it, unless another is listed (R200). -/
def State.checkOf (s : State) (k : Nat) : BitVec 16 := (mapFind s.checks k).getD (crc16 (s.bytes (32 * k) 32))

/-- What is wrong with a sector (R201): 0 where its check value fails, 1 + SOURCE for an uncorrectable error. A sector read back from Silo
gets a new check value at the port (R200). -/
def State.sectorFault (s : State) (k : Nat) : Option Nat :=
  match mapGet 0 s.faulty k with
  | 0 => if (mapFind s.checks k).isSome && decide (32 * k < siloBase) && decide (s.checkOf k ≠ crc16 (s.bytes (32 * k) 32)) then some 0 else none
  | n + 1 => some (n + 1)

/-! ### Translation (R189 to R191, R195) -/

/-- What an access asks of a page and of a lease. -/
structure Want where
  r : Bool
  w : Bool
  x : Bool
  deriving DecidableEq, Repr

def wantLoad : Want := ⟨true, false, false⟩
def wantStore : Want := ⟨false, true, false⟩
def wantBoth : Want := ⟨true, true, false⟩
def wantFetch : Want := ⟨false, false, true⟩

/-- The detail codes of R192. -/
def codeNonCanonical : Nat := 0
def codeMisaligned : Nat := 1
def codeUnmapped : Nat := 2
def codePermission : Nat := 3
def codeOwner : Nat := 4
def codeTable : Nat := 5
def codeLease : Nat := 6
def codeScratch : Nat := 7
def codeGuard : Nat := 8

/-- The lease permits the kind and covers the address. -/
def Lease.covers (l : Lease) (w : Want) (a len : Nat) : Bool :=
  l.resident && decide (l.base ≤ a) && decide (a + len ≤ l.base + l.len) && (!w.r || l.r) && (!w.w || l.w) && (!w.x || l.x)

def coveredBy (ls : List Lease) (w : Want) (a len : Nat) : Bool := ls.any (fun l => l.covers w a len)

/-- The leaf a translation found: the address it gives, where its entry stands, the entry, the entry with A and D set, the size of its page in
bits, and the addresses of the entries that the walker has read, none where the TLB served it. -/
structure Leaf where
  pa : Nat
  at_ : Nat
  entry : Nat
  next : Nat
  bits : Nat
  path : List Nat
  deriving DecidableEq, Repr

def pteBit (e i : Nat) : Bool := e.testBit i
def pteFrame (e : Nat) : Nat := e / 2 ^ 16 % 2 ^ 36
def pteOwner (e : Nat) : Nat := e / 2 ^ 10 % 64

/-- The index of a level (R189). -/
def pteIndex (va : Nat) (lvl : Nat) : Nat :=
  match lvl with
  | 4 => va / 2 ^ 43 % 8192
  | 3 => va / 2 ^ 30 % 8192
  | 2 => va / 2 ^ 21 % 512
  | _ => va / 2 ^ 16 % 32

def pageBits (lvl : Nat) : Nat :=
  match lvl with
  | 3 => 30
  | 2 => 21
  | _ => 16

/-- WellFormed (R191) of a leaf. -/
def pteWellFormed (r : PartRec) (e lvl : Nat) : Bool :=
  let f := pteFrame e
  let pa := f * 65536
  let size := 2 ^ pageBits lvl
  let place := match pteBit e 8, pteBit e 9 with
    | true, false => siloOk pa && siloOk (pa + size - 1)
    | true, true => false
    | false, true => directOk pa && directOk (pa + size - 1)
    | false, false => inStripes r pa size
  decide (e / 2 ^ 52 = 0) && decide (pa % size = 0) && place && (pteBit e 7 || decide (r.kind ≠ .isolated))

/-- A leaf entry permits what an access asks for. -/
def pteGrants (e : Nat) (w : Want) : Bool := (!w.r || pteBit e 2) && (!w.w || pteBit e 3) && (!w.x || pteBit e 4)

/-- `Translate` (R191) from a table address, for the levels from lvl down; `path` lists the entries read. -/
def State.walkFrom (s : State) (r : PartRec) (va : Nat) (w : Want) : Nat → Nat → List Nat → Except Nat Leaf
  | 0, _, _ => .error codeTable
  | n + 1, addr, path =>
    let lvl := n + 1
    let ea := s.canon r.owner (addr + 8 * pteIndex va lvl)
    let e := ofBytes (s.bytes ea 8)
    if !pteBit e 0 then .error codeUnmapped
    else if pteOwner e ≠ r.owner then .error codeOwner
    else if !pteBit e 1 then
      if lvl = 1 ∨ e / 4 % 256 ≠ 0 ∨ e / 2 ^ 52 ≠ 0 then .error codeTable else s.walkFrom r va w n (pteFrame e * 65536) (path ++ [ea])
    else if lvl = 4 ∨ !pteWellFormed r e lvl then .error codeTable
    else if !pteGrants e w then .error codePermission
    else .ok ⟨s.canon r.owner (pteFrame e * 65536 + va % 2 ^ pageBits lvl), ea, e, e ||| (if w.w then 0x60 else 0x20), pageBits lvl, path ++ [ea]⟩

def State.walk (s : State) (o va : Nat) (w : Want) : Except Nat Leaf :=
  match s.part o with
  | none => .error codeUnmapped
  | some r => s.walkFrom r va w 4 r.root []

/-- The entries that a walk from a table address reads, however it ends (R191). -/
def State.walkReads (s : State) (r : PartRec) (va : Nat) : Nat → Nat → List Nat
  | 0, _ => []
  | n + 1, addr =>
    let lvl := n + 1
    let ea := s.canon r.owner (addr + 8 * pteIndex va lvl)
    let e := ofBytes (s.bytes ea 8)
    if pteBit e 0 && decide (pteOwner e = r.owner) && !pteBit e 1 && decide (lvl ≠ 1) && decide (e / 4 % 256 = 0) && decide (e / 2 ^ 52 = 0) then
      ea :: s.walkReads r va n (pteFrame e * 65536)
    else [ea]

/-- The entry of a core's TLB that holds an owner's address (R193). -/
def State.tlbHit (s : State) (o c va : Nat) : Option TlbEntry :=
  s.tlb.find? (fun e => decide (e.owner = o) && decide (e.core = c) && decide (e.base ≤ va) && decide (va < e.base + 2 ^ e.bits))

/-- The leaf of an address as the TLB of a logical core gives it, if it does, else as a walk does. A hit on an entry whose A bit, or for a store D
bit, is 0 walks again (R193; DEDUCED, log 80). -/
def State.leafOn (s : State) (c : Option Nat) (o va : Nat) (w : Want) : Except Nat Leaf :=
  match c.bind (fun c => s.tlbHit o c va) with
  | none => s.walk o va w
  | some e =>
    if !pteBit e.entry 5 || (w.w && !pteBit e.entry 6) then s.walk o va w
    else if !pteGrants e.entry w then .error codePermission
    else .ok ⟨s.canon o (pteFrame e.entry * 65536 + va % 2 ^ e.bits), e.at_, e.entry, e.entry, e.bits, []⟩

/-- Translate, through the TLB of a logical core or an engine's own walk, with the leases the access must lie in. -/
def State.translate (s : State) (c : Option Nat) (ls : List Lease) (o va len : Nat) (w : Want) : Except Nat Leaf :=
  if coveredBy ls w va len then s.leafOn c o va w else .error codeLease

/-- The entries that the walker reads for an access of a logical core: none outside the leases or where the TLB serves it (R191, R193). -/
def State.readsFor (s : State) (c : Option Nat) (ls : List Lease) (o va len : Nat) (w : Want) : List Nat :=
  if !coveredBy ls w va len then [] else
  match c.bind (fun c => s.tlbHit o c va), s.part o with
  | some e, some r => if !pteBit e.entry 5 || (w.w && !pteBit e.entry 6) then s.walkReads r va 4 r.root else []
  | none, some r => s.walkReads r va 4 r.root
  | _, none => []

/-- The walker sets A and D in the entry and in the TLBs that hold it. -/
def State.markLeaf (s : State) (x : Leaf) : State :=
  if x.next = x.entry then s else
  { s.putMem x.at_ (leBytes 8 x.next) with tlb := s.tlb.map (fun e => if e.at_ = x.at_ then { e with entry := x.next } else e) }

/-! ### Shares and places on the core (R196, R197, R429) -/

def State.shareOf (s : State) (o c : Nat) : Option CoreShare :=
  match s.part o with
  | none => none
  | some r => r.shares.find? (fun x => decide (x.core = c))

/-- The owner holds a workgroup on a logical core (R196). -/
def State.holdsCore (s : State) (o c : Nat) : Bool := s.wgs.any (fun p => p.2.live && !p.2.done && decide (p.2.owner = o) && decide (p.2.core = c))

/-- The padded size of the scratch allocation an owner holds on a logical core, 0 when none. -/
def State.allocOn (s : State) (o c : Nat) : Nat :=
  match s.wgs.find? (fun p => p.2.live && !p.2.done && decide (p.2.owner = o) && decide (p.2.core = c) && decide (p.2.scratch ≠ 0)) with
  | some p => p.2.scratch
  | none => 0

/-- An offset lies in a guard granule (R196). -/
def guarded (alloc off : Nat) : Bool := decide (off < 64) || decide (64 + alloc ≤ off)

def scrKey (core off : Nat) : Nat := core * 0x80000 + off

/-- The slice's bytes from an offset. -/
def State.scrBytes (s : State) (core off n : Nat) : List Byte := (List.range n).map (fun i => mapGet 0#8 s.scratch (scrKey core (off + i)))
/-- The number of a sector of a slice, beyond those of memory. -/
def scrSector (core off : Nat) : Nat := 2 ^ 52 + scrKey core off / 32

def State.putScr (s : State) (core off : Nat) (bs : List Byte) : State :=
  State.freshSectors { s with scratch := putBytes s.scratch (scrKey core off) bs } ((sectorsOf off bs.length).map (fun k => scrSector core (32 * k)))

/-- What is wrong with a sector of a slice (R201). -/
def State.scrFault (s : State) (core k : Nat) : Option Nat :=
  let n := scrSector core (32 * k)
  match mapGet 0 s.faulty n with
  | 0 => match mapFind s.checks n with
    | none => none
    | some c => if c ≠ crc16 (s.scrBytes core (32 * k) 32) then some 0 else none
  | m + 1 => some (m + 1)

/-- A 512-byte granule of a slice is engine-owned (R216). -/
def State.scrHeld (s : State) (core off n : Nat) : Bool :=
  (List.range ((off + n - 1) / 512 - off / 512 + 1)).any (fun i => mapGet false s.engScr (core * 1024 + off / 512 + i))

/-! ### The checks of an access (R110, R226, R232) -/

/-- A checked access: its place, the logical core of a scratch slice, whether it is guarded, the leaf of a memory address. -/
structure Hit where
  va : Nat
  place : Place
  core : Nat := 0
  off : Nat := 0
  leaf : Option Leaf := none
  deriving DecidableEq, Repr

/-- The checks for one thread. `inWindow` is false where the address sum of R226 leaves the scratch window; `ldc` asks for a read-only page. -/
def State.checkAccess (s : State) (g : Group) (va : Dword) (inWindow : Bool) (size : Nat) (w : Want) (ldc : Bool) : Except Nat Hit :=
  let a := va.toNat
  if !inWindow then .error codeScratch
  else if 2 ^ 56 ≤ a then .error codeNonCanonical
  else if a % size ≠ 0 then .error codeMisaligned
  else match spaceOf a with
  | .memory =>
    match s.translate (some g.core) (s.launchAt g.launch).leases g.owner a size w with
    | .error c => .error c
    | .ok x => if ldc && pteBit x.entry 3 then .error codePermission else .ok { va := a, place := .mem x.pa, leaf := some x }
  | .scratch c off =>
    if ldc then .error codePermission else
    match s.shareOf g.owner c with
    | none => .error codeScratch
    | some sh =>
      if sh.scratchLen ≤ off ∨ !s.holdsCore g.owner c then .error codeScratch
      else if guarded (s.allocOn g.owner c) off then .ok { va := a, place := .guard, core := c, off := off }
      else .ok { va := a, place := .scr (s.phys g.owner c) (sh.scratchBase + off), core := c, off := off }
  | .counter n =>
    if ldc then .error codePermission else if size ≠ 8 then .error codeMisaligned else .ok { va := a, place := .ctr n }
  | .reserved => .error codeUnmapped

/-! ### Classes and horizons (R184 to R186) -/

/-- Hops between logical cores on the grid of R186. -/
def hops (a b : Nat) : Nat :=
  let row (c : Nat) := quadrantOf c % 4 / 2 * 4 + rowOf c
  let col (c : Nat) := quadrantOf c % 2 * 8 + colOf c
  (max (row a) (row b) - min (row a) (row b)) + (max (col a) (col b) - min (col a) (col b)) + (if dieOf a = dieOf b then 0 else 24)

/-- The vault beneath which a line has its home (R185). -/
def State.homeVault (s : State) (o pa : Nat) : Nat :=
  if pa < siloBase then pa / 0x80000000 else
  match s.part o with
  | none => 0
  | some r => (r.vaults[(pa - siloBase) / 2048 % r.vaults.length]?).getD 0

/-- The logical core of an owner that a vault lies above, by its creation record: a later remap changes no class (R186). -/
def State.vaultCore (s : State) (o v : Nat) : Nat :=
  match s.part o with
  | none => v
  | some r => match r.remap.find? (fun p => decide (p.2 = v)) with
    | some p => p.1
    | none => v

/-- The slices of a quadrant that were on when an owner was created (R402). -/
def State.slicesOn (s : State) (o q : Nat) : List Nat := (List.range 8).filter (fun c => !(s.ownerAt o).colsOff.contains (q, c))

/-- The slice of a line's home: quadrant × 8 + the fixed hash over the slices that are on (R185, R402). -/
def State.homeSlice (s : State) (o pa : Nat) : Nat :=
  let q := quadrantOf (s.homeVault o pa)
  let on := s.slicesOn o q
  q * 8 + on.getD ((Config.slice (pa / 128)).toNat % on.length) 0

/-- The ways of a 16-bit mask. -/
def waysOf (m : Nat) : List Nat := (List.range 16).filter (fun i => m.testBit i)

/-- The owner's ways of an L2 slice, and of L1 on a logical core (R184). -/
def State.l2Ways (s : State) (o slice : Nat) : List Nat :=
  match s.part o with
  | none => []
  | some r => waysOf (mapGet 0 r.l2Ways slice)

def State.l1Ways (s : State) (o c : Nat) : List Nat :=
  match s.shareOf o c with
  | none => []
  | some sh => waysOf sh.l1Ways

def State.l1Line (s : State) (o c pa : Nat) : Option L1Line :=
  s.l1.find? (fun l => decide (l.owner = o) && decide (l.core = c) && decide (l.line = pa / 128))

def State.inL2 (s : State) (o pa : Nat) : Bool := s.l2.any (fun l => decide (l.owner = o) && decide (l.line = pa / 128))

/-- The horizon of a memory line for a group on a logical core, beyond L1. -/
def State.memHorizon (s : State) (o c pa : Nat) : Nat :=
  let v := s.vaultCore o (s.homeVault o pa)
  if s.inL2 o pa then (if dieOf v = dieOf c then 96 else 768)
  else if siloBase ≤ pa then 4096
  else if v = c then 320
  else if quadrantOf v = quadrantOf c then 448
  else if dieOf v = dieOf c then 576
  else 768

/-- The horizon of an access (R186, R181). -/
def State.horizon (s : State) (o c : Nat) (x : Hit) (l1 : Bool) : Nat :=
  match x.place with
  | .mem pa => if l1 then 12 else s.memHorizon o c pa
  | .scr _ _ | .guard => if x.core = c then 8 else 64 + 8 * hops c x.core
  | .ctr _ => 96

/-- The way that a line fills, given the ways that hold something in its set and what CACHE asked for it (R35): of those marked evict-first if
there are any, else of those not marked keep, else any. Which of them is left open (DESIGN CHOICE, log 6). -/
def wayFor (r : Option PartRec) (n : Nat) (ways : List Nat) (used : List (Nat × BitVec 2)) : Nat :=
  let marked (c : BitVec 2) : List Nat := ways.filter (fun w => used.contains (w, c))
  let plain := ways.filter (fun w => !used.contains (w, 2#2))
  let of := if !(marked 1#2).isEmpty then marked 1#2 else if !plain.isEmpty then plain else ways
  of.getD (Config.way r n % of.length) 0

/-- Fill a line into the owner's L2 ways at its home (R184, R185, R250): it takes the place of what its way holds in its set. A line that is there
already keeps its way and what a CACHE field asked for it (DESIGN CHOICE, log 6). -/
def State.fillL2 (s : State) (o pa : Nat) (cache : BitVec 2) : State :=
  let slice := s.homeSlice o pa
  let ways := s.l2Ways o slice
  let stays := s.inL2 o pa || ways.isEmpty
  let mate (l : L2Line) : Bool := decide (l.owner = o) && decide (l.slice = slice) && decide (Config.l2Set l.line = Config.l2Set (pa / 128))
  let n := s.openOf o (streamL2 slice)
  let way := wayFor (s.part o) n ways ((s.l2.filter mate).map (fun l => (l.way, l.cache)))
  { s with
    l2 := if stays then s.l2 else ⟨o, slice, pa / 128, way, cache⟩ :: s.l2.filter (fun l => !(mate l && decide (l.way = way)))
    opens := if stays then s.opens else mapPut s.opens (openKey o (streamL2 slice)) (n + 1) }

/-- Fill a line into the owner's L1 ways on a logical core; one that is there already keeps its way. -/
def State.fillL1 (s : State) (o c pa : Nat) (cache : BitVec 2) : State :=
  let ways := s.l1Ways o c
  let mate (l : L1Line) : Bool := decide (l.owner = o) && decide (l.core = c) && decide (Config.l1Set l.line = Config.l1Set (pa / 128))
  let way := match s.l1Line o c pa with
    | some l => l.way
    | none => wayFor (s.part o) (s.openOf o (streamL1 c)) ways ((s.l1.filter mate).map (fun l => (l.way, l.cache)))
  { s with
    l1 := if ways.isEmpty then s.l1 else ⟨o, c, pa / 128, way, cache, s.bytes (pa / 128 * 128) 128⟩ :: s.l1.filter (fun l => !(mate l && decide (l.way = way)))
    opens := if ways.isEmpty then s.opens else mapPut s.opens (openKey o (streamL1 c)) (s.openOf o (streamL1 c) + 1) }

/-- The walker has read these entries through the owner's L2 ways (R191). -/
def State.fillPath (s : State) (o : Nat) (path : List Nat) : State := path.foldl (fun s a => s.fillL2 o a 0#2) s

/-- The walker has read a leaf's entries through the owner's L2 ways, and sets A and D (R191). -/
def State.setLeaf (s : State) (o : Nat) (x : Leaf) : State := (s.fillPath o x.path).markLeaf x

/-- Invalidate every line of the owner's L1 ways on a core (R205, R228). -/
def State.dropL1 (s : State) (o c : Nat) : State := { s with l1 := s.l1.filter (fun l => !(decide (l.owner = o) && decide (l.core = c))) }

/-- Invalidate the lines that hold one of these addresses (R217). -/
def State.dropL1Lines (s : State) (o c : Nat) (as : List Nat) : State :=
  { s with l1 := s.l1.filter (fun l => !(decide (l.owner = o) && decide (l.core = c) && as.any (fun a => decide (a / 128 = l.line)))) }

/-- A store updates the line where present (R185). -/
def State.writeL1 (s : State) (o c pa : Nat) (bs : List Byte) : State :=
  { s with l1 := s.l1.map (fun l =>
      if l.owner = o ∧ l.core = c ∧ l.line = pa / 128 then
        { l with data := l.data.take (pa % 128) ++ bs ++ l.data.drop (pa % 128 + bs.length) }
      else l) }

/-! ### Atomic operations (R234, R235) -/

def signedOf (bits n : Nat) : Int := if n < 2 ^ (bits - 1) then (n : Int) else (n : Int) - 2 ^ bits

/-- The new value of the target from its old value and the operands, as numbers of 8 × size bits. -/
def AtomOp.new (op : AtomOp) (old x x2 : Nat) : Nat :=
  match op with
  | .addN32 => (old + x) % 2 ^ 32
  | .addN64 => (old + x) % 2 ^ 64
  | .minI32 => if signedOf 32 x < signedOf 32 old then x else old
  | .maxI32 => if signedOf 32 old < signedOf 32 x then x else old
  | .minN32 => min old x
  | .maxN32 => max old x
  | .or => old ||| x
  | .and => old &&& x
  | .exchB32 | .exchB64 => x
  | .casB32 | .casB64 => if old = x then x2 else old
  | .addF32 => (addF (layoutOf .f32) .rn false (f32Val (BitVec.ofNat 32 old)) (f32Val (BitVec.ofNat 32 x))).bits
  | .minF32 => (fminBits (BitVec.ofNat 32 old) (BitVec.ofNat 32 x)).toNat
  | .maxF32 => (fmaxBits (BitVec.ofNat 32 old) (BitVec.ofNat 32 x)).toNat

def AtomOp.isFloat : AtomOp → Bool
  | .addF32 | .minF32 | .maxF32 => true
  | .addN32 | .addN64 | .minI32 | .maxI32 | .minN32 | .maxN32 | .or | .and | .exchB32 | .casB32 | .exchB64 | .casB64 => false

def AtomOp.size : AtomOp → Nat
  | .addN64 | .exchB64 | .casB64 => 8
  | .addN32 | .minI32 | .maxI32 | .minN32 | .maxN32 | .or | .and | .exchB32 | .casB32 | .addF32 | .minF32 | .maxF32 => 4

/-! ### Commit buffers (R221, R222) -/

/-- One entry applied over an overlay of changed bytes. -/
def CommitEntry.apply (rd : Nat → Byte) (m : FMap Byte) (e : CommitEntry) : FMap Byte :=
  let n := e.value.length
  let old := ofBytes ((List.range n).map (fun i => (mapFind m (e.addr + i)).getD (rd (e.addr + i))))
  let new := match e.op with
    | none => e.value
    | some op => leBytes n (op.new old (ofBytes e.value) 0)
  (new.zipIdx).foldl (fun m p => mapPut m (e.addr + p.2) p.1) m

/-- In ascending group index, within a group in issue order. -/
def commitOrder (es : List CommitEntry) : List CommitEntry :=
  es.inOrder (fun a b => decide (a.group < b.group) || (decide (a.group = b.group) && decide (a.serial ≤ b.serial)))

def commitOverlay (rd : Nat → Byte) (es : List CommitEntry) : FMap Byte := (commitOrder es).foldl (CommitEntry.apply rd) []

/-! ### When accesses are performed (R205, R229) -/

/-- The cycle at which a sent access is performed at workgroup scope or at home. -/
def accPerf (k : AccKind) (w : Nat) (a : Acc) (wg : Bool) : Option Nat :=
  match a.sent with
  | none => none
  | some c => match k, a.place with
    | .store, .mem _ => some (if wg then max c (w + 4) else a.vis)
    | _, _ => some a.vis

/-- The latest of some cycles, none when one is not known. -/
def latest : List (Option Nat) → Option Nat
  | [] => some 0
  | none :: _ => none
  | some x :: xs => (latest xs).map (max x)

def MemOp.perf (op : MemOp) (wg : Bool) : Option Nat := latest (op.accs.map (fun a => accPerf op.kind op.w a wg))
def MemOp.done (op : MemOp) : Bool := op.accs.all (fun a => a.done)
def MemOp.acc (op : MemOp) (t : Nat) : Option Acc := op.accs.find? (fun a => decide (a.thread = t))

/-- Every group of a halted launch has ended: none of its commits is to come (R377). -/
def State.haltedWhole (s : State) (l : Nat) : Bool := (s.launchAt l).halted.isSome && s.groups.all (fun p => decide (p.2.launch ≠ l) || p.2.isEnded)

/-- The workgroups of a launch below an index have committed (R222). -/
def State.committedBelow (s : State) (l idx : Nat) : Bool :=
  decide (idx ≤ (s.launchAt l).placed) && s.wgs.all (fun p => !(decide (p.2.launch = l) && decide (p.2.index < idx)) || p.2.committed)

/-- The cycle, in counts of an island, from which a condition holds: 0 when it holds already, none when that is not known. -/
def State.awaitAt (s : State) (island : Nat) (x : Await) : Option Nat :=
  match x with
  | .op id wg => match mapFind s.ops id with
    | none => some 0
    | some op => if op.done then some 0 else if op.island = island then op.perf wg else none
  | .acc id t wg => match mapFind s.ops id with
    | none => some 0
    | some op => match op.acc t with
      | none => some 0
      | some a => if a.done then some 0 else accPerf op.kind op.w a wg
  | .sent id t => match mapFind s.ops id with
    | none => some 0
    | some op => match op.acc t with
      | none => some 0
      | some a => a.sent
  | .commits l idx => if s.committedBelow l idx || s.haltedWhole l then some 0 else none

def State.awaitAll (s : State) (island : Nat) (xs : List Await) : Option Nat := latest (xs.map (s.awaitAt island))

/-! ### Values of loads (R205, R211, R221, R250) -/

/-- A store comes after another in coherence order (R211): by visible cycle, then as stores of one cycle take effect, by the context of the group
and by issue (DEDUCED, log 48). -/
def laterStore (v r k v' r' k' : Nat) : Bool := decide (v < v') || (decide (v = v') && (decide (r < r') || (decide (r = r') && decide (k ≤ k'))))

/-- An access of a store whose byte at an address has not taken effect. -/
def Acc.holdsByte (x : Acc) (a : Nat) : Bool :=
  match x.place with
  | .mem pa => !x.done && !x.buffered && !x.settled && decide (pa ≤ a) && decide (a < pa + x.size) && !x.gone.contains (a - pa)
  | .scr _ _ | .guard | .ctr _ => false

/-- A store in flight: its number, visible cycle, its group's context, what it holds at the byte that is asked for, and the stores before it. -/
structure QStore where
  id : Nat
  vis : Nat
  rank : Nat
  byte : Byte
  after : List Nat
  deriving DecidableEq, Repr

/-- The stores of the owner in the core's store queue that are performed at workgroup scope by a cycle and hold a byte, each thread's own. -/
def State.queuedAll (s : State) (o c now a : Nat) : List QStore :=
  s.ops.flatMap (fun p =>
    let op := p.2
    if op.kind = .store ∧ op.owner = o ∧ op.core = c then
      (op.accs.filter (fun x => x.holdsByte a && (match x.sent with
        | some c => decide (max c (op.w + 4) ≤ now)
        | none => false))).map (fun x =>
          ⟨p.1, x.vis, (s.groupAt op.gid).lane * 12 + (s.groupAt op.gid).ctx, x.data.getD (match x.place with
            | .mem pa => a - pa
            | .scr _ _ | .guard | .ctr _ => 0) 0#8, op.after⟩)
    else [])

/-- The store of the owner in the core's store queue that a byte shows: of those performed at workgroup scope, the last in coherence order. One that
happens before another of them is not that one (R211). (DEDUCED, log 48) -/
def State.queued (s : State) (o c now a : Nat) : Option (Byte × Nat) :=
  let qs := s.queuedAll o c now a
  ((qs.filter (fun x => !qs.any (fun y => y.after.contains x.id))).foldl (fun best x =>
    match best with
    | none => some x
    | some (y : QStore) => if laterStore y.vis y.rank y.id x.vis x.rank x.id then some x else some y) none).map (fun x => (x.byte, x.id))

/-- What a load returns, with the operations in the queue it read. -/
def State.loadValue (s : State) (o c wg : Nat) (l1 : Bool) (p : Place) (size now : Nat) : List Byte × List Nat :=
  match p with
  | .guard => (List.replicate size 0#8, [])
  | .scr core off => (s.scrBytes core off size, [])
  | .ctr n => (leBytes 8 (mapGet 0#64 (s.ownerAt o).nctr n).toNat, [])
  | .mem pa =>
    let base (a : Nat) : Byte := match (if l1 then s.l1Line o c a else none) with
      | some l => l.data.getD (a % 128) 0#8
      | none => s.byte a
    let here (a : Nat) : Byte := match s.queued o c now a with
      | some (b, _) => b
      | none => base a
    let es := (s.wgAt wg).commit
    let ov := commitOverlay here es
    ((List.range size).map (fun i => (mapFind ov (pa + i)).getD (here (pa + i))),
     ((List.range size).filterMap (fun i => (s.queued o c now (pa + i)).map (fun x => x.2))).dedup)

/-- The thread accesses of an operation that have not returned; those of one `ldc` that name one address count once (R232). -/
def MemOp.unreturned (op : MemOp) : Nat :=
  let as := (op.accs.filter (fun a => !a.done)).map (fun a => a.va)
  if op.shared then as.dedup.length else as.length

/-- Outstanding thread accesses of an owner in a quadrant (R252). -/
def State.outstanding (s : State) (o quad : Nat) : Nat :=
  (s.ops.map (fun p => if p.2.owner = o ∧ quadrantOf (s.phys o p.2.core) = quad then p.2.unreturned else 0)).sum

/-- The visible cycle of an access sent at cycle c (R187, R251). -/
def visibleAt (w hor c extra : Nat) : Nat := w + hor + 32 * ((c - w + 31) / 32 + extra)

/-! ### Trigger counters (R311, R312) -/

/-- The leases of an owner's launches. -/
def State.partLeases (s : State) (o : Nat) : List Lease := s.launches.flatMap (fun p => if p.2.owner = o then p.2.leases else [])

/-- The data of a network operation travels in chunks of 256 bytes (R406). -/
def chunksOf (n : Nat) : Nat := max 1 ((n + 255) / 256)

/-- The plane over which a chunk goes (R406). -/
def planeOf (j src dst : Nat) : Nat := (j + src + dst) % 18

/-- Cycles from its firing until chunk j of an operation of n bytes is performed at its peer: 1,024 and, for a chunk after the first, further
cycles that depend only on the length, the owner's slots and its own traffic, in dedicated slots; else any number, which may vary from run to
run (R409). -/
def State.netOut (s : State) (o n j : Nat) : Nat :=
  if Config.planeSlots o then 1024 + (if j = 0 then 0 else Config.netCycles (s.part o) n (s.openOf o streamNet + j)) else Config.netOpen (s.openTick + j)

/-- Cycles from there to the local completion (R409). -/
def State.netBack (s : State) (o : Nat) : Nat := if Config.planeSlots o then 1024 else Config.netOpen s.openTick

/-- The fates of accesses at levels 1 and 2 (R221). -/
inductive Fate where
  | go | buffer | wait | stop (detail : Nat)
  deriving DecidableEq, Repr

def State.fateOf (s : State) (g : Group) (k : AccKind) (x : Hit) : Fate :=
  let l := s.launchAt g.launch
  match x.place with
  | .mem _ =>
    if l.detlvl = 0 ∨ !coveredBy l.leases ⟨false, true, false⟩ x.va 1 then .go else
    match mapFind l.table (x.va / 128) with
    | some w =>
      if w = (s.wgAt g.wg).index then
        (match k with
        | .load | .store => .go
        | .red op => if op.isFloat then .buffer else .go
        | .atom op => if op.isFloat then .stop 15 else .go)
      else .stop 14
    | none =>
      match k with
      | .load => .wait
      | .store | .red _ => .buffer
      | .atom _ => .stop 16
  | .scr _ _ | .guard | .ctr _ => .go

/-- The entries an access of a size puts into the commit buffer: two for 16 bytes (R221). -/
def commitEntries (pa : Nat) (bs : List Byte) (op : Option AtomOp) (gi serial : Nat) : List CommitEntry :=
  if bs.length = 16 then [⟨pa, bs.take 8, op, gi, serial⟩, ⟨pa + 8, bs.drop 8, op, gi, serial⟩] else [⟨pa, bs, op, gi, serial⟩]

/-! ### Network operations as engine operations (R202, R221, R316) -/

/-- The atomic operation of a record's function: of an atomic, of a reduce-put (R315). -/
def netAtom (fn : Nat) : AtomOp :=
  match fn with
  | 0 => .addN64 | 1 => .exchB64 | 2 => .addN32 | _ => .addF32
def netReduce (fn : Nat) : AtomOp :=
  match fn with
  | 0 => .addF32 | 1 => .addN32 | 2 => .addN64 | 3 => .maxF32 | _ => .minF32

/-- The operation acts on this device at both ends. -/
def State.netHere (s : State) (r : NetRec) : Bool := decide (r.peer = 0xFFFF) || decide (r.peer = s.rank)

/-- The addresses from a on at which n bytes have their pieces of a size. -/
def piecesOf (a : Dword) (n size : Nat) : List Dword := (List.range (n / size)).map (fun i => a + BitVec.ofNat 64 (size * i))

/-- The accesses that an operation makes on this device, by kind: at its local addresses, and at its remote ones where it acts here. -/
def State.netAccesses (s : State) (r : NetRec) : List (AccKind × Dword) :=
  let n := r.length
  let near : List (AccKind × Dword) := match r.op with
    | 0 | 3 => (piecesOf r.local_ n 32).map (fun a => (.load, a))
    | 1 => (piecesOf r.local_ n 8).map (fun a => (.store, a))
    | _ => if r.local_ = 0#64 then [] else [(.store, r.local_)]
  let far : List (AccKind × Dword) := if !s.netHere r then [] else match r.op with
    | 0 => (piecesOf r.remote n 8).map (fun a => (.store, a))
    | 1 => (piecesOf r.remote n 32).map (fun a => (.load, a))
    | 3 => (piecesOf r.remote n (netReduce r.fn).size).map (fun a => (.red (netReduce r.fn), a))
    | _ => [(if r.local_ = 0#64 then .red (netAtom r.fn) else .atom (netAtom r.fn), r.remote)]
  near ++ far

/-- The fate of one of an operation's accesses: it counts as one of the workgroup that issued it, until that has committed. -/
def State.netFate (s : State) (e : NetOp) (k : AccKind) (a : Nat) : Fate :=
  let g := s.groupAt e.gid
  if e.detlvl = 0 ∨ (mapFind s.groups e.gid).isNone ∨ (s.wgAt g.wg).committed then .go else s.fateOf g k { va := a, place := .mem 0 }

def State.netFates (s : State) (e : NetOp) : List (Dword × Fate) :=
  if e.detlvl = 0 then [] else (s.netAccesses e.what).map (fun x => (x.2, s.netFate e x.1 x.2.toNat))

/-- What the operation waits for before it reads: the commits of R221 where it reads a Shared line. -/
def State.netAwaits (s : State) (e : NetOp) : List Await :=
  let g := s.groupAt e.gid
  if (s.netFates e).any (fun f => decide (f.2 = .wait)) then [.commits g.launch (s.wgAt g.wg).index] else []

/-- What memory shows to an operation of this device: with its workgroup's commit buffer applied where R221 gives it that. -/
def State.netView (s : State) (own : Option (Nat × NetOp)) : Nat → Byte :=
  match own with
  | none => s.byte
  | some (_, e) =>
    if e.detlvl = 0 then s.byte else
    let ov := commitOverlay s.byte (s.wgAt (s.groupAt e.gid).wg).commit
    fun a => (mapFind ov a).getD (s.byte a)

/-- The leaf of a piece of an owner's memory for the network, or why it fails (R320): a translation fault, or what is wrong with its sector. -/
def State.netSector (s : State) (o a n : Nat) (w : Want) : Except (Option Nat) Leaf :=
  match s.translate none (s.partLeases o) o a n w with
  | .error _ => .error none
  | .ok x => match (if w.r then s.sectorFault (x.pa / 32) else none) with
    | none => .ok x
    | some m => .error (some m)

/-- A failing sector: the offset at which it begins, and its mark where it is no translation fault. -/
structure NetStop where
  at_ : Nat
  mark : Option Nat
  deriving DecidableEq, Repr

/-- Read sectors in ascending address, up to the first that fails (R316, R320): the lines enter L2 and A is set (R185, R191). -/
def State.netRead (s : State) (own : Option (Nat × NetOp)) (o a n : Nat) : (List Byte × Option NetStop) × State :=
  let view := s.netView own
  (List.range (n / 32)).foldl (fun r i =>
    match r.1.2 with
    | some _ => r
    | none => match r.2.netSector o (a + 32 * i) 32 wantLoad with
      | .error m => ((r.1.1, some ⟨32 * i, m⟩), r.2)
      | .ok x => ((r.1.1 ++ (List.range 32).map (fun j => view (x.pa + j)), none), (r.2.setLeaf o x).fillL2 o x.pa 0#2)) (([], none), s)

/-- What an operation brings to its own device (R316). -/
def NetRec.brings (r : NetRec) : Bool := decide (r.op = 1) || (decide (r.op = 2) && decide (r.local_ ≠ 0#64))

/-- Where the sectors of what an operation brings go, up to the first that faults; D and A are set (R191, R320). -/
def State.netDest (s : State) (o a n : Nat) : (List Nat × Option NetStop) × State :=
  (List.range ((n + 31) / 32)).foldl (fun r i =>
    match r.1.2 with
    | some _ => r
    | none => match r.2.netSector o (a + 32 * i) (min 32 (n - 32 * i)) wantStore with
      | .error m => ((r.1.1, some ⟨32 * i, m⟩), r.2)
      | .ok x => ((r.1.1 ++ [x.pa], none), r.2.setLeaf o x)) (([], none), s)

/-- The data of a packet: 32 bytes a flit, four flits at most (R389). -/
def packetData (bs : List Byte) : List (List (List Byte)) :=
  (List.range (max 1 ((bs.length + 127) / 128))).map (fun i => let part := (bs.drop (128 * i)).take 128; (List.range ((part.length + 31) / 32)).map (fun j => (part.drop (32 * j)).take 32))

/-- A chunk goes out by the port of its plane: its packets wait at the port's adapter to be packed (R389, R399, R405, R406). -/
def State.portSend (s : State) (m : NetMsg) (peer : Nat) : State :=
  let l := 2 * (4 + planeOf m.chunk m.source peer)
  let flit : MeshFlit := { packet := 0, dst := peer, port := 5, prio := if m.op < 4 then 1 else 2, age := 0, last := true, owner := m.owner, reply := decide (4 ≤ m.op), addr := m.remote }
  (packetData m.data).foldl (fun s ds =>
    let f := s.fabric
    let way : LinkWay := mapGet {} f.ways l
    let flits := { flit with packet := f.count, last := ds.isEmpty } ::
      ds.zipIdx.map (fun p => { flit with packet := f.count, last := decide (p.2 + 1 = ds.length), data := p.1, check := some (crc16 p.1) })
    { s with fabric := { f with ways := mapPut f.ways l { way with waiting := mapPut way.waiting 7 (mapGet [] way.waiting 7 ++ flits) }, count := f.count + 1 } }) s

/-- A network operation goes out in chunks (R406): on this device each is due at its peer, and the local completion follows the last (R316, R409); what
goes to another device waits at its ports, and completes when that device has answered. -/
def State.netSend (s : State) (k : Nat) (e : NetOp) (data : List Byte) (stop : Option NetStop) : State :=
  let now := s.cycOf e.owner e.island
  let r := e.what
  let bad := stop.isSome
  let n := if bad then data.length else r.length
  let m (j : Nat) : NetMsg := {
    owner := e.owner, source := s.rank, entry := k, op := r.op, fn := r.fn, remote := r.remote.toNat + 256 * j, data := (data.drop (256 * j)).take 256
    len := min 256 (n - 256 * j), order := r.order, level := e.detlvl, rctr := r.rctr, chunk := j, total := n, raises := !bad, served := true }
  let clk := Clk.owner e.owner e.island
  let e := { e with
    stage := .fired, lim := stop.map (fun x => x.at_), at_ := now, data := if r.op = 2 then [] else data
    bad := stop.bind (fun x => x.mark.map (fun k => (k, r.local_.toNat + x.at_))) }
  let s := { s with nets := mapPut s.nets k e }
  let s := if bad && data.isEmpty then s else (List.range (chunksOf n)).foldl (fun t j =>
      if s.netHere r then t.schedule clk (now + s.netOut e.owner n j) (.messageArrival (m j)) else t.portSend (m j) r.peer) s
  let s := State.bumpOpen { s with openTick := s.openTick + chunksOf n } e.owner streamNet (chunksOf n)
  if bad then s.soon (.networkOperationFault k) else s

/-- The entries of its workgroup's commit buffer that an operation's accesses take (R221). -/
def State.netEntries (s : State) (e : NetOp) : Nat :=
  ((s.netFates e).filter (fun f => decide (f.2 = .buffer))).length

/-- The entries a workgroup's commit buffer holds or has promised. -/
def Workgroup.entries (w : Workgroup) : Nat := w.commit.length + w.reserved

/-- Entries are kept for an operation in its workgroup's commit buffer. -/
def State.netReserve (s : State) (k : Nat) (e : NetOp) (n : Nat) : State :=
  if n = 0 then s else
  { s with nets := mapPut s.nets k { e with reserved := n } }.modWg (s.groupAt e.gid).wg (fun w => { w with reserved := w.reserved + n })

/-- Fire an entry or operation: it reads its local data now, or once the commits it waits for are performed (R221); its effect at the peer is due
1,024 cycles later and its local completion 2,048 later, where it has more than 256 bytes or no dedicated slots on the planes after a number of
cycles that is left open (R316, R409). At a local fault nothing from the failing sector on is sent, and nothing at all where what the operation
would bring has no place, so that neither counter is raised (R320); an access that R221 traps, a full commit buffer among them, is such a fault of
an entry, whose group may have ended (DEDUCED, log 64). -/
def State.fireNet (s : State) (k : Nat) : State :=
  match mapFind s.nets k with
  | none => s
  | some e =>
    let r := e.what
    let n := if e.post && decide (e.stage = .armed) then s.netEntries e else 0
    let stops := decide (n ≠ 0 ∧ 8192 < (s.wgAt (s.groupAt e.gid).wg).entries + n) || (s.netFates e).any (fun f => match f.2 with
      | .stop _ => true
      | .go | .buffer | .wait => false)
    let wait := s.netAwaits e
    if stops then s.netSend k e [] (some ⟨0, none⟩) else
    let s := s.netReserve k e n
    let e := (mapFind s.nets k).getD e
    if (s.awaitAll e.island wait).isNone then { s with nets := mapPut s.nets k { e with stage := .held, hold := wait } }
    else if r.op = 0 ∨ r.op = 3 then
      let ((data, stop), s) := s.netRead (some (k, e)) e.owner r.local_.toNat r.length
      s.netSend k e data stop
    else
      let ((dest, stop), s) := if r.brings then s.netDest e.owner r.local_.toNat r.length else (([], none), s)
      if stop.isSome then s.netSend k e [] stop
      else s.netSend k { e with dest := dest } (if r.op = 2 then leBytes r.length r.operand.toNat else []) none

/-- The entries a counter's new value fires, in ascending post order. -/
def State.firing (s : State) (o n : Nat) (v : Dword) : List Nat :=
  let hit := s.nets.filter (fun p => p.2.post && decide (p.2.stage = .armed) && decide (p.2.owner = o) && decide (p.2.what.tctr = n) && !v.ult p.2.what.threshold)
  (hit.inOrder (fun a b => decide (a.2.serial ≤ b.2.serial))).map (fun p => p.1)

/-- A polling `nctr.wait` meets its condition at its next step w + 32n (R314). -/
def nextPoll (w now : Nat) : Nat := w + 32 * ((now - w + 31) / 32)

/-- Set a trigger counter: armed entries at or below the new value fire, held reduce-puts whose turn has come arrive, waits are polled. -/
def State.setCounter (s : State) (o n : Nat) (v : Dword) : State :=
  let s := s.modOwner o (fun w => { w with nctr := mapSet 0#64 w.nctr n v })
  let s := (s.firing o n v).foldl State.fireNet s
  let ready := s.heldMsgs.filter (fun m => decide (m.owner = o) && decide (m.rctr = some n) && decide (m.order ≤ v.toNat))
  let s := { s with heldMsgs := s.heldMsgs.filter (fun m => !ready.contains m) }
  let s := (ready.inOrder (fun a b => decide (a.order ≤ b.order))).foldl (fun s m => s.soon (.messageArrival m)) s
  s.waits.foldl (fun s p =>
    match p.2.kind with
    | .nctrWait k _ => if k = n ∧ p.2.owner = o ∧ p.2.due = none then
        s.schedule (.owner o p.2.island) (nextPoll p.2.w (s.cycOf o p.2.island)) (.nctrWaitMet p.1) else s
    | _ => s) s

def State.counter (s : State) (o n : Nat) : Dword := mapGet 0#64 (s.ownerAt o).nctr n

/-! ### Effects -/

def setAcc (op : MemOp) (t : Nat) (f : Acc → Acc) : MemOp := { op with accs := op.accs.map (fun a => if a.thread = t then f a else a) }

/-- The bytes of an access in flight that lie in n bytes from pa and have not taken effect, by their offsets. -/
def Acc.within (a : Acc) (pa n : Nat) : List Nat :=
  match a.place with
  | .mem q => (List.range a.size).filter (fun i => a.holdsByte (q + i) && decide (pa ≤ q + i) && decide (q + i < pa + n))
  | .scr _ _ | .guard | .ctr _ => []

/-- One access's bytes there take effect now. -/
def State.flushAcc (s : State) (k : Nat) (a : Acc) (pa n : Nat) : State :=
  match a.place, mapFind s.ops k, a.within pa n with
  | .mem q, some op, i :: is =>
    let s := (i :: is).foldl (fun s i => s.putMem (q + i) [a.data.getD i 0#8]) s
    { s with ops := mapPut s.ops k (setAcc op a.thread (fun b => { b with gone := b.gone ++ (i :: is) })) }
  | _, _, _ => s

/-- Before a write or an atomic of n bytes at pa takes effect, so do the bytes there of the stores in flight that happen before it: the coherence order
of a byte agrees with happens-before, whatever the visible cycles are (R211, R217; DEDUCED, log 48). -/
def State.flush (s : State) (ids : List Nat) (pa n : Nat) : State :=
  s.ops.foldl (fun s p => if ids.contains p.1 ∧ p.2.kind = .store then p.2.accs.foldl (fun s a => s.flushAcc p.1 a pa n) s else s) s

/-- The bytes a store of memory still has to write: where another has taken a byte's place, what stands there stays. -/
def State.leftOf (s : State) (a : Acc) : List Byte :=
  match a.place with
  | .mem q => a.data.zipIdx.map (fun x => if a.gone.contains x.2 then s.byte (q + x.2) else x.1)
  | .scr _ _ | .guard | .ctr _ => a.data

/-- A store's bytes take effect at their place. -/
def State.writePlace (s : State) (o c : Nat) (p : Place) (bs : List Byte) : State :=
  match p with
  | .guard => s
  | .scr core off => s.putScr core off bs
  | .ctr n => s.setCounter o n (s.counter o n + BitVec.ofNat 64 (ofBytes bs))
  | .mem pa => (s.putMem pa bs).writeL1 o c pa bs

/-- The line of a place enters the owner's L2 ways; `cache` is what CACHE asked for it (R35). -/
def State.fillPlace (s : State) (o : Nat) (p : Place) (cache : BitVec 2) : State :=
  match p with
  | .mem pa => s.fillL2 o pa cache
  | .scr _ _ | .guard | .ctr _ => s

/-- An atomic or reduction is performed: the old value and the state after (R236). -/
def State.atomPlace (s : State) (o c : Nat) (p : Place) (op : AtomOp) (x x2 : List Byte) : List Byte × State :=
  let size := op.size
  match p with
  | .guard => (List.replicate size 0#8, s)
  | .scr core off =>
    let old := s.scrBytes core off size
    (old, s.putScr core off (leBytes size (op.new (ofBytes old) (ofBytes x) (ofBytes x2))))
  | .ctr n =>
    let old := (s.counter o n).toNat
    let new := op.new old (ofBytes x) (ofBytes x2)
    (leBytes 8 old, if op = .casB64 ∧ old ≠ ofBytes x then s else s.setCounter o n (BitVec.ofNat 64 new))
  | .mem pa =>
    let old := s.bytes pa size
    let new := leBytes size (op.new (ofBytes old) (ofBytes x) (ofBytes x2))
    (old, (s.putMem pa new).writeL1 o c pa new)

/-- The registers a load or atomic of a size writes. -/
def destRegs (dst : Reg) (size : Nat) : List Reg := (List.range ((size + 3) / 4)).map (fun i => dst + BitVec.ofNat 6 i)

/-- Write a reply's bytes to the destination of one thread, or of the group once. -/
def Group.deliver (g : Group) (uni : Bool) (t : Nat) (dst : Reg) (bs : List Byte) : Group :=
  let l : Lane := if uni then none else some t
  ((destRegs dst bs.length).zipIdx).foldl (fun g p => g.wr l p.1 (BitVec.ofNat 32 (ofBytes ((bs.drop (4 * p.2)).take 4)))) g

/-! ### Sending and completing -/

/-- The event that makes an access visible. -/
def State.replyEvent (s : State) (k t : Nat) (op : MemOp) : Instr :=
  if (mapFind s.nets k).isSome then .entryArm k else if (mapFind s.waits k).isSome then .dispResult k else
  match op.kind with
  | .load | .atom _ => .accessReply k t
  | .store | .red _ => .storeReturn k t

/-- Two places share a byte. -/
def Place.overlaps (p : Place) (n : Nat) (q : Place) (m : Nat) : Bool :=
  match p, q with
  | .mem a, .mem b => decide (a < b + m) && decide (b < a + n)
  | .scr c a, .scr d b => decide (c = d) && decide (a < b + m) && decide (b < a + n)
  | .ctr a, .ctr b => decide (a = b)
  | _, _ => false

/-- What a release that covers operation k waits for covers also what k has read: `new`. -/
def awaitMore (k : Nat) (new : List Nat) (xs : List Await) : List Await :=
  (xs ++ xs.flatMap (fun x => match x with
    | .op id wg => if id = k then new.map (fun n => Await.op n wg) else []
    | .acc _ _ _ | .sent _ _ | .commits _ _ => [])).dedup

def idsMore (k : Nat) (new ids : List Nat) : List Nat := if ids.contains k then (ids ++ new).dedup else ids

/-- What load k has now read is covered by every release, fence, arrival and hand-off that covers the load and has not yet been performed (R210). -/
def State.passOn (s : State) (k : Nat) (new : List Nat) : State :=
  if new.isEmpty then s else
  { s with
    ops := mapAll (fun op => { op with covers := idsMore k new op.covers, after := idsMore k new op.after
                                       accs := op.accs.map (fun a => if a.sent.isNone then { a with wait := awaitMore k new a.wait } else a) }) s.ops
    groups := mapAll (fun g => { g with seen := idsMore k new g.seen, heard := idsMore k new g.heard, fences := g.fences.map (fun f => { f with ops := idsMore k new f.ops }) }) s.groups
    engs := mapAll (fun e => { e with covers := idsMore k new e.covers, wait := awaitMore k new e.wait }) s.engs
    waits := mapAll (fun x => { x with hold := awaitMore k new x.hold }) s.waits
    nets := mapAll (fun e => { e with hold := awaitMore k new e.hold }) s.nets
    wgs := mapAll (fun w => { w with barriers := mapAll (fun b => { b with carry := idsMore k new b.carry, past := idsMore k new b.past }) w.barriers }) s.wgs }

/-- A group has read other groups' stores (R210): those named, still in the queue, and those that have ended at the place while what they cover has
not. An acquiring access makes what they cover happen before the group's next access; a plain one leaves it to an acquire fence. A load that was held
may have been covered by releases since (`held`). -/
def State.learn (s : State) (k : Nat) (op : MemOp) (a : Acc) (from_ : List Nat) (held : Bool) : State :=
  let lingering := (s.ops.filter (fun p => p.2.accs.any (fun b => (b.done || b.settled) && b.place.overlaps b.size a.place a.size))).map (fun p => p.1)
  let other := from_.filter (fun id => decide ((mapGet op s.ops id).gid ≠ op.gid))
  let rel := ((other ++ lingering).flatMap (fun id => (mapGet op s.ops id).covers)).filter (fun id => decide (id ≠ k))
  let acq := decide (op.ord = .acq ∨ op.ord = .ar)
  let s := s.modGroup op.gid (fun g => if acq then { g with seen := (g.seen ++ other ++ rel).dedup } else { g with seen := (g.seen ++ other).dedup, heard := (g.heard ++ rel).dedup })
  if held then s.passOn k (if acq then other ++ rel else other) else s

/-- Fix a load's value at a cycle. -/
def State.capture (s : State) (k t : Nat) (now : Nat) (held : Bool) : State :=
  match mapFind s.ops k with
  | none => s
  | some op => match op.kind, op.acc t with
    | .load, some a =>
      let (bs, from_) := s.loadValue op.owner op.core op.wg a.l1 a.place a.size now
      { s with ops := mapPut s.ops k (setAcc op t (fun a => { a with data := bs })) }.learn k op a from_ held
    | _, _ => s

/-- A buffered access enters its workgroup's commit buffer, where a place has been kept for it (R221). -/
def State.enterBuffer (s : State) (k : Nat) (op : MemOp) (a : Acc) : State :=
  match a.place with
  | .mem pa =>
    let es := commitEntries pa a.data (match op.kind with
      | .red x => some x
      | .load | .store | .atom _ => none) (s.groupAt op.gid).index k
    s.modWg op.wg (fun w => { w with commit := w.commit ++ es, reserved := w.reserved - es.length })
  | .scr _ _ | .guard | .ctr _ => s

/-- Does a condition name this operation? -/
def Await.names (x : Await) (id : Nat) : Bool :=
  match x with
  | .op k _ | .acc k _ _ | .sent k _ => decide (k = id)
  | .commits _ _ => false

/-- An access waits for this operation: it is looked at again at this cycle. -/
def State.nudge (s : State) (id : Nat) : State :=
  s.ops.foldl (fun s p => p.2.accs.foldl (fun s a =>
    if a.sent.isNone && a.wait.any (fun x => x.names id) then
      s.schedule (.owner p.2.owner p.2.island) (s.cycOf p.2.owner p.2.island) (.heldAccessSend p.1 a.thread) else s) s) s

/-- A held network operation fires once what it waits for is performed (R318). -/
def State.tryFire (s : State) (k : Nat) : State :=
  match mapFind s.nets k with
  | none => s
  | some e =>
    if e.stage ≠ .held then s else
    match s.awaitAll e.island e.hold with
    | none => s
    | some c => if c ≤ s.cycOf e.owner e.island then s.fireNet k else s.schedule (.owner e.owner e.island) c (.heldAccessSend k 0)

/-- A `tree.bar` arrives once what its release covers is performed (R323). -/
def State.tryArrive (s : State) (k : Nat) : State :=
  match mapFind s.waits k with
  | none => s
  | some x =>
    match s.awaitAll x.island x.hold with
    | none => s
    | some c => s.schedule (.owner x.owner x.island) (max c (s.cycOf x.owner x.island)) (.treeBarComplete k)

/-- Look again, in this cycle, at the held network operations and tree barriers that a condition selects. -/
def State.wakeHeld (s : State) (f : Await → Bool) : State :=
  let s := s.nets.foldl (fun s p =>
    if p.2.hold.any f then s.schedule (.owner p.2.owner p.2.island) (s.cycOf p.2.owner p.2.island) (.heldAccessSend p.1 0) else s) s
  s.waits.foldl (fun s p => if p.2.hold.any f then s.tryArrive p.1 else s) s

/-- Send an access at cycle c: its visible cycle is fixed, with no more quanta where it was held (R251), its value if it is a load, its place in
the commit buffer if it goes there, unless a save has done that already; what waits for it is looked at again. -/
def State.sendAcc (s : State) (k t c : Nat) (held : Bool) : State :=
  match mapFind s.ops k with
  | none => s
  | some op =>
    match op.acc t with
    | none => s
    | some a =>
      let vis := visibleAt op.w a.hor c (if c = op.w then a.extra else 0)
      let s := { s with ops := mapPut s.ops k (setAcc op t (fun a => { a with sent := some c, vis := vis })) }
      let s := if a.settled then s else if a.buffered then s.enterBuffer k op a else s.capture k t c held
      let s := (s.schedule (.owner op.owner op.island) vis (s.replyEvent k t op)).nudge k
      s.wakeHeld (fun x => x.names k)

/-- Send an access that waits for nothing more at cycle `now`, or set the cycle at which it will be sent, when that is known; `held` tells that it has
been held since its issue. -/
def State.trySend (s : State) (k t now : Nat) (held : Bool) : State :=
  match mapFind s.ops k with
  | none => s
  | some op =>
    match op.acc t with
    | none => s
    | some a =>
      if a.sent.isSome then s else
      match s.awaitAll op.island a.wait with
      | none => s
      | some c => if c ≤ now then s.sendAcc k t now held else s.schedule (.owner op.owner op.island) c (.heldAccessSend k t)

/-- Try every held access and operation that a condition selects. -/
def State.wakeIf (s : State) (f : Await → Bool) : State :=
  let s := s.ops.foldl (fun s p => p.2.accs.foldl (fun s a =>
    if !(a.sent.isNone && a.wait.any f) then s else
    let now := s.cycOf p.2.owner p.2.island
    match a.place with
    | .ctr _ => s.schedule (.owner p.2.owner p.2.island) now (.heldAccessSend p.1 a.thread)
    | .mem _ | .scr _ _ | .guard => s.trySend p.1 a.thread now true) s) s
  s.wakeHeld f

def State.wake (s : State) (id : Nat) : State := s.wakeIf (fun x => x.names id)

/-- The places of the interlock's table that an operation's reply writes; a line or record of 64 bytes goes to no register. -/
def MemOp.locs (op : MemOp) : List Nat :=
  let size := (op.accs.head?.map (fun a => a.size)).getD 4
  match op.kind with
  | .load | .atom _ => if size = 64 then [] else (destRegs op.dst size).map (locR op.uni)
  | .store | .red _ => []

def bump (m : FMap Nat) (k : Nat) : FMap Nat := mapSet 0 m k (mapGet 0 m k + 1)
def drop1 (m : FMap Nat) (k : Nat) : FMap Nat := mapSet 0 m k (mapGet 0 m k - 1)

/-- Operations kept after their completion, while a store they cover is not yet at home, until those have gone. -/
def State.sweepOps (s : State) : State :=
  { s with ops := s.ops.filter (fun p => !p.2.done || p.2.covers.any (fun k => match mapFind s.ops k with
      | some o => !o.done
      | none => false)) }

/-- An operation has returned: its counter is lowered in order, its destination freed, gates opened (R111, R228). -/
def State.opReturned (s : State) (k : Nat) (op : MemOp) : State :=
  let g := s.groupAt op.gid
  let gates := g.gate.map (fun x => (x.1.filter (fun i => decide (i ≠ k)), x.2))
  let open_ := gates.filter (fun x => x.1.isEmpty)
  let g := { (g.returned k) with gate := gates.filter (fun x => !x.1.isEmpty), late := op.locs.foldl drop1 g.late }
  let s := s.setGroupAt op.gid g
  let s := if open_.any (fun x => x.2) then s.dropL1 op.owner op.core else s
  s.sweepOps

/-! ### The effect of an access -/

/-- The first failing sector among those of n bytes from a place (R201), counted from the first of them, and its mark. (DESIGN CHOICE, log 54) -/
def State.faultAt (s : State) (p : Place) (n : Nat) : Option (Nat × Nat) :=
  match p with
  | .mem pa => ((sectorsOf pa n).zipIdx).findSome? (fun k => (s.sectorFault k.1).map (fun m => (k.2, m)))
  | .scr core off => ((sectorsOf off n).zipIdx).findSome? (fun k => (s.scrFault core k.1).map (fun m => (k.2, m)))
  | .guard | .ctr _ => none

/-- A failing reply is recorded for its group (R201, R333, R343): n is 0 for a check value, 1 + SOURCE for an uncorrectable error. Threads of
one load that fail at one cycle share the record. A uniform instruction names the threads that run at TRAP_PC (R331). -/
def Group.recordReply (g : Group) (entry : PcWord) (op : MemOp) (t va n due : Nat) : Group :=
  let cause := if n = 0 then causeIntegrity else causeHardware
  let tr := sectorTrap cause (BitVec.twoPow 32 t) (BitVec.ofNat 64 va) (pcOff entry op.pc) (n - 1) 0
  let mask := if op.uni then 0#32 else tr.mask
  match mapFind g.pend cause with
  | some r => if r.due = due ∧ r.a = tr.a then { g with pend := mapPut g.pend cause { r with mask := r.mask ||| mask } }
    else g.record cause { a := tr.a, b := tr.b, c := tr.c, mask := mask, due := due }
  | none => g.record cause { a := tr.a, b := tr.b, c := tr.c, mask := mask, due := due }

/-- Memory as an access's write finds it: the stores that happen before it have taken effect at its bytes (R211). -/
def State.flushFor (s : State) (op : MemOp) (a : Acc) : State :=
  match a.place with
  | .mem pa => s.flush op.after pa a.size
  | .scr _ _ | .guard | .ctr _ => s

/-- What an access that has been sent does, at its visible cycle: a store writes unless it has entered a commit buffer, a reduction or an atomic is
performed, having read what stands there (R210), a load or an atomic writes its destination unless a sector fails or the group has ended (R105, R111,
R201, R236). -/
def State.takeEffect (s : State) (k : Nat) (op : MemOp) (a : Acc) : State :=
  let bad := s.faultAt a.place a.size
  let reply (bs : List Byte) (s : State) : State :=
    let g := s.groupAt op.gid
    if g.isEnded then s else match bad with
      | some (i, n) => s.setGroupAt op.gid (g.recordReply (s.launchAt op.launch).entry op a.thread (a.va / 32 * 32 + 32 * i) n (max (s.cycOf op.owner op.island) a.vis))
      | none => s.setGroupAt op.gid (g.deliver op.uni a.thread op.dst bs)
  match op.kind with
  | .load => reply a.data s
  | .store => if a.buffered then s else (s.flushFor op a).writePlace op.owner op.core a.place ((s.flushFor op a).leftOf a)
  | .red o => if a.buffered then s else ((s.flushFor op a).atomPlace op.owner op.core a.place o a.data a.data2).2
  | .atom o =>
    let (bs, s) := (s.flushFor op a).atomPlace op.owner op.core a.place o a.data a.data2
    reply bs (s.learn k op a [] true)

/-- One access is done; the operation returns with its last. -/
def State.accDone (s : State) (k t : Nat) : State :=
  match mapFind s.ops k with
  | none => s
  | some op =>
    let op := setAcc op t (fun a => { a with done := true })
    let s := { s with ops := mapPut s.ops k op }
    (if op.done then s.opReturned k op else s).wake k

end Sys2Proof.Machine
end

