-- ==== Sys2Proof/Machine/MemOps.lean ====
section
/-! DEFINITION. Issuing a memory instruction: checks, fates, holds, the acquire gate, fences (R110 to R113, R214, R221, R226 to R229). -/

namespace Sys2Proof.Machine

/-! ### Ordering -/

def Ord.releases : Ord → Bool
  | .rel | .ar => true
  | .plain | .acq => false

def Ord.acquires : Ord → Bool
  | .acq | .ar => true
  | .plain | .rel => false

/-- Scope `clus` or wider (R205). -/
def Scope.wide : Scope → Bool
  | .grp | .wg => false
  | .clus | .quad | .dev | .sys | .fab => true

/-- The operations a release of the running threads covers (R204, R210). -/
def State.coveredIds (s : State) (gid : Nat) (run : BitVec 32) : List Nat :=
  let g := s.groupAt gid
  ((s.ops.filter (fun p => decide (p.2.gid = gid) && decide (p.2.hist &&& run ≠ 0#32))).map (fun p => p.1)
    ++ g.seen.filter (fun k => (mapFind s.ops k).isSome)).dedup

/-- What an access of the running threads waits for: a write for its own release side and earlier release fences (R229), a load for the operations
that an earlier `fence.ar` orders before it (R207; DEDUCED, log 33). -/
def State.holdList (s : State) (gid : Nat) (writes : Bool) (o : Ord) (x : Scope) (run : BitVec 32) : List Await :=
  let own := if writes && Ord.releases o && decide (x ≠ .grp) then (s.coveredIds gid run).map (fun k => Await.op k (decide (x = .wg))) else []
  let fen := (s.groupAt gid).fences.flatMap (fun f =>
    if f.hist &&& run ≠ 0#32 ∧ f.scope ≠ .grp ∧ (writes = true ∨ f.loads = true) then f.ops.map (fun k => Await.op k (decide (f.scope = .wg))) else [])
  (own ++ fen).dedup

/-- The address-match stall (R212): what an access waits for among the group's earlier accesses to its bytes. (DEDUCED, log 33) -/
def State.matchList (s : State) (gid : Nat) (p : Place) (n : Nat) (l1 : Bool) : List Await :=
  s.ops.flatMap (fun x =>
    if x.2.gid = gid then
      (x.2.accs.filter (fun a => !a.done && !(a.buffered && a.sent.isSome) && a.place.overlaps a.size p n)).map (fun a =>
        match x.2.kind, a.buffered with
        | .load, _ | _, true => Await.sent x.1 a.thread
        | _, false => Await.acc x.1 a.thread l1)
    else [])

/-- Open an acquire gate over operations that have not returned (R228); with none, L1 is invalidated at once. -/
def State.openGate (s : State) (gid : Nat) (ids : List Nat) (x : Scope) : State :=
  let g := s.groupAt gid
  if x = .grp then s
  else if ids.isEmpty then (if Scope.wide x then s.dropL1 g.owner g.core else s)
  else s.setGroupAt gid { g with gate := g.gate ++ [(ids, Scope.wide x)] }

/-- The loads-class operations that have not returned. -/
def Group.loadIds (g : Group) : List Nat := (g.outs.filter (fun o => decide (o.cls = .loads) && !o.back)).map (fun o => o.op)

/-- What an acquire fence makes happen before the group's next access: what the group has heard of (R210). -/
def State.acquired (s : State) (gid : Nat) (o : Ord) : State :=
  if Ord.acquires o then s.modGroup gid (fun g => { g with seen := (g.seen ++ g.heard).dedup, heard := [] }) else s

/-- A fence of the group at a scope (R207, R237): what its acquire side adds, its release side covers (R210). -/
def State.fence (s : State) (gid : Nat) (o : Ord) (x : Scope) (run : BitVec 32) : State :=
  if x = .grp then s else
  let s := s.acquired gid o
  let s := if Ord.releases o then
      s.modGroup gid (fun g => { g with fences := g.fences.filter (fun f => f.ops.any (fun k => (mapFind s.ops k).isSome)) ++ [⟨x, s.coveredIds gid run, run, Ord.acquires o⟩] })
    else s
  if Ord.acquires o then s.openGate gid (s.groupAt gid).loadIds x else s

/-! ### The access -/

/-- What an access kind asks for: an atomic reads and writes (DEDUCED, log 20). -/
def AccKind.want : AccKind → Want
  | .load => wantLoad
  | .store => wantStore
  | .atom _ | .red _ => wantBoth

/-- KIND of R337. -/
def AccKind.code : AccKind → Nat
  | .load => 0
  | .store => 1
  | .atom _ | .red _ => 3

def AccKind.cls : AccKind → OpClass
  | .load | .atom _ => .loads
  | .store | .red _ => .stores

def AccKind.writes : AccKind → Bool
  | .load => false
  | .store | .atom _ | .red _ => true

/-- One thread of a memory instruction after its checks. -/
structure Req where
  lane : Lane
  hit : Hit
  fate : Fate
  data : List Byte
  data2 : List Byte
  deriving DecidableEq, Repr

/-- Which threads fail the checks, and the first's address and code. -/
def firstFault (xs : List (Lane × Dword × Except Nat Hit)) : Option (Dword × Nat) :=
  xs.findSome? (fun x => match x.2.2 with
    | .error c => some (x.2.1, c)
    | .ok _ => none)

def faultLanes (xs : List (Lane × Dword × Except Nat Hit)) : List Lane :=
  xs.filterMap (fun x => match x.2.2 with
    | .error _ => some x.1
    | .ok _ => none)

def okHits (xs : List (Lane × Dword × Except Nat Hit)) : List (Lane × Hit) :=
  xs.filterMap (fun x => match x.2.2 with
    | .error _ => none
    | .ok h => some (x.1, h))

/-- A place lies in an engine-owned granule (R216). -/
def State.tileHeldAt (s : State) (h : Hit) (n : Nat) : Bool :=
  match h.place with
  | .scr core off => s.scrHeld core off n
  | .mem _ | .guard | .ctr _ => false

/-- The first guard-granule access of a workgroup is recorded (R197). -/
def State.recordGuard (s : State) (wg : Nat) (k : AccKind) (hs : List Hit) : State :=
  match (s.wgAt wg).guard, hs.find? (fun h => decide (h.place = .guard)) with
  | none, some h => s.modWg wg (fun w => { w with guard := some { bank := h.off / 64 % 32, kind := k.code, addr := BitVec.ofNat 64 h.va } })
  | _, _ => s

/-- How a memory instruction is given: its kind, the size, its registers, order and scope, its class of operation, and whether its threads share
requests (R232). -/
structure AccSpec where
  uni : Bool
  kind : AccKind
  size : Nat
  dst : Reg
  ord : Ord
  scope : Scope
  cls : OpClass
  shared : Bool := false
  deriving DecidableEq, Repr

/-- The access of one thread, the n-th request outstanding of its owner in the quadrant, before it is sent; beyond 64 the further quanta are the i-th
choice of its owner on the island (R252). -/
def State.mkAcc (s : State) (g : Group) (sp : AccSpec) (n i : Nat) (hold : List Await) (r : Req) : Acc :=
  let skip := (match sp.kind with
    | .atom _ => true
    | .load => Ord.acquires sp.ord && Scope.wide sp.scope
    | .store | .red _ => false)
  let hit1 := (match r.hit.place with
    | .mem pa => !skip && (s.l1Line g.owner g.core pa).isSome
    | .scr _ _ | .guard | .ctr _ => false)
  let mine := hit1 && decide (sp.kind = .load)
  let fill := (match r.hit.place with
    | .mem _ => decide (sp.kind = .load) && !skip && decide (g.modf.cache ≠ 3#2)
    | .scr _ _ | .guard | .ctr _ => false)
  let t := r.lane.getD 0
  let hor := s.horizon g.owner g.core r.hit hit1
  let a : Acc := {
    thread := t, va := r.hit.va, place := r.hit.place, size := sp.size, data := r.data, data2 := r.data2, hor := hor, l1 := mine, fill1 := fill && !hit1, cache := g.modf.cache
    wait := hold ++ s.matchList s.cur r.hit.place sp.size mine, path := (r.hit.leaf.map (fun x => x.path)).getD []
    extra := if n ≤ 64 then 0 else Config.quanta (s.part g.owner) (s.openOf g.owner (s.groupIsland g) + i) }
  match r.fate with
  | .buffer => { a with buffered := true }
  | .wait => { a with wait := .commits g.launch (s.wgAt g.wg).index :: a.wait, l1 := false, fill1 := fill }
  | .go | .stop _ => a

/-- The number, from 1, of the request of an instruction's i-th thread: threads have one each, or one for each address where they share them (R232). -/
def requestNo (sp : AccSpec) (reqs : List Req) (i : Nat) (r : Req) : Nat :=
  let n := if sp.shared then (reqs.findIdx (fun x => decide (x.hit.va = r.hit.va))) + 1 else i + 1
  let as := (reqs.take n).map (fun x => x.hit.va)
  if sp.shared then as.dedup.length else as.length

/-- The place of the first thread beyond 64 outstanding that names a thread's address: all that name it take as long, so that what they do to the
same bytes is done in ascending thread number (R112, R203, R236). -/
def firstBeyond (sp : AccSpec) (reqs : List Req) (base : Nat) (r : Req) : Nat :=
  reqs.zipIdx.findIdx (fun x => decide (x.1.hit.va = r.hit.va) && decide (64 < base + requestNo sp reqs x.2 x.1))

/-- The operation of a checked memory instruction, before any of its accesses is sent. -/
def State.opOf (s : State) (g : Group) (sp : AccSpec) (reqs : List Req) : MemOp :=
  let w := s.win
  let run := g.running
  let base := s.outstanding g.owner (quadrantOf (s.groupCore g))
  let hold := s.holdList s.cur sp.kind.writes sp.ord sp.scope run
  let accs := reqs.zipIdx.map (fun x => s.mkAcc g sp (base + requestNo sp reqs x.2 x.1) (firstBeyond sp reqs base x.1) hold x.1)
  let covers := if sp.kind.writes then hold.filterMap (fun x => match x with
    | .op id _ => some id
    | .acc _ _ _ | .sent _ _ | .commits _ _ => none) else []
  { gid := s.cur, owner := g.owner, launch := g.launch, wg := g.wg, core := g.core, island := s.groupIsland g, pc := g.pc, w := w,
    kind := sp.kind, cls := sp.cls, uni := sp.uni, dst := sp.dst, ord := sp.ord, scope := sp.scope, hist := run, covers := covers, after := g.seen,
    shared := sp.shared, accs := accs }

/-- The entries of the commit buffer that an instruction's buffered accesses take (R221). -/
def bufferedBy (sp : AccSpec) (reqs : List Req) : Nat :=
  (reqs.map (fun r => if r.fate = .buffer then (if sp.size = 16 then 2 else 1) else 0)).sum

/-- The walker sets A and D in the leaves the requests found; what it has read fills as the accesses become visible (R191, R250). -/
def State.setLeaves (s : State) (reqs : List Req) : State :=
  reqs.foldl (fun s r => match r.hit.leaf with
    | some x => s.markLeaf x
    | none => s) s

/-- The entries that walks for some addresses of the current group read, where no access follows them. -/
def State.walksOf (s : State) (g : Group) (as : List Dword) (n : Nat) (w : Want) : List Nat :=
  (as.flatMap (fun a => match spaceOf a.toNat with
    | .memory => s.readsFor (some g.core) (s.launchAt g.launch).leases g.owner a.toNat n w
    | .scratch _ _ | .counter _ | .reserved => [])).dedup

/-- They enter the owner's L2 ways as the lines of a prefetch issued in the window would (R191, R250). -/
def State.fillWalks (s : State) (t : State) (g : Group) (as : List Nat) : State :=
  as.foldl (fun t a => t.schedule (.owner g.owner (s.groupIsland g)) (s.win + s.memHorizon g.owner g.core a) (.prefetchFill g.owner g.core (a / 128) 3#2)) t

/-- Send or hold each access of a new operation. -/
def State.sendAll (s : State) (k : Nat) (op : MemOp) : State :=
  op.accs.foldl (fun s a => s.trySend k a.thread op.w false) s

/-- Issue the accesses of a checked instruction as the next operation: its destinations, the gate, and each access sent or held. The group
comes with its counter raised. -/
def State.issueOp (s : State) (g : Group) (sp : AccSpec) (reqs : List Req) : State :=
  let k := s.fresh
  let op := s.opOf g sp reqs
  let n := bufferedBy sp reqs
  let s := (s.bumpOpen g.owner (s.groupIsland g) reqs.length).setLeaves reqs
  let s := s.recordGuard g.wg sp.kind (reqs.map (fun r => r.hit))
  let s := if n = 0 then s else s.modWg g.wg (fun x => { x with reserved := x.reserved + n })
  let s := { s with ops := mapPut s.ops k op, nextId := k + 1 }
  let s := s.finish { g with late := op.locs.foldl bump g.late }
  let s := if (match sp.kind with
    | .load | .atom _ => Ord.acquires sp.ord
    | .store | .red _ => false) then s.openGate s.cur [k] sp.scope else s
  s.sendAll k op

/-- A memory instruction (R110, R226, R230, R236): every thread is checked before any access is made. -/
def State.access (s : State) (h : Guard) (sp : AccSpec) (ldc : Bool) (addr : Lane → Dword × Bool) (d1 d2 : Lane → List Byte) : State :=
  let g := s.grp
  let ls := g.lanes sp.uni h
  if ls.isEmpty then
    if sp.uni || decide (sp.ord = .plain) then s.finish g else (s.finish g).fence s.cur sp.ord sp.scope g.running
  else
    let xs := ls.map (fun l => (l, (addr l).1, s.checkAccess g (addr l).1 (addr l).2 sp.size sp.kind.want ldc))
    match firstFault xs with
    | some (a, c) => s.fillWalks (s.trap (memTrap (laneMask g (faultLanes xs)) sp.kind.code c a)) g (s.walksOf g (xs.map (fun x => x.2.1)) sp.size sp.kind.want)
    | none =>
      let reqs := (okHits xs).map (fun x => (⟨x.1, x.2, s.fateOf g sp.kind x.2, d1 x.1, d2 x.1⟩ : Req))
      let held := reqs.filter (fun r => s.tileHeldAt r.hit sp.size)
      if !held.isEmpty then s.trap (engTrap (laneMask g (held.map (fun r => r.lane))) 0 0 g.trapAt)
      else
        match reqs.findSome? (fun r => match r.fate with
          | .stop d => some (d, r.hit.va)
          | .go | .buffer | .wait => none) with
        | some (d, a) => s.trap (syncTrap g.running d 0 (BitVec.ofNat 64 a))
        | none =>
          let n := bufferedBy sp reqs
          if 8192 < (s.wgAt g.wg).entries + n ∧ n ≠ 0 then s.trap (syncTrap g.running 17 0 0#64)
          else s.issueOp (g.raiseCount sp.cls s.fresh) sp reqs

/-- The bytes of consecutive registers, lowest first. -/
def Group.regBytes (g : Group) (l : Lane) (d : Reg) (n : Nat) : List Byte :=
  ((destRegs d n).flatMap (fun r => leBytes 4 (g.rd l r).toNat)).take n

/-- A load of a form M word through a pair (R109, R230). -/
def State.loadM (s : State) (u : Bool) (h : Guard) (d a : Reg) (size : Nat) (o : Ord) (x : Scope) (f : BitVec 3) (ldc : Bool) : State :=
  let g := s.grp
  s.access h ⟨u, .load, size, d, o, g.scopeOr o x, .loads, ldc⟩ ldc (fun l => (g.addrM l a f size, true)) (fun _ => []) (fun _ => [])

/-- A store of a form M word through a pair. -/
def State.storeM (s : State) (u : Bool) (h : Guard) (d a : Reg) (size : Nat) (o : Ord) (x : Scope) (f : BitVec 3) : State :=
  let g := s.grp
  s.access h ⟨u, .store, size, d, o, g.scopeOr o x, .stores, false⟩ false (fun l => (g.addrM l a f size, true)) (fun l => g.regBytes l d size) (fun _ => [])

/-- The address of `lds` and `sts` and whether its sum lies in the scratch window (R226). -/
def Group.addrS (g : Group) (l : Lane) (a : Reg) (f : BitVec 3) (size : Nat) : Dword × Bool :=
  let x : Int := ((g.rd l a).toNat : Int) + g.offM f * size
  (BitVec.ofInt 64 (scratchBase + x), decide (0 ≤ x) && decide (x < 0x10000000))

def State.loadS (s : State) (u : Bool) (h : Guard) (d a : Reg) (size : Nat) (o : Ord) (x : Scope) (f : BitVec 3) : State :=
  let g := s.grp
  s.access h ⟨u, .load, size, d, o, g.scopeOr o x, .loads, false⟩ false (fun l => g.addrS l a f size) (fun _ => []) (fun _ => [])

def State.storeS (s : State) (u : Bool) (h : Guard) (d a : Reg) (size : Nat) (o : Ord) (x : Scope) (f : BitVec 3) : State :=
  let g := s.grp
  s.access h ⟨u, .store, size, d, o, g.scopeOr o x, .stores, false⟩ false (fun l => g.addrS l a f size) (fun l => g.regBytes l d size) (fun _ => [])

/-- The operand registers of an atomic (R234): d or Pair(d), and for `cas` the registers after them. -/
def Group.atomOperands (g : Group) (l : Lane) (op : AtomOp) (d : Reg) : List Byte × List Byte :=
  match op with
  | .casB32 => (g.regBytes l d 4, g.regBytes l (d + 1) 4)
  | .casB64 => (g.regBytes l d 8, g.regBytes l (d + 2) 8)
  | .addN32 | .addN64 | .minI32 | .maxI32 | .minN32 | .maxN32 | .or | .and | .exchB32 | .exchB64 | .addF32 | .minF32 | .maxF32 => (g.regBytes l d op.size, [])

def State.atomM (s : State) (u : Bool) (h : Guard) (d a : Reg) (op : AtomOp) (o : Ord) (x : Scope) : State :=
  let g := s.grp
  s.access h ⟨u, .atom op, op.size, d, o, g.scopeOr o x, .loads, false⟩ false (fun l => (g.rd64 l a, true)) (fun l => (g.atomOperands l op d).1)
    (fun l => (g.atomOperands l op d).2)

def State.redM (s : State) (u : Bool) (h : Guard) (d a : Reg) (op : AtomOp) (o : Ord) (x : Scope) : State :=
  let g := s.grp
  s.access h ⟨u, .red op, op.size, d, o, g.scopeOr o x, .stores, false⟩ false (fun l => (g.rd64 l a, true)) (fun l => (g.atomOperands l op d).1) (fun _ => [])

end Sys2Proof.Machine
end

