-- ==== Sys2Proof/Machine/Memory.lean ====
section
/-! DEFINITION. Memory instructions and their replies: majors 0x26 to 0x2F and 0x50 to 0x5C (R109 to R112, R224 to R236, R250, R251), and the
events that make their accesses visible. -/

namespace Sys2Proof.Machine

/-- `ld.glb.n8` (R109). -/
def execLdGlbN8 (u : Bool) (h : Guard) (d a : Reg) (f : BitVec 3) (s : State) : Res := .next (s.loadM u h d a 1 .plain .grp f false)

/-- `ld.glb.n16` (R109). -/
def execLdGlbN16 (u : Bool) (h : Guard) (d a : Reg) (f : BitVec 3) (s : State) : Res := .next (s.loadM u h d a 2 .plain .grp f false)

/-- `ld.glb.b32` (R109). -/
def execLdGlbB32 (u : Bool) (h : Guard) (d a : Reg) (f : BitVec 3) (s : State) : Res := .next (s.loadM u h d a 4 .plain .grp f false)

/-- `ld.glb.b64` (R109). -/
def execLdGlbB64 (u : Bool) (h : Guard) (d a : Reg) (f : BitVec 3) (s : State) : Res := .next (s.loadM u h d a 8 .plain .grp f false)

/-- `ld.glb.b128` (R109). -/
def execLdGlbB128 (u : Bool) (h : Guard) (d a : Reg) (f : BitVec 3) (s : State) : Res := .next (s.loadM u h d a 16 .plain .grp f false)

/-- `st.glb.b8` (R109). -/
def execStGlbB8 (u : Bool) (h : Guard) (d a : Reg) (f : BitVec 3) (s : State) : Res := .next (s.storeM u h d a 1 .plain .grp f)

/-- `st.glb.b16` (R109). -/
def execStGlbB16 (u : Bool) (h : Guard) (d a : Reg) (f : BitVec 3) (s : State) : Res := .next (s.storeM u h d a 2 .plain .grp f)

/-- `st.glb.b32` (R109). -/
def execStGlbB32 (u : Bool) (h : Guard) (d a : Reg) (f : BitVec 3) (s : State) : Res := .next (s.storeM u h d a 4 .plain .grp f)

/-- `st.glb.b64` (R109). -/
def execStGlbB64 (u : Bool) (h : Guard) (d a : Reg) (f : BitVec 3) (s : State) : Res := .next (s.storeM u h d a 8 .plain .grp f)

/-- `st.glb.b128` (R109). -/
def execStGlbB128 (u : Bool) (h : Guard) (d a : Reg) (f : BitVec 3) (s : State) : Res := .next (s.storeM u h d a 16 .plain .grp f)

/-- `ld.glb.b32` with an order and a scope (R230). -/
def execScopedLdGlbB32 (u : Bool) (h : Guard) (d a : Reg) (o : Ord) (x : Scope) (f : BitVec 3) (s : State) : Res :=
  .next (s.loadM u h d a 4 o x f false)

/-- `ld.glb.b64` with an order and a scope (R230). -/
def execScopedLdGlbB64 (u : Bool) (h : Guard) (d a : Reg) (o : Ord) (x : Scope) (f : BitVec 3) (s : State) : Res :=
  .next (s.loadM u h d a 8 o x f false)

/-- `st.glb.b32` with an order and a scope (R230). -/
def execScopedStGlbB32 (u : Bool) (h : Guard) (d a : Reg) (o : Ord) (x : Scope) (f : BitVec 3) (s : State) : Res :=
  .next (s.storeM u h d a 4 o x f)

/-- `st.glb.b64` with an order and a scope (R230). -/
def execScopedStGlbB64 (u : Bool) (h : Guard) (d a : Reg) (o : Ord) (x : Scope) (f : BitVec 3) (s : State) : Res :=
  .next (s.storeM u h d a 8 o x f)

/-- `lds.b32` (R231). -/
def execLdsB32 (u : Bool) (h : Guard) (d a : Reg) (o : Ord) (x : Scope) (f : BitVec 3) (s : State) : Res := .next (s.loadS u h d a 4 o x f)

/-- `lds.b64` (R231). -/
def execLdsB64 (u : Bool) (h : Guard) (d a : Reg) (o : Ord) (x : Scope) (f : BitVec 3) (s : State) : Res := .next (s.loadS u h d a 8 o x f)

/-- `sts.b32` (R231). -/
def execStsB32 (u : Bool) (h : Guard) (d a : Reg) (o : Ord) (x : Scope) (f : BitVec 3) (s : State) : Res := .next (s.storeS u h d a 4 o x f)

/-- `sts.b64` (R231). -/
def execStsB64 (u : Bool) (h : Guard) (d a : Reg) (o : Ord) (x : Scope) (f : BitVec 3) (s : State) : Res := .next (s.storeS u h d a 8 o x f)

/-- `ldc` (R232). -/
def execLdc (u : Bool) (h : Guard) (d a : Reg) (f : BitVec 3) (s : State) : Res := .next (s.loadM u h d a 4 .plain .grp f true)

/-- `atom` addN32 (R234, R236). -/
def execAtomAddN32 (u : Bool) (h : Guard) (d a : Reg) (o : Ord) (x : Scope) (s : State) : Res := .next (s.atomM u h d a .addN32 o x)

/-- `atom` addN64 (R234, R236). -/
def execAtomAddN64 (u : Bool) (h : Guard) (d a : Reg) (o : Ord) (x : Scope) (s : State) : Res := .next (s.atomM u h d a .addN64 o x)

/-- `atom` minI32 (R234, R236). -/
def execAtomMinI32 (u : Bool) (h : Guard) (d a : Reg) (o : Ord) (x : Scope) (s : State) : Res := .next (s.atomM u h d a .minI32 o x)

/-- `atom` maxI32 (R234, R236). -/
def execAtomMaxI32 (u : Bool) (h : Guard) (d a : Reg) (o : Ord) (x : Scope) (s : State) : Res := .next (s.atomM u h d a .maxI32 o x)

/-- `atom` minN32 (R234, R236). -/
def execAtomMinN32 (u : Bool) (h : Guard) (d a : Reg) (o : Ord) (x : Scope) (s : State) : Res := .next (s.atomM u h d a .minN32 o x)

/-- `atom` maxN32 (R234, R236). -/
def execAtomMaxN32 (u : Bool) (h : Guard) (d a : Reg) (o : Ord) (x : Scope) (s : State) : Res := .next (s.atomM u h d a .maxN32 o x)

/-- `atom` or (R234, R236). -/
def execAtomOr (u : Bool) (h : Guard) (d a : Reg) (o : Ord) (x : Scope) (s : State) : Res := .next (s.atomM u h d a .or o x)

/-- `atom` and (R234, R236). -/
def execAtomAnd (u : Bool) (h : Guard) (d a : Reg) (o : Ord) (x : Scope) (s : State) : Res := .next (s.atomM u h d a .and o x)

/-- `atom` exchB32 (R234, R236). -/
def execAtomExchB32 (u : Bool) (h : Guard) (d a : Reg) (o : Ord) (x : Scope) (s : State) : Res := .next (s.atomM u h d a .exchB32 o x)

/-- `atom` casB32 (R234, R236). -/
def execAtomCasB32 (u : Bool) (h : Guard) (d a : Reg) (o : Ord) (x : Scope) (s : State) : Res := .next (s.atomM u h d a .casB32 o x)

/-- `atom` exchB64 (R234, R236). -/
def execAtomExchB64 (u : Bool) (h : Guard) (d a : Reg) (o : Ord) (x : Scope) (s : State) : Res := .next (s.atomM u h d a .exchB64 o x)

/-- `atom` casB64 (R234, R236). -/
def execAtomCasB64 (u : Bool) (h : Guard) (d a : Reg) (o : Ord) (x : Scope) (s : State) : Res := .next (s.atomM u h d a .casB64 o x)

/-- `atom` addF32 (R234, R236). -/
def execAtomAddF32 (u : Bool) (h : Guard) (d a : Reg) (o : Ord) (x : Scope) (s : State) : Res := .next (s.atomM u h d a .addF32 o x)

/-- `atom` minF32 (R234, R236). -/
def execAtomMinF32 (u : Bool) (h : Guard) (d a : Reg) (o : Ord) (x : Scope) (s : State) : Res := .next (s.atomM u h d a .minF32 o x)

/-- `atom` maxF32 (R234, R236). -/
def execAtomMaxF32 (u : Bool) (h : Guard) (d a : Reg) (o : Ord) (x : Scope) (s : State) : Res := .next (s.atomM u h d a .maxF32 o x)

/-- `red` addN32 (R234, R236). -/
def execRedAddN32 (u : Bool) (h : Guard) (d a : Reg) (o : Ord) (x : Scope) (s : State) : Res := .next (s.redM u h d a .addN32 o x)

/-- `red` addN64 (R234, R236). -/
def execRedAddN64 (u : Bool) (h : Guard) (d a : Reg) (o : Ord) (x : Scope) (s : State) : Res := .next (s.redM u h d a .addN64 o x)

/-- `red` minI32 (R234, R236). -/
def execRedMinI32 (u : Bool) (h : Guard) (d a : Reg) (o : Ord) (x : Scope) (s : State) : Res := .next (s.redM u h d a .minI32 o x)

/-- `red` maxI32 (R234, R236). -/
def execRedMaxI32 (u : Bool) (h : Guard) (d a : Reg) (o : Ord) (x : Scope) (s : State) : Res := .next (s.redM u h d a .maxI32 o x)

/-- `red` minN32 (R234, R236). -/
def execRedMinN32 (u : Bool) (h : Guard) (d a : Reg) (o : Ord) (x : Scope) (s : State) : Res := .next (s.redM u h d a .minN32 o x)

/-- `red` maxN32 (R234, R236). -/
def execRedMaxN32 (u : Bool) (h : Guard) (d a : Reg) (o : Ord) (x : Scope) (s : State) : Res := .next (s.redM u h d a .maxN32 o x)

/-- `red` or (R234, R236). -/
def execRedOr (u : Bool) (h : Guard) (d a : Reg) (o : Ord) (x : Scope) (s : State) : Res := .next (s.redM u h d a .or o x)

/-- `red` and (R234, R236). -/
def execRedAnd (u : Bool) (h : Guard) (d a : Reg) (o : Ord) (x : Scope) (s : State) : Res := .next (s.redM u h d a .and o x)

/-- `red` addF32 (R234, R236). -/
def execRedAddF32 (u : Bool) (h : Guard) (d a : Reg) (o : Ord) (x : Scope) (s : State) : Res := .next (s.redM u h d a .addF32 o x)

/-- `red` minF32 (R234, R236). -/
def execRedMinF32 (u : Bool) (h : Guard) (d a : Reg) (o : Ord) (x : Scope) (s : State) : Res := .next (s.redM u h d a .minF32 o x)

/-- `red` maxF32 (R234, R236). -/
def execRedMaxF32 (u : Bool) (h : Guard) (d a : Reg) (o : Ord) (x : Scope) (s : State) : Res := .next (s.redM u h d a .maxF32 o x)

/-! ### Replies -/

/-- The lines of an access enter the owner's ways at its visible cycle: the walker's, and its own unless L1 served it or a commit buffer took it (R191,
R250). -/
def State.fillFor (s : State) (op : MemOp) (a : Acc) : State :=
  let s := s.fillPath op.owner a.path
  let s := if a.l1 || a.buffered then s else s.fillPlace op.owner a.place a.cache
  match a.place with
  | .mem pa => if a.fill1 then s.fillL1 op.owner op.core pa a.cache else s
  | .scr _ _ | .guard | .ctr _ => s

/-- A reply of one thread arrives: the access takes effect unless a save has made its effect, and its lines fill (R111, R153, R250). -/
def State.reply (s : State) (k t : Nat) : State :=
  match mapFind s.ops k with
  | none => s
  | some op =>
    match op.acc t with
    | none => s
    | some a =>
      if a.done || a.sent.isNone then s else
      State.accDone (State.fillFor (if a.settled then s else s.takeEffect k op a) op a) k t

/-- A store or reduction of one thread is returned: it takes effect unless a save has made its effect (R111, R153). -/
def State.storeBack (s : State) (k t : Nat) : State :=
  match mapFind s.ops k with
  | none => s
  | some op =>
    match op.acc t with
    | none => s
    | some a =>
      if a.done || a.sent.isNone then s else
      State.accDone (State.fillFor (if a.settled then s else s.takeEffect k op a) op a) k t

/-- ACCESS_REPLY (R111). -/
def execAccessReply (k t : Nat) (s : State) : Res := .next (s.reply k t)

/-- STORE_RETURN (R111, R250). -/
def execStoreReturn (k t : Nat) (s : State) : Res := .next (s.storeBack k t)

/-- HELD_ACCESS_SEND (R251): sent when what it waits for is performed, else left held. -/
def execHeldAccessSend (k t : Nat) (s : State) : Res :=
  .next (match mapFind s.ops k with
    | some op => s.trySend k t (s.cycOf op.owner op.island) true
    | none => s.tryFire k)

/-- PREFETCH_FILL (R245): line l into the owner's L2 ways and, unless CACHE is 11, its L1 ways on logical core c, where it is not there yet; a line
that is there keeps what a CACHE field asked for it (DESIGN CHOICE, log 6). -/
def execPrefetchFill (o c l : Nat) (cache : BitVec 2) (s : State) : Res :=
  let s := s.fillL2 o (l * 128) cache
  .next (if cache = 3#2 ∨ (s.l1Line o c (l * 128)).isSome then s else s.fillL1 o c (l * 128) cache)

end Sys2Proof.Machine
end

