-- ==== Sys2Proof/Machine/Sync.lean ====
section
/-! DEFINITION. Fences, named barriers, ownership requests, prefetch and the early trigger: majors 0x5D to 0x5F (R237 to R246). -/

namespace Sys2Proof.Machine

/-- `fence` (R237, R214): with a false guard it orders nothing. -/
def execFence (h : Guard) (o : Ord) (x : Scope) (s : State) : Res :=
  let g := s.grp
  .next (if g.guardQ h then (s.finish g).fence s.cur o (g.scopeOr o x) g.running else s.finish g)

/-! ### Named barriers (R238 to R242) -/

def Workgroup.bar (w : Workgroup) (b : Nat) : Barrier := mapGet {} w.barriers b
def Workgroup.setBar (w : Workgroup) (b : Nat) (x : Barrier) : Workgroup := { w with barriers := mapSet {} w.barriers b x }

/-- WAITED(b) of a group. -/
def Group.waitedOn (g : Group) (b : Nat) : Word := mapGet 0#32 g.waited b
def Group.addWaited (g : Group) (b : Nat) : Group := { g with waited := mapSet 0#32 g.waited b (g.waitedOn b + 1) }

/-- CheckPhase (R240) at cycle c: a met count completes the phase and wakes the groups that wait on it. -/
def State.checkPhase (s : State) (wg b c : Nat) : State :=
  let w := s.wgAt wg
  let x := w.bar b
  if x.latched ∧ x.arrived = x.expect then
    let past := (x.past.filter (fun k => (mapFind s.ops k).isSome) ++ x.carry).dedup
    let y : Barrier := { x with phase := x.phase + 1, arrived := 0, expect := 0, latched := false, carry := [], past := past }
    w.groups.foldl (fun s k =>
      let g := s.groupAt k
      if g.waitSlot = some b then
        s.setGroupAt k { g.addWaited b with waitSlot := none, readyAt := max g.readyAt (c + 4), seen := (g.seen ++ past).dedup }
      else s) (s.setWg wg (w.setBar b y))
  else s

/-- One more member of the count would pass it. -/
def Barrier.overflows (x : Barrier) (n : Nat) : Bool := decide (n < x.arrived.toNat + x.engines.toNat + 1)

/-- Arrival (R240) of the current group: its trap, or the state with the arrival made. -/
def State.arrival (s : State) (b n : Nat) : Except Trap State :=
  let g := s.grp
  let w := s.wgAt g.wg
  let x := w.bar b
  let full := syncTrap g.running 10 b 0#64
  let carry := (x.carry ++ s.coveredIds s.cur g.running).dedup
  let arrive (e : BitVec 6) : State :=
    (s.setWg g.wg (w.setBar b { x with latched := true, expect := e, arrived := x.arrived + 1, carry := carry })).checkPhase g.wg b s.win
  if x.latched = false then (if x.overflows n then .error full else .ok (arrive (BitVec.ofNat 6 n)))
  else if x.expect.toNat ≠ n then
    .error (syncTrap g.running 11 b (BitVec.ofNat 64 (x.expect.toNat + n * 2 ^ 32)))
  else if x.overflows x.expect.toNat then .error full
  else .ok (arrive x.expect)

/-- Wait (R240) of the current group, which completes its instruction. -/
def State.barWait (s : State) (b : Nat) : State :=
  let g := s.grp
  let x := (s.wgAt g.wg).bar b
  let d := (x.phase - g.waitedOn b).toNat
  if 1 ≤ d ∧ d ≤ 2 ^ 31 then s.finish { g.addWaited b with seen := (g.seen ++ x.past).dedup }
  else
    let s := s.finish { g with waitSlot := some b, waitFrom := s.win, barMark := g.markHere }
    { s with unsettled := s.unsettled ++ [s.cur] }

/-- The pending traps that a barrier instruction delivers first (R241, R332): the guard-granule fault, then the overflow trap. -/
def State.barrierTrap (s : State) : Option State :=
  let g := s.grp
  if g.trapMode then none else
  let overflow : Option State := match mapFind g.pend causeArithmetic with
    | none => none
    | some r => some ((s.setGrp { g with pend := mapErase g.pend causeArithmetic }).trap
        { cause := causeArithmetic, deferred := true, lost := r.lost, mask := r.mask, a := r.a, b := r.b, c := r.c })
  let w := s.wgAt g.wg
  match w.guard with
  | none => overflow
  | some r =>
    if r.got.contains s.cur then overflow else
    let got := s.cur :: r.got
    let left := w.groups.filter (fun k => !(s.groupAt k).isEnded && !got.contains k)
    let s := s.setWg g.wg { w with guard := if left.isEmpty then none else some { r with got := got } }
    let t := memTrap g.running r.kind codeGuard r.addr
    some (s.trap { t with deferred := true, a := t.a + BitVec.ofNat 32 (r.bank * 65536) })

/-- `bar.arr` (R240, R241). -/
def execBarArr (h : Guard) (b : BitVec 4) (k : BitVec 6) (s : State) : Res :=
  .next (match s.barrierTrap with
    | some s' => s'
    | none =>
      let g := s.grp
      if g.guardQ h then (match s.arrival b.toNat k.toNat with
        | .error t => s.trap t
        | .ok s' => s'.finish s'.grp)
      else s.finish g)

/-- `bar.wait` (R240). -/
def execBarWait (h : Guard) (b : BitVec 4) (s : State) : Res :=
  .next (match s.barrierTrap with
    | some s' => s'
    | none => if s.grp.guardQ h then s.barWait b.toNat else s.finish s.grp)

/-- `bar.sync` (R240, R241). -/
def execBarSync (h : Guard) (b : BitVec 4) (k : BitVec 6) (s : State) : Res :=
  .next (match s.barrierTrap with
    | some s' => s'
    | none =>
      if s.grp.guardQ h then (match s.arrival b.toNat k.toNat with
        | .error t => s.trap t
        | .ok s' => s'.barWait b.toNat)
      else s.finish s.grp)

/-- EngineHandOff (R240) of the current group: its trap, or the state with the operation counted. Before a count is latched nothing bounds ENGINES, which
wraps at its 6 bits (DESIGN CHOICE, log 90). -/
def State.handOff (s : State) (b bytes : Nat) : Except Trap State :=
  let g := s.grp
  let w := s.wgAt g.wg
  let x := w.bar b
  if x.latched ∧ x.overflows x.expect.toNat then .error (syncTrap g.running 10 b 0#64)
  else .ok (s.setWg g.wg (w.setBar b { x with engines := x.engines + 1, pending := x.pending + BitVec.ofNat 32 bytes }))

/-- Bytes of an engine operation have been written (R240). -/
def State.landed (s : State) (wg b bytes : Nat) : State :=
  s.modWg wg (fun w => w.setBar b { w.bar b with pending := (w.bar b).pending - BitVec.ofNat 32 bytes })

/-- An engine operation arrives on its barrier at cycle c (R217), and with it what happens before its hand-off (R209, R210). -/
def State.engineArrives (s : State) (wg b c : Nat) (covers : List Nat) : State :=
  let kept := covers.filter (fun k => (mapFind s.ops k).isSome)
  (s.modWg wg (fun w => w.setBar b { w.bar b with
    engines := (w.bar b).engines - 1, arrived := (w.bar b).arrived + 1, carry := ((w.bar b).carry ++ kept).dedup })).checkPhase wg b c

/-! ### Ownership requests (R244) -/

/-- The first byte from x on that no lease with the permission covers, below an end. -/
def uncovered (ls : List Lease) (w : Want) (stop : Nat) : Nat → Nat → Option Nat
  | 0, x => if stop ≤ x then none else some x
  | n + 1, x =>
    if stop ≤ x then none else
    match ls.find? (fun l => l.covers w x 1) with
    | none => some x
    | some l => uncovered ls w stop n (l.base + l.len)

/-- `own.take` and `own.give`. -/
def State.ownRequest (s : State) (h : Guard) (d a : Reg) (give : Bool) : State :=
  let g := s.grp
  let n := (g.getG d).toNat
  let start := g.getG64 a
  if !g.guardQ h ∨ n = 0 then s.finish g
  else if start.toNat % 128 ≠ 0 then s.trap (memTrap g.running 4 codeMisaligned start)
  else
    let ls := (s.launchAt g.launch).leases
    match uncovered ls wantStore (start.toNat + 128 * n) (ls.length + 1) start.toNat with
    | some x => s.trap (memTrap g.running 4 codeLease (BitVec.ofNat 64 x))
    | none =>
      if 64 ≤ (s.wgAt g.wg).own.length then s.trap (syncTrap g.running 18 0 0#64)
      else (s.modWg g.wg (fun w => { w with own := w.own ++ [⟨start.toNat, n, give⟩] })).finish g

/-- `own.take` (R244). -/
def execOwnTake (h : Guard) (d a : Reg) (s : State) : Res := .next (s.ownRequest h d a false)

/-- `own.give` (R244). -/
def execOwnGive (h : Guard) (d a : Reg) (s : State) : Res := .next (s.ownRequest h d a true)

/-! ### Prefetch and early trigger (R245, R246) -/

/-- The line a prefetch asks for, unless R245 drops it. -/
def State.prefetchLine (s : State) (g : Group) (va : Dword) : Option Nat :=
  match spaceOf va.toNat with
  | .memory =>
    match s.translate (some g.core) (s.launchAt g.launch).leases g.owner va.toNat 1 wantLoad with
    | .ok x => if pteBit x.entry 5 then some (x.pa / 128) else none
    | .error _ => none
  | .scratch _ _ | .counter _ | .reserved => none

/-- `pref` (R245): each line is filled at the cycle its reply would be visible, and so is what its walk reads (R191). -/
def execPref (u : Bool) (h : Guard) (a : Reg) (s : State) : Res :=
  let g := s.grp
  let as := (g.lanes u h).map (fun l => g.rd64 l a)
  .next ((as.filterMap (s.prefetchLine g)).foldl (fun s' p =>
    s'.schedule (.owner g.owner (s.groupIsland g)) (s.win + s.memHorizon g.owner g.core (p * 128))
      (.prefetchFill g.owner g.core p g.modf.cache)) (s.fillWalks (s.finish g) g (s.walksOf g as 1 wantLoad)))

/-- Mark threads as triggered. -/
def Group.trigger (g : Group) (m : BitVec 32) : Group := { g with threads := setStates g.threads m (fun t => { t with trig := true }) }

/-- The launches that wait for a producer look again (R219, R288). -/
def State.tellDependants (s : State) (l : Nat) : State :=
  s.launches.foldl (fun s p => if p.2.producer = some l ∧ p.2.waits then s.soon (.dependantRelease p.1) else s) s

/-- `trig` (R246). -/
def execTrig (u : Bool) (h : Guard) (s : State) : Res :=
  let g := s.grp
  let m := if u then (if g.guardQ h then g.notEnded else 0#32) else g.active h
  let s := s.finish (g.trigger m)
  .next (if m = 0#32 then s else s.tellDependants g.launch)

end Sys2Proof.Machine
end

