-- ==== Sys2Proof/Machine/Hints.lean ====
section
/-! DEFINITION. Fetching words and the hints (R10, R31 to R36, R40, R41): the checks of a hint's pair are made as the hint issues. -/

namespace Sys2Proof.Machine

/-- Read the word at an address for a group, or the detail code of the fetch fault (R10, R181). -/
def State.fetchWord (s : State) (g : Group) (pc : PcWord) : Except Nat (Word × Leaf) :=
  match spaceOf pc.toNat with
  | .memory =>
    match s.translate (some g.core) (s.launchAt g.launch).leases g.owner pc.toNat 4 wantFetch with
    | .error c => .error c
    | .ok x => .ok (BitVec.ofNat 32 (ofBytes (s.bytes x.pa 4)), x)
  | .scratch _ _ | .counter _ => .error codePermission
  | .reserved => .error codeUnmapped

/-- A fetch fault. -/
def fetchTrap (g : Group) (c : Nat) (pc : PcWord) : Trap := memTrap g.running 2 c (pc.setWidth 64)

/-- The word at an address is the last of an active loop's body (R16, R32). -/
def Group.lastInBody (g : Group) (pc : PcWord) : Bool := (List.range g.n).any (fun k => decide ((g.loop k).le - 4 = pc))

/-- A word of a scoped access with a failing order: with the orders that are not plain, at its scope and at scope 0. -/
def ordShapes (w : Word) : List Word :=
  if 0x50#7 ≤ w.extractLsb' 25 7 ∧ w.extractLsb' 25 7 ≤ 0x5D#7 ∧ w.extractLsb' 6 2 ≠ 0#2 then
    [0x40#32, 0x80#32, 0xC0#32].flatMap (fun o => [(w &&& 0xFFFFFF3F#32) ||| o, (w &&& 0xFFFFFF07#32) ||| o])
  else []

/-- Words that differ from a failing one in what reasons 3 to 6 most often name: U, the guard, the order, the low bits of register fields; and last the
words of its major that have nothing but a function code. What a hint could modify in it is judged by the first that decodes (R41, DESIGN CHOICE,
log 27). -/
def boundShapes (w : Word) : List Word :=
  let us := [w, w ^^^ 0x01000000#32]
  let gs := us.flatMap (fun x => [x, (x &&& 0xFF0FFFFF#32) ||| 0x00E00000#32])
  let rs := gs.flatMap (fun x => [x, x &&& 0xFFFFBFFF#32, x &&& 0xFFFFBEFF#32, x &&& 0xFFFF3CFF#32])
  rs ++ rs.flatMap ordShapes ++ gs.map (fun x => x &&& 0xFFFC0000#32)
    ++ (us.flatMap (fun x => ((List.range 256) ++ (List.range 64).map (fun k => k * 16384)).map (fun k => (x &&& 0xFF000000#32) ||| 0x00E00000#32 ||| BitVec.ofNat 32 k)))

def boundShape (w : Word) : Option Instr :=
  (boundShapes w).findSome? (fun x => match decode x with
    | .ok i => some i
    | .error _ => none)

/-- The fields of a hint as they stand, reserved ones among them, for the check of what it binds (R32 to R36). -/
def hintShape (w : Word) : Option Instr :=
  let p := w.extractLsb' 0 22
  match (w.extractLsb' 22 3).toNat with
  | 0 => some (.hintWide p)
  | 1 => some (.hintSched (p.extractLsb' 5 3) (p.getLsbD 4) (p.extractLsb' 0 4))
  | 2 => some (.hintMod (decodeMod p))
  | 3 => some (.hintType (p.getLsbD 4) (p.extractLsb' 2 2) (p.extractLsb' 0 2))
  | _ => none

/-- The lesser of two reasons. -/
def lower : Option Nat → Option Nat → Option Nat
  | none, y => y
  | some x, none => some x
  | some x, some y => some (min x y)

def isHint (w : Word) : Bool := decide (w.extractLsb' 25 7 = 0x7F#7)

/-- The reason, if any, for which the pair of a hint word at the group's PC and its bound word fails (R32, R40, R41). -/
def pairReason (g : Group) (hw bw : Word) : Option Nat :=
  let own := match decode hw with
    | .ok _ => none
    | .error e => some e.code
  let bound := if isHint bw then some 2 else match decode bw with
    | .error e => some e.code
    | .ok i => match hintShape hw with
      | some h => stateReason { g with hint := some ⟨g.pc, hw, h⟩ } i
      | none => stateReason g i
  let binds := if g.lastInBody g.pc then some 2 else
    match hintShape hw, boundShape bw with
    | some h, some i => hintReason h i
    | _, _ => none
  lower own (lower bound binds)

/-- The reason, if any, for which a hint word fails whatever it binds: its own fields, the end of a loop body, a payload at its reset values. -/
def loneReason (g : Group) (hw : Word) : Option Nat :=
  let own := match decode hw with
    | .ok _ => none
    | .error e => some e.code
  let empty := match hintShape hw with
    | some (.hintMod m) => decide (m = decodeMod 0x00E000#22)
    | some (.hintType k d a) => !k && decide (d = 0#2) && decide (a = 0#2)
    | _ => false
  lower own (if g.lastInBody g.pc || empty then some 2 else none)

/-- The trap of a hint's pair: its encoding, then the fetch fault of its bound word (R332); none where both stand. -/
def State.pairTrap (s : State) (hw : Word) : Option Trap :=
  let g := s.grp
  let enc (r : Nat) (bw : Word) : Trap := { cause := causeEncoding, mask := g.running, a := BitVec.ofNat 32 (16 + r), b := hw, c := bw }
  match s.fetchWord g (g.pc + 4) with
  | .error c => match loneReason g hw with
    | some r => some (enc r 0#32)
    | none => some (fetchTrap g c (g.pc + 4))
  | .ok (bw, _) => (pairReason g hw bw).map (fun r => enc r bw)

/-- A hint issues: its pair is checked, and it waits for its bound instruction. -/
def State.hintIssue (s : State) (i : Instr) (stall : Nat) (skip : Bool) : State :=
  let g := s.grp
  let hw := (encode i).getD 0#32
  match s.pairTrap hw with
  | some t => s.trapAtPc t g.pc
  | none => s.setGrp { g with hint := some ⟨g.pc, hw, i⟩, pc := g.pc + 4, stall := stall, skip := g.skip || skip }

/-- WIDE (R33). -/
def execHintWide (p : BitVec 22) (s : State) : Res := .next (s.hintIssue (.hintWide p) 0 false)

/-- SCHED (R34): STALL windows pass before the bound instruction; YIELD leaves the next window to another group. -/
def execHintSched (r : BitVec 3) (y : Bool) (k : BitVec 4) (s : State) : Res := .next (s.hintIssue (.hintSched r y k) k.toNat y)

/-- MOD (R35). -/
def execHintMod (m : ModFields) (s : State) : Res := .next (s.hintIssue (.hintMod m) 0 false)

/-- TYPE (R36). -/
def execHintType (k : Bool) (d a : BitVec 2) (s : State) : Res := .next (s.hintIssue (.hintType k d a) 0 false)

end Sys2Proof.Machine
end

