-- ==== Sys2Proof/Machine/Control.lean ====
section
/-! DEFINITION. Branches, calls, loops, exits, waits and `gets`: majors 0x20 to 0x25 (R101 to R108, R114, R115, R137 to R140). -/

namespace Sys2Proof.Machine

/-! ### Jumps -/

/-- The trap of a branch target (R101). -/
def targetTrap (g : Group) (target : Dword) : Option Trap :=
  if target.extractLsb' 56 8 ≠ 0#8 then some (memTrap g.running 5 codeNonCanonical target)
  else if target.extractLsb' 0 2 ≠ 0#2 then some (memTrap g.running 5 codeMisaligned target)
  else none

def LoopReg.contains (l : LoopReg) (x : PcWord) : Bool := decide (l.ls ≤ x) && decide (x < l.le)

/-- The number of loops left active by a jump from p to target (R101). -/
def popLoops (g : Group) (p target : PcWord) : Nat → Nat
  | 0 => 0
  | n + 1 => if (g.loop n).contains p && !(g.loop n).contains target then popLoops g p target n else n + 1

/-- Move PC; the pair is over. -/
def Group.goto (g : Group) (pc : PcWord) : Group := { g with pc := pc, hint := none }

/-- Jump (R101). -/
def State.jump (s : State) (target : Dword) : State :=
  let g := s.grp
  match targetTrap g target with
  | some t => s.trap t
  | none =>
    let x := target.extractLsb' 0 56
    s.setGrp ({ g with n := popLoops g g.pc x g.n }.goto x)

/-- The target of a form B instruction (R102, R33). -/
def Group.branchTarget (g : Group) (f : BitVec 20) : Dword := g.pc.setWidth 64 + 4 + g.dispB f

/-- `bra` of a choice on which the Running threads disagree (R137, R140). To P + 4 it does not diverge: all of them go there, and a loop whose body
that leaves is over, as for any jump (R101). (DEDUCED, log 59) -/
def State.diverge (s : State) (taken : BitVec 32) (target : Dword) : State :=
  let g := s.grp
  match targetTrap g target with
  | some t => s.trap t
  | none =>
    let x := target.extractLsb' 0 56
    if x = g.pc + 4 then s.jump target
    else if (List.range g.n).any (fun k => (g.loop k).contains g.pc && !(g.loop k).contains x) then s.trap (syncTrap g.running 2 0 target)
    else
      let rest := g.running &&& ~~~taken
      let g1 := g.complete
      let fall := g1.pc
      if x = fall then s.setGrp g1
      else
        let stay := if x < fall then taken else rest
        let park := if x < fall then rest else taken
        let at_ := if x < fall then fall else x
        let g2 := { g1 with threads := setStates g1.threads park (fun t => { t with st := .parked, resume := at_ }) }
        s.setGrp (if stay = taken then g2.goto x else g2)

/-- `bra` (R102). -/
def execBra (u : Bool) (h : Guard) (f : BitVec 20) (s : State) : Res :=
  let g := s.grp
  let t := g.branchTarget f
  .next (if u then (if g.guardQ h then s.jump t else s.finish g)
    else
      let a := g.active h
      if a = 0#32 then s.finish g else if g.running &&& ~~~a = 0#32 then s.jump t else s.diverge a t)

/-- The return address of a call, and the group after the end-of-iteration step it makes at a loop's last word (R103). -/
def Group.afterCall (g : Group) : Group := g.complete

/-- A call to a target that links into Pair(d). -/
def State.callTo (s : State) (d : Reg) (target : Dword) : State :=
  let g := s.grp
  match targetTrap g target with
  | some t => s.trap t
  | none =>
    let g1 := g.afterCall
    s.setGrp (((g1.setG64 d (g1.pc.setWidth 64)).mark s.win 4 [locG d, locG (d + 1)]).goto (target.extractLsb' 0 56))

/-- `call` (R103). -/
def execCall (h : Guard) (f : BitVec 20) (s : State) : Res :=
  let g := s.grp
  .next (if g.guardQ h then s.callTo 62#6 (g.branchTarget f) else s.finish g)

/-- `callx` (R104). -/
def execCallx (h : Guard) (d a : Reg) (s : State) : Res :=
  let g := s.grp
  .next (if g.guardQ h then s.callTo d (g.getG64 a) else s.finish g)

/-- `brx` (R104). -/
def execBrx (h : Guard) (a : Reg) (s : State) : Res :=
  let g := s.grp
  .next (if g.guardQ h then s.jump (g.getG64 a) else s.finish g)

/-- `ret` (R104). -/
def execRet (h : Guard) (a : Reg) (s : State) : Res :=
  let g := s.grp
  .next (if g.guardQ h then (match targetTrap g (g.getG64 a) with
    | some t => s.trap t
    | none => s.setGrp (g.goto ((g.getG64 a).extractLsb' 0 56)))
  else s.finish g)

/-- `nop` (R104). -/
def execNop (_u : Bool) (_h : Guard) (s : State) : Res := .next (s.finish s.grp)

/-! ### Loops (R106 to R108) -/

/-- The length of a loop body in words (R30, R33). -/
def Group.bodyLength (g : Group) (l : BitVec 14) : Nat :=
  match g.wide with
  | some p => (p ++ l : BitVec 36).toNat
  | none => l.toNat

/-- `loop` (R106). A count of 0 takes the group to the end of the body, a redirection of PC, so that no end-of-iteration step is made for a
body whose last word the `loop` is (R107; DESIGN CHOICE, log 65). -/
def execLoop (h : Guard) (c : Reg) (l : BitVec 14) (s : State) : Res :=
  let g := s.grp
  let start := g.pc + 4
  let stop := start + BitVec.ofNat 56 (4 * g.bodyLength l)
  .next (if !g.guardQ h then s.finish g
    else if g.getG c = 0#32 then s.setGrp (g.goto stop)
    else if 4 ≤ g.n then s.trap (syncTrap g.running 0 4 0#64)
    else s.setGrp ({ g.setLoop g.n ⟨start, stop, g.getG c⟩ with n := g.n + 1 }.goto start))

/-- `brk` (R108). -/
def execBrk (h : Guard) (s : State) : Res :=
  let g := s.grp
  .next (if !g.guardQ h then s.finish g
    else if g.n = 0 then s.trap (syncTrap g.running 1 0 0#64)
    else
      let stop := (g.loop (g.n - 1)).le
      s.setGrp (endStep (g.n - 1) ({ g with n := g.n - 1 }.goto stop) (stop - 4)))

/-! ### Exits (R105) -/

/-- Merge the histories of every join that the end of a set of threads releases (R204). -/
def State.mergeReleases (s : State) (gid : Nat) (set : BitVec 32) : State :=
  let g := s.groupAt gid
  (List.range 8).foldl (fun s k =>
    let j := mapGet {} g.joins k
    let e := j.expect &&& ~~~set
    if j.armed ∧ e ≠ 0#32 ∧ j.arrived &&& ~~~set = e then s.mergeHist gid e else s) s

/-- End some threads of the current group, which goes on at P + 4, at a join's release, or with a selected set. -/
def State.exitThreads (s : State) (set : BitVec 32) : State :=
  let s := s.mergeReleases s.cur set
  let g := s.grp
  let left := g.running &&& ~~~set
  let g1 := g.endThreads set
  if g1.isEnded then (s.setGrp g1).groupGone s.cur
  else if left ≠ 0#32 ∨ (g1.running ≠ 0#32 ∧ g1.pc = g.pc + 4) then s.finish { g1 with pc := g.pc }
  else State.select (s.setGrp { g1 with hint := none })

/-- `exit` (R105). -/
def execExit (u : Bool) (h : Guard) (s : State) : Res :=
  let g := s.grp
  let s1 := if u then (if g.guardQ h then s.endGroup s.cur else s.finish g)
    else if h.idx = 7#3 then s.endGroup s.cur
    else
      let a := g.active h
      if a = 0#32 then s.finish g else s.exitThreads a
  .next (s1.tellDependants g.launch)

/-! ### Waits (R114) -/

/-- A limit of `wait`: 15 is none. -/
def underLimit (g : Group) (k : OpClass) (l : BitVec 4) : Bool := decide (l = 15#4) || decide (g.count k ≤ l.toNat)

def Group.waitMet (g : Group) (l t c e r : BitVec 4) : Bool :=
  underLimit g .loads l && underLimit g .stores t && underLimit g .copies c && underLimit g .tiles e && underLimit g .remote r

/-- `wait` (R114): it issues once every named counter is at most its limit; before, the group stays at it. -/
def execWait (h : Guard) (l t c e r : BitVec 4) (s : State) : Res :=
  let g := s.grp
  .next (if g.guardQ h && !g.waitMet l t c e r then s else s.finish g)

/-- `waitc` (R114). -/
def execWaitc (h : Guard) (k : OpClass) (a : Reg) (s : State) : Res :=
  let g := s.grp
  .next (if g.guardQ h && decide ((g.getG a).toNat < g.count k) then s else s.finish g)

/-! ### Special registers (R11, R115) -/

/-- The owner of a lane slot: the free pool where none holds it (R143, R144). -/
def rotaKey (core lane slot : Nat) : Nat := (core * 8 + lane) * 8 + slot
def State.slotOwner (s : State) (core lane slot : Nat) : Nat := mapGet 62 s.rota (rotaKey core lane slot)

/-- OWNMASK (R145). -/
def State.ownMask (s : State) (g : Group) : BitVec 8 :=
  (List.range 8).foldl (fun m i => if s.slotOwner (s.groupCore g) g.lane i = g.owner then m ||| BitVec.twoPow 8 i else m) 0#8

/-- A period that begins at p lies in one of these (first, end) runs. -/
def inRuns (rs : List (Nat × Nat)) (p : Nat) : Bool := rs.any (fun r => decide (r.1 ≤ p) && decide (p < r.2))

/-- A slot is published as released in the period that begins at p, by `slot.rel` or by retirement from its lane (R150, R152). -/
def State.released (s : State) (o core lane slot p : Nat) : Bool :=
  inRuns (mapGet [] (s.ownerAt o).releases (rotaKey core lane slot)) p || inRuns (mapGet [] (s.ownerAt o).retired (core * 8 + lane)) p

/-- The first cycle of the lane-rota period of a cycle. -/
def periodOf (w : Nat) : Nat := w / 32 * 32

/-- ROTA_SLOT (R145). -/
def State.rotaSlot (s : State) (g : Group) (w : Nat) : Word :=
  let rel := (List.range 8).foldl (fun m i =>
    if s.slotOwner (s.groupCore g) g.lane i = g.owner ∧ s.released g.owner g.core g.lane i (periodOf w) then m ||| BitVec.twoPow 8 i else m) 0#8
  (0#8 ++ rel ++ 0#5 ++ BitVec.ofNat 3 g.lane ++ s.ownMask g : BitVec 32)

/-- ROTA_MAP (R146). -/
def State.rotaMap (s : State) (g : Group) : Dword :=
  (List.range 8).foldl (fun m i => m ||| BitVec.ofNat 64 (s.slotOwner (s.groupCore g) g.lane i * 2 ^ (8 * i))) 0#64

/-- The declared size of a level (R56), 1 where undeclared. -/
def Launch.size (l : Launch) (k : Nat) : Nat := (l.levels[k - 1]?.map (fun x => x.size)).getD 1

/-- The product of the sizes of levels 3 to k (R275). -/
def Launch.sizesTo (l : Launch) (k : Nat) : Nat := ((List.range (k - 2)).map (fun i => l.size (i + 3))).foldl (· * ·) 1

/-- LEVEL_ID at a level (R275). -/
def State.levelId (s : State) (g : Group) (lvl : Word) : Word :=
  let l := s.launchAt g.launch
  let k := lvl.toNat
  let n := l.levels.length
  if k = 0 ∨ n < k then 0xFFFFFFFF#32
  else if k = n then 0#32
  else if k = 1 then BitVec.ofNat 32 g.index
  else BitVec.ofNat 32 ((s.wgAt g.wg).index / l.sizesTo k % l.size (k + 1))

/-- MELT (R361). -/
def State.melt (s : State) (g : Group) : Word :=
  let q := mapGet {} (s.ownerAt g.owner).quotas (s.groupIsland g)
  if q.joules = 0 then 0xFFFF#32 else q.frac.setWidth 32

/-- LEASE_LEFT (R362). -/
def State.leaseLeft (s : State) (g : Group) : Dword :=
  let x : Sprint := mapGet {} (s.ownerAt g.owner).sprints (s.groupIsland g)
  if x.live then BitVec.ofNat 64 (x.endAt - s.cycOf g.owner (s.groupIsland g)) else 0#64

/-- The value of a special register of 32 bits for a lane. -/
def State.sreg (s : State) (g : Group) (l : Lane) (r : SReg) (old : Word) : Dword :=
  match r with
  | .thread => BitVec.ofNat 64 (l.getD 0)
  | .group => BitVec.ofNat 64 (g.index + 256 * (g.lane * 12 + g.ctx))
  | .levelId => (s.levelId g old).setWidth 64
  | .owner => BitVec.ofNat 64 g.owner
  | .ownerCyc => BitVec.ofNat 64 s.win
  | .rotaSlot => (s.rotaSlot g s.win).setWidth 64
  | .rotaMap => s.rotaMap g
  | .melt => (s.melt g).setWidth 64
  | .leaseLeft => s.leaseLeft g
  | .flags => g.flags.setWidth 64
  | .flagArm => g.flagArm.setWidth 64
  | .detlvl => BitVec.ofNat 64 (s.launchAt g.launch).detlvl
  | .tmask => g.tmask.setWidth 64
  | .tcause => g.tcause.setWidth 64
  | .tdetailA => g.tdetA.setWidth 64
  | .tdetailB => g.tdetB.setWidth 64
  | .tdetailC => g.tdetC.setWidth 64
  | .trapPc => g.trapPc

/-- The registers of 64 bits (R11). -/
def sregWide : SReg → Bool
  | .ownerCyc | .rotaMap | .leaseLeft | .trapPc => true
  | .thread | .group | .levelId | .owner | .rotaSlot | .melt | .flags | .flagArm | .detlvl | .tmask | .tcause | .tdetailA | .tdetailB | .tdetailC => false

/-- `gets` (R115). -/
def execGets (u : Bool) (h : Guard) (d : Reg) (r : SReg) (s : State) : Res :=
  let g := s.grp
  .next (if sregWide r then s.alu64 u h d 4 (fun l => s.sreg g l r 0#32)
    else s.alu u h d 4 (fun l => (s.sreg g l r (g.rd l d)).setWidth 32))

end Sys2Proof.Machine
end

