-- ==== Sys2Proof/Machine/Ready.lean ====
section
/-! DEFINITION. What each instruction reads, writes and raises, as the interlock, the counters and the acquire gate ask (R16 to R19, R113,
R228), and whether a group is ready (R147). -/

namespace Sys2Proof.Machine

/-- What else decides when an instruction issues: the class whose counter it raises, whether the acquire gate of R228 holds it, whether it ends
its pair (R16), whether it waits for the group's accesses at `wg` (R241), or for those it releases at `dev` (R309). -/
structure Issue where
  cls : Option OpClass := none
  gated : Bool := false
  ends : Bool := false
  atWg : Bool := false
  atDev : Bool := false
  deriving DecidableEq, Repr

def endsPair : Issue := { ends := true }
def barrierIssue : Issue := { atWg := true }
def appends : Issue := { atDev := true, gated := true }
def accesses : Issue := { gated := true }
def raises (c : OpClass) : Issue := { cls := some c, gated := true }

/-- An instruction's file (U), guard, the interlock places it reads and writes, and its latency (R18, R160; 0 where a reply writes). -/
structure Uses where
  u : Bool
  guard : Guard
  reads : List Nat
  writes : List Nat
  lat : Nat
  issue : Issue
  deriving DecidableEq, Repr

def pairLocs (u : Bool) (r : Reg) : List Nat := [locR u r, locR u (r + 1)]
/-- The places of n registers of the g file. -/
def blockLocs (r : Reg) (n : Nat) : List Nat := (List.range n).map (fun i => locG (r + BitVec.ofNat 6 i))

def selLocs (u : Bool) : BSel → List Nat
  | .own r => [locR u r]
  | .grp r => [locG r]
  | .imm _ | .neg _ | .const _ => []

def selLocs64 (u : Bool) : BSel → List Nat
  | .own r => pairLocs u r
  | .grp r => pairLocs true r
  | .imm _ | .neg _ | .const _ => []

def selLocsBlock (n : Nat) : BSel → List Nat
  | .own r | .grp r => blockLocs r n
  | .imm _ | .neg _ | .const _ => []

def gfnFloat : GFn → Bool
  | .faddF32 | .fminF32 | .fmaxF32 => true
  | .addI32 | .minI32 | .maxI32 | .minN32 | .maxN32 | .and | .or | .xor => false

/-- The places of the registers that hold n bytes from d. -/
def dataLocs (u : Bool) (d : Reg) (n : Nat) : List Nat := (destRegs d n).map (locR u)

def loadUses (u : Bool) (h : Guard) (addr : List Nat) (d : Reg) (n : Nat) : Uses := ⟨u, h, addr, dataLocs u d n, 0, raises .loads⟩
def storeUses (u : Bool) (h : Guard) (addr : List Nat) (d : Reg) (n : Nat) : Uses := ⟨u, h, addr ++ dataLocs u d n, [], 0, raises .stores⟩
def atomUses (u : Bool) (h : Guard) (a d : Reg) (src dst : Nat) : Uses := ⟨u, h, pairLocs u a ++ dataLocs u d src, dataLocs u d dst, 0, raises .loads⟩

/-- A hint or an event reads and writes no register. -/
def noUses : Uses := ⟨true, ⟨7#3, false⟩, [], [], 4, {}⟩

def uses : Instr → Uses
  | .add u h d a b | .sub u h d a b | .mul u h d a b | .mulhI32 u h d a b | .mulhN32 u h d a b | .minI32 u h d a b | .maxI32 u h d a b
  | .minN32 u h d a b | .maxN32 u h d a b | .andB u h d a b | .orB u h d a b | .xorB u h d a b | .andnB u h d a b | .shl u h d a b
  | .shr u h d a b | .sar u h d a b | .rotl u h d a b | .bfxN32 u h d a b | .bfxI32 u h d a b =>
    ⟨u, h, locR u a :: selLocs u b, [locR u d], 4, {}⟩
  | .mad u h d a b | .bfi u h d a b => ⟨u, h, locR u d :: locR u a :: selLocs u b, [locR u d], 4, {}⟩
  | .addx u h d a b | .subx u h d a b => ⟨u, h, pairLocs u a ++ selLocs64 u b, pairLocs u d, 4, {}⟩
  | .negI u h d a | .absI u h d a | .notB u h d a | .clz u h d a | .popc u h d a | .brev u h d a | .mov u h d a | .sxtI8 u h d a
  | .sxtI16 u h d a | .zxtN8 u h d a | .zxtN16 u h d a => ⟨u, h, [locR u a], [locR u d], 4, {}⟩
  | .sxtI32 u h d a | .zxtN32 u h d a => ⟨u, h, [locR u a], pairLocs u d, 4, {}⟩
  | .lea u h d _ a b => ⟨u, h, pairLocs u (a ++ 0#1) ++ selLocs u b, pairLocs u (d ++ 0#1), 4, {}⟩
  | .sel u p _ d a b => ⟨u, ⟨7#3, false⟩, locPred u p :: locR u a :: selLocs u b, [locR u d], 4, {}⟩
  | .cmpI32 u h _ p a b | .cmpN32 u h _ p a b => ⟨u, h, locR u a :: selLocs u b, [locPred u p], 4, {}⟩
  | .pand u h d a b | .por u h d a b | .pxor u h d a b => ⟨u, h, [locPred u a, locPred u b], [locPred u d], 4, {}⟩
  | .pnot u h d a => ⟨u, h, [locPred u a], [locPred u d], 4, {}⟩
  | .movi u h d _ => ⟨u, h, [], [locR u d], 4, {}⟩
  | .movh u h d _ => ⟨u, h, [], [locR u (d + 1)], 4, {}⟩
  | .bra u h _ => ⟨u, h, [], [], 4, endsPair⟩
  | .call h _ => ⟨true, h, [], pairLocs true 62#6, 4, endsPair⟩
  | .loop h c _ => ⟨true, h, [locG c], [], 4, endsPair⟩
  | .nop u h => ⟨u, h, [], [], 4, {}⟩
  | .brx h a | .ret h a => ⟨true, h, pairLocs true a, [], 4, endsPair⟩
  | .callx h d a => ⟨true, h, pairLocs true a, pairLocs true d, 4, endsPair⟩
  | .brk h => ⟨true, h, [], [], 4, endsPair⟩
  | .exit u h => ⟨u, h, [], [], 4, endsPair⟩
  | .gets u h d r => ⟨u, h, if r = .levelId then [locR u d] else [], if sregWide r then pairLocs u d else [locR u d], 4, {}⟩
  | .wait h _ _ _ _ _ => ⟨true, h, [], [], 4, {}⟩
  | .waitc h _ a => ⟨true, h, [locG a], [], 4, {}⟩
  | .ldGlbN8 u h d a _ => loadUses u h (pairLocs u a) d 1
  | .ldGlbN16 u h d a _ => loadUses u h (pairLocs u a) d 2
  | .ldGlbB32 u h d a _ => loadUses u h (pairLocs u a) d 4
  | .ldGlbB64 u h d a _ => loadUses u h (pairLocs u a) d 8
  | .ldGlbB128 u h d a _ => loadUses u h (pairLocs u a) d 16
  | .ldc u h d a _ => loadUses u h (pairLocs u a) d 4
  | .stGlbB8 u h d a _ => storeUses u h (pairLocs u a) d 1
  | .stGlbB16 u h d a _ => storeUses u h (pairLocs u a) d 2
  | .stGlbB32 u h d a _ => storeUses u h (pairLocs u a) d 4
  | .stGlbB64 u h d a _ => storeUses u h (pairLocs u a) d 8
  | .stGlbB128 u h d a _ => storeUses u h (pairLocs u a) d 16
  | .scopedLdGlbB32 u h d a _ _ _ => loadUses u h (pairLocs u a) d 4
  | .scopedLdGlbB64 u h d a _ _ _ => loadUses u h (pairLocs u a) d 8
  | .scopedStGlbB32 u h d a _ _ _ => storeUses u h (pairLocs u a) d 4
  | .scopedStGlbB64 u h d a _ _ _ => storeUses u h (pairLocs u a) d 8
  | .ldsB32 u h d a _ _ _ => loadUses u h [locR u a] d 4
  | .ldsB64 u h d a _ _ _ => loadUses u h [locR u a] d 8
  | .stsB32 u h d a _ _ _ => storeUses u h [locR u a] d 4
  | .stsB64 u h d a _ _ _ => storeUses u h [locR u a] d 8
  | .atomAddN32 u h d a _ _ => atomUses u h a d 4 4
  | .atomAddN64 u h d a _ _ => atomUses u h a d 8 8
  | .atomMinI32 u h d a _ _ => atomUses u h a d 4 4
  | .atomMaxI32 u h d a _ _ => atomUses u h a d 4 4
  | .atomMinN32 u h d a _ _ => atomUses u h a d 4 4
  | .atomMaxN32 u h d a _ _ => atomUses u h a d 4 4
  | .atomOr u h d a _ _ => atomUses u h a d 4 4
  | .atomAnd u h d a _ _ => atomUses u h a d 4 4
  | .atomExchB32 u h d a _ _ => atomUses u h a d 4 4
  | .atomCasB32 u h d a _ _ => atomUses u h a d 8 4
  | .atomExchB64 u h d a _ _ => atomUses u h a d 8 8
  | .atomCasB64 u h d a _ _ => atomUses u h a d 16 8
  | .atomAddF32 u h d a _ _ => atomUses u h a d 4 4
  | .atomMinF32 u h d a _ _ => atomUses u h a d 4 4
  | .atomMaxF32 u h d a _ _ => atomUses u h a d 4 4
  | .redAddN32 u h d a _ _ => storeUses u h (pairLocs u a) d 4
  | .redAddN64 u h d a _ _ => storeUses u h (pairLocs u a) d 8
  | .redMinI32 u h d a _ _ => storeUses u h (pairLocs u a) d 4
  | .redMaxI32 u h d a _ _ => storeUses u h (pairLocs u a) d 4
  | .redMinN32 u h d a _ _ => storeUses u h (pairLocs u a) d 4
  | .redMaxN32 u h d a _ _ => storeUses u h (pairLocs u a) d 4
  | .redOr u h d a _ _ => storeUses u h (pairLocs u a) d 4
  | .redAnd u h d a _ _ => storeUses u h (pairLocs u a) d 4
  | .redAddF32 u h d a _ _ => storeUses u h (pairLocs u a) d 4
  | .redMinF32 u h d a _ _ => storeUses u h (pairLocs u a) d 4
  | .redMaxF32 u h d a _ _ => storeUses u h (pairLocs u a) d 4
  | .fadd u h d a b | .fsub u h d a b | .fmul u h d a b | .fmin u h d a b | .fmax u h d a b =>
    ⟨u, h, locR u a :: selLocs u b, [locR u d], 12, {}⟩
  | .ffma u h d a b => ⟨u, h, locR u d :: locR u a :: selLocs u b, [locR u d], 12, {}⟩
  | .fneg u h d a | .fabs u h d a | .fclass u h d a | .frndRn u h d a | .frndRz u h d a | .frndRd u h d a | .frndRu u h d a =>
    ⟨u, h, [locR u a], [locR u d], 12, {}⟩
  | .rcp u h d a | .rsqrt u h d a | .sqrt u h d a | .exp2 u h d a | .log2 u h d a | .sinpi u h d a | .cospi u h d a | .tanh u h d a =>
    ⟨u, h, [locR u a], [locR u d], 28, {}⟩
  | .sincospi u h d a => ⟨u, h, [locR u a], pairLocs u d, 28, {}⟩
  | .fcmp u h _ p a b => ⟨u, h, locR u a :: selLocs u b, [locPred u p], 12, {}⟩
  | .fcvt u h d a _ _ => ⟨u, h, [locR u a, locR u d], [locR u d], 12, {}⟩
  | .fcvti u h d a t _ => ⟨u, h, [locR u a, locR u d], if intWidth t = 64 then pairLocs u d else [locR u d], 12, {}⟩
  | .icvtf u h d a _ y => ⟨u, h, locR u d :: (if intWidth y = 64 then pairLocs u a else [locR u a]), [locR u d], 12, {}⟩
  | .hadd2 h d a _ k b | .hmul2 h d a _ k b => ⟨false, h, [locV a, if k then locG b else locV b], [locV d], 12, {}⟩
  | .hfma2 h d a _ k b | .dot2 h d a _ k b => ⟨false, h, [locV d, locV a, if k then locG b else locV b], [locV d], 12, {}⟩
  | .voteMask h d p | .voteCount h d p => ⟨false, h, [locP p], [locG d], 8, {}⟩
  | .voteEvery h q p | .voteSome h q p => ⟨false, h, [locP p], [locQ q], 8, {}⟩
  | .voteSame h q b => ⟨false, h, selLocs false b, [locQ q], 8, {}⟩
  | .shflAt h d a r k | .shflBack h d a r k | .shflFwd h d a r k | .shflMix h d a r k =>
    ⟨false, h, locV a :: (if r then [locV (0#1 ++ k)] else []), [locV d], 8, {}⟩
  | .bcast h d a b => ⟨false, h, locV a :: selLocs false b, [locV d], 8, {}⟩
  | .gred h d a f => ⟨false, h, [locV a], [locG d], if gfnFloat f then 16 else 8, {}⟩
  | .scan h d a f | .scanExcl h d a f => ⟨false, h, [locV a], [locV d], if gfnFloat f then 16 else 8, {}⟩
  | .elect h d p => ⟨false, h, [], [locG d, locP p], 8, {}⟩
  | .xchg h d a _ => ⟨false, h, [locV a], [locV d], 16, endsPair⟩
  | .joinArm h _ b | .joinArmRun h _ b => ⟨true, h, selLocs true b, [], 4, {}⟩
  | .joinWait h _ => ⟨true, h, [], [], 4, endsPair⟩
  | .yield h => ⟨true, h, [], [], 4, {}⟩
  | .slotRel h a b => ⟨true, h, locG a :: selLocs true b, [], 4, {}⟩
  | .slotQ h d b => ⟨true, h, selLocs true b, pairLocs true d, 4, {}⟩
  | .fence h _ _ => ⟨true, h, [], [], 4, {}⟩
  | .barArr h _ _ | .barSync h _ _ => ⟨true, h, [], [], 4, barrierIssue⟩
  | .barWait h _ => ⟨true, h, [], [], 4, {}⟩
  | .ownTake h d a | .ownGive h d a => ⟨true, h, locG d :: pairLocs true a, [], 4, {}⟩
  | .pref u h a => ⟨u, h, pairLocs u a, [], 4, {}⟩
  | .trig u h => ⟨u, h, [], [], 4, {}⟩
  | .cpInScr h _ a _ _ | .cpInObuf h _ a _ _ | .cpOutScr h _ a _ _ => ⟨true, h, blockLocs a 8, [], 4, raises .copies⟩
  | .trecTab h _ b | .obufRsvTpl h _ b => ⟨true, h, selLocs true b, [], 4, {}⟩
  | .trecBase h _ a | .obufRsvReg h _ a => ⟨true, h, pairLocs true a, [], 4, {}⟩
  | .obufFree h _ => ⟨true, h, [], [], 4, {}⟩
  | .mma h _ a b => ⟨false, h, (blockLocs a 3).map (fun n => n - 64) ++ pairLocs true b, [], 4, raises .tiles⟩
  | .mmaFence h d => ⟨true, h, [], [locG d], 4, {}⟩
  | .mmaWait h b => ⟨true, h, selLocs true b, [], 4, {}⟩
  | .accZero h _ => ⟨true, h, [], [], 4, raises .tiles⟩
  | .accRd h d _ b => ⟨false, h, selLocs false b, [locV d], 0, raises .tiles⟩
  | .drain h _ a _ _ => ⟨true, h, blockLocs a 8, [], 4, raises .tiles⟩
  | .qcvt h d a _ k => ⟨false, h, locV a :: pairLocs true k, [locV d], 16, {}⟩
  | .deq h d q b => ⟨true, h, selLocs true b, locQ q :: blockLocs d 16, 0, accesses⟩
  | .enq h q a b | .jpost h q a b => ⟨true, h, blockLocs a 16 ++ selLocs true b, [locQ q], 0, appends⟩
  | .disp h d a b => ⟨true, h, pairLocs true a ++ selLocsBlock 4 b, blockLocs d 9, 0, accesses⟩
  | .sets h r b => ⟨true, h, if sregWide r then selLocs64 true b else selLocs true b, [], 4, {}⟩
  | .trap u h b => ⟨u, h, selLocs u b, [], 4, endsPair⟩
  | .rte h => ⟨true, h, [], [], 4, endsPair⟩
  | .halt h b => ⟨true, h, selLocs true b, [], 4, endsPair⟩
  | .leaseReq h d a _ q => ⟨true, h, pairLocs true a, [locQ q, locG d], 0, {}⟩
  | .leaseEnd h => ⟨true, h, [], [], 4, {}⟩
  | .rand h d => ⟨false, h, [], [locV d], 12, {}⟩
  | .randSeed h a => ⟨false, h, pairLocs true a, [], 12, {}⟩
  | .ctxGsave h d a | .ctxGrest h d a | .ctxWsave h d a | .ctxWrest h d a =>
    ⟨true, h, pairLocs true d ++ pairLocs true a, pairLocs true d, 0, accesses⟩
  | .ctxRemap h d => ⟨true, h, pairLocs true d, pairLocs true d, 0, {}⟩
  | .npost h a => ⟨true, h, pairLocs true a, [], 4, raises .remote⟩
  | .nctrAdd h _ _ a b => ⟨true, h, locG a :: selLocs64 true b, [], 4, accesses⟩
  | .nctrRd h d a => ⟨true, h, [locG a], pairLocs true d, 0, raises .loads⟩
  | .nctrWait h a b => ⟨true, h, locG a :: selLocs64 true b, [], 4, accesses⟩
  | .nput h a _ _ | .nget h a _ _ => ⟨true, h, blockLocs a 8, [], 4, raises .remote⟩
  | .treeRed h d a c _ => ⟨true, h, blockLocs a (c.toNat + 1), blockLocs d (c.toNat + 1), 0, accesses⟩
  | .treeBar h => ⟨true, h, [], [], 4, accesses⟩
  | .hintWide .. | .hintSched .. | .hintMod .. | .hintType .. | .accessReply .. | .storeReturn .. | .heldAccessSend .. | .prefetchFill ..
  | .switchEnd .. | .retirement .. | .workgroupCommit .. | .launchCompletion .. | .haltPropagate .. | .dependantRelease ..
  | .itemAppend .. | .deqDelivery .. | .deqClosedIndication .. | .swapOut .. | .copyBeat .. | .copyCompletion .. | .drainCompletion ..
  | .matrixPassResult .. | .xchgComplete .. | .treeRedComplete .. | .treeBarComplete .. | .dispResult .. | .nctrWaitMet .. | .entryArm ..
  | .messageArrival .. | .localCompletion .. | .networkOperationFault .. | .contextOpComplete .. | .leaseDecision .. | .leaseExpiry ..
  | .meltUpdate .. | .railEpoch .. | .clockStep .. | .coreStateTransferEnd .. | .canaryRelax .. | .retrainRetry .. | .eventWrite ..
  | .deferredTrapDelivery .. | .holdBegin .. | .holdEnd .. | .switchBegin .. | .borderMove .. | .leaseResident ..
  | .workgroupPlacement .. | .swapIn .. | .matrixPass .. | .thermalSample .. | .migrationMove .. | .dramStackOvertemp ..
  | .dramStackCool .. | .siloLinkDown .. | .siloLinkUp .. | .canaryFailure .. | .routerArbitration .. | .packetMisroute ..
  | .bellwetherCapture .. | .deadlockLaneEject .. | .flitReceive .. | .flitAcknowledge .. | .laneFailure .. | .retrainComplete ..
  | .launch .. | .enqCommand .. | .qclose .. | .qdelete .. | .cancel .. | .resync .. | .evCtlWrite .. | .evHeadWrite .. | .lqCtlWrite ..
  | .lqTailWrite .. | .registerWrite .. | .freeze .. | .hostMemoryRequest .. | .partitionCreate .. | .partitionDestroy ..
  | .l2ColumnOff .. | .getVersion .. | .getCapabilities .. | .negotiateAlgorithms .. | .getDigests .. | .getCertificate ..
  | .challenge .. | .getMeasurements .. | .keyExchange .. | .finish .. | .heartbeat .. | .keyUpdate .. | .endSession ..
  | .unsupportedSpdmRequest .. | .powerGood .. | .warmReset .. | .residencyConfirm .. | .flitReplay .. => noUses

/-! ### Conditions of issue -/

/-- A group's accesses that are performed at `wg` (R241). -/
def State.performedAt (s : State) (gid : Nat) (ids : List Nat) (wg : Bool) (w : Nat) : Bool :=
  match s.awaitAll (s.groupIsland (s.groupAt gid)) (ids.map (fun k => Await.op k wg)) with
  | none => false
  | some c => decide (c ≤ w)

/-- The operations of a group that are still in flight. -/
def State.opsOf (s : State) (gid : Nat) : List Nat := (s.ops.filter (fun p => decide (p.2.gid = gid))).map (fun p => p.1)

/-- An owner's tile queue on a lane of a logical core (R265). -/
def tileKey (o core lane : Nat) : Nat := (o * 512 + core) * 8 + lane
def State.tileQueue (s : State) (g : Group) : List TileEntry := mapGet [] s.queues (tileKey g.owner g.core g.lane)

/-- The quarters with an active thread (R133, R262). -/
def quartersOf (m : BitVec 32) : List Nat := (List.range 4).filter (fun q => decide (m.extractLsb' (8 * q) 8 ≠ 0#8))

/-- How many entries a tile operation puts into its lane's queue. -/
def tileEntries (g : Group) : Instr → Nat
  | .mma h _ _ _ => (quartersOf (g.active h)).length
  | .accZero h _ => if g.guardQ h then 1 else 0
  | .accRd h _ _ _ => if g.active h = 0#32 then 0 else 1
  | .drain h _ _ _ _ => if g.guardQ h then 1 else 0
  | _ => 0

/-- Batch n (16 bits) was closed within the last 2^15 fences (R267); `batch` counts the fences the group has made. -/
def Group.batchClosed (g : Group) (n : Nat) : Bool := decide ((g.batch + 65535 - n % 65536) % 65536 < min g.batch 32768)

/-- The first batches of the stream, up to n. -/
def upTo (n : Nat) : List Batch → List Batch
  | [] => []
  | b :: bs => if b.closed && decide (b.num % 65536 = n % 65536) then [b] else b :: upTo n bs

/-- Batch n is complete: nothing in it or before it is outstanding. A batch no longer listed has completed. -/
def Group.batchDone (g : Group) (n : Nat) : Bool :=
  !(g.batches.any (fun b => b.closed && decide (b.num % 65536 = n % 65536))) || (upTo n g.batches).all (fun b => b.ops.isEmpty)

/-- The conditions an instruction has of its own: limits, batches, room in the tile queue. -/
def State.ownCondition (s : State) (g : Group) (i : Instr) : Bool :=
  match i with
  | .wait h l t c e r => !g.guardQ h || g.waitMet l t c e r
  | .waitc h k a => !g.guardQ h || decide (g.count k ≤ (g.getG a).toNat)
  | .mmaWait h b => !g.guardQ h || !g.batchClosed ((g.opG b).extractLsb' 0 16).toNat || g.batchDone ((g.opG b).extractLsb' 0 16).toNat
  | i => decide (tileEntries g i = 0) || decide ((s.tileQueue g).length + tileEntries g i ≤ 64)

/-- The place of the predicate that guards an instruction (R21); guard 7 is none. -/
def guardLocs (u : Bool) (h : Guard) : List Nat := if h.idx = 7#3 then [] else [locPred u h.idx]

/-- An instruction can issue at cycle w; `fwd` are the places a first instruction of the pair forwards (R17, R18). Its guard is among what it reads. -/
def State.canIssue (s : State) (gid : Nat) (g : Group) (i : Instr) (w : Nat) (fwd : List Nat) : Bool :=
  let x := uses i
  let acts := !(g.lanes x.u x.guard).isEmpty
  let free (k : Nat) : Bool := fwd.contains k || decide (mapGet 0 g.avail k ≤ w)
  (guardLocs x.u x.guard).all free && x.reads.all free && x.writes.all (fun k => free k && decide (mapGet 0 g.late k = 0)) &&
  (match x.issue.cls with
    | none => true
    | some c => !acts || decide (g.count c < 63)) &&
  (!x.issue.gated || !acts || g.gate.isEmpty) &&
  (!x.issue.atWg || !acts || s.performedAt gid (s.opsOf gid) true w) &&
  (!x.issue.atDev || !acts || s.performedAt gid (s.coveredIds gid g.running) false w) &&
  s.ownCondition g i

/-- The deferred trap due at a boundary, in the order of R332. -/
def Group.dueRecord (g : Group) (w : Nat) : Option (Nat × PendRec) :=
  if g.trapMode then none else
  [causeHardware, causeIntegrity, causeEngine, causeNetwork, causeLease].findSome? (fun c => match mapFind g.pend c with
    | some r => if r.due ≤ w then some (c, r) else none
    | none => none)

/-- The word at a group's PC, when it decodes; none where its fetch or its encoding traps. -/
def State.nextIns (s : State) (g : Group) : Option (Word × Instr) :=
  match s.fetchWord g g.pc with
  | .error _ => none
  | .ok (w, _) => match decode w with
    | .error _ => none
    | .ok i => if (stateReason g i).isSome then none else some (w, i)

/-- The STALL of a hint (R34). -/
def stallOf : Instr → Nat
  | .hintSched _ _ k => k.toNat
  | _ => 0

/-- A hint issues without its bound instruction: that is uniform, or the hint stalls it (R16, R34). -/
def hintAlone (h i : Instr) : Bool := (uses i).u || decide (stallOf h ≠ 0)

/-- The next instruction of a group can issue at cycle w. -/
def State.nextReady (s : State) (gid : Nat) (g : Group) (w : Nat) : Bool :=
  match s.nextIns g with
  | none => true
  | some (hw, i) =>
    if isHint hw then
      match State.pairTrap { s with cur := gid } hw with
      | some _ => true
      | none =>
        let g1 : Group := { g with hint := some ⟨g.pc, hw, i⟩, pc := g.pc + 4 }
        match s.nextIns g1 with
        | none => true
        | some (_, b) => hintAlone i b || s.canIssue gid g1 b w []
    else s.canIssue gid g i w []

/-- A group exists, has threads, and no issued instruction of it is still waiting. -/
def Group.idle (g : Group) (w : Nat) : Bool := g.live && !g.isEnded && g.busy.isNone && g.waitSlot.isNone && decide (g.readyAt ≤ w)

/-- Its launch may issue, and its workgroup is on its core (R288, R293, R408). -/
def State.placed (s : State) (g : Group) : Bool :=
  let l := s.launchAt g.launch
  !l.waits && l.confirmed && (mapFind s.swapped g.wg).isNone

/-- Ready (R147), but for `yield`. -/
def State.ready (s : State) (gid : Nat) (w : Nat) : Bool :=
  let g := s.groupAt gid
  g.idle w && s.placed g &&
  (if g.hint.isSome then decide (g.stall = 0) && s.nextReady gid g w else (g.dueRecord w).isSome || s.nextReady gid g w)

/-- The groups of an owner on a lane of a logical core. -/
def State.laneGroups (s : State) (o core lane : Nat) : List Nat :=
  (s.groups.filter (fun p => p.2.live && !p.2.isEnded && decide (p.2.owner = o) && decide (p.2.core = core) && decide (p.2.lane = lane))).map (fun p => p.1)

/-- Ready, and not kept from it by `yield` (R175). -/
def State.readyNow (s : State) (gid : Nat) (w : Nat) : Bool := s.ready gid w && (s.groupAt gid).yieldFor.isEmpty

/-- The other groups of the current group's owner on its lane that are ready in its window (R175). -/
def State.othersReady (s : State) : List Nat :=
  let g := s.grp
  (s.laneGroups g.owner g.core g.lane).filter (fun k => decide (k ≠ s.cur) && s.readyNow k s.win)

/-- The wait of a `lease.req` or a context operation is for the group's next window; its pair is not ended (R16, R372, R379). -/
def waitsAfterPair : Instr → Bool
  | .leaseReq .. | .ctxGsave .. | .ctxGrest .. | .ctxWsave .. | .ctxWrest .. | .ctxRemap .. => true
  | _ => false

/-- An instruction may pair with one whose result is still to come: it waits for nothing of its own and names no register of that result (R18). -/
def leavesAlone (x y : Uses) : Bool := !y.issue.ends && (y.reads ++ y.writes ++ guardLocs y.u y.guard).all (fun k => !x.writes.contains k)

/-- A second instruction pairs with the first of the window, which has issued and not ended its pair (R16 to R18, R372, R410). (DEDUCED, log 37) -/
def State.pairs (s : State) (first : Instr) : Bool :=
  let g := s.grp
  let x := uses first
  let raised := x.issue.cls.isSome && !(g.lanes x.u x.guard).isEmpty
  Group.idle (if waitsAfterPair first then { g with busy := none } else g) s.win &&
  (match s.nextIns g with
  | none => false
  | some (w, i) => !isHint w && ((uses i).u != x.u) && (g.busy.isNone || leavesAlone x (uses i)) && (!raised || (match i with
    | .wait h _ _ _ _ _ | .waitc h _ _ => !g.guardQ h
    | _ => true)) && s.canIssue s.cur g i s.win (if x.lat = 4 then x.writes else []))

end Sys2Proof.Machine
end

