-- ==== Sys2Proof/Machine/Parallel.lean ====
section
/-! DEFINITION. Instructions of the parallel machine: votes, election, shuffles, reductions and scans, exchange, joins, yield and the slot
instructions: majors 0x40 to 0x4B (R159 to R177). -/

namespace Sys2Proof.Machine

/-- One result for the group from the threads of Active(), when there are any (R159). -/
def State.gather (s : State) (h : Guard) (lat : Nat) (locs : List Nat) (f : Group → BitVec 32 → Group) : State :=
  let g := s.grp
  let a := g.active h
  if a = 0#32 then s.finish g else s.finish ((f g a).mark s.win lat locs)

/-! ### Votes and election (R162, R163) -/

/-- The threads of a set whose predicate holds. -/
def Group.voters (g : Group) (a : BitVec 32) (p : BitVec 3) : BitVec 32 := maskOf (fun t => a.getLsbD t && g.getP p t)

/-- `vote.mask` (R162). -/
def execVoteMask (h : Guard) (d : Reg) (p : BitVec 3) (s : State) : Res :=
  .next (s.gather h 8 [locG d] (fun g a => g.setG d (g.voters a p)))

/-- `vote.every` (R162). -/
def execVoteEvery (h : Guard) (q p : BitVec 3) (s : State) : Res :=
  .next (s.gather h 8 [locQ q] (fun g a => g.setQ q (decide (g.voters a p = a))))

/-- `vote.some` (R162). -/
def execVoteSome (h : Guard) (q p : BitVec 3) (s : State) : Res :=
  .next (s.gather h 8 [locQ q] (fun g a => g.setQ q (decide (g.voters a p ≠ 0#32))))

/-- `vote.same` (R162): one 32-bit value in every thread. -/
def execVoteSame (h : Guard) (q : BitVec 3) (b : BSel) (s : State) : Res :=
  .next (s.gather h 8 [locQ q] (fun g a =>
    let xs := (bitsOf a).map (fun t => g.opB (some t) b)
    g.setQ q (xs.all (fun x => decide (some x = xs.head?)))))

/-- `vote.count` (R162). -/
def execVoteCount (h : Guard) (d : Reg) (p : BitVec 3) (s : State) : Res :=
  .next (s.gather h 8 [locG d] (fun g a => g.setG d (BitVec.ofNat 32 (bitsOf (g.voters a p)).length)))

/-- `elect` (R163): the lowest active thread; with pd 7 no predicate is written. -/
def execElect (h : Guard) (d : Reg) (p : BitVec 3) (s : State) : Res :=
  .next (s.gather h 8 (if p = 7#3 then [locG d] else [locG d, locP p]) (fun g a =>
    let e := (lowestBit a).getD 0
    let g1 := g.setG d (BitVec.ofNat 32 e)
    if p = 7#3 then g1 else g1.writePred ((bitsOf a).map some) p (fun l => decide (l = some e))))

/-! ### Moving values (R164, R165) -/

/-- The modes of `shfl`. -/
inductive ShflMode where
  | at_ | back | fwd | mix
  deriving DecidableEq, Repr

/-- The source thread that a reader names, unless it lies outside the group. -/
def ShflMode.source (m : ShflMode) (t n : Nat) : Option Nat :=
  let r : Option Nat := match m with
    | .at_ => some n
    | .back => if n ≤ t then some (t - n) else none
    | .fwd => some (t + n)
    | .mix => if n < 32 then some (t ^^^ n) else none
  r.filter (fun x => decide (x < 32))

/-- `shfl`: a source outside the group or not active leaves the reader's own value. -/
def State.shuffle (s : State) (h : Guard) (d a : Reg) (m : ShflMode) (r : Bool) (k : BitVec 5) : State :=
  let g := s.grp
  let act := g.active h
  s.alu false h d 8 (fun l =>
    let t := l.getD 0
    let n := if r then (g.getV (0#1 ++ k) t).toNat else k.toNat
    match m.source t n with
    | some x => if act.getLsbD x then g.getV a x else g.getV a t
    | none => g.getV a t)

/-- `shfl.at` (R164). -/
def execShflAt (h : Guard) (d a : Reg) (r : Bool) (k : BitVec 5) (s : State) : Res := .next (s.shuffle h d a .at_ r k)

/-- `shfl.back` (R164). -/
def execShflBack (h : Guard) (d a : Reg) (r : Bool) (k : BitVec 5) (s : State) : Res := .next (s.shuffle h d a .back r k)

/-- `shfl.fwd` (R164). -/
def execShflFwd (h : Guard) (d a : Reg) (r : Bool) (k : BitVec 5) (s : State) : Res := .next (s.shuffle h d a .fwd r k)

/-- `shfl.mix` (R164). -/
def execShflMix (h : Guard) (d a : Reg) (r : Bool) (k : BitVec 5) (s : State) : Res := .next (s.shuffle h d a .mix r k)

/-- `bcast` (R165). -/
def execBcast (h : Guard) (d a : Reg) (b : BSel) (s : State) : Res :=
  let g := s.grp
  let act := g.active h
  let n := (g.opG b).toNat
  let src := if n < 32 ∧ act.getLsbD n then n else (lowestBit act).getD 0
  .next (s.alu false h d 8 (fun _ => g.getV a src))

/-! ### Reductions and scans (R166 to R168) -/

/-- The identity of a function. -/
def gfnIdentity : GFn → Word
  | .addI32 | .or | .xor | .maxN32 | .faddF32 => 0#32
  | .minI32 => 0x7FFFFFFF#32
  | .maxI32 => 0x80000000#32
  | .minN32 | .and => 0xFFFFFFFF#32
  | .fminF32 => 0x7F800000#32
  | .fmaxF32 => 0xFF800000#32

/-- A function of two values; `fadd.f32` rounds as `fadd` does (R322). -/
def gfnPair (f : GFn) (x y : Word) : IRes 32 :=
  match f with
  | .addI32 => ⟨x + y, 0#4⟩
  | .minI32 => ⟨minS x y, 0#4⟩
  | .maxI32 => ⟨maxS x y, 0#4⟩
  | .minN32 => ⟨minU x y, 0#4⟩
  | .maxN32 => ⟨maxU x y, 0#4⟩
  | .and => ⟨x &&& y, 0#4⟩
  | .or => ⟨x ||| y, 0#4⟩
  | .xor => ⟨x ^^^ y, 0#4⟩
  | .faddF32 => (addF (layoutOf .f32) .rn false (f32Val x) (f32Val y)).word
  | .fminF32 => ⟨fminBits x y, 0#4⟩
  | .fmaxF32 => ⟨fmaxBits x y, 0#4⟩

/-- Combine over a set: `fadd.f32` is FSum, rounded once; the others fold from the identity; an empty set gives the identity. (DEDUCED, log 52) -/
def combine (f : GFn) (xs : List Word) : IRes 32 :=
  if xs.isEmpty then ⟨gfnIdentity f, 0#4⟩
  else if f = .faddF32 then (sumVals (layoutOf .f32) .rn false (xs.map f32Val)).word
  else ⟨xs.foldl (fun x y => (gfnPair f x y).val) (gfnIdentity f), 0#4⟩

def gfnLatency (f : GFn) : Nat := if gfnFloat f then 16 else 8

/-- `gred` (R167). -/
def execGred (h : Guard) (d a : Reg) (f : GFn) (s : State) : Res :=
  .next (s.gather h (gfnLatency f) [locG d] (fun g act =>
    let r := combine f ((bitsOf act).map (g.getV a))
    (g.setG d r.val).raise ((bitsOf act).map some) (fun _ => r.fl)))

/-- A scan: each thread combines the active threads up to itself, or below it. -/
def State.prefixes (s : State) (h : Guard) (d a : Reg) (f : GFn) (excl : Bool) : State :=
  let g := s.grp
  let act := g.active h
  s.aluF false h d (gfnLatency f) (fun l =>
    let t := l.getD 0
    combine f (((bitsOf act).filter (fun x => if excl then decide (x < t) else decide (x ≤ t))).map (g.getV a)))

/-- `scan` (R168). -/
def execScan (h : Guard) (d a : Reg) (f : GFn) (s : State) : Res := .next (s.prefixes h d a f false)

/-- `scan.excl` (R168). -/
def execScanExcl (h : Guard) (d a : Reg) (f : GFn) (s : State) : Res := .next (s.prefixes h d a f true)

/-! ### Exchange (R170 to R172) -/

/-- The group at the same context of the partner core: the one that stands there, else one that is saved from there, whose context still counts as
holding it, but for a group swapped out, whose context is free (R170, R172, R293; DESIGN CHOICE, log 66). -/
def State.partner (s : State) (g : Group) : Option Nat :=
  let mate (here : Group → Bool) : Option Nat :=
    (s.groups.find? (fun p => here p.2 && !p.2.isEnded && (mapFind s.swapped p.2.wg).isNone && decide (p.2.owner = g.owner) && decide (p.2.core = g.core ^^^ 4)
      && decide (p.2.lane = g.lane) && decide (p.2.ctx = g.ctx))).map (fun p => p.1)
  (mate (fun x => x.live)).or (mate (fun x => x.away))

/-- The owner holds a logical core: an elastic context one on which its borders leave it slots (R157). -/
def State.hasCore (s : State) (o c : Nat) : Bool :=
  match s.part o with
  | none => false
  | some r => r.cores.contains c && (decide (r.kind ≠ .elastic) || (s.ownerAt o).lanes.any (fun p => decide (p.1 / 8 = c) && decide (p.2.1 ≠ 0)))

/-- The two cores stand in clusters n and n XOR 1 of one island (R170). -/
def State.paired (s : State) (o c : Nat) : Bool :=
  let a := s.phys o c
  let b := s.phys o (c ^^^ 4)
  decide (islandOf a = islandOf b) && decide (clusterOf b = clusterOf a ^^^ 1)

/-- The waiting exchange of a group that is its n-th: each group counts its own from its creation, also where one of the pair's contexts has a new
group meanwhile (R171; DESIGN CHOICE, log 66). -/
def State.xchgWaiting (s : State) (gid n : Nat) : Option (Nat × WaitOp) :=
  s.waits.findSome? (fun p => match p.2.kind with
    | .xchg m _ _ _ _ false => if p.2.gid = gid ∧ m = n then some (p.1, p.2) else none
    | _ => none)

/-- The current instruction has issued and its group waits for record k. -/
def State.await (s : State) (g : Group) (kind : WaitKind) (due : Option Nat) : State :=
  let k := s.fresh
  let x : WaitOp := { gid := s.cur, owner := g.owner, island := s.groupIsland g, pc := g.trapAt, w := s.win, kind := kind, due := due }
  let s := s.finish { g with busy := some k, barMark := g.markHere }
  { s with waits := mapPut s.waits k x, nextId := k + 1 }

/-- The values of a register in every thread. -/
def Group.column (g : Group) (a : Reg) : FMap Word := (List.range 32).map (fun t => (t, g.getV a t))

/-- `xchg` (R171, R172). -/
def execXchg (h : Guard) (d a : Reg) (t : BitVec 6) (s : State) : Res :=
  let g := s.grp
  let act := g.active h
  let plid := g.core ^^^ 4
  .next (if s.hasCore g.owner plid && !s.paired g.owner g.core then s.trap (syncTrap g.running 6 0 (BitVec.ofNat 64 plid))
    else match s.partner g with
    | none => s.trap (syncTrap g.running 7 0 0#64)
    | some p =>
      let n := g.xchgN
      let own := g.column a
      match s.xchgWaiting p n with
      | none => s.await { g with xchgN := n + 1 } (.xchg n t.toNat d own act false) none
      | some (k, x) =>
        match x.kind with
        | .xchg m tag pd vals mask _ =>
          if tag ≠ t.toNat then
            let both (x y : Nat) := syncTrap g.running 8 0 (BitVec.ofNat 64 (x + y * 2 ^ 32))
            let s := { s with waits := mapErase s.waits k }
            let s := s.modGroup p (fun q => { q with xchgN := q.xchgN - 1 })
            let s := s.trapGroup p { both tag t.toNat with mask := (s.groupAt p).running }
            s.trap (both t.toNat tag)
          else
            let due := s.win + 16
            let s := s.await { g with xchgN := n + 1 } (.xchg n tag d vals (act &&& mask) true) (some due)
            let mine := s.nextId - 1
            let s := { s with waits := mapPut s.waits k { x with kind := .xchg m tag pd own (act &&& mask) true, due := some due } }
            let clk := Clk.owner g.owner (s.groupIsland g)
            (s.schedule clk due (.xchgComplete k)).schedule clk due (.xchgComplete mine)
        | _ => s)

/-- XCHG_COMPLETE (R171): the values common to both sides are written and the group may go on. -/
def execXchgComplete (k : Nat) (s : State) : Res :=
  .next (match mapFind s.waits k with
    | none => s
    | some x =>
      let s := { s with waits := mapErase s.waits k }
      let g := s.groupAt x.gid
      match x.kind with
      | .xchg _ _ d vals mask true =>
        if g.isEnded then s else
        s.setGroupAt x.gid { (bitsOf mask).foldl (fun g t => g.setV d t (mapGet 0#32 vals t)) g with busy := none }
      | _ => s)

/-! ### Joins (R142, R173, R174) -/

/-- Arm (R142). -/
def State.arm (s : State) (k : Nat) (mask : BitVec 32) : State :=
  let g := s.grp
  let j := mapGet {} g.joins k
  if j.armed ∧ j.arrived ≠ 0#32 then s.trap (syncTrap g.running 3 k 0#64)
  else
    let e := mask &&& g.notEnded
    s.finish { g with joins := mapSet {} g.joins k ⟨decide (e ≠ 0#32), e, 0#32⟩ }

/-- `join.arm` (R173). -/
def execJoinArm (h : Guard) (k : BitVec 3) (b : BSel) (s : State) : Res :=
  .next (if s.grp.guardQ h then s.arm k.toNat (s.grp.opG b) else s.finish s.grp)

/-- `join.arm.run` (R173). -/
def execJoinArmRun (h : Guard) (k : BitVec 3) (b : BSel) (s : State) : Res :=
  .next (if s.grp.guardQ h then s.arm k.toNat (s.grp.opG b &&& s.grp.running) else s.finish s.grp)

/-- Arrive (R142): the Running threads join, to go on at P + 4. A release that lets them go on there at once makes the end-of-iteration step of
R107 as any instruction does; otherwise the group is sent elsewhere. -/
def State.arrive (s : State) (k : BitVec 3) : State :=
  let g := s.grp
  let j := mapGet {} g.joins k.toNat
  let run := g.running
  if j.armed = false then s.finish g
  else if run &&& ~~~j.expect ≠ 0#32 then s.trap (syncTrap (run &&& ~~~j.expect) 4 k.toNat 0#64)
  else
    let g1 := { g with
      threads := setStates g.threads run (fun t => { t with st := .joined k, resume := g.pc + 4 })
      joins := mapSet {} g.joins k.toNat { j with arrived := j.arrived ||| run } }
    let merged := g1.releaseSet k.toNat
    let s := s.setGrp g1
    let s := if merged = 0#32 then s else s.mergeHist s.cur merged
    let g2 := s.grp.checkRelease k.toNat
    if g2.running ≠ 0#32 ∧ g2.pc = g.pc + 4 then s.finish { g2 with pc := g.pc }
    else State.select (s.setGrp { g2 with hint := none })

/-- `join.wait` (R174). -/
def execJoinWait (h : Guard) (k : BitVec 3) (s : State) : Res :=
  .next (if s.grp.guardQ h then s.arrive k else s.finish s.grp)

/-! ### Yield and slots (R175 to R177) -/

/-- `yield` (R175). (DEDUCED, log 44) -/
def execYield (h : Guard) (s : State) : Res :=
  let g := s.grp
  .next (if g.guardQ h then s.finish { g with yieldFor := s.othersReady.map (fun k => (k, false)) } else s.finish g)

/-- The first cycle of the first period after a cycle. -/
def nextPeriod (w : Nat) : Nat := periodOf w + 32

/-- `slot.rel` (R176): whole periods that begin after this window and before its horizon. -/
def execSlotRel (h : Guard) (a : Reg) (b : BSel) (s : State) : Res :=
  let g := s.grp
  let w := s.win
  let first := nextPeriod w
  let stop := w + (g.getG a).toNat
  let mask := (g.opG b).extractLsb' 0 8 &&& s.ownMask g
  .next (if !g.guardQ h || decide (stop ≤ first) then s.finish g else
    (s.modOwner g.owner (fun o => { o with
      releases := (List.range 8).foldl (fun m i =>
        if mask.getLsbD i then mapPut m (rotaKey g.core g.lane i) (mapGet [] m (rotaKey g.core g.lane i) ++ [(first, stop)]) else m) o.releases })).finish g)

/-- The end of the run of periods covered by releases that begins at period p. -/
def runEnd (rs : List (Nat × Nat)) : Nat → Nat → Nat
  | 0, p => p
  | n + 1, p => match rs.find? (fun r => decide (r.1 ≤ p) && decide (p < r.2)) with
    | none => p
    | some r => runEnd rs n (periodOf (r.2 + 31))

/-- What `slot.q` answers for a slot of the owner at a cycle (R177). -/
def releaseEnd (rs : List (Nat × Nat)) (w : Nat) : Nat :=
  let cur := periodOf w
  let starts := rs.filterMap (fun r => if max cur r.1 < r.2 then some (max cur r.1) else none)
  match starts.min? with
  | none => 0
  | some p => runEnd rs (rs.length + 1) p

/-- `slot.q` (R177). -/
def execSlotQ (h : Guard) (d : Reg) (b : BSel) (s : State) : Res :=
  let g := s.grp
  let i := (g.opG b).toNat % 8
  .next (s.alu64 true h d 4 (fun _ =>
    if (s.ownMask g).getLsbD i then BitVec.ofNat 64 (releaseEnd (mapGet [] (s.ownerAt g.owner).releases (rotaKey g.core g.lane i)) s.win)
    else 0xFFFFFFFFFFFFFFFF#64))

end Sys2Proof.Machine
end

