-- ==== Sys2Proof/Machine/Blocks.lean ====
section
/-! DEFINITION. Block formats and block arithmetic: DX elements and blocks, quantising a block, the block step of the matrix unit, and drain
images (R253 to R256, R260, R263, R269). -/

namespace Sys2Proof.Machine

/-- A format of an operand (R69): a floating type or a DX format. -/
inductive OpFmt where
  | flt (t : FType) | dx (f : DxFmt)
  deriving DecidableEq, Repr

/-- The format codes of R69 that operands and drains may have: 0x00 to 0x04 and 0x10 to 0x12. -/
def opFmtOf (c : Nat) : Option OpFmt :=
  match c with
  | 0 => some (.flt .f32)
  | 1 => some (.flt .f16)
  | 2 => some (.flt .bf16)
  | 3 => some (.flt .e4m3)
  | 4 => some (.flt .e5m2)
  | 16 => some (.dx .dx8)
  | 17 => some (.dx .dx6)
  | 18 => some (.dx .dx4)
  | _ => none

/-- Element width, fraction bits (R253). -/
def dxWidth : DxFmt → Nat
  | .dx8 => 8 | .dx6 => 6 | .dx4 => 4
def dxFrac : DxFmt → Nat
  | .dx8 => 5 | .dx6 => 3 | .dx4 => 1
/-- Mmax (R255). -/
def dxMax (f : DxFmt) : Nat := 2 ^ (dxWidth f - 2) - 1

def OpFmt.bits : OpFmt → Nat
  | .flt t => ftypeWidth t
  | .dx f => dxWidth f

def OpFmt.isDx : OpFmt → Bool
  | .flt _ => false
  | .dx _ => true

/-- β: the bytes of a block of 32 elements (R253, R260). -/
def OpFmt.block (f : OpFmt) : Nat := 4 * f.bits

/-- The weight of a quarter operation (R265). -/
def OpFmt.weight : OpFmt → Nat
  | .dx .dx4 => 1
  | .dx .dx6 => 2
  | .dx .dx8 => 4
  | .flt .e4m3 | .flt .e5m2 => 4
  | .flt .f16 | .flt .bf16 => 8
  | .flt .f32 => 32

/-! ### Exact values in lowest terms -/

def Exact.reduce (x : Exact) : Exact :=
  let k := Nat.gcd x.n x.d
  if k = 0 then x else ⟨x.s, x.n / k, x.d / k⟩

def Exact.zero : Exact := ⟨false, 0, 1⟩
def Exact.ofNat (n : Nat) : Exact := ⟨false, n, 1⟩
def Exact.neg (x : Exact) : Exact := { x with s := !x.s }
def Exact.abs (x : Exact) : Exact := { x with s := false }
def Exact.plus (x y : Exact) : Exact := (Exact.add .rn x y).reduce
def Exact.times (x y : Exact) : Exact := (x.mul y).reduce
/-- The quotient by a value that is not zero. -/
def Exact.over (x y : Exact) : Exact := (Exact.mk (x.s != y.s) (x.n * y.d) (x.d * y.n)).reduce
def Exact.le (x y : Exact) : Bool := !y.lt x

/-- The sum of values whose denominators are powers of two; a zero sum keeps a sign that all terms share (R82). -/
def sumAligned (xs : List Exact) : Exact :=
  let d := xs.foldl (fun m x => max m x.d) 1
  let t : Int := xs.foldl (fun m x => m + x.num * (d / x.d : Nat)) 0
  if t = 0 then ⟨decide (xs ≠ []) && xs.all (fun x => x.s), 0, 1⟩ else ⟨decide (t < 0), t.natAbs, d⟩

/-! ### Elements (R253, R254) -/

/-- The i-th element of w bits of a block held as a number. -/
def elemCode (w i : Nat) (block : Nat) : Nat := block / 2 ^ (w * i) % 2 ^ w

/-- The value of a DX element code under its block's scale codes and the tensor scale. -/
def dxValue (f : DxFmt) (code s0 s1 : Nat) (t : Word) : FVal :=
  let w := dxWidth f
  let m := code % 2 ^ (w - 2)
  let s := decide (code / 2 ^ (w - 2) % 2 = 1)
  let scale := (layoutOf .e4m3).value (if code / 2 ^ (w - 1) % 2 = 1 then s1 else s0)
  match scale, f32Val t with
  | .fin x, .fin y => if m = 0 then .fin Exact.zero else .fin (((Exact.mk s m (2 ^ dxFrac f)).mul x).mul y)
  | _, _ => .nan

/-- The 32 values of a block, from its bytes and its scale pair. -/
def blockValues (f : OpFmt) (bytes : List Byte) (s0 s1 : Nat) (t : Word) : List FVal :=
  let n := ofBytes bytes
  match f with
  | .flt ty => (List.range 32).map (fun i => (layoutOf ty).value (elemCode (ftypeWidth ty) i n))
  | .dx d => (List.range 32).map (fun i => dxValue d (elemCode (dxWidth d) i n) s0 s1 t)

/-! ### The block step (R263) -/

/-- One block step on an accumulator element: the exact sum of the element and 32 products, rounded once. -/
def blockStep (c : Word) (a b : List FVal) : Word :=
  let ts := (a.zip b).map (fun p => mulVals p.1 p.2)
  let vs := f32Val c :: ts.filterMap id
  if ts.any (fun t => t.isNone) || vs.any FVal.isNan then f32NaN
  else
    let pos := vs.any (fun t => decide (t = .inf false))
    let neg := vs.any (fun t => decide (t = .inf true))
    if pos && neg then f32NaN
    else if pos then f32Code (.inf false)
    else if neg then f32Code (.inf true)
    else
      let xs := vs.filterMap (fun t => match t with
        | .fin x => some x
        | .nan | .inf _ => none)
      BitVec.ofNat 32 (deliver (layoutOf .f32) .rn false (sumAligned xs)).bits

/-! ### Quantising a block (R256) -/

/-- The smallest non-negative E4M3 code whose value is not below v, 0x7E (448) above all. -/
def roundUpE4M3 (v : Exact) : Nat :=
  ((List.range 0x7F).find? (fun c => v.le ((layoutOf .e4m3).magnitude c))).getD 0x7E

def roundE4M3 (v : Exact) : Nat := (narrowFloat (layoutOf .e4m3) false .rn (.fin v)).bits

/-- The element step's outcome: its code, its flags, the residual carried on. -/
structure QStep where
  code : Nat
  fl : Flags
  res : Exact

/-- One element (R256): y the exact value over T, u0 and u1 the units of the two scales. An element cut to Mmax is inexact even where it lies on the grid,
as R256's own steps have it, though R87's Narrow would not raise INX (DEDUCED, log 91). -/
def quantStep (f : DxFmt) (u0 u1 : Exact) (x : FVal) (y : Exact) (res : Exact) : QStep :=
  let w := dxWidth f
  let mm := dxMax f
  match x with
  | .nan => ⟨0, flagINV, Exact.zero⟩
  | .inf s => ⟨2 ^ (w - 1) + (if s then 2 ^ (w - 2) else 0) + mm, flagSAT ||| flagOVF ||| flagINX, Exact.zero⟩
  | .fin _ =>
    let z := y.plus res
    let sel := !(z.abs.le ((Exact.ofNat mm).times u0))
    let u := if sel then u1 else u0
    let m := if z.isZero then 0 else roundNat .rn z.s (z.n * u.d) (z.d * u.n)
    let half := !z.isZero && z.abs.eqv ((Exact.mk false (2 * mm + 1) 2).times u)
    let big := decide (mm < m)
    let m1 := if half || big then mm else m
    let back := (Exact.mk z.s m1 1).times u
    let fl := (if half then flagOVF else if big then flagSAT ||| flagOVF else 0#4) ||| (if back.eqv z then 0#4 else flagINX)
    let res1 := if big && !half then Exact.zero else z.plus back.neg
    ⟨(if sel then 2 ^ (w - 1) else 0) + (if z.s ∧ m1 ≠ 0 then 2 ^ (w - 2) else 0) + m1, fl, res1⟩

/-- A quantised block: 32 codes, the flags each element raised, and the two scale codes. -/
structure QBlock where
  codes : List Nat
  fls : List Flags
  s0 : Nat
  s1 : Nat

def quantLoop (f : DxFmt) (u0 u1 : Exact) : List (FVal × Exact) → Exact → List (Nat × Flags)
  | [], _ => []
  | (x, y) :: rest, res =>
    let q := quantStep f u0 u1 x y res
    (q.code, q.fl) :: quantLoop f u0 u1 rest q.res

/-- QuantiseBlock (R256). A tensor scale that is not finite and positive gives zeros with INV. -/
def quantiseBlock (xs : List Word) (t : Word) (k : Nat) (f : DxFmt) : QBlock :=
  let bad : QBlock := ⟨List.replicate 32 0, List.replicate 32 flagINV, 0, 0⟩
  match f32Val t with
  | .nan | .inf _ => bad
  | .fin tv =>
    if tv.isZero || tv.s then bad else
    let vs := xs.map (fun w =>
      let v := f32Val w
      match v with
      | .fin x => (v, x.over tv)
      | .nan | .inf _ => (v, Exact.zero))
    let infs := vs.any (fun p => match p.1 with
      | .inf _ => true
      | .nan | .fin _ => false)
    let top := vs.foldl (fun m p => if m.lt p.2.abs then p.2.abs else m) Exact.zero
    let s1 := if infs then 0x7E else roundUpE4M3 (top.over (Exact.mk false (dxMax f) (2 ^ dxFrac f)))
    let v1 := (layoutOf .e4m3).magnitude s1
    let s0 := roundE4M3 (v1.times ⟨false, 1, 2 ^ k⟩)
    let unit (c : Nat) : Exact := ((layoutOf .e4m3).magnitude c).times ⟨false, 1, 2 ^ dxFrac f⟩
    let es := quantLoop f (unit s0) (unit s1) vs Exact.zero
    ⟨es.map (fun p => p.1), es.map (fun p => p.2), s0, s1⟩

/-- The bytes of a block of codes. -/
def packBlock (w : Nat) (codes : List Nat) : List Byte :=
  leBytes (4 * w) ((codes.zipIdx).foldl (fun n p => n + p.1 * 2 ^ (w * p.2)) 0)

/-! ### Drain images (R269) -/

/-- The image of 32 lines of 32 values in a format, and the flags raised in making it. -/
def drainImage (lines : List (List Word)) (f : OpFmt) (t : Word) (k : Nat) (v2 : Bool) : List Byte × Flags :=
  match f with
  | .dx d =>
    let qs := lines.map (fun l => quantiseBlock l t k d)
    (qs.flatMap (fun q => packBlock (dxWidth d) q.codes) ++ qs.flatMap (fun q => [BitVec.ofNat 8 q.s0, BitVec.ofNat 8 q.s1]),
      qs.foldl (fun m q => q.fls.foldl (fun m f => m ||| f) m) 0#4)
  | .flt .f32 => (lines.flatMap (fun l => l.flatMap (fun x => leBytes 4 (if (f32Val x).isNan then f32NaN else x).toNat)), 0#4)
  | .flt ty =>
    let rs := lines.flatMap (fun l => l.map (fun x => narrowFloat (layoutOf ty) v2 .rn (f32Val x)))
    (rs.flatMap (fun r => leBytes (ftypeWidth ty / 8) r.bits), rs.foldl (fun m r => m ||| r.fl) 0#4)

/-- Rows, or columns, of a tile held in row order. -/
def tileLines (tile : List Word) (transposed : Bool) : List (List Word) :=
  (List.range 32).map (fun j => (List.range 32).map (fun i => tile.getD (if transposed then 32 * i + j else 32 * j + i) 0#32))

end Sys2Proof.Machine
end

