-- ==== Sys2Proof/Machine/Engines.lean ====
section
/-! DEFINITION. Engines of a core: tensor slots, copies, reservations, the matrix unit's queues and passes, batches, accumulator operations,
drains and `qcvt`: majors 0x60 to 0x6B (R257 to R270, R294 to R307, R325 to R328), and the events that complete them. -/

namespace Sys2Proof.Machine

/-! ### Tensor records (R69, R296 to R298, R325) -/

/-- The bytes of an element of a scalar type code (R37). -/
def scalarBytes (c : Nat) : Nat :=
  match c with
  | 0 => 4 | 1 => 2 | 2 => 2 | 3 => 1 | 4 => 1 | 5 => 1 | 6 => 1 | 7 => 2 | 8 => 2 | 9 => 4 | 10 => 4 | 11 => 8 | 12 => 8 | _ => 0

/-- The DX format of a record, if it has one. -/
def Trec.dx (r : Trec) : Option DxFmt :=
  match opFmtOf r.fmt with
  | some (.dx f) => some f
  | some (.flt _) | none => none

/-- The elements and the bytes of one unit of a copy: a DX block of 32, or one element. -/
def Trec.step (r : Trec) : Nat := if r.dx.isSome then 32 else 1
def Trec.unit (r : Trec) : Nat := match r.dx with
  | some f => 4 * dxWidth f
  | none => scalarBytes r.fmt

def Trec.dim (r : Trec) (k : Nat) : Nat := (r.dims.getD k 0#32).toNat
def Trec.stride (r : Trec) (k : Nat) : Int := (r.strides.getD k 0#64).toInt

/-- The record obeys R298 for a first coordinate. -/
def Trec.ok (r : Trec) (c0 : Nat) : Bool :=
  decide (r.unit ≠ 0) && decide (1 ≤ r.rank) && decide (r.rank ≤ 4) && decide (1 ≤ r.rows) && decide (1 ≤ r.cols) &&
  (decide (r.rows = 1) || decide (2 ≤ r.rank)) &&
  (r.dx.isNone || (decide (r.stride 0 = 1) && decide (c0 % 32 = 0) && decide (r.cols % 32 = 0) &&
    (List.range r.rank).all (fun k => decide (k = 0) || decide (r.stride k % 32 = 0))))

def slotKey (wg k : Nat) : Nat := wg * 16 + k

/-- The owner cycle at which a workgroup's core stands. -/
def State.wgNow (s : State) (wg : Nat) : Nat := let w := s.wgAt wg; s.cycOf w.owner (islandOf (s.phys w.owner w.core))

/-- What a tensor slot holds: an instruction's result is there 4 cycles after its window began (R295). -/
def State.trecAt (s : State) (wg k : Nat) : Option Trec :=
  match mapFind s.trecOld (slotKey wg k) with
  | some (r, c) => if s.wgNow wg < c then r else mapFind s.trec (slotKey wg k)
  | none => mapFind s.trec (slotKey wg k)

/-- The current group writes a tensor slot. -/
def State.putTrec (s : State) (g : Group) (k : Nat) (r : Trec) : State :=
  let key := slotKey g.wg k
  { s with trecOld := mapPut s.trecOld key (s.trecAt g.wg k, s.win + 4), trec := mapPut s.trec key r }

/-- What a reservation record holds: an instruction's result is there 4 cycles after its window began (R295). -/
def State.rsvAt (s : State) (wg k : Nat) : Rsv :=
  let new : Rsv := mapGet {} s.rsv (slotKey wg k)
  match mapFind s.rsvOld (slotKey wg k) with
  | some (r, c) => if s.wgNow wg < c then r else new
  | none => new

/-- The current group writes a reservation record. -/
def State.putRsv (s : State) (g : Group) (k : Nat) (r : Rsv) : State :=
  let key := slotKey g.wg k
  { s with rsvOld := mapPut s.rsvOld key (s.rsvAt g.wg k, s.win + 4), rsv := mapSet {} s.rsv key r }

/-- Blocks of 32 that a tile row takes in an operand buffer. -/
def Trec.blocksPerRow (r : Trec) : Nat := (r.cols + 31) / 32

/-- β of a record's elements as an operand; an integer type is none. -/
def Trec.beta (r : Trec) : Nat := ((opFmtOf r.fmt).map OpFmt.block).getD 1

/-- The bytes of a dense tile image (R254, R299). -/
def Trec.image (r : Trec) : Nat :=
  let n := r.rows * r.cols / r.step
  n * r.unit + (if r.dx.isSome then 2 * n else 0)

/-- `trec.tab` (R297). -/
def execTrecTab (h : Guard) (k : BitVec 4) (b : BSel) (s : State) : Res :=
  let g := s.grp
  .next (if !g.guardQ h then s.finish g else
    match (s.launchAt g.launch).trecs[(g.opG b).toNat]? with
    | none => s.trap (engTrap g.running 6 0 g.trapAt)
    | some r => (s.putTrec g k.toNat r).finish g)

/-- `trec.base` (R297). -/
def execTrecBase (h : Guard) (k : BitVec 4) (a : Reg) (s : State) : Res :=
  let g := s.grp
  .next (if !g.guardQ h then s.finish g else
    match s.trecAt g.wg k.toNat with
    | none => s.trap (engTrap g.running 6 0 g.trapAt)
    | some r => (s.putTrec g k.toNat { r with base := g.getG64 a }).finish g)

/-! ### What engines read (R217) -/

/-- One key for a byte of memory or of a slice. -/
def slotBase : Nat := 2 ^ 60
def placeKey : Place → Option Nat
  | .mem pa => some pa
  | .scr core off => some (slotBase + scrKey core off)
  | .guard | .ctr _ => none

/-- The effects of a group's accesses still in flight, in issue order, over what is there. -/
def State.inFlight (s : State) (base : Nat → Byte) (gid : Nat) : FMap Byte :=
  s.ops.foldl (fun m p =>
    if p.2.gid = gid then p.2.accs.foldl (fun m a =>
      match placeKey a.place with
      | none => m
      | some k =>
        if a.done || a.buffered then m else
        let old := ofBytes ((List.range a.size).map (fun i => (mapFind m (k + i)).getD (base (k + i))))
        match p.2.kind with
        | .load => m
        | .store => (a.data.zipIdx).foldl (fun m x => mapPut m (k + x.2) x.1) m
        | .atom op | .red op => ((leBytes a.size (op.new old (ofBytes a.data) (ofBytes a.data2))).zipIdx).foldl (fun m x => mapPut m (k + x.2) x.1) m) m
    else m) []

/-- What an engine operation reads: every access that happens before its hand-off is seen, and the workgroup's commit buffer is applied (R217,
R221). -/
def State.engineView (s : State) (e : EngOp) : Nat → Byte :=
  let now := s.cycOf e.owner e.island
  let base (k : Nat) : Byte := if k < slotBase then (match s.queued e.owner e.core now k with
    | some (b, _) => b
    | none => s.byte k) else mapGet 0#8 s.scratch (k - slotBase)
  let own := s.inFlight base e.gid
  let here (k : Nat) : Byte := (mapFind own k).getD (base k)
  let ov := commitOverlay here (s.wgAt e.wg).commit
  fun k => (mapFind ov k).getD (here k)

/-- The leaves of the pieces of an element, or its fault (R301). -/
def State.elementAt (s : State) (e : EngOp) (va : Dword) (n al : Nat) (w : Want) : Except Nat (List Leaf) :=
  let a := va.toNat
  if 2 ^ 56 ≤ a then .error codeNonCanonical
  else if a % al ≠ 0 then .error codeMisaligned
  else match spaceOf a with
  | .memory =>
    let p := min n 8
    (List.range ((n + p - 1) / p)).mapM (fun i => s.translate none (s.launchAt e.launch).leases e.owner (a + p * i) p w)
  | .scratch _ _ | .counter _ | .reserved => .error codeUnmapped

/-- The memory addresses of the bytes of an element. -/
def leafBytes (ls : List Leaf) (n : Nat) : List Nat := (List.range n).map (fun i => ((ls[i / 8]?).map (fun x => x.pa + i % 8)).getD 0)

/-! ### Copies (R298 to R301) -/

/-- One unit of a copy: its address and its scale pair's, unless it is out of range, the elements of it in range, and where it and its scale
pair lie in the tile. -/
structure CopyUnit where
  addr : Option (Dword × Dword)
  live : Nat
  pos : Nat
  pair : Nat
  deriving DecidableEq, Repr

def CopyJob.coord (j : CopyJob) (k : Nat) : Nat := (j.args.getD k 0#32).toNat

/-- The scale base of a DX record. -/
def CopyJob.scaleBase (j : CopyJob) : Dword := j.args.getD 7 0#32 ++ j.args.getD 6 0#32

def CopyJob.unitAt (j : CopyJob) (i n : Nat) : CopyUnit :=
  let r := j.tensor
  let jj := n * r.step
  let idx (k : Nat) : Nat := j.coord k + (if k = 0 then jj else if k = 1 then i else 0)
  let inside := (List.range r.rank).all (fun k => decide (idx k < r.dim k))
  let e : Int := ((List.range r.rank).map (fun k => (idx k : Int) * r.stride k)).sum
  let q : Int := e / r.step
  let b := i * (r.cols / r.step) + n
  let blk := i * r.blocksPerRow + jj / 32
  let units := r.rows * (r.cols / r.step)
  { addr := if inside then some (r.base + BitVec.ofInt 64 (q * r.unit), j.scaleBase + BitVec.ofInt 64 (2 * q)) else none
    live := if inside then min r.step (r.dim 0 - idx 0) else 0
    pos := if j.obuf then j.first + blk * r.beta + (if r.dx.isSome then 0 else jj % 32 * r.unit) else j.first + b * r.unit
    pair := if j.obuf then j.pairs + 2 * blk else j.first + units * r.unit + 2 * b }

/-- The units in row-major order. -/
def CopyJob.units (j : CopyJob) : List CopyUnit :=
  (List.range j.tensor.rows).flatMap (fun i => (List.range (j.tensor.cols / j.tensor.step)).map (fun n => j.unitAt i n))

/-- The bytes of a unit that its elements in range take. -/
def CopyJob.liveBytes (j : CopyJob) (u : CopyUnit) : Nat := (j.tensor.unit * u.live + j.tensor.step - 1) / j.tensor.step

/-- B of R301 and R327. -/
def CopyJob.total (j : CopyJob) : Nat :=
  let r := j.tensor
  let units := r.rows * (r.cols / r.step)
  if j.out then (j.units.map (fun u => if u.live = 0 then 0 else j.liveBytes u + (if r.dx.isSome then 2 else 0))).sum
  else if j.obuf then r.rows * r.blocksPerRow * r.beta + (if r.dx.isSome then 2 * units else 0)
  else r.image

/-- The bytes of the tile's own range on the core, without scale pairs in scale memory. -/
def CopyJob.span (j : CopyJob) : Nat := if j.obuf then j.tensor.rows * j.tensor.blocksPerRow * j.tensor.beta else j.tensor.image

/-- The low n bits of a string of bytes, with the bits above taken from another. -/
def lowBits (n : Nat) (bs rest : List Byte) : List Byte :=
  leBytes bs.length (ofBytes bs % 2 ^ n + ofBytes rest / 2 ^ n * 2 ^ n)

/-- What a copy or drain does to memory and the core, as far as it has been worked out. -/
structure Moved where
  writes : List (EngPlace × Byte) := []
  buffered : List CommitEntry := []
  lines : List Nat := []
  leaves : List Leaf := []
  fault : Option Nat := none
  bad : Option (Nat × Nat) := none
  deriving DecidableEq, Repr

def Moved.failing (m : Moved) (c : Nat) : Moved := { m with fault := some (m.fault.getD c) }

/-- The first failing sector met stays the one reported. -/
def Moved.blemish (m : Moved) (b : Option (Nat × Nat)) : Moved := { m with bad := m.bad.or b }

/-- A byte of memory as what has been worked out so far would leave it. -/
def Moved.shows (m : Moved) (view : Nat → Byte) (pa : Nat) : Byte :=
  match m.writes.reverse.find? (fun p => decide (p.1 = .mem pa)) with
  | some p => p.2
  | none => match m.buffered.reverse.find? (fun e => decide (e.addr ≤ pa) && decide (pa < e.addr + e.value.length)) with
    | some e => e.value.getD (pa - e.addr) 0#8
    | none => view pa

/-- Bytes with their places on the core. -/
def laid (f : Nat → EngPlace) (off : Nat) (bs : List Byte) : List (EngPlace × Byte) := (bs.zipIdx).map (fun p => (f (off + p.2), p.1))

/-- Read an element's bytes from memory. -/
def State.pull (s : State) (e : EngOp) (view : Nat → Byte) (m : Moved) (va : Dword) (n al : Nat) (keep : List Byte → List Byte) (put : List Byte → List (EngPlace × Byte)) : Moved :=
  match s.elementAt e va n al wantLoad with
  | .error c => { m.failing c with writes := m.writes ++ put (List.replicate n 0#8) }
  | .ok ls =>
    let pas := leafBytes ls n
    let bad := (pas.zipIdx).findSome? (fun p => (s.sectorFault (p.1 / 32)).map (fun k => (k, va.toNat + p.2)))
    { m with writes := m.writes ++ put (keep (pas.map view)), lines := m.lines ++ pas.take 1 ++ pas.drop (n - 1), leaves := m.leaves ++ ls }.blemish bad

/-- Write an element's bytes to memory, or into the commit buffer at levels 1 and 2 (R221). -/
def State.push (s : State) (e : EngOp) (m : Moved) (va : Dword) (n al : Nat) (bs : List Nat → List Byte) : Moved :=
  match s.elementAt e va n al wantStore with
  | .error c => m.failing c
  | .ok ls =>
    let pas := leafBytes ls n
    let data := bs pas
    let g := s.groupAt e.gid
    let m := { m with lines := m.lines ++ pas.take 1 ++ pas.drop (data.length - 1), leaves := m.leaves ++ ls }
    match s.fateOf g .store { va := va.toNat, place := .mem (pas.headD 0) } with
    | .buffer => { m with buffered := m.buffered ++ (List.range ((data.length + 7) / 8)).map (fun i =>
        ⟨pas.getD (8 * i) 0, (data.drop (8 * i)).take 8, none, g.index, 0⟩) }
    | .go | .wait | .stop _ => { m with writes := m.writes ++ (data.zip pas).map (fun p => (EngPlace.mem p.2, p.1)) }

/-- The address in the scratch window of a byte of the slice that an operation's core holds. -/
def State.scrAddr (s : State) (e : EngOp) (off : Nat) : Nat :=
  scratchBase + e.core * 0x80000 + (off - ((s.shareOf e.owner e.core).map (fun sh => sh.scratchBase)).getD 0)

/-- A copy's work on one unit; the bits of a byte beyond the elements in range stay as earlier namings of this copy leave them (R325). -/
def State.copyUnit (s : State) (e : EngOp) (j : CopyJob) (view : Nat → Byte) (m : Moved) (u : CopyUnit) : Moved :=
  let r := j.tensor
  let n := r.unit
  let al := if r.dx.isSome then 8 else n
  let bits := 8 * n * u.live / r.step
  let here : Nat → EngPlace := if j.obuf then .obuf else .scr
  let scales : Nat → EngPlace := if j.obuf then .scale else .scr
  let core := s.phys e.owner e.core
  let slice (off k : Nat) : List Byte := (List.range k).map (fun i => view (slotBase + scrKey core (off + i)))
  let from_ (off k : Nat) : Option (Nat × Nat) := ((sectorsOf off k).findSome? (fun x => (s.scrFault core x).map (fun b => (b, s.scrAddr e (32 * x)))))
  match u.addr with
  | none =>
    if j.out then m else
    { m with writes := m.writes ++ laid here u.pos (List.replicate n 0#8) ++ (if r.dx.isSome then laid scales u.pair [0#8, 0#8] else []) }
  | some (a, sa) =>
    if j.out then
      let m0 := m.blemish (from_ u.pos (j.liveBytes u))
      let m := s.push e m0 a n al (fun pas =>
        (lowBits bits (slice u.pos n) (if bits = 8 * n then [] else pas.map (m0.shows view))).take (j.liveBytes u))
      if r.dx.isSome then s.push e (m.blemish (from_ u.pair 2)) sa 2 2 (fun _ => slice u.pair 2) else m
    else
      let m := s.pull e view m a n al (fun bs => lowBits bits bs []) (laid here u.pos)
      if r.dx.isSome then s.pull e view m sa 2 2 id (laid scales u.pair) else m

/-- The whole of a copy: positions beyond cols of a row's last block are zero bits. -/
def State.copyAll (s : State) (e : EngOp) (j : CopyJob) : Moved :=
  let r := j.tensor
  let fill := if j.obuf && decide (r.cols % 32 ≠ 0) then
      (List.range r.rows).flatMap (fun i => laid EngPlace.obuf (j.first + ((i + 1) * r.blocksPerRow - 1) * r.beta) (List.replicate r.beta 0#8))
    else []
  j.units.foldl (s.copyUnit e j (s.engineView e)) { writes := fill }

/-! ### Completion of engine operations (R217, R301, R306) -/

/-- The physical core of an engine operation. -/
def State.engCore (s : State) (e : EngOp) : Nat := s.phys e.owner e.core

/-- The lines that an operation reads, the walker's among them, by an address in each: they enter L2 as it completes (R185, R191, R250). -/
def Moved.reads (m : Moved) (data : Bool) : List Nat := (((m.leaves.flatMap (fun x => x.path)) ++ (if data then m.lines else [])).map (fun a => a / 128 * 128)).dedup

/-- Take what operation k has worked out into the state: A and D are set, buffered writes are entered as those of its instruction, in the place kept
for them (R191, R221, R222). A copy does so as it starts and a drain in its pass: the spec does not say at which cycle such a write enters the buffer
(DESIGN CHOICE, log 92). -/
def State.takeMoved (s : State) (k : Nat) (e : EngOp) (m : Moved) : State :=
  let s := m.leaves.foldl State.markLeaf s
  if e.reserved = 0 then s else
  s.modWg e.wg (fun w => { w with commit := w.commit ++ m.buffered.map (fun x => { x with serial := k }), reserved := w.reserved - e.reserved })

/-- The other groups' stores that a reading of these addresses has read from the core's queue (R210). -/
def State.readFrom (s : State) (e : EngOp) (pas : List Nat) : List Nat :=
  let now := s.cycOf e.owner e.island
  ((pas.filterMap (fun a => (s.queued e.owner e.core now a).map (fun x => x.2))).dedup)

/-- The largest horizon of the lines of an operation. -/
def State.linesHorizon (s : State) (e : EngOp) (pas : List Nat) : Nat := pas.foldl (fun m a => max m (s.memHorizon e.owner e.core a)) 0

/-- The event that completes an engine operation. -/
def engineDone (e : EngOp) (k : Nat) : Instr :=
  match e.job with
  | .copy _ => .copyCompletion k
  | .drain _ _ _ _ => .drainCompletion k

/-- Set the beats and the completion of operation k at its due cycle; a beat is 64 bytes, and beats are spread evenly (DESIGN CHOICE, log 28). -/
def State.scheduleEngine (s : State) (k : Nat) (e : EngOp) (start due : Nat) : State :=
  let clk := Clk.owner e.owner e.island
  let n := (e.bytes + 63) / 64
  let s := { s with engs := mapPut s.engs k { e with due := some due } }
  let s := if e.bar.isNone then s else
    (List.range n).foldl (fun s i => s.schedule clk (start + (due - start) * (i + 1) / n) (.copyBeat k i)) s
  s.schedule clk due (engineDone e k)

/-- A copy reads its source and is due at its first candidate cycle (R301), unless it still waits for commits (R221). (DEDUCED, log 29) -/
def State.startCopy (s : State) (k : Nat) : State :=
  match mapFind s.engs k with
  | none => s
  | some e =>
    match e.job with
    | .drain _ _ _ _ => s
    | .copy j =>
      if e.due.isSome then s else
      match s.awaitAll e.island e.wait with
      | none => s
      | some _ =>
        let now := s.cycOf e.owner e.island
        let m := s.copyAll e j
        let h := s.linesHorizon e m.lines
        let due := visibleAt e.w (h + 2 * ((e.bytes + 63) / 64)) now (if now = e.w then e.extra else 0)
        let covers := if j.out then e.covers else (e.covers ++ s.readFrom e m.lines).dedup
        let s := s.takeMoved k e m
        s.scheduleEngine k { e with writes := m.writes, fault := m.fault, bad := m.bad, wait := [], covers := covers, lines := m.reads (!j.out) } now due

/-- The numbers of a sector of an operand buffer and of eight elements of a tile (R201), beyond those of memory and the slices. -/
def obufSector (core k : Nat) : Nat := 2 ^ 53 + core * 8192 + k
def accSector (key : Nat) : Nat := 2 ^ 54 + key / 8

/-- Bytes land at their places, those of memory after the stores that happen before the hand-off (R217). -/
def State.land (s : State) (e : EngOp) : State :=
  let c := s.engCore e
  let s := s.fillPath e.owner e.lines
  let s := e.writes.foldl (fun s p => match p.1 with
    | .mem pa => ((s.flush e.covers pa 1).putMem pa [p.2]).fillL2 e.owner pa 0#2
    | .scr off => s.putScr c off [p.2]
    | .obuf off => { s with obuf := mapSet 0#8 s.obuf (c * 262144 + off) p.2, faulty := mapErase s.faulty (obufSector c (off / 32)) }
    | .scale off => { s with scale := mapSet 0#8 s.scale (c * 32768 + off) p.2 }) s
  s.dropL1Lines e.owner e.core (e.writes.filterMap (fun p => match p.1 with
    | .mem pa => some pa
    | .scr _ | .obuf _ | .scale _ => none))

/-- Granules change hands (R216). -/
def State.flip (s : State) (e : EngOp) (held : Bool) : State :=
  let c := s.engCore e
  { s with
    engScr := e.granScr.foldl (fun m k => mapSet false m (c * 1024 + k) held) s.engScr
    engObuf := e.granObuf.foldl (fun m k => mapSet false m (c * 512 + k) held) s.engObuf }

/-- The deferred traps of a completed operation (R201, R301, R333). -/
def State.recordEngine (s : State) (e : EngOp) (now : Nat) : State :=
  let g := s.groupAt e.gid
  if g.isEnded then s else
  let g := match e.fault with
    | none => g
    | some c => let t := engTrap 0#32 7 c e.pc; g.record causeEngine { a := t.a, b := t.b, c := t.c, due := now }
  let g := match e.bad with
    | none => g
    | some (n, va) =>
      let cause := if n = 0 then causeIntegrity else causeHardware
      let t := sectorTrap cause 0#32 (BitVec.ofNat 64 va) (pcOff (s.launchAt e.launch).entry e.pc) (n - 1) 1
      g.record cause { a := t.a, b := t.b, c := t.c, due := now }
  s.setGroupAt e.gid g

/-- A beat of n bytes lands: PENDING falls. -/
def State.beat (s : State) (k n : Nat) : State :=
  match mapFind s.engs k with
  | none => s
  | some e =>
    let n := min n (e.bytes - e.landed)
    let s := { s with engs := mapPut s.engs k { e with landed := e.landed + n } }
    match e.bar with
    | none => s
    | some b => s.landed e.wg b n

/-- Completion (R217): everything at one instant. -/
def State.engineComplete (s : State) (k : Nat) : State :=
  let s := match mapFind s.engs k with
    | none => s
    | some e => s.beat k e.bytes
  match mapFind s.engs k with
  | none => s
  | some e =>
    let now := s.cycOf e.owner e.island
    let s := (s.land e).flip e false
    let s := { s with engs := mapErase s.engs k }
    let s := match e.bar with
      | none => s
      | some b => s.engineArrives e.wg b now e.covers
    let s := (s.recordEngine e now).modGroup e.gid (fun g => g.returned k)
    { s with unsettled := s.unsettled ++ [e.gid] }

/-- COPY_BEAT (R240): beats are of 64 bytes, whichever this is. -/
def execCopyBeat (k _n : Nat) (s : State) : Res := .next (s.beat k 64)

/-- COPY_COMPLETION (R217, R301). -/
def execCopyCompletion (k : Nat) (s : State) : Res := .next (s.engineComplete k)

/-! ### Issuing copies (R281, R299, R300) -/

def granules (off n : Nat) : List Nat := if n = 0 then [] else (List.range ((off + n - 1) / 512 - off / 512 + 1)).map (fun i => off / 512 + i)

/-- A range of the slice of a scratch-window address, wholly in the workgroup's allocation on its core (R300). -/
def State.scratchRange (s : State) (g : Group) (va n : Nat) : Option Nat :=
  match spaceOf va, s.shareOf g.owner g.core with
  | .scratch c off, some sh =>
    let alloc := (s.wgAt g.wg).scratch
    if c = g.core ∧ alloc ≠ 0 ∧ 64 ≤ off ∧ off + n ≤ 64 + alloc then some (sh.scratchBase + off) else none
  | _, _ => none

def State.scrOwned (s : State) (core : Nat) (ks : List Nat) : Bool := ks.any (fun k => mapGet false s.engScr (core * 1024 + k))
def State.obufOwned (s : State) (core : Nat) (ks : List Nat) : Bool := ks.any (fun k => mapGet false s.engObuf (core * 512 + k))
def State.obufRead (s : State) (core : Nat) (ks : List Nat) : Bool := ks.any (fun k => decide (mapGet 0 s.readHold (core * 512 + k) ≠ 0))

/-- The blocks a reservation holds (R259). -/
def Rsv.blocks (r : Rsv) (f : OpFmt) : Nat := 512 * r.length.toNat / f.block

/-- Copies and drains of an owner outstanding on a core (R328). -/
def State.enginesOn (s : State) (o c : Nat) : Nat := (s.engs.filter (fun p => decide (p.2.owner = o) && decide (p.2.core = c))).length

/-- Further quanta of an engine operation: none within the limits of R328. -/
def State.engineExtra (s : State) (g : Group) : Nat :=
  if s.enginesOn g.owner g.core + 1 ≤ 4 ∧ s.outstanding g.owner (quadrantOf (s.groupCore g)) ≤ 64 then 0
  else Config.quanta (s.part g.owner) (s.openOf g.owner (s.groupIsland g))

/-- The fates at levels 1 and 2 of addresses that an engine operation reads or writes (R221): the trap, or what it waits for and the entries of the
commit buffer it takes. -/
def State.engineFates (s : State) (g : Group) (k : AccKind) (vas : List Dword) : Except Trap (List Await × Nat) :=
  let fs := vas.map (fun a => (a, s.fateOf g k { va := a.toNat, place := .mem 0 }))
  match fs.findSome? (fun p => match p.2 with
    | .stop d => some (p.1, d)
    | .go | .buffer | .wait => none) with
  | some (a, d) => .error (syncTrap g.running d 0 a)
  | none =>
    let n := (fs.filter (fun p => decide (p.2 = .buffer))).length
    if 8192 < (s.wgAt g.wg).entries + n ∧ n ≠ 0 then .error (syncTrap g.running 17 0 0#64)
    else .ok (if fs.any (fun p => decide (p.2 = .wait)) then [.commits g.launch (s.wgAt g.wg).index] else [], n)

/-- The addresses of the 8-byte pieces of a copy's elements. -/
def CopyJob.addrs (j : CopyJob) : List Dword :=
  j.units.flatMap (fun u => match u.addr with
    | none => []
    | some (a, sa) => (List.range ((j.tensor.unit + 7) / 8)).map (fun i => a + BitVec.ofNat 64 (8 * i)) ++ (if j.tensor.dx.isSome then [sa] else []))

/-- The barrier hand-off of an operation with BE = 1 (R240). -/
def State.handOffIf (s : State) (be : Bool) (b n : Nat) : Except Trap State := if be then s.handOff b n else .ok s

/-- The operation is issued as number k: its granules are engine-owned, its counter is raised, its entries of the commit buffer kept. -/
def State.issueEngine (s : State) (g : Group) (k : Nat) (e : EngOp) : State :=
  let s := if e.reserved = 0 then s else s.modWg e.wg (fun w => { w with reserved := w.reserved + e.reserved })
  let s := State.bumpOpen { s with engs := mapPut s.engs k e, nextId := max s.nextId (k + 1) } e.owner e.island 1
  (s.flip e true).finish (g.raiseCount e.cls k)

/-- Where a copy's tile lies on the core, after the checks of R300 on it: its first byte, and of its scale pairs. -/
def State.copyPlace (s : State) (g : Group) (out obuf : Bool) (r : Trec) (args : List Word) : Except Trap (Nat × Nat) :=
  let eng (d : Nat) := engTrap g.running d 0 g.trapAt
  if obuf then
    let v := s.rsvAt g.wg ((args.getD 4 0#32).extractLsb' 0 4).toNat
    match opFmtOf v.fmt.toNat, s.shareOf g.owner g.core with
    | some f, some sh =>
      let o := (args.getD 5 0#32).toNat
      if !v.valid then .error (eng 1)
      else if v.fmt.toNat ≠ r.fmt then .error (eng 2)
      else if o % f.block ≠ 0 ∨ v.blocks f < o / f.block + r.rows * r.blocksPerRow then .error (eng 3)
      else .ok ((sh.obufFirst + v.offset.toNat) * 512 + o, sh.scaleFirst * 64 + v.scaleOff.toNat * 2 + 2 * (o / f.block))
    | _, _ => .error (eng 1)
  else
    let va := scratchBase + (args.getD 4 0#32).toNat
    match s.scratchRange g va r.image with
    | none => .error (memTrap g.running (if out then 0 else 1) codeScratch (BitVec.ofNat 64 va))
    | some off => .ok (off, 0)

/-- A copy whose checks pass: granules, the barrier, and its first reading (R300, R301). -/
def State.copyIssue (s : State) (g : Group) (j : CopyJob) (b : Nat) (be : Bool) : State :=
  let c := s.groupCore g
  let gr := granules j.first j.span
  if (if j.obuf then s.obufOwned c gr || s.obufRead c gr else s.scrOwned c gr) then s.trap (engTrap g.running 0 0 g.trapAt)
  else match s.engineFates g (if j.out then .store else .load) j.addrs with
  | .error t => s.trap t
  | .ok (wait, n) =>
    match s.handOffIf be b j.total with
    | .error t => s.trap t
    | .ok s' =>
      let e : EngOp := {
        gid := s.cur, owner := g.owner, launch := g.launch, wg := g.wg, core := g.core, island := s.groupIsland g, pc := g.pc, w := s.win,
        cls := .copies, job := .copy j, bytes := j.total, granScr := if j.obuf then [] else gr, granObuf := if j.obuf then gr else [],
        bar := if be then some b else none, wait := wait, extra := s.engineExtra g, covers := s.coveredIds s.cur g.running, reserved := n }
      (s'.issueEngine g s'.fresh e).startCopy s'.fresh

/-- `cp.in` and `cp.out` (R299, R300). -/
def State.copy (s : State) (h : Guard) (out obuf : Bool) (k : BitVec 4) (a : Reg) (b : BitVec 4) (be : Bool) : State :=
  let g := s.grp
  let args := (List.range 8).map (fun i => g.getG (a + BitVec.ofNat 6 i))
  if !g.guardQ h then s.finish g
  else if (s.launchAt g.launch).producerGroup ≠ some g.index then s.trap (engTrap g.running 5 0 g.trapAt)
  else match s.trecAt g.wg k.toNat with
  | none => s.trap (engTrap g.running 6 0 g.trapAt)
  | some r =>
    if !r.ok (args.getD 0 0#32).toNat then s.trap (engTrap g.running 6 0 g.trapAt) else
    match s.copyPlace g out obuf r args with
    | .error t => s.trap t
    | .ok (first, pairs) => s.copyIssue g ⟨out, obuf, r, args, first, pairs⟩ b.toNat be

/-- `cp.in.scr` (R299). -/
def execCpInScr (h : Guard) (k : BitVec 4) (a : Reg) (b : BitVec 4) (e : Bool) (s : State) : Res := .next (s.copy h false false k a b e)

/-- `cp.in.obuf` (R299). -/
def execCpInObuf (h : Guard) (k : BitVec 4) (a : Reg) (b : BitVec 4) (e : Bool) (s : State) : Res := .next (s.copy h false true k a b e)

/-- `cp.out.scr` (R299). -/
def execCpOutScr (h : Guard) (k : BitVec 4) (a : Reg) (b : BitVec 4) (e : Bool) (s : State) : Res := .next (s.copy h true false k a b e)

/-! ### Reservations (R258, R259, R302) -/

/-- A reservation obeys R259: its granules, format and scale pairs, against the workgroup's other valid records. -/
def State.rsvOk (s : State) (g : Group) (k first len fmt scaleOff : Nat) : Bool :=
  match s.shareOf g.owner g.core, opFmtOf fmt with
  | some sh, some f =>
    decide (1 ≤ len) && decide (len ≤ 512) && decide (first + len ≤ sh.obufCount) &&
    (List.range 16).all (fun i =>
      let r := s.rsvAt g.wg i
      decide (i = k) || !r.valid || decide (first + len ≤ r.offset.toNat) || decide (r.offset.toNat + r.length.toNat ≤ first)) &&
    (!f.isDx || decide (scaleOff * 2 + 2 * (512 * len / f.block) ≤ sh.scaleCount * 64))
  | _, _ => false

def State.reserve (s : State) (k first len fmt blen scaleOff : Nat) : State :=
  let g := s.grp
  if (s.rsvAt g.wg k).valid || !s.rsvOk g k first len fmt scaleOff then s.trap (engTrap g.running 1 0 g.trapAt)
  else
    let r : Rsv := ⟨BitVec.ofNat 14 scaleOff, BitVec.ofNat 10 len, BitVec.ofNat 9 first, BitVec.ofNat 6 blen, BitVec.ofNat 5 fmt, true⟩
    (s.putRsv g k r).finish g

/-- `obuf.rsv.tpl` (R302): the divisions by 512 and by 2 round down where a template's offset, length or scaleoff is no multiple, and of a block length
above 63 the low six bits go to BLEN, neither of which R70 forbids (DESIGN CHOICE, log 67). -/
def execObufRsvTpl (h : Guard) (k : BitVec 4) (b : BSel) (s : State) : Res :=
  let g := s.grp
  .next (if !g.guardQ h then s.finish g else
    match (s.launchAt g.launch).templates[(g.opG b).toNat]? with
    | none => s.trap (engTrap g.running 1 0 g.trapAt)
    | some t => s.reserve k.toNat (t.offset / 512) (t.length / 512) t.fmt t.blen (t.scaleOff / 2))

/-- `obuf.rsv.reg` (R302). -/
def execObufRsvReg (h : Guard) (k : BitVec 4) (a : Reg) (s : State) : Res :=
  let g := s.grp
  let v := g.getG64 a
  .next (if !g.guardQ h then s.finish g
    else if v.extractLsb' 48 16 ≠ 0#16 ∨ v.extractLsb' 1 3 ≠ 0#3 then s.trap (engTrap g.running 1 0 g.trapAt)
    else s.reserve k.toNat (v.extractLsb' 15 9).toNat (v.extractLsb' 24 10).toNat (v.extractLsb' 4 5).toNat (v.extractLsb' 9 6).toNat (v.extractLsb' 34 14).toNat)

/-- The granules of a reservation on its core. -/
def State.rsvGranules (s : State) (g : Group) (r : Rsv) : List Nat :=
  match s.shareOf g.owner g.core with
  | none => []
  | some sh => (List.range r.length.toNat).map (fun i => sh.obufFirst + r.offset.toNat + i)

/-- `obuf.free` (R259, R302). -/
def execObufFree (h : Guard) (k : BitVec 4) (s : State) : Res :=
  let g := s.grp
  let r := s.rsvAt g.wg k.toNat
  let gr := s.rsvGranules g r
  .next (if !g.guardQ h || !r.valid then s.finish g
    else if s.obufOwned (s.groupCore g) gr || s.obufRead (s.groupCore g) gr then s.trap (engTrap g.running 0 0 g.trapAt)
    else (s.putRsv g k.toNat { r with valid := false }).finish g)

/-! ### The matrix unit (R261 to R268, R303 to R305) -/

/-- The tile's number on the core, or the trap of R261. -/
def State.tileAt (s : State) (g : Group) (d : Nat) : Except Trap Nat :=
  match s.shareOf g.owner g.core with
  | none => .error (engTrap g.running 4 0 g.trapAt)
  | some sh =>
    if sh.accCount ≤ d then .error (engTrap g.running 4 0 g.trapAt)
    else if s.tileOps.any (fun p => decide (p.2.owner = g.owner) && decide (p.2.core = g.core) && decide (p.2.tile = sh.accFirst + d) && decide (p.2.gid ≠ s.cur)) then
      .error (engTrap g.running 0 0 g.trapAt)
    else .ok (sh.accFirst + d)

def accKey (core tile i n : Nat) : Nat := core * 32768 + tile * 1024 + 32 * i + n

/-- An operand of n blocks: its place, or the detail of R262 that fails. -/
def State.operand (s : State) (g : Group) (res : Nat) (off n : Nat) : Except Nat OperandAt :=
  let v := s.rsvAt g.wg res
  match opFmtOf v.fmt.toNat, s.shareOf g.owner g.core with
  | some f, some sh =>
    if !v.valid then .error 1
    else if off % f.block ≠ 0 ∨ v.blocks f < off / f.block + n then .error 3
    else .ok ⟨res, v.fmt.toNat, (sh.obufFirst + v.offset.toNat) * 512 + off, sh.scaleFirst * 64 + v.scaleOff.toNat * 2 + 2 * (off / f.block)⟩
  | _, _ => .error 1

def OperandAt.f (x : OperandAt) : OpFmt := (opFmtOf x.fmt).getD (.flt .f32)
def OperandAt.granules (x : OperandAt) (n : Nat) : List Nat := Machine.granules x.off (n * x.f.block)

/-- A and B may be multiplied: one format, or `.e4m3` with `.e5m2`. -/
def formatsMatch (a b : Nat) : Bool := decide (a = b) || decide ((a = 3 ∧ b = 4) ∨ (a = 4 ∧ b = 3))

/-- A quarter as an `mma` names it: its number, A and B. -/
structure Quarter where
  q : Nat
  a : Except Nat OperandAt
  b : Except Nat OperandAt
  fa : Nat
  fb : Nat

/-- The quarter of R303 named by its lowest active thread. -/
def State.quarter (s : State) (g : Group) (act : BitVec 32) (a : Reg) (q : Nat) : Quarter :=
  let l := (((bitsOf act).filter (fun t => decide (t / 8 = q))).head?).getD 0
  let x := g.getV a l
  let ra := (x.extractLsb' 0 4).toNat
  let rb := (x.extractLsb' 4 4).toNat
  ⟨q, s.operand g ra (g.getV (a + 1) l).toNat 8, s.operand g rb (g.getV (a + 2) l).toNat 32, (s.rsvAt g.wg ra).fmt.toNat, (s.rsvAt g.wg rb).fmt.toNat⟩

def failsWith (d : Nat) : Except Nat OperandAt → Bool
  | .error e => decide (e = d)
  | .ok _ => false

/-- The detail of R262 that fails for some quarter, in the order of its table. -/
def State.quarterFault (s : State) (core : Nat) (qs : List Quarter) : Option Nat :=
  let held (x : Except Nat OperandAt) (n : Nat) : Bool := match x with
    | .ok o => s.obufOwned core (o.granules n)
    | .error _ => false
  if qs.any (fun q => failsWith 1 q.a || failsWith 1 q.b) then some 1
  else if qs.any (fun q => !formatsMatch q.fa q.fb) then some 2
  else if qs.any (fun q => failsWith 3 q.a || failsWith 3 q.b) then some 3
  else if qs.any (fun q => held q.a 8 || held q.b 32) then some 0
  else none

def Quarter.operands (q : Quarter) : Option (OperandAt × OperandAt) :=
  match q.a, q.b with
  | .ok a, .ok b => some (a, b)
  | _, _ => none

/-- Enter tile operations of the current group in its lane's queue under operation k. -/
def State.enqueueTile (s : State) (g : Group) (k tile : Nat) (works : List TileWork) : State :=
  let key := tileKey g.owner g.core g.lane
  let es := works.map (fun w => (⟨k, g.wg, s.win + 4, tile, w⟩ : TileEntry))
  { s with
    queues := mapPut s.queues key (mapGet [] s.queues key ++ es)
    tileOps := mapPut s.tileOps k { gid := s.cur, owner := g.owner, core := g.core, tile := tile, left := works.length, pc := g.pc }
    nextId := max s.nextId (k + 1) }

/-- Put an operation into the open batch. -/
def joinBatch (op : Nat) : List Batch → List Batch
  | [] => [{ ops := [op] }]
  | [b] => if b.closed then [b, { ops := [op] }] else [{ b with ops := b.ops ++ [op] }]
  | b :: bs => b :: joinBatch op bs

/-- Raise or lower the read hold of the granules a quarter operation reads, once each (R262). -/
def State.readHolds (s : State) (core : Nat) (a b : OperandAt) (up : Bool) : State :=
  let ks := ((a.granules 8 ++ b.granules 32).dedup).map (fun k => core * 512 + k)
  { s with readHold := ks.foldl (fun m k => if up then bump m k else drop1 m k) s.readHold }

/-- `mma` (R262, R303). -/
def execMma (h : Guard) (d a b : Reg) (s : State) : Res :=
  let g := s.grp
  let act := g.active h
  .next (if act = 0#32 then s.finish g else
    match s.tileAt g d.toNat with
    | .error t => s.trap t
    | .ok tile =>
      let core := s.groupCore g
      let qs := (quartersOf act).map (s.quarter g act a)
      match s.quarterFault core qs with
      | some x => s.trap (engTrap g.running x 0 g.trapAt)
      | none =>
        let k := s.fresh
        let ops := qs.filterMap (fun q => q.operands.map (fun o => (q.q, o)))
        let s := s.enqueueTile g k tile (ops.map (fun p => .quarter p.1 p.2.1 p.2.2 (g.getG b) (g.getG (b + 1))))
        let s := ops.foldl (fun s p => s.readHolds core p.2.1 p.2.2 true) s
        s.finish { g.raiseCount .tiles k with batches := joinBatch k g.batches })

/-- Close the open batch as number n. -/
def closeBatch (n : Nat) : List Batch → List Batch
  | [] => [{ num := n, closed := true }]
  | [b] => if b.closed then [b, { num := n, closed := true }] else [{ b with num := n, closed := true }]
  | b :: bs => b :: closeBatch n bs

/-- Batches that have completed, with every batch before them, are no longer listed. -/
def dropDone : List Batch → List Batch
  | [] => []
  | b :: bs => if b.closed && b.ops.isEmpty then dropDone bs else b :: bs

/-- `mma.fence` (R267, R304). -/
def execMmaFence (h : Guard) (d : Reg) (s : State) : Res :=
  let g := s.grp
  .next (if !g.guardQ h then s.finish g else
    s.finish (({ g with batches := dropDone (closeBatch g.batch g.batches), batch := g.batch + 1 }.setG d (BitVec.ofNat 32 (g.batch % 65536))).mark s.win 4 [locG d]))

/-- `mma.wait` (R267, R304): it stays until its batch is complete. -/
def execMmaWait (h : Guard) (b : BSel) (s : State) : Res :=
  let g := s.grp
  let n := ((g.opG b).extractLsb' 0 16).toNat
  .next (if !g.guardQ h then s.finish g
    else if !g.batchClosed n then s.trap (syncTrap g.running 13 0 (BitVec.ofNat 64 n))
    else if g.batchDone n then s.finish g else s)

/-- `acc.zero` (R268, R305). -/
def execAccZero (h : Guard) (d : Reg) (s : State) : Res :=
  let g := s.grp
  .next (if !g.guardQ h then s.finish g else
    match s.tileAt g d.toNat with
    | .error t => s.trap t
    | .ok tile =>
      let k := s.fresh
      (s.enqueueTile g k tile [.zero]).finish (g.raiseCount .tiles k))

/-- `acc.rd` (R268, R305). -/
def execAccRd (h : Guard) (d a : Reg) (b : BSel) (s : State) : Res :=
  let g := s.grp
  let act := g.active h
  .next (if act = 0#32 then s.finish g else
    match s.tileAt g a.toNat with
    | .error t => s.trap t
    | .ok tile =>
      let k := s.fresh
      let g1 := { g.raiseCount .tiles k with late := bump g.late (locV d) }
      (s.enqueueTile g k tile [.read ((g.opG b).extractLsb' 0 5).toNat d act]).finish g1)

/-! ### Drains (R269, R306) -/

/-- The images a drain's register block asks for; none where a format is not permitted. -/
def drainImages (g : Group) (a : Reg) : Option (List Image) :=
  let f := g.getG (a + 6)
  let codes := [((f.extractLsb' 0 8).toNat, g.getG64 a, false), ((f.extractLsb' 8 8).toNat, g.getG64 (a + 2), true)]
  if codes.any (fun c => decide (c.1 ≠ 255) && (opFmtOf c.1).isNone) then none
  else
    let is := codes.filterMap (fun c => (opFmtOf c.1).map (fun f => (⟨c.2.1, c.1, c.2.2, 32 * f.block + (if f.isDx then 64 else 0), none⟩ : Image)))
    if is.isEmpty then none else some is

/-- An image goes to scratch. -/
def Image.toScratch (x : Image) : Bool :=
  match spaceOf x.addr.toNat with
  | .scratch _ _ => true
  | .memory | .counter _ | .reserved => false

/-- Images with their places in the slice, or the first that fails the check of R300. -/
def State.imagePlaces (s : State) (g : Group) : List Image → Except Dword (List Image)
  | [] => .ok []
  | x :: xs => match s.imagePlaces g xs with
    | .error a => if x.toScratch && (s.scratchRange g x.addr.toNat x.size).isNone then .error x.addr else .error a
    | .ok ys =>
      if x.toScratch then (match s.scratchRange g x.addr.toNat x.size with
        | none => .error x.addr
        | some off => .ok ({ x with off := some off } :: ys))
      else .ok (x :: ys)

/-- The memory addresses of an image's 8-byte pieces. -/
def Image.addrs (x : Image) : List Dword := if x.off.isSome then [] else (List.range (x.size / 8)).map (fun i => x.addr + BitVec.ofNat 64 (8 * i))

/-- `drain` (R306): its checks in order. -/
def execDrain (h : Guard) (d a : Reg) (k : BitVec 4) (e : Bool) (s : State) : Res :=
  let g := s.grp
  .next (if !g.guardQ h then s.finish g else
    match drainImages g a with
    | none => s.trap (engTrap g.running 8 0 g.trapAt)
    | some is =>
      match is.find? (fun x => decide (x.addr.toNat % 64 ≠ 0)) with
      | some x => s.trap (memTrap g.running 1 codeMisaligned x.addr)
      | none =>
        match s.imagePlaces g is with
        | .error va => s.trap (memTrap g.running 1 codeScratch va)
        | .ok is =>
          match s.tileAt g d.toNat with
          | .error t => s.trap t
          | .ok tile =>
            let gr := (is.flatMap (fun x => match x.off with
              | some off => granules off x.size
              | none => [])).dedup
            if s.scrOwned (s.groupCore g) gr then s.trap (engTrap g.running 0 0 g.trapAt) else
            match s.engineFates g .store (is.flatMap Image.addrs) with
            | .error t => s.trap t
            | .ok (_, kept) =>
              let n := (is.map (fun x => x.size)).sum
              match s.handOffIf e k.toNat n with
              | .error t => s.trap t
              | .ok s' =>
                let id := s.fresh
                let op : EngOp := {
                  gid := s.cur, owner := g.owner, launch := g.launch, wg := g.wg, core := g.core, island := s.groupIsland g, pc := g.pc, w := s.win,
                  cls := .tiles, job := .drain is (g.getG (a + 4)) ((g.getG (a + 5)).extractLsb' 0 4).toNat g.flagArm, bytes := n, granScr := gr,
                  bar := if e then some k.toNat else none, extra := s.engineExtra g, covers := s.coveredIds s.cur g.running, reserved := kept }
                (s'.enqueueTile g id tile [.drain id]).issueEngine g id op)

/-! ### Passes (R263 to R266) -/

/-- An accumulator element as the results of earlier passes leave it, those still to be written included (R264). -/
def State.accNow (s : State) (k : Nat) : Word :=
  (s.passes.reverse.findSome? (fun p => mapFind p.2.tiles k)).getD (mapGet 0#32 s.acc k)

/-- Block i of an operand on a core. -/
def State.blockAt (s : State) (core : Nat) (x : OperandAt) (i : Nat) (t : Word) : List FVal :=
  let b := x.f.block
  blockValues x.f ((List.range b).map (fun j => mapGet 0#8 s.obuf (core * 262144 + x.off + i * b + j)))
    (mapGet 0#8 s.scale (core * 32768 + x.pairs + 2 * i)).toNat (mapGet 0#8 s.scale (core * 32768 + x.pairs + 2 * i + 1)).toNat t

/-- What one entry of a pass does to the tile elements it leaves and the registers it writes (R262, R268, R305). -/
def State.passEntry (s : State) (core : Nat) (r : FMap Word × List (Nat × Word)) (e : TileEntry) : FMap Word × List (Nat × Word) :=
  let now (k : Nat) : Word := (mapFind r.1 k).getD (s.accNow k)
  match e.work with
  | .quarter q a b ta tb =>
    let rows := (List.range 8).map (fun i => s.blockAt core a i ta)
    let cols := (List.range 32).map (fun n => s.blockAt core b n tb)
    let new := (rows.zipIdx).flatMap (fun x => (cols.zipIdx).map (fun y =>
      let k := accKey core e.tile (8 * q + x.2) y.2
      (k, blockStep (now k) x.1 y.1)))
    (new.foldl (fun m p => mapPut m p.1 p.2) r.1, r.2)
  | .zero => ((List.range 1024).foldl (fun m i => mapPut m (accKey core e.tile 0 i) 0#32) r.1, r.2)
  | .read row dst mask => (r.1, r.2 ++ (bitsOf mask).map (fun t => (regKey dst t, now (accKey core e.tile row t))))
  | .drain _ => r

/-- An uncorrectable error in what an entry reads: operand blocks and tile elements (R201). -/
def State.entryFault (s : State) (core : Nat) (e : TileEntry) : Option Nat :=
  let marks (ks : List Nat) : Option Nat := ks.findSome? (mapFind s.faulty)
  let obuf (x : OperandAt) (n : Nat) : List Nat := (sectorsOf x.off (n * x.f.block)).map (obufSector core)
  let acc (i n : Nat) : List Nat := (List.range n).map (fun j => accSector (accKey core e.tile i 0) + j)
  match e.work with
  | .quarter q a b _ _ => marks (obuf a 8 ++ obuf b 32 ++ acc (8 * q) 32)
  | .read row _ _ => marks (acc row 4)
  | .zero | .drain _ => none

/-- A tile operation keeps the first failing sector it meets. -/
def State.markTile (s : State) (core : Nat) (e : TileEntry) : State :=
  match s.entryFault core e, mapFind s.tileOps e.op with
  | some m, some x => { s with tileOps := mapPut s.tileOps e.op { x with bad := some (x.bad.getD m) } }
  | _, _ => s

/-- The entries a slice takes: a quarter operation with those behind it on its B, or one entry alone. -/
def passTake (w : Nat) : List TileEntry → List TileEntry
  | [] => []
  | e :: es =>
    if w < e.enter then [] else
    match e.work with
    | .quarter _ _ b _ tb =>
      e :: (es.takeWhile (fun x => decide (x.enter ≤ w) && (match x.work with
        | .quarter _ _ b2 _ tb2 => decide (x.wg = e.wg ∧ b2.res = b.res ∧ b2.off = b.off ∧ b2.fmt = b.fmt ∧ tb2 = tb)
        | .zero | .read _ _ _ | .drain _ => false))).take 3
    | .zero | .read _ _ _ | .drain _ => [e]

/-- The windows a pass occupies (R265): the weight is that of A and B, which have one. -/
def passCost (es : List TileEntry) : Nat :=
  match es with
  | [] => 0
  | e :: _ => match e.work with
    | .quarter _ a _ _ _ => (es.length * a.f.weight + 3) / 4
    | .zero | .read _ _ _ | .drain _ => 1

/-- A pass takes its last window at w: its results are due (R265). -/
def State.passLast (s : State) (k : Nat) (p : Pass) (w : Nat) : State :=
  s.schedule (.owner p.owner p.island) (w + 16) (.matrixPassResult k)

/-- A drain's images: the bytes with their places, and the flags made (R269, R306). -/
def State.drainMove (s : State) (e : EngOp) (tile : List Word) (images : List Image) (t : Word) (k : Nat) (arm : Word) : Moved × Flags :=
  images.foldl (fun r x =>
    let f := (opFmtOf x.fmt).getD (.flt .f32)
    let (bytes, fl) := drainImage (tileLines tile x.transposed) f t k (arm.getLsbD 0)
    let m := match x.off with
      | some off => { r.1 with writes := r.1.writes ++ laid EngPlace.scr off bytes }
      | none => (List.range (bytes.length / 8)).foldl (fun m i => s.push e m (x.addr + BitVec.ofNat 64 (8 * i)) 8 8 (fun _ => (bytes.drop (8 * i)).take 8)) r.1
    (m, r.2 ||| fl)) ({}, 0#4)

/-- The pass of a drain at cycle w (R306). -/
def State.drainPass (s : State) (core tile w k : Nat) : State :=
  match mapFind s.engs k with
  | none => s
  | some e =>
    match e.job with
    | .copy _ => s
    | .drain images t kk arm =>
      let elems := (List.range 1024).map (fun i => s.accNow (accKey core tile 0 i))
      let (m, fl) := s.drainMove e elems images t kk arm
      let h := max (s.linesHorizon e m.lines) (if images.any (fun x => x.off.isSome) then 8 else 0)
      let s := s.takeMoved k e m
      let bad := ((List.range 128).findSome? (fun j => mapFind s.faulty (accSector (accKey core tile 0 0) + j))).map (fun m => (m, 0))
      s.scheduleEngine k { e with writes := m.writes, fault := m.fault, fl := fl, bad := bad, lines := m.reads false } w (w + 16 + h + 2 * ((e.bytes + 63) / 64) + 32 * e.extra)

/-- A lane slice serves an owner on a logical core in the window at cycle w (R265, R266). -/
def State.matrixServe (s : State) (o core lane island w : Nat) : State :=
  match s.passes.find? (fun p => decide (p.2.owner = o ∧ p.2.core = core ∧ p.2.lane = lane ∧ p.2.left ≠ 0)) with
  | some (k, p) =>
    let s := { s with passes := mapPut s.passes k { p with left := p.left - 1 } }
    if p.left = 1 then s.passLast k p w else s
  | none =>
    let key := tileKey o core lane
    let q := mapGet [] s.queues key
    let es := passTake w q
    let s := { s with queues := mapSet [] s.queues key (q.drop es.length) }
    let phys := s.phys o core
    match es with
    | [] => s
    | e :: _ =>
      match e.work with
      | .drain k => s.drainPass phys e.tile w k
      | .quarter _ _ _ _ _ | .zero | .read _ _ _ =>
        let (tiles, regs) := es.foldl (s.passEntry phys) ([], [])
        let s := es.foldl (fun s e => s.markTile phys e) s
        let p : Pass := { owner := o, core := core, lane := lane, island := island, left := passCost es - 1, entries := es, tiles := tiles, regs := regs }
        let k := s.fresh
        let s := { s with passes := mapPut s.passes k p, nextId := k + 1 }
        if p.left = 0 then s.passLast k p w else s

/-- MATRIX_PASS (R265) of an owner on a lane, numbered 8 × logical core + lane. -/
def execMatrixPass (o l : Nat) (s : State) : Res :=
  let island := islandOf (s.phys o (l / 8))
  .next (s.matrixServe o (l / 8) (l % 8) island (s.cycOf o island))

/-- An operation is out of every batch (R267). -/
def dropFromBatches (k : Nat) (bs : List Batch) : List Batch := dropDone (bs.map (fun b => { b with ops := b.ops.filter (fun x => decide (x ≠ k)) }))

/-- The trap of a completed tile operation that has read a failing sector (R201): the operand buffer and the accumulators have no virtual
addresses, and ADDR is 0 (DESIGN CHOICE, log 54). -/
def State.recordTile (s : State) (x : TileOp) : State :=
  match x.bad with
  | none => s
  | some n =>
    let g := s.groupAt x.gid
    if g.isEnded then s else
    let t := sectorTrap causeHardware 0#32 0#64 (pcOff (s.launchAt g.launch).entry x.pc) (n - 1) 1
    s.setGroupAt x.gid (g.record causeHardware { a := t.a, b := t.b, c := t.c, due := s.cycOf x.owner (islandOf (s.phys x.owner x.core)) })

/-- One more entry of a tile operation has been written; with its last it completes. -/
def State.tileDone (s : State) (e : TileEntry) : State :=
  match mapFind s.tileOps e.op with
  | none => s
  | some x =>
    let s := match e.work with
      | .quarter _ a b _ _ => s.readHolds (s.phys x.owner x.core) a b false
      | .zero | .read _ _ _ | .drain _ => s
    if x.left ≤ 1 then
      let s := { s with tileOps := mapErase s.tileOps e.op, unsettled := s.unsettled ++ [x.gid] }.recordTile x
      s.modGroup x.gid (fun g => let g := g.returned e.op; { g with batches := dropFromBatches e.op g.batches })
    else { s with tileOps := mapPut s.tileOps e.op { x with left := x.left - 1 } }

/-- Registers that an `acc.rd` writes, unless its group has ended (R105, R305). -/
def State.tileRegs (s : State) (e : TileEntry) (regs : List (Nat × Word)) : State :=
  match e.work, mapFind s.tileOps e.op with
  | .read _ dst _, some x =>
    if (s.groupAt x.gid).isEnded then s else
    s.modGroup x.gid (fun g => { g with v := regs.foldl (fun m p => mapSet 0#32 m p.1 p.2) g.v, late := drop1 g.late (locV dst) })
  | _, _ => s

/-- MATRIX_PASS_RESULT (R265): elements and registers are written, holds fall, operations complete. -/
def execMatrixPassResult (k : Nat) (s : State) : Res :=
  .next (match mapFind s.passes k with
    | none => s
    | some p =>
      let s := { s with
        passes := mapErase s.passes k, acc := p.tiles.foldl (fun m x => mapSet 0#32 m x.1 x.2) s.acc
        faulty := (p.tiles.map (fun x => accSector x.1)).dedup.foldl mapErase s.faulty }
      let s := p.entries.foldl (fun s e => s.tileRegs e p.regs) s
      p.entries.foldl State.tileDone s)

/-- DRAIN_COMPLETION (R88, R269, R306): the flags made are raised under the V2 of its issue and the OVF_TRAP of now, and the tile is free. -/
def execDrainCompletion (k : Nat) (s : State) : Res :=
  .next (match mapFind s.engs k with
    | none => s
    | some e =>
      match e.job with
      | .copy _ => s
      | .drain _ _ _ arm =>
        let s := { s with tileOps := mapErase s.tileOps k }
        let g := s.groupAt e.gid
        let s := if g.isEnded then s else
          let h := Group.raise { g with flagArm := (g.flagArm &&& 2#32) ||| (arm &&& 1#32), pc := e.pc } [none] (fun _ => e.fl)
          s.setGroupAt e.gid { g with flags := h.flags, pend := h.pend }
        s.engineComplete k)

/-! ### `qcvt` (R307) -/

/-- `qcvt` (R256, R307). -/
def execQcvt (h : Guard) (d a : Reg) (f : DxFmt) (n : Reg) (s : State) : Res :=
  let g := s.grp
  let act := g.active h
  let q := quantiseBlock ((List.range 32).map (fun t => if act.getLsbD t then g.getV a t else 0#32)) (g.getG n) ((g.getG (n + 1)).extractLsb' 0 4).toNat f
  .next (s.aluF false h d 16 (fun l =>
    let t := l.getD 0
    ⟨BitVec.ofNat 32 (q.s1 * 2 ^ 24 + q.s0 * 2 ^ 16 + q.codes.getD t 0), q.fls.getD t 0#4⟩))

end Sys2Proof.Machine
end

