-- ==== Sys2Proof/Machine/Queues.lean ====
section
/-! DEFINITION. Drover queues and dispatch tables: majors 0x6C to 0x6F (R282 to R286, R289 to R291, R308 to R310, R326), and the events that
append items, deliver them and give a dispatch its results. -/

namespace Sys2Proof.Machine

/-! ### Rings (R282 to R284) -/

/-- A ring: the shared one of a queue below 32, or a logical core's of a per-core queue. -/
def ringKey (q core : Nat) : Nat := if q < 32 then q else 64 * (core + 1) + q

/-- The queue and the logical core of a ring. -/
def ringQueue (r : Nat) : Nat := r % 64
def ringCore (r : Nat) : Nat := r / 64 - 1

/-- The lowest logical core that an owner holds (R157). -/
def State.lowCore (s : State) (o : Nat) : Nat :=
  match s.part o with
  | none => 0
  | some p => ((p.cores.filter (s.hasCore o)).min?).getD 0

/-- The die of a ring's home: of a shared one that of the lowest logical core that the owner holds (R157, R282). -/
def State.ringHome (s : State) (o r : Nat) : Nat :=
  if r < 64 then dieOf (s.lowCore o)
  else dieOf (ringCore r)

/-- H of R283 for a group's core. -/
def State.ringHorizon (s : State) (o r core : Nat) : Nat := if s.ringHome o r = dieOf core then 96 else 768

def Owner.ring (w : Owner) (r : Nat) : List QItem := mapGet [] w.rings r
def Owner.setRing (w : Owner) (r : Nat) (xs : List QItem) : Owner := { w with rings := mapSet [] w.rings r xs }
def Owner.qclosed (w : Owner) (q : Nat) : Bool := ((mapFind w.qdecl q).map (fun x => x.closed)).getD false

/-- What orders waiting `deq` instructions: their windows, then logical core, then context number. -/
def State.deqRank (s : State) (x : WaitOp) : List Nat :=
  let g := s.groupAt x.gid
  [x.w, g.core, g.lane * 12 + g.ctx]

/-- The `deq` instructions that wait on a ring with no item and no indication, first in order first. -/
def State.deqWaiting (s : State) (o r : Nat) : List (Nat × WaitOp) :=
  (s.waits.filter (fun p => decide (p.2.owner = o) && p.2.due.isNone && (match p.2.kind with
    | .deq _ ring _ _ _ => decide (ring = r)
    | _ => false))).inOrder (fun a b => decide (s.deqRank a.2 ≤ s.deqRank b.2))

/-- The first item of a ring that no `deq` has been given. -/
def freeItem : List QItem → Option QItem
  | [] => none
  | x :: xs => if x.taken.isNone then some x else freeItem xs

def takeItem (k : Nat) : List QItem → List QItem
  | [] => []
  | x :: xs => if x.taken.isNone then { x with taken := some k } :: xs else x :: takeItem k xs

/-- The first cycle w + H + 32n that is at least max(w, e) + H and not past (R284, R326). -/
def deqDue (w h e now : Nat) : Nat := w + h + 32 * ((max (max w e + h) now - (w + h) + 31) / 32)

/-- Give one waiting `deq` the next item, or the closed indication of a ring that is closed and empty, counted from the ring's close: an item given to
another `deq` is in it until its visible cycle (R284, R326). (DEDUCED, log 51) -/
def State.giveItem (s : State) (o r k : Nat) : State :=
  match mapFind s.waits k with
  | none => s
  | some x =>
    let w := s.ownerAt o
    let due (e : Nat) : Nat := deqDue x.w (s.ringHorizon o r (s.groupAt x.gid).core) e (s.cycOf o x.island)
    match x.kind with
    | .deq q ring d pr _ =>
      if x.due.isSome then s else
      match freeItem (w.ring r) with
      | some i =>
        let s := s.setOwner o (w.setRing r (takeItem k (w.ring r)))
        let s := { s with waits := mapPut s.waits k { x with kind := .deq q ring d pr (some i.bytes), due := some (due i.at_) } }
        s.schedule (.owner o x.island) (due i.at_) (.deqDelivery k)
      | none =>
        if w.qclosed (ringQueue r) && (w.ring r).isEmpty then
          let c := ((mapFind w.qdecl (ringQueue r)).map (fun x => x.closedAt)).getD 0
          let s := { s with waits := mapPut s.waits k { x with due := some (due c) } }
          s.schedule (.owner o x.island) (due c) (.deqClosedIndication k)
        else s
    | _ => s

/-- Items go to waiting `deq` instructions in order (R284). -/
def State.serveRing (s : State) (o r : Nat) : State := (s.deqWaiting o r).foldl (fun s p => s.giveItem o r p.1) s

/-- An item given to a `deq` goes back to its place at the head of the ring (R286). -/
def State.untakeItem (s : State) (o r k : Nat) : State :=
  s.modOwner o (fun w => w.setRing r ((w.ring r).map (fun i => if i.taken = some k then { i with taken := none } else i)))

/-- A `deq` no longer waits: its item goes back and to the next in order. -/
def State.withdrawDeq (s : State) (k : Nat) : State :=
  match mapFind s.waits k with
  | none => s
  | some x =>
    match x.kind with
    | .deq _ r _ _ _ => ({ s with waits := mapErase s.waits k }.untakeItem x.owner r k).serveRing x.owner r
    | _ => s

/-- Items given in this same window to a `deq` of a later place in the order are given anew (R284). -/
def State.reopenRing (s : State) (o r : Nat) (w : Nat) : State :=
  s.waits.foldl (fun s p =>
    match mapFind s.waits p.1 with
    | none => s
    | some x =>
      match x.kind with
      | .deq q ring d pr (some _) =>
        if ring = r ∧ x.owner = o ∧ x.w = w ∧ s.cycOf o x.island = w then
          { (s.untakeItem o r p.1) with waits := mapPut s.waits p.1 { x with kind := .deq q ring d pr none, due := none } }
        else s
      | _ => s) s

/-- The trap of a queue that no accepted launch declares. -/
def noQueue (g : Group) : Trap := engTrap g.running 10 0 g.trapAt

def State.declared (s : State) (o q : Nat) : Bool := (mapFind (s.ownerAt o).qdecl q).isSome

/-- `deq` (R284, R308). -/
def execDeq (h : Guard) (d : Reg) (q : BitVec 3) (b : BSel) (s : State) : Res :=
  let g := s.grp
  let n := ((g.opG b).extractLsb' 0 6).toNat
  let r := ringKey n g.core
  .next (if !g.guardQ h then s.finish g
    else if !s.declared g.owner n then s.trap (noQueue g)
    else
      let s := s.await g (.deq n r d q none) none
      (s.reopenRing g.owner r s.win).serveRing g.owner r)

/-- The registers of a block as bytes. -/
def Group.blockBytes (g : Group) (a : Reg) (n : Nat) : List Byte := (List.range n).flatMap (fun i => leBytes 4 (g.getG (a + BitVec.ofNat 6 i)).toNat)

/-- The current group's item is on its way to a ring, to be appended at w + H. -/
def State.sendItem (s : State) (q core : Nat) (a : Reg) (p : BitVec 3) : State :=
  let g := s.grp
  let r := ringKey q core
  let due := s.win + s.ringHorizon g.owner r g.core
  let k := s.fresh
  (s.await g (.append q r (g.blockBytes a 16) p) (some due)).schedule (.owner g.owner (s.groupIsland g)) due (.itemAppend k)

/-- `enq` (R283, R309). -/
def execEnq (h : Guard) (q : BitVec 3) (a : Reg) (b : BSel) (s : State) : Res :=
  let g := s.grp
  let n := ((g.opG b).extractLsb' 0 6).toNat
  .next (if !g.guardQ h then s.finish g
    else if !s.declared g.owner n then s.trap (noQueue g)
    else s.sendItem n g.core a q)

/-- `jpost` (R291, R309): a job card for a per-core queue of a logical core of the owner. -/
def execJpost (h : Guard) (q : BitVec 3) (a : Reg) (b : BSel) (s : State) : Res :=
  let g := s.grp
  let x := g.opG b
  let n := (x.extractLsb' 0 6).toNat
  let core := (x.extractLsb' 16 9).toNat
  .next (if !g.guardQ h then s.finish g
    else if decide (n < 32) || !s.declared g.owner n || !s.hasCore g.owner core then s.trap (noQueue g)
    else s.sendItem n core a q)

/-- Append an item to a ring at this cycle unless it is full, closed or gone (R283). -/
def State.appendItem (s : State) (o r : Nat) (item : List Byte) (c : Nat) : Bool × State :=
  let w := s.ownerAt o
  match mapFind w.qdecl (ringQueue r) with
  | none => (false, s)
  | some d =>
    if d.closed || decide (d.entries ≤ (w.ring r).length) then (false, s)
    else (true, (s.setOwner o (w.setRing r (w.ring r ++ [⟨item, c, none⟩]))).serveRing o r)

/-- A waiting group goes on. -/
def State.resume (s : State) (gid : Nat) (f : Group → Group) : State :=
  if (s.groupAt gid).isEnded then s else s.modGroup gid (fun g => { (f g) with busy := none })

/-- ITEM_APPEND (R283, R309). -/
def execItemAppend (k : Nat) (s : State) : Res :=
  .next (match mapFind s.waits k with
    | none => s
    | some x =>
      match x.kind with
      | .append _ r item p =>
        let (ok, s) := { s with waits := mapErase s.waits k }.appendItem x.owner r item (s.cycOf x.owner x.island)
        s.resume x.gid (fun g => g.setQ p ok)
      | _ => s)

/-- DEQ_DELIVERY (R284, R285): the item leaves its ring, its bytes are in the block, and L1 is invalidated as an acquire at `dev` does. -/
def execDeqDelivery (k : Nat) (s : State) : Res :=
  .next (match mapFind s.waits k with
    | none => s
    | some x =>
      match x.kind with
      | .deq _ r d p (some item) =>
        if x.due ≠ some (s.cycOf x.owner x.island) then s else
        let s := { s with waits := mapErase s.waits k }
        let s := (s.modOwner x.owner (fun w => w.setRing r ((w.ring r).filter (fun i => decide (i.taken ≠ some k))))).serveRing x.owner r
        let s := s.resume x.gid (fun g =>
          ((List.range 16).foldl (fun g j => g.setG (d + BitVec.ofNat 6 j) (BitVec.ofNat 32 (ofBytes ((item.drop (4 * j)).take 4)))) g).setQ p true)
        s.dropL1 x.owner (s.groupAt x.gid).core
      | _ => s)

/-- DEQ_CLOSED_INDICATION (R284, R326). -/
def execDeqClosedIndication (k : Nat) (s : State) : Res :=
  .next (match mapFind s.waits k with
    | none => s
    | some x =>
      match x.kind with
      | .deq _ _ _ p none =>
        if x.due ≠ some (s.cycOf x.owner x.island) then s else
        { s with waits := mapErase s.waits k }.resume x.gid (fun g => g.setQ p false)
      | _ => s)

/-! ### Dispatch tables (R289, R290, R310) -/

/-- The word at an offset of a string of bytes. -/
def word32 (bs : List Byte) (i : Nat) : Nat := ofBytes ((bs.drop i).take 4)

/-- The lines a table of this header takes. -/
def tableLines (header : List Byte) : Nat :=
  let n := word32 header 0
  if 1 ≤ n ∧ n ≤ 64 then (64 + 32 * n + 63) / 64 else 1

/-- The table obeys R289. -/
def tableOk (t : List Byte) : Bool :=
  let n := word32 t 0
  let dims := word32 t 4
  decide (1 ≤ n) && decide (n ≤ 64) && decide (1 ≤ dims) && decide (dims ≤ 4) && ((t.drop 8).take 56).all (fun b => decide (b = 0#8)) &&
  (List.range n).all (fun i => ((t.drop (0x54 + 32 * i)).take 12).all (fun b => decide (b = 0#8)))

/-- The mask of a shape (R290). -/
def padMask (x : Nat) : Word :=
  let q := if x = 0 then 0 else (x - 1) / 32
  maskOf (fun t => decide (x ≤ 32 * q + t))

/-- Dispatch (R290): schedule, masks and pads. -/
def dispatch (t : List Byte) (shape : List Word) : List Word :=
  let dims := word32 t 4
  let bound (i d : Nat) : Nat := word32 t (0x40 + 32 * i + 4 * d)
  let x (d : Nat) : Nat := (shape.getD d 0#32).toNat
  match (List.range (word32 t 0)).find? (fun i => (List.range dims).all (fun d => decide (x d ≤ bound i d))) with
  | none => 0xFFFFFFFF#32 :: List.replicate 8 0#32
  | some i => BitVec.ofNat 32 (word32 t (0x50 + 32 * i))
      :: (List.range 4).map (fun d => if d < dims then padMask (x d) else 0#32)
      ++ (List.range 4).map (fun d => if d < dims then BitVec.ofNat 32 (bound i d - x d) else 0#32)

/-- The lines of a table after their checks, or the first that fails. -/
def State.checkLines (s : State) (g : Group) (base : Dword) (n : Nat) : List (Lane × Dword × Except Nat Hit) :=
  (List.range n).map (fun i => (some i, base + BitVec.ofNat 64 (64 * i), s.checkAccess g (base + BitVec.ofNat 64 (64 * i)) true 64 wantLoad false))

/-- How the lines of a table or a record are read. -/
def lineSpec : AccSpec := ⟨true, .load, 64, 0#6, .plain, .grp, .loads, false⟩

/-- The requests for checked lines of 64 bytes, or the trap of R216 or R221. -/
def State.lineReqs (s : State) (g : Group) (at_ : PcWord) (xs : List (Lane × Dword × Except Nat Hit)) : Except Trap (List Req) :=
  let reqs := (okHits xs).map (fun x => (⟨x.1, x.2, s.fateOf g .load x.2, [], []⟩ : Req))
  if reqs.any (fun r => s.tileHeldAt r.hit 64) then .error (engTrap g.running 0 0 at_)
  else match reqs.findSome? (fun r => match r.fate with
    | .stop d => some (d, r.hit.va)
    | .go | .buffer | .wait => none) with
  | some (d, a) => .error (syncTrap g.running d 0 (BitVec.ofNat 64 a))
  | none => .ok reqs

/-- Read checked lines of 64 bytes as one operation that waits under its own number. -/
def State.readLines (s : State) (g : Group) (kind : WaitKind) (xs : List (Lane × Dword × Except Nat Hit)) : State :=
  match s.lineReqs g g.trapAt xs with
  | .error t => s.trap t
  | .ok reqs =>
    let k := s.fresh
    let x : WaitOp := { gid := s.cur, owner := g.owner, island := s.groupIsland g, pc := g.trapAt, w := s.win, kind := kind }
    State.issueOp { s with waits := mapPut s.waits k x } { g with busy := some k, barMark := g.markHere } lineSpec reqs

/-- A load of a line that issues now is sent now, so that its value is fixed: nothing holds it (R207, R212, R221). -/
def State.sentNow (s : State) (g : Group) (x : Hit) : Bool :=
  let a := s.mkAcc g lineSpec 0 0 (s.holdList s.cur false .plain .grp g.running) ⟨none, x, s.fateOf g .load x, [], []⟩
  match s.awaitAll (s.groupIsland g) a.wait with
  | none => false
  | some c => decide (c ≤ s.win)

/-- `disp` (R310): the lines to read are those of the header; where its load is held, the buckets' lines are read when it has come (DEDUCED, log 51). -/
def execDisp (h : Guard) (d a : Reg) (b : BSel) (s : State) : Res :=
  let g := s.grp
  let base := g.getG64 a
  let shape : List Word := match b with
    | .own r | .grp r => (List.range 4).map (fun i => g.getG (r + BitVec.ofNat 6 i))
    | .imm _ | .neg _ | .const _ => []
  .next (if !g.guardQ h then s.finish g else
    match s.checkAccess g base true 64 wantLoad false with
    | .error c => s.fillWalks (s.trap (memTrap g.running 0 c base)) g (s.walksOf g [base] 64 wantLoad)
    | .ok x =>
      let header := (s.loadValue g.owner g.core g.wg (match x.place with
        | .mem pa => (s.l1Line g.owner g.core pa).isSome
        | .scr _ _ | .guard | .ctr _ => false) x.place 64 s.win).1
      let xs := s.checkLines g base (if s.sentNow g x then tableLines header else 1)
      match firstFault xs with
      | some (va, c) => s.fillWalks (s.trap (memTrap g.running 0 c va)) g (s.walksOf g (xs.map (fun x => x.2.1)) 64 wantLoad)
      | none => s.readLines g (.disp d shape false) xs)

/-- The accesses of an operation that have become visible by a cycle and are not done. -/
def MemOp.arrived (op : MemOp) (now : Nat) : List Acc := op.accs.filter (fun a => !a.done && a.sent.isSome && decide (a.vis ≤ now))

/-- One line arrives: it is filled unless L1 served it, and a failing sector is recorded (R201, R250). -/
def State.lineArrives (s : State) (op : MemOp) (a : Acc) : State :=
  let s := s.fillFor op a
  match s.faultAt a.place a.size with
  | none => s
  | some (i, n) => s.modGroup op.gid (fun g => g.recordReply (s.launchAt op.launch).entry op 0 (a.va / 32 * 32 + 32 * i) n (s.cycOf op.owner op.island))

/-- What a dispatch writes (R310). -/
def dispWrite (d : Reg) (vals : List Word) (g : Group) : Group := (vals.zipIdx).foldl (fun g p => g.setG (d + BitVec.ofNat 6 p.2) p.1) g

/-- The buckets' lines of a table whose held header has come are read as held accesses sent now (R251), each checked first; the header stays the
operation's first line. -/
def State.readBuckets (s : State) (op : MemOp) (x : WaitOp) (n : Nat) : State :=
  let g := s.groupAt x.gid
  let base := BitVec.ofNat 64 ((op.accs.head?.map (fun a => a.va)).getD 0)
  let xs := (s.checkLines g base n).drop 1
  match firstFault xs, s.lineReqs g x.pc xs with
  | some (va, c), _ => s.trapGroup x.gid (memTrap g.running 0 c va)
  | none, .error t => s.trapGroup x.gid t
  | none, .ok reqs =>
    let k := s.fresh
    let new := State.opOf { s with cur := x.gid } g lineSpec reqs
    let new := { new with w := x.w, pc := op.pc, accs := op.accs.map (fun a => { a with done := true }) ++ new.accs }
    let s := (s.bumpOpen op.owner op.island reqs.length).setLeaves reqs
    let s := { s with ops := mapPut s.ops k new, waits := mapPut s.waits k x, nextId := k + 1 }
    let s := s.modGroup x.gid (fun g => { g with busy := some k })
    new.accs.foldl (fun s a => s.trySend k a.thread (s.cycOf op.owner op.island) false) s

/-- DISP_RESULT (R310): at the latest of its lines the results are written, or the table's trap is taken at the `disp`; where a save has written them
before (R324), its lines only fill. -/
def execDispResult (k : Nat) (s : State) : Res :=
  .next (match mapFind s.ops k, mapFind s.waits k with
    | some op, some x =>
      match x.kind with
      | .disp d shape bad =>
        let now := s.cycOf op.owner op.island
        let as := op.arrived now
        let bad := bad || as.any (fun a => (s.faultAt a.place a.size).isSome)
        let x := { x with kind := .disp d shape bad }
        let s := { s with waits := mapPut s.waits k x }
        let s := as.foldl (fun s a => (s.lineArrives op a).accDone k a.thread) s
        if (op.accs.filter (fun a => !a.done)).length ≠ as.length then s else
        let s := { s with waits := mapErase s.waits k }
        let table := op.accs.flatMap (fun a => a.data)
        if (s.groupAt x.gid).isEnded then s
        else if bad then s.resume x.gid id
        else if table.length < 64 * tableLines table then s.readBuckets op x (tableLines table)
        else if tableOk table then s.resume x.gid (dispWrite d (dispatch table shape))
        else s.trapGroup x.gid (engTrap (s.groupAt x.gid).running 9 0 x.pc)
      | _ => s
    | some op, none => (op.arrived (s.cycOf op.owner op.island)).foldl (fun s a => (s.fillFor op a).accDone k a.thread) s
    | none, _ => s)

end Sys2Proof.Machine
end

