-- ==== Sys2Proof/Machine/Network.lean ====
section
/-! DEFINITION. Trigger counters, network operations and the reduction tree: majors 0x77 to 0x7E (R311 to R323, R403, R404, R406), and the
events that arm, deliver and complete them. -/

namespace Sys2Proof.Machine

/-! ### Trigger counters (R311 to R314) -/

/-- The counter an instruction names; none traps "counter number" (R313). -/
def counterOf (w : Word) : Option Nat := if w.extractLsb' 12 20 = 0#20 then some w.toNat else none

/-- One access to a counter of the current group, as an operation of a kind. -/
def State.counterAccess (s : State) (g : Group) (k : AccKind) (d : Reg) (o : Ord) (x : Scope) (n : Nat) (data : List Byte) : State :=
  let hit : Hit := { va := counterBase + 8 * n, place := .ctr n }
  s.issueOp g ⟨true, k, 8, d, o, x, .loads, false⟩ [⟨none, hit, .go, data, []⟩]

/-- `nctr.add` (R313): a reduction on the counter that raises no class. -/
def execNctrAdd (h : Guard) (o : Ord) (x : Scope) (a : Reg) (b : BSel) (s : State) : Res :=
  let g := s.grp
  .next (if !g.guardQ h then s.finish g else
    match counterOf (g.getG a) with
    | none => s.trap (netTrap g.running 0 0 g.pc)
    | some n => s.counterAccess g (.red .addN64) 0#6 o x n (leBytes 8 (g.opB64 none b).toNat))

/-- `nctr.rd` (R314): an acquire at `dev`. -/
def execNctrRd (h : Guard) (d a : Reg) (s : State) : Res :=
  let g := s.grp
  .next (if !g.guardQ h then s.finish g else
    match counterOf (g.getG a) with
    | none => s.trap (netTrap g.running 0 0 g.pc)
    | some n => s.counterAccess (g.raiseCount .loads s.fresh) .load d .acq .dev n [])

/-- `nctr.wait` (R314). -/
def execNctrWait (h : Guard) (a : Reg) (b : BSel) (s : State) : Res :=
  let g := s.grp
  .next (if !g.guardQ h then s.finish g else
    match counterOf (g.getG a) with
    | none => s.trap (netTrap g.running 0 0 g.pc)
    | some n =>
      let clk := Clk.owner g.owner (s.groupIsland g)
      (s.await g (.nctrWait n (g.opB64 none b)) none).schedule clk s.win (.nctrWaitMet s.fresh))

/-- NCTR_WAIT_MET (R314): at a polling step that finds the threshold reached the wait is due 96 cycles later, and there it ends as an
acquire. -/
def execNctrWaitMet (k : Nat) (s : State) : Res :=
  .next (match mapFind s.waits k with
    | none => s
    | some x =>
      match x.kind with
      | .nctrWait n thr =>
        let now := s.cycOf x.owner x.island
        if x.due = none then
          if (s.counter x.owner n).ult thr || decide ((now - x.w) % 32 ≠ 0) then s
          else { s with waits := mapPut s.waits k { x with due := some (now + 96) } }.schedule (.owner x.owner x.island) (now + 96) (.nctrWaitMet k)
        else if x.due = some now then
          ({ s with waits := mapErase s.waits k }.resume x.gid id).dropL1 x.owner (s.groupAt x.gid).core
        else s
      | _ => s)

/-! ### Trigger records (R315) -/

/-- A counter field of a record: bit 15 enables it. -/
def ctrField (n : Nat) : Option Nat := if n.testBit 15 then some (n % 4096) else none

/-- Read a record's 64 bytes. -/
def recordOf (b : List Byte) : NetRec :=
  let f (i n : Nat) : Nat := ofBytes ((b.drop i).take n)
  { op := f 0 1, fn := f 1 1, peer := f 2 2, tctr := f 4 2, order := f 6 2, threshold := BitVec.ofNat 64 (f 8 8), local_ := BitVec.ofNat 64 (f 16 8),
    remote := BitVec.ofNat 64 (f 24 8), length := f 32 4, lctr := ctrField (f 36 2), rctr := ctrField (f 38 2), operand := BitVec.ofNat 64 (f 40 8) }

/-- The alignment and the length a record's addresses need. -/
def NetRec.align (r : NetRec) : Nat := if r.op = 2 then (netAtom r.fn).size else 32

/-- An address of a record: aligned, and in the memory range with all its bytes. -/
def NetRec.addrOk (r : NetRec) (a : Nat) : Bool := decide (a % r.align = 0) && decide (a < scratchBase) && decide (a + min r.length (2 ^ 24) ≤ scratchBase)

/-- The offset of the first field of a record that breaks R315, R319 or R406, given the posting partition's member list. -/
def recordFault (b : List Byte) (members : List Nat) (detlvl : Nat) : Option Nat :=
  let r := recordOf b
  let f (i n : Nat) : Nat := ofBytes ((b.drop i).take n)
  let bad : List (Nat × Bool) := [
    (0x00, decide (3 < r.op)),
    (0x01, match r.op with
      | 2 => decide (3 < r.fn)
      | 3 => decide (4 < r.fn)
      | _ => decide (r.fn ≠ 0)),
    (0x02, decide (r.peer ≠ 0xFFFF) && !members.contains r.peer),
    (0x04, decide (4095 < r.tctr)),
    (0x06, decide (r.order ≠ 0) && (decide (r.op ≠ 3) || (decide (detlvl ≠ 0) && r.rctr.isNone))),
    (0x10, !(decide (r.op = 2 ∧ r.local_ = 0#64)) && !r.addrOk r.local_.toNat),
    (0x18, !r.addrOk r.remote.toNat),
    (0x20, if r.op = 2 then decide (r.length ≠ (netAtom r.fn).size) else decide (r.length < 32) || decide (2 ^ 24 < r.length) || decide (r.length % 32 ≠ 0)),
    (0x24, decide (f 36 2 / 4096 % 8 ≠ 0)),
    (0x26, decide (f 38 2 / 4096 % 8 ≠ 0)),
    (0x30, ((b.drop 48).take 16).any (fun x => decide (x ≠ 0#8)))]
  (bad.find? (fun p => p.2)).map (fun p => p.1)

/-- The member list of an owner's partition: one that lies on this device alone has its rank alone, and outside a domain the list is empty (R406). -/
def State.members (s : State) (o : Nat) : List Nat :=
  let ms := ((s.part o).map (fun r => r.members)).getD []
  if !s.inDomain then [] else if ms.length ≤ 1 then [s.rank] else ms

/-! ### Posting (R317) -/

/-- `npost` (R317): the record is read as a plain load that raises the remote counter. -/
def execNpost (h : Guard) (a : Reg) (s : State) : Res :=
  let g := s.grp
  let va := g.getG64 a
  .next (if !g.guardQ h then s.finish g else
    match s.checkAccess g va true 64 wantLoad false with
    | .error c => s.fillWalks (s.trap (memTrap g.running 0 c va)) g (s.walksOf g [va] 64 wantLoad)
    | .ok x =>
      if s.tileHeldAt x 64 then s.trap (engTrap g.running 0 0 g.trapAt) else
      match s.fateOf g .load x with
      | .stop d => s.trap (syncTrap g.running d 0 va)
      | fate =>
        let k := s.fresh
        let e : NetOp := {
          owner := g.owner, launch := g.launch, gid := s.cur, island := s.groupIsland g, pc := g.pc, va := va, post := true,
          detlvl := (s.launchAt g.launch).detlvl, what := {}, tag := (s.launchAt g.launch).tag }
        State.issueOp { s with nets := mapPut s.nets k e } (g.raiseCount .remote k) ⟨true, .load, 64, 0#6, .plain, .grp, .remote, false⟩ [⟨none, x, fate, [], []⟩])

/-- The entries of an owner's table that are not freed (R317). -/
def State.entriesOf (s : State) (o : Nat) : Nat :=
  (s.nets.filter (fun p => p.2.post && decide (p.2.owner = o) && decide (p.2.stage ≠ .reading) && decide (p.2.stage ≠ .failed))).length

/-- A deferred network trap of a group (R333, R341). -/
def State.recordNet (s : State) (gid detail field : Nat) (pc : PcWord) (now : Nat) : State :=
  if (s.groupAt gid).isEnded then s else
  let t := netTrap 0#32 detail field pc
  s.modGroup gid (fun g => g.record causeNetwork { a := t.a, b := t.b, c := t.c, due := now })

/-- The record of an entry has been read: it is armed, or refused, and fires at once where its counter stands at its threshold. -/
def State.armEntry (s : State) (k : Nat) (e : NetOp) (b : List Byte) : State :=
  let now := s.cycOf e.owner e.island
  let drop (s : State) : State := { s with nets := mapErase s.nets k }
  match recordFault b (s.members e.owner) e.detlvl with
  | some f => (drop s).recordNet e.gid 1 f e.pc now
  | none =>
    if 8192 ≤ s.entriesOf e.owner then (drop s).recordNet e.gid 2 0 e.pc now else
    let r := recordOf b
    let s := { s with nets := mapPut s.nets k { e with what := r, serial := s.netSerial, stage := .armed }, netSerial := s.netSerial + 1 }
    if (s.counter e.owner r.tctr).ult r.threshold then s else s.fireNet k

/-- ENTRY_ARM (R317): the record becomes visible and the remote counter falls; its workgroup is looked at again (R242). -/
def execEntryArm (k : Nat) (s : State) : Res :=
  .next (match mapFind s.ops k, mapFind s.nets k with
    | some op, some e =>
      match op.arrived (s.cycOf op.owner op.island) with
      | [] => s
      | a :: _ =>
        let bad := (s.faultAt a.place a.size).isSome
        let s := (s.lineArrives op a).accDone k a.thread
        let s := { s with unsettled := s.unsettled ++ [e.gid] }
        if bad then { s with nets := mapErase s.nets k } else s.armEntry k e a.data
    | _, _ => s)

/-! ### `nput` and `nget` (R318) -/

/-- The record a block supplies. -/
def Group.blockRecord (g : Group) (a : Reg) (op : Nat) : List Byte :=
  let r (i : Nat) : Word := g.getG (a + BitVec.ofNat 6 i)
  [BitVec.ofNat 8 op, 0#8] ++ leBytes 2 (r 5).toNat ++ List.replicate 12 0#8 ++ leBytes 8 (g.getG64 a).toNat ++ leBytes 8 (g.getG64 (a + 2)).toNat
    ++ leBytes 4 (r 4).toNat ++ leBytes 4 (r 6).toNat ++ List.replicate 24 0#8

/-- Fire a put or get at issue; a release form waits for what it covers (R229), and its accesses meet R221 as those of the workgroup. -/
def State.netBlock (s : State) (h : Guard) (a : Reg) (o : Ord) (x : Scope) (op : Nat) : State :=
  let g := s.grp
  let b := g.blockRecord a op
  if !g.guardQ h then s.finish g else
  match recordFault b (s.members g.owner) 0 with
  | some _ => s.trap (netTrap g.running 1 0xFF g.pc)
  | none =>
    let k := s.fresh
    let e : NetOp := {
      owner := g.owner, launch := g.launch, gid := s.cur, island := s.groupIsland g, pc := g.pc, va := 0#64, post := false, stage := .held,
      detlvl := (s.launchAt g.launch).detlvl, what := recordOf b, tag := (s.launchAt g.launch).tag,
      hold := if Ord.releases o then s.holdList s.cur true o x g.running else [] }
    match s.netFates e |>.findSome? (fun f => match f.2 with
      | .stop d => some (f.1, d)
      | .go | .buffer | .wait => none) with
    | some (va, d) => s.trap (syncTrap g.running d 0 va)
    | none =>
      let n := ((s.netFates e).filter (fun f => decide (f.2 = .buffer))).length
      if 8192 < (s.wgAt g.wg).entries + n ∧ n ≠ 0 then s.trap (syncTrap g.running 17 0 0#64)
      else
        let s := { s with nets := mapPut s.nets k { e with hold := e.hold ++ s.netAwaits e, reserved := n }, nextId := k + 1 }
        let s := if n = 0 then s else s.modWg g.wg (fun w => { w with reserved := w.reserved + n })
        (s.finish (g.raiseCount .remote k)).tryFire k

/-- `nput` (R318). -/
def execNput (h : Guard) (a : Reg) (o : Ord) (x : Scope) (s : State) : Res := .next (s.netBlock h a o x 0)

/-- `nget` (R318). -/
def execNget (h : Guard) (a : Reg) (o : Ord) (x : Scope) (s : State) : Res := .next (s.netBlock h a o x 1)

/-! ### Arrival and completion (R316, R319, R320) -/

/-- The device's own operation that a message belongs to. -/
def State.ownEntry (s : State) (m : NetMsg) : Option (Nat × NetOp) :=
  if m.source = s.rank then (mapFind s.nets m.entry).map (fun e => (m.entry, e)) else none

/-- A write or reduction of an own operation at an address: as R221 gives its issuing workgroup, in a place kept for it, else performed; when that
workgroup has committed, every one below it has, and the write is performed (DEDUCED, log 64). -/
def State.netPut (s : State) (own : Option (Nat × NetOp)) (k : AccKind) (va : Nat) (pa : Nat) (bs : List Byte) (perform : State → State) : State :=
  match own with
  | none => perform s
  | some (id, e) =>
    match s.netFate e k va with
    | .buffer =>
      let g := s.groupAt e.gid
      let es := commitEntries pa bs (match k with
        | .red op => some op
        | .load | .store | .atom _ => none) g.index id
      let left := ((mapFind s.nets id).getD e).reserved
      { s with nets := mapPut s.nets id { ((mapFind s.nets id).getD e) with reserved := left - es.length } }.modWg g.wg (fun w =>
        { w with commit := w.commit ++ es, reserved := w.reserved - min left es.length })
    | .go | .wait | .stop _ => perform s

/-- The pieces of up to 8 bytes in which a sector's bytes are written, with their offsets. -/
def sectorPieces (bs : List Byte) : List (Nat × List Byte) := (List.range ((bs.length + 7) / 8)).map (fun i => (8 * i, (bs.drop (8 * i)).take 8))

/-- Write a sector's bytes at a leaf's address. -/
def State.putSector (s : State) (own : Option (Nat × NetOp)) (o va pa : Nat) (bs : List Byte) : State :=
  (sectorPieces bs).foldl (fun s p => s.netPut own .store (va + p.1) (pa + p.1) p.2 (fun s => (s.putMem (pa + p.1) p.2).fillL2 o (pa + p.1) 0#2)) s

/-- Write bytes sector by sector, up to the first that faults. -/
def State.netWrite (s : State) (own : Option (Nat × NetOp)) (o a : Nat) (bs : List Byte) : Option NetStop × State :=
  (List.range ((bs.length + 31) / 32)).foldl (fun r i =>
    match r.1 with
    | some _ => r
    | none =>
      let part := (bs.drop (32 * i)).take 32
      match r.2.netSector o (a + 32 * i) part.length wantStore with
      | .error m => (some ⟨32 * i, m⟩, r.2)
      | .ok x => (none, (r.2.setLeaf o x).putSector own o (a + 32 * i) x.pa part)) (none, s)

/-- Write what an operation brings to the places fixed when it fired. -/
def State.netBring (s : State) (own : Option (Nat × NetOp)) (o a : Nat) (dest : List Nat) (bs : List Byte) : State :=
  dest.zipIdx.foldl (fun s p => s.putSector own o (a + 32 * p.2) p.1 ((bs.drop (32 * p.2)).take 32)) s

/-- Apply one element at an address: the old bytes, or why it fails. -/
def State.netElement (s : State) (own : Option (Nat × NetOp)) (o a : Nat) (k : AccKind) (op : AtomOp) (x : List Byte) : Except NetStop (List Byte × State) :=
  match s.netSector o a op.size wantBoth with
  | .error m => .error ⟨0, m⟩
  | .ok l =>
    let old := (List.range op.size).map (fun i => s.netView own (l.pa + i))
    let new := leBytes op.size (op.new (ofBytes old) (ofBytes x) 0)
    .ok (old, (s.setLeaf o l).netPut own k a l.pa x (fun s => (s.putMem l.pa new).fillL2 o l.pa 0#2))

/-- Apply a reduce-put's elements in ascending address. -/
def State.netCombine (s : State) (own : Option (Nat × NetOp)) (o a : Nat) (op : AtomOp) (data : List Byte) : Option NetStop × State :=
  (List.range (data.length / op.size)).foldl (fun r i =>
    match r.1 with
    | some _ => r
    | none => match r.2.netElement own o (a + op.size * i) (.red op) op ((data.drop (op.size * i)).take op.size) with
      | .error x => (some ⟨op.size * i, x.mark⟩, r.2)
      | .ok (_, s) => (none, s)) (none, s)

/-- An operation is no longer listed; the places kept for it in the commit buffer are given back. -/
def State.netDrop (s : State) (k : Nat) : State :=
  match mapFind s.nets k with
  | none => s
  | some e =>
    let s := { s with nets := mapErase s.nets k }
    if e.reserved = 0 then s else s.modWg (s.groupAt e.gid).wg (fun w => { w with reserved := w.reserved - e.reserved })

/-- The bytes that chunks have brought, in their order. -/
def NetOp.brought (e : NetOp) : List Byte := e.parts.flatMap (fun p => p.2)

/-- Every chunk has been performed here: rctr is raised, and an operation of this device completes 1,024 cycles later, without dedicated slots on the
planes after a number of cycles that is left open (R316, R409). -/
def State.netPerformed (s : State) (m : NetMsg) : State :=
  let s := match m.rctr with
    | none => s
    | some n => if m.raises then s.setCounter m.owner n (s.counter m.owner n + 1) else s
  match s.ownEntry m with
  | none => s
  | some (k, e) =>
    if e.stage = .failed then s.netDrop k
    else if e.lim.isSome then s else
    let due := s.cycOf e.owner e.island + s.netBack e.owner
    State.schedule { s with openTick := s.openTick + 1, nets := mapPut s.nets k { e with data := e.brought } } (.owner e.owner e.island) due (.localCompletion k)

/-- One chunk has been performed here with what it brings back, which goes out to another device whose operation it is; with the last of its operation,
the operation has (R316, R406). -/
def State.netChunk (s : State) (m : NetMsg) (back : List Byte) : State :=
  match s.ownEntry m with
  | some (k, e) =>
    let parts := mapPut e.parts m.chunk back
    let s := { s with nets := mapPut s.nets k { e with parts := parts } }
    if parts.length = chunksOf m.total then s.netPerformed m else s
  | none =>
    let s := s.portSend { m with source := s.rank, op := 4, data := back } m.source
    let mine := s.chunks.filter (fun c => decide (c.1 = m.source) && decide (c.2.1 = m.entry))
    if mine.length + 1 < chunksOf m.total then { s with chunks := (m.source, m.entry, m.chunk) :: s.chunks }
    else State.netPerformed { s with chunks := s.chunks.filter (fun c => !mine.contains c) } m

/-- The operation met a fault here: its own device ends it (R320), and remembers a failing sector (R201). -/
def State.netFailed (s : State) (m : NetMsg) (x : NetStop) : State :=
  match s.ownEntry m with
  | none => { s with chunks := s.chunks.filter (fun c => !(decide (c.1 = m.source) && decide (c.2.1 = m.entry))) }
  | some (k, e) => State.soon { s with nets := mapPut s.nets k { e with bad := x.mark.map (fun n => (n, m.remote + x.at_)), lim := none } } (.networkOperationFault k)

/-- How a chunk ends at its peer: performed with what it brings back, or failed. -/
def State.netEnds (s : State) (m : NetMsg) (stop : Option NetStop) (back : List Byte) : State :=
  match stop with
  | none => s.netChunk m back
  | some x => s.netFailed m x

/-- A sector of the operation before this chunk fails: nothing beyond it is read or written, whatever the order of the chunks (R320, R406). -/
def State.netCut (s : State) (m : NetMsg) (w : Want) : Bool :=
  let a := m.remote - 256 * m.chunk
  (List.range (8 * m.chunk)).any (fun i => match s.netSector m.owner (a + 32 * i) 32 w with
    | .error _ => true
    | .ok _ => false)

/-- An answer from another device (R316): with the last chunk of what it brings, the operation reaches its local completion, in dedicated slots and
with at most 256 bytes at the cycle that R409 gives if that is still to come (DESIGN CHOICE, log 53). -/
def State.netAnswer (s : State) (m : NetMsg) : State :=
  match mapFind s.nets m.entry with
  | none => s
  | some e =>
    if e.stage ≠ .fired ∨ s.netHere e.what then s else
    let e := { e with parts := mapPut e.parts m.chunk m.data }
    let s := { s with nets := mapPut s.nets m.entry { e with data := e.brought } }
    if e.parts.length < chunksOf m.total then s else
    let now := s.cycOf e.owner e.island
    s.schedule (.owner e.owner e.island) (if Config.planeSlots e.owner && decide (e.what.length ≤ 256) then max now (e.at_ + 2048) else now) (.localCompletion m.entry)

/-- A chunk that has come through its owner's slots is performed, or a reduce-put's at level 1 or 2 is held until its turn (R316, R319). What an operation
of this device that has ended still has on its way does nothing. -/
def State.netArrives (s : State) (m : NetMsg) : State :=
  let own := s.ownEntry m
  if m.op < 4 ∧ m.source = s.rank ∧ own.isNone then s else
  match m.op with
  | 0 =>
    if s.netCut m wantStore then s else
    let (stop, s) := s.netWrite own m.owner m.remote m.data
    s.netEnds m stop []
  | 1 =>
    if s.netCut m wantLoad then s else
    let ((bs, stop), s) := s.netRead own m.owner m.remote m.len
    s.netEnds m stop bs
  | 2 =>
    let op := netAtom m.fn
    let k : AccKind := if (own.map (fun p => p.2.what.local_)) = some 0#64 then .red op else .atom op
    match s.netElement own m.owner m.remote k op m.data with
    | .error x => s.netFailed m x
    | .ok (old, s) => s.netChunk m old
  | 3 =>
    let turn := match m.rctr with
      | none => true
      | some n => decide (m.order ≤ (s.counter m.owner n).toNat)
    if m.level ≠ 0 ∧ turn = false then { s with heldMsgs := s.heldMsgs ++ [m] }
    else if s.netCut m wantBoth then s else
    let (stop, s) := s.netCombine own m.owner m.remote (netReduce m.fn) m.data
    s.netEnds m stop []
  | 4 => s.netAnswer m
  | _ => if (mapFind s.nets m.entry).isSome then s.soon (.networkOperationFault m.entry) else s

/-- The next cycle of an owner in which a slot of the port that a chunk comes through is its own; none where it has none there (R391, R405, R407). -/
def State.portTurn (s : State) (m : NetMsg) (now : Nat) : Option Nat :=
  let port := planeOf m.chunk m.source s.rank
  ((List.range 32).find? (fun k => decide (s.tableOwner .link (8 + port) ((now + k) % 32) = m.owner))).map (fun k => now + k)

/-- MESSAGE_ARRIVAL (R316, R319, R407): what comes from outside is served in the owner's slots of its port, and so not while the owner is held; a device
that takes part in no domain has its ports disabled (R405). (DESIGN CHOICE, log 53) -/
def execMessageArrival (m : NetMsg) (s : State) : Res :=
  let i := islandOf (s.phys m.owner (s.lowCore m.owner))
  .next (if m.served then s.netArrives m
    else if !s.inDomain then s
    else match s.portTurn m (s.cycOf m.owner i) with
      | none => s
      | some c => s.schedule (.owner m.owner i) c (.messageArrival { m with served := true }))

/-- An operation ends: its entry is freed, its group's remote counter falls, and its workgroup is looked at again (R242). What a faulting operation had
read before is still performed on this device. -/
def State.netEnd (s : State) (k : Nat) (e : NetOp) : State :=
  let s := if e.lim.isSome && decide (e.stage = .fired) && s.netHere e.what && !e.data.isEmpty then { s with nets := mapPut s.nets k { e with stage := .failed } } else s.netDrop k
  if e.post then s else
  let s := s.modGroup e.gid (fun g => g.returned k)
  { s with unsettled := s.unsettled ++ [e.gid] }

/-- What an operation writes at its local address: nothing from outside has a stated value until its answer has come (DESIGN CHOICE, log 11). -/
def State.netResult (s : State) (e : NetOp) : List Byte :=
  let n := e.what.length
  if e.data.length = n then e.data else (List.range n).map (fun i => (Config.freeWord (s.openTick + i)).extractLsb' 0 8)

/-- LOCAL_COMPLETION (R316): a get's or an atomic's bytes are written, lctr is raised and the entry is freed. -/
def execLocalCompletion (k : Nat) (s : State) : Res :=
  .next (match mapFind s.nets k with
    | none => s
    | some e =>
      if e.stage ≠ .fired then s else
      let r := e.what
      let s := if r.brings then s.netBring (some (k, e)) e.owner r.local_.toNat e.dest (s.netResult e) else s
      let s := State.netEnd { s with openTick := s.openTick + r.length } k e
      match r.lctr with
      | none => s
      | some n => s.setCounter e.owner n (s.counter e.owner n + 1))

/-- A failing sector at an egress port: the issuer of `nput` or `nget` receives the trap of R201, with CONSUMER 2 (R343). -/
def State.recordEgress (s : State) (e : NetOp) (mark va : Nat) : State :=
  if (s.groupAt e.gid).isEnded then s else
  let cause := if mark = 0 then causeIntegrity else causeHardware
  let t := sectorTrap cause 0#32 (BitVec.ofNat 64 va) (pcOff (s.launchAt e.launch).entry e.pc) (mark - 1) 2
  s.modGroup e.gid (fun g => g.record cause { a := t.a, b := t.b, c := t.c, due := s.cycOf e.owner e.island })

/-- NETWORK_OPERATION_FAULT (R318, R320): the entry is freed and the partition told; an operation of `nput` or `nget` traps its group. -/
def execNetworkOperationFault (k : Nat) (s : State) : Res :=
  .next (match mapFind s.nets k with
    | none => s
    | some e =>
      let s := s.netEnd k e
      if e.post then
        s.post e.owner 4 (1 + e.island / 8) e.tag 0#32 (leBytes 2 e.what.tctr ++ leBytes 8 e.va.toNat) (s.launchAt e.launch).secured
      else match e.bad with
        | some (mark, va) => s.recordEgress e mark va
        | none => s.recordNet e.gid 3 0 e.pc (s.cycOf e.owner e.island))

/-! ### The reduction tree (R321 to R323, R404) -/

/-- The lowest level whose domain is `fab`, if any (R276). -/
def Launch.fabLevel (l : Launch) : Option Nat := (l.levels.zipIdx.find? (fun p => decide (p.1.domain = 7))).map (fun p => p.2 + 1)

/-- W of R274. -/
def Launch.volume (l : Launch) : Nat := l.sizesTo l.levels.length

/-- The least workgroup index from i on that the device places (R276): none of a launch whose command names no child. -/
def Launch.nextIndex (l : Launch) (i : Nat) : Nat :=
  match l.fabLevel with
  | none => i
  | some k =>
    if k < 3 then i
    else if l.children.2 = 0 then max i l.volume else
    let unit := l.sizesTo (k - 1)
    let whole := unit * l.size k
    let pos := i / unit % l.size k
    if pos < l.children.1 then i / whole * whole + l.children.1 * unit
    else if pos < l.children.1 + l.children.2 then i
    else (i / whole + 1) * whole + l.children.1 * unit

/-- Every workgroup of a launch that the device places has been placed. -/
def Launch.allPlaced (l : Launch) : Bool := decide (l.volume ≤ l.nextIndex l.placed)

/-- The participants of a launch: the first group of each workgroup, with the workgroup's index and logical core, in that order. -/
def State.treeMembers (s : State) (l : Nat) : List (Nat × Nat × Nat) :=
  (s.wgs.filter (fun p => decide (p.2.launch = l))).filterMap (fun p => p.2.groups.head?.map (fun g => (g, p.2.index, p.2.core)))

/-- The n-th tree instruction of a participant, if it waits there. -/
def State.treeWait (s : State) (gid n : Nat) : Option (Nat × WaitOp) :=
  s.waits.find? (fun p => decide (p.2.gid = gid) && p.2.due.isNone && (match p.2.kind with
    | .tree m _ _ _ _ _ _ => decide (m = n)
    | _ => false))

/-- Withdraw a wait of a group's tree instruction or exchange and trap there. -/
def State.trapWaiting (s : State) (k : Nat) (x : WaitOp) (t : Trap) : State :=
  let s := { s with waits := mapErase s.waits k }
  let s := s.modGroup x.gid (fun g => match x.kind with
    | .tree _ _ _ _ _ _ _ => { g with treeN := g.treeN - 1 }
    | .xchg _ _ _ _ _ _ => { g with xchgN := g.xchgN - 1 }
    | _ => g)
  s.trapGroup x.gid { t with mask := (s.groupAt x.gid).running }

/-- Two tree instructions match in kind, function and count. -/
def treeAgrees (x y : WaitKind) : Bool :=
  match x, y with
  | .tree _ b _ c f _ _, .tree _ b' _ c' f' _ _ => decide (b = b' ∧ c = c' ∧ f = f')
  | _, _ => false

/-- One contribution on its way up: its core, its place in arrival order, its value and the flags so far. -/
structure TreeArm where
  core : Nat
  at_ : Nat
  val : Word
  fl : BitVec 4
  deriving DecidableEq, Repr

def TreeArm.join (f : GFn) (x y : TreeArm) : TreeArm :=
  let r := gfnPair f x.val y.val
  { y with val := r.val, fl := x.fl ||| y.fl ||| r.fl }

/-- Fold contributions in a list's order. -/
def foldArms (f : GFn) : List TreeArm → Option TreeArm
  | [] => none
  | x :: xs => some (xs.foldl (TreeArm.join f) x)

/-- At a row of nodes, each node folds what reaches it as it arrives, and sends its result when the last has come (R403, R404). -/
def foldNodes (f : GFn) (node : Nat → Nat) (xs : List TreeArm) : List TreeArm :=
  let sorted := xs.inOrder (fun a b => decide (a.at_ ≤ b.at_))
  ((sorted.map (fun a => node a.core)).dedup).filterMap (fun n => foldArms f (sorted.filter (fun a => decide (node a.core = n))))

/-- Level 0: through the cores, the clusters, the quadrants and the dies to the package. -/
def foldArrival (f : GFn) (xs : List TreeArm) : Option TreeArm :=
  foldArms f ((foldNodes f dieOf (foldNodes f quadrantOf (foldNodes f clusterOf (foldNodes f id xs)))).inOrder (fun a b => decide (a.at_ ≤ b.at_)))

/-- The largest power of two below n: 2^(ceil(log2 n) - 1). -/
def halfPower (n : Nat) : Nat := 2 ^ Nat.log2 (n - 1)

/-- Pair (R404), with fuel. -/
def foldPair (f : GFn) : Nat → List TreeArm → Option TreeArm
  | 0, _ => none
  | n + 1, xs =>
    match xs with
    | [] => none
    | [x] => some x
    | xs =>
      let m := halfPower xs.length
      match foldPair f n (xs.take m), foldPair f n (xs.drop m) with
      | some a, some b => some (a.join f b)
      | _, _ => none

/-- The combination of one element at a determinism level; the list comes in ascending workgroup index. -/
def treeCombine (level : Nat) (f : GFn) (xs : List TreeArm) : Word × BitVec 4 :=
  let r := match level with
    | 0 => foldArrival f xs
    | 1 => let ys := xs.inOrder (fun a b => decide (a.core ≤ b.core)); foldPair f (ys.length + 1) ys
    | _ => foldArms f xs
  match r with
  | none => (0#32, 0#4)
  | some a => (a.val, a.fl)

/-- The first cycle w + 256 + 32n that is not before c (R322, R323). (DEDUCED, log 50) -/
def treeDue (w c : Nat) : Nat := w + 256 + 32 * ((c - (w + 256) + 31) / 32)

/-- Every participant has arrived: the results are worked out and due. -/
def State.treeComplete (s : State) (l : Nat) (ps : List (Nat × Nat × WaitOp)) : State :=
  match ps with
  | [] => s
  | (_, _, x0) :: _ =>
    match x0.kind with
    | .tree _ bar _ c f _ _ =>
      let level := (s.launchAt l).detlvl
      let arm (e : Nat) (p : Nat × Nat × WaitOp) : TreeArm :=
        let v := match p.2.2.kind with
          | .tree _ _ _ _ _ vals _ => vals.getD e 0#32
          | _ => 0#32
        ⟨if level = 0 then s.phys p.2.2.owner p.1 else p.1, p.2.1, v, 0#4⟩
      let rs := if bar then [] else (List.range c).map (fun e => treeCombine level f (ps.map (arm e)))
      let fl := rs.foldl (fun m r => m ||| r.2) 0#4
      ps.foldl (fun s p =>
        let x := p.2.2
        let due := treeDue x.w (s.cycOf x.owner x.island)
        let kind := match x.kind with
          | .tree n b d c f _ _ => .tree n b d c f (rs.map (fun r => r.1)) fl
          | k => k
        { s with waits := mapPut s.waits p.2.1 { x with kind := kind, due := some due } }.schedule (.owner x.owner x.island) due
          (if bar then .treeBarComplete p.2.1 else .treeRedComplete p.2.1)) s
    | _ => s

/-- See whether the n-th tree instructions of a launch match (R321): a participant whose workgroup has ended first, a mismatch, or
completion. -/
def State.treeTry (s : State) (l n : Nat) : State :=
  let ms := (s.treeMembers l).inOrder (fun a b => decide (a.2.1 ≤ b.2.1))
  let ps := ms.filterMap (fun m => (s.treeWait m.1 n).map (fun p => (m.2.2, p.1, p.2)))
  let gone := ms.any (fun m => (s.wgAt (s.groupAt m.1).wg).ended && decide ((s.groupAt m.1).treeN ≤ n))
  let trapAll (d : Nat) : State := ps.foldl (fun s p => s.trapWaiting p.2.1 p.2.2 (syncTrap 0#32 d 0 0#64)) s
  if ps.isEmpty then s
  else if gone then trapAll 22
  else if !(s.launchAt l).allPlaced || decide (ps.length ≠ ms.length) then s
  else if !(ps.all (fun p => treeAgrees p.2.2.kind ((ps.head?.map (fun q => q.2.2.kind)).getD p.2.2.kind))) then trapAll 21
  else if ps.all (fun p => match s.awaitAll p.2.2.island p.2.2.hold with
    | none => false
    | some c => decide (c ≤ s.cycOf p.2.2.owner p.2.2.island)) then s.treeComplete l ps
  else s

/-- Issue a tree instruction of the current group (R321). -/
def State.treeIssue (s : State) (kind : Nat → WaitKind) (hold : List Await) : State :=
  let g := s.grp
  if (s.launchAt g.launch).queues.isEmpty then s.trap (syncTrap g.running 19 0 0#64)
  else if g.index ≠ 0 then s.trap (syncTrap g.running 20 0 0#64)
  else
    let n := g.treeN
    let k := s.fresh
    let s := s.await { g with treeN := n + 1 } (kind n) none
    let s := match mapFind s.waits k with
      | none => s
      | some x => { s with waits := mapPut s.waits k { x with hold := hold } }
    if hold.isEmpty then s.treeTry g.launch n else (s.tryArrive k).treeTry g.launch n

/-- `tree.red` (R322). -/
def execTreeRed (h : Guard) (d a : Reg) (c : BitVec 3) (f : GFn) (s : State) : Res :=
  let g := s.grp
  .next (if !g.guardQ h then s.finish g else
    s.treeIssue (fun n => .tree n false d (c.toNat + 1) f ((List.range (c.toNat + 1)).map (fun i => g.getG (a + BitVec.ofNat 6 i))) 0#4) [])

/-- `tree.bar` (R323): it delivers the pending traps of R241 first, and arrives once what it releases at `dev` is performed. -/
def execTreeBar (h : Guard) (s : State) : Res :=
  .next (match s.barrierTrap with
    | some s' => s'
    | none =>
      let g := s.grp
      if !g.guardQ h then s.finish g else
      s.treeIssue (fun n => .tree n true 0#6 0 .addI32 [] 0#4) ((s.coveredIds s.cur g.running).map (fun k => Await.op k false)))

/-- The launch of a waiting instruction. -/
def State.waitLaunch (s : State) (x : WaitOp) : Nat := (s.groupAt x.gid).launch

/-- TREE_RED_COMPLETE (R322): the results and the flags of every step. -/
def execTreeRedComplete (k : Nat) (s : State) : Res :=
  .next (match mapFind s.waits k with
    | none => s
    | some x =>
      match x.kind with
      | .tree _ false d _ _ vals fl =>
        if x.due ≠ some (s.cycOf x.owner x.island) then s else
        { s with waits := mapErase s.waits k }.resume x.gid (fun g =>
          let g1 := Group.raise { g with pc := x.pc } [none] (fun _ => fl)
          { dispWrite d vals g1 with pc := g.pc })
      | _ => s)

/-- TREE_BAR_COMPLETE (R323): a participant's arrival is looked at again, or at its due cycle its wait ends as an acquire at `dev`. -/
def execTreeBarComplete (k : Nat) (s : State) : Res :=
  .next (match mapFind s.waits k with
    | none => s
    | some x =>
      match x.kind with
      | .tree n true _ _ _ _ _ =>
        if x.due = none then s.treeTry (s.waitLaunch x) n
        else if x.due ≠ some (s.cycOf x.owner x.island) then s
        else ({ s with waits := mapErase s.waits k }.resume x.gid id).dropL1 x.owner (s.groupAt x.gid).core
      | _ => s)

end Sys2Proof.Machine
end

