-- ==== Sys2Proof/Machine/System.lean ====
section
/-! DEFINITION. System instructions that write special registers, raise and leave traps, end a launch and draw random numbers: majors 0x70 to
0x73 and 0x75 (R372 to R377, R380, R381), and the event that carries a halt to the launch's other groups. -/

namespace Sys2Proof.Machine

/-! ### `sets` (R373, R374) -/

/-- Write a special register: RES bits are ignored, but in the details, which store what is written. -/
def Group.writeSreg (g : Group) (r : SReg) (w : Word) (x : Dword) : Group :=
  match r with
  | .flags => { g with flags := w &&& 0xF#32 }
  | .flagArm => { g with flagArm := w &&& 0x3#32 }
  | .tmask => { g with tmask := w }
  | .tcause => { g with tcause := w &&& 0x71F#32 }
  | .tdetailA => { g with tdetA := w }
  | .tdetailB => { g with tdetB := w }
  | .tdetailC => { g with tdetC := w }
  | .trapPc => { g with trapPc := x }
  | .thread | .group | .levelId | .owner | .ownerCyc | .rotaSlot | .rotaMap | .melt | .leaseLeft | .detlvl => g

/-- Registers that `sets` may write at all times. -/
def sregFree : SReg → Bool
  | .flags | .flagArm => true
  | _ => false

/-- `sets` (R373). -/
def execSets (h : Guard) (r : SReg) (b : BSel) (s : State) : Res :=
  let g := s.grp
  .next (if !sregFree r && !(r.isTrap && g.trapMode) then s.trap (encTrap g 7 ((encode (.sets h r b)).getD 0#32))
    else if !g.guardQ h then s.finish g
    else s.finish (g.writeSreg r (g.opG b) (g.opB64 none b)))

/-! ### `trap`, `rte` (R375, R376) -/

/-- A software trap (R344). -/
def softTrap (mask : BitVec 32) (code : Word) : Trap := { cause := causeSoftware, mask := mask, a := code }

/-- `trap` (R375). -/
def execTrap (u : Bool) (h : Guard) (b : BSel) (s : State) : Res :=
  let g := s.grp
  .next (if u then (if g.guardQ h then s.trap (softTrap g.running (g.opG b)) else s.finish g)
    else
      let a := g.active h
      match lowestBit a with
      | none => s.finish g
      | some t => s.trap (softTrap a (g.opB (some t) b)))

/-- `rte` (R376). -/
def execRte (h : Guard) (s : State) : Res :=
  let g := s.grp
  .next (if !g.trapMode then s.trap (encTrap g 6 ((encode (.rte h)).getD 0#32))
    else if g.guardQ h then s.returnFromTrap else s.finish g)

/-! ### `halt` (R377) -/

/-- Islands on which an owner counts for a launch's groups. -/
def State.launchIslands (s : State) (l : Nat) : List Nat :=
  ((s.groups.filter (fun p => decide (p.2.launch = l))).map (fun p => s.groupIsland p.2)).dedup

/-- `halt` (R377): this group ends now, the others of the launch from owner cycle w + 256 of their own island on. -/
def execHalt (h : Guard) (b : BSel) (s : State) : Res :=
  let g := s.grp
  .next (if !g.guardQ h then s.finish g else
    let code := g.opG b
    let w := s.win
    let s := s.modLaunch g.launch (fun l => if l.halted.isSome then l else { l with halted := some code, haltAt := some (w + 256) })
    let s := (s.endGroup s.cur).tellDependants g.launch
    (s.launchIslands g.launch).foldl (fun s i => s.schedule (.owner g.owner i) (w + 256) (.haltPropagate g.launch)) s)

/-- A group of a halted launch ends now: its island has reached the cycle, and it is not saved (R377). -/
def State.haltsNow (s : State) (l : Nat) (g : Group) : Bool :=
  decide (g.launch = l) && g.live && (mapFind s.swapped g.wg).isNone && !g.isEnded && (match (s.launchAt l).haltAt with
    | none => false
    | some c => decide (c ≤ s.cycOf g.owner (s.groupIsland g)))

/-- HALT_PROPAGATE (R377): the launch's groups end on the islands that have reached the cycle, but those saved, which end at their restoration. -/
def execHaltPropagate (l : Nat) (s : State) : Res :=
  .next ((s.groups.foldl (fun s p => if s.haltsNow l (s.groupAt p.1) then s.endGroup p.1 else s) s).soon (.launchCompletion l))

/-! ### Random numbers (R380) -/

/-- Mix (R380). -/
def mix (k n y : Dword) : Word :=
  let z := k + n * 0x9E3779B97F4A7C15#64 + y * 0xD1B54A32D192ED03#64
  let z := (z ^^^ (z >>> 30)) * 0xBF58476D1CE4E5B9#64
  let z := (z ^^^ (z >>> 27)) * 0x94D049BB133111EB#64
  (z ^^^ (z >>> 31)).extractLsb' 32 32

/-- `rand` (R380, R381): one draw for the group, its counter advanced once. -/
def execRand (h : Guard) (d : Reg) (s : State) : Res :=
  let g := s.grp
  let ls := g.lanes false h
  let w := (s.wgAt g.wg).index
  .next (if ls.isEmpty then s.finish g else
    let g1 := g.writeAll ls d (fun l => mix g.randKey g.randCtr (BitVec.ofNat 64 (w * 1024 + g.index * 32 + l.getD 0)))
    s.finish ({ g1 with randCtr := g.randCtr + 1 }.mark s.win 12 [locV d]))

/-- `rand.seed` (R380). -/
def execRandSeed (h : Guard) (a : Reg) (s : State) : Res :=
  let g := s.grp
  .next (if g.active h = 0#32 then s.finish g else s.finish { g with randKey := g.getG64 a, randCtr := 0#64 })

end Sys2Proof.Machine
end

