-- ==== Sys2Proof/Machine/Save.lean ====
section
/-! DEFINITION. Withdrawing what a group waits for, and bringing to an end what it has in flight, when it is saved (R247, R270, R286, R324,
R350). -/

namespace Sys2Proof.Machine

/-- The state a meaning goes on to; the meanings used here always go on. -/
def goOn (r : Res) (s : State) : State :=
  match r with
  | .next t => t
  | .fault _ | .refused _ => s

/-- PC is at the instruction the group waits in, which is to issue afresh, with the loops as that instruction found them. -/
def Group.backOut (g : Group) : Group := { g with busy := none, pc := g.barMark.pc, n := g.barMark.n, loops := g.barMark.loops }

def State.backOut (s : State) (gid : Nat) (f : Group → Group) : State :=
  if (s.groupAt gid).isEnded then s else s.modGroup gid (fun g => (f g).backOut)

/-- A waiting instruction whose result is not yet known is withdrawn: `deq`, `nctr.wait`, unmatched tree instructions and, with `all`,
unmatched exchanges (R172, R286, R324). -/
def State.withdraw (s : State) (pairs : Bool) (k : Nat) (x : WaitOp) : State :=
  match x.kind with
  | .deq _ _ _ _ _ => (s.withdrawDeq k).backOut x.gid id
  | .nctrWait _ _ => { s with waits := mapErase s.waits k }.backOut x.gid id
  | .tree _ _ _ _ _ _ _ =>
    if x.due.isSome then s else { s with waits := mapErase s.waits k }.backOut x.gid (fun g => { g with treeN := g.treeN - 1 })
  | .xchg _ _ _ _ _ met =>
    if met || !pairs then s else { s with waits := mapErase s.waits k }.backOut x.gid (fun g => { g with xchgN := g.xchgN - 1 })
  | .append _ _ _ _ | .disp _ _ _ | .lease _ _ _ _ _ | .ctx _ _ _ _ _ _ => s

/-- Withdraw every such wait of the groups that a choice names. -/
def State.withdrawAll (s : State) (pairs : Bool) (f : Group → Bool) : State :=
  s.waits.foldl (fun s p => if f (s.groupAt p.2.gid) then s.withdraw pairs p.1 p.2 else s) s

/-! ### What is in flight is completed (R247, R350)

A save makes the effect of an access now and marks it `settled`; the cycle at which its group sees it return stays the one it would have had (R149, R153;
DEDUCED, log 74). -/

/-- A condition that an access in flight waits for is met once what a save has completed counts as performed. -/
def State.metNow (s : State) (x : Await) : Bool :=
  match x with
  | .op id _ => match mapFind s.ops id with
    | none => true
    | some op => op.accs.all (fun a => a.done || a.settled)
  | .acc id t _ => match (mapFind s.ops id).bind (fun op => op.acc t) with
    | none => true
    | some a => a.done || a.settled
  | .sent id t => match (mapFind s.ops id).bind (fun op => op.acc t) with
    | none => true
    | some a => a.done || a.settled || a.sent.isSome
  | .commits l idx => s.committedBelow l idx || s.haltedWhole l

/-- An operation whose data is a record or a table, which no register takes (R310, R317). -/
def State.readsLines (s : State) (k : Nat) : Bool := (mapFind s.nets k).isSome || (mapFind s.waits k).isSome

/-- Make the effect of one thread's access: what has not been sent reads, or enters its commit buffer, now. -/
def State.settleAcc (s : State) (k t : Nat) : State :=
  match mapFind s.ops k with
  | none => s
  | some op => match op.acc t with
    | none => s
    | some a =>
      if a.done || a.settled then s else
      let s := if a.sent.isSome then s else if a.buffered then s.enterBuffer k op a else s.capture k t (s.cycOf op.owner op.island) true
      match mapFind s.ops k with
      | none => s
      | some op =>
        let s := if s.readsLines k then s else s.takeEffect k op ((op.acc t).getD a)
        match mapFind s.ops k with
        | none => s
        | some op => { s with ops := mapPut s.ops k (setAcc op t (fun a => { a with settled := true })) }

/-- A change of a trigger counter keeps its owner cycle, for what it fires dates from that cycle (R311, R316); with `regs` one that writes a register too
is completed. -/
def settles (regs : Bool) (op : MemOp) (a : Acc) : Bool :=
  !a.done && !a.settled && (match a.place, op.kind with
    | .ctr _, .store | .ctr _, .red _ => false
    | .ctr _, .atom _ => regs
    | _, _ => true)

/-- The accesses of some operations that a save completes, in the order in which they become visible: those sent, by cycle, then those held, as they
were issued. -/
def State.toSettle (s : State) (regs : Bool) (ids : List Nat) (sent : Bool) : List (Nat × Nat) :=
  let xs : List ((Nat × Nat) × Nat × Nat) := s.ops.flatMap (fun p =>
    if ids.contains p.1 then
      let g := s.groupAt p.2.gid
      (p.2.accs.filter (fun a => settles regs p.2 a && (a.sent.isSome == sent))).map (fun a =>
        ((a.vis - s.cycOf p.2.owner p.2.island, g.lane * 12 + g.ctx), p.1, a.thread))
    else [])
  (if sent then xs.inOrder (fun a b => decide (a.1.1 < b.1.1) || (decide (a.1.1 = b.1.1) && decide (a.1.2 ≤ b.1.2))) else xs).map (fun x => x.2)

/-- Held accesses are completed as what they wait for has been; those that wait for commits stay in flight. -/
def State.settleHeld (s : State) (regs : Bool) (ids : List Nat) : Nat → State
  | 0 => s
  | n + 1 => ((s.toSettle regs ids false).foldl (fun s x =>
      match (mapFind s.ops x.1).bind (fun op => op.acc x.2) with
      | some a => if a.wait.all s.metNow then s.settleAcc x.1 x.2 else s
      | none => s) s).settleHeld regs ids n

/-- The operations that some operations wait for, with them. -/
def State.waitedFor (s : State) : Nat → List Nat → List Nat
  | 0, ids => ids
  | n + 1, ids => s.waitedFor n (s.ops.foldl (fun ids p => if ids.contains p.1 then
      (ids ++ p.2.accs.flatMap (fun a => a.wait.filterMap (fun x => match x with
        | .op id _ | .acc id _ _ | .sent id _ => some id
        | .commits _ _ => none))).dedup else ids) ids)

/-- Complete some operations and what they wait for. -/
def State.settleOps (s : State) (regs : Bool) (ids : List Nat) : State :=
  let ids := s.waitedFor s.ops.length ids
  let s := (s.toSettle regs ids true).foldl (fun s x => s.settleAcc x.1 x.2) s
  s.settleHeld regs ids (s.toSettle regs ids false).length

/-! ### What an image must hold (R324) -/

/-- A group is not ready before a cycle. -/
def Group.notBefore (g : Group) (c : Nat) : Group := { g with readyAt := max g.readyAt c }

/-- The table of a `disp` as memory shows it where the lines of its buckets have not been read, or the trap of a check. -/
def State.dispTable (s : State) (g : Group) (x : WaitOp) (base : Dword) (bs : List Byte) : Except Trap (List Byte) :=
  if 64 * tableLines bs ≤ bs.length then .ok bs else
  let xs := (s.checkLines g base (tableLines bs)).drop (bs.length / 64)
  match firstFault xs, s.lineReqs g x.pc xs with
  | some (va, c), _ => .error (memTrap g.running 0 c va)
  | none, .error t => .error t
  | none, .ok reqs => .ok (bs ++ reqs.flatMap (fun r => (s.loadValue g.owner g.core g.wg false r.hit.place 64 (s.cycOf x.owner x.island)).1))

/-- The result of a `disp` whose lines have all been read is written now; its group goes on no earlier than they would have come (R310, R324). -/
def State.forceDisp (s : State) (k : Nat) (x : WaitOp) (d : Reg) (shape : List Word) (bad : Bool) : State :=
  match mapFind s.ops k with
  | none => s
  | some op =>
    let s := op.accs.foldl (fun s a => if a.done then s else match s.faultAt a.place a.size with
      | none => s
      | some (i, n) => s.modGroup op.gid (fun g => g.recordReply (s.launchAt op.launch).entry op 0 (a.va / 32 * 32 + 32 * i) n a.vis)) s
    let failed := bad || op.accs.any (fun a => !a.done && (s.faultAt a.place a.size).isSome)
    let s := { s with waits := mapErase s.waits k }
    let base := BitVec.ofNat 64 ((op.accs.head?.map (fun a => a.va)).getD 0)
    let due := op.accs.foldl (fun m a => max m a.vis) 0
    if (s.groupAt x.gid).isEnded then s else
    if failed then s.resume x.gid (fun g => g.notBefore due) else
    match s.dispTable (s.groupAt x.gid) x base (op.accs.flatMap (fun a => a.data)) with
    | .error t => s.trapGroup x.gid t
    | .ok t =>
      if tableOk t then s.resume x.gid (fun g => (dispWrite d (dispatch t shape) g).notBefore due)
      else s.trapGroup x.gid (engTrap (s.groupAt x.gid).running 9 0 x.pc)

/-- An issued instruction whose result is known but not yet visible writes it now, and its group goes on no earlier than it would have come. -/
def State.forceWait (s : State) (k : Nat) (x : WaitOp) : State :=
  let c := x.due.getD 0
  let s1 := { s with waits := mapPut s.waits k { x with due := some (s.cycOf x.owner x.island) } }
  let after (t : State) : State := t.modGroup x.gid (fun g => g.notBefore c)
  match x.kind with
  | .append _ r item p =>
    let (ok, t) := { s with waits := mapErase s.waits k }.appendItem x.owner r item c
    after (t.resume x.gid (fun g => g.setQ p ok))
  | .disp d shape bad => s.forceDisp k x d shape bad
  | .xchg _ _ _ _ _ true => after (goOn (execXchgComplete k s1) s)
  | .tree _ bar _ _ _ _ _ =>
    if x.due.isNone then s else after (if bar then goOn (execTreeBarComplete k s1) s else goOn (execTreeRedComplete k s1) s)
  | .deq _ _ _ _ _ | .xchg _ _ _ _ _ false | .nctrWait _ _ | .lease _ _ _ _ _ | .ctx _ _ _ _ _ _ => s

/-- Pending passes of an owner's lane slice are written, and its queue is worked off (R270). -/
def State.drainLane (s : State) (o core lane : Nat) : State :=
  let s := s.passes.foldl (fun s p => if p.2.owner = o ∧ p.2.core = core ∧ p.2.lane = lane then goOn (execMatrixPassResult p.1 s) s else s) s
  let key := tileKey o core lane
  let island := islandOf (s.phys o core)
  let now := s.cycOf o island
  let es := mapGet [] s.queues key
  let s := { s with queues := mapErase s.queues key }
  es.foldl (fun s e =>
    match e.work with
    | .drain k => s.drainPass (s.phys o core) e.tile now k
    | .quarter _ _ _ _ _ | .zero | .read _ _ _ =>
      let (tiles, regs) := s.passEntry (s.phys o core) ([], []) e
      let k := s.fresh
      goOn (execMatrixPassResult k { s with
        passes := mapPut s.passes k { owner := o, core := core, lane := lane, island := island, left := 0, entries := [e], tiles := tiles, regs := regs }
        nextId := k + 1 }) s) s

/-- The queues of the lane on which a group has tile operations are worked off (R270). -/
def State.drainGroup (s : State) (gid : Nat) : State :=
  let g := s.groupAt gid
  if s.tileOps.any (fun p => decide (p.2.gid = gid)) then s.drainLane g.owner g.core g.lane else s

/-- A group is saved: its accesses in flight are completed, and what it waits for without a known result is withdrawn. Copies, drains, `nput` and `nget`
run on, and a known result, a tile operation and a lease request keep their owner cycles (R153, R350, R384; DEDUCED, log 74). -/
def State.settleGroup (s : State) (gid : Nat) : State :=
  let s := s.settleOps false (s.opsOf gid)
  s.waits.foldl (fun s p => if p.2.gid = gid then s.withdraw true p.1 p.2 else s) s

/-- A group is saved into an image: results and tile operations too are written before the image is (R270, R324). -/
def State.closeGroup (s : State) (gid : Nat) : State :=
  let s := (s.settleGroup gid).settleOps true (s.opsOf gid)
  (s.waits.foldl (fun s p => if p.2.gid = gid then s.forceWait p.1 p.2 else s) s).drainGroup gid

end Sys2Proof.Machine
end

