-- ==== Sys2Proof/Machine/Launch.lean ====
section
/-! DEFINITION. Drover: the event ring, images and launch records, the commands of a host queue, residing, placement, completion, commits,
swap-out and swap-in (R63 to R72, R77, R192 to R196, R219 to R222, R271 to R293, R408, R412 to R418). -/

namespace Sys2Proof.Machine

/-! ### The event ring (R416, R417) -/

/-- The bytes of an event. -/
def Event.bytes (e : Event) : List Byte :=
  ([BitVec.ofNat 8 e.kind, BitVec.ofNat 8 e.source, 0#8, 0#8] ++ leBytes 4 e.seq ++ leBytes 4 e.tag.toNat ++ leBytes 4 e.status.toNat
    ++ leBytes 8 e.wall ++ e.data ++ List.replicate 40 0#8).take 64

/-- Entries of the ring; none while it is disabled. -/
def Owner.evSize (w : Owner) : Nat := if w.evCtl.getLsbD 4 then 2 ^ (w.evCtl.extractLsb' 0 4).toNat else 0

/-- The ring has room: one entry always stays free, so that HEAD = TAIL means empty (DEDUCED, log 30). -/
def Owner.evRoom (w : Owner) : Bool := decide (w.evSize ≠ 0) && decide ((w.evTail.toNat + 1) % w.evSize ≠ w.evHead.toNat)

/-- The key of an owner's session (R423). -/
def State.sessionKey (s : State) (o : Nat) : Nat :=
  match (s.ownerAt o).session with
  | none => 0
  | some i => i * 4294967296 + (mapGet {} s.spdm.sessions i).generation

/-- Take the first waiting event of a source. -/
def takeEvent (source : Nat) : List Event → Option (Event × List Event)
  | [] => none
  | e :: es => if e.source = source then some (e, es) else (takeEvent source es).map (fun p => (p.1, e :: p.2))

def putHost (m : FMap Byte) (a : Nat) (bs : List Byte) : FMap Byte := putBytes m a bs

/-- The first waiting event of a source enters its owner's ring, when that has room (R417). -/
def State.enterEvent (s : State) (o source : Nat) : State :=
  let w := s.ownerAt o
  if !w.evRoom then s else
  match takeEvent source w.events with
  | none => s
  | some (e, rest) =>
    let bs := if e.secured then Config.sm4Wrap (s.sessionKey o) e.bytes else e.bytes
    let s := { s with hostMem := putHost s.hostMem (w.evBase.toNat + 64 * w.evTail.toNat) bs }
    s.setOwner o { w with events := rest, evTail := BitVec.ofNat 32 ((w.evTail.toNat + 1) % w.evSize) }

/-- Every waiting event that has room enters the ring. -/
def State.flushEvents (s : State) (o : Nat) : State := (s.ownerAt o).events.foldl (fun s e => s.enterEvent o e.source) s

/-- EVENT_WRITE (R417). -/
def execEventWrite (o c : Nat) (s : State) : Res := .next (s.enterEvent o c)

/-! ### Images (R63 to R72, R77) -/

def State.hostBytes (s : State) (a n : Nat) : List Byte := (List.range n).map (fun i => mapGet 0#8 s.hostMem (a + i))

/-- An image as the loader reads it: from an offset, so many bytes; none where a secured message fails its check (R423). -/
def State.imageRead (s : State) (o : Nat) (secured : Bool) (base off n : Nat) : Option (List Byte) :=
  let bs := s.hostBytes (base + off) n
  if !secured then some bs
  else if Config.sm4Ok (s.sessionKey o) bs then some ((Config.sm4Plain (s.sessionKey o) bs).take n) else none

def allZero (bs : List Byte) : Bool := bs.all (fun b => decide (b = 0#8))
def num (bs : List Byte) (i n : Nat) : Nat := ofBytes ((bs.drop i).take n)

/-- A table descriptor: offset, count, entry size. -/
structure Table where
  off : Nat
  count : Nat
  size : Nat
  deriving DecidableEq, Repr

/-- The tables of R63 in order with their entry sizes. -/
def tableSizes : List Nat := [72, 24, 24, 32, 784, 64, 16, 1, 128]

def tablesOf (header : List Byte) : List Table := (List.range 9).map (fun i => ⟨num header (16 + 16 * i) 8, num header (24 + 16 * i) 4, num header (28 + 16 * i) 4⟩)

/-- The entries of a table. -/
def State.entries (s : State) (o : Nat) (sec : Bool) (base : Nat) (t : Table) : Option (List (List Byte)) :=
  (List.range t.count).mapM (fun i => s.imageRead o sec base (t.off + t.size * i) t.size)

/-- A section of an image: its flags, address, size, contents and digest. -/
structure Section where
  flags : Nat
  addr : Nat
  size : Nat
  data : List Byte
  digest : List Byte
  deriving DecidableEq, Repr

/-- What the loader makes of an image. -/
structure Worvy where
  sections : List Section
  symbols : List (List Byte)
  kernels : List (List Byte)
  records : List (List Byte)
  trecs : List (List Byte)
  templates : List (List Byte)
  deriving DecidableEq, Repr

/-- Reserved bytes of an entry of each table are zero. -/
def sectionClean (b : List Byte) : Bool := allZero ((b.drop 7).take 9) && decide (num b 4 2 < 16)
def kernelClean (b : List Byte) : Bool := allZero ((b.drop 10).take 6) && allZero ((b.drop 24).take 8)
def trecClean (b : List Byte) : Bool := allZero ((b.drop 10).take 2)
def templateClean (b : List Byte) : Bool := allZero ((b.drop 10).take 2)
def recordClean (b : List Byte) : Bool :=
  (List.range 8).all (fun i => allZero ((b.drop (0x016 + 8 * i)).take 2)) &&
  (List.range 16).all (fun i => allZero ((b.drop (0x063 + 24 * i)).take 5) && allZero ((b.drop (0x1D2 + 4 * i)).take 2) && allZero ((b.drop (0x212 + 16 * i)).take 6))

/-- Read an image, or the status of its refusal: 2 for the image, 3 for its signature, 13 for its session (R415). Status 2 covers every breach of
R63 to R71 that is looked for, not only those that R77 names (DESIGN CHOICE, log 69). Where the signature entry and the tables and contents of sections
stand to one another is not looked at, nor the data offset of a section marked n (R64, R72; DESIGN CHOICE, log 81). -/
def State.readImage (s : State) (o : Nat) (sec : Bool) (base : Nat) : Except Nat Worvy :=
  match s.imageRead o sec base 0 160 with
  | none => .error 13
  | some h =>
    let ts := tablesOf h
    let t (i : Nat) : Table := ts.getD i ⟨0, 0, 0⟩
    let shape := (ts.zip tableSizes).all (fun p => decide (p.1.count = 0) || decide (p.1.size = p.2))
    let absent := ts.all (fun x => decide (x.count ≠ 0) || decide (x.off = 0))
    if num h 0 4 ≠ 0x59565257 ∨ num h 4 2 ≠ 1 ∨ num h 6 2 ≠ 2 ∨ 2 ≤ num h 8 4 ∨ !allZero ((h.drop 12).take 4) ∨ !shape ∨ !absent
      ∨ (t 2).count ≠ 0 ∨ 2 ≤ (t 8).count ∨ (num h 8 4 = 1) ≠ ((t 8).count = 1) then .error 2 else
    let es (i : Nat) := s.entries o sec base (t i)
    match es 0, es 1, es 3, es 4, es 5, es 6, es 8 with
    | some se, some sy, some ke, some re, some tr, some te, some sg =>
      if !(se.all sectionClean && ke.all kernelClean && tr.all trecClean && te.all templateClean && re.all recordClean && sg.all (fun b => allZero ((b.drop 104).take 24))) then .error 2 else
      match se.mapM (fun b =>
          let size := num b 24 8
          if (num b 4 2).testBit 3 then some (⟨num b 4 2, num b 16 8, size, List.replicate size 0#8, (b.drop 40).take 32⟩ : Section)
          else (s.imageRead o sec base (num b 32 8) size).map (fun d => ⟨num b 4 2, num b 16 8, size, d, (b.drop 40).take 32⟩)) with
      | none => .error 13
      | some secs =>
        if !(secs.all (fun x => decide (ofBytes x.digest = (Config.sm3 (if x.flags.testBit 3 then [] else x.data)).toNat))) then .error 2
        else
          let signed : Bool := match s.part o, sg with
            | none, _ => true
            | some r, [] => !r.signed
            | some r, b :: _ => !r.signed || (match s.imageRead o sec base 0 (t 8).off with
              | none => false
              | some m => decide (num b 0 32 = r.signer) && decide (num b 96 8 = (t 8).off) && Config.sm2Ok r.signer m ((b.drop 32).take 64))
          if signed then .ok ⟨secs, sy, ke, re, tr, te⟩ else .error 3
    | _, _, _, _, _, _, _ => .error 13

/-! ### Launch records (R56, R68, R276) -/

/-- The narrowest scope of a domain, by code (R276). -/
def narrowest (d : Nat) : Nat := [0, 1, 2, 3, 3, 4, 4, 6].getD d 7

def recordLevels (b : List Byte) : List LevelDecl := (List.range (min 8 (num b 2 1))).map (fun i => ⟨num b (0x10 + 8 * i) 4, num b (0x14 + 8 * i) 1, num b (0x15 + 8 * i) 1⟩)

def recordLease (b : List Byte) (i : Nat) : Lease :=
  let o := 0x50 + 24 * i
  let p := num b (o + 16) 1
  { base := num b o 8, len := num b (o + 8) 8, r := p.testBit 0, w := p.testBit 1, x := p.testBit 2, silo := decide (num b (o + 17) 1 = 1), vault := decide (num b (o + 18) 1 = 1) }

def recordQueue (b : List Byte) (i : Nat) : Nat × Nat := (num b (0x1D0 + 4 * i) 1, 2 ^ num b (0x1D1 + 4 * i) 1)
def recordPreload (b : List Byte) (i : Nat) : Nat × Nat × Dword := (num b (0x210 + 16 * i) 1, num b (0x211 + 16 * i) 1, BitVec.ofNat 64 (num b (0x218 + 16 * i) 8))

/-- Codes of one level and of its neighbour do not decrease. -/
def risingLevels : List LevelDecl → Bool
  | [] => true
  | [_] => true
  | a :: b :: ls => decide (a.domain ≤ b.domain) && decide (a.scope ≤ b.scope) && risingLevels (b :: ls)

/-- The record obeys R56, R58, R68 and R276; a breach of R57 or R58 takes the status of R273's first line like the others (DESIGN CHOICE, log 70). -/
def recordOk (b : List Byte) : Bool :=
  let ls := recordLevels b
  let nl := num b 5 1
  let nq := num b 6 1
  let np := num b 7 1
  let k := (ls.getD 1 ⟨0, 0, 0⟩).size
  let qs := (List.range nq).map (fun i => num b (0x1D0 + 4 * i) 1)
  let ps := (List.range np).flatMap (fun i => if num b (0x211 + 16 * i) 1 = 8 then [num b (0x210 + 16 * i) 1, num b (0x210 + 16 * i) 1 + 1] else [num b (0x210 + 16 * i) 1])
  decide (num b 0 2 = 1) && decide (2 ≤ num b 2 1) && decide (num b 2 1 ≤ 8) && decide (num b 3 1 ≤ 2) &&
  (decide (num b 4 1 = 255) || decide (num b 4 1 < k)) && decide (nl ≤ 16) && decide (nq ≤ 16) && decide (np ≤ 16) &&
  decide (num b 8 4 ≤ 3) && decide (num b 12 4 ≤ 524288) &&
  decide (ls.getD 0 ⟨0, 0, 0⟩ = ⟨32, 0, 0⟩) && decide (ls.getD 1 ⟨0, 0, 0⟩ = ⟨k, 1, 1⟩) && decide (1 ≤ k) && decide (k ≤ 32) &&
  ls.all (fun l => decide (1 ≤ l.size) && decide (l.domain ≤ 7) && decide (l.scope ≤ 6) && decide (narrowest l.domain ≤ l.scope)) && risingLevels ls &&
  (List.range nl).all (fun i => decide (num b (0x60 + 24 * i) 1 ∈ [1, 3, 5]) && decide (num b (0x61 + 24 * i) 1 ≤ 1) && decide (num b (0x62 + 24 * i) 1 ≤ 1)) &&
  (List.range nq).all (fun i => decide (num b (0x1D0 + 4 * i) 1 ≤ 63) && decide (4 ≤ num b (0x1D1 + 4 * i) 1) && decide (num b (0x1D1 + 4 * i) 1 ≤ 16)) && decide qs.Nodup &&
  (List.range np).all (fun i => decide (num b (0x210 + 16 * i) 1 ≤ 63) && (decide (num b (0x211 + 16 * i) 1 = 4) || (decide (num b (0x211 + 16 * i) 1 = 8) && decide (num b (0x210 + 16 * i) 1 % 2 = 0)))) && decide ps.Nodup &&
  allZero ((b.drop (0x10 + 8 * num b 2 1)).take (64 - 8 * num b 2 1)) && allZero ((b.drop (0x50 + 24 * nl)).take (384 - 24 * nl)) &&
  allZero ((b.drop (0x1D0 + 4 * nq)).take (64 - 4 * nq)) && allZero ((b.drop (0x210 + 16 * np)).take (256 - 16 * np)) &&
  decide (((ls.drop 2).map (fun l => l.size)).prod < 2 ^ 32)

def trecOf (b : List Byte) : Trec :=
  { base := BitVec.ofNat 64 (num b 0 8), fmt := num b 8 1, rank := num b 9 1, rows := num b 12 2, cols := num b 14 2
    dims := (List.range 4).map (fun i => BitVec.ofNat 32 (num b (16 + 4 * i) 4)), strides := (List.range 4).map (fun i => BitVec.ofNat 64 (num b (32 + 8 * i) 8)) }

def templateOf (b : List Byte) : Template := ⟨num b 0 4, num b 4 4, num b 8 1, num b 9 1, num b 12 4⟩

/-- The sections that the loader places: those with flag a. -/
def Worvy.placed (x : Worvy) : List (Nat × List Byte) := (x.sections.filter (fun c => c.flags.testBit 0)).map (fun c => (c.addr, c.data))

/-- A launch as its record and its command give it; none where an index leaves its table. The kernel's entry is the low 56 bits of its symbol's
value with the low two bits zero, whatever the symbol's kind, as PC always has them (DESIGN CHOICE, log 68). -/
def Worvy.launch (x : Worvy) (o q kernel : Nat) (tag : Word) (handler : Nat) (children : Nat × Nat) (secured : Bool) : Option (Launch × List Byte) :=
  match x.kernels[kernel]? with
  | none => none
  | some kb =>
    match x.symbols[num kb 0 4]?, x.records[num kb 4 4]? with
    | some sy, some b => some ({
        owner := o, queue := q, tag := tag, kernel := kernel, entry := BitVec.ofNat 56 (num sy 8 8 / 4 * 4)
        handler := if handler = 0 then none else some (BitVec.ofNat 56 handler)
        detlvl := num b 3 1, flagArm := BitVec.ofNat 32 (num b 8 4), scratch := (num b 12 4 + 63) / 64 * 64
        producerGroup := if num b 4 1 = 255 then none else some (num b 4 1)
        levels := recordLevels b
        leases := (List.range (num b 5 1)).map (recordLease b)
        queues := (List.range (num b 6 1)).map (recordQueue b)
        preloads := (List.range (num b 7 1)).map (recordPreload b)
        trecs := x.trecs.map trecOf, templates := x.templates.map templateOf, sections := x.placed
        children := children, secured := secured, groups := ((recordLevels b).getD 1 ⟨0, 0, 0⟩).size }, b)
    | _, _ => none

/-! ### Placement (R277 to R279) -/

/-- The logical cores of an owner in ascending order; an elastic context has those on which its borders leave it slots (R157). -/
def State.coreList (s : State) (o : Nat) : List Nat :=
  match s.part o with
  | none => []
  | some r =>
    let cs := if r.kind = .elastic then r.cores.filter (fun c => (s.ownerAt o).lanes.any (fun p => decide (p.1 / 8 = c) && decide (p.2.1 ≠ 0))) else r.cores
    cs.inOrder (fun a b => decide (a ≤ b))

/-- The lanes of a logical core on which an owner holds slots, with its context shares. -/
def State.coreLanes (s : State) (o c : Nat) : List (Nat × Nat) :=
  (List.range 8).filterMap (fun l =>
    let x := mapGet (0, 0) (s.ownerAt o).lanes (c * 8 + l)
    if x.1 = 0 then none else some (l, x.2))

/-- A group takes a context: it has not ended with every counter at zero; one that is swapped out keeps its context until the swap has ended (R105,
R293). -/
def State.occupies (s : State) (g : Group) : Bool :=
  !(g.isEnded && g.outs.isEmpty) && (g.live || (match mapFind s.swapped g.wg with
    | none => false
    | some c => decide (s.cycOf g.owner (s.groupIsland g) < c)))

def State.contextTaken (s : State) (o c lane ctx : Nat) : Bool :=
  s.groups.any (fun p => decide (p.2.owner = o) && decide (p.2.core = c) && decide (p.2.lane = lane) && decide (p.2.ctx = ctx) && s.occupies p.2)

/-- The lanes and contexts of groups of a workgroup by their indices, given those already counted (R277). -/
def State.contextsFor (s : State) (o c : Nat) (busy : Bool) (lanes : List (Nat × Nat)) : List Nat → List (Nat × Nat) → Option (List (Nat × Nat))
  | [], acc => some acc
  | j :: js, acc =>
    match lanes[j % lanes.length]? with
    | none => none
    | some (l, mask) =>
      match (List.range 12).find? (fun x => mask.testBit x && !acc.contains (l, x) && !(busy && s.contextTaken o c l x)) with
      | none => none
      | some x => s.contextsFor o c busy lanes js (acc ++ [(l, x)])

/-- The share of a logical core admits a padded allocation (R196). -/
def State.scratchFits (s : State) (o c alloc : Nat) : Bool :=
  decide (alloc = 0) || (match s.shareOf o c with
    | none => false
    | some sh => decide (alloc + 128 ≤ sh.scratchLen))

/-- Room on a logical core for k groups with an allocation; `busy` counts what runs there (R277). -/
def State.room (s : State) (o c k alloc : Nat) (busy : Bool) : Option (List (Nat × Nat)) :=
  if s.scratchFits o c alloc && (!busy || decide (alloc = 0) || decide (s.allocOn o c = 0)) then s.contextsFor o c busy (s.coreLanes o c) (List.range k) [] else none

/-- The instance of a domain that a physical core lies in (R276). -/
def instanceOf (domain core : Nat) : Nat :=
  match domain with
  | 0 | 1 => core
  | 2 => clusterOf core
  | 3 => islandOf core
  | 4 => quadrantOf core
  | 5 => dieOf core
  | _ => 0

/-- The levels above 2 with the workgroups in one unit and the domain. -/
def Launch.unitLevels (l : Launch) : List (Nat × Nat) :=
  (List.range (l.levels.length - 2)).map (fun i => (l.sizesTo (i + 3), (l.levels.getD (i + 2) ⟨0, 0, 0⟩).domain))

/-- Workgroup w on a core keeps R276 against the workgroups of its units already placed (R278). -/
def State.keepsDomains (s : State) (lid : Nat) (l : Launch) (w c : Nat) : Bool :=
  l.unitLevels.all (fun u => s.wgs.all (fun p => !(decide (p.2.launch = lid) && p.2.live && decide (p.2.index / u.1 = w / u.1))
    || decide (instanceOf u.2 (s.phys l.owner p.2.core) = instanceOf u.2 (s.phys l.owner c))))

/-- The device places workgroup w (R276). -/
def Launch.mine (l : Launch) (w : Nat) : Bool := decide (l.nextIndex w = w) && decide (w < l.volume)

/-- The entries that static placement uses (R279). -/
def Launch.staticEntries (l : Launch) (n : Nat) : List Nat :=
  if l.fabLevel.isNone then List.range (min l.volume n) else (((List.range l.volume).filter l.mine).map (fun w => w % n)).dedup

/-- Static placement keeps R276 for every unit; without a `fab` level, units repeat after one turn of the list. -/
def State.staticOk (s : State) (l : Launch) (cs : List Nat) : Bool :=
  let n := cs.length
  let phys (w : Nat) : Nat := s.phys l.owner (cs.getD (w % n) 0)
  l.unitLevels.all (fun u =>
    let units := l.volume / u.1
    (List.range (if l.fabLevel.isNone then min units n else units)).all (fun j => !l.mine (j * u.1) || u.2 = 7 ||
      (List.range (min u.1 n)).all (fun i => decide (instanceOf u.2 (phys (j * u.1 + i)) = instanceOf u.2 (phys (j * u.1))))))

/-- The status that refuses a launch, if any (R273), but for its leases. (DEDUCED, log 43) -/
def State.launchFault (s : State) (l : Launch) (b : List Byte) : Option Nat :=
  let cs := s.coreList l.owner
  let n := cs.length
  let children := match l.fabLevel with
    | none => true
    | some k => decide (3 ≤ k) && decide (l.children.1 + l.children.2 ≤ l.size k)
  if !recordOk b || !children then some 4
  else if l.detlvl = 0 then
    (if cs.isEmpty then some 5
    else if !cs.any (fun c => s.scratchFits l.owner c l.scratch) then some 6
    else if !cs.any (fun c => (s.room l.owner c l.groups l.scratch false).isSome) then some 5
    else none).or (queueFault s l)
  else
    let used := (l.staticEntries n).filterMap (fun i => cs[i]?)
    (if !used.all (fun c => s.scratchFits l.owner c l.scratch) then some 6
    else if n = 0 || !used.all (fun c => (s.room l.owner c l.groups l.scratch false).isSome) || !s.staticOk l cs then some 5
    else none).or (queueFault s l)
where
  /-- A declared queue exists with another entry count (R282). -/
  queueFault (s : State) (l : Launch) : Option Nat :=
    if l.queues.any (fun q => match mapFind (s.ownerAt l.owner).qdecl q.1 with
      | none => false
      | some d => decide (d.entries ≠ q.2)) then some 8 else none

/-! ### Leases (R190, R191, R194) -/

/-- Leases of an owner's launches that are Resident, but those of one launch. -/
def State.otherLeases (s : State) (o l : Nat) : List Lease :=
  s.launches.flatMap (fun p => if p.2.owner = o ∧ p.1 ≠ l then p.2.leases.filter (fun x => x.resident) else [])

/-- The key under which a frame is booked: striped frames are the owner's own numbers. -/
def frameKey (o f : Nat) : Nat := if stripeBase ≤ f * 65536 ∧ f * 65536 < siloBase then f + (o + 1) * 2 ^ 40 else f

/-- A direct frame lies in a striped region of a live owner. -/
def State.inRegion (s : State) (f : Nat) : Bool :=
  let v := f / 32768
  let off := f % 32768 * 65536
  s.owners.any (fun p => p.2.live && (match p.2.part with
    | none => false
    | some r => r.vaults.contains v && decide (mapGet 0 r.stripes v < off + 65536) && decide (off < mapGet 0 r.stripes v + r.stripeLen)))

/-- Drover may take a frame for an owner: it is populated, free, and in the owner's window when striped. -/
def State.frameFree (s : State) (r : PartRec) (f : Nat) : Bool :=
  let pa := f * 65536
  (mapFind s.frames (frameKey r.owner f)).isNone &&
  (if pa < stripeBase then directOk pa && directOk (pa + 65535) && !s.inRegion f
   else if pa < siloBase then inStripes r pa 65536
   else siloOk pa && siloOk (pa + 65535))

/-- A frame suits a page of a lease (R183, R194): page i of a vault-local lease lies in the vault above logical core i mod C. -/
def State.frameSuits (s : State) (r : PartRec) (l : Lease) (i f : Nat) : Bool :=
  let pa := f * 65536
  if l.silo then decide (siloBase ≤ pa)
  else if l.vault then
    let cs := s.coreList r.owner
    let c := cs.getD (i % cs.length) 0
    decide (pa < stripeBase) && decide (pa / 0x80000000 = mapGet c r.remap c)
  else decide (stripeBase ≤ pa) && decide (pa < siloBase)

def State.putEntry (s : State) (o a e : Nat) : State := s.putMem (s.canon o a) (leBytes 8 e)
def State.entryAt (s : State) (o a : Nat) : Nat := ofBytes (s.bytes (s.canon o a) 8)

/-- Write bytes at a page's addresses, 2 KiB of one vault at a time. -/
def State.putPage (s : State) (o pa : Nat) (bs : List Byte) : State :=
  (bs.zipIdx).foldl (fun s p => s.putMem (s.canon o (pa + p.2)) [p.1]) s

def State.takeFrame (s : State) (o f : Nat) : State := { s with frames := mapPut s.frames (frameKey o f) o }

/-- The address of the level-1 entry of a page below a table of a level, with the frames left; missing tables are made of zeroed frames. -/
def State.tablesFor (s : State) (r : PartRec) (va : Nat) : Nat → Nat → List Nat → Option (Nat × List Nat × State)
  | 0, _, _ => none
  | 1, addr, fs => some (addr + 8 * pteIndex va 1, fs, s)
  | n + 2, addr, fs =>
    let ea := addr + 8 * pteIndex va (n + 2)
    let e := s.entryAt r.owner ea
    if pteBit e 0 then (if pteBit e 1 then none else s.tablesFor r va (n + 1) (pteFrame e * 65536) fs)
    else match fs with
    | [] => none
    | f :: fs =>
      if !s.frameFree r f || decide (siloBase ≤ f * 65536) then none else
      let s := (s.takeFrame r.owner f).putPage r.owner (f * 65536) (List.replicate 65536 0#8)
      State.tablesFor (s.putEntry r.owner ea (1 + r.owner * 2 ^ 10 + f * 2 ^ 16)) r va (n + 1) (f * 65536) fs

/-- The leaf of a page of a lease. -/
def leafOf (r : PartRec) (l : Lease) (f : Nat) : Nat :=
  3 + (if l.r then 4 else 0) + (if l.w then 8 else 0) + (if l.x then 16 else 0) + (if r.kind = .isolated then 128 else 0)
    + (if l.silo then 256 else 0) + (if l.vault then 512 else 0) + r.owner * 2 ^ 10 + f * 2 ^ 16

/-- The allocated sections' bytes on a newly allocated page. -/
def State.fillPage (s : State) (r : PartRec) (secs : List (Nat × List Byte)) (va f : Nat) : State :=
  secs.foldl (fun s c =>
    let first := max va c.1
    let last := min (va + 65536) (c.1 + c.2.length)
    s.putPage r.owner (f * 65536 + (first - va)) ((c.2.drop (first - c.1)).take (last - first))) s

/-- A sector's error goes with its bytes to another sector of HBM (R200, R201). -/
def State.carrySector (s : State) (a b : Nat) : State :=
  { s with
    checks := (match mapFind s.checks a with
      | some c => mapPut s.checks b c
      | none => s.checks)
    faulty := mapSet 0 s.faulty b (mapGet 0 s.faulty a) }

/-- What a move of a page from place a to place b does to check values: into HBM they go along, at the Silo ports they are made anew (R200). -/
def State.carryPage (s : State) (a b : Nat → Nat) : State :=
  if siloBase ≤ a 0 ∨ siloBase ≤ b 0 then s else (List.range 2048).foldl (fun t j => t.carrySector (a (32 * j) / 32) (b (32 * j) / 32)) s

/-- What a frame at place a shows once its page is gone: cipher text of its bytes, where it was sealed (R199). -/
def State.leaveFrame (s : State) (o k : Nat) (a : Nat → Nat) (old : List Byte) : State :=
  if pteBit k 7 then
    s.putPage o (pteFrame k * 65536) ((List.range 65536).map (fun i =>
      Config.cipher (s.ownerAt o).key (a (i / 128 * 128)) ((old.drop (i / 128 * 128)).take 128) (i % 128)))
  else s

/-- The frame of page entry k moves to frame f with every byte (R194). -/
def State.movePage (s : State) (r : PartRec) (k f : Nat) : State :=
  let at_ (i : Nat) : Nat := s.canon r.owner (pteFrame k * 65536 + i)
  let to_ (i : Nat) : Nat := s.canon r.owner (f * 65536 + i)
  let old := (List.range 65536).map (fun i => s.byte (at_ i))
  let t := ((s.putPage r.owner (f * 65536) old).carryPage at_ to_).leaveFrame r.owner k at_ old
  { t with frames := mapErase t.frames (frameKey r.owner (pteFrame k)) }

/-- Make page i of a lease Resident with the frames given: the frames left, or none where it cannot be. -/
def State.residePage (s : State) (r : PartRec) (lid : Nat) (l : Lease) (i : Nat) (fs : List Nat) : Option (List Nat × State) :=
  let va := l.base + 65536 * i
  match s.tablesFor r va 4 r.root fs with
  | none => none
  | some (ea, fs, s) =>
    let e := s.entryAt r.owner ea
    if pteBit e 0 then
      if pteBit e 8 = l.silo ∧ pteBit e 9 = l.vault then some (fs, s.putEntry r.owner ea (e ||| (leafOf r l 0 % 32))) else none
    else
      let kept := mapFind (s.ownerAt r.owner).kept (va / 65536)
      let same := match kept with
        | none => none
        | some k => if pteBit k 8 = l.silo ∧ pteBit k 9 = l.vault ∧ s.frameSuits r l i (pteFrame k) then some (pteFrame k) else none
      let drop (s : State) : State := s.modOwner r.owner (fun w => { w with kept := mapErase w.kept (va / 65536) })
      match same with
      | some f => some (fs, drop (s.putEntry r.owner ea (leafOf r l f)))
      | none => match fs with
        | [] => none
        | f :: fs =>
          if !s.frameFree r f || !s.frameSuits r l i f then none else
          let s := (s.takeFrame r.owner f).putEntry r.owner ea (leafOf r l f)
          match kept with
          | none => some (fs, s.fillPage r (s.launchAt lid).sections va f)
          | some k => some (fs, drop (s.movePage r k f))

/-- Every page of a lease from page i on. -/
def State.resideAll (s : State) (r : PartRec) (lid : Nat) (l : Lease) : Nat → Nat → List Nat → Option State
  | 0, _, _ => some s
  | n + 1, i, fs => match s.residePage r lid l i fs with
    | none => none
    | some (fs, s) => State.resideAll s r lid l n (i + 1) fs

/-- A page of a lease would go from HBM through the Silo ports with a sector that fails its check: that sector is not sent, and the launch is delayed
(R194, R201, R424; DESIGN CHOICE, log 82). -/
def State.stuckAtPort (s : State) (r : PartRec) (l : Lease) : Bool :=
  l.silo && (List.range (l.len / 65536)).any (fun i => match mapFind (s.ownerAt r.owner).kept ((l.base + 65536 * i) / 65536) with
    | none => false
    | some k => !pteBit k 8 && (List.range 2048).any (fun j => (s.sectorFault (s.canon r.owner (pteFrame k * 65536 + 32 * j) / 32)).isSome))

/-- Drover can hold the range as it is declared (R57): one of length 0, one declared both Silo and vault-local, one whose base or length is no multiple
of 64 KiB and one that leaves the memory range is refused as a lease that cannot be made Resident (DESIGN CHOICE, log 71). -/
def Lease.valid (l : Lease) : Bool :=
  decide (l.base % 65536 = 0) && decide (l.len % 65536 = 0) && decide (l.len ≠ 0) && decide (l.base + l.len ≤ scratchBase) && !(l.silo && l.vault)

/-- The entries of a core's TLB that an owner's share holds: in the proportion of its L1 ways (R193). -/
def State.tlbShare (s : State) (o c : Nat) : Nat := 16 * (s.l1Ways o c).length

/-- A page's translation is loaded into an owner's TLB share on a core, as far as that holds it; one that is there is loaded anew, with what overlapping
leases permit together (R193, R195). -/
def State.loadTlb (s : State) (o c va : Nat) : State :=
  match s.walk o va ⟨false, false, false⟩, s.tlbHit o c va with
  | .error _, _ => s
  | .ok x, some e => { s with tlb := s.tlb.map (fun y => if y = e then { e with entry := x.entry, at_ := x.at_ } else y) }
  | .ok x, none =>
    if s.tlbShare o c ≤ (s.tlb.filter (fun e => decide (e.owner = o) && decide (e.core = c))).length then s
    else { s with tlb := s.tlb ++ [⟨o, c, va / 2 ^ x.bits * 2 ^ x.bits, x.bits, x.entry, x.at_⟩] }

/-- Making a lease Resident loads its translations, in ascending page order (R193; DEDUCED, log 80). -/
def State.loadLease (s : State) (r : PartRec) (l : Lease) : State :=
  r.cores.foldl (fun s c => (List.range (l.len / 65536)).foldl (fun s i => s.loadTlb r.owner c (l.base + 65536 * i)) s) s

/-- Translations of a page are removed, in the TLBs too; the page stays allocated (R193, R194). -/
def State.releasePage (s : State) (r : PartRec) (va : Nat) : State :=
  let s := { s with tlb := s.tlb.filter (fun e => !(decide (e.owner = r.owner) && decide (e.base ≤ va) && decide (va < e.base + 2 ^ e.bits))) }
  match s.tablesFor r va 4 r.root [] with
  | none => s
  | some (ea, _, s) =>
    let e := s.entryAt r.owner ea
    if pteBit e 0 then (s.putEntry r.owner ea 0).modOwner r.owner (fun w => { w with kept := mapPut w.kept (va / 65536) e }) else s

/-- The leases of a launch are Released: pages that no other Resident lease covers lose their translations. -/
def State.releaseLeases (s : State) (lid : Nat) : State :=
  let l := s.launchAt lid
  match s.part l.owner with
  | none => s
  | some r =>
    let others := s.otherLeases l.owner lid
    let s := l.leases.foldl (fun s x =>
      if !x.resident then s else
      (List.range (x.len / 65536)).foldl (fun s i =>
        let va := x.base + 65536 * i
        if others.any (fun y => decide (y.base ≤ va) && decide (va < y.base + y.len)) then s else s.releasePage r va) s) s
    s.modLaunch lid (fun l => { l with leases := l.leases.map (fun x => { x with resident := false }) })

/-! ### Commands (R413 to R415, R418) -/

def Owner.lqAt (w : Owner) (q : Nat) : LqRegs := mapGet {} w.lq q
def LqRegs.en (x : LqRegs) : Bool := x.ctl.getLsbD 0
def LqRegs.sess (x : LqRegs) : Bool := x.ctl.getLsbD 2
def LqRegs.prio (x : LqRegs) : Nat := (x.ctl.extractLsb' 10 2).toNat
def LqRegs.slots (x : LqRegs) : Nat := 2 ^ (x.ctl.extractLsb' 12 4).toNat

/-- A queue of an owner has a command that Drover may take: the queue is enabled and not empty, the event ring has room (R413, R417). -/
def State.hasCommand (s : State) (o q : Nat) : Bool :=
  let w := s.ownerAt o
  let x := w.lqAt q
  w.live && w.lqGranted && decide (q < 8) && x.en && decide (x.head ≠ x.tail) && w.evRoom && w.events.isEmpty

/-- The session that a queue with SESS = 1 needs is there (R423). -/
def State.sessionUp (s : State) (o : Nat) : Bool :=
  match (s.ownerAt o).session with
  | none => false
  | some i => let x := mapGet {} s.spdm.sessions i; x.up && decide (x.partition = some o)

/-- The command at a queue's head: its 64 bytes, or none where its secured message fails. -/
def State.command (s : State) (o q : Nat) : Option (List Byte) :=
  let x := (s.ownerAt o).lqAt q
  let bs := s.hostBytes (x.base.toNat + 64 * x.head.toNat) 64
  if !x.sess then some bs
  else if s.sessionUp o && Config.sm4Ok (s.sessionKey o) bs then some ((Config.sm4Plain (s.sessionKey o) bs).take 64 ++ List.replicate (64 - ((Config.sm4Plain (s.sessionKey o) bs).take 64).length) 0#8)
  else none

/-- The status of a command (R413): one event; status 1 stops the queue at it, any other leaves it consumed. -/
def State.consume (s : State) (o q status : Nat) : State :=
  s.modOwner o (fun w =>
    let x := w.lqAt q
    let x := if status = 1 then { x with ctl := (x.ctl ||| 2#32) &&& ~~~1#32 } else { x with head := BitVec.ofNat 32 ((x.head.toNat + 1) % x.slots) }
    { w with lq := mapPut w.lq q { x with last := BitVec.ofNat 32 status, lastLaunch := none } })

def State.reply415 (s : State) (o q : Nat) (tag : Word) (status : Nat) : State :=
  let sec := ((s.ownerAt o).lqAt q).sess
  (s.consume o q status).post o 1 0 tag (BitVec.ofNat 32 status) [] sec

def tagOf (b : List Byte) : Word := BitVec.ofNat 32 (num b 4 4)

/-- Take the command at the head of a queue when its opcode is the one asked for; a message that fails its check has status 13. -/
def State.withCommand (s : State) (o q op : Nat) (f : List Byte → State) : State :=
  if !s.hasCommand o q then s else
  match s.command o q with
  | none => s.reply415 o q 0#32 13
  | some b => if num b 0 1 = op then f b else s

/-- The launch before this one in its host queue (R280). -/
def State.before (s : State) (lid : Nat) (l : Launch) : List (Nat × Launch) :=
  s.launches.filter (fun p => decide (p.1 < lid) && decide (p.2.owner = l.owner) && decide (p.2.queue = l.queue))

/-- R280 holds between a launch and those before it in its queue. -/
def State.blocked (s : State) (lid : Nat) : Bool :=
  let l := s.launchAt lid
  let ps := s.before lid l
  (match ps.getLast? with
    | none => false
    | some p => decide (p.2.detlvl ≠ l.detlvl)) && ps.any (fun p => decide (p.2.stage ≠ .done))

/-- The status of a launch is known: it is that of the last command taken where no other has been taken since (R418). Until then that status reads as 0
(DESIGN CHOICE, log 83). -/
def Owner.launchStatus (w : Owner) (q lid status : Nat) : Owner :=
  let x := w.lqAt q
  if x.lastLaunch = some lid then { w with lq := mapPut w.lq q { x with last := BitVec.ofNat 32 status, lastLaunch := none } } else w

/-- A launch that is not accepted after all leaves with a status, and what waits for it as a producer looks again (R288). -/
def State.refuse (s : State) (lid status : Nat) : State :=
  let l := s.launchAt lid
  let s := s.releaseLeases lid
  (({ s with launches := mapErase s.launches lid }.modOwner l.owner (fun w => w.launchStatus l.queue lid status)).post l.owner 1 0 l.tag
    (BitVec.ofNat 32 status) [] l.secured).tellDependants lid

/-- Declare the queues and begin placing, once every lease is Resident (R272, R282). -/
def State.declare (s : State) (lid : Nat) : State :=
  let l := s.launchAt lid
  if l.stage ≠ .residing ∨ !l.leases.all (fun x => x.resident) then s
  else if (State.launchFault.queueFault s l).isSome then s.refuse lid 8
  else
    let s := s.modOwner l.owner (fun w =>
      { w.launchStatus l.queue lid 0 with
        qdecl := l.queues.foldl (fun m q => if (mapFind m q.1).isSome then m else mapPut m q.1 { entries := q.2 }) w.qdecl })
    ((s.modLaunch lid (fun l => { l with stage := .placing })).post l.owner 1 0 l.tag 0#32 [] l.secured).soon (.launchCompletion lid)

/-- LAUNCH (R272, R273, R414): the command at the head of queue q, alone in its Drover slot. Its status follows when its leases are Resident. -/
def State.launchCommand (s : State) (o q : Nat) : State :=
  s.withCommand o q 1 (fun b =>
    let tag := tagOf b
    let w := s.ownerAt o
    let sec := (w.lqAt q).sess
    let handler := num b 0x10 8
    let ptag := num b 0x1C 4
    let no (x : Nat) : State := (s.reply415 o q tag x).modOwner o (fun w => if x = 1 then w else { w with tags := (tag :: w.tags).take 4096 })
    if !(allZero ((b.drop 1).take 3) && allZero ((b.drop 0x24).take 28)) then no 1 else
    match s.readImage o sec (num b 8 8) with
    | .error x => no x
    | .ok im =>
      if im.kernels.length ≤ num b 0x18 4 ∨ handler % 4 ≠ 0 ∨ 2 ^ 56 ≤ handler then no 14 else
      match im.launch o q (num b 0x18 4) tag handler (num b 0x20 2, num b 0x22 2) sec with
      | none => no 2
      | some (l, rb) =>
        if l.fabLevel.isNone ∧ l.children ≠ (0, 0) then no 1
        else if ptag ≠ 0xFFFFFFFF ∧ !w.tags.contains (BitVec.ofNat 32 ptag) then no 12
        else match s.launchFault l rb with
        | some x => no x
        | none =>
          if !l.leases.all Lease.valid then no 7 else
          let k := s.fresh
          let producer := if ptag = 0xFFFFFFFF then none else
            ((s.launches.filter (fun p => decide (p.2.owner = o) && decide (p.2.tag = BitVec.ofNat 32 ptag))).getLast?).map (fun p => p.1)
          let have_ := s.otherLeases o k
          let l := { l with
            producer := producer
            waits := producer.isSome
            confirmed := l.fabLevel.isNone
            leases := l.leases.map (fun x => { x with resident := have_.contains { x with resident := true } }) }
          let s := { s with launches := mapPut s.launches k l, nextId := k + 1 }
          let s := (s.consume o q 0).modOwner o (fun w => { w with
            tags := (tag :: w.tags).take 4096, lq := mapPut w.lq q { w.lqAt q with lastLaunch := some k } })
          let s := s.declare k
          if l.waits then s.soon (.dependantRelease k) else s)

/-- LAUNCH (R272). -/
def execLaunch (o q : Nat) (s : State) : Res := .next (s.launchCommand o q)

/-- LEASE_RESIDENT (R194, R272): the frames Drover has chosen for lease i of a launch, in ascending page order, tables before the page that needs
them. With frames that do not serve, the range cannot be made Resident, and the launch is refused. -/
def execLeaseResident (l i : Nat) (f : List Nat) (s : State) : Res :=
  let x := s.launchAt l
  .next (match mapFind s.launches l, x.leases[i]?, s.part x.owner with
    | some _, some le, some r =>
      if x.stage ≠ .residing || le.resident || s.stuckAtPort r le then s else
      match s.resideAll r l le (le.len / 65536) 0 f with
      | none => s.refuse l 7
      | some s => ((s.modLaunch l (fun x => { x with leases := x.leases.set i { le with resident := true } })).loadLease r le).declare l
    | _, _, _ => s)

/-- RESIDENCY_CONFIRM (R408): every device named by the launch's commands has made its leases Resident. -/
def execResidencyConfirm (l : Nat) (s : State) : Res :=
  .next (if (mapFind s.launches l).isSome then s.modLaunch l (fun x => { x with confirmed := true }) else s)

/-- ENQ (R283, R414). -/
def State.enqCommand (s : State) (o q : Nat) : State :=
  s.withCommand o q 2 (fun b =>
    let tag := tagOf b
    let n := num b 8 1
    let core := num b 10 2
    let w := s.ownerAt o
    let raw := s.hostBytes (num b 16 8) 64
    let sec := (w.lqAt q).sess
    let item := if sec then (Config.sm4Plain (s.sessionKey o) raw).take 64 else raw
    if !(allZero ((b.drop 1).take 3) && allZero ((b.drop 9).take 1) && allZero ((b.drop 12).take 4) && allZero ((b.drop 24).take 40)) ∨ 63 < n ∨ (n < 32 ∧ core ≠ 0) then s.reply415 o q tag 1
    else if sec && !Config.sm4Ok (s.sessionKey o) raw then s.reply415 o q tag 13
    else if !s.declared o n || (decide (32 ≤ n) && !s.hasCore o core) then s.reply415 o q tag 10
    else if w.qclosed n then s.reply415 o q tag 15
    else
      let home := islandOf (s.phys o ((s.coreList o).headD 0))
      let (ok, s) := s.appendItem o (ringKey n core) item (s.cycOf o home)
      s.reply415 o q tag (if ok then 0 else 9))

/-- ENQ_COMMAND (R283). -/
def execEnqCommand (o q : Nat) (s : State) : Res := .next (s.enqCommand o q)

/-- The rings of a queue of an owner. -/
def State.ringsOf (s : State) (o n : Nat) : List Nat := if n < 32 then [n] else (s.coreList o).map (ringKey n)

/-- A command that names one queue in byte 8 and nothing else. -/
def State.queueCommand (s : State) (o q op : Nat) (f : Nat → State) : State :=
  s.withCommand o q op (fun b =>
    if !(allZero ((b.drop 1).take 3) && allZero ((b.drop 9).take 55)) ∨ 63 < num b 8 1 then s.reply415 o q (tagOf b) 1
    else if !s.declared o (num b 8 1) then s.reply415 o q (tagOf b) 10 else f (num b 8 1))

def State.headTag (s : State) (o q : Nat) : Word := ((s.command o q).map tagOf).getD 0#32

/-- QCLOSE (R284, R326, R414): the queue closes at the cycle of this Drover slot. -/
def State.qcloseCommand (s : State) (o q : Nat) : State :=
  s.queueCommand o q 3 (fun n =>
    let c := s.cycOf o (islandOf (s.phys o ((s.coreList o).headD 0)))
    let s1 := s.modOwner o (fun w =>
      let d := mapGet { entries := 0 } w.qdecl n
      { w with qdecl := mapPut w.qdecl n (if d.closed then d else { d with closed := true, closedAt := c }) })
    ((s.ringsOf o n).foldl (fun s r => s.serveRing o r) s1).reply415 o q (s.headTag o q) 0)

/-- QCLOSE (R284). -/
def execQclose (o q : Nat) (s : State) : Res := .next (s.qcloseCommand o q)

/-- QDELETE (R414): a closed, empty queue. -/
def State.qdeleteCommand (s : State) (o q : Nat) : State :=
  s.queueCommand o q 4 (fun n =>
    let w := s.ownerAt o
    if !w.qclosed n || (s.ringsOf o n).any (fun r => !(w.ring r).isEmpty) then s.reply415 o q (s.headTag o q) 11
    else (s.modOwner o (fun w => { w with qdecl := mapErase w.qdecl n })).reply415 o q (s.headTag o q) 0)

/-- QDELETE (R414). -/
def execQdelete (o q : Nat) (s : State) : Res := .next (s.qdeleteCommand o q)

/-- CANCEL (R317, R414). -/
def State.cancelCommand (s : State) (o q : Nat) : State :=
  s.withCommand o q 5 (fun b =>
    if !(allZero ((b.drop 1).take 3) && allZero ((b.drop 10).take 54)) then s.reply415 o q (tagOf b) 1
    else
      let n := num b 8 2
      State.reply415 { s with nets := s.nets.filter (fun p => !(p.2.post && decide (p.2.stage = .armed) && decide (p.2.owner = o) && (decide (n = 0xFFFF) || decide (p.2.what.tctr = n)))) } o q (tagOf b) 0)

/-- CANCEL (R414). -/
def execCancel (o q : Nat) (s : State) : Res := .next (s.cancelCommand o q)

/-- The code of a stage (R418). -/
def Stage.code : Stage → Nat
  | .residing => 0
  | .placing => 1
  | .running => 2
  | .completing | .done => 3

/-- Workgroups of a launch that the device places and that have not ended. -/
def State.wgsLeft (s : State) (lid : Nat) : Nat :=
  let l := s.launchAt lid
  let all_ := match l.fabLevel with
    | none => l.volume
    | some k => if k < 3 then l.volume else l.volume / l.size k * l.children.2
  all_ - (s.wgs.filter (fun p => decide (p.2.launch = lid) && p.2.ended)).length

/-- The summary of RESYNC (R418). -/
def State.summary (s : State) (o : Nat) : List Byte :=
  let w := s.ownerAt o
  let live := s.launches.filter (fun p => decide (p.2.owner = o) && decide (p.2.stage ≠ .done))
  let items (n : Nat) : Nat := ((s.ringsOf o n).map (fun r => (w.ring r).length)).sum
  let n := live.length
  leBytes 4 1 ++ leBytes 4 (0x16C + 12 * n) ++ (List.range 7).flatMap (fun i => leBytes 4 (mapGet 0 w.evSeq i))
    ++ leBytes 4 (s.nets.filter (fun p => p.2.post && decide (p.2.stage = .armed) && decide (p.2.owner = o))).length
    ++ (List.range 8).flatMap (fun q => leBytes 4 (w.lqAt q).head.toNat ++ leBytes 4 (w.lqAt q).last.toNat)
    ++ (List.range 64).flatMap (fun n => match mapFind w.qdecl n with
      | none => leBytes 4 0
      | some d => leBytes 1 (if d.closed then 2 else 1) ++ leBytes 1 (Nat.log2 d.entries) ++ leBytes 2 (items n))
    ++ leBytes 4 n
    ++ live.flatMap (fun p => leBytes 4 p.2.tag.toNat ++ leBytes 1 p.2.stage.code ++ leBytes 3 0 ++ leBytes 4 (s.wgsLeft p.1))

/-- RESYNC (R418): the snapshot of this slot; its own event follows its status. -/
def State.resyncCommand (s : State) (o q : Nat) : State :=
  s.withCommand o q 6 (fun b =>
    if !(allZero ((b.drop 1).take 3) && allZero ((b.drop 8).take 8) && allZero ((b.drop 28).take 36)) then s.reply415 o q (tagOf b) 1
    else
      let sum := s.summary o
      let sec := ((s.ownerAt o).lqAt q).sess
      let bs := sum.take (num b 24 4)
      let s := { s with hostMem := putHost s.hostMem (num b 16 8) (if sec then Config.sm4Wrap (s.sessionKey o) bs else bs) }
      (s.reply415 o q (tagOf b) 0).post o 6 0 (tagOf b) 0#32 (leBytes 4 sum.length) sec)

/-- RESYNC (R418). -/
def execResync (o q : Nat) (s : State) : Res := .next (s.resyncCommand o q)

/-- The command at the head of a queue, whatever it is (R414). -/
def State.takeCommand (s : State) (o q : Nat) : State :=
  match s.command o q with
  | none => s.reply415 o q 0#32 13
  | some b =>
    match num b 0 1 with
    | 1 => s.launchCommand o q
    | 2 => s.enqCommand o q
    | 3 => s.qcloseCommand o q
    | 4 => s.qdeleteCommand o q
    | 5 => s.cancelCommand o q
    | 6 => s.resyncCommand o q
    | _ => s.reply415 o q (tagOf b) 1

/-- The queue whose command Drover takes next (R413): the highest priority, then the lowest index at or after the tie pointer. -/
def State.nextQueue (s : State) (o : Nat) : Option Nat :=
  let w := s.ownerAt o
  let qs := (List.range 8).filter (fun q => s.hasCommand o q)
  let top := qs.foldl (fun m q => max m (w.lqAt q).prio) 0
  let at_ := qs.filter (fun q => decide ((w.lqAt q).prio = top))
  ((List.range 8).map (fun i => (w.cmdPtr + i) % 8)).find? (fun q => at_.contains q)

/-- Commands of one Drover slot (R271): one LAUNCH alone, or up to n others, stopping before a LAUNCH. -/
def State.commands (s : State) (o : Nat) : Nat → Bool → State
  | 0, _ => s
  | n + 1, first =>
    let s := s.flushEvents o
    match s.nextQueue o with
    | none => s
    | some q =>
      let isLaunch := match s.command o q with
        | none => false
        | some b => decide (num b 0 1 = 1)
      if isLaunch && !first then s else
      let s := (s.takeCommand o q).modOwner o (fun w => { w with cmdPtr := (q + 1) % 8 })
      if isLaunch then s else s.commands o n false

/-! ### Placing workgroups (R272, R277 to R280, R288, R292) -/

/-- A group as R8 creates it. Of a preload of 4 bytes the low half of the value is taken, whatever its high half (R68; DESIGN CHOICE, log 84). -/
def Launch.newGroup (l : Launch) (lid wg index core lane ctx at_ : Nat) : Group :=
  l.preloads.foldl (fun g p =>
    let r := BitVec.ofNat 6 p.1
    if p.2.1 = 8 then g.setG64 r p.2.2 else g.setG r (p.2.2.extractLsb' 0 32))
    { live := true, owner := l.owner, launch := lid, wg := wg, index := index, core := core, lane := lane, ctx := ctx, pc := l.entry, flagArm := l.flagArm, readyAt := at_ }

/-- Publication by retirement ends at the first period that begins after a group is placed on the lane (R152). -/
def foreverEnd : Nat := 2 ^ 64
/-- Runs that have no end yet end at a cycle. -/
def endRuns (rs : List (Nat × Nat)) (c : Nat) : List (Nat × Nat) := rs.map (fun r => if r.2 = foreverEnd then (r.1, c) else r)
def State.endRetirement (s : State) (o core lane : Nat) : State :=
  let now := s.cycOf o (islandOf (s.phys o core))
  s.modOwner o (fun w => { w with retired := mapSet [] w.retired (core * 8 + lane) (endRuns (mapGet [] w.retired (core * 8 + lane)) (nextPeriod now)) })

/-- The granules of a scratch allocation with its guards, by core. -/
def State.allocGranules (s : State) (o core scratch : Nat) : List Nat :=
  if scratch = 0 then [] else
  match s.shareOf o core with
  | none => []
  | some sh => (List.range ((sh.scratchBase + scratch + 127) / 512 + 1 - sh.scratchBase / 512)).map (fun i => s.phys o core * 1024 + sh.scratchBase / 512 + i)

/-- Create a workgroup's groups on a core (R272); every granule of its allocation is thread-owned (R216). -/
def State.createWg (s : State) (lid w core : Nat) (plan : List (Nat × Nat)) : State :=
  let l := s.launchAt lid
  let wg := s.fresh
  let now := s.cycOf l.owner (islandOf (s.phys l.owner core))
  let s := { s with nextId := wg + 1 + plan.length }.modOwner l.owner (fun o => { o with used := (o.used ++ plan.map (fun (p : Nat × Nat) => core * 8 + p.1)).dedup })
  let s := plan.zipIdx.foldl (fun s p =>
    (s.setGroupAt (wg + 1 + p.2) (l.newGroup lid wg p.2 core p.1.1 p.1.2 now)).endRetirement l.owner core p.1.1) s
  let x : Workgroup := { live := true, owner := l.owner, launch := lid, index := w, core := core, groups := (List.range plan.length).map (fun j => wg + 1 + j), scratch := l.scratch }
  let s := s.setWg wg x
  let s := { s with engScr := (s.allocGranules l.owner core l.scratch).foldl mapErase s.engScr }
  s.modLaunch lid (fun l =>
    let l := { l with placed := w + 1, table := if w = l.nextIndex 0 then (s.ownerAt l.owner).table else l.table }
    { l with stage := if l.allPlaced then .running else .placing })

/-- The core for the next workgroup of a launch, with the contexts (R278, R279). -/
def State.placeAt (s : State) (lid : Nat) : Option (Nat × Nat × List (Nat × Nat)) :=
  let l := s.launchAt lid
  let cs := s.coreList l.owner
  let w := l.nextIndex l.placed
  let n := cs.length
  let tries := if l.detlvl = 0 then (List.range n).map (fun i => (w % n + i) % n) else if n = 0 then [] else [w % n]
  tries.findSome? (fun e => match cs[e]? with
    | none => none
    | some c => match s.room l.owner c l.groups l.scratch true with
      | none => none
      | some plan => if l.detlvl ≠ 0 || s.keepsDomains lid l w c then some (w, c, plan) else none)

/-- A launch has a workgroup to place and nothing but room holds it back (R280, R288, R408). -/
def State.placing (s : State) (lid : Nat) : Bool :=
  let l := s.launchAt lid
  decide (l.stage = .placing) && l.confirmed && l.halted.isNone && !l.allPlaced && !s.blocked lid &&
  (match l.producer with
    | none => true
    | some p => match mapFind s.launches p with
      | none => true
      | some x => x.allPlaced || decide (x.stage = .done))

/-- Place the next workgroup of a launch, if it can be. -/
def State.placeNext (s : State) (lid : Nat) : State :=
  if !s.placing lid then s else
  match s.placeAt lid with
  | none => s
  | some (w, c, plan) => s.createWg lid w c plan

/-- WORKGROUP_PLACEMENT (R278). -/
def execWorkgroupPlacement (l : Nat) (s : State) : Res := .next (s.placeNext l)

/-- The groups of a launch have triggered or ended in every thread, and all its workgroups are placed (R288). -/
def State.triggered (s : State) (lid : Nat) : Bool :=
  let l := s.launchAt lid
  (mapFind s.launches lid).isNone || decide (l.stage = .done) ||
  (l.allPlaced && s.groups.all (fun p => !decide (p.2.launch = lid) || (List.range 32).all (fun t => (p.2.thread t).trig || (p.2.thread t).st.isEnded)))

/-- No line of an owner stays in L1: what a later kernel loads is what earlier ones have stored (R209, R219). -/
def State.dropOwnerL1 (s : State) (o : Nat) : State := { s with l1 := s.l1.filter (fun l => decide (l.owner ≠ o)) }

/-- DEPENDANT_RELEASE (R219, R288): where R280 holds the dependant back in the producer's queue, the producer must complete. The dependant's plain loads
find what was promised. -/
def execDependantRelease (l : Nat) (s : State) : Res :=
  let x := s.launchAt l
  .next (match mapFind s.launches l, x.producer with
    | some _, some p =>
      let y := s.launchAt p
      let whole := decide (y.queue = x.queue) && (match (s.before l x).getLast? with
        | none => false
        | some z => decide (z.2.detlvl ≠ x.detlvl))
      if !s.triggered p || (whole && decide (y.stage ≠ .done) && (mapFind s.launches p).isSome) then s
      else (s.modLaunch l (fun x => { x with waits := false })).dropOwnerL1 x.owner
    | _, _ => s)

/-! ### Swap-out (R293) -/

/-- Engine operations outstanding for a workgroup (R242, R293). (DEDUCED, log 46) -/
def State.enginesOut (s : State) (wg : Nat) : Bool :=
  let w := s.wgAt wg
  w.groups.any (fun k => (s.groupAt k).outs.any (fun o => decide (o.cls = .copies) || decide (o.cls = .tiles) || decide (o.cls = .remote))) ||
  w.barriers.any (fun p => decide (p.2.engines ≠ 0))

/-- The groups of a workgroup that have not ended. -/
def State.liveOf (s : State) (wg : Nat) : List Nat := (s.wgAt wg).groups.filter (fun k => !(s.groupAt k).isEnded)

def State.allWaiting (s : State) (wg : Nat) : Bool :=
  !(s.liveOf wg).isEmpty && (s.liveOf wg).all (fun k => (s.groupAt k).waitSlot.isSome)

/-- The swap threshold of an owner; the default where its record gives none (R293). -/
def State.swapT (s : State) (o : Nat) : Nat :=
  match s.part o with
  | none => 262144
  | some r => r.swapT

/-- A group's context is saved: it holds none until it is restored (R155, R293, R350). -/
def Group.putAway (g : Group) : Group := { g with live := false, away := true }

/-- SWAP_OUT (R293): the groups are saved, and their contexts are free 2,048 cycles later. -/
def execSwapOut (w : Nat) (s : State) : Res :=
  let x := s.wgAt w
  let now := s.cycOf x.owner (islandOf (s.phys x.owner x.core))
  .next (if x.ended || (mapFind s.swapped w).isSome || !s.allWaiting w || !s.enginesOut w
      || (s.liveOf w).any (fun k => decide (now < (s.groupAt k).waitFrom + s.swapT x.owner)) then s
    else
      let s := (s.liveOf w).foldl (fun s k => ((s.settleGroup k).drainGroup k).modGroup k Group.putAway) s
      { s with swapped := mapPut s.swapped w (now + 2048) })

/-- A swapped-out workgroup may be restored: a phase that one of its groups waited on has completed. -/
def State.awake (s : State) (w : Nat) : Bool := (mapFind s.swapped w).isSome && (s.liveOf w).any (fun k => (s.groupAt k).waitSlot.isNone)

/-- When it woke: the cycle its first group became ready. -/
def State.wokeAt (s : State) (w : Nat) : Nat :=
  (((s.liveOf w).filter (fun k => (s.groupAt k).waitSlot.isNone)).map (fun k => (s.groupAt k).readyAt)).foldl min (2 ^ 64)

/-- A restored group has a context again, and comes after every group of the owner on the lane, in the saved order (R351). -/
def State.reviveGroup (s : State) (k lane ctx ready : Nat) : State :=
  let n := s.issueSerial + 1
  { s.modGroup k (fun g => { g with live := true, away := false, lane := lane, ctx := ctx, readyAt := max g.readyAt ready, lastIssue := n }) with issueSerial := n }

/-- The indices in their workgroup of the groups that have not ended. -/
def State.liveIndices (s : State) (w : Nat) : List Nat := (s.liveOf w).map (fun k => (s.groupAt k).index)

/-- SWAP_IN (R293): on the same core, on the lanes and contexts of R277; a halted launch's groups end instead (R377). -/
def State.swapInWg (s : State) (w : Nat) : State :=
  let x := s.wgAt w
  let ks := (s.liveOf w).inOrder (fun a b => decide ((s.groupAt a).lastIssue ≤ (s.groupAt b).lastIssue))
  let now := s.cycOf x.owner (islandOf (s.phys x.owner x.core))
  match s.contextsFor x.owner x.core true (s.coreLanes x.owner x.core) (s.liveIndices w) [] with
  | none => s
  | some plan =>
    let place := (s.liveOf w).zip plan
    let s := { s with swapped := mapErase s.swapped w }
    let s := ks.foldl (fun s k => match place.find? (fun p => decide (p.1 = k)) with
      | none => s
      | some p => (s.reviveGroup k p.2.1 p.2.2 (now + 2048)).endRetirement x.owner x.core p.2.1) s
    if (s.launchAt x.launch).halted.isSome then ks.foldl State.endGroup s else s

def execSwapIn (w : Nat) (s : State) : Res := .next (if s.awake w then s.swapInWg w else s)

/-! ### Drover's choice (R271, R292) -/

/-- Swapped-out workgroups of an owner to restore, oldest wake first. -/
def State.waking (s : State) (o : Nat) : List Nat :=
  ((s.swapped.filter (fun p => decide ((s.wgAt p.1).owner = o) && s.awake p.1)).map (fun p => p.1)).inOrder (fun a b => decide (s.wokeAt a ≤ s.wokeAt b))

/-- A waking workgroup has contexts to come back to. -/
def State.canSwapIn (s : State) (w : Nat) : Bool :=
  let x := s.wgAt w
  (s.contextsFor x.owner x.core true (s.coreLanes x.owner x.core) (s.liveIndices w) []).isSome

/-- Launches of an owner with a workgroup that can be placed now. -/
def State.placeable (s : State) (o : Nat) : List Nat :=
  (s.launches.filter (fun p => decide (p.2.owner = o) && s.placing p.1 && (s.placeAt p.1).isSome)).map (fun p => p.1)

/-- The launch to place from next: the highest queue priority, then the lowest queue at or after the placement tie pointer, then the earliest. -/
def State.nextLaunch (s : State) (o : Nat) : Option Nat :=
  let w := s.ownerAt o
  let ls := s.placeable o
  let prio (l : Nat) : Nat := (w.lqAt (s.launchAt l).queue).prio
  let top := ls.foldl (fun m l => max m (prio l)) 0
  let at_ := ls.filter (fun l => decide (prio l = top))
  ((List.range 8).map (fun i => (w.placePtr + i) % 8)).findSome? (fun q => at_.find? (fun l => decide ((s.launchAt l).queue = q)))

/-- Up to n placements of one Drover slot. -/
def State.placements (s : State) (o : Nat) : Nat → State
  | 0 => s
  | n + 1 =>
    match (s.waking o).find? s.canSwapIn with
    | some w => (s.swapInWg w).placements o n
    | none => match s.nextLaunch o with
      | none => s
      | some l => ((s.placeNext l).modOwner o (fun w => { w with placePtr := ((s.launchAt l).queue + 1) % 8 })).placements o n

/-- One Drover slot of an owner (R271); any waking workgroup counts, whether or not it finds contexts. -/
def State.droverSlot (s : State) (o : Nat) : State :=
  let s := s.flushEvents o
  let cmd := (s.nextQueue o).isSome
  let place := !(s.waking o).isEmpty || !(s.placeable o).isEmpty
  match cmd, place with
  | false, false => s
  | true, false => s.commands o 8 true
  | false, true => s.placements o 4
  | true, true =>
    let alt := (s.ownerAt o).alternate
    let s := s.modOwner o (fun w => { w with alternate := !alt })
    if alt then s.placements o 4 else s.commands o 8 true

/-! ### Completion (R105, R220, R222, R287, R377, R416) -/

/-- Apply a commit buffer at the home slices, in ascending group index and issue order (R222). -/
def State.applyCommit (s : State) (w : Workgroup) : State :=
  (commitOrder w.commit).foldl (fun s e =>
    match e.op with
    | none => (s.writePlace w.owner w.core (.mem e.addr) e.value).fillPlace w.owner (.mem e.addr) 0#2
    | some op => ((s.atomPlace w.owner w.core (.mem e.addr) op e.value []).2).fillPlace w.owner (.mem e.addr) 0#2) s

/-- Every operation of a workgroup has returned, those that raise no counter among them (R209). -/
def State.wgQuiet (s : State) (w : Workgroup) : Bool :=
  w.groups.all (fun k => (s.groupAt k).outs.isEmpty && s.ops.all (fun p => decide (p.2.gid ≠ k) || p.2.done))

/-- The workgroup's reservations and tensor slots end with it (R259). -/
def State.freeWg (s : State) (wg : Nat) : State :=
  let drop {α : Type} (m : FMap α) : FMap α := (List.range 16).foldl (fun m i => mapErase m (slotKey wg i)) m
  { s with rsv := drop s.rsv, rsvOld := drop s.rsvOld, trec := drop s.trec, trecOld := drop s.trecOld }

/-- The switch that a border move makes: slots gained from who holds them, or given up to the free pool (R157). -/
def State.borderAsSwitch (s : State) (b : BorderSpec) : SwitchSpec :=
  if b.gain then ⟨b.core, b.lane, b.slots, s.slotOwner b.core b.lane (b.slots.headD 0), b.owner, false⟩ else ⟨b.core, b.lane, b.slots, b.owner, 62, false⟩

/-- A border move can become a switch: slots that it gains are in the free pool by now, given up at a workgroup completion of whoever held them (R157;
DESIGN CHOICE, log 75). -/
def State.borderReady (s : State) (b : BorderSpec) : Bool := !b.gain || b.slots.all (fun i => decide (s.slotOwner b.core b.lane i = 62))

/-- Border moves that an elastic context waits to make become switches: a workgroup of it has completed (R157). -/
def State.startBorders (s : State) (o : Nat) : State :=
  let goes (b : BorderSpec) : Bool := decide (b.owner = o) && s.borderReady b
  let mine := (s.borders.filter goes).map (fun b => (s.borderAsSwitch b, b))
  { s with borders := s.borders.filter (fun b => !goes b), toBegin := s.toBegin ++ mine.map (fun x => x.1), bordering := s.bordering ++ mine }

/-- An owner has completed one more workgroup, in this millisecond of wall time (R420). -/
def Owner.countDone (w : Owner) (now : Nat) : Owner :=
  let m := now / 18000000
  if m = w.doneMs then { w with doneNow := w.doneNow + 1 }
  else { w with doneMs := m, doneNow := 1, doneBefore := if m = w.doneMs + 1 then w.doneNow else 0 }

/-- The workgroups an owner has completed in the last whole millisecond. -/
def Owner.doneRate (w : Owner) (now : Nat) : Nat :=
  let m := now / 18000000
  if m = w.doneMs then w.doneBefore else if m = w.doneMs + 1 then w.doneNow else 0

def Await.isCommit : Await → Bool
  | .commits _ _ => true
  | .op _ _ | .acc _ _ _ | .sent _ _ => false

/-- What waited for a commit goes on. -/
def State.wakeCommits (s : State) : State :=
  let s := s.wakeIf Await.isCommit
  s.engs.foldl (fun s p => if p.2.wait.any Await.isCommit then s.startCopy p.1 else s) s

/-- A workgroup has completed: its groups have all ended (R105). Its share and its records are free, its owner has one more, and borders may move. -/
def State.completeWg (s : State) (w : Nat) : State :=
  let o := (s.wgAt w).owner
  if (s.wgAt w).done then s
  else (((s.modWg w (fun x => { x with done := true })).freeWg w).modOwner o (fun x => x.countDone s.now)).startBorders o

/-- WORKGROUP_COMMIT (R105, R222): a workgroup whose groups have ended completes, and commits once every workgroup below it has and what issued
for its commit buffer has come there. A halted launch commits nothing more (R377). (DEDUCED, log 58) -/
def execWorkgroupCommit (w : Nat) (s : State) : Res :=
  let x := s.wgAt w
  .next (if !x.live || !x.ended || x.committed then s else
    let l := s.launchAt x.launch
    let s := s.completeWg w
    let s := s.soon (.launchCompletion x.launch)
    if l.halted.isSome then s
    else if l.detlvl = 0 then s.modWg w (fun x => { x with committed := true })
    else if !s.committedBelow x.launch x.index || decide (x.reserved ≠ 0) then s
    else
      let s := (s.applyCommit x).modWg w (fun x => { x with committed := true, commit := [] })
      let s := s.wakeCommits
      (s.wgs.filter (fun p => decide (p.2.launch = x.launch) && p.2.done && !p.2.committed)).foldl (fun s p => s.soon (.workgroupCommit p.1)) s)

/-- Apply one ownership request of workgroup w to the table (R220): lines not listed are Shared. -/
def ownApply (t : FMap Nat) (w : Nat) (r : OwnReq) : FMap Nat :=
  (List.range r.lines).foldl (fun t i =>
    let k := r.start / 128 + i
    if r.give then (if mapFind t k = some w then mapErase t k else t)
    else (if (mapFind t k).isSome then t else mapPut t k w)) t

/-- The ownership requests of a launch in ascending workgroup index (R220). -/
def State.applyOwnership (s : State) (lid : Nat) : State :=
  let l := s.launchAt lid
  let ws := ((s.wgs.filter (fun p => decide (p.2.launch = lid))).map (fun p => p.2)).inOrder (fun a b => decide (a.index ≤ b.index))
  s.modOwner l.owner (fun o => { o with table := ws.foldl (fun t w => w.own.foldl (fun t r => ownApply t w.index r) t) o.table })

/-- Every workgroup of a launch has completed, and every operation of theirs is performed (R209; DEDUCED, log 58). -/
def State.launchQuiet (s : State) (lid : Nat) : Bool :=
  let l := s.launchAt lid
  (l.allPlaced || l.halted.isSome) && s.wgs.all (fun p => decide (p.2.launch ≠ lid) || (p.2.done && (p.2.committed || l.halted.isSome) && s.wgQuiet p.2))

/-- LAUNCH_COMPLETION (R194, R209, R220, R416): ownership takes effect, the leases are Released, no line stays in L1, the event is posted. -/
def execLaunchCompletion (lid : Nat) (s : State) : Res :=
  let l := s.launchAt lid
  .next (if (mapFind s.launches lid).isNone || decide (l.stage = .done) || decide (l.stage = .residing) then s
    else if !s.launchQuiet lid then
      (if (l.allPlaced || l.halted.isSome) && s.wgs.all (fun p => decide (p.2.launch ≠ lid) || p.2.ended) then s.modLaunch lid (fun l => { l with stage := .completing }) else s)
    else
      let s := if l.halted.isSome then s else s.applyOwnership lid
      let s := (s.releaseLeases lid).dropOwnerL1 l.owner
      let s := s.modLaunch lid (fun l => { l with stage := .done })
      let s := { s with wgs := s.wgs.filter (fun p => decide (p.2.launch ≠ lid)), groups := s.groups.filter (fun p => decide (p.2.launch ≠ lid)) }
      let kind := if l.halted.isSome then 2 else if l.byTrap then 1 else 0
      let s := s.post l.owner 2 0 l.tag 0#32 (leBytes 4 kind ++ leBytes 4 (l.halted.getD 0#32).toNat) l.secured
      s.tellDependants lid)

end Sys2Proof.Machine
end

