-- ==== Sys2Proof/Machine/Power.lean ====
section
/-! DEFINITION. Holds, sprint leases, Hayloft, clocks and rails, sensors and canaries (R153, R157, R178, R188, R198, R247, R286, R324,
R357, R359 to R370, R379, R425, R426). -/

namespace Sys2Proof.Machine

/-! ### Positions -/

/-- The physical cores of an owner. -/
def State.physCores (s : State) (o : Nat) : List Nat := (s.coreList o).map (s.phys o)

/-- The logical cores of an owner that stand on a physical one: a move may bring a second one beside another (R357). -/
def State.logicals (s : State) (o core : Nat) : List Nat :=
  match s.part o with
  | none => []
  | some r => r.cores.filter (fun c => decide (s.phys o c = core))

/-- The first of them. -/
def State.logicalOn (s : State) (o core : Nat) : Option Nat := (s.logicals o core).head?

/-- The one that a slot of a lane serves. -/
def State.slotLogical (s : State) (o core lane slot : Nat) : Option Nat :=
  ((s.logicals o core).find? (fun c => (mapGet (0, 0) (s.ownerAt o).lanes (c * 8 + lane)).1.testBit slot)).or (s.logicalOn o core)

/-- An owner holds lane slots on an island. -/
def State.slotsOn (s : State) (o i : Nat) : Bool :=
  (s.ownerAt o).live && (s.ownerAt o).lanes.any (fun p => decide (p.2.1 ≠ 0) && decide (islandOf (s.phys o (p.1 / 8)) = i))

/-- A share holds something: scratch, Trough, scale memory, tiles, or ways. -/
def shareHeld (x : CoreShare) : Bool :=
  decide (x.scratchLen ≠ 0) || decide (x.obufCount ≠ 0) || decide (x.scaleCount ≠ 0) || decide (x.accCount ≠ 0) || decide (x.l1Ways ≠ 0)

/-- An owner has a position on its logical core: lane slots, contexts, ways or shares (R363). -/
def State.positionOn (s : State) (o c : Nat) : Bool :=
  (List.range 8).any (fun l => let x := mapGet (0, 0) (s.ownerAt o).lanes (c * 8 + l); decide (x.1 ≠ 0) || decide (x.2 ≠ 0)) ||
  (match s.shareOf o c with
    | none => false
    | some x => shareHeld x)

/-- An owner has a position on an island (R357, R363, R369). -/
def State.onIsland (s : State) (o i : Nat) : Bool :=
  (s.ownerAt o).live && (match s.part o with
    | none => false
    | some r => r.cores.any (fun c => decide (islandOf (s.phys o c) = i) && s.positionOn o c))

/-- Live owners. -/
def State.liveOwners (s : State) : List Nat := (s.owners.filter (fun p => p.2.live)).map (fun p => p.1)

def State.isolated (s : State) (o : Nat) : Bool :=
  match s.part o with
  | none => false
  | some r => decide (r.kind = .isolated)

def State.elastic (s : State) (o : Nat) : Bool :=
  match s.part o with
  | none => false
  | some r => decide (r.kind = .elastic)

/-- Who may sprint on an island (R363): an isolated owner with no other owner on it, an elastic context with no isolated owner on it. -/
def State.holder (s : State) (o i : Nat) : Bool :=
  s.onIsland o i &&
  (if s.isolated o then s.liveOwners.all (fun x => decide (x = o) || decide (x = 63) || !s.onIsland x i)
   else s.elastic o && s.liveOwners.all (fun x => !(s.isolated x && s.onIsland x i)))

/-! ### Sprint leases (R362 to R368, R370, R379) -/

def ticksOf (level : Nat) : Nat :=
  match level with
  | 0 => 15
  | 1 => 12
  | _ => 10

/-- Wall ticks of 10 µs, 20 µs, 100 µs, 1 ms, 50 ms and 1 s. -/
def us10 : Nat := 180000
def us20 : Nat := 360000
def us100 : Nat := 1800000
def ms1 : Nat := 18000000
def ms50 : Nat := 900000000
def sec1 : Nat := 18000000000

def State.sprintAt (s : State) (o i : Nat) : Sprint := mapGet {} (s.ownerAt o).sprints i
def State.setSprint (s : State) (o i : Nat) (x : Sprint) : State := s.modOwner o (fun w => { w with sprints := mapPut w.sprints i x })
def State.quotaAt (s : State) (o i : Nat) : Quota := mapGet {} (s.ownerAt o).quotas i
def State.setQuota (s : State) (o i : Nat) (x : Quota) : State := s.modOwner o (fun w => { w with quotas := mapPut w.quotas i x })

/-- The owner is held on an island. -/
def State.heldOn (s : State) (o i : Nat) : Bool := mapGet false (s.ownerAt o).heldOn i

/-- The level of a live lease that is not suspended by a hold (R368, R370); only a holder's lease raises a rail (R363). -/
def State.vote (s : State) (o i : Nat) : Nat := let x := s.sprintAt o i; if x.live && !s.heldOn o i && s.holder o i then x.level else 0

/-- The highest vote of an island. -/
def State.topVote (s : State) (i : Nat) : Nat := s.liveOwners.foldl (fun m o => max m (s.vote o i)) 0

/-- FRAC of R361 for m in units of 10⁻⁷ J. -/
def fracOf (m joules : Nat) : BitVec 16 := if joules = 0 then 0xFFFF#16 else BitVec.ofNat 16 (min 65535 (65535 * m / (joules * 10000000)))

/-- The detail of R342. -/
def leaseTrap (endCyc : Nat) (melt : BitVec 16) (level reason : Nat) : PendRec :=
  let e : Dword := BitVec.ofNat 64 endCyc
  { a := BitVec.ofNat 32 (melt.toNat * 65536 + level * 16 + reason), b := e.extractLsb' 0 32, c := e.extractLsb' 32 32, due := endCyc }

/-- FRAC of R361 as an owner reads it on an island: all ones where it holds no quota. -/
def State.meltAt (s : State) (o i : Nat) : BitVec 16 := let q := s.quotaAt o i; if q.joules = 0 then 0xFFFF#16 else q.frac

/-- A live lease ends (R366), with the reason of its trap if it has one; a quota that is fully melted reads as all ones. -/
def State.endLease (s : State) (o i : Nat) (reason : Option Nat) : State :=
  let x := s.sprintAt o i
  if !x.live then s else
  let base := decide ((s.islandAt i).clock = 0)
  let s := s.setSprint o i { x with live := false, fell := if base then some s.now else x.fell, waitFall := !base, stepAt := none }
  match reason with
  | none => s
  | some r =>
    if (s.groupAt x.gid).isEnded then s
    else s.modGroup x.gid (fun g => g.record causeLease (leaseTrap (s.cycOf o i) (if r = 1 then 0xFFFF#16 else s.meltAt o i) x.level r))

/-- The code of a lease decision (R364): the lowest whose condition holds. A holder without a quota on the island has the code of one that is fully
melted: no lease draws on what is not its owner's (R359; DESIGN CHOICE, log 85). -/
def State.leaseCode (s : State) (o i : Nat) (d : Dword) : Nat :=
  let x := s.sprintAt o i
  if !s.holder o i then 1
  else if x.live then 2
  else if d = 0#64 ∨ 2 ^ 40 ≤ d.toNat then 3
  else if (s.quotaAt o i).full || (mapFind (s.ownerAt o).quotas i).isNone then 4
  else if x.waitFall || (match x.fell with
      | none => false
      | some t => decide (s.now < t + ms50)) then 5
  else if (match (s.islandAt i).emergEnd with
      | none => false
      | some t => decide (s.now < t + sec1)) then 6
  else 0

/-- `lease.req` (R364, R379): decided at w + 256. -/
def execLeaseReq (h : Guard) (d a : Reg) (level : BitVec 2) (q : BitVec 3) (s : State) : Res :=
  let g := s.grp
  let due := s.win + 256
  let k := s.fresh
  .next (if !g.guardQ h then s.finish g
    else (s.await g (.lease d a level.toNat q.toNat (g.getG64 a)) (some due)).schedule (.owner g.owner (s.groupIsland g)) due (.leaseDecision k))

/-- LEASE_DECISION (R364): for the island on which the request issued; delivered to the group where it stands. That of a group whose context is saved is
taken when it has been restored (R384). -/
def execLeaseDecision (k : Nat) (s : State) : Res :=
  .next (match mapFind s.waits k with
    | none => s
    | some x =>
      match x.kind with
      | .lease d _ level q cycles =>
        if (s.groupAt x.gid).away then s else
        let now := s.cycOf x.owner x.island
        let code := s.leaseCode x.owner x.island cycles
        let s := { s with waits := mapErase s.waits k }
        let s := if code ≠ 0 then s else
          (s.setSprint x.owner x.island { s.sprintAt x.owner x.island with live := true, level := level, endAt := now + cycles.toNat, gid := x.gid }).schedule
            (.owner x.owner x.island) (now + cycles.toNat) (.leaseExpiry x.owner x.island)
        s.resume x.gid (fun g => (g.setG d (BitVec.ofNat 32 code)).setQ (BitVec.ofNat 3 q) (decide (code = 0)))
      | _ => s)

/-- `lease.end` (R366, R379). -/
def execLeaseEnd (h : Guard) (s : State) : Res :=
  let g := s.grp
  .next (if g.guardQ h then (s.finish g).endLease g.owner (s.groupIsland g) none else s.finish g)

/-- What an update of R360 adds at a level. -/
def chargeAt (level : Nat) : Nat := if level = 1 then 2000 else if level = 2 then 5000 else 0

/-- The next update of R360 falls within the present cycle of an island and melts a quota fully. -/
def State.meltsNow (s : State) (o i : Nat) : Bool :=
  let x := s.quotaAt o i
  let y := s.islandAt i
  (mapFind (s.ownerAt o).quotas i).isSome && s.agenda.any (fun p => decide (p.ev = .meltUpdate) && decide (p.due < y.tick + ticksOf y.clock)) &&
  decide (x.charging ≠ 0) && decide (x.joules * 10000000 ≤ x.melted + chargeAt x.charging)

/-- Leases that end within a window's first cycle, as a quota is fully melted in it, end before the window issues (R366, R388; DEDUCED, log 77). -/
def State.meltAhead (s : State) (i : Nat) : State :=
  s.liveOwners.foldl (fun s o => if (s.sprintAt o i).live && !s.heldOn o i && s.meltsNow o i then s.endLease o i (some 1) else s) s

/-- LEASE_EXPIRY (R366): LEASE_LEFT reaches 0; melting fully in the same cycle is reported first. -/
def execLeaseExpiry (o i : Nat) (s : State) : Res :=
  let x := s.sprintAt o i
  .next (if !x.live || decide (s.cycOf o i ≠ x.endAt) then s
    else if s.meltsNow o i then s.endLease o i (some 1)
    else s.endLease o i (some 0))

/-! ### Hayloft, rails and clocks (R360, R361, R365 to R370, R425, R426) -/

/-- One quota after 10 µs (R360). -/
def Quota.step (x : Quota) : Quota :=
  let top := x.joules * 10000000
  let m := match x.charging with
    | 0 => x.melted - x.joules
    | 1 => min top (x.melted + 2000)
    | _ => min top (x.melted + 5000)
  { x with melted := m, full := if m = top then true else if 10 * m ≤ 8 * top then false else x.full, frac := fracOf m x.joules }

def State.scheduleOnce (s : State) (due : Nat) (ev : Instr) : State := if s.agenda.any (fun p => decide (p.ev = ev)) then s else s.schedule .wall due ev

/-- MELT_UPDATE (R360, R366): every quota; one that is fully melted ends its live lease with REASON 1. (DESIGN CHOICE, log 55) -/
def execMeltUpdate (s : State) : Res :=
  let s := s.liveOwners.foldl (fun s o => (s.ownerAt o).quotas.foldl (fun s p =>
    let x := (s.quotaAt o p.1).step
    let s := s.setQuota o p.1 x
    if x.melted = x.joules * 10000000 then s.endLease o p.1 (some 1) else s) s) s
  .next (s.scheduleOnce ((s.now / us10 + 1) * us10) .meltUpdate)

/-! ### Holds (R153) -/

/-- A cause begins to hold an owner; each island follows at its next period boundary. -/
def State.hold (s : State) (o : Nat) (c : HoldCause) : State :=
  if (s.ownerAt o).live && !(s.ownerAt o).held.contains c then s.modOwner o (fun w => { w with held := w.held ++ [c] }) else s

def State.unhold (s : State) (o : Nat) (c : HoldCause) : State :=
  if (s.ownerAt o).live then s.modOwner o (fun w => { w with held := w.held.filter (fun x => decide (x ≠ c)) }) else s

def State.holdAll (s : State) (f : Nat → Bool) (c : HoldCause) : State := s.liveOwners.foldl (fun s o => if f o then s.hold o c else s) s
def State.unholdAll (s : State) (c : HoldCause) : State := s.liveOwners.foldl (fun s o => s.unhold o c) s

/-- HOLD_BEGIN (R153). -/
def execHoldBegin (o : Nat) (c : HoldCause) (s : State) : Res := .next (s.hold o c)

/-- HOLD_END (R153). -/
def execHoldEnd (o : Nat) (c : HoldCause) (s : State) : Res := .next (s.unhold o c)

/-- A cause of a hold was raised by a sample of this very cycle, and so begins to count at the next period (R385). -/
def State.justRaised (s : State) (c : HoldCause) : Bool := decide (s.sample.tick = s.now) && s.sample.causes.contains c

/-- A group of an owner on an island is between a hint and its bound instruction (R148). -/
def State.hintPending (s : State) (o i : Nat) : Bool :=
  s.groups.any (fun p => p.2.live && decide (p.2.owner = o) && p.2.hint.isSome && decide (s.groupIsland p.2 = i))

/-- A context operation is outstanding. -/
def State.ctxOut (s : State) : Bool := s.waits.any (fun p => match p.2.kind with
  | .ctx _ _ _ _ _ _ => true
  | _ => false)

/-- At a period boundary of an island, holds begin and end (R153): what waits in `deq`, `nctr.wait` or an unmatched tree instruction is withdrawn
as a hold begins (R286, R324), and a lease's vote is suspended (R368). A hint's pair defers it (R148), and for SYS a context operation (R384).
(DEDUCED, log 22) -/
def State.applyHolds (s : State) (i : Nat) : State :=
  s.liveOwners.foldl (fun s o =>
    let want := (s.ownerAt o).held.any (fun c => s.heldOn o i || !s.justRaised c)
    if want = s.heldOn o i then s
    else if want then
      if s.hintPending o i || (decide (o = 63) && s.ctxOut) then s
      else (s.withdrawAll false (fun g => decide (g.owner = o) && decide (s.groupIsland g = i))).modOwner o (fun w => { w with
        heldOn := mapSet false w.heldOn i true
        sprints := (match mapFind w.sprints i with
          | none => w.sprints
          | some x => mapPut w.sprints i { x with stepAt := none }) })
    else s.modOwner o (fun w => { w with heldOn := mapSet false w.heldOn i false })) s

/-- The clock of an island falls to its highest vote at a period boundary, and gaps begin to run (R366, R368, R370). -/
def State.clockFall (s : State) (i : Nat) : State :=
  let x := s.islandAt i
  let s := s.setIsland i { x with clock := min x.clock (s.topVote i) }
  s.liveOwners.foldl (fun s o =>
    let y := s.sprintAt o i
    if y.waitFall then s.setSprint o i { y with waitFall := false, fell := some s.now } else s) s

/-- The highest vote of an island whose 20 µs have passed since its own rail epoch (R365, R370). -/
def State.risen (s : State) (i : Nat) : Nat :=
  s.liveOwners.foldl (fun m o => match (s.sprintAt o i).stepAt with
    | none => m
    | some t => if t ≤ s.now then max m (s.vote o i) else m) 0

/-- CLOCK_STEP (R365): up to a level that the rail carries and that a lease may step to. -/
def State.stepClock (s : State) (i l : Nat) : State :=
  let x := s.islandAt i
  s.setIsland i { x with clock := max x.clock (min l (min x.rail (s.risen i))) }

def execClockStep (i l : Nat) (s : State) : Res := .next (s.stepClock i l)

/-- One island at a rail epoch: its voltage follows its votes, the charge follows the voltage, and a vote that is new at it may step the clock 20 µs on
(R365, R370). -/
def State.railAt (s : State) (i : Nat) : State :=
  let x := s.islandAt i
  let top := s.topVote i
  let s := s.setIsland i { x with rail := top, canary := x.canaryGoal, canaryHold := x.canaryHold && decide (x.canaryGoal ≠ 0) }
  let s := if x.canary ≠ 0 ∧ x.canaryGoal = 0 then s.unholdAll (.canary i) else s
  let s := s.liveOwners.foldl (fun s o =>
    if s.vote o i ≠ 0 ∧ (s.sprintAt o i).stepAt = none then s.setSprint o i { s.sprintAt o i with stepAt := some (s.now + us20) } else s) s
  s.liveOwners.foldl (fun s o => if (mapFind (s.ownerAt o).quotas i).isSome then s.setQuota o i { s.quotaAt o i with charging := s.vote o i } else s) s

/-- RAIL_EPOCH (R365, R366, R370, R425). -/
def execRailEpoch (s : State) : Res :=
  let s := (List.range 32).foldl State.railAt s
  .next (s.scheduleOnce ((s.now / us100 + 1) * us100) .railEpoch)

/-- CANARY_FAILURE (R426): the voltage rises one step at the next epoch; at +40 mV every owner on the island is held and the black box freezes. -/
def execCanaryFailure (i : Nat) (s : State) : Res :=
  let x := s.islandAt i
  .next (if x.canary = 4 then ((s.holdAll (fun o => s.onIsland o i) (.canary i)).freezeBox.setIsland i { x with canaryGoal := 4, canaryAt := s.now, canaryHold := true }).schedule .wall (s.now + sec1) (.canaryRelax i)
    else (s.setIsland i { x with canaryGoal := x.canary + 1, canaryAt := s.now }).schedule .wall (s.now + sec1) (.canaryRelax i))

/-- CANARY_RELAX (R426): one step down after 1 s without a failure, at the next epoch. -/
def execCanaryRelax (i : Nat) (s : State) : Res :=
  let x := s.islandAt i
  .next (if decide (s.now < x.canaryAt + sec1) || decide (x.canaryGoal = 0) then s
    else
      let s := s.setIsland i { x with canaryGoal := x.canaryGoal - 1, canaryAt := s.now }
      if x.canaryGoal = 1 then s else s.schedule .wall (s.now + sec1) (.canaryRelax i))

/-! ### Sensors (R188, R198, R357, R369, R385, R386) -/

/-- The owners of the slots of a lane. -/
def State.laneOwners (s : State) (core lane : Nat) : List Nat := (List.range 8).map (fun i => s.slotOwner core lane i)

/-- The shares of an owner on a physical core. -/
def State.sharesOn (s : State) (o core : Nat) : List CoreShare := (s.logicals o core).filterMap (s.shareOf o)

/-- Two ranges of a structure meet. -/
def meets (a n b m : Nat) : Bool := decide (0 < n) && decide (0 < m) && decide (a < b + m) && decide (b < a + n)

/-- Two shares of one core overlap in a structure (R429). -/
def clashes (x y : CoreShare) : Bool :=
  meets x.scratchBase x.scratchLen y.scratchBase y.scratchLen || meets x.obufFirst x.obufCount y.obufFirst y.obufCount
  || meets x.scaleFirst x.scaleCount y.scaleFirst y.scaleCount || meets x.accFirst x.accCount y.accFirst y.accCount || decide (x.l1Ways &&& y.l1Ways ≠ 0)

/-- The context masks and slots of an owner by lane on a physical core. -/
def State.lanesOn (s : State) (o core : Nat) : List (Nat × Nat × Nat) :=
  (s.logicals o core).flatMap (fun c => (List.range 8).map (fun l => (l, mapGet (0, 0) (s.ownerAt o).lanes (c * 8 + l))))

/-- The positions of one owner on a core meet those of another on another core: lane slots, contexts, shares. -/
def State.positionsMeet (s : State) (x cx o c : Nat) : Bool :=
  (s.sharesOn x cx).any (fun a => (s.sharesOn o c).any (fun b => clashes a b)) ||
  (s.lanesOn x cx).any (fun l => (s.lanesOn o c).any (fun m => decide (l.1 = m.1) && (decide (l.2.1 &&& m.2.1 ≠ 0) || decide (l.2.2 &&& m.2.2 ≠ 0))))

/-- A core holds the free pool at every position an owner holds on another, its own on that core included, and no move under way is to bring one there
(R357). -/
def State.targetFree (s : State) (o c d : Nat) : Bool :=
  decide (d ≠ c) && decide (islandOf d = islandOf c) &&
  (s.lanesOn o c).all (fun l => (List.range 8).all (fun i => !l.2.1.testBit i || decide (s.slotOwner d l.1 i = 62))) &&
  s.liveOwners.all (fun x => !s.positionsMeet x d o c) &&
  s.transfers.all (fun t => decide (t.dst ≠ d) || decide (t.src = d) || !s.positionsMeet t.owner t.src o c)

/-- The lowest core that qualifies (R386). -/
def State.targetFor (s : State) (o c : Nat) : Option Nat := (List.range 512).find? (fun d => s.targetFree o c d)

/-- An owner has work on a physical core. -/
def State.worksOn (s : State) (o core : Nat) : Bool :=
  s.groups.any (fun p => p.2.live && !p.2.isEnded && decide (p.2.owner = o) && decide (s.groupCore p.2 = core))

def State.reading (s : State) (core : Nat) : Nat := mapGet 0 s.sensors core

/-- The emergency of one island begins or ends (R369); a begun one holds whoever has a position there. -/
def State.islandHeat (s : State) (i : Nat) : State :=
  let x := s.islandAt i
  let cores := (List.range 512).filter (fun c => decide (islandOf c = i))
  let hot := x.emergency || cores.any (fun c => decide (105 < s.reading c))
  if hot && cores.all (fun c => decide (s.reading c < 100)) then
    (s.setIsland i { x with emergency := false, emergEnd := some s.now }).unholdAll (.emergencyIsland i)
  else if hot then
    let s := if x.emergency then s else s.freezeBox
    (s.setIsland i { x with emergency := true }).holdAll (fun o => s.onIsland o i) (.emergencyIsland i)
  else s

/-- The package's emergency (R369). -/
def State.lidHeat (s : State) : State :=
  if s.lidEmergency && decide (s.meltSensor < 90) then
    let s := (List.range 32).foldl (fun s i => s.setIsland i { s.islandAt i with emergEnd := some s.now }) s
    { s.unholdAll .emergencyLid with lidEmergency := false }
  else if s.lidEmergency || decide (98 < s.meltSensor) then
    let s := if s.lidEmergency then s else s.freezeBox
    { s.holdAll (fun _ => true) .emergencyLid with lidEmergency := true }
  else s

/-- Requests for a move are raised above 95 °C, and honoured where a target exists (R357). -/
def State.raiseMoves (s : State) (hot : List Nat) : State :=
  let s := hot.foldl (fun s c => s.liveOwners.foldl (fun s o =>
    if s.worksOn o c && !s.migrations.contains (o, c) then { s with migrations := s.migrations ++ [(o, c)] } else s) s) s
  s.migrations.foldl (fun s m =>
    if s.moves.any (fun x => decide (x.1 = m.1) && decide (x.2.1 = m.2)) then s else
    match s.targetFor m.1 m.2 with
    | none => s
    | some d => { s with moves := s.moves ++ [(m.1, m.2, d)] }) s

/-- THERMAL_SAMPLE (R357, R369, R385): sensor readings by core in °C, and the melt sensor in per cent, sampled at a multiple of 10 µs: between
two samples nothing is read. -/
def execThermalSample (r : List (Nat × Nat)) (p : Nat) (s : State) : Res :=
  if s.now % us10 ≠ 0 then .next s else
  let old := s.moves
  let s := { s with sensors := r.foldl (fun m (x : Nat × Nat) => mapSet 0 m x.1 x.2) s.sensors, meltSensor := p }
  let s := s.raiseMoves ((r.filter (fun (x : Nat × Nat) => decide (95 < x.2))).map (fun (x : Nat × Nat) => x.1))
  let t := ((List.range 32).foldl State.islandHeat s).lidHeat
  let begun := ((List.range 32).filter (fun i => (t.islandAt i).emergency && !(s.islandAt i).emergency)).map HoldCause.emergencyIsland
  let before : Sample := if s.sample.tick = s.now then s.sample else {}
  .next { t with sample := ⟨s.now, before.moves ++ s.moves.filter (fun m => !old.contains m),
    before.causes ++ begun ++ (if t.lidEmergency && !s.lidEmergency then [.emergencyLid] else [])⟩ }

/-- An owner has data in a stack of 32 vaults: its record lists a vault of it, whether or not a page lies there, or it has a frame there (R188; DESIGN
CHOICE, log 86). -/
def State.inStack (s : State) (o n : Nat) : Bool :=
  (match s.part o with
    | none => false
    | some r => r.vaults.any (fun v => decide (v / 32 = n))) ||
  s.frames.any (fun p => decide (p.2 = o) && decide (p.1 * 65536 < stripeBase) && decide (p.1 / 32768 / 32 = n))

/-- DRAM_STACK_OVERTEMP (R188). -/
def execDramStackOvertemp (n : Nat) (s : State) : Res :=
  .next (State.holdAll { s with stacksHot := if s.stacksHot.contains n then s.stacksHot else n :: s.stacksHot } (fun o => s.inStack o n) (.stack n))

/-- DRAM_STACK_COOL (R188). -/
def execDramStackCool (n : Nat) (s : State) : Res :=
  .next ({ s with stacksHot := s.stacksHot.filter (fun x => decide (x ≠ n)) }.unholdAll (.stack n))

/-- An owner has a Resident Silo lease: its pages lie behind every port (R198). -/
def State.siloResident (s : State) (o : Nat) : Bool := s.launches.any (fun p => decide (p.2.owner = o) && p.2.leases.any (fun l => l.resident && l.silo))

/-- SILO_LINK_DOWN (R198). -/
def execSiloLinkDown (p : Nat) (s : State) : Res :=
  .next (State.holdAll { s with siloDown := if s.siloDown.contains p then s.siloDown else p :: s.siloDown } s.siloResident (.silo p))

/-- SILO_LINK_UP (R198). -/
def execSiloLinkUp (p : Nat) (s : State) : Res := .next ({ s with siloDown := s.siloDown.filter (fun x => decide (x ≠ p)) }.unholdAll (.silo p))

/-- Owners that come to hold what a hot stack or a broken link serves, or a position on an island that a failing canary holds, are held too (R188, R198,
R426). -/
def State.physicalHolds (s : State) : State :=
  let s := s.stacksHot.foldl (fun s n => s.holdAll (fun o => s.inStack o n) (.stack n)) s
  let s := s.siloDown.foldl (fun s p => s.holdAll s.siloResident (.silo p)) s
  (List.range 32).foldl (fun s i => if (s.islandAt i).canaryHold then s.holdAll (fun o => s.onIsland o i) (.canary i) else s) s

/-! ### Retirement (R152, R178) -/

/-- A lane of an owner: it has no group there that has not ended with its counters at zero. -/
def State.laneEmpty (s : State) (o core lane : Nat) : Bool :=
  !s.groups.any (fun p => decide (p.2.owner = o) && decide (p.2.core = core) && decide (p.2.lane = lane) && p.2.live && !(p.2.isEnded && p.2.outs.isEmpty))

/-- Retirement publishes the slots of a lane and has not ended. -/
def Owner.isRetired (w : Owner) (l : Nat) : Bool := (mapGet [] w.retired l).any (fun r => decide (r.2 = foreverEnd))

/-- RETIREMENT (R152, R178): an isolated owner with the gift-on-retire policy publishes its slots on lane l (8 × logical core + lane): from the first
period of its counter where it has never had a group there, else from the next. -/
def execRetirement (o l : Nat) (s : State) : Res :=
  let w := s.ownerAt o
  let now := s.cycOf o (islandOf (s.phys o (l / 8)))
  let first := if w.used.contains l then nextPeriod now else 0
  .next (match w.part with
    | none => s
    | some r =>
      if !w.live || decide (r.kind ≠ .isolated) || !r.gift || w.isRetired l || !s.laneEmpty o (l / 8) (l % 8) then s else
      s.modOwner o (fun w => { w with retired := mapSet [] w.retired l (mapGet [] w.retired l ++ [(first, foreverEnd)]) }))

end Sys2Proof.Machine
end

