-- ==== Sys2Proof/Machine/Partition.lean ====
section
/-! DEFINITION. Partitions, switches of lane slots, border moves and core-state transfers (R143, R144, R153, R155 to R157, R178, R179, R199,
R353, R355 to R357, R391, R420, R427, R429). -/

namespace Sys2Proof.Machine

/-! ### Switches (R155) -/

/-- Ids that a rota may name (R143). -/
def rotaId (o : Nat) : Bool := decide (o < 48) || decide (o = 62) || decide (o = 63)

/-- Slots of a lane that a switch under way or asked for concerns, or a border move that waits. -/
def State.inSwitch (s : State) (core lane slot : Nat) : Bool :=
  (s.switches.map (fun x => x.1) ++ s.toBegin).any (fun w => decide (w.core = core) && decide (w.lane = lane) && w.slots.contains slot) ||
  s.borders.any (fun b => decide (b.core = core) && decide (b.lane = lane) && b.slots.contains slot)

/-- An owner created anew under an id whose slots are still to be switched to it (R179). -/
def State.renewed (s : State) (w : SwitchSpec) : Bool :=
  (s.logicals w.incoming w.core).all (fun c => decide ((mapGet (0, 0) (s.ownerAt w.incoming).lanes (c * 8 + w.lane)).1 &&& w.slots.foldl (fun m i => m ||| 2 ^ i) 0 = 0))

/-- A switch can begin: its slots belong to the outgoing owner, and the incoming one exists and does not hold them (R143, R144, R155, R179). -/
def State.switchOk (s : State) (w : SwitchSpec) : Bool :=
  decide (w.core < 512) && decide (w.lane < 8) && decide w.slots.Nodup && w.slots.all (fun i => decide (i < 8) && decide (s.slotOwner w.core w.lane i = w.outgoing)) &&
  decide (w.slots ≠ []) && (decide (w.outgoing ≠ w.incoming) || s.renewed w) && rotaId w.outgoing && decide (w.outgoing ≠ 63) &&
  (decide (w.incoming = 62) || ((s.ownerAt w.incoming).live && rotaId w.incoming && (s.logicalOn w.incoming w.core).isSome))

/-- The mask of a list of slots. -/
def slotMask (xs : List Nat) : Nat := xs.foldl (fun m i => m ||| 2 ^ i) 0

def State.setSlots (s : State) (core lane : Nat) (slots : List Nat) (o : Nat) : State :=
  { s with rota := slots.foldl (fun m i => mapSet 62 m (rotaKey core lane i) o) s.rota }

/-- Groups of an owner that stand on a lane of a logical core and hold a context. -/
def Group.standsOn (g : Group) (o core lane : Nat) : Bool := g.live && decide (g.owner = o) && decide (g.core = core) && decide (g.lane = lane)

/-- Everything that the groups of a choice have in flight is brought to the state of R350. -/
def State.settleAll (s : State) (f : Group → Bool) : State :=
  s.groups.foldl (fun s p => if f (s.groupAt p.1) then s.settleGroup p.1 else s) s

/-- The contexts of a choice of groups are saved (R92, R270, R350); an isolated owner is held until it has its lane again, and its tile operations keep
their owner cycles (R153, R156). -/
def State.saveGroups (s : State) (f : Group → Bool) : State :=
  let s := s.settleAll f
  let s := s.groups.foldl (fun s p => if f (s.groupAt p.1) && !s.isolated p.2.owner then s.drainGroup p.1 else s) s
  { s with groups := mapAll (fun g => if f g then g.putAway else g) s.groups }

/-- An owner whose borders leave it no slot on an island ends its lease there, and an elastic context loses its quota (R359, R366, R370). -/
def State.leaveIsland (s : State) (o i : Nat) : State :=
  if !(s.ownerAt o).live || s.slotsOn o i then s else
  let s := s.endLease o i none
  if s.elastic o then s.modOwner o (fun w => { w with quotas := mapErase w.quotas i }) else s

/-- The slots of a lane that an owner's record gives it. -/
def State.recSlots (s : State) (o core lane : Nat) : Nat :=
  match s.part o with
  | none => 0
  | some r => ((r.lanes.find? (fun x => decide (x.core = core) && decide (x.lane = lane))).map (fun x => slotMask x.slots)).getD 0

/-- The logical core of an owner on a physical one to which slots of a lane belong: that whose record names them, or else the first (R357). -/
def State.slotHome (s : State) (o core lane : Nat) (slots : List Nat) : Option Nat :=
  let m := slotMask slots
  ((s.logicals o core).find? (fun c => decide (s.recSlots o c lane &&& m = m))).or (s.logicalOn o core)

/-- Keys that lie in none of some (first, count) ranges. -/
def outside (rs : List (Nat × Nat)) (k : Nat) : Bool := rs.all (fun r => decide (k < r.1) || decide (r.1 + r.2 ≤ k))

/-- The ranges of a record's shares on their physical cores: granules of the slice, granules of the operand buffer, elements of the tiles. -/
def scrRanges (sh : List (Nat × CoreShare)) : List (Nat × Nat) :=
  sh.map (fun p => (p.1 * 1024 + p.2.scratchBase / 512, (p.2.scratchBase + p.2.scratchLen + 511) / 512 - p.2.scratchBase / 512))
def obufRanges (sh : List (Nat × CoreShare)) : List (Nat × Nat) := sh.map (fun p => (p.1 * 512 + p.2.obufFirst, p.2.obufCount))
def tileRanges (sh : List (Nat × CoreShare)) : List (Nat × Nat) := sh.map (fun p => (accKey p.1 p.2.accFirst 0 0, 1024 * p.2.accCount))

/-- Shares pass to another owner: every granule is thread-owned with no read hold, every tile holds +0 (R216, R257, R261); what lies in shares that it
held before stays. -/
def State.clearShares (s : State) (sh old : List (Nat × CoreShare)) : State :=
  let stays (f : List (Nat × CoreShare) → List (Nat × Nat)) (k : Nat) : Bool := outside (f sh) k || !outside (f old) k
  { s with
    engScr := s.engScr.filter (fun p => stays scrRanges p.1)
    engObuf := s.engObuf.filter (fun p => stays obufRanges p.1)
    readHold := s.readHold.filter (fun p => stays obufRanges p.1)
    acc := s.acc.filter (fun p => stays tileRanges p.1) }

/-- The border move that a switch carries out. -/
def State.borderOf (s : State) (w : SwitchSpec) : Option BorderSpec := (s.bordering.find? (fun x => decide (x.1 = w))).map (fun x => x.2)

/-- The owner's record with the shares that a border move gives it (R429). -/
def borderRecord (b : BorderSpec) (c : Nat) (r : PartRec) : PartRec :=
  { r with
    lanes := r.lanes.map (fun x => if x.core = c ∧ x.lane = b.lane then { x with ctxMask := b.ctxMask.getD x.ctxMask } else x)
    shares := r.shares.map (fun x => if x.core = c then { b.share.getD x with core := c } else x)
    l2Ways := r.l2Ways.map (fun x => (x.1, (mapFind b.l2Ways x.1).getD x.2)) }

/-- An elastic context has the shares that a border move gives it (R429): its lines leave the ways it has no more, and its TLB keeps what its share
holds. (DESIGN CHOICE, log 88) -/
def State.giveShares (s : State) (b : BorderSpec) : State :=
  match s.part b.owner, s.logicalOn b.owner b.core with
  | some r, some c =>
    let x := borderRecord b c r
    let placed (r : PartRec) : List (Nat × CoreShare) := (r.shares.filter (fun y => decide (y.core = c))).map (fun y => (b.core, y))
    let s := (s.clearShares (placed x) (placed r)).modOwner b.owner (fun w => { w with
      part := some x
      lanes := (let k := c * 8 + b.lane; let old := mapGet (0, 0) w.lanes k; mapSet (0, 0) w.lanes k (old.1, b.ctxMask.getD old.2)) })
    let mine := (s.tlb.filter (fun e => decide (e.owner = b.owner) && decide (e.core = c))).take (s.tlbShare b.owner c)
    { s with
      l1 := s.l1.filter (fun l => decide (l.owner ≠ b.owner) || decide (l.core ≠ c) || (s.l1Ways b.owner c).contains l.way)
      l2 := s.l2.filter (fun l => decide (l.owner ≠ b.owner) || (s.l2Ways b.owner l.slice).contains l.way)
      tlb := s.tlb.filter (fun e => decide (e.owner ≠ b.owner) || decide (e.core ≠ c) || mine.contains e) }
  | _, _ => s

/-- The outgoing owner gives up its slots: publication by retirement ends there (R178), its groups are saved once no slot is left, and an isolated
owner stays held until it has its slots on the lane again (R156). -/
def State.giveUp (s : State) (w : SwitchSpec) : State :=
  if w.outgoing = w.incoming then s else
  match s.slotLogical w.outgoing w.core w.lane (w.slots.headD 0) with
  | none => s
  | some c =>
    let k := c * 8 + w.lane
    let old := mapGet (0, 0) (s.ownerAt w.outgoing).lanes k
    let left := old.1 - (old.1 &&& slotMask w.slots)
    let now := s.cycOf w.outgoing (islandOf w.core)
    let s := s.modOwner w.outgoing (fun x => { x with
      lanes := mapSet (0, 0) x.lanes k (left, old.2), retired := mapSet [] x.retired k (endRuns (mapGet [] x.retired k) (periodOf now)) })
    let s := if left = 0 then s.saveGroups (fun g => g.standsOn w.outgoing c w.lane) else s
    let s := if s.isolated w.outgoing && !w.destroy then s.hold w.outgoing (.preempted c w.lane) else s
    match s.borderOf w with
    | none => s
    | some b => if b.gain then s else State.leaveIsland { s.giveShares b with bordering := s.bordering.filter (fun x => decide (x.1 ≠ w)) } w.outgoing (islandOf w.core)

/-- The quota that an elastic context's record gives it on an island it gains (R359). -/
def State.gainQuota (s : State) (o i : Nat) : State :=
  match s.part o with
  | none => s
  | some r => if r.kind = .elastic ∧ s.holder o i ∧ s.slotsOn o i ∧ (mapFind (s.ownerAt o).quotas i).isNone then
      (match mapFind r.quotas i with
      | none => s
      | some q => s.setQuota o i { joules := q })
    else s

/-! ### Destruction (R199, R420) -/

/-- A byte of memory lies in a frame or a striped region of an owner. -/
def State.ownsByte (s : State) (o : Nat) (r : PartRec) (a : Nat) : Bool :=
  s.frames.any (fun p => decide (p.2 = o) && decide (p.1 = a / 65536)) ||
  (r.vaults.contains (a / 0x80000000) && decide (mapGet 0 r.stripes (a / 0x80000000) ≤ a % 0x80000000) &&
    decide (a % 0x80000000 < mapGet 0 r.stripes (a / 0x80000000) + r.stripeLen))

/-- An owner's shares with the physical cores they stand on. -/
def State.placedShares (s : State) (o : Nat) : List (Nat × CoreShare) :=
  match s.part o with
  | none => []
  | some r => r.shares.map (fun x => (s.phys o x.core, x))

/-- What the fabric holds of an owner: packets, tie pointers, ports, its token, flits, pointers (R393, R394). -/
def Fabric.without (f : Fabric) (o : Nat) : Fabric :=
  let mine (k : Nat) : Bool := decide (k % 64 = o)
  { f with
    packets := f.packets.filter (fun p => decide (p.2.owner ≠ o))
    tie := f.tie.filter (fun p => !mine p.1)
    hold := f.hold.filter (fun p => !mine p.1)
    tokenAt := mapErase f.tokenAt o
    captured := mapErase f.captured o
    through := f.through.filter (fun p => !mine p.1)
    ways := mapAll (fun w => { w with
      waiting := mapAll (fun ms => ms.filter (fun m => decide (m.owner ≠ o))) w.waiting, partial_ := w.partial_.filter (fun p => p.2.all (fun m => decide (m.owner ≠ o))) }) f.ways }

/-- Everything of an owner ends with it. Its frames are scrubbed to zero, its key, its tables and its window go. -/
def State.dissolve (s : State) (o : Nat) : State :=
  match s.part o with
  | none => s
  | some r =>
    let gone (k : Nat) : Bool := decide ((s.groupAt k).owner = o)
    let kept := s.mem.filter (fun c => !s.ownsByte o r c.1)
    let slots {α : Type} (m : FMap α) : FMap α := m.filter (fun p => decide ((s.wgAt (p.1 / 16)).owner ≠ o))
    let s := s.clearShares (s.placedShares o) []
    { s with
      agenda := s.agenda.filter (fun p => match p.clk with
        | .owner x _ => decide (x ≠ o)
        | .island _ | .wall => true)
      queues := s.queues.filter (fun q => decide (q.1 / 8 / 512 ≠ o))
      passes := s.passes.filter (fun p => decide (p.2.owner ≠ o))
      tileOps := s.tileOps.filter (fun p => decide (p.2.owner ≠ o))
      ops := s.ops.filter (fun p => decide (p.2.owner ≠ o))
      engs := s.engs.filter (fun p => decide (p.2.owner ≠ o))
      waits := s.waits.filter (fun p => decide (p.2.owner ≠ o))
      nets := s.nets.filter (fun p => decide (p.2.owner ≠ o))
      heldMsgs := s.heldMsgs.filter (fun m => decide (m.owner ≠ o))
      rsv := slots s.rsv
      rsvOld := slots s.rsvOld
      trec := slots s.trec
      trecOld := slots s.trecOld
      swapped := s.swapped.filter (fun p => decide ((s.wgAt p.1).owner ≠ o))
      unsettled := s.unsettled.filter (fun k => !gone k)
      wgs := s.wgs.filter (fun p => decide (p.2.owner ≠ o))
      groups := s.groups.filter (fun p => decide (p.2.owner ≠ o))
      launches := s.launches.filter (fun p => decide (p.2.owner ≠ o))
      l1 := s.l1.filter (fun l => decide (l.owner ≠ o))
      l2 := s.l2.filter (fun l => decide (l.owner ≠ o))
      tlb := s.tlb.filter (fun e => decide (e.owner ≠ o))
      tables := s.tables.filter (fun p => decide (p.2 ≠ o))
      mem := kept
      faulty := s.faulty.filter (fun p => !s.ownsByte o r (p.1 * 32))
      checks := s.checks.filter (fun p => !s.ownsByte o r (p.1 * 32))
      frames := s.frames.filter (fun p => decide (p.2 ≠ o))
      transfers := s.transfers.filter (fun t => decide (t.owner ≠ o))
      moves := s.moves.filter (fun m => decide (m.1 ≠ o))
      migrations := s.migrations.filter (fun m => decide (m.1 ≠ o))
      borders := s.borders.filter (fun b => decide (b.owner ≠ o))
      fabric := s.fabric.without o
      opens := s.opens.filter (fun p => decide (p.1 / 2048 ≠ o))
      chunks := s.chunks.filter (fun x => !(decide (x.1 = s.rank) && (match mapFind s.nets x.2.1 with
        | none => false
        | some e => decide (e.owner = o))))
      bordering := s.bordering.filter (fun x => decide (x.2.owner ≠ o))
      owners := mapErase s.owners o
      spdm := { s.spdm with
        measurements := mapErase s.spdm.measurements (16 + o)
        sessions := s.spdm.sessions.filter (fun p => decide (p.2.partition ≠ some o)) } }

/-- The slots of an owner on a lane of a physical core that a switch yet to begin takes from it. -/
def State.leaving (s : State) (o core lane slot : Nat) : Bool :=
  s.toBegin.any (fun w => decide (w.outgoing = o) && decide (w.core = core) && decide (w.lane = lane) && w.slots.contains slot)

/-- The switches that give an owner's slots to the free pool, but for those that a switch yet to begin takes. -/
def State.returnSlots (s : State) (o : Nat) : List SwitchSpec :=
  (((s.ownerAt o).lanes.map (fun p =>
    let core := s.phys o (p.1 / 8)
    (⟨core, p.1 % 8, (List.range 8).filter (fun i => p.2.1.testBit i && !s.leaving o core (p.1 % 8) i), o, 62, false⟩ : SwitchSpec)))).filter (fun w => decide (w.slots ≠ []))

/-- A switch yet to begin when an owner has gone: slots that were to come to it are free instead. -/
def orphaned (w : SwitchSpec) (o : Nat) : Option SwitchSpec :=
  if w.incoming ≠ o then some w else if w.outgoing = 62 then none else some { w with incoming := 62 }

/-- Destroy a partition: its slots pass to the free pool by switches, or to the owner that a switch yet to begin names (R179). Where an isolated owner
goes, elastic contexts become holders and have their quotas (R359, R363). -/
def State.destroy (s : State) (o : Nat) : State :=
  if 48 ≤ o ∨ !(s.ownerAt o).live then s else
  let back := s.returnSlots o
  let s := s.dissolve o
  let s := { s with toBegin := s.toBegin.filterMap (fun w => orphaned w o) ++ back }
  s.liveOwners.foldl (fun s o => (List.range 32).foldl (fun s i => s.gainQuota o i) s) s

/-! ### Switches, continued -/

/-- The owners concerned are held, or go on. -/
def State.holdBoth (s : State) (w : SwitchSpec) : State :=
  (s.hold w.outgoing (.switch w.core w.lane (slotMask w.slots))).hold w.incoming (.switch w.core w.lane (slotMask w.slots))
def State.unholdBoth (s : State) (w : SwitchSpec) : State :=
  (s.unhold w.outgoing (.switch w.core w.lane (slotMask w.slots))).unhold w.incoming (.switch w.core w.lane (slotMask w.slots))

/-- A switch begins at a period boundary of its island: its slots serve SYS only for 4,096 cycles, and the rota names SYS in them meanwhile
(DESIGN CHOICE, log 72). A partition that it destroys ends first (R179). (DEDUCED, log 23) -/
def State.beginSwitch (s : State) (w : SwitchSpec) : State :=
  if !s.switchOk w then { s.unholdBoth w with bordering := s.bordering.filter (fun x => decide (x.1 ≠ w)) } else
  let i := islandOf w.core
  let start := (s.islandAt i).cyc
  let s := (s.giveUp w).setSlots w.core w.lane w.slots 63
  let s := if w.destroy then s.destroy w.outgoing else s
  let s := s.holdBoth w
  { s with switches := s.switches ++ [(w, start)] }.schedule (.island i) (start + 4096) (.switchEnd w)

/-- SWITCH_BEGIN (R155): at the next period boundary of the island. -/
def execSwitchBegin (w : SwitchSpec) (s : State) : Res := .next { s with toBegin := s.toBegin ++ [w] }

/-- A lease decision that waited for its group's restoration falls now (R384). -/
def State.decideLate (s : State) (gid : Nat) : State :=
  s.waits.foldl (fun s p => match p.2.kind, p.2.due with
    | .lease _ _ _ _ _, some c =>
      let now := s.cycOf p.2.owner p.2.island
      if p.2.gid = gid ∧ c ≤ now then s.schedule (.owner p.2.owner p.2.island) now (.leaseDecision p.1) else s
    | _, _ => s) s

/-- Groups of an owner saved on a lane hold their contexts again, unless another group has taken them or their workgroup is swapped out (R293); those of
a halted launch end (R377, R384). -/
def State.bringBack (s : State) (o core lane : Nat) : State :=
  let here (g : Group) : Bool := g.away && (mapFind s.swapped g.wg).isNone && decide (g.owner = o) && decide (g.core = core) && decide (g.lane = lane) && !s.contextTaken o core lane g.ctx
  let back := (s.groups.filter (fun p => here p.2)).map (fun p => p.1)
  let s := { s with groups := mapAll (fun g => if here g then { g with live := true, away := false } else g) s.groups }
  back.foldl (fun s k => if (s.launchAt (s.groupAt k).launch).halted.isSome then s.endGroup k else s.decideLate k) s

/-! ### Quotas promised (R359) -/

/-- Slots on an island are to come to an owner by a switch or a border move. -/
def State.promised (s : State) (o i : Nat) : Bool :=
  (s.switches.map (fun x => x.1) ++ s.toBegin).any (fun w => decide (w.incoming = o) && decide (islandOf w.core = i)) ||
  s.borders.any (fun b => b.gain && decide (b.owner = o) && decide (islandOf b.core = i))

/-- The quota an owner has on an island, or that its record keeps for an elastic context that stands there, or whose slots there are on their way, for when
it becomes a holder (R363). -/
def State.quotaOf (s : State) (o i : Nat) : Nat :=
  match mapFind (s.ownerAt o).quotas i, s.part o with
  | some q, _ => q.joules
  | none, some r => if r.kind = .elastic ∧ (s.promised o i ∨ s.slotsOn o i) then mapGet 0 r.quotas i else 0
  | none, none => 0

/-- Quotas in force and promised, in joules (R359). -/
def State.quotaSum (s : State) : Nat := (s.liveOwners.map (fun o => ((List.range 32).map (s.quotaOf o)).sum)).sum

/-! ### Core-state transfers (R353, R355, R356) -/

/-- A transfer of an owner's logical core begins: its groups on it are brought to the state of R350, the owner is held, and it ends 65,536 cycles
later (R353). -/
def State.beginTransfer (s : State) (o c src dst : Nat) : State :=
  let i := islandOf src
  let start := (s.islandAt i).cyc
  let s := (s.settleAll (fun g => g.live && decide (g.owner = o) && decide (g.core = c))).hold o (.migration src)
  { s with transfers := s.transfers ++ [({ owner := o, core := c, src := src, dst := dst, start := start } : Transfer)] }.schedule (.island i) (start + 65536)
    (.coreStateTransferEnd o src dst)

/-- A move begins at a period boundary of its island: everything of the owner on the core goes to the lowest core that qualifies by now (R357, R358,
R386). -/
def State.beginMove (s : State) (m : Nat × Nat × Nat) : State :=
  let o := m.1
  match s.logicals o m.2.1 with
  | [] => { s with moves := s.moves.filter (fun x => decide (x ≠ m)) }
  | cs =>
    if s.transfers.any (fun t => decide (t.owner = o)) || s.hintPending o (islandOf m.2.1) || (decide (o = 63) && s.ctxOut) then s
    else
      let t := { s with moves := s.moves.filter (fun x => decide (x ≠ m)) }
      match s.targetFor o m.2.1 with
      | none => t
      | some d => cs.foldl (fun t c => State.beginTransfer t o c m.2.1 d) t

/-- MIGRATION_MOVE (R353, R357, R386): the move of an owner from physical core c to d, the lowest that qualifies, at the next period boundary. -/
def execMigrationMove (o c d : Nat) (s : State) : Res :=
  .next (if s.moves.contains (o, c, d) ∨ s.targetFor o c ≠ some d then s else { s with moves := s.moves.filter (fun m => !(decide (m.1 = o) && decide (m.2.1 = c))) ++ [(o, c, d)] })

/-- Entries of a table with keys in [a, a + n) move up or down by the distance from a to b. -/
def shiftKeys {α : Type} (m : FMap α) (a n b : Nat) : FMap α :=
  let mine := m.filter (fun p => decide (a ≤ p.1) && decide (p.1 < a + n))
  let rest := m.filter (fun p => !(decide (a ≤ p.1) && decide (p.1 < a + n)) && !(decide (b ≤ p.1) && decide (p.1 < b + n)))
  mine.foldr (fun p m => mapPut m (p.1 - a + b) p.2) rest

/-- An access to the slice of a core stands on another. -/
def Place.moved (p : Place) (c d base len : Nat) : Place :=
  match p with
  | .scr core off => if core = c ∧ base ≤ off ∧ off < base + len then .scr d off else p
  | .mem _ | .guard | .ctr _ => p

/-- What is listed about the sectors of an owner's shares of core c is listed about those on core d: check values and errors travel with their sectors
(R200). -/
def moveSectors {α : Type} (m : FMap α) (c d : Nat) (sh : CoreShare) : FMap α :=
  let m := shiftKeys m (scrSector c sh.scratchBase) ((sh.scratchLen + 31) / 32) (scrSector d sh.scratchBase)
  let m := shiftKeys m (obufSector c (16 * sh.obufFirst)) (16 * sh.obufCount) (obufSector d (16 * sh.obufFirst))
  shiftKeys m (accSector (accKey c sh.accFirst 0 0)) (128 * sh.accCount) (accSector (accKey d sh.accFirst 0 0))

/-- The owner's shares of core c are on core d (R353). -/
def State.moveShares (s : State) (o c d : Nat) (sh : CoreShare) : State :=
  { s with
    checks := moveSectors s.checks c d sh
    faulty := moveSectors s.faulty c d sh
    scratch := shiftKeys s.scratch (scrKey c sh.scratchBase) sh.scratchLen (scrKey d sh.scratchBase)
    engScr := shiftKeys s.engScr (c * 1024 + sh.scratchBase / 512) ((sh.scratchBase + sh.scratchLen + 511) / 512 - sh.scratchBase / 512) (d * 1024 + sh.scratchBase / 512)
    obuf := shiftKeys s.obuf (c * 262144 + 512 * sh.obufFirst) (512 * sh.obufCount) (d * 262144 + 512 * sh.obufFirst)
    engObuf := shiftKeys s.engObuf (c * 512 + sh.obufFirst) sh.obufCount (d * 512 + sh.obufFirst)
    readHold := shiftKeys s.readHold (c * 512 + sh.obufFirst) sh.obufCount (d * 512 + sh.obufFirst)
    scale := shiftKeys s.scale (c * 32768 + 64 * sh.scaleFirst) (64 * sh.scaleCount) (d * 32768 + 64 * sh.scaleFirst)
    acc := shiftKeys s.acc (accKey c sh.accFirst 0 0) (1024 * sh.accCount) (accKey d sh.accFirst 0 0)
    passes := mapAll (fun p => if p.owner = o then { p with tiles := shiftKeys p.tiles (accKey c sh.accFirst 0 0) (1024 * sh.accCount) (accKey d sh.accFirst 0 0) } else p) s.passes
    ops := mapAll (fun op => if op.owner = o then { op with accs := op.accs.map (fun a => { a with place := a.place.moved c d sh.scratchBase sh.scratchLen }) } else op) s.ops }

/-- The beats that an engine operation has yet to make are made (R356). -/
def State.landAll (s : State) (k : Nat) : Nat → State
  | 0 => s
  | n + 1 => (s.beat k 64).landAll k n

/-- The owner's lane slots pass from core c to core d. -/
def State.moveSlots (s : State) (o c d : Nat) : State :=
  (List.range 64).foldl (fun s i => if s.slotOwner c (i / 8) (i % 8) = o then (s.setSlots c (i / 8) [i % 8] 62).setSlots d (i / 8) [i % 8] o else s) s

/-- Everything of an owner on core c passes to core d, with the engine accesses that a transfer has suspended (R353, R355, R356). -/
def State.moveCore (s : State) (o lc c d : Nat) : State :=
  let s := match s.shareOf o lc with
    | none => s
    | some sh => s.moveShares o c d sh
  (s.moveSlots o c d).modOwner o (fun w => { w with remap := mapPut w.remap lc d })

/-- CORE_STATE_TRANSFER_END (R353, R355 to R357): everything of the owner on core c is on core d, which is c after a save or a restore, and its hold
ends with the last of its transfers between the two. Only a move answers a request for one. (DEDUCED, log 24) -/
def execCoreStateTransferEnd (o c d : Nat) (s : State) : Res :=
  .next (match s.transfers.find? (fun t => decide (t.owner = o) && decide (t.src = c) && decide (t.dst = d)) with
    | none => s
    | some t =>
      let s := if c = d then s else s.moveCore o t.core c d
      let s := { s with transfers := s.transfers.filter (fun x => decide (x ≠ t)), migrations := s.migrations.filter (fun m => decide (c = d) || decide (m ≠ (o, c))) }
      let s := s.engs.foldl (fun s p => if p.2.owner = o ∧ p.2.core = t.core ∧ p.2.due.isSome then s.landAll p.1 (p.2.bytes / 64 + 1) else s) s
      let s := (List.range 8).foldl (fun s l => if (mapGet (0, 0) (s.ownerAt o).lanes (t.core * 8 + l)).1 = 0 then s else s.bringBack o t.core l) s
      if s.transfers.any (fun x => decide (x.owner = o) && decide (x.src = c)) then s else s.unhold o (.migration c))

/-- What begins at a period boundary of an island: switches, but one whose outgoing owner is between a hint and its bound instruction
(R148, R155), and moves (R357), but those raised in this very cycle (R385). (DEDUCED, log 57) -/
def State.beginOn (s : State) (i : Nat) : State :=
  let due := s.toBegin.filter (fun w => decide (islandOf w.core = i))
  let s := due.foldl (fun s w =>
    if s.hintPending w.outgoing i then s else (State.beginSwitch { s with toBegin := s.toBegin.erase w } w)) s
  (s.moves.filter (fun m => decide (islandOf m.2.1 = i) && !(decide (s.sample.tick = s.now) && s.sample.moves.contains m))).foldl State.beginMove s

/-- Once at an instant, before any island's holds begin or end there, what begins on the islands that stand at a period boundary then: an owner is held by
it on each of them from the same instant (R13, R153, R385). -/
def State.beginAll (s : State) : State :=
  if s.began = s.now + 1 then s else
  let is := (s.boundary.filter (fun i => decide ((s.islandAt i).cyc % 32 = 0))).inOrder (fun a b => decide (a ≤ b))
  is.foldl State.beginOn { s with began := s.now + 1 }

/-! ### Creation (R420, R429) -/

/-- A switch that is yet to begin destroys an owner (R179). -/
def State.going (s : State) (o : Nat) : Bool := s.toBegin.any (fun w => w.destroy && decide (w.outgoing = o))

/-- Two lists have no member in common. -/
def disjoint (xs ys : List Nat) : Bool := xs.all (fun x => !ys.contains x)

/-- The slots a record gives its owner in a structure's rota table. -/
def recTable (r : PartRec) (x : Shared) : List Nat := (r.tables.filter (fun p => decide (p.1 = x))).flatMap (fun p => p.2)

/-- A record's rota tables: links have 32 slots and one at least is the owner's; the other structures have at most 64 (R144, R391; DESIGN CHOICE, log 78). -/
def tablesOk (r : PartRec) : Bool :=
  decide (r.tables.map (fun p => p.1)).Nodup && r.tables.all (fun p => decide p.2.Nodup && p.2.all (fun i => decide (i < (if p.1 = .link then 32 else 64)))) &&
  decide (recTable r .link ≠ [])

/-- The dies of a record's cores. -/
def recDies (r : PartRec) : List Nat := (r.remap.map (fun p => dieOf p.2)).dedup

/-- The places at which a record's owner has a table of a structure: of links, on every die of its cores, on the die-to-die links when there is more
than one, on the scale-up ports when its network goes beyond the device, on the Bellwether ring (R391, R394, R405). -/
def tablePlaces (r : PartRec) (x : Shared) : List Nat :=
  if x ≠ .link then [0] else
  let dies := recDies r
  dies ++ (if 1 < dies.length then [4, 5, 6, 7] else []) ++ (if 1 < r.members.length then (List.range 18).map (fun i => 8 + i) else []) ++ [26]

/-- A record's links of their own: places at which it has slots, or mesh links of its dies, with at least one slot of the 32; and queues of its dies
with at least two buffers (R391). -/
def linksOk (r : PartRec) : Bool :=
  decide (2 ≤ r.linkBufs) && r.queueBufs.all (fun p => decide (2 ≤ p.2) && (recDies r).contains (p.1 / 2048)) &&
  r.linkSlots.all (fun p => decide (p.2 ≠ []) && decide p.2.Nodup && p.2.all (fun i => decide (i < 32)) &&
    (if p.1 < 64 then decide (4 ≤ p.1) && (tablePlaces r .link).contains p.1 else (recDies r).contains ((p.1 - 64) / 1024)))

/-- The keys of the slots that a record's tables name: of a link by the link's own list where there is one. -/
def tableKeys (r : PartRec) : List Nat :=
  r.tables.flatMap (fun p => ((tablePlaces r p.1).filter (fun a => !(decide (p.1 = .link) && (mapFind r.linkSlots a).isSome))).flatMap (fun a => p.2.map (fun i => tableKey p.1 a i)))
    ++ r.linkSlots.flatMap (fun p => p.2.map (fun i => tableKey .link p.1 i))

/-- A slot of a mesh link with a list of its own is no other owner's, by that owner's own list or by the one it has for the die (R391). -/
def State.meshFree (s : State) (r : PartRec) : Bool :=
  r.linkSlots.all (fun p => decide (p.1 < 64) || p.2.all (fun i => let o := s.tableOwner .link ((p.1 - 64) / 1024) i; decide (o = 62) || s.going o || s.ownSlots o p.1)) &&
  s.tables.all (fun e =>
    let place := e.1 / 512
    decide (place < 64) || decide (e.1 / 64 % 8 ≠ 0) || s.going e.2 || !(recDies r).contains ((place - 64) / 1024) || !(recTable r .link).contains (e.1 % 64) || (mapFind r.linkSlots place).isSome)

/-- The record is whole and within its limits (R143, R293, R391, R420, R427, R429). (DEDUCED, log 26) -/
def recWellFormed (r : PartRec) : Bool :=
  (match r.kind with
    | .isolated => decide (r.owner < 32)
    | .elastic => decide (32 ≤ r.owner) && decide (r.owner < 48)
    | .sys => decide (r.owner = 63)) &&
  decide r.cores.Nodup && r.cores.all (fun c => decide (c < 512)) &&
  decide (r.remap.map (fun p => p.1) = r.cores) && decide (r.remap.map (fun p => p.2)).Nodup && r.remap.all (fun p => decide (p.2 < 512)) &&
  r.cores.all (fun c => (r.shares.filter (fun x => decide (x.core = c))).length = 1 && (List.range 8).all (fun l => (r.lanes.filter (fun x => decide (x.core = c) && decide (x.lane = l))).length = 1)) &&
  r.lanes.all (fun x => r.cores.contains x.core && decide (x.lane < 8) && decide x.slots.Nodup && x.slots.all (fun i => decide (i < 8)) && decide (x.ctxMask < 4096)) &&
  r.shares.all (fun x => r.cores.contains x.core && decide (x.scratchBase % 64 = 0) && decide (x.scratchLen % 64 = 0) && decide (x.scratchBase + x.scratchLen ≤ 524288)
    && decide (x.obufFirst + x.obufCount ≤ 512) && decide (x.scaleFirst + x.scaleCount ≤ 512) && decide (x.accFirst + x.accCount ≤ 32) && decide (x.l1Ways < 65536)) &&
  r.l2Ways.all (fun p => decide (p.1 < 128) && decide (p.2 < 65536)) &&
  r.vaults.all (fun v => (List.range 8).all (fun c => (mapFind r.l2Ways (quadrantOf v * 8 + c)).isSome)) &&
  decide (4096 ≤ r.budget) && decide (r.budget ≤ 262143) && decide (256 ≤ r.drain) && decide (r.drain ≤ 8191) && decide (65536 ≤ r.swapT) && decide (r.swapT ≤ 2 ^ 24) &&
  decide (r.root % 65536 = 0) && decide r.vaults.Nodup && decide (r.vaults.inOrder (fun a b => decide (a ≤ b)) = r.vaults) && r.vaults.all (fun v => decide (v < 512)) && decide (r.stripeLen % 2048 = 0) &&
  r.vaults.all (fun v => match mapFind r.stripes v with
    | none => false
    | some b => decide (b % 2048 = 0) && decide (b + r.stripeLen ≤ 0x59680000)) &&
  decide r.drover.Nodup && r.drover.all (fun i => decide (i < 64)) && tablesOk r && linksOk r && r.quotas.all (fun p => decide (p.1 < 32))

/-- A record's lanes by physical core. -/
def recLanes (r : PartRec) : List (Nat × LaneShare) := r.lanes.map (fun x => (mapGet x.core r.remap x.core, x))

/-- No share of a record overlaps one of another owner's record on the same structure. -/
def recApart (r : PartRec) (phys : Nat → Nat) (lanes : FMap (Nat × Nat)) (x : PartRec) : Bool :=
  r.shares.all (fun a => x.shares.all (fun b => decide (mapGet a.core r.remap a.core ≠ phys b.core) || !clashes a b)) &&
  (recLanes r).all (fun a => x.lanes.all (fun b => decide (a.1 ≠ phys b.core) || decide (a.2.lane ≠ b.lane) || decide (a.2.ctxMask &&& (mapGet (0, 0) lanes (b.core * 8 + b.lane)).2 = 0))) &&
  r.l2Ways.all (fun p => decide (p.2 &&& mapGet 0 x.l2Ways p.1 = 0)) && disjoint r.drover x.drover &&
  r.vaults.all (fun v => !x.vaults.contains v || !meets (mapGet 0 r.stripes v) r.stripeLen (mapGet 0 x.stripes v) x.stripeLen)

/-- A new isolated owner is the holder of an island (R363): it has a core there and no other owner that stays has a position. -/
def State.aloneOn (s : State) (r : PartRec) (i : Nat) : Bool :=
  r.remap.any (fun p => decide (islandOf p.2 = i)) && s.liveOwners.all (fun o => decide (o = 63) || s.going o || !s.onIsland o i)

/-- A slot can come to a new owner: it is free, or a switch yet to begin is to bring it, or one returns it whole to the free pool from an owner that
has gone (R155, R179). -/
def State.slotFree (s : State) (r : PartRec) (core lane slot : Nat) (all_ : List Nat) : Bool :=
  (decide (s.slotOwner core lane slot = 62) && !s.inSwitch core lane slot) ||
  s.toBegin.any (fun w => decide (w.core = core) && decide (w.lane = lane) && w.slots.contains slot &&
    (decide (w.incoming = r.owner) || (decide (w.incoming = 62) && !(s.ownerAt w.outgoing).live && w.slots.all (fun i => all_.contains i))))

/-- The joules of the quotas that a record's owner gains by its creation (R359, R363). -/
def State.newQuotas (s : State) (r : PartRec) : Nat :=
  ((r.quotas.filter (fun p => if r.kind = .elastic then (recLanes r).any (fun a => decide (islandOf a.1 = p.1) && decide (a.2.slots ≠ [])) else s.aloneOn r p.1)).map
    (fun p => p.2)).sum

/-- A record fits beside the live owners that do not go: shares, quotas, rota tables, striped frames (R359, R391, R429). -/
def State.fits (s : State) (r : PartRec) : Bool :=
  s.liveOwners.all (fun o => s.going o || (match s.part o with
    | none => true
    | some x => recApart r (s.phys o) (s.ownerAt o).lanes x)) &&
  (tableKeys r).all (fun k => let o := mapGet 62 s.tables k; decide (o = 62) || s.going o) && s.meshFree r &&
  decide (s.quotaSum + s.newQuotas r ≤ 32000) &&
  r.vaults.all (fun v => !s.frames.any (fun p => decide (p.1 / 32768 = v) && meets (p.1 % 32768 * 65536) 65536 (mapGet 0 r.stripes v) r.stripeLen)) &&
  (recLanes r).all (fun a => a.2.slots.all (fun i => s.slotFree r a.1 a.2.lane i a.2.slots)) &&
  s.frameFree r (r.root / 65536)

/-- An owner as its record makes it: retired lanes, pointers and counts at their first values (R13, R152, R292, R413). (DESIGN CHOICE, log 16) -/
def ownerOf (r : PartRec) (key : BitVec 256) (off : List (Nat × Nat)) (alone : Nat → Bool) : Owner :=
  { live := true, part := some r, lqGranted := true, key := key, colsOff := off
    lanes := r.lanes.foldl (fun m x => mapSet (0, 0) m (x.core * 8 + x.lane) (0, x.ctxMask)) []
    remap := r.remap.foldl (fun m p => mapPut m p.1 p.2) []
    heldOn := (List.range 32).map (fun i => (i, true))
    quotas := if r.kind = .elastic then [] else (r.quotas.filter (fun p => alone p.1)).foldl (fun m p => mapPut m p.1 { joules := p.2 }) [] }

/-- The owner exists: its root table is an empty frame of its own, its key is drawn, its measurement is that of its record. -/
def State.enrol (s : State) (r : PartRec) : State :=
  let s := s.clearShares (r.shares.map (fun x => (mapGet x.core r.remap x.core, x))) []
  let s := { s with owners := mapPut s.owners r.owner (ownerOf r (Config.random s.openTick) s.columnsOff (s.aloneOn r)), openTick := s.openTick + 1
                    tables := (tableKeys r).foldl (fun m k => mapPut m k r.owner) s.tables
                    fabric := s.fabric.without r.owner
                    spdm := if r.owner < 48 then { s.spdm with measurements := mapPut s.spdm.measurements (16 + r.owner) (Config.recordDigest r) } else s.spdm }
  (s.takeFrame r.owner (r.root / 65536)).putPage r.owner r.root (List.replicate 65536 0#8)

/-- The switches that bring a new owner its slots from the free pool: those that no switch yet to begin brings. -/
def State.arrivals (s : State) (r : PartRec) : List SwitchSpec :=
  ((recLanes r).map (fun a => (⟨a.1, a.2.lane, a.2.slots.filter (fun i => !s.toBegin.any (fun w => decide (w.core = a.1) && decide (w.lane = a.2.lane) && w.slots.contains i)), 62, r.owner, false⟩ :
    SwitchSpec))).filter (fun w => decide (w.slots ≠ []))

/-- A switch that returns slots of an owner that has gone brings them to a new owner whose record names them (R179). -/
def State.redirected (s : State) (r : PartRec) (w : SwitchSpec) : SwitchSpec :=
  if w.incoming = 62 ∧ !(s.ownerAt w.outgoing).live ∧ (recLanes r).any (fun a => decide (a.1 = w.core) && decide (a.2.lane = w.lane) && w.slots.all (fun i => a.2.slots.contains i)) then
    { w with incoming := r.owner } else w

/-- The new owner is held until every switch that brings it slots has ended (R155, R179). -/
def State.holdNew (s : State) (o : Nat) : State :=
  s.toBegin.foldl (fun s w => if w.incoming = o then s.hold o (.switch w.core w.lane (slotMask w.slots)) else s) s

/-- PARTITION_CREATE (R155, R179, R420, R429): the owner is created, and its slots come to it by switches; a refused record changes nothing. -/
def execPartitionCreate (r : PartRec) (s : State) : Res :=
  .next (if !s.powered || (s.ownerAt r.owner).live || decide (r.kind = .sys) || !recWellFormed r || !s.fits r then s
    else
      let next := s.toBegin.map (s.redirected r) ++ s.arrivals r
      State.holdNew { s.enrol r with toBegin := next } r.owner)

/-- PARTITION_DESTROY (R199, R420). -/
def execPartitionDestroy (o : Nat) (s : State) : Res := .next (s.destroy o)

/-! ### Border moves (R157, R420, R429) -/

/-- The record a border move would give, on the cores where the owner stands now, is within the limits of R429 and overlaps no other owner's. -/
def State.sharesOk (s : State) (b : BorderSpec) : Bool :=
  match s.part b.owner, s.logicalOn b.owner b.core with
  | some r, some c =>
    let x := { borderRecord b c r with remap := r.cores.map (fun c => (c, s.phys b.owner c)) }
    recWellFormed x && s.liveOwners.all (fun o => decide (o = b.owner) || (match s.part o with
      | none => true
      | some y => recApart x (s.phys o) (s.ownerAt o).lanes y))
  | _, _ => false

/-- The owner has a workgroup that has not completed. -/
def State.atWork (s : State) (o : Nat) : Bool := s.wgs.any (fun p => decide (p.2.owner = o) && p.2.live && !p.2.done)

/-- The move brings an elastic context towards its service target: below it the context gains, above it, or with no workgroup at work, it gives up
(R420; DESIGN CHOICE, log 87). -/
def State.towardsTarget (s : State) (b : BorderSpec) : Bool :=
  match s.part b.owner with
  | none => false
  | some r =>
    let n := (s.ownerAt b.owner).doneRate s.now
    if b.gain then decide (n < r.target) else decide (r.target < n) || !s.atWork b.owner

/-- R157, R359, R420 and R429 allow a border move. -/
def State.borderOk (s : State) (b : BorderSpec) : Bool :=
  let w := s.borderAsSwitch b
  let switching := (s.switches.map (fun x => x.1) ++ s.toBegin).any (fun w => decide (w.core = b.core) && decide (w.lane = b.lane) && w.slots.any (fun i => b.slots.contains i))
  let asked := s.borders.any (fun x => decide (x.gain = b.gain) && decide (x.core = b.core) && decide (x.lane = b.lane) && x.slots.any (fun i => b.slots.contains i))
  s.elastic b.owner && (!b.gain || decide (w.outgoing = 62) || s.elastic w.outgoing) && s.switchOk w && !switching && !asked && s.towardsTarget b && s.sharesOk b &&
  decide (State.quotaSum { s with borders := s.borders ++ [b] } ≤ 32000)

/-- BORDER_MOVE (R157): it waits for a workgroup completion of the context, and then goes through a switch that begins at the next period boundary;
a context that has no workgroup moves at once, when its slots are free (DESIGN CHOICE, log 75). -/
def execBorderMove (w : BorderSpec) (s : State) : Res :=
  .next (if !s.borderOk w then s else
    let s := { s with borders := s.borders ++ [w] }
    if s.atWork w.owner then s else s.startBorders w.owner)

/-! ### The end of a switch -/

/-- The incoming owner takes the slots: an isolated owner that has all its record gives it on the lane is no longer pre-empted there (R156). -/
def State.takeSlots (s : State) (w : SwitchSpec) : State :=
  match s.slotHome w.incoming w.core w.lane w.slots with
  | none => s
  | some c =>
    let k := c * 8 + w.lane
    let old := mapGet (0, 0) (s.ownerAt w.incoming).lanes k
    let has_ := old.1 ||| slotMask w.slots
    let s := s.modOwner w.incoming (fun x => { x with lanes := mapSet (0, 0) x.lanes k (has_, old.2) })
    let s := if has_ = s.recSlots w.incoming c w.lane then s.unhold w.incoming (.preempted c w.lane) else s
    let s := match s.borderOf w with
      | none => s
      | some b => { s.giveShares b with bordering := s.bordering.filter (fun x => decide (x.1 ≠ w)) }
    (s.bringBack w.incoming c w.lane).gainQuota w.incoming (islandOf w.core)

/-- Border moves of contexts with no workgroup at work go on where their slots have come free. -/
def State.idleBorders (s : State) : State := s.borders.foldl (fun s b => if s.atWork b.owner then s else s.startBorders b.owner) s

/-- SWITCH_END (R155, R179): the incoming owner holds the slots, its groups are restored, and both owners go on. Slots meant for an owner that has
gone meanwhile are free. -/
def execSwitchEnd (w : SwitchSpec) (s : State) : Res :=
  .next (if !s.switches.any (fun x => decide (x.1 = w)) then s else
    let s := { s with switches := s.switches.filter (fun x => decide (x.1 ≠ w)) }
    let there := (s.ownerAt w.incoming).live
    let s := s.setSlots w.core w.lane w.slots (if there then w.incoming else 62)
    ((if there then s.takeSlots w else s).unholdBoth w).idleBorders)

end Sys2Proof.Machine
end

