-- ==== Sys2Proof/Machine/Context.lean ====
section
/-! DEFINITION. The context operations of SYS, major 0x76, and the images they write and read (R350 to R355, R382, R383). -/

namespace Sys2Proof.Machine

/-! ### The context image of a group (R351) -/

def zeros (n : Nat) : List Byte := List.replicate n 0#8

def TState.code : TState → Nat
  | .running => 0
  | .parked => 1
  | .joined _ => 2
  | .ended => 3

def TState.reg : TState → Nat
  | .joined k => k.toNat
  | .running | .parked | .ended => 0

/-- Loop registers: ls0 to ls3, le0 to le3, lc0 to lc3. -/
def loopBytes (m : FMap LoopReg) : List Byte :=
  let l (k : Nat) : LoopReg := mapGet {} m k
  (List.range 4).flatMap (fun k => leBytes 8 (l k).ls.toNat) ++ (List.range 4).flatMap (fun k => leBytes 8 (l k).le.toNat)
    ++ (List.range 4).flatMap (fun k => leBytes 4 (l k).lc.toNat)

/-- The pending records in the order of the image. -/
def recordOrder : List Nat := [causeArithmetic, causeIntegrity, causeHardware, causeEngine, causeNetwork, causeLease]

def PendRec.bytes (r : PendRec) : List Byte := leBytes 4 r.a.toNat ++ leBytes 4 r.b.toNat ++ leBytes 4 r.c.toNat ++ leBytes 4 r.mask.toNat

def bitsByte (xs : List Bool) : Nat := (xs.zipIdx).foldl (fun n p => if p.1 then n + 2 ^ p.2 else n) 0

/-- The recency rank of a group among its owner's on the lane. -/
def State.rank351 (s : State) (g : Group) : Nat :=
  if g.lastIssue = 0 then 0xFF
  else (s.groups.filter (fun p => (p.2.live || p.2.away) && !p.2.isEnded && decide (p.2.owner = g.owner) && decide (p.2.core = g.core) && decide (p.2.lane = g.lane)
    && decide (0 < p.2.lastIssue) && decide (p.2.lastIssue < g.lastIssue))).length

def Group.threadBytes (g : Group) (t : Nat) : List Byte :=
  let x := g.thread t
  let f : Thread := mapGet {} g.frame.threads t
  leBytes 8 x.resume.toNat ++ leBytes 8 f.resume.toNat ++ leBytes 1 x.st.code ++ leBytes 1 x.st.reg ++ leBytes 1 f.st.code ++ leBytes 1 f.st.reg
    ++ leBytes 1 (bitsByte ((List.range 7).map (fun i => (mapGet 0#32 g.p i).getLsbD t))) ++ leBytes 1 (if x.trig then 1 else 0) ++ zeros 10

/-- The image of a group as it stands: a save completes its accesses, its tile operations and the reading of a record (R247, R270, R324, R350). -/
def State.groupImage (s : State) (gid : Nat) : List Byte :=
  let g := s.groupAt gid
  let l := s.launchAt g.launch
  let leased := (s.ownerAt g.owner).sprints.any (fun p => p.2.live && decide (p.2.gid = gid))
  let rec_ (c : Nat) : PendRec := mapGet {} g.pend c
  let remote := (g.outs.filter (fun o => decide (o.cls = .remote) && !(match mapFind s.nets o.op with
    | none => false
    | some e => e.post))).length
  leBytes 2 1 ++ leBytes 1 ((if g.trapMode then 1 else 0) + (if leased then 2 else 0)) ++ leBytes 1 g.owner
    ++ leBytes 1 (g.lane * 12 + g.ctx) ++ leBytes 1 g.index ++ leBytes 1 g.n ++ leBytes 1 g.frame.n
    ++ leBytes 8 g.pc.toNat ++ leBytes 8 g.trapPc.toNat ++ leBytes 4 g.flags.toNat ++ leBytes 4 g.flagArm.toNat
    ++ [g.tmask, g.tcause, g.tdetA, g.tdetB, g.tdetC].flatMap (fun w => leBytes 4 w.toNat)
    ++ [0, 0, g.count .copies, 0, remote].flatMap (fun n => leBytes 1 n)
    ++ leBytes 1 (g.waitSlot.getD 0xFF) ++ leBytes 2 g.batch ++ zeros 4 ++ loopBytes g.loops ++ loopBytes g.frame.loops
    ++ leBytes 1 g.q.toNat ++ zeros 31 ++ recordOrder.flatMap (fun c => (rec_ c).bytes)
    ++ leBytes 1 (bitsByte (recordOrder.map (fun c => (mapFind g.pend c).isSome))) ++ leBytes 1 (bitsByte (recordOrder.map (fun c => (rec_ c).lost))) ++ zeros 14
    ++ leBytes 8 g.randKey.toNat ++ leBytes 8 g.randCtr.toNat
    ++ (List.range 8).flatMap (fun k => let j : JoinReg := mapGet {} g.joins k
      leBytes 4 j.arrived.toNat ++ leBytes 4 j.expect.toNat ++ leBytes 1 (if j.armed then 1 else 0) ++ zeros 7)
    ++ (List.range 16).flatMap (fun b => leBytes 4 (g.waitedOn b).toNat)
    ++ (List.range 32).flatMap g.threadBytes
    ++ (List.range 64).flatMap (fun i => leBytes 4 (g.getG (BitVec.ofNat 6 i)).toNat)
    ++ leBytes 4 l.tag.toNat ++ leBytes 4 l.kernel ++ leBytes 8 l.entry.toNat ++ leBytes 8 ((l.handler.map (fun h => h.toNat)).getD 0)
    ++ leBytes 1 l.detlvl ++ leBytes 1 (s.rank351 g) ++ zeros 2 ++ leBytes 4 g.xchgN ++ leBytes 4 g.treeN ++ zeros 156
    ++ (List.range 64).flatMap (fun i => (List.range 32).flatMap (fun t => leBytes 4 (g.getV (BitVec.ofNat 6 i) t).toNat))


/-- Loop addresses of an image are addresses of words (R10, R17). -/
def loopsOk (b : List Byte) (o : Nat) : Bool :=
  (List.range 8).all (fun k => decide (num b (o + 8 * k) 8 < 2 ^ 56) && decide (num b (o + 8 * k) 8 % 4 = 0))

/-- The pending record of a cause with this detail: reserved bits are zero, and no field holds a reserved value (R6, R7, R338, R339, R341 to R343). -/
def pendOk (cause : Nat) (a b : Nat) : Bool :=
  if cause = causeArithmetic then decide (a < 256) && decide (a % 16 = 0)
  else if cause = causeEngine then decide (a < 4096) && decide (a / 16 % 16 = 0) && decide (a % 16 ≤ 10) && decide (a / 256 ≤ 8)
  else if cause = causeNetwork then decide (a < 65536) && decide (a / 16 % 16 = 0) && decide (a % 16 ≤ 3)
  else if cause = causeLease then decide (a / 64 % 1024 = 0) && decide (1 ≤ a / 16 % 4) && decide (a / 16 % 4 ≤ 2) && decide (a % 16 ≤ 1)
  else decide (a / 32 % 8 = 0) && decide (a % 4 ≤ 2) && (decide (cause = causeHardware) || decide (a / 4 % 8 = 0)) && decide (b % 32 = 0)

/-- Reserved bytes and the reserved bits of registers (R6) are zero, and fields within their ranges (R7, R351, R352). -/
def groupImageOk (b : List Byte) (owner ctx : Nat) : Bool :=
  decide (num b 0 2 = 1) && decide (num b 2 1 < 4) && decide (num b 3 1 = owner) && decide (num b 4 1 = ctx) && decide (num b 5 1 < 32) && decide (num b 6 1 ≤ 4)
    && decide (num b 7 1 ≤ 4) && decide (num b 8 8 < 2 ^ 56) && decide (num b 8 8 % 4 = 0) && (List.range 5).all (fun i => decide (num b (0x34 + i) 1 < 64))
    && (decide (num b 0x39 1 < 16) || decide (num b 0x39 1 = 0xFF)) && allZero ((b.drop 0x3C).take 4) && decide (num b 0xE0 1 < 128) && allZero ((b.drop 0xE1).take 31)
    && recordOrder.zipIdx.all (fun p => !(num b 0x160 1).testBit p.2 || pendOk p.1 (num b (0x100 + 16 * p.2) 4) (num b (0x104 + 16 * p.2) 4))
    && decide (num b 0x160 1 < 64) && decide (num b 0x161 1 < 64) && allZero ((b.drop 0x162).take 14)
    && (List.range 8).all (fun k => decide (num b (0x188 + 16 * k) 1 < 2) && allZero ((b.drop (0x189 + 16 * k)).take 7))
    && (List.range 32).all (fun t => let o := 0x240 + 32 * t
      decide (num b (o + 16) 1 < 4) && decide (num b (o + 17) 1 < 8) && decide (num b (o + 18) 1 < 4) && decide (num b (o + 19) 1 < 8) && decide (num b (o + 20) 1 < 128)
        && decide (num b (o + 21) 1 < 2) && decide (num b o 8 < 2 ^ 56) && decide (num b (o + 8) 8 < 2 ^ 56)
        && decide (num b o 8 % 4 = 0) && decide (num b (o + 8) 8 % 4 = 0) && allZero ((b.drop (o + 22)).take 10))
    && decide (num b 0x18 4 < 16) && decide (num b 0x1C 4 < 4) && decide (num b 0x24 4 &&& 0x71F = num b 0x24 4) && loopsOk b 0x40 && loopsOk b 0x90
    && (decide (num b 0x759 1 < 12) || decide (num b 0x759 1 = 0xFF)) && decide (num b 0x758 1 ≤ 2) && allZero ((b.drop 0x75A).take 2) && allZero ((b.drop 0x764).take 156)

def word (b : List Byte) (i : Nat) : Word := BitVec.ofNat 32 (num b i 4)
def stateOf (c k : Nat) : TState := [TState.running, .parked, .joined (BitVec.ofNat 3 k), .ended].getD c .ended

def loopsOf (b : List Byte) (o : Nat) : FMap LoopReg :=
  (List.range 4).foldl (fun m k => mapSet {} m k ⟨BitVec.ofNat 56 (num b (o + 8 * k) 8), BitVec.ofNat 56 (num b (o + 32 + 8 * k) 8), word b (o + 64 + 4 * k)⟩) []

/-- A group with the fields of an image; a barrier wait it restores was issued at the word before its PC. What is in flight stays the group's own, a lease
request and the number of its batches beyond the image's 16 bits among it (R267, R384). The wait slot and WAITED are the image's: see `recheckWait` for a
phase that has completed meanwhile. -/
def Group.fromImage (g : Group) (b : List Byte) : Group :=
  let thread (t : Nat) : Thread := let o := 0x240 + 32 * t
    ⟨stateOf (num b (o + 16) 1) (num b (o + 17) 1), BitVec.ofNat 56 (num b o 8), decide (num b (o + 21) 1 = 1)⟩
  let framed (t : Nat) : Thread := let o := 0x240 + 32 * t
    ⟨stateOf (num b (o + 18) 1) (num b (o + 19) 1), BitVec.ofNat 56 (num b (o + 8) 8), false⟩
  { g with
    pc := BitVec.ofNat 56 (num b 8 8), trapPc := BitVec.ofNat 64 (num b 0x10 8), flags := word b 0x18, flagArm := word b 0x1C
    tmask := word b 0x20, tcause := word b 0x24, tdetA := word b 0x28, tdetB := word b 0x2C, tdetC := word b 0x30
    trapMode := decide (num b 2 1 % 2 = 1), noResume := (word b 0x24).getLsbD 9, n := num b 6 1, loops := loopsOf b 0x40
    waitSlot := if num b 0x39 1 = 0xFF then none else some (num b 0x39 1), batch := g.batch / 65536 * 65536 + num b 0x3A 2
    frame := ⟨(List.range 32).foldl (fun m t => mapSet {} m t (framed t)) [], num b 7 1, loopsOf b 0x90,
      if g.trapMode then g.frame.first else [word b 0x24, word b 0x28, word b 0x2C, word b 0x30]⟩
    q := BitVec.ofNat 7 (num b 0xE0 1)
    pend := (recordOrder.zipIdx).foldl (fun m p => let o := 0x100 + 16 * p.2
      if (num b 0x160 1).testBit p.2 then mapPut m p.1 { a := word b o, b := word b (o + 4), c := word b (o + 8), mask := word b (o + 12), lost := (num b 0x161 1).testBit p.2 } else m) []
    randKey := BitVec.ofNat 64 (num b 0x170 8), randCtr := BitVec.ofNat 64 (num b 0x178 8)
    joins := (List.range 8).foldl (fun m k => let o := 0x180 + 16 * k
      mapSet {} m k ⟨decide (num b (o + 8) 1 = 1), word b (o + 4), word b o⟩) []
    waited := (List.range 16).foldl (fun m i => mapSet 0#32 m i (word b (0x200 + 4 * i))) []
    threads := (List.range 32).foldl (fun m t => mapSet {} m t (thread t)) []
    p := (List.range 7).foldl (fun m i => mapSet 0#32 m i (maskOf (fun t => (num b (0x254 + 32 * t) 1).testBit i))) []
    g := (List.range 64).foldl (fun m i => mapSet 0#32 m i (word b (0x640 + 4 * i))) []
    v := (List.range 2048).foldl (fun m i => mapSet 0#32 m i (word b (0x800 + 4 * i))) []
    xchgN := num b 0x75C 4, treeN := num b 0x760 4, hint := none
    barMark := ⟨BitVec.ofNat 56 (num b 8 8) - 4#56, num b 6 1, loopsOf b 0x40⟩ }

/-! ### The image of a workgroup (R352) -/

/-- The 96 bits of a barrier (R238). -/
def Barrier.bytes (x : Barrier) : List Byte :=
  leBytes 4 (x.engines.toNat + 64 * x.arrived.toNat + 4096 * x.expect.toNat + (if x.latched then 2 ^ 18 else 0)) ++ leBytes 4 x.pending.toNat ++ leBytes 4 x.phase.toNat ++ zeros 4

def barrierOf (old : Barrier) (b : List Byte) (o : Nat) : Barrier :=
  let w := num b o 4
  { old with engines := BitVec.ofNat 6 w, arrived := BitVec.ofNat 6 (w / 64), expect := BitVec.ofNat 6 (w / 4096), latched := w.testBit 18, pending := word b (o + 4), phase := word b (o + 8) }

/-- A reservation record (R258). -/
def Rsv.bytes (r : Rsv) : List Byte :=
  leBytes 8 ((if r.valid then 1 else 0) + 2 ^ 4 * r.fmt.toNat + 2 ^ 9 * r.blen.toNat + 2 ^ 15 * r.offset.toNat + 2 ^ 24 * r.length.toNat + 2 ^ 34 * r.scaleOff.toNat)

def rsvOf (b : List Byte) (o : Nat) : Rsv :=
  let w := num b o 8
  ⟨BitVec.ofNat 14 (w / 2 ^ 34), BitVec.ofNat 10 (w / 2 ^ 24), BitVec.ofNat 9 (w / 2 ^ 15), BitVec.ofNat 6 (w / 2 ^ 9), BitVec.ofNat 5 (w / 2 ^ 4), w.testBit 0⟩

/-- A tensor slot (R69). -/
def Trec.bytes (r : Trec) : List Byte :=
  leBytes 8 r.base.toNat ++ leBytes 1 r.fmt ++ leBytes 1 r.rank ++ zeros 2 ++ leBytes 2 r.rows ++ leBytes 2 r.cols
    ++ (List.range 4).flatMap (fun i => leBytes 4 (r.dims.getD i 0#32).toNat) ++ (List.range 4).flatMap (fun i => leBytes 8 (r.strides.getD i 0#64).toNat)

/-- Operation codes of a commit entry: 0 a store, else 1 + the operation's place among those of majors 0x5B and 0x5C (DESIGN CHOICE, log 34). -/
def AtomOp.commitCode : AtomOp → Nat
  | .addN32 => 1
  | .addN64 => 2
  | .minI32 => 3
  | .maxI32 => 4
  | .minN32 => 5
  | .maxN32 => 6
  | .or => 7
  | .and => 8
  | .exchB32 => 9
  | .casB32 => 10
  | .exchB64 => 11
  | .casB64 => 12
  | .addF32 => 13
  | .minF32 => 14
  | .maxF32 => 15

def commitOp (c : Nat) : Option AtomOp :=
  [none, some .addN32, some .addN64, some .minI32, some .maxI32, some .minN32, some .maxN32, some .or, some .and, some .exchB32, some .casB32, some .exchB64, some .casB64,
    some .addF32, some .minF32, some .maxF32].getD c none

def CommitEntry.bytes (e : CommitEntry) : List Byte :=
  leBytes 8 e.addr ++ (e.value ++ zeros 8).take 8 ++ leBytes 1 ((e.op.map AtomOp.commitCode).getD 0) ++ leBytes 1 e.value.length ++ leBytes 1 e.group ++ zeros 5

def commitOf (b : List Byte) (o n : Nat) : CommitEntry :=
  ⟨num b o 8, (b.drop (o + 8)).take (num b (o + 17) 1), commitOp (num b (o + 16) 1), num b (o + 18) 1, n⟩

/-- The pieces of core-wide state in the order of R352, as tables with their first keys and sizes in bytes. -/
structure CorePart where
  acc : Nat × Nat
  obuf : List (Nat × Nat)
  scale : List (Nat × Nat)
  scratch : Nat × Nat
  deriving DecidableEq, Repr

def CorePart.size (p : CorePart) : Nat := 4 * p.acc.2 + (p.obuf.map (fun x => x.2)).sum + (p.scale.map (fun x => x.2)).sum + p.scratch.2

/-- Scale units of a reservation: those that hold its pairs. -/
def Rsv.scaleUnits (r : Rsv) : Nat × Nat :=
  match opFmtOf r.fmt.toNat with
  | some f => if f.isDx ∧ r.blocks f ≠ 0 then
      let first := r.scaleOff.toNat * 2 / 64
      (first, (r.scaleOff.toNat * 2 + 2 * r.blocks f - 1) / 64 + 1 - first) else (0, 0)
  | none => (0, 0)

/-- Where the core-wide state of a workgroup stands on physical core c. -/
def State.corePart (s : State) (wg c : Nat) (rsvs : List Rsv) : CorePart :=
  let w := s.wgAt wg
  match s.shareOf w.owner w.core with
  | none => ⟨(0, 0), [], [], (0, 0)⟩
  | some sh =>
    let vs := rsvs.filter (fun r => r.valid)
    { acc := (accKey c sh.accFirst 0 0, 1024 * sh.accCount)
      obuf := vs.map (fun r => (c * 262144 + (sh.obufFirst + r.offset.toNat) * 512, 512 * r.length.toNat))
      scale := vs.map (fun r => (c * 32768 + 64 * (sh.scaleFirst + r.scaleUnits.1), 64 * r.scaleUnits.2))
      scratch := if w.scratch = 0 then (0, 0) else (scrKey c sh.scratchBase, w.scratch + 128) }

/-- The reservation records with every result written (R119). -/
def State.rsvs (s : State) (wg : Nat) : List Rsv := (List.range 16).map (fun k => mapGet {} s.rsv (slotKey wg k))

def tableBytes (m : FMap Byte) (x : Nat × Nat) : List Byte := (List.range x.2).map (fun i => mapGet 0#8 m (x.1 + i))

/-- The image of a workgroup whose state stands on physical core c. -/
def State.wgImage (s : State) (wg c : Nat) : List Byte :=
  let w := s.wgAt wg
  let p := s.corePart wg c (s.rsvs wg)
  leBytes 2 1 ++ leBytes 1 w.groups.length ++ leBytes 1 (if w.guard.isSome then 1 else 0) ++ leBytes 4 w.core ++ leBytes 4 w.index ++ leBytes 4 w.scratch
    ++ (match w.guard with
      | none => zeros 16
      | some r => leBytes 1 r.bank ++ leBytes 1 r.kind ++ zeros 2 ++ leBytes 8 r.addr.toNat ++ zeros 4)
    ++ leBytes 1 w.own.length ++ zeros 31 ++ (List.range 16).flatMap (fun b => (w.bar b).bytes) ++ (s.rsvs wg).flatMap Rsv.bytes ++ zeros 64
    ++ (List.range 16).flatMap (fun k => (mapGet ({} : Trec) s.trec (slotKey wg k)).bytes)
    ++ ((w.own.flatMap (fun r => leBytes 8 r.start ++ leBytes 4 r.lines ++ leBytes 1 (if r.give then 1 else 0) ++ zeros 3)) ++ zeros 1024).take 1024
    ++ leBytes 4 w.commit.length ++ zeros 60 ++ ((w.commit.flatMap CommitEntry.bytes) ++ zeros 196608).take 196608
    ++ (List.range p.acc.2).flatMap (fun i => leBytes 4 (mapGet 0#32 s.acc (p.acc.1 + i)).toNat)
    ++ p.obuf.flatMap (tableBytes s.obuf) ++ p.scale.flatMap (tableBytes s.scale) ++ tableBytes s.scratch p.scratch

/-- Codes of an operand's or a tensor's format (R37, R69). -/
def fmtCode (c : Nat) : Bool := decide (c ≤ 12) || decide (16 ≤ c) && decide (c ≤ 18)

/-- The fixed part of an image is in order, for this workgroup: reserved bytes and fields are zero and fields within their ranges (R7, R238, R258,
R337, R352). -/
def wgImageOk (b : List Byte) (w : Workgroup) : Bool :=
  decide (num b 0 2 = 1) && decide (num b 2 1 = w.groups.length) && decide (num b 3 1 < 2) && decide (num b 4 4 = w.core) && decide (num b 8 4 = w.index) && decide (num b 12 4 = w.scratch)
    && decide (num b 0x10 1 < 32) && (if num b 3 1 = 1 then decide (num b 0x11 1 ∈ [0, 1, 3]) else decide (num b 0x11 1 ≤ 5)) && allZero ((b.drop 0x12).take 2) && allZero ((b.drop 0x1C).take 4) && decide (num b 0x20 1 ≤ 64) && allZero ((b.drop 0x21).take 31)
    && (List.range 16).all (fun k => decide (num b (0x40 + 16 * k) 4 < 2 ^ 19) && allZero ((b.drop (0x4C + 16 * k)).take 4))
    && (List.range 16).all (fun k => decide (num b (0x140 + 8 * k) 8 < 2 ^ 48) && decide (num b (0x140 + 8 * k) 8 / 2 % 8 = 0) && fmtCode (num b (0x140 + 8 * k) 8 / 16 % 32)) && allZero ((b.drop 0x1C0).take 64)
    && (List.range 16).all (fun k => decide (num b (0x209 + 64 * k) 1 ≤ 4) && fmtCode (num b (0x208 + 64 * k) 1) && allZero ((b.drop (0x20A + 64 * k)).take 2))
    && (List.range 64).all (fun k => decide (num b (0x60C + 16 * k) 1 < 2) && allZero ((b.drop (0x60D + 16 * k)).take 3))
    && decide (num b 0xA00 4 ≤ 8192) && allZero ((b.drop 0xA04).take 60)
    && (List.range (num b 0xA00 4)).all (fun k => let o := 0xA40 + 24 * k
      decide (num b (o + 16) 1 < 16) && decide (num b (o + 17) 1 ∈ [1, 2, 4, 8]) && decide (num b (o + 18) 1 < 32))
    && (List.range 8192).all (fun k => allZero ((b.drop (0xA53 + 24 * k)).take 5))

def putTable (m : FMap Byte) (x : Nat × Nat) (bs : List Byte) : FMap Byte := putBytes m x.1 (bs.take x.2)

/-- Byte pieces of a table written one after another: what is left of the image. -/
def putPieces (m : FMap Byte) (xs : List (Nat × Nat)) (bs : List Byte) : FMap Byte × List Byte :=
  xs.foldl (fun r x => (putTable r.1 x r.2, r.2.drop x.2)) (m, bs)

/-- The sectors of core-wide state: of the slice, the operand buffer and the accumulators. -/
def CorePart.sectors (p : CorePart) (c : Nat) : List Nat :=
  (sectorsOf p.scratch.1 p.scratch.2).map (fun k => 2 ^ 52 + k) ++ p.obuf.flatMap (fun x => (sectorsOf (x.1 - c * 262144) x.2).map (obufSector c))
    ++ (List.range (p.acc.2 / 8)).map (fun i => accSector p.acc.1 + i)

/-- Restore a workgroup's core-wide state on physical core c from an image; what is written gets new check values (R200). -/
def State.putWgImage (s : State) (wg c : Nat) (b : List Byte) : State :=
  let rs := (List.range 16).map (fun k => rsvOf b (0x140 + 8 * k))
  let p := s.corePart wg c rs
  let rest := b.drop 0x30A40
  let (obuf, r1) := putPieces s.obuf p.obuf (rest.drop (4 * p.acc.2))
  let (scale, r2) := putPieces s.scale p.scale r1
  let s := s.modWg wg (fun w => { w with
    barriers := (List.range 16).foldl (fun m k => mapSet {} m k (barrierOf (mapGet {} m k) b (0x40 + 16 * k))) w.barriers
    guard := if num b 3 1 = 0 then none else some ⟨num b 0x10 1, num b 0x11 1, BitVec.ofNat 64 (num b 0x14 8), (w.guard.map (fun r => r.got)).getD []⟩
    own := (List.range (num b 0x20 1)).map (fun i => let o := 0x600 + 16 * i; ⟨num b o 8, num b (o + 8) 4, decide (num b (o + 12) 1 = 1)⟩)
    commit := (List.range (num b 0xA00 4)).map (fun i => commitOf b (0xA40 + 24 * i) i) })
  State.freshSectors { s with
    rsv := (rs.zipIdx).foldl (fun m x => mapSet {} m (slotKey wg x.2) x.1) s.rsv
    rsvOld := s.rsvOld.filter (fun p => decide (p.1 / 16 ≠ wg))
    trecOld := s.trecOld.filter (fun p => decide (p.1 / 16 ≠ wg))
    trec := (List.range 16).foldl (fun m k => if num b (0x209 + 64 * k) 1 = 0 then mapErase m (slotKey wg k) else mapPut m (slotKey wg k) (trecOf (b.drop (0x200 + 64 * k)))) s.trec
    acc := (List.range p.acc.2).foldl (fun m i => mapSet 0#32 m (p.acc.1 + i) (word rest (4 * i))) s.acc
    obuf := obuf
    scale := scale
    scratch := putTable s.scratch p.scratch r2 } (p.sectors c)

/-! ### The operations (R383) -/

/-- The descriptor of R382. -/
structure CtxDesc where
  wg : Nat
  core : Nat
  ctx : Nat
  logical : Nat
  owner : Nat
  deriving DecidableEq, Repr

def ctxDesc (x : Dword) : CtxDesc :=
  ⟨(x.extractLsb' 32 32).toNat, (x.extractLsb' 23 9).toNat, (x.extractLsb' 16 7).toNat, (x.extractLsb' 6 10).toNat, (x.extractLsb' 0 6).toNat⟩

/-- The workgroup a descriptor names: the oldest of its index on its core. -/
def State.ctxWg (s : State) (d : CtxDesc) : Option Nat :=
  (s.wgs.find? (fun p => p.2.live && !p.2.done && decide (p.2.owner = d.owner) && decide (s.phys d.owner p.2.core = d.core) && decide (p.2.index = d.wg))).map (fun p => p.1)

/-- The group a descriptor names; one that is swapped out stands in no context (R293). -/
def State.ctxGroup (s : State) (d : CtxDesc) : Option Nat :=
  (s.groups.find? (fun p => (p.2.live || p.2.away) && !p.2.isEnded && (mapFind s.swapped p.2.wg).isNone && decide (p.2.owner = d.owner) && decide (s.phys d.owner p.2.core = d.core)
    && decide (p.2.lane * 12 + p.2.ctx = d.ctx) && decide ((s.wgAt p.2.wg).index = d.wg))).map (fun p => p.1)

/-- The cycles an operation takes when it is done. -/
def ctxTime (fn : Nat) : Nat := if fn = 2 ∨ fn = 3 then 65536 else 2048

/-- The operation saves a group in the first half of a switch of its lane that takes slots from its owner, or restores one in the second half of a
switch that brings them (R155). -/
def State.inHalf (s : State) (fn : Nat) (d : CtxDesc) : Bool :=
  let now := (s.islandAt (islandOf d.core)).cyc
  s.switches.any (fun x => decide (x.1.core = d.core) && decide (x.1.lane = d.ctx / 12) &&
    ((decide (fn = 0) && decide (x.1.outgoing = d.owner) && decide (x.2 ≤ now) && decide (now + 2048 ≤ x.2 + 2048)) ||
     (decide (fn = 1) && decide (x.1.incoming = d.owner) && decide (x.2 + 2048 ≤ now) && decide (now + 2048 ≤ x.2 + 4096))))

/-- The operation lies within a transfer of the core (R353), a remap within one of its logical core (R355). -/
def State.inTransfer (s : State) (fn : Nat) (d : CtxDesc) : Bool :=
  s.transfers.any (fun t => decide (t.owner = d.owner) && (decide (t.src = d.core) || decide (t.dst = d.core) || (decide (fn = 4) && decide (t.core = d.logical))) &&
    decide ((s.islandAt (islandOf t.src)).cyc + ctxTime fn ≤ t.start + 65536))

/-- A save or a restore of core-wide state is a transfer of its own, which begins here: its owner is held, and this is the first cycle of a lane-rota
period (R353; DEDUCED, log 25). -/
def State.ownTransfer (s : State) (fn : Nat) (d : CtxDesc) : Bool :=
  (decide (fn = 2) || decide (fn = 3)) && s.heldOn d.owner (islandOf d.core) && decide ((s.islandAt (islandOf d.core)).cyc % 32 = 0)

/-- The operation lies within the padding of R155 or R353, and so within a hold of its target. -/
def State.ctxInTime (s : State) (fn : Nat) (d : CtxDesc) : Bool := s.inHalf fn d || s.inTransfer fn d || s.ownTransfer fn d

/-- The bytes an operation's image takes; for a restored workgroup, as its image's own reservations give them. -/
def State.ctxSize (s : State) (fn : Nat) (d : CtxDesc) (rsvs : Nat → List Rsv) : Nat :=
  if fn < 2 then 10240 else match s.ctxWg d with
  | none => 0x30A40
  | some w => 0x30A40 + (s.corePart w d.core (rsvs w)).size

/-- The leaves of an image's 64-byte pieces for a group of SYS, under the leases of SYS. -/
def State.ctxLeaves (s : State) (g : Group) (a n : Nat) (w : Want) : Option (List Leaf) :=
  (List.range ((n + 63) / 64)).mapM (fun i => match s.translate (some g.core) (s.partLeases 63) 63 (a + 64 * i) 64 w with
    | .ok x => some x
    | .error _ => none)

/-- The bytes of those pieces as plain loads of the group read them. A failing sector is read as it stands (DESIGN CHOICE, log 79). -/
def State.leafRead (s : State) (g : Group) (ls : List Leaf) (n : Nat) : List Byte :=
  (ls.flatMap (fun x => (s.loadValue 63 g.core g.wg true (.mem x.pa) 64 (s.cycOf 63 (s.groupIsland g))).1)).take n

/-- An image's leaves and bytes as a restore reads them. -/
def State.ctxRead (s : State) (g : Group) (fn : Nat) (d : CtxDesc) (a : Nat) : Option (List Leaf × List Byte) :=
  match s.ctxLeaves g a (if fn < 2 then 10240 else 0x30A40) wantLoad with
  | none => none
  | some ls =>
    let b := s.leafRead g ls (if fn < 2 then 10240 else 0x30A40)
    if fn < 2 then some (ls, b) else
    let n := s.ctxSize fn d (fun _ => (List.range 16).map (fun k => rsvOf b (0x140 + 8 * k)))
    (s.ctxLeaves g a n wantLoad).map (fun ls => (ls, s.leafRead g ls n))

/-- What reading an image does to the caches and to the table entries on the way: that of plain loads, whose lines fill at their visible cycles (R184,
R191, R250). -/
def State.ctxFill (s : State) (g : Group) (ls : List Leaf) : State :=
  let fill (t : State) (pa : Nat) (cache : BitVec 2) : State :=
    t.schedule (.owner 63 (s.groupIsland g)) (s.win + s.memHorizon 63 g.core pa) (.prefetchFill 63 g.core (pa / 128) cache)
  ls.foldl (fun t x =>
    let t := x.path.foldl (fun t a => fill t a 3#2) (t.markLeaf x)
    if (s.l1Line 63 g.core x.pa).isSome then t else fill t x.pa 0#2) s

/-- The live launch an image names by its tag. -/
def State.imageLaunch (s : State) (o : Nat) (b : List Byte) : Option Nat :=
  ((s.launches.filter (fun p => decide (p.2.owner = o) && decide (p.2.stage ≠ .done) && decide (p.2.tag = word b 0x740))).getLast?).map (fun p => p.1)

/-- The group of the workgroup and launch that an image restores. -/
def State.imageGroup (s : State) (d : CtxDesc) (b : List Byte) : Option Nat :=
  match s.ctxWg d, s.imageLaunch d.owner b with
  | some w, some l => if (s.wgAt w).launch = l then (s.wgAt w).groups[num b 5 1]? else none
  | _, _ => none

/-- The image agrees with the launch (R351). -/
def State.imageFits (s : State) (d : CtxDesc) (b : List Byte) : Bool :=
  match s.imageLaunch d.owner b with
  | none => true
  | some k =>
    let l := s.launchAt k
    decide (num b 0x744 4 = l.kernel) && decide (num b 0x748 8 = l.entry.toNat) && decide (num b 0x750 8 = (l.handler.map (fun h => h.toNat)).getD 0) && decide (num b 0x758 1 = l.detlvl)

def State.ctxFree (s : State) (d : CtxDesc) : Bool :=
  (s.logicals d.owner d.core).any (fun c => (mapGet (0, 0) (s.ownerAt d.owner).lanes (c * 8 + d.ctx / 12)).2.testBit (d.ctx % 12) &&
    !s.contextTaken d.owner c (d.ctx / 12) (d.ctx % 12))

/-- The status of an operation at its issue (R383): the address, the target, the hold and its padding, the image. (DEDUCED, log 25) -/
def State.ctxStatus (s : State) (g : Group) (fn : Nat) (d : CtxDesc) (a : Nat) (image : Option (List Leaf × List Byte)) : Nat :=
  let save := decide (fn = 0) || decide (fn = 2)
  let addrBad := decide (fn ≠ 4) && (decide (a % 64 ≠ 0) || (if save then (s.ctxLeaves g a (s.ctxSize fn d s.rsvs) wantStore).isNone else image.isNone))
  let found := match fn with
    | 0 => (s.ctxGroup d).isSome
    | 1 => match image with
      | none => false
      | some (_, b) => (s.imageGroup d b).isSome && s.ctxFree d && decide (d.ctx < 96)
    | 2 | 3 => (s.ctxWg d).isSome
    | _ => s.hasCore d.owner d.logical
  let good := match fn, image with
    | 1, some (_, b) => groupImageOk b d.owner d.ctx && s.imageFits d b
    | 3, some (_, b) => match s.ctxWg d with
      | none => false
      | some w => wgImageOk b (s.wgAt w)
    | _, _ => true
  if addrBad then 4
  else if !found && (good || decide (fn ≠ 1)) then 2
  else if !s.ctxInTime fn d then 1
  else if !good then 3
  else 0

/-- The cycle at which a refused image has been read: as plain loads of its lines. -/
def State.ctxReadTime (s : State) (g : Group) (image : Option (List Leaf × List Byte)) : Nat :=
  match image with
  | none => 4
  | some (ls, _) => ls.foldl (fun m x => max m (if (s.l1Line 63 g.core x.pa).isSome then 12 else s.memHorizon 63 g.core x.pa)) 0 + 32 * Config.quanta (s.part 63) (s.openOf 63 (s.groupIsland g))

/-- An operation that will be done begins: a restore has read its image, and a save or a restore of core-wide state outside a transfer under way
begins one of its own (R353, R383). -/
def State.ctxBegins (s : State) (g : Group) (fn : Nat) (d : CtxDesc) (image : Option (List Leaf × List Byte)) : State :=
  let s := match image with
    | none => s
    | some (ls, _) => s.ctxFill g ls
  if s.inTransfer fn d || !s.ownTransfer fn d then s else
  match s.ctxWg d with
  | none => s
  | some w => s.beginTransfer d.owner (s.wgAt w).core d.core d.core

/-- The group or the workgroup on which an operation acts, as its descriptor names it at issue: a remap that comes between changes it no more (R382). -/
def State.ctxTarget (s : State) (fn : Nat) (d : CtxDesc) (image : List Byte) : Option Nat :=
  match fn with
  | 0 => s.ctxGroup d
  | 1 => s.imageGroup d image
  | 2 | 3 => s.ctxWg d
  | _ => none

/-- A context operation issues (R383). -/
def State.ctxOp (s : State) (h : Guard) (fn : Nat) (d : Reg) (addr : Dword) : State :=
  let g := s.grp
  if !g.guardQ h then s.finish g else
  let x := ctxDesc (g.getG64 d)
  let image := if fn = 1 ∨ fn = 3 then s.ctxRead g fn x addr.toNat else none
  let st := s.ctxStatus g fn x addr.toNat image
  let due := s.win + (if st = 0 then ctxTime fn else if st = 3 then s.ctxReadTime g image else 4)
  let bytes := if st = 0 then (image.map (fun p => p.2)).getD [] else []
  let target := s.ctxTarget fn x bytes
  let s := if st = 3 then s.bumpOpen 63 (s.groupIsland g) 1 else if st = 0 then s.ctxBegins g fn x image else s
  let k := s.fresh
  let s := (s.await g (.ctx fn d (g.getG64 d) addr (BitVec.ofNat 32 st) bytes) (some due)).schedule (.owner g.owner (s.groupIsland g)) due (.contextOpComplete k)
  { s with waits := (match mapFind s.waits k with
      | none => s.waits
      | some x => mapPut s.waits k { x with target := target }) }

/-- `ctx.gsave` (R351, R382, R383). -/
def execCtxGsave (h : Guard) (d a : Reg) (s : State) : Res := .next (s.ctxOp h 0 d (s.grp.getG64 a))

/-- `ctx.grest` (R351, R382, R383). -/
def execCtxGrest (h : Guard) (d a : Reg) (s : State) : Res := .next (s.ctxOp h 1 d (s.grp.getG64 a))

/-- `ctx.wsave` (R352, R382, R383). -/
def execCtxWsave (h : Guard) (d a : Reg) (s : State) : Res := .next (s.ctxOp h 2 d (s.grp.getG64 a))

/-- `ctx.wrest` (R352, R382, R383). -/
def execCtxWrest (h : Guard) (d a : Reg) (s : State) : Res := .next (s.ctxOp h 3 d (s.grp.getG64 a))

/-- `ctx.remap` (R355, R382, R383). -/
def execCtxRemap (h : Guard) (d : Reg) (s : State) : Res := .next (s.ctxOp h 4 d 0#64)

/-- Write an image through the leaves of its pieces, as stores of a group of SYS. -/
def State.leafWrite (s : State) (g : Group) (ls : List Leaf) (bs : List Byte) : State :=
  (ls.zipIdx).foldl (fun s x => ((s.setLeaf 63 x.1).writePlace 63 g.core (.mem x.1.pa) ((bs.drop (64 * x.2)).take 64)).fillPlace 63 (.mem x.1.pa) 0#2) s

/-- The groups of an owner on a lane that were restored at an owner cycle issue in the order of their saved ranks: after every group that was there
before, or, when they are all of the owner's groups there, those that have never issued as R147 has them (R351; DEDUCED, log 25). -/
def State.orderRestored (s : State) (o core lane now : Nat) : State :=
  let here := s.laneGroups o core lane
  let back := here.filter (fun k => match (s.groupAt k).rank with
    | some (c, _) => decide (c = now)
    | none => false)
  let saved (k : Nat) : Nat := (((s.groupAt k).rank).map (fun x => x.2)).getD 0
  let sorted := back.inOrder (fun a b => decide (saved a ≤ saved b))
  let n := s.issueSerial
  let s := (sorted.zipIdx).foldl (fun s x => s.modGroup x.1 (fun g => { g with
    lastIssue := if saved x.1 = 0xFF ∧ back.length = here.length then 0 else n + 1 + x.2 })) s
  { s with issueSerial := n + sorted.length }

/-- A group whose image says that it holds a lease is the group of its owner's lease there (R379). -/
def State.leaseTo (s : State) (o i k : Nat) : State :=
  let x := s.sprintAt o i
  if x.live then s.setSprint o i { x with gid := k } else s

/-- A restored group waits on a phase that has completed since its image was written: it is woken as the phase would have woken it (R240, R242; DESIGN
CHOICE, log 89). -/
def State.recheckWait (s : State) (k now : Nat) : State :=
  let g := s.groupAt k
  match g.waitSlot with
  | none => s
  | some b =>
    let x := (s.wgAt g.wg).bar b
    let d := (x.phase - g.waitedOn b).toNat
    if 1 ≤ d ∧ d ≤ 2 ^ 31 then s.setGroupAt k { g.addWaited b with waitSlot := none, readyAt := max g.readyAt (now + 4), seen := (g.seen ++ x.past).dedup } else s

/-- The group is in its context again, as its image says, with its place in the order of issue (R351); one of a halted launch ends, and a lease decision
that waited for it falls (R384). -/
def State.restoreGroup (s : State) (d : CtxDesc) (target : Option Nat) (b : List Byte) : State :=
  match target with
  | none => s
  | some k =>
    let s := s.settleGroup k
    let s := if s.groupImage k = b then s else s.modGroup k (fun g => g.fromImage b)
    let leased := (s.ownerAt d.owner).sprints.any (fun p => p.2.live && decide (p.2.gid = k))
    let s := if num b 2 1 / 2 % 2 = 1 ∧ !leased then s.leaseTo d.owner (islandOf d.core) k else s
    let now := s.cycOf d.owner (islandOf d.core)
    let s := s.modGroup k (fun g => { g with live := true, away := false, lane := d.ctx / 12, ctx := d.ctx % 12, rank := some (now, num b 0x759 1) })
    let s := s.orderRestored d.owner (s.groupAt k).core (d.ctx / 12) now
    if (s.launchAt (s.groupAt k).launch).halted.isSome then s.endGroup k else (s.recheckWait k now).decideLate k

/-- What an operation that is done does to its target (R351 to R355). -/
def State.ctxEffect (s : State) (g : Group) (fn : Nat) (d : CtxDesc) (target : Option Nat) (a : Nat) (image : List Byte) : State :=
  match fn with
  | 0 => match target, s.ctxLeaves g a 10240 wantStore with
    | some k, some ls =>
      let s := s.closeGroup k
      (s.leafWrite g ls (s.groupImage k)).modGroup k Group.putAway
    | _, _ => s
  | 1 => s.restoreGroup d target image
  | 2 => match target with
    | none => s
    | some w =>
      let t := (s.wgAt w).groups.foldl State.drainGroup s
      let b := t.wgImage w d.core
      match t.ctxLeaves g a b.length wantStore with
      | none => s
      | some ls => t.leafWrite g ls b
  | 3 => match target with
    | some w => if s.wgImage w d.core = image then s else s.putWgImage w d.core image
    | none => s
  | _ => s.modOwner d.owner (fun w => { w with remap := mapPut w.remap d.logical d.core })

/-- CONTEXT_OP_COMPLETE (R383): the operation takes effect and its status is visible. -/
def execContextOpComplete (k : Nat) (s : State) : Res :=
  .next (match mapFind s.waits k with
    | none => s
    | some x =>
      match x.kind with
      | .ctx fn d desc addr status image =>
        let s := { s with waits := mapErase s.waits k }
        let s := if status = 0#32 then s.ctxEffect (s.groupAt x.gid) fn (ctxDesc desc) x.target addr.toNat image else s
        s.resume x.gid (fun g => (g.setG d status).setG (d + 1) 0#32)
      | _ => s)

end Sys2Proof.Machine
end

