-- ==== Sys2Proof/Machine/Fabric.lean ====
section
/-! DEFINITION. The fabric: routers and their arbitration, Bellwether recovery, links and their retrains, switched-off L2 columns (R389 to R402,
R405, R416, R419). -/

namespace Sys2Proof.Machine

/-! ### The grid of a die (R186, R389, R390) -/

/-- A router's row, 0 to 7, and column, 0 to 15, on its die. -/
def gridRow (r : Nat) : Nat := quadrantOf r % 4 / 2 * 4 + rowOf r
def gridCol (r : Nat) : Nat := quadrantOf r % 2 * 8 + colOf r

/-- The router at a place of a die. -/
def routerAt (die row col : Nat) : Nat := die * 128 + (row / 4 * 2 + col / 8) * 32 + row % 4 * 8 + col % 8

/-- The router that ports 0 to 3 lead to: north, east, south, west. -/
def neighbour (r p : Nat) : Option Nat :=
  let row := gridRow r
  let col := gridCol r
  match p with
  | 0 => if row = 0 then none else some (routerAt (dieOf r) (row - 1) col)
  | 1 => if col = 15 then none else some (routerAt (dieOf r) row (col + 1))
  | 2 => if row = 7 then none else some (routerAt (dieOf r) (row + 1) col)
  | 3 => if col = 0 then none else some (routerAt (dieOf r) row (col - 1))
  | _ => none

/-- The input queue of the neighbour that a port feeds. -/
def opposite (p : Nat) : Nat := (p + 2) % 4

/-- Rows and columns that face the die beside a die and the one across from it (R398). -/
def beside (d : Nat) : Nat := d ^^^ 1
def across (d : Nat) : Nat := d ^^^ 2
def facingCol (d : Nat) : Nat := if d % 2 = 0 then 15 else 0
def facingRow (d : Nat) : Nat := if d / 2 = 0 then 7 else 0

/-- The die that an adapter port of a router leads to, if it has one (R390, R398). -/
def adapterDie (r p : Nat) : Option Nat :=
  let d := dieOf r
  let inRow := decide (gridRow r = facingRow d)
  let inCol := decide (gridCol r = facingCol d)
  if p = 7 then (if inRow then some (across d) else if inCol then some (beside d) else none)
  else if p = 6 then (if inRow && inCol then some (beside d) else none)
  else none

/-- The facing router on the other side of an adapter, and the queue it feeds. -/
def farSide (r p : Nat) : Option (Nat × Nat) :=
  match adapterDie r p with
  | none => none
  | some d =>
    if d = across (dieOf r) then some (routerAt d (facingRow d) (gridCol r), 7)
    else
      let x := routerAt d (gridRow r) (facingCol d)
      some (x, if gridRow x = facingRow d then 6 else 7)

/-- Die-to-die links: 0 joins dies 0 and 1, 1 dies 2 and 3, 2 dies 0 and 2, 3 dies 1 and 3; scale-up port p is link 4 + p (DESIGN CHOICE, log 35). -/
def linkOf (a b : Nat) : Nat := if beside a = b then a / 2 else 2 + a % 2

/-- A direction of a link: 2 × link, or that plus one from the higher die, or into the device. -/
def wayOf (a b : Nat) : Nat := 2 * linkOf a b + (if a < b then 0 else 1)

/-! ### Candidates (R392) -/

def between (a b c : Nat) : Bool := decide (min a b ≤ c) && decide (c ≤ max a b)

/-- Ports on a minimal path from a router to another (R392, R398): toward the column that faces the die beside where the path goes there and else the
destination's, the rows likewise, and the adapters to the dies that the path crosses to. -/
def productive (r dst : Nat) : List Nat :=
  let d := dieOf r
  let row := gridRow r
  let col := gridCol r
  let aside := decide (d % 2 ≠ dieOf dst % 2)
  let over_ := decide (d / 2 ≠ dieOf dst / 2)
  let rw := if over_ then facingRow d else gridRow dst
  let cl := if aside then facingCol d else gridCol dst
  let exits (e : Nat) : List Nat := [6, 7].filter (fun p => decide (adapterDie r p = some e))
  (if rw < row then [0] else []) ++ (if col < cl then [1] else []) ++ (if row < rw then [2] else []) ++ (if cl < col then [3] else []) ++
    (if aside then exits (beside d) else []) ++ (if over_ then exits (across d) else [])

/-- Routers with a port to the L2 slice of their column: rows 1 and 2 of each quadrant (R390). -/
def l2Row (r : Nat) : Bool := decide (rowOf r = 1) || decide (rowOf r = 2)

/-- A port to which a packet is delivered at its destination: the core's, the vault's, and the slice's where there is one (R390, R392). -/
def ejects (r p : Nat) : Bool := decide (p = 4) || decide (p = 5) || (decide (p = 6) && l2Row r)

/-- The packet holds an egress port: it has won it, and passes flit by flit (R393). -/
def Fabric.passing (f : Fabric) (k : Nat) : Bool := f.hold.any (fun p => decide (p.2.1 = k))

/-- The packets of an owner in an input queue of a router on a mesh, but for the deadlock lane, oldest first. -/
def Fabric.inQueue (f : Fabric) (o r q : Nat) (reply : Bool) : List (Nat × Packet) :=
  (f.packets.filter (fun p => decide (p.2.owner = o) && decide (p.2.router = r) && decide (p.2.queue = q) && decide (p.2.reply = reply) && !p.2.lane)).inOrder
    (fun a b => decide (a.2.num ≤ b.2.num))

/-- The heads of an owner's input queues at a router of a mesh, those of which a flit stands there. -/
def Fabric.heads (f : Fabric) (o r : Nat) (reply : Bool) : List (Nat × Packet) :=
  ((List.range 8).filterMap (fun q => (f.inQueue o r q reply).head?)).filter (fun x => decide (0 < x.2.flits))

/-- The flit buffers of an owner in an input queue of a mesh (R391). -/
def State.bufsOf (s : State) (o r q : Nat) (reply : Bool) : Nat := ((s.part o).map (fun x => mapGet x.linkBufs x.queueBufs (queueKey r q reply))).getD 0

/-- Free flit buffers of an owner in an input queue of a mesh. -/
def State.freeBufs (s : State) (o r q : Nat) (reply : Bool) : Nat := s.bufsOf o r q reply - ((s.fabric.inQueue o r q reply).map (fun p => p.2.flits)).sum

/-- Where a port leads: the next router's input queue. -/
def downstream (r p : Nat) : Option (Nat × Nat) :=
  match neighbour r p with
  | some x => some (x, opposite p)
  | none => farSide r p

/-- The slice behind port 6 of a router is switched off: nothing is forwarded through it (R402). -/
def State.portOff (s : State) (r p : Nat) : Bool := decide (p = 6) && l2Row r && s.columnsOff.contains (quadrantOf r, colOf r)

/-- The best candidate of the packet at the head of a queue: the port it goes to at its destination, else the productive port whose queue has most free
buffers (R392). -/
def State.candidate (s : State) (x : Packet) : Option Nat :=
  if x.router = x.dst then (if s.portOff x.router x.port then none else some x.port)
  else
    let cs := (productive x.router x.dst).filterMap (fun p => match downstream x.router p with
      | none => none
      | some (r, q) => let n := s.freeBufs x.owner r q x.reply; if n = 0 then none else some (p, n))
    let top := cs.foldl (fun m c => max m c.2) 0
    ((cs.filter (fun (c : Nat × Nat) => decide (c.2 = top))).map (fun (c : Nat × Nat) => c.1)).min?

/-- The port that the packet at the head of a queue requests: a candidate, or without one the port it asks for by the exception, while that has a free
buffer (R392). -/
def State.request (s : State) (x : Packet) : Option Nat :=
  match s.candidate x with
  | some p => some p
  | none =>
    if x.want = 0 then none else
    match downstream x.router (x.want - 1) with
    | none => none
    | some (r, q) => if 0 < s.freeBufs x.owner r q x.reply then some (x.want - 1) else none

/-- The fixed route of a lane packet (R395): along its row to its destination's column, then along that column; on the way to another die, to the
adapter of its row for a die beside, or to the adapter of its destination's column for a die across (DEDUCED, log 76). -/
def laneRoute (x : Packet) : Nat :=
  let r := x.router
  let d := dieOf r
  let go (rw cl : Nat) (there : Nat) : Nat :=
    if cl < gridCol r then 3 else if gridCol r < cl then 1 else if rw < gridRow r then 0 else if gridRow r < rw then 2 else there
  if d = dieOf x.dst then go (gridRow x.dst) (gridCol x.dst) x.port
  else if d % 2 ≠ dieOf x.dst % 2 then go (gridRow r) (facingCol d) (if adapterDie r 7 = some (beside d) then 7 else 6)
  else go (facingRow d) (gridCol x.dst) 7

/-! ### Arbitration (R393) -/

/-- The requests of an owner for an egress port of a mesh: the heads of its queues that hold no port yet, and its lane packet. -/
def State.requests (s : State) (o r p : Nat) (reply : Bool) : List (Nat × Packet) :=
  (s.fabric.heads o r reply).filter (fun x => !s.fabric.passing x.1 && decide (s.request x.2 = some p)) ++
    s.fabric.packets.filter (fun x => decide (x.2.owner = o) && decide (x.2.router = r) && decide (x.2.reply = reply) && x.2.lane && decide (0 < x.2.flits) && decide (laneRoute x.2 = p) &&
      !(decide (x.2.router = x.2.dst)) && !s.fabric.passing x.1)

def prioOf (x : Packet) : Nat := if x.lane then 3 else x.prio

/-- The key of an egress port's state for an owner. -/
def portKey (r p : Nat) (reply : Bool) (o : Nat) : Nat := ((r * 8 + p) * 2 + (if reply then 1 else 0)) * 64 + o

/-- Arbitrate (R393): the winner and the pointer after it. -/
def arbitrate (tie : Nat) (xs : List (Nat × Packet)) : Option ((Nat × Packet) × Nat) :=
  let full := xs.filter (fun x => decide (x.2.age = 256))
  let top := xs.foldl (fun m x => max m (prioOf x.2)) 0
  let set := if full.isEmpty then xs.filter (fun x => decide (prioOf x.2 = top)) else full
  match set with
  | [] => none
  | [x] => some (x, tie)
  | _ => ((List.range 8).findSome? (fun i => set.find? (fun x => decide (x.2.queue = (tie + i) % 8)))).map (fun x => (x, (x.2.queue + 1) % 8))

/-- Update one packet. -/
def State.setPacket (s : State) (k : Nat) (x : Packet) : State := { s with fabric := { s.fabric with packets := mapPut s.fabric.packets k x } }
def State.dropPacket (s : State) (k : Nat) : State := { s with fabric := { s.fabric with packets := mapErase s.fabric.packets k } }

/-- The key of what stands of a packet in an input queue. -/
def partKey (id r q : Nat) : Nat := id * 4096 + r * 8 + q

/-- Free buffers of an input queue take flits of the packets that are to enter the mesh there, the oldest first (R391, R399). -/
def State.refill (s : State) (o r q : Nat) (reply : Bool) : State :=
  (s.fabric.inQueue o r q reply).foldl (fun s p =>
    let n := min p.2.more (s.freeBufs o r q reply)
    if p.2.outer && decide (n ≠ 0) then s.setPacket p.1 { p.2 with flits := p.2.flits + n, more := p.2.more - n } else s) s

/-- A packet comes to an input queue from outside the mesh, the last there; its flits enter as buffers are free. A packet of the deadlock lane has its
own buffer (R395). -/
def State.enter (s : State) (x : Packet) : State :=
  let f := s.fabric
  let y := if x.lane then { x with num := f.count } else { x with num := f.count, flits := 0, more := x.flits, outer := true }
  State.refill { s with fabric := { f with packets := mapPut f.packets (partKey x.id x.router x.queue) y, count := f.count + 1 } } x.owner x.router x.queue x.reply

/-- A new packet enters a mesh. -/
def State.addPacket (s : State) (x : Packet) : State := s.enter { x with id := s.fabric.count }

/-- The data flits of an answer: the sectors from an address on, with their check values (R200, R399). -/
def State.answerOf (s : State) (x : Packet) (router queue port : Nat) : Packet :=
  let k (i : Nat) : Nat := x.addr / 32 + i
  { owner := x.owner, router := router, queue := queue, num := 0, dst := x.src, port := port, prio := 2, flits := x.answer, reply := true, src := x.router, addr := x.addr
    data := [] :: (List.range (x.answer - 1)).map (fun i => s.bytes (32 * k i) 32), checks := none :: (List.range (x.answer - 1)).map (fun i => some (s.checkOf (k i))) }

/-- The slice of a router's column answers a request: the owner's replies go through its two routers in turn, the row-1 router first (R390). -/
def State.sliceAnswers (s : State) (x : Packet) : State :=
  let slice := quadrantOf x.router * 8 + colOf x.router
  let key := slice * 64 + x.owner
  let turn := mapGet 0 s.fabric.through key
  State.addPacket { s with fabric := { s.fabric with through := mapSet 0 s.fabric.through key (1 - turn) } }
    (s.answerOf x (quadrantOf x.router * 32 + 8 + 8 * turn + colOf x.router) 6 4)

/-- A packet has been delivered at its port: a request that asks for an answer gets it on the reply mesh, from the slice, or from the vault down its
own port (R249, R390). -/
def State.delivered (s : State) (k : Nat) (x : Packet) : State :=
  let s := s.dropPacket k
  if x.reply || decide (x.answer = 0) then s
  else if x.port = 6 then s.sliceAnswers x
  else if x.port = 5 then
    s.addPacket (s.answerOf x x.router 5 (if l2Row x.src then 6 else 4))
  else s

/-- The adapter of a mesh flit, by router and port. -/
def adapterOf (m : MeshFlit) : Nat := m.leaves * 8 + m.exit

/-- The next flit of a packet as an adapter takes it, with the bytes it carries and the check value of their sector (R399). -/
def Packet.cargo (x : Packet) (p : Nat) : MeshFlit :=
  { packet := x.id, dst := x.dst, port := x.port, prio := prioOf x, age := x.age, last := decide (x.flits + x.more = 1), owner := x.owner, reply := x.reply, misroutes := x.misroutes,
    src := x.src, answer := x.answer, leaves := x.router, exit := p, addr := x.addr, data := x.data.getD x.sent [], check := x.checks.getD x.sent none }

/-- A flit of a packet comes to the next router: its header is the last in the input queue, and the others follow it (R393). -/
def State.flitComes (s : State) (x : Packet) (r q : Nat) : State :=
  let f := s.fabric
  let k := partKey x.id r q
  match mapFind f.packets k with
  | some y => s.setPacket k { y with flits := y.flits + 1, more := y.more - 1 }
  | none =>
    let y := { x with router := r, queue := q, num := f.count, flits := 1, more := x.flits + x.more - 1, sent := 0, outer := false, wait := 0, stuck := 0, want := 0 }
    { s with fabric := { f with packets := mapPut f.packets k y, count := f.count + 1, captured := if x.lane then mapPut f.captured x.owner k else f.captured } }

/-- A flit of a packet goes out of a port: to the next router's queue, to an adapter, or, the last, to be delivered. -/
def State.moveFlit (s : State) (k p : Nat) (x : Packet) : State :=
  match neighbour x.router p with
  | some r => s.flitComes x r (opposite p)
  | none =>
    match adapterDie x.router p with
    | none => if x.flits + x.more = 1 then s.delivered k x else s
    | some d =>
      let w := wayOf (dieOf x.router) d
      let f := s.fabric
      let way : LinkWay := mapGet {} f.ways w
      let m := x.cargo p
      { s with fabric := { f with ways := mapPut f.ways w { way with waiting := mapPut way.waiting (adapterOf m) (mapGet [] way.waiting (adapterOf m) ++ [m]) } } }

/-- The owner that a slot serves at a port of a router: SYS in a slot of an owner that is held. A mesh link and the Bellwether ring have tables of
their own, and the other ports follow the die's (R391, R394, R397). -/
def State.meshOwner (s : State) (r p slot : Nat) : Nat :=
  let o := if p = 16 then s.tableOwner .link 26 slot else if p % 8 < 4 then s.meshSlot r (p % 8) (decide (8 ≤ p)) slot else s.tableOwner .link (dieOf r) slot
  if s.heldOn o (islandOf r) then 63 else o

/-- The egress port at which a waiting head counts its cycle: the one it is to leave by, the lowest of those on a minimal path (DESIGN CHOICE, log 42). -/
def countsAt (x : Packet) : Option Nat := if x.router = x.dst then some x.port else (productive x.router x.dst).min?

/-- Heads that do not win count the cycle: one that requested the port, and one without a candidate (R392, R394). -/
def State.countHeads (s : State) (o r p : Nat) (reply : Bool) (win : Option Nat) : State :=
  (s.fabric.heads o r reply).foldl (fun s x =>
    if decide (some x.1 = win) || s.fabric.passing x.1 then s else
    match s.candidate x.2 with
    | some q => if q = p then s.setPacket x.1 { x.2 with stuck := x.2.stuck + 1, wait := 0, want := 0 } else s
    | none => if countsAt x.2 = some p then s.setPacket x.1 { x.2 with stuck := x.2.stuck + 1, wait := x.2.wait + 1 } else s) s

/-- Every request that loses ages (R393). -/
def State.ageLosers (s : State) (xs : List (Nat × Packet)) (win : Nat) : State :=
  xs.foldl (fun s x => if x.1 = win then s else
    match mapFind s.fabric.packets x.1 with
    | none => s
    | some y => s.setPacket x.1 { y with age := min (y.age + 1) 256 }) s

/-- The beats of a 32-byte flit on a mesh (R389). -/
def beatsOf (reply : Bool) : Nat := if reply then 1 else 4

/-- One flit passes the port that its packet holds, until the last has (R393); the buffer it leaves is free. -/
def State.passFlit (s : State) (key p k : Nat) (x : Packet) : State :=
  let last := decide (x.flits + x.more = 1)
  let f := s.fabric
  let s := { s with fabric := { f with hold := if last then mapErase f.hold key else mapPut f.hold key (k, 0) } }
  let s := if last then s.dropPacket k else s.setPacket k { x with flits := x.flits - 1, sent := x.sent + 1 }
  (s.moveFlit k p x).refill x.owner x.router x.queue x.reply

/-- The next flit of a packet can begin to pass a port: it stands here, and the next router's queue has a buffer free, or the lane's own (R391, R395). -/
def State.canPass (s : State) (p : Nat) (x : Packet) : Bool :=
  decide (0 < x.flits) && (x.lane || (match neighbour x.router p with
    | none => true
    | some r => decide (0 < s.freeBufs x.owner r (opposite p) x.reply)))

/-- One beat of the packet that holds a port; `b` beats of the flit have passed (R389). -/
def State.passBeat (s : State) (key p k b : Nat) : State :=
  match mapFind s.fabric.packets k with
  | none => { s with fabric := { s.fabric with hold := mapErase s.fabric.hold key } }
  | some x =>
    if b = 0 && !s.canPass p x then s
    else if b + 1 < beatsOf x.reply then { s with fabric := { s.fabric with hold := mapPut s.fabric.hold key (k, b + 1) } }
    else s.passFlit key p k x

/-- One cycle of an egress port of a mesh in a slot of an owner (R389, R392, R393): a packet that holds the port passes one beat; else the winner
takes it and begins to. -/
def State.routerCycle (s : State) (r p o : Nat) (reply : Bool) : State :=
  let key := portKey r p reply o
  match mapFind s.fabric.hold key with
  | some (k, b) => (s.countHeads o r p reply (some k)).passBeat key p k b
  | none =>
    let xs := s.requests o r p reply
    match arbitrate (mapGet 0 s.fabric.tie key) xs with
    | none => s.countHeads o r p reply none
    | some ((k, _), tie) =>
      let s := (s.countHeads o r p reply (some k)).ageLosers xs k
      State.passBeat { s with fabric := { s.fabric with tie := mapSet 0 s.fabric.tie key tie, hold := mapPut s.fabric.hold key (k, 0) } } key p k 0

/-! ### Bellwether (R394, R395) -/

/-- The router at a place of the Bellwether ring: die by die, each through its rows in turn, east along one and west along the next. -/
def ringRouter (n : Nat) : Nat := let row := n % 128 / 16; routerAt (n / 128 % 4) row (if row % 2 = 0 then n % 16 else 15 - n % 16)

/-- The router at which an owner's token is; it starts at the first of the ring (DESIGN CHOICE, log 42). -/
def Fabric.token (f : Fabric) (o : Nat) : Nat := ringRouter (mapGet 0 f.tokenAt o)

/-- Suspect packets of an owner at a router: at the head of their queue for 1,024 cycles without winning a port. -/
def Fabric.suspects (f : Fabric) (o r : Nat) : List (Nat × Packet) :=
  (f.heads o r false ++ f.heads o r true).filter (fun x => decide (1024 ≤ x.2.stuck) && !f.passing x.1)

/-- One cycle of the ring in a slot of an owner: its token goes on by one router, unless a router has captured it or is to. -/
def State.ringCycle (s : State) (r o : Nat) : State :=
  let f := s.fabric
  if !(s.ownerAt o).live || decide (f.token o ≠ r) || (mapFind f.captured o).isSome || !(f.suspects o r).isEmpty then s
  else { s with fabric := { f with tokenAt := mapSet 0 f.tokenAt o ((mapGet 0 f.tokenAt o + 1) % 512) } }

/-- ROUTER_ARBITRATION (R389, R391, R393, R394): one cycle of an egress port of router r in a slot of the link's rota table: of the request mesh,
of the reply mesh from port 8 on, or of the Bellwether ring, which is port 16 (DESIGN CHOICE, log 42). -/
def execRouterArbitration (r p slot : Nat) (s : State) : Res :=
  let o := s.meshOwner r p slot
  .next (if 512 ≤ r ∨ 32 ≤ slot ∨ s.heldOn o (islandOf r) then s else if p = 16 then s.ringCycle r o else if p < 16 then s.routerCycle r (p % 8) o (decide (8 ≤ p)) else s)

/-- PACKET_MISROUTE (R392): the head of queue q of router r, without a candidate for 64 cycles, asks for port p; at most 8 times in its journey.
Queues from 8 on are those of the reply mesh. -/
def execPacketMisroute (r n o p : Nat) (s : State) : Res :=
  let q := n % 8
  let reply := decide (8 ≤ n)
  .next (match (s.fabric.inQueue o r q reply).head? with
    | none => s
    | some (k, x) =>
      if x.wait < 64 ∨ 8 ≤ x.misroutes ∨ s.heldOn o (islandOf r) ∨ s.fabric.passing k then s else
      match neighbour r p with
      | none => s
      | some d => if s.freeBufs o d (opposite p) reply = 0 then s else s.setPacket k { x with want := p + 1, misroutes := x.misroutes + 1 })

/-- BELLWETHER_CAPTURE (R394, R395): the router at which the owner's token is captures it, and its oldest suspect packet enters the deadlock lane, whose
buffer takes what was still to enter the mesh. -/
def execBellwetherCapture (o r : Nat) (s : State) : Res :=
  let f := s.fabric
  .next (if f.token o ≠ r ∨ (mapFind f.captured o).isSome ∨ s.heldOn o (islandOf r) then s else
    let xs := f.suspects o r
    let top := xs.foldl (fun m x => max m x.2.age) 0
    let oldest := xs.filter (fun x => decide (x.2.age = top))
    let low := oldest.foldl (fun m x => min m x.2.queue) 7
    match oldest.find? (fun x => decide (x.2.queue = low)) with
    | none => s
    | some (k, x) =>
      let y := if x.outer then { x with flits := x.flits + x.more, more := 0 } else x
      State.refill { s with fabric := { f with captured := mapPut f.captured o k, packets := mapPut f.packets k { y with lane := true, want := 0 } } } o x.router x.queue x.reply)

/-- DEADLOCK_LANE_EJECT (R395): the lane packet, whole, is accepted at its ejection port, and the token goes on from the router that captured it. -/
def execDeadlockLaneEject (o : Nat) (s : State) : Res :=
  let f := s.fabric
  .next (match mapFind f.captured o with
    | none => s
    | some k =>
      match mapFind f.packets k with
      | none => s
      | some x =>
        if x.router ≠ x.dst ∨ x.more ≠ 0 ∨ x.sent ≠ 0 ∨ s.heldOn o (islandOf x.router) ∨ s.portOff x.router x.port then s
        else State.delivered { s with fabric := { f with captured := mapErase f.captured o } } k x)

/-! ### Links (R398 to R401, R405) -/

def State.wayAt (s : State) (l : Nat) : LinkWay := mapGet {} s.fabric.ways l
def State.setWay (s : State) (l : Nat) (x : LinkWay) : State := { s with fabric := { s.fabric with ways := mapPut s.fabric.ways l x } }

/-- A link as it is built: die-to-die links have two spare lanes, a scale-up port eight lanes and none (R400, R405). -/
def newLink (l : Nat) : Link := if l < 4 then { lanes := Config.dieLanes, spares := 2 } else { lanes := 8 }
def State.linkAt (s : State) (l : Nat) : Link := (mapFind s.fabric.links l).getD (newLink l)
def State.setLink (s : State) (l : Nat) (x : Link) : State := { s with fabric := { s.fabric with links := mapPut s.fabric.links l x } }

/-- An owner holds slots on a link (R391, R405). -/
def State.onLink (s : State) (l o : Nat) : Bool := (List.range 32).any (fun i => decide (s.tableOwner .link (4 + l) i = o))

/-- Owners with slots on a link. -/
def State.linkOwners (s : State) (l : Nat) : List Nat := s.liveOwners.filter (s.onLink l)

/-- A link's event to the owners with slots on it (R400, R416). -/
def State.linkEvent (s : State) (l code : Nat) : State :=
  (s.linkOwners l).foldl (fun s o => s.post o 5 6 0#32 0#32 (leBytes 4 (if l < 4 then l else l - 4) ++ leBytes 4 code) false) s

/-- A retrain begins: owners with slots on the link are held, and what is not yet acknowledged will be replayed. `lost` tells that a lane has failed. -/
def State.retrain (s : State) (l : Nat) (lost : Bool) : State :=
  let x := s.linkAt l
  let n := x.lost + (if lost then 1 else 0)
  if x.state ≠ .up then s.setLink l { x with lost := n } else
  let s := s.holdAll (s.onLink l) (.retrain l)
  (s.setLink l { x with state := .retraining, lost := n, tries := 0 }).schedule .wall (s.now + ms1) (.retrainRetry l)

/-- LANE_FAILURE (R400): a port of a device that takes part in no domain is disabled and does not retrain (R405). -/
def execLaneFailure (l : Nat) (s : State) : Res := .next (if 4 ≤ l ∧ s.inDomain = false then s else s.retrain l true)

/-- The slots of an owner, or of the free pool, in a link's rota table. -/
def State.linkTable (s : State) (l o : Nat) : List Nat := (List.range 32).filter (fun i => decide (s.tableOwner .link (4 + l) i = o))

/-- Slots left when `lost` of a link's lanes are gone: in proportion, rounded down, at least one. -/
def scaled (x : Link) (lost n : Nat) : Nat := max 1 (n * (x.lanes - lost) / x.lanes)

/-- Firmware scales the slots of the elastic contexts, the free pool and SYS on a link (R400): each keeps its first ones, and the others are no longer
there, marked by 64 (DESIGN CHOICE, log 35). -/
def State.scaleSlots (s : State) (l : Nat) (x : Link) (lost : Nat) : State :=
  let owners := ((List.range 32).map (s.tableOwner .link (4 + l))).dedup.filter (fun o => decide (o < 64))
  let s := owners.foldl (fun s o =>
    let xs := s.linkTable l o
    { s with tables := (xs.drop (scaled x lost xs.length)).foldl (fun m i => mapPut m (tableKey .link (4 + l) i) 64) s.tables }) s
  s.setLink l { x with state := .up, lanes := x.lanes - lost, lost := 0, slots := owners.foldl (fun m o => mapPut m o (s.linkTable l o).length) [] }

/-- Every replayed flit has been acknowledged. -/
def State.replayed (s : State) (l : Nat) : Bool := (s.wayAt (2 * l)).replay.isEmpty && (s.wayAt (2 * l + 1)).replay.isEmpty

/-- The retries of a retrain end with it (R400). -/
def State.noRetry (s : State) (l : Nat) : State := { s with agenda := s.agenda.filter (fun e => decide (e.ev ≠ .retrainRetry l)) }

/-- The hold of a link's owners ends: lost lanes have been replaced by spares, and those for which there is none are left out. -/
def State.endRetrain (s : State) (l : Nat) (x : Link) : State :=
  let s := s.noRetry l
  let y := { x with spares := x.spares - min x.lost x.spares }
  let gone := x.lost - x.spares
  (if gone = 0 then s.setLink l { y with state := .up, lost := 0 } else s.scaleSlots l y gone).unholdAll (.retrain l)

/-- RETRAIN_COMPLETE (R400): lost lanes are replaced by spares, or the link runs slower where no isolated owner holds slots, or it stays held.
The hold ends when every replayed flit has been acknowledged. -/
def execRetrainComplete (l : Nat) (s : State) : Res :=
  let x := s.linkAt l
  .next (if x.state ≠ .retraining then s
    else if x.spares < x.lost ∧ (s.linkOwners l).any s.isolated then ((s.noRetry l).setLink l { x with state := .degraded, lost := x.lost - x.spares, spares := 0 }).linkEvent l 1
    else if !s.replayed l || decide (x.spares + x.lanes ≤ x.lost) then s
    else s.endRetrain l x)

/-- RETRAIN_RETRY (R400): each 1 ms; after 100 tries the link has failed, and the black box freezes (R419). -/
def execRetrainRetry (l : Nat) (s : State) : Res :=
  let x := s.linkAt l
  .next (if x.state ≠ .retraining then s
    else if 99 ≤ x.tries then ((s.setLink l { x with state := .failed, tries := x.tries + 1 }).linkEvent l 0).freezeBox
    else (s.setLink l { x with tries := x.tries + 1 }).schedule .wall (s.now + ms1) (.retrainRetry l))

/-- A degraded link goes on once no isolated owner holds slots on it and every replayed flit has been acknowledged (R400). -/
def State.relink (s : State) : State :=
  s.fabric.links.foldl (fun s p =>
    if p.2.state = .degraded && !(s.linkOwners p.1).any s.isolated && s.replayed p.1 && decide (p.2.lost < p.2.lanes) then s.endRetrain p.1 p.2 else s) s

/-- A direction of a link whose sender is another device. -/
def fromOutside (l : Nat) : Bool := decide (8 ≤ l) && decide (l % 2 = 1)

/-- A packet has arrived whole: it enters the mesh at the adapter joined to the one it left by (R398, R399), or, from another device, at the router
its header names (DESIGN CHOICE, log 42). A packet is a header flit and up to four data flits (R389). The lane packet has its own buffer (R395). -/
def State.inject (s : State) (l : Nat) (o : Nat) (cargo : List MeshFlit) : State :=
  match cargo.getLast? with
  | none => s
  | some m =>
    if !(s.ownerAt o).live || decide (5 < cargo.length) || decide (512 ≤ m.dst) || !ejects m.dst m.port then s else
    let x : Packet := { id := m.packet, owner := o, router := m.leaves, queue := 4, num := 0, dst := m.dst, port := m.port, prio := min m.prio 2, age := min m.age 256,
                        flits := cargo.length, misroutes := m.misroutes, reply := m.reply, src := m.src, answer := m.answer, addr := m.addr,
                        data := cargo.map (fun c => c.data), checks := cargo.map (fun c => c.check) }
    if fromOutside l then (if m.leaves < 512 ∧ m.answer ≤ 5 then s.addPacket x else s) else
    match farSide m.leaves m.exit with
    | none => s
    | some (r, q) =>
      let lane := decide (m.prio = 3)
      let s := if lane then { s with fabric := { s.fabric with captured := mapPut s.fabric.captured o (partKey m.packet r q) } } else s
      s.enter { x with router := r, queue := q, lane := lane }

/-- One mesh flit of a good flit: its owner's packet waits until its last has come. -/
def State.unpack (s : State) (l o : Nat) (m : MeshFlit) : State :=
  let w := s.wayAt l
  let key := m.packet * 64 + o
  let have_ := mapGet [] w.partial_ key ++ [m]
  if m.last then (s.setWay l { w with partial_ := mapErase w.partial_ key }).inject l o have_
  else s.setWay l { w with partial_ := mapPut w.partial_ key have_ }

/-- An owner is held on some island. -/
def State.heldSome (s : State) (o : Nat) : Bool := (s.ownerAt o).heldOn.any (fun p => p.2)

/-- A slot of a link carries flits of an owner: of the slot's own, or of SYS while that one is held (R391, R397). -/
def State.slotCarries (s : State) (l slot o : Nat) : Bool :=
  let x := s.tableOwner .link (4 + l) slot
  decide (slot < 32) && !s.heldSome o && (decide (x = o) || (decide (o = 63) && s.heldSome x))

/-- The slot in which a flit is sent again: one that carries its owner, and while the link retrains one of its owner's, though the owner is held: the
hold ends when what is replayed has been acknowledged (R397, R400). -/
def State.slotReplays (s : State) (l slot o : Nat) : Bool :=
  s.slotCarries l slot o || (decide ((s.linkAt l).state ≠ .up) && decide (slot < 32) && decide (s.tableOwner .link (4 + l) slot = o))

/-- The mesh flits of an owner that wait at an adapter of a direction. -/
def LinkWay.mine (w : LinkWay) (a o : Nat) : List MeshFlit := (mapGet [] w.waiting a).filter (fun m => decide (m.owner = o))

/-- A flit that an adapter of the device packs: the first two mesh flits of the slot's owner that wait there, or the one left over (R399). -/
def State.packs (s : State) (l : Nat) (f : Flit) : Bool :=
  match f.cargo with
  | [] => false
  | m :: _ => s.slotCarries (l / 2) f.slot f.owner && decide (f.cargo = ((s.wayAt l).mine (adapterOf m) f.owner).take 2)

/-- The flits that have left with an adapter's next one. -/
def LinkWay.took (w : LinkWay) (f : Flit) : FMap (List MeshFlit) :=
  f.cargo.foldl (fun ws m => mapPut ws (adapterOf m) ((mapGet [] ws (adapterOf m)).erase m)) w.waiting

/-- The flit as its receiver meets it, with the sender's side after it: a new flit, packed in this slot, or one of the replay buffer, as it was first
sent. One that is neither has no effect but to be asked for again. -/
def State.sentFlit (s : State) (l : Nat) (f : Flit) : Option (Flit × State) :=
  let w := s.wayAt l
  if fromOutside l then (if s.slotCarries (l / 2) f.slot f.owner ∧ f.cargo.length ≤ 2 ∧ f.cargo.all (fun m => decide (m.owner = f.owner)) then some (f, s) else none)
  else match w.replay.find? (fun x => decide (x.seq = f.seq)) with
    | some x => if s.slotReplays (l / 2) f.slot x.owner then some ({ x with crcOk := f.crcOk }, s) else none
    | none =>
      if f.seq ≠ w.next ∨ !s.packs l f then none
      else some (f, s.setWay l { w with replay := w.replay ++ [{ f with crcOk := true }], next := f.seq + 1, waiting := w.took f })

/-- FLIT_RECEIVE (R399, R400) on direction l; the ports of a device that takes part in no domain are disabled (R405). The sender keeps the flit in
its replay buffer; a bad flit, or one out of sequence, is discarded and replay asked for. -/
def execFlitReceive (l : Nat) (f : Flit) (s : State) : Res :=
  .next (if (s.linkAt (l / 2)).state = .failed ∨ (8 ≤ l ∧ s.inDomain = false) then s else
    match s.sentFlit l f with
    | none => s
    | some (f, s) =>
      let w := s.wayAt l
      if f.crcOk && decide (f.seq = w.expect) then f.cargo.foldl (fun s m => s.unpack l f.owner m) (s.setWay l { w with expect := w.expect + 1, asked := false })
      else s.setWay l { w with asked := true })

/-- FLIT_ACKNOWLEDGE (R400): flits up to sequence number n leave the replay buffer. -/
def execFlitAcknowledge (l n : Nat) (s : State) : Res :=
  let w := s.wayAt l
  .next (match w.replay.findIdx? (fun x => decide (x.seq = BitVec.ofNat 16 n)) with
    | none => s
    | some i => s.setWay l { w with replay := w.replay.drop (i + 1), replays := 0 })

/-- FLIT_REPLAY (R400): the sender resends from flit n, the first unacknowledged one; more than 8 replays in a row retrain the link. -/
def execFlitReplay (l n : Nat) (s : State) : Res :=
  let w := s.wayAt l
  .next (if w.replay.isEmpty then s else
    let i := (w.replay.findIdx? (fun x => decide (x.seq = BitVec.ofNat 16 n))).getD 0
    let c := if i = 0 then w.replays + 1 else 1
    let s := s.setWay l { w with replay := w.replay.drop i, replays := c }
    if 8 < c then (s.setWay l { w with replay := w.replay.drop i, replays := 0 }).retrain (l / 2) false else s)

/-! ### L2 columns (R402) -/

/-- L2_COLUMN_OFF: column c of quadrant q, while no live partition holds ways in it and at least four slices stay on. (DEDUCED, log 40) -/
def execL2ColumnOff (q c : Nat) (s : State) : Res :=
  .next (if 16 ≤ q ∨ 8 ≤ c ∨ s.columnsOff.contains (q, c) ∨ 4 ≤ (s.columnsOff.filter (fun x => decide (x.1 = q))).length
      ∨ s.liveOwners.any (fun o => decide (o < 48) && (match s.part o with
        | none => false
        | some r => decide (mapGet 0 r.l2Ways (q * 8 + c) ≠ 0))) then s
    else { s with columnsOff := s.columnsOff ++ [(q, c)] })

end Sys2Proof.Machine
end

