-- ==== Sys2Proof/Machine/HostPort.lean ====
section
/-! DEFINITION. The host port: owner windows, memory requests, SPDM, the black box, bring-up and reset (R405, R411 to R413, R417, R419, R421 to
R424, R428). -/

namespace Sys2Proof.Machine

/-! ### Registers (R411, R412, R413, R417) -/

/-- The firmware has granted an owner's window to the host (R411). -/
def State.granted (s : State) (o : Nat) : Bool := (s.ownerAt o).live && (s.ownerAt o).lqGranted

/-- A write reaches a window that the firmware has granted; else it completes with Unsupported Request (R411). -/
def State.window (s : State) (o : Nat) (f : Owner → Owner) : State :=
  if s.granted o then { s.modOwner o f with port := some (.ok 0) } else { s with port := some .unsupportedRequest }

/-- A 4 KiB aligned address. -/
def page4k (v : Dword) : Dword := v &&& 0xFFFFFFFFFFFFF000#64

/-- REGISTER_WRITE (R411, R412) at an offset of an owner's window: EV_BASE, or an LQ_BASE whose queue is not enabled. Others are read-only or
not there, and keep what they hold. (DEDUCED, log 41) -/
def execRegisterWrite (o a : Nat) (v : Dword) (s : State) : Res :=
  .next (s.window o (fun w =>
    if a = 0 then { w with evBase := page4k v }
    else if 0x100 ≤ a ∧ a < 0x200 ∧ a % 0x20 = 0 then
      let q := (a - 0x100) / 0x20
      if (w.lqAt q).en then w else { w with lq := mapPut w.lq q { w.lqAt q with base := page4k v } }
    else w))

/-- A write of LQ_CTL (R412). -/
def LqRegs.writeCtl (x : LqRegs) (v : Word) : LqRegs :=
  let log2n := if x.en then x.ctl.extractLsb' 12 4 else v.extractLsb' 12 4
  let en := v.getLsbD 0 && decide (4 ≤ log2n.toNat) && decide (log2n.toNat ≤ 12)
  let err := x.ctl.getLsbD 1 && !v.getLsbD 1
  let ctl : Word := (log2n.setWidth 32 <<< 12) ||| (v &&& 0xC04#32) ||| (if err then 2#32 else 0#32) ||| (if en then 1#32 else 0#32)
  if en && !x.en then { x with ctl := ctl, head := 0#32, tail := 0#32 } else { x with ctl := ctl }

/-- LQ_CTL_WRITE (R412). -/
def execLqCtlWrite (o q : Nat) (v : Word) (s : State) : Res :=
  .next (s.window o (fun w => if q < 8 then { w with lq := mapPut w.lq q ((w.lqAt q).writeCtl v) } else w))

/-- LQ_TAIL_WRITE (R413): the doorbell. -/
def execLqTailWrite (o q : Nat) (v : Word) (s : State) : Res :=
  .next (s.window o (fun w => if q < 8 then { w with lq := mapPut w.lq q { w.lqAt q with tail := BitVec.ofNat 32 (v.toNat % (w.lqAt q).slots) } } else w))

/-- EV_CTL_WRITE (R417): a count outside 4 to 12 leaves the ring disabled; enabling it sets EV_HEAD and EV_TAIL to 0, and held events enter. -/
def execEvCtlWrite (o : Nat) (v : Word) (s : State) : Res :=
  .next ((s.window o (fun w =>
    let n := (v.extractLsb' 0 4).toNat
    let en := v.getLsbD 4 && decide (4 ≤ n) && decide (n ≤ 12)
    let ctl : Word := (v &&& 0xF#32) ||| (if en then 0x10#32 else 0#32)
    if en && !w.evCtl.getLsbD 4 then { w with evCtl := ctl, evHead := 0#32, evTail := 0#32 } else { w with evCtl := ctl })).flushEvents o)

/-- EV_HEAD_WRITE (R417): entries are free again, and held events enter. -/
def execEvHeadWrite (o : Nat) (v : Word) (s : State) : Res :=
  .next ((s.window o (fun w => { w with evHead := if w.evSize = 0 then v else BitVec.ofNat 32 (v.toNat % w.evSize) })).flushEvents o)

/-- FREEZE (R419): a write of the management window. -/
def execFreeze (s : State) : Res :=
  .next (if s.granted 63 then { s.freezeBox with port := some (.ok 0) } else { s with port := some .unsupportedRequest })

/-! ### Memory (R421, R424) -/

/-- The owner of the frame or striped region that holds a byte. -/
def State.byteOwner (s : State) (a : Nat) : Option Nat :=
  s.liveOwners.find? (fun o => match s.part o with
    | none => false
    | some r => s.ownsByte o r a)

/-- The byte of memory that a host-port request names: a striped address as the lowest owner's window has it in which it lies (R182, R183). (DESIGN
CHOICE, log 62) -/
def State.hostByte (s : State) (a : Nat) : Option Nat :=
  if directOk a || siloOk a then some a
  else s.liveOwners.findSome? (fun o => match s.part o with
    | none => none
    | some r => if inStripes r a 1 then stripedToVault r (a - stripeBase) else none)

/-- A request for a byte of memory: one of a frame of an isolated partition completes with Completer Abort, and so does a read of a sector whose check
value fails, which is not sent (R421, R424). Where no memory answers, the model stops. (DESIGN CHOICE, log 62) -/
def State.hostMemory (s : State) (a : Nat) (w : Option Byte) : Res :=
  match s.hostByte a with
  | none => .fault (.unpopulated a)
  | some pa =>
    if (match s.byteOwner pa with
      | none => false
      | some o => s.isolated o) then .next { s with port := some .completerAbort }
    else match w with
      | some b => .next { s.putMem pa [b] with port := some (.ok 0) }
      | none => .next { s with port := some (if (s.sectorFault (pa / 32)).isSome then .completerAbort else .ok (s.byte pa).toNat) }

/-- The register at an offset of an owner's window; nothing stands elsewhere, and it reads as 0 (R411, R412, R417). (DEDUCED, log 41) -/
def Owner.register (w : Owner) (a : Nat) : Nat :=
  let x := w.lqAt ((a - 0x100) / 0x20)
  if a = 0 then w.evBase.toNat
  else if a = 0x8 then w.evCtl.toNat
  else if a = 0xC then w.evHead.toNat
  else if a = 0x10 then w.evTail.toNat
  else if a < 0x100 ∨ 0x200 ≤ a then 0
  else match a % 0x20 with
    | 0 => x.base.toNat
    | 0x8 => x.ctl.toNat
    | 0xC => x.head.toNat
    | 0x10 => x.tail.toNat
    | _ => 0

/-- A session is up and bound to an owner (R423). -/
def State.sessionOf (s : State) (i : Option Nat) (o : Nat) : Bool :=
  match i.bind (fun k => mapFind s.spdm.sessions k) with
  | none => false
  | some x => x.up && decide (x.partition = some o)

/-- An entry of the black-box recorder as a reader sees it: the data of an isolated partition's reads as zero outside that partition's session (R419). -/
def State.boxEntry (s : State) (r : BoxRec) (i : Option Nat) : BoxRec :=
  if r.owner < 32 ∧ !s.sessionOf i r.owner then { r with data := List.replicate 16 0#8 } else r

/-- HOST_MEMORY_REQUEST (R411, R419, R421, R424): an access to memory, a read of a register of a window, or one of the recorder through the management
window, the oldest entry first; of a window that is not granted, or an entry that is not there, it completes with Unsupported Request. (DESIGN CHOICE,
log 62) -/
def execHostMemoryRequest (a : Nat) (w : HostAccess) (s : State) : Res :=
  match w with
  | .read => s.hostMemory a none
  | .write b => s.hostMemory a (some b)
  | .register o => .next { s with port := some (if s.granted o then .ok ((s.ownerAt o).register a) else .unsupportedRequest) }
  | .record i => .next { s with port := some (if !s.granted 63 then .unsupportedRequest else match s.box[a]? with
      | none => .unsupportedRequest
      | some x => .entry (s.boxEntry x i)) }

/-! ### SPDM (R422, R423) -/

/-- Codes of an ERROR message (PRESUMED, log 36). -/
def spdmInvalid : Nat := 0x01
def spdmSession : Nat := 0x02
def spdmUnexpected : Nat := 0x04
def spdmUnsupported : Nat := 0x07
def spdmVersion : Nat := 0x41

/-- Attestation answers from step 4 of bring-up on (R428). -/
def State.spdmAnswer (s : State) (f : Spdm → Spdm × SpdmReply) : State :=
  if !s.spdm.on then s else
  let (x, r) := f s.spdm
  { s with spdm := { x with replies := x.replies ++ [r] } }

/-- The key of a certificate slot: the device identity key, or the alias key of this boot (R422). -/
def State.slotKey (s : State) (c : Nat) : BitVec 256 := if c = 0 then Config.identityKey else Config.aliasKey (mapGet 0#256 s.spdm.measurements 2)

def State.chain (s : State) (c : Nat) : List Byte := Config.chain c (mapGet 0#256 s.spdm.measurements 2)

/-- GET_VERSION (R422). -/
def execGetVersion (s : State) : Res := .next (s.spdmAnswer (fun x => (x, .version)))

/-- GET_CAPABILITIES (R422), under version 1.2 or 1.3. -/
def execGetCapabilities (v : Nat) (s : State) : Res := .next (s.spdmAnswer (fun x => (x, if v = 0x12 ∨ v = 0x13 then .capabilities else .error spdmVersion)))

/-- NEGOTIATE_ALGORITHMS (R422): SM2, SM3 and SM4-GCM, and no others. -/
def execNegotiateAlgorithms (r : SpdmOffer) (s : State) : Res :=
  let ok := r.sm2 && r.sm3 && r.sm4gcm
  .next (s.spdmAnswer (fun x => ({ x with negotiated := ok }, .algorithms ok)))

/-- GET_DIGESTS (R422): of the chains of slots 0 and 1. -/
def execGetDigests (s : State) : Res := .next (s.spdmAnswer (fun x => (x, .digests [Config.sm3 (s.chain 0), Config.sm3 (s.chain 1)])))

/-- GET_CERTIFICATE (R422): n bytes of a slot's chain from byte a. -/
def execGetCertificate (c a n : Nat) (s : State) : Res :=
  .next (s.spdmAnswer (fun x => (x, if c < 2 then .certificate c (((s.chain c).drop a).take n) else .error spdmInvalid)))

/-- CHALLENGE (R422): the slot's key signs the nonce. -/
def execChallenge (c n : Nat) (s : State) : Res :=
  .next (s.spdmAnswer (fun x => (x, if c < 2 then .challengeAuth c (Config.sm2Sign (s.slotKey c) (leBytes 32 n)) else .error spdmInvalid)))

/-- GET_MEASUREMENTS (R422): one index, or all of them. -/
def execGetMeasurements (i : Nat) (s : State) : Res :=
  .next (s.spdmAnswer (fun x => (x, if i = 0xFF then .measurements x.measurements else match mapFind x.measurements i with
    | some d => .measurements [(i, d)]
    | none => .error spdmInvalid)))

/-- KEY_EXCHANGE (R422, R423): a new session, bound to a partition when the opaque element names one; the slot's key signs the answer (PRESUMED,
log 36). -/
def execKeyExchange (c : Nat) (p : Option Nat) (s : State) : Res :=
  let bound := match p with
    | none => true
    | some o => decide (o < 48) && (s.ownerAt o).live
  let k := s.fresh
  .next (({ s with openTick := s.openTick + 1, nextId := k + 1 } : State).spdmAnswer (fun x =>
    if !x.negotiated then (x, .error spdmUnexpected)
    else if 2 ≤ c ∨ !bound then (x, .error spdmInvalid)
    else ({ x with sessions := mapPut x.sessions k { up := false, partition := p, generation := 0 } }, .keyExchangeRsp k (Config.random s.openTick) (Config.sm2Sign (s.slotKey c) (leBytes 4 k ++ leBytes 32 (Config.random s.openTick).toNat)))))

/-- FINISH (R422): the session is up, when the requester has authenticated itself. -/
def execFinish (i : Nat) (m : Bool) (s : State) : Res :=
  .next (match mapFind s.spdm.sessions i with
    | none => s.spdmAnswer (fun x => (x, .error spdmSession))
    | some y =>
      if !m then s.spdmAnswer (fun x => ({ x with sessions := mapErase x.sessions i }, .error spdmInvalid))
      else
        let s := s.spdmAnswer (fun x => ({ x with sessions := mapPut x.sessions i { y with up := true } }, .finishRsp i))
        match y.partition with
        | none => s
        | some o => s.modOwner o (fun w => { w with session := some i }))

/-- A request within a session that is up. -/
def State.inSession (s : State) (i : Nat) (f : Spdm → Session → Spdm × SpdmReply) : State :=
  s.spdmAnswer (fun x => match mapFind x.sessions i with
    | none => (x, .error spdmSession)
    | some y => if y.up then f x y else (x, .error spdmSession))

/-- HEARTBEAT (R422). -/
def execHeartbeat (i : Nat) (s : State) : Res := .next (s.inSession i (fun x _ => (x, .heartbeatAck i)))

/-- KEY_UPDATE (R423): session keys only. -/
def execKeyUpdate (i : Nat) (s : State) : Res :=
  .next (s.inSession i (fun x y => ({ x with sessions := mapPut x.sessions i { y with generation := y.generation + 1 } }, .keyUpdateAck i)))

/-- END_SESSION (R422). -/
def execEndSession (i : Nat) (s : State) : Res :=
  .next (let s := s.inSession i (fun x _ => ({ x with sessions := mapErase x.sessions i }, .endSessionAck i))
    if (mapFind s.spdm.sessions i).isSome then s else
    { s with owners := mapAll (fun w => if w.session = some i then { w with session := none } else w) s.owners })

/-- Any other request (R422). -/
def execUnsupportedSpdmRequest (_c : Nat) (s : State) : Res := .next (s.spdmAnswer (fun x => (x, .error spdmUnsupported)))

/-! ### Bring-up and reset (R405, R419, R428) -/

/-- The rank, when every plane reports one index (R405). -/
def rankOf (ports : List Nat) : Option Nat :=
  match ports with
  | [] => none
  | p :: ps => if ports.length = 18 ∧ ps.all (fun x => decide (x = p)) ∧ p < 288 then some p else none

/-- SYS is created with its slots. -/
def State.admitSys (s : State) (r : PartRec) : State :=
  let s := s.enrol r
  let s := (recLanes r).foldl (fun s a => s.setSlots a.1 a.2.lane a.2.slots 63) s
  s.modOwner 63 (fun w => { w with heldOn := [], lanes := r.lanes.foldl (fun m x => mapSet (0, 0) m (x.core * 8 + x.lane) (slotMask x.slots, x.ctxMask)) [] })

/-- POWER_GOOD (R428): the firmware is measured, links are trained, SYS is created and the management window granted; a failure freezes the black
box. Islands begin at the lowest clock (DESIGN CHOICE, log 17), caches are empty (DESIGN CHOICE, log 18). -/
def execPowerGood (r : BringUp) (s : State) : Res :=
  let rank := rankOf r.ports
  .next (if s.powered then s
    else if !r.signature || !r.training || decide (r.sys.kind ≠ .sys) || !recWellFormed r.sys || !s.fits r.sys then s.freezeBox
    else
      let s : State := { s with
        powered := true
        inDomain := rank.isSome
        rank := rank.getD 0
        islands := (List.range 32).map (fun i => (i, { tick := s.now }))
        spdm := { s.spdm with on := true, measurements := (r.measurements.take 4).zipIdx.foldl (fun m x => mapPut m (x.2 + 1) (BitVec.ofNat 256 x.1)) [] } }
      ((s.admitSys r.sys).schedule .wall ((s.now / us10 + 1) * us10) .meltUpdate).schedule .wall ((s.now / us100 + 1) * us100) .railEpoch)

/-- WARM_RESET (R419): the machine as after reset; the black box survives, and so does what lies outside the device: the host's memory, the time,
requests on their way, and the counter of open choices. (DEDUCED, log 39) -/
def execWarmReset (s : State) : Res :=
  .next { State.reset with box := s.box, boxFrozen := s.boxFrozen, hostMem := s.hostMem, now := s.now, inbox := s.inbox, openTick := s.openTick, nextId := s.nextId }

end Sys2Proof.Machine
end

