-- ==== Sys2Proof/Machine/Sched.lean ====
section
/-! DEFINITION. What the step function is made of: consequences of endings, deferred traps, what is due, period boundaries, the choice of a
group for a window, and the passing of time (R13, R16, R144 to R153, R158, R172, R175, R242, R266, R271, R283, R293, R312, R321, R329, R332,
R427). -/

namespace Sys2Proof.Machine

/-! ### Consequences of what has ended or waits -/

/-- The group at the partner context, saved or not (R170, R172; DESIGN CHOICE, log 66). -/
def State.partnerThere (s : State) (g : Group) : Bool :=
  s.groups.any (fun p => (p.2.live || p.2.away) && !p.2.isEnded && decide (p.2.owner = g.owner) && decide (p.2.core = g.core ^^^ 4)
    && decide (p.2.lane = g.lane) && decide (p.2.ctx = g.ctx))

/-- A waiting instruction whose group or partner has ended (R105, R172, R286). -/
def State.settleWait (s : State) (p : Nat × WaitOp) : State :=
  match mapFind s.waits p.1 with
  | none => s
  | some x =>
    let over_ := (s.groupAt x.gid).isEnded
    match x.kind with
    | .deq _ _ _ _ _ => if over_ then s.withdrawDeq p.1 else s
    | .nctrWait _ _ => if over_ then { s with waits := mapErase s.waits p.1 } else s
    | .tree n _ _ _ _ _ _ =>
      if x.due.isSome then s
      else if over_ then { s with waits := mapErase s.waits p.1 }
      else s.treeTry (s.groupAt x.gid).launch n
    | .xchg _ _ _ _ _ met =>
      if met then s
      else if over_ then { s with waits := mapErase s.waits p.1 }
      else if s.partnerThere (s.groupAt x.gid) then s
      else s.trapWaiting p.1 x (syncTrap 0#32 9 0 0#64)
    | .append _ _ _ _ | .disp _ _ _ | .lease _ _ _ _ _ | .ctx _ _ _ _ _ _ => s

/-- Every live group of a workgroup waits at a barrier: with no engine outstanding each traps (R242), else the workgroup may be swapped out once
all have waited long enough (R293). -/
def State.settleBarriers (s : State) (wg : Nat) : State :=
  let x := s.wgAt wg
  if !s.allWaiting wg then s
  else if !s.enginesOut wg then
    (s.liveOf wg).foldl (fun s k =>
      let g := s.groupAt k
      match g.waitSlot with
      | none => s
      | some b => s.trapGroup k (syncTrap g.running 12 b 0#64)) s
  else
    let due := (s.liveOf wg).foldl (fun m k => max m ((s.groupAt k).waitFrom + s.swapT x.owner)) 0
    let e : Pend := ⟨.owner x.owner (islandOf (s.phys x.owner x.core)), due, .swapOut wg⟩
    if (mapFind s.swapped wg).isSome || s.agenda.contains e then s else { s with agenda := s.agenda ++ [e] }

/-- Draw the consequences of groups that have ended or begun to wait. Nothing waits any more for the commits of a halted launch whose groups have all
ended (R377). -/
def State.settle (s : State) : State :=
  let ks := s.unsettled.dedup
  let s := { s with unsettled := [] }
  let s := if ks.any (fun k => (s.groupAt k).isEnded && s.haltedWhole (s.groupAt k).launch) then s.wakeCommits else s
  let s := ks.foldl (fun s k => if (s.groupAt k).isEnded then s.tellDependants (s.groupAt k).launch else s) s
  let s := s.waits.foldl State.settleWait s
  ((ks.map (fun k => (s.groupAt k).wg)).dedup).foldl State.settleBarriers s

/-- A workgroup has something to do about its end: it is to complete (R105), or it can commit (R222). -/
def State.wgDue (s : State) (w : Workgroup) : Bool :=
  w.live && w.ended && (!w.done || (!w.committed && decide (w.reserved = 0) && s.committedBelow w.launch w.index && (s.launchAt w.launch).halted.isNone))

/-- Workgroups that are to complete or to commit. -/
def State.tidyWgs (s : State) : State :=
  s.wgs.foldl (fun s p => if s.wgDue p.2 && !s.agenda.any (fun e => decide (e.ev = .workgroupCommit p.1)) then s.soon (.workgroupCommit p.1) else s) s

/-- Launches that are to complete (R209, R416). -/
def State.tidyLaunches (s : State) : State :=
  s.launches.foldl (fun s p =>
    if p.2.stage ≠ .done && p.2.stage ≠ .residing && s.launchQuiet p.1 && !s.agenda.any (fun e => decide (e.ev = .launchCompletion p.1)) then s.soon (.launchCompletion p.1) else s) s

/-- Isolated owners with the gift-on-retire policy retire from lanes on which they have no group (R152, R178). -/
def State.tidyLanes (s : State) : State :=
  s.liveOwners.foldl (fun s o =>
    match s.part o with
    | none => s
    | some r =>
      if r.kind ≠ .isolated ∨ !r.gift then s else
      (s.ownerAt o).lanes.foldl (fun s p =>
        if decide (p.2.1 = 0) || (s.ownerAt o).isRetired p.1 || s.heldOn o (islandOf (s.phys o (p.1 / 8))) || !s.laneEmpty o (p.1 / 8) (p.1 % 8) then s
        else goOn (execRetirement o p.1 s) s) s) s

/-- What follows from any action: completions, retirements, holds of owners that have come to depend on a hot stack or a broken link. -/
def State.tidy (s : State) : State := s.tidyWgs.tidyLaunches.tidyLanes.physicalHolds.relink

/-! ### Deferred traps (R329, R332, R333) -/

/-- The current group takes the deferred trap that is due, before the instruction at its PC. -/
def State.deliverTrap (s : State) : State :=
  let g := s.grp
  match g.dueRecord s.win with
  | none => s
  | some (c, r) =>
    let t : Trap := { cause := c, lost := r.lost, deferred := true, mask := if r.mask = 0#32 then g.running else r.mask, a := r.a, b := r.b, c := r.c }
    State.trapAtPc (s.setGrp { g with pend := mapErase g.pend c }) t g.pc

/-- DEFERRED_TRAP_DELIVERY (R329): in a window of a group that no issued instruction keeps waiting and whose hint has issued whole. -/
def execDeferredTrapDelivery (gid : Nat) (s : State) : Res :=
  let g := s.groupAt gid
  .next (if !g.idle (s.cycOf g.owner (s.groupIsland g)) || !s.placed g || g.hint.isSome || s.heldOn g.owner (s.groupIsland g) then s
    else { (State.deliverTrap { s with cur := gid }) with cur := s.cur })

/-! ### What is due -/

/-- The island of an owner's lowest logical core, whose count times its Drover slots (DESIGN CHOICE, log 31). -/
def State.homeIsland (s : State) (o : Nat) : Nat := islandOf (s.phys o ((s.coreList o).headD 0))

/-- A Drover slot of an owner begins with this cycle of an island (R271). -/
def State.droverNow (s : State) (o i : Nat) : Bool :=
  match s.part o with
  | none => false
  | some r => s.onIsland o i && decide (s.homeIsland o = i) && !s.heldOn o i && r.drover.contains (s.cycOf o i % 256 / 4)

/-- An entry's cycle has come. -/
def State.isDue (s : State) (p : Pend) : Bool :=
  match p.clk with
  | .wall => decide (p.due ≤ s.now)
  | .island i => decide (p.due ≤ (s.islandAt i).cyc)
  | .owner o i => decide (p.due ≤ s.cycOf o i)

/-- The group for which an event acts, and the number of its operation. -/
def State.actsFor (s : State) (e : Instr) : Option (Nat × Nat) :=
  let op (k : Nat) : Option (Nat × Nat) := match mapFind s.ops k with
    | some x => some (x.gid, k)
    | none => (mapFind s.nets k).map (fun x => (x.gid, k))
  let wait (k : Nat) : Option (Nat × Nat) := (mapFind s.waits k).map (fun x => (x.gid, k))
  let net (k : Nat) : Option (Nat × Nat) := (mapFind s.nets k).map (fun x => (x.gid, k))
  let eng (k : Nat) : Option (Nat × Nat) := (mapFind s.engs k).map (fun x => (x.gid, k))
  match e with
  | .accessReply k _ | .storeReturn k _ | .heldAccessSend k _ => op k
  | .itemAppend k | .deqDelivery k | .deqClosedIndication k | .xchgComplete k | .treeRedComplete k | .treeBarComplete k | .nctrWaitMet k | .dispResult k
  | .leaseDecision k | .contextOpComplete k => wait k
  | .entryArm k | .localCompletion k | .networkOperationFault k => net k
  | .copyBeat k _ | .copyCompletion k | .drainCompletion k => eng k
  | _ => none

/-- The order of what takes effect for an owner in one cycle: the completions of network operations by entry number, messages by source rank and
their order there, then what groups do by logical core, context number and program order; what only reads sees every change of the cycle (R283, R312,
R364). -/
def State.effectRank (s : State) (e : Instr) : List Nat :=
  match e with
  | .localCompletion k | .networkOperationFault k => [0, ((mapFind s.nets k).map (fun x => x.serial)).getD 0, k]
  | .messageArrival m => [1, m.source, m.entry, m.chunk]
  | .heldAccessSend k t => [3, k, t]
  | .nctrWaitMet k => [3, k]
  | _ => match s.actsFor e with
    | none => []
    | some (gid, k) => let g := s.groupAt gid; [2, g.core, g.lane * 12 + g.ctx, k]

/-- The order of entries that are due: wall clock, islands, owners; then their cycles; then the order of R312. What ends at its owners' last cycle of
a switch or a transfer comes before the end itself (R155, R353). A melt update charges the time up to it before a rail epoch of the same instant
changes the charge (R360, R366). -/
def State.dueRank (s : State) (p : Pend) : List Nat :=
  match p.clk with
  | .wall => [0, p.due, match p.ev with
    | .railEpoch => 1
    | _ => 0]
  | .island _ => match p.ev with
    | .switchEnd _ | .coreStateTransferEnd _ _ _ => [3, p.due]
    | _ => [1, p.due]
  | .owner _ _ => [2, p.due] ++ s.effectRank p.ev

/-- Lexicographic order, a shorter list first. -/
def lexLe : List Nat → List Nat → Bool
  | [], _ => true
  | _ :: _, [] => false
  | x :: xs, y :: ys => decide (x < y) || (decide (x = y) && lexLe xs ys)

/-- An item of a group waits for the host items of the Drover slot that begins with its cycle (R283). -/
def State.itemWaits (s : State) (p : Pend) : Bool :=
  match p.ev, p.clk with
  | .itemAppend _, .owner o _ => s.boundary.contains (s.homeIsland o) && s.droverNow o (s.homeIsland o)
  | _, _ => false

/-- The first of the entries that are due. (DESIGN CHOICE, log 1) -/
def State.nextDue (s : State) : Option Pend :=
  (s.agenda.filter (fun p => s.isDue p && !s.itemWaits p)).foldl (fun b p => match b with
    | none => some p
    | some q => if lexLe (s.dueRank q) (s.dueRank p) then some q else some p) none

/-! ### Period boundaries and windows -/

/-- Something of an owner stands on a lane of an island. -/
def State.lanesIn (s : State) (i : Nat) : List Nat :=
  let ks := (s.groups.filter (fun p => p.2.live && decide (s.groupIsland p.2 = i))).map (fun p => s.groupCore p.2 * 8 + p.2.lane)
  let qs := (s.queues.filter (fun q => decide (islandOf (s.phys (q.1 / 4096) (q.1 / 8 % 512)) = i))).map (fun q => s.phys (q.1 / 4096) (q.1 / 8 % 512) * 8 + q.1 % 8)
  let ps := (s.passes.filter (fun p => decide (p.2.left ≠ 0) && decide (islandOf (s.phys p.2.owner p.2.core) = i))).map (fun p => s.phys p.2.owner p.2.core * 8 + p.2.lane)
  ((ks ++ qs ++ ps).dedup).inOrder (fun a b => decide (a ≤ b))

/-- The first cycle of a window of an island: at a period's first, switches and moves begin, holds begin and end, the clock falls or steps, lanes
retire; then leases that end in this cycle, Drover's slots, and the lanes. -/
def State.atBoundary (s : State) (i : Nat) : State :=
  let s := s.beginAll
  let s := { s with boundary := s.boundary.filter (fun j => decide (j ≠ i)) }
  let s := if (s.islandAt i).cyc % 32 ≠ 0 then s else
    let s := (s.applyHolds i).clockFall i
    State.tidyLanes (s.stepClock i (s.islandAt i).rail)
  let s := s.meltAhead i
  let s := s.liveOwners.foldl (fun s o => if s.droverNow o i then s.droverSlot o else s) s
  { s with lanesLeft := s.lanesIn i }

/-! ### Current smoothing (R158, R427) -/

/-- Opcode weights. Per-thread instructions that the table does not name weigh as integer ones (DESIGN CHOICE, log 32). -/
def weight : Instr → Nat
  | .ldGlbN8 .. | .ldGlbN16 .. | .ldGlbB32 .. | .ldGlbB64 .. | .ldGlbB128 .. | .stGlbB8 .. | .stGlbB16 .. | .stGlbB32 .. | .stGlbB64 .. | .stGlbB128 ..
  | .scopedLdGlbB32 .. | .scopedLdGlbB64 .. | .scopedStGlbB32 .. | .scopedStGlbB64 .. | .ldsB32 .. | .ldsB64 .. | .stsB32 .. | .stsB64 .. | .ldc ..
  | .atomAddN32 .. | .atomAddN64 .. | .atomMinI32 .. | .atomMaxI32 .. | .atomMinN32 .. | .atomMaxN32 .. | .atomOr .. | .atomAnd .. | .atomExchB32 ..
  | .atomCasB32 .. | .atomExchB64 .. | .atomCasB64 .. | .atomAddF32 .. | .atomMinF32 .. | .atomMaxF32 ..
  | .redAddN32 .. | .redAddN64 .. | .redMinI32 .. | .redMaxI32 .. | .redMinN32 .. | .redMaxN32 .. | .redOr .. | .redAnd .. | .redAddF32 .. | .redMinF32 .. | .redMaxF32 ..
  | .pref .. | .xchg .. | .voteMask .. | .voteEvery .. | .voteSome .. | .voteSame .. | .voteCount .. | .shflAt .. | .shflBack .. | .shflFwd .. | .shflMix .. | .bcast ..
  | .gred .. | .scan .. | .scanExcl .. | .elect .. => 2
  | .fadd .. | .fsub .. | .fmul .. | .ffma .. | .fmin .. | .fmax .. | .fneg .. | .fabs .. | .fclass .. | .frndRn .. | .frndRz .. | .frndRd .. | .frndRu .. | .fcmp ..
  | .fcvt .. | .fcvti .. | .icvtf .. => 2
  | .hadd2 .. | .hmul2 .. | .hfma2 .. | .dot2 .. => 3
  | .rcp .. | .rsqrt .. | .sqrt .. | .exp2 .. | .log2 .. | .sinpi .. | .cospi .. | .sincospi .. | .tanh .. => 4
  | .mma .. | .qcvt .. | .accRd .. => 8
  | _ => 1

/-- What an instruction charges when a group issues it: nothing for uniform instructions and hints. -/
def chargeOf (g : Group) (i : Instr) : Nat := if (uses i).u then 0 else weight i * (bitsOf (g.active (uses i).guard)).length

/-- The charge of a group's next instruction: of the bound one where a hint issues with it. -/
def State.nextCharge (s : State) (g : Group) : Nat :=
  match s.nextIns g with
  | none => 0
  | some (w, i) =>
    if isHint w then (match s.nextIns { g with hint := some ⟨g.pc, w, i⟩, pc := g.pc + 4 } with
      | none => 0
      | some (_, b) => if hintAlone i b then 0 else chargeOf g b)
    else chargeOf g i

/-- A group's next instruction fits the headroom of its owner's record for the cluster. -/
def State.fitsRecord (s : State) (g : Group) : Bool :=
  let c := clusterOf (s.groupCore g)
  match s.part g.owner with
  | none => true
  | some r => let x := mapGet 0 (s.ownerAt g.owner).record c; decide (x ≤ r.budget) || decide (s.nextCharge g = 0)

/-- Charge the current group's owner for an instruction. -/
def State.charge (s : State) (i : Instr) : State :=
  let g := s.grp
  let n := chargeOf g i
  if n = 0 then s else s.modOwner g.owner (fun w => { w with record := mapSet 0 w.record (clusterOf (s.groupCore g)) (mapGet 0 w.record (clusterOf (s.groupCore g)) + n) })

/-! ### The choice (R147, R151, R175, R34) -/

/-- The logical cores of an owner that a window of a lane serves: in one of the owner's own, the one whose slot it is; of a window given to it, all that
stand there. -/
def State.servedBy (s : State) (o core lane : Nat) : List Nat :=
  let slot := (s.islandAt (islandOf core)).cyc % 32 / 4
  if s.slotOwner core lane slot = o then (s.slotLogical o core lane slot).toList else s.logicals o core

/-- The groups of an owner that a window of a lane serves. -/
def State.groupsOn (s : State) (o core lane : Nat) : List Nat := (s.servedBy o core lane).flatMap (fun c => s.laneGroups o c lane)

/-- A `yield` is over (R175): every group it waits for has issued since, or none of them is ready any more. -/
def Group.yieldOver (g : Group) (rdy : List Nat) : Bool := g.yieldFor.all (fun x => x.2) || g.yieldFor.all (fun x => !rdy.contains x.1)

/-- The groups that wait after `yield` no longer do when it is over; `rdy` lists the ready ones. -/
def State.passYield (s : State) (ks rdy : List Nat) : State :=
  ks.foldl (fun s k => s.modGroup k (fun g => if g.yieldOver rdy then { g with yieldFor := [] } else g)) s

/-- The choice of R147 among an owner's groups on a lane; `own` in a window of the owner's own slots, where YIELD counts. -/
def State.choose (s : State) (o core lane : Nat) (own : Bool) : Option Nat × State :=
  let i := islandOf core
  if !(s.ownerAt o).live || s.heldOn o i then (none, s) else
  let ks := s.groupsOn o core lane
  let rdy := ks.filter (fun k => s.ready k (s.cycOf o i))
  let s := s.passYield ks (rdy.filter (fun k => (s.groupAt k).yieldFor.isEmpty))
  let rdy := rdy.filter (fun k => (s.groupAt k).yieldFor.isEmpty)
  let skips := if own then ks.filter (fun k => (s.groupAt k).skip && (s.groupAt k).hint.isNone && rdy.any (fun x => decide (x ≠ k))) else []
  let s := skips.foldl (fun s k => s.modGroup k (fun g => { g with skip := false })) s
  let rdy := rdy.filter (fun k => !skips.contains k && s.fitsRecord (s.groupAt k))
  let better (a b : Nat) : Bool := lexLe [(s.groupAt a).lastIssue, (s.groupAt a).ctx] [(s.groupAt b).lastIssue, (s.groupAt b).ctx]
  (rdy.foldl (fun b k => match b with
    | none => some k
    | some x => if better x k then some x else some k) none, s)

/-- A group issues in this window. -/
def State.issueTo (s : State) (k : Nat) : State :=
  let g := s.groupAt k
  let n := s.issueSerial + 1
  let s := (s.laneGroups g.owner g.core g.lane).foldl (fun s j => s.modGroup j (fun g => { g with yieldFor := g.yieldFor.map (fun x => (x.1, x.2 || decide (x.1 = k))) })) s
  { (s.modGroup k (fun g => { g with lastIssue := n, rank := none })) with issueSerial := n, cur := k, turn := .issue false }

/-- The lane's slice works for the owner that the window serves (R266). -/
def State.serveSlice (s : State) (o core lane : Nat) : State :=
  let i := islandOf core
  if s.heldOn o i then s else (s.servedBy o core lane).foldl (fun s c => s.matrixServe o c lane i (s.cycOf o i)) s

/-- The window goes to a group of an owner, if one is chosen. -/
def State.offer (s : State) (o core lane : Nat) (own : Bool) : Option State :=
  match s.choose o core lane own with
  | (none, _) => none
  | (some k, s) => some ((s.serveSlice o core lane).issueTo k)

/-- Elastic contexts that can take a given window, the one served least recently on the lane first (R151; DESIGN CHOICE, log 73). -/
def State.receivers (s : State) (o core lane : Nat) : List Nat :=
  let es := (s.liveOwners.filter (fun e => decide (e ≠ o) && s.elastic e && (s.choose e core lane false).1.isSome))
  es.inOrder (fun a b => lexLe [mapGet 0 (s.ownerAt a).gifted (core * 8 + lane), a] [mapGet 0 (s.ownerAt b).gifted (core * 8 + lane), b])

/-- A window given away: to SYS, else to an elastic context. (DEDUCED, log 45) -/
def State.give (s : State) (o core lane : Nat) : Option State :=
  match s.offer 63 core lane false with
  | some t => some t
  | none => match s.receivers o core lane with
    | [] => none
    | e :: _ => (s.modOwner e (fun w => { w with gifted := mapPut w.gifted (core * 8 + lane) (s.issueSerial + 1) })).offer e core lane false

/-- One window of a lane, numbered 8 × core + lane (R144, R147, R150, R151, R153, R155). -/
def State.serveLane (s : State) (key : Nat) : State :=
  let core := key / 8
  let lane := key % 8
  let i := islandOf core
  let slot := (s.islandAt i).cyc % 32 / 4
  let o := s.slotOwner core lane slot
  let switching := s.switches.any (fun x => decide (x.1.core = core) && decide (x.1.lane = lane) && x.1.slots.contains slot)
  let sysOnly (s : State) : State := (s.offer 63 core lane false).getD s
  if switching then sysOnly s
  else if o = 62 then (s.give 62 core lane).getD s
  else if !(s.ownerAt o).live || s.heldOn o i then sysOnly s
  else
    let go (s : State) : State :=
      let released := match s.slotLogical o core lane slot with
        | none => false
        | some c => decide (o ≠ 63) && s.released o c lane slot (periodOf (s.cycOf o i))
      if released then
        let s := (s.choose o core lane true).2
        (s.give o core lane).getD s
      else match s.offer o core lane true with
        | some t => t
        | none =>
          let s := (s.choose o core lane true).2
          if s.isolated o then s.serveSlice o core lane
          else (s.give o core lane).getD (s.serveSlice o core lane)
    let t := go s
    let waiting := (s.groupsOn o core lane).filter (fun k => decide ((s.groupAt k).stall ≠ 0))
    waiting.foldl (fun t k => t.modGroup k (fun g => { g with stall := g.stall - 1 })) t

/-! ### Time (R13, R158, R185 of the wall) -/

/-- The wall instant at which an island's next cycle begins. -/
def State.nextTick (s : State) (i : Nat) : Nat := let x := s.islandAt i; x.tick + ticksOf x.clock

/-- The wall instant at which an island's next cycle begins first. -/
def State.firstTick (s : State) : Nat := (List.range 32).foldl (fun t i => min t (s.nextTick i)) (s.nextTick 0)

/-- An owner's records drain (R427). -/
def drainRecords (r : PartRec) (i : Nat) (m : FMap Nat) : FMap Nat :=
  m.foldl (fun m p => if islandOf (p.1 * 4) = i then mapSet 0 m p.1 (p.2 - r.drain) else m) m

/-- An owner's count on an island advances by one, unless it is held there (R13). -/
def State.countOwner (s : State) (i o : Nat) : State :=
  if s.heldOn o i then s else
  s.modOwner o (fun w => { w with
    cyc := mapSet 0 w.cyc i (mapGet 0 w.cyc i + 1)
    record := match w.part with
      | none => w.record
      | some r => drainRecords r i w.record })

/-- An island goes on to its next cycle, which begins at this instant. -/
def State.tickIsland (s : State) (i : Nat) : State :=
  let x := s.islandAt i
  let s := s.setIsland i { x with cyc := x.cyc + 1, tick := s.now }
  let s := s.liveOwners.foldl (fun s o => s.countOwner i o) s
  if (x.cyc + 1) % 4 = 0 then { s with boundary := s.boundary ++ [i] } else s

/-- Time passes: to the next wall instant at which something is due, or to the next cycle of an island, with every island whose next cycle begins
there. Without power only the time advances. (DEDUCED, log 21) -/
def State.advance (s : State) : State :=
  if !s.powered then { s with now := s.now + 1 } else
  let next := s.firstTick
  let wall := s.agenda.filterMap (fun p => match p.clk with
    | .wall => some p.due
    | .island _ | .owner _ _ => none)
  let go (s : State) : State := ((List.range 32).filter (fun i => decide (s.nextTick i = next))).foldl State.tickIsland { s with now := next }
  match wall.min? with
  | some t => if t < next then { s with now := max t s.now } else go s
  | none => go s

end Sys2Proof.Machine
end

