-- ==== Sys2Proof/Machine/Dispatch.lean ====
section
/-! DEFINITION. One arm for each constructor of the instruction set: a direct call of its meaning. -/

namespace Sys2Proof.Machine

def exec (i : Instr) (s : State) : Host.Outcome State Fault Refusal :=
  match i with
  | .add u h d a b => Sys2Proof.Machine.execAdd u h d a b s
  | .sub u h d a b => Sys2Proof.Machine.execSub u h d a b s
  | .mul u h d a b => Sys2Proof.Machine.execMul u h d a b s
  | .mulhI32 u h d a b => Sys2Proof.Machine.execMulhI32 u h d a b s
  | .mulhN32 u h d a b => Sys2Proof.Machine.execMulhN32 u h d a b s
  | .mad u h d a b => Sys2Proof.Machine.execMad u h d a b s
  | .addx u h d a b => Sys2Proof.Machine.execAddx u h d a b s
  | .subx u h d a b => Sys2Proof.Machine.execSubx u h d a b s
  | .minI32 u h d a b => Sys2Proof.Machine.execMinI32 u h d a b s
  | .maxI32 u h d a b => Sys2Proof.Machine.execMaxI32 u h d a b s
  | .minN32 u h d a b => Sys2Proof.Machine.execMinN32 u h d a b s
  | .maxN32 u h d a b => Sys2Proof.Machine.execMaxN32 u h d a b s
  | .andB u h d a b => Sys2Proof.Machine.execAndB u h d a b s
  | .orB u h d a b => Sys2Proof.Machine.execOrB u h d a b s
  | .xorB u h d a b => Sys2Proof.Machine.execXorB u h d a b s
  | .andnB u h d a b => Sys2Proof.Machine.execAndnB u h d a b s
  | .shl u h d a b => Sys2Proof.Machine.execShl u h d a b s
  | .shr u h d a b => Sys2Proof.Machine.execShr u h d a b s
  | .sar u h d a b => Sys2Proof.Machine.execSar u h d a b s
  | .rotl u h d a b => Sys2Proof.Machine.execRotl u h d a b s
  | .negI u h d a => Sys2Proof.Machine.execNegI u h d a s
  | .absI u h d a => Sys2Proof.Machine.execAbsI u h d a s
  | .notB u h d a => Sys2Proof.Machine.execNotB u h d a s
  | .clz u h d a => Sys2Proof.Machine.execClz u h d a s
  | .popc u h d a => Sys2Proof.Machine.execPopc u h d a s
  | .brev u h d a => Sys2Proof.Machine.execBrev u h d a s
  | .mov u h d a => Sys2Proof.Machine.execMov u h d a s
  | .sxtI8 u h d a => Sys2Proof.Machine.execSxtI8 u h d a s
  | .sxtI16 u h d a => Sys2Proof.Machine.execSxtI16 u h d a s
  | .sxtI32 u h d a => Sys2Proof.Machine.execSxtI32 u h d a s
  | .zxtN8 u h d a => Sys2Proof.Machine.execZxtN8 u h d a s
  | .zxtN16 u h d a => Sys2Proof.Machine.execZxtN16 u h d a s
  | .zxtN32 u h d a => Sys2Proof.Machine.execZxtN32 u h d a s
  | .bfxN32 u h d a b => Sys2Proof.Machine.execBfxN32 u h d a b s
  | .bfxI32 u h d a b => Sys2Proof.Machine.execBfxI32 u h d a b s
  | .bfi u h d a b => Sys2Proof.Machine.execBfi u h d a b s
  | .lea u h d k a b => Sys2Proof.Machine.execLea u h d k a b s
  | .sel u p n d a b => Sys2Proof.Machine.execSel u p n d a b s
  | .cmpI32 u h c p a b => Sys2Proof.Machine.execCmpI32 u h c p a b s
  | .cmpN32 u h c p a b => Sys2Proof.Machine.execCmpN32 u h c p a b s
  | .pand u h d a b => Sys2Proof.Machine.execPand u h d a b s
  | .por u h d a b => Sys2Proof.Machine.execPor u h d a b s
  | .pxor u h d a b => Sys2Proof.Machine.execPxor u h d a b s
  | .pnot u h d a => Sys2Proof.Machine.execPnot u h d a s
  | .movi u h d k => Sys2Proof.Machine.execMovi u h d k s
  | .movh u h d k => Sys2Proof.Machine.execMovh u h d k s
  | .bra u h f => Sys2Proof.Machine.execBra u h f s
  | .call h f => Sys2Proof.Machine.execCall h f s
  | .loop h c l => Sys2Proof.Machine.execLoop h c l s
  | .nop u h => Sys2Proof.Machine.execNop u h s
  | .brx h a => Sys2Proof.Machine.execBrx h a s
  | .callx h d a => Sys2Proof.Machine.execCallx h d a s
  | .ret h a => Sys2Proof.Machine.execRet h a s
  | .brk h => Sys2Proof.Machine.execBrk h s
  | .exit u h => Sys2Proof.Machine.execExit u h s
  | .gets u h d r => Sys2Proof.Machine.execGets u h d r s
  | .wait h l t c e r => Sys2Proof.Machine.execWait h l t c e r s
  | .waitc h k a => Sys2Proof.Machine.execWaitc h k a s
  | .ldGlbN8 u h d a f => Sys2Proof.Machine.execLdGlbN8 u h d a f s
  | .ldGlbN16 u h d a f => Sys2Proof.Machine.execLdGlbN16 u h d a f s
  | .ldGlbB32 u h d a f => Sys2Proof.Machine.execLdGlbB32 u h d a f s
  | .ldGlbB64 u h d a f => Sys2Proof.Machine.execLdGlbB64 u h d a f s
  | .ldGlbB128 u h d a f => Sys2Proof.Machine.execLdGlbB128 u h d a f s
  | .stGlbB8 u h d a f => Sys2Proof.Machine.execStGlbB8 u h d a f s
  | .stGlbB16 u h d a f => Sys2Proof.Machine.execStGlbB16 u h d a f s
  | .stGlbB32 u h d a f => Sys2Proof.Machine.execStGlbB32 u h d a f s
  | .stGlbB64 u h d a f => Sys2Proof.Machine.execStGlbB64 u h d a f s
  | .stGlbB128 u h d a f => Sys2Proof.Machine.execStGlbB128 u h d a f s
  | .fadd u h d a b => Sys2Proof.Machine.execFadd u h d a b s
  | .fsub u h d a b => Sys2Proof.Machine.execFsub u h d a b s
  | .fmul u h d a b => Sys2Proof.Machine.execFmul u h d a b s
  | .ffma u h d a b => Sys2Proof.Machine.execFfma u h d a b s
  | .fmin u h d a b => Sys2Proof.Machine.execFmin u h d a b s
  | .fmax u h d a b => Sys2Proof.Machine.execFmax u h d a b s
  | .fneg u h d a => Sys2Proof.Machine.execFneg u h d a s
  | .fabs u h d a => Sys2Proof.Machine.execFabs u h d a s
  | .fclass u h d a => Sys2Proof.Machine.execFclass u h d a s
  | .frndRn u h d a => Sys2Proof.Machine.execFrndRn u h d a s
  | .frndRz u h d a => Sys2Proof.Machine.execFrndRz u h d a s
  | .frndRd u h d a => Sys2Proof.Machine.execFrndRd u h d a s
  | .frndRu u h d a => Sys2Proof.Machine.execFrndRu u h d a s
  | .rcp u h d a => Sys2Proof.Machine.execRcp u h d a s
  | .rsqrt u h d a => Sys2Proof.Machine.execRsqrt u h d a s
  | .sqrt u h d a => Sys2Proof.Machine.execSqrt u h d a s
  | .exp2 u h d a => Sys2Proof.Machine.execExp2 u h d a s
  | .log2 u h d a => Sys2Proof.Machine.execLog2 u h d a s
  | .sinpi u h d a => Sys2Proof.Machine.execSinpi u h d a s
  | .cospi u h d a => Sys2Proof.Machine.execCospi u h d a s
  | .sincospi u h d a => Sys2Proof.Machine.execSincospi u h d a s
  | .tanh u h d a => Sys2Proof.Machine.execTanh u h d a s
  | .fcmp u h c p a b => Sys2Proof.Machine.execFcmp u h c p a b s
  | .fcvt u h d a t y => Sys2Proof.Machine.execFcvt u h d a t y s
  | .fcvti u h d a t y => Sys2Proof.Machine.execFcvti u h d a t y s
  | .icvtf u h d a t y => Sys2Proof.Machine.execIcvtf u h d a t y s
  | .hadd2 h d a f g b => Sys2Proof.Machine.execHadd2 h d a f g b s
  | .hmul2 h d a f g b => Sys2Proof.Machine.execHmul2 h d a f g b s
  | .hfma2 h d a f g b => Sys2Proof.Machine.execHfma2 h d a f g b s
  | .dot2 h d a f g b => Sys2Proof.Machine.execDot2 h d a f g b s
  | .voteMask h d p => Sys2Proof.Machine.execVoteMask h d p s
  | .voteEvery h q p => Sys2Proof.Machine.execVoteEvery h q p s
  | .voteSome h q p => Sys2Proof.Machine.execVoteSome h q p s
  | .voteSame h q b => Sys2Proof.Machine.execVoteSame h q b s
  | .voteCount h d p => Sys2Proof.Machine.execVoteCount h d p s
  | .shflAt h d a r k => Sys2Proof.Machine.execShflAt h d a r k s
  | .shflBack h d a r k => Sys2Proof.Machine.execShflBack h d a r k s
  | .shflFwd h d a r k => Sys2Proof.Machine.execShflFwd h d a r k s
  | .shflMix h d a r k => Sys2Proof.Machine.execShflMix h d a r k s
  | .bcast h d a b => Sys2Proof.Machine.execBcast h d a b s
  | .gred h d a f => Sys2Proof.Machine.execGred h d a f s
  | .scan h d a f => Sys2Proof.Machine.execScan h d a f s
  | .scanExcl h d a f => Sys2Proof.Machine.execScanExcl h d a f s
  | .elect h d p => Sys2Proof.Machine.execElect h d p s
  | .xchg h d a t => Sys2Proof.Machine.execXchg h d a t s
  | .joinArm h k b => Sys2Proof.Machine.execJoinArm h k b s
  | .joinArmRun h k b => Sys2Proof.Machine.execJoinArmRun h k b s
  | .joinWait h k => Sys2Proof.Machine.execJoinWait h k s
  | .yield h => Sys2Proof.Machine.execYield h s
  | .slotRel h a b => Sys2Proof.Machine.execSlotRel h a b s
  | .slotQ h d b => Sys2Proof.Machine.execSlotQ h d b s
  | .scopedLdGlbB32 u h d a o x f => Sys2Proof.Machine.execScopedLdGlbB32 u h d a o x f s
  | .scopedLdGlbB64 u h d a o x f => Sys2Proof.Machine.execScopedLdGlbB64 u h d a o x f s
  | .scopedStGlbB32 u h d a o x f => Sys2Proof.Machine.execScopedStGlbB32 u h d a o x f s
  | .scopedStGlbB64 u h d a o x f => Sys2Proof.Machine.execScopedStGlbB64 u h d a o x f s
  | .ldsB32 u h d a o x f => Sys2Proof.Machine.execLdsB32 u h d a o x f s
  | .ldsB64 u h d a o x f => Sys2Proof.Machine.execLdsB64 u h d a o x f s
  | .stsB32 u h d a o x f => Sys2Proof.Machine.execStsB32 u h d a o x f s
  | .stsB64 u h d a o x f => Sys2Proof.Machine.execStsB64 u h d a o x f s
  | .ldc u h d a f => Sys2Proof.Machine.execLdc u h d a f s
  | .atomAddN32 u h d a o x => Sys2Proof.Machine.execAtomAddN32 u h d a o x s
  | .atomAddN64 u h d a o x => Sys2Proof.Machine.execAtomAddN64 u h d a o x s
  | .atomMinI32 u h d a o x => Sys2Proof.Machine.execAtomMinI32 u h d a o x s
  | .atomMaxI32 u h d a o x => Sys2Proof.Machine.execAtomMaxI32 u h d a o x s
  | .atomMinN32 u h d a o x => Sys2Proof.Machine.execAtomMinN32 u h d a o x s
  | .atomMaxN32 u h d a o x => Sys2Proof.Machine.execAtomMaxN32 u h d a o x s
  | .atomOr u h d a o x => Sys2Proof.Machine.execAtomOr u h d a o x s
  | .atomAnd u h d a o x => Sys2Proof.Machine.execAtomAnd u h d a o x s
  | .atomExchB32 u h d a o x => Sys2Proof.Machine.execAtomExchB32 u h d a o x s
  | .atomCasB32 u h d a o x => Sys2Proof.Machine.execAtomCasB32 u h d a o x s
  | .atomExchB64 u h d a o x => Sys2Proof.Machine.execAtomExchB64 u h d a o x s
  | .atomCasB64 u h d a o x => Sys2Proof.Machine.execAtomCasB64 u h d a o x s
  | .atomAddF32 u h d a o x => Sys2Proof.Machine.execAtomAddF32 u h d a o x s
  | .atomMinF32 u h d a o x => Sys2Proof.Machine.execAtomMinF32 u h d a o x s
  | .atomMaxF32 u h d a o x => Sys2Proof.Machine.execAtomMaxF32 u h d a o x s
  | .redAddN32 u h d a o x => Sys2Proof.Machine.execRedAddN32 u h d a o x s
  | .redAddN64 u h d a o x => Sys2Proof.Machine.execRedAddN64 u h d a o x s
  | .redMinI32 u h d a o x => Sys2Proof.Machine.execRedMinI32 u h d a o x s
  | .redMaxI32 u h d a o x => Sys2Proof.Machine.execRedMaxI32 u h d a o x s
  | .redMinN32 u h d a o x => Sys2Proof.Machine.execRedMinN32 u h d a o x s
  | .redMaxN32 u h d a o x => Sys2Proof.Machine.execRedMaxN32 u h d a o x s
  | .redOr u h d a o x => Sys2Proof.Machine.execRedOr u h d a o x s
  | .redAnd u h d a o x => Sys2Proof.Machine.execRedAnd u h d a o x s
  | .redAddF32 u h d a o x => Sys2Proof.Machine.execRedAddF32 u h d a o x s
  | .redMinF32 u h d a o x => Sys2Proof.Machine.execRedMinF32 u h d a o x s
  | .redMaxF32 u h d a o x => Sys2Proof.Machine.execRedMaxF32 u h d a o x s
  | .fence h o x => Sys2Proof.Machine.execFence h o x s
  | .barArr h b k => Sys2Proof.Machine.execBarArr h b k s
  | .barWait h b => Sys2Proof.Machine.execBarWait h b s
  | .barSync h b k => Sys2Proof.Machine.execBarSync h b k s
  | .ownTake h d a => Sys2Proof.Machine.execOwnTake h d a s
  | .ownGive h d a => Sys2Proof.Machine.execOwnGive h d a s
  | .pref u h a => Sys2Proof.Machine.execPref u h a s
  | .trig u h => Sys2Proof.Machine.execTrig u h s
  | .cpInScr h k a b e => Sys2Proof.Machine.execCpInScr h k a b e s
  | .cpInObuf h k a b e => Sys2Proof.Machine.execCpInObuf h k a b e s
  | .cpOutScr h k a b e => Sys2Proof.Machine.execCpOutScr h k a b e s
  | .trecTab h k b => Sys2Proof.Machine.execTrecTab h k b s
  | .trecBase h k a => Sys2Proof.Machine.execTrecBase h k a s
  | .obufRsvTpl h k b => Sys2Proof.Machine.execObufRsvTpl h k b s
  | .obufRsvReg h k a => Sys2Proof.Machine.execObufRsvReg h k a s
  | .obufFree h k => Sys2Proof.Machine.execObufFree h k s
  | .mma h d a b => Sys2Proof.Machine.execMma h d a b s
  | .mmaFence h d => Sys2Proof.Machine.execMmaFence h d s
  | .mmaWait h b => Sys2Proof.Machine.execMmaWait h b s
  | .accZero h d => Sys2Proof.Machine.execAccZero h d s
  | .accRd h d a b => Sys2Proof.Machine.execAccRd h d a b s
  | .drain h d a k e => Sys2Proof.Machine.execDrain h d a k e s
  | .qcvt h d a f k => Sys2Proof.Machine.execQcvt h d a f k s
  | .deq h d q b => Sys2Proof.Machine.execDeq h d q b s
  | .enq h q a b => Sys2Proof.Machine.execEnq h q a b s
  | .jpost h q a b => Sys2Proof.Machine.execJpost h q a b s
  | .disp h d a b => Sys2Proof.Machine.execDisp h d a b s
  | .sets h r b => Sys2Proof.Machine.execSets h r b s
  | .trap u h b => Sys2Proof.Machine.execTrap u h b s
  | .rte h => Sys2Proof.Machine.execRte h s
  | .halt h b => Sys2Proof.Machine.execHalt h b s
  | .leaseReq h d a l q => Sys2Proof.Machine.execLeaseReq h d a l q s
  | .leaseEnd h => Sys2Proof.Machine.execLeaseEnd h s
  | .rand h d => Sys2Proof.Machine.execRand h d s
  | .randSeed h a => Sys2Proof.Machine.execRandSeed h a s
  | .ctxGsave h d a => Sys2Proof.Machine.execCtxGsave h d a s
  | .ctxGrest h d a => Sys2Proof.Machine.execCtxGrest h d a s
  | .ctxWsave h d a => Sys2Proof.Machine.execCtxWsave h d a s
  | .ctxWrest h d a => Sys2Proof.Machine.execCtxWrest h d a s
  | .ctxRemap h d => Sys2Proof.Machine.execCtxRemap h d s
  | .npost h a => Sys2Proof.Machine.execNpost h a s
  | .nctrAdd h o x a b => Sys2Proof.Machine.execNctrAdd h o x a b s
  | .nctrRd h d a => Sys2Proof.Machine.execNctrRd h d a s
  | .nctrWait h a b => Sys2Proof.Machine.execNctrWait h a b s
  | .nput h a o x => Sys2Proof.Machine.execNput h a o x s
  | .nget h a o x => Sys2Proof.Machine.execNget h a o x s
  | .treeRed h d a c f => Sys2Proof.Machine.execTreeRed h d a c f s
  | .treeBar h => Sys2Proof.Machine.execTreeBar h s
  | .hintWide p => Sys2Proof.Machine.execHintWide p s
  | .hintSched r y k => Sys2Proof.Machine.execHintSched r y k s
  | .hintMod m => Sys2Proof.Machine.execHintMod m s
  | .hintType k d a => Sys2Proof.Machine.execHintType k d a s
  | .accessReply k t => Sys2Proof.Machine.execAccessReply k t s
  | .storeReturn k t => Sys2Proof.Machine.execStoreReturn k t s
  | .heldAccessSend k t => Sys2Proof.Machine.execHeldAccessSend k t s
  | .prefetchFill o c l cache => Sys2Proof.Machine.execPrefetchFill o c l cache s
  | .switchEnd w => Sys2Proof.Machine.execSwitchEnd w s
  | .retirement o l => Sys2Proof.Machine.execRetirement o l s
  | .workgroupCommit w => Sys2Proof.Machine.execWorkgroupCommit w s
  | .launchCompletion l => Sys2Proof.Machine.execLaunchCompletion l s
  | .haltPropagate l => Sys2Proof.Machine.execHaltPropagate l s
  | .dependantRelease l => Sys2Proof.Machine.execDependantRelease l s
  | .itemAppend k => Sys2Proof.Machine.execItemAppend k s
  | .deqDelivery k => Sys2Proof.Machine.execDeqDelivery k s
  | .deqClosedIndication k => Sys2Proof.Machine.execDeqClosedIndication k s
  | .swapOut w => Sys2Proof.Machine.execSwapOut w s
  | .copyBeat k n => Sys2Proof.Machine.execCopyBeat k n s
  | .copyCompletion k => Sys2Proof.Machine.execCopyCompletion k s
  | .drainCompletion k => Sys2Proof.Machine.execDrainCompletion k s
  | .matrixPassResult k => Sys2Proof.Machine.execMatrixPassResult k s
  | .xchgComplete k => Sys2Proof.Machine.execXchgComplete k s
  | .treeRedComplete k => Sys2Proof.Machine.execTreeRedComplete k s
  | .treeBarComplete k => Sys2Proof.Machine.execTreeBarComplete k s
  | .dispResult k => Sys2Proof.Machine.execDispResult k s
  | .nctrWaitMet k => Sys2Proof.Machine.execNctrWaitMet k s
  | .entryArm k => Sys2Proof.Machine.execEntryArm k s
  | .messageArrival m => Sys2Proof.Machine.execMessageArrival m s
  | .localCompletion k => Sys2Proof.Machine.execLocalCompletion k s
  | .networkOperationFault k => Sys2Proof.Machine.execNetworkOperationFault k s
  | .contextOpComplete k => Sys2Proof.Machine.execContextOpComplete k s
  | .leaseDecision k => Sys2Proof.Machine.execLeaseDecision k s
  | .leaseExpiry o k => Sys2Proof.Machine.execLeaseExpiry o k s
  | .meltUpdate => Sys2Proof.Machine.execMeltUpdate s
  | .railEpoch => Sys2Proof.Machine.execRailEpoch s
  | .clockStep k l => Sys2Proof.Machine.execClockStep k l s
  | .coreStateTransferEnd o c d => Sys2Proof.Machine.execCoreStateTransferEnd o c d s
  | .canaryRelax k => Sys2Proof.Machine.execCanaryRelax k s
  | .retrainRetry l => Sys2Proof.Machine.execRetrainRetry l s
  | .eventWrite o c => Sys2Proof.Machine.execEventWrite o c s
  | .deferredTrapDelivery g => Sys2Proof.Machine.execDeferredTrapDelivery g s
  | .holdBegin o c => Sys2Proof.Machine.execHoldBegin o c s
  | .holdEnd o c => Sys2Proof.Machine.execHoldEnd o c s
  | .switchBegin w => Sys2Proof.Machine.execSwitchBegin w s
  | .borderMove w => Sys2Proof.Machine.execBorderMove w s
  | .leaseResident l k f => Sys2Proof.Machine.execLeaseResident l k f s
  | .workgroupPlacement l => Sys2Proof.Machine.execWorkgroupPlacement l s
  | .swapIn w => Sys2Proof.Machine.execSwapIn w s
  | .matrixPass o l => Sys2Proof.Machine.execMatrixPass o l s
  | .thermalSample r p => Sys2Proof.Machine.execThermalSample r p s
  | .migrationMove o c d => Sys2Proof.Machine.execMigrationMove o c d s
  | .dramStackOvertemp n => Sys2Proof.Machine.execDramStackOvertemp n s
  | .dramStackCool n => Sys2Proof.Machine.execDramStackCool n s
  | .siloLinkDown p => Sys2Proof.Machine.execSiloLinkDown p s
  | .siloLinkUp p => Sys2Proof.Machine.execSiloLinkUp p s
  | .canaryFailure k => Sys2Proof.Machine.execCanaryFailure k s
  | .routerArbitration r p o => Sys2Proof.Machine.execRouterArbitration r p o s
  | .packetMisroute r q o p => Sys2Proof.Machine.execPacketMisroute r q o p s
  | .bellwetherCapture o r => Sys2Proof.Machine.execBellwetherCapture o r s
  | .deadlockLaneEject o => Sys2Proof.Machine.execDeadlockLaneEject o s
  | .flitReceive l f => Sys2Proof.Machine.execFlitReceive l f s
  | .flitAcknowledge l n => Sys2Proof.Machine.execFlitAcknowledge l n s
  | .laneFailure l => Sys2Proof.Machine.execLaneFailure l s
  | .retrainComplete l => Sys2Proof.Machine.execRetrainComplete l s
  | .launch o q => Sys2Proof.Machine.execLaunch o q s
  | .enqCommand o q => Sys2Proof.Machine.execEnqCommand o q s
  | .qclose o q => Sys2Proof.Machine.execQclose o q s
  | .qdelete o q => Sys2Proof.Machine.execQdelete o q s
  | .cancel o q => Sys2Proof.Machine.execCancel o q s
  | .resync o q => Sys2Proof.Machine.execResync o q s
  | .evCtlWrite o v => Sys2Proof.Machine.execEvCtlWrite o v s
  | .evHeadWrite o v => Sys2Proof.Machine.execEvHeadWrite o v s
  | .lqCtlWrite o q v => Sys2Proof.Machine.execLqCtlWrite o q v s
  | .lqTailWrite o q v => Sys2Proof.Machine.execLqTailWrite o q v s
  | .registerWrite o a v => Sys2Proof.Machine.execRegisterWrite o a v s
  | .freeze => Sys2Proof.Machine.execFreeze s
  | .hostMemoryRequest a w => Sys2Proof.Machine.execHostMemoryRequest a w s
  | .partitionCreate r => Sys2Proof.Machine.execPartitionCreate r s
  | .partitionDestroy o => Sys2Proof.Machine.execPartitionDestroy o s
  | .l2ColumnOff q c => Sys2Proof.Machine.execL2ColumnOff q c s
  | .getVersion => Sys2Proof.Machine.execGetVersion s
  | .getCapabilities v => Sys2Proof.Machine.execGetCapabilities v s
  | .negotiateAlgorithms r => Sys2Proof.Machine.execNegotiateAlgorithms r s
  | .getDigests => Sys2Proof.Machine.execGetDigests s
  | .getCertificate c a n => Sys2Proof.Machine.execGetCertificate c a n s
  | .challenge c n => Sys2Proof.Machine.execChallenge c n s
  | .getMeasurements k => Sys2Proof.Machine.execGetMeasurements k s
  | .keyExchange c p => Sys2Proof.Machine.execKeyExchange c p s
  | .finish k m => Sys2Proof.Machine.execFinish k m s
  | .heartbeat k => Sys2Proof.Machine.execHeartbeat k s
  | .keyUpdate k => Sys2Proof.Machine.execKeyUpdate k s
  | .endSession k => Sys2Proof.Machine.execEndSession k s
  | .unsupportedSpdmRequest c => Sys2Proof.Machine.execUnsupportedSpdmRequest c s
  | .powerGood r => Sys2Proof.Machine.execPowerGood r s
  | .warmReset => Sys2Proof.Machine.execWarmReset s
  | .residencyConfirm l => Sys2Proof.Machine.execResidencyConfirm l s
  | .flitReplay l n => Sys2Proof.Machine.execFlitReplay l n s

end Sys2Proof.Machine
end

