-- ==== Sys2Proof/Machine/Step.lean ====
section
/-! DEFINITION. One step of the device (R10, R12, R13, R16, R18, R32, R40, R147). A step does one of these: the current group issues one word
of its window; the consequences of an ending are drawn; something that reaches the device from outside is taken; something due happens; an
island stands at the first cycle of a window; one lane chooses; time passes. -/

namespace Sys2Proof.Machine

/-- Go on with the state an outcome gives. -/
def andThen (r : Res) (f : State → State) : Res :=
  match r with
  | .next t => .next (f t)
  | .fault x => .fault x
  | .refused x => .refused x

/-- Nothing else issues in this window. -/
def State.closed (s : State) : State := { s with turn := .free }

/-- The trap of a word that does not decode (R40); a hint's is that of its pair (R32). -/
def State.badWord (s : State) (e : EncReason) (w : Word) : Trap :=
  let t := encTrap s.grp e.code w
  if isHint w && s.grp.hint.isNone then (s.pairTrap w).getD t else t

/-- A second word issues in the window of the first, `i` (R16, R32, R34): the bound instruction of a hint, or one that pairs. A bound instruction
that issues in a window of its own ends the pair that its hint began. `s` is the state in which the first issued, `t` the state after it. -/
def State.goesOn (s t : State) (i : Instr) : Bool :=
  let g := s.grp
  let x := t.grp
  if (encodeHint i).isSome then
    x.hint.isSome && (match t.nextIns x with
      | none => true
      | some (_, b) => !hintAlone i b)
  else g.hint.isNone && !(uses i).issue.ends && !g.lastInBody g.pc && decide (x.trapMode = g.trapMode) && decide (x.pc = g.pc + 4) && t.pairs i

/-- What follows a word that has issued. -/
def State.afterIssue (s : State) (second : Bool) (i : Instr) (t : State) : State :=
  let t := t.tidy
  { t with turn := if !second && s.goesOn t i then .issue true else .free }

/-- The word fetched for the current group runs: it traps where its encoding does, and is else executed. -/
def State.runWord (s : State) (second : Bool) (w : Word) : Res :=
  match decode w with
  | .error e => .next (s.trap (s.badWord e w)).closed
  | .ok i =>
    match stateReason s.grp i with
    | some r => .next (s.trap (encTrap s.grp r w)).closed
    | none => andThen (exec i (s.charge i)) (s.afterIssue second i)

/-- The current group issues: a deferred trap that is due comes before the first word of a window, unless a hint waits for its bound instruction
(R32, R329). -/
def State.issueStep (s : State) (second : Bool) : Res :=
  let g := s.grp
  if !second && g.hint.isNone && (g.dueRecord s.win).isSome then .next s.deliverTrap.closed
  else match s.fetchWord g g.pc with
  | .error c => .next (s.trap (fetchTrap g c g.pc)).closed
  | .ok (w, x) => ((s.setLeaf g.owner x).fillL2 g.owner x.pa 0#2).runWord second w

/-- Something due happens. -/
def State.dueStep (s : State) (p : Pend) : Res := andThen (exec p.ev { s with agenda := s.agenda.erase p }) State.tidy

/-- What stands first in the inbox waits: a thermal sample for the next multiple of 10 µs (R385), a message for the completions and the messages of
its owner that come before it in this cycle (R312). -/
def State.waitsOutside (s : State) (e : Instr) : Bool :=
  match e with
  | .thermalSample _ _ => s.powered && decide (s.now % us10 ≠ 0)
  | .messageArrival m => s.agenda.any (fun p => s.isDue p && (match p.clk with
    | .owner o _ => decide (o = m.owner) && !(s.effectRank p.ev).isEmpty && lexLe (s.effectRank p.ev) (s.effectRank e)
    | .island _ | .wall => false))
  | _ => false

/-- No group issues, and nothing is taken from outside: the first of these that there is. -/
def State.ownStep (s : State) : Res :=
  match s.nextDue with
  | some p => s.dueStep p
  | none =>
    match s.lanesLeft with
    | k :: ks => .next (State.serveLane { s with lanesLeft := ks } k)
    | [] =>
      match s.boundary with
      | i :: _ => .next (s.atBoundary i)
      | [] => .next s.advance

/-- No group issues: the consequences of endings, then what reaches the device from outside, then what happens in it. -/
def State.freeStep (s : State) : Res :=
  if !s.unsettled.isEmpty then .next s.settle else
  match s.inbox with
  | e :: es => if s.waitsOutside e then s.ownStep else andThen (exec e { s with inbox := es }) State.tidy
  | [] => s.ownStep

def step (s : State) : Host.Outcome State Fault Refusal :=
  match s.turn with
  | .issue second => s.issueStep second
  | .free => s.freeStep

/-! ### A program's word where the next step fetches it -/

/-- Store a word at a physical address. -/
def State.putWord (s : State) (pa w : Nat) : State := s.putMem pa (leBytes 4 w)

/-- The page that stands for a program loaded from outside: the root table in frame 0, lower tables in frames 1 to 3, the code in frame 4
of vault 0, mapped at virtual address 0x10000. -/
def loadedTables (o : Nat) : List (Nat × Nat) :=
  [(0x0, 1 + o * 0x400 + 0x10000), (0x10000, 1 + o * 0x400 + 0x20000), (0x20000, 1 + o * 0x400 + 0x30000),
   (0x30008, 0x297 + o * 0x400 + 0x40000)]

def loadedAt : Nat := 0x10000
def loadedFrame : Nat := 0x40000

/-- The creation record of the partition the program belongs to: owner 1, an isolated partition with one slot and one context of one lane of one core. -/
def loadedPart : PartRec :=
  { owner := 1, kind := .isolated, cores := [0], remap := [(0, 0)]
    lanes := (List.range 8).map (fun l => if l = 0 then ⟨0, l, [0], 1⟩ else ⟨0, l, [], 0⟩)
    shares := [⟨0, 0, 0x1000, 0, 16, 0, 16, 0, 4, 0⟩], l2Ways := (List.range 8).map (fun i => (i, 0)), quotas := [], budget := 262143, drain := 8191, swapT := 262144
    root := 0, vaults := [0], stripes := [(0, 0x1000000)], stripeLen := 0x1000000, signer := 0, gift := false, signed := true, members := []
    drover := [0], target := 0, tables := [(.link, [0])], linkBufs := 2 }

def loadedLaunch : Launch :=
  { owner := 1, entry := BitVec.ofNat 56 loadedAt, handler := some (BitVec.ofNat 56 (loadedAt + 0x1000)), levels := [⟨32, 0, 0⟩, ⟨1, 1, 1⟩], groups := 1, placed := 1, stage := .running
    leases := [{ base := loadedAt, len := 0x10000, r := true, w := false, x := true, silo := false, vault := true, resident := true }] }

def loadedWg : Workgroup := { live := true, owner := 1, launch := 0, core := 0, groups := [0] }

def loadedGroup : Group := { live := true, owner := 1, launch := 0, wg := 0, core := 0, lane := 0, ctx := 0, pc := BitVec.ofNat 56 loadedAt }

/-- The device with a partition, a launch and one placed group whose code page is Resident, as bring-up, creation and a LAUNCH leave them. (DESIGN CHOICE, log 2) -/
def State.withProgram (s : State) : State :=
  let s : State := { s with
    powered := true
    islands := if s.islands.isEmpty then (List.range 32).map (fun i => (i, {})) else s.islands
    owners := mapPut s.owners 1 { (s.ownerAt 1) with live := true, part := some loadedPart, lanes := [(0, (1, 1))] }
    launches := mapPut s.launches 0 loadedLaunch
    wgs := mapPut s.wgs 0 loadedWg
    groups := mapPut s.groups 0 loadedGroup
    nextId := max s.nextId 1
    cur := 0 }
  (loadedTables 1).foldl (fun s p => s.putMem p.1 (leBytes 8 p.2)) s

/-- The physical address at which the current group fetches its next word, if it can issue. -/
def State.fetchAt (s : State) : Option Nat :=
  let g := s.grp
  if g.live && !g.isEnded && g.hint.isNone && (g.dueRecord s.win).isNone then
    match s.fetchWord g g.pc with
    | .ok (_, x) => some x.pa
    | .error _ => none
  else none

/-- The host's question: the state with one word stored where the next step fetches. Every instruction is one 32-bit word (R21), so the bits above
`nbits` are zero. Where no group can issue, a program is first loaded from outside the machine. -/
def State.withFetchWord (s : State) (nbits w : Nat) : State :=
  let word := w % 2 ^ min nbits 32
  match s.fetchAt with
  | some pa => { s.putWord pa word with turn := .issue false }
  | none => { (s.withProgram).putWord loadedFrame word with turn := .issue false }

end Sys2Proof.Machine
end

