-- ==== Sys2Proof/Safety.lean ====
section
/-! DEFINITION. What counts as a safe run, and the frames in which claims say what an instruction leaves alone. -/

namespace Sys2Proof.Machine

/-- A property of the next state, where there is one. -/
def Ends (r : Res) (P : State → Prop) : Prop :=
  match r with
  | .next t => P t
  | .fault _ => True
  | .refused _ => True

/-- The memory of a state has its canonical form. -/
abbrev State.memOk (s : State) : Prop := Memory.wf s.mem = true

/-- What every run keeps: the canonical form of memory, and a black box of at most 4,096 records (R419). -/
abbrev State.sound (s : State) : Prop := Memory.wf s.mem = true ∧ s.box.length ≤ 4096

/-- A step that does not stop the machine. -/
def State.goes (s : State) : Prop := ∃ t, step s = .next t

/-- A run of k steps is safe: no step of it stops the machine, and every state of it is sound. -/
def SafeRun : Nat → State → Prop
  | 0, s => s.sound
  | k + 1, s => s.sound ∧ ∃ t, step s = .next t ∧ SafeRun k t

/-- A lane of an instruction: the group, of a uniform one; else a thread below 32. -/
def laneFits (u : Bool) : Lane → Prop
  | none => u = true
  | some t => u = false ∧ t < 32

/-- Nothing but the record of the current group differs. -/
structure OnlyGroup (s t : State) : Prop where
  rest : t = { s with groups := t.groups }
  others : ∀ k, k ≠ s.cur → t.groupAt k = s.groupAt k

/-- The frame of an instruction that writes the registers `dst` of its own file for the threads its guard names, or for the group once, and
raises no flag: the other registers and threads, the predicates, and every other field of the group as completing it leaves them. -/
structure WroteRegs (s t : State) (u : Bool) (h : Guard) (dst : List Reg) : Prop extends OnlyGroup s t where
  vKept : ∀ r x, u = true ∨ r ∉ dst ∨ (s.grp.active h).getLsbD x = false → x < 32 → t.grp.getV r x = s.grp.getV r x
  gKept : ∀ r, u = false ∨ r ∉ dst ∨ s.grp.guardQ h = false → t.grp.getG r = s.grp.getG r
  fields : t.grp = { s.grp.complete with v := t.grp.v, g := t.grp.g, avail := t.grp.avail }

/-- R88, R331, R338: under V2 and OVF_TRAP the first raising of OVF makes the pending record of an arithmetic trap, with the flags that the instruction
raised, its address and the threads that raised OVF, of a uniform instruction the Running set; nothing else makes or changes that record. -/
def OverflowRecord (s t : State) (u : Bool) (h : Guard) (fl : Lane → BitVec 4) : Prop :=
  let raised : Prop := ∃ l ∈ s.grp.lanes u h, (fl l).getLsbD 1 = true
  let armed : Prop := s.grp.flagArm.getLsbD 0 = true ∧ s.grp.flagArm.getLsbD 1 = true
  (¬(armed ∧ raised) ∨ mapFind s.grp.pend causeArithmetic ≠ none →
    mapFind t.grp.pend causeArithmetic = mapFind s.grp.pend causeArithmetic) ∧
  (armed → raised → mapFind s.grp.pend causeArithmetic = none → ∃ r, mapFind t.grp.pend causeArithmetic = some r ∧
    (r.c ++ r.b : Dword) = s.grp.pc.setWidth 64 ∧
    (∀ i, r.a.getLsbD i = (decide (4 ≤ i) && (s.grp.lanes u h).any (fun l => (fl l).getLsbD (i - 4)))) ∧
    (u = true → r.mask = s.grp.running) ∧
    (u = false → ∀ x, x < 32 → (r.mask.getLsbD x = true ↔ some x ∈ s.grp.lanes u h ∧ (fl (some x)).getLsbD 1 = true)))

/-- The same for an instruction that may raise flags: FLAGS keeps every bit it has, and only the record of an overflow may be added. -/
structure WroteFlags (s t : State) (u : Bool) (h : Guard) (dst : List Reg) (fl : Lane → BitVec 4) : Prop extends OnlyGroup s t where
  vKept : ∀ r x, u = true ∨ r ∉ dst ∨ (s.grp.active h).getLsbD x = false → x < 32 → t.grp.getV r x = s.grp.getV r x
  gKept : ∀ r, u = false ∨ r ∉ dst ∨ s.grp.guardQ h = false → t.grp.getG r = s.grp.getG r
  flags : ∀ i, t.grp.flags.getLsbD i = (s.grp.flags.getLsbD i || (s.grp.lanes u h).any (fun l => (fl l).getLsbD i))
  overflow : OverflowRecord s t u h fl
  pends : ∀ c, c ≠ causeArithmetic → mapFind t.grp.pend c = mapFind s.grp.pend c
  fields : t.grp = { s.grp.complete with
    v := t.grp.v, g := t.grp.g, avail := t.grp.avail, flags := t.grp.flags, pend := t.grp.pend }

/-- The frame of an instruction that writes one predicate. -/
structure WrotePred (s t : State) (u : Bool) (h : Guard) (p : BitVec 3) : Prop extends OnlyGroup s t where
  pKept : ∀ i x, u = true ∨ i ≠ p ∨ (s.grp.active h).getLsbD x = false → x < 32 → t.grp.getP i x = s.grp.getP i x
  qKept : ∀ i, u = false ∨ i ≠ p ∨ s.grp.guardQ h = false → t.grp.getQ i = s.grp.getQ i
  fields : t.grp = { s.grp.complete with p := t.grp.p, q := t.grp.q, avail := t.grp.avail }

/-- The frame of an instruction that completes after writing some registers and predicates, named by four sets: vector registers of threads, group
registers, predicates of threads, group predicates. -/
structure Wrote (s t : State) (vs : Reg → Nat → Prop) (gs : Reg → Prop) (ps : BitVec 3 → Nat → Prop) (qs : BitVec 3 → Prop) : Prop
    extends OnlyGroup s t where
  vKept : ∀ r x, ¬vs r x → x < 32 → t.grp.getV r x = s.grp.getV r x
  gKept : ∀ r, ¬gs r → t.grp.getG r = s.grp.getG r
  pKept : ∀ i x, ¬ps i x → x < 32 → t.grp.getP i x = s.grp.getP i x
  qKept : ∀ i, ¬qs i → t.grp.getQ i = s.grp.getQ i
  fields : t.grp = { s.grp.complete with
    v := t.grp.v, g := t.grp.g, p := t.grp.p, q := t.grp.q, avail := t.grp.avail }

/-- The instruction completes and does nothing else. -/
def Passes (i : Instr) (s : State) : Prop := exec i s = .next (s.setGrp s.grp.complete)

/-- R101: the group goes to the target, and of the loops it is in it leaves, from the innermost on, those whose body holds the instruction and not
the target. -/
def JumpsTo (i : Instr) (s : State) (target : Dword) : Prop :=
  let x : PcWord := target.setWidth 56
  let inside (k : Nat) (a : PcWord) : Prop := (s.grp.loop k).ls ≤ a ∧ a < (s.grp.loop k).le
  target.toNat < 2 ^ 56 → target.toNat % 4 = 0 →
    ∃ k, k ≤ s.grp.n ∧ exec i s = .next (s.setGrp { s.grp with pc := x, n := k, hint := none }) ∧
      (∀ j, k ≤ j → j < s.grp.n → inside j s.grp.pc ∧ ¬inside j x) ∧ (0 < k → ¬(inside (k - 1) s.grp.pc ∧ ¬inside (k - 1) x))

/-! ### What an instruction computes -/

/-- The instruction completes, writes register d of each lane it runs for with the low 32 bits of the value given, and changes nothing else but
what completing changes. -/
def Computes (i : Instr) (s : State) (u : Bool) (h : Guard) (d : Reg) (f : Lane → Int) : Prop :=
  ∃ t, exec i s = .next t ∧ WroteRegs s t u h [d] ∧ ∀ l ∈ s.grp.lanes u h, t.grp.rd l d = BitVec.ofInt 32 (f l)

/-- The same for a pair. -/
def ComputesPair (i : Instr) (s : State) (u : Bool) (h : Guard) (d : Reg) (f : Lane → Int) : Prop :=
  ∃ t, exec i s = .next t ∧ WroteRegs s t u h [d, d + 1] ∧ ∀ l ∈ s.grp.lanes u h, t.grp.rd64 l d = BitVec.ofInt 64 (f l)

/-- The instruction completes, writes register d of each lane with the word given, raises the flags given, and changes nothing else but what
completing changes. -/
def Delivers (i : Instr) (s : State) (u : Bool) (h : Guard) (d : Reg) (f : Lane → Word) (fl : Lane → BitVec 4) : Prop :=
  ∃ t, exec i s = .next t ∧ WroteFlags s t u h [d] fl ∧ ∀ l ∈ s.grp.lanes u h, t.grp.rd l d = f l

/-- The same for a pair. -/
def DeliversPair (i : Instr) (s : State) (u : Bool) (h : Guard) (d : Reg) (f : Lane → Dword) (fl : Lane → BitVec 4) : Prop :=
  ∃ t, exec i s = .next t ∧ WroteFlags s t u h [d, d + 1] fl ∧ ∀ l ∈ s.grp.lanes u h, t.grp.rd64 l d = f l

/-- The instruction completes, sets predicate p of each lane to the truth given, and changes nothing else but what completing changes. -/
def Decides (i : Instr) (s : State) (u : Bool) (h : Guard) (p : BitVec 3) (f : Lane → Prop) : Prop :=
  ∃ t, exec i s = .next t ∧ WrotePred s t u h p ∧ ∀ l ∈ s.grp.lanes u h, (t.grp.rp l p = true ↔ f l)

/-- The instruction completes, writes register d of each lane with the word given, raises no flag, and changes nothing else but what completing
changes. -/
def Writes (i : Instr) (s : State) (u : Bool) (h : Guard) (d : Reg) (f : Lane → Word) : Prop :=
  ∃ t, exec i s = .next t ∧ WroteRegs s t u h [d] ∧ ∀ l ∈ s.grp.lanes u h, t.grp.rd l d = f l

/-- A value held between two bounds. -/
def clamp (lo hi x : Int) : Int := if x < lo then lo else if hi < x then hi else x

/-- The flags of a saturated result: SAT and OVF where it was out of range (R85). -/
def clampFlags (lo hi x : Int) : BitVec 4 := if x < lo ∨ hi < x then flagSAT ||| flagOVF else 0#4

/-! ### Floating results (R82 to R84, R121, R128, R129) -/

/-- The number an exact value stands for. -/
def Exact.val (x : Exact) : ℚ := x.num / x.d

/-- The exact sum of some finite operands; a zero sum keeps a sign that all of them share as zeros, and is else +0, or -0 toward minus infinity (R82). -/
def IsTotal (m : RMode) (xs : List Exact) (z : Exact) : Prop :=
  0 < z.d ∧ z.val = (xs.map Exact.val).sum ∧
  (z.val = 0 → (z.s = true ↔ (∀ x ∈ xs, x.val = 0 ∧ x.s = true) ∨ (m = .rdn ∧ ¬∀ x ∈ xs, x.val = 0 ∧ x.s = false)))

/-- A sum of operands, rounded once: a NaN first, then opposite infinities, then an infinity, then the exact sum. -/
def IsSumOf (f : Layout) (m : RMode) (sat : Bool) (ts : List FVal) (r : FRes) : Prop :=
  (.nan ∈ ts → r = ⟨f.nan, 0#4⟩) ∧
  (.nan ∉ ts → .inf false ∈ ts → .inf true ∈ ts → r = ⟨f.nan, flagINV⟩) ∧
  (∀ a, .nan ∉ ts → .inf a ∈ ts → .inf (!a) ∉ ts → r = ⟨f.infinity a, 0#4⟩) ∧
  (∀ xs : List Exact, ts = xs.map FVal.fin → xs ≠ [] → ∃ z, IsTotal m xs z ∧ r = deliver f m sat z)

/-- The sum of two operands as R121 delivers it. -/
def IsSum (f : Layout) (m : RMode) (sat : Bool) (x y : FVal) (r : FRes) : Prop :=
  match x, y with
  | .nan, _ => r = ⟨f.nan, 0#4⟩
  | .inf _, .nan => r = ⟨f.nan, 0#4⟩
  | .fin _, .nan => r = ⟨f.nan, 0#4⟩
  | .inf a, .inf b => if a = b then r = ⟨f.infinity a, 0#4⟩ else r = ⟨f.nan, flagINV⟩
  | .inf a, .fin _ => r = ⟨f.infinity a, 0#4⟩
  | .fin _, .inf b => r = ⟨f.infinity b, 0#4⟩
  | .fin x, .fin y => ∃ z, IsTotal m [x, y] z ∧ r = deliver f m sat z

/-- The exact product of two operands: none for 0 × ∞. -/
def IsProduct (x y : FVal) (z : Option FVal) : Prop :=
  match x, y with
  | .nan, _ => z = some .nan
  | .inf _, .nan => z = some .nan
  | .fin _, .nan => z = some .nan
  | .inf a, .inf b => z = some (.inf (a != b))
  | .inf a, .fin y => z = if y.n = 0 then none else some (.inf (a != y.s))
  | .fin x, .inf b => z = if x.n = 0 then none else some (.inf (x.s != b))
  | .fin x, .fin y => ∃ w : Exact, z = some (.fin w) ∧ 0 < w.d ∧ w.val = x.val * y.val ∧ w.s = (x.s != y.s)

/-- A product as R121 delivers it. -/
def IsRounded (f : Layout) (m : RMode) (sat : Bool) (z : Option FVal) (r : FRes) : Prop :=
  match z with
  | none => r = ⟨f.nan, flagINV⟩
  | some .nan => r = ⟨f.nan, 0#4⟩
  | some (.inf a) => r = ⟨f.infinity a, 0#4⟩
  | some (.fin x) => r = deliver f m sat x

/-- x × y + z rounded once; a NaN operand is tested first. -/
def IsFused (f : Layout) (m : RMode) (sat : Bool) (x y z : FVal) (r : FRes) : Prop :=
  if x.isNan ∨ y.isNan ∨ z.isNan then r = ⟨f.nan, 0#4⟩
  else ∃ p, IsProduct x y p ∧ (match p with
    | none => r = ⟨f.nan, flagINV⟩
    | some p => IsSum f m sat p z r)

/-! ### Rounding and conversion (R79, R80, R83, R84, R86, R87) -/

/-- The largest finite magnitude of a format, and the spacing of its values there (R80). -/
def topOf : FType → ℚ
  | .f32 => (2 ^ 24 - 1) * 2 ^ 104
  | .f16 => 65504
  | .bf16 => (2 ^ 8 - 1) * 2 ^ 120
  | .e4m3 => 448
  | .e5m2 => 57344
def gapOf : FType → ℚ
  | .f32 => 2 ^ 104
  | .f16 => 32
  | .bf16 => 2 ^ 120
  | .e4m3 => 32
  | .e5m2 => 8192

/-- The number v, rounded on the grid of the format continued upwards, exceeds the largest finite magnitude; the tie at the half-way value H is to the
even neighbour, which of E4M3 alone is the largest value itself (R80, R83). -/
def Beyond (t : FType) (m : RMode) (v : ℚ) : Prop :=
  match m with
  | .rn => topOf t + gapOf t / 2 < |v| ∨ (|v| = topOf t + gapOf t / 2 ∧ t ≠ .e4m3)
  | .rz => topOf t + gapOf t ≤ |v|
  | .rdn => topOf t + gapOf t ≤ v ∨ v < -topOf t
  | .rup => topOf t < v ∨ v ≤ -(topOf t + gapOf t)

/-- The code holds the finite value of the format to which the mode rounds x: the nearest, a tie to an even code, or the nearest on the side of the mode; it
has the sign of x. The flags are INX where it differs from x, and none where it does not. -/
def Rounds (t : FType) (m : RMode) (x : Exact) (r : FRes) : Prop :=
  ∃ y, (layoutOf t).value r.bits = .fin y ∧ y.s = x.s ∧ r.fl = (if y.val = x.val then 0#4 else flagINX) ∧
    ∀ c z, c < 2 ^ (layoutOf t).width → (layoutOf t).value c = .fin z → match m with
      | .rn => |y.val - x.val| ≤ |z.val - x.val| ∧ (|y.val - x.val| = |z.val - x.val| → z.val = y.val ∨ r.bits % 2 = 0)
      | .rz => |y.val| ≤ |x.val| ∧ (|z.val| ≤ |x.val| → |z.val| ≤ |y.val|)
      | .rdn => y.val ≤ x.val ∧ (z.val ≤ x.val → z.val ≤ y.val)
      | .rup => x.val ≤ y.val ∧ (x.val ≤ z.val → y.val ≤ z.val)

/-- The code of the largest finite value of a sign. -/
def IsLargest (t : FType) (neg : Bool) (code : Nat) : Prop := ∃ y, (layoutOf t).value code = .fin y ∧ y.s = neg ∧ |y.val| = topOf t

/-- R84: an exact result delivered in a format: rounded; beyond the range an infinity, or the largest finite value under SAT and where a directed mode
selects it, with OVF and INX, and SAT under SAT. -/
def IsDelivered (t : FType) (m : RMode) (sat : Bool) (x : Exact) (r : FRes) : Prop :=
  let largest : Prop := sat = true ∨ match m with
    | .rn => False
    | .rz => True
    | .rdn => x.s = false
    | .rup => x.s = true
  (¬Beyond t m x.val → Rounds t m x r) ∧
  (Beyond t m x.val → r.fl = (flagOVF ||| flagINX ||| if sat then flagSAT else 0#4) ∧
    (largest → IsLargest t x.s r.bits) ∧ (¬largest → t ≠ .e4m3 → (layoutOf t).value r.bits = .inf x.s))

/-- R87 for a floating format. -/
def IsNarrowed (t : FType) (v2 : Bool) (m : RMode) (x : FVal) (r : FRes) : Prop :=
  match x with
  | .nan => r = ⟨(layoutOf t).nan, 0#4⟩
  | .inf g => if v2 then r = ⟨(layoutOf t).nan, flagINV⟩ else IsLargest t g r.bits ∧ r.fl = flagSAT ||| flagOVF ||| flagINX
  | .fin x =>
    let onGrid : Prop := ∃ (k : Nat) (e : Int), k < 2 ^ ((layoutOf t).mw + 1) ∧ |x.val| = k * 2 ^ e
    if m = .rn ∧ |x.val| = topOf t + gapOf t / 2 then IsLargest t x.s r.bits ∧ r.fl = flagOVF ||| flagINX
    else (¬Beyond t m x.val → Rounds t m x r) ∧
      (Beyond t m x.val → IsLargest t x.s r.bits ∧ (onGrid → r.fl = flagSAT ||| flagOVF) ∧ (¬onGrid → r.fl = flagSAT ||| flagOVF ||| flagINX))

/-- A number rounded to an integer (R83). -/
def roundedInt (m : RMode) (v : ℚ) : Int :=
  match m with
  | .rn => if v - ⌊v⌋ < 1 / 2 ∨ (v - ⌊v⌋ = 1 / 2 ∧ ⌊v⌋ % 2 = 0) then ⌊v⌋ else ⌊v⌋ + 1
  | .rz => if 0 ≤ v then ⌊v⌋ else ⌈v⌉
  | .rdn => ⌊v⌋
  | .rup => ⌈v⌉

/-- The least and the greatest value of an integer type (R85). -/
def leastOf : IType → Int
  | .i8 => -2 ^ 7 | .i16 => -2 ^ 15 | .i32 => -2 ^ 31 | .i64 => -2 ^ 63
  | .n8 | .n16 | .n32 | .n64 => 0
def greatestOf : IType → Int
  | .i8 => 2 ^ 7 - 1 | .i16 => 2 ^ 15 - 1 | .i32 => 2 ^ 31 - 1 | .i64 => 2 ^ 63 - 1
  | .n8 => 2 ^ 8 - 1 | .n16 => 2 ^ 16 - 1 | .n32 => 2 ^ 32 - 1 | .n64 => 2 ^ 64 - 1

/-- R87 for an integer type. -/
def IsNarrowedInt (t : IType) (m : RMode) (x : FVal) (r : FRes) : Prop :=
  let is (k : Int) (fl : BitVec 4) : Prop := r.bits = (k % 2 ^ intWidth t).toNat ∧ r.fl = fl
  match x with
  | .nan => is 0 flagINV
  | .inf g => is (if g then leastOf t else greatestOf t) (flagSAT ||| flagOVF ||| flagINX)
  | .fin x =>
    let k := roundedInt m x.val
    let inx : BitVec 4 := if x.val = k then 0#4 else flagINX
    if m = .rn ∧ x.val = greatestOf t + 1 / 2 then is (greatestOf t) (flagOVF ||| flagINX)
    else if k < leastOf t then is (leastOf t) (flagSAT ||| flagOVF ||| inx)
    else if greatestOf t < k then is (greatestOf t) (flagSAT ||| flagOVF ||| inx)
    else is k inx

/-- R86: a value converted to a floating format, narrowing where the largest magnitude of its source exceeds the format's. -/
def IsConverted (source : ℚ) (t : FType) (v2 : Bool) (m : RMode) (x : FVal) (r : FRes) : Prop :=
  if topOf t < source then IsNarrowed t v2 m x r
  else match x with
    | .nan => r = ⟨(layoutOf t).nan, 0#4⟩
    | .inf g => r = ⟨(layoutOf t).infinity g, 0#4⟩
    | .fin x => IsDelivered t m false x r

/-- The value of an integer code (R85). -/
def integerOf (t : IType) (c : Nat) : Int := if greatestOf t < c then (c : Int) - 2 ^ intWidth t else c

/-- The instruction delivers a word and flags of which a property holds, for each lane. -/
def DeliversSuch (i : Instr) (s : State) (u : Bool) (h : Guard) (d : Reg) (good : Lane → IRes 32 → Prop) : Prop :=
  ∃ r : Lane → IRes 32, (∀ l, good l (r l)) ∧ Delivers i s u h d (fun l => (r l).val) (fun l => (r l).fl)

/-! ### Combinations over a group (R166) -/

/-- What R166 gives for a set of values: exact integer results, the floating sum rounded once, the pairwise minimum and maximum of R122. -/
def Combined (f : GFn) (xs : List Word) (r : IRes 32) : Prop :=
  let least (le : Word → Word → Prop) (unit : Word) : Prop := r.fl = 0#4 ∧ (xs = [] → r.val = unit) ∧ (xs ≠ [] → r.val ∈ xs ∧ ∀ x ∈ xs, le r.val x)
  let nan (x : Word) : Prop := f32Val x = .nan
  match f with
  | .addI32 => r = ⟨BitVec.ofNat 32 (xs.map (fun x => x.toNat)).sum, 0#4⟩
  | .minI32 => least (fun x y => x.toInt ≤ y.toInt) 0x7FFFFFFF#32
  | .maxI32 => least (fun x y => y.toInt ≤ x.toInt) 0x80000000#32
  | .minN32 => least (fun x y => x.toNat ≤ y.toNat) 0xFFFFFFFF#32
  | .maxN32 => least (fun x y => y.toNat ≤ x.toNat) 0#32
  | .and => r.fl = 0#4 ∧ ∀ i, i < 32 → (r.val.getLsbD i = true ↔ ∀ x ∈ xs, x.getLsbD i = true)
  | .or => r.fl = 0#4 ∧ ∀ i, i < 32 → (r.val.getLsbD i = true ↔ ∃ x ∈ xs, x.getLsbD i = true)
  | .xor => r.fl = 0#4 ∧ ∀ i, i < 32 → (r.val.getLsbD i = true ↔ xs.countP (fun x => x.getLsbD i) % 2 = 1)
  | .faddF32 => (xs = [] → r = ⟨0#32, 0#4⟩) ∧
    (xs ≠ [] → ∃ q, IsSumOf (layoutOf .f32) .rn false (xs.map f32Val) q ∧ r = ⟨BitVec.ofNat 32 q.bits, q.fl⟩)
  | .fminF32 => ((∃ x ∈ xs, nan x) → r = ⟨f32NaN, 0#4⟩) ∧
    ((∀ x ∈ xs, ¬nan x) → least (fun x y => ltVal (f32Val y) (f32Val x) = false) 0x7F800000#32)
  | .fmaxF32 => ((∃ x ∈ xs, nan x) → r = ⟨f32NaN, 0#4⟩) ∧
    ((∀ x ∈ xs, ¬nan x) → least (fun x y => ltVal (f32Val x) (f32Val y) = false) 0xFF800000#32)

/-- A combination of values in the order of a list, two parts at a time (R322, R404), with the flags of all its steps; `cut` says how long the parts of a
step may be. -/
inductive Bracketed (f : GFn) (cut : Nat → Nat → Prop) : List Word → Word → BitVec 4 → Prop where
  | one (x : Word) : Bracketed f cut [x] x 0#4
  | join {xs ys : List Word} {x y : Word} {p q : BitVec 4} {r : IRes 32} : cut xs.length ys.length → Bracketed f cut xs x p → Bracketed f cut ys y q →
      Combined f [x, y] r → Bracketed f cut (xs ++ ys) r.val (p ||| q ||| r.fl)

/-! ### Blocks (R263) -/

/-- One block step on an accumulator element: NaN where an operand or a product is; an infinity where the terms hold infinities of one sign; else the
exact sum of the element and the products, rounded once to nearest. -/
def IsBlockStep (c : Word) (a b : List FVal) (r : Word) : Prop :=
  let nan : Prop := f32Val c = .nan ∨ ∃ p ∈ a.zip b, p.1 = .nan ∨ p.2 = .nan ∨ IsProduct p.1 p.2 none
  let inf (m : Bool) : Prop := f32Val c = .inf m ∨ ∃ p ∈ a.zip b, IsProduct p.1 p.2 (some (.inf m))
  (nan ∨ inf false ∧ inf true → r = f32NaN) ∧
  (¬nan → inf false → ¬inf true → r = 0x7F800000#32) ∧
  (¬nan → inf true → ¬inf false → r = 0xFF800000#32) ∧
  (∀ (e : Exact) (xs ys : List Exact), f32Val c = .fin e → a = xs.map FVal.fin → b = ys.map FVal.fin →
    ∃ z : Exact, 0 < z.d ∧ z.val = e.val + ((xs.zip ys).map (fun p => p.1.val * p.2.val)).sum ∧
      (z.n = 0 → (z.s = true ↔ e.s = true ∧ ∀ p ∈ xs.zip ys, p.1.s ≠ p.2.s)) ∧ r = BitVec.ofNat 32 (deliver (layoutOf .f32) .rn false z).bits)

/-- One element of a block that is quantised (R256): its code, its flags and the residual that goes on to the next, from its value, the tensor scale, the two
scales and the residual before it. -/
def IsElement (f : DxFmt) (s0 s1 : ℚ) (x : FVal) (t res : ℚ) (code : Nat) (fl : BitVec 4) (left : ℚ) : Prop :=
  let most : ℕ := 2 ^ (dxWidth f - 2) - 1
  match x with
  | .nan => code = 0 ∧ fl = flagINV ∧ left = 0
  | .inf neg => code = 2 ^ (dxWidth f - 1) + (if neg then 2 ^ (dxWidth f - 2) else 0) + most ∧ fl = flagSAT ||| flagOVF ||| flagINX ∧ left = 0
  | .fin v =>
    let z : ℚ := v.val / t + res
    let sel : Bool := decide (most * (s0 / 2 ^ dxFrac f) < |z|)
    let u : ℚ := (if sel then s1 else s0) / 2 ^ dxFrac f
    let near : ℤ := roundedInt .rn (z / u)
    let half : Bool := decide (z ≠ 0 ∧ |z| = (most + 1 / 2) * u)
    let big : Bool := !half && decide (most < near.natAbs)
    let m : ℤ := if half || big then (if z < 0 then -most else most) else near
    code = (if sel then 2 ^ (dxWidth f - 1) else 0) + (if m < 0 then 2 ^ (dxWidth f - 2) else 0) + m.natAbs ∧
    fl = ((if half then flagOVF else if big then flagSAT ||| flagOVF else 0#4) ||| if m * u = z then 0#4 else flagINX) ∧
    left = if big then 0 else z - m * u

/-! ### What engines and queues leave -/

/-- No bit of memory differs but those of A and D, bits 5 and 6 of the bytes in which page-table entries hold them (R189, R191). -/
def OnlyMarks (s t : State) : Prop := ∀ a, t.byte a &&& 0x9F#8 = s.byte a &&& 0x9F#8

/-- No register or predicate of any group differs. -/
def SameRegs (s t : State) : Prop :=
  ∀ j, (t.groupAt j).v = (s.groupAt j).v ∧ (t.groupAt j).g = (s.groupAt j).g ∧ (t.groupAt j).p = (s.groupAt j).p ∧ (t.groupAt j).q = (s.groupAt j).q

/-- A byte of memory or of a core's memories, at a place where an engine writes. -/
def State.engByte (s : State) (c : Nat) (p : EngPlace) : Byte :=
  match p with
  | .mem pa => s.byte pa
  | .scr off => mapGet 0#8 s.scratch (c * 524288 + off)
  | .obuf off => mapGet 0#8 s.obuf (c * 262144 + off)
  | .scale off => mapGet 0#8 s.scale (c * 32768 + off)

/-- The bytes of a list of writes are at their places on core c, and every other byte of memory and of the core's memories is as it was. -/
def Landed (s t : State) (c : Nat) (ws : List (EngPlace × Byte)) : Prop :=
  (∀ p b, (p, b) ∈ ws → (∀ x ∈ ws, x.1 = p → x.2 = b) → t.engByte c p = b) ∧ (∀ p, (∀ x ∈ ws, x.1 ≠ p) → t.engByte c p = s.engByte c p) ∧ t.acc = s.acc

/-- A barrier after an engine operation of its count has arrived, with n bytes that were still pending. -/
def arrivedBar (x : Barrier) (n : Nat) (past carry : List Nat) : Barrier :=
  let y := { x with pending := x.pending - BitVec.ofNat 32 n, engines := x.engines - 1, arrived := x.arrived + 1, carry := carry }
  if y.latched = true ∧ y.arrived = y.expect then { phase := y.phase + 1, pending := y.pending, engines := y.engines, past := past } else y

/-- An instruction has issued and its group waits: the group has completed it otherwise, and its registers and memory stand as they were. -/
structure Awaits (s t : State) (kind : WaitKind) (due : Option Nat) (hold : List Await := []) (target : Option Nat := none) : Prop where
  wait : mapFind t.waits s.nextId = some {
    gid := s.cur, owner := s.grp.owner, island := s.groupIsland s.grp, pc := s.grp.trapAt, w := s.win, kind := kind, due := due, hold := hold
    target := target }
  busy : t.grp.busy = some s.nextId
  mark : t.grp.barMark = s.grp.markHere
  goesOn : t.grp.pc = s.grp.complete.pc ∧ t.grp.n = s.grp.complete.n ∧ t.grp.loops = s.grp.complete.loops
  next : t.nextId = s.nextId + 1
  regs : SameRegs s t
  others : ∀ k, k ≠ s.cur → t.groupAt k = s.groupAt k
  mem : t.mem = s.mem ∧ t.scratch = s.scratch

/-- A waiting instruction ends: its record is gone, its group goes on with the group fields given, and no other group and no byte of memory differs. -/
structure Resumes (s t : State) (k gid : Nat) (g : Group) : Prop where
  gone : mapFind t.waits k = none
  group : t.groupAt gid = { g with busy := none }
  others : ∀ j, j ≠ gid → t.groupAt j = s.groupAt j
  mem : t.mem = s.mem ∧ t.scratch = s.scratch

/-- A plain read by a group of pieces of one size at the addresses given, none of it done. -/
def readsAt (p : MemOp) (gid size : Nat) (vas : List Nat) : Prop :=
  p.gid = gid ∧ p.kind = .load ∧ p.ord = .plain ∧ p.accs.map (fun a => (a.va, a.size, a.done)) = vas.map (fun v => (v, size, false))

/-- An event has been posted to an owner (R416, R417): it has its source's next number, waits behind those before it, and its writing to the ring is due. -/
structure Posted (s t : State) (o kind source : Nat) (tag status : Word) (data : List Byte) (secured : Bool) : Prop where
  event : (t.ownerAt o).events = (s.ownerAt o).events ++ [⟨kind, source, mapGet 0 (s.ownerAt o).evSeq source + 1, tag, status, s.now / 18, data, secured⟩]
  number : mapGet 0 (t.ownerAt o).evSeq source = mapGet 0 (s.ownerAt o).evSeq source + 1
  due : (⟨.wall, s.now, .eventWrite o source⟩ : Pend) ∈ t.agenda
  recorded : s.boxFrozen = false → t.box.getLast? = some ⟨s.now / 18, source, o, kind, (data ++ List.replicate 16 0#8).take 16⟩

/-! ### Issuing a memory instruction (R110 to R113, R226) -/

/-- What the issue of a memory instruction does: its counter is raised, its operation is in flight with one access for each lane, as checked; the group has
completed it with nothing of its registers changed; the walker alone may have written memory, in the leaf entries it found. -/
structure Issued (s t : State) (u : Bool) (h : Guard) (kind : AccKind) (size : Nat) (d : Reg) (o : Ord) (x : Scope) (ldc : Bool)
    (addr : Lane → Dword × Bool) (data : Lane → List Byte × List Byte) : Prop where
  op : ∃ p, mapFind t.ops s.nextId = some p ∧ p.gid = s.cur ∧ p.kind = kind ∧ p.uni = u ∧ p.dst = d ∧ p.ord = o ∧ p.scope = x ∧ p.w = s.win ∧
    p.accs.map (fun a => (a.thread, a.va, a.size, a.done)) = (s.grp.lanes u h).map (fun l => (l.getD 0, (addr l).1.toNat, size, false)) ∧
    (kind ≠ .load → p.accs.map (fun a => (a.data, a.data2)) = (s.grp.lanes u h).map data)
  next : t.nextId = s.nextId + 1
  counter : t.grp.outs = s.grp.outs ++ [⟨kind.cls, s.nextId, false⟩]
  fields : t.grp = { s.grp.complete with
    outs := t.grp.outs, late := t.grp.late, gate := t.grp.gate, seen := t.grp.seen, heard := t.grp.heard }
  others : ∀ k, k ≠ s.cur → t.groupAt k = s.groupAt k
  byte : ∀ a, (∀ l ∈ s.grp.lanes u h, ∀ hit leaf, s.checkAccess s.grp (addr l).1 (addr l).2 size kind.want ldc = .ok hit → hit.leaf = some leaf →
    a < leaf.at_ ∨ leaf.at_ + 8 ≤ a) → t.byte a = s.byte a
  rest : t.scratch = s.scratch ∧ t.owners = s.owners ∧ t.obuf = s.obuf ∧ t.acc = s.acc ∧ t.launches = s.launches

/-- A memory instruction whose lanes all pass their checks issues; one of whose lanes some fail traps, naming them and the first's address and detail, and
what its walks have read is to enter the caches; one for which no lane runs completes, as a fence of its order where it is per-thread and has one. -/
def Accesses (i : Instr) (s : State) (u : Bool) (h : Guard) (kind : AccKind) (size : Nat) (d : Reg) (o : Ord) (x : Scope) (ldc : Bool)
    (addr : Lane → Dword × Bool) (data : Lane → List Byte × List Byte) : Prop :=
  let ls := s.grp.lanes u h
  let check (l : Lane) := s.checkAccess s.grp (addr l).1 (addr l).2 size kind.want ldc
  (ls = [] → u = true ∨ o = .plain → Passes i s) ∧
  (ls = [] → u = false → o ≠ .plain → exec i s = .next ((s.setGrp s.grp.complete).fence s.cur o x s.grp.running)) ∧
  (ls ≠ [] → (∀ l ∈ ls, ∃ hit, check l = .ok hit ∧ s.tileHeldAt hit size = false ∧ ∀ n, s.fateOf s.grp kind hit ≠ .stop n) →
    (s.wgAt s.grp.wg).entries + 2 * ls.length ≤ 8192 → ∃ t, exec i s = .next t ∧ Issued s t u h kind size d o x ldc addr data) ∧
  (∀ before l after c, ls = before ++ l :: after → (∀ y ∈ before, ∃ hit, check y = .ok hit) → check l = .error c →
    ∃ m fills, (let t := s.trap (memTrap (laneMask s.grp m) kind.code c (addr l).1); exec i s = .next { t with agenda := t.agenda ++ fills }) ∧
      (∀ e ∈ fills, ∃ o c l k, e.ev = .prefetchFill o c l k) ∧ ∀ y, y ∈ m ↔ y ∈ ls ∧ ∃ e, check y = .error e)

end Sys2Proof.Machine
end

