-- ==== Sys2Proof/Certificates/Slice0/Obligations.lean ====
section
/-! DEFINITION. The statements for the provers. -/

open Sys2Proof Sys2Proof.Machine

/-! ### Integers (R90, R93 to R97) -/

/-- R90, R93: without SAT the 32-bit arithmetic writes the exact result modulo 2^32 for every lane, and no flag, no other register and no memory
changes; `mulh` writes the high half of the signed or of the unsigned product. -/
def Obligations.IntegerArithmeticWraps : Prop :=
  ∀ (s : State) (u : Bool) (h : Guard) (d a : Reg) (b : BSel),
    (s.grp.modf.sat = false →
      Computes (.add u h d a b) s u h d (fun l => (s.grp.rd l a).toInt + (s.grp.opB l b).toInt) ∧
      Computes (.sub u h d a b) s u h d (fun l => (s.grp.rd l a).toInt - (s.grp.opB l b).toInt) ∧
      Computes (.mul u h d a b) s u h d (fun l => (s.grp.rd l a).toInt * (s.grp.opB l b).toInt) ∧
      Computes (.mad u h d a b) s u h d (fun l => (s.grp.rd l a).toInt * (s.grp.opB l b).toInt + (s.grp.rd l d).toInt)) ∧
    Computes (.mulhI32 u h d a b) s u h d (fun l => (s.grp.rd l a).toInt * (s.grp.opB l b).toInt / 2 ^ 32) ∧
    Computes (.mulhN32 u h d a b) s u h d (fun l => ((s.grp.rd l a).toNat * (s.grp.opB l b).toNat / 2 ^ 32 : Nat))

/-- R85, R90: under a MOD hint with SAT the exact signed result is delivered saturated, with SAT and OVF where it was out of range. -/
def Obligations.IntegerSaturation : Prop :=
  ∀ (s : State) (u : Bool) (h : Guard) (d a : Reg) (b : BSel), s.grp.modf.sat = true →
    let lo : Int := -2 ^ 31
    let hi : Int := 2 ^ 31 - 1
    let x (l : Lane) : Int := (s.grp.rd l a).toInt
    let y (l : Lane) : Int := (s.grp.opB l b).toInt
    let z (l : Lane) : Int := (s.grp.rd l d).toInt
    Delivers (.add u h d a b) s u h d (fun l => BitVec.ofInt 32 (clamp lo hi (x l + y l))) (fun l => clampFlags lo hi (x l + y l)) ∧
    Delivers (.sub u h d a b) s u h d (fun l => BitVec.ofInt 32 (clamp lo hi (x l - y l))) (fun l => clampFlags lo hi (x l - y l)) ∧
    Delivers (.mul u h d a b) s u h d (fun l => BitVec.ofInt 32 (clamp lo hi (x l * y l))) (fun l => clampFlags lo hi (x l * y l)) ∧
    Delivers (.mad u h d a b) s u h d (fun l => BitVec.ofInt 32 (clamp lo hi (x l * y l + z l))) (fun l => clampFlags lo hi (x l * y l + z l))

/-- R90, R93: `addx` and `subx` on pairs, wrapping without SAT and saturated with it. -/
def Obligations.PairArithmetic : Prop :=
  ∀ (s : State) (u : Bool) (h : Guard) (d a : Reg) (b : BSel),
    let lo : Int := -2 ^ 63
    let hi : Int := 2 ^ 63 - 1
    let x (l : Lane) : Int := (s.grp.rd64 l a).toInt
    let y (l : Lane) : Int := (s.grp.opB64 l b).toInt
    (s.grp.modf.sat = false →
      ComputesPair (.addx u h d a b) s u h d (fun l => x l + y l) ∧ ComputesPair (.subx u h d a b) s u h d (fun l => x l - y l)) ∧
    (s.grp.modf.sat = true →
      DeliversPair (.addx u h d a b) s u h d (fun l => BitVec.ofInt 64 (clamp lo hi (x l + y l))) (fun l => clampFlags lo hi (x l + y l)) ∧
      DeliversPair (.subx u h d a b) s u h d (fun l => BitVec.ofInt 64 (clamp lo hi (x l - y l))) (fun l => clampFlags lo hi (x l - y l)))

/-- R93: minima, maxima and bitwise logic. -/
def Obligations.MinMaxLogic : Prop :=
  ∀ (s : State) (u : Bool) (h : Guard) (d a : Reg) (b : BSel),
    let x (l : Lane) : Word := s.grp.rd l a
    let y (l : Lane) : Word := s.grp.opB l b
    Computes (.minI32 u h d a b) s u h d (fun l => min (x l).toInt (y l).toInt) ∧
    Computes (.maxI32 u h d a b) s u h d (fun l => max (x l).toInt (y l).toInt) ∧
    Computes (.minN32 u h d a b) s u h d (fun l => (min (x l).toNat (y l).toNat : Nat)) ∧
    Computes (.maxN32 u h d a b) s u h d (fun l => (max (x l).toNat (y l).toNat : Nat)) ∧
    Computes (.andB u h d a b) s u h d (fun l => ((x l).toNat &&& (y l).toNat : Nat)) ∧
    Computes (.orB u h d a b) s u h d (fun l => ((x l).toNat ||| (y l).toNat : Nat)) ∧
    Computes (.xorB u h d a b) s u h d (fun l => ((x l).toNat ^^^ (y l).toNat : Nat)) ∧
    Computes (.andnB u h d a b) s u h d (fun l => ((x l).toNat &&& (2 ^ 32 - 1 - (y l).toNat) : Nat))

/-- R93: shifts by n read as unsigned, whatever n is, and the rotation by n mod 32. -/
def Obligations.Shifts : Prop :=
  ∀ (s : State) (u : Bool) (h : Guard) (d a : Reg) (b : BSel),
    let x (l : Lane) : Word := s.grp.rd l a
    let n (l : Lane) : Nat := (s.grp.opB l b).toNat
    Computes (.shl u h d a b) s u h d (fun l => if 32 ≤ n l then 0 else ((x l).toNat * 2 ^ n l : Nat)) ∧
    Computes (.shr u h d a b) s u h d (fun l => if 32 ≤ n l then 0 else ((x l).toNat / 2 ^ n l : Nat)) ∧
    Computes (.sar u h d a b) s u h d (fun l => (x l).toInt / 2 ^ min (n l) 31) ∧
    Computes (.rotl u h d a b) s u h d (fun l => ((x l).toNat * 2 ^ (n l % 32) + (x l).toNat / 2 ^ (32 - n l % 32) : Nat))

/-- R94: the unary operations of one register: negation, moves and extensions, counting leading zeros and ones, and reversing the bits. -/
def Obligations.UnaryOperations : Prop :=
  ∀ (s : State) (u : Bool) (h : Guard) (d a : Reg),
    let x (l : Lane) : Word := s.grp.rd l a
    Computes (.negI u h d a) s u h d (fun l => -(x l).toInt) ∧
    Computes (.absI u h d a) s u h d (fun l => |(x l).toInt|) ∧
    Computes (.notB u h d a) s u h d (fun l => -1 - (x l).toInt) ∧
    Computes (.mov u h d a) s u h d (fun l => (x l).toNat) ∧
    Computes (.sxtI8 u h d a) s u h d (fun l => ((x l).toInt).bmod (2 ^ 8)) ∧
    Computes (.sxtI16 u h d a) s u h d (fun l => ((x l).toInt).bmod (2 ^ 16)) ∧
    Computes (.zxtN8 u h d a) s u h d (fun l => ((x l).toNat % 2 ^ 8 : Nat)) ∧
    Computes (.zxtN16 u h d a) s u h d (fun l => ((x l).toNat % 2 ^ 16 : Nat)) ∧
    ComputesPair (.sxtI32 u h d a) s u h d (fun l => (x l).toInt) ∧
    ComputesPair (.zxtN32 u h d a) s u h d (fun l => (x l).toNat) ∧
    (∃ f : Lane → Nat, Computes (.clz u h d a) s u h d (fun l => f l) ∧
      ∀ l, f l ≤ 32 ∧ (x l).toNat < 2 ^ (32 - f l) ∧ (f l < 32 → 2 ^ (31 - f l) ≤ (x l).toNat)) ∧
    Computes (.popc u h d a) s u h d (fun l => ((List.range 32).countP (fun i => (x l).getLsbD i) : Nat)) ∧
    (∃ f : Lane → Word, Computes (.brev u h d a) s u h d (fun l => (f l).toNat) ∧
      ∀ l i, i < 32 → (f l).getLsbD (31 - i) = (x l).getLsbD i)

/-- R95: bit fields at pos with the effective width w'. -/
def Obligations.BitFields : Prop :=
  ∀ (s : State) (u : Bool) (h : Guard) (d a : Reg) (b : BSel),
    let x (l : Lane) : Nat := (s.grp.rd l a).toNat
    let z (l : Lane) : Nat := (s.grp.rd l d).toNat
    let pos (l : Lane) : Nat := (s.grp.opB l b).toNat % 32
    let w (l : Lane) : Nat := min (min ((s.grp.opB l b).toNat / 32 % 64) 32) (32 - pos l)
    Computes (.bfxN32 u h d a b) s u h d (fun l => (x l / 2 ^ pos l % 2 ^ w l : Nat)) ∧
    Computes (.bfxI32 u h d a b) s u h d (fun l => if w l = 0 then 0 else ((x l / 2 ^ pos l : Nat) : Int).bmod (2 ^ w l)) ∧
    Computes (.bfi u h d a b) s u h d (fun l =>
      (z l % 2 ^ pos l + x l % 2 ^ w l * 2 ^ pos l + z l / 2 ^ (pos l + w l) * 2 ^ (pos l + w l) : Nat))

/-- R96, R97: `lea` adds the b operand, sign-extended and shifted by s, to Pair(a), and makes no check. `movi` writes the sign-extended immediate, or under a
WIDE hint the low 32 bits of payload : imm14; `movh` writes the same to d + 1 of an even d and leaves d. -/
def Obligations.AddressesAndImmediates : Prop :=
  (∀ (s : State) (u : Bool) (h : Guard) (d : BitVec 5) (k : BitVec 2) (a : BitVec 5) (b : BSel),
    ComputesPair (.lea u h d k a b) s u h (d ++ 0#1)
      (fun l => (s.grp.rd64 l (a ++ 0#1)).toInt + (s.grp.opB l b).toInt * 2 ^ k.toNat)) ∧
  (∀ (s : State) (u : Bool) (h : Guard) (d : Reg) (i : BitVec 14),
    let v : Int := match s.grp.wide with
      | some p => (p.toNat * 2 ^ 14 + i.toNat : Nat)
      | none => i.toInt
    Computes (.movi u h d i) s u h d (fun _ => v) ∧
    Computes (.movh u h d i) s u h (d + 1) (fun _ => v) ∧
    (d.getLsbD 0 = true → (Instr.movh u h d i).wf = false))

/-- R99: a compare sets its predicate to the truth of A cond B, as signed or as unsigned. -/
def Obligations.IntegerCompares : Prop :=
  ∀ (s : State) (u : Bool) (h : Guard) (c : Cond) (p : BitVec 3) (a : Reg) (b : BSel), p ≠ 7#3 →
    let holds (x y : Int) : Prop := match c with
      | .eq => x = y
      | .ne => x ≠ y
      | .lt => x < y
      | .le => x ≤ y
      | .gt => y < x
      | .ge => y ≤ x
    Decides (.cmpI32 u h c p a b) s u h p (fun l => holds (s.grp.rd l a).toInt (s.grp.opB l b).toInt) ∧
    Decides (.cmpN32 u h c p a b) s u h p (fun l => holds (s.grp.rd l a).toNat (s.grp.opB l b).toNat)

/-- R26, R98, R100: the logic of predicates; a source numbered 7 reads as true. `sel` chooses by its predicate, complemented or not, for every thread of the
active mask and without a guard. -/
def Obligations.PredicateLogic : Prop :=
  (∀ (s : State) (u : Bool) (p : BitVec 3) (n : Bool) (d a : Reg) (b : BSel),
    Computes (.sel u p n d a b) s u ⟨7#3, false⟩ d
      (fun l => if s.grp.rp l p = !n then (s.grp.rd l a).toInt else (s.grp.opB l b).toInt)) ∧
  ∀ (s : State) (u : Bool) (h : Guard) (d a b : BitVec 3), d ≠ 7#3 →
    let v (i : BitVec 3) (l : Lane) : Prop := i = 7#3 ∨ (match l with
      | none => s.grp.q.getLsbD i.toNat = true
      | some t => (mapGet 0#32 s.grp.p i.toNat).getLsbD t = true)
    Decides (.pand u h d a b) s u h d (fun l => v a l ∧ v b l) ∧
    Decides (.por u h d a b) s u h d (fun l => v a l ∨ v b l) ∧
    Decides (.pxor u h d a b) s u h d (fun l => ¬(v a l ↔ v b l)) ∧
    Decides (.pnot u h d a) s u h d (fun l => ¬v a l)

/-! ### Floating point (R83, R84, R116, R121 to R132) -/

/-- R121: sum, difference, product and fused product of FP32 operands after their modifiers, delivered as R84 rounds the exact result. Each completes in every
state and on every operand. -/
def Obligations.FloatArithmetic : Prop :=
  ∀ (s : State) (u : Bool) (h : Guard) (d a : Reg) (b : BSel),
    (∀ i ∈ [Instr.fadd u h d a b, .fsub u h d a b, .fmul u h d a b, .ffma u h d a b],
      ∃ t, exec i s = .next t ∧ OnlyGroup s t ∧ t.grp.pc = s.grp.complete.pc) ∧
    let f := layoutOf .f32
    let m := s.grp.mode
    let z := s.grp.modf.sat
    let x (l : Lane) : FVal := f32Val (modWord s.grp.modf.absa s.grp.modf.nega (s.grp.rd l a))
    let y (l : Lane) : FVal := f32Val (modWord s.grp.modf.absb s.grp.modf.negb (s.grp.opBF l b))
    let w (l : Lane) : FVal := f32Val (modWord false s.grp.modf.negd (s.grp.rd l d))
    let word (p : FRes → Prop) (r : IRes 32) : Prop := ∃ q, p q ∧ r = ⟨BitVec.ofNat 32 q.bits, q.fl⟩
    DeliversSuch (.fadd u h d a b) s u h d (fun l => word (IsSum f m z (x l) (y l))) ∧
    DeliversSuch (.fsub u h d a b) s u h d (fun l => word (IsSum f m z (x l) (y l).neg)) ∧
    DeliversSuch (.fmul u h d a b) s u h d (fun l => word (fun q => ∃ p, IsProduct (x l) (y l) p ∧ IsRounded f m z p q)) ∧
    DeliversSuch (.ffma u h d a b) s u h d (fun l => word (IsFused f m z (x l) (y l) (w l)))

/-- R128, R129: the packed forms compute each half as R121 does in its own format and OR the flags; a product is rounded once. `dot2` rounds the exact sum
of two products and an FP32 addend once; a NaN first, then 0 × ∞ and opposite infinities. Each completes in every state and on every operand. -/
def Obligations.PackedArithmetic : Prop :=
  ∀ (s : State) (h : Guard) (d a : Reg) (bf ghalf : Bool) (b : BitVec 6),
    (∀ i ∈ [Instr.hadd2 h d a bf ghalf b, .hmul2 h d a bf ghalf b, .hfma2 h d a bf ghalf b, .dot2 h d a bf ghalf b],
      ∃ t, exec i s = .next t ∧ OnlyGroup s t ∧ t.grp.pc = s.grp.complete.pc) ∧
    let f := layoutOf (if bf then .bf16 else .f16)
    let m := s.grp.mode
    let z := s.grp.modf.sat
    let half (w : Word) (i : Nat) : FVal := f.value (w.toNat / 2 ^ (16 * i) % 2 ^ 16)
    let bw (l : Lane) : Word := if ghalf then s.grp.getG b else s.grp.rd l b
    let x (l : Lane) (i : Nat) : FVal := applyMod s.grp.modf.absa s.grp.modf.nega (half (s.grp.rd l a) i)
    let y (l : Lane) (i : Nat) : FVal := applyMod s.grp.modf.absb s.grp.modf.negb (half (bw l) i)
    let w (l : Lane) (i : Nat) : FVal := applyMod false s.grp.modf.negd (half (s.grp.rd l d) i)
    let both (p : Lane → Nat → FRes → Prop) (l : Lane) (r : IRes 32) : Prop :=
      ∃ q0 q1, p l 0 q0 ∧ p l 1 q1 ∧ r = ⟨BitVec.ofNat 16 q1.bits ++ BitVec.ofNat 16 q0.bits, q0.fl ||| q1.fl⟩
    DeliversSuch (.hadd2 h d a bf ghalf b) s false h d (both (fun l i => IsSum f m z (x l i) (y l i))) ∧
    DeliversSuch (.hmul2 h d a bf ghalf b) s false h d (both (fun l i q => ∃ p, IsProduct (x l i) (y l i) p ∧ IsRounded f m z p q)) ∧
    DeliversSuch (.hfma2 h d a bf ghalf b) s false h d (both (fun l i => IsFused f m z (x l i) (y l i) (w l i))) ∧
    (let c (l : Lane) : FVal := f32Val (modWord false s.grp.modf.negd (s.grp.rd l d))
     let rounded (e : Exact) : IRes 32 := ⟨BitVec.ofNat 32 (deliver (layoutOf .f32) m z e).bits, (deliver (layoutOf .f32) m z e).fl⟩
     let infinite (v : FVal) : Prop := v = .inf false ∨ v = .inf true
     DeliversSuch (.dot2 h d a bf ghalf b) s false h d (fun l r =>
       ∃ p0 p1 : Option FVal, IsProduct (x l 0) (y l 0) p0 ∧ IsProduct (x l 1) (y l 1) p1 ∧
       (if (x l 0).isNan ∨ (x l 1).isNan ∨ (y l 0).isNan ∨ (y l 1).isNan ∨ (c l).isNan then r = ⟨f32NaN, 0#4⟩
       else match p0, p1, c l with
         | some (.fin p), some (.fin q), .fin c => ∃ e, IsTotal m [p, q, c] e ∧ r = rounded e
         | some p, some q, c => (infinite p ∨ infinite q ∨ infinite c) ∧
           (if FVal.inf false ∈ [p, q, c] ∧ FVal.inf true ∈ [p, q, c] then r = ⟨f32NaN, flagINV⟩
           else if FVal.inf false ∈ [p, q, c] then r = ⟨BitVec.ofNat 32 ((layoutOf .f32).infinity false), 0#4⟩
           else r = ⟨BitVec.ofNat 32 ((layoutOf .f32).infinity true), 0#4⟩)
         | _, _, _ => r = ⟨f32NaN, flagINV⟩)))

/-- R122, R123, R124: minimum and maximum, sign operations, rounding to an integral value, and classification; no flag. Each completes in every state and on
every operand. -/
def Obligations.FloatSelection : Prop :=
  ∀ (s : State) (u : Bool) (h : Guard) (d a : Reg) (b : BSel),
    (∀ i ∈ [Instr.fmin u h d a b, .fmax u h d a b, .fneg u h d a, .fabs u h d a, .fclass u h d a, .frndRn u h d a, .frndRz u h d a, .frndRd u h d a,
        .frndRu u h d a],
      ∃ t, exec i s = .next t ∧ OnlyGroup s t ∧ t.grp.pc = s.grp.complete.pc ∧ t.grp.flags = s.grp.flags) ∧
    let x (l : Lane) : Word := modWord s.grp.modf.absa s.grp.modf.nega (s.grp.rd l a)
    let y (l : Lane) : Word := modWord s.grp.modf.absb s.grp.modf.negb (s.grp.opBF l b)
    let integral (l : Lane) (q : ℚ → ℤ) : Word := match f32Val (x l) with
      | .nan => f32NaN
      | .inf g => f32Code (.inf g)
      | .fin v => f32Code (.fin ⟨v.s, (q v.val).natAbs, 1⟩)
    let bit (c : Word) : Nat := match f32Val c with
      | .nan => 8
      | .inf g => if g then 0 else 7
      | .fin v => if v.n = 0 then (if v.s then 3 else 4) else if c.toNat / 2 ^ 23 % 256 = 0 then (if v.s then 2 else 5) else (if v.s then 1 else 6)
    (∃ r, Writes (.fmin u h d a b) s u h d r ∧ ∀ l, if (f32Val (x l)).isNan ∨ (f32Val (y l)).isNan then r l = f32NaN
      else (r l = x l ∨ r l = y l) ∧ ltVal (f32Val (x l)) (f32Val (r l)) = false ∧ ltVal (f32Val (y l)) (f32Val (r l)) = false) ∧
    (∃ r, Writes (.fmax u h d a b) s u h d r ∧ ∀ l, if (f32Val (x l)).isNan ∨ (f32Val (y l)).isNan then r l = f32NaN
      else (r l = x l ∨ r l = y l) ∧ ltVal (f32Val (r l)) (f32Val (x l)) = false ∧ ltVal (f32Val (r l)) (f32Val (y l)) = false) ∧
    Writes (.fneg u h d a) s u h d (fun l => f32Code (f32Val (x l)).neg) ∧
    Writes (.fabs u h d a) s u h d (fun l => f32Code (f32Val (x l)).abs) ∧
    Writes (.fclass u h d a) s u h d (fun l => BitVec.twoPow 32 (bit (s.grp.rd l a))) ∧
    Writes (.frndRn u h d a) s u h d (fun l => integral l (fun v =>
      if v - ⌊v⌋ < 1 / 2 ∨ (v - ⌊v⌋ = 1 / 2 ∧ ⌊v⌋ % 2 = 0) then ⌊v⌋ else ⌊v⌋ + 1)) ∧
    Writes (.frndRz u h d a) s u h d (fun l => integral l (fun v => if 0 ≤ v then ⌊v⌋ else ⌈v⌉)) ∧
    Writes (.frndRd u h d a) s u h d (fun l => integral l (fun v => ⌊v⌋)) ∧
    Writes (.frndRu u h d a) s u h d (fun l => integral l (fun v => ⌈v⌉))

/-- R125: the conditions of `fcmp`; +0 and -0 compare equal, and a NaN is unordered. It completes in every state and on every operand. -/
def Obligations.FloatCompares : Prop :=
  ∀ (s : State) (u : Bool) (h : Guard) (c : FCond) (p : BitVec 3) (a : Reg) (b : BSel), p ≠ 7#3 →
    (∃ t, exec (.fcmp u h c p a b) s = .next t ∧ OnlyGroup s t ∧ t.grp.pc = s.grp.complete.pc) ∧
    let x (l : Lane) : FVal := f32Val (modWord s.grp.modf.absa s.grp.modf.nega (s.grp.rd l a))
    let y (l : Lane) : FVal := f32Val (modWord s.grp.modf.absb s.grp.modf.negb (s.grp.opBF l b))
    let un (l : Lane) : Prop := x l = .nan ∨ y l = .nan
    let less (v w : FVal) : Prop := match v, w with
      | .fin v, .fin w => v.val < w.val
      | .inf v, .fin _ => v = true
      | .fin _, .inf w => w = false
      | .inf v, .inf w => v = true ∧ w = false
      | _, _ => False
    let same (v w : FVal) : Prop := match v, w with
      | .fin v, .fin w => v.val = w.val
      | .inf v, .inf w => v = w
      | _, _ => False
    c.bits = (match c with
      | .eq => 0#3
      | .ne => 1#3
      | .lt => 2#3
      | .le => 3#3
      | .gt => 4#3
      | .ge => 5#3
      | .un => 6#3
      | .ord => 7#3) ∧
    Decides (.fcmp u h c p a b) s u h p (fun l => match c with
      | .eq => ¬un l ∧ same (x l) (y l)
      | .ne => un l ∨ ¬same (x l) (y l)
      | .lt => ¬un l ∧ less (x l) (y l)
      | .le => ¬un l ∧ (less (x l) (y l) ∨ same (x l) (y l))
      | .gt => ¬un l ∧ less (y l) (x l)
      | .ge => ¬un l ∧ (less (y l) (x l) ∨ same (x l) (y l))
      | .un => un l
      | .ord => ¬un l)

/-- R86, R87, R88, R126, R127: conversions read the source lane, and write a 32-bit result, a sign- or zero-extended narrow one, or under a TYPE hint one
lane with the rest kept or cleared; a 64-bit result goes to the pair. Narrowing follows R87 and widening R86, a pending overflow record is made as R88 has it
(its mask and detail as log 47 reads R331 and R338: the model's choice). Each completes in every state and on every operand. -/
def Obligations.Conversions : Prop :=
  ∀ (s : State) (u : Bool) (h : Guard) (d a : Reg),
    (∀ (t y : FType) (n : IType), ∀ i ∈ [Instr.fcvt u h d a t y, .fcvti u h d a n y, .icvtf u h d a t n],
      ∃ r, exec i s = .next r ∧ OnlyGroup s r ∧ r.grp.pc = s.grp.complete.pc) ∧
    let src (l : Lane) (w : Nat) : Nat := if w = 64 then (s.grp.rd64 l a).toNat
      else (s.grp.rd l a).toNat / 2 ^ ((s.grp.typeHint.elim 0 (fun x => x.2.2.toNat)) * w) % 2 ^ w
    let lane (l : Lane) (w : Nat) (sx : Bool) (q : FRes) (r : IRes 32) : Prop := r.fl = q.fl ∧
      (if w = 32 then r.val = BitVec.ofNat 32 q.bits
      else match s.grp.typeHint with
        | none => r.val = if sx then (BitVec.ofNat w q.bits).signExtend 32 else (BitVec.ofNat w q.bits).setWidth 32
        | some (keep, n, _) => ∀ i, i < 32 → r.val.getLsbD i =
          if n.toNat * w ≤ i ∧ i < n.toNat * w + w then q.bits.testBit (i - n.toNat * w) else keep && (s.grp.rd l d).getLsbD i)
    let v2 := s.grp.flagArm.getLsbD 0
    let float (l : Lane) (y : FType) : FVal := (layoutOf y).value (src l (ftypeWidth y))
    let integer (l : Lane) (y : IType) (v : FVal) : Prop := ∃ e : Exact, v = .fin e ∧ 0 < e.d ∧ e.val = integerOf y (src l (intWidth y)) ∧
      (e.s = true ↔ e.val < 0)
    (∀ t y, DeliversSuch (.fcvt u h d a t y) s u h d (fun l r =>
      ∃ q, IsConverted (topOf y) t v2 s.grp.mode (float l y) q ∧ lane l (ftypeWidth t) false q r)) ∧
    (∀ t y, intWidth t ≠ 64 → DeliversSuch (.fcvti u h d a t y) s u h d (fun l r =>
      ∃ q, IsNarrowedInt t s.grp.mode (float l y) q ∧ lane l (intWidth t) (intSigned t) q r)) ∧
    (∀ t y, intWidth t = 64 → ∃ q : Lane → FRes, (∀ l, IsNarrowedInt t s.grp.mode (float l y) (q l)) ∧
      DeliversPair (.fcvti u h d a t y) s u h d (fun l => BitVec.ofNat 64 (q l).bits) (fun l => (q l).fl)) ∧
    (∀ t y, DeliversSuch (.icvtf u h d a t y) s u h d (fun l r =>
      ∃ v q, integer l y v ∧ IsConverted (max (greatestOf y) (-leastOf y) : Int) t v2 s.grp.mode v q ∧ lane l (ftypeWidth t) false q r))

/-- R130 to R132: the special functions: NaN in, NaN out; invalid operands; the results that R132 gives exactly, each without a flag where nothing is rounded;
`rcp` rounded once from the exact quotient, `sqrt` and `rsqrt` correctly rounded from the exact root, `sqrt` in the mode of the instruction; INX where the
result is not exact. Each completes in every state and on every operand. -/
def Obligations.SpecialFunctions : Prop :=
  ∀ (s : State) (u : Bool) (h : Guard) (d a : Reg),
    (∀ i ∈ [Instr.rcp u h d a, .rsqrt u h d a, .sqrt u h d a, .exp2 u h d a, .log2 u h d a, .sinpi u h d a, .cospi u h d a, .sincospi u h d a, .tanh u h d a],
      ∃ t, exec i s = .next t ∧ OnlyGroup s t ∧ t.grp.pc = s.grp.complete.pc) ∧
    let x (l : Lane) : FVal := f32Val (modWord s.grp.modf.absa s.grp.modf.nega (s.grp.rd l a))
    let sat := s.grp.modf.sat
    let f := layoutOf .f32
    let nan : IRes 32 := ⟨f32NaN, 0#4⟩
    let invalid : IRes 32 := ⟨f32NaN, flagINV⟩
    let infinity (g : Bool) : IRes 32 := ⟨if g then 0xFF800000#32 else 0x7F800000#32, 0#4⟩
    let zero (g : Bool) : IRes 32 := ⟨if g then 0x80000000#32 else 0#32, 0#4⟩
    let one (g : Bool) : IRes 32 := ⟨if g then 0xBF800000#32 else 0x3F800000#32, 0#4⟩
    let exact (v : ℚ) (r : IRes 32) : Prop := r.fl = 0#4 ∧ ∃ y, f32Val r.val = .fin y ∧ y.val = v
    let even (k : Int) : Prop := k % 2 = 0
    let recip (v : FVal) (r : IRes 32) : Prop := match v with
      | .nan => r = nan
      | .inf g => r = zero g
      | .fin y => (y.n = 0 → r = infinity y.s) ∧ (y.n ≠ 0 → ∃ z : Exact, z.s = y.s ∧ z.val = 1 / y.val ∧
          r = ⟨BitVec.ofNat 32 (deliver f .rn sat z).bits, (deliver f .rn sat z).fl⟩)
    let rooted (m : RMode) (v : ℚ) (r : IRes 32) : Prop := ∃ y, f32Val r.val = .fin y ∧ y.s = false ∧
      r.fl = (if y.val ^ 2 = v then 0#4 else flagINX) ∧ ∀ c z, f32Val c = .fin z → 0 ≤ z.val → match m with
        | .rn => (y.val < z.val → 4 * v < (y.val + z.val) ^ 2) ∧ (z.val < y.val → (y.val + z.val) ^ 2 < 4 * v)
        | .rz => y.val ^ 2 ≤ v ∧ (y.val < z.val → v < z.val ^ 2)
        | .rdn => y.val ^ 2 ≤ v ∧ (y.val < z.val → v < z.val ^ 2)
        | .rup => v ≤ y.val ^ 2 ∧ (z.val < y.val → z.val ^ 2 < v)
    let root (v : FVal) (r : IRes 32) : Prop := match v with
      | .nan => r = nan
      | .inf g => r = if g then invalid else infinity false
      | .fin y => (y.n = 0 → r = zero y.s) ∧ (y.n ≠ 0 → y.s = true → r = invalid) ∧
          (∀ c w, f32Val c = .fin w → w.s = false → y.n ≠ 0 → y.s = false → y.val = w.val ^ 2 → r = ⟨c, 0#4⟩) ∧
          (y.n ≠ 0 → y.s = false → rooted s.grp.mode y.val r)
    let recipRoot (v : FVal) (r : IRes 32) : Prop := match v with
      | .nan => r = nan
      | .inf g => r = if g then invalid else zero false
      | .fin y => (y.n = 0 → r = infinity y.s) ∧ (y.n ≠ 0 → y.s = true → r = invalid) ∧ (∀ k : Int, y.val = 4 ^ k → exact (2 ^ (-k)) r) ∧
          (y.n ≠ 0 → y.s = false → rooted .rn (1 / y.val) r)
    let power (v : FVal) (r : IRes 32) : Prop := match v with
      | .nan => r = nan
      | .inf g => r = if g then zero false else infinity false
      | .fin y => (∀ k : Int, -149 ≤ k → k < 128 → y.val = k → exact (2 ^ k) r) ∧
          (128 ≤ y.val → r = if sat then ⟨0x7F7FFFFF#32, flagSAT ||| flagOVF ||| flagINX⟩ else ⟨0x7F800000#32, flagOVF ||| flagINX⟩) ∧
          ((∀ k : Int, y.val ≠ k) → r.fl.getLsbD 0 = true)
    let logarithm (v : FVal) (r : IRes 32) : Prop := match v with
      | .nan => r = nan
      | .inf g => r = if g then invalid else infinity false
      | .fin y => (y.n = 0 → r = infinity true) ∧ (y.n ≠ 0 → y.s = true → r = invalid) ∧ (∀ k : Int, y.val = 2 ^ k → exact k r) ∧
          (y.n ≠ 0 → y.s = false → (∀ k : Int, y.val ≠ 2 ^ k) → r.fl.getLsbD 0 = true)
    let sine (v : FVal) (r : IRes 32) : Prop := match v with
      | .nan => r = nan
      | .inf _ => r = invalid
      | .fin y => (∀ k : Int, y.val = k → r = zero y.s) ∧ (∀ k : Int, y.val = k + 1 / 2 → (even k → r = one false) ∧ (¬even k → r = one true)) ∧
          ((∀ k : Int, y.val ≠ k / 2) → r.fl.getLsbD 0 = true)
    let cosine (v : FVal) (r : IRes 32) : Prop := match v with
      | .nan => r = nan
      | .inf _ => r = invalid
      | .fin y => (∀ k : Int, y.val = k → (even k → r = one false) ∧ (¬even k → r = one true)) ∧ (∀ k : Int, y.val = k + 1 / 2 → r = zero false) ∧
          ((∀ k : Int, y.val ≠ k / 2) → r.fl.getLsbD 0 = true)
    let tangent (v : FVal) (r : IRes 32) : Prop := match v with
      | .nan => r = nan
      | .inf g => r = one g
      | .fin y => (y.n = 0 → r = zero y.s) ∧ (y.n ≠ 0 → r.fl.getLsbD 0 = true) ∧ (16 ≤ |y.val| → r = ⟨(one y.s).val, flagINX⟩)
    DeliversSuch (.rcp u h d a) s u h d (fun l => recip (x l)) ∧ DeliversSuch (.sqrt u h d a) s u h d (fun l => root (x l)) ∧
    DeliversSuch (.rsqrt u h d a) s u h d (fun l => recipRoot (x l)) ∧ DeliversSuch (.exp2 u h d a) s u h d (fun l => power (x l)) ∧
    DeliversSuch (.log2 u h d a) s u h d (fun l => logarithm (x l)) ∧ DeliversSuch (.sinpi u h d a) s u h d (fun l => sine (x l)) ∧
    DeliversSuch (.cospi u h d a) s u h d (fun l => cosine (x l)) ∧ DeliversSuch (.tanh u h d a) s u h d (fun l => tangent (x l)) ∧
    ∃ p q : Lane → IRes 32, (∀ l, sine (x l) (p l) ∧ cosine (x l) (q l)) ∧
      DeliversPair (.sincospi u h d a) s u h d (fun l => (q l).val ++ (p l).val) (fun l => (p l).fl ||| (q l).fl)

/-- R80, R83, R84: what is delivered for an exact result, whatever it is: where its rounding stays within the range (of FP32 below 2^128 - 2^103 in magnitude to
nearest, and by the values of the mode else), the rounded value, nearest with ties to an even code or on the side of the mode, with INX where it differs;
beyond the range OVF and INX with an infinity under nearest-even, the infinity or the largest finite value under a directed mode, and under SAT that largest
value with SAT. Values below the range of normal numbers are rounded on the subnormal grid, and a zero keeps the sign (R82). -/
def Obligations.DeliverRoundsCorrectly : Prop :=
  ∀ (t : FType) (m : RMode) (sat : Bool) (x : Exact), 0 < x.d → IsDelivered t m sat x (deliver (layoutOf t) m sat x)

/-! ### Control (R101 to R108, R115, R137, R140) -/

/-- R12, R101, R102, R104: `nop` only completes; a branch whose guard fails, or that no thread takes, completes; one that every running thread takes, `brx`
and `ret` go to their target, `ret` without leaving a loop; a target with a bit of 63:56 set, or else one that is no multiple of 4, traps with nothing done. -/
def Obligations.ControlTransfers : Prop :=
  ∀ (s : State) (u : Bool) (h : Guard) (f : BitVec 20) (a : Reg),
    let disp : Int := match s.grp.wide with
      | some p => (p ++ f : BitVec 42).toInt
      | none => f.toInt
    let target : Dword := BitVec.ofInt 64 (s.grp.pc.toNat + 4 + 4 * disp)
    let pair : Dword := s.grp.getG (a + 1) ++ s.grp.getG a
    Passes (.nop u h) s ∧
    (s.grp.guardQ h = false → Passes (.bra true h f) s ∧ Passes (.brx h a) s ∧ Passes (.ret h a) s) ∧
    (s.grp.active h = 0#32 → Passes (.bra false h f) s) ∧
    (s.grp.guardQ h = true → JumpsTo (.bra true h f) s target ∧ JumpsTo (.brx h a) s pair) ∧
    (s.grp.active h = s.grp.running → s.grp.running ≠ 0#32 → JumpsTo (.bra false h f) s target) ∧
    (s.grp.guardQ h = true → pair.toNat < 2 ^ 56 → pair.toNat % 4 = 0 →
      exec (.ret h a) s = .next (s.setGrp { s.grp with pc := pair.setWidth 56, hint := none })) ∧
    (∀ i x, i = .bra true h f ∧ x = target ∧ s.grp.guardQ h = true ∨ (i = .brx h a ∨ i = .ret h a) ∧ x = pair ∧ s.grp.guardQ h = true ∨
        i = .bra false h f ∧ x = target ∧ s.grp.active h ≠ 0#32 →
      (2 ^ 56 ≤ x.toNat → exec i s = .next (s.trap (memTrap s.grp.running 5 0 x))) ∧
      (x.toNat < 2 ^ 56 → x.toNat % 4 ≠ 0 → exec i s = .next (s.trap (memTrap s.grp.running 5 1 x))))

/-- R12, R101, R103, R104: a call links into its pair the address at which completing would have gone on, makes the end-of-iteration step, and goes to its
target without leaving a loop otherwise; d = a reads the target first. A bad target traps, and nothing is linked. -/
def Obligations.Calls : Prop :=
  ∀ (s : State) (h : Guard) (f : BitVec 20) (d a : Reg),
    let links (i : Instr) (d : Reg) (target : Dword) : Prop := target.toNat < 2 ^ 56 → target.toNat % 4 = 0 → d.getLsbD 0 = false →
      ∃ t, exec i s = .next t ∧ OnlyGroup s t ∧ t.grp.getG64 d = s.grp.complete.pc.setWidth 64 ∧
        (∀ r, r ≠ d → r ≠ d + 1 → t.grp.getG r = s.grp.getG r) ∧
        t.grp = { s.grp.complete with g := t.grp.g, avail := t.grp.avail, pc := target.setWidth 56 }
    (s.grp.guardQ h = true → links (.call h f) 62#6 (s.grp.branchTarget f) ∧ links (.callx h d a) d (s.grp.getG64 a)) ∧
    (s.grp.guardQ h = false → Passes (.call h f) s ∧ Passes (.callx h d a) s) ∧
    (∀ i x, s.grp.guardQ h = true → i = .call h f ∧ x = s.grp.branchTarget f ∨ i = .callx h d a ∧ x = s.grp.getG64 a →
      (2 ^ 56 ≤ x.toNat → exec i s = .next (s.trap (memTrap s.grp.running 5 0 x))) ∧
      (x.toNat < 2 ^ 56 → x.toNat % 4 ≠ 0 → exec i s = .next (s.trap (memTrap s.grp.running 5 1 x))))

/-- R107: completing at X pops the innermost loops that end at X with a count of one, and goes on at the start of the next loop that ends there, its
count lowered, or else at X + 4. -/
def Obligations.EndOfIteration : Prop :=
  ∀ (s : State) (u : Bool) (h : Guard),
    let n := s.grp.n
    let ends (j : Nat) : Prop := (s.grp.loop j).le = s.grp.pc + 4
    ∃ t k, exec (.nop u h) s = .next t ∧ OnlyGroup s t ∧ k ≤ n ∧ t.grp.n = k ∧
      (∀ j, k ≤ j → j < n → ends j ∧ (s.grp.loop j).lc = 1 ∧ t.grp.loop j = { s.grp.loop j with lc := 0 }) ∧
      (∀ j, n ≤ j ∨ j + 1 < k → t.grp.loop j = s.grp.loop j) ∧
      (0 < k → ¬ends (k - 1) → t.grp.loop (k - 1) = s.grp.loop (k - 1) ∧ t.grp.pc = s.grp.pc + 4) ∧
      (0 < k → ends (k - 1) → (s.grp.loop (k - 1)).lc ≠ 1 ∧ t.grp.pc = (s.grp.loop (k - 1)).ls ∧
        t.grp.loop (k - 1) = { s.grp.loop (k - 1) with lc := (s.grp.loop (k - 1)).lc - 1 }) ∧
      (k = 0 → t.grp.pc = s.grp.pc + 4) ∧
      t.grp = { s.grp with loops := t.grp.loops, n := k, pc := t.grp.pc, hint := none }

/-- R30, R33, R106, R108: `loop` enters a body of L words, skips it for a count of zero, traps at a fifth level; guarded off, it falls through. `brk` pops the
innermost loop and goes to its end, after the end-of-iteration step of the loops that remain there; outside a loop it traps. That a `loop` of count zero at a
body's last word makes no end-of-iteration step is the model's choice (log 65). -/
def Obligations.LoopInstruction : Prop :=
  ∀ (s : State) (h : Guard) (c : Reg) (l : BitVec 14),
    let words : Nat := match s.grp.wide with
      | some p => p.toNat * 2 ^ 14 + l.toNat
      | none => l.toNat
    let start := s.grp.pc + 4
    let stop := s.grp.pc + 4 + BitVec.ofNat 56 (4 * words)
    (s.grp.guardQ h = false → Passes (.loop h c l) s) ∧
    (s.grp.guardQ h = true → s.grp.getG c = 0#32 → exec (.loop h c l) s = .next (s.setGrp { s.grp with pc := stop, hint := none })) ∧
    (s.grp.guardQ h = true → s.grp.getG c ≠ 0#32 → s.grp.n < 4 →
      exec (.loop h c l) s = .next (s.setGrp
        { s.grp.setLoop s.grp.n ⟨start, stop, s.grp.getG c⟩ with n := s.grp.n + 1, pc := start, hint := none })) ∧
    (s.grp.guardQ h = true → s.grp.getG c ≠ 0#32 → 4 ≤ s.grp.n → exec (.loop h c l) s = .next (s.trap (syncTrap s.grp.running 0 4 0#64))) ∧
    (s.grp.guardQ h = false → Passes (.brk h) s) ∧
    (s.grp.guardQ h = true → s.grp.n = 0 → exec (.brk h) s = .next (s.trap (syncTrap s.grp.running 1 0 0#64))) ∧
    (s.grp.guardQ h = true → s.grp.n ≠ 0 →
      exec (.brk h) s = .next (s.setGrp ({ s.grp with n := s.grp.n - 1, pc := (s.grp.loop (s.grp.n - 1)).le - 4 }).complete))

/-- R137, R140: where running threads disagree on a branch that leaves no loop, the threads with the lower next address run on there and the others are
Parked with theirs; nothing else changes. A target outside the body of an active loop that holds the branch traps instead, "divergent loop exit". To P + 4 the
threads do not diverge and jump as one, whatever loop that leaves: the model's choice where R140 does not say (log 59). -/
def Obligations.DivergedBranch : Prop :=
  ∀ (s : State) (h : Guard) (f : BitVec 20),
    let target := s.grp.branchTarget f
    let x : PcWord := target.setWidth 56
    let fall := s.grp.complete.pc
    let taken := s.grp.active h
    taken ≠ 0#32 → taken ≠ s.grp.running → target.toNat < 2 ^ 56 → target.toNat % 4 = 0 →
    (x = s.grp.pc + 4 → JumpsTo (.bra false h f) s target) ∧
    (x ≠ s.grp.pc + 4 → (∀ k, k < s.grp.n → (s.grp.loop k).ls ≤ s.grp.pc → s.grp.pc < (s.grp.loop k).le → (s.grp.loop k).ls ≤ x ∧ x < (s.grp.loop k).le) →
    ∃ t, exec (.bra false h f) s = .next t ∧ OnlyGroup s t ∧
      t.grp.pc = (if x < fall then x else fall) ∧
      (∀ j, j < 32 → t.grp.thread j =
        if x ≠ fall ∧ s.grp.running.getLsbD j = true ∧ taken.getLsbD j = !decide (x < fall)
        then { s.grp.thread j with st := .parked, resume := if x < fall then fall else x } else s.grp.thread j) ∧
      t.grp = { s.grp.complete with threads := t.grp.threads, pc := t.grp.pc }) ∧
    (x ≠ s.grp.pc + 4 → (∃ k, k < s.grp.n ∧ (s.grp.loop k).ls ≤ s.grp.pc ∧ s.grp.pc < (s.grp.loop k).le ∧ ¬((s.grp.loop k).ls ≤ x ∧ x < (s.grp.loop k).le)) →
      exec (.bra false h f) s = .next (s.trap (syncTrap s.grp.running 2 0 target)))

/-- R105: `exit` ends the group, or the threads its guard names while the others go on at P + 4; nothing of the registers changes, and a group
that has ended waits no more. -/
def Obligations.ExitInstruction : Prop :=
  ∀ (s : State) (u : Bool) (h : Guard),
    (u = true ∧ s.grp.guardQ h = true ∨ u = false ∧ h.idx = 7#3 →
      ∃ t, exec (.exit u h) s = .next t ∧ (∀ j, j < 32 → (t.grp.thread j).st = .ended) ∧ t.grp.waitSlot = none ∧ t.grp.busy = none ∧
        t.grp.v = s.grp.v ∧ t.grp.g = s.grp.g ∧ t.mem = s.mem ∧ ∀ k, k ≠ s.cur → t.groupAt k = s.groupAt k) ∧
    (u = true → s.grp.guardQ h = false → ∃ t, exec (.exit u h) s = .next t ∧ t.groups = (s.setGrp s.grp.complete).groups ∧ t.mem = s.mem) ∧
    (u = false → h.idx ≠ 7#3 → s.grp.running &&& ~~~s.grp.active h ≠ 0#32 →
      ∃ t, exec (.exit u h) s = .next t ∧
        (∀ j, j < 32 → (s.grp.active h).getLsbD j = true → (t.grp.thread j).st = .ended) ∧
        t.grp.running = s.grp.running &&& ~~~s.grp.active h ∧
        t.grp.pc = s.grp.complete.pc ∧ t.grp.v = s.grp.v ∧ t.grp.g = s.grp.g ∧ t.mem = s.mem ∧ ∀ k, k ≠ s.cur → t.groupAt k = s.groupAt k)

/-! ### The parallel machine (R159 to R177) -/

/-- R159, R162, R163: votes gather the predicates of the active threads into one register or predicate of the group, `elect` names the lowest active
thread; with no active thread nothing is written. -/
def Obligations.GroupVotes : Prop :=
  ∀ (s : State) (h : Guard) (d : Reg) (q p : BitVec 3) (b : BSel), q ≠ 7#3 →
    let act (x : Nat) : Prop := (s.grp.active h).getLsbD x = true
    let none1 (_ : BitVec 3) : Prop := False
    let makes (i : Instr) (gs : Reg → Prop) (ps : BitVec 3 → Nat → Prop) (qs : BitVec 3 → Prop) (post : State → Prop) : Prop :=
      (s.grp.active h = 0#32 → Passes i s) ∧
      (s.grp.active h ≠ 0#32 → ∃ t, exec i s = .next t ∧ Wrote s t (fun _ _ => False) gs ps qs ∧ post t)
    let noP (_ : BitVec 3) (_ : Nat) : Prop := False
    makes (.voteMask h d p) (· = d) noP none1 (fun t => ∀ x, x < 32 → ((t.grp.getG d).getLsbD x = true ↔ act x ∧ s.grp.getP p x = true)) ∧
    makes (.voteEvery h q p) (fun _ => False) noP (· = q) (fun t => t.grp.getQ q = true ↔ ∀ x, x < 32 → act x → s.grp.getP p x = true) ∧
    makes (.voteSome h q p) (fun _ => False) noP (· = q) (fun t => t.grp.getQ q = true ↔ ∃ x, x < 32 ∧ act x ∧ s.grp.getP p x = true) ∧
    makes (.voteSame h q b) (fun _ => False) noP (· = q) (fun t => t.grp.getQ q = true ↔ ∃ w, ∀ x, x < 32 → act x → s.grp.opB (some x) b = w) ∧
    makes (.voteCount h d p) (· = d) noP none1 (fun t =>
      (t.grp.getG d).toNat = (List.range 32).countP (fun x => (s.grp.active h).getLsbD x && s.grp.getP p x)) ∧
    makes (.elect h d p) (· = d) (fun i x => i = p ∧ p ≠ 7#3 ∧ act x) none1 (fun t =>
      ∃ e, e < 32 ∧ act e ∧ (∀ x, x < e → ¬act x) ∧ t.grp.getG d = BitVec.ofNat 32 e ∧
        (p ≠ 7#3 → ∀ x, x < 32 → act x → (t.grp.getP p x = true ↔ x = e)))

/-- R164, R165: each active thread takes the register of the thread it names, or keeps its own value where that lies outside the group or is not
active; `bcast` gives all of them the value of one active thread. -/
def Obligations.MovesBetweenThreads : Prop :=
  ∀ (s : State) (h : Guard) (d a : Reg) (r : Bool) (k : BitVec 5) (b : BSel),
    let act (x : Nat) : Prop := (s.grp.active h).getLsbD x = true
    let n (x : Nat) : Nat := if r then (s.grp.getV (0#1 ++ k) x).toNat else k.toNat
    let moves (i : Instr) (src : Nat → Int) : Prop :=
      ∃ f, Writes i s false h d f ∧ ∀ x, x < 32 →
        (∀ y : Nat, src x = y → y < 32 → act y → f (some x) = s.grp.getV a y) ∧
        ((∀ y : Nat, src x = y → y < 32 → ¬act y) → f (some x) = s.grp.getV a x)
    moves (.shflAt h d a r k) (fun x => n x) ∧
    moves (.shflBack h d a r k) (fun x => (x : Int) - n x) ∧
    moves (.shflFwd h d a r k) (fun x => (x : Int) + n x) ∧
    moves (.shflMix h d a r k) (fun x => ((x ^^^ n x : Nat) : Int)) ∧
    (s.grp.active h ≠ 0#32 → ∃ y, act y ∧ (act (s.grp.opB none b).toNat → y = (s.grp.opB none b).toNat) ∧
      (¬act (s.grp.opB none b).toNat → ∀ x, x < y → ¬act x) ∧
      Writes (.bcast h d a b) s false h d (fun _ => s.grp.getV a y)) ∧
    (s.grp.active h = 0#32 → Passes (.bcast h d a b) s)

/-- R166 to R168: `gred` combines the active threads' values into a group register, the scans combine for each the active threads up to it, or
below it. Each completes in every state and on every operand. That minima and maxima begin from R166's identity, and that `fadd.f32` is one exact sum rounded
once, is the model's reading (log 52). -/
def Obligations.ReductionsAndScans : Prop :=
  ∀ (s : State) (h : Guard) (d a : Reg) (f : GFn),
    (∀ i ∈ [Instr.gred h d a f, .scan h d a f, .scanExcl h d a f], ∃ t, exec i s = .next t ∧ OnlyGroup s t ∧ t.grp.pc = s.grp.complete.pc) ∧
    let vals (p : Nat → Prop) [DecidablePred p] : List Word :=
      ((List.range 32).filter (fun x => (s.grp.active h).getLsbD x && decide (p x))).map (fun x => s.grp.getV a x)
    (s.grp.active h = 0#32 → Passes (.gred h d a f) s) ∧
    (s.grp.active h ≠ 0#32 → ∃ r, Combined f (vals (fun _ => True)) r ∧ ∃ t, exec (.gred h d a f) s = .next t ∧ OnlyGroup s t ∧
      t.grp.getG d = r.val ∧ (∀ x, x ≠ d → t.grp.getG x = s.grp.getG x) ∧ t.grp.flags = s.grp.flags ||| r.fl.setWidth 32 ∧
      (∀ c, c ≠ causeArithmetic → mapFind t.grp.pend c = mapFind s.grp.pend c) ∧
      t.grp = { s.grp.complete with g := t.grp.g, avail := t.grp.avail, flags := t.grp.flags, pend := t.grp.pend }) ∧
    DeliversSuch (.scan h d a f) s false h d (fun l r => ∀ y, l = some y → Combined f (vals (fun x => x ≤ y)) r) ∧
    DeliversSuch (.scanExcl h d a f) s false h d (fun l r => ∀ y, l = some y → Combined f (vals (fun x => x < y)) r)

/-- R170, R171: the first of two matching exchanges waits; the second sets both due 16 cycles after its window, with the threads active in both; at
that cycle each side receives the other's values and may go on. -/
def Obligations.Exchange : Prop :=
  (∀ (s : State) (h : Guard) (d a : Reg) (tag : BitVec 6) (p : Nat), (s.hasCore s.grp.owner (s.grp.core ^^^ 4) = true → s.paired s.grp.owner s.grp.core = true) →
    s.partner s.grp = some p →
    (s.xchgWaiting p s.grp.xchgN = none → ∃ t, exec (.xchg h d a tag) s = .next t ∧
      t.grp = { s.grp.complete with xchgN := s.grp.xchgN + 1, busy := some s.nextId, barMark := s.grp.markHere } ∧
      mapFind t.waits s.nextId = some {
        gid := s.cur, owner := s.grp.owner, island := s.groupIsland s.grp, pc := s.grp.trapAt, w := s.win
        kind := .xchg s.grp.xchgN tag.toNat d (s.grp.column a) (s.grp.active h) false } ∧
      t.mem = s.mem ∧ t.agenda = s.agenda) ∧
    (∀ k x m pd vals mask, s.xchgWaiting p s.grp.xchgN = some (k, x) → x.kind = .xchg m tag.toNat pd vals mask false → k < s.nextId →
      ∃ t, exec (.xchg h d a tag) s = .next t ∧ t.grp.busy = some s.nextId ∧
        (mapFind t.waits k).map (fun y => y.kind) = some (.xchg m tag.toNat pd (s.grp.column a) (s.grp.active h &&& mask) true) ∧
        (mapFind t.waits s.nextId).map (fun y => y.kind) = some (.xchg s.grp.xchgN tag.toNat d vals (s.grp.active h &&& mask) true) ∧
        (⟨.owner s.grp.owner (s.groupIsland s.grp), s.win + 16, .xchgComplete k⟩ : Pend) ∈ t.agenda ∧
        (⟨.owner s.grp.owner (s.groupIsland s.grp), s.win + 16, .xchgComplete s.nextId⟩ : Pend) ∈ t.agenda)) ∧
  (∀ (s : State) (k : Nat) (x : WaitOp) (m tag : Nat) (d : Reg) (vals : FMap Word) (mask : BitVec 32),
    mapFind s.waits k = some x → x.kind = .xchg m tag d vals mask true → (s.groupAt x.gid).isEnded = false →
    ∃ t, exec (.xchgComplete k) s = .next t ∧ mapFind t.waits k = none ∧ (t.groupAt x.gid).busy = none ∧
      (∀ r y, y < 32 → (t.groupAt x.gid).getV r y = if r = d ∧ mask.getLsbD y = true then mapGet 0#32 vals y else (s.groupAt x.gid).getV r y) ∧
      (∀ j, j ≠ x.gid → t.groupAt j = s.groupAt j) ∧ t.mem = s.mem ∧
      t.groupAt x.gid = { s.groupAt x.gid with v := (t.groupAt x.gid).v, busy := none })

/-- R142, R173, R174: arming names the threads expected that have not ended; an arrival at a disarmed register passes; one that leaves arrivals
outstanding joins the running threads and runs the parked ones of the lowest address; one that completes the set runs, of the released threads, those of
the lowest resume address, and parks the rest. -/
def Obligations.Joins : Prop :=
  ∀ (s : State) (h : Guard) (k : BitVec 3) (b : BSel),
    let j := mapGet {} s.grp.joins k.toNat
    let run := s.grp.running
    let here := s.grp.pc + 4
    let arms (i : Instr) (mask : BitVec 32) : Prop := exec i s = .next (s.setGrp { s.grp.complete with
      joins := mapSet {} s.grp.joins k.toNat ⟨decide (mask &&& s.grp.notEnded ≠ 0#32), mask &&& s.grp.notEnded, 0#32⟩ })
    (s.grp.guardQ h = false → Passes (.joinArm h k b) s ∧ Passes (.joinArmRun h k b) s ∧ Passes (.joinWait h k) s) ∧
    (s.grp.guardQ h = true → (j.armed = false ∨ j.arrived = 0#32) →
      arms (.joinArm h k b) (s.grp.opB none b) ∧ arms (.joinArmRun h k b) (s.grp.opB none b &&& run)) ∧
    (s.grp.guardQ h = true → j.armed = false → Passes (.joinWait h k) s) ∧
    (s.grp.guardQ h = true → j.armed = true → j.expect ≠ 0#32 → run ≠ 0#32 → run &&& ~~~j.expect = 0#32 → s.grp.trapMode = false →
      (∀ y, y < 32 → (j.arrived.getLsbD y = true ↔ (s.grp.thread y).st = .joined k)) → j.arrived ||| run ≠ j.expect →
      ∀ x : PcWord, (∃ y, y < 32 ∧ (s.grp.thread y).st = .parked ∧ (s.grp.thread y).resume = x) →
        (∀ y, y < 32 → (s.grp.thread y).st = .parked → x ≤ (s.grp.thread y).resume) →
      ∃ t, exec (.joinWait h k) s = .next t ∧ OnlyGroup s t ∧ t.grp.pc = x ∧ mapGet {} t.grp.joins k.toNat = { j with arrived := j.arrived ||| run } ∧
        (∀ y, y < 32 → t.grp.thread y = if run.getLsbD y = true then { s.grp.thread y with st := .joined k, resume := here }
          else if (s.grp.thread y).st = .parked ∧ (s.grp.thread y).resume = x then { s.grp.thread y with st := .running } else s.grp.thread y) ∧
        t.grp = { s.grp with threads := t.grp.threads, joins := t.grp.joins, pc := x, hint := none }) ∧
    (s.grp.guardQ h = true → j.armed = true → j.expect ≠ 0#32 → run ≠ 0#32 → run &&& ~~~j.expect = 0#32 → s.grp.trapMode = false →
      (∀ y, y < 32 → (j.arrived.getLsbD y = true ↔ (s.grp.thread y).st = .joined k)) → j.arrived ||| run = j.expect →
      ∃ t x, exec (.joinWait h k) s = .next t ∧ mapGet {} t.grp.joins k.toNat = {} ∧ t.grp.v = s.grp.v ∧ t.grp.g = s.grp.g ∧ t.mem = s.mem ∧
        (∀ y, y < 32 → j.expect.getLsbD y = true →
          let back := if run.getLsbD y = true then here else (s.grp.thread y).resume
          x ≤ back ∧ (t.grp.thread y).st = (if back = x then .running else .parked)) ∧
        (∀ y, y < 32 → j.expect.getLsbD y = false → t.grp.thread y = s.grp.thread y) ∧
        t.grp.pc = (if x = here then s.grp.complete.pc else x))

/-- R150, R175, R176, R177: `yield` waits for the other groups that are ready; `slot.rel` publishes the owned slots of its mask from the next period to its
horizon; `slot.q` answers all ones for a slot that is not the owner's. -/
def Obligations.YieldAndSlots : Prop :=
  ∀ (s : State) (h : Guard) (d a : Reg) (b : BSel),
    let first := s.win / 32 * 32 + 32
    let stop := s.win + (s.grp.getG a).toNat
    let key (i : Nat) := rotaKey s.grp.core s.grp.lane i
    let rel (t : State) (i : Nat) : List (Nat × Nat) := mapGet [] (t.ownerAt s.grp.owner).releases (key i)
    (s.grp.guardQ h = false → Passes (.yield h) s ∧ Passes (.slotRel h a b) s) ∧
    (s.grp.guardQ h = true → exec (.yield h) s = .next (s.setGrp { s.grp.complete with yieldFor := s.othersReady.map (fun k => (k, false)) })) ∧
    (s.grp.guardQ h = true → ∃ t, exec (.slotRel h a b) s = .next t ∧ t.groups = (s.setGrp s.grp.complete).groups ∧ t.mem = s.mem ∧
      (∀ o, o ≠ s.grp.owner → t.ownerAt o = s.ownerAt o) ∧
      ∀ i, i < 8 → rel t i = if first < stop ∧ (s.grp.opB none b).getLsbD i = true ∧ s.slotOwner (s.groupCore s.grp) s.grp.lane i = s.grp.owner
        then rel s i ++ [(first, stop)] else rel s i) ∧
    (let i := (s.grp.opB none b).toNat % 8
     (s.slotOwner (s.groupCore s.grp) s.grp.lane i ≠ s.grp.owner → ComputesPair (.slotQ h d b) s true h d (fun _ => 2 ^ 64 - 1)) ∧
     (s.slotOwner (s.groupCore s.grp) s.grp.lane i = s.grp.owner → ComputesPair (.slotQ h d b) s true h d (fun _ => releaseEnd (rel s i) s.win)))

/-! ### Special registers, random numbers, waits, hints and traps (R11, R33 to R36, R114, R115, R329, R330, R344 to R348, R372 to R376, R380) -/

/-- R11, R115: `gets` delivers the register it names to each lane, the 64-bit ones to a pair, and leaves what it reads. -/
def Obligations.ReadSpecialRegister : Prop :=
  ∀ (s : State) (u : Bool) (h : Guard) (d : Reg),
    let g := s.grp
    let reads (r : SReg) (f : Lane → Word) : Prop := Writes (.gets u h d r) s u h d f
    let reads64 (r : SReg) (f : Lane → Nat) : Prop := ComputesPair (.gets u h d r) s u h d (fun l => f l)
    reads .thread (fun l => BitVec.ofNat 32 (l.getD 0)) ∧
    reads .group (fun _ => BitVec.ofNat 32 (g.index + 256 * (g.lane * 12 + g.ctx))) ∧
    reads .levelId (fun l => s.levelId g (g.rd l d)) ∧
    reads .owner (fun _ => BitVec.ofNat 32 g.owner) ∧
    reads .rotaSlot (fun _ => s.rotaSlot g s.win) ∧
    reads .melt (fun _ => s.melt g) ∧
    reads .flags (fun _ => g.flags) ∧
    reads .flagArm (fun _ => g.flagArm) ∧
    reads .detlvl (fun _ => BitVec.ofNat 32 (s.launchAt g.launch).detlvl) ∧
    reads .tmask (fun _ => g.tmask) ∧
    reads .tcause (fun _ => g.tcause) ∧
    reads .tdetailA (fun _ => g.tdetA) ∧
    reads .tdetailB (fun _ => g.tdetB) ∧
    reads .tdetailC (fun _ => g.tdetC) ∧
    reads64 .ownerCyc (fun _ => s.cycOf g.owner (s.groupIsland g)) ∧
    reads64 .rotaMap (fun _ => (s.rotaMap g).toNat) ∧
    reads64 .leaseLeft (fun _ => (s.leaseLeft g).toNat) ∧
    reads64 .trapPc (fun _ => g.trapPc.toNat)

/-- R373, R374: `sets` writes FLAGS and FLAG_ARM at all times and the trap registers in trap mode, without the RES bits; a register it may not write traps
with reason 7 whatever its guard. -/
def Obligations.WriteSpecialRegister : Prop :=
  ∀ (s : State) (h : Guard) (b : BSel),
    let g := s.grp
    let x := g.opG b
    let sets (r : SReg) (t : Group) : Prop := exec (.sets h r b) s = .next (s.setGrp t)
    (g.guardQ h = true → sets .flags { g.complete with flags := x &&& 15#32 } ∧ sets .flagArm { g.complete with flagArm := x &&& 3#32 }) ∧
    (g.guardQ h = true → g.trapMode = true → sets .tmask { g.complete with tmask := x } ∧ sets .tcause { g.complete with tcause := x &&& 0x71F#32 } ∧
      sets .tdetailA { g.complete with tdetA := x } ∧ sets .tdetailB { g.complete with tdetB := x } ∧ sets .tdetailC { g.complete with tdetC := x } ∧
      sets .trapPc { g.complete with trapPc := g.opB64 none b }) ∧
    (g.guardQ h = false → sets .flags g.complete ∧ sets .flagArm g.complete) ∧
    (∀ r, r ∉ [SReg.flags, .flagArm] → (r ∈ [SReg.tmask, .tcause, .tdetailA, .tdetailB, .tdetailC, .trapPc] → g.trapMode = false) →
      ∀ w, encode (.sets h r b) = some w → exec (.sets h r b) s = .next (s.trap (encTrap g 7 w)))

/-- R380: a draw depends on the group's key, the number of its earlier draws and the thread's logical position; `rand.seed` sets the key; without an active
thread neither does anything. -/
def Obligations.RandomNumbers : Prop :=
  ∀ (s : State) (h : Guard) (d a : Reg),
    let g := s.grp
    let m : Nat := 2 ^ 64
    let mixed (y : Nat) : Nat :=
      let z := (g.randKey.toNat + g.randCtr.toNat * 0x9E3779B97F4A7C15 + y * 0xD1B54A32D192ED03) % m
      let z := (z ^^^ (z / 2 ^ 30)) * 0xBF58476D1CE4E5B9 % m
      let z := (z ^^^ (z / 2 ^ 27)) * 0x94D049BB133111EB % m
      (z ^^^ (z / 2 ^ 31)) / 2 ^ 32
    (g.active h = 0#32 → Passes (.rand h d) s ∧ Passes (.randSeed h a) s) ∧
    (g.active h ≠ 0#32 → exec (.randSeed h a) s = .next (s.setGrp { g.complete with randKey := g.getG64 a, randCtr := 0#64 })) ∧
    (g.active h ≠ 0#32 → ∃ t, exec (.rand h d) s = .next t ∧ OnlyGroup s t ∧
      (∀ x, x < 32 → (g.active h).getLsbD x = true →
        (t.grp.getV d x).toNat = mixed ((s.wgAt g.wg).index * 1024 + g.index * 32 + x)) ∧
      (∀ r x, x < 32 → (r ≠ d ∨ (g.active h).getLsbD x = false) → t.grp.getV r x = g.getV r x) ∧
      t.grp = { g.complete with v := t.grp.v, avail := t.grp.avail, randCtr := g.randCtr + 1 })

/-- R114: `wait` and `waitc` complete once every counter they name is at most its limit, or at once with a false guard; until then the group stays. -/
def Obligations.WaitInstructions : Prop :=
  ∀ (s : State) (h : Guard) (l t c e r : BitVec 4) (k : OpClass) (a : Reg),
    let g := s.grp
    let count (k : OpClass) : Nat := g.outs.countP (fun o => decide (o.cls = k))
    let met (k : OpClass) (n : BitVec 4) : Prop := n = 15#4 ∨ count k ≤ n.toNat
    let all : Prop := met .loads l ∧ met .stores t ∧ met .copies c ∧ met .tiles e ∧ met .remote r
    (g.guardQ h = false ∨ all → Passes (.wait h l t c e r) s) ∧
    (g.guardQ h = true → ¬all → exec (.wait h l t c e r) s = .next s) ∧
    (g.guardQ h = false ∨ count k ≤ (g.getG a).toNat → Passes (.waitc h k a) s) ∧
    (g.guardQ h = true → (g.getG a).toNat < count k → exec (.waitc h k a) s = .next s)

/-- R31 to R36, R41: a hint whose pair stands moves on to its bound word and keeps its fields for it, SCHED its stall and its yield; one whose pair fails traps
at its own address. -/
def Obligations.HintsBind : Prop :=
  ∀ (s : State) (p : BitVec 22) (r : BitVec 3) (y : Bool) (n : BitVec 4) (m : ModFields) (k : Bool) (dl al : BitVec 2),
    let binds (i : Instr) (stall : Nat) (skip : Bool) : Prop := ∀ w, encode i = some w →
      (s.pairTrap w = none → exec i s = .next (s.setGrp { s.grp with
        hint := some ⟨s.grp.pc, w, i⟩, pc := s.grp.pc + 4, stall := stall, skip := s.grp.skip || skip })) ∧
      (∀ x, s.pairTrap w = some x → exec i s = .next (s.trapAtPc x s.grp.pc))
    binds (.hintWide p) 0 false ∧ binds (.hintSched r y n) n.toNat y ∧ binds (.hintMod m) 0 false ∧ binds (.hintType k dl al) 0 false

/-- R329, R330, R344, R375: a software trap saves the threads, loops and PC, names its cause, threads and code, runs every thread not Ended in trap
mode at the launch's handler, and leaves every other register, all memory and all other groups. R329, R331, R332, R333: a deferred trap that is due does the same
before the instruction at PC, in the order hardware error, integrity, engine, network, lease expiry, and its record is taken away; it names the Running set
where its record names no threads (R331). The step that delivers one that is not due changes nothing (log 3), a record without threads and a dropped one follow
log 47, and the recorder's freeze when a hardware error is taken log 61 (the model's choices). -/
def Obligations.SoftwareAndDeferredTraps : Prop :=
  (∀ (s : State) (k c : Nat) (before after : List Nat) (r : PendRec) (x : PcWord),
    let g := s.groupAt k
    let i := s.groupIsland g
    let w := s.cycOf g.owner i
    let may : Prop := g.trapMode = false ∧ g.idle w = true ∧ s.placed g = true ∧ g.hint = none ∧ s.heldOn g.owner i = false
    (¬may → exec (.deferredTrapDelivery k) s = .next s) ∧
    (may → [9, 8, 4, 6, 7] = before ++ c :: after → (∀ e ∈ before, ∀ q, mapFind g.pend e = some q → w < q.due) → mapFind g.pend c = some r → r.due ≤ w →
      (s.launchAt g.launch).handler = some x → ∃ t, exec (.deferredTrapDelivery k) s = .next t ∧ t = { s with groups := t.groups, ops := t.ops, boxFrozen := t.boxFrozen } ∧
        (∀ j, j ≠ k → t.groupAt j = s.groupAt j) ∧
        (let y := t.groupAt k
         y.pc = x ∧ y.trapMode = true ∧ y.noResume = false ∧ y.trapPc = g.pc.setWidth 64 ∧ y.tcause = BitVec.ofNat 32 (c + 256 + if r.lost then 1024 else 0) ∧
         y.tmask = (if r.mask = 0#32 then g.running else r.mask) ∧ y.tdetA = r.a ∧ y.tdetB = r.b ∧ y.tdetC = r.c ∧
         y.frame = ⟨g.threads, g.n, g.loops, [y.tcause, y.tdetA, y.tdetB, y.tdetC]⟩ ∧ y.n = 0 ∧ mapFind y.pend c = none ∧ (∀ e, e ≠ c → mapFind y.pend e = mapFind g.pend e) ∧
         (∀ j, j < 32 → y.thread j = if (g.thread j).st = .ended then g.thread j else { g.thread j with st := .running }) ∧
         y.v = g.v ∧ y.g = g.g ∧ y.p = g.p ∧ y.q = g.q ∧ y.flags = g.flags ∧ y.loops = g.loops ∧ y.joins = g.joins) ∧
        (c = 9 → t.boxFrozen = true))) ∧
  ∀ (s : State) (h : Guard) (b : BSel) (x : PcWord),
    let g := s.grp
    let takes (i : Instr) (mask : BitVec 32) (code : Word) : Prop := ∃ t, exec i s = .next t ∧
      t.grp.pc = x ∧ t.grp.trapMode = true ∧ t.grp.noResume = false ∧ t.grp.trapPc = g.trapAt.setWidth 64 ∧ t.grp.tcause = 10#32 ∧ t.grp.tmask = mask ∧
      t.grp.tdetA = code ∧ t.grp.tdetB = 0#32 ∧ t.grp.tdetC = 0#32 ∧ t.grp.frame = ⟨g.threads, g.n, g.loops, [10#32, code, 0#32, 0#32]⟩ ∧ t.grp.n = 0 ∧
      (∀ j, j < 32 → t.grp.thread j = if (g.thread j).st = .ended then g.thread j else { g.thread j with st := .running }) ∧
      t.grp.v = g.v ∧ t.grp.g = g.g ∧ t.grp.p = g.p ∧ t.grp.q = g.q ∧ t.grp.flags = g.flags ∧ t.grp.loops = g.loops ∧ t.grp.joins = g.joins ∧
      t.mem = s.mem ∧ t.scratch = s.scratch ∧ ∀ k, k ≠ s.cur → t.groupAt k = s.groupAt k
    g.trapMode = false → (s.launchAt g.launch).handler = some x →
      (g.guardQ h = true → takes (.trap true h b) g.running (g.opG b)) ∧
      (∀ j, j < 32 → (g.active h).getLsbD j = true → (∀ i, i < j → (g.active h).getLsbD i = false) →
        takes (.trap false h b) (g.active h) (g.opB (some j) b)) ∧
      (g.guardQ h = false → Passes (.trap true h b) s) ∧ (g.active h = 0#32 → Passes (.trap false h b) s)

/-- R347, R348, R349, R376: `rte` restores the Frame of the threads that have not ended, the loops and TRAP_PC's address and leaves trap mode; with NORESUME
latched it ends the workgroup's groups; with a false guard it goes on; a bad target is a double fault, which ends the group; outside trap mode it is a
reserved word. -/
def Obligations.ReturnFromTrap : Prop :=
  ∀ (s : State) (h : Guard),
    let g := s.grp
    (g.trapMode = true → g.guardQ h = false → Passes (.rte h) s) ∧
    (g.trapMode = true → g.guardQ h = true → g.noResume = false → g.trapPc.toNat < 2 ^ 56 → g.trapPc.toNat % 4 = 0 →
      (∃ j, j < 32 ∧ (g.thread j).st ≠ .ended ∧ (mapGet {} g.frame.threads j).st = .running) →
      ∃ t, exec (.rte h) s = .next t ∧ t.grp.pc = g.trapPc.setWidth 56 ∧ t.grp.trapMode = false ∧ t.grp.n = g.frame.n ∧ t.grp.loops = g.frame.loops ∧
        (∀ j, j < 32 → (t.grp.thread j).st = if (g.thread j).st = .ended then .ended else (mapGet {} g.frame.threads j).st) ∧
        t.grp.v = g.v ∧ t.grp.g = g.g ∧ t.mem = s.mem ∧ ∀ k, k ≠ s.cur → t.groupAt k = s.groupAt k) ∧
    (g.trapMode = true → g.guardQ h = true → g.noResume = true → g.trapPc.toNat < 2 ^ 56 → g.trapPc.toNat % 4 = 0 →
      ∃ t, exec (.rte h) s = .next t ∧ ∀ k ∈ (s.wgAt g.wg).groups, (t.groupAt k).isEnded = true) ∧
    (g.trapMode = true → g.guardQ h = true → ¬(g.trapPc.toNat < 2 ^ 56 ∧ g.trapPc.toNat % 4 = 0) →
      ∃ t, exec (.rte h) s = .next t ∧ t.grp.isEnded = true ∧ t.boxFrozen = true) ∧
    (g.trapMode = false → ∀ w, encode (.rte h) = some w → exec (.rte h) s = .next (s.trap (encTrap g 6 w)))

/-! ### Memory instructions (R109 to R113, R224 to R236, R250) -/

/-- R109, R110, R180, R181, R189 to R191, R193, R195 to R197, R226, R230 to R234: every memory instruction checks all its lanes, and then issues with one access for
each at the address its operands give and with the data it stores, raises the counter of its class and completes; a lane that fails traps the instruction as a
whole. An address fails as not canonical, misaligned, outside the lease, outside scratch, in the reserved range, or as the walk of the owner's table finds it;
a hit in the TLB does not walk (log 80 says what the TLB holds, the model's choice). -/
def Obligations.MemoryInstructionsIssue : Prop :=
  (∀ (s : State) (u : Bool) (h : Guard) (d a : Reg) (o : Ord) (y : Scope) (f : BitVec 3),
    let g := s.grp
    let off : Int := match g.wide with
      | some p => (p ++ f : BitVec 25).toInt
      | none => f.toNat
    let pair (n : Nat) (l : Lane) : Dword × Bool := (g.rd64 l a + BitVec.ofInt 64 (off * n), true)
    let scr (n : Nat) (l : Lane) : Dword × Bool :=
      let x : Int := (g.rd l a).toNat + off * n
      (BitVec.ofInt 64 (0x00F0000000000000 + x), decide (0 ≤ x ∧ x < 0x10000000))
    let none2 (_ : Lane) : List Byte × List Byte := ([], [])
    let regs (n : Nat) (l : Lane) : List Byte × List Byte := (g.regBytes l d n, [])
    let sc := g.scopeOr o y
    let loads (n : Nat) (i : Instr) (o : Ord) (x : Scope) (ldc : Bool) : Prop := Accesses i s u h .load n d o x ldc (pair n) none2
    let stores (n : Nat) (i : Instr) (o : Ord) (x : Scope) : Prop := Accesses i s u h .store n d o x false (pair n) (regs n)
    loads 1 (.ldGlbN8 u h d a f) .plain .grp false ∧ loads 2 (.ldGlbN16 u h d a f) .plain .grp false ∧
    loads 4 (.ldGlbB32 u h d a f) .plain .grp false ∧ loads 8 (.ldGlbB64 u h d a f) .plain .grp false ∧
    loads 16 (.ldGlbB128 u h d a f) .plain .grp false ∧ loads 4 (.ldc u h d a f) .plain .grp true ∧
    loads 4 (.scopedLdGlbB32 u h d a o y f) o sc false ∧ loads 8 (.scopedLdGlbB64 u h d a o y f) o sc false ∧
    stores 1 (.stGlbB8 u h d a f) .plain .grp ∧ stores 2 (.stGlbB16 u h d a f) .plain .grp ∧ stores 4 (.stGlbB32 u h d a f) .plain .grp ∧
    stores 8 (.stGlbB64 u h d a f) .plain .grp ∧ stores 16 (.stGlbB128 u h d a f) .plain .grp ∧
    stores 4 (.scopedStGlbB32 u h d a o y f) o sc ∧ stores 8 (.scopedStGlbB64 u h d a o y f) o sc ∧
    Accesses (.ldsB32 u h d a o y f) s u h .load 4 d o sc false (scr 4) none2 ∧ Accesses (.ldsB64 u h d a o y f) s u h .load 8 d o sc false (scr 8) none2 ∧
    Accesses (.stsB32 u h d a o y f) s u h .store 4 d o sc false (scr 4) (regs 4) ∧
    Accesses (.stsB64 u h d a o y f) s u h .store 8 d o sc false (scr 8) (regs 8) ∧
    (∀ x ∈ [(Instr.atomAddN32 u h d a o y, AtomOp.addN32), (Instr.atomAddN64 u h d a o y, AtomOp.addN64),
        (Instr.atomMinI32 u h d a o y, AtomOp.minI32), (Instr.atomMaxI32 u h d a o y, AtomOp.maxI32),
        (Instr.atomMinN32 u h d a o y, AtomOp.minN32), (Instr.atomMaxN32 u h d a o y, AtomOp.maxN32),
        (Instr.atomOr u h d a o y, AtomOp.or), (Instr.atomAnd u h d a o y, AtomOp.and), (Instr.atomExchB32 u h d a o y, AtomOp.exchB32),
        (Instr.atomCasB32 u h d a o y, AtomOp.casB32), (Instr.atomExchB64 u h d a o y, AtomOp.exchB64),
        (Instr.atomCasB64 u h d a o y, AtomOp.casB64), (Instr.atomAddF32 u h d a o y, AtomOp.addF32),
        (Instr.atomMinF32 u h d a o y, AtomOp.minF32), (Instr.atomMaxF32 u h d a o y, AtomOp.maxF32)],
      Accesses x.1 s u h (.atom x.2) x.2.size d o sc false (fun l => (g.rd64 l a, true)) (fun l => g.atomOperands l x.2 d)) ∧
    (∀ x ∈ [(Instr.redAddN32 u h d a o y, AtomOp.addN32), (Instr.redAddN64 u h d a o y, AtomOp.addN64),
        (Instr.redMinI32 u h d a o y, AtomOp.minI32), (Instr.redMaxI32 u h d a o y, AtomOp.maxI32),
        (Instr.redMinN32 u h d a o y, AtomOp.minN32), (Instr.redMaxN32 u h d a o y, AtomOp.maxN32), (Instr.redOr u h d a o y, AtomOp.or),
        (Instr.redAnd u h d a o y, AtomOp.and), (Instr.redAddF32 u h d a o y, AtomOp.addF32), (Instr.redMinF32 u h d a o y, AtomOp.minF32),
        (Instr.redMaxF32 u h d a o y, AtomOp.maxF32)],
      Accesses x.1 s u h (.red x.2) x.2.size d o sc false (fun l => (g.rd64 l a, true)) (fun l => ((g.atomOperands l x.2 d).1, [])))) ∧
  (∀ (s : State) (g : Group) (va : Dword) (size : Nat) (w : Want) (ldc : Bool),
    let a := va.toNat
    let gives (r : Except Nat Hit) : Prop := s.checkAccess g va true size w ldc = r
    s.checkAccess g va false size w ldc = .error 7 ∧ (2 ^ 56 ≤ a → gives (.error 0)) ∧ (a < 2 ^ 56 → a % size ≠ 0 → gives (.error 1)) ∧
    (a < 2 ^ 56 → a % size = 0 →
      (a < 0x00F0000000000000 →
        let inside : Prop := ∃ l ∈ (s.launchAt g.launch).leases, l.resident = true ∧ l.base ≤ a ∧ a + size ≤ l.base + l.len ∧
          (w.r = true → l.r = true) ∧ (w.w = true → l.w = true) ∧ (w.x = true → l.x = true)
        (¬inside → gives (.error 6)) ∧
        (inside → (∀ c, s.leafOn (some g.core) g.owner a w = .error c → gives (.error c)) ∧
          ∀ x, s.leafOn (some g.core) g.owner a w = .ok x →
            gives (if ldc = true ∧ x.entry.testBit 3 = true then .error 3 else .ok { va := a, place := .mem x.pa, leaf := some x }))) ∧
      (∀ core off, core < 512 → off < 0x80000 → a = 0x00F0000000000000 + 0x80000 * core + off →
        (ldc = true → gives (.error 3)) ∧
        (ldc = false → (∀ sh, s.shareOf g.owner core = some sh → sh.scratchLen ≤ off ∨ s.holdsCore g.owner core = false) → gives (.error 7)) ∧
        (ldc = false → ∀ sh, s.shareOf g.owner core = some sh → off < sh.scratchLen → s.holdsCore g.owner core = true →
          gives (.ok { va := a, core := core, off := off, place :=
            if off < 64 ∨ 64 + s.allocOn g.owner core ≤ off then .guard else .scr (s.phys g.owner core) (sh.scratchBase + off) }))) ∧
      (0x00F1000000000000 ≤ a → a < 0x00F1000000008000 →
        gives (if ldc = true then .error 3 else if size = 8 then .ok { va := a, place := .ctr ((a - 0x00F1000000000000) / 8) } else .error 1)) ∧
      (0x00F0000010000000 ≤ a → a < 0x00F1000000000000 ∨ 0x00F1000000008000 ≤ a → gives (.error 2)))) ∧
  (∀ (s : State) (c o va : Nat) (w : Want),
    (s.tlbHit o c va = none → s.leafOn (some c) o va w = s.walk o va w) ∧
    ∀ e, s.tlbHit o c va = some e →
      let again : Prop := e.entry.testBit 5 = false ∨ w.w = true ∧ e.entry.testBit 6 = false
      let grants : Prop := (w.r = true → e.entry.testBit 2 = true) ∧ (w.w = true → e.entry.testBit 3 = true) ∧ (w.x = true → e.entry.testBit 4 = true)
      (again → s.leafOn (some c) o va w = s.walk o va w) ∧ (¬again → ¬grants → s.leafOn (some c) o va w = .error 3) ∧
      (¬again → grants → ∃ x, s.leafOn (some c) o va w = .ok x ∧ x.pa = s.canon o (e.entry / 2 ^ 16 % 2 ^ 36 * 65536 + va % 2 ^ e.bits) ∧ x.entry = e.entry ∧ x.next = e.entry)) ∧
  (∀ (s : State) (r : PartRec) (va n addr : Nat) (path : List Nat) (w : Want), n < 4 →
    let place := s.canon r.owner (addr + 8 * pteIndex va (n + 1))
    let e := ofBytes (s.bytes place 8)
    let frame := e / 2 ^ 16 % 2 ^ 36 * 65536
    let bits := if n = 2 then 30 else if n = 1 then 21 else 16
    let grants : Prop := (w.r = true → e.testBit 2 = true) ∧ (w.w = true → e.testBit 3 = true) ∧ (w.x = true → e.testBit 4 = true)
    let gives (x : Except Nat Leaf) : Prop := s.walkFrom r va w (n + 1) addr path = x
    (e.testBit 0 = false → gives (.error 2)) ∧ (e.testBit 0 = true → e / 2 ^ 10 % 64 ≠ r.owner → gives (.error 4)) ∧
    (e.testBit 0 = true → e / 2 ^ 10 % 64 = r.owner →
      (e.testBit 1 = false → (n = 0 ∨ e / 4 % 256 ≠ 0 ∨ e / 2 ^ 52 ≠ 0 → gives (.error 5)) ∧
        (n ≠ 0 → e / 4 % 256 = 0 → e / 2 ^ 52 = 0 → gives (s.walkFrom r va w n frame (path ++ [place])))) ∧
      (e.testBit 1 = true → (n = 3 ∨ pteWellFormed r e (n + 1) = false → gives (.error 5)) ∧
        (n ≠ 3 → pteWellFormed r e (n + 1) = true → (¬grants → gives (.error 3)) ∧
          (grants → gives (.ok ⟨s.canon r.owner (frame + va % 2 ^ bits), place, e, e ||| (if w.w = true then 0x60 else 0x20), bits, path ++ [place]⟩))))))

/-- R105, R111, R201, R211, R234, R250, R251, R311: the events that complete an access. A load's reply writes the bytes fixed at its sending to its destination;
an atomic's performs it and returns the old value; a store and a reduction take effect where they are visible, and nowhere else, a store not at bytes that one
ordered after it has already written; a store that happens before them takes effect at their bytes first; `nctr.add` is such a reduction of a counter. What a
save has made of an access already is not made again. A held access is sent once what it waits for is performed; a prefetch fills its line. How the
coherence order follows happens-before, that an atomic reads when it is performed, what a prefetch asks of a line, and what a save makes of an access are the model's readings (logs 48, 6, 74). -/
def Obligations.RepliesTakeEffect : Prop :=
  (∀ (s : State) (k t : Nat) (op : MemOp) (a : Acc), mapFind s.ops k = some op → op.acc t = some a → a.done = false → a.sent.isSome = true → t < 32 →
    let bytesAt (r : State) (pa : Nat) (bs : List Byte) : Prop :=
      ∀ x, r.byte x = if pa ≤ x ∧ x < pa + bs.length then bs.getD (x - pa) 0#8 else s.byte x
    let lane : Lane := if op.uni then none else some t
    let delivers (r : State) (bs : List Byte) : Prop :=
      (∀ i, 4 * i < bs.length → (r.groupAt op.gid).rd lane (op.dst + BitVec.ofNat 6 i) = BitVec.ofNat 32 (ofBytes ((bs.drop (4 * i)).take 4))) ∧
      (∀ x l, laneFits op.uni l → (l = lane → ∀ i, 4 * i < bs.length → x ≠ op.dst + BitVec.ofNat 6 i) →
        (r.groupAt op.gid).rd l x = (s.groupAt op.gid).rd l x)
    let others (r : State) : Prop := ∀ j, j ≠ op.gid → ∀ l x, (r.groupAt j).rd l x = (s.groupAt j).rd l x
    let finished (r : State) : Prop :=
      (op.accs.all (fun b => b.done || decide (b.thread = t)) = true → (r.groupAt op.gid).outs = ((s.groupAt op.gid).returned k).outs)
    let first (pa n : Nat) : Prop := ∀ p ∈ s.ops, p.1 ∈ op.after → p.2.kind = .store → ∀ b ∈ p.2.accs, b.within pa n = []
    let ordered (r : State) (pa n : Nat) : Prop := ∀ j p b i, mapFind s.ops j = some p → j ∈ op.after → j ≠ k → p.kind = .store → b ∈ p.accs → i ∈ b.within pa n →
      ∃ q c, mapFind r.ops j = some q ∧ c ∈ q.accs ∧ c.thread = b.thread ∧ i ∈ c.gone
    (a.settled = true → (op.kind = .load ∨ (∃ o, op.kind = .atom o) → ∃ r, exec (.accessReply k t) s = .next r ∧ r.mem = s.mem ∧ r.scratch = s.scratch ∧ finished r ∧
        ∀ j l x, (r.groupAt j).rd l x = (s.groupAt j).rd l x) ∧
      (op.kind = .store ∨ (∃ o, op.kind = .red o) → ∃ r, exec (.storeReturn k t) s = .next r ∧ r.mem = s.mem ∧ r.scratch = s.scratch ∧ finished r ∧
        ∀ j l x, (r.groupAt j).rd l x = (s.groupAt j).rd l x)) ∧
    (a.settled = false → op.kind = .load → s.faultAt a.place a.size = none → (s.groupAt op.gid).isEnded = false → a.data.length ≤ 16 →
      ∃ r, exec (.accessReply k t) s = .next r ∧ delivers r a.data ∧ others r ∧ finished r ∧ r.mem = s.mem ∧ r.scratch = s.scratch) ∧
    (a.settled = false → ∀ o pa, op.kind = .atom o → a.place = .mem pa → s.faultAt a.place a.size = none → (s.groupAt op.gid).isEnded = false →
      ∃ r, exec (.accessReply k t) s = .next r ∧ others r ∧ finished r ∧ r.scratch = s.scratch ∧ ordered r pa a.size ∧
        (first pa a.size → delivers r (s.bytes pa o.size) ∧
          bytesAt r pa (leBytes o.size (o.new (ofBytes (s.bytes pa o.size)) (ofBytes a.data) (ofBytes a.data2))))) ∧
    (a.settled = false → a.buffered = false → ∀ pa, a.place = .mem pa →
      (op.kind = .store → ∃ r, exec (.storeReturn k t) s = .next r ∧ r.scratch = s.scratch ∧ finished r ∧ ordered r pa a.size ∧
        (first pa a.size → ∀ x, r.byte x = if pa ≤ x ∧ x < pa + a.data.length ∧ x - pa ∉ a.gone then a.data.getD (x - pa) 0#8 else s.byte x)) ∧
      (∀ o, op.kind = .red o → ∃ r, exec (.storeReturn k t) s = .next r ∧ r.scratch = s.scratch ∧ finished r ∧ ordered r pa a.size ∧
        (first pa a.size → bytesAt r pa (leBytes o.size (o.new (ofBytes (s.bytes pa o.size)) (ofBytes a.data) (ofBytes a.data2)))))) ∧
    (a.settled = false → a.buffered = false → ∀ n, a.place = .ctr n → op.kind = .red .addN64 → ∃ r, exec (.storeReturn k t) s = .next r ∧ r.scratch = s.scratch ∧
      ((∀ p ∈ s.nets, p.2.stage ≠ .armed) → r.mem = s.mem) ∧ r.counter op.owner n = s.counter op.owner n + BitVec.ofNat 64 (ofBytes a.data)) ∧
    (a.settled = false → a.buffered = false → ∀ c off, a.place = .scr c off → op.kind = .store → ∃ r, exec (.storeReturn k t) s = .next r ∧ r.mem = s.mem ∧ finished r ∧
      ∀ x, mapGet 0#8 r.scratch x = if scrKey c off ≤ x ∧ x < scrKey c off + a.data.length then a.data.getD (x - scrKey c off) 0#8 else mapGet 0#8 s.scratch x) ∧
    (a.settled = false → a.buffered = false → ∀ n, a.place = .ctr n → op.kind = .store → ∃ r, exec (.storeReturn k t) s = .next r ∧ r.scratch = s.scratch ∧
      ((∀ p ∈ s.nets, p.2.stage ≠ .armed) → r.mem = s.mem) ∧ r.counter op.owner n = s.counter op.owner n + BitVec.ofNat 64 (ofBytes a.data)) ∧
    (a.settled = false → a.buffered = true → op.kind = .store → ∃ r, exec (.storeReturn k t) s = .next r ∧ r.mem = s.mem ∧ r.scratch = s.scratch ∧ finished r)) ∧
  (∀ (s : State) (k t c : Nat) (op : MemOp) (a : Acc), mapFind s.ops k = some op → op.acc t = some a → a.sent = none →
    let now := s.cycOf op.owner op.island
    let vis := visibleAt op.w a.hor now (if now = op.w then a.extra else 0)
    s.awaitAll op.island a.wait = some c → c ≤ now →
    ∃ r, exec (.heldAccessSend k t) s = .next r ∧ ((mapFind r.ops k).bind (fun p => p.acc t)).map (fun b => (b.sent, b.vis)) = some (some now, vis) ∧
      (⟨.owner op.owner op.island, vis, r.replyEvent k t op⟩ : Pend) ∈ r.agenda ∧ r.mem = s.mem ∧
      (∀ j l x, (r.groupAt j).rd l x = (s.groupAt j).rd l x)) ∧
  (∀ (s : State) (o c l : Nat) (f : BitVec 2), ∃ r, exec (.prefetchFill o c l f) s = .next r ∧
    (s.l2Ways o (s.homeSlice o (l * 128)) ≠ [] → r.inL2 o (l * 128) = true) ∧
    (f ≠ 3#2 → s.l1Ways o c ≠ [] → s.l1Line o c (l * 128) = none → ∃ w ∈ s.l1Ways o c, (⟨o, c, l, w, f, s.bytes (l * 128) 128⟩ : L1Line) ∈ r.l1) ∧
    (f = 3#2 → r.l1 = s.l1) ∧ r.mem = s.mem ∧ r.groups = s.groups)

/-! ### Order and synchronisation (R204, R207, R220, R228, R229, R237 to R246) -/

/-- R191, R210, R237, R244 to R246: a fence records what it releases, an `ar` one with what its acquire side has made happen before, and gates the accesses after
it on the loads before it, or drops the L1 lines; an ownership request is noted once every line of it is owned by a write lease; a prefetch asks for the lines
whose pages may be read and were accessed, and for the entries its walks read; `trig` marks threads. None of them writes a register, a predicate or memory. -/
def Obligations.OrderingInstructions : Prop :=
  ∀ (s : State) (u : Bool) (h : Guard) (d a : Reg) (o : Ord) (x : Scope),
    let g := s.grp
    let y := g.scopeOr o x
    let n := (g.getG d).toNat
    let start := (g.getG64 a).toNat
    let ls := (s.launchAt g.launch).leases
    let w := s.wgAt g.wg
    let owned (b : Nat) : Prop := ∃ l ∈ ls, l.resident = true ∧ l.w = true ∧ l.base ≤ b ∧ b < l.base + l.len
    let requests (i : Instr) (give : Bool) : Prop :=
      (g.guardQ h = false ∨ n = 0 → Passes i s) ∧
      (g.guardQ h = true → n ≠ 0 → start % 128 ≠ 0 → exec i s = .next (s.trap (memTrap g.running 4 1 (g.getG64 a)))) ∧
      (g.guardQ h = true → n ≠ 0 → start % 128 = 0 → ∀ b, start ≤ b → b < start + 128 * n → ¬owned b → (∀ c, start ≤ c → c < b → owned c) →
        exec i s = .next (s.trap (memTrap g.running 4 6 (BitVec.ofNat 64 b)))) ∧
      (g.guardQ h = true → n ≠ 0 → start % 128 = 0 → (∀ b, start ≤ b → b < start + 128 * n → owned b) →
        (w.own.length < 64 → exec i s = .next ((s.setWg g.wg { w with own := w.own ++ [⟨start, n, give⟩] }).setGrp g.complete)) ∧
        (64 ≤ w.own.length → exec i s = .next (s.trap (syncTrap g.running 18 0 0#64))))
    (g.guardQ h = false ∨ y = .grp → Passes (.fence h o x) s) ∧
    (g.guardQ h = true → y ≠ .grp → ∃ t, exec (.fence h o x) s = .next t ∧ t = { s with groups := t.groups, l1 := t.l1 } ∧
      (∀ k, k ≠ s.cur → t.groupAt k = s.groupAt k) ∧
      t.grp = { g.complete with fences := t.grp.fences, seen := t.grp.seen, heard := t.grp.heard, gate := t.grp.gate } ∧
      (o = .rel ∨ o = .ar → ∃ f ∈ t.grp.fences, f.scope = y ∧ f.hist = g.running ∧
        (∀ k op, mapFind s.ops k = some op → op.gid = s.cur → op.hist &&& g.running ≠ 0#32 → k ∈ f.ops) ∧
        (∀ k op, mapFind s.ops k = some op → k ∈ g.seen ∨ o = .ar ∧ k ∈ g.heard → k ∈ f.ops)) ∧
      (o = .acq ∨ o = .ar → y ≠ .wg →
        (∀ q ∈ g.outs, q.cls = .loads → q.back = false → ∃ e ∈ t.grp.gate, q.op ∈ e.1 ∧ e.2 = true) ∧
        ((∀ q ∈ g.outs, q.cls = .loads → q.back = true) → ∀ l ∈ t.l1, ¬(l.owner = g.owner ∧ l.core = g.core)))) ∧
    requests (.ownTake h d a) false ∧ requests (.ownGive h d a) true ∧
    (∃ t, exec (.pref u h a) s = .next t ∧ t = { s with groups := t.groups, agenda := t.agenda } ∧ t.grp = g.complete ∧
      (∀ k, k ≠ s.cur → t.groupAt k = s.groupAt k) ∧
      ∀ p, p ∈ t.agenda ↔ p ∈ s.agenda ∨ (∃ l ∈ g.lanes u h, ∃ leaf, (g.rd64 l a).toNat < 0x00F0000000000000 ∧
        s.translate (some g.core) ls g.owner (g.rd64 l a).toNat 1 wantLoad = .ok leaf ∧ leaf.entry.testBit 5 = true ∧
        p = ⟨.owner g.owner (s.groupIsland g), s.win + s.memHorizon g.owner g.core (leaf.pa / 128 * 128),
          .prefetchFill g.owner g.core (leaf.pa / 128) g.modf.cache⟩) ∨
        ∃ l ∈ g.lanes u h, (g.rd64 l a).toNat < 0x00F0000000000000 ∧ ∃ e ∈ s.readsFor (some g.core) ls g.owner (g.rd64 l a).toNat 1 wantLoad,
          p = ⟨.owner g.owner (s.groupIsland g), s.win + s.memHorizon g.owner g.core e, .prefetchFill g.owner g.core (e / 128) 3#2⟩) ∧
    (let marked (j : Nat) : Prop := if u = true then g.guardQ h = true ∧ (g.thread j).st ≠ .ended else (g.active h).getLsbD j = true
     ∃ t, exec (.trig u h) s = .next t ∧ t = { s with groups := t.groups, agenda := t.agenda } ∧ (∀ k, k ≠ s.cur → t.groupAt k = s.groupAt k) ∧
      t.grp = { g.complete with threads := t.grp.threads } ∧
      (∀ j, j < 32 → (marked j → t.grp.thread j = { g.thread j with trig := true }) ∧ (¬marked j → t.grp.thread j = g.thread j)) ∧
      ((∃ j, j < 32 ∧ marked j) → ∀ k l, (k, l) ∈ s.launches → l.producer = some g.launch → l.waits = true →
        (⟨.wall, s.now, .dependantRelease k⟩ : Pend) ∈ t.agenda))

/-- R240, R241: with no trap pending, an arrival counts one group and, with the last, completes the phase and lets the groups that wait on it go on; a count that
the barrier does not expect, or that is already full, traps; a wait goes on where a phase it has not seen is complete and waits otherwise. A pending trap of the
group is taken first. No register, predicate or byte of memory changes. -/
def Obligations.NamedBarriers : Prop :=
  ∀ (s : State) (h : Guard) (b : BitVec 4) (k : BitVec 6),
    let g := s.grp
    let w := s.wgAt g.wg
    let x := w.bar b.toNat
    let free : Prop := g.trapMode = true ∨ mapFind g.pend causeArithmetic = none ∧ ∀ r, w.guard = some r → s.cur ∈ r.got
    let fits : Prop := (x.latched = false ∨ x.expect = k) ∧ x.arrived.toNat + x.engines.toNat + 1 ≤ k.toNat
    let last : Prop := x.arrived.toNat + 1 = k.toNat
    let counts (t : State) : Prop := t.mem = s.mem ∧
      (∀ j, j ≠ b.toNat → (t.wgAt g.wg).bar j = w.bar j) ∧ t.wgAt g.wg = { w with barriers := (t.wgAt g.wg).barriers } ∧
      (∀ j, j ≠ g.wg → t.wgAt j = s.wgAt j) ∧
      (¬last → (t.wgAt g.wg).bar b.toNat = { x with latched := true, expect := k, arrived := x.arrived + 1, carry := ((t.wgAt g.wg).bar b.toNat).carry } ∧
        ∀ j, j ≠ s.cur → t.groupAt j = s.groupAt j) ∧
      (last → (t.wgAt g.wg).bar b.toNat = { phase := x.phase + 1, pending := x.pending, engines := x.engines, past := ((t.wgAt g.wg).bar b.toNat).past } ∧
        ∀ j, j ≠ s.cur → if j ∈ w.groups ∧ (s.groupAt j).waitSlot = some b.toNat
          then t.groupAt j = { (s.groupAt j).addWaited b.toNat with
            waitSlot := none, readyAt := max (s.groupAt j).readyAt (s.win + 4), seen := (t.groupAt j).seen }
          else t.groupAt j = s.groupAt j)
    let waits (t : State) (phase : Word) : Prop :=
      let d := (phase - g.waitedOn b.toNat).toNat
      (1 ≤ d ∧ d ≤ 2 ^ 31 → t.grp = { (g.addWaited b.toNat).complete with seen := t.grp.seen }) ∧
      (¬(1 ≤ d ∧ d ≤ 2 ^ 31) → t.grp = { g.complete with waitSlot := some b.toNat, waitFrom := s.win, barMark := g.markHere } ∧ s.cur ∈ t.unsettled)
    let mistaken (i : Instr) : Prop :=
      (x.latched = true → x.expect ≠ k → exec i s = .next (s.trap (syncTrap g.running 11 b.toNat (BitVec.ofNat 64 (x.expect.toNat + k.toNat * 2 ^ 32))))) ∧
      (x.latched = false ∨ x.expect = k → k.toNat < x.arrived.toNat + x.engines.toNat + 1 → exec i s = .next (s.trap (syncTrap g.running 10 b.toNat 0#64)))
    (free → g.guardQ h = false → Passes (.barArr h b k) s ∧ Passes (.barWait h b) s ∧ Passes (.barSync h b k) s) ∧
    (free → g.guardQ h = true → g.waitSlot = none →
      (fits → (∃ t, exec (.barArr h b k) s = .next t ∧ counts t ∧ t.grp = g.complete) ∧
        ∃ t, exec (.barSync h b k) s = .next t ∧ counts t ∧ (last → waits t (x.phase + 1)) ∧ (¬last → waits t x.phase)) ∧
      mistaken (.barArr h b k) ∧ mistaken (.barSync h b k) ∧
      ∃ t, exec (.barWait h b) s = .next t ∧ waits t x.phase ∧ t.wgs = s.wgs ∧ t.mem = s.mem ∧ ∀ j, j ≠ s.cur → t.groupAt j = s.groupAt j) ∧
    (∀ i ∈ [Instr.barArr h b k, .barWait h b, .barSync h b k], ∀ r, g.trapMode = false → w.guard = none → mapFind g.pend causeArithmetic = some r →
      exec i s = .next ((s.setGrp { g with pend := mapErase g.pend causeArithmetic }).trap
        { cause := 3, deferred := true, lost := r.lost, mask := r.mask, a := r.a, b := r.b, c := r.c })) ∧
    (∀ i ∈ [Instr.barArr h b k, .barWait h b, .barSync h b k], ∀ r, g.trapMode = false → w.guard = some r → s.cur ∉ r.got →
      ∃ v, (∀ q, v = some q → s.cur ∈ q.got) ∧ exec i s = .next ((s.setWg g.wg { w with guard := v }).trap
        { cause := 2, deferred := true, mask := g.running, a := BitVec.ofNat 32 (r.kind * 256 + 8) + BitVec.ofNat 32 (r.bank * 65536),
          b := r.addr.extractLsb' 0 32, c := r.addr.extractLsb' 32 32 }))

/-! ### Engines (R216, R217, R256 to R269, R296 to R307) -/

/-- R258, R259, R297, R302: tensor slots are loaded from the image's table or given a base; a reservation is made where its record is free and its granules, format
and scale pairs fit the share and overlap no other, and freed where no engine holds its granules. What a slot or record held before is read until 4 cycles
after the window. A template of odd places is rounded down, and its length cut to BLEN's six bits (log 67, the model's choice). -/
def Obligations.TensorSlotsAndReservations : Prop :=
  ∀ (s : State) (h : Guard) (k : BitVec 4) (a : Reg) (b : BSel),
    let g := s.grp
    let n := (g.opG b).toNat
    let l := s.launchAt g.launch
    let v := (g.getG64 a).toNat
    let r := s.rsvAt g.wg k.toNat
    let stops (i : Instr) (d : Nat) : Prop := exec i s = .next (s.trap (engTrap g.running d 0 g.trapAt))
    let fits (first len fmt scale : Nat) : Prop := r.valid = false ∧ ∃ sh f, s.shareOf g.owner g.core = some sh ∧ opFmtOf fmt = some f ∧
      1 ≤ len ∧ len ≤ 512 ∧ first + len ≤ sh.obufCount ∧
      (∀ i, i < 16 → i ≠ k.toNat → (s.rsvAt g.wg i).valid = true →
        first + len ≤ (s.rsvAt g.wg i).offset.toNat ∨ (s.rsvAt g.wg i).offset.toNat + (s.rsvAt g.wg i).length.toNat ≤ first) ∧
      (f.isDx = true → scale * 2 + 2 * (512 * len / f.block) ≤ sh.scaleCount * 64)
    let sets (i : Instr) (q : Rsv) : Prop := ∃ t, exec i s = .next t ∧ t = { s with rsv := t.rsv, rsvOld := t.rsvOld, groups := t.groups } ∧ t.grp = g.complete ∧
      (∀ j, j ≠ s.cur → t.groupAt j = s.groupAt j) ∧
      (∀ y : State, y.rsv = t.rsv → y.rsvOld = t.rsvOld → y.rsvAt g.wg k.toNat = if y.wgNow g.wg < s.win + 4 then r else q) ∧
      ∀ w i, i < 16 → (w ≠ g.wg ∨ i ≠ k.toNat) → t.rsvAt w i = s.rsvAt w i
    let loads (i : Instr) (x : Trec) : Prop := ∃ t, exec i s = .next t ∧ t = { s with trec := t.trec, trecOld := t.trecOld, groups := t.groups } ∧ t.grp = g.complete ∧
      (∀ j, j ≠ s.cur → t.groupAt j = s.groupAt j) ∧
      (∀ y : State, y.trec = t.trec → y.trecOld = t.trecOld →
        y.trecAt g.wg k.toNat = if y.wgNow g.wg < s.win + 4 then s.trecAt g.wg k.toNat else some x) ∧
      ∀ w i, i < 16 → (w ≠ g.wg ∨ i ≠ k.toNat) → t.trecAt w i = s.trecAt w i
    let held : Prop := ∃ sh i, s.shareOf g.owner g.core = some sh ∧ i < r.length.toNat ∧
      (mapGet false s.engObuf (s.groupCore g * 512 + (sh.obufFirst + r.offset.toNat + i)) = true ∨
        mapGet 0 s.readHold (s.groupCore g * 512 + (sh.obufFirst + r.offset.toNat + i)) ≠ 0)
    (g.guardQ h = false → Passes (.trecTab h k b) s ∧ Passes (.trecBase h k a) s ∧ Passes (.obufRsvTpl h k b) s ∧ Passes (.obufRsvReg h k a) s ∧
      Passes (.obufFree h k) s) ∧
    (g.guardQ h = true →
      (∀ x, l.trecs[n]? = some x → loads (.trecTab h k b) x) ∧
      (l.trecs[n]? = none → stops (.trecTab h k b) 6) ∧
      (∀ x, s.trecAt g.wg k.toNat = some x → loads (.trecBase h k a) { x with base := g.getG64 a }) ∧
      (s.trecAt g.wg k.toNat = none → stops (.trecBase h k a) 6) ∧
      (∀ x, l.templates[n]? = some x →
        (fits (x.offset / 512) (x.length / 512) x.fmt (x.scaleOff / 2) → sets (.obufRsvTpl h k b)
          ⟨BitVec.ofNat 14 (x.scaleOff / 2), BitVec.ofNat 10 (x.length / 512), BitVec.ofNat 9 (x.offset / 512), BitVec.ofNat 6 x.blen, BitVec.ofNat 5 x.fmt, true⟩) ∧
        (¬fits (x.offset / 512) (x.length / 512) x.fmt (x.scaleOff / 2) → stops (.obufRsvTpl h k b) 1)) ∧
      (l.templates[n]? = none → stops (.obufRsvTpl h k b) 1) ∧
      (let ok : Prop := v < 2 ^ 48 ∧ v / 2 % 8 = 0 ∧ fits (v / 2 ^ 15 % 512) (v / 2 ^ 24 % 1024) (v / 2 ^ 4 % 32) (v / 2 ^ 34 % 2 ^ 14)
       (ok → sets (.obufRsvReg h k a)
          ⟨BitVec.ofNat 14 (v / 2 ^ 34), BitVec.ofNat 10 (v / 2 ^ 24), BitVec.ofNat 9 (v / 2 ^ 15), BitVec.ofNat 6 (v / 2 ^ 9), BitVec.ofNat 5 (v / 2 ^ 4), true⟩) ∧
       (¬ok → stops (.obufRsvReg h k a) 1)) ∧
      (r.valid = false → Passes (.obufFree h k) s) ∧
      (r.valid = true → held → stops (.obufFree h k) 0) ∧
      (r.valid = true → ¬held → sets (.obufFree h k) { r with valid := false }))

/-- R240, R299, R300, R216: a copy of the producer group, from a slot that holds a record it may use to a place that is its own and free, is handed off: its
operation is in flight with its bytes, its counter is raised, its granules are the engine's and its barrier counts it; nothing of the core's memories changes yet,
and of memory only page-table leaves. Each check that fails traps. -/
def Obligations.CopiesIssue : Prop :=
  ∀ (s : State) (h : Guard) (k : BitVec 4) (a : Reg) (b : BitVec 4) (be : Bool),
    let g := s.grp
    let l := s.launchAt g.launch
    let x := (s.wgAt g.wg).bar b.toNat
    let args := (List.range 8).map (fun i => g.getG (a + BitVec.ofNat 6 i))
    let held (r : State) (obuf : Bool) (q : Nat) : Bool :=
      if obuf then mapGet false r.engObuf (s.groupCore g * 512 + q) else mapGet false r.engScr (s.groupCore g * 1024 + q)
    let issues (i : Instr) (out obuf : Bool) : Prop :=
      let stops (d : Nat) : Prop := exec i s = .next (s.trap (engTrap g.running d 0 g.trapAt))
      (g.guardQ h = false → Passes i s) ∧
      (g.guardQ h = true → l.producerGroup ≠ some g.index → stops 5) ∧
      (g.guardQ h = true → l.producerGroup = some g.index → s.trecAt g.wg k.toNat = none → stops 6) ∧
      (∀ r, g.guardQ h = true → l.producerGroup = some g.index → s.trecAt g.wg k.toNat = some r →
        (r.ok (args.getD 0 0#32).toNat = false → stops 6) ∧
        (r.ok (args.getD 0 0#32).toNat = true → ∀ f, s.copyPlace g out obuf r args = .error f → exec i s = .next (s.trap f)) ∧
        (r.ok (args.getD 0 0#32).toNat = true → ∀ first pairs, s.copyPlace g out obuf r args = .ok (first, pairs) →
          let j : CopyJob := ⟨out, obuf, r, args, first, pairs⟩
          let gr := granules j.first j.span
          let busy (q : Nat) : Prop := held s obuf q = true ∨ obuf = true ∧ mapGet 0 s.readHold (s.groupCore g * 512 + q) ≠ 0
          ((∃ q ∈ gr, busy q) → stops 0) ∧
          ((∀ q ∈ gr, ¬busy q) → l.detlvl = 0 → (be = true → x.latched = true → x.arrived.toNat + x.engines.toNat + 1 ≤ x.expect.toNat) →
            ∃ t e, exec i s = .next t ∧ mapFind t.engs s.nextId = some e ∧ e.gid = s.cur ∧ e.cls = .copies ∧ e.job = .copy j ∧ e.bytes = j.total ∧
              e.bar = (if be then some b.toNat else none) ∧ e.due.isSome = true ∧
              t.grp = { g.complete with outs := g.outs ++ [⟨.copies, s.nextId, false⟩] } ∧ (∀ c, c ≠ s.cur → t.groupAt c = s.groupAt c) ∧
              (∀ q ∈ gr, held t obuf q = true) ∧ t.scratch = s.scratch ∧ t.obuf = s.obuf ∧ t.scale = s.scale ∧ t.acc = s.acc ∧
              (∀ c, (∀ va n w leaf, s.translate none l.leases g.owner va n w = .ok leaf → c < leaf.at_ ∨ leaf.at_ + 8 ≤ c) → t.byte c = s.byte c) ∧
              (t.wgAt g.wg).bar b.toNat = if be then { x with engines := x.engines + 1, pending := x.pending + BitVec.ofNat 32 j.total } else x)))
    issues (.cpInScr h k a b be) false false ∧ issues (.cpInObuf h k a b be) false true ∧ issues (.cpOutScr h k a b be) true false

/-- R261, R262, R265, R267, R268, R303 to R306: a tile instruction enters the lane's queue under a new operation, one entry for each quarter with an active
thread, with its counter raised and nothing computed yet; a drain is in flight as an engine operation too; `mma.fence` closes a batch and gives its number, and
`mma.wait` stays until it is complete. -/
def Obligations.TileInstructions : Prop :=
  ∀ (s : State) (h : Guard) (d a r : Reg) (b : BSel) (k : BitVec 4) (be : Bool),
    let g := s.grp
    let act := g.active h
    let key := (g.owner * 512 + g.core) * 8 + g.lane
    let out : Out := ⟨.tiles, s.nextId, false⟩
    let idle (q : Nat) : Prop := ∀ t, t < 32 → t / 8 = q → act.getLsbD t = false
    let enters (t : State) (tile : Nat) (works : List TileWork) : Prop :=
      mapGet [] t.queues key = mapGet [] s.queues key ++ works.map (fun w => ⟨s.nextId, g.wg, s.win + 4, tile, w⟩) ∧
      mapFind t.tileOps s.nextId = some { gid := s.cur, owner := g.owner, core := g.core, tile := tile, left := works.length, pc := g.pc } ∧
      t.acc = s.acc ∧ t.obuf = s.obuf ∧ t.scratch = s.scratch ∧ t.mem = s.mem ∧ ∀ j, j ≠ s.cur → t.groupAt j = s.groupAt j
    let stops (i : Instr) (n : Nat) : Prop := exec i s = .next (s.trap (engTrap g.running n 0 g.trapAt))
    let tileOf (i : Instr) (c : Reg) (go : Nat → Prop) : Prop :=
      (s.shareOf g.owner g.core = none → stops i 4) ∧
      ∀ sh, s.shareOf g.owner g.core = some sh →
        (sh.accCount ≤ c.toNat → stops i 4) ∧
        (let other : Prop := ∃ p ∈ s.tileOps, p.2.owner = g.owner ∧ p.2.core = g.core ∧ p.2.tile = sh.accFirst + c.toNat ∧ p.2.gid ≠ s.cur
         c.toNat < sh.accCount → (other → stops i 0) ∧ (¬other → go (sh.accFirst + c.toNat)))
    (act = 0#32 → Passes (.mma h d a r) s ∧ Passes (.accRd h d a b) s) ∧
    (g.guardQ h = false → Passes (.mmaFence h d) s ∧ Passes (.mmaWait h b) s ∧ Passes (.accZero h d) s ∧ Passes (.drain h d a k be) s) ∧
    (act ≠ 0#32 → tileOf (.mma h d a r) d (fun tile =>
      let qs := (quartersOf act).map (s.quarter g act a)
      (∀ n, s.quarterFault (s.groupCore g) qs = some n → stops (.mma h d a r) n) ∧
      (s.quarterFault (s.groupCore g) qs = none → ∃ t works, exec (.mma h d a r) s = .next t ∧ enters t tile works ∧
        (∀ q, q < 4 → (idle q ∨ ∃ x y, (s.quarter g act a q).a = .ok x ∧ (s.quarter g act a q).b = .ok y ∧
          TileWork.quarter q x y (g.getG r) (g.getG (r + 1)) ∈ works)) ∧
        (∀ w ∈ works, ∃ q x y ta tb, w = .quarter q x y ta tb ∧ q < 4 ∧ ¬idle q) ∧ works.length = (List.range 4).countP (fun q => (List.range 8).any (fun i => act.getLsbD (8 * q + i))) ∧
        t.grp = { g.complete with outs := g.outs ++ [out], batches := t.grp.batches }))) ∧
    (g.guardQ h = true →
      (∃ t, exec (.mmaFence h d) s = .next t ∧ OnlyGroup s t ∧ t.grp.getG d = BitVec.ofNat 32 (g.batch % 65536) ∧ t.grp.batch = g.batch + 1 ∧
        (∀ x, x ≠ d → t.grp.getG x = g.getG x) ∧
        t.grp = { g.complete with g := t.grp.g, avail := t.grp.avail, batch := t.grp.batch, batches := t.grp.batches }) ∧
      (let n := (g.opG b).toNat % 65536
       (g.batchClosed n = false → exec (.mmaWait h b) s = .next (s.trap (syncTrap g.running 13 0 (BitVec.ofNat 64 n)))) ∧
       (g.batchClosed n = true → g.batchDone n = true → Passes (.mmaWait h b) s) ∧
       (g.batchClosed n = true → g.batchDone n = false → exec (.mmaWait h b) s = .next s)) ∧
      tileOf (.accZero h d) d (fun tile => ∃ t, exec (.accZero h d) s = .next t ∧ enters t tile [.zero] ∧ t.grp = { g.complete with outs := g.outs ++ [out] })) ∧
    (act ≠ 0#32 → tileOf (.accRd h d a b) a (fun tile => ∃ t, exec (.accRd h d a b) s = .next t ∧
      enters t tile [.read ((g.opG b).toNat % 32) d act] ∧ t.grp = { g.complete with outs := g.outs ++ [out], late := t.grp.late })) ∧
    (g.guardQ h = true →
      (drainImages g a = none → stops (.drain h d a k be) 8) ∧
      ∀ is0, drainImages g a = some is0 →
        ((∃ x ∈ is0, x.addr.toNat % 64 ≠ 0) → ∃ x ∈ is0, x.addr.toNat % 64 ≠ 0 ∧ exec (.drain h d a k be) s = .next (s.trap (memTrap g.running 1 1 x.addr))) ∧
        ((∀ x ∈ is0, x.addr.toNat % 64 = 0) →
          (∀ va, s.imagePlaces g is0 = .error va → exec (.drain h d a k be) s = .next (s.trap (memTrap g.running 1 7 va))) ∧
          ∀ is, s.imagePlaces g is0 = .ok is → tileOf (.drain h d a k be) d (fun tile =>
            let gr := (is.flatMap (fun x => match x.off with
              | some off => granules off x.size
              | none => [])).dedup
            let x := (s.wgAt g.wg).bar k.toNat
            ((∃ q ∈ gr, mapGet false s.engScr (s.groupCore g * 1024 + q) = true) → stops (.drain h d a k be) 0) ∧
            ((∀ q ∈ gr, mapGet false s.engScr (s.groupCore g * 1024 + q) = false) → (s.launchAt g.launch).detlvl = 0 →
              (be = true → x.latched = true → x.arrived.toNat + x.engines.toNat + 1 ≤ x.expect.toNat) →
              ∃ t e, exec (.drain h d a k be) s = .next t ∧ enters t tile [.drain s.nextId] ∧ mapFind t.engs s.nextId = some e ∧ e.gid = s.cur ∧
                e.job = .drain is (g.getG (a + 4)) ((g.getG (a + 5)).toNat % 16) g.flagArm ∧ e.bytes = (is.map (fun x => x.size)).sum ∧
                e.bar = (if be then some k.toNat else none) ∧ e.due = none ∧ (∀ q ∈ gr, mapGet false t.engScr (s.groupCore g * 1024 + q) = true) ∧
                t.grp = { g.complete with outs := g.outs ++ [out] }))))

/-- R255, R256, R307: `qcvt` quantises the values of the active threads as one block, the others counting as zeros, and completes in every state. Its larger scale
is the smallest E4M3 code that carries the largest value over the tensor scale, the largest code where none does; the smaller one is the nearest E4M3 code to
it over 2^k; each thread gets the code of its element and raises that element's flags, element after element with the residual of the one before; a tensor
scale that is not finite and positive gives zeros with INV. That an element cut to Mmax is inexact on the grid too is read from R256's own steps, and that a
zero is never half-way from its text (log 91: the model's reading). -/
def Obligations.BlockQuantisation : Prop :=
  ∀ (s : State) (h : Guard) (d a : Reg) (f : DxFmt) (n : Reg),
    let g := s.grp
    let t := f32Val (g.getG n)
    let xs : List Exact := (bitsOf (g.active h)).filterMap (fun x => match f32Val (g.getV a x) with
      | .fin y => some y
      | .nan | .inf _ => none)
    let unit : ℚ := (2 ^ (dxWidth f - 2) - 1 : ℚ) / 2 ^ dxFrac f
    let v (c : Nat) : ℚ := ((layoutOf .e4m3).magnitude c).val
    let value (i : Nat) : FVal := if (g.active h).getLsbD i then f32Val (g.getV a i) else f32Val 0#32
    let k := (g.getG (n + 1)).toNat % 16
    let carries (tv : Exact) (c : Nat) (x : Exact) : Prop := |x.val| / tv.val ≤ ((layoutOf .e4m3).magnitude c).val * unit
    (∃ r, exec (.qcvt h d a f n) s = .next r ∧ OnlyGroup s r ∧ r.grp.pc = s.grp.complete.pc) ∧
    ((t = .nan ∨ (∃ b, t = .inf b) ∨ ∃ x, t = .fin x ∧ (x.n = 0 ∨ x.s = true)) →
      Delivers (.qcvt h d a f n) s false h d (fun _ => 0#32) (fun _ => flagINV)) ∧
    (∀ tv, t = .fin tv → tv.n ≠ 0 → tv.s = false → ∃ s1 s0 : Nat, s1 ≤ 0x7E ∧
      ((∀ x ∈ bitsOf (g.active h), ∀ b, f32Val (g.getV a x) ≠ .inf b) →
        (s1 < 0x7E → ∀ x ∈ xs, carries tv s1 x) ∧ ∀ c, c < s1 → ∃ x ∈ xs, ¬carries tv c x) ∧
      ((∃ x ∈ bitsOf (g.active h), ∃ b, f32Val (g.getV a x) = .inf b) → s1 = 0x7E) ∧
      s0 ≤ 0x7E ∧ (∃ (e : Exact) (fl : BitVec 4), 0 < e.d ∧ e.s = false ∧ e.val = v s1 / 2 ^ k ∧ Rounds .e4m3 .rn e ⟨s0, fl⟩) ∧
      ∃ (code : Nat → Nat) (fl : Nat → BitVec 4) (res : Nat → ℚ), res 0 = 0 ∧
        (∀ i, i < 32 → IsElement f (v s0) (v s1) (value i) tv.val (res i) (code i) (fl i) (res (i + 1))) ∧
        DeliversSuch (.qcvt h d a f n) s false h d (fun l r => ∀ x, l = some x → x < 32 →
          r.val = BitVec.ofNat 32 (s1 * 2 ^ 24 + s0 * 2 ^ 16 + code x) ∧ r.fl = fl x))

/-- R216, R217, R240, R301, R306: a beat lowers what its barrier has pending by what it brings; completion puts every byte at its place at once, frees the granules,
lowers the counter in order and arrives on the barrier; a drain raises its flags and frees its tile. When beats fall, and that an engine reads its source at the
hand-off and writes at completion, are the model's choices (logs 28, 29). -/
def Obligations.EngineOperationsComplete : Prop :=
  ∀ (s : State) (k n : Nat) (e : EngOp), mapFind s.engs k = some e →
    let c := s.phys e.owner e.core
    let g := s.groupAt e.gid
    let ends (t : State) : Prop := Landed s t c e.writes ∧ mapFind t.engs k = none ∧ SameRegs s t ∧
      (∀ q ∈ e.granScr, mapGet false t.engScr (c * 1024 + q) = false) ∧ (∀ q ∈ e.granObuf, mapGet false t.engObuf (c * 512 + q) = false) ∧
      (t.groupAt e.gid).outs = (g.returned k).outs ∧
      (∀ b, e.bar = some b → ∃ past carry, (t.wgAt e.wg).bar b = arrivedBar ((s.wgAt e.wg).bar b) (e.bytes - e.landed) past carry) ∧
      (e.bar = none → t.wgs = s.wgs)
    let beat := min 64 (e.bytes - e.landed)
    (∃ t, exec (.copyBeat k n) s = .next t ∧ t = { s with engs := t.engs, wgs := t.wgs } ∧ mapFind t.engs k = some { e with landed := e.landed + beat } ∧
      (∀ j, j ≠ k → mapFind t.engs j = mapFind s.engs j) ∧ (e.bar = none → t.wgs = s.wgs) ∧
      ∀ b, e.bar = some b → (t.wgAt e.wg).bar b = { (s.wgAt e.wg).bar b with pending := ((s.wgAt e.wg).bar b).pending - BitVec.ofNat 32 beat } ∧
        (∀ i, i ≠ b → (t.wgAt e.wg).bar i = (s.wgAt e.wg).bar i) ∧ ∀ w, w ≠ e.wg → t.wgAt w = s.wgAt w) ∧
    (∃ t, exec (.copyCompletion k) s = .next t ∧ ends t ∧ (t.groupAt e.gid).flags = g.flags) ∧
    (∀ is scale kk arm, e.job = .drain is scale kk arm → ∃ t, exec (.drainCompletion k) s = .next t ∧ ends t ∧ mapFind t.tileOps k = none ∧
      (g.isEnded = false → (t.groupAt e.gid).flags = g.flags ||| e.fl.setWidth 32))

/-- R262 to R265, R268, R305: a slice that is free takes the entry at the head of its owner's queue; its results, fixed then from the operands and the accumulator
as earlier passes leave it, are due 16 cycles after the pass's last window, and are written there and nowhere before. -/
def Obligations.MatrixPasses : Prop :=
  (∀ (s : State) (o core lane : Nat), lane < 8 →
    let l := core * 8 + lane
    let phys := s.phys o core
    let island := islandOf phys
    let w := s.cycOf o island
    let key := (o * 512 + core) * 8 + lane
    let q := mapGet [] s.queues key
    let serves (p : Nat × Pass) : Prop := p.2.owner = o ∧ p.2.core = core ∧ p.2.lane = lane ∧ p.2.left ≠ 0
    let due (t : State) (k c : Nat) : Prop := (⟨.owner o island, c + 16, .matrixPassResult k⟩ : Pend) ∈ t.agenda
    let still (t : State) : Prop := t.acc = s.acc ∧ t.groups = s.groups ∧ t.mem = s.mem ∧ t.scratch = s.scratch ∧ t.obuf = s.obuf
    (∀ k p, s.passes.find? (fun p => decide (p.2.owner = o ∧ p.2.core = core ∧ p.2.lane = lane ∧ p.2.left ≠ 0)) = some (k, p) → p.owner = o → p.island = island →
      ∃ t, exec (.matrixPass o l) s = .next t ∧ still t ∧ t.queues = s.queues ∧ mapFind t.passes k = some { p with left := p.left - 1 } ∧ (p.left = 1 → due t k w)) ∧
    ((∀ p ∈ s.passes, ¬serves p) →
      ((∀ e ∈ q.head?, w < e.enter) → ∃ t, exec (.matrixPass o l) s = .next t ∧ still t ∧ t.passes = s.passes ∧ ∀ j, mapGet [] t.queues j = mapGet [] s.queues j) ∧
      ∀ e rest, q = e :: rest → e.enter ≤ w → (∀ a b ta tb n, e.work = .quarter n a b ta tb → ∀ f ∈ rest.head?, w < f.enter ∨ f.wg ≠ e.wg) →
        let takes (left : Nat) (good : Pass → Prop) : Prop := ∃ t p, exec (.matrixPass o l) s = .next t ∧ still t ∧ mapGet [] t.queues key = rest ∧
          mapFind t.passes s.nextId = some p ∧ p.owner = o ∧ p.core = core ∧ p.lane = lane ∧ p.island = island ∧ p.entries = [e] ∧ p.left = left ∧
          (left = 0 → due t s.nextId w) ∧ good p
        (e.work = .zero → takes 0 (fun p => ∀ i, i < 1024 → mapFind p.tiles (phys * 32768 + e.tile * 1024 + i) = some 0#32)) ∧
        (∀ row d mask, e.work = .read row d mask → takes 0 (fun p => p.tiles = [] ∧
          ∀ x, x < 32 → mask.getLsbD x = true → (32 * d.toNat + x, s.accNow (phys * 32768 + e.tile * 1024 + 32 * row + x)) ∈ p.regs)) ∧
        (∀ n a b ta tb, e.work = .quarter n a b ta tb → takes ((a.f.weight + 3) / 4 - 1) (fun p => p.regs = [] ∧
          ∀ i j, i < 8 → j < 32 → ∃ r, mapFind p.tiles (phys * 32768 + e.tile * 1024 + 32 * (8 * n + i) + j) = some r ∧
            IsBlockStep (s.accNow (phys * 32768 + e.tile * 1024 + 32 * (8 * n + i) + j)) (s.blockAt phys a i ta) (s.blockAt phys b j tb) r)) ∧
        (∀ k, e.work = .drain k → ∀ x is scale kk arm, mapFind s.engs k = some x → x.job = .drain is scale kk arm →
          ∃ t y, exec (.matrixPass o l) s = .next t ∧ t.acc = s.acc ∧ t.groups = s.groups ∧ t.scratch = s.scratch ∧ mapGet [] t.queues key = rest ∧
            mapFind t.engs k = some y ∧ y.due.isSome = true ∧ y.job = x.job))) ∧
  (∀ (s : State) (k : Nat) (p : Pass), mapFind s.passes k = some p →
    let uniq (xs : List (Nat × Word)) (x : Nat) (v : Word) : Prop := (x, v) ∈ xs ∧ ∀ u, (x, u) ∈ xs → u = v
    ∃ t, exec (.matrixPassResult k) s = .next t ∧ mapFind t.passes k = none ∧ t.mem = s.mem ∧ t.scratch = s.scratch ∧
      (∀ x v, uniq p.tiles x v → mapGet 0#32 t.acc x = v) ∧ (∀ x, (∀ v, (x, v) ∉ p.tiles) → mapGet 0#32 t.acc x = mapGet 0#32 s.acc x) ∧
      ∀ e y, p.entries = [e] → mapFind s.tileOps e.op = some y →
        (∀ j, (t.groupAt j).g = (s.groupAt j).g ∧ (j ≠ y.gid → t.groupAt j = s.groupAt j)) ∧
        (y.left ≤ 1 → mapFind t.tileOps e.op = none ∧ (t.groupAt y.gid).outs = ((s.groupAt y.gid).returned e.op).outs) ∧
        (1 < y.left → mapFind t.tileOps e.op = some { y with left := y.left - 1 }) ∧
        ((∀ row d mask, e.work ≠ .read row d mask) → (t.groupAt y.gid).v = (s.groupAt y.gid).v) ∧
        (∀ row d mask, e.work = .read row d mask → (s.groupAt y.gid).isEnded = false →
          (∀ x v, uniq p.regs x v → mapGet 0#32 (t.groupAt y.gid).v x = v) ∧
          ∀ x, (∀ v, (x, v) ∉ p.regs) → mapGet 0#32 (t.groupAt y.gid).v x = mapGet 0#32 (s.groupAt y.gid).v x))

/-! ### Queues, networks and the tree -/

/-- R282 to R286, R289 to R291, R308 to R310, R326: `deq` waits for the ring's first item that no other `deq` has, or the closed indication of a ring that is empty,
counted from the item's append or the queue's close; `enq` and `jpost` wait until their item has reached the ring; `disp` reads its table's lines, or its header
alone where that load is held (log 51: the model's reading). An append, a delivery, a closed indication and a table's result end these waits. -/
def Obligations.DroverQueues : Prop :=
  (∀ (s : State) (h : Guard) (d a : Reg) (q : BitVec 3) (b : BSel),
    let g := s.grp
    let o := g.owner
    let x := g.opG b
    let n := x.toNat % 64
    let ring (core : Nat) : Nat := if n < 32 then n else 64 * (core + 1) + n
    let hor (core : Nat) : Nat := if s.ringHome o (ring core) = g.core / 128 then 96 else 768
    let stops (i : Instr) : Prop := exec i s = .next (s.trap (engTrap g.running 10 0 g.trapAt))
    let when_ (e : Nat) : Nat := s.win + hor g.core + 32 * ((max s.win e - s.win + 31) / 32)
    let item : List Byte := (List.range 16).flatMap (fun i => leBytes 4 (g.getG (a + BitVec.ofNat 6 i)).toNat)
    let known : Prop := ∃ y, mapFind (s.ownerAt o).qdecl n = some y
    let sends (i : Instr) (core : Nat) : Prop := ∃ t, exec i s = .next t ∧
      t = { s with waits := t.waits, groups := t.groups, nextId := t.nextId, agenda := t.agenda } ∧
      Awaits s t (.append n (ring core) item q) (some (s.win + hor core)) ∧
      (⟨.owner o (s.groupIsland g), s.win + hor core, .itemAppend s.nextId⟩ : Pend) ∈ t.agenda
    (g.guardQ h = false → Passes (.deq h d q b) s ∧ Passes (.enq h q a b) s ∧ Passes (.jpost h q a b) s ∧ Passes (.disp h d a b) s) ∧
    (g.guardQ h = true →
      (¬known → stops (.deq h d q b) ∧ stops (.enq h q a b) ∧ stops (.jpost h q a b)) ∧
      (known → sends (.enq h q a b) g.core) ∧
      (let core := x.toNat / 65536 % 512
       (n < 32 ∨ s.hasCore o core = false → stops (.jpost h q a b)) ∧ (known → 32 ≤ n → s.hasCore o core = true → sends (.jpost h q a b) core)) ∧
      (known → ∃ t got due, exec (.deq h d q b) s = .next t ∧
        t = { s with waits := t.waits, groups := t.groups, nextId := t.nextId, agenda := t.agenda, owners := t.owners } ∧
        Awaits s t (.deq n (ring g.core) d q got) due ∧ (due = none → got = none) ∧
        (∀ c, due = some c → ∃ e, c = when_ e ∧ ((∃ i ∈ (s.ownerAt o).ring (ring g.core), got = some i.bytes ∧ e = i.at_) ∨
          got = none ∧ ∃ y, mapFind (s.ownerAt o).qdecl n = some y ∧ y.closed = true ∧ e = y.closedAt)) ∧
        ((∀ p ∈ s.waits, p.2.owner = o → ∀ m r e k i, p.2.kind = .deq m r e k i → r ≠ ring g.core) →
          let first := ((s.ownerAt o).ring (ring g.core)).find? (fun i => i.taken.isNone)
          got = first.map (fun i => i.bytes) ∧ (∀ i, first = some i → due = some (when_ i.at_)) ∧
          (due = none ↔ first = none ∧ ((s.ownerAt o).ring (ring g.core) ≠ [] ∨ ∀ y, mapFind (s.ownerAt o).qdecl n = some y → y.closed = false)))) ∧
      (∀ c, s.checkAccess g (g.getG64 a) true 64 wantLoad false = .error c → ∃ fills,
        (let t := s.trap (memTrap g.running 0 c (g.getG64 a)); exec (.disp h d a b) s = .next { t with agenda := t.agenda ++ fills }) ∧
          ∀ e ∈ fills, ∃ o c l k, e.ev = .prefetchFill o c l k) ∧
      (∀ r, b = .own r ∨ b = .grp r → ∀ hit, s.checkAccess g (g.getG64 a) true 64 wantLoad false = .ok hit →
        let l1 : Bool := match hit.place with
          | .mem pa => (s.l1Line o g.core pa).isSome
          | .scr _ _ | .guard | .ctr _ => false
        let rows := word32 (s.loadValue o g.core g.wg l1 hit.place 64 s.win).1 0
        let lines := if s.sentNow g hit = true ∧ 1 ≤ rows ∧ rows ≤ 64 then 1 + (rows + 1) / 2 else 1
        let at_ (i : Nat) : Dword := g.getG64 a + BitVec.ofNat 64 (64 * i)
        (∀ i, i < lines → ∃ y, s.checkAccess g (at_ i) true 64 wantLoad false = .ok y ∧ s.tileHeldAt y 64 = false ∧ ∀ n, s.fateOf g .load y ≠ .stop n) →
        ∃ t p w, exec (.disp h d a b) s = .next t ∧ mapFind t.ops s.nextId = some p ∧ readsAt p s.cur 64 ((List.range lines).map (fun i => (at_ i).toNat)) ∧
          mapFind t.waits s.nextId = some w ∧ w.gid = s.cur ∧ w.kind = .disp d ((List.range 4).map (fun i => g.getG (r + BitVec.ofNat 6 i))) false ∧
          t.grp.busy = some s.nextId ∧ t.grp.outs = g.outs ∧ t.grp.pc = g.complete.pc ∧ SameRegs s t ∧ t.scratch = s.scratch ∧
          ∀ k, k ≠ s.cur → t.groupAt k = s.groupAt k))) ∧
  (∀ (s : State) (k : Nat) (x : WaitOp), mapFind s.waits k = some x →
    let g := s.groupAt x.gid
    let now := s.cycOf x.owner x.island
    (∀ q r item p, x.kind = .append q r item p →
      let xs := (s.ownerAt x.owner).ring r
      let room : Prop := ∃ y, mapFind (s.ownerAt x.owner).qdecl (r % 64) = some y ∧ y.closed = false ∧ xs.length < y.entries
      ∃ t, exec (.itemAppend k) s = .next t ∧ t = { s with waits := t.waits, groups := t.groups, agenda := t.agenda, owners := t.owners } ∧
        (g.isEnded = false → (room → Resumes s t k x.gid (g.setQ p true)) ∧ (¬room → Resumes s t k x.gid (g.setQ p false))) ∧
        (¬room → t.owners = s.owners) ∧
        (room → ((t.ownerAt x.owner).ring r).map (fun i => (i.bytes, i.at_)) = xs.map (fun i => (i.bytes, i.at_)) ++ [(item, now)])) ∧
    (∀ q r d p item, x.kind = .deq q r d p (some item) → x.due = some now → ∃ t, exec (.deqDelivery k) s = .next t ∧
      t = { s with waits := t.waits, groups := t.groups, owners := t.owners, agenda := t.agenda, l1 := t.l1 } ∧ mapFind t.waits k = none ∧
      ((t.ownerAt x.owner).ring r).map (fun i => (i.bytes, i.at_)) =
        (((s.ownerAt x.owner).ring r).filter (fun i => decide (i.taken ≠ some k))).map (fun i => (i.bytes, i.at_)) ∧
      (∀ l, l ∈ t.l1 ↔ l ∈ s.l1 ∧ ¬(l.owner = x.owner ∧ l.core = g.core)) ∧ (∀ j, j ≠ x.gid → t.groupAt j = s.groupAt j) ∧
      (g.isEnded = false →
        (∀ i, i < 16 → (t.groupAt x.gid).getG (d + BitVec.ofNat 6 i) = BitVec.ofNat 32 (ofBytes ((item.drop (4 * i)).take 4))) ∧
        (∀ y, (∀ i, i < 16 → y ≠ d + BitVec.ofNat 6 i) → (t.groupAt x.gid).getG y = g.getG y) ∧
        t.groupAt x.gid = { g.setQ p true with g := (t.groupAt x.gid).g, busy := none })) ∧
    (∀ q r d p, x.kind = .deq q r d p none → x.due = some now → g.isEnded = false → ∃ t, exec (.deqClosedIndication k) s = .next t ∧
      t = { s with waits := t.waits, groups := t.groups } ∧ Resumes s t k x.gid (g.setQ p false)) ∧
    (∀ d shape op, x.kind = .disp d shape false → mapFind s.ops k = some op → g.isEnded = false →
      (∀ a ∈ op.accs, a.done = true ∨ a.sent.isSome = true ∧ a.vis ≤ s.cycOf op.owner op.island) → (∀ a ∈ op.accs, a.done = false → s.faultAt a.place a.size = none) →
      let table := op.accs.flatMap (fun a => a.data)
      let rows := word32 table 0
      let dims := word32 table 4
      let bound (i m : Nat) : Nat := word32 table (64 + 32 * i + 4 * m)
      let size (m : Nat) : Nat := (shape.getD m 0#32).toNat
      let fits (i : Nat) : Prop := ∀ m, m < dims → size m ≤ bound i m
      1 ≤ rows → rows ≤ 64 → 64 * (1 + (rows + 1) / 2) ≤ table.length → 1 ≤ dims → dims ≤ 4 → (∀ y ∈ (table.drop 8).take 56, y = 0#8) →
      (∀ i, i < rows → ∀ y ∈ (table.drop (84 + 32 * i)).take 12, y = 0#8) →
      ∃ t, exec (.dispResult k) s = .next t ∧ mapFind t.waits k = none ∧ t.mem = s.mem ∧ t.scratch = s.scratch ∧ t.owners = s.owners ∧
        (t.groupAt x.gid).busy = none ∧ (∀ y, (∀ j, j < 9 → y ≠ d + BitVec.ofNat 6 j) → (t.groupAt x.gid).getG y = g.getG y) ∧
        (∀ j, (t.groupAt j).v = (s.groupAt j).v ∧ (j ≠ x.gid → (t.groupAt j).g = (s.groupAt j).g)) ∧
        ((∀ i, i < rows → ¬fits i) → (t.groupAt x.gid).getG d = 0xFFFFFFFF#32 ∧ ∀ j, 1 ≤ j → j < 9 → (t.groupAt x.gid).getG (d + BitVec.ofNat 6 j) = 0#32) ∧
        (∀ i, i < rows → fits i → (∀ j, j < i → ¬fits j) → (t.groupAt x.gid).getG d = BitVec.ofNat 32 (word32 table (80 + 32 * i)) ∧
          ∀ m, m < 4 →
            (∀ y, y < 32 → (((t.groupAt x.gid).getG (d + BitVec.ofNat 6 (1 + m))).getLsbD y = true ↔ m < dims ∧ size m ≤ 32 * ((size m - 1) / 32) + y)) ∧
            (t.groupAt x.gid).getG (d + BitVec.ofNat 6 (5 + m)) = if m < dims then BitVec.ofNat 32 (bound i m - size m) else 0#32)))

/-- R311 to R320, R403, R406: counter instructions are single accesses to a counter, a waiting one polls; `npost` reads its record and an entry is armed by it or refused;
`nput` and `nget` check their block and fire in chunks of 256 bytes; a chunk is performed where it arrives, and with the last of its operation the remote
counter is raised; completion writes what came back, raises the counters and frees. Where an operation fires, the walker marks page-table entries. How a
chunk from outside is served in its owner's slots, what an answer does and what a faulting operation leaves are the model's choices (logs 53, 64), and so are
where walks for a trap fill (log 3) and that every message of this device is its own owner's (log 5). -/
def Obligations.NetworkOperations : Prop :=
  (∀ (s : State) (h : Guard) (o : Ord) (y : Scope) (d a : Reg) (b : BSel),
    let g := s.grp
    let n := (g.getG a).toNat
    let clk := Clk.owner g.owner (s.groupIsland g)
    let accesses (i : Instr) (kind : AccKind) (dst : Reg) (o : Ord) (x : Scope) (data : List (List Byte)) (outs : List Out) : Prop := ∃ t p, exec i s = .next t ∧
      mapFind t.ops s.nextId = some p ∧ p.gid = s.cur ∧ p.kind = kind ∧ p.uni = true ∧ p.dst = dst ∧ p.ord = o ∧ p.scope = x ∧
      p.accs.map (fun c => (c.va, c.place, c.size, c.done)) = [(0x00F1000000000000 + 8 * n, Place.ctr n, 8, false)] ∧
      (kind ≠ .load → p.accs.map (fun c => c.data) = data) ∧ t.mem = s.mem ∧ t.scratch = s.scratch ∧ t.owners = s.owners ∧
      (∀ k, k ≠ s.cur → t.groupAt k = s.groupAt k) ∧
      t.grp = { g.complete with outs := g.outs ++ outs, late := t.grp.late, gate := t.grp.gate, seen := t.grp.seen, heard := t.grp.heard }
    let stops (i : Instr) : Prop := exec i s = .next (s.trap (netTrap g.running 0 0 g.pc))
    (g.guardQ h = false → Passes (.nctrAdd h o y a b) s ∧ Passes (.nctrRd h d a) s ∧ Passes (.nctrWait h a b) s ∧ Passes (.npost h a) s ∧
      Passes (.nput h a o y) s ∧ Passes (.nget h a o y) s) ∧
    (g.guardQ h = true → 4096 ≤ n → stops (.nctrAdd h o y a b) ∧ stops (.nctrRd h d a) ∧ stops (.nctrWait h a b)) ∧
    (g.guardQ h = true → n < 4096 →
      accesses (.nctrAdd h o y a b) (.red .addN64) 0#6 o y [leBytes 8 (g.opB64 none b).toNat] [] ∧
      accesses (.nctrRd h d a) .load d .acq .dev [] [⟨.loads, s.nextId, false⟩] ∧
      ∃ t, exec (.nctrWait h a b) s = .next t ∧ t = { s with waits := t.waits, groups := t.groups, nextId := t.nextId, agenda := t.agenda } ∧
        Awaits s t (.nctrWait n (g.opB64 none b)) none ∧ (⟨clk, s.win, .nctrWaitMet s.nextId⟩ : Pend) ∈ t.agenda) ∧
    (g.guardQ h = true → (∀ c, s.checkAccess g (g.getG64 a) true 64 wantLoad false = .error c → ∃ fills,
        (let t := s.trap (memTrap g.running 0 c (g.getG64 a)); exec (.npost h a) s = .next { t with agenda := t.agenda ++ fills }) ∧
          ∀ e ∈ fills, ∃ o c l k, e.ev = .prefetchFill o c l k) ∧
      ∀ x, s.checkAccess g (g.getG64 a) true 64 wantLoad false = .ok x → s.tileHeldAt x 64 = false → (∀ m, s.fateOf g .load x ≠ .stop m) →
        ∃ t p e, exec (.npost h a) s = .next t ∧ mapFind t.ops s.nextId = some p ∧ readsAt p s.cur 64 [(g.getG64 a).toNat] ∧ mapFind t.nets s.nextId = some e ∧
          e.gid = s.cur ∧ e.owner = g.owner ∧ e.post = true ∧ e.stage = .reading ∧ e.va = g.getG64 a ∧ t.grp.outs = g.outs ++ [⟨.remote, s.nextId, false⟩] ∧
          t.grp.pc = g.complete.pc ∧ SameRegs s t ∧ t.scratch = s.scratch ∧ ∀ k, k ≠ s.cur → t.groupAt k = s.groupAt k) ∧
    (let r (i : Nat) : Nat := (g.getG (a + BitVec.ofNat 6 i)).toNat
     let peer := r 5 % 65536
     let fits (v : Nat) : Prop := v % 32 = 0 ∧ v + r 4 ≤ 0x00F0000000000000
     let ok : Prop := (peer = 0xFFFF ∨ peer ∈ s.members g.owner) ∧ fits (g.getG64 a).toNat ∧ fits (g.getG64 (a + 2)).toNat ∧
       32 ≤ r 4 ∧ r 4 ≤ 2 ^ 24 ∧ r 4 % 32 = 0 ∧ r 6 / 4096 % 8 = 0 ∧ r 6 / 2 ^ 28 % 8 = 0
     let ctr (v : Nat) : Option Nat := if v / 2 ^ 15 % 2 = 1 then some (v % 4096) else none
     let fires (i : Instr) (op : Nat) : Prop := (¬ok → exec i s = .next (s.trap (netTrap g.running 1 0xFF g.pc))) ∧
       (ok → (s.launchAt g.launch).detlvl = 0 ∨ (∀ y ∈ (s.launchAt g.launch).leases, y.w = false) → ∃ t e, exec i s = .next t ∧ OnlyMarks s t ∧
         t = { s with
           groups := t.groups, nets := t.nets, nextId := t.nextId, agenda := t.agenda, opens := t.opens, mem := t.mem, faulty := t.faulty, checks := t.checks
           tlb := t.tlb, l2 := t.l2, openTick := t.openTick, fabric := t.fabric } ∧
         mapFind t.nets s.nextId = some e ∧ e.gid = s.cur ∧ e.owner = g.owner ∧ e.post = false ∧
         e.what = { op := op, fn := 0, peer := peer, local_ := g.getG64 a, remote := g.getG64 (a + 2), length := r 4, lctr := ctr (r 6), rctr := ctr (r 6 / 65536) } ∧
         t.grp = { g.complete with outs := g.outs ++ [⟨.remote, s.nextId, false⟩] } ∧ (∀ k, k ≠ s.cur → t.groupAt k = s.groupAt k) ∧
         (o ≠ .rel → o ≠ .ar → e.stage = .fired) ∧
         (∀ bytes : List Byte, o ≠ .rel → o ≠ .ar → peer = 0xFFFF → (s.launchAt g.launch).detlvl = 0 → bytes.length = (if op = 0 then r 4 else 0) →
           (∀ i, i < r 4 / 32 → ∃ leaf, leaf.next = leaf.entry ∧
             s.translate none (s.partLeases g.owner) g.owner ((g.getG64 a).toNat + 32 * i) 32 (if op = 0 then wantLoad else wantStore) = .ok leaf ∧
             (op = 0 → s.sectorFault (leaf.pa / 32) = none ∧ (bytes.drop (32 * i)).take 32 = s.bytes leaf.pa 32)) →
           ∀ j, j < (r 4 + 255) / 256 → ∃ q, (Config.planeSlots g.owner = true → 1024 ≤ q ∧ (j = 0 → q = 1024)) ∧ (⟨clk, s.win + q, .messageArrival {
             owner := g.owner, source := s.rank, entry := s.nextId, op := op, fn := 0, remote := (g.getG64 (a + 2)).toNat + 256 * j
             data := (bytes.drop (256 * j)).take 256, len := min 256 (r 4 - 256 * j), order := 0, level := (s.launchAt g.launch).detlvl
             rctr := ctr (r 6 / 65536), chunk := j, total := r 4, raises := true, served := true }⟩ : Pend) ∈ t.agenda))
     g.guardQ h = true → fires (.nput h a o y) 0 ∧ fires (.nget h a o y) 1)) ∧
  (∀ (s : State) (k : Nat) (x : WaitOp) (n : Nat) (thr : Dword), mapFind s.waits k = some x → x.kind = .nctrWait n thr →
    let now := s.cycOf x.owner x.island
    let reached : Prop := thr.toNat ≤ (s.counter x.owner n).toNat ∧ (now - x.w) % 32 = 0
    (x.due = none → ¬reached → exec (.nctrWaitMet k) s = .next s) ∧
    (x.due = none → reached → exec (.nctrWaitMet k) s = .next { s with
      waits := mapPut s.waits k { x with due := some (now + 96) }, agenda := s.agenda ++ [⟨.owner x.owner x.island, now + 96, .nctrWaitMet k⟩] }) ∧
    (x.due = some now → (s.groupAt x.gid).isEnded = false → ∃ t, exec (.nctrWaitMet k) s = .next t ∧ Resumes s t k x.gid (s.groupAt x.gid) ∧
      t = { s with waits := t.waits, groups := t.groups, l1 := t.l1 } ∧ ∀ l, l ∈ t.l1 ↔ l ∈ s.l1 ∧ ¬(l.owner = x.owner ∧ l.core = (s.groupAt x.gid).core))) ∧
  (∀ (s : State) (k : Nat) (e : NetOp), mapFind s.nets k = some e →
    let left (t : State) : Prop := mapFind t.nets k =
      if e.lim.isSome = true ∧ e.stage = .fired ∧ s.netHere e.what = true ∧ e.data ≠ [] then some { e with stage := .failed } else none
    (∀ op a, mapFind s.ops k = some op → op.accs = [a] → a.done = false → a.sent.isSome = true → a.vis ≤ s.cycOf op.owner op.island →
      ∃ t, exec (.entryArm k) s = .next t ∧ OnlyMarks s t ∧ t.scratch = s.scratch ∧ SameRegs s t ∧
        (t.groupAt op.gid).outs = ((s.groupAt op.gid).returned k).outs ∧
        (s.faultAt a.place a.size ≠ none ∨ recordFault a.data (s.members e.owner) e.detlvl ≠ none → mapFind t.nets k = none) ∧
        (s.faultAt a.place a.size = none → recordFault a.data (s.members e.owner) e.detlvl = none → mapFind t.nets k = none ∨
          ∃ y, mapFind t.nets k = some y ∧ y.what = recordOf a.data ∧
            if (s.counter e.owner y.what.tctr).toNat < y.what.threshold.toNat then y.stage = .armed else y.stage = .fired ∨ e.detlvl ≠ 0 ∧ y.stage = .held)) ∧
    (e.stage = .fired → e.lim = none → e.what.op = 0 ∨ e.what.op = 3 → ∃ t, exec (.localCompletion k) s = .next t ∧ mapFind t.nets k = none ∧
      OnlyMarks s t ∧ (e.what.lctr = none → t.mem = s.mem) ∧ t.scratch = s.scratch ∧ SameRegs s t ∧
      (e.post = false → (t.groupAt e.gid).outs = ((s.groupAt e.gid).returned k).outs) ∧
      ∀ n, e.what.lctr = some n → t.counter e.owner n = s.counter e.owner n + 1) ∧
    (e.stage = .fired → e.lim = none → e.what.op = 1 → e.data.length = e.what.length → let r := s.netBring (some (k, e)) e.owner e.what.local_.toNat e.dest e.data
      ∃ t, exec (.localCompletion k) s = .next t ∧ mapFind t.nets k = none ∧ OnlyMarks r t ∧ t.scratch = s.scratch ∧ SameRegs s t ∧
        (∀ pa, e.what.lctr = none → e.detlvl = 0 → e.dest = [pa] → e.data.length = 32 →
          ∀ c, t.byte c = if pa ≤ c ∧ c < pa + 32 then e.data.getD (c - pa) 0#8 else s.byte c) ∧
        (e.post = false → (t.groupAt e.gid).outs = ((s.groupAt e.gid).returned k).outs) ∧
        ∀ n, e.what.lctr = some n → t.counter e.owner n = s.counter e.owner n + 1) ∧
    (e.post = true → ∃ t, exec (.networkOperationFault k) s = .next t ∧ left t ∧ t.groups = s.groups ∧ t.mem = s.mem ∧
      Posted s t e.owner 4 (1 + e.island / 8) e.tag 0#32 (leBytes 2 e.what.tctr ++ leBytes 8 e.va.toNat) (s.launchAt e.launch).secured) ∧
    (e.post = false → (s.groupAt e.gid).isEnded = false → ∃ t, exec (.networkOperationFault k) s = .next t ∧
      t = { s with nets := t.nets, groups := t.groups, unsettled := t.unsettled, wgs := t.wgs } ∧ left t ∧
      (∀ j, j ≠ e.gid → t.groupAt j = s.groupAt j) ∧ (t.groupAt e.gid).outs = ((s.groupAt e.gid).returned k).outs ∧
      (e.bad = none → mapFind (s.groupAt e.gid).pend 6 = none → mapFind (t.groupAt e.gid).pend 6 = some {
        a := 3#32, b := BitVec.ofNat 32 e.pc.toNat, c := BitVec.ofNat 32 (e.pc.toNat / 2 ^ 32), due := s.cycOf e.owner e.island }) ∧
      ∀ m va, e.bad = some (m, va) → let c := if m = 0 then 8 else 9
        mapFind (s.groupAt e.gid).pend c = none → mapFind (t.groupAt e.gid).pend c = some {
          a := BitVec.ofNat 32 (pcOff (s.launchAt e.launch).entry e.pc * 256 + (m - 1) * 4 + 2), b := BitVec.ofNat 32 (va / 32 * 32)
          c := BitVec.ofNat 32 (va / 2 ^ 32), due := s.cycOf e.owner e.island })) ∧
  (∀ (s : State) (m : NetMsg),
    let own := s.ownEntry m
    let chunks (n : Nat) : Nat := max 1 ((n + 255) / 256)
    let turn (c : Nat) : Prop := s.tableOwner .link (8 + (m.chunk + m.source + s.rank) % 18) (c % 32) = m.owner
    let island := islandOf (s.phys m.owner (s.lowCore m.owner))
    let now := s.cycOf m.owner island
    let cut (w : Want) : Prop := ∃ i x, i < 8 * m.chunk ∧ s.netSector m.owner (m.remote - 256 * m.chunk + 32 * i) 32 w = .error x
    let nothing : Prop := exec (.messageArrival m) s = .next s
    let done (r : State) (back : List Byte) : Prop := ∃ t, exec (.messageArrival m) s = .next t ∧ OnlyMarks r t ∧ (m.rctr = none → t.mem = r.mem) ∧
      t.scratch = s.scratch ∧ t.groups = s.groups ∧
      (let others := r.chunks.filter (fun c => decide (c.1 = m.source) && decide (c.2.1 = m.entry))
       let last : Prop := match r.ownEntry m with
         | some (_, e) => (mapPut e.parts m.chunk back).length = chunks m.total
         | none => chunks m.total ≤ others.length + 1
       (∀ n, (last ∧ m.rctr = some n ∧ m.raises = true → t.counter m.owner n = s.counter m.owner n + 1) ∧
         (¬(last ∧ m.rctr = some n ∧ m.raises = true) → t.counter m.owner n = s.counter m.owner n)) ∧
       (r.ownEntry m = none → t.chunks = if chunks m.total ≤ others.length + 1 then r.chunks.filter (fun c => !others.contains c)
         else (m.source, m.entry, m.chunk) :: r.chunks) ∧
       ∀ k e, r.ownEntry m = some (k, e) → let parts := mapPut e.parts m.chunk back
         (¬last → mapFind t.nets k = some { e with parts := parts }) ∧
         (last → m.rctr = none → e.stage ≠ .failed → e.lim = none → mapFind t.nets k = some { e with parts := parts, data := parts.flatMap (fun p => p.2) } ∧
           ∃ q, (Config.planeSlots e.owner = true → q = 1024) ∧
             (⟨.owner e.owner e.island, s.cycOf e.owner e.island + q, .localCompletion k⟩ : Pend) ∈ t.agenda))
    let ends (stop : Option NetStop) (r : State) (back : List Byte) : Prop :=
      (∀ x, stop = some x → exec (.messageArrival m) s = .next (r.netFailed m x)) ∧ (stop = none → done r back)
    (m.served = false → s.inDomain = false → nothing) ∧
    (m.served = false → (∀ c, now ≤ c → c < now + 32 → ¬turn c) → nothing) ∧
    (m.served = false → s.inDomain = true → ∀ c, now ≤ c → c < now + 32 → turn c → (∀ d, now ≤ d → d < c → ¬turn d) →
      exec (.messageArrival m) s = .next { s with agenda := s.agenda ++ [⟨.owner m.owner island, c, .messageArrival { m with served := true }⟩] }) ∧
    (m.served = true → m.op < 4 → m.source = s.rank → own = none → nothing) ∧
    (m.served = true → (m.op < 4 → m.source = s.rank → own ≠ none) →
    (m.op = 0 → let r := s.netWrite own m.owner m.remote m.data
      (cut wantStore → nothing) ∧ (¬cut wantStore → ends r.1 r.2 [])) ∧
    (m.op = 0 → ¬cut wantStore → m.data.length = 32 → m.rctr = none → (∀ k e, own = some (k, e) → e.detlvl = 0) →
      ∀ x, s.netSector m.owner m.remote 32 wantStore = .ok x → x.next = x.entry →
      ∃ t, exec (.messageArrival m) s = .next t ∧ ∀ a, t.byte a = if x.pa ≤ a ∧ a < x.pa + 32 then m.data.getD (a - x.pa) 0#8 else s.byte a) ∧
    (m.op = 1 → let r := s.netRead own m.owner m.remote m.len
      (cut wantLoad → nothing) ∧ (¬cut wantLoad → ends r.1.2 r.2 r.1.1 ∧ OnlyMarks s r.2)) ∧
    (m.op = 2 → let k : AccKind := if own.map (fun p => p.2.what.local_) = some 0#64 then .red (netAtom m.fn) else .atom (netAtom m.fn)
      (∀ x, s.netElement own m.owner m.remote k (netAtom m.fn) m.data = .error x → exec (.messageArrival m) s = .next (s.netFailed m x)) ∧
      ∀ old r, s.netElement own m.owner m.remote k (netAtom m.fn) m.data = .ok (old, r) → done r old) ∧
    (m.op = 3 → let early : Prop := m.level ≠ 0 ∧ ∃ n, m.rctr = some n ∧ (s.counter m.owner n).toNat < m.order
      let r := s.netCombine own m.owner m.remote (netReduce m.fn) m.data
      (early → exec (.messageArrival m) s = .next { s with heldMsgs := s.heldMsgs ++ [m] }) ∧
      (¬early → cut wantBoth → nothing) ∧ (¬early → ¬cut wantBoth → ends r.1 r.2 [])) ∧
    (3 < m.op → mapFind s.nets m.entry = none → nothing) ∧
    (m.op = 4 → ∀ e, mapFind s.nets m.entry = some e →
      let parts := mapPut e.parts m.chunk m.data
      let nets := mapPut s.nets m.entry { e with parts := parts, data := parts.flatMap (fun p => p.2) }
      let at_ := s.cycOf e.owner e.island
      (e.stage ≠ .fired ∨ s.netHere e.what = true → nothing) ∧
      (e.stage = .fired → s.netHere e.what = false → parts.length < chunks m.total → exec (.messageArrival m) s = .next { s with nets := nets }) ∧
      (e.stage = .fired → s.netHere e.what = false → chunks m.total ≤ parts.length → exec (.messageArrival m) s = .next { s with
        nets := nets, agenda := s.agenda ++ [⟨.owner e.owner e.island,
          if Config.planeSlots e.owner = true ∧ e.what.length ≤ 256 then max at_ (e.at_ + 2048) else at_, .localCompletion m.entry⟩] })) ∧
    (4 < m.op → ∀ e, mapFind s.nets m.entry = some e →
      exec (.messageArrival m) s = .next { s with agenda := s.agenda ++ [⟨.wall, s.now, .networkOperationFault m.entry⟩] })))

/-- R321 to R323, R404: a tree instruction waits until the first groups of all workgroups of the launch have come to theirs; the sole participant's own is due 256 cycles
on, with its own values. When the last of several comes to its `tree.red`, each element is combined over all of them, in some order of arrival at level 0, by Pair in
ascending core and workgroup at level 1, from the left in ascending workgroup at level 2, and every participant's result is due; where they differ in kind, function or
count each of them traps instead. The results and flags are then written, and a `tree.bar` ends as an acquire. The due cycle of a participant whose own 256 cycles are
past is the model's reading (log 50). -/
def Obligations.ReductionTree : Prop :=
  (∀ (s : State) (h : Guard) (d a : Reg) (c : BitVec 3) (f : GFn),
    let g := s.grp
    let l := s.launchAt g.launch
    let vals : List Word := (List.range (c.toNat + 1)).map (fun i => g.getG (a + BitVec.ofNat 6 i))
    let free : Prop := g.trapMode = true ∨ mapFind g.pend causeArithmetic = none ∧ ∀ r, (s.wgAt g.wg).guard = some r → s.cur ∈ r.got
    let issues (i : Instr) (kind : WaitKind) (ev : Instr) (hold : List Await) : Prop :=
      (l.queues = [] → exec i s = .next (s.trap (syncTrap g.running 19 0 0#64))) ∧
      (l.queues ≠ [] → g.index ≠ 0 → exec i s = .next (s.trap (syncTrap g.running 20 0 0#64))) ∧
      (l.queues ≠ [] → g.index = 0 →
        ((∃ m ∈ s.treeMembers g.launch, m.1 ≠ s.cur ∧ s.treeWait m.1 g.treeN = none) →
          (∀ m ∈ s.treeMembers g.launch, m.1 = s.cur ∨ (s.wgAt (s.groupAt m.1).wg).ended = false ∨ g.treeN < (s.groupAt m.1).treeN) →
          ∃ t, exec i s = .next t ∧ t = { s with waits := t.waits, groups := t.groups, nextId := t.nextId, agenda := t.agenda } ∧
            Awaits s t kind none hold ∧ t.grp.treeN = g.treeN + 1) ∧
        (s.treeMembers g.launch = [(s.cur, (s.wgAt g.wg).index, g.core)] → l.allPlaced = true → (∀ p ∈ s.waits, p.2.gid ≠ s.cur) → hold = [] →
          ∃ t, exec i s = .next t ∧ t = { s with waits := t.waits, groups := t.groups, nextId := t.nextId, agenda := t.agenda } ∧
            Awaits s t kind (some (s.win + 256)) ∧ t.grp.treeN = g.treeN + 1 ∧
            (⟨.owner g.owner (s.groupIsland g), s.win + 256, ev⟩ : Pend) ∈ t.agenda))
    (g.guardQ h = false → Passes (.treeRed h d a c f) s ∧ (free → Passes (.treeBar h) s)) ∧
    (g.guardQ h = true → issues (.treeRed h d a c f) (.tree g.treeN false d (c.toNat + 1) f vals 0#4) (.treeRedComplete s.nextId) [] ∧
      (free → issues (.treeBar h) (.tree g.treeN true 0#6 0 .addI32 [] 0#4) (.treeBarComplete s.nextId) ((s.coveredIds s.cur g.running).map (fun k => .op k false)))) ∧
    (let ms := s.treeMembers g.launch
     let n := g.treeN
     let count := c.toNat + 1
     let same (m : Nat × Nat × Nat) : Prop := m.1 = s.cur ∨ ∃ k x e vs fl, s.treeWait m.1 n = some (k, x) ∧ x.kind = .tree n false e count f vs fl
     let value (e : Nat) (m : Nat × Nat × Nat) : Word := if m.1 = s.cur then g.getG (a + BitVec.ofNat 6 e) else match s.treeWait m.1 n with
       | some (_, x) => (match x.kind with
         | .tree _ _ _ _ _ vs _ => vs.getD e 0#32
         | _ => 0#32)
       | none => 0#32
     let reduces (e : Nat) (r : Word) (fl : BitVec 4) : Prop := match l.detlvl with
       | 0 => ∃ qs : List (Nat × Nat × Nat), qs.Perm ms ∧ Bracketed f (fun _ _ => True) (qs.map (value e)) r fl
       | 1 => ∀ qs : List (Nat × Nat × Nat), qs.Perm ms → qs.Pairwise (fun p q => p.2.2 < q.2.2 ∨ p.2.2 = q.2.2 ∧ p.2.1 < q.2.1) →
         Bracketed f (fun i j => 0 < j ∧ ∃ b, i = 2 ^ b ∧ j ≤ i) (qs.map (value e)) r fl
       | _ => ∀ qs : List (Nat × Nat × Nat), qs.Perm ms → qs.Pairwise (fun p q => p.2.1 < q.2.1) → Bracketed f (fun _ j => j = 1) (qs.map (value e)) r fl
     g.guardQ h = true → l.queues ≠ [] → g.index = 0 → l.allPlaced = true → (s.cur, (s.wgAt g.wg).index, g.core) ∈ ms → (ms.map (fun m => m.1)).Nodup →
     (s.waits.map (fun p => p.1)).Nodup → (∀ p ∈ s.waits, p.2.gid ≠ s.cur ∧ p.1 < s.nextId) →
     (∀ m ∈ ms, m.1 ≠ s.cur → ((s.wgAt (s.groupAt m.1).wg).ended = false ∨ n < (s.groupAt m.1).treeN) ∧ ∃ k x, s.treeWait m.1 n = some (k, x) ∧ x.hold = []) →
     ((∀ m ∈ ms, same m) → ∃ (t : State) (r : Nat → Word) (fs : Nat → BitVec 4) (fl : BitVec 4), exec (.treeRed h d a c f) s = .next t ∧
       t = { s with waits := t.waits, groups := t.groups, nextId := t.nextId, agenda := t.agenda } ∧
       (∀ e, e < count → reduces e (r e) (fs e)) ∧ (∀ i, fl.getLsbD i = true ↔ ∃ e, e < count ∧ (fs e).getLsbD i = true) ∧
       ∀ m ∈ ms, ∃ k x e, mapFind t.waits k = some x ∧ x.gid = m.1 ∧ x.kind = .tree n false e count f ((List.range count).map r) fl ∧
         (let due := x.w + 256 + 32 * ((s.cycOf x.owner x.island - (x.w + 256) + 31) / 32)
          x.due = some due ∧ (⟨.owner x.owner x.island, due, .treeRedComplete k⟩ : Pend) ∈ t.agenda) ∧
         (m.1 = s.cur → k = s.nextId ∧ e = d ∧ x.w = s.win) ∧
         (m.1 ≠ s.cur → ∃ y vs q, s.treeWait m.1 n = some (k, y) ∧ y.kind = .tree n false e count f vs q ∧ x.w = y.w)) ∧
     ((∃ m ∈ ms, ¬same m) → (∀ m ∈ ms, (s.groupAt m.1).trapMode = false ∧ (s.launchAt (s.groupAt m.1).launch).handler.isSome = true) →
       ∃ t, exec (.treeRed h d a c f) s = .next t ∧ t.mem = s.mem ∧ ∀ m ∈ ms, (t.groupAt m.1).trapMode = true ∧ (t.groupAt m.1).tcause = 5#32 ∧
         (t.groupAt m.1).tdetA = 21#32 ∧ (t.groupAt m.1).busy = none ∧ some (t.groupAt m.1).pc = (s.launchAt (s.groupAt m.1).launch).handler ∧
         ∀ k x, s.treeWait m.1 n = some (k, x) → mapFind t.waits k = none))) ∧
  (∀ (s : State) (k : Nat) (x : WaitOp), mapFind s.waits k = some x → x.due = some (s.cycOf x.owner x.island) → (s.groupAt x.gid).isEnded = false →
    let g := s.groupAt x.gid
    (∀ n d c f vals fl, x.kind = .tree n false d c f vals fl → vals.length ≤ 8 → ∃ t, exec (.treeRedComplete k) s = .next t ∧
      t = { s with waits := t.waits, groups := t.groups } ∧ mapFind t.waits k = none ∧ (∀ j, j ≠ x.gid → t.groupAt j = s.groupAt j) ∧
      (∀ i, i < vals.length → (t.groupAt x.gid).getG (d + BitVec.ofNat 6 i) = vals.getD i 0#32) ∧
      (∀ y, (∀ i, i < vals.length → y ≠ d + BitVec.ofNat 6 i) → (t.groupAt x.gid).getG y = g.getG y) ∧
      t.groupAt x.gid = { g with
        g := (t.groupAt x.gid).g, busy := none, flags := g.flags ||| fl.setWidth 32, pend := (t.groupAt x.gid).pend }) ∧
    (∀ n d c f vals fl, x.kind = .tree n true d c f vals fl → ∃ t, exec (.treeBarComplete k) s = .next t ∧ Resumes s t k x.gid g ∧
      t = { s with waits := t.waits, groups := t.groups, l1 := t.l1 } ∧ ∀ l, l ∈ t.l1 ↔ l ∈ s.l1 ∧ ¬(l.owner = x.owner ∧ l.core = g.core)))

/-! ### Launch control and power -/

/-- R362 to R364, R366, R377, R379: `halt` ends its group at once and, 256 cycles on, the launch's other groups; a lease request is decided 256 cycles on, by the lowest
condition that holds, and a granted lease runs for its cycles; `lease.end` and expiry end it. What ends a group first and what the event leaves for later
follows logs 1 and 3, and a holder without a quota is answered by log 85 (the model's choices). -/
def Obligations.HaltAndLeases : Prop :=
  (∀ (s : State) (h : Guard) (d a : Reg) (b : BSel) (v : BitVec 2) (q : BitVec 3),
    let g := s.grp
    let l := s.launchAt g.launch
    let i := s.groupIsland g
    let y := s.sprintAt g.owner i
    let clk := Clk.owner g.owner i
    (g.guardQ h = false → Passes (.halt h b) s ∧ Passes (.leaseReq h d a v q) s ∧ Passes (.leaseEnd h) s) ∧
    (g.guardQ h = true →
      (∃ t, exec (.halt h b) s = .next t ∧ t = { s with groups := t.groups, launches := t.launches, wgs := t.wgs, unsettled := t.unsettled, agenda := t.agenda } ∧
        t.grp.isEnded = true ∧ (∀ k, k ≠ s.cur → t.groupAt k = s.groupAt k) ∧ (∀ k, k ≠ g.launch → t.launchAt k = s.launchAt k) ∧
        t.launchAt g.launch = (if l.halted.isSome then l else { l with halted := some (g.opG b), haltAt := some (s.win + 256) }) ∧
        (⟨clk, s.win + 256, .haltPropagate g.launch⟩ : Pend) ∈ t.agenda) ∧
      (∃ t, exec (.leaseReq h d a v q) s = .next t ∧ t = { s with waits := t.waits, groups := t.groups, nextId := t.nextId, agenda := t.agenda } ∧
        Awaits s t (.lease d a v.toNat q.toNat (g.getG64 a)) (some (s.win + 256)) ∧ (⟨clk, s.win + 256, .leaseDecision s.nextId⟩ : Pend) ∈ t.agenda) ∧
      (∃ t, exec (.leaseEnd h) s = .next t ∧ t = { s with groups := t.groups, owners := t.owners } ∧ t.grp = g.complete ∧
        (∀ k, k ≠ s.cur → t.groupAt k = s.groupAt k) ∧ (y.live = false → t.owners = s.owners) ∧
        (y.live = true → t.sprintAt g.owner i = if (s.islandAt i).clock = 0 then { y with live := false, fell := some s.now, waitFall := false, stepAt := none }
          else { y with live := false, waitFall := true, stepAt := none })))) ∧
  (∀ (s : State) (l : Nat), ∃ t, exec (.haltPropagate l) s = .next t ∧
    t = { s with groups := t.groups, wgs := t.wgs, unsettled := t.unsettled, agenda := t.agenda } ∧
    (∀ p ∈ s.groups, let g := s.groupAt p.1
      g.launch = l → g.live = true → mapFind s.swapped g.wg = none → ∀ c, (s.launchAt l).haltAt = some c →
        (c ≤ s.cycOf g.owner (s.groupIsland g) → (t.groupAt p.1).isEnded = true) ∧ (s.cycOf g.owner (s.groupIsland g) < c → t.groupAt p.1 = g)) ∧
    (∀ k, (∀ g, (k, g) ∈ s.groups → g.launch ≠ l) → t.groupAt k = s.groupAt k) ∧ (⟨.wall, s.now, .launchCompletion l⟩ : Pend) ∈ t.agenda) ∧
  (∀ (s : State) (k : Nat) (x : WaitOp) (d a : Reg) (v q : Nat) (n : Dword), mapFind s.waits k = some x → x.kind = .lease d a v q n →
    ((s.groupAt x.gid).away = true → exec (.leaseDecision k) s = .next s) ∧ ((s.groupAt x.gid).away = false → (s.groupAt x.gid).isEnded = false →
    let o := x.owner
    let i := x.island
    let y := s.sprintAt o i
    let c := s.cycOf o i
    let fails (m : Nat) : Prop := match m with
      | 1 => s.holder o i = false
      | 2 => y.live = true
      | 3 => n.toNat = 0 ∨ 2 ^ 40 ≤ n.toNat
      | 4 => (s.quotaAt o i).full = true ∨ mapFind (s.ownerAt o).quotas i = none
      | 5 => y.waitFall = true ∨ ∃ f, y.fell = some f ∧ s.now < f + 900000000
      | 6 => ∃ f, (s.islandAt i).emergEnd = some f ∧ s.now < f + 18000000000
      | _ => False
    let answers (t : State) (m : Nat) : Prop :=
      Resumes s t k x.gid (((s.groupAt x.gid).setG d (BitVec.ofNat 32 m)).setQ (BitVec.ofNat 3 q) (decide (m = 0)))
    (∀ m, fails m → (∀ j, j < m → ¬fails j) → ∃ t, exec (.leaseDecision k) s = .next t ∧ t = { s with waits := t.waits, groups := t.groups } ∧ answers t m) ∧
    ((∀ m, ¬fails m) → ∃ t, exec (.leaseDecision k) s = .next t ∧
      t = { s with waits := t.waits, groups := t.groups, owners := t.owners, agenda := t.agenda } ∧ answers t 0 ∧
      t.sprintAt o i = { y with live := true, level := v, endAt := c + n.toNat, gid := x.gid } ∧
      (⟨.owner o i, c + n.toNat, .leaseExpiry o i⟩ : Pend) ∈ t.agenda))) ∧
  (∀ (s : State) (o i : Nat),
    let y := s.sprintAt o i
    (y.live = false ∨ s.cycOf o i ≠ y.endAt → exec (.leaseExpiry o i) s = .next s) ∧
    (y.live = true → s.cycOf o i = y.endAt → ∃ t, exec (.leaseExpiry o i) s = .next t ∧ t = { s with owners := t.owners, groups := t.groups } ∧
      (t.sprintAt o i).live = false ∧ (t.sprintAt o i).stepAt = none ∧ (∀ k, k ≠ y.gid → t.groupAt k = s.groupAt k) ∧
      ((s.quotaAt o i).charging = 0 → (s.groupAt y.gid).isEnded = false → mapFind (s.groupAt y.gid).pend 7 = none →
        mapFind (t.groupAt y.gid).pend 7 = some {
          a := BitVec.ofNat 32 ((if (s.quotaAt o i).joules = 0 then 0xFFFF#16 else (s.quotaAt o i).frac).toNat * 65536 + y.level * 16)
          b := BitVec.ofNat 32 (s.cycOf o i), c := BitVec.ofNat 32 (s.cycOf o i / 2 ^ 32), due := s.cycOf o i }) ∧
      (s.meltsNow o i = true → (s.groupAt y.gid).isEnded = false → mapFind (s.groupAt y.gid).pend 7 = none →
        mapFind (t.groupAt y.gid).pend 7 = some {
          a := BitVec.ofNat 32 (0xFFFF0000 + y.level * 16 + 1)
          b := BitVec.ofNat 32 (s.cycOf o i), c := BitVec.ofNat 32 (s.cycOf o i / 2 ^ 32), due := s.cycOf o i })))

/-- R152, R153, R188, R198, R357, R360, R365, R369, R370, R425, R426: Hayloft's quotas charge and drain; rails follow the votes at their epochs and clocks their rails;
holds, sensors, hot stacks, broken links and canaries hold the owners concerned and let them go; retirement publishes a lane's slots. No register and no byte of memory
changes. What happens at which moment follows logs 3, 22, 55, 57 and 86 (the model's choices). -/
def Obligations.PowerEvents : Prop :=
  (∀ s : State, (s.owners.map (fun p => p.1)).Nodup → (∀ p ∈ s.owners, (p.2.quotas.map (fun y => y.1)).Nodup) →
    ∃ t, exec .meltUpdate s = .next t ∧ t = { s with owners := t.owners, groups := t.groups, agenda := t.agenda } ∧ (∃ p ∈ t.agenda, p.ev = .meltUpdate) ∧
      ∀ o w i y, mapFind s.owners o = some w → w.live = true → mapFind w.quotas i = some y →
        let top := y.joules * 10000000
        let m := if y.charging = 0 then y.melted - y.joules else min top (y.melted + if y.charging = 1 then 2000 else 5000)
        t.quotaAt o i = { y with
          melted := m, full := decide (m = top) || (!decide (10 * m ≤ 8 * top) && y.full)
          frac := if y.joules = 0 then 0xFFFF#16 else BitVec.ofNat 16 (min 65535 (65535 * m / top)) } ∧
        (m = top → (t.sprintAt o i).live = false)) ∧
  (∀ (s : State) (o : Nat) (c : HoldCause),
    let w := s.ownerAt o
    (w.live = true → c ∉ w.held → exec (.holdBegin o c) s = .next (s.setOwner o { w with held := w.held ++ [c] })) ∧
    (w.live = false ∨ c ∈ w.held → exec (.holdBegin o c) s = .next s) ∧
    (w.live = true → exec (.holdEnd o c) s = .next (s.setOwner o { w with held := w.held.filter (fun x => decide (x ≠ c)) })) ∧
    (w.live = false → exec (.holdEnd o c) s = .next s)) ∧
  (∀ (s : State) (i l : Nat),
    let x := s.islandAt i
    ∃ v, exec (.clockStep i l) s = .next (s.setIsland i { x with clock := max x.clock (min l (min x.rail v)) }) ∧
      (∀ o ∈ s.liveOwners, ∀ e, (s.sprintAt o i).stepAt = some e → e ≤ s.now → s.vote o i ≤ v) ∧
      (v ≠ 0 → ∃ o ∈ s.liveOwners, ∃ e, (s.sprintAt o i).stepAt = some e ∧ e ≤ s.now ∧ v = s.vote o i)) ∧
  (∀ s : State, ∃ t, exec .railEpoch s = .next t ∧ t = { s with islands := t.islands, owners := t.owners, agenda := t.agenda } ∧ (∃ p ∈ t.agenda, p.ev = .railEpoch) ∧
    ∀ i, i < 32 → (t.islandAt i).rail = s.topVote i ∧ (t.islandAt i).canary = (s.islandAt i).canaryGoal ∧ (t.islandAt i).clock = (s.islandAt i).clock ∧
      ((t.islandAt i).canaryHold = true ↔ (s.islandAt i).canaryHold = true ∧ (s.islandAt i).canaryGoal ≠ 0) ∧
      ∀ o w, mapFind s.owners o = some w → w.live = true →
        (s.vote o i ≠ 0 → (t.sprintAt o i).stepAt = (s.sprintAt o i).stepAt.or (some (s.now + 360000))) ∧ (s.vote o i = 0 → t.sprintAt o i = s.sprintAt o i) ∧
        ∀ y, mapFind w.quotas i = some y → (t.quotaAt o i).charging = s.vote o i) ∧
  (∀ (s : State) (i : Nat),
    let x := s.islandAt i
    let relax (t : State) : Prop := (⟨.wall, s.now + 18000000000, .canaryRelax i⟩ : Pend) ∈ t.agenda
    (x.canary ≠ 4 → ∃ t, exec (.canaryFailure i) s = .next t ∧ t = { s with islands := t.islands, agenda := t.agenda } ∧ relax t ∧
      t.islandAt i = { x with canaryGoal := x.canary + 1, canaryAt := s.now } ∧ ∀ j, j ≠ i → t.islandAt j = s.islandAt j) ∧
    (x.canary = 4 → ∃ t, exec (.canaryFailure i) s = .next t ∧ t = { s with islands := t.islands, owners := t.owners, boxFrozen := true, agenda := t.agenda } ∧ relax t ∧
      t.islandAt i = { x with canaryGoal := 4, canaryAt := s.now, canaryHold := true } ∧
      ∀ o w, mapFind s.owners o = some w → w.live = true → s.onIsland o i = true → .canary i ∈ (t.ownerAt o).held) ∧
    (s.now < x.canaryAt + 18000000000 ∨ x.canaryGoal = 0 → exec (.canaryRelax i) s = .next s) ∧
    (x.canaryAt + 18000000000 ≤ s.now → x.canaryGoal ≠ 0 → ∃ t, exec (.canaryRelax i) s = .next t ∧ t = { s with islands := t.islands, agenda := t.agenda } ∧
      t.islandAt i = { x with canaryGoal := x.canaryGoal - 1, canaryAt := s.now })) ∧
  (∀ (s : State) (r : List (Nat × Nat)) (p : Nat), (s.now % 180000 ≠ 0 → exec (.thermalSample r p) s = .next s) ∧ (s.now % 180000 = 0 → ∃ t, exec (.thermalSample r p) s = .next t ∧
    t = { s with
      sensors := t.sensors, meltSensor := p, migrations := t.migrations, moves := t.moves, islands := t.islands, owners := t.owners
      lidEmergency := t.lidEmergency, boxFrozen := t.boxFrozen, sample := t.sample } ∧
    (∀ before c v after, r = before ++ (c, v) :: after → (∀ x ∈ after, x.1 ≠ c) → t.reading c = v) ∧ (∀ c, (∀ v, (c, v) ∉ r) → t.reading c = s.reading c) ∧
    (∀ c v, (c, v) ∈ r → 95 < v → ∀ o w, mapFind s.owners o = some w → w.live = true → s.worksOn o c = true → (o, c) ∈ t.migrations) ∧
    (t.lidEmergency = true ↔ (s.lidEmergency = true ∧ 90 ≤ p) ∨ (s.lidEmergency = false ∧ 98 < p)) ∧
    (∀ i, i < 32 →
      ((t.islandAt i).emergency = true ↔
        ((s.islandAt i).emergency = true ∨ ∃ c, c < 512 ∧ islandOf c = i ∧ 105 < t.reading c) ∧ ∃ c, c < 512 ∧ islandOf c = i ∧ 100 ≤ t.reading c) ∧
      ((t.islandAt i).emergency = true → ∀ o w, mapFind s.owners o = some w → w.live = true → s.onIsland o i = true →
        .emergencyIsland i ∈ (t.ownerAt o).held)))) ∧
  (∀ (s : State) (n : Nat),
    let holds (i : Instr) (c : HoldCause) (on_ : Nat → Bool) (field : State → List Nat) : Prop := ∃ t, exec i s = .next t ∧
      t = { s with owners := t.owners, stacksHot := t.stacksHot, siloDown := t.siloDown } ∧ n ∈ field t ∧
      ∀ o w, mapFind s.owners o = some w → w.live = true → (on_ o = true → c ∈ (t.ownerAt o).held) ∧ (on_ o = false → (t.ownerAt o).held = w.held)
    let frees (i : Instr) (c : HoldCause) (field : State → List Nat) : Prop := ∃ t, exec i s = .next t ∧
      t = { s with owners := t.owners, stacksHot := t.stacksHot, siloDown := t.siloDown } ∧ n ∉ field t ∧
      ∀ o w, mapFind s.owners o = some w → w.live = true → (t.ownerAt o).held = w.held.filter (fun x => decide (x ≠ c))
    holds (.dramStackOvertemp n) (.stack n) (fun o => s.inStack o n) (fun t => t.stacksHot) ∧ frees (.dramStackCool n) (.stack n) (fun t => t.stacksHot) ∧
    holds (.siloLinkDown n) (.silo n) s.siloResident (fun t => t.siloDown) ∧ frees (.siloLinkUp n) (.silo n) (fun t => t.siloDown)) ∧
  (∀ (s : State) (o l : Nat) (r : PartRec), s.part o = some r →
    let w := s.ownerAt o
    let c := s.cycOf o (islandOf (s.phys o (l / 8)))
    let first := if l ∈ w.used then c / 32 * 32 + 32 else 0
    let may : Prop := w.live = true ∧ r.kind = .isolated ∧ r.gift = true ∧ w.isRetired l = false ∧ s.laneEmpty o (l / 8) (l % 8) = true
    (¬may → exec (.retirement o l) s = .next s) ∧
    (may → ∃ t, exec (.retirement o l) s = .next t ∧ t = { s with owners := t.owners } ∧ (t.ownerAt o).isRetired l = true ∧
      mapGet [] (t.ownerAt o).retired l = mapGet [] w.retired l ++ [(first, 2 ^ 64)] ∧ (t.ownerAt o).releases = w.releases ∧
      ∀ j, j ≠ o → t.ownerAt j = s.ownerAt j))

/-! ### Drover -/

/-- R105, R209, R272, R273, R283, R284, R288, R293, R413 to R416: a command at the head of a queue is taken with its status in one event (also R282,
R317, R326, R408, R417, R418, R420); launches reside, are placed, commit and complete; workgroups are swapped out and back. What an event leaves for
later follows log 3, the answer to a lease that cannot be as declared log 71, what a summary's status reads before a launch's is known log 83, a lease stuck at the Silo ports log 82, the counts at an end log 43,
the order of Drover's work log 30, a swapped-out group's placement log 58, and a border that waits log 75 (the model's choices). -/
def Obligations.LaunchEvents : Prop :=
  (∀ (s : State) (o q : Nat),
    let w := s.ownerAt o
    let x := w.lqAt q
    let all (P : Instr → Prop) : Prop := P (.launch o q) ∧ P (.enqCommand o q) ∧ P (.qclose o q) ∧ P (.qdelete o q) ∧ P (.cancel o q) ∧ P (.resync o q)
    let takes (t : State) (st : Nat) : Prop := ((t.ownerAt o).lqAt q).last = BitVec.ofNat 32 st ∧
      ((t.ownerAt o).lqAt q).head = (if st = 1 then x.head else BitVec.ofNat 32 ((x.head.toNat + 1) % x.slots)) ∧ ((t.ownerAt o).lqAt q).en = (x.en && decide (st ≠ 1))
    let still (t : State) : Prop := t.mem = s.mem ∧ t.groups = s.groups ∧ t.scratch = s.scratch
    let answers (i : Instr) (tag : Word) (st : Nat) (good : State → Prop) : Prop :=
      ∃ t, exec i s = .next t ∧ Posted s t o 1 0 tag (BitVec.ofNat 32 st) [] x.sess ∧ takes t st ∧ still t ∧ good t
    (s.hasCommand o q = false → all (fun i => exec i s = .next s)) ∧
    (s.hasCommand o q = true → s.command o q = none → all (fun i => answers i 0#32 13 (fun _ => True))) ∧
    (s.hasCommand o q = true → ∀ b, s.command o q = some b →
      let tag := BitVec.ofNat 32 (num b 4 4)
      let zero (i n : Nat) : Prop := ∀ y ∈ (b.drop i).take n, y = 0#8
      let n := num b 8 1
      let decl := mapFind w.qdecl n
      (num b 0 1 = 1 →
        (¬(zero 1 3 ∧ zero 36 28) → answers (.launch o q) tag 1 (fun t => t.launches = s.launches)) ∧
        (zero 1 3 → zero 36 28 →
          (∀ e, s.readImage o x.sess (num b 8 8) = .error e → answers (.launch o q) tag e (fun t => t.launches = s.launches)) ∧
          ∀ im l rec_, s.readImage o x.sess (num b 8 8) = .ok im → num b 24 4 < im.kernels.length → num b 16 8 % 4 = 0 → num b 16 8 < 2 ^ 56 →
            im.launch o q (num b 24 4) tag (num b 16 8) (num b 32 2, num b 34 2) x.sess = some (l, rec_) →
            (l.fabLevel.isSome = true ∨ l.children = (0, 0)) → (num b 28 4 = 0xFFFFFFFF ∨ BitVec.ofNat 32 (num b 28 4) ∈ w.tags) →
            (∀ e, s.launchFault l rec_ = some e → answers (.launch o q) tag e (fun t => t.launches = s.launches)) ∧
            (s.launchFault l rec_ = none → (∃ y ∈ l.leases, y.valid = false) → answers (.launch o q) tag 7 (fun t => t.launches = s.launches)) ∧
            (s.launchFault l rec_ = none → (∀ y ∈ l.leases, y.valid = true) → ∃ t y, exec (.launch o q) s = .next t ∧ still t ∧ takes t 0 ∧
              mapFind t.launches s.nextId = some y ∧ y.leases.map (fun z => { z with resident := false }) = l.leases.map (fun z => { z with resident := false }) ∧
              y = { l with
                producer := y.producer, waits := y.waits, confirmed := l.fabLevel.isNone, leases := y.leases, stage := y.stage } ∧
              ((∃ z ∈ y.leases, z.resident = false) → y.stage = l.stage ∧ (t.ownerAt o).events = w.events ∧
                ((t.ownerAt o).lqAt q).lastLaunch = some s.nextId) ∧
              (l.stage = .residing → (∀ z ∈ y.leases, z.resident = true) → y.stage = .placing ∧ Posted s t o 1 0 tag 0#32 [] x.sess)))) ∧
      (num b 0 1 = 2 →
        let core := num b 10 2
        let ring := if n < 32 then n else 64 * (core + 1) + n
        let raw := s.hostBytes (num b 16 8) 64
        let item := if x.sess then (Config.sm4Plain (s.sessionKey o) raw).take 64 else raw
        let whole : Prop := zero 1 3 ∧ zero 9 1 ∧ zero 12 4 ∧ zero 24 40 ∧ n ≤ 63 ∧ (n < 32 → core = 0)
        let sound : Prop := x.sess = true → Config.sm4Ok (s.sessionKey o) raw = true
        let known : Prop := decl ≠ none ∧ (32 ≤ n → s.hasCore o core = true)
        let same (t : State) : Prop := (t.ownerAt o).rings = w.rings
        (¬whole → answers (.enqCommand o q) tag 1 same) ∧ (whole → ¬sound → answers (.enqCommand o q) tag 13 same) ∧
        (whole → sound → ¬known → answers (.enqCommand o q) tag 10 same) ∧
        (whole → sound → known → ∀ d, decl = some d →
          (d.closed = true → answers (.enqCommand o q) tag 15 same) ∧
          (d.closed = false → d.entries ≤ (w.ring ring).length → answers (.enqCommand o q) tag 9 same) ∧
          (d.closed = false → (w.ring ring).length < d.entries → answers (.enqCommand o q) tag 0 (fun t =>
            ((t.ownerAt o).ring ring).map (fun i => i.bytes) = (w.ring ring).map (fun i => i.bytes) ++ [item])))) ∧
      (let whole : Prop := zero 1 3 ∧ zero 9 55 ∧ n ≤ 63
       let refused (i : Instr) : Prop := (¬whole → answers i tag 1 (fun t => (t.ownerAt o).qdecl = w.qdecl)) ∧
         (whole → decl = none → answers i tag 10 (fun t => (t.ownerAt o).qdecl = w.qdecl))
       (num b 0 1 = 3 → refused (.qclose o q) ∧
         (whole → ∀ d, decl = some d → answers (.qclose o q) tag 0 (fun t => mapFind (t.ownerAt o).qdecl n =
           some (if d.closed = true then d else { d with closed := true, closedAt := s.cycOf o (islandOf (s.phys o ((s.coreList o).headD 0))) })))) ∧
       (num b 0 1 = 4 → refused (.qdelete o q) ∧
         (whole → ∀ d, decl = some d →
           let idle : Prop := d.closed = true ∧ ∀ r ∈ s.ringsOf o n, w.ring r = []
           (¬idle → answers (.qdelete o q) tag 11 (fun t => (t.ownerAt o).qdecl = w.qdecl)) ∧
           (idle → answers (.qdelete o q) tag 0 (fun t => mapFind (t.ownerAt o).qdecl n = none))))) ∧
      (num b 0 1 = 5 →
        (¬(zero 1 3 ∧ zero 10 54) → answers (.cancel o q) tag 1 (fun t => t.nets = s.nets)) ∧
        (zero 1 3 → zero 10 54 → answers (.cancel o q) tag 0 (fun t => ∀ p, p ∈ t.nets ↔ p ∈ s.nets ∧
          ¬(p.2.post = true ∧ p.2.stage = .armed ∧ p.2.owner = o ∧ (num b 8 2 = 0xFFFF ∨ p.2.what.tctr = num b 8 2))))) ∧
      (num b 0 1 = 6 →
        (¬(zero 1 3 ∧ zero 8 8 ∧ zero 28 36) → answers (.resync o q) tag 1 (fun t => t.hostMem = s.hostMem)) ∧
        (zero 1 3 → zero 8 8 → zero 28 36 → ∃ t, exec (.resync o q) s = .next t ∧ takes t 0 ∧ still t ∧
          (x.sess = false → ∀ i, i < ((s.summary o).take (num b 24 4)).length →
            mapGet 0#8 t.hostMem (num b 16 8 + i) = ((s.summary o).take (num b 24 4)).getD i 0#8) ∧
          let m := mapGet 0 w.evSeq 0
          (t.ownerAt o).events = w.events ++ [⟨1, 0, m + 1, tag, 0#32, s.now / 18, [], x.sess⟩, ⟨6, 0, m + 2, tag, 0#32, s.now / 18, leBytes 4 (s.summary o).length, x.sess⟩])))) ∧
  (∀ (s : State) (o c : Nat),
    let w := s.ownerAt o
    let size := if w.evCtl.getLsbD 4 = true then 2 ^ (w.evCtl.toNat % 16) else 0
    let room : Prop := size ≠ 0 ∧ (w.evTail.toNat + 1) % size ≠ w.evHead.toNat
    (¬room ∨ (∀ e ∈ w.events, e.source ≠ c) → exec (.eventWrite o c) s = .next s) ∧
    (room → ∀ before e after, w.events = before ++ e :: after → e.source = c → (∀ y ∈ before, y.source ≠ c) →
      ∃ t, exec (.eventWrite o c) s = .next t ∧ t = { s with owners := t.owners, hostMem := t.hostMem } ∧
        t.ownerAt o = { w with events := before ++ after, evTail := BitVec.ofNat 32 ((w.evTail.toNat + 1) % size) } ∧
        (e.secured = false → ∀ i, i < e.bytes.length → mapGet 0#8 t.hostMem (w.evBase.toNat + 64 * w.evTail.toNat + i) = e.bytes.getD i 0#8))) ∧
  (∀ (s : State) (l : Nat) (x : Launch), mapFind s.launches l = some x →
    exec (.residencyConfirm l) s = .next (s.setLaunch l { x with confirmed := true }) ∧
    (∀ i le r f, x.leases[i]? = some le → s.part x.owner = some r → x.stage = .residing → le.resident = false →
      (s.stuckAtPort r le = true → exec (.leaseResident l i f) s = .next s) ∧ (s.stuckAtPort r le = false →
      (s.resideAll r l le (le.len / 65536) 0 f = none → ∃ t, exec (.leaseResident l i f) s = .next t ∧ mapFind t.launches l = none ∧
        Posted s t x.owner 1 0 x.tag 7#32 [] x.secured ∧ t.groups = s.groups ∧
        ((t.ownerAt x.owner).lqAt x.queue).last = (if ((s.ownerAt x.owner).lqAt x.queue).lastLaunch = some l then 7#32 else ((s.ownerAt x.owner).lqAt x.queue).last) ∧
        ∀ k y, mapFind s.launches k = some y → k ≠ l → y.producer = some l → y.waits = true → (⟨.wall, s.now, .dependantRelease k⟩ : Pend) ∈ t.agenda) ∧
      ∀ u, s.resideAll r l le (le.len / 65536) 0 f = some u →
        ((∃ j y, j ≠ i ∧ x.leases[j]? = some y ∧ y.resident = false) →
          exec (.leaseResident l i f) s = .next ((u.setLaunch l { x with leases := x.leases.set i { le with resident := true } }).loadLease r le)) ∧
        ((∀ j y, j ≠ i → x.leases[j]? = some y → y.resident = true) → x.queues = [] → ∃ t, exec (.leaseResident l i f) s = .next t ∧ t.mem = u.mem ∧
          t.groups = s.groups ∧ (mapFind t.launches l).map (fun y => y.stage) = some .placing ∧ Posted s t x.owner 1 0 x.tag 0#32 [] x.secured))) ∧
    (let producing : Prop := ∀ p y, x.producer = some p → mapFind s.launches p = some y → y.allPlaced = true ∨ y.stage = .done
     let may : Prop := x.stage = .placing ∧ x.confirmed = true ∧ x.halted = none ∧ x.allPlaced = false ∧ s.blocked l = false ∧ producing
     (¬may ∨ s.placeAt l = none → exec (.workgroupPlacement l) s = .next s) ∧
     (may → ∀ n c plan, s.placeAt l = some (n, c, plan) → ∃ t, exec (.workgroupPlacement l) s = .next t ∧
       t = { s with groups := t.groups, wgs := t.wgs, launches := t.launches, owners := t.owners, engScr := t.engScr, nextId := s.nextId + 1 + plan.length } ∧
       mapFind t.wgs s.nextId = some {
         live := true, owner := x.owner, launch := l, index := n, core := c, scratch := x.scratch, groups := (List.range plan.length).map (fun j => s.nextId + 1 + j) } ∧
       (∀ j lane ctx, plan[j]? = some (lane, ctx) →
         let g := t.groupAt (s.nextId + 1 + j)
         g.live = true ∧ g.owner = x.owner ∧ g.launch = l ∧ g.wg = s.nextId ∧ g.index = j ∧ g.core = c ∧ g.lane = lane ∧ g.ctx = ctx ∧ g.pc = x.entry ∧
           g.flagArm = x.flagArm ∧ g.flags = 0#32 ∧ g.v = [] ∧ g.n = 0 ∧ g.trapMode = false ∧ (∀ i, i < 32 → g.thread i = {}) ∧ (x.preloads = [] → g.g = [])) ∧
       (t.launchAt l).placed = n + 1 ∧ ∀ k, (k ≤ s.nextId ∨ s.nextId + plan.length < k) → t.groupAt k = s.groupAt k)) ∧
    (∀ p, x.producer = some p →
      let y := s.launchAt p
      let may : Prop := s.triggered p = true ∧
        (y.queue = x.queue → (∃ z, (s.before l x).getLast? = some z ∧ z.2.detlvl ≠ x.detlvl) → y.stage = .done ∨ mapFind s.launches p = none)
      (¬may → exec (.dependantRelease l) s = .next s) ∧ (may → exec (.dependantRelease l) s = .next { s.setLaunch l { x with waits := false } with l1 := s.l1.filter (fun y => decide (y.owner ≠ x.owner)) }))) ∧
  (∀ (s : State) (k : Nat),
    let w := s.wgAt k
    let l := s.launchAt w.launch
    let c := s.cycOf w.owner (islandOf (s.phys w.owner w.core))
    let quiet : Prop := w.live = true ∧ w.ended = true ∧ w.committed = false
    (let may : Prop := w.ended = false ∧ mapFind s.swapped k = none ∧ s.allWaiting k = true ∧ s.enginesOut k = true ∧
       ∀ j ∈ s.liveOf k, (s.groupAt j).waitFrom + s.swapT w.owner ≤ c
     (¬may → exec (.swapOut k) s = .next s) ∧ (may → ∃ t, exec (.swapOut k) s = .next t ∧ mapFind t.swapped k = some (c + 2048) ∧
       ∀ j ∈ s.liveOf k, (t.groupAt j).live = false ∧ (t.groupAt j).away = true)) ∧
    ((s.awake k = false → exec (.swapIn k) s = .next s) ∧
      (s.awake k = true → l.halted = none → ∀ plan, s.contextsFor w.owner w.core true (s.coreLanes w.owner w.core) (s.liveIndices k) [] = some plan →
        ∃ t, exec (.swapIn k) s = .next t ∧ t = { s with swapped := t.swapped, groups := t.groups, owners := t.owners, issueSerial := t.issueSerial } ∧
          mapFind t.swapped k = none ∧ (∀ j, j ∉ s.liveOf k → t.groupAt j = s.groupAt j) ∧
          ∀ j ∈ s.liveOf k, plan.length = (s.liveOf k).length → ∃ lane ctx, (j, lane, ctx) ∈ (s.liveOf k).zip plan ∧
            t.groupAt j = { s.groupAt j with live := true, away := false, lane := lane, ctx := ctx, readyAt := max (s.groupAt j).readyAt (c + 2048), lastIssue := (t.groupAt j).lastIssue })) ∧
    (¬quiet → exec (.workgroupCommit k) s = .next s) ∧
    (quiet → l.halted = none → l.detlvl = 0 → ∃ t, exec (.workgroupCommit k) s = .next t ∧
      t = { s with
        wgs := t.wgs, rsv := t.rsv, rsvOld := t.rsvOld, trec := t.trec, trecOld := t.trecOld, owners := t.owners, borders := t.borders, toBegin := t.toBegin
        bordering := t.bordering, agenda := t.agenda } ∧ t.wgAt k = { w with done := true, committed := true } ∧
      (∀ j, j ≠ k → t.wgAt j = s.wgAt j) ∧ (⟨.wall, s.now, .launchCompletion w.launch⟩ : Pend) ∈ t.agenda ∧
      (w.done = false → (∀ i, i < 16 → mapFind t.rsv (16 * k + i) = none ∧ mapFind t.trec (16 * k + i) = none) ∧
        (∀ b, b ∈ t.borders ↔ b ∈ s.borders ∧ ¬(b.owner = w.owner ∧ s.borderReady b = true)) ∧
        let y := s.ownerAt w.owner
        let m := s.now / 18000000
        t.ownerAt w.owner = { y with
          doneMs := m, doneNow := (if m = y.doneMs then y.doneNow else 0) + 1, doneBefore := if m = y.doneMs then y.doneBefore else if m = y.doneMs + 1 then y.doneNow else 0 }) ∧
      (∀ j, j ≠ w.owner → t.ownerAt j = s.ownerAt j) ∧ (w.done = true → t.owners = s.owners)) ∧
    (quiet → l.halted.isSome = true ∨ l.detlvl ≠ 0 ∧ (s.committedBelow w.launch w.index = false ∨ w.reserved ≠ 0) →
      ∃ t, exec (.workgroupCommit k) s = .next t ∧ t.wgAt k = { w with done := true } ∧ t.mem = s.mem ∧ t.scratch = s.scratch ∧ t.groups = s.groups) ∧
    (quiet → l.halted = none → l.detlvl ≠ 0 → s.committedBelow w.launch w.index = true → w.reserved = 0 →
      (∀ p ∈ s.engs, p.2.wait.any Await.isCommit = false) → ∃ t, exec (.workgroupCommit k) s = .next t ∧
      t.wgAt k = { w with done := true, committed := true, commit := (t.wgAt k).commit, reserved := (t.wgAt k).reserved } ∧
      ((∀ p ∈ s.ops, ∀ a ∈ p.2.accs, a.buffered = false) → (t.wgAt k).commit = []) ∧ t.mem = (s.applyCommit w).mem ∧ t.scratch = s.scratch ∧
      (∀ e, w.commit = [e] → e.op = none → ∀ a, t.byte a = if e.addr ≤ a ∧ a < e.addr + e.value.length then e.value.getD (a - e.addr) 0#8 else s.byte a))) ∧
  (∀ (s : State) (l : Nat) (x : Launch), mapFind s.launches l = some x → x.stage ≠ .done → x.stage ≠ .residing → s.launchQuiet l = true →
    ∃ t, exec (.launchCompletion l) s = .next t ∧ t.mem = ((if x.halted.isSome then s else s.applyOwnership l).releaseLeases l).mem ∧ (x.leases = [] → t.mem = s.mem) ∧ (∀ y ∈ t.l1, y.owner ≠ x.owner) ∧ (mapFind t.launches l).map (fun y => y.stage) = some .done ∧
      (∀ p, p ∈ t.groups ↔ p ∈ s.groups ∧ p.2.launch ≠ l) ∧ (∀ p, p ∈ t.wgs ↔ p ∈ s.wgs ∧ p.2.launch ≠ l) ∧
      Posted s t x.owner 2 0 x.tag 0#32 (leBytes 4 (match x.halted with
        | some _ => 2
        | none => if x.byTrap then 1 else 0) ++ leBytes 4 (x.halted.getD 0#32).toNat) x.secured)

/-! ### Partitions, contexts, fabric, host port -/

/-- R155, R157, R199, R350 to R357, R382, R383, R420, R429: switches, border moves and transfers pass slots and state from owner to owner and core to core; a creation record that
fits makes an owner, and destruction takes it away with its memory scrubbed; a context operation answers with its status, and takes effect where that is 0.
What an event leaves for later follows log 3; a switch's boundary and saved groups log 23, a transfer's log 24, the choice of a context operation's target and
the order of restored groups log 25, a record's forms log 26, a border that waits log 75, its direction log 87 and its shares log 88,
what a save completes log 74 (the model's choices). -/
def Obligations.PartitionAndContext : Prop :=
  (∀ (s : State) (w : SwitchSpec) (b : BorderSpec),
    exec (.switchBegin w) s = .next { s with toBegin := s.toBegin ++ [w] } ∧
    (s.borderOk b = false → exec (.borderMove b) s = .next s) ∧
    (s.borderOk b = true → s.atWork b.owner = true → exec (.borderMove b) s = .next { s with borders := s.borders ++ [b] }) ∧
    (s.borderOk b = true → s.atWork b.owner = false → ∃ t, exec (.borderMove b) s = .next t ∧
      t = { s with borders := t.borders, toBegin := t.toBegin, bordering := t.bordering } ∧
      (∀ x, x ∈ t.borders ↔ (x ∈ s.borders ∨ x = b) ∧ ¬(x.owner = b.owner ∧ s.borderReady x = true)) ∧
      let w : SwitchSpec :=
        ⟨b.core, b.lane, b.slots, if b.gain = true then s.slotOwner b.core b.lane (b.slots.headD 0) else b.owner, if b.gain = true then b.owner else 62, false⟩
      s.borderReady b = true → w ∈ t.toBegin ∧ (w, b) ∈ t.bordering) ∧
    (s.borderOk b = true → s.elastic b.owner = true ∧ ∃ r, s.part b.owner = some r ∧
      let n := (s.ownerAt b.owner).doneRate s.now
      (b.gain = true → n < r.target ∧ ∀ i ∈ b.slots, s.slotOwner b.core b.lane i = 62 ∨ s.elastic (s.slotOwner b.core b.lane i) = true) ∧
      (b.gain = false → (r.target < n ∨ s.atWork b.owner = false) ∧ ∀ i ∈ b.slots, s.slotOwner b.core b.lane i = b.owner)) ∧
    ((∀ c, (w, c) ∉ s.switches) → exec (.switchEnd w) s = .next s) ∧
    (∀ c n, (w, c) ∈ s.switches → (s.ownerAt w.incoming).live = true → s.slotHome w.incoming w.core w.lane w.slots = some n → ∃ t, exec (.switchEnd w) s = .next t ∧
      t = { s with
        switches := t.switches, rota := t.rota, owners := t.owners, groups := t.groups, unsettled := t.unsettled, wgs := t.wgs, agenda := t.agenda, borders := t.borders
        toBegin := t.toBegin, bordering := t.bordering, engScr := t.engScr, engObuf := t.engObuf, readHold := t.readHold, acc := t.acc, l1 := t.l1, l2 := t.l2, tlb := t.tlb } ∧
      (s.borderOf w = none → t = { s with
        switches := t.switches, rota := t.rota, owners := t.owners, groups := t.groups, unsettled := t.unsettled, wgs := t.wgs, agenda := t.agenda, borders := t.borders
        toBegin := t.toBegin, bordering := t.bordering }) ∧
      (∀ b c r, s.borderOf w = some b → s.logicalOn b.owner b.core = some c → s.part b.owner = some r → t.part b.owner = some (borderRecord b c r)) ∧
      (∀ b ∈ t.borders, t.atWork b.owner = false → t.borderReady b = false) ∧
      (∀ c, (w, c) ∉ t.switches) ∧ (∀ i ∈ w.slots, t.slotOwner w.core w.lane i = w.incoming) ∧
      (∀ k, (∀ i ∈ w.slots, k ≠ rotaKey w.core w.lane i) → mapGet 62 t.rota k = mapGet 62 s.rota k) ∧
      (let old := mapGet (0, 0) (s.ownerAt w.incoming).lanes (8 * n + w.lane)
       s.borderOf w = none → mapGet (0, 0) (t.ownerAt w.incoming).lanes (8 * n + w.lane) = (old.1 ||| slotMask w.slots, old.2)) ∧
      ((∀ l, (s.launchAt l).halted = none) → ∀ k, let g := s.groupAt k
        g.away = true → mapFind s.swapped g.wg = none → g.owner = w.incoming → g.core = n → g.lane = w.lane → s.contextTaken w.incoming n w.lane g.ctx = false →
          t.groupAt k = { g with live := true, away := false }) ∧
      (∀ o, o = w.outgoing ∨ o = w.incoming → (s.ownerAt o).live = true → .switch w.core w.lane (slotMask w.slots) ∉ (t.ownerAt o).held)) ∧
    (∀ c, (w, c) ∈ s.switches → (s.ownerAt w.incoming).live = false → ∃ t, exec (.switchEnd w) s = .next t ∧
      t = { s with switches := t.switches, rota := t.rota, owners := t.owners, borders := t.borders, toBegin := t.toBegin, bordering := t.bordering } ∧
      ∀ i ∈ w.slots, t.slotOwner w.core w.lane i = 62)) ∧
  (∀ (s : State) (o c d : Nat),
    ((o, c, d) ∈ s.moves ∨ s.targetFor o c ≠ some d → exec (.migrationMove o c d) s = .next s) ∧
    ((o, c, d) ∉ s.moves → s.targetFor o c = some d → ∃ t, exec (.migrationMove o c d) s = .next t ∧ t = { s with moves := t.moves } ∧
      ∀ m, m ∈ t.moves ↔ m = (o, c, d) ∨ m ∈ s.moves ∧ ¬(m.1 = o ∧ m.2.1 = c)) ∧
    ((∀ x ∈ s.transfers, ¬(x.owner = o ∧ x.src = c ∧ x.dst = d)) → exec (.coreStateTransferEnd o c d) s = .next s) ∧
    (∀ x sh, s.transfers.find? (fun y => decide (y.owner = o) && decide (y.src = c) && decide (y.dst = d)) = some x → s.shareOf o x.core = some sh → c ≠ d →
      (∀ p ∈ s.engs, p.2.owner ≠ o) → ∃ t, exec (.coreStateTransferEnd o c d) s = .next t ∧ t.mem = s.mem ∧ t.phys o x.core = d ∧ x ∉ t.transfers ∧
        (∀ n, n < sh.scratchLen → mapGet 0#8 t.scratch (scrKey d (sh.scratchBase + n)) = mapGet 0#8 s.scratch (scrKey c (sh.scratchBase + n))) ∧
        (∀ n, n < 1024 * sh.accCount → mapGet 0#32 t.acc (d * 32768 + 1024 * sh.accFirst + n) = mapGet 0#32 s.acc (c * 32768 + 1024 * sh.accFirst + n)) ∧
        (∀ n, n < 512 * sh.obufCount → mapGet 0#8 t.obuf (d * 262144 + 512 * sh.obufFirst + n) = mapGet 0#8 s.obuf (c * 262144 + 512 * sh.obufFirst + n)) ∧
        (∀ lane i, lane < 8 → i < 8 → s.slotOwner c lane i = o → t.slotOwner d lane i = o) ∧
        ((s.ownerAt o).live = true → (∀ y ∈ s.transfers, y.owner = o → y.src = c → y = x) → .migration c ∉ (t.ownerAt o).held) ∧
        (∀ m, m ∈ t.migrations ↔ m ∈ s.migrations ∧ m ≠ (o, c)) ∧ SameRegs s t) ∧
    (∀ x, s.transfers.find? (fun y => decide (y.owner = o) && decide (y.src = c) && decide (y.dst = c)) = some x → (∀ p ∈ s.engs, p.2.owner ≠ o) →
      ∃ t, exec (.coreStateTransferEnd o c c) s = .next t ∧ t.mem = s.mem ∧ t.scratch = s.scratch ∧ x ∉ t.transfers ∧ t.migrations = s.migrations ∧
        (∀ n, t.phys o n = s.phys o n) ∧ SameRegs s t)) ∧
  (∀ (s : State) (r : PartRec),
    let ok : Prop := s.powered = true ∧ (s.ownerAt r.owner).live = false ∧ r.kind ≠ .sys ∧ recWellFormed r = true ∧ s.fits r = true
    (¬ok → exec (.partitionCreate r) s = .next s) ∧
    (ok → ∃ t, exec (.partitionCreate r) s = .next t ∧
      t = { s with
        owners := t.owners, openTick := t.openTick, spdm := t.spdm, frames := t.frames, mem := t.mem, faulty := t.faulty, checks := t.checks
        toBegin := t.toBegin, engScr := t.engScr, engObuf := t.engObuf, readHold := t.readHold, acc := t.acc, tables := t.tables, fabric := t.fabric } ∧
      t.toBegin = s.toBegin.map (s.redirected r) ++ s.arrivals r ∧ (∀ k ∈ tableKeys r, mapGet 62 t.tables k = r.owner) ∧
      (∀ x ∈ r.shares, ∀ n, n < 1024 * x.accCount → mapGet 0#32 t.acc (mapGet x.core r.remap x.core * 32768 + 1024 * x.accFirst + n) = 0#32) ∧ mapFind t.frames (frameKey r.owner (r.root / 65536)) = some r.owner ∧ (∀ o, o ≠ r.owner → t.ownerAt o = s.ownerAt o) ∧
      let w := t.ownerAt r.owner
      w.live = true ∧ w.part = some r ∧ w.lqGranted = true ∧ w.cyc = [] ∧ w.nctr = [] ∧ w.qdecl = [] ∧ w.lq = [] ∧ w.table = [] ∧
        (∀ x ∈ t.toBegin, x.incoming = r.owner → .switch x.core x.lane (slotMask x.slots) ∈ w.held) ∧
        (∀ i, i < 32 → mapGet false w.heldOn i = true))) ∧
  (∀ (s : State) (o : Nat), (48 ≤ o ∨ (s.ownerAt o).live = false → exec (.partitionDestroy o) s = .next s) ∧
    (∀ r, o < 48 → (s.ownerAt o).live = true → s.part o = some r → ∃ t, exec (.partitionDestroy o) s = .next t ∧ mapFind t.owners o = none ∧
      (∀ p, p ∈ t.groups ↔ p ∈ s.groups ∧ p.2.owner ≠ o) ∧ (∀ p, p ∈ t.launches ↔ p ∈ s.launches ∧ p.2.owner ≠ o) ∧ (∀ p, p ∈ t.ops ↔ p ∈ s.ops ∧ p.2.owner ≠ o) ∧
      (∀ p ∈ t.frames, p.2 ≠ o) ∧ (∀ a, t.byte a = if s.ownsByte o r a = true then 0#8 else s.byte a) ∧ t.scratch = s.scratch ∧
      t.toBegin = s.toBegin.filterMap (fun w => if w.incoming ≠ o then some w else if w.outgoing = 62 then none else some { w with incoming := 62 }) ++ s.returnSlots o)) ∧
  (∀ (s : State) (h : Guard) (d a : Reg),
    let g := s.grp
    let x := ctxDesc (g.getG64 d)
    let issues (i : Instr) (n : Nat) (addr : Dword) : Prop :=
      (g.guardQ h = false → Passes i s) ∧
      (g.guardQ h = true → ∃ t st c img k y, exec i s = .next t ∧ mapFind t.waits k = some y ∧ y.gid = s.cur ∧ y.kind = .ctx n d (g.getG64 d) addr st img ∧
        y.target = s.ctxTarget n x img ∧ y.due = some (s.win + c) ∧ t.grp.busy = some k ∧ (⟨.owner g.owner (s.groupIsland g), s.win + c, .contextOpComplete k⟩ : Pend) ∈ t.agenda ∧
        (st ≠ 0#32 ∨ n = 0 ∨ n = 4 → t = { s with waits := t.waits, groups := t.groups, nextId := t.nextId, agenda := t.agenda, opens := t.opens } ∧
          Awaits s t (.ctx n d (g.getG64 d) addr st img) (some (s.win + c)) [] (s.ctxTarget n x img)) ∧
        (st = 0#32 → n = 1 → OnlyMarks s t ∧ t.scratch = s.scratch ∧ ∀ j, j ≠ s.cur → t.groupAt j = s.groupAt j) ∧
        (st = 0#32 → c = (if n = 2 ∨ n = 3 then 65536 else 2048) ∧ s.ctxInTime n x = true) ∧ (n ≠ 4 → addr.toNat % 64 ≠ 0 → st = 4#32) ∧ st.toNat ≤ 4 ∧
        (n = 4 → st = if s.hasCore x.owner x.logical = false then 2#32 else if s.ctxInTime n x = false then 1#32 else 0#32))
    issues (.ctxGsave h d a) 0 (g.getG64 a) ∧ issues (.ctxGrest h d a) 1 (g.getG64 a) ∧ issues (.ctxWsave h d a) 2 (g.getG64 a) ∧ issues (.ctxWrest h d a) 3 (g.getG64 a) ∧
      issues (.ctxRemap h d) 4 0#64) ∧
  (∀ (s : State) (k n : Nat) (x : WaitOp) (d : Reg) (desc addr : Dword) (st : Word) (img : List Byte), mapFind s.waits k = some x → x.kind = .ctx n d desc addr st img →
    (s.groupAt x.gid).isEnded = false →
    let c := ctxDesc desc
    let u : State := { s with waits := mapErase s.waits k }
    let answer (g : Group) : Group := { (g.setG d st).setG (d + 1) 0#32 with busy := none }
    (st ≠ 0#32 → ∃ t, exec (.contextOpComplete k) s = .next t ∧ t = { s with waits := t.waits, groups := t.groups } ∧
      Resumes s t k x.gid (((s.groupAt x.gid).setG d st).setG (d + 1) 0#32)) ∧
    (st = 0#32 → n = 4 → ∃ t, exec (.contextOpComplete k) s = .next t ∧ t = { s with waits := t.waits, groups := t.groups, owners := t.owners } ∧
      Resumes s t k x.gid (((s.groupAt x.gid).setG d st).setG (d + 1) 0#32) ∧ t.phys c.owner c.logical = c.core) ∧
    let by_ := s.groupAt x.gid
    (st = 0#32 → n = 0 → ∀ j ls, x.target = some j → u.ctxLeaves by_ addr.toNat 10240 wantStore = some ls → j ≠ x.gid → ∃ t y, exec (.contextOpComplete k) s = .next t ∧
      let v := u.closeGroup j
      t.mem = (v.leafWrite by_ ls (v.groupImage j)).mem ∧ (t.groupAt j).away = true ∧ (t.groupAt j).live = false ∧ t.groupAt x.gid = answer y) ∧
    (st = 0#32 → n = 1 → ∀ j, x.target = some j → (s.launchAt (s.groupAt j).launch).halted = none → j ≠ x.gid → ∃ t y, exec (.contextOpComplete k) s = .next t ∧
      (t.groupAt j).live = true ∧ (t.groupAt j).away = false ∧ (t.groupAt j).lane = c.ctx / 12 ∧ (t.groupAt j).ctx = c.ctx % 12 ∧ t.groupAt x.gid = answer y) ∧
    (st = 0#32 → n = 2 → ∀ j ls, x.target = some j →
      let v := (s.wgAt j).groups.foldl State.drainGroup u
      v.ctxLeaves by_ addr.toNat (v.wgImage j c.core).length wantStore = some ls → (v.groupAt x.gid).isEnded = false → ∃ t, exec (.contextOpComplete k) s = .next t ∧
        t.mem = (v.leafWrite by_ ls (v.wgImage j c.core)).mem ∧ t.groupAt x.gid = answer (v.groupAt x.gid) ∧ ∀ i, i ≠ x.gid → t.groupAt i = v.groupAt i) ∧
    (st = 0#32 → n = 3 → ∀ j, x.target = some j → ∃ t, exec (.contextOpComplete k) s = .next t ∧
      t.mem = s.mem ∧ t.groupAt x.gid = answer by_ ∧ (∀ j, j ≠ x.gid → t.groupAt j = s.groupAt j) ∧
      (u.wgImage j c.core ≠ img → ∀ i, i < 16 → mapGet {} t.rsv (16 * j + i) = rsvOf img (0x140 + 8 * i))))

/-- R389 to R395, R397 to R400, R402, R405: an egress port of either mesh, in a slot of its table, passes a beat of a flit of the packet that holds it, or of
the winner of R393, and the next router's queue takes the flit; a packet that may misroute does; the token goes round its ring; Bellwether's lane takes
and gives up its packet; a link takes flits that its slot's owner has packed at an adapter, hands on those in sequence, replays the others, and is
retrained; an unused L2 column goes off. No register and no byte of memory changes. What the events of a cycle are follows logs 3 and 42, the places and
numbers of links and their tables log 35, and which columns may go off log 40 (the model's choices). -/
def Obligations.FabricEvents : Prop :=
  (∀ (s : State) (r p slot : Nat) (reply : Bool), p < 8 →
    let i := Instr.routerArbitration r (if reply = true then p + 8 else p) slot
    let o := s.meshOwner r (if reply = true then p + 8 else p) slot
    let own := if p < 4 then s.meshSlot r p reply slot else s.tableOwner .link (dieOf r) slot
    let f := s.fabric
    let key := ((r * 8 + p) * 2 + if reply = true then 1 else 0) * 64 + o
    let beats := if reply = true then 1 else 4
    let runs (good : State → Prop) : Prop := ∃ t, exec i s = .next t ∧ t = { s with fabric := t.fabric } ∧ good t
    let stands (k : Nat) (x : Packet) : Prop := mapFind f.packets k = some x ∧ x.router = r ∧ x.reply = reply ∧ x.owner = o
    let room (x : Packet) : Prop := 0 < x.flits ∧ (x.lane = true ∨ ∀ d, neighbour r p = some d → 0 < s.freeBufs o d ((p + 2) % 4) reply)
    let whole (x : Packet) : Prop := x.flits + x.more = 1
    let beat (k b : Nat) (x : Packet) : Prop := mapSorted f.packets = true → stands k x →
      (b = 0 → ¬room x → runs (fun t => mapFind t.fabric.hold key = some (k, 0) ∧ mapFind t.fabric.packets k = some x)) ∧
      (b ≠ 0 ∨ room x → b + 1 < beats → runs (fun t => mapFind t.fabric.hold key = some (k, b + 1) ∧ mapFind t.fabric.packets k = some x)) ∧
      (b ≠ 0 ∨ room x → beats ≤ b + 1 → runs (fun t => (whole x → mapFind t.fabric.hold key = none) ∧ (¬whole x → mapFind t.fabric.hold key = some (k, 0)))) ∧
      (b ≠ 0 ∨ room x → beats ≤ b + 1 → ∀ d, neighbour r p = some d →
        let j := x.id * 4096 + d * 8 + (p + 2) % 4
        j ≠ k → runs (fun t =>
          (whole x → mapFind t.fabric.packets k = none) ∧
          (¬whole x → ∃ n, (x.outer = false → n = 0) ∧ mapFind t.fabric.packets k = some { x with flits := x.flits - 1 + n, more := x.more - n, sent := x.sent + 1 }) ∧
          (mapFind f.packets j = none → mapFind t.fabric.packets j = some { x with
            router := d, queue := (p + 2) % 4, num := f.count, flits := 1, more := x.flits + x.more - 1, sent := 0, outer := false, wait := 0, stuck := 0, want := 0 }) ∧
          (∀ y, mapFind f.packets j = some y → y.router = d → mapFind t.fabric.packets j = some { y with flits := y.flits + 1, more := y.more - 1 }))) ∧
      (b ≠ 0 ∨ room x → beats ≤ b + 1 → neighbour r p = none → adapterDie r p = none → whole x → x.reply = true ∨ x.answer = 0 →
        runs (fun t => mapFind t.fabric.packets k = none)) ∧
      (b ≠ 0 ∨ room x → beats ≤ b + 1 → neighbour r p = none → ∀ d, adapterDie r p = some d → runs (fun t =>
        let at_ (u : State) : List MeshFlit := mapGet [] (u.wayAt (wayOf (dieOf r) d)).waiting (r * 8 + p)
        ∃ m, at_ t = at_ s ++ [m] ∧ m.packet = x.id ∧ m.owner = o ∧ m.dst = x.dst ∧ m.port = x.port ∧ m.last = decide (x.flits + x.more = 1) ∧
          m.data = x.data.getD x.sent [] ∧ m.check = x.checks.getD x.sent none))
    (o = if s.heldOn own (islandOf r) = true then 63 else own) ∧
    (512 ≤ r ∨ 32 ≤ slot ∨ s.heldOn o (islandOf r) = true → exec i s = .next s) ∧
    (r < 512 → slot < 32 → s.heldOn o (islandOf r) = false →
      (∀ k b x, mapFind f.hold key = some (k, b) → beat k b x) ∧
      (mapFind f.hold key = none → s.requests o r p reply = [] → runs (fun t => t.fabric.count = f.count)) ∧
      (∀ k x, mapFind f.hold key = none → s.requests o r p reply = [(k, x)] → beat k 0 x))) ∧
  (∀ (s : State) (r p slot : Nat),
    let own := s.tableOwner .link 26 slot
    let o := if s.heldOn own (islandOf r) = true then 63 else own
    let f := s.fabric
    let ring := Instr.routerArbitration r 16 slot
    let goes : Prop := r < 512 ∧ slot < 32 ∧ s.heldOn o (islandOf r) = false ∧ (s.ownerAt o).live = true ∧ f.token o = r ∧ mapFind f.captured o = none ∧ f.suspects o r = []
    (16 < p → exec (.routerArbitration r p slot) s = .next s) ∧ (¬goes → exec ring s = .next s) ∧
    (goes → exec ring s = .next { s with fabric := { f with tokenAt := mapSet 0 f.tokenAt o ((mapGet 0 f.tokenAt o + 1) % 512) } })) ∧
  (∀ (xs : List (Nat × Packet)) (tie : Nat) (w : Nat × Packet) (n : Nat), arbitrate tie xs = some (w, n) →
    w ∈ xs ∧ (∀ y ∈ xs, y.2.age = 256 → w.2.age = 256) ∧ ((∀ y ∈ xs, y.2.age ≠ 256) → ∀ y ∈ xs, prioOf y.2 ≤ prioOf w.2)) ∧
  (∀ (s : State) (x : Packet) (p : Nat), x.router ≠ x.dst → s.candidate x = some p →
    let free (p : Nat) : Nat := match downstream x.router p with
      | none => 0
      | some (d, q) => s.freeBufs x.owner d q x.reply
    p ∈ productive x.router x.dst ∧ 0 < free p ∧ ∀ q ∈ productive x.router x.dst, free q ≤ free p) ∧
  (∀ r d, r < 512 → d < 512 → dieOf r = dieOf d → ∀ p,
    let far (a : Nat) : Nat := ((gridRow a : Int) - gridRow d).natAbs + ((gridCol a : Int) - gridCol d).natAbs
    p ∈ productive r d ↔ ∃ a, neighbour r p = some a ∧ far a + 1 = far r) ∧
  (∀ (s : State) (r q o p k d : Nat) (reply : Bool) (x : Packet), q < 8 → (s.fabric.inQueue o r q reply).head? = some (k, x) →
    let may : Prop := 64 ≤ x.wait ∧ x.misroutes < 8 ∧ s.heldOn o (islandOf r) = false ∧ s.fabric.passing k = false ∧ 0 < s.freeBufs o d ((p + 2) % 4) reply
    let i := Instr.packetMisroute r (if reply = true then q + 8 else q) o p
    neighbour r p = some d → (¬may → exec i s = .next s) ∧
      (may → exec i s = .next (s.setPacket k { x with want := p + 1, misroutes := x.misroutes + 1 }))) ∧
  (∀ (s : State) (o r : Nat),
    let f := s.fabric
    let may : Prop := f.suspects o r ≠ [] ∧ f.token o = r ∧ mapFind f.captured o = none ∧ s.heldOn o (islandOf r) = false
    (¬may → exec (.bellwetherCapture o r) s = .next s) ∧
    (may → ∃ t k x, exec (.bellwetherCapture o r) s = .next t ∧ t = { s with fabric := t.fabric } ∧
      (k, x) ∈ f.suspects o r ∧ (∀ y ∈ f.suspects o r, y.2.age ≤ x.age) ∧ mapFind t.fabric.captured o = some k ∧ t.fabric.tokenAt = f.tokenAt ∧
      (mapSorted f.packets = true →
        mapFind t.fabric.packets k = some { x with
          lane := true, want := 0, flits := if x.outer = true then x.flits + x.more else x.flits, more := if x.outer = true then 0 else x.more } ∧
        ∀ j y, j ≠ k → mapFind f.packets j = some y → y.outer = false → mapFind t.fabric.packets j = some y)) ∧
    (mapFind f.captured o = none → exec (.deadlockLaneEject o) s = .next s) ∧
    (∀ k x, mapFind f.captured o = some k → mapFind f.packets k = some x →
      let may : Prop := x.router = x.dst ∧ x.more = 0 ∧ x.sent = 0 ∧ s.heldOn o (islandOf x.router) = false ∧ s.portOff x.router x.port = false
      (¬may → exec (.deadlockLaneEject o) s = .next s) ∧
      (may → x.reply = true ∨ x.answer = 0 → exec (.deadlockLaneEject o) s = .next { s with
        fabric := { f with captured := mapErase f.captured o, packets := mapErase f.packets k } }) ∧
      (may → x.reply = false → x.answer ≠ 0 → x.port = 6 → mapSorted f.packets = true →
        let through := quadrantOf x.router * 32 + 8 + 8 * mapGet 0 f.through ((quadrantOf x.router * 8 + colOf x.router) * 64 + x.owner) + colOf x.router
        ∃ t y, exec (.deadlockLaneEject o) s = .next t ∧ t = { s with fabric := t.fabric } ∧ mapFind t.fabric.captured o = none ∧
          mapFind t.fabric.packets (f.count * 4096 + through * 8 + 6) = some y ∧ y.reply = true ∧ y.owner = x.owner ∧ y.dst = x.src ∧ y.flits + y.more = x.answer ∧ y.router = through))) ∧
  (∀ (s : State) (l n : Nat) (f : Flit),
    let w := s.wayAt l
    let up : Prop := (s.linkAt (l / 2)).state ≠ .failed ∧ (l < 8 ∨ s.inDomain = true)
    let inside : Prop := l < 8 ∨ l % 2 = 0
    let good : Prop := f.crcOk = true ∧ f.seq = w.expect
    let runs (v : LinkWay) : Prop := ∃ t, exec (.flitReceive l f) s = .next t ∧ t = { s with fabric := t.fabric } ∧ t.fabric.packets = s.fabric.packets ∧ t.wayAt l = v
    (¬up → exec (.flitReceive l f) s = .next s) ∧
    (up → inside → ∀ before y after, w.replay = before ++ y :: after → y.seq = f.seq → (∀ z ∈ before, z.seq ≠ f.seq) →
      let again : Prop := s.slotReplays (l / 2) f.slot y.owner = true
      (¬again → exec (.flitReceive l f) s = .next s) ∧
      (again → ¬good → runs { w with asked := true }) ∧ (again → good → y.cargo = [] → runs { w with expect := w.expect + 1, asked := false })) ∧
    (up → inside → (∀ y ∈ w.replay, y.seq ≠ f.seq) →
      let new_ : Prop := f.seq = w.next ∧ s.slotCarries (l / 2) f.slot f.owner = true ∧
        ∃ m rest, f.cargo = m :: rest ∧ f.cargo = ((mapGet [] w.waiting (m.leaves * 8 + m.exit)).filter (fun m => decide (m.owner = f.owner))).take 2
      let v : LinkWay := { w with replay := w.replay ++ [{ f with crcOk := true }], next := f.seq + 1, waiting := w.took f }
      (¬new_ → exec (.flitReceive l f) s = .next s) ∧
      (new_ → ¬good → runs { v with asked := true }) ∧
      (new_ → good → mapSorted s.fabric.packets = true → ∀ m, f.cargo = [m] → m.last = true → mapGet [] w.partial_ (m.packet * 64 + f.owner) = [] → (s.ownerAt f.owner).live = true →
        m.dst < 512 → ejects m.dst m.port = true → ∀ a q, farSide m.leaves m.exit = some (a, q) → ∃ t x, exec (.flitReceive l f) s = .next t ∧ t = { s with fabric := t.fabric } ∧
          (t.wayAt l).expect = w.expect + 1 ∧ mapFind t.fabric.packets (m.packet * 4096 + a * 8 + q) = some x ∧ x.router = a ∧ x.queue = q ∧ x.owner = f.owner ∧ x.dst = m.dst ∧
          x.port = m.port ∧ x.age = min m.age 256 ∧ x.misroutes = m.misroutes ∧ x.reply = m.reply ∧ x.flits + x.more = 1 ∧ x.data = [m.data] ∧ x.checks = [m.check])) ∧
    (up → ¬inside →
      let carried : Prop := s.slotCarries (l / 2) f.slot f.owner = true ∧ f.cargo.length ≤ 2 ∧ ∀ m ∈ f.cargo, m.owner = f.owner
      (¬carried → exec (.flitReceive l f) s = .next s) ∧
      (carried → ¬good → runs { w with asked := true }) ∧ (carried → good → f.cargo = [] → runs { w with expect := w.expect + 1, asked := false })) ∧
    ((∀ y ∈ w.replay, y.seq ≠ BitVec.ofNat 16 n) → exec (.flitAcknowledge l n) s = .next s) ∧
    (∀ before y after, w.replay = before ++ y :: after → y.seq = BitVec.ofNat 16 n → (∀ z ∈ before, z.seq ≠ BitVec.ofNat 16 n) →
      exec (.flitAcknowledge l n) s = .next (s.setWay l { w with replay := after, replays := 0 }) ∧
      (before ≠ [] → exec (.flitReplay l n) s = .next (s.setWay l { w with replay := y :: after, replays := 1 })) ∧
      (before = [] → w.replays < 8 → exec (.flitReplay l n) s = .next (s.setWay l { w with replays := w.replays + 1 })) ∧
      (before = [] → 8 ≤ w.replays → (s.linkAt (l / 2)).state = .up → ∃ t, exec (.flitReplay l n) s = .next t ∧
        t = { s with fabric := t.fabric, owners := t.owners, agenda := t.agenda } ∧ (t.linkAt (l / 2)).state = .retraining))) ∧
  (∀ (s : State) (l : Nat),
    let x := s.linkAt l
    let on_ : Prop := l < 4 ∨ s.inDomain = true
    let lets (t : State) : Prop := ∀ o w, mapFind s.owners o = some w → w.live = true → .retrain l ∉ (t.ownerAt o).held
    let quiet (t : State) : Prop := ∀ e ∈ t.agenda, e.ev ≠ .retrainRetry l
    let secured : Prop := ∃ o, o ∈ s.linkOwners l ∧ s.isolated o = true
    let stays : Prop := x.spares < x.lost ∧ secured
    (¬on_ → exec (.laneFailure l) s = .next s) ∧
    (on_ → x.state = .up → ∃ t, exec (.laneFailure l) s = .next t ∧ t = { s with fabric := t.fabric, owners := t.owners, agenda := t.agenda } ∧
      t.linkAt l = { x with state := .retraining, lost := x.lost + 1, tries := 0 } ∧ (⟨.wall, s.now + 18000000, .retrainRetry l⟩ : Pend) ∈ t.agenda ∧
      ∀ o w, mapFind s.owners o = some w → w.live = true → s.onLink l o = true → .retrain l ∈ (t.ownerAt o).held) ∧
    (on_ → x.state ≠ .up → exec (.laneFailure l) s = .next (s.setLink l { x with lost := x.lost + 1 })) ∧
    (x.state ≠ .retraining → exec (.retrainComplete l) s = .next s ∧ exec (.retrainRetry l) s = .next s) ∧
    (x.state = .retraining →
      (x.tries < 99 → exec (.retrainRetry l) s = .next ((s.setLink l { x with tries := x.tries + 1 }).schedule .wall (s.now + 18000000) (.retrainRetry l))) ∧
      (99 ≤ x.tries → ∃ t, exec (.retrainRetry l) s = .next t ∧ (t.linkAt l).state = .failed ∧ t.boxFrozen = true ∧ t.mem = s.mem ∧ t.groups = s.groups) ∧
      (stays → ∃ t, exec (.retrainComplete l) s = .next t ∧ t.linkAt l = { x with state := .degraded, lost := x.lost - x.spares, spares := 0 } ∧ quiet t ∧
        t.mem = s.mem ∧ t.groups = s.groups) ∧
      (¬stays → s.replayed l = false ∨ x.spares + x.lanes ≤ x.lost → exec (.retrainComplete l) s = .next s) ∧
      (s.replayed l = true → x.lost ≤ x.spares → x.lost < x.spares + x.lanes → ∃ t, exec (.retrainComplete l) s = .next t ∧
        t = { s with fabric := t.fabric, owners := t.owners, agenda := t.agenda } ∧ t.linkAt l = { x with state := .up, lost := 0, spares := x.spares - x.lost } ∧ quiet t ∧ lets t) ∧
      (s.replayed l = true → x.spares < x.lost → x.lost < x.spares + x.lanes → ¬secured → ∃ t, exec (.retrainComplete l) s = .next t ∧
        t = { s with fabric := t.fabric, owners := t.owners, agenda := t.agenda, tables := t.tables } ∧
        (t.linkAt l).state = .up ∧ (t.linkAt l).lanes = x.lanes - (x.lost - x.spares) ∧ quiet t ∧ lets t ∧
        ∀ o, o < 64 → s.linkTable l o ≠ [] →
          t.linkTable l o = (s.linkTable l o).take (max 1 ((s.linkTable l o).length * (x.lanes - (x.lost - x.spares)) / x.lanes))))) ∧
  (∀ (s : State) (q c : Nat),
    let used : Prop := ∃ o r, o ∈ s.liveOwners ∧ o < 48 ∧ s.part o = some r ∧ mapGet 0 r.l2Ways (8 * q + c) ≠ 0
    let may : Prop := q < 16 ∧ c < 8 ∧ (q, c) ∉ s.columnsOff ∧ s.columnsOff.countP (fun x => decide (x.1 = q)) < 4 ∧ ¬used
    (¬may → exec (.l2ColumnOff q c) s = .next s) ∧ (may → exec (.l2ColumnOff q c) s = .next { s with columnsOff := s.columnsOff ++ [(q, c)] }))

/-- R183, R411 to R413, R417, R419, R421 to R424, R428: reads and writes of a granted window take effect and others complete with Unsupported Request; a memory request is
served, aborted, or stops where no memory answers; the recorder is read through the management window; attestation answers each request in turn; bring-up
creates SYS; a warm reset leaves the black box and what lies outside the device. What an event leaves for later follows log 3, the messages of attestation log
36 (PRESUMED, taken from SPDM 1.3), bring-up log 39, the registers log 41, striped requests and the recorder's reads log 62, and the top of Silo log 63 (the
model's choices). -/
def Obligations.HostPortAndAttestation : Prop :=
  (∀ (s : State) (o q a : Nat) (v : Word) (x : Dword),
    let w := s.ownerAt o
    let granted : Prop := w.live = true ∧ w.lqGranted = true
    let refused : Res := .next { s with port := some .unsupportedRequest }
    let sets (i : Instr) (y : Owner) : Prop := exec i s = .next { s.setOwner o y with port := some (.ok 0) }
    let page : Dword := BitVec.ofNat 64 (x.toNat / 4096 * 4096)
    (¬granted → exec (.registerWrite o a x) s = refused ∧ exec (.lqCtlWrite o q v) s = refused ∧ exec (.lqTailWrite o q v) s = refused) ∧
    (let reads (a n : Nat) : Prop := exec (.hostMemoryRequest a (.register o)) s = .next { s with port := some (.ok n) }
     (¬granted → exec (.hostMemoryRequest a (.register o)) s = refused) ∧
     (granted → reads 0 w.evBase.toNat ∧ reads 0x8 w.evCtl.toNat ∧ reads 0xC w.evHead.toNat ∧ reads 0x10 w.evTail.toNat ∧
       (q < 8 → reads (0x100 + 0x20 * q) (w.lqAt q).base.toNat ∧ reads (0x108 + 0x20 * q) (w.lqAt q).ctl.toNat ∧ reads (0x10C + 0x20 * q) (w.lqAt q).head.toNat ∧
         reads (0x110 + 0x20 * q) (w.lqAt q).tail.toNat))) ∧
    (granted → sets (.registerWrite o 0 x) { w with evBase := page } ∧
      (q < 8 → (w.lqAt q).en = false → sets (.registerWrite o (0x100 + 0x20 * q) x) { w with lq := mapPut w.lq q { w.lqAt q with base := page } }) ∧
      (q < 8 → (w.lqAt q).en = true → sets (.registerWrite o (0x100 + 0x20 * q) x) w) ∧
      (q < 8 → sets (.lqTailWrite o q v) { w with lq := mapPut w.lq q { w.lqAt q with tail := BitVec.ofNat 32 (v.toNat % (w.lqAt q).slots) } }) ∧
      (8 ≤ q → sets (.lqTailWrite o q v) w ∧ sets (.lqCtlWrite o q v) w) ∧
      (q < 8 → ∃ y, sets (.lqCtlWrite o q v) { w with lq := mapPut w.lq q y } ∧ y.base = (w.lqAt q).base ∧ y.sess = v.getLsbD 2 ∧ y.prio = v.toNat / 1024 % 4 ∧
        (let n := if (w.lqAt q).en = true then (w.lqAt q).ctl.toNat / 4096 % 16 else v.toNat / 4096 % 16
         y.slots = 2 ^ n ∧ (y.en = true ↔ v.getLsbD 0 = true ∧ 4 ≤ n ∧ n ≤ 12)) ∧
        (y.en = true → (w.lqAt q).en = false → y.head = 0#32 ∧ y.tail = 0#32) ∧ ((w.lqAt q).en = true → y.head = (w.lqAt q).head ∧ y.tail = (w.lqAt q).tail))) ∧
    (w.events = [] →
      let n := v.toNat % 16
      let en : Prop := v.getLsbD 4 = true ∧ 4 ≤ n ∧ n ≤ 12
      (¬granted → exec (.evCtlWrite o v) s = refused ∧ exec (.evHeadWrite o v) s = refused) ∧
      (granted → ∃ y, sets (.evCtlWrite o v) y ∧ y.evCtl.toNat % 16 = n ∧ (y.evCtl.getLsbD 4 = true ↔ en) ∧ y.evBase = w.evBase ∧
        (en → w.evCtl.getLsbD 4 = false → y.evHead = 0#32 ∧ y.evTail = 0#32)) ∧
      (granted → sets (.evHeadWrite o v) { w with evHead := if w.evSize = 0 then v else BitVec.ofNat 32 (v.toNat % w.evSize) }))) ∧
  (∀ (s : State) (a : Nat) (b : Byte),
    let sys := s.ownerAt 63
    (sys.live = true → sys.lqGranted = true → exec .freeze s = .next { s with boxFrozen := true, port := some (.ok 0) }) ∧
    (sys.live = false ∨ sys.lqGranted = false → exec .freeze s = .next { s with port := some .unsupportedRequest }) ∧
    (let there : Prop := a < 0x10000000000 ∧ a % 0x80000000 < 0x59680000 ∨ 0x2000000000000 ≤ a ∧ a < 0x2000000000000 + 2048000000000
     let private_ (pa : Nat) : Prop := ∃ o, s.byteOwner pa = some o ∧ s.isolated o = true
     (there → s.hostByte a = some a) ∧
     (¬there → (∀ o ∈ s.liveOwners, ∀ r, s.part o = some r → inStripes r a 1 = false) → s.hostByte a = none) ∧
     (¬there → ∀ pa, s.hostByte a = some pa → ∃ o ∈ s.liveOwners, ∃ r, s.part o = some r ∧ inStripes r a 1 = true ∧ stripedToVault r (a - 0x1000000000000) = some pa) ∧
     (s.hostByte a = none → exec (.hostMemoryRequest a .read) s = .fault (.unpopulated a) ∧ exec (.hostMemoryRequest a (.write b)) s = .fault (.unpopulated a)) ∧
     ∀ pa, s.hostByte a = some pa →
       (private_ pa → exec (.hostMemoryRequest a .read) s = .next { s with port := some .completerAbort } ∧
         exec (.hostMemoryRequest a (.write b)) s = .next { s with port := some .completerAbort }) ∧
       (¬private_ pa →
         (s.sectorFault (pa / 32) = none → exec (.hostMemoryRequest a .read) s = .next { s with port := some (.ok (s.byte pa).toNat) }) ∧
         (s.sectorFault (pa / 32) ≠ none → exec (.hostMemoryRequest a .read) s = .next { s with port := some .completerAbort }) ∧
         ∃ t, exec (.hostMemoryRequest a (.write b)) s = .next t ∧ t = { s with mem := t.mem, faulty := t.faulty, checks := t.checks, port := some (.ok 0) } ∧
           ∀ c, t.byte c = if c = pa then b else s.byte c)) ∧
    (∀ n i,
      let read := Instr.hostMemoryRequest n (.record i)
      let shown (o : Nat) : Prop := ∃ k y, i = some k ∧ mapFind s.spdm.sessions k = some y ∧ y.up = true ∧ y.partition = some o
      (sys.live = false ∨ sys.lqGranted = false ∨ s.box[n]? = none → exec read s = .next { s with port := some .unsupportedRequest }) ∧
      (sys.live = true → sys.lqGranted = true → ∀ e, s.box[n]? = some e →
        (32 ≤ e.owner ∨ shown e.owner → exec read s = .next { s with port := some (.entry e) }) ∧
        (e.owner < 32 → ¬shown e.owner → exec read s = .next { s with port := some (.entry { e with data := List.replicate 16 0#8 }) })))) ∧
  (∀ (s : State) (v c i a n : Nat) (x : SpdmOffer) (p : Option Nat) (m : Bool),
    let d := s.spdm
    let all (P : Instr → Prop) : Prop := P .getVersion ∧ P (.getCapabilities v) ∧ P (.negotiateAlgorithms x) ∧ P .getDigests ∧ P (.getCertificate c a n) ∧ P (.challenge c n) ∧
      P (.getMeasurements i) ∧ P (.heartbeat i) ∧ P (.keyUpdate i) ∧ P (.unsupportedSpdmRequest c)
    let gives (j : Instr) (r : SpdmReply) : Prop := exec j s = .next { s with spdm := { d with replies := d.replies ++ [r] } }
    let chain (c : Nat) : List Byte := Config.chain c (mapGet 0#256 d.measurements 2)
    let key (c : Nat) : BitVec 256 := if c = 0 then Config.identityKey else Config.aliasKey (mapGet 0#256 d.measurements 2)
    (d.on = false → all (fun j => exec j s = .next s)) ∧
    (d.on = true →
      gives .getVersion .version ∧ gives (.unsupportedSpdmRequest c) (.error 7) ∧ gives .getDigests (.digests [Config.sm3 (chain 0), Config.sm3 (chain 1)]) ∧
      gives (.getCapabilities v) (if v = 0x12 ∨ v = 0x13 then .capabilities else .error 0x41) ∧
      gives (.getCertificate c a n) (if c < 2 then .certificate c (((chain c).drop a).take n) else .error 1) ∧
      gives (.challenge c n) (if c < 2 then .challengeAuth c (Config.sm2Sign (key c) (leBytes 32 n)) else .error 1) ∧
      (i = 0xFF → gives (.getMeasurements i) (.measurements d.measurements)) ∧
      (i ≠ 0xFF → mapFind d.measurements i = none → gives (.getMeasurements i) (.error 1)) ∧
      (∀ y, i ≠ 0xFF → mapFind d.measurements i = some y → gives (.getMeasurements i) (.measurements [(i, y)])) ∧
      (let ok := x.sm2 && x.sm3 && x.sm4gcm
       exec (.negotiateAlgorithms x) s = .next { s with spdm := { d with negotiated := ok, replies := d.replies ++ [.algorithms ok] } }) ∧
      (let open_ : Prop := ∃ y, mapFind d.sessions i = some y ∧ y.up = true
       (¬open_ → gives (.heartbeat i) (.error 2) ∧ gives (.keyUpdate i) (.error 2)) ∧
       ∀ y, mapFind d.sessions i = some y → y.up = true → gives (.heartbeat i) (.heartbeatAck i) ∧
         exec (.keyUpdate i) s = .next { s with spdm := { d with
           sessions := mapPut d.sessions i { y with generation := y.generation + 1 }, replies := d.replies ++ [.keyUpdateAck i] } } ∧
         ∃ t, exec (.endSession i) s = .next t ∧ t = { s with spdm := t.spdm, owners := t.owners } ∧ mapFind t.spdm.sessions i = none ∧
           t.spdm.replies = d.replies ++ [.endSessionAck i] ∧ ∀ o w, mapFind s.owners o = some w → w.session = some i → (t.ownerAt o).session = none) ∧
      (let bound : Prop := ∀ o, p = some o → o < 48 ∧ (s.ownerAt o).live = true
       ∃ t, exec (.keyExchange c p) s = .next t ∧ t = { s with spdm := t.spdm, openTick := s.openTick + 1, nextId := s.nextId + 1 } ∧
         (d.negotiated = false → t.spdm.replies = d.replies ++ [.error 4] ∧ t.spdm.sessions = d.sessions) ∧
         (d.negotiated = true → 2 ≤ c ∨ ¬bound → t.spdm.replies = d.replies ++ [.error 1] ∧ t.spdm.sessions = d.sessions) ∧
         (d.negotiated = true → c < 2 → bound → mapFind t.spdm.sessions s.nextId = some ⟨false, p, 0⟩ ∧
           t.spdm.replies = d.replies ++ [.keyExchangeRsp s.nextId (Config.random s.openTick)
             (Config.sm2Sign (key c) (leBytes 4 s.nextId ++ leBytes 32 (Config.random s.openTick).toNat))])) ∧
      (mapFind d.sessions i = none → gives (.finish i m) (.error 2)) ∧
      (∀ y, mapFind d.sessions i = some y →
        (∃ t, exec (.finish i false) s = .next t ∧ mapFind t.spdm.sessions i = none ∧ t.spdm.replies = d.replies ++ [.error 1] ∧ t.owners = s.owners) ∧
        ∃ t, exec (.finish i true) s = .next t ∧ t = { s with spdm := t.spdm, owners := t.owners } ∧ mapFind t.spdm.sessions i = some { y with up := true } ∧
          t.spdm.replies = d.replies ++ [.finishRsp i] ∧ (y.partition = none → t.owners = s.owners) ∧ ∀ o, y.partition = some o → (t.ownerAt o).session = some i))) ∧
  (∀ (s : State) (r : BringUp),
    let ok : Prop := r.signature = true ∧ r.training = true ∧ r.sys.kind = .sys ∧ recWellFormed r.sys = true ∧ s.fits r.sys = true
    (s.powered = true → exec (.powerGood r) s = .next s) ∧
    (s.powered = false → ¬ok → exec (.powerGood r) s = .next { s with boxFrozen := true }) ∧
    (s.powered = false → ok → ∃ t, exec (.powerGood r) s = .next t ∧ t.powered = true ∧ t.spdm.on = true ∧ t.islands = (List.range 32).map (fun i => (i, { tick := s.now })) ∧
      (∀ n, rankOf r.ports = some n → t.inDomain = true ∧ t.rank = n) ∧ (rankOf r.ports = none → t.inDomain = false) ∧ (t.ownerAt 63).live = true ∧ (t.ownerAt 63).part = some r.sys ∧
      (t.ownerAt 63).heldOn = [] ∧ (∃ p ∈ t.agenda, p.ev = .meltUpdate) ∧ (∃ p ∈ t.agenda, p.ev = .railEpoch) ∧ t.groups = s.groups ∧ t.hostMem = s.hostMem ∧ t.box = s.box)) ∧
  ∀ s : State, exec .warmReset s = .next { State.reset with
    box := s.box, boxFrozen := s.boxFrozen, hostMem := s.hostMem, now := s.now, inbox := s.inbox, openTick := s.openTick, nextId := s.nextId }

/-! ### The machine as a whole (R10, R13, R16, R21, R40, R42, R147, R329, R332, R428) -/

/-- R10, R16, R40, R147: a window's word is fetched at the group's PC through its leases; one that faults or does not decode traps, and one that decodes is executed,
after its charge (R427) and with what follows any action. With no window running, consequences of endings come first, then what arrives from outside, then
what is due, then the lanes of the window that has begun, then the islands that stand at a window's first cycle, and else time passes. A deferred trap that is
due comes before the first word. That a step is one action, and the order of those that fall in one cycle, is the model's choice (log 1). -/
def Obligations.StepRunsDecoded : Prop :=
  (∀ (s : State) (second : Bool), s.turn = .issue second →
    let g := s.grp
    (second = false → g.hint = none → g.dueRecord s.win ≠ none → step s = .next s.deliverTrap.closed) ∧
    ((second = true ∨ g.hint ≠ none ∨ g.dueRecord s.win = none) → g.pc.toNat < 0x00F0000000000000 →
      let place := s.translate (some g.core) (s.launchAt g.launch).leases g.owner g.pc.toNat 4 wantFetch
      (∀ c, place = .error c → step s = .next (s.trap (memTrap g.running 2 c (g.pc.setWidth 64))).closed) ∧
      ∀ x, place = .ok x →
        let w := BitVec.ofNat 32 (ofBytes (s.bytes x.pa 4))
        let r := (s.setLeaf g.owner x).fillL2 g.owner x.pa 0#2
        (∀ e, decode w = .error e → step s = .next (r.trap (r.badWord e w)).closed) ∧
        (∀ i c, decode w = .ok i → stateReason g i = some c → step s = .next (r.trap (encTrap g c w)).closed) ∧
        (∀ i, decode w = .ok i → stateReason g i = none → step s = andThen (exec i (r.charge i)) (r.afterIssue second i)))) ∧
  (∀ s : State, s.turn = .free →
    let waits : Prop := ∀ e es, s.inbox = e :: es → s.waitsOutside e = true
    (s.unsettled ≠ [] → step s = .next s.settle) ∧
    (s.unsettled = [] →
      (∀ e es, s.inbox = e :: es → s.waitsOutside e = false → step s = andThen (exec e { s with inbox := es }) State.tidy) ∧
      (∀ p, waits → s.nextDue = some p → step s = andThen (exec p.ev { s with agenda := s.agenda.erase p }) State.tidy) ∧
      (waits → s.nextDue = none →
        (∀ k ks, s.lanesLeft = k :: ks → step s = .next (State.serveLane { s with lanesLeft := ks } k)) ∧
        (s.lanesLeft = [] → (∀ i is, s.boundary = i :: is → step s = .next (s.atBoundary i)) ∧ (s.boundary = [] → step s = .next s.advance)))))

/-- R21, R24, R40: the word of a well-formed instruction decodes to it, and whatever a word decodes to is well-formed and has a word of its own that decodes
to it. -/
def Obligations.EncodeDecodeRoundTrip : Prop :=
  (∀ i w, i.wf = true → encode i = some w → decode w = .ok i) ∧
  (∀ w i, decode w = .ok i → i.wf = true ∧ ∃ v, encode i = some v ∧ decode v = .ok i)

/-- R8, R13, R413, R428: after reset nothing has power, no owner, launch, workgroup or group exists, nothing is due, waited for or in flight, no pass, switch, move or
transfer is under way, the device takes part in no domain and no link has carried anything, and the recorder runs. That every byte of memory reads as 0 is the
model's own choice (DESIGN CHOICE, log 4). -/
def Obligations.ResetState : Prop :=
  State.reset.sound ∧ State.reset.powered = false ∧ State.reset.turn = .free ∧ (∀ o, (State.reset.ownerAt o).live = false) ∧
  (∀ k, (State.reset.groupAt k).live = false) ∧ (∀ k, (State.reset.launchAt k).groups = 0) ∧ (∀ k, (State.reset.wgAt k).live = false) ∧
  State.reset.agenda = [] ∧ State.reset.ops = [] ∧ State.reset.engs = [] ∧ State.reset.nets = [] ∧ State.reset.waits = [] ∧ State.reset.heldMsgs = [] ∧
  State.reset.queues = [] ∧ State.reset.passes = [] ∧ State.reset.tileOps = [] ∧ State.reset.switches = [] ∧ State.reset.toBegin = [] ∧ State.reset.borders = [] ∧
  State.reset.moves = [] ∧ State.reset.transfers = [] ∧ State.reset.swapped = [] ∧ State.reset.inDomain = false ∧
  State.reset.fabric.packets = [] ∧ State.reset.fabric.links = [] ∧ State.reset.fabric.ways = [] ∧ State.reset.box = [] ∧ State.reset.boxFrozen = false ∧
  State.reset.spdm.on = false ∧ (∀ a, State.reset.byte a = 0#8) ∧ step State.reset = .next { State.reset with now := 1 }

/-- R419: every step keeps memory in its canonical form and the recorder at no more than 4,096 records, and leaves a frozen recorder as it is. -/
def Obligations.StepKeepsSound : Prop :=
  ∀ s t : State, s.sound → step s = .next t → t.sound ∧ (s.boxFrozen = true → t.boxFrozen = true ∧ t.box = s.box)

/-- Worked words of the spec, one or more of each family, decode to what the spec prints beside them; words that break a rule of their chapter give its reason. -/
def Obligations.DecodeWords : Prop :=
  decode 0x01E208A8#32 = .ok (.add true ⟨7#3, false⟩ 8#6 8#6 (.imm 40#6)) ∧
  decode 0x36E484A8#32 = .ok (.cmpN32 false ⟨7#3, false⟩ .lt 2#3 4#6 (.imm 40#6)) ∧
  decode 0x31E1420A#32 = .ok (.lea true ⟨7#3, false⟩ 2#5 2#2 1#5 (.own 10#6)) ∧
  decode 0x28E2850A#32 = .ok (.sxtI32 false ⟨7#3, false⟩ 10#6 5#6) ∧
  decode 0x38E64200#32 = .ok (.pnot false ⟨7#3, false⟩ 1#3 2#3) ∧
  decode 0x54E20202#32 = .ok (.ldGlbB128 false ⟨7#3, false⟩ 8#6 2#6 2#3) ∧
  decode 0x5A71C403#32 = .ok (.stGlbB32 false ⟨3#3, true⟩ 7#6 4#6 3#3) ∧
  decode 0x49E0FFFF#32 = .ok (.wait ⟨7#3, false⟩ 0#4 15#4 15#4 15#4 15#4) ∧
  decode 0x47E10406#32 = .ok (.gets true ⟨7#3, false⟩ 4#6 .ownerCyc) ∧
  decode 0x47200004#32 = .ok (.brk ⟨1#3, false⟩) ∧
  decode 0x64E083F0#32 = .ok (.fmul false ⟨7#3, false⟩ 2#6 3#6 (.const 16#5)) ∧
  decode 0x6CE18217#32 = .ok (.sincospi false ⟨7#3, false⟩ 6#6 2#6) ∧
  decode 0x70E0C40B#32 = .ok (.icvtf false ⟨7#3, false⟩ 3#6 4#6 .f32 .i64) ∧
  decode 0x76E28BC5#32 = .ok (.hfma2 ⟨7#3, false⟩ 10#6 11#6 true true 5#6) ∧
  decode 0x80E16100#32 = .ok (.voteCount ⟨7#3, false⟩ 5#6 1#3) ∧
  decode 0x82E0C229#32 = .ok (.shflAt ⟨7#3, false⟩ 3#6 2#6 true 9#5) ∧
  decode 0x8FE300DF#32 = .ok (.joinArmRun ⟨7#3, false⟩ 1#3 (.neg 31#5)) ∧
  decode 0xA1E18460#32 = .ok (.scopedLdGlbB32 true ⟨7#3, false⟩ 6#6 4#6 .acq .dev 0#3) ∧
  decode 0xB4E202E3#32 = .ok (.atomCasB64 false ⟨7#3, false⟩ 8#6 2#6 .ar .dev) ∧
  decode 0xBDE0C302#32 = .ok (.barSync ⟨7#3, false⟩ 3#4 3#6) ∧
  decode 0xC1E15028#32 = .ok (.cpInObuf ⟨7#3, false⟩ 1#4 16#6 2#4 true) ∧
  decode 0xCAE0C84A#32 = .ok (.mma ⟨7#3, false⟩ 3#6 8#6 10#6) ∧
  decode 0xD9E808A8#32 = .ok (.deq ⟨7#3, false⟩ 32#6 1#3 (.imm 40#6)) ∧
  decode 0xF1EA0581#32 = .ok (.nctrAdd ⟨7#3, false⟩ .rel .dev 5#6 (.imm 1#6)) ∧
  decode 0xFBEA2078#32 = .ok (.treeRed ⟨7#3, false⟩ 40#6 32#6 7#3 .faddF32) ∧
  decode 0xE1E4402A#32 = .ok (.sets ⟨7#3, false⟩ .trapPc (.own 42#6)) ∧
  decode 0xE9E10621#32 = .ok (.leaseReq ⟨7#3, false⟩ 4#6 6#6 2#2 1#3) ∧
  decode 0xFEC00014#32 = .ok (.hintType true 1#2 0#2) ∧
  decode 0x0DE20305#32 = .error .field ∧ decode 0x81E10200#32 = .error .uOne ∧ decode 0x8EE300DF#32 = .error .uZero ∧
  decode 0xE1E10004#32 = .error .sreg ∧ decode 0x3E000000#32 = .error .unassigned
end

