-- ==== Sys2Proof/Laws/FMap.lean ====
section
/-! SUPPORT. Laws of the sparse tables: what a read gives after a write, and that writes keep the canonical form. -/

namespace Sys2Proof.Machine

variable {α : Type}

@[simp] theorem mapGet_nil (d : α) (k : Nat) : mapGet d [] k = d := rfl

@[simp] theorem mapFind_nil (k : Nat) : mapFind ([] : FMap α) k = none := rfl

theorem mapGet_mapPut (d : α) (m : FMap α) (k : Nat) (v : α) (x : Nat) :
    mapGet d (mapPut m k v) x = if x = k then v else mapGet d m x := by
  induction m with
  | nil => simp [mapPut, mapGet, eq_comm]
  | cons p m ih =>
    obtain ⟨j, w⟩ := p
    simp only [mapPut]
    split_ifs <;> simp_all [mapGet] <;> split_ifs <;> first | omega | simp_all

@[simp] theorem mapGet_mapPut_same (d : α) (m : FMap α) (k : Nat) (v : α) : mapGet d (mapPut m k v) k = v := by
  simp [mapGet_mapPut]

theorem mapGet_mapPut_ne (d : α) (m : FMap α) {k x : Nat} (v : α) (h : x ≠ k) :
    mapGet d (mapPut m k v) x = mapGet d m x := by
  simp [mapGet_mapPut, h]

theorem mapFind_mapPut (m : FMap α) (k : Nat) (v : α) (x : Nat) :
    mapFind (mapPut m k v) x = if x = k then some v else mapFind m x := by
  induction m with
  | nil => simp [mapPut, mapFind, eq_comm]
  | cons p m ih =>
    obtain ⟨j, w⟩ := p
    simp only [mapPut]
    split_ifs <;> simp_all [mapFind] <;> split_ifs <;> first | omega | simp_all

@[simp] theorem mapFind_mapPut_same (m : FMap α) (k : Nat) (v : α) : mapFind (mapPut m k v) k = some v := by
  simp [mapFind_mapPut]

theorem mapGet_of_mapFind (d : α) (m : FMap α) (k : Nat) : mapGet d m k = (mapFind m k).getD d := by
  induction m with
  | nil => rfl
  | cons p m ih =>
    obtain ⟨j, w⟩ := p
    simp only [mapGet, mapFind]
    split_ifs <;> simp [ih]

/-- What stands at a key after a change of every entry: the changed entry, or what stood there where there is none. -/
theorem mapGet_mapAll (f : α → α) (d : α) (m : FMap α) (k : Nat) : mapGet d (mapAll f m) k = f (mapGet d m k) ∨ mapGet d (mapAll f m) k = mapGet d m k := by
  induction m with
  | nil => exact .inr rfl
  | cons p m ih =>
    obtain ⟨j, v⟩ := p
    by_cases h : j = k
    · exact .inl (by simp [mapAll, mapGet, h])
    · simpa [mapAll, mapGet, h] using ih

theorem mapGet_mapErase (d : α) (m : FMap α) (k x : Nat) :
    mapGet d (mapErase m k) x = if x = k then d else mapGet d m x := by
  induction m with
  | nil => simp [mapErase]
  | cons p m ih =>
    obtain ⟨j, w⟩ := p
    simp only [mapErase]
    by_cases h1 : j = k
    · subst h1
      rw [if_pos rfl, ih]
      simp only [mapGet]
      split_ifs <;> first | rfl | omega
    · rw [if_neg h1]
      simp only [mapGet, ih]
      split_ifs <;> first | rfl | omega

/-- A read after a write: the value at its key, everything else as before. -/
theorem mapGet_mapSet [DecidableEq α] (d : α) (m : FMap α) (k : Nat) (v : α) (x : Nat) :
    mapGet d (mapSet d m k v) x = if x = k then v else mapGet d m x := by
  unfold mapSet
  split_ifs <;> simp_all [mapGet_mapErase, mapGet_mapPut]

@[simp] theorem mapGet_mapSet_same [DecidableEq α] (d : α) (m : FMap α) (k : Nat) (v : α) :
    mapGet d (mapSet d m k v) k = v := by
  simp [mapGet_mapSet]

theorem mapGet_mapSet_ne [DecidableEq α] (d : α) (m : FMap α) {k x : Nat} (v : α) (h : x ≠ k) :
    mapGet d (mapSet d m k v) x = mapGet d m x := by
  simp [mapGet_mapSet, h]

/-! ### The canonical form -/

/-- Every key of a table is above a bound. -/
def mapAbove (b : Nat) (m : FMap α) : Prop := ∀ p ∈ m, b < p.1

theorem mapSorted_cons {p : Nat × α} {m : FMap α} : mapSorted (p :: m) = true ↔ mapAbove p.1 m ∧ mapSorted m = true := by
  induction m generalizing p with
  | nil => simp [mapSorted, mapAbove]
  | cons q m ih =>
    have hq := @ih q
    simp only [mapSorted, Bool.and_eq_true, decide_eq_true_eq] at *
    simp only [mapAbove, List.forall_mem_cons] at *
    constructor
    · rintro ⟨h1, h2, h3⟩
      have := hq.1 ⟨h2, h3⟩
      exact ⟨⟨h1, fun x hx => lt_trans h1 (this.1 x hx)⟩, h2, h3⟩
    · rintro ⟨⟨h1, -⟩, h2⟩
      exact ⟨h1, h2⟩

theorem mapErase_subset (m : FMap α) (k : Nat) {p : Nat × α} (h : p ∈ mapErase m k) : p ∈ m ∧ p.1 ≠ k := by
  induction m with
  | nil => simp [mapErase] at h
  | cons q m ih =>
    obtain ⟨j, w⟩ := q
    simp only [mapErase] at h
    split_ifs at h with hj
    · exact ⟨List.mem_cons_of_mem _ (ih h).1, (ih h).2⟩
    · rcases List.mem_cons.1 h with rfl | h
      · exact ⟨by simp, hj⟩
      · exact ⟨List.mem_cons_of_mem _ (ih h).1, (ih h).2⟩

theorem mapSorted_mapErase {m : FMap α} (h : mapSorted m = true) (k : Nat) : mapSorted (mapErase m k) = true := by
  induction m with
  | nil => rfl
  | cons q m ih =>
    obtain ⟨j, w⟩ := q
    rw [mapSorted_cons] at h
    simp only [mapErase]
    split_ifs
    · exact ih h.2
    · rw [mapSorted_cons]
      exact ⟨fun p hp => h.1 p (mapErase_subset m k hp).1, ih h.2⟩

theorem mapPut_mem {m : FMap α} {k : Nat} {v : α} {p : Nat × α} (h : p ∈ mapPut m k v) : p = (k, v) ∨ p ∈ m := by
  induction m with
  | nil => simpa [mapPut] using h
  | cons q m ih =>
    obtain ⟨j, w⟩ := q
    simp only [mapPut] at h
    split_ifs at h
    · simpa using h
    · simp only [List.mem_cons] at *; tauto
    · simp only [List.mem_cons] at *
      rcases h with h | h
      · exact .inr (.inl h)
      · rcases ih h with h | h
        · exact .inl h
        · exact .inr (.inr h)

theorem mapSorted_mapPut {m : FMap α} (h : mapSorted m = true) (k : Nat) (v : α) : mapSorted (mapPut m k v) = true := by
  induction m with
  | nil => rfl
  | cons q m ih =>
    obtain ⟨j, w⟩ := q
    have hc := mapSorted_cons.1 h
    simp only [mapPut]
    split_ifs with h1 h2
    · rw [mapSorted_cons]
      refine ⟨fun p hp => ?_, h⟩
      rcases List.mem_cons.1 hp with rfl | hp
      · exact h1
      · exact lt_trans h1 (hc.1 p hp)
    · subst h2
      rw [mapSorted_cons]
      exact ⟨hc.1, hc.2⟩
    · rw [mapSorted_cons]
      refine ⟨fun p hp => ?_, ih hc.2⟩
      rcases mapPut_mem hp with rfl | hp
      · simp only; omega
      · exact hc.1 p hp

theorem mapWf_iff [DecidableEq α] (d : α) (m : FMap α) : mapWf d m = true ↔ mapSorted m = true ∧ ∀ p ∈ m, p.2 ≠ d := by
  simp [mapWf, List.all_eq_true]

/-- Writing keeps the canonical form. -/
theorem mapWf_mapSet [DecidableEq α] {d : α} {m : FMap α} (h : mapWf d m = true) (k : Nat) (v : α) :
    mapWf d (mapSet d m k v) = true := by
  rw [mapWf_iff] at *
  unfold mapSet
  split_ifs with hv
  · exact ⟨mapSorted_mapErase h.1 k, fun p hp => h.2 p (mapErase_subset m k hp).1⟩
  · refine ⟨mapSorted_mapPut h.1 k v, fun p hp => ?_⟩
    rcases mapPut_mem hp with rfl | hp
    · exact hv
    · exact h.2 p hp

theorem mapWf_filter [DecidableEq α] {d : α} {m : FMap α} (h : mapWf d m = true) (f : Nat × α → Bool) :
    mapWf d (m.filter f) = true := by
  rw [mapWf_iff] at *
  refine ⟨?_, fun p hp => h.2 p (List.mem_filter.1 hp).1⟩
  have hs := h.1
  clear h
  induction m with
  | nil => rfl
  | cons q m ih =>
    have hc := mapSorted_cons.1 hs
    simp only [List.filter_cons]
    split_ifs
    · rw [mapSorted_cons]
      exact ⟨fun p hp => hc.1 p (List.mem_filter.1 hp).1, ih hc.2⟩
    · exact ih hc.2

theorem mapGet_of_above (d : α) {m : FMap α} {b k : Nat} (h : mapAbove b m) (hk : k ≤ b) : mapGet d m k = d := by
  induction m with
  | nil => rfl
  | cons q m ih =>
    obtain ⟨j, w⟩ := q
    have hj := h (j, w) (by simp)
    simp only [mapGet]
    rw [if_neg (by simp only at hj; omega)]
    exact ih (fun p hp => h p (List.mem_cons_of_mem _ hp))

/-- Two canonical tables that read alike are the same table. -/
theorem mapWf_ext [DecidableEq α] {d : α} {m m' : FMap α} (h : mapWf d m = true) (h' : mapWf d m' = true)
    (hg : ∀ k, mapGet d m k = mapGet d m' k) : m = m' := by
  rw [mapWf_iff] at h h'
  induction m generalizing m' with
  | nil =>
    cases m' with
    | nil => rfl
    | cons q m' =>
      exact absurd (by simpa [mapGet] using (hg q.1).symm) (h'.2 q (by simp))
  | cons p m ih =>
    cases m' with
    | nil => exact absurd (by simpa [mapGet] using hg p.1) (h.2 p (by simp))
    | cons q m' =>
      obtain ⟨j, v⟩ := p
      obtain ⟨k, w⟩ := q
      have hp := mapSorted_cons.1 h.1
      have hq := mapSorted_cons.1 h'.1
      have hjk : j = k := by
        rcases lt_trichotomy j k with hlt | heq | hlt
        · have := hg j
          simp only [mapGet, if_neg (Nat.ne_of_gt hlt), if_true] at this
          rw [mapGet_of_above d hq.1 (le_of_lt hlt)] at this
          exact absurd this (h.2 (j, v) (by simp))
        · exact heq
        · have := hg k
          simp only [mapGet, if_neg (Nat.ne_of_gt hlt), if_true] at this
          rw [mapGet_of_above d hp.1 (le_of_lt hlt)] at this
          exact absurd this.symm (h'.2 (k, w) (by simp))
      subst hjk
      have hvw : v = w := by simpa [mapGet] using hg j
      subst hvw
      congr 1
      refine ih ⟨hp.2, fun p hp' => h.2 p (List.mem_cons_of_mem _ hp')⟩ ⟨hq.2, fun p hp' => h'.2 p (List.mem_cons_of_mem _ hp')⟩ (fun x => ?_)
      by_cases hx : x = j
      · subst hx
        rw [mapGet_of_above d hp.1 (le_refl _), mapGet_of_above d hq.1 (le_refl _)]
      · have := hg x
        simpa [mapGet, Ne.symm hx] using this

end Sys2Proof.Machine
end

