-- ==== Sys2Proof/Laws/Memory.lean ====
section
/-! SUPPORT. Laws of memory: what a byte reads as after a write, that a write keeps the canonical form, and the two ways in which an
operation built from others keeps it. -/

namespace Sys2Proof.Machine

theorem putBytes_get (m : FMap Byte) (a : Nat) (bs : List Byte) (x : Nat) :
    mapGet 0#8 (putBytes m a bs) x = if a ≤ x ∧ x < a + bs.length then bs.getD (x - a) 0#8 else mapGet 0#8 m x := by
  induction bs generalizing m a with
  | nil => simp [putBytes]
  | cons b bs ih =>
    simp only [putBytes, ih, mapGet_mapSet, List.length_cons]
    by_cases h1 : x = a
    · subst h1
      simp
    · by_cases h2 : a + 1 ≤ x ∧ x < a + 1 + bs.length
      · have e : x - a = (x - (a + 1)) + 1 := by omega
        rw [if_pos h2, if_pos (by omega), e, List.getD_cons_succ]
      · rw [if_neg h2, if_neg h1, if_neg (by omega)]

theorem putBytes_wf {m : FMap Byte} (h : mapWf 0#8 m = true) (a : Nat) (bs : List Byte) :
    mapWf 0#8 (putBytes m a bs) = true := by
  induction bs generalizing m a with
  | nil => exact h
  | cons b bs ih => exact ih (mapWf_mapSet h a b) _

/-- A byte after a write of memory: the byte written where the write covers its address, and else what it was. -/
theorem State.putMem_byte (s : State) (a : Nat) (bs : List Byte) (x : Nat) :
    (s.putMem a bs).byte x = if a ≤ x ∧ x < a + bs.length then bs.getD (x - a) 0#8 else s.byte x :=
  putBytes_get _ _ _ _

/-- A write of memory keeps its canonical form. -/
theorem State.putMem_memOk {s : State} (hs : s.memOk) (a : Nat) (bs : List Byte) : (s.putMem a bs).memOk :=
  putBytes_wf hs a bs

/-- What every operation keeps: a sound state, and the records of a black box that has frozen (R419). -/
abbrev State.keeps (bx : Option (List BoxRec)) (s : State) : Prop := s.sound ∧ ∀ x ∈ bx, s.boxFrozen = true ∧ s.box = x

variable {bx : Option (List BoxRec)}

theorem State.putMem_kept {s : State} (hs : s.keeps bx) (a : Nat) (bs : List Byte) : (s.putMem a bs).keeps bx :=
  ⟨⟨putBytes_wf hs.1.1 a bs, hs.1.2⟩, hs.2⟩

/-- A record put in the black box pushes out the oldest of more than 4,096 (R419). -/
theorem State.boxPut_kept {s : State} (hs : s.keeps bx) (r : BoxRec) : (s.boxPut r).keeps bx := by
  unfold State.boxPut
  split
  · exact hs
  · rename_i h
    refine ⟨⟨hs.1.1, ?_⟩, fun x hx => absurd (hs.2 x hx).1 h⟩
    simp only [List.length_drop, List.length_append, List.length_cons, List.length_nil]
    omega

theorem State.freezeBox_kept {s : State} (hs : s.keeps bx) : s.freezeBox.keeps bx :=
  ⟨hs.1, fun x hx => ⟨rfl, (hs.2 x hx).2⟩⟩

/-- Two states with canonical memories that read alike hold the same memory. -/
theorem State.mem_ext {s t : State} (hs : s.memOk) (ht : t.memOk) (h : ∀ a, s.byte a = t.byte a) : s.mem = t.mem :=
  mapWf_ext hs ht h

theorem ends_next {t : State} {P : State → Prop} (h : P t) : Ends (.next t) P := h

theorem ends_fault (r : Fault) {P : State → Prop} : Ends (.fault r) P := trivial

theorem ends_refused (r : Refusal) {P : State → Prop} : Ends (.refused r) P := trivial

theorem foldl_kept {β : Type} (f : State → β → State) (xs : List β) {s : State} (hs : s.keeps bx)
    (hf : ∀ s b, s.keeps bx → (f s b).keeps bx) : (xs.foldl f s).keeps bx := by
  induction xs generalizing s with
  | nil => exact hs
  | cons x xs ih => exact ih (hf s x hs)

theorem foldl_kept_snd {α β : Type} (f : α × State → β → α × State) (xs : List β) {a : α × State} (ha : a.2.keeps bx)
    (hf : ∀ a b, a.2.keeps bx → (f a b).2.keeps bx) : (xs.foldl f a).2.keeps bx := by
  induction xs generalizing a with
  | nil => exact ha
  | cons x xs ih => exact ih (hf a x ha)

theorem foldl_kept_fst {α β : Type} (f : State × α → β → State × α) (xs : List β) {a : State × α} (ha : a.1.keeps bx)
    (hf : ∀ a b, a.1.keeps bx → (f a b).1.keeps bx) : (xs.foldl f a).1.keeps bx := by
  induction xs generalizing a with
  | nil => exact ha
  | cons x xs ih => exact ih (hf a x ha)

theorem getD_kept {o : Option State} {s : State} (hs : s.keeps bx) (ho : ∀ t, o = some t → t.keeps bx) : (o.getD s).keeps bx := by
  cases o with
  | none => exact hs
  | some t => exact ho t rfl

theorem andThen_kept {r : Res} {f : State → State} (hr : Ends r (State.keeps bx)) (hf : ∀ t, t.keeps bx → (f t).keeps bx) :
    Ends (andThen r f) (State.keeps bx) := by
  cases r with
  | next t => exact hf t hr
  | fault x => trivial
  | refused x => trivial

end Sys2Proof.Machine
end

