-- ==== Sys2Proof/Laws/State.lean ====
section
/-! SUPPORT. One lemma per field of the state and of a group for each of their updates. -/

namespace Sys2Proof.Machine

/-! ### Reading back -/

@[simp] theorem State.setGrp_grp (s : State) (g : Group) : (s.setGrp g).grp = g := mapGet_mapPut_same _ _ _ _

theorem State.setGrp_groupAt (s : State) (g : Group) (k : Nat) : (s.setGrp g).groupAt k = if k = s.cur then g else s.groupAt k :=
  mapGet_mapPut _ _ _ _ _

theorem State.setGroupAt_groupAt (s : State) (j : Nat) (g : Group) (k : Nat) :
    (s.setGroupAt j g).groupAt k = if k = j then g else s.groupAt k :=
  mapGet_mapPut _ _ _ _ _

theorem State.setOwner_ownerAt (s : State) (j : Nat) (x : Owner) (k : Nat) :
    (s.setOwner j x).ownerAt k = if k = j then x else s.ownerAt k :=
  mapGet_mapPut _ _ _ _ _

theorem State.setWg_wgAt (s : State) (j : Nat) (x : Workgroup) (k : Nat) : (s.setWg j x).wgAt k = if k = j then x else s.wgAt k :=
  mapGet_mapPut _ _ _ _ _

theorem State.setLaunch_launchAt (s : State) (j : Nat) (x : Launch) (k : Nat) :
    (s.setLaunch j x).launchAt k = if k = j then x else s.launchAt k :=
  mapGet_mapPut _ _ _ _ _

theorem State.setIsland_islandAt (s : State) (j : Nat) (x : Island) (k : Nat) :
    (s.setIsland j x).islandAt k = if k = j then x else s.islandAt k :=
  mapGet_mapPut _ _ _ _ _

@[simp] theorem State.setGrp_byte (s : State) (g : Group) (a : Nat) : (s.setGrp g).byte a = s.byte a := rfl

theorem Group.setV_getV (g : Group) (r r' : Reg) (t x : Nat) (w : Word) (ht : t < 32) (hx : x < 32) :
    (g.setV r t w).getV r' x = if r' = r ∧ x = t then w else g.getV r' x := by
  have e : regKey r' x = regKey r t ↔ r' = r ∧ x = t := by
    unfold regKey
    constructor
    · intro h
      exact ⟨BitVec.eq_of_toNat_eq (by omega), by omega⟩
    · rintro ⟨rfl, rfl⟩
      rfl
  simp only [Group.getV, Group.setV, mapGet_mapSet, e]

theorem Group.setG_getG (g : Group) (r r' : Reg) (w : Word) : (g.setG r w).getG r' = if r' = r then w else g.getG r' := by
  have e : r'.toNat = r.toNat ↔ r' = r := ⟨fun h => BitVec.eq_of_toNat_eq h, fun h => by rw [h]⟩
  simp only [Group.getG, Group.setG, mapGet_mapSet, e]

@[simp] theorem Group.setV_getG (g : Group) (r r' : Reg) (t : Nat) (w : Word) : (g.setV r t w).getG r' = g.getG r' := rfl

@[simp] theorem Group.setG_getV (g : Group) (r r' : Reg) (t : Nat) (w : Word) : (g.setG r w).getV r' t = g.getV r' t := rfl

/-! ### The state -/

@[simp] theorem State.setGrp_powered (s : State) (g : Group) : (s.setGrp g).powered = s.powered := rfl
@[simp] theorem State.setGrp_rank (s : State) (g : Group) : (s.setGrp g).rank = s.rank := rfl
@[simp] theorem State.setGrp_inDomain (s : State) (g : Group) : (s.setGrp g).inDomain = s.inDomain := rfl
@[simp] theorem State.setGrp_now (s : State) (g : Group) : (s.setGrp g).now = s.now := rfl
@[simp] theorem State.setGrp_turn (s : State) (g : Group) : (s.setGrp g).turn = s.turn := rfl
@[simp] theorem State.setGrp_cur (s : State) (g : Group) : (s.setGrp g).cur = s.cur := rfl
@[simp] theorem State.setGrp_inbox (s : State) (g : Group) : (s.setGrp g).inbox = s.inbox := rfl
@[simp] theorem State.setGrp_agenda (s : State) (g : Group) : (s.setGrp g).agenda = s.agenda := rfl
@[simp] theorem State.setGrp_lanesLeft (s : State) (g : Group) : (s.setGrp g).lanesLeft = s.lanesLeft := rfl
@[simp] theorem State.setGrp_openTick (s : State) (g : Group) : (s.setGrp g).openTick = s.openTick := rfl
@[simp] theorem State.setGrp_opens (s : State) (g : Group) : (s.setGrp g).opens = s.opens := rfl
@[simp] theorem State.setGrp_nextId (s : State) (g : Group) : (s.setGrp g).nextId = s.nextId := rfl
@[simp] theorem State.setGrp_issueSerial (s : State) (g : Group) : (s.setGrp g).issueSerial = s.issueSerial := rfl
@[simp] theorem State.setGrp_owners (s : State) (g : Group) : (s.setGrp g).owners = s.owners := rfl
@[simp] theorem State.setGrp_islands (s : State) (g : Group) : (s.setGrp g).islands = s.islands := rfl
@[simp] theorem State.setGrp_rota (s : State) (g : Group) : (s.setGrp g).rota = s.rota := rfl
@[simp] theorem State.setGrp_launches (s : State) (g : Group) : (s.setGrp g).launches = s.launches := rfl
@[simp] theorem State.setGrp_wgs (s : State) (g : Group) : (s.setGrp g).wgs = s.wgs := rfl
@[simp] theorem State.setGrp_ops (s : State) (g : Group) : (s.setGrp g).ops = s.ops := rfl
@[simp] theorem State.setGrp_engs (s : State) (g : Group) : (s.setGrp g).engs = s.engs := rfl
@[simp] theorem State.setGrp_waits (s : State) (g : Group) : (s.setGrp g).waits = s.waits := rfl
@[simp] theorem State.setGrp_nets (s : State) (g : Group) : (s.setGrp g).nets = s.nets := rfl
@[simp] theorem State.setGrp_heldMsgs (s : State) (g : Group) : (s.setGrp g).heldMsgs = s.heldMsgs := rfl
@[simp] theorem State.setGrp_chunks (s : State) (g : Group) : (s.setGrp g).chunks = s.chunks := rfl
@[simp] theorem State.setGrp_queues (s : State) (g : Group) : (s.setGrp g).queues = s.queues := rfl
@[simp] theorem State.setGrp_passes (s : State) (g : Group) : (s.setGrp g).passes = s.passes := rfl
@[simp] theorem State.setGrp_tileOps (s : State) (g : Group) : (s.setGrp g).tileOps = s.tileOps := rfl
@[simp] theorem State.setGrp_rsv (s : State) (g : Group) : (s.setGrp g).rsv = s.rsv := rfl
@[simp] theorem State.setGrp_rsvOld (s : State) (g : Group) : (s.setGrp g).rsvOld = s.rsvOld := rfl
@[simp] theorem State.setGrp_trec (s : State) (g : Group) : (s.setGrp g).trec = s.trec := rfl
@[simp] theorem State.setGrp_trecOld (s : State) (g : Group) : (s.setGrp g).trecOld = s.trecOld := rfl
@[simp] theorem State.setGrp_mem (s : State) (g : Group) : (s.setGrp g).mem = s.mem := rfl
@[simp] theorem State.setGrp_faulty (s : State) (g : Group) : (s.setGrp g).faulty = s.faulty := rfl
@[simp] theorem State.setGrp_checks (s : State) (g : Group) : (s.setGrp g).checks = s.checks := rfl
@[simp] theorem State.setGrp_scratch (s : State) (g : Group) : (s.setGrp g).scratch = s.scratch := rfl
@[simp] theorem State.setGrp_obuf (s : State) (g : Group) : (s.setGrp g).obuf = s.obuf := rfl
@[simp] theorem State.setGrp_scale (s : State) (g : Group) : (s.setGrp g).scale = s.scale := rfl
@[simp] theorem State.setGrp_acc (s : State) (g : Group) : (s.setGrp g).acc = s.acc := rfl
@[simp] theorem State.setGrp_engScr (s : State) (g : Group) : (s.setGrp g).engScr = s.engScr := rfl
@[simp] theorem State.setGrp_engObuf (s : State) (g : Group) : (s.setGrp g).engObuf = s.engObuf := rfl
@[simp] theorem State.setGrp_readHold (s : State) (g : Group) : (s.setGrp g).readHold = s.readHold := rfl
@[simp] theorem State.setGrp_l1 (s : State) (g : Group) : (s.setGrp g).l1 = s.l1 := rfl
@[simp] theorem State.setGrp_l2 (s : State) (g : Group) : (s.setGrp g).l2 = s.l2 := rfl
@[simp] theorem State.setGrp_tlb (s : State) (g : Group) : (s.setGrp g).tlb = s.tlb := rfl
@[simp] theorem State.setGrp_tables (s : State) (g : Group) : (s.setGrp g).tables = s.tables := rfl
@[simp] theorem State.setGrp_frames (s : State) (g : Group) : (s.setGrp g).frames = s.frames := rfl
@[simp] theorem State.setGrp_hostMem (s : State) (g : Group) : (s.setGrp g).hostMem = s.hostMem := rfl
@[simp] theorem State.setGrp_port (s : State) (g : Group) : (s.setGrp g).port = s.port := rfl
@[simp] theorem State.setGrp_box (s : State) (g : Group) : (s.setGrp g).box = s.box := rfl
@[simp] theorem State.setGrp_boxFrozen (s : State) (g : Group) : (s.setGrp g).boxFrozen = s.boxFrozen := rfl
@[simp] theorem State.setGrp_sensors (s : State) (g : Group) : (s.setGrp g).sensors = s.sensors := rfl
@[simp] theorem State.setGrp_meltSensor (s : State) (g : Group) : (s.setGrp g).meltSensor = s.meltSensor := rfl
@[simp] theorem State.setGrp_stacksHot (s : State) (g : Group) : (s.setGrp g).stacksHot = s.stacksHot := rfl
@[simp] theorem State.setGrp_siloDown (s : State) (g : Group) : (s.setGrp g).siloDown = s.siloDown := rfl
@[simp] theorem State.setGrp_migrations (s : State) (g : Group) : (s.setGrp g).migrations = s.migrations := rfl
@[simp] theorem State.setGrp_moves (s : State) (g : Group) : (s.setGrp g).moves = s.moves := rfl
@[simp] theorem State.setGrp_transfers (s : State) (g : Group) : (s.setGrp g).transfers = s.transfers := rfl
@[simp] theorem State.setGrp_switches (s : State) (g : Group) : (s.setGrp g).switches = s.switches := rfl
@[simp] theorem State.setGrp_toBegin (s : State) (g : Group) : (s.setGrp g).toBegin = s.toBegin := rfl
@[simp] theorem State.setGrp_borders (s : State) (g : Group) : (s.setGrp g).borders = s.borders := rfl
@[simp] theorem State.setGrp_bordering (s : State) (g : Group) : (s.setGrp g).bordering = s.bordering := rfl
@[simp] theorem State.setGrp_boundary (s : State) (g : Group) : (s.setGrp g).boundary = s.boundary := rfl
@[simp] theorem State.setGrp_began (s : State) (g : Group) : (s.setGrp g).began = s.began := rfl
@[simp] theorem State.setGrp_sample (s : State) (g : Group) : (s.setGrp g).sample = s.sample := rfl
@[simp] theorem State.setGrp_swapped (s : State) (g : Group) : (s.setGrp g).swapped = s.swapped := rfl
@[simp] theorem State.setGrp_lidEmergency (s : State) (g : Group) : (s.setGrp g).lidEmergency = s.lidEmergency := rfl
@[simp] theorem State.setGrp_columnsOff (s : State) (g : Group) : (s.setGrp g).columnsOff = s.columnsOff := rfl
@[simp] theorem State.setGrp_fabric (s : State) (g : Group) : (s.setGrp g).fabric = s.fabric := rfl
@[simp] theorem State.setGrp_spdm (s : State) (g : Group) : (s.setGrp g).spdm = s.spdm := rfl
@[simp] theorem State.setGrp_netSerial (s : State) (g : Group) : (s.setGrp g).netSerial = s.netSerial := rfl
@[simp] theorem State.setGrp_unsettled (s : State) (g : Group) : (s.setGrp g).unsettled = s.unsettled := rfl

@[simp] theorem State.setGroupAt_powered (s : State) (k : Nat) (g : Group) : (s.setGroupAt k g).powered = s.powered := rfl
@[simp] theorem State.setGroupAt_rank (s : State) (k : Nat) (g : Group) : (s.setGroupAt k g).rank = s.rank := rfl
@[simp] theorem State.setGroupAt_inDomain (s : State) (k : Nat) (g : Group) : (s.setGroupAt k g).inDomain = s.inDomain := rfl
@[simp] theorem State.setGroupAt_now (s : State) (k : Nat) (g : Group) : (s.setGroupAt k g).now = s.now := rfl
@[simp] theorem State.setGroupAt_turn (s : State) (k : Nat) (g : Group) : (s.setGroupAt k g).turn = s.turn := rfl
@[simp] theorem State.setGroupAt_cur (s : State) (k : Nat) (g : Group) : (s.setGroupAt k g).cur = s.cur := rfl
@[simp] theorem State.setGroupAt_inbox (s : State) (k : Nat) (g : Group) : (s.setGroupAt k g).inbox = s.inbox := rfl
@[simp] theorem State.setGroupAt_agenda (s : State) (k : Nat) (g : Group) : (s.setGroupAt k g).agenda = s.agenda := rfl
@[simp] theorem State.setGroupAt_lanesLeft (s : State) (k : Nat) (g : Group) : (s.setGroupAt k g).lanesLeft = s.lanesLeft := rfl
@[simp] theorem State.setGroupAt_openTick (s : State) (k : Nat) (g : Group) : (s.setGroupAt k g).openTick = s.openTick := rfl
@[simp] theorem State.setGroupAt_opens (s : State) (k : Nat) (g : Group) : (s.setGroupAt k g).opens = s.opens := rfl
@[simp] theorem State.setGroupAt_nextId (s : State) (k : Nat) (g : Group) : (s.setGroupAt k g).nextId = s.nextId := rfl
@[simp] theorem State.setGroupAt_issueSerial (s : State) (k : Nat) (g : Group) : (s.setGroupAt k g).issueSerial = s.issueSerial := rfl
@[simp] theorem State.setGroupAt_owners (s : State) (k : Nat) (g : Group) : (s.setGroupAt k g).owners = s.owners := rfl
@[simp] theorem State.setGroupAt_islands (s : State) (k : Nat) (g : Group) : (s.setGroupAt k g).islands = s.islands := rfl
@[simp] theorem State.setGroupAt_rota (s : State) (k : Nat) (g : Group) : (s.setGroupAt k g).rota = s.rota := rfl
@[simp] theorem State.setGroupAt_launches (s : State) (k : Nat) (g : Group) : (s.setGroupAt k g).launches = s.launches := rfl
@[simp] theorem State.setGroupAt_wgs (s : State) (k : Nat) (g : Group) : (s.setGroupAt k g).wgs = s.wgs := rfl
@[simp] theorem State.setGroupAt_ops (s : State) (k : Nat) (g : Group) : (s.setGroupAt k g).ops = s.ops := rfl
@[simp] theorem State.setGroupAt_engs (s : State) (k : Nat) (g : Group) : (s.setGroupAt k g).engs = s.engs := rfl
@[simp] theorem State.setGroupAt_waits (s : State) (k : Nat) (g : Group) : (s.setGroupAt k g).waits = s.waits := rfl
@[simp] theorem State.setGroupAt_nets (s : State) (k : Nat) (g : Group) : (s.setGroupAt k g).nets = s.nets := rfl
@[simp] theorem State.setGroupAt_heldMsgs (s : State) (k : Nat) (g : Group) : (s.setGroupAt k g).heldMsgs = s.heldMsgs := rfl
@[simp] theorem State.setGroupAt_chunks (s : State) (k : Nat) (g : Group) : (s.setGroupAt k g).chunks = s.chunks := rfl
@[simp] theorem State.setGroupAt_queues (s : State) (k : Nat) (g : Group) : (s.setGroupAt k g).queues = s.queues := rfl
@[simp] theorem State.setGroupAt_passes (s : State) (k : Nat) (g : Group) : (s.setGroupAt k g).passes = s.passes := rfl
@[simp] theorem State.setGroupAt_tileOps (s : State) (k : Nat) (g : Group) : (s.setGroupAt k g).tileOps = s.tileOps := rfl
@[simp] theorem State.setGroupAt_rsv (s : State) (k : Nat) (g : Group) : (s.setGroupAt k g).rsv = s.rsv := rfl
@[simp] theorem State.setGroupAt_rsvOld (s : State) (k : Nat) (g : Group) : (s.setGroupAt k g).rsvOld = s.rsvOld := rfl
@[simp] theorem State.setGroupAt_trec (s : State) (k : Nat) (g : Group) : (s.setGroupAt k g).trec = s.trec := rfl
@[simp] theorem State.setGroupAt_trecOld (s : State) (k : Nat) (g : Group) : (s.setGroupAt k g).trecOld = s.trecOld := rfl
@[simp] theorem State.setGroupAt_mem (s : State) (k : Nat) (g : Group) : (s.setGroupAt k g).mem = s.mem := rfl
@[simp] theorem State.setGroupAt_faulty (s : State) (k : Nat) (g : Group) : (s.setGroupAt k g).faulty = s.faulty := rfl
@[simp] theorem State.setGroupAt_checks (s : State) (k : Nat) (g : Group) : (s.setGroupAt k g).checks = s.checks := rfl
@[simp] theorem State.setGroupAt_scratch (s : State) (k : Nat) (g : Group) : (s.setGroupAt k g).scratch = s.scratch := rfl
@[simp] theorem State.setGroupAt_obuf (s : State) (k : Nat) (g : Group) : (s.setGroupAt k g).obuf = s.obuf := rfl
@[simp] theorem State.setGroupAt_scale (s : State) (k : Nat) (g : Group) : (s.setGroupAt k g).scale = s.scale := rfl
@[simp] theorem State.setGroupAt_acc (s : State) (k : Nat) (g : Group) : (s.setGroupAt k g).acc = s.acc := rfl
@[simp] theorem State.setGroupAt_engScr (s : State) (k : Nat) (g : Group) : (s.setGroupAt k g).engScr = s.engScr := rfl
@[simp] theorem State.setGroupAt_engObuf (s : State) (k : Nat) (g : Group) : (s.setGroupAt k g).engObuf = s.engObuf := rfl
@[simp] theorem State.setGroupAt_readHold (s : State) (k : Nat) (g : Group) : (s.setGroupAt k g).readHold = s.readHold := rfl
@[simp] theorem State.setGroupAt_l1 (s : State) (k : Nat) (g : Group) : (s.setGroupAt k g).l1 = s.l1 := rfl
@[simp] theorem State.setGroupAt_l2 (s : State) (k : Nat) (g : Group) : (s.setGroupAt k g).l2 = s.l2 := rfl
@[simp] theorem State.setGroupAt_tlb (s : State) (k : Nat) (g : Group) : (s.setGroupAt k g).tlb = s.tlb := rfl
@[simp] theorem State.setGroupAt_tables (s : State) (k : Nat) (g : Group) : (s.setGroupAt k g).tables = s.tables := rfl
@[simp] theorem State.setGroupAt_frames (s : State) (k : Nat) (g : Group) : (s.setGroupAt k g).frames = s.frames := rfl
@[simp] theorem State.setGroupAt_hostMem (s : State) (k : Nat) (g : Group) : (s.setGroupAt k g).hostMem = s.hostMem := rfl
@[simp] theorem State.setGroupAt_port (s : State) (k : Nat) (g : Group) : (s.setGroupAt k g).port = s.port := rfl
@[simp] theorem State.setGroupAt_box (s : State) (k : Nat) (g : Group) : (s.setGroupAt k g).box = s.box := rfl
@[simp] theorem State.setGroupAt_boxFrozen (s : State) (k : Nat) (g : Group) : (s.setGroupAt k g).boxFrozen = s.boxFrozen := rfl
@[simp] theorem State.setGroupAt_sensors (s : State) (k : Nat) (g : Group) : (s.setGroupAt k g).sensors = s.sensors := rfl
@[simp] theorem State.setGroupAt_meltSensor (s : State) (k : Nat) (g : Group) : (s.setGroupAt k g).meltSensor = s.meltSensor := rfl
@[simp] theorem State.setGroupAt_stacksHot (s : State) (k : Nat) (g : Group) : (s.setGroupAt k g).stacksHot = s.stacksHot := rfl
@[simp] theorem State.setGroupAt_siloDown (s : State) (k : Nat) (g : Group) : (s.setGroupAt k g).siloDown = s.siloDown := rfl
@[simp] theorem State.setGroupAt_migrations (s : State) (k : Nat) (g : Group) : (s.setGroupAt k g).migrations = s.migrations := rfl
@[simp] theorem State.setGroupAt_moves (s : State) (k : Nat) (g : Group) : (s.setGroupAt k g).moves = s.moves := rfl
@[simp] theorem State.setGroupAt_transfers (s : State) (k : Nat) (g : Group) : (s.setGroupAt k g).transfers = s.transfers := rfl
@[simp] theorem State.setGroupAt_switches (s : State) (k : Nat) (g : Group) : (s.setGroupAt k g).switches = s.switches := rfl
@[simp] theorem State.setGroupAt_toBegin (s : State) (k : Nat) (g : Group) : (s.setGroupAt k g).toBegin = s.toBegin := rfl
@[simp] theorem State.setGroupAt_borders (s : State) (k : Nat) (g : Group) : (s.setGroupAt k g).borders = s.borders := rfl
@[simp] theorem State.setGroupAt_bordering (s : State) (k : Nat) (g : Group) : (s.setGroupAt k g).bordering = s.bordering := rfl
@[simp] theorem State.setGroupAt_boundary (s : State) (k : Nat) (g : Group) : (s.setGroupAt k g).boundary = s.boundary := rfl
@[simp] theorem State.setGroupAt_began (s : State) (k : Nat) (g : Group) : (s.setGroupAt k g).began = s.began := rfl
@[simp] theorem State.setGroupAt_sample (s : State) (k : Nat) (g : Group) : (s.setGroupAt k g).sample = s.sample := rfl
@[simp] theorem State.setGroupAt_swapped (s : State) (k : Nat) (g : Group) : (s.setGroupAt k g).swapped = s.swapped := rfl
@[simp] theorem State.setGroupAt_lidEmergency (s : State) (k : Nat) (g : Group) : (s.setGroupAt k g).lidEmergency = s.lidEmergency := rfl
@[simp] theorem State.setGroupAt_columnsOff (s : State) (k : Nat) (g : Group) : (s.setGroupAt k g).columnsOff = s.columnsOff := rfl
@[simp] theorem State.setGroupAt_fabric (s : State) (k : Nat) (g : Group) : (s.setGroupAt k g).fabric = s.fabric := rfl
@[simp] theorem State.setGroupAt_spdm (s : State) (k : Nat) (g : Group) : (s.setGroupAt k g).spdm = s.spdm := rfl
@[simp] theorem State.setGroupAt_netSerial (s : State) (k : Nat) (g : Group) : (s.setGroupAt k g).netSerial = s.netSerial := rfl
@[simp] theorem State.setGroupAt_unsettled (s : State) (k : Nat) (g : Group) : (s.setGroupAt k g).unsettled = s.unsettled := rfl

@[simp] theorem State.setOwner_powered (s : State) (o : Nat) (x : Owner) : (s.setOwner o x).powered = s.powered := rfl
@[simp] theorem State.setOwner_rank (s : State) (o : Nat) (x : Owner) : (s.setOwner o x).rank = s.rank := rfl
@[simp] theorem State.setOwner_inDomain (s : State) (o : Nat) (x : Owner) : (s.setOwner o x).inDomain = s.inDomain := rfl
@[simp] theorem State.setOwner_now (s : State) (o : Nat) (x : Owner) : (s.setOwner o x).now = s.now := rfl
@[simp] theorem State.setOwner_turn (s : State) (o : Nat) (x : Owner) : (s.setOwner o x).turn = s.turn := rfl
@[simp] theorem State.setOwner_cur (s : State) (o : Nat) (x : Owner) : (s.setOwner o x).cur = s.cur := rfl
@[simp] theorem State.setOwner_inbox (s : State) (o : Nat) (x : Owner) : (s.setOwner o x).inbox = s.inbox := rfl
@[simp] theorem State.setOwner_agenda (s : State) (o : Nat) (x : Owner) : (s.setOwner o x).agenda = s.agenda := rfl
@[simp] theorem State.setOwner_lanesLeft (s : State) (o : Nat) (x : Owner) : (s.setOwner o x).lanesLeft = s.lanesLeft := rfl
@[simp] theorem State.setOwner_openTick (s : State) (o : Nat) (x : Owner) : (s.setOwner o x).openTick = s.openTick := rfl
@[simp] theorem State.setOwner_opens (s : State) (o : Nat) (x : Owner) : (s.setOwner o x).opens = s.opens := rfl
@[simp] theorem State.setOwner_nextId (s : State) (o : Nat) (x : Owner) : (s.setOwner o x).nextId = s.nextId := rfl
@[simp] theorem State.setOwner_issueSerial (s : State) (o : Nat) (x : Owner) : (s.setOwner o x).issueSerial = s.issueSerial := rfl
@[simp] theorem State.setOwner_islands (s : State) (o : Nat) (x : Owner) : (s.setOwner o x).islands = s.islands := rfl
@[simp] theorem State.setOwner_rota (s : State) (o : Nat) (x : Owner) : (s.setOwner o x).rota = s.rota := rfl
@[simp] theorem State.setOwner_launches (s : State) (o : Nat) (x : Owner) : (s.setOwner o x).launches = s.launches := rfl
@[simp] theorem State.setOwner_wgs (s : State) (o : Nat) (x : Owner) : (s.setOwner o x).wgs = s.wgs := rfl
@[simp] theorem State.setOwner_groups (s : State) (o : Nat) (x : Owner) : (s.setOwner o x).groups = s.groups := rfl
@[simp] theorem State.setOwner_ops (s : State) (o : Nat) (x : Owner) : (s.setOwner o x).ops = s.ops := rfl
@[simp] theorem State.setOwner_engs (s : State) (o : Nat) (x : Owner) : (s.setOwner o x).engs = s.engs := rfl
@[simp] theorem State.setOwner_waits (s : State) (o : Nat) (x : Owner) : (s.setOwner o x).waits = s.waits := rfl
@[simp] theorem State.setOwner_nets (s : State) (o : Nat) (x : Owner) : (s.setOwner o x).nets = s.nets := rfl
@[simp] theorem State.setOwner_heldMsgs (s : State) (o : Nat) (x : Owner) : (s.setOwner o x).heldMsgs = s.heldMsgs := rfl
@[simp] theorem State.setOwner_chunks (s : State) (o : Nat) (x : Owner) : (s.setOwner o x).chunks = s.chunks := rfl
@[simp] theorem State.setOwner_queues (s : State) (o : Nat) (x : Owner) : (s.setOwner o x).queues = s.queues := rfl
@[simp] theorem State.setOwner_passes (s : State) (o : Nat) (x : Owner) : (s.setOwner o x).passes = s.passes := rfl
@[simp] theorem State.setOwner_tileOps (s : State) (o : Nat) (x : Owner) : (s.setOwner o x).tileOps = s.tileOps := rfl
@[simp] theorem State.setOwner_rsv (s : State) (o : Nat) (x : Owner) : (s.setOwner o x).rsv = s.rsv := rfl
@[simp] theorem State.setOwner_rsvOld (s : State) (o : Nat) (x : Owner) : (s.setOwner o x).rsvOld = s.rsvOld := rfl
@[simp] theorem State.setOwner_trec (s : State) (o : Nat) (x : Owner) : (s.setOwner o x).trec = s.trec := rfl
@[simp] theorem State.setOwner_trecOld (s : State) (o : Nat) (x : Owner) : (s.setOwner o x).trecOld = s.trecOld := rfl
@[simp] theorem State.setOwner_mem (s : State) (o : Nat) (x : Owner) : (s.setOwner o x).mem = s.mem := rfl
@[simp] theorem State.setOwner_faulty (s : State) (o : Nat) (x : Owner) : (s.setOwner o x).faulty = s.faulty := rfl
@[simp] theorem State.setOwner_checks (s : State) (o : Nat) (x : Owner) : (s.setOwner o x).checks = s.checks := rfl
@[simp] theorem State.setOwner_scratch (s : State) (o : Nat) (x : Owner) : (s.setOwner o x).scratch = s.scratch := rfl
@[simp] theorem State.setOwner_obuf (s : State) (o : Nat) (x : Owner) : (s.setOwner o x).obuf = s.obuf := rfl
@[simp] theorem State.setOwner_scale (s : State) (o : Nat) (x : Owner) : (s.setOwner o x).scale = s.scale := rfl
@[simp] theorem State.setOwner_acc (s : State) (o : Nat) (x : Owner) : (s.setOwner o x).acc = s.acc := rfl
@[simp] theorem State.setOwner_engScr (s : State) (o : Nat) (x : Owner) : (s.setOwner o x).engScr = s.engScr := rfl
@[simp] theorem State.setOwner_engObuf (s : State) (o : Nat) (x : Owner) : (s.setOwner o x).engObuf = s.engObuf := rfl
@[simp] theorem State.setOwner_readHold (s : State) (o : Nat) (x : Owner) : (s.setOwner o x).readHold = s.readHold := rfl
@[simp] theorem State.setOwner_l1 (s : State) (o : Nat) (x : Owner) : (s.setOwner o x).l1 = s.l1 := rfl
@[simp] theorem State.setOwner_l2 (s : State) (o : Nat) (x : Owner) : (s.setOwner o x).l2 = s.l2 := rfl
@[simp] theorem State.setOwner_tlb (s : State) (o : Nat) (x : Owner) : (s.setOwner o x).tlb = s.tlb := rfl
@[simp] theorem State.setOwner_tables (s : State) (o : Nat) (x : Owner) : (s.setOwner o x).tables = s.tables := rfl
@[simp] theorem State.setOwner_frames (s : State) (o : Nat) (x : Owner) : (s.setOwner o x).frames = s.frames := rfl
@[simp] theorem State.setOwner_hostMem (s : State) (o : Nat) (x : Owner) : (s.setOwner o x).hostMem = s.hostMem := rfl
@[simp] theorem State.setOwner_port (s : State) (o : Nat) (x : Owner) : (s.setOwner o x).port = s.port := rfl
@[simp] theorem State.setOwner_box (s : State) (o : Nat) (x : Owner) : (s.setOwner o x).box = s.box := rfl
@[simp] theorem State.setOwner_boxFrozen (s : State) (o : Nat) (x : Owner) : (s.setOwner o x).boxFrozen = s.boxFrozen := rfl
@[simp] theorem State.setOwner_sensors (s : State) (o : Nat) (x : Owner) : (s.setOwner o x).sensors = s.sensors := rfl
@[simp] theorem State.setOwner_meltSensor (s : State) (o : Nat) (x : Owner) : (s.setOwner o x).meltSensor = s.meltSensor := rfl
@[simp] theorem State.setOwner_stacksHot (s : State) (o : Nat) (x : Owner) : (s.setOwner o x).stacksHot = s.stacksHot := rfl
@[simp] theorem State.setOwner_siloDown (s : State) (o : Nat) (x : Owner) : (s.setOwner o x).siloDown = s.siloDown := rfl
@[simp] theorem State.setOwner_migrations (s : State) (o : Nat) (x : Owner) : (s.setOwner o x).migrations = s.migrations := rfl
@[simp] theorem State.setOwner_moves (s : State) (o : Nat) (x : Owner) : (s.setOwner o x).moves = s.moves := rfl
@[simp] theorem State.setOwner_transfers (s : State) (o : Nat) (x : Owner) : (s.setOwner o x).transfers = s.transfers := rfl
@[simp] theorem State.setOwner_switches (s : State) (o : Nat) (x : Owner) : (s.setOwner o x).switches = s.switches := rfl
@[simp] theorem State.setOwner_toBegin (s : State) (o : Nat) (x : Owner) : (s.setOwner o x).toBegin = s.toBegin := rfl
@[simp] theorem State.setOwner_borders (s : State) (o : Nat) (x : Owner) : (s.setOwner o x).borders = s.borders := rfl
@[simp] theorem State.setOwner_bordering (s : State) (o : Nat) (x : Owner) : (s.setOwner o x).bordering = s.bordering := rfl
@[simp] theorem State.setOwner_boundary (s : State) (o : Nat) (x : Owner) : (s.setOwner o x).boundary = s.boundary := rfl
@[simp] theorem State.setOwner_began (s : State) (o : Nat) (x : Owner) : (s.setOwner o x).began = s.began := rfl
@[simp] theorem State.setOwner_sample (s : State) (o : Nat) (x : Owner) : (s.setOwner o x).sample = s.sample := rfl
@[simp] theorem State.setOwner_swapped (s : State) (o : Nat) (x : Owner) : (s.setOwner o x).swapped = s.swapped := rfl
@[simp] theorem State.setOwner_lidEmergency (s : State) (o : Nat) (x : Owner) : (s.setOwner o x).lidEmergency = s.lidEmergency := rfl
@[simp] theorem State.setOwner_columnsOff (s : State) (o : Nat) (x : Owner) : (s.setOwner o x).columnsOff = s.columnsOff := rfl
@[simp] theorem State.setOwner_fabric (s : State) (o : Nat) (x : Owner) : (s.setOwner o x).fabric = s.fabric := rfl
@[simp] theorem State.setOwner_spdm (s : State) (o : Nat) (x : Owner) : (s.setOwner o x).spdm = s.spdm := rfl
@[simp] theorem State.setOwner_netSerial (s : State) (o : Nat) (x : Owner) : (s.setOwner o x).netSerial = s.netSerial := rfl
@[simp] theorem State.setOwner_unsettled (s : State) (o : Nat) (x : Owner) : (s.setOwner o x).unsettled = s.unsettled := rfl

@[simp] theorem State.setWg_powered (s : State) (k : Nat) (x : Workgroup) : (s.setWg k x).powered = s.powered := rfl
@[simp] theorem State.setWg_rank (s : State) (k : Nat) (x : Workgroup) : (s.setWg k x).rank = s.rank := rfl
@[simp] theorem State.setWg_inDomain (s : State) (k : Nat) (x : Workgroup) : (s.setWg k x).inDomain = s.inDomain := rfl
@[simp] theorem State.setWg_now (s : State) (k : Nat) (x : Workgroup) : (s.setWg k x).now = s.now := rfl
@[simp] theorem State.setWg_turn (s : State) (k : Nat) (x : Workgroup) : (s.setWg k x).turn = s.turn := rfl
@[simp] theorem State.setWg_cur (s : State) (k : Nat) (x : Workgroup) : (s.setWg k x).cur = s.cur := rfl
@[simp] theorem State.setWg_inbox (s : State) (k : Nat) (x : Workgroup) : (s.setWg k x).inbox = s.inbox := rfl
@[simp] theorem State.setWg_agenda (s : State) (k : Nat) (x : Workgroup) : (s.setWg k x).agenda = s.agenda := rfl
@[simp] theorem State.setWg_lanesLeft (s : State) (k : Nat) (x : Workgroup) : (s.setWg k x).lanesLeft = s.lanesLeft := rfl
@[simp] theorem State.setWg_openTick (s : State) (k : Nat) (x : Workgroup) : (s.setWg k x).openTick = s.openTick := rfl
@[simp] theorem State.setWg_opens (s : State) (k : Nat) (x : Workgroup) : (s.setWg k x).opens = s.opens := rfl
@[simp] theorem State.setWg_nextId (s : State) (k : Nat) (x : Workgroup) : (s.setWg k x).nextId = s.nextId := rfl
@[simp] theorem State.setWg_issueSerial (s : State) (k : Nat) (x : Workgroup) : (s.setWg k x).issueSerial = s.issueSerial := rfl
@[simp] theorem State.setWg_owners (s : State) (k : Nat) (x : Workgroup) : (s.setWg k x).owners = s.owners := rfl
@[simp] theorem State.setWg_islands (s : State) (k : Nat) (x : Workgroup) : (s.setWg k x).islands = s.islands := rfl
@[simp] theorem State.setWg_rota (s : State) (k : Nat) (x : Workgroup) : (s.setWg k x).rota = s.rota := rfl
@[simp] theorem State.setWg_launches (s : State) (k : Nat) (x : Workgroup) : (s.setWg k x).launches = s.launches := rfl
@[simp] theorem State.setWg_groups (s : State) (k : Nat) (x : Workgroup) : (s.setWg k x).groups = s.groups := rfl
@[simp] theorem State.setWg_ops (s : State) (k : Nat) (x : Workgroup) : (s.setWg k x).ops = s.ops := rfl
@[simp] theorem State.setWg_engs (s : State) (k : Nat) (x : Workgroup) : (s.setWg k x).engs = s.engs := rfl
@[simp] theorem State.setWg_waits (s : State) (k : Nat) (x : Workgroup) : (s.setWg k x).waits = s.waits := rfl
@[simp] theorem State.setWg_nets (s : State) (k : Nat) (x : Workgroup) : (s.setWg k x).nets = s.nets := rfl
@[simp] theorem State.setWg_heldMsgs (s : State) (k : Nat) (x : Workgroup) : (s.setWg k x).heldMsgs = s.heldMsgs := rfl
@[simp] theorem State.setWg_chunks (s : State) (k : Nat) (x : Workgroup) : (s.setWg k x).chunks = s.chunks := rfl
@[simp] theorem State.setWg_queues (s : State) (k : Nat) (x : Workgroup) : (s.setWg k x).queues = s.queues := rfl
@[simp] theorem State.setWg_passes (s : State) (k : Nat) (x : Workgroup) : (s.setWg k x).passes = s.passes := rfl
@[simp] theorem State.setWg_tileOps (s : State) (k : Nat) (x : Workgroup) : (s.setWg k x).tileOps = s.tileOps := rfl
@[simp] theorem State.setWg_rsv (s : State) (k : Nat) (x : Workgroup) : (s.setWg k x).rsv = s.rsv := rfl
@[simp] theorem State.setWg_rsvOld (s : State) (k : Nat) (x : Workgroup) : (s.setWg k x).rsvOld = s.rsvOld := rfl
@[simp] theorem State.setWg_trec (s : State) (k : Nat) (x : Workgroup) : (s.setWg k x).trec = s.trec := rfl
@[simp] theorem State.setWg_trecOld (s : State) (k : Nat) (x : Workgroup) : (s.setWg k x).trecOld = s.trecOld := rfl
@[simp] theorem State.setWg_mem (s : State) (k : Nat) (x : Workgroup) : (s.setWg k x).mem = s.mem := rfl
@[simp] theorem State.setWg_faulty (s : State) (k : Nat) (x : Workgroup) : (s.setWg k x).faulty = s.faulty := rfl
@[simp] theorem State.setWg_checks (s : State) (k : Nat) (x : Workgroup) : (s.setWg k x).checks = s.checks := rfl
@[simp] theorem State.setWg_scratch (s : State) (k : Nat) (x : Workgroup) : (s.setWg k x).scratch = s.scratch := rfl
@[simp] theorem State.setWg_obuf (s : State) (k : Nat) (x : Workgroup) : (s.setWg k x).obuf = s.obuf := rfl
@[simp] theorem State.setWg_scale (s : State) (k : Nat) (x : Workgroup) : (s.setWg k x).scale = s.scale := rfl
@[simp] theorem State.setWg_acc (s : State) (k : Nat) (x : Workgroup) : (s.setWg k x).acc = s.acc := rfl
@[simp] theorem State.setWg_engScr (s : State) (k : Nat) (x : Workgroup) : (s.setWg k x).engScr = s.engScr := rfl
@[simp] theorem State.setWg_engObuf (s : State) (k : Nat) (x : Workgroup) : (s.setWg k x).engObuf = s.engObuf := rfl
@[simp] theorem State.setWg_readHold (s : State) (k : Nat) (x : Workgroup) : (s.setWg k x).readHold = s.readHold := rfl
@[simp] theorem State.setWg_l1 (s : State) (k : Nat) (x : Workgroup) : (s.setWg k x).l1 = s.l1 := rfl
@[simp] theorem State.setWg_l2 (s : State) (k : Nat) (x : Workgroup) : (s.setWg k x).l2 = s.l2 := rfl
@[simp] theorem State.setWg_tlb (s : State) (k : Nat) (x : Workgroup) : (s.setWg k x).tlb = s.tlb := rfl
@[simp] theorem State.setWg_tables (s : State) (k : Nat) (x : Workgroup) : (s.setWg k x).tables = s.tables := rfl
@[simp] theorem State.setWg_frames (s : State) (k : Nat) (x : Workgroup) : (s.setWg k x).frames = s.frames := rfl
@[simp] theorem State.setWg_hostMem (s : State) (k : Nat) (x : Workgroup) : (s.setWg k x).hostMem = s.hostMem := rfl
@[simp] theorem State.setWg_port (s : State) (k : Nat) (x : Workgroup) : (s.setWg k x).port = s.port := rfl
@[simp] theorem State.setWg_box (s : State) (k : Nat) (x : Workgroup) : (s.setWg k x).box = s.box := rfl
@[simp] theorem State.setWg_boxFrozen (s : State) (k : Nat) (x : Workgroup) : (s.setWg k x).boxFrozen = s.boxFrozen := rfl
@[simp] theorem State.setWg_sensors (s : State) (k : Nat) (x : Workgroup) : (s.setWg k x).sensors = s.sensors := rfl
@[simp] theorem State.setWg_meltSensor (s : State) (k : Nat) (x : Workgroup) : (s.setWg k x).meltSensor = s.meltSensor := rfl
@[simp] theorem State.setWg_stacksHot (s : State) (k : Nat) (x : Workgroup) : (s.setWg k x).stacksHot = s.stacksHot := rfl
@[simp] theorem State.setWg_siloDown (s : State) (k : Nat) (x : Workgroup) : (s.setWg k x).siloDown = s.siloDown := rfl
@[simp] theorem State.setWg_migrations (s : State) (k : Nat) (x : Workgroup) : (s.setWg k x).migrations = s.migrations := rfl
@[simp] theorem State.setWg_moves (s : State) (k : Nat) (x : Workgroup) : (s.setWg k x).moves = s.moves := rfl
@[simp] theorem State.setWg_transfers (s : State) (k : Nat) (x : Workgroup) : (s.setWg k x).transfers = s.transfers := rfl
@[simp] theorem State.setWg_switches (s : State) (k : Nat) (x : Workgroup) : (s.setWg k x).switches = s.switches := rfl
@[simp] theorem State.setWg_toBegin (s : State) (k : Nat) (x : Workgroup) : (s.setWg k x).toBegin = s.toBegin := rfl
@[simp] theorem State.setWg_borders (s : State) (k : Nat) (x : Workgroup) : (s.setWg k x).borders = s.borders := rfl
@[simp] theorem State.setWg_bordering (s : State) (k : Nat) (x : Workgroup) : (s.setWg k x).bordering = s.bordering := rfl
@[simp] theorem State.setWg_boundary (s : State) (k : Nat) (x : Workgroup) : (s.setWg k x).boundary = s.boundary := rfl
@[simp] theorem State.setWg_began (s : State) (k : Nat) (x : Workgroup) : (s.setWg k x).began = s.began := rfl
@[simp] theorem State.setWg_sample (s : State) (k : Nat) (x : Workgroup) : (s.setWg k x).sample = s.sample := rfl
@[simp] theorem State.setWg_swapped (s : State) (k : Nat) (x : Workgroup) : (s.setWg k x).swapped = s.swapped := rfl
@[simp] theorem State.setWg_lidEmergency (s : State) (k : Nat) (x : Workgroup) : (s.setWg k x).lidEmergency = s.lidEmergency := rfl
@[simp] theorem State.setWg_columnsOff (s : State) (k : Nat) (x : Workgroup) : (s.setWg k x).columnsOff = s.columnsOff := rfl
@[simp] theorem State.setWg_fabric (s : State) (k : Nat) (x : Workgroup) : (s.setWg k x).fabric = s.fabric := rfl
@[simp] theorem State.setWg_spdm (s : State) (k : Nat) (x : Workgroup) : (s.setWg k x).spdm = s.spdm := rfl
@[simp] theorem State.setWg_netSerial (s : State) (k : Nat) (x : Workgroup) : (s.setWg k x).netSerial = s.netSerial := rfl
@[simp] theorem State.setWg_unsettled (s : State) (k : Nat) (x : Workgroup) : (s.setWg k x).unsettled = s.unsettled := rfl

@[simp] theorem State.setLaunch_powered (s : State) (k : Nat) (x : Launch) : (s.setLaunch k x).powered = s.powered := rfl
@[simp] theorem State.setLaunch_rank (s : State) (k : Nat) (x : Launch) : (s.setLaunch k x).rank = s.rank := rfl
@[simp] theorem State.setLaunch_inDomain (s : State) (k : Nat) (x : Launch) : (s.setLaunch k x).inDomain = s.inDomain := rfl
@[simp] theorem State.setLaunch_now (s : State) (k : Nat) (x : Launch) : (s.setLaunch k x).now = s.now := rfl
@[simp] theorem State.setLaunch_turn (s : State) (k : Nat) (x : Launch) : (s.setLaunch k x).turn = s.turn := rfl
@[simp] theorem State.setLaunch_cur (s : State) (k : Nat) (x : Launch) : (s.setLaunch k x).cur = s.cur := rfl
@[simp] theorem State.setLaunch_inbox (s : State) (k : Nat) (x : Launch) : (s.setLaunch k x).inbox = s.inbox := rfl
@[simp] theorem State.setLaunch_agenda (s : State) (k : Nat) (x : Launch) : (s.setLaunch k x).agenda = s.agenda := rfl
@[simp] theorem State.setLaunch_lanesLeft (s : State) (k : Nat) (x : Launch) : (s.setLaunch k x).lanesLeft = s.lanesLeft := rfl
@[simp] theorem State.setLaunch_openTick (s : State) (k : Nat) (x : Launch) : (s.setLaunch k x).openTick = s.openTick := rfl
@[simp] theorem State.setLaunch_opens (s : State) (k : Nat) (x : Launch) : (s.setLaunch k x).opens = s.opens := rfl
@[simp] theorem State.setLaunch_nextId (s : State) (k : Nat) (x : Launch) : (s.setLaunch k x).nextId = s.nextId := rfl
@[simp] theorem State.setLaunch_issueSerial (s : State) (k : Nat) (x : Launch) : (s.setLaunch k x).issueSerial = s.issueSerial := rfl
@[simp] theorem State.setLaunch_owners (s : State) (k : Nat) (x : Launch) : (s.setLaunch k x).owners = s.owners := rfl
@[simp] theorem State.setLaunch_islands (s : State) (k : Nat) (x : Launch) : (s.setLaunch k x).islands = s.islands := rfl
@[simp] theorem State.setLaunch_rota (s : State) (k : Nat) (x : Launch) : (s.setLaunch k x).rota = s.rota := rfl
@[simp] theorem State.setLaunch_wgs (s : State) (k : Nat) (x : Launch) : (s.setLaunch k x).wgs = s.wgs := rfl
@[simp] theorem State.setLaunch_groups (s : State) (k : Nat) (x : Launch) : (s.setLaunch k x).groups = s.groups := rfl
@[simp] theorem State.setLaunch_ops (s : State) (k : Nat) (x : Launch) : (s.setLaunch k x).ops = s.ops := rfl
@[simp] theorem State.setLaunch_engs (s : State) (k : Nat) (x : Launch) : (s.setLaunch k x).engs = s.engs := rfl
@[simp] theorem State.setLaunch_waits (s : State) (k : Nat) (x : Launch) : (s.setLaunch k x).waits = s.waits := rfl
@[simp] theorem State.setLaunch_nets (s : State) (k : Nat) (x : Launch) : (s.setLaunch k x).nets = s.nets := rfl
@[simp] theorem State.setLaunch_heldMsgs (s : State) (k : Nat) (x : Launch) : (s.setLaunch k x).heldMsgs = s.heldMsgs := rfl
@[simp] theorem State.setLaunch_chunks (s : State) (k : Nat) (x : Launch) : (s.setLaunch k x).chunks = s.chunks := rfl
@[simp] theorem State.setLaunch_queues (s : State) (k : Nat) (x : Launch) : (s.setLaunch k x).queues = s.queues := rfl
@[simp] theorem State.setLaunch_passes (s : State) (k : Nat) (x : Launch) : (s.setLaunch k x).passes = s.passes := rfl
@[simp] theorem State.setLaunch_tileOps (s : State) (k : Nat) (x : Launch) : (s.setLaunch k x).tileOps = s.tileOps := rfl
@[simp] theorem State.setLaunch_rsv (s : State) (k : Nat) (x : Launch) : (s.setLaunch k x).rsv = s.rsv := rfl
@[simp] theorem State.setLaunch_rsvOld (s : State) (k : Nat) (x : Launch) : (s.setLaunch k x).rsvOld = s.rsvOld := rfl
@[simp] theorem State.setLaunch_trec (s : State) (k : Nat) (x : Launch) : (s.setLaunch k x).trec = s.trec := rfl
@[simp] theorem State.setLaunch_trecOld (s : State) (k : Nat) (x : Launch) : (s.setLaunch k x).trecOld = s.trecOld := rfl
@[simp] theorem State.setLaunch_mem (s : State) (k : Nat) (x : Launch) : (s.setLaunch k x).mem = s.mem := rfl
@[simp] theorem State.setLaunch_faulty (s : State) (k : Nat) (x : Launch) : (s.setLaunch k x).faulty = s.faulty := rfl
@[simp] theorem State.setLaunch_checks (s : State) (k : Nat) (x : Launch) : (s.setLaunch k x).checks = s.checks := rfl
@[simp] theorem State.setLaunch_scratch (s : State) (k : Nat) (x : Launch) : (s.setLaunch k x).scratch = s.scratch := rfl
@[simp] theorem State.setLaunch_obuf (s : State) (k : Nat) (x : Launch) : (s.setLaunch k x).obuf = s.obuf := rfl
@[simp] theorem State.setLaunch_scale (s : State) (k : Nat) (x : Launch) : (s.setLaunch k x).scale = s.scale := rfl
@[simp] theorem State.setLaunch_acc (s : State) (k : Nat) (x : Launch) : (s.setLaunch k x).acc = s.acc := rfl
@[simp] theorem State.setLaunch_engScr (s : State) (k : Nat) (x : Launch) : (s.setLaunch k x).engScr = s.engScr := rfl
@[simp] theorem State.setLaunch_engObuf (s : State) (k : Nat) (x : Launch) : (s.setLaunch k x).engObuf = s.engObuf := rfl
@[simp] theorem State.setLaunch_readHold (s : State) (k : Nat) (x : Launch) : (s.setLaunch k x).readHold = s.readHold := rfl
@[simp] theorem State.setLaunch_l1 (s : State) (k : Nat) (x : Launch) : (s.setLaunch k x).l1 = s.l1 := rfl
@[simp] theorem State.setLaunch_l2 (s : State) (k : Nat) (x : Launch) : (s.setLaunch k x).l2 = s.l2 := rfl
@[simp] theorem State.setLaunch_tlb (s : State) (k : Nat) (x : Launch) : (s.setLaunch k x).tlb = s.tlb := rfl
@[simp] theorem State.setLaunch_tables (s : State) (k : Nat) (x : Launch) : (s.setLaunch k x).tables = s.tables := rfl
@[simp] theorem State.setLaunch_frames (s : State) (k : Nat) (x : Launch) : (s.setLaunch k x).frames = s.frames := rfl
@[simp] theorem State.setLaunch_hostMem (s : State) (k : Nat) (x : Launch) : (s.setLaunch k x).hostMem = s.hostMem := rfl
@[simp] theorem State.setLaunch_port (s : State) (k : Nat) (x : Launch) : (s.setLaunch k x).port = s.port := rfl
@[simp] theorem State.setLaunch_box (s : State) (k : Nat) (x : Launch) : (s.setLaunch k x).box = s.box := rfl
@[simp] theorem State.setLaunch_boxFrozen (s : State) (k : Nat) (x : Launch) : (s.setLaunch k x).boxFrozen = s.boxFrozen := rfl
@[simp] theorem State.setLaunch_sensors (s : State) (k : Nat) (x : Launch) : (s.setLaunch k x).sensors = s.sensors := rfl
@[simp] theorem State.setLaunch_meltSensor (s : State) (k : Nat) (x : Launch) : (s.setLaunch k x).meltSensor = s.meltSensor := rfl
@[simp] theorem State.setLaunch_stacksHot (s : State) (k : Nat) (x : Launch) : (s.setLaunch k x).stacksHot = s.stacksHot := rfl
@[simp] theorem State.setLaunch_siloDown (s : State) (k : Nat) (x : Launch) : (s.setLaunch k x).siloDown = s.siloDown := rfl
@[simp] theorem State.setLaunch_migrations (s : State) (k : Nat) (x : Launch) : (s.setLaunch k x).migrations = s.migrations := rfl
@[simp] theorem State.setLaunch_moves (s : State) (k : Nat) (x : Launch) : (s.setLaunch k x).moves = s.moves := rfl
@[simp] theorem State.setLaunch_transfers (s : State) (k : Nat) (x : Launch) : (s.setLaunch k x).transfers = s.transfers := rfl
@[simp] theorem State.setLaunch_switches (s : State) (k : Nat) (x : Launch) : (s.setLaunch k x).switches = s.switches := rfl
@[simp] theorem State.setLaunch_toBegin (s : State) (k : Nat) (x : Launch) : (s.setLaunch k x).toBegin = s.toBegin := rfl
@[simp] theorem State.setLaunch_borders (s : State) (k : Nat) (x : Launch) : (s.setLaunch k x).borders = s.borders := rfl
@[simp] theorem State.setLaunch_bordering (s : State) (k : Nat) (x : Launch) : (s.setLaunch k x).bordering = s.bordering := rfl
@[simp] theorem State.setLaunch_boundary (s : State) (k : Nat) (x : Launch) : (s.setLaunch k x).boundary = s.boundary := rfl
@[simp] theorem State.setLaunch_began (s : State) (k : Nat) (x : Launch) : (s.setLaunch k x).began = s.began := rfl
@[simp] theorem State.setLaunch_sample (s : State) (k : Nat) (x : Launch) : (s.setLaunch k x).sample = s.sample := rfl
@[simp] theorem State.setLaunch_swapped (s : State) (k : Nat) (x : Launch) : (s.setLaunch k x).swapped = s.swapped := rfl
@[simp] theorem State.setLaunch_lidEmergency (s : State) (k : Nat) (x : Launch) : (s.setLaunch k x).lidEmergency = s.lidEmergency := rfl
@[simp] theorem State.setLaunch_columnsOff (s : State) (k : Nat) (x : Launch) : (s.setLaunch k x).columnsOff = s.columnsOff := rfl
@[simp] theorem State.setLaunch_fabric (s : State) (k : Nat) (x : Launch) : (s.setLaunch k x).fabric = s.fabric := rfl
@[simp] theorem State.setLaunch_spdm (s : State) (k : Nat) (x : Launch) : (s.setLaunch k x).spdm = s.spdm := rfl
@[simp] theorem State.setLaunch_netSerial (s : State) (k : Nat) (x : Launch) : (s.setLaunch k x).netSerial = s.netSerial := rfl
@[simp] theorem State.setLaunch_unsettled (s : State) (k : Nat) (x : Launch) : (s.setLaunch k x).unsettled = s.unsettled := rfl

@[simp] theorem State.setIsland_powered (s : State) (k : Nat) (x : Island) : (s.setIsland k x).powered = s.powered := rfl
@[simp] theorem State.setIsland_rank (s : State) (k : Nat) (x : Island) : (s.setIsland k x).rank = s.rank := rfl
@[simp] theorem State.setIsland_inDomain (s : State) (k : Nat) (x : Island) : (s.setIsland k x).inDomain = s.inDomain := rfl
@[simp] theorem State.setIsland_now (s : State) (k : Nat) (x : Island) : (s.setIsland k x).now = s.now := rfl
@[simp] theorem State.setIsland_turn (s : State) (k : Nat) (x : Island) : (s.setIsland k x).turn = s.turn := rfl
@[simp] theorem State.setIsland_cur (s : State) (k : Nat) (x : Island) : (s.setIsland k x).cur = s.cur := rfl
@[simp] theorem State.setIsland_inbox (s : State) (k : Nat) (x : Island) : (s.setIsland k x).inbox = s.inbox := rfl
@[simp] theorem State.setIsland_agenda (s : State) (k : Nat) (x : Island) : (s.setIsland k x).agenda = s.agenda := rfl
@[simp] theorem State.setIsland_lanesLeft (s : State) (k : Nat) (x : Island) : (s.setIsland k x).lanesLeft = s.lanesLeft := rfl
@[simp] theorem State.setIsland_openTick (s : State) (k : Nat) (x : Island) : (s.setIsland k x).openTick = s.openTick := rfl
@[simp] theorem State.setIsland_opens (s : State) (k : Nat) (x : Island) : (s.setIsland k x).opens = s.opens := rfl
@[simp] theorem State.setIsland_nextId (s : State) (k : Nat) (x : Island) : (s.setIsland k x).nextId = s.nextId := rfl
@[simp] theorem State.setIsland_issueSerial (s : State) (k : Nat) (x : Island) : (s.setIsland k x).issueSerial = s.issueSerial := rfl
@[simp] theorem State.setIsland_owners (s : State) (k : Nat) (x : Island) : (s.setIsland k x).owners = s.owners := rfl
@[simp] theorem State.setIsland_rota (s : State) (k : Nat) (x : Island) : (s.setIsland k x).rota = s.rota := rfl
@[simp] theorem State.setIsland_launches (s : State) (k : Nat) (x : Island) : (s.setIsland k x).launches = s.launches := rfl
@[simp] theorem State.setIsland_wgs (s : State) (k : Nat) (x : Island) : (s.setIsland k x).wgs = s.wgs := rfl
@[simp] theorem State.setIsland_groups (s : State) (k : Nat) (x : Island) : (s.setIsland k x).groups = s.groups := rfl
@[simp] theorem State.setIsland_ops (s : State) (k : Nat) (x : Island) : (s.setIsland k x).ops = s.ops := rfl
@[simp] theorem State.setIsland_engs (s : State) (k : Nat) (x : Island) : (s.setIsland k x).engs = s.engs := rfl
@[simp] theorem State.setIsland_waits (s : State) (k : Nat) (x : Island) : (s.setIsland k x).waits = s.waits := rfl
@[simp] theorem State.setIsland_nets (s : State) (k : Nat) (x : Island) : (s.setIsland k x).nets = s.nets := rfl
@[simp] theorem State.setIsland_heldMsgs (s : State) (k : Nat) (x : Island) : (s.setIsland k x).heldMsgs = s.heldMsgs := rfl
@[simp] theorem State.setIsland_chunks (s : State) (k : Nat) (x : Island) : (s.setIsland k x).chunks = s.chunks := rfl
@[simp] theorem State.setIsland_queues (s : State) (k : Nat) (x : Island) : (s.setIsland k x).queues = s.queues := rfl
@[simp] theorem State.setIsland_passes (s : State) (k : Nat) (x : Island) : (s.setIsland k x).passes = s.passes := rfl
@[simp] theorem State.setIsland_tileOps (s : State) (k : Nat) (x : Island) : (s.setIsland k x).tileOps = s.tileOps := rfl
@[simp] theorem State.setIsland_rsv (s : State) (k : Nat) (x : Island) : (s.setIsland k x).rsv = s.rsv := rfl
@[simp] theorem State.setIsland_rsvOld (s : State) (k : Nat) (x : Island) : (s.setIsland k x).rsvOld = s.rsvOld := rfl
@[simp] theorem State.setIsland_trec (s : State) (k : Nat) (x : Island) : (s.setIsland k x).trec = s.trec := rfl
@[simp] theorem State.setIsland_trecOld (s : State) (k : Nat) (x : Island) : (s.setIsland k x).trecOld = s.trecOld := rfl
@[simp] theorem State.setIsland_mem (s : State) (k : Nat) (x : Island) : (s.setIsland k x).mem = s.mem := rfl
@[simp] theorem State.setIsland_faulty (s : State) (k : Nat) (x : Island) : (s.setIsland k x).faulty = s.faulty := rfl
@[simp] theorem State.setIsland_checks (s : State) (k : Nat) (x : Island) : (s.setIsland k x).checks = s.checks := rfl
@[simp] theorem State.setIsland_scratch (s : State) (k : Nat) (x : Island) : (s.setIsland k x).scratch = s.scratch := rfl
@[simp] theorem State.setIsland_obuf (s : State) (k : Nat) (x : Island) : (s.setIsland k x).obuf = s.obuf := rfl
@[simp] theorem State.setIsland_scale (s : State) (k : Nat) (x : Island) : (s.setIsland k x).scale = s.scale := rfl
@[simp] theorem State.setIsland_acc (s : State) (k : Nat) (x : Island) : (s.setIsland k x).acc = s.acc := rfl
@[simp] theorem State.setIsland_engScr (s : State) (k : Nat) (x : Island) : (s.setIsland k x).engScr = s.engScr := rfl
@[simp] theorem State.setIsland_engObuf (s : State) (k : Nat) (x : Island) : (s.setIsland k x).engObuf = s.engObuf := rfl
@[simp] theorem State.setIsland_readHold (s : State) (k : Nat) (x : Island) : (s.setIsland k x).readHold = s.readHold := rfl
@[simp] theorem State.setIsland_l1 (s : State) (k : Nat) (x : Island) : (s.setIsland k x).l1 = s.l1 := rfl
@[simp] theorem State.setIsland_l2 (s : State) (k : Nat) (x : Island) : (s.setIsland k x).l2 = s.l2 := rfl
@[simp] theorem State.setIsland_tlb (s : State) (k : Nat) (x : Island) : (s.setIsland k x).tlb = s.tlb := rfl
@[simp] theorem State.setIsland_tables (s : State) (k : Nat) (x : Island) : (s.setIsland k x).tables = s.tables := rfl
@[simp] theorem State.setIsland_frames (s : State) (k : Nat) (x : Island) : (s.setIsland k x).frames = s.frames := rfl
@[simp] theorem State.setIsland_hostMem (s : State) (k : Nat) (x : Island) : (s.setIsland k x).hostMem = s.hostMem := rfl
@[simp] theorem State.setIsland_port (s : State) (k : Nat) (x : Island) : (s.setIsland k x).port = s.port := rfl
@[simp] theorem State.setIsland_box (s : State) (k : Nat) (x : Island) : (s.setIsland k x).box = s.box := rfl
@[simp] theorem State.setIsland_boxFrozen (s : State) (k : Nat) (x : Island) : (s.setIsland k x).boxFrozen = s.boxFrozen := rfl
@[simp] theorem State.setIsland_sensors (s : State) (k : Nat) (x : Island) : (s.setIsland k x).sensors = s.sensors := rfl
@[simp] theorem State.setIsland_meltSensor (s : State) (k : Nat) (x : Island) : (s.setIsland k x).meltSensor = s.meltSensor := rfl
@[simp] theorem State.setIsland_stacksHot (s : State) (k : Nat) (x : Island) : (s.setIsland k x).stacksHot = s.stacksHot := rfl
@[simp] theorem State.setIsland_siloDown (s : State) (k : Nat) (x : Island) : (s.setIsland k x).siloDown = s.siloDown := rfl
@[simp] theorem State.setIsland_migrations (s : State) (k : Nat) (x : Island) : (s.setIsland k x).migrations = s.migrations := rfl
@[simp] theorem State.setIsland_moves (s : State) (k : Nat) (x : Island) : (s.setIsland k x).moves = s.moves := rfl
@[simp] theorem State.setIsland_transfers (s : State) (k : Nat) (x : Island) : (s.setIsland k x).transfers = s.transfers := rfl
@[simp] theorem State.setIsland_switches (s : State) (k : Nat) (x : Island) : (s.setIsland k x).switches = s.switches := rfl
@[simp] theorem State.setIsland_toBegin (s : State) (k : Nat) (x : Island) : (s.setIsland k x).toBegin = s.toBegin := rfl
@[simp] theorem State.setIsland_borders (s : State) (k : Nat) (x : Island) : (s.setIsland k x).borders = s.borders := rfl
@[simp] theorem State.setIsland_bordering (s : State) (k : Nat) (x : Island) : (s.setIsland k x).bordering = s.bordering := rfl
@[simp] theorem State.setIsland_boundary (s : State) (k : Nat) (x : Island) : (s.setIsland k x).boundary = s.boundary := rfl
@[simp] theorem State.setIsland_began (s : State) (k : Nat) (x : Island) : (s.setIsland k x).began = s.began := rfl
@[simp] theorem State.setIsland_sample (s : State) (k : Nat) (x : Island) : (s.setIsland k x).sample = s.sample := rfl
@[simp] theorem State.setIsland_swapped (s : State) (k : Nat) (x : Island) : (s.setIsland k x).swapped = s.swapped := rfl
@[simp] theorem State.setIsland_lidEmergency (s : State) (k : Nat) (x : Island) : (s.setIsland k x).lidEmergency = s.lidEmergency := rfl
@[simp] theorem State.setIsland_columnsOff (s : State) (k : Nat) (x : Island) : (s.setIsland k x).columnsOff = s.columnsOff := rfl
@[simp] theorem State.setIsland_fabric (s : State) (k : Nat) (x : Island) : (s.setIsland k x).fabric = s.fabric := rfl
@[simp] theorem State.setIsland_spdm (s : State) (k : Nat) (x : Island) : (s.setIsland k x).spdm = s.spdm := rfl
@[simp] theorem State.setIsland_netSerial (s : State) (k : Nat) (x : Island) : (s.setIsland k x).netSerial = s.netSerial := rfl
@[simp] theorem State.setIsland_unsettled (s : State) (k : Nat) (x : Island) : (s.setIsland k x).unsettled = s.unsettled := rfl

@[simp] theorem State.schedule_powered (s : State) (c : Clk) (d : Nat) (e : Instr) : (s.schedule c d e).powered = s.powered := rfl
@[simp] theorem State.schedule_rank (s : State) (c : Clk) (d : Nat) (e : Instr) : (s.schedule c d e).rank = s.rank := rfl
@[simp] theorem State.schedule_inDomain (s : State) (c : Clk) (d : Nat) (e : Instr) : (s.schedule c d e).inDomain = s.inDomain := rfl
@[simp] theorem State.schedule_now (s : State) (c : Clk) (d : Nat) (e : Instr) : (s.schedule c d e).now = s.now := rfl
@[simp] theorem State.schedule_turn (s : State) (c : Clk) (d : Nat) (e : Instr) : (s.schedule c d e).turn = s.turn := rfl
@[simp] theorem State.schedule_cur (s : State) (c : Clk) (d : Nat) (e : Instr) : (s.schedule c d e).cur = s.cur := rfl
@[simp] theorem State.schedule_inbox (s : State) (c : Clk) (d : Nat) (e : Instr) : (s.schedule c d e).inbox = s.inbox := rfl
@[simp] theorem State.schedule_lanesLeft (s : State) (c : Clk) (d : Nat) (e : Instr) : (s.schedule c d e).lanesLeft = s.lanesLeft := rfl
@[simp] theorem State.schedule_openTick (s : State) (c : Clk) (d : Nat) (e : Instr) : (s.schedule c d e).openTick = s.openTick := rfl
@[simp] theorem State.schedule_opens (s : State) (c : Clk) (d : Nat) (e : Instr) : (s.schedule c d e).opens = s.opens := rfl
@[simp] theorem State.schedule_nextId (s : State) (c : Clk) (d : Nat) (e : Instr) : (s.schedule c d e).nextId = s.nextId := rfl
@[simp] theorem State.schedule_issueSerial (s : State) (c : Clk) (d : Nat) (e : Instr) : (s.schedule c d e).issueSerial = s.issueSerial := rfl
@[simp] theorem State.schedule_owners (s : State) (c : Clk) (d : Nat) (e : Instr) : (s.schedule c d e).owners = s.owners := rfl
@[simp] theorem State.schedule_islands (s : State) (c : Clk) (d : Nat) (e : Instr) : (s.schedule c d e).islands = s.islands := rfl
@[simp] theorem State.schedule_rota (s : State) (c : Clk) (d : Nat) (e : Instr) : (s.schedule c d e).rota = s.rota := rfl
@[simp] theorem State.schedule_launches (s : State) (c : Clk) (d : Nat) (e : Instr) : (s.schedule c d e).launches = s.launches := rfl
@[simp] theorem State.schedule_wgs (s : State) (c : Clk) (d : Nat) (e : Instr) : (s.schedule c d e).wgs = s.wgs := rfl
@[simp] theorem State.schedule_groups (s : State) (c : Clk) (d : Nat) (e : Instr) : (s.schedule c d e).groups = s.groups := rfl
@[simp] theorem State.schedule_ops (s : State) (c : Clk) (d : Nat) (e : Instr) : (s.schedule c d e).ops = s.ops := rfl
@[simp] theorem State.schedule_engs (s : State) (c : Clk) (d : Nat) (e : Instr) : (s.schedule c d e).engs = s.engs := rfl
@[simp] theorem State.schedule_waits (s : State) (c : Clk) (d : Nat) (e : Instr) : (s.schedule c d e).waits = s.waits := rfl
@[simp] theorem State.schedule_nets (s : State) (c : Clk) (d : Nat) (e : Instr) : (s.schedule c d e).nets = s.nets := rfl
@[simp] theorem State.schedule_heldMsgs (s : State) (c : Clk) (d : Nat) (e : Instr) : (s.schedule c d e).heldMsgs = s.heldMsgs := rfl
@[simp] theorem State.schedule_chunks (s : State) (c : Clk) (d : Nat) (e : Instr) : (s.schedule c d e).chunks = s.chunks := rfl
@[simp] theorem State.schedule_queues (s : State) (c : Clk) (d : Nat) (e : Instr) : (s.schedule c d e).queues = s.queues := rfl
@[simp] theorem State.schedule_passes (s : State) (c : Clk) (d : Nat) (e : Instr) : (s.schedule c d e).passes = s.passes := rfl
@[simp] theorem State.schedule_tileOps (s : State) (c : Clk) (d : Nat) (e : Instr) : (s.schedule c d e).tileOps = s.tileOps := rfl
@[simp] theorem State.schedule_rsv (s : State) (c : Clk) (d : Nat) (e : Instr) : (s.schedule c d e).rsv = s.rsv := rfl
@[simp] theorem State.schedule_rsvOld (s : State) (c : Clk) (d : Nat) (e : Instr) : (s.schedule c d e).rsvOld = s.rsvOld := rfl
@[simp] theorem State.schedule_trec (s : State) (c : Clk) (d : Nat) (e : Instr) : (s.schedule c d e).trec = s.trec := rfl
@[simp] theorem State.schedule_trecOld (s : State) (c : Clk) (d : Nat) (e : Instr) : (s.schedule c d e).trecOld = s.trecOld := rfl
@[simp] theorem State.schedule_mem (s : State) (c : Clk) (d : Nat) (e : Instr) : (s.schedule c d e).mem = s.mem := rfl
@[simp] theorem State.schedule_faulty (s : State) (c : Clk) (d : Nat) (e : Instr) : (s.schedule c d e).faulty = s.faulty := rfl
@[simp] theorem State.schedule_checks (s : State) (c : Clk) (d : Nat) (e : Instr) : (s.schedule c d e).checks = s.checks := rfl
@[simp] theorem State.schedule_scratch (s : State) (c : Clk) (d : Nat) (e : Instr) : (s.schedule c d e).scratch = s.scratch := rfl
@[simp] theorem State.schedule_obuf (s : State) (c : Clk) (d : Nat) (e : Instr) : (s.schedule c d e).obuf = s.obuf := rfl
@[simp] theorem State.schedule_scale (s : State) (c : Clk) (d : Nat) (e : Instr) : (s.schedule c d e).scale = s.scale := rfl
@[simp] theorem State.schedule_acc (s : State) (c : Clk) (d : Nat) (e : Instr) : (s.schedule c d e).acc = s.acc := rfl
@[simp] theorem State.schedule_engScr (s : State) (c : Clk) (d : Nat) (e : Instr) : (s.schedule c d e).engScr = s.engScr := rfl
@[simp] theorem State.schedule_engObuf (s : State) (c : Clk) (d : Nat) (e : Instr) : (s.schedule c d e).engObuf = s.engObuf := rfl
@[simp] theorem State.schedule_readHold (s : State) (c : Clk) (d : Nat) (e : Instr) : (s.schedule c d e).readHold = s.readHold := rfl
@[simp] theorem State.schedule_l1 (s : State) (c : Clk) (d : Nat) (e : Instr) : (s.schedule c d e).l1 = s.l1 := rfl
@[simp] theorem State.schedule_l2 (s : State) (c : Clk) (d : Nat) (e : Instr) : (s.schedule c d e).l2 = s.l2 := rfl
@[simp] theorem State.schedule_tlb (s : State) (c : Clk) (d : Nat) (e : Instr) : (s.schedule c d e).tlb = s.tlb := rfl
@[simp] theorem State.schedule_tables (s : State) (c : Clk) (d : Nat) (e : Instr) : (s.schedule c d e).tables = s.tables := rfl
@[simp] theorem State.schedule_frames (s : State) (c : Clk) (d : Nat) (e : Instr) : (s.schedule c d e).frames = s.frames := rfl
@[simp] theorem State.schedule_hostMem (s : State) (c : Clk) (d : Nat) (e : Instr) : (s.schedule c d e).hostMem = s.hostMem := rfl
@[simp] theorem State.schedule_port (s : State) (c : Clk) (d : Nat) (e : Instr) : (s.schedule c d e).port = s.port := rfl
@[simp] theorem State.schedule_box (s : State) (c : Clk) (d : Nat) (e : Instr) : (s.schedule c d e).box = s.box := rfl
@[simp] theorem State.schedule_boxFrozen (s : State) (c : Clk) (d : Nat) (e : Instr) : (s.schedule c d e).boxFrozen = s.boxFrozen := rfl
@[simp] theorem State.schedule_sensors (s : State) (c : Clk) (d : Nat) (e : Instr) : (s.schedule c d e).sensors = s.sensors := rfl
@[simp] theorem State.schedule_meltSensor (s : State) (c : Clk) (d : Nat) (e : Instr) : (s.schedule c d e).meltSensor = s.meltSensor := rfl
@[simp] theorem State.schedule_stacksHot (s : State) (c : Clk) (d : Nat) (e : Instr) : (s.schedule c d e).stacksHot = s.stacksHot := rfl
@[simp] theorem State.schedule_siloDown (s : State) (c : Clk) (d : Nat) (e : Instr) : (s.schedule c d e).siloDown = s.siloDown := rfl
@[simp] theorem State.schedule_migrations (s : State) (c : Clk) (d : Nat) (e : Instr) : (s.schedule c d e).migrations = s.migrations := rfl
@[simp] theorem State.schedule_moves (s : State) (c : Clk) (d : Nat) (e : Instr) : (s.schedule c d e).moves = s.moves := rfl
@[simp] theorem State.schedule_transfers (s : State) (c : Clk) (d : Nat) (e : Instr) : (s.schedule c d e).transfers = s.transfers := rfl
@[simp] theorem State.schedule_switches (s : State) (c : Clk) (d : Nat) (e : Instr) : (s.schedule c d e).switches = s.switches := rfl
@[simp] theorem State.schedule_toBegin (s : State) (c : Clk) (d : Nat) (e : Instr) : (s.schedule c d e).toBegin = s.toBegin := rfl
@[simp] theorem State.schedule_borders (s : State) (c : Clk) (d : Nat) (e : Instr) : (s.schedule c d e).borders = s.borders := rfl
@[simp] theorem State.schedule_bordering (s : State) (c : Clk) (d : Nat) (e : Instr) : (s.schedule c d e).bordering = s.bordering := rfl
@[simp] theorem State.schedule_boundary (s : State) (c : Clk) (d : Nat) (e : Instr) : (s.schedule c d e).boundary = s.boundary := rfl
@[simp] theorem State.schedule_began (s : State) (c : Clk) (d : Nat) (e : Instr) : (s.schedule c d e).began = s.began := rfl
@[simp] theorem State.schedule_sample (s : State) (c : Clk) (d : Nat) (e : Instr) : (s.schedule c d e).sample = s.sample := rfl
@[simp] theorem State.schedule_swapped (s : State) (c : Clk) (d : Nat) (e : Instr) : (s.schedule c d e).swapped = s.swapped := rfl
@[simp] theorem State.schedule_lidEmergency (s : State) (c : Clk) (d : Nat) (e : Instr) : (s.schedule c d e).lidEmergency = s.lidEmergency := rfl
@[simp] theorem State.schedule_columnsOff (s : State) (c : Clk) (d : Nat) (e : Instr) : (s.schedule c d e).columnsOff = s.columnsOff := rfl
@[simp] theorem State.schedule_fabric (s : State) (c : Clk) (d : Nat) (e : Instr) : (s.schedule c d e).fabric = s.fabric := rfl
@[simp] theorem State.schedule_spdm (s : State) (c : Clk) (d : Nat) (e : Instr) : (s.schedule c d e).spdm = s.spdm := rfl
@[simp] theorem State.schedule_netSerial (s : State) (c : Clk) (d : Nat) (e : Instr) : (s.schedule c d e).netSerial = s.netSerial := rfl
@[simp] theorem State.schedule_unsettled (s : State) (c : Clk) (d : Nat) (e : Instr) : (s.schedule c d e).unsettled = s.unsettled := rfl

@[simp] theorem State.tickOpen_powered (s : State) : (s.tickOpen).powered = s.powered := rfl
@[simp] theorem State.tickOpen_rank (s : State) : (s.tickOpen).rank = s.rank := rfl
@[simp] theorem State.tickOpen_inDomain (s : State) : (s.tickOpen).inDomain = s.inDomain := rfl
@[simp] theorem State.tickOpen_now (s : State) : (s.tickOpen).now = s.now := rfl
@[simp] theorem State.tickOpen_turn (s : State) : (s.tickOpen).turn = s.turn := rfl
@[simp] theorem State.tickOpen_cur (s : State) : (s.tickOpen).cur = s.cur := rfl
@[simp] theorem State.tickOpen_inbox (s : State) : (s.tickOpen).inbox = s.inbox := rfl
@[simp] theorem State.tickOpen_agenda (s : State) : (s.tickOpen).agenda = s.agenda := rfl
@[simp] theorem State.tickOpen_lanesLeft (s : State) : (s.tickOpen).lanesLeft = s.lanesLeft := rfl
@[simp] theorem State.tickOpen_opens (s : State) : (s.tickOpen).opens = s.opens := rfl
@[simp] theorem State.tickOpen_nextId (s : State) : (s.tickOpen).nextId = s.nextId := rfl
@[simp] theorem State.tickOpen_issueSerial (s : State) : (s.tickOpen).issueSerial = s.issueSerial := rfl
@[simp] theorem State.tickOpen_owners (s : State) : (s.tickOpen).owners = s.owners := rfl
@[simp] theorem State.tickOpen_islands (s : State) : (s.tickOpen).islands = s.islands := rfl
@[simp] theorem State.tickOpen_rota (s : State) : (s.tickOpen).rota = s.rota := rfl
@[simp] theorem State.tickOpen_launches (s : State) : (s.tickOpen).launches = s.launches := rfl
@[simp] theorem State.tickOpen_wgs (s : State) : (s.tickOpen).wgs = s.wgs := rfl
@[simp] theorem State.tickOpen_groups (s : State) : (s.tickOpen).groups = s.groups := rfl
@[simp] theorem State.tickOpen_ops (s : State) : (s.tickOpen).ops = s.ops := rfl
@[simp] theorem State.tickOpen_engs (s : State) : (s.tickOpen).engs = s.engs := rfl
@[simp] theorem State.tickOpen_waits (s : State) : (s.tickOpen).waits = s.waits := rfl
@[simp] theorem State.tickOpen_nets (s : State) : (s.tickOpen).nets = s.nets := rfl
@[simp] theorem State.tickOpen_heldMsgs (s : State) : (s.tickOpen).heldMsgs = s.heldMsgs := rfl
@[simp] theorem State.tickOpen_chunks (s : State) : (s.tickOpen).chunks = s.chunks := rfl
@[simp] theorem State.tickOpen_queues (s : State) : (s.tickOpen).queues = s.queues := rfl
@[simp] theorem State.tickOpen_passes (s : State) : (s.tickOpen).passes = s.passes := rfl
@[simp] theorem State.tickOpen_tileOps (s : State) : (s.tickOpen).tileOps = s.tileOps := rfl
@[simp] theorem State.tickOpen_rsv (s : State) : (s.tickOpen).rsv = s.rsv := rfl
@[simp] theorem State.tickOpen_rsvOld (s : State) : (s.tickOpen).rsvOld = s.rsvOld := rfl
@[simp] theorem State.tickOpen_trec (s : State) : (s.tickOpen).trec = s.trec := rfl
@[simp] theorem State.tickOpen_trecOld (s : State) : (s.tickOpen).trecOld = s.trecOld := rfl
@[simp] theorem State.tickOpen_mem (s : State) : (s.tickOpen).mem = s.mem := rfl
@[simp] theorem State.tickOpen_faulty (s : State) : (s.tickOpen).faulty = s.faulty := rfl
@[simp] theorem State.tickOpen_checks (s : State) : (s.tickOpen).checks = s.checks := rfl
@[simp] theorem State.tickOpen_scratch (s : State) : (s.tickOpen).scratch = s.scratch := rfl
@[simp] theorem State.tickOpen_obuf (s : State) : (s.tickOpen).obuf = s.obuf := rfl
@[simp] theorem State.tickOpen_scale (s : State) : (s.tickOpen).scale = s.scale := rfl
@[simp] theorem State.tickOpen_acc (s : State) : (s.tickOpen).acc = s.acc := rfl
@[simp] theorem State.tickOpen_engScr (s : State) : (s.tickOpen).engScr = s.engScr := rfl
@[simp] theorem State.tickOpen_engObuf (s : State) : (s.tickOpen).engObuf = s.engObuf := rfl
@[simp] theorem State.tickOpen_readHold (s : State) : (s.tickOpen).readHold = s.readHold := rfl
@[simp] theorem State.tickOpen_l1 (s : State) : (s.tickOpen).l1 = s.l1 := rfl
@[simp] theorem State.tickOpen_l2 (s : State) : (s.tickOpen).l2 = s.l2 := rfl
@[simp] theorem State.tickOpen_tlb (s : State) : (s.tickOpen).tlb = s.tlb := rfl
@[simp] theorem State.tickOpen_tables (s : State) : (s.tickOpen).tables = s.tables := rfl
@[simp] theorem State.tickOpen_frames (s : State) : (s.tickOpen).frames = s.frames := rfl
@[simp] theorem State.tickOpen_hostMem (s : State) : (s.tickOpen).hostMem = s.hostMem := rfl
@[simp] theorem State.tickOpen_port (s : State) : (s.tickOpen).port = s.port := rfl
@[simp] theorem State.tickOpen_box (s : State) : (s.tickOpen).box = s.box := rfl
@[simp] theorem State.tickOpen_boxFrozen (s : State) : (s.tickOpen).boxFrozen = s.boxFrozen := rfl
@[simp] theorem State.tickOpen_sensors (s : State) : (s.tickOpen).sensors = s.sensors := rfl
@[simp] theorem State.tickOpen_meltSensor (s : State) : (s.tickOpen).meltSensor = s.meltSensor := rfl
@[simp] theorem State.tickOpen_stacksHot (s : State) : (s.tickOpen).stacksHot = s.stacksHot := rfl
@[simp] theorem State.tickOpen_siloDown (s : State) : (s.tickOpen).siloDown = s.siloDown := rfl
@[simp] theorem State.tickOpen_migrations (s : State) : (s.tickOpen).migrations = s.migrations := rfl
@[simp] theorem State.tickOpen_moves (s : State) : (s.tickOpen).moves = s.moves := rfl
@[simp] theorem State.tickOpen_transfers (s : State) : (s.tickOpen).transfers = s.transfers := rfl
@[simp] theorem State.tickOpen_switches (s : State) : (s.tickOpen).switches = s.switches := rfl
@[simp] theorem State.tickOpen_toBegin (s : State) : (s.tickOpen).toBegin = s.toBegin := rfl
@[simp] theorem State.tickOpen_borders (s : State) : (s.tickOpen).borders = s.borders := rfl
@[simp] theorem State.tickOpen_bordering (s : State) : (s.tickOpen).bordering = s.bordering := rfl
@[simp] theorem State.tickOpen_boundary (s : State) : (s.tickOpen).boundary = s.boundary := rfl
@[simp] theorem State.tickOpen_began (s : State) : (s.tickOpen).began = s.began := rfl
@[simp] theorem State.tickOpen_sample (s : State) : (s.tickOpen).sample = s.sample := rfl
@[simp] theorem State.tickOpen_swapped (s : State) : (s.tickOpen).swapped = s.swapped := rfl
@[simp] theorem State.tickOpen_lidEmergency (s : State) : (s.tickOpen).lidEmergency = s.lidEmergency := rfl
@[simp] theorem State.tickOpen_columnsOff (s : State) : (s.tickOpen).columnsOff = s.columnsOff := rfl
@[simp] theorem State.tickOpen_fabric (s : State) : (s.tickOpen).fabric = s.fabric := rfl
@[simp] theorem State.tickOpen_spdm (s : State) : (s.tickOpen).spdm = s.spdm := rfl
@[simp] theorem State.tickOpen_netSerial (s : State) : (s.tickOpen).netSerial = s.netSerial := rfl
@[simp] theorem State.tickOpen_unsettled (s : State) : (s.tickOpen).unsettled = s.unsettled := rfl

/-! ### A group -/

@[simp] theorem Group.setV_live (g : Group) (r : Reg) (t : Nat) (w : Word) : (g.setV r t w).live = g.live := rfl
@[simp] theorem Group.setV_away (g : Group) (r : Reg) (t : Nat) (w : Word) : (g.setV r t w).away = g.away := rfl
@[simp] theorem Group.setV_owner (g : Group) (r : Reg) (t : Nat) (w : Word) : (g.setV r t w).owner = g.owner := rfl
@[simp] theorem Group.setV_launch (g : Group) (r : Reg) (t : Nat) (w : Word) : (g.setV r t w).launch = g.launch := rfl
@[simp] theorem Group.setV_wg (g : Group) (r : Reg) (t : Nat) (w : Word) : (g.setV r t w).wg = g.wg := rfl
@[simp] theorem Group.setV_index (g : Group) (r : Reg) (t : Nat) (w : Word) : (g.setV r t w).index = g.index := rfl
@[simp] theorem Group.setV_core (g : Group) (r : Reg) (t : Nat) (w : Word) : (g.setV r t w).core = g.core := rfl
@[simp] theorem Group.setV_lane (g : Group) (r : Reg) (t : Nat) (w : Word) : (g.setV r t w).lane = g.lane := rfl
@[simp] theorem Group.setV_ctx (g : Group) (r : Reg) (t : Nat) (w : Word) : (g.setV r t w).ctx = g.ctx := rfl
@[simp] theorem Group.setV_pc (g : Group) (r : Reg) (t : Nat) (w : Word) : (g.setV r t w).pc = g.pc := rfl
@[simp] theorem Group.setV_g (g : Group) (r : Reg) (t : Nat) (w : Word) : (g.setV r t w).g = g.g := rfl
@[simp] theorem Group.setV_p (g : Group) (r : Reg) (t : Nat) (w : Word) : (g.setV r t w).p = g.p := rfl
@[simp] theorem Group.setV_q (g : Group) (r : Reg) (t : Nat) (w : Word) : (g.setV r t w).q = g.q := rfl
@[simp] theorem Group.setV_threads (g : Group) (r : Reg) (t : Nat) (w : Word) : (g.setV r t w).threads = g.threads := rfl
@[simp] theorem Group.setV_joins (g : Group) (r : Reg) (t : Nat) (w : Word) : (g.setV r t w).joins = g.joins := rfl
@[simp] theorem Group.setV_loops (g : Group) (r : Reg) (t : Nat) (w : Word) : (g.setV r t w).loops = g.loops := rfl
@[simp] theorem Group.setV_n (g : Group) (r : Reg) (t : Nat) (w : Word) : (g.setV r t w).n = g.n := rfl
@[simp] theorem Group.setV_flags (g : Group) (r : Reg) (t : Nat) (w : Word) : (g.setV r t w).flags = g.flags := rfl
@[simp] theorem Group.setV_flagArm (g : Group) (r : Reg) (t : Nat) (w : Word) : (g.setV r t w).flagArm = g.flagArm := rfl
@[simp] theorem Group.setV_tmask (g : Group) (r : Reg) (t : Nat) (w : Word) : (g.setV r t w).tmask = g.tmask := rfl
@[simp] theorem Group.setV_tcause (g : Group) (r : Reg) (t : Nat) (w : Word) : (g.setV r t w).tcause = g.tcause := rfl
@[simp] theorem Group.setV_tdetA (g : Group) (r : Reg) (t : Nat) (w : Word) : (g.setV r t w).tdetA = g.tdetA := rfl
@[simp] theorem Group.setV_tdetB (g : Group) (r : Reg) (t : Nat) (w : Word) : (g.setV r t w).tdetB = g.tdetB := rfl
@[simp] theorem Group.setV_tdetC (g : Group) (r : Reg) (t : Nat) (w : Word) : (g.setV r t w).tdetC = g.tdetC := rfl
@[simp] theorem Group.setV_trapPc (g : Group) (r : Reg) (t : Nat) (w : Word) : (g.setV r t w).trapPc = g.trapPc := rfl
@[simp] theorem Group.setV_trapMode (g : Group) (r : Reg) (t : Nat) (w : Word) : (g.setV r t w).trapMode = g.trapMode := rfl
@[simp] theorem Group.setV_noResume (g : Group) (r : Reg) (t : Nat) (w : Word) : (g.setV r t w).noResume = g.noResume := rfl
@[simp] theorem Group.setV_frame (g : Group) (r : Reg) (t : Nat) (w : Word) : (g.setV r t w).frame = g.frame := rfl
@[simp] theorem Group.setV_pend (g : Group) (r : Reg) (t : Nat) (w : Word) : (g.setV r t w).pend = g.pend := rfl
@[simp] theorem Group.setV_outs (g : Group) (r : Reg) (t : Nat) (w : Word) : (g.setV r t w).outs = g.outs := rfl
@[simp] theorem Group.setV_waitSlot (g : Group) (r : Reg) (t : Nat) (w : Word) : (g.setV r t w).waitSlot = g.waitSlot := rfl
@[simp] theorem Group.setV_waited (g : Group) (r : Reg) (t : Nat) (w : Word) : (g.setV r t w).waited = g.waited := rfl
@[simp] theorem Group.setV_waitFrom (g : Group) (r : Reg) (t : Nat) (w : Word) : (g.setV r t w).waitFrom = g.waitFrom := rfl
@[simp] theorem Group.setV_barMark (g : Group) (r : Reg) (t : Nat) (w : Word) : (g.setV r t w).barMark = g.barMark := rfl
@[simp] theorem Group.setV_batch (g : Group) (r : Reg) (t : Nat) (w : Word) : (g.setV r t w).batch = g.batch := rfl
@[simp] theorem Group.setV_batches (g : Group) (r : Reg) (t : Nat) (w : Word) : (g.setV r t w).batches = g.batches := rfl
@[simp] theorem Group.setV_randKey (g : Group) (r : Reg) (t : Nat) (w : Word) : (g.setV r t w).randKey = g.randKey := rfl
@[simp] theorem Group.setV_randCtr (g : Group) (r : Reg) (t : Nat) (w : Word) : (g.setV r t w).randCtr = g.randCtr := rfl
@[simp] theorem Group.setV_xchgN (g : Group) (r : Reg) (t : Nat) (w : Word) : (g.setV r t w).xchgN = g.xchgN := rfl
@[simp] theorem Group.setV_treeN (g : Group) (r : Reg) (t : Nat) (w : Word) : (g.setV r t w).treeN = g.treeN := rfl
@[simp] theorem Group.setV_hint (g : Group) (r : Reg) (t : Nat) (w : Word) : (g.setV r t w).hint = g.hint := rfl
@[simp] theorem Group.setV_avail (g : Group) (r : Reg) (t : Nat) (w : Word) : (g.setV r t w).avail = g.avail := rfl
@[simp] theorem Group.setV_late (g : Group) (r : Reg) (t : Nat) (w : Word) : (g.setV r t w).late = g.late := rfl
@[simp] theorem Group.setV_stall (g : Group) (r : Reg) (t : Nat) (w : Word) : (g.setV r t w).stall = g.stall := rfl
@[simp] theorem Group.setV_skip (g : Group) (r : Reg) (t : Nat) (w : Word) : (g.setV r t w).skip = g.skip := rfl
@[simp] theorem Group.setV_yieldFor (g : Group) (r : Reg) (t : Nat) (w : Word) : (g.setV r t w).yieldFor = g.yieldFor := rfl
@[simp] theorem Group.setV_readyAt (g : Group) (r : Reg) (t : Nat) (w : Word) : (g.setV r t w).readyAt = g.readyAt := rfl
@[simp] theorem Group.setV_busy (g : Group) (r : Reg) (t : Nat) (w : Word) : (g.setV r t w).busy = g.busy := rfl
@[simp] theorem Group.setV_gate (g : Group) (r : Reg) (t : Nat) (w : Word) : (g.setV r t w).gate = g.gate := rfl
@[simp] theorem Group.setV_fences (g : Group) (r : Reg) (t : Nat) (w : Word) : (g.setV r t w).fences = g.fences := rfl
@[simp] theorem Group.setV_seen (g : Group) (r : Reg) (t : Nat) (w : Word) : (g.setV r t w).seen = g.seen := rfl
@[simp] theorem Group.setV_heard (g : Group) (r : Reg) (t : Nat) (w : Word) : (g.setV r t w).heard = g.heard := rfl
@[simp] theorem Group.setV_lastIssue (g : Group) (r : Reg) (t : Nat) (w : Word) : (g.setV r t w).lastIssue = g.lastIssue := rfl
@[simp] theorem Group.setV_rank (g : Group) (r : Reg) (t : Nat) (w : Word) : (g.setV r t w).rank = g.rank := rfl

@[simp] theorem Group.setG_live (g : Group) (r : Reg) (w : Word) : (g.setG r w).live = g.live := rfl
@[simp] theorem Group.setG_away (g : Group) (r : Reg) (w : Word) : (g.setG r w).away = g.away := rfl
@[simp] theorem Group.setG_owner (g : Group) (r : Reg) (w : Word) : (g.setG r w).owner = g.owner := rfl
@[simp] theorem Group.setG_launch (g : Group) (r : Reg) (w : Word) : (g.setG r w).launch = g.launch := rfl
@[simp] theorem Group.setG_wg (g : Group) (r : Reg) (w : Word) : (g.setG r w).wg = g.wg := rfl
@[simp] theorem Group.setG_index (g : Group) (r : Reg) (w : Word) : (g.setG r w).index = g.index := rfl
@[simp] theorem Group.setG_core (g : Group) (r : Reg) (w : Word) : (g.setG r w).core = g.core := rfl
@[simp] theorem Group.setG_lane (g : Group) (r : Reg) (w : Word) : (g.setG r w).lane = g.lane := rfl
@[simp] theorem Group.setG_ctx (g : Group) (r : Reg) (w : Word) : (g.setG r w).ctx = g.ctx := rfl
@[simp] theorem Group.setG_pc (g : Group) (r : Reg) (w : Word) : (g.setG r w).pc = g.pc := rfl
@[simp] theorem Group.setG_v (g : Group) (r : Reg) (w : Word) : (g.setG r w).v = g.v := rfl
@[simp] theorem Group.setG_p (g : Group) (r : Reg) (w : Word) : (g.setG r w).p = g.p := rfl
@[simp] theorem Group.setG_q (g : Group) (r : Reg) (w : Word) : (g.setG r w).q = g.q := rfl
@[simp] theorem Group.setG_threads (g : Group) (r : Reg) (w : Word) : (g.setG r w).threads = g.threads := rfl
@[simp] theorem Group.setG_joins (g : Group) (r : Reg) (w : Word) : (g.setG r w).joins = g.joins := rfl
@[simp] theorem Group.setG_loops (g : Group) (r : Reg) (w : Word) : (g.setG r w).loops = g.loops := rfl
@[simp] theorem Group.setG_n (g : Group) (r : Reg) (w : Word) : (g.setG r w).n = g.n := rfl
@[simp] theorem Group.setG_flags (g : Group) (r : Reg) (w : Word) : (g.setG r w).flags = g.flags := rfl
@[simp] theorem Group.setG_flagArm (g : Group) (r : Reg) (w : Word) : (g.setG r w).flagArm = g.flagArm := rfl
@[simp] theorem Group.setG_tmask (g : Group) (r : Reg) (w : Word) : (g.setG r w).tmask = g.tmask := rfl
@[simp] theorem Group.setG_tcause (g : Group) (r : Reg) (w : Word) : (g.setG r w).tcause = g.tcause := rfl
@[simp] theorem Group.setG_tdetA (g : Group) (r : Reg) (w : Word) : (g.setG r w).tdetA = g.tdetA := rfl
@[simp] theorem Group.setG_tdetB (g : Group) (r : Reg) (w : Word) : (g.setG r w).tdetB = g.tdetB := rfl
@[simp] theorem Group.setG_tdetC (g : Group) (r : Reg) (w : Word) : (g.setG r w).tdetC = g.tdetC := rfl
@[simp] theorem Group.setG_trapPc (g : Group) (r : Reg) (w : Word) : (g.setG r w).trapPc = g.trapPc := rfl
@[simp] theorem Group.setG_trapMode (g : Group) (r : Reg) (w : Word) : (g.setG r w).trapMode = g.trapMode := rfl
@[simp] theorem Group.setG_noResume (g : Group) (r : Reg) (w : Word) : (g.setG r w).noResume = g.noResume := rfl
@[simp] theorem Group.setG_frame (g : Group) (r : Reg) (w : Word) : (g.setG r w).frame = g.frame := rfl
@[simp] theorem Group.setG_pend (g : Group) (r : Reg) (w : Word) : (g.setG r w).pend = g.pend := rfl
@[simp] theorem Group.setG_outs (g : Group) (r : Reg) (w : Word) : (g.setG r w).outs = g.outs := rfl
@[simp] theorem Group.setG_waitSlot (g : Group) (r : Reg) (w : Word) : (g.setG r w).waitSlot = g.waitSlot := rfl
@[simp] theorem Group.setG_waited (g : Group) (r : Reg) (w : Word) : (g.setG r w).waited = g.waited := rfl
@[simp] theorem Group.setG_waitFrom (g : Group) (r : Reg) (w : Word) : (g.setG r w).waitFrom = g.waitFrom := rfl
@[simp] theorem Group.setG_barMark (g : Group) (r : Reg) (w : Word) : (g.setG r w).barMark = g.barMark := rfl
@[simp] theorem Group.setG_batch (g : Group) (r : Reg) (w : Word) : (g.setG r w).batch = g.batch := rfl
@[simp] theorem Group.setG_batches (g : Group) (r : Reg) (w : Word) : (g.setG r w).batches = g.batches := rfl
@[simp] theorem Group.setG_randKey (g : Group) (r : Reg) (w : Word) : (g.setG r w).randKey = g.randKey := rfl
@[simp] theorem Group.setG_randCtr (g : Group) (r : Reg) (w : Word) : (g.setG r w).randCtr = g.randCtr := rfl
@[simp] theorem Group.setG_xchgN (g : Group) (r : Reg) (w : Word) : (g.setG r w).xchgN = g.xchgN := rfl
@[simp] theorem Group.setG_treeN (g : Group) (r : Reg) (w : Word) : (g.setG r w).treeN = g.treeN := rfl
@[simp] theorem Group.setG_hint (g : Group) (r : Reg) (w : Word) : (g.setG r w).hint = g.hint := rfl
@[simp] theorem Group.setG_avail (g : Group) (r : Reg) (w : Word) : (g.setG r w).avail = g.avail := rfl
@[simp] theorem Group.setG_late (g : Group) (r : Reg) (w : Word) : (g.setG r w).late = g.late := rfl
@[simp] theorem Group.setG_stall (g : Group) (r : Reg) (w : Word) : (g.setG r w).stall = g.stall := rfl
@[simp] theorem Group.setG_skip (g : Group) (r : Reg) (w : Word) : (g.setG r w).skip = g.skip := rfl
@[simp] theorem Group.setG_yieldFor (g : Group) (r : Reg) (w : Word) : (g.setG r w).yieldFor = g.yieldFor := rfl
@[simp] theorem Group.setG_readyAt (g : Group) (r : Reg) (w : Word) : (g.setG r w).readyAt = g.readyAt := rfl
@[simp] theorem Group.setG_busy (g : Group) (r : Reg) (w : Word) : (g.setG r w).busy = g.busy := rfl
@[simp] theorem Group.setG_gate (g : Group) (r : Reg) (w : Word) : (g.setG r w).gate = g.gate := rfl
@[simp] theorem Group.setG_fences (g : Group) (r : Reg) (w : Word) : (g.setG r w).fences = g.fences := rfl
@[simp] theorem Group.setG_seen (g : Group) (r : Reg) (w : Word) : (g.setG r w).seen = g.seen := rfl
@[simp] theorem Group.setG_heard (g : Group) (r : Reg) (w : Word) : (g.setG r w).heard = g.heard := rfl
@[simp] theorem Group.setG_lastIssue (g : Group) (r : Reg) (w : Word) : (g.setG r w).lastIssue = g.lastIssue := rfl
@[simp] theorem Group.setG_rank (g : Group) (r : Reg) (w : Word) : (g.setG r w).rank = g.rank := rfl

@[simp] theorem Group.setP_live (g : Group) (i : BitVec 3) (t : Nat) (x : Bool) : (g.setP i t x).live = g.live := rfl
@[simp] theorem Group.setP_away (g : Group) (i : BitVec 3) (t : Nat) (x : Bool) : (g.setP i t x).away = g.away := rfl
@[simp] theorem Group.setP_owner (g : Group) (i : BitVec 3) (t : Nat) (x : Bool) : (g.setP i t x).owner = g.owner := rfl
@[simp] theorem Group.setP_launch (g : Group) (i : BitVec 3) (t : Nat) (x : Bool) : (g.setP i t x).launch = g.launch := rfl
@[simp] theorem Group.setP_wg (g : Group) (i : BitVec 3) (t : Nat) (x : Bool) : (g.setP i t x).wg = g.wg := rfl
@[simp] theorem Group.setP_index (g : Group) (i : BitVec 3) (t : Nat) (x : Bool) : (g.setP i t x).index = g.index := rfl
@[simp] theorem Group.setP_core (g : Group) (i : BitVec 3) (t : Nat) (x : Bool) : (g.setP i t x).core = g.core := rfl
@[simp] theorem Group.setP_lane (g : Group) (i : BitVec 3) (t : Nat) (x : Bool) : (g.setP i t x).lane = g.lane := rfl
@[simp] theorem Group.setP_ctx (g : Group) (i : BitVec 3) (t : Nat) (x : Bool) : (g.setP i t x).ctx = g.ctx := rfl
@[simp] theorem Group.setP_pc (g : Group) (i : BitVec 3) (t : Nat) (x : Bool) : (g.setP i t x).pc = g.pc := rfl
@[simp] theorem Group.setP_v (g : Group) (i : BitVec 3) (t : Nat) (x : Bool) : (g.setP i t x).v = g.v := rfl
@[simp] theorem Group.setP_g (g : Group) (i : BitVec 3) (t : Nat) (x : Bool) : (g.setP i t x).g = g.g := rfl
@[simp] theorem Group.setP_q (g : Group) (i : BitVec 3) (t : Nat) (x : Bool) : (g.setP i t x).q = g.q := rfl
@[simp] theorem Group.setP_threads (g : Group) (i : BitVec 3) (t : Nat) (x : Bool) : (g.setP i t x).threads = g.threads := rfl
@[simp] theorem Group.setP_joins (g : Group) (i : BitVec 3) (t : Nat) (x : Bool) : (g.setP i t x).joins = g.joins := rfl
@[simp] theorem Group.setP_loops (g : Group) (i : BitVec 3) (t : Nat) (x : Bool) : (g.setP i t x).loops = g.loops := rfl
@[simp] theorem Group.setP_n (g : Group) (i : BitVec 3) (t : Nat) (x : Bool) : (g.setP i t x).n = g.n := rfl
@[simp] theorem Group.setP_flags (g : Group) (i : BitVec 3) (t : Nat) (x : Bool) : (g.setP i t x).flags = g.flags := rfl
@[simp] theorem Group.setP_flagArm (g : Group) (i : BitVec 3) (t : Nat) (x : Bool) : (g.setP i t x).flagArm = g.flagArm := rfl
@[simp] theorem Group.setP_tmask (g : Group) (i : BitVec 3) (t : Nat) (x : Bool) : (g.setP i t x).tmask = g.tmask := rfl
@[simp] theorem Group.setP_tcause (g : Group) (i : BitVec 3) (t : Nat) (x : Bool) : (g.setP i t x).tcause = g.tcause := rfl
@[simp] theorem Group.setP_tdetA (g : Group) (i : BitVec 3) (t : Nat) (x : Bool) : (g.setP i t x).tdetA = g.tdetA := rfl
@[simp] theorem Group.setP_tdetB (g : Group) (i : BitVec 3) (t : Nat) (x : Bool) : (g.setP i t x).tdetB = g.tdetB := rfl
@[simp] theorem Group.setP_tdetC (g : Group) (i : BitVec 3) (t : Nat) (x : Bool) : (g.setP i t x).tdetC = g.tdetC := rfl
@[simp] theorem Group.setP_trapPc (g : Group) (i : BitVec 3) (t : Nat) (x : Bool) : (g.setP i t x).trapPc = g.trapPc := rfl
@[simp] theorem Group.setP_trapMode (g : Group) (i : BitVec 3) (t : Nat) (x : Bool) : (g.setP i t x).trapMode = g.trapMode := rfl
@[simp] theorem Group.setP_noResume (g : Group) (i : BitVec 3) (t : Nat) (x : Bool) : (g.setP i t x).noResume = g.noResume := rfl
@[simp] theorem Group.setP_frame (g : Group) (i : BitVec 3) (t : Nat) (x : Bool) : (g.setP i t x).frame = g.frame := rfl
@[simp] theorem Group.setP_pend (g : Group) (i : BitVec 3) (t : Nat) (x : Bool) : (g.setP i t x).pend = g.pend := rfl
@[simp] theorem Group.setP_outs (g : Group) (i : BitVec 3) (t : Nat) (x : Bool) : (g.setP i t x).outs = g.outs := rfl
@[simp] theorem Group.setP_waitSlot (g : Group) (i : BitVec 3) (t : Nat) (x : Bool) : (g.setP i t x).waitSlot = g.waitSlot := rfl
@[simp] theorem Group.setP_waited (g : Group) (i : BitVec 3) (t : Nat) (x : Bool) : (g.setP i t x).waited = g.waited := rfl
@[simp] theorem Group.setP_waitFrom (g : Group) (i : BitVec 3) (t : Nat) (x : Bool) : (g.setP i t x).waitFrom = g.waitFrom := rfl
@[simp] theorem Group.setP_barMark (g : Group) (i : BitVec 3) (t : Nat) (x : Bool) : (g.setP i t x).barMark = g.barMark := rfl
@[simp] theorem Group.setP_batch (g : Group) (i : BitVec 3) (t : Nat) (x : Bool) : (g.setP i t x).batch = g.batch := rfl
@[simp] theorem Group.setP_batches (g : Group) (i : BitVec 3) (t : Nat) (x : Bool) : (g.setP i t x).batches = g.batches := rfl
@[simp] theorem Group.setP_randKey (g : Group) (i : BitVec 3) (t : Nat) (x : Bool) : (g.setP i t x).randKey = g.randKey := rfl
@[simp] theorem Group.setP_randCtr (g : Group) (i : BitVec 3) (t : Nat) (x : Bool) : (g.setP i t x).randCtr = g.randCtr := rfl
@[simp] theorem Group.setP_xchgN (g : Group) (i : BitVec 3) (t : Nat) (x : Bool) : (g.setP i t x).xchgN = g.xchgN := rfl
@[simp] theorem Group.setP_treeN (g : Group) (i : BitVec 3) (t : Nat) (x : Bool) : (g.setP i t x).treeN = g.treeN := rfl
@[simp] theorem Group.setP_hint (g : Group) (i : BitVec 3) (t : Nat) (x : Bool) : (g.setP i t x).hint = g.hint := rfl
@[simp] theorem Group.setP_avail (g : Group) (i : BitVec 3) (t : Nat) (x : Bool) : (g.setP i t x).avail = g.avail := rfl
@[simp] theorem Group.setP_late (g : Group) (i : BitVec 3) (t : Nat) (x : Bool) : (g.setP i t x).late = g.late := rfl
@[simp] theorem Group.setP_stall (g : Group) (i : BitVec 3) (t : Nat) (x : Bool) : (g.setP i t x).stall = g.stall := rfl
@[simp] theorem Group.setP_skip (g : Group) (i : BitVec 3) (t : Nat) (x : Bool) : (g.setP i t x).skip = g.skip := rfl
@[simp] theorem Group.setP_yieldFor (g : Group) (i : BitVec 3) (t : Nat) (x : Bool) : (g.setP i t x).yieldFor = g.yieldFor := rfl
@[simp] theorem Group.setP_readyAt (g : Group) (i : BitVec 3) (t : Nat) (x : Bool) : (g.setP i t x).readyAt = g.readyAt := rfl
@[simp] theorem Group.setP_busy (g : Group) (i : BitVec 3) (t : Nat) (x : Bool) : (g.setP i t x).busy = g.busy := rfl
@[simp] theorem Group.setP_gate (g : Group) (i : BitVec 3) (t : Nat) (x : Bool) : (g.setP i t x).gate = g.gate := rfl
@[simp] theorem Group.setP_fences (g : Group) (i : BitVec 3) (t : Nat) (x : Bool) : (g.setP i t x).fences = g.fences := rfl
@[simp] theorem Group.setP_seen (g : Group) (i : BitVec 3) (t : Nat) (x : Bool) : (g.setP i t x).seen = g.seen := rfl
@[simp] theorem Group.setP_heard (g : Group) (i : BitVec 3) (t : Nat) (x : Bool) : (g.setP i t x).heard = g.heard := rfl
@[simp] theorem Group.setP_lastIssue (g : Group) (i : BitVec 3) (t : Nat) (x : Bool) : (g.setP i t x).lastIssue = g.lastIssue := rfl
@[simp] theorem Group.setP_rank (g : Group) (i : BitVec 3) (t : Nat) (x : Bool) : (g.setP i t x).rank = g.rank := rfl

@[simp] theorem Group.setQ_live (g : Group) (i : BitVec 3) (x : Bool) : (g.setQ i x).live = g.live := rfl
@[simp] theorem Group.setQ_away (g : Group) (i : BitVec 3) (x : Bool) : (g.setQ i x).away = g.away := rfl
@[simp] theorem Group.setQ_owner (g : Group) (i : BitVec 3) (x : Bool) : (g.setQ i x).owner = g.owner := rfl
@[simp] theorem Group.setQ_launch (g : Group) (i : BitVec 3) (x : Bool) : (g.setQ i x).launch = g.launch := rfl
@[simp] theorem Group.setQ_wg (g : Group) (i : BitVec 3) (x : Bool) : (g.setQ i x).wg = g.wg := rfl
@[simp] theorem Group.setQ_index (g : Group) (i : BitVec 3) (x : Bool) : (g.setQ i x).index = g.index := rfl
@[simp] theorem Group.setQ_core (g : Group) (i : BitVec 3) (x : Bool) : (g.setQ i x).core = g.core := rfl
@[simp] theorem Group.setQ_lane (g : Group) (i : BitVec 3) (x : Bool) : (g.setQ i x).lane = g.lane := rfl
@[simp] theorem Group.setQ_ctx (g : Group) (i : BitVec 3) (x : Bool) : (g.setQ i x).ctx = g.ctx := rfl
@[simp] theorem Group.setQ_pc (g : Group) (i : BitVec 3) (x : Bool) : (g.setQ i x).pc = g.pc := rfl
@[simp] theorem Group.setQ_v (g : Group) (i : BitVec 3) (x : Bool) : (g.setQ i x).v = g.v := rfl
@[simp] theorem Group.setQ_g (g : Group) (i : BitVec 3) (x : Bool) : (g.setQ i x).g = g.g := rfl
@[simp] theorem Group.setQ_p (g : Group) (i : BitVec 3) (x : Bool) : (g.setQ i x).p = g.p := rfl
@[simp] theorem Group.setQ_threads (g : Group) (i : BitVec 3) (x : Bool) : (g.setQ i x).threads = g.threads := rfl
@[simp] theorem Group.setQ_joins (g : Group) (i : BitVec 3) (x : Bool) : (g.setQ i x).joins = g.joins := rfl
@[simp] theorem Group.setQ_loops (g : Group) (i : BitVec 3) (x : Bool) : (g.setQ i x).loops = g.loops := rfl
@[simp] theorem Group.setQ_n (g : Group) (i : BitVec 3) (x : Bool) : (g.setQ i x).n = g.n := rfl
@[simp] theorem Group.setQ_flags (g : Group) (i : BitVec 3) (x : Bool) : (g.setQ i x).flags = g.flags := rfl
@[simp] theorem Group.setQ_flagArm (g : Group) (i : BitVec 3) (x : Bool) : (g.setQ i x).flagArm = g.flagArm := rfl
@[simp] theorem Group.setQ_tmask (g : Group) (i : BitVec 3) (x : Bool) : (g.setQ i x).tmask = g.tmask := rfl
@[simp] theorem Group.setQ_tcause (g : Group) (i : BitVec 3) (x : Bool) : (g.setQ i x).tcause = g.tcause := rfl
@[simp] theorem Group.setQ_tdetA (g : Group) (i : BitVec 3) (x : Bool) : (g.setQ i x).tdetA = g.tdetA := rfl
@[simp] theorem Group.setQ_tdetB (g : Group) (i : BitVec 3) (x : Bool) : (g.setQ i x).tdetB = g.tdetB := rfl
@[simp] theorem Group.setQ_tdetC (g : Group) (i : BitVec 3) (x : Bool) : (g.setQ i x).tdetC = g.tdetC := rfl
@[simp] theorem Group.setQ_trapPc (g : Group) (i : BitVec 3) (x : Bool) : (g.setQ i x).trapPc = g.trapPc := rfl
@[simp] theorem Group.setQ_trapMode (g : Group) (i : BitVec 3) (x : Bool) : (g.setQ i x).trapMode = g.trapMode := rfl
@[simp] theorem Group.setQ_noResume (g : Group) (i : BitVec 3) (x : Bool) : (g.setQ i x).noResume = g.noResume := rfl
@[simp] theorem Group.setQ_frame (g : Group) (i : BitVec 3) (x : Bool) : (g.setQ i x).frame = g.frame := rfl
@[simp] theorem Group.setQ_pend (g : Group) (i : BitVec 3) (x : Bool) : (g.setQ i x).pend = g.pend := rfl
@[simp] theorem Group.setQ_outs (g : Group) (i : BitVec 3) (x : Bool) : (g.setQ i x).outs = g.outs := rfl
@[simp] theorem Group.setQ_waitSlot (g : Group) (i : BitVec 3) (x : Bool) : (g.setQ i x).waitSlot = g.waitSlot := rfl
@[simp] theorem Group.setQ_waited (g : Group) (i : BitVec 3) (x : Bool) : (g.setQ i x).waited = g.waited := rfl
@[simp] theorem Group.setQ_waitFrom (g : Group) (i : BitVec 3) (x : Bool) : (g.setQ i x).waitFrom = g.waitFrom := rfl
@[simp] theorem Group.setQ_barMark (g : Group) (i : BitVec 3) (x : Bool) : (g.setQ i x).barMark = g.barMark := rfl
@[simp] theorem Group.setQ_batch (g : Group) (i : BitVec 3) (x : Bool) : (g.setQ i x).batch = g.batch := rfl
@[simp] theorem Group.setQ_batches (g : Group) (i : BitVec 3) (x : Bool) : (g.setQ i x).batches = g.batches := rfl
@[simp] theorem Group.setQ_randKey (g : Group) (i : BitVec 3) (x : Bool) : (g.setQ i x).randKey = g.randKey := rfl
@[simp] theorem Group.setQ_randCtr (g : Group) (i : BitVec 3) (x : Bool) : (g.setQ i x).randCtr = g.randCtr := rfl
@[simp] theorem Group.setQ_xchgN (g : Group) (i : BitVec 3) (x : Bool) : (g.setQ i x).xchgN = g.xchgN := rfl
@[simp] theorem Group.setQ_treeN (g : Group) (i : BitVec 3) (x : Bool) : (g.setQ i x).treeN = g.treeN := rfl
@[simp] theorem Group.setQ_hint (g : Group) (i : BitVec 3) (x : Bool) : (g.setQ i x).hint = g.hint := rfl
@[simp] theorem Group.setQ_avail (g : Group) (i : BitVec 3) (x : Bool) : (g.setQ i x).avail = g.avail := rfl
@[simp] theorem Group.setQ_late (g : Group) (i : BitVec 3) (x : Bool) : (g.setQ i x).late = g.late := rfl
@[simp] theorem Group.setQ_stall (g : Group) (i : BitVec 3) (x : Bool) : (g.setQ i x).stall = g.stall := rfl
@[simp] theorem Group.setQ_skip (g : Group) (i : BitVec 3) (x : Bool) : (g.setQ i x).skip = g.skip := rfl
@[simp] theorem Group.setQ_yieldFor (g : Group) (i : BitVec 3) (x : Bool) : (g.setQ i x).yieldFor = g.yieldFor := rfl
@[simp] theorem Group.setQ_readyAt (g : Group) (i : BitVec 3) (x : Bool) : (g.setQ i x).readyAt = g.readyAt := rfl
@[simp] theorem Group.setQ_busy (g : Group) (i : BitVec 3) (x : Bool) : (g.setQ i x).busy = g.busy := rfl
@[simp] theorem Group.setQ_gate (g : Group) (i : BitVec 3) (x : Bool) : (g.setQ i x).gate = g.gate := rfl
@[simp] theorem Group.setQ_fences (g : Group) (i : BitVec 3) (x : Bool) : (g.setQ i x).fences = g.fences := rfl
@[simp] theorem Group.setQ_seen (g : Group) (i : BitVec 3) (x : Bool) : (g.setQ i x).seen = g.seen := rfl
@[simp] theorem Group.setQ_heard (g : Group) (i : BitVec 3) (x : Bool) : (g.setQ i x).heard = g.heard := rfl
@[simp] theorem Group.setQ_lastIssue (g : Group) (i : BitVec 3) (x : Bool) : (g.setQ i x).lastIssue = g.lastIssue := rfl
@[simp] theorem Group.setQ_rank (g : Group) (i : BitVec 3) (x : Bool) : (g.setQ i x).rank = g.rank := rfl

@[simp] theorem Group.setThread_live (g : Group) (t : Nat) (x : Thread) : (g.setThread t x).live = g.live := rfl
@[simp] theorem Group.setThread_away (g : Group) (t : Nat) (x : Thread) : (g.setThread t x).away = g.away := rfl
@[simp] theorem Group.setThread_owner (g : Group) (t : Nat) (x : Thread) : (g.setThread t x).owner = g.owner := rfl
@[simp] theorem Group.setThread_launch (g : Group) (t : Nat) (x : Thread) : (g.setThread t x).launch = g.launch := rfl
@[simp] theorem Group.setThread_wg (g : Group) (t : Nat) (x : Thread) : (g.setThread t x).wg = g.wg := rfl
@[simp] theorem Group.setThread_index (g : Group) (t : Nat) (x : Thread) : (g.setThread t x).index = g.index := rfl
@[simp] theorem Group.setThread_core (g : Group) (t : Nat) (x : Thread) : (g.setThread t x).core = g.core := rfl
@[simp] theorem Group.setThread_lane (g : Group) (t : Nat) (x : Thread) : (g.setThread t x).lane = g.lane := rfl
@[simp] theorem Group.setThread_ctx (g : Group) (t : Nat) (x : Thread) : (g.setThread t x).ctx = g.ctx := rfl
@[simp] theorem Group.setThread_pc (g : Group) (t : Nat) (x : Thread) : (g.setThread t x).pc = g.pc := rfl
@[simp] theorem Group.setThread_v (g : Group) (t : Nat) (x : Thread) : (g.setThread t x).v = g.v := rfl
@[simp] theorem Group.setThread_g (g : Group) (t : Nat) (x : Thread) : (g.setThread t x).g = g.g := rfl
@[simp] theorem Group.setThread_p (g : Group) (t : Nat) (x : Thread) : (g.setThread t x).p = g.p := rfl
@[simp] theorem Group.setThread_q (g : Group) (t : Nat) (x : Thread) : (g.setThread t x).q = g.q := rfl
@[simp] theorem Group.setThread_joins (g : Group) (t : Nat) (x : Thread) : (g.setThread t x).joins = g.joins := rfl
@[simp] theorem Group.setThread_loops (g : Group) (t : Nat) (x : Thread) : (g.setThread t x).loops = g.loops := rfl
@[simp] theorem Group.setThread_n (g : Group) (t : Nat) (x : Thread) : (g.setThread t x).n = g.n := rfl
@[simp] theorem Group.setThread_flags (g : Group) (t : Nat) (x : Thread) : (g.setThread t x).flags = g.flags := rfl
@[simp] theorem Group.setThread_flagArm (g : Group) (t : Nat) (x : Thread) : (g.setThread t x).flagArm = g.flagArm := rfl
@[simp] theorem Group.setThread_tmask (g : Group) (t : Nat) (x : Thread) : (g.setThread t x).tmask = g.tmask := rfl
@[simp] theorem Group.setThread_tcause (g : Group) (t : Nat) (x : Thread) : (g.setThread t x).tcause = g.tcause := rfl
@[simp] theorem Group.setThread_tdetA (g : Group) (t : Nat) (x : Thread) : (g.setThread t x).tdetA = g.tdetA := rfl
@[simp] theorem Group.setThread_tdetB (g : Group) (t : Nat) (x : Thread) : (g.setThread t x).tdetB = g.tdetB := rfl
@[simp] theorem Group.setThread_tdetC (g : Group) (t : Nat) (x : Thread) : (g.setThread t x).tdetC = g.tdetC := rfl
@[simp] theorem Group.setThread_trapPc (g : Group) (t : Nat) (x : Thread) : (g.setThread t x).trapPc = g.trapPc := rfl
@[simp] theorem Group.setThread_trapMode (g : Group) (t : Nat) (x : Thread) : (g.setThread t x).trapMode = g.trapMode := rfl
@[simp] theorem Group.setThread_noResume (g : Group) (t : Nat) (x : Thread) : (g.setThread t x).noResume = g.noResume := rfl
@[simp] theorem Group.setThread_frame (g : Group) (t : Nat) (x : Thread) : (g.setThread t x).frame = g.frame := rfl
@[simp] theorem Group.setThread_pend (g : Group) (t : Nat) (x : Thread) : (g.setThread t x).pend = g.pend := rfl
@[simp] theorem Group.setThread_outs (g : Group) (t : Nat) (x : Thread) : (g.setThread t x).outs = g.outs := rfl
@[simp] theorem Group.setThread_waitSlot (g : Group) (t : Nat) (x : Thread) : (g.setThread t x).waitSlot = g.waitSlot := rfl
@[simp] theorem Group.setThread_waited (g : Group) (t : Nat) (x : Thread) : (g.setThread t x).waited = g.waited := rfl
@[simp] theorem Group.setThread_waitFrom (g : Group) (t : Nat) (x : Thread) : (g.setThread t x).waitFrom = g.waitFrom := rfl
@[simp] theorem Group.setThread_barMark (g : Group) (t : Nat) (x : Thread) : (g.setThread t x).barMark = g.barMark := rfl
@[simp] theorem Group.setThread_batch (g : Group) (t : Nat) (x : Thread) : (g.setThread t x).batch = g.batch := rfl
@[simp] theorem Group.setThread_batches (g : Group) (t : Nat) (x : Thread) : (g.setThread t x).batches = g.batches := rfl
@[simp] theorem Group.setThread_randKey (g : Group) (t : Nat) (x : Thread) : (g.setThread t x).randKey = g.randKey := rfl
@[simp] theorem Group.setThread_randCtr (g : Group) (t : Nat) (x : Thread) : (g.setThread t x).randCtr = g.randCtr := rfl
@[simp] theorem Group.setThread_xchgN (g : Group) (t : Nat) (x : Thread) : (g.setThread t x).xchgN = g.xchgN := rfl
@[simp] theorem Group.setThread_treeN (g : Group) (t : Nat) (x : Thread) : (g.setThread t x).treeN = g.treeN := rfl
@[simp] theorem Group.setThread_hint (g : Group) (t : Nat) (x : Thread) : (g.setThread t x).hint = g.hint := rfl
@[simp] theorem Group.setThread_avail (g : Group) (t : Nat) (x : Thread) : (g.setThread t x).avail = g.avail := rfl
@[simp] theorem Group.setThread_late (g : Group) (t : Nat) (x : Thread) : (g.setThread t x).late = g.late := rfl
@[simp] theorem Group.setThread_stall (g : Group) (t : Nat) (x : Thread) : (g.setThread t x).stall = g.stall := rfl
@[simp] theorem Group.setThread_skip (g : Group) (t : Nat) (x : Thread) : (g.setThread t x).skip = g.skip := rfl
@[simp] theorem Group.setThread_yieldFor (g : Group) (t : Nat) (x : Thread) : (g.setThread t x).yieldFor = g.yieldFor := rfl
@[simp] theorem Group.setThread_readyAt (g : Group) (t : Nat) (x : Thread) : (g.setThread t x).readyAt = g.readyAt := rfl
@[simp] theorem Group.setThread_busy (g : Group) (t : Nat) (x : Thread) : (g.setThread t x).busy = g.busy := rfl
@[simp] theorem Group.setThread_gate (g : Group) (t : Nat) (x : Thread) : (g.setThread t x).gate = g.gate := rfl
@[simp] theorem Group.setThread_fences (g : Group) (t : Nat) (x : Thread) : (g.setThread t x).fences = g.fences := rfl
@[simp] theorem Group.setThread_seen (g : Group) (t : Nat) (x : Thread) : (g.setThread t x).seen = g.seen := rfl
@[simp] theorem Group.setThread_heard (g : Group) (t : Nat) (x : Thread) : (g.setThread t x).heard = g.heard := rfl
@[simp] theorem Group.setThread_lastIssue (g : Group) (t : Nat) (x : Thread) : (g.setThread t x).lastIssue = g.lastIssue := rfl
@[simp] theorem Group.setThread_rank (g : Group) (t : Nat) (x : Thread) : (g.setThread t x).rank = g.rank := rfl

@[simp] theorem Group.setLoop_live (g : Group) (k : Nat) (x : LoopReg) : (g.setLoop k x).live = g.live := rfl
@[simp] theorem Group.setLoop_away (g : Group) (k : Nat) (x : LoopReg) : (g.setLoop k x).away = g.away := rfl
@[simp] theorem Group.setLoop_owner (g : Group) (k : Nat) (x : LoopReg) : (g.setLoop k x).owner = g.owner := rfl
@[simp] theorem Group.setLoop_launch (g : Group) (k : Nat) (x : LoopReg) : (g.setLoop k x).launch = g.launch := rfl
@[simp] theorem Group.setLoop_wg (g : Group) (k : Nat) (x : LoopReg) : (g.setLoop k x).wg = g.wg := rfl
@[simp] theorem Group.setLoop_index (g : Group) (k : Nat) (x : LoopReg) : (g.setLoop k x).index = g.index := rfl
@[simp] theorem Group.setLoop_core (g : Group) (k : Nat) (x : LoopReg) : (g.setLoop k x).core = g.core := rfl
@[simp] theorem Group.setLoop_lane (g : Group) (k : Nat) (x : LoopReg) : (g.setLoop k x).lane = g.lane := rfl
@[simp] theorem Group.setLoop_ctx (g : Group) (k : Nat) (x : LoopReg) : (g.setLoop k x).ctx = g.ctx := rfl
@[simp] theorem Group.setLoop_pc (g : Group) (k : Nat) (x : LoopReg) : (g.setLoop k x).pc = g.pc := rfl
@[simp] theorem Group.setLoop_v (g : Group) (k : Nat) (x : LoopReg) : (g.setLoop k x).v = g.v := rfl
@[simp] theorem Group.setLoop_g (g : Group) (k : Nat) (x : LoopReg) : (g.setLoop k x).g = g.g := rfl
@[simp] theorem Group.setLoop_p (g : Group) (k : Nat) (x : LoopReg) : (g.setLoop k x).p = g.p := rfl
@[simp] theorem Group.setLoop_q (g : Group) (k : Nat) (x : LoopReg) : (g.setLoop k x).q = g.q := rfl
@[simp] theorem Group.setLoop_threads (g : Group) (k : Nat) (x : LoopReg) : (g.setLoop k x).threads = g.threads := rfl
@[simp] theorem Group.setLoop_joins (g : Group) (k : Nat) (x : LoopReg) : (g.setLoop k x).joins = g.joins := rfl
@[simp] theorem Group.setLoop_n (g : Group) (k : Nat) (x : LoopReg) : (g.setLoop k x).n = g.n := rfl
@[simp] theorem Group.setLoop_flags (g : Group) (k : Nat) (x : LoopReg) : (g.setLoop k x).flags = g.flags := rfl
@[simp] theorem Group.setLoop_flagArm (g : Group) (k : Nat) (x : LoopReg) : (g.setLoop k x).flagArm = g.flagArm := rfl
@[simp] theorem Group.setLoop_tmask (g : Group) (k : Nat) (x : LoopReg) : (g.setLoop k x).tmask = g.tmask := rfl
@[simp] theorem Group.setLoop_tcause (g : Group) (k : Nat) (x : LoopReg) : (g.setLoop k x).tcause = g.tcause := rfl
@[simp] theorem Group.setLoop_tdetA (g : Group) (k : Nat) (x : LoopReg) : (g.setLoop k x).tdetA = g.tdetA := rfl
@[simp] theorem Group.setLoop_tdetB (g : Group) (k : Nat) (x : LoopReg) : (g.setLoop k x).tdetB = g.tdetB := rfl
@[simp] theorem Group.setLoop_tdetC (g : Group) (k : Nat) (x : LoopReg) : (g.setLoop k x).tdetC = g.tdetC := rfl
@[simp] theorem Group.setLoop_trapPc (g : Group) (k : Nat) (x : LoopReg) : (g.setLoop k x).trapPc = g.trapPc := rfl
@[simp] theorem Group.setLoop_trapMode (g : Group) (k : Nat) (x : LoopReg) : (g.setLoop k x).trapMode = g.trapMode := rfl
@[simp] theorem Group.setLoop_noResume (g : Group) (k : Nat) (x : LoopReg) : (g.setLoop k x).noResume = g.noResume := rfl
@[simp] theorem Group.setLoop_frame (g : Group) (k : Nat) (x : LoopReg) : (g.setLoop k x).frame = g.frame := rfl
@[simp] theorem Group.setLoop_pend (g : Group) (k : Nat) (x : LoopReg) : (g.setLoop k x).pend = g.pend := rfl
@[simp] theorem Group.setLoop_outs (g : Group) (k : Nat) (x : LoopReg) : (g.setLoop k x).outs = g.outs := rfl
@[simp] theorem Group.setLoop_waitSlot (g : Group) (k : Nat) (x : LoopReg) : (g.setLoop k x).waitSlot = g.waitSlot := rfl
@[simp] theorem Group.setLoop_waited (g : Group) (k : Nat) (x : LoopReg) : (g.setLoop k x).waited = g.waited := rfl
@[simp] theorem Group.setLoop_waitFrom (g : Group) (k : Nat) (x : LoopReg) : (g.setLoop k x).waitFrom = g.waitFrom := rfl
@[simp] theorem Group.setLoop_barMark (g : Group) (k : Nat) (x : LoopReg) : (g.setLoop k x).barMark = g.barMark := rfl
@[simp] theorem Group.setLoop_batch (g : Group) (k : Nat) (x : LoopReg) : (g.setLoop k x).batch = g.batch := rfl
@[simp] theorem Group.setLoop_batches (g : Group) (k : Nat) (x : LoopReg) : (g.setLoop k x).batches = g.batches := rfl
@[simp] theorem Group.setLoop_randKey (g : Group) (k : Nat) (x : LoopReg) : (g.setLoop k x).randKey = g.randKey := rfl
@[simp] theorem Group.setLoop_randCtr (g : Group) (k : Nat) (x : LoopReg) : (g.setLoop k x).randCtr = g.randCtr := rfl
@[simp] theorem Group.setLoop_xchgN (g : Group) (k : Nat) (x : LoopReg) : (g.setLoop k x).xchgN = g.xchgN := rfl
@[simp] theorem Group.setLoop_treeN (g : Group) (k : Nat) (x : LoopReg) : (g.setLoop k x).treeN = g.treeN := rfl
@[simp] theorem Group.setLoop_hint (g : Group) (k : Nat) (x : LoopReg) : (g.setLoop k x).hint = g.hint := rfl
@[simp] theorem Group.setLoop_avail (g : Group) (k : Nat) (x : LoopReg) : (g.setLoop k x).avail = g.avail := rfl
@[simp] theorem Group.setLoop_late (g : Group) (k : Nat) (x : LoopReg) : (g.setLoop k x).late = g.late := rfl
@[simp] theorem Group.setLoop_stall (g : Group) (k : Nat) (x : LoopReg) : (g.setLoop k x).stall = g.stall := rfl
@[simp] theorem Group.setLoop_skip (g : Group) (k : Nat) (x : LoopReg) : (g.setLoop k x).skip = g.skip := rfl
@[simp] theorem Group.setLoop_yieldFor (g : Group) (k : Nat) (x : LoopReg) : (g.setLoop k x).yieldFor = g.yieldFor := rfl
@[simp] theorem Group.setLoop_readyAt (g : Group) (k : Nat) (x : LoopReg) : (g.setLoop k x).readyAt = g.readyAt := rfl
@[simp] theorem Group.setLoop_busy (g : Group) (k : Nat) (x : LoopReg) : (g.setLoop k x).busy = g.busy := rfl
@[simp] theorem Group.setLoop_gate (g : Group) (k : Nat) (x : LoopReg) : (g.setLoop k x).gate = g.gate := rfl
@[simp] theorem Group.setLoop_fences (g : Group) (k : Nat) (x : LoopReg) : (g.setLoop k x).fences = g.fences := rfl
@[simp] theorem Group.setLoop_seen (g : Group) (k : Nat) (x : LoopReg) : (g.setLoop k x).seen = g.seen := rfl
@[simp] theorem Group.setLoop_heard (g : Group) (k : Nat) (x : LoopReg) : (g.setLoop k x).heard = g.heard := rfl
@[simp] theorem Group.setLoop_lastIssue (g : Group) (k : Nat) (x : LoopReg) : (g.setLoop k x).lastIssue = g.lastIssue := rfl
@[simp] theorem Group.setLoop_rank (g : Group) (k : Nat) (x : LoopReg) : (g.setLoop k x).rank = g.rank := rfl

@[simp] theorem Group.mark_live (g : Group) (n l : Nat) (ks : List Nat) : (g.mark n l ks).live = g.live := rfl
@[simp] theorem Group.mark_away (g : Group) (n l : Nat) (ks : List Nat) : (g.mark n l ks).away = g.away := rfl
@[simp] theorem Group.mark_owner (g : Group) (n l : Nat) (ks : List Nat) : (g.mark n l ks).owner = g.owner := rfl
@[simp] theorem Group.mark_launch (g : Group) (n l : Nat) (ks : List Nat) : (g.mark n l ks).launch = g.launch := rfl
@[simp] theorem Group.mark_wg (g : Group) (n l : Nat) (ks : List Nat) : (g.mark n l ks).wg = g.wg := rfl
@[simp] theorem Group.mark_index (g : Group) (n l : Nat) (ks : List Nat) : (g.mark n l ks).index = g.index := rfl
@[simp] theorem Group.mark_core (g : Group) (n l : Nat) (ks : List Nat) : (g.mark n l ks).core = g.core := rfl
@[simp] theorem Group.mark_lane (g : Group) (n l : Nat) (ks : List Nat) : (g.mark n l ks).lane = g.lane := rfl
@[simp] theorem Group.mark_ctx (g : Group) (n l : Nat) (ks : List Nat) : (g.mark n l ks).ctx = g.ctx := rfl
@[simp] theorem Group.mark_pc (g : Group) (n l : Nat) (ks : List Nat) : (g.mark n l ks).pc = g.pc := rfl
@[simp] theorem Group.mark_v (g : Group) (n l : Nat) (ks : List Nat) : (g.mark n l ks).v = g.v := rfl
@[simp] theorem Group.mark_g (g : Group) (n l : Nat) (ks : List Nat) : (g.mark n l ks).g = g.g := rfl
@[simp] theorem Group.mark_p (g : Group) (n l : Nat) (ks : List Nat) : (g.mark n l ks).p = g.p := rfl
@[simp] theorem Group.mark_q (g : Group) (n l : Nat) (ks : List Nat) : (g.mark n l ks).q = g.q := rfl
@[simp] theorem Group.mark_threads (g : Group) (n l : Nat) (ks : List Nat) : (g.mark n l ks).threads = g.threads := rfl
@[simp] theorem Group.mark_joins (g : Group) (n l : Nat) (ks : List Nat) : (g.mark n l ks).joins = g.joins := rfl
@[simp] theorem Group.mark_loops (g : Group) (n l : Nat) (ks : List Nat) : (g.mark n l ks).loops = g.loops := rfl
@[simp] theorem Group.mark_n (g : Group) (n l : Nat) (ks : List Nat) : (g.mark n l ks).n = g.n := rfl
@[simp] theorem Group.mark_flags (g : Group) (n l : Nat) (ks : List Nat) : (g.mark n l ks).flags = g.flags := rfl
@[simp] theorem Group.mark_flagArm (g : Group) (n l : Nat) (ks : List Nat) : (g.mark n l ks).flagArm = g.flagArm := rfl
@[simp] theorem Group.mark_tmask (g : Group) (n l : Nat) (ks : List Nat) : (g.mark n l ks).tmask = g.tmask := rfl
@[simp] theorem Group.mark_tcause (g : Group) (n l : Nat) (ks : List Nat) : (g.mark n l ks).tcause = g.tcause := rfl
@[simp] theorem Group.mark_tdetA (g : Group) (n l : Nat) (ks : List Nat) : (g.mark n l ks).tdetA = g.tdetA := rfl
@[simp] theorem Group.mark_tdetB (g : Group) (n l : Nat) (ks : List Nat) : (g.mark n l ks).tdetB = g.tdetB := rfl
@[simp] theorem Group.mark_tdetC (g : Group) (n l : Nat) (ks : List Nat) : (g.mark n l ks).tdetC = g.tdetC := rfl
@[simp] theorem Group.mark_trapPc (g : Group) (n l : Nat) (ks : List Nat) : (g.mark n l ks).trapPc = g.trapPc := rfl
@[simp] theorem Group.mark_trapMode (g : Group) (n l : Nat) (ks : List Nat) : (g.mark n l ks).trapMode = g.trapMode := rfl
@[simp] theorem Group.mark_noResume (g : Group) (n l : Nat) (ks : List Nat) : (g.mark n l ks).noResume = g.noResume := rfl
@[simp] theorem Group.mark_frame (g : Group) (n l : Nat) (ks : List Nat) : (g.mark n l ks).frame = g.frame := rfl
@[simp] theorem Group.mark_pend (g : Group) (n l : Nat) (ks : List Nat) : (g.mark n l ks).pend = g.pend := rfl
@[simp] theorem Group.mark_outs (g : Group) (n l : Nat) (ks : List Nat) : (g.mark n l ks).outs = g.outs := rfl
@[simp] theorem Group.mark_waitSlot (g : Group) (n l : Nat) (ks : List Nat) : (g.mark n l ks).waitSlot = g.waitSlot := rfl
@[simp] theorem Group.mark_waited (g : Group) (n l : Nat) (ks : List Nat) : (g.mark n l ks).waited = g.waited := rfl
@[simp] theorem Group.mark_waitFrom (g : Group) (n l : Nat) (ks : List Nat) : (g.mark n l ks).waitFrom = g.waitFrom := rfl
@[simp] theorem Group.mark_barMark (g : Group) (n l : Nat) (ks : List Nat) : (g.mark n l ks).barMark = g.barMark := rfl
@[simp] theorem Group.mark_batch (g : Group) (n l : Nat) (ks : List Nat) : (g.mark n l ks).batch = g.batch := rfl
@[simp] theorem Group.mark_batches (g : Group) (n l : Nat) (ks : List Nat) : (g.mark n l ks).batches = g.batches := rfl
@[simp] theorem Group.mark_randKey (g : Group) (n l : Nat) (ks : List Nat) : (g.mark n l ks).randKey = g.randKey := rfl
@[simp] theorem Group.mark_randCtr (g : Group) (n l : Nat) (ks : List Nat) : (g.mark n l ks).randCtr = g.randCtr := rfl
@[simp] theorem Group.mark_xchgN (g : Group) (n l : Nat) (ks : List Nat) : (g.mark n l ks).xchgN = g.xchgN := rfl
@[simp] theorem Group.mark_treeN (g : Group) (n l : Nat) (ks : List Nat) : (g.mark n l ks).treeN = g.treeN := rfl
@[simp] theorem Group.mark_hint (g : Group) (n l : Nat) (ks : List Nat) : (g.mark n l ks).hint = g.hint := rfl
@[simp] theorem Group.mark_late (g : Group) (n l : Nat) (ks : List Nat) : (g.mark n l ks).late = g.late := rfl
@[simp] theorem Group.mark_stall (g : Group) (n l : Nat) (ks : List Nat) : (g.mark n l ks).stall = g.stall := rfl
@[simp] theorem Group.mark_skip (g : Group) (n l : Nat) (ks : List Nat) : (g.mark n l ks).skip = g.skip := rfl
@[simp] theorem Group.mark_yieldFor (g : Group) (n l : Nat) (ks : List Nat) : (g.mark n l ks).yieldFor = g.yieldFor := rfl
@[simp] theorem Group.mark_readyAt (g : Group) (n l : Nat) (ks : List Nat) : (g.mark n l ks).readyAt = g.readyAt := rfl
@[simp] theorem Group.mark_busy (g : Group) (n l : Nat) (ks : List Nat) : (g.mark n l ks).busy = g.busy := rfl
@[simp] theorem Group.mark_gate (g : Group) (n l : Nat) (ks : List Nat) : (g.mark n l ks).gate = g.gate := rfl
@[simp] theorem Group.mark_fences (g : Group) (n l : Nat) (ks : List Nat) : (g.mark n l ks).fences = g.fences := rfl
@[simp] theorem Group.mark_seen (g : Group) (n l : Nat) (ks : List Nat) : (g.mark n l ks).seen = g.seen := rfl
@[simp] theorem Group.mark_heard (g : Group) (n l : Nat) (ks : List Nat) : (g.mark n l ks).heard = g.heard := rfl
@[simp] theorem Group.mark_lastIssue (g : Group) (n l : Nat) (ks : List Nat) : (g.mark n l ks).lastIssue = g.lastIssue := rfl
@[simp] theorem Group.mark_rank (g : Group) (n l : Nat) (ks : List Nat) : (g.mark n l ks).rank = g.rank := rfl

@[simp] theorem Group.raiseCount_live (g : Group) (c : OpClass) (k : Nat) : (g.raiseCount c k).live = g.live := rfl
@[simp] theorem Group.raiseCount_away (g : Group) (c : OpClass) (k : Nat) : (g.raiseCount c k).away = g.away := rfl
@[simp] theorem Group.raiseCount_owner (g : Group) (c : OpClass) (k : Nat) : (g.raiseCount c k).owner = g.owner := rfl
@[simp] theorem Group.raiseCount_launch (g : Group) (c : OpClass) (k : Nat) : (g.raiseCount c k).launch = g.launch := rfl
@[simp] theorem Group.raiseCount_wg (g : Group) (c : OpClass) (k : Nat) : (g.raiseCount c k).wg = g.wg := rfl
@[simp] theorem Group.raiseCount_index (g : Group) (c : OpClass) (k : Nat) : (g.raiseCount c k).index = g.index := rfl
@[simp] theorem Group.raiseCount_core (g : Group) (c : OpClass) (k : Nat) : (g.raiseCount c k).core = g.core := rfl
@[simp] theorem Group.raiseCount_lane (g : Group) (c : OpClass) (k : Nat) : (g.raiseCount c k).lane = g.lane := rfl
@[simp] theorem Group.raiseCount_ctx (g : Group) (c : OpClass) (k : Nat) : (g.raiseCount c k).ctx = g.ctx := rfl
@[simp] theorem Group.raiseCount_pc (g : Group) (c : OpClass) (k : Nat) : (g.raiseCount c k).pc = g.pc := rfl
@[simp] theorem Group.raiseCount_v (g : Group) (c : OpClass) (k : Nat) : (g.raiseCount c k).v = g.v := rfl
@[simp] theorem Group.raiseCount_g (g : Group) (c : OpClass) (k : Nat) : (g.raiseCount c k).g = g.g := rfl
@[simp] theorem Group.raiseCount_p (g : Group) (c : OpClass) (k : Nat) : (g.raiseCount c k).p = g.p := rfl
@[simp] theorem Group.raiseCount_q (g : Group) (c : OpClass) (k : Nat) : (g.raiseCount c k).q = g.q := rfl
@[simp] theorem Group.raiseCount_threads (g : Group) (c : OpClass) (k : Nat) : (g.raiseCount c k).threads = g.threads := rfl
@[simp] theorem Group.raiseCount_joins (g : Group) (c : OpClass) (k : Nat) : (g.raiseCount c k).joins = g.joins := rfl
@[simp] theorem Group.raiseCount_loops (g : Group) (c : OpClass) (k : Nat) : (g.raiseCount c k).loops = g.loops := rfl
@[simp] theorem Group.raiseCount_n (g : Group) (c : OpClass) (k : Nat) : (g.raiseCount c k).n = g.n := rfl
@[simp] theorem Group.raiseCount_flags (g : Group) (c : OpClass) (k : Nat) : (g.raiseCount c k).flags = g.flags := rfl
@[simp] theorem Group.raiseCount_flagArm (g : Group) (c : OpClass) (k : Nat) : (g.raiseCount c k).flagArm = g.flagArm := rfl
@[simp] theorem Group.raiseCount_tmask (g : Group) (c : OpClass) (k : Nat) : (g.raiseCount c k).tmask = g.tmask := rfl
@[simp] theorem Group.raiseCount_tcause (g : Group) (c : OpClass) (k : Nat) : (g.raiseCount c k).tcause = g.tcause := rfl
@[simp] theorem Group.raiseCount_tdetA (g : Group) (c : OpClass) (k : Nat) : (g.raiseCount c k).tdetA = g.tdetA := rfl
@[simp] theorem Group.raiseCount_tdetB (g : Group) (c : OpClass) (k : Nat) : (g.raiseCount c k).tdetB = g.tdetB := rfl
@[simp] theorem Group.raiseCount_tdetC (g : Group) (c : OpClass) (k : Nat) : (g.raiseCount c k).tdetC = g.tdetC := rfl
@[simp] theorem Group.raiseCount_trapPc (g : Group) (c : OpClass) (k : Nat) : (g.raiseCount c k).trapPc = g.trapPc := rfl
@[simp] theorem Group.raiseCount_trapMode (g : Group) (c : OpClass) (k : Nat) : (g.raiseCount c k).trapMode = g.trapMode := rfl
@[simp] theorem Group.raiseCount_noResume (g : Group) (c : OpClass) (k : Nat) : (g.raiseCount c k).noResume = g.noResume := rfl
@[simp] theorem Group.raiseCount_frame (g : Group) (c : OpClass) (k : Nat) : (g.raiseCount c k).frame = g.frame := rfl
@[simp] theorem Group.raiseCount_pend (g : Group) (c : OpClass) (k : Nat) : (g.raiseCount c k).pend = g.pend := rfl
@[simp] theorem Group.raiseCount_waitSlot (g : Group) (c : OpClass) (k : Nat) : (g.raiseCount c k).waitSlot = g.waitSlot := rfl
@[simp] theorem Group.raiseCount_waited (g : Group) (c : OpClass) (k : Nat) : (g.raiseCount c k).waited = g.waited := rfl
@[simp] theorem Group.raiseCount_waitFrom (g : Group) (c : OpClass) (k : Nat) : (g.raiseCount c k).waitFrom = g.waitFrom := rfl
@[simp] theorem Group.raiseCount_barMark (g : Group) (c : OpClass) (k : Nat) : (g.raiseCount c k).barMark = g.barMark := rfl
@[simp] theorem Group.raiseCount_batch (g : Group) (c : OpClass) (k : Nat) : (g.raiseCount c k).batch = g.batch := rfl
@[simp] theorem Group.raiseCount_batches (g : Group) (c : OpClass) (k : Nat) : (g.raiseCount c k).batches = g.batches := rfl
@[simp] theorem Group.raiseCount_randKey (g : Group) (c : OpClass) (k : Nat) : (g.raiseCount c k).randKey = g.randKey := rfl
@[simp] theorem Group.raiseCount_randCtr (g : Group) (c : OpClass) (k : Nat) : (g.raiseCount c k).randCtr = g.randCtr := rfl
@[simp] theorem Group.raiseCount_xchgN (g : Group) (c : OpClass) (k : Nat) : (g.raiseCount c k).xchgN = g.xchgN := rfl
@[simp] theorem Group.raiseCount_treeN (g : Group) (c : OpClass) (k : Nat) : (g.raiseCount c k).treeN = g.treeN := rfl
@[simp] theorem Group.raiseCount_hint (g : Group) (c : OpClass) (k : Nat) : (g.raiseCount c k).hint = g.hint := rfl
@[simp] theorem Group.raiseCount_avail (g : Group) (c : OpClass) (k : Nat) : (g.raiseCount c k).avail = g.avail := rfl
@[simp] theorem Group.raiseCount_late (g : Group) (c : OpClass) (k : Nat) : (g.raiseCount c k).late = g.late := rfl
@[simp] theorem Group.raiseCount_stall (g : Group) (c : OpClass) (k : Nat) : (g.raiseCount c k).stall = g.stall := rfl
@[simp] theorem Group.raiseCount_skip (g : Group) (c : OpClass) (k : Nat) : (g.raiseCount c k).skip = g.skip := rfl
@[simp] theorem Group.raiseCount_yieldFor (g : Group) (c : OpClass) (k : Nat) : (g.raiseCount c k).yieldFor = g.yieldFor := rfl
@[simp] theorem Group.raiseCount_readyAt (g : Group) (c : OpClass) (k : Nat) : (g.raiseCount c k).readyAt = g.readyAt := rfl
@[simp] theorem Group.raiseCount_busy (g : Group) (c : OpClass) (k : Nat) : (g.raiseCount c k).busy = g.busy := rfl
@[simp] theorem Group.raiseCount_gate (g : Group) (c : OpClass) (k : Nat) : (g.raiseCount c k).gate = g.gate := rfl
@[simp] theorem Group.raiseCount_fences (g : Group) (c : OpClass) (k : Nat) : (g.raiseCount c k).fences = g.fences := rfl
@[simp] theorem Group.raiseCount_seen (g : Group) (c : OpClass) (k : Nat) : (g.raiseCount c k).seen = g.seen := rfl
@[simp] theorem Group.raiseCount_heard (g : Group) (c : OpClass) (k : Nat) : (g.raiseCount c k).heard = g.heard := rfl
@[simp] theorem Group.raiseCount_lastIssue (g : Group) (c : OpClass) (k : Nat) : (g.raiseCount c k).lastIssue = g.lastIssue := rfl
@[simp] theorem Group.raiseCount_rank (g : Group) (c : OpClass) (k : Nat) : (g.raiseCount c k).rank = g.rank := rfl

end Sys2Proof.Machine
end

