-- ==== Sys2Proof/Laws/Registers.lean ====
section
/-! SUPPORT. What the shared operations on registers do: the threads an instruction runs for, writes to a register of each of them, and one
lemma for each of the operations that instructions complete with. -/

namespace Sys2Proof.Machine

/-! ### Thread sets -/

theorem mem_bitsOf {m : BitVec 32} {t : Nat} : t ∈ bitsOf m ↔ t < 32 ∧ m.getLsbD t = true := by
  simp [bitsOf]

theorem bitsOf_nodup (m : BitVec 32) : (bitsOf m).Nodup := List.Nodup.filter _ List.nodup_range

theorem maskOf_fold (f : Nat → Bool) (n : Nat) (m : BitVec 32) (t : Nat) :
    ((List.range n).foldl (fun m t => if f t then m ||| BitVec.twoPow 32 t else m) m).getLsbD t
      = (m.getLsbD t || (decide (t < n) && decide (t < 32) && f t)) := by
  induction n with
  | zero => simp
  | succ n ih =>
    rw [List.range_succ, List.foldl_append]
    simp only [List.foldl_cons, List.foldl_nil]
    by_cases hf : f n = true
    · rw [if_pos hf, BitVec.getLsbD_or, ih, BitVec.getLsbD_twoPow]
      by_cases hn : n = t
      · subst hn
        simp [hf]
      · have : (t < n + 1) = (t < n) := by
          apply propext
          omega
        simp [hn, this]
    · rw [if_neg hf, ih]
      by_cases hn : t = n
      · subst hn
        simp [hf]
      · have : (t < n + 1) = (t < n) := by
          apply propext
          omega
        simp [this]

@[simp] theorem maskOf_getLsbD (f : Nat → Bool) (t : Nat) : (maskOf f).getLsbD t = (decide (t < 32) && f t) := by
  unfold maskOf
  rw [maskOf_fold]
  simp

theorem Group.active_getLsbD (g : Group) (h : Guard) (t : Nat) :
    (g.active h).getLsbD t = (decide (t < 32) && ((g.thread t).st.isRunning && g.guardP h t)) := by
  simp [Group.active]

theorem Group.mem_lanes_thread {g : Group} {h : Guard} {t : Nat} : some t ∈ g.lanes false h ↔ t < 32 ∧ (g.active h).getLsbD t = true := by
  simp [Group.lanes, mem_bitsOf]

theorem Group.none_not_mem_lanes (g : Group) (h : Guard) : none ∉ g.lanes false h := by
  simp [Group.lanes]

theorem Group.mem_lanes_uniform {g : Group} {h : Guard} {l : Lane} : l ∈ g.lanes true h ↔ l = none ∧ g.guardQ h = true := by
  unfold Group.lanes
  by_cases hq : g.guardQ h = true <;> simp [hq]

theorem Group.lanes_nodup (g : Group) (u : Bool) (h : Guard) : (g.lanes u h).Nodup := by
  unfold Group.lanes
  cases u with
  | true => by_cases hq : g.guardQ h = true <;> simp [hq]
  | false => exact (bitsOf_nodup _).map (fun _ _ => Option.some.inj)

theorem Group.lanes_fit {g : Group} {u : Bool} {h : Guard} {l : Lane} (hl : l ∈ g.lanes u h) : laneFits u l := by
  cases u with
  | true =>
    have := (Group.mem_lanes_uniform.1 hl).1
    subst this
    rfl
  | false =>
    cases l with
    | none => exact absurd hl (g.none_not_mem_lanes h)
    | some t => exact ⟨rfl, (Group.mem_lanes_thread.1 hl).1⟩

/-! ### One register of a lane -/

theorem Group.wr_rd (g : Group) {u : Bool} {l l' : Lane} (r r' : Reg) (w : Word) (hl : laneFits u l) (hl' : laneFits u l') :
    (g.wr l r w).rd l' r' = if r' = r ∧ l' = l then w else g.rd l' r' := by
  cases l with
  | none =>
    cases l' with
    | none => simpa [Group.wr, Group.rd] using g.setG_getG r r' w
    | some x => exact absurd (hl.symm.trans hl'.1) (by simp)
  | some t =>
    cases l' with
    | none => exact absurd (hl.1.symm.trans hl') (by simp)
    | some x => simpa [Group.wr, Group.rd] using g.setV_getV r r' t x w hl.2 hl'.2

theorem Group.wr_eta (g : Group) (l : Lane) (r : Reg) (w : Word) : g.wr l r w = { g with v := (g.wr l r w).v, g := (g.wr l r w).g } := by
  cases l <;> rfl

theorem Group.wr_v_of_none (g : Group) (r : Reg) (w : Word) : (g.wr none r w).v = g.v := rfl

theorem Group.wr_g_of_some (g : Group) (t : Nat) (r : Reg) (w : Word) : (g.wr (some t) r w).g = g.g := rfl

/-! ### A register of every lane -/

theorem Group.writeAll_cons (g : Group) (l : Lane) (ls : List Lane) (d : Reg) (f : Lane → Word) :
    g.writeAll (l :: ls) d f = (g.wr l d (f l)).writeAll ls d f := rfl

theorem Group.writeAll_only (g : Group) (ls : List Lane) (d : Reg) (f : Lane → Word) :
    ∃ v w, g.writeAll ls d f = { g with v := v, g := w } := by
  induction ls generalizing g with
  | nil => exact ⟨g.v, g.g, rfl⟩
  | cons l ls ih =>
    obtain ⟨v, w, e⟩ := ih (g.wr l d (f l))
    refine ⟨v, w, ?_⟩
    rw [Group.writeAll_cons, e]
    cases l <;> rfl

theorem Group.writeAll_eta (g : Group) (ls : List Lane) (d : Reg) (f : Lane → Word) :
    g.writeAll ls d f = { g with v := (g.writeAll ls d f).v, g := (g.writeAll ls d f).g } := by
  obtain ⟨v, w, e⟩ := g.writeAll_only ls d f
  rw [e]

theorem Group.writeAll_rd (g : Group) {u : Bool} {ls : List Lane} {d : Reg} {f : Lane → Word} {l : Lane} {r : Reg}
    (hls : ∀ l ∈ ls, laneFits u l) (hl : laneFits u l) :
    (g.writeAll ls d f).rd l r = if r = d ∧ l ∈ ls then f l else g.rd l r := by
  induction ls generalizing g with
  | nil => simp [Group.writeAll]
  | cons x xs ih =>
    rw [Group.writeAll_cons, ih _ (fun y hy => hls y (List.mem_cons_of_mem _ hy)), g.wr_rd d r _ (hls x (by simp)) hl]
    by_cases hr : r = d <;> by_cases hx : l = x <;> by_cases hm : l ∈ xs <;> simp [hr, hx, hm]

theorem Group.writeAll_other_v (g : Group) {ls : List Lane} {d : Reg} {f : Lane → Word} (hls : ∀ l ∈ ls, l = none) :
    (g.writeAll ls d f).v = g.v := by
  induction ls generalizing g with
  | nil => rfl
  | cons x xs ih =>
    rw [Group.writeAll_cons, ih _ (fun y hy => hls y (List.mem_cons_of_mem _ hy)), hls x (by simp)]
    rfl

theorem Group.writeAll_other_g (g : Group) {ls : List Lane} {d : Reg} {f : Lane → Word} (hls : ∀ l ∈ ls, l ≠ none) :
    (g.writeAll ls d f).g = g.g := by
  induction ls generalizing g with
  | nil => rfl
  | cons x xs ih =>
    rw [Group.writeAll_cons, ih _ (fun y hy => hls y (List.mem_cons_of_mem _ hy))]
    cases x with
    | none => exact absurd rfl (hls none (by simp))
    | some t => rfl

/-! ### Completing -/

theorem endStep_eta (n : Nat) (g : Group) (x : PcWord) :
    endStep n g x = { g with loops := (endStep n g x).loops, n := (endStep n g x).n, pc := (endStep n g x).pc } := by
  induction n generalizing g with
  | zero => rfl
  | succ n ih =>
    unfold endStep
    dsimp only
    split
    · split
      · rfl
      · rw [ih]
        rfl
    · rfl

/-- What completing changes of a group: the loops, their number, the PC; the pair is over. It depends on nothing but those. -/
theorem endStep_of_eq (n : Nat) (g g' : Group) (x : PcWord) (hl : g'.loops = g.loops) (hp : g'.pc = g.pc) (hn : g'.n = g.n) :
    endStep n g' x = { g' with loops := (endStep n g x).loops, n := (endStep n g x).n, pc := (endStep n g x).pc } := by
  induction n generalizing g g' with
  | zero =>
    cases g'
    cases g
    simp_all [endStep]
  | succ n ih =>
    have el : g'.loop n = g.loop n := by
      unfold Group.loop
      rw [hl]
    unfold endStep
    dsimp only
    rw [el]
    by_cases hx : x = (g.loop n).le - 4
    · rw [if_pos hx, if_pos hx]
      by_cases hc : (g.loop n).lc - 1 ≠ 0
      · rw [if_pos hc, if_pos hc]
        simp [Group.setLoop, hl, hn]
      · rw [if_neg hc, if_neg hc]
        exact ih { g.setLoop n { g.loop n with lc := (g.loop n).lc - 1 } with n := n }
          { g'.setLoop n { g.loop n with lc := (g.loop n).lc - 1 } with n := n } (by simp [Group.setLoop, hl]) hp rfl
    · rw [if_neg hx, if_neg hx]
      cases g'
      cases g
      simp_all

theorem Group.complete_of_eq (g g' : Group) (hl : g'.loops = g.loops) (hp : g'.pc = g.pc) (hn : g'.n = g.n) :
    g'.complete = { g' with loops := g.complete.loops, n := g.complete.n, pc := g.complete.pc, hint := none } := by
  cases g'
  dsimp only at hl hp hn
  subst hl hp hn
  exact endStep_of_eq g.n { g with pc := g.pc + 4, hint := none } _ g.pc rfl rfl rfl

theorem Group.complete_eta (g : Group) :
    g.complete = { g with loops := g.complete.loops, n := g.complete.n, pc := g.complete.pc, hint := none } :=
  Group.complete_of_eq g g rfl rfl rfl

theorem State.finish_grp (s : State) (g : Group) : (s.finish g).grp = g.complete := s.setGrp_grp _

theorem State.finish_onlyGroup (s : State) (g : Group) : OnlyGroup s (s.finish g) where
  rest := rfl
  others k hk := by
    unfold State.finish
    rw [State.setGrp_groupAt, if_neg hk]

/-! ### The operations -/

@[simp] theorem Group.mark_getV (g : Group) (n l : Nat) (ks : List Nat) (r : Reg) (t : Nat) : (g.mark n l ks).getV r t = g.getV r t := rfl

@[simp] theorem Group.mark_getG (g : Group) (n l : Nat) (ks : List Nat) (r : Reg) : (g.mark n l ks).getG r = g.getG r := rfl

theorem Group.stamp_eta (g : Group) (n l : Nat) (ls : List Lane) (ks : List Nat) :
    g.stamp n l ls ks = { g with avail := (g.stamp n l ls ks).avail } := by
  unfold Group.stamp
  split <;> rfl

theorem Group.rd_of_eq {g g' : Group} (hv : g'.v = g.v) (hg : g'.g = g.g) (l : Lane) (r : Reg) : g'.rd l r = g.rd l r := by
  cases l with
  | none => simp [Group.rd, Group.getG, hg]
  | some t => simp [Group.rd, Group.getV, hv]

@[simp] theorem Group.complete_v (g : Group) : g.complete.v = g.v := by rw [g.complete_eta]

@[simp] theorem Group.complete_g (g : Group) : g.complete.g = g.g := by rw [g.complete_eta]

@[simp] theorem Group.complete_p (g : Group) : g.complete.p = g.p := by rw [g.complete_eta]

@[simp] theorem Group.complete_q (g : Group) : g.complete.q = g.q := by rw [g.complete_eta]

@[simp] theorem Group.complete_flags (g : Group) : g.complete.flags = g.flags := by rw [g.complete_eta]

@[simp] theorem Group.complete_pend (g : Group) : g.complete.pend = g.pend := by rw [g.complete_eta]

@[simp] theorem Group.complete_rd (g : Group) (l : Lane) (r : Reg) : g.complete.rd l r = g.rd l r :=
  Group.rd_of_eq g.complete_v g.complete_g l r

@[simp] theorem Group.stamp_v (g : Group) (n l : Nat) (ls : List Lane) (ks : List Nat) : (g.stamp n l ls ks).v = g.v := by
  rw [Group.stamp_eta]

@[simp] theorem Group.stamp_g (g : Group) (n l : Nat) (ls : List Lane) (ks : List Nat) : (g.stamp n l ls ks).g = g.g := by
  rw [Group.stamp_eta]

@[simp] theorem Group.stamp_p (g : Group) (n l : Nat) (ls : List Lane) (ks : List Nat) : (g.stamp n l ls ks).p = g.p := by
  rw [Group.stamp_eta]

@[simp] theorem Group.stamp_q (g : Group) (n l : Nat) (ls : List Lane) (ks : List Nat) : (g.stamp n l ls ks).q = g.q := by
  rw [Group.stamp_eta]

@[simp] theorem Group.stamp_flags (g : Group) (n l : Nat) (ls : List Lane) (ks : List Nat) : (g.stamp n l ls ks).flags = g.flags := by
  rw [Group.stamp_eta]

@[simp] theorem Group.stamp_pend (g : Group) (n l : Nat) (ls : List Lane) (ks : List Nat) : (g.stamp n l ls ks).pend = g.pend := by
  rw [Group.stamp_eta]

@[simp] theorem Group.stamp_rd (g : Group) (n l : Nat) (ls : List Lane) (ks : List Nat) (x : Lane) (r : Reg) :
    (g.stamp n l ls ks).rd x r = g.rd x r :=
  Group.rd_of_eq (g.stamp_v n l ls ks) (g.stamp_g n l ls ks) x r

/-- What writing registers of lanes leaves alone. -/
theorem Group.writeAll_kept (g : Group) (u : Bool) (h : Guard) (d : Reg) (f : Lane → Word) {l : Lane} (hl : laneFits u l) {r : Reg}
    (hr : r ≠ d ∨ l ∉ g.lanes u h) : (g.writeAll (g.lanes u h) d f).rd l r = g.rd l r := by
  rw [Group.writeAll_rd g (fun _ hx => Group.lanes_fit hx) hl, if_neg]
  tauto

theorem not_mem_lanes {g : Group} {h : Guard} {x : Nat} (ha : (g.active h).getLsbD x = false) : some x ∉ g.lanes false h := by
  intro hm
  have := (Group.mem_lanes_thread.1 hm).2
  simp [ha] at this

theorem none_not_mem_lanes {g : Group} {h : Guard} (hq : g.guardQ h = false) : (none : Lane) ∉ g.lanes true h := by
  intro hm
  have := (Group.mem_lanes_uniform.1 hm).2
  simp [hq] at this

/-- From a group whose registers were written, completing makes the frame. -/
theorem wroteRegs_of {s t : State} {u : Bool} {h : Guard} {dst : List Reg} {g : Group} (ht : t = s.finish g)
    (hf : g = { s.grp with v := g.v, g := g.g, avail := g.avail })
    (hk : ∀ l r, laneFits u l → (r ∉ dst ∨ l ∉ s.grp.lanes u h) → g.rd l r = s.grp.rd l r)
    (hv : u = true → g.v = s.grp.v) (hg : u = false → g.g = s.grp.g) : WroteRegs s t u h dst := by
  have hc : t.grp = { g with loops := s.grp.complete.loops, n := s.grp.complete.n, pc := s.grp.complete.pc, hint := none } := by
    rw [ht, State.finish_grp]
    exact Group.complete_of_eq s.grp g (by rw [hf]) (by rw [hf]) (by rw [hf])
  have hv' : t.grp.v = g.v := by rw [hc]
  have hg' : t.grp.g = g.g := by rw [hc]
  refine { toOnlyGroup := ht ▸ s.finish_onlyGroup g, vKept := ?_, gKept := ?_, fields := ?_ }
  · intro r x hr hx
    show mapGet 0#32 t.grp.v _ = mapGet 0#32 s.grp.v _
    rw [hv']
    cases u with
    | true => rw [hv rfl]
    | false =>
      refine hk (some x) r ⟨rfl, hx⟩ ?_
      rcases hr with hr | hr | hr
      · cases hr
      · exact .inl hr
      · exact .inr (not_mem_lanes hr)
  · intro r hr
    show mapGet 0#32 t.grp.g _ = mapGet 0#32 s.grp.g _
    rw [hg']
    cases u with
    | false => rw [hg rfl]
    | true =>
      refine hk none r rfl ?_
      rcases hr with hr | hr | hr
      · cases hr
      · exact .inl hr
      · exact .inr (none_not_mem_lanes hr)
  · rw [Group.complete_eta s.grp, hc]
    rw [hf]

theorem State.alu_grp_rd (s : State) (u : Bool) (h : Guard) (d : Reg) (lat : Nat) (f : Lane → Word) {l : Lane} (hl : l ∈ s.grp.lanes u h) :
    (s.alu u h d lat f).grp.rd l d = f l := by
  unfold State.alu
  dsimp only
  rw [State.finish_grp, Group.complete_rd, Group.stamp_rd, Group.writeAll_rd s.grp (fun _ hx => Group.lanes_fit hx) (Group.lanes_fit hl)]
  simp [hl]

/-- `alu`: every other register, and every other part of the state, stays as completing leaves it. -/
theorem State.alu_wrote (s : State) (u : Bool) (h : Guard) (d : Reg) (lat : Nat) (f : Lane → Word) :
    WroteRegs s (s.alu u h d lat f) u h [d] := by
  refine wroteRegs_of rfl ?_ ?_ ?_ ?_
  · rw [Group.stamp_eta, Group.writeAll_eta]
  · intro l r hl hr
    rw [Group.stamp_rd]
    exact Group.writeAll_kept _ _ _ _ _ hl (by simpa using hr)
  · rintro rfl
    rw [Group.stamp_v]
    exact Group.writeAll_other_v _ (fun l hl => (Group.mem_lanes_uniform.1 hl).1)
  · rintro rfl
    rw [Group.stamp_g]
    exact Group.writeAll_other_g _ (fun l hl e => Group.none_not_mem_lanes _ _ (e ▸ hl))

/-! ### Pairs -/

theorem reg_ne_succ (d : Reg) : d ≠ d + 1 := by
  intro h
  have := congrArg BitVec.toNat h
  rw [BitVec.toNat_add] at this
  have e : (1 : Reg).toNat = 1 := rfl
  rw [e] at this
  have := d.isLt
  omega

theorem Group.writeAll64_cons (g : Group) (l : Lane) (ls : List Lane) (d : Reg) (f : Lane → Dword) :
    g.writeAll64 (l :: ls) d f = (g.wr64 l d (f l)).writeAll64 ls d f := rfl

theorem Group.writeAll64_only (g : Group) (ls : List Lane) (d : Reg) (f : Lane → Dword) :
    ∃ v w, g.writeAll64 ls d f = { g with v := v, g := w } := by
  induction ls generalizing g with
  | nil => exact ⟨g.v, g.g, rfl⟩
  | cons l ls ih =>
    obtain ⟨v, w, e⟩ := ih (g.wr64 l d (f l))
    refine ⟨v, w, ?_⟩
    rw [Group.writeAll64_cons, e]
    cases l <;> rfl

theorem Group.writeAll64_eta (g : Group) (ls : List Lane) (d : Reg) (f : Lane → Dword) :
    g.writeAll64 ls d f = { g with v := (g.writeAll64 ls d f).v, g := (g.writeAll64 ls d f).g } := by
  obtain ⟨v, w, e⟩ := g.writeAll64_only ls d f
  rw [e]

theorem Group.wr64_rd (g : Group) {u : Bool} {l l' : Lane} (d r : Reg) (w : Dword) (hl : laneFits u l) (hl' : laneFits u l') :
    (g.wr64 l d w).rd l' r = if l' = l ∧ r = d then w.extractLsb' 0 32 else if l' = l ∧ r = d + 1 then w.extractLsb' 32 32 else g.rd l' r := by
  unfold Group.wr64
  rw [Group.wr_rd _ _ _ _ hl hl', Group.wr_rd _ _ _ _ hl hl']
  by_cases h1 : r = d
  · subst h1
    by_cases h2 : l' = l <;> simp [h2]
  · by_cases h3 : r = d + 1 <;> by_cases h2 : l' = l <;> simp [h1, h2, h3]

theorem Group.writeAll64_rd (g : Group) {u : Bool} {ls : List Lane} {d : Reg} {f : Lane → Dword} {l : Lane} {r : Reg}
    (hls : ∀ l ∈ ls, laneFits u l) (hl : laneFits u l) :
    (g.writeAll64 ls d f).rd l r = if l ∈ ls ∧ r = d then (f l).extractLsb' 0 32
      else if l ∈ ls ∧ r = d + 1 then (f l).extractLsb' 32 32 else g.rd l r := by
  induction ls generalizing g with
  | nil => simp [Group.writeAll64]
  | cons x xs ih =>
    rw [Group.writeAll64_cons, ih _ (fun y hy => hls y (List.mem_cons_of_mem _ hy)), g.wr64_rd d r _ (hls x (by simp)) hl]
    rcases eq_or_ne l x with rfl | hx
    · simp only [List.mem_cons, true_and, true_or]
      split_ifs <;> first | rfl | tauto
    · simp only [List.mem_cons, hx, false_and, if_false, false_or]

theorem Group.writeAll64_other_v (g : Group) {ls : List Lane} {d : Reg} {f : Lane → Dword} (hls : ∀ l ∈ ls, l = none) :
    (g.writeAll64 ls d f).v = g.v := by
  induction ls generalizing g with
  | nil => rfl
  | cons x xs ih =>
    rw [Group.writeAll64_cons, ih _ (fun y hy => hls y (List.mem_cons_of_mem _ hy)), hls x (by simp)]
    rfl

theorem Group.writeAll64_other_g (g : Group) {ls : List Lane} {d : Reg} {f : Lane → Dword} (hls : ∀ l ∈ ls, l ≠ none) :
    (g.writeAll64 ls d f).g = g.g := by
  induction ls generalizing g with
  | nil => rfl
  | cons x xs ih =>
    rw [Group.writeAll64_cons, ih _ (fun y hy => hls y (List.mem_cons_of_mem _ hy))]
    cases x with
    | none => exact absurd rfl (hls none (by simp))
    | some t => rfl

theorem dword_halves (w : Dword) : w.extractLsb' 32 32 ++ w.extractLsb' 0 32 = w := by
  ext i hi
  simp only [BitVec.getElem_append, BitVec.getElem_extractLsb']
  split
  · simp [BitVec.getLsbD_eq_getElem (by omega : i < 64)]
  · have e : 32 + (i - 32) = i := by omega
    rw [e]
    simp [BitVec.getLsbD_eq_getElem (by omega : i < 64)]

theorem Group.writeAll64_rd64 (g : Group) {u : Bool} {h : Guard} {d : Reg} {f : Lane → Dword} {l : Lane} (hl : l ∈ g.lanes u h) :
    (g.writeAll64 (g.lanes u h) d f).rd64 l d = f l := by
  unfold Group.rd64
  rw [Group.writeAll64_rd g (fun _ hx => Group.lanes_fit hx) (Group.lanes_fit hl),
    Group.writeAll64_rd g (fun _ hx => Group.lanes_fit hx) (Group.lanes_fit hl)]
  simp [hl, dword_halves]

@[simp] theorem Group.complete_rd64 (g : Group) (l : Lane) (r : Reg) : g.complete.rd64 l r = g.rd64 l r := by
  simp [Group.rd64]

@[simp] theorem Group.stamp_rd64 (g : Group) (n l : Nat) (ls : List Lane) (ks : List Nat) (x : Lane) (r : Reg) :
    (g.stamp n l ls ks).rd64 x r = g.rd64 x r := by
  simp [Group.rd64]

theorem State.alu64_grp_rd (s : State) (u : Bool) (h : Guard) (d : Reg) (lat : Nat) (f : Lane → Dword) {l : Lane} (hl : l ∈ s.grp.lanes u h) :
    (s.alu64 u h d lat f).grp.rd64 l d = f l := by
  unfold State.alu64
  dsimp only
  rw [State.finish_grp, Group.complete_rd64, Group.stamp_rd64, Group.writeAll64_rd64 s.grp hl]

/-- `alu64`: every register but the pair, and every other part of the state, stays as completing leaves it. -/
theorem State.alu64_wrote (s : State) (u : Bool) (h : Guard) (d : Reg) (lat : Nat) (f : Lane → Dword) :
    WroteRegs s (s.alu64 u h d lat f) u h [d, d + 1] := by
  refine wroteRegs_of rfl ?_ ?_ ?_ ?_
  · rw [Group.stamp_eta, Group.writeAll64_eta]
  · intro l r hl hr
    rw [Group.stamp_rd, Group.writeAll64_rd s.grp (fun _ hx => Group.lanes_fit hx) hl]
    simp only [List.mem_cons, List.not_mem_nil, or_false, not_or] at hr
    rw [if_neg (by tauto), if_neg (by tauto)]
  · rintro rfl
    rw [Group.stamp_v]
    exact Group.writeAll64_other_v _ (fun l hl => (Group.mem_lanes_uniform.1 hl).1)
  · rintro rfl
    rw [Group.stamp_g]
    exact Group.writeAll64_other_g _ (fun l hl e => Group.none_not_mem_lanes _ _ (e ▸ hl))

/-! ### Flags -/

theorem Group.raise_eta (g : Group) (ls : List Lane) (f : Lane → BitVec 4) :
    g.raise ls f = { g with flags := (g.raise ls f).flags, pend := (g.raise ls f).pend } := by
  unfold Group.raise
  dsimp only
  split <;> rfl

@[simp] theorem Group.raise_v (g : Group) (ls : List Lane) (f : Lane → BitVec 4) : (g.raise ls f).v = g.v := by rw [g.raise_eta]

@[simp] theorem Group.raise_g (g : Group) (ls : List Lane) (f : Lane → BitVec 4) : (g.raise ls f).g = g.g := by rw [g.raise_eta]

@[simp] theorem Group.raise_rd (g : Group) (ls : List Lane) (f : Lane → BitVec 4) (l : Lane) (r : Reg) : (g.raise ls f).rd l r = g.rd l r :=
  Group.rd_of_eq (g.raise_v ls f) (g.raise_g ls f) l r

@[simp] theorem Group.raise_rd64 (g : Group) (ls : List Lane) (f : Lane → BitVec 4) (l : Lane) (r : Reg) :
    (g.raise ls f).rd64 l r = g.rd64 l r := by
  simp [Group.rd64]

theorem foldl_or_getLsbD (ls : List Lane) (f : Lane → BitVec 4) (x : BitVec 4) (i : Nat) :
    (ls.foldl (fun x l => x ||| f l) x).getLsbD i = (x.getLsbD i || ls.any (fun l => (f l).getLsbD i)) := by
  induction ls generalizing x with
  | nil => simp
  | cons l ls ih => simp [ih, Bool.or_assoc]

theorem Group.raise_flags (g : Group) (ls : List Lane) (f : Lane → BitVec 4) (i : Nat) :
    (g.raise ls f).flags.getLsbD i = (g.flags.getLsbD i || ls.any (fun l => (f l).getLsbD i)) := by
  have key : ∀ x : BitVec 4, (g.flags ||| x.setWidth 32).getLsbD i = (g.flags.getLsbD i || x.getLsbD i) := by
    intro x
    rw [BitVec.getLsbD_or, BitVec.getLsbD_setWidth]
    by_cases hi : i < 32
    · simp [hi]
    · have : x.getLsbD i = false := BitVec.getLsbD_of_ge x i (by omega)
      simp [hi, this]
  have e : (g.raise ls f).flags = g.flags ||| (ls.foldl (fun x l => x ||| f l) 0#4).setWidth 32 := by
    unfold Group.raise
    dsimp only
    split <;> rfl
  rw [e, key, foldl_or_getLsbD]
  simp

theorem Group.raise_pend (g : Group) (ls : List Lane) (f : Lane → BitVec 4) {c : Nat} (hc : c ≠ causeArithmetic) :
    mapFind (g.raise ls f).pend c = mapFind g.pend c := by
  unfold Group.raise
  dsimp only
  split
  · rw [mapFind_mapPut, if_neg hc]
  · rfl

/-- The record that raising flags makes rests on the arming, the address, the Running set and the records the group has. -/
theorem Group.raise_pend_of {g g' : Group} {ls : List Lane} {f : Lane → BitVec 4} (ha : g'.flagArm = g.flagArm) (hp : g'.pend = g.pend)
    (hc : g'.pc = g.pc) (ht : g'.threads = g.threads) : (g'.raise ls f).pend = (g.raise ls f).pend := by
  have hr : g'.running = g.running := by
    simp only [Group.running, Group.stateMask, Group.thread, ht]
  unfold Group.raise laneMask
  dsimp only
  rw [ha, hp, hc, hr]
  split <;> rfl

/-- Raising flags makes the record of an overflow, or leaves it (R88). -/
theorem Group.raise_overflow (g : Group) (ls : List Lane) (f : Lane → BitVec 4) :
    (¬((g.flagArm.getLsbD 0 = true ∧ g.flagArm.getLsbD 1 = true) ∧ ∃ l ∈ ls, (f l).getLsbD 1 = true) ∨ mapFind g.pend causeArithmetic ≠ none →
      mapFind (g.raise ls f).pend causeArithmetic = mapFind g.pend causeArithmetic) ∧
    (g.flagArm.getLsbD 0 = true ∧ g.flagArm.getLsbD 1 = true → (∃ l ∈ ls, (f l).getLsbD 1 = true) → mapFind g.pend causeArithmetic = none →
      ∃ r, mapFind (g.raise ls f).pend causeArithmetic = some r ∧ (r.c ++ r.b : Dword) = g.pc.setWidth 64 ∧
        (∀ i, r.a.getLsbD i = (decide (4 ≤ i) && ls.any (fun l => (f l).getLsbD (i - 4)))) ∧
        r.mask = laneMask g (ls.filter (fun l => (f l).getLsbD 1))) := by
  have any1 : (ls.foldl (fun x l => x ||| f l) 0#4).getLsbD 1 = ls.any (fun l => (f l).getLsbD 1) := by
    rw [foldl_or_getLsbD]
    simp
  have ex : (ls.any (fun l => (f l).getLsbD 1) = true) ↔ ∃ l ∈ ls, (f l).getLsbD 1 = true := by simp
  constructor
  · intro h
    unfold Group.raise
    dsimp only
    rw [if_neg]
    rw [any1, ex]
    simp only [Bool.and_eq_true]
    rcases h with h | h
    · exact fun k => h ⟨k.1, k.2.1⟩
    · exact fun k => h k.2.2
  · intro ha hr hn
    unfold Group.raise
    dsimp only
    rw [if_pos ⟨by simpa using ha, by rw [any1, ex]; exact hr, hn⟩]
    refine ⟨_, by rw [mapFind_mapPut, if_pos rfl], ?_, ?_, rfl⟩
    · dsimp only
      generalize (BitVec.setWidth 64 g.pc : Dword) = x
      ext i hi
      rw [BitVec.getElem_append]
      split
      · simp [BitVec.getLsbD_eq_getElem (x := x) (i := i) hi]
      · have h : 32 + (i - 32) = i := by omega
        simp [h, BitVec.getLsbD_eq_getElem (x := x) (i := i) hi]
    · intro i
      dsimp only
      rw [BitVec.getLsbD_ofNat, show (16 : Nat) = 2 ^ 4 from rfl, Nat.testBit_mul_two_pow]
      by_cases hi : 4 ≤ i
      · have e := foldl_or_getLsbD ls f 0#4 (i - 4)
        rw [← BitVec.testBit_toNat] at e
        rw [e]
        by_cases h4 : i < 32
        · simp [hi, h4]
        · have : ∀ l, (f l).getLsbD (i - 4) = false := fun l => BitVec.getLsbD_of_ge _ _ (by omega)
          simp [h4, this]
      · simp [hi]

theorem wroteFlags_of {s t : State} {u : Bool} {h : Guard} {dst : List Reg} {fl : Lane → BitVec 4} {g : Group} (ht : t = s.finish g)
    (hf : g = { s.grp with v := g.v, g := g.g, avail := g.avail, flags := g.flags, pend := g.pend })
    (hk : ∀ l r, laneFits u l → (r ∉ dst ∨ l ∉ s.grp.lanes u h) → g.rd l r = s.grp.rd l r)
    (hv : u = true → g.v = s.grp.v) (hg : u = false → g.g = s.grp.g)
    (hfl : ∀ i, g.flags.getLsbD i = (s.grp.flags.getLsbD i || (s.grp.lanes u h).any (fun l => (fl l).getLsbD i)))
    (hp : ∀ c, c ≠ causeArithmetic → mapFind g.pend c = mapFind s.grp.pend c)
    (ho : mapFind g.pend causeArithmetic = mapFind (s.grp.raise (s.grp.lanes u h) fl).pend causeArithmetic) : WroteFlags s t u h dst fl := by
  have hc : t.grp = { g with loops := s.grp.complete.loops, n := s.grp.complete.n, pc := s.grp.complete.pc, hint := none } := by
    rw [ht, State.finish_grp]
    exact Group.complete_of_eq s.grp g (by rw [hf]) (by rw [hf]) (by rw [hf])
  have hv' : t.grp.v = g.v := by rw [hc]
  have hg' : t.grp.g = g.g := by rw [hc]
  refine { toOnlyGroup := ht ▸ s.finish_onlyGroup g, vKept := ?_, gKept := ?_, flags := ?_, overflow := ?_, pends := ?_, fields := ?_ }
  · intro r x hr hx
    show mapGet 0#32 t.grp.v _ = mapGet 0#32 s.grp.v _
    rw [hv']
    cases u with
    | true => rw [hv rfl]
    | false =>
      refine hk (some x) r ⟨rfl, hx⟩ ?_
      rcases hr with hr | hr | hr
      · cases hr
      · exact .inl hr
      · exact .inr (not_mem_lanes hr)
  · intro r hr
    show mapGet 0#32 t.grp.g _ = mapGet 0#32 s.grp.g _
    rw [hg']
    cases u with
    | false => rw [hg rfl]
    | true =>
      refine hk none r rfl ?_
      rcases hr with hr | hr | hr
      · cases hr
      · exact .inl hr
      · exact .inr (none_not_mem_lanes hr)
  · intro i
    have : t.grp.flags = g.flags := by rw [hc]
    rw [this]
    exact hfl i
  · have : t.grp.pend = g.pend := by rw [hc]
    obtain ⟨h1, h2⟩ := s.grp.raise_overflow (s.grp.lanes u h) fl
    refine ⟨fun hn => by rw [this, ho, h1 hn], fun ha hr hn => ?_⟩
    obtain ⟨r, hr1, hr2, hr3, hr4⟩ := h2 ha hr hn
    refine ⟨r, by rw [this, ho, hr1], hr2, hr3, ?_, ?_⟩
    · rintro rfl
      obtain ⟨l, hl, hf1⟩ := hr
      obtain ⟨rfl, -⟩ := Group.mem_lanes_uniform.1 hl
      rw [hr4, laneMask, if_pos]
      simp only [List.contains_eq_mem, decide_eq_true_eq, List.mem_filter]
      exact ⟨hl, hf1⟩
    · rintro rfl x hx
      have : ¬(List.contains ((s.grp.lanes false h).filter (fun l => (fl l).getLsbD 1)) none = true) := by
        simp only [List.contains_eq_mem, decide_eq_true_eq, List.mem_filter]
        exact fun k => Group.none_not_mem_lanes _ _ k.1
      rw [hr4, laneMask, if_neg this, maskOf_getLsbD]
      simp [hx]
  · intro c hcc
    have : t.grp.pend = g.pend := by rw [hc]
    rw [this]
    exact hp c hcc
  · rw [Group.complete_eta s.grp, hc]
    rw [hf]

theorem State.aluF_grp_rd (s : State) (u : Bool) (h : Guard) (d : Reg) (lat : Nat) (f : Lane → IRes 32) {l : Lane} (hl : l ∈ s.grp.lanes u h) :
    (s.aluF u h d lat f).grp.rd l d = (f l).val := by
  unfold State.aluF
  dsimp only
  rw [State.finish_grp, Group.complete_rd, Group.stamp_rd, Group.raise_rd,
    Group.writeAll_rd s.grp (fun _ hx => Group.lanes_fit hx) (Group.lanes_fit hl)]
  simp [hl]

/-- `aluF`: as `alu`, with the flags of the lanes raised. -/
theorem State.aluF_wrote (s : State) (u : Bool) (h : Guard) (d : Reg) (lat : Nat) (f : Lane → IRes 32) :
    WroteFlags s (s.aluF u h d lat f) u h [d] (fun l => (f l).fl) := by
  have e := Group.writeAll_eta s.grp (s.grp.lanes u h) d (fun l => (f l).val)
  refine wroteFlags_of rfl ?_ ?_ ?_ ?_ ?_ ?_ ?_
  · rw [Group.stamp_eta, Group.raise_eta, e]
  · intro l r hl hr
    rw [Group.stamp_rd, Group.raise_rd]
    exact Group.writeAll_kept _ _ _ _ _ hl (by simpa using hr)
  · rintro rfl
    rw [Group.stamp_v, Group.raise_v]
    exact Group.writeAll_other_v _ (fun l hl => (Group.mem_lanes_uniform.1 hl).1)
  · rintro rfl
    rw [Group.stamp_g, Group.raise_g]
    exact Group.writeAll_other_g _ (fun l hl e => Group.none_not_mem_lanes _ _ (e ▸ hl))
  · intro i
    rw [Group.stamp_flags, Group.raise_flags, e]
  · intro c hc
    rw [Group.stamp_pend, Group.raise_pend _ _ _ hc, e]
  · rw [Group.stamp_pend, e]
    exact congrArg (fun p => mapFind p _) (Group.raise_pend_of rfl rfl rfl rfl)

theorem State.alu64F_grp_rd (s : State) (u : Bool) (h : Guard) (d : Reg) (lat : Nat) (f : Lane → IRes 64) {l : Lane} (hl : l ∈ s.grp.lanes u h) :
    (s.alu64F u h d lat f).grp.rd64 l d = (f l).val := by
  unfold State.alu64F
  dsimp only
  rw [State.finish_grp, Group.complete_rd64, Group.stamp_rd64, Group.raise_rd64, Group.writeAll64_rd64 s.grp hl]

/-- `alu64F`: as `alu64`, with the flags of the lanes raised. -/
theorem State.alu64F_wrote (s : State) (u : Bool) (h : Guard) (d : Reg) (lat : Nat) (f : Lane → IRes 64) :
    WroteFlags s (s.alu64F u h d lat f) u h [d, d + 1] (fun l => (f l).fl) := by
  have e := Group.writeAll64_eta s.grp (s.grp.lanes u h) d (fun l => (f l).val)
  refine wroteFlags_of rfl ?_ ?_ ?_ ?_ ?_ ?_ ?_
  · rw [Group.stamp_eta, Group.raise_eta, e]
  · intro l r hl hr
    rw [Group.stamp_rd, Group.raise_rd, Group.writeAll64_rd s.grp (fun _ hx => Group.lanes_fit hx) hl]
    simp only [List.mem_cons, List.not_mem_nil, or_false, not_or] at hr
    rw [if_neg (by tauto), if_neg (by tauto)]
  · rintro rfl
    rw [Group.stamp_v, Group.raise_v]
    exact Group.writeAll64_other_v _ (fun l hl => (Group.mem_lanes_uniform.1 hl).1)
  · rintro rfl
    rw [Group.stamp_g, Group.raise_g]
    exact Group.writeAll64_other_g _ (fun l hl e => Group.none_not_mem_lanes _ _ (e ▸ hl))
  · intro i
    rw [Group.stamp_flags, Group.raise_flags, e]
  · intro c hc
    rw [Group.stamp_pend, Group.raise_pend _ _ _ hc, e]
  · rw [Group.stamp_pend, e]
    exact congrArg (fun p => mapFind p _) (Group.raise_pend_of rfl rfl rfl rfl)

end Sys2Proof.Machine
end

