-- ==== Sys2Proof/Laws/Access.lean ====
section
/-! SUPPORT. What issuing a memory instruction does: one lemma for sending an access, one for the issue, one for the whole instruction. -/

namespace Sys2Proof.Machine

/-- An operation without what sending fixes. -/
def MemOp.shape (op : MemOp) : MemOp :=
  { op with accs := op.accs.map (fun a => { a with sent := none, vis := 0, data := if op.kind = .load then [] else a.data }) }

/-- All that sending an access of an operation of a group can do. -/
structure Sends (gid : Nat) (s t : State) : Prop where
  rest : t = { s with ops := t.ops, agenda := t.agenda, groups := t.groups, wgs := t.wgs }
  grp : ∃ x y, t.groupAt gid = { s.groupAt gid with seen := x, heard := y }
  others : ∀ k, k ≠ gid → t.groupAt k = s.groupAt k
  ops : ∀ id, (mapFind t.ops id).map MemOp.shape = (mapFind s.ops id).map MemOp.shape

theorem Sends.refl (gid : Nat) (s : State) : Sends gid s s := ⟨rfl, ⟨_, _, rfl⟩, fun _ _ => rfl, fun _ => rfl⟩

theorem Sends.trans {gid : Nat} {r s t : State} (h : Sends gid r s) (k : Sends gid s t) : Sends gid r t := by
  obtain ⟨x, y, e⟩ := h.grp
  obtain ⟨x', y', e'⟩ := k.grp
  refine ⟨?_, ⟨x', y', ?_⟩, fun j hj => (k.others j hj).trans (h.others j hj), fun id => (k.ops id).trans (h.ops id)⟩
  · rw [k.rest, h.rest]
  · rw [e', e]

theorem Sends.of_agenda (gid : Nat) (s : State) (c : Clk) (n : Nat) (ev : Instr) : Sends gid s (s.schedule c n ev) :=
  ⟨rfl, ⟨_, _, rfl⟩, fun _ _ => rfl, fun _ => rfl⟩

theorem shape_setAcc (op : MemOp) (t : Nat) (f : Acc → Acc)
    (hf : ∀ a, ({ f a with sent := none, vis := 0, data := if op.kind = .load then [] else (f a).data } : Acc)
      = { a with sent := none, vis := 0, data := if op.kind = .load then [] else a.data }) :
    (setAcc op t f).shape = op.shape := by
  unfold MemOp.shape setAcc
  dsimp only
  congr 1
  rw [List.map_map]
  refine List.map_congr_left (fun a _ => ?_)
  dsimp only [Function.comp]
  split
  · exact hf a
  · rfl

theorem Sends.of_op (gid : Nat) (s : State) {k : Nat} {op op' : MemOp} (h : mapFind s.ops k = some op) (hs : op'.shape = op.shape) :
    Sends gid s { s with ops := mapPut s.ops k op' } := by
  refine ⟨rfl, ⟨_, _, rfl⟩, fun _ _ => rfl, fun id => ?_⟩
  dsimp only
  rw [mapFind_mapPut]
  by_cases e : id = k
  · subst e
    rw [if_pos rfl, h, Option.map_some, Option.map_some, hs]
  · rw [if_neg e]

theorem Sends.of_group (s : State) (gid : Nat) (f : Group → Group) (hf : ∃ x y, f (s.groupAt gid) = { s.groupAt gid with seen := x, heard := y }) :
    Sends gid s (s.modGroup gid f) := by
  refine ⟨rfl, ?_, fun k hk => ?_, fun _ => rfl⟩
  · obtain ⟨x, y, e⟩ := hf
    refine ⟨x, y, ?_⟩
    unfold State.modGroup
    rw [State.setGroupAt_groupAt, if_pos rfl, e]
  · unfold State.modGroup
    rw [State.setGroupAt_groupAt, if_neg hk]

theorem State.learn_sends (s : State) (k : Nat) (op : MemOp) (a : Acc) (from_ : List Nat) (gid : Nat) (hg : op.gid = gid) :
    Sends gid s (s.learn k op a from_ false) := by
  subst hg
  unfold State.learn
  dsimp only
  rw [if_neg Bool.false_ne_true]
  refine Sends.of_group _ _ _ ?_
  split <;> exact ⟨_, _, rfl⟩

theorem Sends.of_wgs (gid : Nat) (s : State) (k : Nat) (f : Workgroup → Workgroup) : Sends gid s (s.modWg k f) := ⟨rfl, ⟨_, _, rfl⟩, fun _ _ => rfl, fun _ => rfl⟩

theorem State.enterBuffer_sends (s : State) (k : Nat) (op : MemOp) (a : Acc) (gid : Nat) : Sends gid s (s.enterBuffer k op a) := by
  unfold State.enterBuffer
  split
  · exact Sends.of_wgs _ _ _ _
  · exact Sends.refl _ _
  · exact Sends.refl _ _
  · exact Sends.refl _ _

theorem Sends.foldl {α : Type} (gid : Nat) (xs : List α) (f : State → α → State) (hf : ∀ s x, Sends gid s (f s x)) (s : State) :
    Sends gid s (xs.foldl f s) := by
  induction xs generalizing s with
  | nil => exact Sends.refl _ _
  | cons x xs ih => exact (hf s x).trans (ih _)

theorem State.nudge_sends (s : State) (id gid : Nat) : Sends gid s (s.nudge id) := by
  refine Sends.foldl _ _ _ (fun s p => Sends.foldl _ _ _ (fun s a => ?_) _) _
  split
  · exact Sends.of_agenda _ _ _ _ _
  · exact Sends.refl _ _

theorem State.tryArrive_sends (s : State) (k gid : Nat) : Sends gid s (s.tryArrive k) := by
  unfold State.tryArrive
  split
  · exact Sends.refl _ _
  · split
    · exact Sends.refl _ _
    · exact Sends.of_agenda _ _ _ _ _

theorem State.wakeHeld_sends (s : State) (f : Await → Bool) (gid : Nat) : Sends gid s (s.wakeHeld f) := by
  refine (Sends.foldl _ _ _ (fun s p => ?_) _).trans (Sends.foldl _ _ _ (fun s p => ?_) _)
  · split
    · exact Sends.of_agenda _ _ _ _ _
    · exact Sends.refl _ _
  · split
    · exact State.tryArrive_sends _ _ _
    · exact Sends.refl _ _

theorem State.capture_sends (s : State) (k t now gid : Nat) (hk : ∀ op, mapFind s.ops k = some op → op.gid = gid) :
    Sends gid s (s.capture k t now false) := by
  unfold State.capture
  split
  · exact Sends.refl _ _
  · next op ho =>
    split
    · next hkind _ =>
      dsimp only
      refine (Sends.of_op gid s (op' := setAcc op t _) ho (shape_setAcc _ _ _ (fun a => ?_))).trans (State.learn_sends _ _ _ _ _ _ (hk op ho))
      rw [if_pos hkind, if_pos hkind]
    · exact Sends.refl _ _

/-- The group of an operation stays. -/
theorem Sends.gid {gid : Nat} {s t : State} (h : Sends gid s t) {k g : Nat} (hk : ∀ op, mapFind s.ops k = some op → op.gid = g) :
    ∀ op, mapFind t.ops k = some op → op.gid = g := by
  intro op ho
  have e := h.ops k
  rw [ho, Option.map_some] at e
  cases hs : mapFind s.ops k with
  | none => rw [hs] at e; cases e
  | some q =>
    rw [hs, Option.map_some] at e
    have : op.shape.gid = q.shape.gid := by rw [Option.some.inj e]
    exact this.trans (hk q hs)

theorem State.sendAcc_sends (s : State) (k t c gid : Nat) (hk : ∀ op, mapFind s.ops k = some op → op.gid = gid) : Sends gid s (s.sendAcc k t c false) := by
  unfold State.sendAcc
  split
  · exact Sends.refl _ _
  · next op ho =>
    split
    · exact Sends.refl _ _
    · next a ha =>
      have h1 := Sends.of_op gid s ho
        (shape_setAcc op t (fun b => { b with sent := some c, vis := visibleAt op.w a.hor c (if c = op.w then a.extra else 0) }) (fun _ => rfl))
      refine ((h1.trans ?_).trans ((Sends.of_agenda _ _ _ _ _).trans (State.nudge_sends _ _ _))).trans (State.wakeHeld_sends _ _ _)
      by_cases hd : a.settled = true
      · rw [if_pos hd]
        exact Sends.refl _ _
      · rw [if_neg hd]
        by_cases hb : a.buffered = true
        · rw [if_pos hb]
          exact State.enterBuffer_sends _ _ _ _ _
        · rw [if_neg hb]
          exact State.capture_sends _ k t c gid (h1.gid hk)

theorem State.trySend_sends (s : State) (k t now gid : Nat) (hk : ∀ op, mapFind s.ops k = some op → op.gid = gid) :
    Sends gid s (s.trySend k t now false) := by
  unfold State.trySend
  split
  · exact Sends.refl _ _
  · next op ho =>
    split
    · exact Sends.refl _ _
    · split
      · exact Sends.refl _ _
      · split
        · exact Sends.refl _ _
        · split
          · exact State.sendAcc_sends _ _ _ _ _ hk
          · exact Sends.of_agenda _ _ _ _ _

theorem Sends.fold {α : Type} (gid k : Nat) (xs : List α) (f : State → α → State)
    (hf : ∀ s x, (∀ op, mapFind s.ops k = some op → op.gid = gid) → Sends gid s (f s x)) (s : State)
    (hk : ∀ op, mapFind s.ops k = some op → op.gid = gid) : Sends gid s (xs.foldl f s) := by
  induction xs generalizing s with
  | nil => exact Sends.refl _ _
  | cons x xs ih =>
    have h1 := hf s x hk
    exact h1.trans (ih _ (h1.gid hk))

/-! ### The issue -/

/-- A check that succeeds keeps the address. -/
theorem State.checkAccess_va {s : State} {g : Group} {va : Dword} {b : Bool} {n : Nat} {w : Want} {ldc : Bool} {x : Hit}
    (h : s.checkAccess g va b n w ldc = .ok x) : x.va = va.toNat := by
  unfold State.checkAccess at h
  dsimp only at h
  repeat' split at h
  all_goals first
    | (cases h; rfl)
    | cases h

/-- All that the walker, and its reads through L2, can change. -/
structure Walks (s t : State) : Prop where
  rest : t = { s with mem := t.mem, faulty := t.faulty, checks := t.checks, tlb := t.tlb, l2 := t.l2, opens := t.opens }

theorem Walks.refl (s : State) : Walks s s := ⟨rfl⟩

theorem Walks.trans {r s t : State} (h : Walks r s) (k : Walks s t) : Walks r t := ⟨by rw [k.rest, h.rest]⟩

theorem Walks.foldl {α : Type} (xs : List α) (f : State → α → State) (hf : ∀ s x, Walks s (f s x)) (s : State) : Walks s (xs.foldl f s) := by
  induction xs generalizing s with
  | nil => exact Walks.refl _
  | cons x xs ih => exact (hf s x).trans (ih _)

theorem State.fillL2_walks (s : State) (o pa : Nat) (c : BitVec 2) : Walks s (s.fillL2 o pa c) ∧ (s.fillL2 o pa c).mem = s.mem := by
  exact ⟨⟨rfl⟩, rfl⟩

theorem State.fillPath_mem (o : Nat) (xs : List Nat) (s : State) : (xs.foldl (fun s a => s.fillL2 o a 0#2) s).mem = s.mem := by
  induction xs generalizing s with
  | nil => rfl
  | cons x xs ih => exact (ih _).trans (s.fillL2_walks o x 0#2).2

theorem State.markLeaf_walks (s : State) (x : Leaf) : Walks s (s.markLeaf x) := by
  unfold State.markLeaf
  split <;> exact ⟨rfl⟩

theorem State.setLeaf_walks (s : State) (o : Nat) (x : Leaf) : Walks s (s.setLeaf o x) :=
  (Walks.foldl _ _ (fun s a => (s.fillL2_walks o a 0#2).1) s).trans (State.markLeaf_walks _ _)

theorem State.setLeaf_byte (s : State) (o : Nat) (x : Leaf) {a : Nat} (h : a < x.at_ ∨ x.at_ + 8 ≤ a) : (s.setLeaf o x).byte a = s.byte a := by
  unfold State.setLeaf State.markLeaf
  have e : (s.fillPath o x.path).byte a = s.byte a := by
    unfold State.byte State.fillPath
    rw [State.fillPath_mem]
  split
  · exact e
  · show (State.putMem _ x.at_ (leBytes 8 x.next)).byte a = _
    rw [State.putMem_byte, if_neg, e]
    have : (leBytes 8 x.next).length = 8 := rfl
    omega

theorem State.markLeaf_byte (s : State) (x : Leaf) {a : Nat} (h : a < x.at_ ∨ x.at_ + 8 ≤ a) : (s.markLeaf x).byte a = s.byte a := by
  unfold State.markLeaf
  split
  · rfl
  · show (State.putMem _ x.at_ (leBytes 8 x.next)).byte a = _
    rw [State.putMem_byte, if_neg]
    have : (leBytes 8 x.next).length = 8 := rfl
    omega

theorem State.setLeaves_cons (s : State) (r : Req) (rs : List Req) : s.setLeaves (r :: rs) = State.setLeaves (match r.hit.leaf with
    | some x => s.markLeaf x
    | none => s) rs := rfl

theorem State.setLeaves_walks (rs : List Req) (s : State) : Walks s (s.setLeaves rs) := by
  refine Walks.foldl _ _ (fun s r => ?_) s
  split
  · exact State.markLeaf_walks _ _
  · exact Walks.refl _

theorem State.setLeaves_byte (rs : List Req) (s : State) {a : Nat} (h : ∀ r ∈ rs, ∀ x, r.hit.leaf = some x → a < x.at_ ∨ x.at_ + 8 ≤ a) :
    (s.setLeaves rs).byte a = s.byte a := by
  induction rs generalizing s with
  | nil => rfl
  | cons r rs ih =>
    rw [State.setLeaves_cons, ih _ (fun q hq => h q (List.mem_cons_of_mem _ hq))]
    cases hx : r.hit.leaf with
    | none => rfl
    | some x => exact s.markLeaf_byte x (h r (by simp) x hx)

theorem State.openGate_only (s : State) (gid k : Nat) (x : Scope) : ∃ gs, s.openGate gid [k] x = s.setGroupAt gid { s.groupAt gid with gate := gs } ∨ s.openGate gid [k] x = s := by
  unfold State.openGate
  dsimp only
  split
  · exact ⟨[], .inr rfl⟩
  · split
    · next h => simp at h
    · exact ⟨_, .inl rfl⟩

theorem State.recordGuard_only (s : State) (wg : Nat) (k : AccKind) (hs : List Hit) :
    s.recordGuard wg k hs = { s with wgs := (s.recordGuard wg k hs).wgs } := by
  unfold State.recordGuard
  split <;> rfl

/-- What the requests of an instruction must say of the lanes they stand for. -/
def Fit (s : State) (sp : AccSpec) (ldc : Bool) (addr : Lane → Dword × Bool) (data : Lane → List Byte × List Byte) (rs : List Req) : Prop :=
  ∀ r ∈ rs, s.checkAccess s.grp (addr r.lane).1 (addr r.lane).2 sp.size sp.kind.want ldc = .ok r.hit ∧ (r.data, r.data2) = data r.lane

theorem State.mkAcc_keys (s : State) (g : Group) (sp : AccSpec) (n i : Nat) (hold : List Await) (r : Req) :
    let a := s.mkAcc g sp n i hold r
    a.thread = r.lane.getD 0 ∧ a.va = r.hit.va ∧ a.size = sp.size ∧ a.done = false ∧ a.data = r.data ∧ a.data2 = r.data2 := by
  unfold State.mkAcc
  dsimp only
  split <;> exact ⟨rfl, rfl, rfl, rfl, rfl, rfl⟩

theorem shape_keys {p q : MemOp} (h : p.shape = q.shape) :
    p.gid = q.gid ∧ p.kind = q.kind ∧ p.uni = q.uni ∧ p.dst = q.dst ∧ p.ord = q.ord ∧ p.scope = q.scope ∧ p.w = q.w ∧
    p.accs.map (fun a => (a.thread, a.va, a.size, a.done)) = q.accs.map (fun a => (a.thread, a.va, a.size, a.done)) ∧
    (q.kind ≠ .load → p.accs.map (fun a => (a.data, a.data2)) = q.accs.map (fun a => (a.data, a.data2))) := by
  have e : p.shape.accs = q.shape.accs := by rw [h]
  have ek : p.kind = q.kind := congrArg MemOp.kind (a₁ := p.shape) (a₂ := q.shape) h
  refine ⟨congrArg MemOp.gid (a₁ := p.shape) (a₂ := q.shape) h, ek, congrArg MemOp.uni (a₁ := p.shape) (a₂ := q.shape) h,
    congrArg MemOp.dst (a₁ := p.shape) (a₂ := q.shape) h, congrArg MemOp.ord (a₁ := p.shape) (a₂ := q.shape) h,
    congrArg MemOp.scope (a₁ := p.shape) (a₂ := q.shape) h, congrArg MemOp.w (a₁ := p.shape) (a₂ := q.shape) h, ?_, ?_⟩
  · have := congrArg (List.map (fun a : Acc => (a.thread, a.va, a.size, a.done))) e
    simpa [MemOp.shape, Function.comp_def] using this
  · intro hk
    have := congrArg (List.map (fun a : Acc => (a.data, a.data2))) e
    simpa [MemOp.shape, Function.comp_def, ek, hk] using this

theorem State.sendAll_sends (s : State) (k : Nat) (op : MemOp) (gid : Nat) (hk : ∀ op, mapFind s.ops k = some op → op.gid = gid) :
    Sends gid s (s.sendAll k op) := by
  exact Sends.fold gid k _ _ (fun s x hs => State.trySend_sends _ _ _ _ _ hs) s hk

theorem State.opOf_keys (s : State) (g : Group) (h : Guard) (sp : AccSpec) (ldc : Bool) (addr : Lane → Dword × Bool)
    (data : Lane → List Byte × List Byte) (rs : List Req) (hl : rs.map (fun r => r.lane) = s.grp.lanes sp.uni h) (hf : Fit s sp ldc addr data rs) :
    (s.opOf g sp rs).accs.map (fun a => (a.thread, a.va, a.size, a.done)) = (s.grp.lanes sp.uni h).map (fun l => (l.getD 0, (addr l).1.toNat, sp.size, false)) ∧
    (s.opOf g sp rs).accs.map (fun a => (a.data, a.data2)) = (s.grp.lanes sp.uni h).map data := by
  have hz (f : Req → Nat → Acc) {β : Type} (p : Acc → β) (q : Req → β) (hp : ∀ r ∈ rs, ∀ i, p (f r i) = q r) :
      (rs.zipIdx.map (fun x => f x.1 x.2)).map p = rs.map q := by
    rw [List.map_map, ← List.zipIdx_map_fst 0 rs, List.map_map, List.zipIdx_map_fst]
    refine List.map_congr_left (fun x hx => ?_)
    exact hp x.1 (List.fst_mem_of_mem_zipIdx hx) x.2
  unfold State.opOf
  dsimp only
  generalize s.outstanding g.owner (quadrantOf (s.groupCore g)) = base
  generalize s.holdList s.cur sp.kind.writes sp.ord sp.scope g.running = hold
  rw [← hl, List.map_map (l := rs), List.map_map (l := rs)]
  constructor
  · refine hz (fun r i => s.mkAcc g sp (base + requestNo sp rs i r) (firstBeyond sp rs base r) hold r) _ _ (fun r hr i => ?_)
    have ek := s.mkAcc_keys g sp (base + requestNo sp rs i r) (firstBeyond sp rs base r) hold r
    dsimp only at ek
    dsimp only [Function.comp]
    rw [ek.1, ek.2.1, ek.2.2.1, ek.2.2.2.1, State.checkAccess_va (hf r hr).1]
  · refine hz (fun r i => s.mkAcc g sp (base + requestNo sp rs i r) (firstBeyond sp rs base r) hold r) _ _ (fun r hr i => ?_)
    have ek := s.mkAcc_keys g sp (base + requestNo sp rs i r) (firstBeyond sp rs base r) hold r
    dsimp only at ek
    rw [ek.2.2.2.2.1, ek.2.2.2.2.2]
    exact (hf r hr).2

/-- The issue of a checked memory instruction. -/
theorem State.issueOp_issued (s : State) (h : Guard) (sp : AccSpec) (ldc : Bool) (addr : Lane → Dword × Bool) (data : Lane → List Byte × List Byte)
    (rs : List Req) (hc : sp.cls = sp.kind.cls) (hl : rs.map (fun r => r.lane) = s.grp.lanes sp.uni h) (hf : Fit s sp ldc addr data rs) :
    Issued s (s.issueOp (s.grp.raiseCount sp.cls s.fresh) sp rs) sp.uni h sp.kind sp.size sp.dst sp.ord sp.scope ldc addr data := by
  have hkeys := s.opOf_keys (s.grp.raiseCount sp.cls s.fresh) h sp ldc addr data rs hl hf
  have hb : ∀ a, (∀ l ∈ s.grp.lanes sp.uni h, ∀ hit leaf, s.checkAccess s.grp (addr l).1 (addr l).2 sp.size sp.kind.want ldc = .ok hit →
      hit.leaf = some leaf → a < leaf.at_ ∨ leaf.at_ + 8 ≤ a) → (State.setLeaves (s.bumpOpen (s.grp.raiseCount sp.cls s.fresh).owner (s.groupIsland (s.grp.raiseCount sp.cls s.fresh)) rs.length) rs).byte a = s.byte a := fun a ha =>
    State.setLeaves_byte rs _ (fun r hr x hx => ha r.lane (hl ▸ List.mem_map_of_mem hr) r.hit x (hf r hr).1 hx)
  obtain ⟨m, f, c, tl, l2, os, e1⟩ : ∃ m f c tl l2 os, State.setLeaves (s.bumpOpen (s.grp.raiseCount sp.cls s.fresh).owner (s.groupIsland (s.grp.raiseCount sp.cls s.fresh)) rs.length) rs =
      { (s.bumpOpen (s.grp.raiseCount sp.cls s.fresh).owner (s.groupIsland (s.grp.raiseCount sp.cls s.fresh)) rs.length) with mem := m, faulty := f, checks := c, tlb := tl, l2 := l2, opens := os } :=
    ⟨_, _, _, _, _, _, (State.setLeaves_walks rs _).rest⟩
  rw [e1] at hb
  unfold State.issueOp
  dsimp only
  rw [e1, State.recordGuard_only]
  clear e1
  generalize hop : s.opOf (s.grp.raiseCount sp.cls s.fresh) sp rs = op
  rw [hop] at hkeys
  have hg : op.gid = s.cur ∧ op.kind = sp.kind ∧ op.uni = sp.uni ∧ op.dst = sp.dst ∧ op.ord = sp.ord ∧ op.scope = sp.scope ∧ op.w = s.win := by
    subst hop
    exact ⟨rfl, rfl, rfl, rfl, rfl, rfl, rfl⟩
  clear hop
  -- the state before the accesses are sent
  have main : ∀ s0 : State, s0.ops = mapPut s.ops s.nextId op → s0.nextId = s.nextId + 1 → s0.cur = s.cur →
      (∃ l gt, s0.groupAt s.cur = { s.grp.complete with
        outs := s.grp.outs ++ [⟨sp.cls, s.nextId, false⟩], late := l, gate := gt }) →
      (∀ k, k ≠ s.cur → s0.groupAt k = s.groupAt k) → s0.mem = m →
      s0.scratch = s.scratch ∧ s0.owners = s.owners ∧ s0.obuf = s.obuf ∧ s0.acc = s.acc ∧ s0.launches = s.launches →
      Issued s (s0.sendAll s.nextId op) sp.uni h sp.kind sp.size sp.dst sp.ord sp.scope ldc addr data := by
    intro s0 h1 h2 hcur h3 h4 h5 h6
    have hs := s0.sendAll_sends s.nextId op s.cur (by
      intro q hq
      rw [h1, mapFind_mapPut_same] at hq
      cases hq
      exact hg.1)
    have er := hs.rest
    have egrp : (s0.sendAll s.nextId op).grp = (s0.sendAll s.nextId op).groupAt s.cur := by
      unfold State.grp State.groupAt
      rw [er]
      dsimp only
      rw [hcur]
    obtain ⟨l, gt, e0⟩ := h3
    obtain ⟨x, y, e2⟩ := hs.grp
    refine ⟨?_, ?_, ?_, ?_, ?_, ?_, ?_⟩
    · have eo := hs.ops s.nextId
      rw [h1, mapFind_mapPut_same, Option.map_some] at eo
      cases ho : mapFind (s0.sendAll s.nextId op).ops s.nextId with
      | none => rw [ho] at eo; cases eo
      | some q =>
        rw [ho, Option.map_some] at eo
        obtain ⟨a1, a2, a3, a4, a5, a6, a7, a8, a9⟩ := shape_keys (Option.some.inj eo)
        obtain ⟨b1, b2, b3, b4, b5, b6, b7⟩ := hg
        refine ⟨q, rfl, a1.trans b1, a2.trans b2, a3.trans b3, a4.trans b4, a5.trans b5, a6.trans b6, a7.trans b7, a8.trans hkeys.1, ?_⟩
        intro hk
        exact (a9 (by rw [b2]; exact hk)).trans hkeys.2
    · rw [er]
      exact h2
    · rw [egrp, e2, e0, hc]
    · rw [egrp, e2, e0]
    · intro k hk
      rw [hs.others k hk, h4 k hk]
    · intro a ha
      rw [← hb a ha]
      unfold State.byte
      rw [er]
      dsimp only
      rw [h5]
    · rw [er]
      exact h6
  have grp (s1 : State) (hc1 : s1.cur = s.cur) (x : FMap Nat) :
      ∃ l gt, (s1.finish { s.grp.raiseCount sp.cls s.fresh with late := x }).groupAt s.cur = { s.grp.complete with
        outs := s.grp.outs ++ [⟨sp.cls, s.nextId, false⟩], late := l, gate := gt } := by
    refine ⟨x, s.grp.gate, ?_⟩
    unfold State.finish
    rw [State.setGrp_groupAt, if_pos hc1.symm, Group.complete_of_eq s.grp]
    · rw [Group.complete_eta s.grp]
      rfl
    all_goals rfl
  have oth (s1 : State) (hc1 : s1.cur = s.cur) (hg1 : s1.groups = s.groups) (g : Group) (k : Nat) (hk : k ≠ s.cur) :
      (s1.finish g).groupAt k = s.groupAt k := by
    unfold State.finish
    rw [State.setGrp_groupAt, if_neg (by rw [hc1]; exact hk)]
    unfold State.groupAt
    rw [hg1]
  have pre (s1 : State) (h1 : s1.ops = mapPut s.ops s.nextId op) (h2 : s1.nextId = s.nextId + 1) (hc1 : s1.cur = s.cur) (hg1 : s1.groups = s.groups)
      (hm : s1.mem = m) (hr : s1.scratch = s.scratch ∧ s1.owners = s.owners ∧ s1.obuf = s.obuf ∧ s1.acc = s.acc ∧ s1.launches = s.launches)
      (x : FMap Nat) (b : Bool) :
      Issued s ((if b = true then (s1.finish { s.grp.raiseCount sp.cls s.fresh with late := x }).openGate s1.cur [s.fresh] sp.scope
        else s1.finish { s.grp.raiseCount sp.cls s.fresh with late := x }).sendAll s.fresh op)
        sp.uni h sp.kind sp.size sp.dst sp.ord sp.scope ldc addr data := by
    obtain ⟨l, gt, eg⟩ := grp s1 hc1 x
    cases b with
    | false => exact main _ h1 h2 hc1 ⟨l, gt, eg⟩ (oth s1 hc1 hg1 _) hm hr
    | true =>
      rw [if_pos rfl, hc1]
      obtain ⟨gs, e | e⟩ := State.openGate_only (s1.finish { s.grp.raiseCount sp.cls s.fresh with late := x }) s.cur s.fresh sp.scope
      · rw [e]
        refine main _ h1 h2 hc1 ⟨l, gs, ?_⟩ (fun k hk => ?_) hm hr
        · rw [State.setGroupAt_groupAt, if_pos rfl, eg]
        · rw [State.setGroupAt_groupAt, if_neg hk]
          exact oth s1 hc1 hg1 _ k hk
      · rw [e]
        exact main _ h1 h2 hc1 ⟨l, gt, eg⟩ (oth s1 hc1 hg1 _) hm hr
  by_cases hbuf : bufferedBy sp rs = 0
  · rw [if_pos hbuf]
    refine pre _ ?_ ?_ ?_ ?_ ?_ ?_ _ _
    all_goals first
      | rfl
      | exact hm
      | exact ⟨rfl, rfl, rfl, rfl, rfl⟩
  · rw [if_neg hbuf]
    refine pre _ ?_ ?_ ?_ ?_ ?_ ?_ _ _
    all_goals first
      | rfl
      | exact hm
      | exact ⟨rfl, rfl, rfl, rfl, rfl⟩

/-! ### The whole instruction -/

theorem findSome_of_none {α β : Type} (xs : List α) (f : α → Option β) (h : ∀ x ∈ xs, f x = none) : xs.findSome? f = none := by
  simpa [List.findSome?_eq_none_iff] using h

theorem buffered_length (sp : AccSpec) (rs : List Req) :
    bufferedBy sp rs ≤ 2 * rs.length := by
  unfold bufferedBy
  induction rs with
  | nil => simp
  | cons r rs ih =>
    simp only [List.map_cons, List.sum_cons, List.length_cons]
    have : (if r.fate = .buffer then (if sp.size = 16 then 2 else 1) else 0) ≤ 2 := by split_ifs <;> omega
    omega

/-- The lanes of checked accesses that all succeed. -/
theorem okHits_lanes (ls : List Lane) (a : Lane → Dword) (check : Lane → Except Nat Hit) (h : ∀ l ∈ ls, ∃ x, check l = .ok x) :
    (okHits (ls.map (fun l => (l, a l, check l)))).map (fun x => x.1) = ls := by
  induction ls with
  | nil => rfl
  | cons l ls ih =>
    obtain ⟨x, e⟩ := h l (by simp)
    have := ih (fun y hy => h y (List.mem_cons_of_mem _ hy))
    simp only [okHits, List.map_cons, List.filterMap_cons, e] at this ⊢
    rw [this]

theorem okHits_mem {ls : List Lane} {a : Lane → Dword} {check : Lane → Except Nat Hit} {x : Lane × Hit}
    (h : x ∈ okHits (ls.map (fun l => (l, a l, check l)))) : x.1 ∈ ls ∧ check x.1 = .ok x.2 := by
  unfold okHits at h
  obtain ⟨y, hy, e⟩ := List.mem_filterMap.1 h
  obtain ⟨l, hl, rfl⟩ := List.mem_map.1 hy
  dsimp only at e
  cases hc : check l with
  | error c => rw [hc] at e; cases e
  | ok z =>
    rw [hc] at e
    cases e
    exact ⟨hl, hc⟩

theorem firstFault_ok (ls : List Lane) (a : Lane → Dword) (check : Lane → Except Nat Hit) (h : ∀ l ∈ ls, ∃ x, check l = .ok x) :
    firstFault (ls.map (fun l => (l, a l, check l))) = none := by
  unfold firstFault
  refine findSome_of_none _ _ (fun x hx => ?_)
  obtain ⟨l, hl, rfl⟩ := List.mem_map.1 hx
  obtain ⟨y, e⟩ := h l hl
  dsimp only
  rw [e]

theorem firstFault_at (before after : List Lane) (l : Lane) (a : Lane → Dword) (check : Lane → Except Nat Hit) (h : ∀ l ∈ before, ∃ x, check l = .ok x)
    {c : Nat} (hc : check l = .error c) : firstFault ((before ++ l :: after).map (fun l => (l, a l, check l))) = some (a l, c) := by
  induction before with
  | nil => simp [firstFault, hc]
  | cons b bs ih =>
    obtain ⟨x, e⟩ := h b (by simp)
    have := ih (fun y hy => h y (List.mem_cons_of_mem _ hy))
    simp only [firstFault, List.cons_append, List.map_cons, List.findSome?_cons, e] at this ⊢
    exact this

theorem mem_faultLanes {ls : List Lane} {a : Lane → Dword} {check : Lane → Except Nat Hit} {y : Lane} :
    y ∈ faultLanes (ls.map (fun l => (l, a l, check l))) ↔ y ∈ ls ∧ ∃ e, check y = .error e := by
  unfold faultLanes
  rw [List.mem_filterMap]
  constructor
  · rintro ⟨x, hx, e⟩
    obtain ⟨l, hl, rfl⟩ := List.mem_map.1 hx
    dsimp only at e
    cases hc : check l with
    | ok z => rw [hc] at e; cases e
    | error c =>
      rw [hc] at e
      cases e
      exact ⟨hl, c, hc⟩
  · rintro ⟨hy, e, he⟩
    refine ⟨_, List.mem_map.2 ⟨y, hy, rfl⟩, ?_⟩
    dsimp only
    rw [he]

/-- What walks have read is to enter the caches, and nothing else differs. -/
theorem State.fillWalks_only (s t : State) (g : Group) (as : List Nat) :
    ∃ fills, s.fillWalks t g as = { t with agenda := t.agenda ++ fills } ∧ ∀ e ∈ fills, ∃ o c l k, e.ev = Instr.prefetchFill o c l k := by
  unfold State.fillWalks
  induction as generalizing t with
  | nil => exact ⟨[], by rw [List.append_nil]; rfl, fun _ h => by cases h⟩
  | cons a as ih =>
    obtain ⟨fs, e, h⟩ := ih (t.schedule (.owner g.owner (s.groupIsland g)) (s.win + s.memHorizon g.owner g.core a) (.prefetchFill g.owner g.core (a / 128) 3#2))
    refine ⟨⟨.owner g.owner (s.groupIsland g), s.win + s.memHorizon g.owner g.core a, .prefetchFill g.owner g.core (a / 128) 3#2⟩ :: fs, ?_, fun x hx => ?_⟩
    · rw [List.foldl_cons, e]
      simp [State.schedule]
    · rcases List.mem_cons.1 hx with rfl | hx
      · exact ⟨_, _, _, _, rfl⟩
      · exact h x hx

/-- A meaning that is an access does what an access does. -/
theorem State.access_accesses (i : Instr) (s : State) (h : Guard) (sp : AccSpec) (ldc : Bool) (addr : Lane → Dword × Bool) (d1 d2 : Lane → List Byte)
    (hi : exec i s = .next (s.access h sp ldc addr d1 d2)) (hc : sp.cls = sp.kind.cls) :
    Accesses i s sp.uni h sp.kind sp.size sp.dst sp.ord sp.scope ldc addr (fun l => (d1 l, d2 l)) := by
  refine ⟨fun hl hu => ?_, fun hl hu ho => ?_, fun hl hok hroom => ?_, fun before l after c hsplit hb hcl => ?_⟩
  · unfold Passes
    rw [hi]
    unfold State.access
    dsimp only
    rw [if_pos (by rw [hl]; rfl), if_pos (by rcases hu with h | h <;> simp [h])]
    rfl
  · rw [hi]
    unfold State.access
    dsimp only
    rw [if_pos (by rw [hl]; rfl), if_neg (by simp [hu, ho])]
    rfl
  · refine ⟨_, hi, ?_⟩
    unfold State.access
    dsimp only
    rw [if_neg (by simpa using hl)]
    have hall : ∀ l ∈ s.grp.lanes sp.uni h, ∃ x, s.checkAccess s.grp (addr l).1 (addr l).2 sp.size sp.kind.want ldc = .ok x :=
      fun l hm => (hok l hm).imp (fun _ hx => hx.1)
    rw [firstFault_ok _ (fun l => (addr l).1) _ hall]
    dsimp only
    generalize hrs : (okHits ((s.grp.lanes sp.uni h).map (fun l =>
      (l, (addr l).1, s.checkAccess s.grp (addr l).1 (addr l).2 sp.size sp.kind.want ldc)))).map
        (fun x => (⟨x.1, x.2, s.fateOf s.grp sp.kind x.2, d1 x.1, d2 x.1⟩ : Req)) = rs
    have hlane : rs.map (fun r => r.lane) = s.grp.lanes sp.uni h := by
      rw [← hrs, List.map_map]
      exact okHits_lanes _ (fun l => (addr l).1) _ hall
    have hmem : ∀ r ∈ rs, r.lane ∈ s.grp.lanes sp.uni h ∧
        s.checkAccess s.grp (addr r.lane).1 (addr r.lane).2 sp.size sp.kind.want ldc = .ok r.hit ∧ r.fate = s.fateOf s.grp sp.kind r.hit ∧
        (r.data, r.data2) = (d1 r.lane, d2 r.lane) := by
      intro r hr
      rw [← hrs] at hr
      obtain ⟨x, hx, rfl⟩ := List.mem_map.1 hr
      have := okHits_mem (a := fun l => (addr l).1) hx
      exact ⟨this.1, this.2, rfl, rfl⟩
    rw [if_neg, findSome_of_none, ]
    · dsimp only
      rw [if_neg]
      · exact State.issueOp_issued s h sp ldc addr _ rs hc hlane (fun r hr => ⟨(hmem r hr).2.1, (hmem r hr).2.2.2⟩)
      · have h1 := buffered_length sp rs
        have h2 : rs.length = (s.grp.lanes sp.uni h).length := by rw [← hlane, List.length_map]
        omega
    · intro r hr
      obtain ⟨h1, h2, h3, -⟩ := hmem r hr
      obtain ⟨hit, e, -, hn⟩ := hok r.lane h1
      have eh : hit = r.hit := Except.ok.inj (e.symm.trans h2)
      subst eh
      cases hfa : r.fate with
      | stop n => exact absurd (h3.symm.trans hfa) (hn n)
      | go => rfl
      | buffer => rfl
      | wait => rfl
    · have : rs.filter (fun r => s.tileHeldAt r.hit sp.size) = [] := List.filter_eq_nil_iff.2 (fun r hr ht => by
        obtain ⟨h1, h2, -, -⟩ := hmem r hr
        obtain ⟨hit, e, hh, -⟩ := hok r.lane h1
        have eh : hit = r.hit := Except.ok.inj (e.symm.trans h2)
        subst eh
        rw [hh] at ht
        cases ht)
      rw [this]
      exact Bool.false_ne_true
  · obtain ⟨fills, ef, hf⟩ := s.fillWalks_only (s.trap (memTrap (laneMask s.grp (faultLanes ((s.grp.lanes sp.uni h).map (fun l =>
      (l, (addr l).1, s.checkAccess s.grp (addr l).1 (addr l).2 sp.size sp.kind.want ldc))))) sp.kind.code c (addr l).1)) s.grp
      (s.walksOf s.grp (((s.grp.lanes sp.uni h).map (fun l => (l, (addr l).1, s.checkAccess s.grp (addr l).1 (addr l).2 sp.size sp.kind.want ldc))).map
        (fun x => x.2.1)) sp.size sp.kind.want)
    refine ⟨faultLanes ((s.grp.lanes sp.uni h).map (fun l =>
      (l, (addr l).1, s.checkAccess s.grp (addr l).1 (addr l).2 sp.size sp.kind.want ldc))), fills, ?_, hf, fun y => mem_faultLanes (a := fun l => (addr l).1)⟩
    dsimp only
    rw [← ef, hi]
    unfold State.access
    dsimp only
    rw [if_neg (by rw [hsplit]; simp)]
    have := firstFault_at before after l (fun l => (addr l).1)
      (fun l => s.checkAccess s.grp (addr l).1 (addr l).2 sp.size sp.kind.want ldc) hb hcl
    rw [← hsplit] at this
    rw [this]

/-! ### Completing an access -/

/-- All that waking what waits for an operation can do. -/
structure Wakes (s t : State) : Prop where
  rest : t = { s with ops := t.ops, agenda := t.agenda, groups := t.groups, wgs := t.wgs, engs := t.engs, waits := t.waits, nets := t.nets }
  grp : ∀ k, ∃ x y f, t.groupAt k = { s.groupAt k with seen := x, heard := y, fences := f }

theorem Wakes.refl (s : State) : Wakes s s := ⟨rfl, fun _ => ⟨_, _, _, rfl⟩⟩

theorem Wakes.trans {r s t : State} (h : Wakes r s) (k : Wakes s t) : Wakes r t := by
  refine ⟨?_, fun j => ?_⟩
  · rw [k.rest, h.rest]
  · obtain ⟨x, y, f, e⟩ := h.grp j
    obtain ⟨x', y', f', e'⟩ := k.grp j
    exact ⟨x', y', f', by rw [e', e]⟩

theorem Sends.wakes {gid : Nat} {s t : State} (h : Sends gid s t) : Wakes s t := by
  refine ⟨?_, fun k => ?_⟩
  · rw [h.rest]
  · by_cases hk : k = gid
    · rw [hk]
      obtain ⟨x, y, e⟩ := h.grp
      exact ⟨x, y, _, e⟩
    · exact ⟨_, _, _, h.others k hk⟩

theorem Wakes.fold {α : Type} (xs : List α) (f : State → α → State) (hf : ∀ s x, Wakes s (f s x)) (s : State) : Wakes s (xs.foldl f s) := by
  induction xs generalizing s with
  | nil => exact Wakes.refl _
  | cons x xs ih => exact (hf s x).trans (ih _)

theorem State.passOn_wakes (s : State) (k : Nat) (xs : List Nat) : Wakes s (s.passOn k xs) := by
  unfold State.passOn
  split
  · exact Wakes.refl _
  · refine ⟨rfl, fun j => ?_⟩
    rcases mapGet_mapAll (fun g : Group => { g with
        seen := idsMore k xs g.seen, heard := idsMore k xs g.heard, fences := g.fences.map (fun f => { f with ops := idsMore k xs f.ops }) }) {} s.groups j with e | e
    · exact ⟨_, _, _, e⟩
    · exact ⟨_, _, _, e⟩

theorem State.learn_wakes (s : State) (k : Nat) (op : MemOp) (a : Acc) (from_ : List Nat) (held : Bool) : Wakes s (s.learn k op a from_ held) := by
  cases held with
  | false => exact (State.learn_sends s k op a from_ op.gid rfl).wakes
  | true => exact (State.learn_sends s k op a from_ op.gid rfl).wakes.trans (State.passOn_wakes _ _ _)

theorem Wakes.of_ops (s : State) (xs : FMap MemOp) : Wakes s { s with ops := xs } := ⟨rfl, fun _ => ⟨_, _, _, rfl⟩⟩

theorem Wakes.of_agenda (s : State) (c : Clk) (n : Nat) (ev : Instr) : Wakes s (s.schedule c n ev) := ⟨rfl, fun _ => ⟨_, _, _, rfl⟩⟩

theorem State.capture_wakes (s : State) (k t now : Nat) (held : Bool) : Wakes s (s.capture k t now held) := by
  unfold State.capture
  split
  · exact Wakes.refl _
  · split
    · exact (Wakes.of_ops s _).trans (State.learn_wakes _ _ _ _ _ _)
    · exact Wakes.refl _

theorem State.sendAcc_wakes (s : State) (k t c : Nat) (held : Bool) : Wakes s (s.sendAcc k t c held) := by
  unfold State.sendAcc
  split
  · exact Wakes.refl _
  · split
    · exact Wakes.refl _
    · next op _ _ a _ =>
      have h1 := Wakes.of_ops s (mapPut s.ops k (setAcc op t (fun b => { b with sent := some c, vis := visibleAt op.w a.hor c (if c = op.w then a.extra else 0) })))
      refine ((h1.trans ?_).trans ((Wakes.of_agenda _ _ _ _).trans (State.nudge_sends _ _ op.gid).wakes)).trans (State.wakeHeld_sends _ _ op.gid).wakes
      by_cases hd : a.settled = true
      · rw [if_pos hd]
        exact Wakes.refl _
      · rw [if_neg hd]
        by_cases hb : a.buffered = true
        · rw [if_pos hb]
          exact (State.enterBuffer_sends _ _ _ _ op.gid).wakes
        · rw [if_neg hb]
          exact State.capture_wakes _ _ _ _ _

theorem State.trySend_wakes (s : State) (k t now : Nat) (held : Bool) : Wakes s (s.trySend k t now held) := by
  unfold State.trySend
  split
  · exact Wakes.refl _
  · split
    · exact Wakes.refl _
    · split
      · exact Wakes.refl _
      · split
        · exact Wakes.refl _
        · split
          · exact State.sendAcc_wakes _ _ _ _ _
          · exact Wakes.of_agenda _ _ _ _

theorem State.wakeIf_wakes (s : State) (f : Await → Bool) : Wakes s (s.wakeIf f) := by
  unfold State.wakeIf
  dsimp only
  refine (Wakes.fold _ _ (fun s p => Wakes.fold _ _ (fun s a => ?_) _) _).trans (State.wakeHeld_sends _ f 0).wakes
  split
  · exact Wakes.refl _
  · split
    · exact Wakes.of_agenda _ _ _ _
    all_goals exact State.trySend_wakes _ _ _ _ _

/-- An operation that has returned lowers its counter, in order, and changes no register. -/
theorem State.opReturned_only (s : State) (k : Nat) (op : MemOp) :
    ∃ os l1 gt lt, s.opReturned k op = { s.setGroupAt op.gid { (s.groupAt op.gid).returned k with gate := gt, late := lt } with ops := os, l1 := l1 } := by
  unfold State.opReturned
  dsimp only
  split
  · exact ⟨_, _, _, _, rfl⟩
  · exact ⟨_, _, _, _, rfl⟩

theorem Group.returned_only (g : Group) (k : Nat) : g.returned k = { g with outs := (g.returned k).outs } := by
  unfold Group.returned
  split <;> rfl

/-- What an access that is done changes: its operation, what waited for it and, with the last access of the operation, the counter. -/
theorem State.accDone_spec (s : State) (k t : Nat) :
    (∃ l1 ops groups agenda wgs engs waits nets, s.accDone k t =
      { s with l1 := l1, ops := ops, groups := groups, agenda := agenda, wgs := wgs, engs := engs, waits := waits, nets := nets }) ∧
    (∀ j, ∃ os gt lt x y f, (s.accDone k t).groupAt j = { s.groupAt j with outs := os, gate := gt, late := lt, seen := x, heard := y, fences := f }) ∧
    (∀ op, mapFind s.ops k = some op → op.accs.all (fun b => b.done || decide (b.thread = t)) = true →
      ((s.accDone k t).groupAt op.gid).outs = ((s.groupAt op.gid).returned k).outs) := by
  unfold State.accDone
  cases h : mapFind s.ops k with
  | none => exact ⟨⟨_, _, _, _, _, _, _, _, rfl⟩, fun j => ⟨_, _, _, _, _, _, rfl⟩, fun op ho => by cases ho⟩
  | some op =>
    dsimp only
    generalize hs1 : (if (setAcc op t (fun a => { a with done := true })).done = true
      then State.opReturned { s with ops := mapPut s.ops k (setAcc op t (fun a => { a with done := true })) } k (setAcc op t (fun a => { a with done := true }))
      else { s with ops := mapPut s.ops k (setAcc op t (fun a => { a with done := true })) }) = s1
    have hw := State.wakeIf_wakes s1 (fun x => x.names k)
    have hgid : (setAcc op t (fun a => { a with done := true })).gid = op.gid := rfl
    have h1 : (∃ l1 ops groups, s1 = { s with l1 := l1, ops := ops, groups := groups }) ∧
        (∀ j, ∃ os gt lt, s1.groupAt j = { s.groupAt j with outs := os, gate := gt, late := lt }) ∧
        ((setAcc op t (fun a => { a with done := true })).done = true → (s1.groupAt op.gid).outs = ((s.groupAt op.gid).returned k).outs) := by
      rw [← hs1]
      split
      · obtain ⟨os, l1, gt, lt, e⟩ := State.opReturned_only { s with ops := mapPut s.ops k (setAcc op t (fun a => { a with done := true })) } k
          (setAcc op t (fun a => { a with done := true }))
        rw [e]
        refine ⟨⟨_, _, _, rfl⟩, fun j => ?_, fun _ => ?_⟩
        · show ∃ os gt lt, (State.setGroupAt _ op.gid _).groupAt j = _
          rw [State.setGroupAt_groupAt]
          split
          · next hj =>
            subst hj
            refine ⟨((s.groupAt op.gid).returned k).outs, gt, lt, ?_⟩
            show { (s.groupAt op.gid).returned k with gate := gt, late := lt } = _
            rw [Group.returned_only]
          · exact ⟨_, _, _, rfl⟩
        · show ((State.setGroupAt _ op.gid _).groupAt op.gid).outs = _
          rw [State.setGroupAt_groupAt, if_pos rfl]
          rfl
      · next hd => exact ⟨⟨_, _, _, rfl⟩, fun j => ⟨_, _, _, rfl⟩, fun h => absurd h hd⟩
    obtain ⟨⟨l1, ops, groups, e1⟩, h2, h3⟩ := h1
    generalize hs2 : s1.wakeIf (fun x => x.names k) = s2 at hw
    have ed : s1.wake k = s2 := hs2
    refine ⟨⟨l1, s2.ops, s2.groups, s2.agenda, s2.wgs, s2.engs, s2.waits, s2.nets, ?_⟩, fun j => ?_, fun op' ho' hall => ?_⟩
    · rw [ed, hw.rest, e1]
    · obtain ⟨x, y, f, e⟩ := hw.grp j
      obtain ⟨os, gt, lt, e'⟩ := h2 j
      exact ⟨os, gt, lt, x, y, f, by rw [ed, e, e']⟩
    · cases ho'
      obtain ⟨x, y, f, e⟩ := hw.grp op.gid
      rw [ed, e]
      refine h3 ?_
      unfold MemOp.done setAcc
      rw [List.all_map, List.all_eq_true]
      rw [List.all_eq_true] at hall
      intro a ha
      have := hall a ha
      dsimp only [Function.comp]
      by_cases ht : a.thread = t
      · rw [if_pos ht]
      · rw [if_neg ht]
        simpa [ht] using this

end Sys2Proof.Machine
end

