-- ==== Sys2Proof/Laws/KeptOps.lean ====
section
/-! SUPPORT. The operations of Machine/Ops.lean keep what `State.keeps` says. -/

namespace Sys2Proof.Machine

variable {bx : Option (List BoxRec)}

theorem State.setGrp_kept {s : State} (hs : s.keeps bx) (g : Group) :
    (State.setGrp s g).keeps bx := by
  unfold State.setGrp
  repeat first | with_reducible assumption | dsimp only

theorem State.setGroupAt_kept {s : State} (hs : s.keeps bx) (k : Nat) (g : Group) :
    (State.setGroupAt s k g).keeps bx := by
  unfold State.setGroupAt
  repeat first | with_reducible assumption | dsimp only

theorem State.setOwner_kept {s : State} (hs : s.keeps bx) (o : Nat) (x : Owner) :
    (State.setOwner s o x).keeps bx := by
  unfold State.setOwner
  repeat first | with_reducible assumption | dsimp only

theorem State.setWg_kept {s : State} (hs : s.keeps bx) (k : Nat) (x : Workgroup) :
    (State.setWg s k x).keeps bx := by
  unfold State.setWg
  repeat first | with_reducible assumption | dsimp only

theorem State.setLaunch_kept {s : State} (hs : s.keeps bx) (k : Nat) (x : Launch) :
    (State.setLaunch s k x).keeps bx := by
  unfold State.setLaunch
  repeat first | with_reducible assumption | dsimp only

theorem State.setIsland_kept {s : State} (hs : s.keeps bx) (k : Nat) (x : Island) :
    (State.setIsland s k x).keeps bx := by
  unfold State.setIsland
  repeat first | with_reducible assumption | dsimp only

theorem State.modOwner_kept {s : State} (hs : s.keeps bx) (o : Nat) (f : Owner → Owner) :
    (State.modOwner s o f).keeps bx := by
  unfold State.modOwner
  repeat first | with_reducible assumption | with_reducible apply State.setOwner_kept | dsimp only

theorem State.modWg_kept {s : State} (hs : s.keeps bx) (k : Nat) (f : Workgroup → Workgroup) :
    (State.modWg s k f).keeps bx := by
  unfold State.modWg
  repeat first | with_reducible assumption | with_reducible apply State.setWg_kept | dsimp only

theorem State.modGroup_kept {s : State} (hs : s.keeps bx) (k : Nat) (f : Group → Group) :
    (State.modGroup s k f).keeps bx := by
  unfold State.modGroup
  repeat first | with_reducible assumption | with_reducible apply State.setGroupAt_kept | dsimp only

theorem State.modLaunch_kept {s : State} (hs : s.keeps bx) (k : Nat) (f : Launch → Launch) :
    (State.modLaunch s k f).keeps bx := by
  unfold State.modLaunch
  repeat first | with_reducible assumption | with_reducible apply State.setLaunch_kept | dsimp only

theorem State.tickOpen_kept {s : State} (hs : s.keeps bx) :
    (State.tickOpen s).keeps bx := by
  unfold State.tickOpen
  repeat first | with_reducible assumption | dsimp only

theorem State.bumpOpen_kept {s : State} (hs : s.keeps bx) (o x n : Nat) :
    (State.bumpOpen s o x n).keeps bx := by
  unfold State.bumpOpen
  repeat first | with_reducible assumption | dsimp only

theorem State.schedule_kept {s : State} (hs : s.keeps bx) (clk : Clk) (due : Nat) (ev : Instr) :
    (State.schedule s clk due ev).keeps bx := by
  unfold State.schedule
  repeat first | with_reducible assumption | dsimp only

theorem State.soon_kept {s : State} (hs : s.keeps bx) (ev : Instr) :
    (State.soon s ev).keeps bx := by
  unfold State.soon
  repeat first | with_reducible assumption | with_reducible apply State.schedule_kept | dsimp only

theorem State.finish_kept {s : State} (hs : s.keeps bx) (g : Group) :
    (State.finish s g).keeps bx := by
  unfold State.finish
  repeat first | with_reducible assumption | with_reducible apply State.setGrp_kept | dsimp only



theorem State.post_kept {s : State} (hs : s.keeps bx) (o kind source : Nat) (tag status : Word) (data : List Byte) (secured : Bool) :
    (State.post s o kind source tag status data secured).keeps bx := by
  unfold State.post
  repeat first
    | with_reducible assumption | with_reducible apply State.setOwner_kept | with_reducible apply State.boxPut_kept
    | with_reducible apply State.soon_kept | dsimp only

theorem State.mergeHist_kept {s : State} (hs : s.keeps bx) (gid : Nat) (set : BitVec 32) :
    (State.mergeHist s gid set).keeps bx := by
  unfold State.mergeHist
  repeat first | with_reducible assumption | intro _ | with_reducible apply State.modGroup_kept | dsimp only | split

theorem State.groupGone_kept {s : State} (hs : s.keeps bx) (gid : Nat) :
    (State.groupGone s gid).keeps bx := by
  unfold State.groupGone
  repeat first
    | with_reducible assumption | with_reducible apply State.setGroupAt_kept | with_reducible apply State.setWg_kept
    | with_reducible apply State.soon_kept | dsimp only | split

theorem State.endGroup_kept {s : State} (hs : s.keeps bx) (gid : Nat) :
    (State.endGroup s gid).keeps bx := by
  unfold State.endGroup
  repeat first | with_reducible assumption | with_reducible apply State.setGroupAt_kept | with_reducible apply State.groupGone_kept | dsimp only

theorem State.doubleFault_kept {s : State} (hs : s.keeps bx) (t : Trap) :
    (State.doubleFault s t).keeps bx := by
  unfold State.doubleFault
  repeat first
    | with_reducible assumption | intro _ | with_reducible apply State.endGroup_kept | with_reducible apply State.post_kept
    | with_reducible apply State.freezeBox_kept | with_reducible apply getD_kept | dsimp only | split

theorem State.trapAtPc_kept {s : State} (hs : s.keeps bx) (t : Trap) (pc : PcWord) :
    (State.trapAtPc s t pc).keeps bx := by
  unfold State.trapAtPc
  repeat first
    | with_reducible assumption | with_reducible apply State.doubleFault_kept | with_reducible apply State.mergeHist_kept
    | with_reducible apply State.setGrp_kept | with_reducible apply State.freezeBox_kept | dsimp only | split

theorem State.trapGroup_kept {s : State} (hs : s.keeps bx) (gid : Nat) (t : Trap) :
    (State.trapGroup s gid t).keeps bx := by
  unfold State.trapGroup
  repeat first
    | with_reducible assumption | intro _ | with_reducible apply State.modGroup_kept | with_reducible apply State.trapAtPc_kept | dsimp only

theorem State.trap_kept {s : State} (hs : s.keeps bx) (t : Trap) :
    (State.trap s t).keeps bx := by
  unfold State.trap
  repeat first | with_reducible assumption | with_reducible apply State.trapAtPc_kept | dsimp only

theorem State.select_kept {s : State} (hs : s.keeps bx) :
    (State.select s).keeps bx := by
  unfold State.select
  repeat first
    | with_reducible assumption | intro _ | with_reducible apply State.setGrp_kept | with_reducible apply State.trapAtPc_kept | dsimp only
    | split

theorem State.endWorkgroup_kept {s : State} (hs : s.keeps bx) (k : Nat) :
    (State.endWorkgroup s k).keeps bx := by
  unfold State.endWorkgroup
  repeat first
    | with_reducible assumption | intro _ | with_reducible apply State.modWg_kept | with_reducible apply State.modLaunch_kept
    | with_reducible apply State.endGroup_kept | with_reducible apply foldl_kept | dsimp only

theorem State.returnFromTrap_kept {s : State} (hs : s.keeps bx) :
    (State.returnFromTrap s).keeps bx := by
  unfold State.returnFromTrap
  repeat first
    | with_reducible assumption | with_reducible apply State.doubleFault_kept | with_reducible apply State.endWorkgroup_kept
    | with_reducible apply State.mergeHist_kept | with_reducible apply State.setGrp_kept | with_reducible apply State.select_kept | dsimp only
    | split

end Sys2Proof.Machine
end

