-- ==== Sys2Proof/Laws/KeptInteger.lean ====
section
/-! SUPPORT. The operations of Machine/Integer.lean keep what `State.keeps` says. -/

namespace Sys2Proof.Machine

variable {bx : Option (List BoxRec)}

theorem State.alu_kept {s : State} (hs : s.keeps bx) (u : Bool) (h : Guard) (d : Reg) (lat : Nat) (f : Lane → Word) :
    (State.alu s u h d lat f).keeps bx := by
  unfold State.alu
  repeat first | with_reducible assumption | with_reducible apply State.finish_kept | dsimp only

theorem State.alu64_kept {s : State} (hs : s.keeps bx) (u : Bool) (h : Guard) (d : Reg) (lat : Nat) (f : Lane → Dword) :
    (State.alu64 s u h d lat f).keeps bx := by
  unfold State.alu64
  repeat first | with_reducible assumption | with_reducible apply State.finish_kept | dsimp only

theorem State.aluF_kept {s : State} (hs : s.keeps bx) (u : Bool) (h : Guard) (d : Reg) (lat : Nat) (f : Lane → IRes 32) :
    (State.aluF s u h d lat f).keeps bx := by
  unfold State.aluF
  repeat first | with_reducible assumption | intro _ | with_reducible apply State.finish_kept | dsimp only

theorem State.alu64F_kept {s : State} (hs : s.keeps bx) (u : Bool) (h : Guard) (d : Reg) (lat : Nat) (f : Lane → IRes 64) :
    (State.alu64F s u h d lat f).keeps bx := by
  unfold State.alu64F
  repeat first | with_reducible assumption | intro _ | with_reducible apply State.finish_kept | dsimp only

theorem State.setPreds_kept {s : State} (hs : s.keeps bx) (u : Bool) (h : Guard) (p : BitVec 3) (lat : Nat) (f : Lane → Bool) :
    (State.setPreds s u h p lat f).keeps bx := by
  unfold State.setPreds
  repeat first | with_reducible assumption | with_reducible apply State.finish_kept | dsimp only

theorem execAdd_kept {s : State} (hs : s.keeps bx) (u : Bool) (h : Guard) (d a : Reg) (b : BSel) :
    Ends (execAdd u h d a b s) (State.keeps bx) := by
  unfold execAdd
  repeat first | with_reducible assumption | intro _ | with_reducible apply ends_next | with_reducible apply State.aluF_kept | dsimp only

theorem execSub_kept {s : State} (hs : s.keeps bx) (u : Bool) (h : Guard) (d a : Reg) (b : BSel) :
    Ends (execSub u h d a b s) (State.keeps bx) := by
  unfold execSub
  repeat first | with_reducible assumption | intro _ | with_reducible apply ends_next | with_reducible apply State.aluF_kept | dsimp only

theorem execMul_kept {s : State} (hs : s.keeps bx) (u : Bool) (h : Guard) (d a : Reg) (b : BSel) :
    Ends (execMul u h d a b s) (State.keeps bx) := by
  unfold execMul
  repeat first | with_reducible assumption | intro _ | with_reducible apply ends_next | with_reducible apply State.aluF_kept | dsimp only

theorem execMulhI32_kept {s : State} (hs : s.keeps bx) (u : Bool) (h : Guard) (d a : Reg) (b : BSel) :
    Ends (execMulhI32 u h d a b s) (State.keeps bx) := by
  unfold execMulhI32
  repeat first | with_reducible assumption | intro _ | with_reducible apply ends_next | with_reducible apply State.alu_kept | dsimp only

theorem execMulhN32_kept {s : State} (hs : s.keeps bx) (u : Bool) (h : Guard) (d a : Reg) (b : BSel) :
    Ends (execMulhN32 u h d a b s) (State.keeps bx) := by
  unfold execMulhN32
  repeat first | with_reducible assumption | intro _ | with_reducible apply ends_next | with_reducible apply State.alu_kept | dsimp only

theorem execMad_kept {s : State} (hs : s.keeps bx) (u : Bool) (h : Guard) (d a : Reg) (b : BSel) :
    Ends (execMad u h d a b s) (State.keeps bx) := by
  unfold execMad
  repeat first | with_reducible assumption | intro _ | with_reducible apply ends_next | with_reducible apply State.aluF_kept | dsimp only

theorem execAddx_kept {s : State} (hs : s.keeps bx) (u : Bool) (h : Guard) (d a : Reg) (b : BSel) :
    Ends (execAddx u h d a b s) (State.keeps bx) := by
  unfold execAddx
  repeat first | with_reducible assumption | intro _ | with_reducible apply ends_next | with_reducible apply State.alu64F_kept | dsimp only

theorem execSubx_kept {s : State} (hs : s.keeps bx) (u : Bool) (h : Guard) (d a : Reg) (b : BSel) :
    Ends (execSubx u h d a b s) (State.keeps bx) := by
  unfold execSubx
  repeat first | with_reducible assumption | intro _ | with_reducible apply ends_next | with_reducible apply State.alu64F_kept | dsimp only

theorem execMinI32_kept {s : State} (hs : s.keeps bx) (u : Bool) (h : Guard) (d a : Reg) (b : BSel) :
    Ends (execMinI32 u h d a b s) (State.keeps bx) := by
  unfold execMinI32
  repeat first | with_reducible assumption | intro _ | with_reducible apply ends_next | with_reducible apply State.alu_kept | dsimp only

theorem execMaxI32_kept {s : State} (hs : s.keeps bx) (u : Bool) (h : Guard) (d a : Reg) (b : BSel) :
    Ends (execMaxI32 u h d a b s) (State.keeps bx) := by
  unfold execMaxI32
  repeat first | with_reducible assumption | intro _ | with_reducible apply ends_next | with_reducible apply State.alu_kept | dsimp only

theorem execMinN32_kept {s : State} (hs : s.keeps bx) (u : Bool) (h : Guard) (d a : Reg) (b : BSel) :
    Ends (execMinN32 u h d a b s) (State.keeps bx) := by
  unfold execMinN32
  repeat first | with_reducible assumption | intro _ | with_reducible apply ends_next | with_reducible apply State.alu_kept | dsimp only

theorem execMaxN32_kept {s : State} (hs : s.keeps bx) (u : Bool) (h : Guard) (d a : Reg) (b : BSel) :
    Ends (execMaxN32 u h d a b s) (State.keeps bx) := by
  unfold execMaxN32
  repeat first | with_reducible assumption | intro _ | with_reducible apply ends_next | with_reducible apply State.alu_kept | dsimp only

theorem execAndB_kept {s : State} (hs : s.keeps bx) (u : Bool) (h : Guard) (d a : Reg) (b : BSel) :
    Ends (execAndB u h d a b s) (State.keeps bx) := by
  unfold execAndB
  repeat first | with_reducible assumption | intro _ | with_reducible apply ends_next | with_reducible apply State.alu_kept | dsimp only

theorem execOrB_kept {s : State} (hs : s.keeps bx) (u : Bool) (h : Guard) (d a : Reg) (b : BSel) :
    Ends (execOrB u h d a b s) (State.keeps bx) := by
  unfold execOrB
  repeat first | with_reducible assumption | intro _ | with_reducible apply ends_next | with_reducible apply State.alu_kept | dsimp only

theorem execXorB_kept {s : State} (hs : s.keeps bx) (u : Bool) (h : Guard) (d a : Reg) (b : BSel) :
    Ends (execXorB u h d a b s) (State.keeps bx) := by
  unfold execXorB
  repeat first | with_reducible assumption | intro _ | with_reducible apply ends_next | with_reducible apply State.alu_kept | dsimp only

theorem execAndnB_kept {s : State} (hs : s.keeps bx) (u : Bool) (h : Guard) (d a : Reg) (b : BSel) :
    Ends (execAndnB u h d a b s) (State.keeps bx) := by
  unfold execAndnB
  repeat first | with_reducible assumption | intro _ | with_reducible apply ends_next | with_reducible apply State.alu_kept | dsimp only

theorem execShl_kept {s : State} (hs : s.keeps bx) (u : Bool) (h : Guard) (d a : Reg) (b : BSel) :
    Ends (execShl u h d a b s) (State.keeps bx) := by
  unfold execShl
  repeat first | with_reducible assumption | intro _ | with_reducible apply ends_next | with_reducible apply State.alu_kept | dsimp only

theorem execShr_kept {s : State} (hs : s.keeps bx) (u : Bool) (h : Guard) (d a : Reg) (b : BSel) :
    Ends (execShr u h d a b s) (State.keeps bx) := by
  unfold execShr
  repeat first | with_reducible assumption | intro _ | with_reducible apply ends_next | with_reducible apply State.alu_kept | dsimp only

theorem execSar_kept {s : State} (hs : s.keeps bx) (u : Bool) (h : Guard) (d a : Reg) (b : BSel) :
    Ends (execSar u h d a b s) (State.keeps bx) := by
  unfold execSar
  repeat first | with_reducible assumption | intro _ | with_reducible apply ends_next | with_reducible apply State.alu_kept | dsimp only

theorem execRotl_kept {s : State} (hs : s.keeps bx) (u : Bool) (h : Guard) (d a : Reg) (b : BSel) :
    Ends (execRotl u h d a b s) (State.keeps bx) := by
  unfold execRotl
  repeat first | with_reducible assumption | intro _ | with_reducible apply ends_next | with_reducible apply State.alu_kept | dsimp only

theorem execNegI_kept {s : State} (hs : s.keeps bx) (u : Bool) (h : Guard) (d a : Reg) :
    Ends (execNegI u h d a s) (State.keeps bx) := by
  unfold execNegI
  repeat first | with_reducible assumption | intro _ | with_reducible apply ends_next | with_reducible apply State.alu_kept | dsimp only

theorem execAbsI_kept {s : State} (hs : s.keeps bx) (u : Bool) (h : Guard) (d a : Reg) :
    Ends (execAbsI u h d a s) (State.keeps bx) := by
  unfold execAbsI
  repeat first | with_reducible assumption | intro _ | with_reducible apply ends_next | with_reducible apply State.alu_kept | dsimp only

theorem execNotB_kept {s : State} (hs : s.keeps bx) (u : Bool) (h : Guard) (d a : Reg) :
    Ends (execNotB u h d a s) (State.keeps bx) := by
  unfold execNotB
  repeat first | with_reducible assumption | intro _ | with_reducible apply ends_next | with_reducible apply State.alu_kept | dsimp only

theorem execClz_kept {s : State} (hs : s.keeps bx) (u : Bool) (h : Guard) (d a : Reg) :
    Ends (execClz u h d a s) (State.keeps bx) := by
  unfold execClz
  repeat first | with_reducible assumption | intro _ | with_reducible apply ends_next | with_reducible apply State.alu_kept | dsimp only

theorem execPopc_kept {s : State} (hs : s.keeps bx) (u : Bool) (h : Guard) (d a : Reg) :
    Ends (execPopc u h d a s) (State.keeps bx) := by
  unfold execPopc
  repeat first | with_reducible assumption | intro _ | with_reducible apply ends_next | with_reducible apply State.alu_kept | dsimp only

theorem execBrev_kept {s : State} (hs : s.keeps bx) (u : Bool) (h : Guard) (d a : Reg) :
    Ends (execBrev u h d a s) (State.keeps bx) := by
  unfold execBrev
  repeat first | with_reducible assumption | intro _ | with_reducible apply ends_next | with_reducible apply State.alu_kept | dsimp only

theorem execMov_kept {s : State} (hs : s.keeps bx) (u : Bool) (h : Guard) (d a : Reg) :
    Ends (execMov u h d a s) (State.keeps bx) := by
  unfold execMov
  repeat first | with_reducible assumption | intro _ | with_reducible apply ends_next | with_reducible apply State.alu_kept | dsimp only

theorem execSxtI8_kept {s : State} (hs : s.keeps bx) (u : Bool) (h : Guard) (d a : Reg) :
    Ends (execSxtI8 u h d a s) (State.keeps bx) := by
  unfold execSxtI8
  repeat first | with_reducible assumption | intro _ | with_reducible apply ends_next | with_reducible apply State.alu_kept | dsimp only

theorem execSxtI16_kept {s : State} (hs : s.keeps bx) (u : Bool) (h : Guard) (d a : Reg) :
    Ends (execSxtI16 u h d a s) (State.keeps bx) := by
  unfold execSxtI16
  repeat first | with_reducible assumption | intro _ | with_reducible apply ends_next | with_reducible apply State.alu_kept | dsimp only

theorem execSxtI32_kept {s : State} (hs : s.keeps bx) (u : Bool) (h : Guard) (d a : Reg) :
    Ends (execSxtI32 u h d a s) (State.keeps bx) := by
  unfold execSxtI32
  repeat first | with_reducible assumption | intro _ | with_reducible apply ends_next | with_reducible apply State.alu64_kept | dsimp only

theorem execZxtN8_kept {s : State} (hs : s.keeps bx) (u : Bool) (h : Guard) (d a : Reg) :
    Ends (execZxtN8 u h d a s) (State.keeps bx) := by
  unfold execZxtN8
  repeat first | with_reducible assumption | intro _ | with_reducible apply ends_next | with_reducible apply State.alu_kept | dsimp only

theorem execZxtN16_kept {s : State} (hs : s.keeps bx) (u : Bool) (h : Guard) (d a : Reg) :
    Ends (execZxtN16 u h d a s) (State.keeps bx) := by
  unfold execZxtN16
  repeat first | with_reducible assumption | intro _ | with_reducible apply ends_next | with_reducible apply State.alu_kept | dsimp only

theorem execZxtN32_kept {s : State} (hs : s.keeps bx) (u : Bool) (h : Guard) (d a : Reg) :
    Ends (execZxtN32 u h d a s) (State.keeps bx) := by
  unfold execZxtN32
  repeat first | with_reducible assumption | intro _ | with_reducible apply ends_next | with_reducible apply State.alu64_kept | dsimp only

theorem execBfxN32_kept {s : State} (hs : s.keeps bx) (u : Bool) (h : Guard) (d a : Reg) (b : BSel) :
    Ends (execBfxN32 u h d a b s) (State.keeps bx) := by
  unfold execBfxN32
  repeat first | with_reducible assumption | intro _ | with_reducible apply ends_next | with_reducible apply State.alu_kept | dsimp only

theorem execBfxI32_kept {s : State} (hs : s.keeps bx) (u : Bool) (h : Guard) (d a : Reg) (b : BSel) :
    Ends (execBfxI32 u h d a b s) (State.keeps bx) := by
  unfold execBfxI32
  repeat first | with_reducible assumption | intro _ | with_reducible apply ends_next | with_reducible apply State.alu_kept | dsimp only

theorem execBfi_kept {s : State} (hs : s.keeps bx) (u : Bool) (h : Guard) (d a : Reg) (b : BSel) :
    Ends (execBfi u h d a b s) (State.keeps bx) := by
  unfold execBfi
  repeat first | with_reducible assumption | intro _ | with_reducible apply ends_next | with_reducible apply State.alu_kept | dsimp only

theorem execLea_kept {s : State} (hs : s.keeps bx) (u : Bool) (h : Guard) (d : BitVec 5) (k : BitVec 2) (a : BitVec 5) (b : BSel) :
    Ends (execLea u h d k a b s) (State.keeps bx) := by
  unfold execLea
  repeat first | with_reducible assumption | intro _ | with_reducible apply ends_next | with_reducible apply State.alu64_kept | dsimp only

theorem execSel_kept {s : State} (hs : s.keeps bx) (u : Bool) (p : BitVec 3) (n : Bool) (d a : Reg) (b : BSel) :
    Ends (execSel u p n d a b s) (State.keeps bx) := by
  unfold execSel
  repeat first | with_reducible assumption | intro _ | with_reducible apply ends_next | with_reducible apply State.alu_kept | dsimp only | split

theorem execCmpI32_kept {s : State} (hs : s.keeps bx) (u : Bool) (h : Guard) (c : Cond) (p : BitVec 3) (a : Reg) (b : BSel) :
    Ends (execCmpI32 u h c p a b s) (State.keeps bx) := by
  unfold execCmpI32
  repeat first | with_reducible assumption | intro _ | with_reducible apply ends_next | with_reducible apply State.setPreds_kept | dsimp only

theorem execCmpN32_kept {s : State} (hs : s.keeps bx) (u : Bool) (h : Guard) (c : Cond) (p : BitVec 3) (a : Reg) (b : BSel) :
    Ends (execCmpN32 u h c p a b s) (State.keeps bx) := by
  unfold execCmpN32
  repeat first | with_reducible assumption | intro _ | with_reducible apply ends_next | with_reducible apply State.setPreds_kept | dsimp only

theorem execPand_kept {s : State} (hs : s.keeps bx) (u : Bool) (h : Guard) (d a b : BitVec 3) :
    Ends (execPand u h d a b s) (State.keeps bx) := by
  unfold execPand
  repeat first | with_reducible assumption | intro _ | with_reducible apply ends_next | with_reducible apply State.setPreds_kept | dsimp only

theorem execPor_kept {s : State} (hs : s.keeps bx) (u : Bool) (h : Guard) (d a b : BitVec 3) :
    Ends (execPor u h d a b s) (State.keeps bx) := by
  unfold execPor
  repeat first | with_reducible assumption | intro _ | with_reducible apply ends_next | with_reducible apply State.setPreds_kept | dsimp only

theorem execPxor_kept {s : State} (hs : s.keeps bx) (u : Bool) (h : Guard) (d a b : BitVec 3) :
    Ends (execPxor u h d a b s) (State.keeps bx) := by
  unfold execPxor
  repeat first | with_reducible assumption | intro _ | with_reducible apply ends_next | with_reducible apply State.setPreds_kept | dsimp only

theorem execPnot_kept {s : State} (hs : s.keeps bx) (u : Bool) (h : Guard) (d a : BitVec 3) :
    Ends (execPnot u h d a s) (State.keeps bx) := by
  unfold execPnot
  repeat first | with_reducible assumption | intro _ | with_reducible apply ends_next | with_reducible apply State.setPreds_kept | dsimp only

theorem execMovi_kept {s : State} (hs : s.keeps bx) (u : Bool) (h : Guard) (d : Reg) (i : BitVec 14) :
    Ends (execMovi u h d i s) (State.keeps bx) := by
  unfold execMovi
  repeat first | with_reducible assumption | intro _ | with_reducible apply ends_next | with_reducible apply State.alu_kept | dsimp only

theorem execMovh_kept {s : State} (hs : s.keeps bx) (u : Bool) (h : Guard) (d : Reg) (i : BitVec 14) :
    Ends (execMovh u h d i s) (State.keeps bx) := by
  unfold execMovh
  repeat first | with_reducible assumption | intro _ | with_reducible apply ends_next | with_reducible apply State.alu_kept | dsimp only

end Sys2Proof.Machine
end

