-- ==== Sys2Proof/Laws/KeptFloatOps.lean ====
section
/-! SUPPORT. The operations of Machine/FloatOps.lean keep what `State.keeps` says. -/

namespace Sys2Proof.Machine

variable {bx : Option (List BoxRec)}

theorem execFadd_kept {s : State} (hs : s.keeps bx) (u : Bool) (h : Guard) (d a : Reg) (b : BSel) :
    Ends (execFadd u h d a b s) (State.keeps bx) := by
  unfold execFadd
  repeat first | with_reducible assumption | intro _ | with_reducible apply ends_next | with_reducible apply State.aluF_kept | dsimp only

theorem execFsub_kept {s : State} (hs : s.keeps bx) (u : Bool) (h : Guard) (d a : Reg) (b : BSel) :
    Ends (execFsub u h d a b s) (State.keeps bx) := by
  unfold execFsub
  repeat first | with_reducible assumption | intro _ | with_reducible apply ends_next | with_reducible apply State.aluF_kept | dsimp only

theorem execFmul_kept {s : State} (hs : s.keeps bx) (u : Bool) (h : Guard) (d a : Reg) (b : BSel) :
    Ends (execFmul u h d a b s) (State.keeps bx) := by
  unfold execFmul
  repeat first | with_reducible assumption | intro _ | with_reducible apply ends_next | with_reducible apply State.aluF_kept | dsimp only

theorem execFfma_kept {s : State} (hs : s.keeps bx) (u : Bool) (h : Guard) (d a : Reg) (b : BSel) :
    Ends (execFfma u h d a b s) (State.keeps bx) := by
  unfold execFfma
  repeat first | with_reducible assumption | intro _ | with_reducible apply ends_next | with_reducible apply State.aluF_kept | dsimp only

theorem execFmin_kept {s : State} (hs : s.keeps bx) (u : Bool) (h : Guard) (d a : Reg) (b : BSel) :
    Ends (execFmin u h d a b s) (State.keeps bx) := by
  unfold execFmin
  repeat first | with_reducible assumption | intro _ | with_reducible apply ends_next | with_reducible apply State.alu_kept | dsimp only

theorem execFmax_kept {s : State} (hs : s.keeps bx) (u : Bool) (h : Guard) (d a : Reg) (b : BSel) :
    Ends (execFmax u h d a b s) (State.keeps bx) := by
  unfold execFmax
  repeat first | with_reducible assumption | intro _ | with_reducible apply ends_next | with_reducible apply State.alu_kept | dsimp only

theorem execFneg_kept {s : State} (hs : s.keeps bx) (u : Bool) (h : Guard) (d a : Reg) :
    Ends (execFneg u h d a s) (State.keeps bx) := by
  unfold execFneg
  repeat first | with_reducible assumption | intro _ | with_reducible apply ends_next | with_reducible apply State.alu_kept | dsimp only

theorem execFabs_kept {s : State} (hs : s.keeps bx) (u : Bool) (h : Guard) (d a : Reg) :
    Ends (execFabs u h d a s) (State.keeps bx) := by
  unfold execFabs
  repeat first | with_reducible assumption | intro _ | with_reducible apply ends_next | with_reducible apply State.alu_kept | dsimp only

theorem execFclass_kept {s : State} (hs : s.keeps bx) (u : Bool) (h : Guard) (d a : Reg) :
    Ends (execFclass u h d a s) (State.keeps bx) := by
  unfold execFclass
  repeat first | with_reducible assumption | intro _ | with_reducible apply ends_next | with_reducible apply State.alu_kept | dsimp only

theorem execFrndRn_kept {s : State} (hs : s.keeps bx) (u : Bool) (h : Guard) (d a : Reg) :
    Ends (execFrndRn u h d a s) (State.keeps bx) := by
  unfold execFrndRn
  repeat first | with_reducible assumption | intro _ | with_reducible apply ends_next | with_reducible apply State.alu_kept | dsimp only

theorem execFrndRz_kept {s : State} (hs : s.keeps bx) (u : Bool) (h : Guard) (d a : Reg) :
    Ends (execFrndRz u h d a s) (State.keeps bx) := by
  unfold execFrndRz
  repeat first | with_reducible assumption | intro _ | with_reducible apply ends_next | with_reducible apply State.alu_kept | dsimp only

theorem execFrndRd_kept {s : State} (hs : s.keeps bx) (u : Bool) (h : Guard) (d a : Reg) :
    Ends (execFrndRd u h d a s) (State.keeps bx) := by
  unfold execFrndRd
  repeat first | with_reducible assumption | intro _ | with_reducible apply ends_next | with_reducible apply State.alu_kept | dsimp only

theorem execFrndRu_kept {s : State} (hs : s.keeps bx) (u : Bool) (h : Guard) (d a : Reg) :
    Ends (execFrndRu u h d a s) (State.keeps bx) := by
  unfold execFrndRu
  repeat first | with_reducible assumption | intro _ | with_reducible apply ends_next | with_reducible apply State.alu_kept | dsimp only

theorem execRcp_kept {s : State} (hs : s.keeps bx) (u : Bool) (h : Guard) (d a : Reg) :
    Ends (execRcp u h d a s) (State.keeps bx) := by
  unfold execRcp
  repeat first | with_reducible assumption | intro _ | with_reducible apply ends_next | with_reducible apply State.aluF_kept | dsimp only

theorem execRsqrt_kept {s : State} (hs : s.keeps bx) (u : Bool) (h : Guard) (d a : Reg) :
    Ends (execRsqrt u h d a s) (State.keeps bx) := by
  unfold execRsqrt
  repeat first | with_reducible assumption | intro _ | with_reducible apply ends_next | with_reducible apply State.aluF_kept | dsimp only

theorem execSqrt_kept {s : State} (hs : s.keeps bx) (u : Bool) (h : Guard) (d a : Reg) :
    Ends (execSqrt u h d a s) (State.keeps bx) := by
  unfold execSqrt
  repeat first | with_reducible assumption | intro _ | with_reducible apply ends_next | with_reducible apply State.aluF_kept | dsimp only

theorem execExp2_kept {s : State} (hs : s.keeps bx) (u : Bool) (h : Guard) (d a : Reg) :
    Ends (execExp2 u h d a s) (State.keeps bx) := by
  unfold execExp2
  repeat first | with_reducible assumption | intro _ | with_reducible apply ends_next | with_reducible apply State.aluF_kept | dsimp only

theorem execLog2_kept {s : State} (hs : s.keeps bx) (u : Bool) (h : Guard) (d a : Reg) :
    Ends (execLog2 u h d a s) (State.keeps bx) := by
  unfold execLog2
  repeat first | with_reducible assumption | intro _ | with_reducible apply ends_next | with_reducible apply State.aluF_kept | dsimp only

theorem execSinpi_kept {s : State} (hs : s.keeps bx) (u : Bool) (h : Guard) (d a : Reg) :
    Ends (execSinpi u h d a s) (State.keeps bx) := by
  unfold execSinpi
  repeat first | with_reducible assumption | intro _ | with_reducible apply ends_next | with_reducible apply State.aluF_kept | dsimp only

theorem execCospi_kept {s : State} (hs : s.keeps bx) (u : Bool) (h : Guard) (d a : Reg) :
    Ends (execCospi u h d a s) (State.keeps bx) := by
  unfold execCospi
  repeat first | with_reducible assumption | intro _ | with_reducible apply ends_next | with_reducible apply State.aluF_kept | dsimp only

theorem execSincospi_kept {s : State} (hs : s.keeps bx) (u : Bool) (h : Guard) (d a : Reg) :
    Ends (execSincospi u h d a s) (State.keeps bx) := by
  unfold execSincospi
  repeat first | with_reducible assumption | intro _ | with_reducible apply ends_next | with_reducible apply State.alu64F_kept | dsimp only

theorem execTanh_kept {s : State} (hs : s.keeps bx) (u : Bool) (h : Guard) (d a : Reg) :
    Ends (execTanh u h d a s) (State.keeps bx) := by
  unfold execTanh
  repeat first | with_reducible assumption | intro _ | with_reducible apply ends_next | with_reducible apply State.aluF_kept | dsimp only

theorem execFcmp_kept {s : State} (hs : s.keeps bx) (u : Bool) (h : Guard) (c : FCond) (p : BitVec 3) (a : Reg) (b : BSel) :
    Ends (execFcmp u h c p a b s) (State.keeps bx) := by
  unfold execFcmp
  repeat first | with_reducible assumption | intro _ | with_reducible apply ends_next | with_reducible apply State.setPreds_kept | dsimp only

theorem execFcvt_kept {s : State} (hs : s.keeps bx) (u : Bool) (h : Guard) (d a : Reg) (t y : FType) :
    Ends (execFcvt u h d a t y s) (State.keeps bx) := by
  unfold execFcvt
  repeat first | with_reducible assumption | intro _ | with_reducible apply ends_next | with_reducible apply State.aluF_kept | dsimp only

theorem execFcvti_kept {s : State} (hs : s.keeps bx) (u : Bool) (h : Guard) (d a : Reg) (t : IType) (y : FType) :
    Ends (execFcvti u h d a t y s) (State.keeps bx) := by
  unfold execFcvti
  repeat first
    | with_reducible assumption | intro _ | with_reducible apply ends_next | with_reducible apply State.alu64F_kept
    | with_reducible apply State.aluF_kept | dsimp only | split

theorem execIcvtf_kept {s : State} (hs : s.keeps bx) (u : Bool) (h : Guard) (d a : Reg) (t : FType) (y : IType) :
    Ends (execIcvtf u h d a t y s) (State.keeps bx) := by
  unfold execIcvtf
  repeat first | with_reducible assumption | intro _ | with_reducible apply ends_next | with_reducible apply State.aluF_kept | dsimp only

theorem execHadd2_kept {s : State} (hs : s.keeps bx) (h : Guard) (d a : Reg) (f g : Bool) (b : BitVec 6) :
    Ends (execHadd2 h d a f g b s) (State.keeps bx) := by
  unfold execHadd2
  repeat first | with_reducible assumption | intro _ | with_reducible apply ends_next | with_reducible apply State.aluF_kept | dsimp only

theorem execHmul2_kept {s : State} (hs : s.keeps bx) (h : Guard) (d a : Reg) (f g : Bool) (b : BitVec 6) :
    Ends (execHmul2 h d a f g b s) (State.keeps bx) := by
  unfold execHmul2
  repeat first | with_reducible assumption | intro _ | with_reducible apply ends_next | with_reducible apply State.aluF_kept | dsimp only

theorem execHfma2_kept {s : State} (hs : s.keeps bx) (h : Guard) (d a : Reg) (f g : Bool) (b : BitVec 6) :
    Ends (execHfma2 h d a f g b s) (State.keeps bx) := by
  unfold execHfma2
  repeat first | with_reducible assumption | intro _ | with_reducible apply ends_next | with_reducible apply State.aluF_kept | dsimp only

theorem execDot2_kept {s : State} (hs : s.keeps bx) (h : Guard) (d a : Reg) (f g : Bool) (b : BitVec 6) :
    Ends (execDot2 h d a f g b s) (State.keeps bx) := by
  unfold execDot2
  repeat first | with_reducible assumption | intro _ | with_reducible apply ends_next | with_reducible apply State.aluF_kept | dsimp only

end Sys2Proof.Machine
end

