-- ==== Sys2Proof/Laws/KeptMem.lean ====
section
/-! SUPPORT. The operations of Machine/Mem.lean keep what `State.keeps` says. -/

namespace Sys2Proof.Machine

variable {bx : Option (List BoxRec)}

theorem State.freshSectors_kept {s : State} (hs : s.keeps bx) (ks : List Nat) :
    (State.freshSectors s ks).keeps bx := by
  unfold State.freshSectors
  repeat first | with_reducible assumption | intro _ | with_reducible apply foldl_kept | dsimp only


theorem State.markLeaf_kept {s : State} (hs : s.keeps bx) (x : Leaf) :
    (State.markLeaf s x).keeps bx := by
  unfold State.markLeaf
  repeat first | with_reducible assumption | intro _ | with_reducible apply State.putMem_kept | dsimp only | split

theorem State.putScr_kept {s : State} (hs : s.keeps bx) (core off : Nat) (bs : List Byte) :
    (State.putScr s core off bs).keeps bx := by
  unfold State.putScr
  repeat first | with_reducible assumption | intro _ | with_reducible apply State.freshSectors_kept | dsimp only

theorem State.fillL2_kept {s : State} (hs : s.keeps bx) (o pa : Nat) (cache : BitVec 2) :
    (State.fillL2 s o pa cache).keeps bx := by
  unfold State.fillL2
  repeat first | with_reducible assumption | intro _ | dsimp only | split

theorem State.fillL1_kept {s : State} (hs : s.keeps bx) (o c pa : Nat) (cache : BitVec 2) :
    (State.fillL1 s o c pa cache).keeps bx := by
  unfold State.fillL1
  repeat first | with_reducible assumption | intro _ | dsimp only | split

theorem State.fillPath_kept {s : State} (hs : s.keeps bx) (o : Nat) (path : List Nat) :
    (State.fillPath s o path).keeps bx := by
  unfold State.fillPath
  repeat first | with_reducible assumption | intro _ | with_reducible apply State.fillL2_kept | with_reducible apply foldl_kept | dsimp only

theorem State.setLeaf_kept {s : State} (hs : s.keeps bx) (o : Nat) (x : Leaf) :
    (State.setLeaf s o x).keeps bx := by
  unfold State.setLeaf
  repeat first | with_reducible assumption | with_reducible apply State.fillPath_kept | with_reducible apply State.markLeaf_kept | dsimp only

theorem State.dropL1_kept {s : State} (hs : s.keeps bx) (o c : Nat) :
    (State.dropL1 s o c).keeps bx := by
  unfold State.dropL1
  repeat first | with_reducible assumption | intro _ | dsimp only

theorem State.dropL1Lines_kept {s : State} (hs : s.keeps bx) (o c : Nat) (as : List Nat) :
    (State.dropL1Lines s o c as).keeps bx := by
  unfold State.dropL1Lines
  repeat first | with_reducible assumption | intro _ | dsimp only

theorem State.writeL1_kept {s : State} (hs : s.keeps bx) (o c pa : Nat) (bs : List Byte) :
    (State.writeL1 s o c pa bs).keeps bx := by
  unfold State.writeL1
  repeat first | with_reducible assumption | intro _ | dsimp only | split

theorem State.netRead_kept {s : State} (hs : s.keeps bx) (own : Option (Nat × NetOp)) (o a n : Nat) :
    (State.netRead s own o a n).2.keeps bx := by
  unfold State.netRead
  repeat first
    | with_reducible assumption | intro _ | with_reducible apply State.setLeaf_kept | with_reducible apply State.fillL2_kept
    | with_reducible apply foldl_kept | with_reducible apply foldl_kept_snd | with_reducible apply foldl_kept_fst | dsimp only | split

theorem State.netRead_kept2 {s : State} (hs : s.keeps bx) (own : Option (Nat × NetOp)) (o a n : Nat) {x' : (List Byte × Option NetStop)} {s' : State} (e : (State.netRead s own o a n) = (x', s')) : s'.keeps bx := by
  have := State.netRead_kept hs own o a n
  rwa [e] at this

theorem State.netDest_kept {s : State} (hs : s.keeps bx) (o a n : Nat) :
    (State.netDest s o a n).2.keeps bx := by
  unfold State.netDest
  repeat first
    | with_reducible assumption | intro _ | with_reducible apply State.setLeaf_kept | with_reducible apply foldl_kept
    | with_reducible apply foldl_kept_snd | with_reducible apply foldl_kept_fst | dsimp only | split

theorem State.netDest_kept2 {s : State} (hs : s.keeps bx) (o a n : Nat) {x' : (List Nat × Option NetStop)} {s' : State} (e : (State.netDest s o a n) = (x', s')) : s'.keeps bx := by
  have := State.netDest_kept hs o a n
  rwa [e] at this

theorem State.portSend_kept {s : State} (hs : s.keeps bx) (m : NetMsg) (peer : Nat) :
    (State.portSend s m peer).keeps bx := by
  unfold State.portSend
  repeat first
    | with_reducible assumption | intro _ | with_reducible apply foldl_kept | with_reducible apply foldl_kept_snd
    | with_reducible apply foldl_kept_fst | dsimp only | split

theorem State.netSend_kept {s : State} (hs : s.keeps bx) (k : Nat) (e : NetOp) (data : List Byte) (stop : Option NetStop) :
    (State.netSend s k e data stop).keeps bx := by
  unfold State.netSend
  repeat first
    | with_reducible assumption | intro _ | with_reducible apply State.schedule_kept | with_reducible apply State.portSend_kept
    | with_reducible apply State.bumpOpen_kept | with_reducible apply State.soon_kept | with_reducible apply foldl_kept | dsimp only | split

theorem State.netReserve_kept {s : State} (hs : s.keeps bx) (k : Nat) (e : NetOp) (n : Nat) :
    (State.netReserve s k e n).keeps bx := by
  unfold State.netReserve
  repeat first | with_reducible assumption | intro _ | with_reducible apply State.modWg_kept | dsimp only | split

theorem State.fireNet_kept {s : State} (hs : s.keeps bx) (k : Nat) :
    (State.fireNet s k).keeps bx := by
  unfold State.fireNet
  repeat first
    | with_reducible assumption | intro _ | with_reducible apply State.post_kept | with_reducible apply State.netSend_kept
    | with_reducible apply State.netReserve_kept | with_reducible apply State.netRead_kept
    | with_reducible refine State.netRead_kept2 (e := by assumption) ?_ | with_reducible apply State.netDest_kept
    | with_reducible refine State.netDest_kept2 (e := by assumption) ?_ | with_reducible apply getD_kept | dsimp only | split

theorem State.setCounter_kept {s : State} (hs : s.keeps bx) (o n : Nat) (v : Dword) :
    (State.setCounter s o n v).keeps bx := by
  unfold State.setCounter
  repeat first
    | with_reducible assumption | intro _ | with_reducible apply State.modOwner_kept | with_reducible apply State.fireNet_kept
    | with_reducible apply State.soon_kept | with_reducible apply State.schedule_kept | with_reducible apply foldl_kept
    | with_reducible apply foldl_kept_snd | with_reducible apply foldl_kept_fst | dsimp only | split

theorem State.flushAcc_kept {s : State} (hs : s.keeps bx) (k : Nat) (a : Acc) (pa n : Nat) :
    (State.flushAcc s k a pa n).keeps bx := by
  unfold State.flushAcc
  repeat first
    | with_reducible assumption | intro _ | with_reducible apply State.putMem_kept | with_reducible apply foldl_kept
    | with_reducible apply getD_kept | dsimp only | split

theorem State.flush_kept {s : State} (hs : s.keeps bx) (ids : List Nat) (pa n : Nat) :
    (State.flush s ids pa n).keeps bx := by
  unfold State.flush
  repeat first
    | with_reducible assumption | intro _ | with_reducible apply State.flushAcc_kept | with_reducible apply foldl_kept
    | with_reducible apply foldl_kept_snd | with_reducible apply foldl_kept_fst | dsimp only | split

theorem State.writePlace_kept {s : State} (hs : s.keeps bx) (o c : Nat) (p : Place) (bs : List Byte) :
    (State.writePlace s o c p bs).keeps bx := by
  unfold State.writePlace
  repeat first
    | with_reducible assumption | with_reducible apply State.putScr_kept | with_reducible apply State.setCounter_kept
    | with_reducible apply State.putMem_kept | with_reducible apply State.writeL1_kept | dsimp only | split

theorem State.fillPlace_kept {s : State} (hs : s.keeps bx) (o : Nat) (p : Place) (cache : BitVec 2) :
    (State.fillPlace s o p cache).keeps bx := by
  unfold State.fillPlace
  repeat first | with_reducible assumption | with_reducible apply State.fillL2_kept | dsimp only | split

theorem State.atomPlace_kept {s : State} (hs : s.keeps bx) (o c : Nat) (p : Place) (op : AtomOp) (x x2 : List Byte) :
    (State.atomPlace s o c p op x x2).2.keeps bx := by
  unfold State.atomPlace
  repeat first
    | with_reducible assumption | intro _ | with_reducible apply State.putScr_kept | with_reducible apply State.setCounter_kept
    | with_reducible apply State.putMem_kept | with_reducible apply State.writeL1_kept | dsimp only | split

theorem State.atomPlace_kept2 {s : State} (hs : s.keeps bx) (o c : Nat) (p : Place) (op : AtomOp) (x x2 : List Byte) {x' : List Byte} {s' : State} (e : (State.atomPlace s o c p op x x2) = (x', s')) : s'.keeps bx := by
  have := State.atomPlace_kept hs o c p op x x2
  rwa [e] at this

theorem State.passOn_kept {s : State} (hs : s.keeps bx) (k : Nat) (new : List Nat) :
    (State.passOn s k new).keeps bx := by
  unfold State.passOn
  repeat first | with_reducible assumption | intro _ | dsimp only | split

theorem State.learn_kept {s : State} (hs : s.keeps bx) (k : Nat) (op : MemOp) (a : Acc) (from_ : List Nat) (held : Bool) :
    (State.learn s k op a from_ held).keeps bx := by
  unfold State.learn
  repeat first
    | with_reducible assumption | intro _ | with_reducible apply State.modGroup_kept | with_reducible apply State.passOn_kept | dsimp only
    | split

theorem State.capture_kept {s : State} (hs : s.keeps bx) (k t : Nat) (now : Nat) (held : Bool) :
    (State.capture s k t now held).keeps bx := by
  unfold State.capture
  repeat first | with_reducible assumption | intro _ | with_reducible apply State.learn_kept | dsimp only | split

theorem State.enterBuffer_kept {s : State} (hs : s.keeps bx) (k : Nat) (op : MemOp) (a : Acc) :
    (State.enterBuffer s k op a).keeps bx := by
  unfold State.enterBuffer
  repeat first | with_reducible assumption | intro _ | with_reducible apply State.modWg_kept | dsimp only | split

theorem State.nudge_kept {s : State} (hs : s.keeps bx) (id : Nat) :
    (State.nudge s id).keeps bx := by
  unfold State.nudge
  repeat first
    | with_reducible assumption | intro _ | with_reducible apply State.schedule_kept | with_reducible apply foldl_kept
    | with_reducible apply foldl_kept_snd | with_reducible apply foldl_kept_fst | dsimp only | split

theorem State.tryFire_kept {s : State} (hs : s.keeps bx) (k : Nat) :
    (State.tryFire s k).keeps bx := by
  unfold State.tryFire
  repeat first | with_reducible assumption | with_reducible apply State.fireNet_kept | with_reducible apply State.schedule_kept | dsimp only | split

theorem State.tryArrive_kept {s : State} (hs : s.keeps bx) (k : Nat) :
    (State.tryArrive s k).keeps bx := by
  unfold State.tryArrive
  repeat first | with_reducible assumption | with_reducible apply State.schedule_kept | dsimp only | split

theorem State.wakeHeld_kept {s : State} (hs : s.keeps bx) (f : Await → Bool) :
    (State.wakeHeld s f).keeps bx := by
  unfold State.wakeHeld
  repeat first
    | with_reducible assumption | intro _ | with_reducible apply State.schedule_kept | with_reducible apply State.tryArrive_kept
    | with_reducible apply foldl_kept | with_reducible apply foldl_kept_snd | with_reducible apply foldl_kept_fst | dsimp only | split

theorem State.sendAcc_kept {s : State} (hs : s.keeps bx) (k t c : Nat) (held : Bool) :
    (State.sendAcc s k t c held).keeps bx := by
  unfold State.sendAcc
  repeat first
    | with_reducible assumption | intro _ | with_reducible apply State.enterBuffer_kept | with_reducible apply State.capture_kept
    | with_reducible apply State.schedule_kept | with_reducible apply State.nudge_kept | with_reducible apply State.wakeHeld_kept | dsimp only
    | split

theorem State.trySend_kept {s : State} (hs : s.keeps bx) (k t now : Nat) (held : Bool) :
    (State.trySend s k t now held).keeps bx := by
  unfold State.trySend
  repeat first | with_reducible assumption | with_reducible apply State.sendAcc_kept | with_reducible apply State.schedule_kept | dsimp only | split

theorem State.wakeIf_kept {s : State} (hs : s.keeps bx) (f : Await → Bool) :
    (State.wakeIf s f).keeps bx := by
  unfold State.wakeIf
  repeat first
    | with_reducible assumption | intro _ | with_reducible apply State.schedule_kept | with_reducible apply State.trySend_kept
    | with_reducible apply State.wakeHeld_kept | with_reducible apply foldl_kept | with_reducible apply foldl_kept_snd
    | with_reducible apply foldl_kept_fst | dsimp only | split

theorem State.wake_kept {s : State} (hs : s.keeps bx) (id : Nat) :
    (State.wake s id).keeps bx := by
  unfold State.wake
  repeat first | with_reducible assumption | intro _ | with_reducible apply State.wakeIf_kept | dsimp only

theorem State.sweepOps_kept {s : State} (hs : s.keeps bx) :
    (State.sweepOps s).keeps bx := by
  unfold State.sweepOps
  repeat first | with_reducible assumption | intro _ | dsimp only | split

theorem State.opReturned_kept {s : State} (hs : s.keeps bx) (k : Nat) (op : MemOp) :
    (State.opReturned s k op).keeps bx := by
  unfold State.opReturned
  repeat first
    | with_reducible assumption | intro _ | with_reducible apply State.setGroupAt_kept | with_reducible apply State.dropL1_kept
    | with_reducible apply State.sweepOps_kept | with_reducible apply foldl_kept | with_reducible apply foldl_kept_snd
    | with_reducible apply foldl_kept_fst | dsimp only | split

theorem State.flushFor_kept {s : State} (hs : s.keeps bx) (op : MemOp) (a : Acc) :
    (State.flushFor s op a).keeps bx := by
  unfold State.flushFor
  repeat first | with_reducible assumption | with_reducible apply State.flush_kept | dsimp only | split

theorem State.takeEffect_kept {s : State} (hs : s.keeps bx) (k : Nat) (op : MemOp) (a : Acc) :
    (State.takeEffect s k op a).keeps bx := by
  unfold State.takeEffect
  repeat first
    | with_reducible assumption | with_reducible apply State.setGroupAt_kept | with_reducible apply State.flushFor_kept
    | with_reducible apply State.writePlace_kept | with_reducible apply State.atomPlace_kept
    | with_reducible refine State.atomPlace_kept2 (e := by assumption) ?_ | with_reducible apply State.learn_kept | dsimp only | split

theorem State.accDone_kept {s : State} (hs : s.keeps bx) (k t : Nat) :
    (State.accDone s k t).keeps bx := by
  unfold State.accDone
  repeat first
    | with_reducible assumption | intro _ | with_reducible apply State.opReturned_kept | with_reducible apply State.wake_kept | dsimp only
    | split

end Sys2Proof.Machine
end

