-- ==== Sys2Proof/Laws/KeptMemOps.lean ====
section
/-! SUPPORT. The operations of Machine/MemOps.lean keep what `State.keeps` says. -/

namespace Sys2Proof.Machine

variable {bx : Option (List BoxRec)}

theorem State.openGate_kept {s : State} (hs : s.keeps bx) (gid : Nat) (ids : List Nat) (x : Scope) :
    (State.openGate s gid ids x).keeps bx := by
  unfold State.openGate
  repeat first | with_reducible assumption | with_reducible apply State.dropL1_kept | with_reducible apply State.setGroupAt_kept | dsimp only | split

theorem State.acquired_kept {s : State} (hs : s.keeps bx) (gid : Nat) (o : Ord) :
    (State.acquired s gid o).keeps bx := by
  unfold State.acquired
  repeat first | with_reducible assumption | intro _ | with_reducible apply State.modGroup_kept | dsimp only | split

theorem State.fence_kept {s : State} (hs : s.keeps bx) (gid : Nat) (o : Ord) (x : Scope) (run : BitVec 32) :
    (State.fence s gid o x run).keeps bx := by
  unfold State.fence
  repeat first
    | with_reducible assumption | intro _ | with_reducible apply State.acquired_kept | with_reducible apply State.modGroup_kept
    | with_reducible apply State.openGate_kept | dsimp only | split

theorem State.recordGuard_kept {s : State} (hs : s.keeps bx) (wg : Nat) (k : AccKind) (hs : List Hit) :
    (State.recordGuard s wg k hs).keeps bx := by
  unfold State.recordGuard
  repeat first | with_reducible assumption | intro _ | with_reducible apply State.modWg_kept | dsimp only | split

theorem State.setLeaves_kept {s : State} (hs : s.keeps bx) (reqs : List Req) :
    (State.setLeaves s reqs).keeps bx := by
  unfold State.setLeaves
  repeat first | with_reducible assumption | intro _ | with_reducible apply State.markLeaf_kept | with_reducible apply foldl_kept | dsimp only | split

theorem State.fillWalks_kept {s : State} {t : State} (_hs : s.keeps bx) (ht : t.keeps bx) (g : Group) (as : List Nat) :
    (State.fillWalks s t g as).keeps bx := by
  unfold State.fillWalks
  repeat first | with_reducible assumption | intro _ | with_reducible apply State.schedule_kept | with_reducible apply foldl_kept | dsimp only

theorem State.sendAll_kept {s : State} (hs : s.keeps bx) (k : Nat) (op : MemOp) :
    (State.sendAll s k op).keeps bx := by
  unfold State.sendAll
  repeat first | with_reducible assumption | intro _ | with_reducible apply State.trySend_kept | with_reducible apply foldl_kept | dsimp only

theorem State.issueOp_kept {s : State} (hs : s.keeps bx) (g : Group) (sp : AccSpec) (reqs : List Req) :
    (State.issueOp s g sp reqs).keeps bx := by
  unfold State.issueOp
  repeat first
    | with_reducible assumption | intro _ | with_reducible apply State.bumpOpen_kept | with_reducible apply State.setLeaves_kept
    | with_reducible apply State.recordGuard_kept | with_reducible apply State.modWg_kept | with_reducible apply State.finish_kept
    | with_reducible apply State.openGate_kept | with_reducible apply State.sendAll_kept | with_reducible apply foldl_kept | dsimp only | split

theorem State.access_kept {s : State} (hs : s.keeps bx) (h : Guard) (sp : AccSpec) (ldc : Bool) (addr : Lane → Dword × Bool) (d1 d2 : Lane → List Byte) :
    (State.access s h sp ldc addr d1 d2).keeps bx := by
  unfold State.access
  repeat first
    | with_reducible assumption | intro _ | with_reducible apply State.finish_kept | with_reducible apply State.fence_kept
    | with_reducible apply State.fillWalks_kept | with_reducible apply State.trap_kept | with_reducible apply State.issueOp_kept | dsimp only
    | split

theorem State.loadM_kept {s : State} (hs : s.keeps bx) (u : Bool) (h : Guard) (d a : Reg) (size : Nat) (o : Ord) (x : Scope) (f : BitVec 3) (ldc : Bool) :
    (State.loadM s u h d a size o x f ldc).keeps bx := by
  unfold State.loadM
  repeat first | with_reducible assumption | intro _ | with_reducible apply State.access_kept | dsimp only

theorem State.storeM_kept {s : State} (hs : s.keeps bx) (u : Bool) (h : Guard) (d a : Reg) (size : Nat) (o : Ord) (x : Scope) (f : BitVec 3) :
    (State.storeM s u h d a size o x f).keeps bx := by
  unfold State.storeM
  repeat first | with_reducible assumption | intro _ | with_reducible apply State.access_kept | dsimp only

theorem State.loadS_kept {s : State} (hs : s.keeps bx) (u : Bool) (h : Guard) (d a : Reg) (size : Nat) (o : Ord) (x : Scope) (f : BitVec 3) :
    (State.loadS s u h d a size o x f).keeps bx := by
  unfold State.loadS
  repeat first | with_reducible assumption | intro _ | with_reducible apply State.access_kept | dsimp only

theorem State.storeS_kept {s : State} (hs : s.keeps bx) (u : Bool) (h : Guard) (d a : Reg) (size : Nat) (o : Ord) (x : Scope) (f : BitVec 3) :
    (State.storeS s u h d a size o x f).keeps bx := by
  unfold State.storeS
  repeat first | with_reducible assumption | intro _ | with_reducible apply State.access_kept | dsimp only

theorem State.atomM_kept {s : State} (hs : s.keeps bx) (u : Bool) (h : Guard) (d a : Reg) (op : AtomOp) (o : Ord) (x : Scope) :
    (State.atomM s u h d a op o x).keeps bx := by
  unfold State.atomM
  repeat first | with_reducible assumption | intro _ | with_reducible apply State.access_kept | dsimp only

theorem State.redM_kept {s : State} (hs : s.keeps bx) (u : Bool) (h : Guard) (d a : Reg) (op : AtomOp) (o : Ord) (x : Scope) :
    (State.redM s u h d a op o x).keeps bx := by
  unfold State.redM
  repeat first | with_reducible assumption | intro _ | with_reducible apply State.access_kept | dsimp only

end Sys2Proof.Machine
end

