-- ==== Sys2Proof/Laws/KeptMemory.lean ====
section
/-! SUPPORT. The operations of Machine/Memory.lean keep what `State.keeps` says. -/

namespace Sys2Proof.Machine

variable {bx : Option (List BoxRec)}

theorem execLdGlbN8_kept {s : State} (hs : s.keeps bx) (u : Bool) (h : Guard) (d a : Reg) (f : BitVec 3) :
    Ends (execLdGlbN8 u h d a f s) (State.keeps bx) := by
  unfold execLdGlbN8
  repeat first | with_reducible assumption | with_reducible apply ends_next | with_reducible apply State.loadM_kept | dsimp only

theorem execLdGlbN16_kept {s : State} (hs : s.keeps bx) (u : Bool) (h : Guard) (d a : Reg) (f : BitVec 3) :
    Ends (execLdGlbN16 u h d a f s) (State.keeps bx) := by
  unfold execLdGlbN16
  repeat first | with_reducible assumption | with_reducible apply ends_next | with_reducible apply State.loadM_kept | dsimp only

theorem execLdGlbB32_kept {s : State} (hs : s.keeps bx) (u : Bool) (h : Guard) (d a : Reg) (f : BitVec 3) :
    Ends (execLdGlbB32 u h d a f s) (State.keeps bx) := by
  unfold execLdGlbB32
  repeat first | with_reducible assumption | with_reducible apply ends_next | with_reducible apply State.loadM_kept | dsimp only

theorem execLdGlbB64_kept {s : State} (hs : s.keeps bx) (u : Bool) (h : Guard) (d a : Reg) (f : BitVec 3) :
    Ends (execLdGlbB64 u h d a f s) (State.keeps bx) := by
  unfold execLdGlbB64
  repeat first | with_reducible assumption | with_reducible apply ends_next | with_reducible apply State.loadM_kept | dsimp only

theorem execLdGlbB128_kept {s : State} (hs : s.keeps bx) (u : Bool) (h : Guard) (d a : Reg) (f : BitVec 3) :
    Ends (execLdGlbB128 u h d a f s) (State.keeps bx) := by
  unfold execLdGlbB128
  repeat first | with_reducible assumption | with_reducible apply ends_next | with_reducible apply State.loadM_kept | dsimp only

theorem execStGlbB8_kept {s : State} (hs : s.keeps bx) (u : Bool) (h : Guard) (d a : Reg) (f : BitVec 3) :
    Ends (execStGlbB8 u h d a f s) (State.keeps bx) := by
  unfold execStGlbB8
  repeat first | with_reducible assumption | with_reducible apply ends_next | with_reducible apply State.storeM_kept | dsimp only

theorem execStGlbB16_kept {s : State} (hs : s.keeps bx) (u : Bool) (h : Guard) (d a : Reg) (f : BitVec 3) :
    Ends (execStGlbB16 u h d a f s) (State.keeps bx) := by
  unfold execStGlbB16
  repeat first | with_reducible assumption | with_reducible apply ends_next | with_reducible apply State.storeM_kept | dsimp only

theorem execStGlbB32_kept {s : State} (hs : s.keeps bx) (u : Bool) (h : Guard) (d a : Reg) (f : BitVec 3) :
    Ends (execStGlbB32 u h d a f s) (State.keeps bx) := by
  unfold execStGlbB32
  repeat first | with_reducible assumption | with_reducible apply ends_next | with_reducible apply State.storeM_kept | dsimp only

theorem execStGlbB64_kept {s : State} (hs : s.keeps bx) (u : Bool) (h : Guard) (d a : Reg) (f : BitVec 3) :
    Ends (execStGlbB64 u h d a f s) (State.keeps bx) := by
  unfold execStGlbB64
  repeat first | with_reducible assumption | with_reducible apply ends_next | with_reducible apply State.storeM_kept | dsimp only

theorem execStGlbB128_kept {s : State} (hs : s.keeps bx) (u : Bool) (h : Guard) (d a : Reg) (f : BitVec 3) :
    Ends (execStGlbB128 u h d a f s) (State.keeps bx) := by
  unfold execStGlbB128
  repeat first | with_reducible assumption | with_reducible apply ends_next | with_reducible apply State.storeM_kept | dsimp only

theorem execScopedLdGlbB32_kept {s : State} (hs : s.keeps bx) (u : Bool) (h : Guard) (d a : Reg) (o : Ord) (x : Scope) (f : BitVec 3) :
    Ends (execScopedLdGlbB32 u h d a o x f s) (State.keeps bx) := by
  unfold execScopedLdGlbB32
  repeat first | with_reducible assumption | with_reducible apply ends_next | with_reducible apply State.loadM_kept | dsimp only

theorem execScopedLdGlbB64_kept {s : State} (hs : s.keeps bx) (u : Bool) (h : Guard) (d a : Reg) (o : Ord) (x : Scope) (f : BitVec 3) :
    Ends (execScopedLdGlbB64 u h d a o x f s) (State.keeps bx) := by
  unfold execScopedLdGlbB64
  repeat first | with_reducible assumption | with_reducible apply ends_next | with_reducible apply State.loadM_kept | dsimp only

theorem execScopedStGlbB32_kept {s : State} (hs : s.keeps bx) (u : Bool) (h : Guard) (d a : Reg) (o : Ord) (x : Scope) (f : BitVec 3) :
    Ends (execScopedStGlbB32 u h d a o x f s) (State.keeps bx) := by
  unfold execScopedStGlbB32
  repeat first | with_reducible assumption | with_reducible apply ends_next | with_reducible apply State.storeM_kept | dsimp only

theorem execScopedStGlbB64_kept {s : State} (hs : s.keeps bx) (u : Bool) (h : Guard) (d a : Reg) (o : Ord) (x : Scope) (f : BitVec 3) :
    Ends (execScopedStGlbB64 u h d a o x f s) (State.keeps bx) := by
  unfold execScopedStGlbB64
  repeat first | with_reducible assumption | with_reducible apply ends_next | with_reducible apply State.storeM_kept | dsimp only

theorem execLdsB32_kept {s : State} (hs : s.keeps bx) (u : Bool) (h : Guard) (d a : Reg) (o : Ord) (x : Scope) (f : BitVec 3) :
    Ends (execLdsB32 u h d a o x f s) (State.keeps bx) := by
  unfold execLdsB32
  repeat first | with_reducible assumption | with_reducible apply ends_next | with_reducible apply State.loadS_kept | dsimp only

theorem execLdsB64_kept {s : State} (hs : s.keeps bx) (u : Bool) (h : Guard) (d a : Reg) (o : Ord) (x : Scope) (f : BitVec 3) :
    Ends (execLdsB64 u h d a o x f s) (State.keeps bx) := by
  unfold execLdsB64
  repeat first | with_reducible assumption | with_reducible apply ends_next | with_reducible apply State.loadS_kept | dsimp only

theorem execStsB32_kept {s : State} (hs : s.keeps bx) (u : Bool) (h : Guard) (d a : Reg) (o : Ord) (x : Scope) (f : BitVec 3) :
    Ends (execStsB32 u h d a o x f s) (State.keeps bx) := by
  unfold execStsB32
  repeat first | with_reducible assumption | with_reducible apply ends_next | with_reducible apply State.storeS_kept | dsimp only

theorem execStsB64_kept {s : State} (hs : s.keeps bx) (u : Bool) (h : Guard) (d a : Reg) (o : Ord) (x : Scope) (f : BitVec 3) :
    Ends (execStsB64 u h d a o x f s) (State.keeps bx) := by
  unfold execStsB64
  repeat first | with_reducible assumption | with_reducible apply ends_next | with_reducible apply State.storeS_kept | dsimp only

theorem execLdc_kept {s : State} (hs : s.keeps bx) (u : Bool) (h : Guard) (d a : Reg) (f : BitVec 3) :
    Ends (execLdc u h d a f s) (State.keeps bx) := by
  unfold execLdc
  repeat first | with_reducible assumption | with_reducible apply ends_next | with_reducible apply State.loadM_kept | dsimp only

theorem execAtomAddN32_kept {s : State} (hs : s.keeps bx) (u : Bool) (h : Guard) (d a : Reg) (o : Ord) (x : Scope) :
    Ends (execAtomAddN32 u h d a o x s) (State.keeps bx) := by
  unfold execAtomAddN32
  repeat first | with_reducible assumption | with_reducible apply ends_next | with_reducible apply State.atomM_kept | dsimp only

theorem execAtomAddN64_kept {s : State} (hs : s.keeps bx) (u : Bool) (h : Guard) (d a : Reg) (o : Ord) (x : Scope) :
    Ends (execAtomAddN64 u h d a o x s) (State.keeps bx) := by
  unfold execAtomAddN64
  repeat first | with_reducible assumption | with_reducible apply ends_next | with_reducible apply State.atomM_kept | dsimp only

theorem execAtomMinI32_kept {s : State} (hs : s.keeps bx) (u : Bool) (h : Guard) (d a : Reg) (o : Ord) (x : Scope) :
    Ends (execAtomMinI32 u h d a o x s) (State.keeps bx) := by
  unfold execAtomMinI32
  repeat first | with_reducible assumption | with_reducible apply ends_next | with_reducible apply State.atomM_kept | dsimp only

theorem execAtomMaxI32_kept {s : State} (hs : s.keeps bx) (u : Bool) (h : Guard) (d a : Reg) (o : Ord) (x : Scope) :
    Ends (execAtomMaxI32 u h d a o x s) (State.keeps bx) := by
  unfold execAtomMaxI32
  repeat first | with_reducible assumption | with_reducible apply ends_next | with_reducible apply State.atomM_kept | dsimp only

theorem execAtomMinN32_kept {s : State} (hs : s.keeps bx) (u : Bool) (h : Guard) (d a : Reg) (o : Ord) (x : Scope) :
    Ends (execAtomMinN32 u h d a o x s) (State.keeps bx) := by
  unfold execAtomMinN32
  repeat first | with_reducible assumption | with_reducible apply ends_next | with_reducible apply State.atomM_kept | dsimp only

theorem execAtomMaxN32_kept {s : State} (hs : s.keeps bx) (u : Bool) (h : Guard) (d a : Reg) (o : Ord) (x : Scope) :
    Ends (execAtomMaxN32 u h d a o x s) (State.keeps bx) := by
  unfold execAtomMaxN32
  repeat first | with_reducible assumption | with_reducible apply ends_next | with_reducible apply State.atomM_kept | dsimp only

theorem execAtomOr_kept {s : State} (hs : s.keeps bx) (u : Bool) (h : Guard) (d a : Reg) (o : Ord) (x : Scope) :
    Ends (execAtomOr u h d a o x s) (State.keeps bx) := by
  unfold execAtomOr
  repeat first | with_reducible assumption | with_reducible apply ends_next | with_reducible apply State.atomM_kept | dsimp only

theorem execAtomAnd_kept {s : State} (hs : s.keeps bx) (u : Bool) (h : Guard) (d a : Reg) (o : Ord) (x : Scope) :
    Ends (execAtomAnd u h d a o x s) (State.keeps bx) := by
  unfold execAtomAnd
  repeat first | with_reducible assumption | with_reducible apply ends_next | with_reducible apply State.atomM_kept | dsimp only

theorem execAtomExchB32_kept {s : State} (hs : s.keeps bx) (u : Bool) (h : Guard) (d a : Reg) (o : Ord) (x : Scope) :
    Ends (execAtomExchB32 u h d a o x s) (State.keeps bx) := by
  unfold execAtomExchB32
  repeat first | with_reducible assumption | with_reducible apply ends_next | with_reducible apply State.atomM_kept | dsimp only

theorem execAtomCasB32_kept {s : State} (hs : s.keeps bx) (u : Bool) (h : Guard) (d a : Reg) (o : Ord) (x : Scope) :
    Ends (execAtomCasB32 u h d a o x s) (State.keeps bx) := by
  unfold execAtomCasB32
  repeat first | with_reducible assumption | with_reducible apply ends_next | with_reducible apply State.atomM_kept | dsimp only

theorem execAtomExchB64_kept {s : State} (hs : s.keeps bx) (u : Bool) (h : Guard) (d a : Reg) (o : Ord) (x : Scope) :
    Ends (execAtomExchB64 u h d a o x s) (State.keeps bx) := by
  unfold execAtomExchB64
  repeat first | with_reducible assumption | with_reducible apply ends_next | with_reducible apply State.atomM_kept | dsimp only

theorem execAtomCasB64_kept {s : State} (hs : s.keeps bx) (u : Bool) (h : Guard) (d a : Reg) (o : Ord) (x : Scope) :
    Ends (execAtomCasB64 u h d a o x s) (State.keeps bx) := by
  unfold execAtomCasB64
  repeat first | with_reducible assumption | with_reducible apply ends_next | with_reducible apply State.atomM_kept | dsimp only

theorem execAtomAddF32_kept {s : State} (hs : s.keeps bx) (u : Bool) (h : Guard) (d a : Reg) (o : Ord) (x : Scope) :
    Ends (execAtomAddF32 u h d a o x s) (State.keeps bx) := by
  unfold execAtomAddF32
  repeat first | with_reducible assumption | with_reducible apply ends_next | with_reducible apply State.atomM_kept | dsimp only

theorem execAtomMinF32_kept {s : State} (hs : s.keeps bx) (u : Bool) (h : Guard) (d a : Reg) (o : Ord) (x : Scope) :
    Ends (execAtomMinF32 u h d a o x s) (State.keeps bx) := by
  unfold execAtomMinF32
  repeat first | with_reducible assumption | with_reducible apply ends_next | with_reducible apply State.atomM_kept | dsimp only

theorem execAtomMaxF32_kept {s : State} (hs : s.keeps bx) (u : Bool) (h : Guard) (d a : Reg) (o : Ord) (x : Scope) :
    Ends (execAtomMaxF32 u h d a o x s) (State.keeps bx) := by
  unfold execAtomMaxF32
  repeat first | with_reducible assumption | with_reducible apply ends_next | with_reducible apply State.atomM_kept | dsimp only

theorem execRedAddN32_kept {s : State} (hs : s.keeps bx) (u : Bool) (h : Guard) (d a : Reg) (o : Ord) (x : Scope) :
    Ends (execRedAddN32 u h d a o x s) (State.keeps bx) := by
  unfold execRedAddN32
  repeat first | with_reducible assumption | with_reducible apply ends_next | with_reducible apply State.redM_kept | dsimp only

theorem execRedAddN64_kept {s : State} (hs : s.keeps bx) (u : Bool) (h : Guard) (d a : Reg) (o : Ord) (x : Scope) :
    Ends (execRedAddN64 u h d a o x s) (State.keeps bx) := by
  unfold execRedAddN64
  repeat first | with_reducible assumption | with_reducible apply ends_next | with_reducible apply State.redM_kept | dsimp only

theorem execRedMinI32_kept {s : State} (hs : s.keeps bx) (u : Bool) (h : Guard) (d a : Reg) (o : Ord) (x : Scope) :
    Ends (execRedMinI32 u h d a o x s) (State.keeps bx) := by
  unfold execRedMinI32
  repeat first | with_reducible assumption | with_reducible apply ends_next | with_reducible apply State.redM_kept | dsimp only

theorem execRedMaxI32_kept {s : State} (hs : s.keeps bx) (u : Bool) (h : Guard) (d a : Reg) (o : Ord) (x : Scope) :
    Ends (execRedMaxI32 u h d a o x s) (State.keeps bx) := by
  unfold execRedMaxI32
  repeat first | with_reducible assumption | with_reducible apply ends_next | with_reducible apply State.redM_kept | dsimp only

theorem execRedMinN32_kept {s : State} (hs : s.keeps bx) (u : Bool) (h : Guard) (d a : Reg) (o : Ord) (x : Scope) :
    Ends (execRedMinN32 u h d a o x s) (State.keeps bx) := by
  unfold execRedMinN32
  repeat first | with_reducible assumption | with_reducible apply ends_next | with_reducible apply State.redM_kept | dsimp only

theorem execRedMaxN32_kept {s : State} (hs : s.keeps bx) (u : Bool) (h : Guard) (d a : Reg) (o : Ord) (x : Scope) :
    Ends (execRedMaxN32 u h d a o x s) (State.keeps bx) := by
  unfold execRedMaxN32
  repeat first | with_reducible assumption | with_reducible apply ends_next | with_reducible apply State.redM_kept | dsimp only

theorem execRedOr_kept {s : State} (hs : s.keeps bx) (u : Bool) (h : Guard) (d a : Reg) (o : Ord) (x : Scope) :
    Ends (execRedOr u h d a o x s) (State.keeps bx) := by
  unfold execRedOr
  repeat first | with_reducible assumption | with_reducible apply ends_next | with_reducible apply State.redM_kept | dsimp only

theorem execRedAnd_kept {s : State} (hs : s.keeps bx) (u : Bool) (h : Guard) (d a : Reg) (o : Ord) (x : Scope) :
    Ends (execRedAnd u h d a o x s) (State.keeps bx) := by
  unfold execRedAnd
  repeat first | with_reducible assumption | with_reducible apply ends_next | with_reducible apply State.redM_kept | dsimp only

theorem execRedAddF32_kept {s : State} (hs : s.keeps bx) (u : Bool) (h : Guard) (d a : Reg) (o : Ord) (x : Scope) :
    Ends (execRedAddF32 u h d a o x s) (State.keeps bx) := by
  unfold execRedAddF32
  repeat first | with_reducible assumption | with_reducible apply ends_next | with_reducible apply State.redM_kept | dsimp only

theorem execRedMinF32_kept {s : State} (hs : s.keeps bx) (u : Bool) (h : Guard) (d a : Reg) (o : Ord) (x : Scope) :
    Ends (execRedMinF32 u h d a o x s) (State.keeps bx) := by
  unfold execRedMinF32
  repeat first | with_reducible assumption | with_reducible apply ends_next | with_reducible apply State.redM_kept | dsimp only

theorem execRedMaxF32_kept {s : State} (hs : s.keeps bx) (u : Bool) (h : Guard) (d a : Reg) (o : Ord) (x : Scope) :
    Ends (execRedMaxF32 u h d a o x s) (State.keeps bx) := by
  unfold execRedMaxF32
  repeat first | with_reducible assumption | with_reducible apply ends_next | with_reducible apply State.redM_kept | dsimp only

theorem State.fillFor_kept {s : State} (hs : s.keeps bx) (op : MemOp) (a : Acc) :
    (State.fillFor s op a).keeps bx := by
  unfold State.fillFor
  repeat first
    | with_reducible assumption | with_reducible apply State.fillPath_kept | with_reducible apply State.fillPlace_kept
    | with_reducible apply State.fillL1_kept | dsimp only | split

theorem State.reply_kept {s : State} (hs : s.keeps bx) (k t : Nat) :
    (State.reply s k t).keeps bx := by
  unfold State.reply
  repeat first
    | with_reducible assumption | with_reducible apply State.accDone_kept | with_reducible apply State.fillFor_kept
    | with_reducible apply State.takeEffect_kept | dsimp only | split

theorem State.storeBack_kept {s : State} (hs : s.keeps bx) (k t : Nat) :
    (State.storeBack s k t).keeps bx := by
  unfold State.storeBack
  repeat first
    | with_reducible assumption | with_reducible apply State.accDone_kept | with_reducible apply State.fillFor_kept
    | with_reducible apply State.takeEffect_kept | dsimp only | split

theorem execAccessReply_kept {s : State} (hs : s.keeps bx) (k t : Nat) :
    Ends (execAccessReply k t s) (State.keeps bx) := by
  unfold execAccessReply
  repeat first | with_reducible assumption | with_reducible apply ends_next | with_reducible apply State.reply_kept | dsimp only

theorem execStoreReturn_kept {s : State} (hs : s.keeps bx) (k t : Nat) :
    Ends (execStoreReturn k t s) (State.keeps bx) := by
  unfold execStoreReturn
  repeat first | with_reducible assumption | with_reducible apply ends_next | with_reducible apply State.storeBack_kept | dsimp only

theorem execHeldAccessSend_kept {s : State} (hs : s.keeps bx) (k t : Nat) :
    Ends (execHeldAccessSend k t s) (State.keeps bx) := by
  unfold execHeldAccessSend
  repeat first
    | with_reducible assumption | with_reducible apply ends_next | with_reducible apply State.trySend_kept
    | with_reducible apply State.tryFire_kept | dsimp only | split

theorem execPrefetchFill_kept {s : State} (hs : s.keeps bx) (o c l : Nat) (cache : BitVec 2) :
    Ends (execPrefetchFill o c l cache s) (State.keeps bx) := by
  unfold execPrefetchFill
  repeat first
    | with_reducible assumption | with_reducible apply ends_next | with_reducible apply State.fillL2_kept
    | with_reducible apply State.fillL1_kept | dsimp only | split

end Sys2Proof.Machine
end

