-- ==== Sys2Proof/Laws/KeptSync.lean ====
section
/-! SUPPORT. The operations of Machine/Sync.lean keep what `State.keeps` says. -/

namespace Sys2Proof.Machine

variable {bx : Option (List BoxRec)}

theorem execFence_kept {s : State} (hs : s.keeps bx) (h : Guard) (o : Ord) (x : Scope) :
    Ends (execFence h o x s) (State.keeps bx) := by
  unfold execFence
  repeat first
    | with_reducible assumption | with_reducible apply ends_next | with_reducible apply State.finish_kept
    | with_reducible apply State.fence_kept | dsimp only | split

theorem State.checkPhase_kept {s : State} (hs : s.keeps bx) (wg b c : Nat) :
    (State.checkPhase s wg b c).keeps bx := by
  unfold State.checkPhase
  repeat first
    | with_reducible assumption | intro _ | with_reducible apply State.setGroupAt_kept | with_reducible apply State.setWg_kept
    | with_reducible apply foldl_kept | dsimp only | split

theorem State.arrival_kept {s : State} (hs : s.keeps bx) (b n : Nat) {t' : State} (e : (State.arrival s b n) = .ok t') :
    t'.keeps bx := by
  unfold State.arrival at e
  revert e
  repeat' first | dsimp only | split | (intro e; cases e)
  all_goals
    repeat first
      | with_reducible assumption | intro _ | with_reducible apply State.setWg_kept | with_reducible apply State.checkPhase_kept | dsimp only
      | split

theorem State.barWait_kept {s : State} (hs : s.keeps bx) (b : Nat) :
    (State.barWait s b).keeps bx := by
  unfold State.barWait
  repeat first | with_reducible assumption | with_reducible apply State.finish_kept | dsimp only | split

theorem State.barrierTrap_kept {s : State} (hs : s.keeps bx) {t' : State} (e : (State.barrierTrap s) = some t') :
    t'.keeps bx := by
  unfold State.barrierTrap at e
  revert e
  repeat' first | dsimp only | split | (intro e; cases e)
  all_goals
    repeat first
      | with_reducible assumption | intro _ | with_reducible apply State.setGrp_kept | with_reducible apply State.trap_kept
      | with_reducible apply State.setWg_kept | dsimp only | split

theorem execBarArr_kept {s : State} (hs : s.keeps bx) (h : Guard) (b : BitVec 4) (k : BitVec 6) :
    Ends (execBarArr h b k s) (State.keeps bx) := by
  unfold execBarArr
  repeat first
    | with_reducible assumption | with_reducible apply ends_next | with_reducible refine State.barrierTrap_kept (e := by assumption) ?_
    | with_reducible refine State.arrival_kept (e := by assumption) ?_ | with_reducible apply State.trap_kept
    | with_reducible apply State.finish_kept | dsimp only | split

theorem execBarWait_kept {s : State} (hs : s.keeps bx) (h : Guard) (b : BitVec 4) :
    Ends (execBarWait h b s) (State.keeps bx) := by
  unfold execBarWait
  repeat first
    | with_reducible assumption | with_reducible apply ends_next | with_reducible refine State.barrierTrap_kept (e := by assumption) ?_
    | with_reducible apply State.barWait_kept | with_reducible apply State.finish_kept | dsimp only | split

theorem execBarSync_kept {s : State} (hs : s.keeps bx) (h : Guard) (b : BitVec 4) (k : BitVec 6) :
    Ends (execBarSync h b k s) (State.keeps bx) := by
  unfold execBarSync
  repeat first
    | with_reducible assumption | with_reducible apply ends_next | with_reducible refine State.barrierTrap_kept (e := by assumption) ?_
    | with_reducible refine State.arrival_kept (e := by assumption) ?_ | with_reducible apply State.trap_kept
    | with_reducible apply State.barWait_kept | with_reducible apply State.finish_kept | dsimp only | split

theorem State.handOff_kept {s : State} (hs : s.keeps bx) (b bytes : Nat) {t' : State} (e : (State.handOff s b bytes) = .ok t') :
    t'.keeps bx := by
  unfold State.handOff at e
  revert e
  repeat' first | dsimp only | split | (intro e; cases e)
  all_goals
    repeat first | with_reducible assumption | intro _ | with_reducible apply State.setWg_kept | dsimp only | split

theorem State.landed_kept {s : State} (hs : s.keeps bx) (wg b bytes : Nat) :
    (State.landed s wg b bytes).keeps bx := by
  unfold State.landed
  repeat first | with_reducible assumption | intro _ | with_reducible apply State.modWg_kept | dsimp only

theorem State.engineArrives_kept {s : State} (hs : s.keeps bx) (wg b c : Nat) (covers : List Nat) :
    (State.engineArrives s wg b c covers).keeps bx := by
  unfold State.engineArrives
  repeat first | with_reducible assumption | intro _ | with_reducible apply State.modWg_kept | with_reducible apply State.checkPhase_kept | dsimp only

theorem State.ownRequest_kept {s : State} (hs : s.keeps bx) (h : Guard) (d a : Reg) (give : Bool) :
    (State.ownRequest s h d a give).keeps bx := by
  unfold State.ownRequest
  repeat first
    | with_reducible assumption | intro _ | with_reducible apply State.finish_kept | with_reducible apply State.trap_kept
    | with_reducible apply State.modWg_kept | dsimp only | split

theorem execOwnTake_kept {s : State} (hs : s.keeps bx) (h : Guard) (d a : Reg) :
    Ends (execOwnTake h d a s) (State.keeps bx) := by
  unfold execOwnTake
  repeat first | with_reducible assumption | with_reducible apply ends_next | with_reducible apply State.ownRequest_kept | dsimp only

theorem execOwnGive_kept {s : State} (hs : s.keeps bx) (h : Guard) (d a : Reg) :
    Ends (execOwnGive h d a s) (State.keeps bx) := by
  unfold execOwnGive
  repeat first | with_reducible assumption | with_reducible apply ends_next | with_reducible apply State.ownRequest_kept | dsimp only

theorem execPref_kept {s : State} (hs : s.keeps bx) (u : Bool) (h : Guard) (a : Reg) :
    Ends (execPref u h a s) (State.keeps bx) := by
  unfold execPref
  repeat first
    | with_reducible assumption | intro _ | with_reducible apply ends_next | with_reducible apply State.schedule_kept
    | with_reducible apply State.fillWalks_kept | with_reducible apply State.finish_kept | with_reducible apply foldl_kept | dsimp only

theorem State.tellDependants_kept {s : State} (hs : s.keeps bx) (l : Nat) :
    (State.tellDependants s l).keeps bx := by
  unfold State.tellDependants
  repeat first
    | with_reducible assumption | intro _ | with_reducible apply State.soon_kept | with_reducible apply foldl_kept
    | with_reducible apply foldl_kept_snd | with_reducible apply foldl_kept_fst | dsimp only | split

theorem execTrig_kept {s : State} (hs : s.keeps bx) (u : Bool) (h : Guard) :
    Ends (execTrig u h s) (State.keeps bx) := by
  unfold execTrig
  repeat first
    | with_reducible assumption | with_reducible apply ends_next | with_reducible apply State.finish_kept
    | with_reducible apply State.tellDependants_kept | dsimp only | split

end Sys2Proof.Machine
end

