-- ==== Sys2Proof/Laws/KeptHints.lean ====
section
/-! SUPPORT. The operations of Machine/Hints.lean keep what `State.keeps` says. -/

namespace Sys2Proof.Machine

variable {bx : Option (List BoxRec)}

theorem State.hintIssue_kept {s : State} (hs : s.keeps bx) (i : Instr) (stall : Nat) (skip : Bool) :
    (State.hintIssue s i stall skip).keeps bx := by
  unfold State.hintIssue
  repeat first
    | with_reducible assumption | with_reducible apply State.trapAtPc_kept | with_reducible apply State.setGrp_kept
    | with_reducible apply getD_kept | dsimp only | split

theorem execHintWide_kept {s : State} (hs : s.keeps bx) (p : BitVec 22) :
    Ends (execHintWide p s) (State.keeps bx) := by
  unfold execHintWide
  repeat first | with_reducible assumption | with_reducible apply ends_next | with_reducible apply State.hintIssue_kept | dsimp only

theorem execHintSched_kept {s : State} (hs : s.keeps bx) (r : BitVec 3) (y : Bool) (k : BitVec 4) :
    Ends (execHintSched r y k s) (State.keeps bx) := by
  unfold execHintSched
  repeat first | with_reducible assumption | with_reducible apply ends_next | with_reducible apply State.hintIssue_kept | dsimp only

theorem execHintMod_kept {s : State} (hs : s.keeps bx) (m : ModFields) :
    Ends (execHintMod m s) (State.keeps bx) := by
  unfold execHintMod
  repeat first | with_reducible assumption | with_reducible apply ends_next | with_reducible apply State.hintIssue_kept | dsimp only

theorem execHintType_kept {s : State} (hs : s.keeps bx) (k : Bool) (d a : BitVec 2) :
    Ends (execHintType k d a s) (State.keeps bx) := by
  unfold execHintType
  repeat first | with_reducible assumption | with_reducible apply ends_next | with_reducible apply State.hintIssue_kept | dsimp only

end Sys2Proof.Machine
end

