-- ==== Sys2Proof/Laws/KeptControl.lean ====
section
/-! SUPPORT. The operations of Machine/Control.lean keep what `State.keeps` says. -/

namespace Sys2Proof.Machine

variable {bx : Option (List BoxRec)}

theorem State.jump_kept {s : State} (hs : s.keeps bx) (target : Dword) :
    (State.jump s target).keeps bx := by
  unfold State.jump
  repeat first | with_reducible assumption | with_reducible apply State.trap_kept | with_reducible apply State.setGrp_kept | dsimp only | split

theorem State.diverge_kept {s : State} (hs : s.keeps bx) (taken : BitVec 32) (target : Dword) :
    (State.diverge s taken target).keeps bx := by
  unfold State.diverge
  repeat first
    | with_reducible assumption | intro _ | with_reducible apply State.trap_kept | with_reducible apply State.jump_kept
    | with_reducible apply State.setGrp_kept | dsimp only | split

theorem execBra_kept {s : State} (hs : s.keeps bx) (u : Bool) (h : Guard) (f : BitVec 20) :
    Ends (execBra u h f s) (State.keeps bx) := by
  unfold execBra
  repeat first
    | with_reducible assumption | with_reducible apply ends_next | with_reducible apply State.jump_kept | with_reducible apply State.finish_kept
    | with_reducible apply State.diverge_kept | dsimp only | split

theorem State.callTo_kept {s : State} (hs : s.keeps bx) (d : Reg) (target : Dword) :
    (State.callTo s d target).keeps bx := by
  unfold State.callTo
  repeat first | with_reducible assumption | with_reducible apply State.trap_kept | with_reducible apply State.setGrp_kept | dsimp only | split

theorem execCall_kept {s : State} (hs : s.keeps bx) (h : Guard) (f : BitVec 20) :
    Ends (execCall h f s) (State.keeps bx) := by
  unfold execCall
  repeat first
    | with_reducible assumption | with_reducible apply ends_next | with_reducible apply State.callTo_kept
    | with_reducible apply State.finish_kept | dsimp only | split

theorem execCallx_kept {s : State} (hs : s.keeps bx) (h : Guard) (d a : Reg) :
    Ends (execCallx h d a s) (State.keeps bx) := by
  unfold execCallx
  repeat first
    | with_reducible assumption | with_reducible apply ends_next | with_reducible apply State.callTo_kept
    | with_reducible apply State.finish_kept | dsimp only | split

theorem execBrx_kept {s : State} (hs : s.keeps bx) (h : Guard) (a : Reg) :
    Ends (execBrx h a s) (State.keeps bx) := by
  unfold execBrx
  repeat first
    | with_reducible assumption | with_reducible apply ends_next | with_reducible apply State.jump_kept | with_reducible apply State.finish_kept
    | dsimp only | split

theorem execRet_kept {s : State} (hs : s.keeps bx) (h : Guard) (a : Reg) :
    Ends (execRet h a s) (State.keeps bx) := by
  unfold execRet
  repeat first
    | with_reducible assumption | with_reducible apply ends_next | with_reducible apply State.trap_kept | with_reducible apply State.setGrp_kept
    | with_reducible apply State.finish_kept | dsimp only | split

theorem execNop_kept {s : State} (hs : s.keeps bx) (_u : Bool) (_h : Guard) :
    Ends (execNop _u _h s) (State.keeps bx) := by
  unfold execNop
  repeat first | with_reducible assumption | with_reducible apply ends_next | with_reducible apply State.finish_kept | dsimp only

theorem execLoop_kept {s : State} (hs : s.keeps bx) (h : Guard) (c : Reg) (l : BitVec 14) :
    Ends (execLoop h c l s) (State.keeps bx) := by
  unfold execLoop
  repeat first
    | with_reducible assumption | with_reducible apply ends_next | with_reducible apply State.finish_kept
    | with_reducible apply State.setGrp_kept | with_reducible apply State.trap_kept | dsimp only | split

theorem execBrk_kept {s : State} (hs : s.keeps bx) (h : Guard) :
    Ends (execBrk h s) (State.keeps bx) := by
  unfold execBrk
  repeat first
    | with_reducible assumption | with_reducible apply ends_next | with_reducible apply State.finish_kept | with_reducible apply State.trap_kept
    | with_reducible apply State.setGrp_kept | dsimp only | split

theorem State.mergeReleases_kept {s : State} (hs : s.keeps bx) (gid : Nat) (set : BitVec 32) :
    (State.mergeReleases s gid set).keeps bx := by
  unfold State.mergeReleases
  repeat first
    | with_reducible assumption | intro _ | with_reducible apply State.mergeHist_kept | with_reducible apply foldl_kept | dsimp only | split

theorem State.exitThreads_kept {s : State} (hs : s.keeps bx) (set : BitVec 32) :
    (State.exitThreads s set).keeps bx := by
  unfold State.exitThreads
  repeat first
    | with_reducible assumption | with_reducible apply State.mergeReleases_kept | with_reducible apply State.setGrp_kept
    | with_reducible apply State.groupGone_kept | with_reducible apply State.finish_kept | with_reducible apply State.select_kept | dsimp only
    | split

theorem execExit_kept {s : State} (hs : s.keeps bx) (u : Bool) (h : Guard) :
    Ends (execExit u h s) (State.keeps bx) := by
  unfold execExit
  repeat first
    | with_reducible assumption | with_reducible apply ends_next | with_reducible apply State.endGroup_kept
    | with_reducible apply State.finish_kept | with_reducible apply State.exitThreads_kept | with_reducible apply State.tellDependants_kept
    | dsimp only | split

theorem execWait_kept {s : State} (hs : s.keeps bx) (h : Guard) (l t c e r : BitVec 4) :
    Ends (execWait h l t c e r s) (State.keeps bx) := by
  unfold execWait
  repeat first | with_reducible assumption | with_reducible apply ends_next | with_reducible apply State.finish_kept | dsimp only | split

theorem execWaitc_kept {s : State} (hs : s.keeps bx) (h : Guard) (k : OpClass) (a : Reg) :
    Ends (execWaitc h k a s) (State.keeps bx) := by
  unfold execWaitc
  repeat first | with_reducible assumption | with_reducible apply ends_next | with_reducible apply State.finish_kept | dsimp only | split

theorem execGets_kept {s : State} (hs : s.keeps bx) (u : Bool) (h : Guard) (d : Reg) (r : SReg) :
    Ends (execGets u h d r s) (State.keeps bx) := by
  unfold execGets
  repeat first
    | with_reducible assumption | intro _ | with_reducible apply ends_next | with_reducible apply State.alu64_kept
    | with_reducible apply State.alu_kept | dsimp only | split

end Sys2Proof.Machine
end

