-- ==== Sys2Proof/Laws/KeptParallel.lean ====
section
/-! SUPPORT. The operations of Machine/Parallel.lean keep what `State.keeps` says. -/

namespace Sys2Proof.Machine

variable {bx : Option (List BoxRec)}

theorem State.gather_kept {s : State} (hs : s.keeps bx) (h : Guard) (lat : Nat) (locs : List Nat) (f : Group → BitVec 32 → Group) :
    (State.gather s h lat locs f).keeps bx := by
  unfold State.gather
  repeat first | with_reducible assumption | with_reducible apply State.finish_kept | dsimp only | split

theorem execVoteMask_kept {s : State} (hs : s.keeps bx) (h : Guard) (d : Reg) (p : BitVec 3) :
    Ends (execVoteMask h d p s) (State.keeps bx) := by
  unfold execVoteMask
  repeat first | with_reducible assumption | intro _ | with_reducible apply ends_next | with_reducible apply State.gather_kept | dsimp only

theorem execVoteEvery_kept {s : State} (hs : s.keeps bx) (h : Guard) (q p : BitVec 3) :
    Ends (execVoteEvery h q p s) (State.keeps bx) := by
  unfold execVoteEvery
  repeat first | with_reducible assumption | intro _ | with_reducible apply ends_next | with_reducible apply State.gather_kept | dsimp only

theorem execVoteSome_kept {s : State} (hs : s.keeps bx) (h : Guard) (q p : BitVec 3) :
    Ends (execVoteSome h q p s) (State.keeps bx) := by
  unfold execVoteSome
  repeat first | with_reducible assumption | intro _ | with_reducible apply ends_next | with_reducible apply State.gather_kept | dsimp only

theorem execVoteSame_kept {s : State} (hs : s.keeps bx) (h : Guard) (q : BitVec 3) (b : BSel) :
    Ends (execVoteSame h q b s) (State.keeps bx) := by
  unfold execVoteSame
  repeat first | with_reducible assumption | intro _ | with_reducible apply ends_next | with_reducible apply State.gather_kept | dsimp only

theorem execVoteCount_kept {s : State} (hs : s.keeps bx) (h : Guard) (d : Reg) (p : BitVec 3) :
    Ends (execVoteCount h d p s) (State.keeps bx) := by
  unfold execVoteCount
  repeat first | with_reducible assumption | intro _ | with_reducible apply ends_next | with_reducible apply State.gather_kept | dsimp only

theorem execElect_kept {s : State} (hs : s.keeps bx) (h : Guard) (d : Reg) (p : BitVec 3) :
    Ends (execElect h d p s) (State.keeps bx) := by
  unfold execElect
  repeat first
    | with_reducible assumption | intro _ | with_reducible apply ends_next | with_reducible apply State.gather_kept
    | with_reducible apply getD_kept | dsimp only | split

theorem State.shuffle_kept {s : State} (hs : s.keeps bx) (h : Guard) (d a : Reg) (m : ShflMode) (r : Bool) (k : BitVec 5) :
    (State.shuffle s h d a m r k).keeps bx := by
  unfold State.shuffle
  repeat first | with_reducible assumption | intro _ | with_reducible apply State.alu_kept | with_reducible apply getD_kept | dsimp only | split

theorem execShflAt_kept {s : State} (hs : s.keeps bx) (h : Guard) (d a : Reg) (r : Bool) (k : BitVec 5) :
    Ends (execShflAt h d a r k s) (State.keeps bx) := by
  unfold execShflAt
  repeat first | with_reducible assumption | with_reducible apply ends_next | with_reducible apply State.shuffle_kept | dsimp only

theorem execShflBack_kept {s : State} (hs : s.keeps bx) (h : Guard) (d a : Reg) (r : Bool) (k : BitVec 5) :
    Ends (execShflBack h d a r k s) (State.keeps bx) := by
  unfold execShflBack
  repeat first | with_reducible assumption | with_reducible apply ends_next | with_reducible apply State.shuffle_kept | dsimp only

theorem execShflFwd_kept {s : State} (hs : s.keeps bx) (h : Guard) (d a : Reg) (r : Bool) (k : BitVec 5) :
    Ends (execShflFwd h d a r k s) (State.keeps bx) := by
  unfold execShflFwd
  repeat first | with_reducible assumption | with_reducible apply ends_next | with_reducible apply State.shuffle_kept | dsimp only

theorem execShflMix_kept {s : State} (hs : s.keeps bx) (h : Guard) (d a : Reg) (r : Bool) (k : BitVec 5) :
    Ends (execShflMix h d a r k s) (State.keeps bx) := by
  unfold execShflMix
  repeat first | with_reducible assumption | with_reducible apply ends_next | with_reducible apply State.shuffle_kept | dsimp only

theorem execBcast_kept {s : State} (hs : s.keeps bx) (h : Guard) (d a : Reg) (b : BSel) :
    Ends (execBcast h d a b s) (State.keeps bx) := by
  unfold execBcast
  repeat first
    | with_reducible assumption | intro _ | with_reducible apply ends_next | with_reducible apply State.alu_kept
    | with_reducible apply getD_kept | dsimp only | split

theorem execGred_kept {s : State} (hs : s.keeps bx) (h : Guard) (d a : Reg) (f : GFn) :
    Ends (execGred h d a f s) (State.keeps bx) := by
  unfold execGred
  repeat first | with_reducible assumption | intro _ | with_reducible apply ends_next | with_reducible apply State.gather_kept | dsimp only

theorem State.prefixes_kept {s : State} (hs : s.keeps bx) (h : Guard) (d a : Reg) (f : GFn) (excl : Bool) :
    (State.prefixes s h d a f excl).keeps bx := by
  unfold State.prefixes
  repeat first | with_reducible assumption | intro _ | with_reducible apply State.aluF_kept | with_reducible apply getD_kept | dsimp only | split

theorem execScan_kept {s : State} (hs : s.keeps bx) (h : Guard) (d a : Reg) (f : GFn) :
    Ends (execScan h d a f s) (State.keeps bx) := by
  unfold execScan
  repeat first | with_reducible assumption | with_reducible apply ends_next | with_reducible apply State.prefixes_kept | dsimp only

theorem execScanExcl_kept {s : State} (hs : s.keeps bx) (h : Guard) (d a : Reg) (f : GFn) :
    Ends (execScanExcl h d a f s) (State.keeps bx) := by
  unfold execScanExcl
  repeat first | with_reducible assumption | with_reducible apply ends_next | with_reducible apply State.prefixes_kept | dsimp only

theorem State.await_kept {s : State} (hs : s.keeps bx) (g : Group) (kind : WaitKind) (due : Option Nat) :
    (State.await s g kind due).keeps bx := by
  unfold State.await
  repeat first | with_reducible assumption | with_reducible apply State.finish_kept | dsimp only

theorem execXchg_kept {s : State} (hs : s.keeps bx) (h : Guard) (d a : Reg) (t : BitVec 6) :
    Ends (execXchg h d a t s) (State.keeps bx) := by
  unfold execXchg
  repeat first
    | with_reducible assumption | intro _ | with_reducible apply ends_next | with_reducible apply State.trap_kept
    | with_reducible apply State.await_kept | with_reducible apply State.modGroup_kept | with_reducible apply State.trapGroup_kept
    | with_reducible apply State.schedule_kept | dsimp only | split

theorem execXchgComplete_kept {s : State} (hs : s.keeps bx) (k : Nat) :
    Ends (execXchgComplete k s) (State.keeps bx) := by
  unfold execXchgComplete
  repeat first
    | with_reducible assumption | intro _ | with_reducible apply ends_next | with_reducible apply State.setGroupAt_kept
    | with_reducible apply foldl_kept | dsimp only | split

theorem State.arm_kept {s : State} (hs : s.keeps bx) (k : Nat) (mask : BitVec 32) :
    (State.arm s k mask).keeps bx := by
  unfold State.arm
  repeat first | with_reducible assumption | with_reducible apply State.trap_kept | with_reducible apply State.finish_kept | dsimp only | split

theorem execJoinArm_kept {s : State} (hs : s.keeps bx) (h : Guard) (k : BitVec 3) (b : BSel) :
    Ends (execJoinArm h k b s) (State.keeps bx) := by
  unfold execJoinArm
  repeat first
    | with_reducible assumption | with_reducible apply ends_next | with_reducible apply State.arm_kept | with_reducible apply State.finish_kept
    | dsimp only | split

theorem execJoinArmRun_kept {s : State} (hs : s.keeps bx) (h : Guard) (k : BitVec 3) (b : BSel) :
    Ends (execJoinArmRun h k b s) (State.keeps bx) := by
  unfold execJoinArmRun
  repeat first
    | with_reducible assumption | with_reducible apply ends_next | with_reducible apply State.arm_kept | with_reducible apply State.finish_kept
    | dsimp only | split

theorem State.arrive_kept {s : State} (hs : s.keeps bx) (k : BitVec 3) :
    (State.arrive s k).keeps bx := by
  unfold State.arrive
  repeat first
    | with_reducible assumption | intro _ | with_reducible apply State.finish_kept | with_reducible apply State.trap_kept
    | with_reducible apply State.setGrp_kept | with_reducible apply State.mergeHist_kept | with_reducible apply State.select_kept | dsimp only
    | split

theorem execJoinWait_kept {s : State} (hs : s.keeps bx) (h : Guard) (k : BitVec 3) :
    Ends (execJoinWait h k s) (State.keeps bx) := by
  unfold execJoinWait
  repeat first
    | with_reducible assumption | with_reducible apply ends_next | with_reducible apply State.arrive_kept
    | with_reducible apply State.finish_kept | dsimp only | split

theorem execYield_kept {s : State} (hs : s.keeps bx) (h : Guard) :
    Ends (execYield h s) (State.keeps bx) := by
  unfold execYield
  repeat first | with_reducible assumption | intro _ | with_reducible apply ends_next | with_reducible apply State.finish_kept | dsimp only | split

theorem execSlotRel_kept {s : State} (hs : s.keeps bx) (h : Guard) (a : Reg) (b : BSel) :
    Ends (execSlotRel h a b s) (State.keeps bx) := by
  unfold execSlotRel
  repeat first
    | with_reducible assumption | intro _ | with_reducible apply ends_next | with_reducible apply State.finish_kept
    | with_reducible apply State.modOwner_kept | with_reducible apply foldl_kept | dsimp only | split

theorem execSlotQ_kept {s : State} (hs : s.keeps bx) (h : Guard) (d : Reg) (b : BSel) :
    Ends (execSlotQ h d b s) (State.keeps bx) := by
  unfold execSlotQ
  repeat first | with_reducible assumption | intro _ | with_reducible apply ends_next | with_reducible apply State.alu64_kept | dsimp only | split

end Sys2Proof.Machine
end

