-- ==== Sys2Proof/Laws/KeptEngines.lean ====
section
/-! SUPPORT. The operations of Machine/Engines.lean keep what `State.keeps` says. -/

namespace Sys2Proof.Machine

variable {bx : Option (List BoxRec)}

theorem State.putTrec_kept {s : State} (hs : s.keeps bx) (g : Group) (k : Nat) (r : Trec) :
    (State.putTrec s g k r).keeps bx := by
  unfold State.putTrec
  repeat first | with_reducible assumption | dsimp only

theorem State.putRsv_kept {s : State} (hs : s.keeps bx) (g : Group) (k : Nat) (r : Rsv) :
    (State.putRsv s g k r).keeps bx := by
  unfold State.putRsv
  repeat first | with_reducible assumption | dsimp only

theorem execTrecTab_kept {s : State} (hs : s.keeps bx) (h : Guard) (k : BitVec 4) (b : BSel) :
    Ends (execTrecTab h k b s) (State.keeps bx) := by
  unfold execTrecTab
  repeat first
    | with_reducible assumption | with_reducible apply ends_next | with_reducible apply State.finish_kept | with_reducible apply State.trap_kept
    | with_reducible apply State.putTrec_kept | dsimp only | split

theorem execTrecBase_kept {s : State} (hs : s.keeps bx) (h : Guard) (k : BitVec 4) (a : Reg) :
    Ends (execTrecBase h k a s) (State.keeps bx) := by
  unfold execTrecBase
  repeat first
    | with_reducible assumption | with_reducible apply ends_next | with_reducible apply State.finish_kept | with_reducible apply State.trap_kept
    | with_reducible apply State.putTrec_kept | dsimp only | split

theorem State.takeMoved_kept {s : State} (hs : s.keeps bx) (k : Nat) (e : EngOp) (m : Moved) :
    (State.takeMoved s k e m).keeps bx := by
  unfold State.takeMoved
  repeat first
    | with_reducible assumption | intro _ | with_reducible apply State.markLeaf_kept | with_reducible apply State.modWg_kept
    | with_reducible apply foldl_kept | dsimp only | split

theorem State.scheduleEngine_kept {s : State} (hs : s.keeps bx) (k : Nat) (e : EngOp) (start due : Nat) :
    (State.scheduleEngine s k e start due).keeps bx := by
  unfold State.scheduleEngine
  repeat first | with_reducible assumption | intro _ | with_reducible apply State.schedule_kept | with_reducible apply foldl_kept | dsimp only | split

theorem State.startCopy_kept {s : State} (hs : s.keeps bx) (k : Nat) :
    (State.startCopy s k).keeps bx := by
  unfold State.startCopy
  repeat first
    | with_reducible assumption | with_reducible apply State.takeMoved_kept | with_reducible apply State.scheduleEngine_kept | dsimp only
    | split

theorem State.land_kept {s : State} (hs : s.keeps bx) (e : EngOp) :
    (State.land s e).keeps bx := by
  unfold State.land
  repeat first
    | with_reducible assumption | intro _ | with_reducible apply State.fillPath_kept | with_reducible apply State.flush_kept
    | with_reducible apply State.putMem_kept | with_reducible apply State.fillL2_kept | with_reducible apply State.putScr_kept
    | with_reducible apply State.dropL1Lines_kept | with_reducible apply foldl_kept | with_reducible apply foldl_kept_snd
    | with_reducible apply foldl_kept_fst | dsimp only | split

theorem State.flip_kept {s : State} (hs : s.keeps bx) (e : EngOp) (held : Bool) :
    (State.flip s e held).keeps bx := by
  unfold State.flip
  repeat first | with_reducible assumption | intro _ | with_reducible apply foldl_kept | dsimp only

theorem State.recordEngine_kept {s : State} (hs : s.keeps bx) (e : EngOp) (now : Nat) :
    (State.recordEngine s e now).keeps bx := by
  unfold State.recordEngine
  repeat first | with_reducible assumption | with_reducible apply State.setGroupAt_kept | dsimp only | split

theorem State.beat_kept {s : State} (hs : s.keeps bx) (k n : Nat) :
    (State.beat s k n).keeps bx := by
  unfold State.beat
  repeat first | with_reducible assumption | with_reducible apply State.landed_kept | dsimp only | split

theorem State.engineComplete_kept {s : State} (hs : s.keeps bx) (k : Nat) :
    (State.engineComplete s k).keeps bx := by
  unfold State.engineComplete
  repeat first
    | with_reducible assumption | intro _ | with_reducible apply State.beat_kept | with_reducible apply State.land_kept
    | with_reducible apply State.flip_kept | with_reducible apply State.engineArrives_kept | with_reducible apply State.recordEngine_kept
    | with_reducible apply State.modGroup_kept | dsimp only | split

theorem execCopyBeat_kept {s : State} (hs : s.keeps bx) (k _n : Nat) :
    Ends (execCopyBeat k _n s) (State.keeps bx) := by
  unfold execCopyBeat
  repeat first | with_reducible assumption | with_reducible apply ends_next | with_reducible apply State.beat_kept | dsimp only

theorem execCopyCompletion_kept {s : State} (hs : s.keeps bx) (k : Nat) :
    Ends (execCopyCompletion k s) (State.keeps bx) := by
  unfold execCopyCompletion
  repeat first | with_reducible assumption | with_reducible apply ends_next | with_reducible apply State.engineComplete_kept | dsimp only

theorem State.handOffIf_kept {s : State} (hs : s.keeps bx) (be : Bool) (b n : Nat) {t' : State} (e : (State.handOffIf s be b n) = .ok t') :
    t'.keeps bx := by
  unfold State.handOffIf at e
  revert e
  repeat' first | dsimp only | split | (intro e; cases e)
  all_goals
    repeat first | with_reducible assumption | intro _ | with_reducible refine State.handOff_kept (e := by assumption) ?_ | dsimp only | split

theorem State.issueEngine_kept {s : State} (hs : s.keeps bx) (g : Group) (k : Nat) (e : EngOp) :
    (State.issueEngine s g k e).keeps bx := by
  unfold State.issueEngine
  repeat first
    | with_reducible assumption | intro _ | with_reducible apply State.modWg_kept | with_reducible apply State.bumpOpen_kept
    | with_reducible apply State.flip_kept | with_reducible apply State.finish_kept | dsimp only | split

theorem State.copyIssue_kept {s : State} (hs : s.keeps bx) (g : Group) (j : CopyJob) (b : Nat) (be : Bool) :
    (State.copyIssue s g j b be).keeps bx := by
  unfold State.copyIssue
  repeat first
    | with_reducible assumption | with_reducible apply State.trap_kept | with_reducible refine State.handOffIf_kept (e := by assumption) ?_
    | with_reducible apply State.issueEngine_kept | with_reducible apply State.startCopy_kept | dsimp only | split

theorem State.copy_kept {s : State} (hs : s.keeps bx) (h : Guard) (out obuf : Bool) (k : BitVec 4) (a : Reg) (b : BitVec 4) (be : Bool) :
    (State.copy s h out obuf k a b be).keeps bx := by
  unfold State.copy
  repeat first
    | with_reducible assumption | intro _ | with_reducible apply State.finish_kept | with_reducible apply State.trap_kept
    | with_reducible apply State.copyIssue_kept | with_reducible apply getD_kept | dsimp only | split

theorem execCpInScr_kept {s : State} (hs : s.keeps bx) (h : Guard) (k : BitVec 4) (a : Reg) (b : BitVec 4) (e : Bool) :
    Ends (execCpInScr h k a b e s) (State.keeps bx) := by
  unfold execCpInScr
  repeat first | with_reducible assumption | with_reducible apply ends_next | with_reducible apply State.copy_kept | dsimp only

theorem execCpInObuf_kept {s : State} (hs : s.keeps bx) (h : Guard) (k : BitVec 4) (a : Reg) (b : BitVec 4) (e : Bool) :
    Ends (execCpInObuf h k a b e s) (State.keeps bx) := by
  unfold execCpInObuf
  repeat first | with_reducible assumption | with_reducible apply ends_next | with_reducible apply State.copy_kept | dsimp only

theorem execCpOutScr_kept {s : State} (hs : s.keeps bx) (h : Guard) (k : BitVec 4) (a : Reg) (b : BitVec 4) (e : Bool) :
    Ends (execCpOutScr h k a b e s) (State.keeps bx) := by
  unfold execCpOutScr
  repeat first | with_reducible assumption | with_reducible apply ends_next | with_reducible apply State.copy_kept | dsimp only

theorem State.reserve_kept {s : State} (hs : s.keeps bx) (k first len fmt blen scaleOff : Nat) :
    (State.reserve s k first len fmt blen scaleOff).keeps bx := by
  unfold State.reserve
  repeat first
    | with_reducible assumption | with_reducible apply State.trap_kept | with_reducible apply State.putRsv_kept
    | with_reducible apply State.finish_kept | dsimp only | split

theorem execObufRsvTpl_kept {s : State} (hs : s.keeps bx) (h : Guard) (k : BitVec 4) (b : BSel) :
    Ends (execObufRsvTpl h k b s) (State.keeps bx) := by
  unfold execObufRsvTpl
  repeat first
    | with_reducible assumption | with_reducible apply ends_next | with_reducible apply State.finish_kept | with_reducible apply State.trap_kept
    | with_reducible apply State.reserve_kept | dsimp only | split

theorem execObufRsvReg_kept {s : State} (hs : s.keeps bx) (h : Guard) (k : BitVec 4) (a : Reg) :
    Ends (execObufRsvReg h k a s) (State.keeps bx) := by
  unfold execObufRsvReg
  repeat first
    | with_reducible assumption | with_reducible apply ends_next | with_reducible apply State.finish_kept | with_reducible apply State.trap_kept
    | with_reducible apply State.reserve_kept | dsimp only | split

theorem execObufFree_kept {s : State} (hs : s.keeps bx) (h : Guard) (k : BitVec 4) :
    Ends (execObufFree h k s) (State.keeps bx) := by
  unfold execObufFree
  repeat first
    | with_reducible assumption | with_reducible apply ends_next | with_reducible apply State.finish_kept | with_reducible apply State.trap_kept
    | with_reducible apply State.putRsv_kept | dsimp only | split

theorem State.enqueueTile_kept {s : State} (hs : s.keeps bx) (g : Group) (k tile : Nat) (works : List TileWork) :
    (State.enqueueTile s g k tile works).keeps bx := by
  unfold State.enqueueTile
  repeat first | with_reducible assumption | intro _ | dsimp only

theorem State.readHolds_kept {s : State} (hs : s.keeps bx) (core : Nat) (a b : OperandAt) (up : Bool) :
    (State.readHolds s core a b up).keeps bx := by
  unfold State.readHolds
  repeat first | with_reducible assumption | intro _ | with_reducible apply foldl_kept | dsimp only | split

theorem execMma_kept {s : State} (hs : s.keeps bx) (h : Guard) (d a b : Reg) :
    Ends (execMma h d a b s) (State.keeps bx) := by
  unfold execMma
  repeat first
    | with_reducible assumption | intro _ | with_reducible apply ends_next | with_reducible apply State.finish_kept
    | with_reducible apply State.trap_kept | with_reducible apply State.enqueueTile_kept | with_reducible apply State.readHolds_kept
    | with_reducible apply foldl_kept | with_reducible apply foldl_kept_snd | with_reducible apply foldl_kept_fst | dsimp only | split

theorem execMmaFence_kept {s : State} (hs : s.keeps bx) (h : Guard) (d : Reg) :
    Ends (execMmaFence h d s) (State.keeps bx) := by
  unfold execMmaFence
  repeat first | with_reducible assumption | with_reducible apply ends_next | with_reducible apply State.finish_kept | dsimp only | split

theorem execMmaWait_kept {s : State} (hs : s.keeps bx) (h : Guard) (b : BSel) :
    Ends (execMmaWait h b s) (State.keeps bx) := by
  unfold execMmaWait
  repeat first
    | with_reducible assumption | with_reducible apply ends_next | with_reducible apply State.finish_kept | with_reducible apply State.trap_kept
    | dsimp only | split

theorem execAccZero_kept {s : State} (hs : s.keeps bx) (h : Guard) (d : Reg) :
    Ends (execAccZero h d s) (State.keeps bx) := by
  unfold execAccZero
  repeat first
    | with_reducible assumption | with_reducible apply ends_next | with_reducible apply State.finish_kept | with_reducible apply State.trap_kept
    | with_reducible apply State.enqueueTile_kept | dsimp only | split

theorem execAccRd_kept {s : State} (hs : s.keeps bx) (h : Guard) (d a : Reg) (b : BSel) :
    Ends (execAccRd h d a b s) (State.keeps bx) := by
  unfold execAccRd
  repeat first
    | with_reducible assumption | with_reducible apply ends_next | with_reducible apply State.finish_kept | with_reducible apply State.trap_kept
    | with_reducible apply State.enqueueTile_kept | dsimp only | split

theorem execDrain_kept {s : State} (hs : s.keeps bx) (h : Guard) (d a : Reg) (k : BitVec 4) (e : Bool) :
    Ends (execDrain h d a k e s) (State.keeps bx) := by
  unfold execDrain
  repeat first
    | with_reducible assumption | intro _ | with_reducible apply ends_next | with_reducible apply State.finish_kept
    | with_reducible apply State.trap_kept | with_reducible refine State.handOffIf_kept (e := by assumption) ?_
    | with_reducible apply State.enqueueTile_kept | with_reducible apply State.issueEngine_kept | dsimp only | split

theorem State.markTile_kept {s : State} (hs : s.keeps bx) (core : Nat) (e : TileEntry) :
    (State.markTile s core e).keeps bx := by
  unfold State.markTile
  repeat first | with_reducible assumption | with_reducible apply getD_kept | dsimp only | split

theorem State.passLast_kept {s : State} (hs : s.keeps bx) (k : Nat) (p : Pass) (w : Nat) :
    (State.passLast s k p w).keeps bx := by
  unfold State.passLast
  repeat first | with_reducible assumption | with_reducible apply State.schedule_kept | dsimp only

theorem State.drainPass_kept {s : State} (hs : s.keeps bx) (core tile w k : Nat) :
    (State.drainPass s core tile w k).keeps bx := by
  unfold State.drainPass
  repeat first
    | with_reducible assumption | intro _ | with_reducible apply State.copy_kept | with_reducible apply State.arm_kept
    | with_reducible apply State.takeMoved_kept | with_reducible apply State.scheduleEngine_kept | dsimp only | split

theorem State.matrixServe_kept {s : State} (hs : s.keeps bx) (o core lane island w : Nat) :
    (State.matrixServe s o core lane island w).keeps bx := by
  unfold State.matrixServe
  repeat first
    | with_reducible assumption | intro _ | with_reducible apply State.passLast_kept | with_reducible apply State.drainPass_kept
    | with_reducible apply State.markTile_kept | with_reducible apply foldl_kept | with_reducible apply foldl_kept_snd
    | with_reducible apply foldl_kept_fst | dsimp only | split

theorem execMatrixPass_kept {s : State} (hs : s.keeps bx) (o l : Nat) :
    Ends (execMatrixPass o l s) (State.keeps bx) := by
  unfold execMatrixPass
  repeat first | with_reducible assumption | with_reducible apply ends_next | with_reducible apply State.matrixServe_kept | dsimp only

theorem State.recordTile_kept {s : State} (hs : s.keeps bx) (x : TileOp) :
    (State.recordTile s x).keeps bx := by
  unfold State.recordTile
  repeat first | with_reducible assumption | with_reducible apply State.setGroupAt_kept | dsimp only | split

theorem State.tileDone_kept {s : State} (hs : s.keeps bx) (e : TileEntry) :
    (State.tileDone s e).keeps bx := by
  unfold State.tileDone
  repeat first
    | with_reducible assumption | intro _ | with_reducible apply State.readHolds_kept | with_reducible apply State.recordTile_kept
    | with_reducible apply State.modGroup_kept | dsimp only | split

theorem State.tileRegs_kept {s : State} (hs : s.keeps bx) (e : TileEntry) (regs : List (Nat × Word)) :
    (State.tileRegs s e regs).keeps bx := by
  unfold State.tileRegs
  repeat first
    | with_reducible assumption | intro _ | with_reducible apply State.modGroup_kept | with_reducible apply foldl_kept
    | with_reducible apply foldl_kept_snd | with_reducible apply foldl_kept_fst | dsimp only | split

theorem execMatrixPassResult_kept {s : State} (hs : s.keeps bx) (k : Nat) :
    Ends (execMatrixPassResult k s) (State.keeps bx) := by
  unfold execMatrixPassResult
  repeat first
    | with_reducible assumption | intro _ | with_reducible apply ends_next | with_reducible exact ends_fault _
    | with_reducible apply State.tileRegs_kept | with_reducible apply State.tileDone_kept | with_reducible apply foldl_kept
    | with_reducible apply foldl_kept_snd | with_reducible apply foldl_kept_fst | dsimp only | split

theorem execDrainCompletion_kept {s : State} (hs : s.keeps bx) (k : Nat) :
    Ends (execDrainCompletion k s) (State.keeps bx) := by
  unfold execDrainCompletion
  repeat first
    | with_reducible assumption | intro _ | with_reducible apply ends_next | with_reducible apply State.copy_kept
    | with_reducible apply State.arm_kept | with_reducible apply State.setGroupAt_kept | with_reducible apply State.engineComplete_kept
    | dsimp only | split

theorem execQcvt_kept {s : State} (hs : s.keeps bx) (h : Guard) (d a : Reg) (f : DxFmt) (n : Reg) :
    Ends (execQcvt h d a f n s) (State.keeps bx) := by
  unfold execQcvt
  repeat first
    | with_reducible assumption | intro _ | with_reducible apply ends_next | with_reducible apply State.aluF_kept
    | with_reducible apply getD_kept | dsimp only | split

end Sys2Proof.Machine
end

