-- ==== Sys2Proof/Laws/KeptQueues.lean ====
section
/-! SUPPORT. The operations of Machine/Queues.lean keep what `State.keeps` says. -/

namespace Sys2Proof.Machine

variable {bx : Option (List BoxRec)}

theorem State.giveItem_kept {s : State} (hs : s.keeps bx) (o r k : Nat) :
    (State.giveItem s o r k).keeps bx := by
  unfold State.giveItem
  repeat first
    | with_reducible assumption | intro _ | with_reducible apply State.setOwner_kept | with_reducible apply State.schedule_kept
    | with_reducible apply getD_kept | dsimp only | split

theorem State.serveRing_kept {s : State} (hs : s.keeps bx) (o r : Nat) :
    (State.serveRing s o r).keeps bx := by
  unfold State.serveRing
  repeat first
    | with_reducible assumption | intro _ | with_reducible apply State.giveItem_kept | with_reducible apply foldl_kept
    | with_reducible apply foldl_kept_snd | with_reducible apply foldl_kept_fst | dsimp only

theorem State.untakeItem_kept {s : State} (hs : s.keeps bx) (o r k : Nat) :
    (State.untakeItem s o r k).keeps bx := by
  unfold State.untakeItem
  repeat first | with_reducible assumption | intro _ | with_reducible apply State.modOwner_kept | dsimp only | split

theorem State.withdrawDeq_kept {s : State} (hs : s.keeps bx) (k : Nat) :
    (State.withdrawDeq s k).keeps bx := by
  unfold State.withdrawDeq
  repeat first
    | with_reducible assumption | with_reducible apply State.untakeItem_kept | with_reducible apply State.serveRing_kept | dsimp only | split

theorem State.reopenRing_kept {s : State} (hs : s.keeps bx) (o r : Nat) (w : Nat) :
    (State.reopenRing s o r w).keeps bx := by
  unfold State.reopenRing
  repeat first
    | with_reducible assumption | intro _ | with_reducible apply State.untakeItem_kept | with_reducible apply foldl_kept
    | with_reducible apply foldl_kept_snd | with_reducible apply foldl_kept_fst | dsimp only | split

theorem execDeq_kept {s : State} (hs : s.keeps bx) (h : Guard) (d : Reg) (q : BitVec 3) (b : BSel) :
    Ends (execDeq h d q b s) (State.keeps bx) := by
  unfold execDeq
  repeat first
    | with_reducible assumption | with_reducible apply ends_next | with_reducible apply State.finish_kept | with_reducible apply State.trap_kept
    | with_reducible apply State.await_kept | with_reducible apply State.reopenRing_kept | with_reducible apply State.serveRing_kept
    | dsimp only | split

theorem State.sendItem_kept {s : State} (hs : s.keeps bx) (q core : Nat) (a : Reg) (p : BitVec 3) :
    (State.sendItem s q core a p).keeps bx := by
  unfold State.sendItem
  repeat first | with_reducible assumption | with_reducible apply State.await_kept | with_reducible apply State.schedule_kept | dsimp only

theorem execEnq_kept {s : State} (hs : s.keeps bx) (h : Guard) (q : BitVec 3) (a : Reg) (b : BSel) :
    Ends (execEnq h q a b s) (State.keeps bx) := by
  unfold execEnq
  repeat first
    | with_reducible assumption | with_reducible apply ends_next | with_reducible apply State.finish_kept | with_reducible apply State.trap_kept
    | with_reducible apply State.sendItem_kept | dsimp only | split

theorem execJpost_kept {s : State} (hs : s.keeps bx) (h : Guard) (q : BitVec 3) (a : Reg) (b : BSel) :
    Ends (execJpost h q a b s) (State.keeps bx) := by
  unfold execJpost
  repeat first
    | with_reducible assumption | with_reducible apply ends_next | with_reducible apply State.finish_kept | with_reducible apply State.trap_kept
    | with_reducible apply State.sendItem_kept | dsimp only | split

theorem State.appendItem_kept {s : State} (hs : s.keeps bx) (o r : Nat) (item : List Byte) (c : Nat) :
    (State.appendItem s o r item c).2.keeps bx := by
  unfold State.appendItem
  repeat first
    | with_reducible assumption | intro _ | with_reducible apply State.setOwner_kept | with_reducible apply State.serveRing_kept | dsimp only
    | split

theorem State.appendItem_kept2 {s : State} (hs : s.keeps bx) (o r : Nat) (item : List Byte) (c : Nat) {x' : Bool} {s' : State} (e : (State.appendItem s o r item c) = (x', s')) : s'.keeps bx := by
  have := State.appendItem_kept hs o r item c
  rwa [e] at this

theorem State.resume_kept {s : State} (hs : s.keeps bx) (gid : Nat) (f : Group → Group) :
    (State.resume s gid f).keeps bx := by
  unfold State.resume
  repeat first | with_reducible assumption | intro _ | with_reducible apply State.modGroup_kept | dsimp only | split

theorem execItemAppend_kept {s : State} (hs : s.keeps bx) (k : Nat) :
    Ends (execItemAppend k s) (State.keeps bx) := by
  unfold execItemAppend
  repeat first
    | with_reducible assumption | intro _ | with_reducible apply ends_next | with_reducible apply State.appendItem_kept
    | with_reducible refine State.appendItem_kept2 (e := by assumption) ?_ | with_reducible apply State.resume_kept | dsimp only | split

theorem execDeqDelivery_kept {s : State} (hs : s.keeps bx) (k : Nat) :
    Ends (execDeqDelivery k s) (State.keeps bx) := by
  unfold execDeqDelivery
  repeat first
    | with_reducible assumption | intro _ | with_reducible apply ends_next | with_reducible apply State.modOwner_kept
    | with_reducible apply State.serveRing_kept | with_reducible apply State.resume_kept | with_reducible apply State.dropL1_kept
    | with_reducible apply foldl_kept | dsimp only | split

theorem execDeqClosedIndication_kept {s : State} (hs : s.keeps bx) (k : Nat) :
    Ends (execDeqClosedIndication k s) (State.keeps bx) := by
  unfold execDeqClosedIndication
  repeat first | with_reducible assumption | intro _ | with_reducible apply ends_next | with_reducible apply State.resume_kept | dsimp only | split

theorem State.readLines_kept {s : State} (hs : s.keeps bx) (g : Group) (kind : WaitKind) (xs : List (Lane × Dword × Except Nat Hit)) :
    (State.readLines s g kind xs).keeps bx := by
  unfold State.readLines
  repeat first | with_reducible assumption | with_reducible apply State.trap_kept | with_reducible apply State.issueOp_kept | dsimp only | split

theorem execDisp_kept {s : State} (hs : s.keeps bx) (h : Guard) (d a : Reg) (b : BSel) :
    Ends (execDisp h d a b s) (State.keeps bx) := by
  unfold execDisp
  repeat first
    | with_reducible assumption | intro _ | with_reducible apply ends_next | with_reducible apply State.finish_kept
    | with_reducible apply State.fillWalks_kept | with_reducible apply State.trap_kept | with_reducible apply State.readLines_kept | dsimp only
    | split

theorem State.lineArrives_kept {s : State} (hs : s.keeps bx) (op : MemOp) (a : Acc) :
    (State.lineArrives s op a).keeps bx := by
  unfold State.lineArrives
  repeat first
    | with_reducible assumption | intro _ | with_reducible apply State.fillFor_kept | with_reducible apply State.modGroup_kept | dsimp only
    | split

theorem State.readBuckets_kept {s : State} (hs : s.keeps bx) (op : MemOp) (x : WaitOp) (n : Nat) :
    (State.readBuckets s op x n).keeps bx := by
  unfold State.readBuckets
  repeat first
    | with_reducible assumption | intro _ | with_reducible apply State.trapGroup_kept | with_reducible apply State.bumpOpen_kept
    | with_reducible apply State.setLeaves_kept | with_reducible apply State.modGroup_kept | with_reducible apply State.trySend_kept
    | with_reducible apply foldl_kept | with_reducible apply getD_kept | dsimp only | split

theorem execDispResult_kept {s : State} (hs : s.keeps bx) (k : Nat) :
    Ends (execDispResult k s) (State.keeps bx) := by
  unfold execDispResult
  repeat first
    | with_reducible assumption | intro _ | with_reducible apply ends_next | with_reducible exact ends_fault _
    | with_reducible apply State.lineArrives_kept | with_reducible apply State.accDone_kept | with_reducible apply State.resume_kept
    | with_reducible apply State.readBuckets_kept | with_reducible apply State.trapGroup_kept | with_reducible apply State.fillFor_kept
    | with_reducible apply foldl_kept | dsimp only | split

end Sys2Proof.Machine
end

