-- ==== Sys2Proof/Laws/KeptNetwork.lean ====
section
/-! SUPPORT. The operations of Machine/Network.lean keep what `State.keeps` says. -/

namespace Sys2Proof.Machine

variable {bx : Option (List BoxRec)}

theorem State.counterAccess_kept {s : State} (hs : s.keeps bx) (g : Group) (k : AccKind) (d : Reg) (o : Ord) (x : Scope) (n : Nat) (data : List Byte) :
    (State.counterAccess s g k d o x n data).keeps bx := by
  unfold State.counterAccess
  repeat first | with_reducible assumption | with_reducible apply State.issueOp_kept | dsimp only

theorem execNctrAdd_kept {s : State} (hs : s.keeps bx) (h : Guard) (o : Ord) (x : Scope) (a : Reg) (b : BSel) :
    Ends (execNctrAdd h o x a b s) (State.keeps bx) := by
  unfold execNctrAdd
  repeat first
    | with_reducible assumption | with_reducible apply ends_next | with_reducible apply State.finish_kept | with_reducible apply State.trap_kept
    | with_reducible apply State.counterAccess_kept | dsimp only | split

theorem execNctrRd_kept {s : State} (hs : s.keeps bx) (h : Guard) (d a : Reg) :
    Ends (execNctrRd h d a s) (State.keeps bx) := by
  unfold execNctrRd
  repeat first
    | with_reducible assumption | with_reducible apply ends_next | with_reducible apply State.finish_kept | with_reducible apply State.trap_kept
    | with_reducible apply State.counterAccess_kept | dsimp only | split

theorem execNctrWait_kept {s : State} (hs : s.keeps bx) (h : Guard) (a : Reg) (b : BSel) :
    Ends (execNctrWait h a b s) (State.keeps bx) := by
  unfold execNctrWait
  repeat first
    | with_reducible assumption | with_reducible apply ends_next | with_reducible apply State.finish_kept | with_reducible apply State.trap_kept
    | with_reducible apply State.await_kept | with_reducible apply State.schedule_kept | dsimp only | split

theorem execNctrWaitMet_kept {s : State} (hs : s.keeps bx) (k : Nat) :
    Ends (execNctrWaitMet k s) (State.keeps bx) := by
  unfold execNctrWaitMet
  repeat first
    | with_reducible assumption | with_reducible apply ends_next | with_reducible apply State.schedule_kept
    | with_reducible apply State.resume_kept | with_reducible apply State.dropL1_kept | dsimp only | split

theorem execNpost_kept {s : State} (hs : s.keeps bx) (h : Guard) (a : Reg) :
    Ends (execNpost h a s) (State.keeps bx) := by
  unfold execNpost
  repeat first
    | with_reducible assumption | with_reducible apply ends_next | with_reducible apply State.finish_kept
    | with_reducible apply State.fillWalks_kept | with_reducible apply State.trap_kept | with_reducible apply State.post_kept
    | with_reducible apply State.issueOp_kept | dsimp only | split

theorem State.recordNet_kept {s : State} (hs : s.keeps bx) (gid detail field : Nat) (pc : PcWord) (now : Nat) :
    (State.recordNet s gid detail field pc now).keeps bx := by
  unfold State.recordNet
  repeat first | with_reducible assumption | intro _ | with_reducible apply State.modGroup_kept | dsimp only | split

theorem State.armEntry_kept {s : State} (hs : s.keeps bx) (k : Nat) (e : NetOp) (b : List Byte) :
    (State.armEntry s k e b).keeps bx := by
  unfold State.armEntry
  repeat first | with_reducible assumption | with_reducible apply State.recordNet_kept | with_reducible apply State.fireNet_kept | dsimp only | split

theorem execEntryArm_kept {s : State} (hs : s.keeps bx) (k : Nat) :
    Ends (execEntryArm k s) (State.keeps bx) := by
  unfold execEntryArm
  repeat first
    | with_reducible assumption | with_reducible apply ends_next | with_reducible exact ends_fault _
    | with_reducible apply State.lineArrives_kept | with_reducible apply State.accDone_kept | with_reducible apply State.armEntry_kept
    | dsimp only | split

theorem State.netBlock_kept {s : State} (hs : s.keeps bx) (h : Guard) (a : Reg) (o : Ord) (x : Scope) (op : Nat) :
    (State.netBlock s h a o x op).keeps bx := by
  unfold State.netBlock
  repeat first
    | with_reducible assumption | intro _ | with_reducible apply State.finish_kept | with_reducible apply State.trap_kept
    | with_reducible apply State.post_kept | with_reducible apply State.modWg_kept | with_reducible apply State.tryFire_kept | dsimp only
    | split

theorem execNput_kept {s : State} (hs : s.keeps bx) (h : Guard) (a : Reg) (o : Ord) (x : Scope) :
    Ends (execNput h a o x s) (State.keeps bx) := by
  unfold execNput
  repeat first | with_reducible assumption | with_reducible apply ends_next | with_reducible apply State.netBlock_kept | dsimp only

theorem execNget_kept {s : State} (hs : s.keeps bx) (h : Guard) (a : Reg) (o : Ord) (x : Scope) :
    Ends (execNget h a o x s) (State.keeps bx) := by
  unfold execNget
  repeat first | with_reducible assumption | with_reducible apply ends_next | with_reducible apply State.netBlock_kept | dsimp only

theorem State.netPut_kept {s : State} (hs : s.keeps bx) (own : Option (Nat × NetOp)) (k : AccKind) (va : Nat) (pa : Nat) (bs : List Byte) (perform : State → State) (hperform : ∀ x0, x0.keeps bx → (perform x0).keeps bx) :
    (State.netPut s own k va pa bs perform).keeps bx := by
  unfold State.netPut
  repeat first
    | with_reducible assumption | intro _ | with_reducible apply hperform | with_reducible apply State.modWg_kept
    | with_reducible apply getD_kept | dsimp only | split

theorem State.putSector_kept {s : State} (hs : s.keeps bx) (own : Option (Nat × NetOp)) (o va pa : Nat) (bs : List Byte) :
    (State.putSector s own o va pa bs).keeps bx := by
  unfold State.putSector
  repeat first
    | with_reducible assumption | intro _ | with_reducible apply State.netPut_kept | with_reducible apply State.putMem_kept
    | with_reducible apply State.fillL2_kept | with_reducible apply foldl_kept | with_reducible apply foldl_kept_snd
    | with_reducible apply foldl_kept_fst | dsimp only

theorem State.netWrite_kept {s : State} (hs : s.keeps bx) (own : Option (Nat × NetOp)) (o a : Nat) (bs : List Byte) :
    (State.netWrite s own o a bs).2.keeps bx := by
  unfold State.netWrite
  repeat first
    | with_reducible assumption | intro _ | with_reducible apply State.setLeaf_kept | with_reducible apply State.putSector_kept
    | with_reducible apply foldl_kept | with_reducible apply foldl_kept_snd | with_reducible apply foldl_kept_fst | dsimp only | split

theorem State.netWrite_kept2 {s : State} (hs : s.keeps bx) (own : Option (Nat × NetOp)) (o a : Nat) (bs : List Byte) {x' : Option NetStop} {s' : State} (e : (State.netWrite s own o a bs) = (x', s')) : s'.keeps bx := by
  have := State.netWrite_kept hs own o a bs
  rwa [e] at this

theorem State.netBring_kept {s : State} (hs : s.keeps bx) (own : Option (Nat × NetOp)) (o a : Nat) (dest : List Nat) (bs : List Byte) :
    (State.netBring s own o a dest bs).keeps bx := by
  unfold State.netBring
  repeat first
    | with_reducible assumption | intro _ | with_reducible apply State.putSector_kept | with_reducible apply foldl_kept
    | with_reducible apply foldl_kept_snd | with_reducible apply foldl_kept_fst | dsimp only

theorem State.netElement_kept {s : State} (hs : s.keeps bx) (own : Option (Nat × NetOp)) (o a : Nat) (k : AccKind) (op : AtomOp) (x : List Byte) {x' : List Byte} {t' : State} (e : (State.netElement s own o a k op x) = .ok (x', t')) :
    t'.keeps bx := by
  unfold State.netElement at e
  revert e
  repeat' first | dsimp only | split | (intro e; cases e)
  all_goals
    repeat first
      | with_reducible assumption | intro _ | with_reducible apply State.setLeaf_kept | with_reducible apply State.netPut_kept
      | with_reducible apply State.putMem_kept | with_reducible apply State.fillL2_kept | dsimp only | split

theorem State.netCombine_kept {s : State} (hs : s.keeps bx) (own : Option (Nat × NetOp)) (o a : Nat) (op : AtomOp) (data : List Byte) :
    (State.netCombine s own o a op data).2.keeps bx := by
  unfold State.netCombine
  repeat first
    | with_reducible assumption | intro _ | with_reducible refine State.netElement_kept (e := by assumption) ?_
    | with_reducible apply foldl_kept | with_reducible apply foldl_kept_snd | with_reducible apply foldl_kept_fst | dsimp only | split

theorem State.netCombine_kept2 {s : State} (hs : s.keeps bx) (own : Option (Nat × NetOp)) (o a : Nat) (op : AtomOp) (data : List Byte) {x' : Option NetStop} {s' : State} (e : (State.netCombine s own o a op data) = (x', s')) : s'.keeps bx := by
  have := State.netCombine_kept hs own o a op data
  rwa [e] at this

theorem State.netDrop_kept {s : State} (hs : s.keeps bx) (k : Nat) :
    (State.netDrop s k).keeps bx := by
  unfold State.netDrop
  repeat first | with_reducible assumption | intro _ | with_reducible apply State.modWg_kept | dsimp only | split

theorem State.netPerformed_kept {s : State} (hs : s.keeps bx) (m : NetMsg) :
    (State.netPerformed s m).keeps bx := by
  unfold State.netPerformed
  repeat first
    | with_reducible assumption | with_reducible apply State.setCounter_kept | with_reducible apply State.netDrop_kept
    | with_reducible apply State.schedule_kept | dsimp only | split

theorem State.netChunk_kept {s : State} (hs : s.keeps bx) (m : NetMsg) (back : List Byte) :
    (State.netChunk s m back).keeps bx := by
  unfold State.netChunk
  repeat first
    | with_reducible assumption | intro _ | with_reducible apply State.netPerformed_kept | with_reducible apply State.portSend_kept | dsimp only
    | split

theorem State.netFailed_kept {s : State} (hs : s.keeps bx) (m : NetMsg) (x : NetStop) :
    (State.netFailed s m x).keeps bx := by
  unfold State.netFailed
  repeat first | with_reducible assumption | intro _ | with_reducible apply State.soon_kept | dsimp only | split

theorem State.netEnds_kept {s : State} (hs : s.keeps bx) (m : NetMsg) (stop : Option NetStop) (back : List Byte) :
    (State.netEnds s m stop back).keeps bx := by
  unfold State.netEnds
  repeat first | with_reducible assumption | with_reducible apply State.netChunk_kept | with_reducible apply State.netFailed_kept | dsimp only | split

theorem State.netAnswer_kept {s : State} (hs : s.keeps bx) (m : NetMsg) :
    (State.netAnswer s m).keeps bx := by
  unfold State.netAnswer
  repeat first | with_reducible assumption | with_reducible apply State.schedule_kept | dsimp only | split

theorem State.netArrives_kept {s : State} (hs : s.keeps bx) (m : NetMsg) :
    (State.netArrives s m).keeps bx := by
  unfold State.netArrives
  repeat first
    | with_reducible assumption | intro _ | with_reducible apply State.netWrite_kept
    | with_reducible refine State.netWrite_kept2 (e := by assumption) ?_ | with_reducible apply State.netEnds_kept
    | with_reducible apply State.netRead_kept | with_reducible refine State.netRead_kept2 (e := by assumption) ?_
    | with_reducible refine State.netElement_kept (e := by assumption) ?_ | with_reducible apply State.netFailed_kept
    | with_reducible apply State.netChunk_kept | with_reducible apply State.netCombine_kept
    | with_reducible refine State.netCombine_kept2 (e := by assumption) ?_ | with_reducible apply State.netAnswer_kept
    | with_reducible apply State.soon_kept | dsimp only | split

theorem execMessageArrival_kept {s : State} (hs : s.keeps bx) (m : NetMsg) :
    Ends (execMessageArrival m s) (State.keeps bx) := by
  unfold execMessageArrival
  repeat first
    | with_reducible assumption | with_reducible apply ends_next | with_reducible apply State.netArrives_kept
    | with_reducible apply State.schedule_kept | dsimp only | split

theorem State.netEnd_kept {s : State} (hs : s.keeps bx) (k : Nat) (e : NetOp) :
    (State.netEnd s k e).keeps bx := by
  unfold State.netEnd
  repeat first
    | with_reducible assumption | intro _ | with_reducible apply State.netDrop_kept | with_reducible apply State.post_kept
    | with_reducible apply State.modGroup_kept | dsimp only | split

theorem execLocalCompletion_kept {s : State} (hs : s.keeps bx) (k : Nat) :
    Ends (execLocalCompletion k s) (State.keeps bx) := by
  unfold execLocalCompletion
  repeat first
    | with_reducible assumption | with_reducible apply ends_next | with_reducible apply State.netBring_kept
    | with_reducible apply State.netEnd_kept | with_reducible apply State.setCounter_kept | dsimp only | split

theorem State.recordEgress_kept {s : State} (hs : s.keeps bx) (e : NetOp) (mark va : Nat) :
    (State.recordEgress s e mark va).keeps bx := by
  unfold State.recordEgress
  repeat first | with_reducible assumption | intro _ | with_reducible apply State.modGroup_kept | dsimp only | split

theorem execNetworkOperationFault_kept {s : State} (hs : s.keeps bx) (k : Nat) :
    Ends (execNetworkOperationFault k s) (State.keeps bx) := by
  unfold execNetworkOperationFault
  repeat first
    | with_reducible assumption | with_reducible apply ends_next | with_reducible apply State.netEnd_kept | with_reducible apply State.post_kept
    | with_reducible apply State.recordEgress_kept | with_reducible apply State.recordNet_kept | dsimp only | split

theorem State.trapWaiting_kept {s : State} (hs : s.keeps bx) (k : Nat) (x : WaitOp) (t : Trap) :
    (State.trapWaiting s k x t).keeps bx := by
  unfold State.trapWaiting
  repeat first
    | with_reducible assumption | intro _ | with_reducible apply State.modGroup_kept | with_reducible apply State.trapGroup_kept | dsimp only
    | split

theorem State.treeComplete_kept {s : State} (hs : s.keeps bx) (l : Nat) (ps : List (Nat × Nat × WaitOp)) :
    (State.treeComplete s l ps).keeps bx := by
  unfold State.treeComplete
  repeat first
    | with_reducible assumption | intro _ | with_reducible apply State.arm_kept | with_reducible apply State.schedule_kept
    | with_reducible apply foldl_kept | with_reducible apply foldl_kept_snd | with_reducible apply foldl_kept_fst
    | with_reducible apply getD_kept | dsimp only | split

theorem State.treeTry_kept {s : State} (hs : s.keeps bx) (l n : Nat) :
    (State.treeTry s l n).keeps bx := by
  unfold State.treeTry
  repeat first
    | with_reducible assumption | intro _ | with_reducible apply State.trapWaiting_kept | with_reducible apply State.treeComplete_kept
    | with_reducible apply foldl_kept | with_reducible apply foldl_kept_snd | with_reducible apply foldl_kept_fst
    | with_reducible apply getD_kept | dsimp only | split

theorem State.treeIssue_kept {s : State} (hs : s.keeps bx) (kind : Nat → WaitKind) (hold : List Await) :
    (State.treeIssue s kind hold).keeps bx := by
  unfold State.treeIssue
  repeat first
    | with_reducible assumption | with_reducible apply State.trap_kept | with_reducible apply State.await_kept
    | with_reducible apply State.treeTry_kept | with_reducible apply State.tryArrive_kept | dsimp only | split

theorem execTreeRed_kept {s : State} (hs : s.keeps bx) (h : Guard) (d a : Reg) (c : BitVec 3) (f : GFn) :
    Ends (execTreeRed h d a c f s) (State.keeps bx) := by
  unfold execTreeRed
  repeat first
    | with_reducible assumption | intro _ | with_reducible apply ends_next | with_reducible apply State.finish_kept
    | with_reducible apply State.treeIssue_kept | dsimp only | split

theorem execTreeBar_kept {s : State} (hs : s.keeps bx) (h : Guard) :
    Ends (execTreeBar h s) (State.keeps bx) := by
  unfold execTreeBar
  repeat first
    | with_reducible assumption | intro _ | with_reducible apply ends_next
    | with_reducible refine State.barrierTrap_kept (e := by assumption) ?_ | with_reducible apply State.finish_kept
    | with_reducible apply State.treeIssue_kept | dsimp only | split

theorem execTreeRedComplete_kept {s : State} (hs : s.keeps bx) (k : Nat) :
    Ends (execTreeRedComplete k s) (State.keeps bx) := by
  unfold execTreeRedComplete
  repeat first | with_reducible assumption | intro _ | with_reducible apply ends_next | with_reducible apply State.resume_kept | dsimp only | split

theorem execTreeBarComplete_kept {s : State} (hs : s.keeps bx) (k : Nat) :
    Ends (execTreeBarComplete k s) (State.keeps bx) := by
  unfold execTreeBarComplete
  repeat first
    | with_reducible assumption | with_reducible apply ends_next | with_reducible apply State.treeTry_kept
    | with_reducible apply State.resume_kept | with_reducible apply State.dropL1_kept | dsimp only | split

end Sys2Proof.Machine
end

