-- ==== Sys2Proof/Laws/KeptSystem.lean ====
section
/-! SUPPORT. The operations of Machine/System.lean keep what `State.keeps` says. -/

namespace Sys2Proof.Machine

variable {bx : Option (List BoxRec)}

theorem execSets_kept {s : State} (hs : s.keeps bx) (h : Guard) (r : SReg) (b : BSel) :
    Ends (execSets h r b s) (State.keeps bx) := by
  unfold execSets
  repeat first
    | with_reducible assumption | with_reducible apply ends_next | with_reducible apply State.trap_kept | with_reducible apply State.finish_kept
    | with_reducible apply getD_kept | dsimp only | split

theorem execTrap_kept {s : State} (hs : s.keeps bx) (u : Bool) (h : Guard) (b : BSel) :
    Ends (execTrap u h b s) (State.keeps bx) := by
  unfold execTrap
  repeat first
    | with_reducible assumption | with_reducible apply ends_next | with_reducible apply State.trap_kept | with_reducible apply State.finish_kept
    | dsimp only | split

theorem execRte_kept {s : State} (hs : s.keeps bx) (h : Guard) :
    Ends (execRte h s) (State.keeps bx) := by
  unfold execRte
  repeat first
    | with_reducible assumption | with_reducible apply ends_next | with_reducible apply State.trap_kept
    | with_reducible apply State.returnFromTrap_kept | with_reducible apply State.finish_kept | with_reducible apply getD_kept | dsimp only
    | split

theorem execHalt_kept {s : State} (hs : s.keeps bx) (h : Guard) (b : BSel) :
    Ends (execHalt h b s) (State.keeps bx) := by
  unfold execHalt
  repeat first
    | with_reducible assumption | intro _ | with_reducible apply ends_next | with_reducible apply State.finish_kept
    | with_reducible apply State.modLaunch_kept | with_reducible apply State.endGroup_kept | with_reducible apply State.tellDependants_kept
    | with_reducible apply State.schedule_kept | with_reducible apply foldl_kept | dsimp only | split

theorem execHaltPropagate_kept {s : State} (hs : s.keeps bx) (l : Nat) :
    Ends (execHaltPropagate l s) (State.keeps bx) := by
  unfold execHaltPropagate
  repeat first
    | with_reducible assumption | intro _ | with_reducible apply ends_next | with_reducible apply State.endGroup_kept
    | with_reducible apply State.soon_kept | with_reducible apply foldl_kept | with_reducible apply foldl_kept_snd
    | with_reducible apply foldl_kept_fst | dsimp only | split

theorem execRand_kept {s : State} (hs : s.keeps bx) (h : Guard) (d : Reg) :
    Ends (execRand h d s) (State.keeps bx) := by
  unfold execRand
  repeat first
    | with_reducible assumption | intro _ | with_reducible apply ends_next | with_reducible apply State.finish_kept
    | with_reducible apply getD_kept | dsimp only | split

theorem execRandSeed_kept {s : State} (hs : s.keeps bx) (h : Guard) (a : Reg) :
    Ends (execRandSeed h a s) (State.keeps bx) := by
  unfold execRandSeed
  repeat first | with_reducible assumption | with_reducible apply ends_next | with_reducible apply State.finish_kept | dsimp only | split

end Sys2Proof.Machine
end

