-- ==== Sys2Proof/Laws/KeptSave.lean ====
section
/-! SUPPORT. The operations of Machine/Save.lean keep what `State.keeps` says. -/

namespace Sys2Proof.Machine

variable {bx : Option (List BoxRec)}

theorem goOn_kept {r : Res} {s : State} (hs : s.keeps bx) (hr : Ends r (State.keeps bx)) : (goOn r s).keeps bx := by
  cases r with
  | next t => exact hr
  | fault x => exact hs
  | refused x => exact hs

theorem State.backOut_kept {s : State} (hs : s.keeps bx) (gid : Nat) (f : Group → Group) :
    (State.backOut s gid f).keeps bx := by
  unfold State.backOut
  repeat first | with_reducible assumption | intro _ | with_reducible apply State.modGroup_kept | dsimp only | split

theorem State.withdraw_kept {s : State} (hs : s.keeps bx) (pairs : Bool) (k : Nat) (x : WaitOp) :
    (State.withdraw s pairs k x).keeps bx := by
  unfold State.withdraw
  repeat first
    | with_reducible assumption | intro _ | with_reducible apply State.withdrawDeq_kept | with_reducible apply State.backOut_kept | dsimp only
    | split

theorem State.withdrawAll_kept {s : State} (hs : s.keeps bx) (pairs : Bool) (f : Group → Bool) :
    (State.withdrawAll s pairs f).keeps bx := by
  unfold State.withdrawAll
  repeat first
    | with_reducible assumption | intro _ | with_reducible apply State.withdraw_kept | with_reducible apply foldl_kept
    | with_reducible apply foldl_kept_snd | with_reducible apply foldl_kept_fst | dsimp only | split

theorem State.settleAcc_kept {s : State} (hs : s.keeps bx) (k t : Nat) :
    (State.settleAcc s k t).keeps bx := by
  unfold State.settleAcc
  repeat first
    | with_reducible assumption | intro _ | with_reducible apply State.enterBuffer_kept | with_reducible apply State.capture_kept
    | with_reducible apply State.takeEffect_kept | with_reducible apply getD_kept | dsimp only | split

theorem State.settleHeld_kept {s : State} (hs : s.keeps bx) (regs : Bool) (ids : List Nat) (n : Nat) : (s.settleHeld regs ids n).keeps bx := by
  induction n generalizing s with
  | zero => exact hs
  | succ n ih =>
    unfold State.settleHeld
    apply ih
    repeat first
      | with_reducible assumption
      | intro _
      | with_reducible apply State.settleAcc_kept
      | with_reducible apply foldl_kept
      | dsimp only
      | split

theorem State.settleOps_kept {s : State} (hs : s.keeps bx) (regs : Bool) (ids : List Nat) :
    (State.settleOps s regs ids).keeps bx := by
  unfold State.settleOps
  repeat first
    | with_reducible assumption | intro _ | with_reducible apply State.settleAcc_kept | with_reducible apply State.settleHeld_kept
    | with_reducible apply foldl_kept | with_reducible apply foldl_kept_snd | with_reducible apply foldl_kept_fst | dsimp only

theorem State.forceDisp_kept {s : State} (hs : s.keeps bx) (k : Nat) (x : WaitOp) (d : Reg) (shape : List Word) (bad : Bool) :
    (State.forceDisp s k x d shape bad).keeps bx := by
  unfold State.forceDisp
  repeat first
    | with_reducible assumption | intro _ | with_reducible apply State.modGroup_kept | with_reducible apply State.resume_kept
    | with_reducible apply State.trapGroup_kept | with_reducible apply foldl_kept | with_reducible apply getD_kept | dsimp only | split

theorem State.forceWait_kept {s : State} (hs : s.keeps bx) (k : Nat) (x : WaitOp) :
    (State.forceWait s k x).keeps bx := by
  unfold State.forceWait
  repeat first
    | with_reducible assumption | intro _ | with_reducible apply State.modGroup_kept | with_reducible apply State.appendItem_kept
    | with_reducible refine State.appendItem_kept2 (e := by assumption) ?_ | with_reducible apply State.resume_kept
    | with_reducible apply State.forceDisp_kept | with_reducible apply goOn_kept | with_reducible apply execXchgComplete_kept
    | with_reducible apply execTreeBarComplete_kept | with_reducible apply execTreeRedComplete_kept | with_reducible apply getD_kept
    | dsimp only | split

theorem State.drainLane_kept {s : State} (hs : s.keeps bx) (o core lane : Nat) :
    (State.drainLane s o core lane).keeps bx := by
  unfold State.drainLane
  repeat first
    | with_reducible assumption | intro _ | with_reducible apply goOn_kept | with_reducible apply execMatrixPassResult_kept
    | with_reducible apply State.drainPass_kept | with_reducible apply foldl_kept | with_reducible apply foldl_kept_snd
    | with_reducible apply foldl_kept_fst | dsimp only | split

theorem State.drainGroup_kept {s : State} (hs : s.keeps bx) (gid : Nat) :
    (State.drainGroup s gid).keeps bx := by
  unfold State.drainGroup
  repeat first | with_reducible assumption | intro _ | with_reducible apply State.drainLane_kept | dsimp only | split

theorem State.settleGroup_kept {s : State} (hs : s.keeps bx) (gid : Nat) :
    (State.settleGroup s gid).keeps bx := by
  unfold State.settleGroup
  repeat first
    | with_reducible assumption | intro _ | with_reducible apply State.settleOps_kept | with_reducible apply State.withdraw_kept
    | with_reducible apply foldl_kept | with_reducible apply foldl_kept_snd | with_reducible apply foldl_kept_fst | dsimp only | split

theorem State.closeGroup_kept {s : State} (hs : s.keeps bx) (gid : Nat) :
    (State.closeGroup s gid).keeps bx := by
  unfold State.closeGroup
  repeat first
    | with_reducible assumption | intro _ | with_reducible apply State.settleGroup_kept | with_reducible apply State.settleOps_kept
    | with_reducible apply State.forceWait_kept | with_reducible apply State.drainGroup_kept | with_reducible apply foldl_kept
    | with_reducible apply foldl_kept_snd | with_reducible apply foldl_kept_fst | dsimp only | split

end Sys2Proof.Machine
end

