-- ==== Sys2Proof/Laws/KeptLaunch.lean ====
section
/-! SUPPORT. The operations of Machine/Launch.lean keep what `State.keeps` says. -/

namespace Sys2Proof.Machine

variable {bx : Option (List BoxRec)}

theorem State.enterEvent_kept {s : State} (hs : s.keeps bx) (o source : Nat) :
    (State.enterEvent s o source).keeps bx := by
  unfold State.enterEvent
  repeat first | with_reducible assumption | with_reducible apply State.setOwner_kept | dsimp only | split

theorem State.flushEvents_kept {s : State} (hs : s.keeps bx) (o : Nat) :
    (State.flushEvents s o).keeps bx := by
  unfold State.flushEvents
  repeat first | with_reducible assumption | intro _ | with_reducible apply State.enterEvent_kept | with_reducible apply foldl_kept | dsimp only

theorem execEventWrite_kept {s : State} (hs : s.keeps bx) (o c : Nat) :
    Ends (execEventWrite o c s) (State.keeps bx) := by
  unfold execEventWrite
  repeat first | with_reducible assumption | with_reducible apply ends_next | with_reducible apply State.enterEvent_kept | dsimp only

theorem State.putEntry_kept {s : State} (hs : s.keeps bx) (o a e : Nat) :
    (State.putEntry s o a e).keeps bx := by
  unfold State.putEntry
  repeat first | with_reducible assumption | with_reducible apply State.putMem_kept | dsimp only

theorem State.putPage_kept {s : State} (hs : s.keeps bx) (o pa : Nat) (bs : List Byte) :
    (State.putPage s o pa bs).keeps bx := by
  unfold State.putPage
  repeat first
    | with_reducible assumption | intro _ | with_reducible apply State.putMem_kept | with_reducible apply foldl_kept
    | with_reducible apply foldl_kept_snd | with_reducible apply foldl_kept_fst | dsimp only

theorem State.takeFrame_kept {s : State} (hs : s.keeps bx) (o f : Nat) :
    (State.takeFrame s o f).keeps bx := by
  unfold State.takeFrame
  repeat first | with_reducible assumption | dsimp only

theorem State.tablesFor_kept {s : State} (hs : s.keeps bx) {r : PartRec} {va n addr : Nat} {fs : List Nat} {a : Nat} {fs' : List Nat} {t : State}
    (e : s.tablesFor r va n addr fs = some (a, fs', t)) : t.keeps bx := by
  induction n generalizing s addr fs with
  | zero => cases e
  | succ n ih =>
    cases n with
    | zero => cases e; exact hs
    | succ n =>
      simp only [State.tablesFor] at e
      split at e
      · split at e
        · cases e
        · exact ih hs e
      · split at e
        · cases e
        · split at e
          · cases e
          · exact ih (State.putEntry_kept (State.putPage_kept (State.takeFrame_kept hs _ _) _ _ _) _ _ _) e

theorem State.fillPage_kept {s : State} (hs : s.keeps bx) (r : PartRec) (secs : List (Nat × List Byte)) (va f : Nat) :
    (State.fillPage s r secs va f).keeps bx :=
  foldl_kept _ secs hs (fun _ _ h => State.putPage_kept h _ _ _)

theorem State.carrySector_kept {s : State} (hs : s.keeps bx) (a b : Nat) :
    (State.carrySector s a b).keeps bx := by
  unfold State.carrySector
  repeat first | with_reducible assumption | dsimp only | split

theorem State.carryPage_kept {s : State} (hs : s.keeps bx) (a b : Nat → Nat) :
    (State.carryPage s a b).keeps bx := by
  unfold State.carryPage
  split
  · exact hs
  · generalize List.range 2048 = js
    exact foldl_kept _ js hs (fun _ _ h => State.carrySector_kept h _ _)

theorem State.leaveFrame_kept {s : State} (hs : s.keeps bx) (o k : Nat) (a : Nat → Nat) (old : List Byte) :
    (State.leaveFrame s o k a old).keeps bx := by
  unfold State.leaveFrame
  generalize List.range 65536 = is
  split
  · exact State.putPage_kept hs _ _ _
  · exact hs

theorem State.keeps_frames {s : State} (hs : s.keeps bx) (f : FMap Nat) : State.keeps bx { s with frames := f } := hs

theorem State.movePage_kept {s : State} (hs : s.keeps bx) (r : PartRec) (k f : Nat) :
    (State.movePage s r k f).keeps bx := by
  unfold State.movePage
  generalize List.range 65536 = is
  exact State.keeps_frames (State.leaveFrame_kept (State.carryPage_kept (State.putPage_kept hs _ _ _) _ _) _ _ _ _) _

theorem State.residePage_kept {s : State} (hs : s.keeps bx) (r : PartRec) (lid : Nat) (l : Lease) (i : Nat) (fs : List Nat) {x' : List Nat} {t' : State} (e : (State.residePage s r lid l i fs) = some (x', t')) :
    t'.keeps bx := by
  unfold State.residePage at e
  revert e
  repeat' first | dsimp only | split | (intro e; cases e)
  all_goals
    repeat first
      | with_reducible assumption | intro _ | with_reducible refine State.tablesFor_kept (e := by assumption) ?_
      | with_reducible apply State.putEntry_kept | with_reducible apply State.modOwner_kept | with_reducible apply State.takeFrame_kept
      | with_reducible apply State.fillPage_kept | with_reducible apply State.movePage_kept | dsimp only | split

theorem State.resideAll_kept {s : State} (hs : s.keeps bx) {r : PartRec} {lid : Nat} {l : Lease} {n i : Nat} {fs : List Nat} {t : State}
    (e : s.resideAll r lid l n i fs = some t) : t.keeps bx := by
  induction n generalizing s i fs with
  | zero => cases e; exact hs
  | succ n ih =>
    simp only [State.resideAll] at e
    split at e
    · cases e
    · rename_i h
      exact ih (State.residePage_kept hs _ _ _ _ _ h) e

theorem State.loadTlb_kept {s : State} (hs : s.keeps bx) (o c va : Nat) :
    (State.loadTlb s o c va).keeps bx := by
  unfold State.loadTlb
  repeat first | with_reducible assumption | intro _ | dsimp only | split

theorem State.loadLease_kept {s : State} (hs : s.keeps bx) (r : PartRec) (l : Lease) :
    (State.loadLease s r l).keeps bx := by
  unfold State.loadLease
  repeat first | with_reducible assumption | intro _ | with_reducible apply State.loadTlb_kept | with_reducible apply foldl_kept | dsimp only

theorem State.releasePage_kept {s : State} (hs : s.keeps bx) (r : PartRec) (va : Nat) :
    (State.releasePage s r va).keeps bx := by
  unfold State.releasePage
  repeat first
    | with_reducible assumption | intro _ | with_reducible refine State.tablesFor_kept (e := by assumption) ?_
    | with_reducible apply State.putEntry_kept | with_reducible apply State.modOwner_kept | dsimp only | split

theorem State.releaseLeases_kept {s : State} (hs : s.keeps bx) (lid : Nat) :
    (State.releaseLeases s lid).keeps bx := by
  unfold State.releaseLeases
  repeat first
    | with_reducible assumption | intro _ | with_reducible apply State.releasePage_kept | with_reducible apply State.modLaunch_kept
    | with_reducible apply foldl_kept | dsimp only | split

theorem State.consume_kept {s : State} (hs : s.keeps bx) (o q status : Nat) :
    (State.consume s o q status).keeps bx := by
  unfold State.consume
  repeat first | with_reducible assumption | intro _ | with_reducible apply State.modOwner_kept | dsimp only | split

theorem State.reply415_kept {s : State} (hs : s.keeps bx) (o q : Nat) (tag : Word) (status : Nat) :
    (State.reply415 s o q tag status).keeps bx := by
  unfold State.reply415
  repeat first | with_reducible assumption | with_reducible apply State.consume_kept | with_reducible apply State.post_kept | dsimp only

theorem State.withCommand_kept {s : State} (hs : s.keeps bx) (o q op : Nat) (f : List Byte → State) (hf : ∀ x0, (f x0).keeps bx) :
    (State.withCommand s o q op f).keeps bx := by
  unfold State.withCommand
  repeat first | with_reducible assumption | intro _ | with_reducible apply hf | with_reducible apply State.reply415_kept | dsimp only | split

theorem State.refuse_kept {s : State} (hs : s.keeps bx) (lid status : Nat) :
    (State.refuse s lid status).keeps bx := by
  unfold State.refuse
  repeat first
    | with_reducible assumption | intro _ | with_reducible apply State.releaseLeases_kept | with_reducible apply State.modOwner_kept
    | with_reducible apply State.post_kept | with_reducible apply State.tellDependants_kept | dsimp only

theorem State.declare_kept {s : State} (hs : s.keeps bx) (lid : Nat) :
    (State.declare s lid).keeps bx := by
  unfold State.declare
  repeat first
    | with_reducible assumption | intro _ | with_reducible apply State.refuse_kept | with_reducible apply State.modOwner_kept
    | with_reducible apply State.modLaunch_kept | with_reducible apply State.post_kept | with_reducible apply State.soon_kept
    | with_reducible apply foldl_kept | with_reducible apply foldl_kept_snd | with_reducible apply foldl_kept_fst | dsimp only | split

theorem State.launchCommand_kept {s : State} (hs : s.keeps bx) (o q : Nat) :
    (State.launchCommand s o q).keeps bx := by
  unfold State.launchCommand
  repeat first
    | with_reducible assumption | intro _ | with_reducible apply State.withCommand_kept | with_reducible apply State.reply415_kept
    | with_reducible apply State.modOwner_kept | with_reducible apply State.consume_kept | with_reducible apply State.declare_kept
    | with_reducible apply State.soon_kept | dsimp only | split

theorem execLaunch_kept {s : State} (hs : s.keeps bx) (o q : Nat) :
    Ends (execLaunch o q s) (State.keeps bx) := by
  unfold execLaunch
  repeat first | with_reducible assumption | with_reducible apply ends_next | with_reducible apply State.launchCommand_kept | dsimp only

theorem execLeaseResident_kept {s : State} (hs : s.keeps bx) (l i : Nat) (f : List Nat) :
    Ends (execLeaseResident l i f s) (State.keeps bx) := by
  unfold execLeaseResident
  repeat first
    | with_reducible assumption | intro _ | with_reducible apply ends_next | with_reducible refine State.resideAll_kept (e := by assumption) ?_
    | with_reducible apply State.refuse_kept | with_reducible apply State.modLaunch_kept | with_reducible apply State.loadLease_kept
    | with_reducible apply State.declare_kept | dsimp only | split

theorem execResidencyConfirm_kept {s : State} (hs : s.keeps bx) (l : Nat) :
    Ends (execResidencyConfirm l s) (State.keeps bx) := by
  unfold execResidencyConfirm
  repeat first | with_reducible assumption | intro _ | with_reducible apply ends_next | with_reducible apply State.modLaunch_kept | dsimp only | split

theorem State.enqCommand_kept {s : State} (hs : s.keeps bx) (o q : Nat) :
    (State.enqCommand s o q).keeps bx := by
  unfold State.enqCommand
  repeat first
    | with_reducible assumption | intro _ | with_reducible apply State.withCommand_kept | with_reducible apply State.reply415_kept
    | with_reducible apply State.appendItem_kept | with_reducible refine State.appendItem_kept2 (e := by assumption) ?_ | dsimp only | split

theorem execEnqCommand_kept {s : State} (hs : s.keeps bx) (o q : Nat) :
    Ends (execEnqCommand o q s) (State.keeps bx) := by
  unfold execEnqCommand
  repeat first | with_reducible assumption | with_reducible apply ends_next | with_reducible apply State.enqCommand_kept | dsimp only

theorem State.queueCommand_kept {s : State} (hs : s.keeps bx) (o q op : Nat) (f : Nat → State) (hf : ∀ x0, (f x0).keeps bx) :
    (State.queueCommand s o q op f).keeps bx := by
  unfold State.queueCommand
  repeat first
    | with_reducible assumption | intro _ | with_reducible apply hf | with_reducible apply State.withCommand_kept
    | with_reducible apply State.reply415_kept | dsimp only | split

theorem State.qcloseCommand_kept {s : State} (hs : s.keeps bx) (o q : Nat) :
    (State.qcloseCommand s o q).keeps bx := by
  unfold State.qcloseCommand
  repeat first
    | with_reducible assumption | intro _ | with_reducible apply State.queueCommand_kept | with_reducible apply State.modOwner_kept
    | with_reducible apply State.serveRing_kept | with_reducible apply State.reply415_kept | with_reducible apply foldl_kept | dsimp only
    | split

theorem execQclose_kept {s : State} (hs : s.keeps bx) (o q : Nat) :
    Ends (execQclose o q s) (State.keeps bx) := by
  unfold execQclose
  repeat first | with_reducible assumption | with_reducible apply ends_next | with_reducible apply State.qcloseCommand_kept | dsimp only

theorem State.qdeleteCommand_kept {s : State} (hs : s.keeps bx) (o q : Nat) :
    (State.qdeleteCommand s o q).keeps bx := by
  unfold State.qdeleteCommand
  repeat first
    | with_reducible assumption | intro _ | with_reducible apply State.queueCommand_kept | with_reducible apply State.reply415_kept
    | with_reducible apply State.modOwner_kept | dsimp only | split

theorem execQdelete_kept {s : State} (hs : s.keeps bx) (o q : Nat) :
    Ends (execQdelete o q s) (State.keeps bx) := by
  unfold execQdelete
  repeat first | with_reducible assumption | with_reducible apply ends_next | with_reducible apply State.qdeleteCommand_kept | dsimp only

theorem State.cancelCommand_kept {s : State} (hs : s.keeps bx) (o q : Nat) :
    (State.cancelCommand s o q).keeps bx := by
  unfold State.cancelCommand
  repeat first
    | with_reducible assumption | intro _ | with_reducible apply State.withCommand_kept | with_reducible apply State.reply415_kept
    | with_reducible apply State.post_kept | dsimp only | split

theorem execCancel_kept {s : State} (hs : s.keeps bx) (o q : Nat) :
    Ends (execCancel o q s) (State.keeps bx) := by
  unfold execCancel
  repeat first | with_reducible assumption | with_reducible apply ends_next | with_reducible apply State.cancelCommand_kept | dsimp only

theorem State.resyncCommand_kept {s : State} (hs : s.keeps bx) (o q : Nat) :
    (State.resyncCommand s o q).keeps bx := by
  unfold State.resyncCommand
  repeat first
    | with_reducible assumption | intro _ | with_reducible apply State.withCommand_kept | with_reducible apply State.reply415_kept
    | with_reducible apply State.post_kept | dsimp only | split

theorem execResync_kept {s : State} (hs : s.keeps bx) (o q : Nat) :
    Ends (execResync o q s) (State.keeps bx) := by
  unfold execResync
  repeat first | with_reducible assumption | with_reducible apply ends_next | with_reducible apply State.resyncCommand_kept | dsimp only

theorem State.takeCommand_kept {s : State} (hs : s.keeps bx) (o q : Nat) :
    (State.takeCommand s o q).keeps bx := by
  unfold State.takeCommand
  repeat first
    | with_reducible assumption | with_reducible apply State.reply415_kept | with_reducible apply State.launchCommand_kept
    | with_reducible apply State.enqCommand_kept | with_reducible apply State.qcloseCommand_kept
    | with_reducible apply State.qdeleteCommand_kept | with_reducible apply State.cancelCommand_kept
    | with_reducible apply State.resyncCommand_kept | dsimp only | split

theorem State.commands_kept {s : State} (hs : s.keeps bx) (o n : Nat) (first : Bool) : (s.commands o n first).keeps bx := by
  induction n generalizing s first with
  | zero => exact hs
  | succ n ih =>
    have hf := State.flushEvents_kept hs o
    unfold State.commands
    repeat' first
      | exact hf
      | split
      | (with_reducible apply ih)
      | (with_reducible apply State.modOwner_kept)
      | (with_reducible apply State.takeCommand_kept)
      | dsimp only

theorem State.endRetirement_kept {s : State} (hs : s.keeps bx) (o core lane : Nat) :
    (State.endRetirement s o core lane).keeps bx := by
  unfold State.endRetirement
  repeat first | with_reducible assumption | intro _ | with_reducible apply State.modOwner_kept | dsimp only

theorem State.createWg_kept {s : State} (hs : s.keeps bx) (lid w core : Nat) (plan : List (Nat × Nat)) :
    (State.createWg s lid w core plan).keeps bx := by
  unfold State.createWg
  repeat first
    | with_reducible assumption | intro _ | with_reducible apply State.modOwner_kept | with_reducible apply State.setGroupAt_kept
    | with_reducible apply State.endRetirement_kept | with_reducible apply State.setWg_kept | with_reducible apply State.modLaunch_kept
    | with_reducible apply foldl_kept | with_reducible apply foldl_kept_snd | with_reducible apply foldl_kept_fst | dsimp only | split

theorem State.placeNext_kept {s : State} (hs : s.keeps bx) (lid : Nat) :
    (State.placeNext s lid).keeps bx := by
  unfold State.placeNext
  repeat first | with_reducible assumption | with_reducible apply State.createWg_kept | dsimp only | split

theorem execWorkgroupPlacement_kept {s : State} (hs : s.keeps bx) (l : Nat) :
    Ends (execWorkgroupPlacement l s) (State.keeps bx) := by
  unfold execWorkgroupPlacement
  repeat first | with_reducible assumption | with_reducible apply ends_next | with_reducible apply State.placeNext_kept | dsimp only

theorem State.dropOwnerL1_kept {s : State} (hs : s.keeps bx) (o : Nat) :
    (State.dropOwnerL1 s o).keeps bx := by
  unfold State.dropOwnerL1
  repeat first | with_reducible assumption | intro _ | dsimp only

theorem execDependantRelease_kept {s : State} (hs : s.keeps bx) (l : Nat) :
    Ends (execDependantRelease l s) (State.keeps bx) := by
  unfold execDependantRelease
  repeat first
    | with_reducible assumption | intro _ | with_reducible apply ends_next | with_reducible apply State.modLaunch_kept
    | with_reducible apply State.dropOwnerL1_kept | dsimp only | split

theorem execSwapOut_kept {s : State} (hs : s.keeps bx) (w : Nat) :
    Ends (execSwapOut w s) (State.keeps bx) := by
  unfold execSwapOut
  repeat first
    | with_reducible assumption | intro _ | with_reducible apply ends_next | with_reducible apply State.settleGroup_kept
    | with_reducible apply State.drainGroup_kept | with_reducible apply State.modGroup_kept | with_reducible apply foldl_kept | dsimp only
    | split

theorem State.reviveGroup_kept {s : State} (hs : s.keeps bx) (k lane ctx ready : Nat) :
    (State.reviveGroup s k lane ctx ready).keeps bx := by
  unfold State.reviveGroup
  repeat first | with_reducible assumption | intro _ | with_reducible apply State.modGroup_kept | dsimp only

theorem State.swapInWg_kept {s : State} (hs : s.keeps bx) (w : Nat) :
    (State.swapInWg s w).keeps bx := by
  unfold State.swapInWg
  repeat first
    | with_reducible assumption | intro _ | with_reducible apply State.reviveGroup_kept | with_reducible apply State.endRetirement_kept
    | with_reducible apply State.endGroup_kept | with_reducible apply foldl_kept | with_reducible apply foldl_kept_snd
    | with_reducible apply foldl_kept_fst | dsimp only | split

theorem execSwapIn_kept {s : State} (hs : s.keeps bx) (w : Nat) :
    Ends (execSwapIn w s) (State.keeps bx) := by
  unfold execSwapIn
  repeat first | with_reducible assumption | with_reducible apply ends_next | with_reducible apply State.swapInWg_kept | dsimp only | split

theorem State.placements_kept {s : State} (hs : s.keeps bx) (o n : Nat) : (s.placements o n).keeps bx := by
  induction n generalizing s with
  | zero => exact hs
  | succ n ih =>
    unfold State.placements
    repeat' first
      | exact hs
      | split
      | (with_reducible apply ih)
      | (with_reducible apply State.modOwner_kept)
      | (with_reducible apply State.swapInWg_kept)
      | (with_reducible apply State.placeNext_kept)

theorem State.droverSlot_kept {s : State} (hs : s.keeps bx) (o : Nat) :
    (State.droverSlot s o).keeps bx := by
  unfold State.droverSlot
  repeat first
    | with_reducible assumption | intro _ | with_reducible apply State.flushEvents_kept | with_reducible apply State.commands_kept
    | with_reducible apply State.placements_kept | with_reducible apply State.modOwner_kept | dsimp only | split

theorem State.applyCommit_kept {s : State} (hs : s.keeps bx) (w : Workgroup) :
    (State.applyCommit s w).keeps bx := by
  unfold State.applyCommit
  repeat first
    | with_reducible assumption | intro _ | with_reducible apply State.writePlace_kept | with_reducible apply State.fillPlace_kept
    | with_reducible apply State.atomPlace_kept | with_reducible refine State.atomPlace_kept2 (e := by assumption) ?_
    | with_reducible apply foldl_kept | with_reducible apply foldl_kept_snd | with_reducible apply foldl_kept_fst | dsimp only | split

theorem State.freeWg_kept {s : State} (hs : s.keeps bx) (wg : Nat) :
    (State.freeWg s wg).keeps bx := by
  unfold State.freeWg
  repeat first | with_reducible assumption | intro _ | with_reducible apply foldl_kept | dsimp only

theorem State.startBorders_kept {s : State} (hs : s.keeps bx) (o : Nat) :
    (State.startBorders s o).keeps bx := by
  unfold State.startBorders
  repeat first | with_reducible assumption | intro _ | dsimp only

theorem State.wakeCommits_kept {s : State} (hs : s.keeps bx) :
    (State.wakeCommits s).keeps bx := by
  unfold State.wakeCommits
  repeat first
    | with_reducible assumption | intro _ | with_reducible apply State.wakeIf_kept | with_reducible apply State.startCopy_kept
    | with_reducible apply foldl_kept | with_reducible apply foldl_kept_snd | with_reducible apply foldl_kept_fst | dsimp only | split

theorem State.completeWg_kept {s : State} (hs : s.keeps bx) (w : Nat) :
    (State.completeWg s w).keeps bx := by
  unfold State.completeWg
  repeat first
    | with_reducible assumption | intro _ | with_reducible apply State.modWg_kept | with_reducible apply State.freeWg_kept
    | with_reducible apply State.modOwner_kept | with_reducible apply State.startBorders_kept | dsimp only | split

theorem execWorkgroupCommit_kept {s : State} (hs : s.keeps bx) (w : Nat) :
    Ends (execWorkgroupCommit w s) (State.keeps bx) := by
  unfold execWorkgroupCommit
  repeat first
    | with_reducible assumption | intro _ | with_reducible apply ends_next | with_reducible apply State.completeWg_kept
    | with_reducible apply State.soon_kept | with_reducible apply State.modWg_kept | with_reducible apply State.applyCommit_kept
    | with_reducible apply State.wakeCommits_kept | with_reducible apply foldl_kept | with_reducible apply foldl_kept_snd
    | with_reducible apply foldl_kept_fst | dsimp only | split

theorem State.applyOwnership_kept {s : State} (hs : s.keeps bx) (lid : Nat) :
    (State.applyOwnership s lid).keeps bx := by
  unfold State.applyOwnership
  repeat first
    | with_reducible assumption | intro _ | with_reducible apply State.modOwner_kept | with_reducible apply foldl_kept
    | with_reducible apply foldl_kept_snd | with_reducible apply foldl_kept_fst | dsimp only

theorem execLaunchCompletion_kept {s : State} (hs : s.keeps bx) (lid : Nat) :
    Ends (execLaunchCompletion lid s) (State.keeps bx) := by
  unfold execLaunchCompletion
  repeat first
    | with_reducible assumption | intro _ | with_reducible apply ends_next | with_reducible apply State.modLaunch_kept
    | with_reducible apply State.applyOwnership_kept | with_reducible apply State.releaseLeases_kept
    | with_reducible apply State.dropOwnerL1_kept | with_reducible apply State.post_kept | with_reducible apply State.tellDependants_kept
    | with_reducible apply getD_kept | dsimp only | split

end Sys2Proof.Machine
end

