-- ==== Sys2Proof/Laws/KeptPower.lean ====
section
/-! SUPPORT. The operations of Machine/Power.lean keep what `State.keeps` says. -/

namespace Sys2Proof.Machine

variable {bx : Option (List BoxRec)}

theorem State.setSprint_kept {s : State} (hs : s.keeps bx) (o i : Nat) (x : Sprint) :
    (State.setSprint s o i x).keeps bx := by
  unfold State.setSprint
  repeat first | with_reducible assumption | intro _ | with_reducible apply State.modOwner_kept | dsimp only

theorem State.setQuota_kept {s : State} (hs : s.keeps bx) (o i : Nat) (x : Quota) :
    (State.setQuota s o i x).keeps bx := by
  unfold State.setQuota
  repeat first | with_reducible assumption | intro _ | with_reducible apply State.modOwner_kept | dsimp only

theorem State.endLease_kept {s : State} (hs : s.keeps bx) (o i : Nat) (reason : Option Nat) :
    (State.endLease s o i reason).keeps bx := by
  unfold State.endLease
  repeat first
    | with_reducible assumption | intro _ | with_reducible apply State.setSprint_kept | with_reducible apply State.modGroup_kept | dsimp only
    | split

theorem execLeaseReq_kept {s : State} (hs : s.keeps bx) (h : Guard) (d a : Reg) (level : BitVec 2) (q : BitVec 3) :
    Ends (execLeaseReq h d a level q s) (State.keeps bx) := by
  unfold execLeaseReq
  repeat first
    | with_reducible assumption | with_reducible apply ends_next | with_reducible apply State.finish_kept
    | with_reducible apply State.await_kept | with_reducible apply State.schedule_kept | dsimp only | split

theorem execLeaseDecision_kept {s : State} (hs : s.keeps bx) (k : Nat) :
    Ends (execLeaseDecision k s) (State.keeps bx) := by
  unfold execLeaseDecision
  repeat first
    | with_reducible assumption | intro _ | with_reducible apply ends_next | with_reducible apply State.setSprint_kept
    | with_reducible apply State.schedule_kept | with_reducible apply State.resume_kept | dsimp only | split

theorem execLeaseEnd_kept {s : State} (hs : s.keeps bx) (h : Guard) :
    Ends (execLeaseEnd h s) (State.keeps bx) := by
  unfold execLeaseEnd
  repeat first
    | with_reducible assumption | with_reducible apply ends_next | with_reducible apply State.finish_kept
    | with_reducible apply State.endLease_kept | dsimp only | split

theorem State.meltAhead_kept {s : State} (hs : s.keeps bx) (i : Nat) :
    (State.meltAhead s i).keeps bx := by
  unfold State.meltAhead
  repeat first | with_reducible assumption | intro _ | with_reducible apply State.endLease_kept | with_reducible apply foldl_kept | dsimp only | split

theorem execLeaseExpiry_kept {s : State} (hs : s.keeps bx) (o i : Nat) :
    Ends (execLeaseExpiry o i s) (State.keeps bx) := by
  unfold execLeaseExpiry
  repeat first | with_reducible assumption | with_reducible apply ends_next | with_reducible apply State.endLease_kept | dsimp only | split

theorem State.scheduleOnce_kept {s : State} (hs : s.keeps bx) (due : Nat) (ev : Instr) :
    (State.scheduleOnce s due ev).keeps bx := by
  unfold State.scheduleOnce
  repeat first | with_reducible assumption | intro _ | with_reducible apply State.schedule_kept | dsimp only | split

theorem execMeltUpdate_kept {s : State} (hs : s.keeps bx) :
    Ends (execMeltUpdate s) (State.keeps bx) := by
  unfold execMeltUpdate
  repeat first
    | with_reducible assumption | intro _ | with_reducible apply ends_next | with_reducible apply State.setQuota_kept
    | with_reducible apply State.endLease_kept | with_reducible apply State.scheduleOnce_kept | with_reducible apply foldl_kept
    | with_reducible apply foldl_kept_snd | with_reducible apply foldl_kept_fst | dsimp only | split

theorem State.hold_kept {s : State} (hs : s.keeps bx) (o : Nat) (c : HoldCause) :
    (State.hold s o c).keeps bx := by
  unfold State.hold
  repeat first | with_reducible assumption | intro _ | with_reducible apply State.modOwner_kept | dsimp only | split

theorem State.unhold_kept {s : State} (hs : s.keeps bx) (o : Nat) (c : HoldCause) :
    (State.unhold s o c).keeps bx := by
  unfold State.unhold
  repeat first | with_reducible assumption | intro _ | with_reducible apply State.modOwner_kept | dsimp only | split

theorem State.holdAll_kept {s : State} (hs : s.keeps bx) (f : Nat → Bool) (c : HoldCause) :
    (State.holdAll s f c).keeps bx := by
  unfold State.holdAll
  repeat first | with_reducible assumption | intro _ | with_reducible apply State.hold_kept | with_reducible apply foldl_kept | dsimp only | split

theorem State.unholdAll_kept {s : State} (hs : s.keeps bx) (c : HoldCause) :
    (State.unholdAll s c).keeps bx := by
  unfold State.unholdAll
  repeat first | with_reducible assumption | intro _ | with_reducible apply State.unhold_kept | with_reducible apply foldl_kept | dsimp only

theorem execHoldBegin_kept {s : State} (hs : s.keeps bx) (o : Nat) (c : HoldCause) :
    Ends (execHoldBegin o c s) (State.keeps bx) := by
  unfold execHoldBegin
  repeat first | with_reducible assumption | with_reducible apply ends_next | with_reducible apply State.hold_kept | dsimp only

theorem execHoldEnd_kept {s : State} (hs : s.keeps bx) (o : Nat) (c : HoldCause) :
    Ends (execHoldEnd o c s) (State.keeps bx) := by
  unfold execHoldEnd
  repeat first | with_reducible assumption | with_reducible apply ends_next | with_reducible apply State.unhold_kept | dsimp only

theorem State.applyHolds_kept {s : State} (hs : s.keeps bx) (i : Nat) :
    (State.applyHolds s i).keeps bx := by
  unfold State.applyHolds
  repeat first
    | with_reducible assumption | intro _ | with_reducible apply State.withdrawAll_kept | with_reducible apply State.modOwner_kept
    | with_reducible apply foldl_kept | dsimp only | split

theorem State.clockFall_kept {s : State} (hs : s.keeps bx) (i : Nat) :
    (State.clockFall s i).keeps bx := by
  unfold State.clockFall
  repeat first
    | with_reducible assumption | intro _ | with_reducible apply State.setIsland_kept | with_reducible apply State.setSprint_kept
    | with_reducible apply foldl_kept | dsimp only | split

theorem State.stepClock_kept {s : State} (hs : s.keeps bx) (i l : Nat) :
    (State.stepClock s i l).keeps bx := by
  unfold State.stepClock
  repeat first | with_reducible assumption | with_reducible apply State.setIsland_kept | dsimp only

theorem execClockStep_kept {s : State} (hs : s.keeps bx) (i l : Nat) :
    Ends (execClockStep i l s) (State.keeps bx) := by
  unfold execClockStep
  repeat first | with_reducible assumption | with_reducible apply ends_next | with_reducible apply State.stepClock_kept | dsimp only

theorem State.railAt_kept {s : State} (hs : s.keeps bx) (i : Nat) :
    (State.railAt s i).keeps bx := by
  unfold State.railAt
  repeat first
    | with_reducible assumption | intro _ | with_reducible apply State.setIsland_kept | with_reducible apply State.unholdAll_kept
    | with_reducible apply State.setSprint_kept | with_reducible apply State.setQuota_kept | with_reducible apply foldl_kept | dsimp only
    | split

theorem execRailEpoch_kept {s : State} (hs : s.keeps bx) :
    Ends (execRailEpoch s) (State.keeps bx) := by
  unfold execRailEpoch
  repeat first
    | with_reducible assumption | intro _ | with_reducible apply ends_next | with_reducible apply State.railAt_kept
    | with_reducible apply State.scheduleOnce_kept | with_reducible apply foldl_kept | dsimp only

theorem execCanaryFailure_kept {s : State} (hs : s.keeps bx) (i : Nat) :
    Ends (execCanaryFailure i s) (State.keeps bx) := by
  unfold execCanaryFailure
  repeat first
    | with_reducible assumption | intro _ | with_reducible apply ends_next | with_reducible apply State.holdAll_kept
    | with_reducible apply State.setIsland_kept | with_reducible apply State.schedule_kept | with_reducible apply State.freezeBox_kept
    | dsimp only | split

theorem execCanaryRelax_kept {s : State} (hs : s.keeps bx) (i : Nat) :
    Ends (execCanaryRelax i s) (State.keeps bx) := by
  unfold execCanaryRelax
  repeat first
    | with_reducible assumption | with_reducible apply ends_next | with_reducible apply State.setIsland_kept
    | with_reducible apply State.schedule_kept | dsimp only | split

theorem State.islandHeat_kept {s : State} (hs : s.keeps bx) (i : Nat) :
    (State.islandHeat s i).keeps bx := by
  unfold State.islandHeat
  repeat first
    | with_reducible assumption | intro _ | with_reducible apply State.setIsland_kept | with_reducible apply State.unholdAll_kept
    | with_reducible apply State.freezeBox_kept | with_reducible apply State.holdAll_kept | dsimp only | split

theorem State.lidHeat_kept {s : State} (hs : s.keeps bx) :
    (State.lidHeat s).keeps bx := by
  unfold State.lidHeat
  repeat first
    | with_reducible assumption | intro _ | with_reducible apply State.setIsland_kept | with_reducible apply State.unholdAll_kept
    | with_reducible apply State.freezeBox_kept | with_reducible apply State.holdAll_kept | with_reducible apply foldl_kept | dsimp only | split

theorem State.raiseMoves_kept {s : State} (hs : s.keeps bx) (hot : List Nat) :
    (State.raiseMoves s hot).keeps bx := by
  unfold State.raiseMoves
  repeat first
    | with_reducible assumption | intro _ | with_reducible apply foldl_kept | with_reducible apply foldl_kept_snd
    | with_reducible apply foldl_kept_fst | dsimp only | split

theorem execThermalSample_kept {s : State} (hs : s.keeps bx) (r : List (Nat × Nat)) (p : Nat) :
    Ends (execThermalSample r p s) (State.keeps bx) := by
  unfold execThermalSample
  repeat first
    | with_reducible assumption | intro _ | with_reducible apply ends_next | with_reducible apply State.raiseMoves_kept
    | with_reducible apply State.islandHeat_kept | with_reducible apply State.lidHeat_kept | with_reducible apply foldl_kept
    | with_reducible apply foldl_kept_snd | with_reducible apply foldl_kept_fst | dsimp only | split

theorem execDramStackOvertemp_kept {s : State} (hs : s.keeps bx) (n : Nat) :
    Ends (execDramStackOvertemp n s) (State.keeps bx) := by
  unfold execDramStackOvertemp
  repeat first | with_reducible assumption | intro _ | with_reducible apply ends_next | with_reducible apply State.holdAll_kept | dsimp only | split

theorem execDramStackCool_kept {s : State} (hs : s.keeps bx) (n : Nat) :
    Ends (execDramStackCool n s) (State.keeps bx) := by
  unfold execDramStackCool
  repeat first | with_reducible assumption | intro _ | with_reducible apply ends_next | with_reducible apply State.unholdAll_kept | dsimp only

theorem execSiloLinkDown_kept {s : State} (hs : s.keeps bx) (p : Nat) :
    Ends (execSiloLinkDown p s) (State.keeps bx) := by
  unfold execSiloLinkDown
  repeat first | with_reducible assumption | with_reducible apply ends_next | with_reducible apply State.holdAll_kept | dsimp only | split

theorem execSiloLinkUp_kept {s : State} (hs : s.keeps bx) (p : Nat) :
    Ends (execSiloLinkUp p s) (State.keeps bx) := by
  unfold execSiloLinkUp
  repeat first | with_reducible assumption | intro _ | with_reducible apply ends_next | with_reducible apply State.unholdAll_kept | dsimp only

theorem State.physicalHolds_kept {s : State} (hs : s.keeps bx) :
    (State.physicalHolds s).keeps bx := by
  unfold State.physicalHolds
  repeat first | with_reducible assumption | intro _ | with_reducible apply State.holdAll_kept | with_reducible apply foldl_kept | dsimp only | split

theorem execRetirement_kept {s : State} (hs : s.keeps bx) (o l : Nat) :
    Ends (execRetirement o l s) (State.keeps bx) := by
  unfold execRetirement
  repeat first | with_reducible assumption | intro _ | with_reducible apply ends_next | with_reducible apply State.modOwner_kept | dsimp only | split

end Sys2Proof.Machine
end

