-- ==== Sys2Proof/Laws/KeptPartition.lean ====
section
/-! SUPPORT. The operations of Machine/Partition.lean keep what `State.keeps` says. -/

namespace Sys2Proof.Machine

variable {bx : Option (List BoxRec)}

theorem State.setSlots_kept {s : State} (hs : s.keeps bx) (core lane : Nat) (slots : List Nat) (o : Nat) :
    (State.setSlots s core lane slots o).keeps bx := by
  unfold State.setSlots
  repeat first | with_reducible assumption | intro _ | with_reducible apply foldl_kept | dsimp only

theorem State.settleAll_kept {s : State} (hs : s.keeps bx) (f : Group → Bool) :
    (State.settleAll s f).keeps bx := by
  unfold State.settleAll
  repeat first
    | with_reducible assumption | intro _ | with_reducible apply State.settleGroup_kept | with_reducible apply foldl_kept
    | with_reducible apply foldl_kept_snd | with_reducible apply foldl_kept_fst | dsimp only | split

theorem State.saveGroups_kept {s : State} (hs : s.keeps bx) (f : Group → Bool) :
    (State.saveGroups s f).keeps bx := by
  unfold State.saveGroups
  repeat first
    | with_reducible assumption | intro _ | with_reducible apply State.settleAll_kept | with_reducible apply State.drainGroup_kept
    | with_reducible apply foldl_kept | with_reducible apply foldl_kept_snd | with_reducible apply foldl_kept_fst | dsimp only | split

theorem State.leaveIsland_kept {s : State} (hs : s.keeps bx) (o i : Nat) :
    (State.leaveIsland s o i).keeps bx := by
  unfold State.leaveIsland
  repeat first
    | with_reducible assumption | intro _ | with_reducible apply State.endLease_kept | with_reducible apply State.modOwner_kept | dsimp only
    | split

theorem State.clearShares_kept {s : State} (hs : s.keeps bx) (sh old : List (Nat × CoreShare)) :
    (State.clearShares s sh old).keeps bx := by
  unfold State.clearShares
  repeat first | with_reducible assumption | intro _ | dsimp only

theorem State.giveShares_kept {s : State} (hs : s.keeps bx) (b : BorderSpec) :
    (State.giveShares s b).keeps bx := by
  unfold State.giveShares
  repeat first
    | with_reducible assumption | intro _ | with_reducible apply State.clearShares_kept | with_reducible apply State.modOwner_kept
    | with_reducible apply getD_kept | dsimp only | split

theorem State.giveUp_kept {s : State} (hs : s.keeps bx) (w : SwitchSpec) :
    (State.giveUp s w).keeps bx := by
  unfold State.giveUp
  repeat first
    | with_reducible assumption | intro _ | with_reducible apply State.modOwner_kept | with_reducible apply State.saveGroups_kept
    | with_reducible apply State.hold_kept | with_reducible apply State.leaveIsland_kept | with_reducible apply State.giveShares_kept
    | dsimp only | split

theorem State.gainQuota_kept {s : State} (hs : s.keeps bx) (o i : Nat) :
    (State.gainQuota s o i).keeps bx := by
  unfold State.gainQuota
  repeat first | with_reducible assumption | with_reducible apply State.setQuota_kept | dsimp only | split

theorem State.dissolve_kept {s : State} (hs : s.keeps bx) (o : Nat) : (State.dissolve s o).keeps bx := by
  unfold State.dissolve
  split
  · exact hs
  · exact ⟨⟨mapWf_filter hs.1.1 _, hs.1.2⟩, hs.2⟩

theorem State.destroy_kept {s : State} (hs : s.keeps bx) (o : Nat) :
    (State.destroy s o).keeps bx := by
  unfold State.destroy
  repeat first
    | with_reducible assumption | intro _ | with_reducible apply State.dissolve_kept | with_reducible apply State.gainQuota_kept
    | with_reducible apply foldl_kept | dsimp only | split

theorem State.holdBoth_kept {s : State} (hs : s.keeps bx) (w : SwitchSpec) :
    (State.holdBoth s w).keeps bx := by
  unfold State.holdBoth
  repeat first | with_reducible assumption | with_reducible apply State.hold_kept | dsimp only

theorem State.unholdBoth_kept {s : State} (hs : s.keeps bx) (w : SwitchSpec) :
    (State.unholdBoth s w).keeps bx := by
  unfold State.unholdBoth
  repeat first | with_reducible assumption | with_reducible apply State.unhold_kept | dsimp only

theorem State.beginSwitch_kept {s : State} (hs : s.keeps bx) (w : SwitchSpec) :
    (State.beginSwitch s w).keeps bx := by
  unfold State.beginSwitch
  repeat first
    | with_reducible assumption | intro _ | with_reducible apply State.unholdBoth_kept | with_reducible apply State.giveUp_kept
    | with_reducible apply State.setSlots_kept | with_reducible apply State.destroy_kept | with_reducible apply State.holdBoth_kept
    | with_reducible apply State.schedule_kept | dsimp only | split

theorem execSwitchBegin_kept {s : State} (hs : s.keeps bx) (w : SwitchSpec) :
    Ends (execSwitchBegin w s) (State.keeps bx) := by
  unfold execSwitchBegin
  repeat first | with_reducible assumption | with_reducible apply ends_next | dsimp only

theorem State.decideLate_kept {s : State} (hs : s.keeps bx) (gid : Nat) :
    (State.decideLate s gid).keeps bx := by
  unfold State.decideLate
  repeat first
    | with_reducible assumption | intro _ | with_reducible apply State.schedule_kept | with_reducible apply foldl_kept
    | with_reducible apply foldl_kept_snd | with_reducible apply foldl_kept_fst | dsimp only | split

theorem State.bringBack_kept {s : State} (hs : s.keeps bx) (o core lane : Nat) :
    (State.bringBack s o core lane).keeps bx := by
  unfold State.bringBack
  repeat first
    | with_reducible assumption | intro _ | with_reducible apply State.endGroup_kept | with_reducible apply State.decideLate_kept
    | with_reducible apply foldl_kept | with_reducible apply foldl_kept_snd | with_reducible apply foldl_kept_fst | dsimp only | split

theorem State.beginTransfer_kept {s : State} (hs : s.keeps bx) (o c src dst : Nat) :
    (State.beginTransfer s o c src dst).keeps bx := by
  unfold State.beginTransfer
  repeat first
    | with_reducible assumption | intro _ | with_reducible apply State.settleAll_kept | with_reducible apply State.hold_kept
    | with_reducible apply State.schedule_kept | dsimp only

theorem State.beginMove_kept {s : State} (hs : s.keeps bx) (m : Nat × Nat × Nat) :
    (State.beginMove s m).keeps bx := by
  unfold State.beginMove
  repeat first
    | with_reducible assumption | intro _ | with_reducible apply State.beginTransfer_kept | with_reducible apply foldl_kept
    | with_reducible apply foldl_kept_snd | with_reducible apply foldl_kept_fst | dsimp only | split

theorem execMigrationMove_kept {s : State} (hs : s.keeps bx) (o c d : Nat) :
    Ends (execMigrationMove o c d s) (State.keeps bx) := by
  unfold execMigrationMove
  repeat first | with_reducible assumption | intro _ | with_reducible apply ends_next | dsimp only | split

theorem State.moveShares_kept {s : State} (hs : s.keeps bx) (o c d : Nat) (sh : CoreShare) :
    (State.moveShares s o c d sh).keeps bx := by
  unfold State.moveShares
  repeat first | with_reducible assumption | intro _ | dsimp only | split

theorem State.landAll_kept {s : State} (hs : s.keeps bx) (k n : Nat) : (s.landAll k n).keeps bx := by
  induction n generalizing s with
  | zero => exact hs
  | succ n ih => exact ih (State.beat_kept hs _ _)

theorem State.moveSlots_kept {s : State} (hs : s.keeps bx) (o c d : Nat) :
    (State.moveSlots s o c d).keeps bx := by
  unfold State.moveSlots
  repeat first | with_reducible assumption | intro _ | with_reducible apply State.setSlots_kept | with_reducible apply foldl_kept | dsimp only | split

theorem State.moveCore_kept {s : State} (hs : s.keeps bx) (o lc c d : Nat) :
    (State.moveCore s o lc c d).keeps bx := by
  unfold State.moveCore
  repeat first
    | with_reducible assumption | intro _ | with_reducible apply State.moveShares_kept | with_reducible apply State.moveSlots_kept
    | with_reducible apply State.modOwner_kept | dsimp only | split

theorem execCoreStateTransferEnd_kept {s : State} (hs : s.keeps bx) (o c d : Nat) :
    Ends (execCoreStateTransferEnd o c d s) (State.keeps bx) := by
  unfold execCoreStateTransferEnd
  repeat first
    | with_reducible assumption | intro _ | with_reducible apply ends_next | with_reducible apply State.moveCore_kept
    | with_reducible apply State.landAll_kept | with_reducible apply State.bringBack_kept | with_reducible apply State.unhold_kept
    | with_reducible apply foldl_kept | with_reducible apply foldl_kept_snd | with_reducible apply foldl_kept_fst | dsimp only | split

theorem State.beginOn_kept {s : State} (hs : s.keeps bx) (i : Nat) :
    (State.beginOn s i).keeps bx := by
  unfold State.beginOn
  repeat first
    | with_reducible assumption | intro _ | with_reducible apply State.beginSwitch_kept | with_reducible apply State.beginMove_kept
    | with_reducible apply foldl_kept | with_reducible apply foldl_kept_snd | with_reducible apply foldl_kept_fst | dsimp only | split

theorem State.beginAll_kept {s : State} (hs : s.keeps bx) :
    (State.beginAll s).keeps bx := by
  unfold State.beginAll
  repeat first | with_reducible assumption | intro _ | with_reducible apply State.beginOn_kept | with_reducible apply foldl_kept | dsimp only | split

theorem State.enrol_kept {s : State} (hs : s.keeps bx) (r : PartRec) : (State.enrol s r).keeps bx := by
  delta State.enrol
  refine State.putPage_kept (State.takeFrame_kept ?_ _ _) _ _ _
  exact hs

theorem State.holdNew_kept {s : State} (hs : s.keeps bx) (o : Nat) :
    (State.holdNew s o).keeps bx := by
  unfold State.holdNew
  repeat first | with_reducible assumption | intro _ | with_reducible apply State.hold_kept | with_reducible apply foldl_kept | dsimp only | split

theorem toBegin_kept {s : State} (hs : s.keeps bx) (xs : List SwitchSpec) : State.keeps bx { s with toBegin := xs } := hs

theorem ite_kept {c : Prop} [Decidable c] {s t : State} (hs : s.keeps bx) (ht : t.keeps bx) : State.keeps bx (if c then s else t) := by
  split
  · exact hs
  · exact ht

theorem execPartitionCreate_kept {s : State} (hs : s.keeps bx) (r : PartRec) : Ends (execPartitionCreate r s) (State.keeps bx) := by
  delta execPartitionCreate
  exact ends_next (ite_kept hs (State.holdNew_kept (toBegin_kept (State.enrol_kept hs r) _) _))

theorem execPartitionDestroy_kept {s : State} (hs : s.keeps bx) (o : Nat) :
    Ends (execPartitionDestroy o s) (State.keeps bx) := by
  unfold execPartitionDestroy
  repeat first | with_reducible assumption | with_reducible apply ends_next | with_reducible apply State.destroy_kept | dsimp only

theorem execBorderMove_kept {s : State} (hs : s.keeps bx) (w : BorderSpec) :
    Ends (execBorderMove w s) (State.keeps bx) := by
  unfold execBorderMove
  repeat first | with_reducible assumption | with_reducible apply ends_next | with_reducible apply State.startBorders_kept | dsimp only | split

theorem State.takeSlots_kept {s : State} (hs : s.keeps bx) (w : SwitchSpec) :
    (State.takeSlots s w).keeps bx := by
  unfold State.takeSlots
  repeat first
    | with_reducible assumption | intro _ | with_reducible apply State.modOwner_kept | with_reducible apply State.unhold_kept
    | with_reducible apply State.giveShares_kept | with_reducible apply State.bringBack_kept | with_reducible apply State.gainQuota_kept
    | dsimp only | split

theorem State.idleBorders_kept {s : State} (hs : s.keeps bx) :
    (State.idleBorders s).keeps bx := by
  unfold State.idleBorders
  repeat first
    | with_reducible assumption | intro _ | with_reducible apply State.startBorders_kept | with_reducible apply foldl_kept | dsimp only | split

theorem execSwitchEnd_kept {s : State} (hs : s.keeps bx) (w : SwitchSpec) :
    Ends (execSwitchEnd w s) (State.keeps bx) := by
  unfold execSwitchEnd
  repeat first
    | with_reducible assumption | intro _ | with_reducible apply ends_next | with_reducible apply State.setSlots_kept
    | with_reducible apply State.takeSlots_kept | with_reducible apply State.unholdBoth_kept | with_reducible apply State.idleBorders_kept
    | dsimp only | split

end Sys2Proof.Machine
end

