-- ==== Sys2Proof/Laws/KeptContext.lean ====
section
/-! SUPPORT. The operations of Machine/Context.lean keep what `State.keeps` says. -/

namespace Sys2Proof.Machine

variable {bx : Option (List BoxRec)}

theorem State.putWgImage_kept {s : State} (hs : s.keeps bx) (wg c : Nat) (b : List Byte) :
    (State.putWgImage s wg c b).keeps bx := by
  unfold State.putWgImage
  repeat first
    | with_reducible assumption | intro _ | with_reducible apply State.modWg_kept | with_reducible apply State.freshSectors_kept
    | with_reducible apply foldl_kept | with_reducible apply foldl_kept_snd | with_reducible apply foldl_kept_fst
    | with_reducible apply getD_kept | dsimp only | split

theorem State.ctxFill_kept {s : State} (hs : s.keeps bx) (g : Group) (ls : List Leaf) :
    (State.ctxFill s g ls).keeps bx := by
  unfold State.ctxFill
  repeat first
    | with_reducible assumption | intro _ | with_reducible apply State.schedule_kept | with_reducible apply State.markLeaf_kept
    | with_reducible apply foldl_kept | dsimp only | split

theorem State.ctxBegins_kept {s : State} (hs : s.keeps bx) (g : Group) (fn : Nat) (d : CtxDesc) (image : Option (List Leaf × List Byte)) :
    (State.ctxBegins s g fn d image).keeps bx := by
  unfold State.ctxBegins
  repeat first
    | with_reducible assumption | with_reducible apply State.ctxFill_kept | with_reducible apply State.beginTransfer_kept | dsimp only | split

theorem State.ctxOp_kept {s : State} (hs : s.keeps bx) (h : Guard) (fn : Nat) (d : Reg) (addr : Dword) :
    (State.ctxOp s h fn d addr).keeps bx := by
  unfold State.ctxOp
  repeat first
    | with_reducible assumption | intro _ | with_reducible apply State.finish_kept | with_reducible apply State.bumpOpen_kept
    | with_reducible apply State.ctxBegins_kept | with_reducible apply State.await_kept | with_reducible apply State.schedule_kept
    | with_reducible apply getD_kept | dsimp only | split

theorem execCtxGsave_kept {s : State} (hs : s.keeps bx) (h : Guard) (d a : Reg) :
    Ends (execCtxGsave h d a s) (State.keeps bx) := by
  unfold execCtxGsave
  repeat first | with_reducible assumption | with_reducible apply ends_next | with_reducible apply State.ctxOp_kept | dsimp only

theorem execCtxGrest_kept {s : State} (hs : s.keeps bx) (h : Guard) (d a : Reg) :
    Ends (execCtxGrest h d a s) (State.keeps bx) := by
  unfold execCtxGrest
  repeat first | with_reducible assumption | with_reducible apply ends_next | with_reducible apply State.ctxOp_kept | dsimp only

theorem execCtxWsave_kept {s : State} (hs : s.keeps bx) (h : Guard) (d a : Reg) :
    Ends (execCtxWsave h d a s) (State.keeps bx) := by
  unfold execCtxWsave
  repeat first | with_reducible assumption | with_reducible apply ends_next | with_reducible apply State.ctxOp_kept | dsimp only

theorem execCtxWrest_kept {s : State} (hs : s.keeps bx) (h : Guard) (d a : Reg) :
    Ends (execCtxWrest h d a s) (State.keeps bx) := by
  unfold execCtxWrest
  repeat first | with_reducible assumption | with_reducible apply ends_next | with_reducible apply State.ctxOp_kept | dsimp only

theorem execCtxRemap_kept {s : State} (hs : s.keeps bx) (h : Guard) (d : Reg) :
    Ends (execCtxRemap h d s) (State.keeps bx) := by
  unfold execCtxRemap
  repeat first | with_reducible assumption | with_reducible apply ends_next | with_reducible apply State.ctxOp_kept | dsimp only

theorem State.leafWrite_kept {s : State} (hs : s.keeps bx) (g : Group) (ls : List Leaf) (bs : List Byte) :
    (State.leafWrite s g ls bs).keeps bx := by
  unfold State.leafWrite
  repeat first
    | with_reducible assumption | intro _ | with_reducible apply State.setLeaf_kept | with_reducible apply State.writePlace_kept
    | with_reducible apply State.fillPlace_kept | with_reducible apply foldl_kept | with_reducible apply foldl_kept_snd
    | with_reducible apply foldl_kept_fst | dsimp only

theorem State.orderRestored_kept {s : State} (hs : s.keeps bx) (o core lane now : Nat) :
    (State.orderRestored s o core lane now).keeps bx := by
  unfold State.orderRestored
  repeat first
    | with_reducible assumption | intro _ | with_reducible apply State.modGroup_kept | with_reducible apply foldl_kept
    | with_reducible apply foldl_kept_snd | with_reducible apply foldl_kept_fst | with_reducible apply getD_kept | dsimp only | split

theorem State.leaseTo_kept {s : State} (hs : s.keeps bx) (o i k : Nat) :
    (State.leaseTo s o i k).keeps bx := by
  unfold State.leaseTo
  repeat first | with_reducible assumption | with_reducible apply State.setSprint_kept | dsimp only | split

theorem State.recheckWait_kept {s : State} (hs : s.keeps bx) (k now : Nat) :
    (State.recheckWait s k now).keeps bx := by
  unfold State.recheckWait
  repeat first | with_reducible assumption | with_reducible apply State.setGroupAt_kept | dsimp only | split

theorem State.restoreGroup_kept {s : State} (hs : s.keeps bx) (d : CtxDesc) (target : Option Nat) (b : List Byte) :
    (State.restoreGroup s d target b).keeps bx := by
  unfold State.restoreGroup
  repeat first
    | with_reducible assumption | intro _ | with_reducible apply State.settleGroup_kept | with_reducible apply State.modGroup_kept
    | with_reducible apply State.leaseTo_kept | with_reducible apply State.orderRestored_kept | with_reducible apply State.endGroup_kept
    | with_reducible apply State.recheckWait_kept | with_reducible apply State.decideLate_kept | dsimp only | split

theorem State.ctxEffect_kept {s : State} (hs : s.keeps bx) (g : Group) (fn : Nat) (d : CtxDesc) (target : Option Nat) (a : Nat) (image : List Byte) :
    (State.ctxEffect s g fn d target a image).keeps bx := by
  unfold State.ctxEffect
  repeat first
    | with_reducible assumption | intro _ | with_reducible apply State.closeGroup_kept | with_reducible apply State.leafWrite_kept
    | with_reducible apply State.modGroup_kept | with_reducible apply State.restoreGroup_kept | with_reducible apply State.drainGroup_kept
    | with_reducible apply State.putWgImage_kept | with_reducible apply State.modOwner_kept | with_reducible apply foldl_kept | dsimp only
    | split

theorem execContextOpComplete_kept {s : State} (hs : s.keeps bx) (k : Nat) :
    Ends (execContextOpComplete k s) (State.keeps bx) := by
  unfold execContextOpComplete
  repeat first
    | with_reducible assumption | intro _ | with_reducible apply ends_next | with_reducible apply State.ctxEffect_kept
    | with_reducible apply State.resume_kept | dsimp only | split

end Sys2Proof.Machine
end

