-- ==== Sys2Proof/Laws/KeptFabric.lean ====
section
/-! SUPPORT. The operations of Machine/Fabric.lean keep what `State.keeps` says. -/

namespace Sys2Proof.Machine

variable {bx : Option (List BoxRec)}

theorem State.setPacket_kept {s : State} (hs : s.keeps bx) (k : Nat) (x : Packet) :
    (State.setPacket s k x).keeps bx := by
  unfold State.setPacket
  repeat first | with_reducible assumption | dsimp only

theorem State.dropPacket_kept {s : State} (hs : s.keeps bx) (k : Nat) :
    (State.dropPacket s k).keeps bx := by
  unfold State.dropPacket
  repeat first | with_reducible assumption | dsimp only

theorem State.refill_kept {s : State} (hs : s.keeps bx) (o r q : Nat) (reply : Bool) :
    (State.refill s o r q reply).keeps bx := by
  unfold State.refill
  repeat first
    | with_reducible assumption | intro _ | with_reducible apply State.reply_kept | with_reducible apply State.setPacket_kept
    | with_reducible apply foldl_kept | with_reducible apply foldl_kept_snd | with_reducible apply foldl_kept_fst | dsimp only | split

theorem State.enter_kept {s : State} (hs : s.keeps bx) (x : Packet) :
    (State.enter s x).keeps bx := by
  unfold State.enter
  repeat first | with_reducible assumption | with_reducible apply State.refill_kept | with_reducible apply State.reply_kept | dsimp only | split

theorem State.addPacket_kept {s : State} (hs : s.keeps bx) (x : Packet) :
    (State.addPacket s x).keeps bx := by
  unfold State.addPacket
  repeat first | with_reducible assumption | with_reducible apply State.enter_kept | dsimp only

theorem State.sliceAnswers_kept {s : State} (hs : s.keeps bx) (x : Packet) :
    (State.sliceAnswers s x).keeps bx := by
  unfold State.sliceAnswers
  repeat first | with_reducible assumption | with_reducible apply State.addPacket_kept | dsimp only

theorem State.delivered_kept {s : State} (hs : s.keeps bx) (k : Nat) (x : Packet) :
    (State.delivered s k x).keeps bx := by
  unfold State.delivered
  repeat first
    | with_reducible assumption | with_reducible apply State.dropPacket_kept | with_reducible apply State.reply_kept
    | with_reducible apply State.sliceAnswers_kept | with_reducible apply State.addPacket_kept | dsimp only | split

theorem State.flitComes_kept {s : State} (hs : s.keeps bx) (x : Packet) (r q : Nat) :
    (State.flitComes s x r q).keeps bx := by
  unfold State.flitComes
  repeat first | with_reducible assumption | with_reducible apply State.setPacket_kept | dsimp only | split

theorem State.moveFlit_kept {s : State} (hs : s.keeps bx) (k p : Nat) (x : Packet) :
    (State.moveFlit s k p x).keeps bx := by
  unfold State.moveFlit
  repeat first
    | with_reducible assumption | with_reducible apply State.flitComes_kept | with_reducible apply State.delivered_kept | dsimp only | split

theorem State.countHeads_kept {s : State} (hs : s.keeps bx) (o r p : Nat) (reply : Bool) (win : Option Nat) :
    (State.countHeads s o r p reply win).keeps bx := by
  unfold State.countHeads
  repeat first
    | with_reducible assumption | intro _ | with_reducible apply State.reply_kept | with_reducible apply State.setPacket_kept
    | with_reducible apply foldl_kept | with_reducible apply foldl_kept_snd | with_reducible apply foldl_kept_fst | dsimp only | split

theorem State.ageLosers_kept {s : State} (hs : s.keeps bx) (xs : List (Nat × Packet)) (win : Nat) :
    (State.ageLosers s xs win).keeps bx := by
  unfold State.ageLosers
  repeat first
    | with_reducible assumption | intro _ | with_reducible apply State.setPacket_kept | with_reducible apply foldl_kept
    | with_reducible apply foldl_kept_snd | with_reducible apply foldl_kept_fst | dsimp only | split

theorem State.passFlit_kept {s : State} (hs : s.keeps bx) (key p k : Nat) (x : Packet) :
    (State.passFlit s key p k x).keeps bx := by
  unfold State.passFlit
  repeat first
    | with_reducible assumption | with_reducible apply State.hold_kept | with_reducible apply State.dropPacket_kept
    | with_reducible apply State.setPacket_kept | with_reducible apply State.moveFlit_kept | with_reducible apply State.refill_kept
    | with_reducible apply State.reply_kept | dsimp only | split

theorem State.passBeat_kept {s : State} (hs : s.keeps bx) (key p k b : Nat) :
    (State.passBeat s key p k b).keeps bx := by
  unfold State.passBeat
  repeat first
    | with_reducible assumption | with_reducible apply State.hold_kept | with_reducible apply State.reply_kept
    | with_reducible apply State.passFlit_kept | dsimp only | split

theorem State.routerCycle_kept {s : State} (hs : s.keeps bx) (r p o : Nat) (reply : Bool) :
    (State.routerCycle s r p o reply).keeps bx := by
  unfold State.routerCycle
  repeat first
    | with_reducible assumption | with_reducible apply State.reply_kept | with_reducible apply State.hold_kept
    | with_reducible apply State.countHeads_kept | with_reducible apply State.passBeat_kept | with_reducible apply State.ageLosers_kept
    | dsimp only | split

theorem State.ringCycle_kept {s : State} (hs : s.keeps bx) (r o : Nat) :
    (State.ringCycle s r o).keeps bx := by
  unfold State.ringCycle
  repeat first | with_reducible assumption | dsimp only | split

theorem execRouterArbitration_kept {s : State} (hs : s.keeps bx) (r p slot : Nat) :
    Ends (execRouterArbitration r p slot s) (State.keeps bx) := by
  unfold execRouterArbitration
  repeat first
    | with_reducible assumption | with_reducible apply ends_next | with_reducible apply State.ringCycle_kept
    | with_reducible apply State.routerCycle_kept | dsimp only | split

theorem execPacketMisroute_kept {s : State} (hs : s.keeps bx) (r n o p : Nat) :
    Ends (execPacketMisroute r n o p s) (State.keeps bx) := by
  unfold execPacketMisroute
  repeat first
    | with_reducible assumption | with_reducible apply ends_next | with_reducible apply State.reply_kept
    | with_reducible apply State.setPacket_kept | dsimp only | split

theorem execBellwetherCapture_kept {s : State} (hs : s.keeps bx) (o r : Nat) :
    Ends (execBellwetherCapture o r s) (State.keeps bx) := by
  unfold execBellwetherCapture
  repeat first
    | with_reducible assumption | intro _ | with_reducible apply ends_next | with_reducible apply State.refill_kept
    | with_reducible apply State.reply_kept | with_reducible apply foldl_kept | with_reducible apply foldl_kept_snd
    | with_reducible apply foldl_kept_fst | dsimp only | split

theorem execDeadlockLaneEject_kept {s : State} (hs : s.keeps bx) (o : Nat) :
    Ends (execDeadlockLaneEject o s) (State.keeps bx) := by
  unfold execDeadlockLaneEject
  repeat first | with_reducible assumption | with_reducible apply ends_next | with_reducible apply State.delivered_kept | dsimp only | split

theorem State.setWay_kept {s : State} (hs : s.keeps bx) (l : Nat) (x : LinkWay) :
    (State.setWay s l x).keeps bx := by
  unfold State.setWay
  repeat first | with_reducible assumption | dsimp only

theorem State.setLink_kept {s : State} (hs : s.keeps bx) (l : Nat) (x : Link) :
    (State.setLink s l x).keeps bx := by
  unfold State.setLink
  repeat first | with_reducible assumption | dsimp only

theorem State.linkEvent_kept {s : State} (hs : s.keeps bx) (l code : Nat) :
    (State.linkEvent s l code).keeps bx := by
  unfold State.linkEvent
  repeat first | with_reducible assumption | intro _ | with_reducible apply State.post_kept | with_reducible apply foldl_kept | dsimp only | split

theorem State.retrain_kept {s : State} (hs : s.keeps bx) (l : Nat) (lost : Bool) :
    (State.retrain s l lost).keeps bx := by
  unfold State.retrain
  repeat first
    | with_reducible assumption | with_reducible apply State.setLink_kept | with_reducible apply State.holdAll_kept
    | with_reducible apply State.schedule_kept | dsimp only | split

theorem execLaneFailure_kept {s : State} (hs : s.keeps bx) (l : Nat) :
    Ends (execLaneFailure l s) (State.keeps bx) := by
  unfold execLaneFailure
  repeat first | with_reducible assumption | with_reducible apply ends_next | with_reducible apply State.retrain_kept | dsimp only | split

theorem State.scaleSlots_kept {s : State} (hs : s.keeps bx) (l : Nat) (x : Link) (lost : Nat) :
    (State.scaleSlots s l x lost).keeps bx := by
  unfold State.scaleSlots
  repeat first | with_reducible assumption | intro _ | with_reducible apply State.setLink_kept | with_reducible apply foldl_kept | dsimp only

theorem State.noRetry_kept {s : State} (hs : s.keeps bx) (l : Nat) :
    (State.noRetry s l).keeps bx := by
  unfold State.noRetry
  repeat first | with_reducible assumption | intro _ | dsimp only

theorem State.endRetrain_kept {s : State} (hs : s.keeps bx) (l : Nat) (x : Link) :
    (State.endRetrain s l x).keeps bx := by
  unfold State.endRetrain
  repeat first
    | with_reducible assumption | with_reducible apply State.noRetry_kept | with_reducible apply State.setLink_kept
    | with_reducible apply State.scaleSlots_kept | with_reducible apply State.unholdAll_kept | with_reducible apply State.retrain_kept
    | dsimp only | split

theorem execRetrainComplete_kept {s : State} (hs : s.keeps bx) (l : Nat) :
    Ends (execRetrainComplete l s) (State.keeps bx) := by
  unfold execRetrainComplete
  repeat first
    | with_reducible assumption | with_reducible apply ends_next | with_reducible apply State.noRetry_kept
    | with_reducible apply State.setLink_kept | with_reducible apply State.linkEvent_kept | with_reducible apply State.endRetrain_kept
    | dsimp only | split

theorem execRetrainRetry_kept {s : State} (hs : s.keeps bx) (l : Nat) :
    Ends (execRetrainRetry l s) (State.keeps bx) := by
  unfold execRetrainRetry
  repeat first
    | with_reducible assumption | with_reducible apply ends_next | with_reducible apply State.setLink_kept
    | with_reducible apply State.linkEvent_kept | with_reducible apply State.freezeBox_kept | with_reducible apply State.schedule_kept
    | dsimp only | split

theorem State.relink_kept {s : State} (hs : s.keeps bx) :
    (State.relink s).keeps bx := by
  unfold State.relink
  repeat first
    | with_reducible assumption | intro _ | with_reducible apply State.endRetrain_kept | with_reducible apply foldl_kept
    | with_reducible apply foldl_kept_snd | with_reducible apply foldl_kept_fst | dsimp only | split

theorem State.inject_kept {s : State} (hs : s.keeps bx) (l : Nat) (o : Nat) (cargo : List MeshFlit) :
    (State.inject s l o cargo).keeps bx := by
  unfold State.inject
  repeat first
    | with_reducible assumption | intro _ | with_reducible apply State.reply_kept | with_reducible apply State.addPacket_kept
    | with_reducible apply State.enter_kept | dsimp only | split

theorem State.unpack_kept {s : State} (hs : s.keeps bx) (l o : Nat) (m : MeshFlit) :
    (State.unpack s l o m).keeps bx := by
  unfold State.unpack
  repeat first | with_reducible assumption | with_reducible apply State.setWay_kept | with_reducible apply State.inject_kept | dsimp only | split

theorem State.sentFlit_kept {s : State} (hs : s.keeps bx) (l : Nat) (f : Flit) {x' : Flit} {t' : State} (e : (State.sentFlit s l f) = some (x', t')) :
    t'.keeps bx := by
  unfold State.sentFlit at e
  revert e
  repeat' first | dsimp only | split | (intro e; cases e)
  all_goals
    repeat first | with_reducible assumption | intro _ | with_reducible apply State.setWay_kept | dsimp only | split

theorem execFlitReceive_kept {s : State} (hs : s.keeps bx) (l : Nat) (f : Flit) :
    Ends (execFlitReceive l f s) (State.keeps bx) := by
  unfold execFlitReceive
  repeat first
    | with_reducible assumption | intro _ | with_reducible apply ends_next | with_reducible refine State.sentFlit_kept (e := by assumption) ?_
    | with_reducible apply State.unpack_kept | with_reducible apply State.setWay_kept | with_reducible apply foldl_kept | dsimp only | split

theorem execFlitAcknowledge_kept {s : State} (hs : s.keeps bx) (l n : Nat) :
    Ends (execFlitAcknowledge l n s) (State.keeps bx) := by
  unfold execFlitAcknowledge
  repeat first | with_reducible assumption | intro _ | with_reducible apply ends_next | with_reducible apply State.setWay_kept | dsimp only | split

theorem execFlitReplay_kept {s : State} (hs : s.keeps bx) (l n : Nat) :
    Ends (execFlitReplay l n s) (State.keeps bx) := by
  unfold execFlitReplay
  repeat first
    | with_reducible assumption | intro _ | with_reducible apply ends_next | with_reducible apply State.setWay_kept
    | with_reducible apply State.retrain_kept | with_reducible apply getD_kept | dsimp only | split

theorem execL2ColumnOff_kept {s : State} (hs : s.keeps bx) (q c : Nat) :
    Ends (execL2ColumnOff q c s) (State.keeps bx) := by
  unfold execL2ColumnOff
  repeat first | with_reducible assumption | intro _ | with_reducible apply ends_next | dsimp only | split

end Sys2Proof.Machine
end

