-- ==== Sys2Proof/Laws/KeptHostPort.lean ====
section
/-! SUPPORT. The operations of Machine/HostPort.lean keep what `State.keeps` says. -/

namespace Sys2Proof.Machine

variable {bx : Option (List BoxRec)}

theorem State.window_kept {s : State} (hs : s.keeps bx) (o : Nat) (f : Owner → Owner) :
    (State.window s o f).keeps bx := by
  unfold State.window
  repeat first | with_reducible assumption | with_reducible apply State.modOwner_kept | dsimp only | split

theorem execRegisterWrite_kept {s : State} (hs : s.keeps bx) (o a : Nat) (v : Dword) :
    Ends (execRegisterWrite o a v s) (State.keeps bx) := by
  unfold execRegisterWrite
  repeat first | with_reducible assumption | intro _ | with_reducible apply ends_next | with_reducible apply State.window_kept | dsimp only | split

theorem execLqCtlWrite_kept {s : State} (hs : s.keeps bx) (o q : Nat) (v : Word) :
    Ends (execLqCtlWrite o q v s) (State.keeps bx) := by
  unfold execLqCtlWrite
  repeat first | with_reducible assumption | intro _ | with_reducible apply ends_next | with_reducible apply State.window_kept | dsimp only | split

theorem execLqTailWrite_kept {s : State} (hs : s.keeps bx) (o q : Nat) (v : Word) :
    Ends (execLqTailWrite o q v s) (State.keeps bx) := by
  unfold execLqTailWrite
  repeat first | with_reducible assumption | intro _ | with_reducible apply ends_next | with_reducible apply State.window_kept | dsimp only | split

theorem execEvCtlWrite_kept {s : State} (hs : s.keeps bx) (o : Nat) (v : Word) :
    Ends (execEvCtlWrite o v s) (State.keeps bx) := by
  unfold execEvCtlWrite
  repeat first
    | with_reducible assumption | intro _ | with_reducible apply ends_next | with_reducible apply State.window_kept
    | with_reducible apply State.flushEvents_kept | dsimp only | split

theorem execEvHeadWrite_kept {s : State} (hs : s.keeps bx) (o : Nat) (v : Word) :
    Ends (execEvHeadWrite o v s) (State.keeps bx) := by
  unfold execEvHeadWrite
  repeat first
    | with_reducible assumption | intro _ | with_reducible apply ends_next | with_reducible apply State.window_kept
    | with_reducible apply State.flushEvents_kept | dsimp only | split

theorem execFreeze_kept {s : State} (hs : s.keeps bx) :
    Ends (execFreeze s) (State.keeps bx) := by
  unfold execFreeze
  repeat first | with_reducible assumption | with_reducible apply ends_next | with_reducible apply State.freezeBox_kept | dsimp only | split

theorem State.hostMemory_kept {s : State} (hs : s.keeps bx) (a : Nat) (w : Option Byte) :
    Ends (State.hostMemory s a w) (State.keeps bx) := by
  unfold State.hostMemory
  repeat first
    | with_reducible assumption | with_reducible apply ends_next | with_reducible exact ends_fault _ | with_reducible apply State.putMem_kept
    | dsimp only | split

theorem execHostMemoryRequest_kept {s : State} (hs : s.keeps bx) (a : Nat) (w : HostAccess) :
    Ends (execHostMemoryRequest a w s) (State.keeps bx) := by
  unfold execHostMemoryRequest
  repeat first | with_reducible assumption | with_reducible apply ends_next | with_reducible apply State.hostMemory_kept | dsimp only | split

theorem State.spdmAnswer_kept {s : State} (hs : s.keeps bx) (f : Spdm → Spdm × SpdmReply) :
    (State.spdmAnswer s f).keeps bx := by
  unfold State.spdmAnswer
  repeat first | with_reducible assumption | dsimp only | split

theorem execGetVersion_kept {s : State} (hs : s.keeps bx) :
    Ends (execGetVersion s) (State.keeps bx) := by
  unfold execGetVersion
  repeat first | with_reducible assumption | intro _ | with_reducible apply ends_next | with_reducible apply State.spdmAnswer_kept | dsimp only

theorem execGetCapabilities_kept {s : State} (hs : s.keeps bx) (v : Nat) :
    Ends (execGetCapabilities v s) (State.keeps bx) := by
  unfold execGetCapabilities
  repeat first
    | with_reducible assumption | intro _ | with_reducible apply ends_next | with_reducible apply State.spdmAnswer_kept | dsimp only | split

theorem execNegotiateAlgorithms_kept {s : State} (hs : s.keeps bx) (r : SpdmOffer) :
    Ends (execNegotiateAlgorithms r s) (State.keeps bx) := by
  unfold execNegotiateAlgorithms
  repeat first | with_reducible assumption | intro _ | with_reducible apply ends_next | with_reducible apply State.spdmAnswer_kept | dsimp only

theorem execGetDigests_kept {s : State} (hs : s.keeps bx) :
    Ends (execGetDigests s) (State.keeps bx) := by
  unfold execGetDigests
  repeat first | with_reducible assumption | intro _ | with_reducible apply ends_next | with_reducible apply State.spdmAnswer_kept | dsimp only

theorem execGetCertificate_kept {s : State} (hs : s.keeps bx) (c a n : Nat) :
    Ends (execGetCertificate c a n s) (State.keeps bx) := by
  unfold execGetCertificate
  repeat first
    | with_reducible assumption | intro _ | with_reducible apply ends_next | with_reducible apply State.spdmAnswer_kept | dsimp only | split

theorem execChallenge_kept {s : State} (hs : s.keeps bx) (c n : Nat) :
    Ends (execChallenge c n s) (State.keeps bx) := by
  unfold execChallenge
  repeat first
    | with_reducible assumption | intro _ | with_reducible apply ends_next | with_reducible apply State.spdmAnswer_kept | dsimp only | split

theorem execGetMeasurements_kept {s : State} (hs : s.keeps bx) (i : Nat) :
    Ends (execGetMeasurements i s) (State.keeps bx) := by
  unfold execGetMeasurements
  repeat first
    | with_reducible assumption | intro _ | with_reducible apply ends_next | with_reducible apply State.spdmAnswer_kept | dsimp only | split

theorem execKeyExchange_kept {s : State} (hs : s.keeps bx) (c : Nat) (p : Option Nat) :
    Ends (execKeyExchange c p s) (State.keeps bx) := by
  unfold execKeyExchange
  repeat first
    | with_reducible assumption | intro _ | with_reducible apply ends_next | with_reducible apply State.spdmAnswer_kept | dsimp only | split

theorem execFinish_kept {s : State} (hs : s.keeps bx) (i : Nat) (m : Bool) :
    Ends (execFinish i m s) (State.keeps bx) := by
  unfold execFinish
  repeat first
    | with_reducible assumption | intro _ | with_reducible apply ends_next | with_reducible apply State.spdmAnswer_kept
    | with_reducible apply State.modOwner_kept | dsimp only | split

theorem State.inSession_kept {s : State} (hs : s.keeps bx) (i : Nat) (f : Spdm → Session → Spdm × SpdmReply) :
    (State.inSession s i f).keeps bx := by
  unfold State.inSession
  repeat first | with_reducible assumption | intro _ | with_reducible apply State.spdmAnswer_kept | dsimp only | split

theorem execHeartbeat_kept {s : State} (hs : s.keeps bx) (i : Nat) :
    Ends (execHeartbeat i s) (State.keeps bx) := by
  unfold execHeartbeat
  repeat first | with_reducible assumption | intro _ | with_reducible apply ends_next | with_reducible apply State.inSession_kept | dsimp only

theorem execKeyUpdate_kept {s : State} (hs : s.keeps bx) (i : Nat) :
    Ends (execKeyUpdate i s) (State.keeps bx) := by
  unfold execKeyUpdate
  repeat first | with_reducible assumption | intro _ | with_reducible apply ends_next | with_reducible apply State.inSession_kept | dsimp only

theorem execEndSession_kept {s : State} (hs : s.keeps bx) (i : Nat) :
    Ends (execEndSession i s) (State.keeps bx) := by
  unfold execEndSession
  repeat first | with_reducible assumption | intro _ | with_reducible apply ends_next | with_reducible apply State.inSession_kept | dsimp only | split

theorem execUnsupportedSpdmRequest_kept {s : State} (hs : s.keeps bx) (_c : Nat) :
    Ends (execUnsupportedSpdmRequest _c s) (State.keeps bx) := by
  unfold execUnsupportedSpdmRequest
  repeat first | with_reducible assumption | intro _ | with_reducible apply ends_next | with_reducible apply State.spdmAnswer_kept | dsimp only

theorem State.admitSys_kept {s : State} (hs : s.keeps bx) (r : PartRec) :
    (State.admitSys s r).keeps bx := by
  unfold State.admitSys
  repeat first
    | with_reducible assumption | intro _ | with_reducible apply State.enrol_kept | with_reducible apply State.setSlots_kept
    | with_reducible apply State.modOwner_kept | with_reducible apply foldl_kept | with_reducible apply foldl_kept_snd
    | with_reducible apply foldl_kept_fst | dsimp only

theorem execPowerGood_kept {s : State} (hs : s.keeps bx) (r : BringUp) :
    Ends (execPowerGood r s) (State.keeps bx) := by
  unfold execPowerGood
  repeat first
    | with_reducible assumption | intro _ | with_reducible apply ends_next | with_reducible apply State.freezeBox_kept
    | with_reducible apply State.admitSys_kept | with_reducible apply State.schedule_kept | with_reducible apply foldl_kept
    | with_reducible apply foldl_kept_snd | with_reducible apply foldl_kept_fst | with_reducible apply getD_kept | dsimp only | split

theorem execWarmReset_kept {s : State} (hs : s.keeps bx) :
    Ends (execWarmReset s) (State.keeps bx) := by
  unfold execWarmReset
  repeat first | with_reducible assumption | with_reducible exact ⟨⟨rfl, hs.1.2⟩, hs.2⟩ | with_reducible apply ends_next | dsimp only

end Sys2Proof.Machine
end

