-- ==== Sys2Proof/Laws/KeptSched.lean ====
section
/-! SUPPORT. The operations of Machine/Sched.lean keep what `State.keeps` says. -/

namespace Sys2Proof.Machine

variable {bx : Option (List BoxRec)}

theorem State.settleWait_kept {s : State} (hs : s.keeps bx) (p : Nat × WaitOp) :
    (State.settleWait s p).keeps bx := by
  unfold State.settleWait
  repeat first
    | with_reducible assumption | with_reducible apply State.withdrawDeq_kept | with_reducible apply State.treeTry_kept
    | with_reducible apply State.trapWaiting_kept | dsimp only | split

theorem State.settleBarriers_kept {s : State} (hs : s.keeps bx) (wg : Nat) :
    (State.settleBarriers s wg).keeps bx := by
  unfold State.settleBarriers
  repeat first
    | with_reducible assumption | intro _ | with_reducible apply State.trapGroup_kept | with_reducible apply foldl_kept | dsimp only | split

theorem State.settle_kept {s : State} (hs : s.keeps bx) :
    (State.settle s).keeps bx := by
  unfold State.settle
  repeat first
    | with_reducible assumption | intro _ | with_reducible apply State.wakeCommits_kept | with_reducible apply State.tellDependants_kept
    | with_reducible apply State.settleWait_kept | with_reducible apply State.settleBarriers_kept | with_reducible apply foldl_kept | dsimp only
    | split

theorem State.tidyWgs_kept {s : State} (hs : s.keeps bx) :
    (State.tidyWgs s).keeps bx := by
  unfold State.tidyWgs
  repeat first
    | with_reducible assumption | intro _ | with_reducible apply State.soon_kept | with_reducible apply foldl_kept
    | with_reducible apply foldl_kept_snd | with_reducible apply foldl_kept_fst | dsimp only | split

theorem State.tidyLaunches_kept {s : State} (hs : s.keeps bx) :
    (State.tidyLaunches s).keeps bx := by
  unfold State.tidyLaunches
  repeat first
    | with_reducible assumption | intro _ | with_reducible apply State.soon_kept | with_reducible apply foldl_kept
    | with_reducible apply foldl_kept_snd | with_reducible apply foldl_kept_fst | dsimp only | split

theorem State.tidyLanes_kept {s : State} (hs : s.keeps bx) :
    (State.tidyLanes s).keeps bx := by
  unfold State.tidyLanes
  repeat first
    | with_reducible assumption | intro _ | with_reducible apply goOn_kept | with_reducible apply execRetirement_kept
    | with_reducible apply foldl_kept | with_reducible apply foldl_kept_snd | with_reducible apply foldl_kept_fst | dsimp only | split

theorem State.tidy_kept {s : State} (hs : s.keeps bx) :
    (State.tidy s).keeps bx := by
  unfold State.tidy
  repeat first
    | with_reducible assumption | with_reducible apply State.relink_kept | with_reducible apply State.tidyWgs_kept
    | with_reducible apply State.tidyLaunches_kept | with_reducible apply State.tidyLanes_kept | with_reducible apply State.physicalHolds_kept
    | dsimp only

theorem State.deliverTrap_kept {s : State} (hs : s.keeps bx) :
    (State.deliverTrap s).keeps bx := by
  unfold State.deliverTrap
  repeat first | with_reducible assumption | with_reducible apply State.trapAtPc_kept | with_reducible apply State.setGrp_kept | dsimp only | split

theorem execDeferredTrapDelivery_kept {s : State} (hs : s.keeps bx) (gid : Nat) :
    Ends (execDeferredTrapDelivery gid s) (State.keeps bx) := by
  unfold execDeferredTrapDelivery
  repeat first | with_reducible assumption | with_reducible apply ends_next | with_reducible apply State.deliverTrap_kept | dsimp only | split

theorem State.atBoundary_kept {s : State} (hs : s.keeps bx) (i : Nat) :
    (State.atBoundary s i).keeps bx := by
  unfold State.atBoundary
  repeat first
    | with_reducible assumption | intro _ | with_reducible apply State.beginAll_kept | with_reducible apply State.applyHolds_kept
    | with_reducible apply State.clockFall_kept | with_reducible apply State.tidyLanes_kept | with_reducible apply State.stepClock_kept
    | with_reducible apply State.meltAhead_kept | with_reducible apply State.droverSlot_kept | with_reducible apply foldl_kept | dsimp only
    | split

theorem State.charge_kept {s : State} (hs : s.keeps bx) (i : Instr) :
    (State.charge s i).keeps bx := by
  unfold State.charge
  repeat first | with_reducible assumption | intro _ | with_reducible apply State.modOwner_kept | dsimp only | split

theorem State.passYield_kept {s : State} (hs : s.keeps bx) (ks rdy : List Nat) :
    (State.passYield s ks rdy).keeps bx := by
  unfold State.passYield
  repeat first | with_reducible assumption | intro _ | with_reducible apply State.modGroup_kept | with_reducible apply foldl_kept | dsimp only | split

theorem State.choose_kept {s : State} (hs : s.keeps bx) (o core lane : Nat) (own : Bool) :
    (State.choose s o core lane own).2.keeps bx := by
  unfold State.choose
  repeat first
    | with_reducible assumption | intro _ | with_reducible apply State.passYield_kept | with_reducible apply State.modGroup_kept
    | with_reducible apply foldl_kept | dsimp only | split

theorem State.choose_kept2 {s : State} (hs : s.keeps bx) (o core lane : Nat) (own : Bool) {x' : Option Nat} {s' : State} (e : (State.choose s o core lane own) = (x', s')) : s'.keeps bx := by
  have := State.choose_kept hs o core lane own
  rwa [e] at this

theorem State.issueTo_kept {s : State} (hs : s.keeps bx) (k : Nat) :
    (State.issueTo s k).keeps bx := by
  unfold State.issueTo
  repeat first
    | with_reducible assumption | intro _ | with_reducible apply State.modGroup_kept | with_reducible apply foldl_kept
    | with_reducible apply foldl_kept_snd | with_reducible apply foldl_kept_fst | dsimp only

theorem State.serveSlice_kept {s : State} (hs : s.keeps bx) (o core lane : Nat) :
    (State.serveSlice s o core lane).keeps bx := by
  unfold State.serveSlice
  repeat first
    | with_reducible assumption | intro _ | with_reducible apply State.matrixServe_kept | with_reducible apply foldl_kept | dsimp only | split

theorem State.offer_kept {s : State} (hs : s.keeps bx) (o core lane : Nat) (own : Bool) {t' : State} (e : (State.offer s o core lane own) = some t') :
    t'.keeps bx := by
  unfold State.offer at e
  revert e
  repeat' first | dsimp only | split | (intro e; cases e)
  all_goals
    repeat first
      | with_reducible assumption | intro _ | with_reducible apply State.choose_kept
      | with_reducible refine State.choose_kept2 (e := by assumption) ?_ | with_reducible apply State.serveSlice_kept
      | with_reducible apply State.issueTo_kept | dsimp only | split

theorem State.give_kept {s : State} (hs : s.keeps bx) (o core lane : Nat) {t' : State} (e : (State.give s o core lane) = some t') :
    t'.keeps bx := by
  unfold State.give at e
  revert e
  repeat' first | dsimp only | split | (intro e; cases e)
  all_goals
    repeat first
      | with_reducible assumption | intro _ | with_reducible refine State.offer_kept (e := by assumption) ?_
      | with_reducible apply State.modOwner_kept | dsimp only | split

theorem State.serveLane_kept {s : State} (hs : s.keeps bx) (key : Nat) :
    (State.serveLane s key).keeps bx := by
  unfold State.serveLane
  repeat first
    | with_reducible assumption | intro _ | with_reducible refine State.offer_kept (e := by assumption) ?_
    | with_reducible refine State.give_kept (e := by assumption) ?_ | with_reducible apply State.choose_kept
    | with_reducible refine State.choose_kept2 (e := by assumption) ?_ | with_reducible apply State.serveSlice_kept
    | with_reducible apply State.modGroup_kept | with_reducible apply foldl_kept | with_reducible apply foldl_kept_snd
    | with_reducible apply foldl_kept_fst | with_reducible apply getD_kept | dsimp only | split

theorem State.countOwner_kept {s : State} (hs : s.keeps bx) (i o : Nat) :
    (State.countOwner s i o).keeps bx := by
  unfold State.countOwner
  repeat first | with_reducible assumption | intro _ | with_reducible apply State.modOwner_kept | dsimp only | split

theorem State.tickIsland_kept {s : State} (hs : s.keeps bx) (i : Nat) :
    (State.tickIsland s i).keeps bx := by
  unfold State.tickIsland
  repeat first
    | with_reducible assumption | intro _ | with_reducible apply State.setIsland_kept | with_reducible apply State.countOwner_kept
    | with_reducible apply foldl_kept | dsimp only | split

theorem State.advance_kept {s : State} (hs : s.keeps bx) :
    (State.advance s).keeps bx := by
  unfold State.advance
  repeat first
    | with_reducible assumption | intro _ | with_reducible apply State.tickIsland_kept | with_reducible apply foldl_kept | dsimp only | split

end Sys2Proof.Machine
end

