-- ==== Sys2Proof/Laws/KeptStep.lean ====
section
/-! SUPPORT. The operations of Machine/Step.lean keep what `State.keeps` says. -/

namespace Sys2Proof.Machine

variable {bx : Option (List BoxRec)}

theorem inbox_kept {s : State} (hs : s.keeps bx) (es : List Instr) : State.keeps bx { s with inbox := es } := hs

theorem agenda_kept {s : State} (hs : s.keeps bx) (ps : List Pend) : State.keeps bx { s with agenda := ps } := hs

theorem lanesLeft_kept {s : State} (hs : s.keeps bx) (ks : List Nat) : State.keeps bx { s with lanesLeft := ks } := hs

theorem State.closed_kept {s : State} (hs : s.keeps bx) : s.closed.keeps bx := hs

theorem State.afterIssue_kept {s t : State} (ht : t.keeps bx) (second : Bool) (i : Instr) : (State.afterIssue s second i t).keeps bx := by
  unfold State.afterIssue
  with_reducible exact State.tidy_kept ht

theorem State.putWord_kept {s : State} (hs : s.keeps bx) (pa w : Nat) :
    (State.putWord s pa w).keeps bx := by
  unfold State.putWord
  repeat first | with_reducible assumption | with_reducible apply State.putMem_kept | dsimp only

theorem State.withProgram_kept {s : State} (hs : s.keeps bx) :
    (State.withProgram s).keeps bx := by
  unfold State.withProgram
  repeat first
    | with_reducible assumption | intro _ | with_reducible apply State.putMem_kept | with_reducible apply foldl_kept
    | with_reducible apply foldl_kept_snd | with_reducible apply foldl_kept_fst | dsimp only | split

theorem State.withFetchWord_kept {s : State} (hs : s.keeps bx) (nbits w : Nat) :
    (State.withFetchWord s nbits w).keeps bx := by
  unfold State.withFetchWord
  repeat first
    | with_reducible assumption | with_reducible apply State.putWord_kept | with_reducible apply State.withProgram_kept | dsimp only | split

end Sys2Proof.Machine
end

