-- ==== Sys2Proof/Laws/Predicates.lean ====
section
/-! SUPPORT. What writing a predicate for each lane does. -/

namespace Sys2Proof.Machine

theorem Group.setP_getP (g : Group) (i j : BitVec 3) (t x : Nat) (b : Bool) (ht : t < 32) :
    (g.setP i t b).getP j x = if j = i ∧ x = t then (decide (j = 7#3) || b) else g.getP j x := by
  have e : j.toNat = i.toNat ↔ j = i := ⟨fun h => BitVec.eq_of_toNat_eq h, fun h => by rw [h]⟩
  unfold Group.getP Group.setP
  dsimp only
  rw [mapGet_mapSet]
  simp only [e]
  by_cases hj : j = i
  · subst hj
    rw [if_pos rfl]
    by_cases hx : x = t
    · subst hx
      cases b <;> simp [ht]
    · have hx' : ¬ t = x := fun h => hx h.symm
      cases b with
      | true => simp [BitVec.getLsbD_twoPow, hx, hx']
      | false =>
        by_cases h32 : x < 32
        · simp [hx, h32]
        · simp [BitVec.getLsbD_of_ge _ _ (Nat.le_of_not_lt h32), hx]
  · simp [hj]

theorem Group.setQ_getQ (g : Group) (i j : BitVec 3) (b : Bool) (hi : i ≠ 7#3) :
    (g.setQ i b).getQ j = if j = i then b else g.getQ j := by
  have e : i.toNat = j.toNat ↔ j = i := ⟨fun h => BitVec.eq_of_toNat_eq h.symm, fun h => by rw [h]⟩
  have hlt : i.toNat < 7 := by
    have h1 := i.isLt
    have h2 : i.toNat ≠ 7 := fun h => hi (BitVec.eq_of_toNat_eq h)
    omega
  unfold Group.getQ Group.setQ
  dsimp only
  by_cases hj : j = i
  · subst hj
    cases b <;> simp [hlt, hi]
  · have hn : ¬ i.toNat = j.toNat := fun h => hj (e.1 h)
    by_cases h7 : j.toNat < 7
    · cases b <;> simp [hj, Ne.symm hn, h7]
    · have : j = 7#3 := BitVec.eq_of_toNat_eq (by have := j.isLt; simp; omega)
      subst this
      cases b <;> simp [hj]

theorem Group.wp_rp (g : Group) {u : Bool} {l l' : Lane} (i j : BitVec 3) (b : Bool) (hi : i ≠ 7#3) (hl : laneFits u l) (hl' : laneFits u l') :
    (g.wp l i b).rp l' j = if j = i ∧ l' = l then b else g.rp l' j := by
  cases l with
  | none =>
    cases l' with
    | none => simpa [Group.wp, Group.rp] using g.setQ_getQ i j b hi
    | some x => exact absurd (hl.symm.trans hl'.1) (by simp)
  | some t =>
    cases l' with
    | none => exact absurd (hl.1.symm.trans hl') (by simp)
    | some x =>
      have := g.setP_getP i j t x b hl.2
      simp only [Group.wp, Group.rp, Option.some.injEq]
      rw [this]
      split_ifs with h
      · rw [h.1]
        simp [hi]
      · rfl

theorem Group.writePred_cons (g : Group) (l : Lane) (ls : List Lane) (p : BitVec 3) (f : Lane → Bool) :
    g.writePred (l :: ls) p f = (g.wp l p (f l)).writePred ls p f := rfl

theorem Group.writePred_only (g : Group) (ls : List Lane) (p : BitVec 3) (f : Lane → Bool) :
    ∃ v w, g.writePred ls p f = { g with p := v, q := w } := by
  induction ls generalizing g with
  | nil => exact ⟨g.p, g.q, rfl⟩
  | cons l ls ih =>
    obtain ⟨v, w, e⟩ := ih (g.wp l p (f l))
    refine ⟨v, w, ?_⟩
    rw [Group.writePred_cons, e]
    cases l <;> rfl

theorem Group.writePred_eta (g : Group) (ls : List Lane) (p : BitVec 3) (f : Lane → Bool) :
    g.writePred ls p f = { g with p := (g.writePred ls p f).p, q := (g.writePred ls p f).q } := by
  obtain ⟨v, w, e⟩ := g.writePred_only ls p f
  rw [e]

theorem Group.writePred_rp (g : Group) {u : Bool} {ls : List Lane} {p : BitVec 3} {f : Lane → Bool} {l : Lane} {i : BitVec 3}
    (hp : p ≠ 7#3) (hls : ∀ l ∈ ls, laneFits u l) (hl : laneFits u l) :
    (g.writePred ls p f).rp l i = if i = p ∧ l ∈ ls then f l else g.rp l i := by
  induction ls generalizing g with
  | nil => simp [Group.writePred]
  | cons x xs ih =>
    rw [Group.writePred_cons, ih _ (fun y hy => hls y (List.mem_cons_of_mem _ hy)), g.wp_rp p i _ hp (hls x (by simp)) hl]
    by_cases hr : i = p <;> by_cases hx : l = x <;> by_cases hm : l ∈ xs <;> simp [hr, hx, hm]

theorem Group.writePred_other_p (g : Group) {ls : List Lane} {p : BitVec 3} {f : Lane → Bool} (hls : ∀ l ∈ ls, l = none) :
    (g.writePred ls p f).p = g.p := by
  induction ls generalizing g with
  | nil => rfl
  | cons x xs ih =>
    rw [Group.writePred_cons, ih _ (fun y hy => hls y (List.mem_cons_of_mem _ hy)), hls x (by simp)]
    rfl

theorem Group.writePred_other_q (g : Group) {ls : List Lane} {p : BitVec 3} {f : Lane → Bool} (hls : ∀ l ∈ ls, l ≠ none) :
    (g.writePred ls p f).q = g.q := by
  induction ls generalizing g with
  | nil => rfl
  | cons x xs ih =>
    rw [Group.writePred_cons, ih _ (fun y hy => hls y (List.mem_cons_of_mem _ hy))]
    cases x with
    | none => exact absurd rfl (hls none (by simp))
    | some t => rfl

theorem Group.rp_of_eq {g g' : Group} (hp : g'.p = g.p) (hq : g'.q = g.q) (l : Lane) (i : BitVec 3) : g'.rp l i = g.rp l i := by
  cases l with
  | none => simp [Group.rp, Group.getQ, hq]
  | some t => simp [Group.rp, Group.getP, hp]

@[simp] theorem Group.complete_rp (g : Group) (l : Lane) (i : BitVec 3) : g.complete.rp l i = g.rp l i :=
  Group.rp_of_eq g.complete_p g.complete_q l i

@[simp] theorem Group.stamp_rp (g : Group) (n l : Nat) (ls : List Lane) (ks : List Nat) (x : Lane) (i : BitVec 3) :
    (g.stamp n l ls ks).rp x i = g.rp x i :=
  Group.rp_of_eq (g.stamp_p n l ls ks) (g.stamp_q n l ls ks) x i

theorem State.setPreds_grp_rp (s : State) (u : Bool) (h : Guard) (p : BitVec 3) (lat : Nat) (f : Lane → Bool) (hp : p ≠ 7#3) {l : Lane}
    (hl : l ∈ s.grp.lanes u h) : (s.setPreds u h p lat f).grp.rp l p = f l := by
  unfold State.setPreds
  dsimp only
  rw [State.finish_grp, Group.complete_rp, Group.stamp_rp, Group.writePred_rp s.grp hp (fun _ hx => Group.lanes_fit hx) (Group.lanes_fit hl)]
  simp [hl]

/-- `setPreds`: every other predicate, and every other part of the state, stays as completing leaves it. -/
theorem State.setPreds_wrote (s : State) (u : Bool) (h : Guard) (p : BitVec 3) (lat : Nat) (f : Lane → Bool) (hp : p ≠ 7#3) :
    WrotePred s (s.setPreds u h p lat f) u h p := by
  have e := Group.writePred_eta s.grp (s.grp.lanes u h) p f
  have hf : ∀ l i, laneFits u l → (i ≠ p ∨ l ∉ s.grp.lanes u h) → (s.setPreds u h p lat f).grp.rp l i = s.grp.rp l i := by
    intro l i hl hi
    unfold State.setPreds
    dsimp only
    rw [State.finish_grp, Group.complete_rp, Group.stamp_rp, Group.writePred_rp s.grp hp (fun _ hx => Group.lanes_fit hx) hl, if_neg]
    tauto
  have hpq : (s.setPreds u h p lat f).grp.p = (s.grp.writePred (s.grp.lanes u h) p f).p
      ∧ (s.setPreds u h p lat f).grp.q = (s.grp.writePred (s.grp.lanes u h) p f).q := by
    unfold State.setPreds
    dsimp only
    rw [State.finish_grp]
    simp
  refine { toOnlyGroup := s.finish_onlyGroup _, pKept := ?_, qKept := ?_, fields := ?_ }
  · intro i x hi hx
    cases u with
    | true =>
      show (decide (i = 7#3) || (mapGet 0#32 _ _).getLsbD x) = (decide (i = 7#3) || (mapGet 0#32 _ _).getLsbD x)
      rw [hpq.1, Group.writePred_other_p _ (fun l hl => (Group.mem_lanes_uniform.1 hl).1)]
    | false =>
      refine hf (some x) i ⟨rfl, hx⟩ ?_
      rcases hi with hi | hi | hi
      · cases hi
      · exact .inl hi
      · exact .inr (not_mem_lanes hi)
  · intro i hi
    cases u with
    | false =>
      show (decide (i = 7#3) || (_ : BitVec 7).getLsbD _) = (decide (i = 7#3) || (_ : BitVec 7).getLsbD _)
      rw [hpq.2, Group.writePred_other_q _ (fun l hl e => Group.none_not_mem_lanes _ _ (e ▸ hl))]
    | true =>
      refine hf none i rfl ?_
      rcases hi with hi | hi | hi
      · cases hi
      · exact .inl hi
      · exact .inr (none_not_mem_lanes hi)
  · unfold State.setPreds
    dsimp only
    rw [State.finish_grp, Group.complete_of_eq s.grp, Group.complete_eta s.grp]
    · rw [Group.stamp_eta, e]
    · rw [Group.stamp_eta, e]
    · rw [Group.stamp_eta, e]
    · rw [Group.stamp_eta, e]

end Sys2Proof.Machine
end

