-- ==== Sys2Proof/Tests/Slice0.lean ====
section
/-! SUPPORT. The model's own tests: ill-formed instructions are refused, words decode to what the spec prints, single steps give what the spec's
worked examples give, and for each statement concrete states and operands that meet its hypotheses. -/

namespace Sys2Proof.Machine

set_option Elab.async false

/-! ### Well-formedness: one ill-formed term for each check, beside its well-formed neighbour -/

def always : Guard := ⟨7#3, false⟩

theorem test_wf_guard : (Instr.nop true ⟨7#3, true⟩).wf = false ∧ (Instr.nop true ⟨6#3, true⟩).wf = true := by decide
theorem test_wf_constant : (Instr.add false always 1#6 2#6 (.const 12#5)).wf = false ∧ (Instr.add false always 1#6 2#6 (.const 11#5)).wf = true := by decide
theorem test_wf_thread_constant : (Instr.add true always 1#6 2#6 (.const 2#5)).wf = false ∧ (Instr.add false always 1#6 2#6 (.const 2#5)).wf = true := by decide
theorem test_wf_pair_destination : (Instr.addx false always 3#6 2#6 (.own 4#6)).wf = false ∧ (Instr.addx false always 2#6 2#6 (.own 4#6)).wf = true := by decide
theorem test_wf_pair_source : (Instr.addx false always 2#6 3#6 (.own 4#6)).wf = false ∧ (Instr.addx false always 2#6 2#6 (.own 5#6)).wf = false := by decide
theorem test_wf_predicate : (Instr.cmpI32 false always .eq 7#3 1#6 (.own 1#6)).wf = false ∧ (Instr.cmpI32 false always .eq 6#3 1#6 (.own 1#6)).wf = true := by decide
theorem test_wf_sel : (Instr.sel false 7#3 false 1#6 1#6 (.own 1#6)).wf = false ∧ (Instr.sel false 0#3 true 1#6 1#6 (.own 1#6)).wf = true := by decide
theorem test_wf_gets : (Instr.gets true always 4#6 .thread).wf = false ∧ (Instr.gets false always 5#6 .ownerCyc).wf = false ∧ (Instr.gets false always 4#6 .thread).wf = true := by decide
theorem test_wf_quad : (Instr.ldGlbB128 false always 6#6 2#6 0#3).wf = false ∧ (Instr.ldGlbB128 false always 8#6 2#6 0#3).wf = true := by decide
theorem test_wf_convert : (Instr.fcvti false always 3#6 2#6 .i64 .f32).wf = false ∧ (Instr.icvtf false always 3#6 5#6 .f32 .n64).wf = false := by decide
theorem test_wf_bcast : (Instr.bcast always 6#6 1#6 (.const 0#5)).wf = false ∧ (Instr.bcast always 6#6 1#6 (.own 0#6)).wf = false ∧ (Instr.bcast always 6#6 1#6 (.neg 1#5)).wf = true := by decide
theorem test_wf_order : (Instr.scopedLdGlbB32 true always 6#6 4#6 .rel .dev 0#3).wf = false ∧ (Instr.scopedLdGlbB32 true always 6#6 4#6 .plain .dev 0#3).wf = false ∧
    (Instr.redAddN32 true always 6#6 4#6 .acq .dev).wf = false ∧ (Instr.scopedLdGlbB32 true always 6#6 4#6 .acq .dev 0#3).wf = true := by decide
theorem test_wf_fence : (Instr.fence always .plain .grp).wf = false ∧ (Instr.fence always .acq .grp).wf = true := by decide
theorem test_wf_barrier : (Instr.barArr always 3#4 0#6).wf = false ∧ (Instr.barArr always 3#4 63#6).wf = true := by decide
theorem test_wf_block_of_eight : (Instr.cpInScr always 0#4 12#6 0#4 true).wf = false ∧ (Instr.cpInScr always 0#4 8#6 0#4 true).wf = true := by decide
theorem test_wf_tile : (Instr.accZero always 32#6).wf = false ∧ (Instr.accZero always 31#6).wf = true := by decide
theorem test_wf_row : (Instr.accRd always 0#6 0#6 (.imm 32#6)).wf = false ∧ (Instr.accRd always 0#6 0#6 (.own 1#6)).wf = false ∧ (Instr.accRd always 0#6 0#6 (.imm 31#6)).wf = true := by decide
theorem test_wf_item : (Instr.deq always 8#6 0#3 (.imm 0#6)).wf = false ∧ (Instr.deq always 16#6 7#3 (.imm 0#6)).wf = false ∧ (Instr.deq always 16#6 0#3 (.neg 1#5)).wf = false := by decide
theorem test_wf_jpost : (Instr.jpost always 0#3 16#6 (.imm 3#6)).wf = false ∧ (Instr.jpost always 0#3 16#6 (.own 3#6)).wf = true := by decide
theorem test_wf_shape : (Instr.disp always 16#6 2#6 (.own 6#6)).wf = false ∧ (Instr.disp always 16#6 2#6 (.own 8#6)).wf = true := by decide
theorem test_wf_sets : (Instr.sets always .owner (.imm 0#6)).wf = false ∧ (Instr.sets always .trapPc (.own 5#6)).wf = false ∧ (Instr.sets always .trapPc (.own 42#6)).wf = true := by decide
theorem test_wf_lease : (Instr.leaseReq always 4#6 6#6 0#2 1#3).wf = false ∧ (Instr.leaseReq always 4#6 6#6 3#2 1#3).wf = false ∧ (Instr.leaseReq always 4#6 6#6 2#2 1#3).wf = true := by decide
theorem test_wf_counter : (Instr.nctrAdd always .rel .clus 5#6 (.own 2#6)).wf = false ∧ (Instr.nctrAdd always .rel .dev 5#6 (.const 20#5)).wf = false ∧ (Instr.nctrAdd always .rel .dev 5#6 (.own 2#6)).wf = true := by decide
theorem test_wf_tree : (Instr.treeRed always 60#6 0#6 4#3 .addI32).wf = false ∧ (Instr.treeRed always 0#6 60#6 4#3 .addI32).wf = false ∧ (Instr.treeRed always 60#6 60#6 3#3 .addI32).wf = true := by decide
theorem test_wf_rounding : (Instr.hintMod ⟨5#3, false, 0#2, 7#3, false, false, false, false, false⟩).wf = false ∧ (Instr.hintMod ⟨4#3, false, 0#2, 7#3, false, false, false, false, false⟩).wf = true := by decide

/-! ### Decoding: a word of every instruction, put together from the fields of its row of the opcode table, with guard [!p2] or [!q2], d 20, a 40, the b
selector naming 5 as an immediate, code fields at a value of their own -/

theorem test_decodes_integer_1 :
    decode 0x00552885#32 = .ok (.add false ⟨2#3, true⟩ 20#6 40#6 (.imm 5#6)) ∧
    decode 0x02552885#32 = .ok (.sub false ⟨2#3, true⟩ 20#6 40#6 (.imm 5#6)) ∧
    decode 0x04552885#32 = .ok (.mul false ⟨2#3, true⟩ 20#6 40#6 (.imm 5#6)) ∧
    decode 0x06552885#32 = .ok (.mulhI32 false ⟨2#3, true⟩ 20#6 40#6 (.imm 5#6)) ∧
    decode 0x08552885#32 = .ok (.mulhN32 false ⟨2#3, true⟩ 20#6 40#6 (.imm 5#6)) ∧
    decode 0x0A552885#32 = .ok (.mad false ⟨2#3, true⟩ 20#6 40#6 (.imm 5#6)) ∧
    decode 0x0C55280C#32 = .ok (.addx false ⟨2#3, true⟩ 20#6 40#6 (.own 12#6)) ∧
    decode 0x0E55280C#32 = .ok (.subx false ⟨2#3, true⟩ 20#6 40#6 (.own 12#6)) ∧
    decode 0x10552885#32 = .ok (.minI32 false ⟨2#3, true⟩ 20#6 40#6 (.imm 5#6)) ∧
    decode 0x12552885#32 = .ok (.maxI32 false ⟨2#3, true⟩ 20#6 40#6 (.imm 5#6)) ∧
    decode 0x14552885#32 = .ok (.minN32 false ⟨2#3, true⟩ 20#6 40#6 (.imm 5#6)) ∧
    decode 0x16552885#32 = .ok (.maxN32 false ⟨2#3, true⟩ 20#6 40#6 (.imm 5#6)) ∧
    decode 0x18552885#32 = .ok (.andB false ⟨2#3, true⟩ 20#6 40#6 (.imm 5#6)) ∧
    decode 0x1A552885#32 = .ok (.orB false ⟨2#3, true⟩ 20#6 40#6 (.imm 5#6)) := by decide

theorem test_decodes_integer_2 :
    decode 0x1C552885#32 = .ok (.xorB false ⟨2#3, true⟩ 20#6 40#6 (.imm 5#6)) ∧
    decode 0x1E552885#32 = .ok (.andnB false ⟨2#3, true⟩ 20#6 40#6 (.imm 5#6)) ∧
    decode 0x20552885#32 = .ok (.shl false ⟨2#3, true⟩ 20#6 40#6 (.imm 5#6)) ∧
    decode 0x22552885#32 = .ok (.shr false ⟨2#3, true⟩ 20#6 40#6 (.imm 5#6)) ∧
    decode 0x24552885#32 = .ok (.sar false ⟨2#3, true⟩ 20#6 40#6 (.imm 5#6)) ∧
    decode 0x26552885#32 = .ok (.rotl false ⟨2#3, true⟩ 20#6 40#6 (.imm 5#6)) ∧
    decode 0x28552800#32 = .ok (.negI false ⟨2#3, true⟩ 20#6 40#6) ∧
    decode 0x28552801#32 = .ok (.absI false ⟨2#3, true⟩ 20#6 40#6) ∧
    decode 0x28552802#32 = .ok (.notB false ⟨2#3, true⟩ 20#6 40#6) ∧
    decode 0x28552803#32 = .ok (.clz false ⟨2#3, true⟩ 20#6 40#6) ∧
    decode 0x28552804#32 = .ok (.popc false ⟨2#3, true⟩ 20#6 40#6) ∧
    decode 0x28552805#32 = .ok (.brev false ⟨2#3, true⟩ 20#6 40#6) ∧
    decode 0x28552806#32 = .ok (.mov false ⟨2#3, true⟩ 20#6 40#6) ∧
    decode 0x28552808#32 = .ok (.sxtI8 false ⟨2#3, true⟩ 20#6 40#6) := by decide

theorem test_decodes_integer_3 :
    decode 0x28552809#32 = .ok (.sxtI16 false ⟨2#3, true⟩ 20#6 40#6) ∧
    decode 0x2855280A#32 = .ok (.sxtI32 false ⟨2#3, true⟩ 20#6 40#6) ∧
    decode 0x2855280C#32 = .ok (.zxtN8 false ⟨2#3, true⟩ 20#6 40#6) ∧
    decode 0x2855280D#32 = .ok (.zxtN16 false ⟨2#3, true⟩ 20#6 40#6) ∧
    decode 0x2855280E#32 = .ok (.zxtN32 false ⟨2#3, true⟩ 20#6 40#6) ∧
    decode 0x2A552885#32 = .ok (.bfxN32 false ⟨2#3, true⟩ 20#6 40#6 (.imm 5#6)) ∧
    decode 0x2C552885#32 = .ok (.bfxI32 false ⟨2#3, true⟩ 20#6 40#6 (.imm 5#6)) ∧
    decode 0x2E552885#32 = .ok (.bfi false ⟨2#3, true⟩ 20#6 40#6 (.imm 5#6)) ∧
    decode 0x3059E685#32 = .ok (.lea false ⟨2#3, true⟩ 19#5 2#2 19#5 (.imm 5#6)) ∧
    decode 0x32B52885#32 = .ok (.sel false 5#3 true 20#6 40#6 (.imm 5#6)) ∧
    decode 0x34556885#32 = .ok (.cmpI32 false ⟨2#3, true⟩ .lt 5#3 40#6 (.imm 5#6)) ∧
    decode 0x36556885#32 = .ok (.cmpN32 false ⟨2#3, true⟩ .lt 5#3 40#6 (.imm 5#6)) ∧
    decode 0x38514306#32 = .ok (.pand false ⟨2#3, true⟩ 5#3 3#3 6#3) ∧
    decode 0x38534306#32 = .ok (.por false ⟨2#3, true⟩ 5#3 3#3 6#3) := by decide

theorem test_decodes_integer_4 :
    decode 0x38554306#32 = .ok (.pxor false ⟨2#3, true⟩ 5#3 3#3 6#3) ∧
    decode 0x38574300#32 = .ok (.pnot false ⟨2#3, true⟩ 5#3 3#3) ∧
    decode 0x3A551234#32 = .ok (.movi false ⟨2#3, true⟩ 20#6 0x1234#14) ∧
    decode 0x3C551234#32 = .ok (.movh false ⟨2#3, true⟩ 20#6 0x1234#14) := by decide

theorem test_decodes_control :
    decode 0x405ABCDE#32 = .ok (.bra false ⟨2#3, true⟩ 0xABCDE#20) ∧
    decode 0x435ABCDE#32 = .ok (.call ⟨2#3, true⟩ 0xABCDE#20) ∧
    decode 0x45551234#32 = .ok (.loop ⟨2#3, true⟩ 20#6 0x1234#14) ∧
    decode 0x46500000#32 = .ok (.nop false ⟨2#3, true⟩) ∧
    decode 0x47502801#32 = .ok (.brx ⟨2#3, true⟩ 40#6) ∧
    decode 0x47552802#32 = .ok (.callx ⟨2#3, true⟩ 20#6 40#6) ∧
    decode 0x47502803#32 = .ok (.ret ⟨2#3, true⟩ 40#6) ∧
    decode 0x47500004#32 = .ok (.brk ⟨2#3, true⟩) ∧
    decode 0x46500005#32 = .ok (.exit false ⟨2#3, true⟩) ∧
    decode 0x46550306#32 = .ok (.gets false ⟨2#3, true⟩ 20#6 .owner) ∧
    decode 0x49512345#32 = .ok (.wait ⟨2#3, true⟩ 1#4 2#4 3#4 4#4 5#4) ∧
    decode 0x4B562800#32 = .ok (.waitc ⟨2#3, true⟩ .tiles 40#6) := by decide

theorem test_decodes_memory :
    decode 0x4C552805#32 = .ok (.ldGlbN8 false ⟨2#3, true⟩ 20#6 40#6 5#3) ∧
    decode 0x4E552805#32 = .ok (.ldGlbN16 false ⟨2#3, true⟩ 20#6 40#6 5#3) ∧
    decode 0x50552805#32 = .ok (.ldGlbB32 false ⟨2#3, true⟩ 20#6 40#6 5#3) ∧
    decode 0x52552805#32 = .ok (.ldGlbB64 false ⟨2#3, true⟩ 20#6 40#6 5#3) ∧
    decode 0x54552805#32 = .ok (.ldGlbB128 false ⟨2#3, true⟩ 20#6 40#6 5#3) ∧
    decode 0x56552805#32 = .ok (.stGlbB8 false ⟨2#3, true⟩ 20#6 40#6 5#3) ∧
    decode 0x58552805#32 = .ok (.stGlbB16 false ⟨2#3, true⟩ 20#6 40#6 5#3) ∧
    decode 0x5A552805#32 = .ok (.stGlbB32 false ⟨2#3, true⟩ 20#6 40#6 5#3) ∧
    decode 0x5C552805#32 = .ok (.stGlbB64 false ⟨2#3, true⟩ 20#6 40#6 5#3) ∧
    decode 0x5E552805#32 = .ok (.stGlbB128 false ⟨2#3, true⟩ 20#6 40#6 5#3) := by decide

theorem test_decodes_floating_1 :
    decode 0x60552885#32 = .ok (.fadd false ⟨2#3, true⟩ 20#6 40#6 (.imm 5#6)) ∧
    decode 0x62552885#32 = .ok (.fsub false ⟨2#3, true⟩ 20#6 40#6 (.imm 5#6)) ∧
    decode 0x64552885#32 = .ok (.fmul false ⟨2#3, true⟩ 20#6 40#6 (.imm 5#6)) ∧
    decode 0x66552885#32 = .ok (.ffma false ⟨2#3, true⟩ 20#6 40#6 (.imm 5#6)) ∧
    decode 0x68552885#32 = .ok (.fmin false ⟨2#3, true⟩ 20#6 40#6 (.imm 5#6)) ∧
    decode 0x6A552885#32 = .ok (.fmax false ⟨2#3, true⟩ 20#6 40#6 (.imm 5#6)) ∧
    decode 0x6C552800#32 = .ok (.fneg false ⟨2#3, true⟩ 20#6 40#6) ∧
    decode 0x6C552801#32 = .ok (.fabs false ⟨2#3, true⟩ 20#6 40#6) ∧
    decode 0x6C552802#32 = .ok (.fclass false ⟨2#3, true⟩ 20#6 40#6) ∧
    decode 0x6C552804#32 = .ok (.frndRn false ⟨2#3, true⟩ 20#6 40#6) ∧
    decode 0x6C552805#32 = .ok (.frndRz false ⟨2#3, true⟩ 20#6 40#6) ∧
    decode 0x6C552806#32 = .ok (.frndRd false ⟨2#3, true⟩ 20#6 40#6) ∧
    decode 0x6C552807#32 = .ok (.frndRu false ⟨2#3, true⟩ 20#6 40#6) ∧
    decode 0x6C552810#32 = .ok (.rcp false ⟨2#3, true⟩ 20#6 40#6) := by decide

theorem test_decodes_floating_2 :
    decode 0x6C552811#32 = .ok (.rsqrt false ⟨2#3, true⟩ 20#6 40#6) ∧
    decode 0x6C552812#32 = .ok (.sqrt false ⟨2#3, true⟩ 20#6 40#6) ∧
    decode 0x6C552813#32 = .ok (.exp2 false ⟨2#3, true⟩ 20#6 40#6) ∧
    decode 0x6C552814#32 = .ok (.log2 false ⟨2#3, true⟩ 20#6 40#6) ∧
    decode 0x6C552815#32 = .ok (.sinpi false ⟨2#3, true⟩ 20#6 40#6) ∧
    decode 0x6C552816#32 = .ok (.cospi false ⟨2#3, true⟩ 20#6 40#6) ∧
    decode 0x6C552817#32 = .ok (.sincospi false ⟨2#3, true⟩ 20#6 40#6) ∧
    decode 0x6C552818#32 = .ok (.tanh false ⟨2#3, true⟩ 20#6 40#6) ∧
    decode 0x6E5D6885#32 = .ok (.fcmp false ⟨2#3, true⟩ .un 5#3 40#6 (.imm 5#6)) := by decide

theorem test_decodes_conversions_and_packed :
    decode 0x70552810#32 = .ok (.fcvt false ⟨2#3, true⟩ 20#6 40#6 .f16 .f32) ∧
    decode 0x70552892#32 = .ok (.fcvti false ⟨2#3, true⟩ 20#6 40#6 .i32 .bf16) ∧
    decode 0x7055284B#32 = .ok (.icvtf false ⟨2#3, true⟩ 20#6 40#6 .e5m2 .i64) ∧
    decode 0x725528C5#32 = .ok (.hadd2 ⟨2#3, true⟩ 20#6 40#6 true true 5#6) ∧
    decode 0x745528C5#32 = .ok (.hmul2 ⟨2#3, true⟩ 20#6 40#6 true true 5#6) ∧
    decode 0x765528C5#32 = .ok (.hfma2 ⟨2#3, true⟩ 20#6 40#6 true true 5#6) ∧
    decode 0x785528C5#32 = .ok (.dot2 ⟨2#3, true⟩ 20#6 40#6 true true 5#6) := by decide

theorem test_decodes_votes_and_moves :
    decode 0x80550500#32 = .ok (.voteMask ⟨2#3, true⟩ 20#6 5#3) ∧
    decode 0x80514D00#32 = .ok (.voteEvery ⟨2#3, true⟩ 5#3 5#3) ∧
    decode 0x80515500#32 = .ok (.voteSome ⟨2#3, true⟩ 5#3 5#3) ∧
    decode 0x80515885#32 = .ok (.voteSame ⟨2#3, true⟩ 5#3 (.imm 5#6)) ∧
    decode 0x80552500#32 = .ok (.voteCount ⟨2#3, true⟩ 20#6 5#3) ∧
    decode 0x82552833#32 = .ok (.shflAt ⟨2#3, true⟩ 20#6 40#6 true 19#5) ∧
    decode 0x82552873#32 = .ok (.shflBack ⟨2#3, true⟩ 20#6 40#6 true 19#5) ∧
    decode 0x825528B3#32 = .ok (.shflFwd ⟨2#3, true⟩ 20#6 40#6 true 19#5) ∧
    decode 0x825528F3#32 = .ok (.shflMix ⟨2#3, true⟩ 20#6 40#6 true 19#5) ∧
    decode 0x84552885#32 = .ok (.bcast ⟨2#3, true⟩ 20#6 40#6 (.imm 5#6)) := by decide

theorem test_decodes_combinations_and_joins :
    decode 0x86552809#32 = .ok (.gred ⟨2#3, true⟩ 20#6 40#6 .fminF32) ∧
    decode 0x88552809#32 = .ok (.scan ⟨2#3, true⟩ 20#6 40#6 .fminF32) ∧
    decode 0x88552889#32 = .ok (.scanExcl ⟨2#3, true⟩ 20#6 40#6 .fminF32) ∧
    decode 0x8A550500#32 = .ok (.elect ⟨2#3, true⟩ 20#6 5#3) ∧
    decode 0x8C5528A5#32 = .ok (.xchg ⟨2#3, true⟩ 20#6 40#6 37#6) ∧
    decode 0x8F5A0085#32 = .ok (.joinArm ⟨2#3, true⟩ 5#3 (.imm 5#6)) ∧
    decode 0x8F5B0085#32 = .ok (.joinArmRun ⟨2#3, true⟩ 5#3 (.imm 5#6)) ∧
    decode 0x915A0000#32 = .ok (.joinWait ⟨2#3, true⟩ 5#3) ∧
    decode 0x93500000#32 = .ok (.yield ⟨2#3, true⟩) ∧
    decode 0x95502885#32 = .ok (.slotRel ⟨2#3, true⟩ 40#6 (.imm 5#6)) ∧
    decode 0x97550085#32 = .ok (.slotQ ⟨2#3, true⟩ 20#6 (.imm 5#6)) := by decide

theorem test_decodes_scoped_accesses :
    decode 0xA0552865#32 = .ok (.scopedLdGlbB32 false ⟨2#3, true⟩ 20#6 40#6 .acq .dev 5#3) ∧
    decode 0xA2552865#32 = .ok (.scopedLdGlbB64 false ⟨2#3, true⟩ 20#6 40#6 .acq .dev 5#3) ∧
    decode 0xA45528A5#32 = .ok (.scopedStGlbB32 false ⟨2#3, true⟩ 20#6 40#6 .rel .dev 5#3) ∧
    decode 0xA65528A5#32 = .ok (.scopedStGlbB64 false ⟨2#3, true⟩ 20#6 40#6 .rel .dev 5#3) ∧
    decode 0xA8552865#32 = .ok (.ldsB32 false ⟨2#3, true⟩ 20#6 40#6 .acq .dev 5#3) ∧
    decode 0xAA552865#32 = .ok (.ldsB64 false ⟨2#3, true⟩ 20#6 40#6 .acq .dev 5#3) ∧
    decode 0xAC5528A5#32 = .ok (.stsB32 false ⟨2#3, true⟩ 20#6 40#6 .rel .dev 5#3) ∧
    decode 0xAE5528A5#32 = .ok (.stsB64 false ⟨2#3, true⟩ 20#6 40#6 .rel .dev 5#3) ∧
    decode 0xB0552805#32 = .ok (.ldc false ⟨2#3, true⟩ 20#6 40#6 5#3) := by decide

theorem test_decodes_atomics_1 :
    decode 0xB25528E0#32 = .ok (.atomAddN32 false ⟨2#3, true⟩ 20#6 40#6 .ar .dev) ∧
    decode 0xB25528E1#32 = .ok (.atomAddN64 false ⟨2#3, true⟩ 20#6 40#6 .ar .dev) ∧
    decode 0xB25528E2#32 = .ok (.atomMinI32 false ⟨2#3, true⟩ 20#6 40#6 .ar .dev) ∧
    decode 0xB25528E3#32 = .ok (.atomMaxI32 false ⟨2#3, true⟩ 20#6 40#6 .ar .dev) ∧
    decode 0xB25528E4#32 = .ok (.atomMinN32 false ⟨2#3, true⟩ 20#6 40#6 .ar .dev) ∧
    decode 0xB25528E5#32 = .ok (.atomMaxN32 false ⟨2#3, true⟩ 20#6 40#6 .ar .dev) ∧
    decode 0xB25528E6#32 = .ok (.atomOr false ⟨2#3, true⟩ 20#6 40#6 .ar .dev) ∧
    decode 0xB25528E7#32 = .ok (.atomAnd false ⟨2#3, true⟩ 20#6 40#6 .ar .dev) ∧
    decode 0xB45528E0#32 = .ok (.atomExchB32 false ⟨2#3, true⟩ 20#6 40#6 .ar .dev) ∧
    decode 0xB45528E1#32 = .ok (.atomCasB32 false ⟨2#3, true⟩ 20#6 40#6 .ar .dev) ∧
    decode 0xB45528E2#32 = .ok (.atomExchB64 false ⟨2#3, true⟩ 20#6 40#6 .ar .dev) ∧
    decode 0xB45528E3#32 = .ok (.atomCasB64 false ⟨2#3, true⟩ 20#6 40#6 .ar .dev) ∧
    decode 0xB45528E4#32 = .ok (.atomAddF32 false ⟨2#3, true⟩ 20#6 40#6 .ar .dev) ∧
    decode 0xB45528E5#32 = .ok (.atomMinF32 false ⟨2#3, true⟩ 20#6 40#6 .ar .dev) := by decide

theorem test_decodes_atomics_2 :
    decode 0xB45528E6#32 = .ok (.atomMaxF32 false ⟨2#3, true⟩ 20#6 40#6 .ar .dev) := by decide

theorem test_decodes_reductions :
    decode 0xB65528A0#32 = .ok (.redAddN32 false ⟨2#3, true⟩ 20#6 40#6 .rel .dev) ∧
    decode 0xB65528A1#32 = .ok (.redAddN64 false ⟨2#3, true⟩ 20#6 40#6 .rel .dev) ∧
    decode 0xB65528A2#32 = .ok (.redMinI32 false ⟨2#3, true⟩ 20#6 40#6 .rel .dev) ∧
    decode 0xB65528A3#32 = .ok (.redMaxI32 false ⟨2#3, true⟩ 20#6 40#6 .rel .dev) ∧
    decode 0xB65528A4#32 = .ok (.redMinN32 false ⟨2#3, true⟩ 20#6 40#6 .rel .dev) ∧
    decode 0xB65528A5#32 = .ok (.redMaxN32 false ⟨2#3, true⟩ 20#6 40#6 .rel .dev) ∧
    decode 0xB65528A6#32 = .ok (.redOr false ⟨2#3, true⟩ 20#6 40#6 .rel .dev) ∧
    decode 0xB65528A7#32 = .ok (.redAnd false ⟨2#3, true⟩ 20#6 40#6 .rel .dev) ∧
    decode 0xB85528A4#32 = .ok (.redAddF32 false ⟨2#3, true⟩ 20#6 40#6 .rel .dev) ∧
    decode 0xB85528A5#32 = .ok (.redMinF32 false ⟨2#3, true⟩ 20#6 40#6 .rel .dev) ∧
    decode 0xB85528A6#32 = .ok (.redMaxF32 false ⟨2#3, true⟩ 20#6 40#6 .rel .dev) := by decide

theorem test_decodes_synchronisation :
    decode 0xBB500060#32 = .ok (.fence ⟨2#3, true⟩ .acq .dev) ∧
    decode 0xBD52E500#32 = .ok (.barArr ⟨2#3, true⟩ 11#4 37#6) ∧
    decode 0xBD52C001#32 = .ok (.barWait ⟨2#3, true⟩ 11#4) ∧
    decode 0xBD52E502#32 = .ok (.barSync ⟨2#3, true⟩ 11#4 37#6) ∧
    decode 0xBF552800#32 = .ok (.ownTake ⟨2#3, true⟩ 20#6 40#6) ∧
    decode 0xBF552801#32 = .ok (.ownGive ⟨2#3, true⟩ 20#6 40#6) ∧
    decode 0xBE502802#32 = .ok (.pref false ⟨2#3, true⟩ 40#6) ∧
    decode 0xBE500003#32 = .ok (.trig false ⟨2#3, true⟩) := by decide

theorem test_decodes_engines_1 :
    decode 0xC15B28B8#32 = .ok (.cpInScr ⟨2#3, true⟩ 11#4 40#6 11#4 true) ∧
    decode 0xC15B68B8#32 = .ok (.cpInObuf ⟨2#3, true⟩ 11#4 40#6 11#4 true) ∧
    decode 0xC35B28B8#32 = .ok (.cpOutScr ⟨2#3, true⟩ 11#4 40#6 11#4 true) ∧
    decode 0xC55B0085#32 = .ok (.trecTab ⟨2#3, true⟩ 11#4 (.imm 5#6)) ∧
    decode 0xC55B6800#32 = .ok (.trecBase ⟨2#3, true⟩ 11#4 40#6) ∧
    decode 0xC75B0085#32 = .ok (.obufRsvTpl ⟨2#3, true⟩ 11#4 (.imm 5#6)) ∧
    decode 0xC75B6800#32 = .ok (.obufRsvReg ⟨2#3, true⟩ 11#4 40#6) ∧
    decode 0xC95B0000#32 = .ok (.obufFree ⟨2#3, true⟩ 11#4) ∧
    decode 0xCA55284A#32 = .ok (.mma ⟨2#3, true⟩ 20#6 40#6 10#6) ∧
    decode 0xCD550000#32 = .ok (.mmaFence ⟨2#3, true⟩ 20#6) ∧
    decode 0xCF500085#32 = .ok (.mmaWait ⟨2#3, true⟩ (.imm 5#6)) ∧
    decode 0xD1550000#32 = .ok (.accZero ⟨2#3, true⟩ 20#6) ∧
    decode 0xD2550985#32 = .ok (.accRd ⟨2#3, true⟩ 20#6 9#6 (.imm 5#6)) ∧
    decode 0xD55528B8#32 = .ok (.drain ⟨2#3, true⟩ 20#6 40#6 11#4 true) := by decide

theorem test_decodes_engines_2 :
    decode 0xD6552886#32 = .ok (.qcvt ⟨2#3, true⟩ 20#6 40#6 .dx6 6#6) := by decide

theorem test_decodes_queues :
    decode 0xD95C2885#32 = .ok (.deq ⟨2#3, true⟩ 48#6 5#3 (.imm 5#6)) ∧
    decode 0xDB5A3085#32 = .ok (.enq ⟨2#3, true⟩ 5#3 48#6 (.imm 5#6)) ∧
    decode 0xDD5A300C#32 = .ok (.jpost ⟨2#3, true⟩ 5#3 48#6 (.own 12#6)) ∧
    decode 0xDF5C280C#32 = .ok (.disp ⟨2#3, true⟩ 48#6 40#6 (.own 12#6)) := by decide

theorem test_decodes_system :
    decode 0xE1534085#32 = .ok (.sets ⟨2#3, true⟩ .tcause (.imm 5#6)) ∧
    decode 0xE2500085#32 = .ok (.trap false ⟨2#3, true⟩ (.imm 5#6)) ∧
    decode 0xE5500000#32 = .ok (.rte ⟨2#3, true⟩) ∧
    decode 0xE7500085#32 = .ok (.halt ⟨2#3, true⟩ (.imm 5#6)) ∧
    decode 0xE9552825#32 = .ok (.leaseReq ⟨2#3, true⟩ 20#6 40#6 2#2 5#3) ∧
    decode 0xE9500040#32 = .ok (.leaseEnd ⟨2#3, true⟩) ∧
    decode 0xEA550000#32 = .ok (.rand ⟨2#3, true⟩ 20#6) ∧
    decode 0xEA502801#32 = .ok (.randSeed ⟨2#3, true⟩ 40#6) ∧
    decode 0xED552800#32 = .ok (.ctxGsave ⟨2#3, true⟩ 20#6 40#6) ∧
    decode 0xED552801#32 = .ok (.ctxGrest ⟨2#3, true⟩ 20#6 40#6) ∧
    decode 0xED552802#32 = .ok (.ctxWsave ⟨2#3, true⟩ 20#6 40#6) ∧
    decode 0xED552803#32 = .ok (.ctxWrest ⟨2#3, true⟩ 20#6 40#6) ∧
    decode 0xED550004#32 = .ok (.ctxRemap ⟨2#3, true⟩ 20#6) := by decide

theorem test_decodes_networks :
    decode 0xEF502800#32 = .ok (.npost ⟨2#3, true⟩ 40#6) ∧
    decode 0xF15A280C#32 = .ok (.nctrAdd ⟨2#3, true⟩ .rel .dev 40#6 (.own 12#6)) ∧
    decode 0xF3552800#32 = .ok (.nctrRd ⟨2#3, true⟩ 20#6 40#6) ∧
    decode 0xF550280C#32 = .ok (.nctrWait ⟨2#3, true⟩ 40#6 (.own 12#6)) ∧
    decode 0xF75028A0#32 = .ok (.nput ⟨2#3, true⟩ 40#6 .rel .dev) ∧
    decode 0xF95028A0#32 = .ok (.nget ⟨2#3, true⟩ 40#6 .rel .dev) ∧
    decode 0xFB552859#32 = .ok (.treeRed ⟨2#3, true⟩ 20#6 40#6 5#3 .fminF32) ∧
    decode 0xFD500000#32 = .ok (.treeBar ⟨2#3, true⟩) := by decide

theorem test_decodes_hints :
    decode 0xFE2ABCDE#32 = .ok (.hintWide 0x2ABCDE#22) ∧
    decode 0xFE4000BB#32 = .ok (.hintSched 5#3 true 11#4) ∧
    decode 0xFE9EB500#32 = .ok (.hintMod ⟨3#3, true, 2#2, 5#3, true, false, true, false, true⟩) ∧
    decode 0xFEC0001A#32 = .ok (.hintType true 2#2 2#2) := by decide

theorem test_decodes_reserved : decode 0x0DE20305#32 = .error .field ∧ decode 0x47E10006#32 = .error .field ∧ decode 0x80E02800#32 = .error .field ∧
    decode 0x8CE28A05#32 = .error .field ∧ decode 0x86E18188#32 = .error .field ∧ decode 0x97E2C085#32 = .error .field ∧ decode 0x84E181E0#32 = .error .field ∧
    decode 0x6CE1C217#32 = .error .field ∧ decode 0x6CE18203#32 = .error .field ∧ decode 0x70E04299#32 = .error .field ∧ decode 0x70E042D0#32 = .error .field ∧
    decode 0xA1E184A0#32 = .error .field ∧ decode 0xB9E2425C#32 = .error .field ∧ decode 0xB4E1C201#32 = .error .field ∧ decode 0xBBE00020#32 = .error .field ∧
    decode 0xC3E15028#32 = .error .field ∧ decode 0xCAE8044A#32 = .error .field ∧ decode 0xD6E24806#32 = .error .field ∧ decode 0xD9E838A8#32 = .error .field ∧
    decode 0xEFE00500#32 = .error .field ∧ decode 0xF1E90581#32 = .error .field ∧ decode 0xFBEA207B#32 = .error .field ∧ decode 0xE1E44005#32 = .error .field := by decide

theorem test_decodes_forms : decode 0x73E04203#32 = .error .uOne ∧ decode 0x79E20283#32 = .error .uOne ∧ decode 0x81E10200#32 = .error .uOne ∧ decode 0xCBE0C84A#32 = .error .uOne ∧
    decode 0xEBE1C000#32 = .error .uOne ∧ decode 0x8EE300DF#32 = .error .uZero ∧ decode 0xBAE000A0#32 = .error .uZero ∧ decode 0xBEE10200#32 = .error .uZero ∧
    decode 0xD0E0C000#32 = .error .uZero ∧ decode 0xE1E10004#32 = .error .sreg ∧ decode 0xFFC00000#32 = .error .hintKind ∧ decode 0x3E000000#32 = .error .unassigned := by decide

/-- What an outcome's next state shows. -/
def shows (r : Res) (p : State → Bool) : Bool :=
  match r with
  | .next t => p t
  | .fault _ => false
  | .refused _ => false

/-- A device with one group and nothing else. -/
def alone (g : Group) : State := { State.reset with groups := [(0, { g with live := true })] }

/-- A device whose current group stands before a word that is loaded for it. -/
def loaded (w : Nat) : State := State.reset.withFetchWord 32 w

/-- The word that the model fetches next is the one placed there (R3, R21). -/
theorem test_placed_word_runs : shows (step (loaded 0x01E24981)) (fun t => t.grp.getG 9#6 == 1#32 && t.grp.pc == 0x10004#56) = true := by decide +kernel

/-! ### Single steps: worked examples of the spec, and hand calculation from its tables -/

/-- A group whose v and g registers 1, 2, 3, … of thread 0 and of the group hold the words given. -/
def holding (xs : List Word) : Group :=
  (xs.zipIdx 1).foldl (fun g p => (g.setV (BitVec.ofNat 6 p.2) 0 p.1).setG (BitVec.ofNat 6 p.2) p.1) { live := true }

/-- Register 9 of thread 0 and FLAGS after an instruction on these words. -/
def after (xs : List Word) (i : Instr) : Option (Word × Word) :=
  match exec i (alone (holding xs)) with
  | .next t => some (t.grp.getV 9#6 0, t.grp.flags)
  | .fault _ => none
  | .refused _ => none

/-- The same under a MOD hint. -/
def afterMod (m : ModFields) (xs : List Word) (i : Instr) : Option (Word × Word) :=
  match exec i (alone { holding xs with hint := some ⟨0, 0, .hintMod m⟩ }) with
  | .next t => some (t.grp.getV 9#6 0, t.grp.flags)
  | .fault _ => none
  | .refused _ => none

def sat : ModFields := { modReset with sat := true }

/-! Integers (R90, R93 to R98) -/

theorem test_add_wraps : after [0xFFFFFFFF#32, 2#32] (.add false always 9#6 1#6 (.own 2#6)) = some (1#32, 0#32) := by decide
theorem test_add_saturates : afterMod sat [0x7FFFFFFF#32, 1#32] (.add false always 9#6 1#6 (.own 2#6)) = some (0x7FFFFFFF#32, 10#32) := by decide
theorem test_sub_reads_before_writing : after [5#32] (.sub false always 9#6 1#6 (.imm 7#6)) = some (0xFFFFFFFE#32, 0#32) := by decide
theorem test_mulh_signs : after [0xFFFFFFFF#32, 2#32] (.mulhI32 false always 9#6 1#6 (.own 2#6)) = some (0xFFFFFFFF#32, 0#32) ∧
    after [0xFFFFFFFF#32, 2#32] (.mulhN32 false always 9#6 1#6 (.own 2#6)) = some (1#32, 0#32) := by decide
theorem test_shifts_by_the_width : after [0x80000001#32, 32#32] (.shl false always 9#6 1#6 (.own 2#6)) = some (0#32, 0#32) ∧
    after [0x80000001#32, 32#32] (.sar false always 9#6 1#6 (.own 2#6)) = some (0xFFFFFFFF#32, 0#32) ∧
    after [0x80000001#32, 33#32] (.rotl false always 9#6 1#6 (.own 2#6)) = some (3#32, 0#32) := by decide
theorem test_neg_of_the_least : after [0x80000000#32] (.negI false always 9#6 1#6) = some (0x80000000#32, 0#32) := by decide
theorem test_counts : after [0x00010000#32] (.clz false always 9#6 1#6) = some (15#32, 0#32) ∧ after [0x00010001#32] (.popc false always 9#6 1#6) = some (2#32, 0#32) ∧
    after [0x00000002#32] (.brev false always 9#6 1#6) = some (0x40000000#32, 0#32) := by decide
theorem test_bit_fields : after [0x0000F0F0#32, 132#32] (.bfxI32 false always 9#6 1#6 (.own 2#6)) = some (0xFFFFFFFF#32, 0#32) ∧
    after [0xFFFFFFFF#32, 0x7FF#32] (.bfxN32 false always 9#6 1#6 (.own 2#6)) = some (1#32, 0#32) := by decide
theorem test_lea_scales_signed : shows (exec (.lea true always 4#5 2#2 1#5 (.neg 31#5)) (alone (holding [0#32, 4#32]))) (fun t => t.grp.getG64 8#6 == 0#64) = true := by decide
theorem test_sel_complemented : after [5#32, 6#32] (.sel false 0#3 true 9#6 1#6 (.own 2#6)) = some (5#32, 0#32) ∧
    after [5#32, 6#32] (.sel false 0#3 false 9#6 1#6 (.own 2#6)) = some (6#32, 0#32) := by decide
theorem test_pnot_of_true : shows (exec (.pnot false always 1#3 7#3) (alone { live := true, p := [(1, 0xFFFFFFFF#32)] })) (fun t => mapGet 0#32 t.grp.p 1 == 0#32) = true := by decide +kernel

/-! Floating point: the worked examples of the chapter -/

theorem test_ffma_rounds_once : after [0x3F800800#32, 0x3F800800#32, 0#32, 0#32, 0#32, 0#32, 0#32, 0#32, 0xBF800000#32] (.ffma false always 9#6 1#6 (.own 2#6)) =
    some (0x3A000400#32, 0#32) := by decide
theorem test_fmul_rounds_to_even : after [0x3F800800#32, 0x3F800800#32] (.fmul false always 9#6 1#6 (.own 2#6)) = some (0x3F801000#32, 1#32) := by decide
theorem test_fmul_overflows : after [0x7F000000#32, 0x40800000#32] (.fmul false always 9#6 1#6 (.own 2#6)) = some (0x7F800000#32, 3#32) := by decide
theorem test_hadd2_overflows : after [0x00007B53#32] (.hadd2 always 9#6 1#6 false false 1#6) = some (0x00007C00#32, 3#32) ∧
    afterMod sat [0x00007B53#32] (.hadd2 always 9#6 1#6 false false 1#6) = some (0x00007BFF#32, 11#32) := by decide
theorem test_fmin_of_zeros : after [0#32, 0x80000000#32] (.fmin false always 9#6 1#6 (.own 2#6)) = some (0x80000000#32, 0#32) ∧
    after [0#32, 0x80000000#32] (.fmax false always 9#6 1#6 (.own 2#6)) = some (0#32, 0#32) := by decide
theorem test_fclass_subnormal : after [0x80000001#32] (.fclass false always 9#6 1#6) = some (4#32, 0#32) := by decide
theorem test_frnd_keeps_the_sign : after [0xBF333333#32] (.frndRz false always 9#6 1#6) = some (0x80000000#32, 0#32) := by decide
theorem test_sincospi : shows (exec (.sincospi false always 6#6 1#6) (alone (holding [0x3F000000#32])))
      (fun t => t.grp.getV 6#6 0 == 0x3F800000#32 && t.grp.getV 7#6 0 == 0#32 && t.grp.flags == 0#32) = true ∧
    shows (exec (.sincospi false always 6#6 1#6) (alone (holding [0xC0400000#32])))
      (fun t => t.grp.getV 6#6 0 == 0x80000000#32 && t.grp.getV 7#6 0 == 0xBF800000#32 && t.grp.flags == 0#32) = true := by decide +kernel
theorem test_sqrt_invalid : after [0xBF800000#32] (.sqrt false always 9#6 1#6) = some (0x7FFFFFFF#32, 4#32) ∧ after [0x40800000#32] (.sqrt false always 9#6 1#6) = some (0x40000000#32, 0#32) := by decide +kernel
theorem test_rcp_of_zero : after [0x80000000#32] (.rcp false always 9#6 1#6) = some (0xFF800000#32, 0#32) := by decide
theorem test_log2_of_a_power : after [0x3E800000#32] (.log2 false always 9#6 1#6) = some (0xC0000000#32, 0#32) := by decide
theorem test_exp2_overflows : after [0x43000000#32] (.exp2 false always 9#6 1#6) = some (0x7F800000#32, 3#32) ∧ afterMod sat [0x43000000#32] (.exp2 false always 9#6 1#6) = some (0x7F7FFFFF#32, 11#32) := by decide

/-! Check values -/

/-- The polynomial and the initial value of R200, on the nine digits by which such codes are told apart. -/
theorem test_check_value : crc16 ((List.range 9).map (fun i => BitVec.ofNat 8 (0x31 + i))) = 0x29B1#16 := by decide +kernel

/-! Control and traps -/

/-- A group at 0x1000 in one loop whose body is the word there and which is to run `n` more times. -/
def looping (n : Word) : Group := { live := true, pc := 0x1000, n := 1, loops := [(0, ⟨0x1000, 0x1004, n⟩)] }

theorem test_loop_repeats : shows (exec (.nop true always) (alone (looping 2#32))) (fun t => t.grp.pc == 0x1000#56 && (t.grp.loop 0).lc == 1#32 && t.grp.n == 1) = true := by decide
theorem test_loop_ends : shows (exec (.nop true always) (alone (looping 1#32))) (fun t => t.grp.pc == 0x1004#56 && t.grp.n == 0) = true := by decide
theorem test_loop_skips : shows (exec (.loop always 3#6 5#14) (alone { live := true, pc := 0x1000 })) (fun t => t.grp.pc == 0x1018#56 && t.grp.n == 0) = true := by decide
theorem test_branch_is_relative : shows (exec (.bra true always 0xFFFFC#20) (alone { live := true, pc := 0x1000 })) (fun t => t.grp.pc == 0xFF4#56) = true := by decide
theorem test_branch_leaves_a_loop : shows (exec (.bra true always 0x00010#20) (alone (looping 2#32))) (fun t => t.grp.pc == 0x1044#56 && t.grp.n == 0) = true := by decide
theorem test_branch_diverges : shows (exec (.bra false ⟨0#3, false⟩ 0x00010#20) (alone { live := true, pc := 0x1000, p := [(0, 1#32)] }))
    (fun t => t.grp.pc == 0x1004#56 && t.grp.running == 0xFFFFFFFE#32 && t.grp.thread 0 == ⟨.parked, 0x1044#56, false⟩) = true := by decide
theorem test_call_links : shows (exec (.call always 0x00010#20) (alone { live := true, pc := 0x1000 })) (fun t => t.grp.pc == 0x1044#56 && t.grp.getG64 62#6 == 0x1004#64) = true := by decide
theorem test_trap_taken : shows (step (loaded 0xE3E00085)) (fun t => t.grp.pc == 0x11000#56 && t.grp.trapMode && t.grp.trapPc == 0x10000#64 && t.grp.tcause == 10#32 &&
    t.grp.tdetA == 5#32 && t.grp.tmask == 0xFFFFFFFF#32) = true := by decide +kernel
theorem test_reserved_word_traps : shows (step (loaded 0x0DE20305)) (fun t => t.grp.pc == 0x11000#56 && t.grp.tcause == 1#32 && t.grp.tdetA == 6#32 && t.grp.tdetB == 0x0DE20305#32) = true := by decide
theorem test_rte_outside_trap_mode : shows (step (loaded 0xE5E00000)) (fun t => t.grp.tcause == 1#32 && t.grp.tdetA == 6#32) = true := by decide
theorem test_sets_outside_trap_mode : shows (step (loaded 0xE1E30004)) (fun t => t.grp.tcause == 1#32 && t.grp.tdetA == 7#32) = true := by decide
theorem test_wait_issues : shows (step (loaded 0x49E0FFFF)) (fun t => t.grp.pc == 0x10004#56) = true := by decide +kernel
theorem test_wait_stays : shows (exec (.wait always 0#4 15#4 15#4 15#4 15#4) (alone { live := true, pc := 0x1000, outs := [⟨.loads, 4, false⟩] })) (fun t => t.grp.pc == 0x1000#56) = true := by decide

/-! The parallel machine -/

/-- Thread i holds i in v2, and p1 is true in the threads of the mask. -/
def numbered (m : Word) : Group := (List.range 32).foldl (fun g i => g.setV 2#6 i (BitVec.ofNat 32 i)) { live := true, p := [(1, m)] }

theorem test_vote_mask : shows (exec (.voteMask ⟨1#3, false⟩ 4#6 1#3) (alone (numbered 0xA#32))) (fun t => t.grp.getG 4#6 == 0xA#32) = true := by decide
theorem test_elect_lowest : shows (exec (.elect ⟨1#3, false⟩ 2#6 2#3) (alone (numbered 0xC#32))) (fun t => t.grp.getG 2#6 == 2#32 && t.grp.getP 2#3 2 && !t.grp.getP 2#3 3) = true := by decide
theorem test_shfl_mix : shows (exec (.shflMix always 3#6 2#6 false 1#5) (alone (numbered 0#32))) (fun t => t.grp.getV 3#6 0 == 1#32 && t.grp.getV 3#6 31 == 30#32) = true := by decide
theorem test_shfl_outside_keeps : shows (exec (.shflBack always 3#6 2#6 false 4#5) (alone (numbered 0#32))) (fun t => t.grp.getV 3#6 3 == 3#32 && t.grp.getV 3#6 4 == 0#32) = true := by decide
theorem test_gred_adds : shows (exec (.gred always 6#6 2#6 .addI32) (alone (numbered 0#32))) (fun t => t.grp.getG 6#6 == 496#32) = true := by decide
theorem test_scan_excludes_itself : shows (exec (.scanExcl always 5#6 2#6 .addI32) (alone (numbered 0#32))) (fun t => t.grp.getV 5#6 0 == 0#32 && t.grp.getV 5#6 4 == 6#32) = true := by decide
theorem test_join_waits : shows (exec (.joinWait always 1#3) (alone { live := true, pc := 0x1000, joins := [(1, ⟨true, 0xFFFFFFFF#32, 0#32⟩)] }))
    (fun t => t.grp.pc == 0x1004#56 && t.grp.running == 0xFFFFFFFF#32) = true := by decide +kernel

/-! Memory -/

/-- A store and its return: the bytes lie in little-endian order from the address on (R3, R109). -/
theorem test_store_returns : shows (exec (.storeReturn 3 0) { State.reset with
      groups := [(0, { live := true })],
      ops := [(3, {
        gid := 0, owner := 1, launch := 0, wg := 0, core := 0, island := 0, pc := 0, w := 0, kind := .store, cls := .stores, uni := true, dst := 0#6, ord := .plain, scope := .grp, hist := 0#32,
        accs := [{ thread := 0, va := 0x10000, size := 4, place := .mem 0x40000, data := leBytes 4 0x12345678, hor := 0, sent := some 0 }] })] })
    (fun t => t.byte 0x40000 == 0x78#8 && t.byte 0x40003 == 0x12#8 && t.byte 0x40004 == 0#8) = true := by decide

/-! ### Witnesses: for each statement, states and operands that meet its hypotheses, clause by clause -/

/-- A guard that no thread and no group meets while its predicate is false, as a new group's are. -/
def never : Guard := ⟨0#3, false⟩

/-- A group at 0x1000 whose p0 is true in threads 0 to 15. -/
def half : Group := { live := true, pc := 0x1000, p := [(0, 0xFFFF#32)] }

/-- A group under a MOD hint. -/
def modded (m : ModFields) : Group := { live := true, pc := 0x1000, hint := some ⟨0xFFC, 0, .hintMod m⟩ }

/-- The placed group of `withProgram` replaced by another. -/
def placed (g : Group) : State := { State.reset.withProgram with groups := [(0, { g with live := true, owner := 1 })] }

/-- The partition that a program is placed in is one that Drover's rules allow (R420). -/
theorem test_loaded_partition : recWellFormed loadedPart = true ∧ State.fits { State.reset with powered := true } loadedPart = true := by decide +kernel

theorem witness_guards : (alone half).grp.guardQ always = true ∧ (alone half).grp.guardQ never = false ∧ (alone {}).grp.active never = 0#32 ∧
    (alone half).grp.active never = 0xFFFF#32 ∧ (alone half).grp.active always = (alone half).grp.running ∧ (alone half).grp.running ≠ 0#32 := by decide +kernel
theorem witness_IntegerArithmeticWraps : (alone half).grp.modf.sat = false := by decide
theorem witness_IntegerSaturation : (alone (modded sat)).grp.modf.sat = true ∧ (alone (modded sat)).grp.lanes false always ≠ [] := by decide
theorem witness_PairArithmetic : (alone half).grp.modf.sat = false ∧ (alone (modded sat)).grp.modf.sat = true := by decide
theorem witness_AddressesAndImmediates : (5#6 : Reg).getLsbD 0 = true ∧ (alone half).grp.wide = none ∧
    (alone { hint := some ⟨0, 0, .hintWide 0x3FFFFF#22⟩ }).grp.wide = some 0x3FFFFF#22 := by decide
theorem witness_IntegerCompares : (6#3 : BitVec 3) ≠ 7#3 ∧ (alone half).grp.lanes false always ≠ [] := by decide
theorem witness_PredicateLogic : (0#3 : BitVec 3) ≠ 7#3 ∧ (alone half).grp.rp (some 15) 0#3 = !false ∧ (alone half).grp.rp (some 16) 0#3 = !true := by decide +kernel
theorem witness_FloatCompares : (6#3 : BitVec 3) ≠ 7#3 ∧ f32Val 0x7FC00000#32 = .nan ∧ f32Val 0xFF800000#32 = .inf true := by decide +kernel
theorem witness_Conversions : intWidth .i64 = 64 ∧ intWidth .i32 ≠ 64 ∧ ftypeWidth .f32 = 32 ∧ intWidth .n8 = 8 ∧
    (alone { hint := some ⟨0, 0, .hintType true 3#2 1#2⟩ }).grp.typeHint = some (true, 3#2, 1#2) := by decide

/-- The finite value of a code, as a sign and a rational number. -/
def numberOf (c : Word) : Option (Bool × ℚ) :=
  match f32Val c with
  | .fin x => some (x.s, x.val)
  | .nan => none
  | .inf _ => none

theorem witness_SpecialFunctions_ends : f32Val 0x7FC00000#32 = .nan ∧ f32Val 0x7F800000#32 = .inf false ∧ f32Val 0xFF800000#32 = .inf true ∧
    numberOf 0x80000000#32 = some (true, 0) ∧ numberOf 0xC0800000#32 = some (true, -4) := by decide +kernel
theorem witness_SpecialFunctions_values : numberOf 0x40800000#32 = some (false, 2 ^ 2) ∧ numberOf 0x3E800000#32 = some (false, 4 ^ (-1 : Int)) ∧
    numberOf 0xC3150000#32 = some (true, ((-149 : Int) : ℚ)) ∧ numberOf 0x42FE0000#32 = some (false, ((127 : Int) : ℚ)) ∧ numberOf 0x43000000#32 = some (false, 128) ∧
    numberOf 0x3FC00000#32 = some (false, ((1 : Int) : ℚ) + 1 / 2) ∧ numberOf 0x3F000000#32 = some (false, ((0 : Int) : ℚ) + 1 / 2) ∧
    numberOf 0x41800000#32 = some (false, 16) := by decide +kernel
theorem witness_SpecialFunctions_others : numberOf 0x3EAAAAAB#32 = some (false, 11184811 / 33554432) ∧ numberOf 0x40400000#32 = some (false, 3) ∧ (∀ k : Int, (11184811 / 33554432 : ℚ) ≠ k / 2) := by
  refine ⟨by decide +kernel, by decide +kernel, fun k h => ?_⟩
  have h : (11184811 : ℚ) = k * 16777216 := by field_simp at h; linarith
  have : (11184811 : Int) = k * 16777216 := by exact_mod_cast h
  omega
theorem witness_DeliverRoundsCorrectly : (deliver (layoutOf .f32) .rn false ⟨false, 1, 3⟩).fl.getLsbD 1 = false ∧ 0 < 3 ∧
    (deliver (layoutOf .f32) .rn false ⟨true, 2 ^ 128 - 2 ^ 103, 1⟩).fl.getLsbD 1 = true ∧ (deliver (layoutOf .f32) .rn false ⟨true, 2 ^ 128 - 2 ^ 103 - 1, 1⟩).fl.getLsbD 1 = false ∧
    (layoutOf .f32).value (2 ^ 32 - 1) = .nan ∧ (layoutOf .f32).value 0x7F7FFFFF ≠ .nan ∧ 0x7F7FFFFF < 2 ^ (layoutOf .f32).width := by decide +kernel

/-! Control -/

/-- The largest aligned address in g2 and g3, and a count in g4. -/
def aimed : Group := { live := true, pc := 0x1000, g := [(2, 0xFFFFFFFC#32), (3, 0x00FFFFFF#32), (4, 1#32)] }

theorem witness_ControlTransfers : (alone aimed).grp.guardQ always = true ∧ ((alone aimed).grp.getG64 2#6).toNat = 2 ^ 56 - 4 ∧ (2 ^ 56 - 4) % 4 = 0 ∧
    ((alone aimed).grp.branchTarget 0xFFC00#20).toNat = 4 ∧ (alone (looping 1#32)).grp.n = 1 := by decide +kernel
theorem witness_Calls : ((alone aimed).grp.branchTarget 0#20).toNat = 0x1004 ∧ (62#6 : Reg).getLsbD 0 = false ∧ (2#6 : Reg).getLsbD 0 = false := by decide +kernel
theorem witness_EndOfIteration : shows (exec (.nop true always) (alone (looping 1#32))) (fun t => t.grp.n == 0) = true ∧
    shows (exec (.nop true always) (alone (looping 2#32))) (fun t => t.grp.n == 1 && (t.grp.loop 0).le == 0x1004#56) = true ∧
    shows (exec (.nop true always) (alone { looping 2#32 with pc := 0x2000 })) (fun t => t.grp.n == 1 && (t.grp.loop 0).le != 0x2004#56) = true := by decide +kernel
theorem witness_LoopInstruction : (alone aimed).grp.getG 5#6 = 0#32 ∧ (alone aimed).grp.getG 4#6 ≠ 0#32 ∧ (alone { aimed with n := 3 }).grp.n < 4 ∧
    4 ≤ (alone { aimed with n := 4 }).grp.n ∧ (alone aimed).grp.n = 0 ∧ (alone (looping 1#32)).grp.n ≠ 0 := by decide
theorem witness_DivergedBranch : let s := alone { half with n := 1, loops := [(0, ⟨0x1000, 0x1048, 5⟩)] }
    s.grp.active never ≠ 0#32 ∧ s.grp.active never ≠ s.grp.running ∧ (s.grp.branchTarget 0x10#20).toNat = 0x1044 ∧
    (s.grp.loop 0).ls ≤ 0x1044#56 ∧ 0x1044#56 < (s.grp.loop 0).le := by decide +kernel
/-- g2 and g3 point past the last address, g8 and g9 between two words; the next word's address is past the last. -/
def astray : Group := { live := true, pc := 0xFFFFFFFFFFFFFC, p := [(0, 1#32)], g := [(2, 0#32), (3, 0x01000000#32), (8, 0x1002#32), (9, 0#32)] }

theorem witness_ControlTransfers_bad : let g := (alone astray).grp
    let m := (alone { astray with pc := 0x1002 }).grp
    g.guardQ always = true ∧ (g.getG64 2#6).toNat = 2 ^ 56 ∧ (g.getG64 8#6).toNat < 2 ^ 56 ∧ (g.getG64 8#6).toNat % 4 ≠ 0 ∧ (g.branchTarget 0#20).toNat = 2 ^ 56 ∧ g.active never ≠ 0#32 ∧
    m.branchTarget 0#20 = 0x1006#64 := by decide +kernel
theorem witness_DivergedBranch_bad : let s := alone { half with n := 1, loops := [(0, ⟨0x1000, 0x1044, 5⟩)] }
    (s.grp.branchTarget 0x10#20).toNat = 0x1044 ∧ (s.grp.loop 0).ls ≤ s.grp.pc ∧ s.grp.pc < (s.grp.loop 0).le ∧ ¬(0x1044#56 < (s.grp.loop 0).le) ∧ s.grp.branchTarget 0#20 = 0x1004#64 := by decide +kernel
theorem witness_ExitInstruction : never.idx ≠ 7#3 ∧ always.idx = 7#3 ∧ (alone half).grp.running &&& ~~~(alone half).grp.active never ≠ 0#32 := by decide +kernel

/-! The parallel machine -/

theorem witness_GroupVotes : (6#3 : BitVec 3) ≠ 7#3 ∧ (alone half).grp.active never ≠ 0#32 ∧ (alone {}).grp.active never = 0#32 := by decide +kernel
theorem witness_MovesBetweenThreads : let s := alone half
    (s.grp.active never).getLsbD (s.grp.opB none (.imm 15#6)).toNat = true ∧ (s.grp.active never).getLsbD (s.grp.opB none (.imm 16#6)).toNat = false ∧
    (s.grp.active never).getLsbD (s.grp.opB none (.neg 31#5)).toNat = false := by decide +kernel
theorem witness_ReductionsAndScans : (alone half).grp.active never ≠ 0#32 ∧ (alone {}).grp.active never = 0#32 ∧ f32Val 0#32 ≠ .nan := by decide +kernel

/-- Two groups of one owner at the same context of cores 0 and 4, and the waits given. -/
def partners (ws : FMap WaitOp) : State :=
  { State.reset with
    owners := [(1, { live := true, part := some { loadedPart with cores := [0, 4] } })]
    groups := [(0, { live := true, owner := 1, core := 0, xchgN := 2 }), (1, { live := true, owner := 1, core := 4, xchgN := 3 })]
    waits := ws, nextId := 4 }

def exchanging (met : Bool) : WaitOp := { gid := 1, owner := 1, island := 0, pc := 0, w := 0, kind := .xchg 2 5 9#6 [] 0xFFFF#32 met }

theorem witness_Exchange : let s := partners []
    s.hasCore s.grp.owner (s.grp.core ^^^ 4) = true ∧ s.paired s.grp.owner s.grp.core = true ∧ s.partner s.grp = some 1 ∧
    s.xchgWaiting 1 s.grp.xchgN = none ∧ (partners [(3, exchanging false)]).xchgWaiting 1 2 = some (3, exchanging false) ∧ 3 < s.nextId := by decide +kernel
theorem witness_Exchange_completes : mapFind (partners [(3, exchanging true)]).waits 3 = some (exchanging true) ∧
    ((partners []).groupAt (exchanging true).gid).isEnded = false := by decide +kernel

/-- Threads 16 to 31 wait at 0x2000, and join 1 expects all threads. -/
def joining (parked : Bool) : Group :=
  { live := true, pc := 0x1000, joins := [(1, ⟨true, 0xFFFFFFFF#32, 0#32⟩)]
    threads := if parked then (List.range 16).map (fun i => (i + 16, { st := .parked, resume := 0x2000 })) else [] }

theorem witness_Joins : let s := alone (joining true)
    let j := mapGet {} s.grp.joins 1
    (mapGet {} s.grp.joins 0).armed = false ∧ j.armed = true ∧ j.expect ≠ 0#32 ∧ s.grp.running ≠ 0#32 ∧ s.grp.running &&& ~~~j.expect = 0#32 ∧ s.grp.trapMode = false ∧
    j.arrived ||| s.grp.running ≠ j.expect ∧ (∀ y, y < 32 → (j.arrived.getLsbD y = true ↔ (s.grp.thread y).st = .joined 1#3)) ∧
    (s.grp.thread 16).st = .parked ∧ (∀ y, y < 32 → (s.grp.thread y).st = .parked → (s.grp.thread 16).resume ≤ (s.grp.thread y).resume) := by decide +kernel
theorem witness_Joins_last : let s := alone (joining false)
    let j := mapGet {} s.grp.joins 1
    j.arrived ||| s.grp.running = j.expect ∧ (∀ y, y < 32 → (j.arrived.getLsbD y = true ↔ (s.grp.thread y).st = .joined 1#3)) := by decide +kernel
theorem witness_YieldAndSlots : let s : State := { State.reset with
      owners := [(1, { live := true, cyc := [(0, 64)] })], rota := [(rotaKey 0 0 2, 1)], groups := [(0, { live := true, owner := 1, g := [(3, 33#32)] })] }
    s.win / 32 * 32 + 32 < s.win + (s.grp.getG 3#6).toNat ∧ s.slotOwner (s.groupCore s.grp) s.grp.lane 2 = s.grp.owner ∧
    s.slotOwner (s.groupCore s.grp) s.grp.lane 3 ≠ s.grp.owner ∧ (s.grp.opB none (.imm 2#6)).toNat % 8 = 2 := by decide +kernel

/-! Special registers, random numbers, waits, hints, traps -/

theorem witness_WriteSpecialRegister : (alone { half with trapMode := true }).grp.trapMode = true ∧ (alone half).grp.trapMode = false ∧
    SReg.owner ∉ [SReg.flags, .flagArm] ∧ SReg.owner ∉ [SReg.tmask, .tcause, .tdetailA, .tdetailB, .tdetailC, .trapPc] ∧
    (encode (.sets always .owner (.imm 0#6))).isSome = true ∧ (encode (.sets always .tmask (.imm 0#6))).isSome = true := by decide +kernel
theorem witness_RandomNumbers : (alone half).grp.active never ≠ 0#32 ∧ (alone {}).grp.active never = 0#32 := by decide +kernel

/-- One load and two copies of the group are outstanding. -/
def waiting : Group := { live := true, pc := 0x1000, g := [(3, 1#32)], outs := [⟨.loads, 4, false⟩, ⟨.copies, 5, false⟩, ⟨.copies, 6, true⟩] }

theorem witness_WaitInstructions : let c (k : OpClass) := (alone waiting).grp.outs.countP (fun o => decide (o.cls = k))
    c .loads = 1 ∧ c .copies = 2 ∧ ((alone waiting).grp.getG 3#6).toNat = 1 := by decide +kernel
theorem witness_HintsBind : encode (.hintWide 1#22) = some 0xFE000001#32 ∧
    ((loaded 0xFE000001).putWord (loadedFrame + 4) 0x3AE08000).pairTrap 0xFE000001#32 = none ∧
    (((loaded 0xFE000001).putWord (loadedFrame + 4) 0x47E00004).pairTrap 0xFE000001#32).isSome = true := by decide +kernel
theorem witness_SoftwareAndDeferredTraps : let s : State := { placed { half with p := [(0, 0x30#32)] } with nextId := 1 }
    s.grp.trapMode = false ∧ (s.launchAt s.grp.launch).handler = some 0x11000 ∧ s.grp.guardQ always = true ∧ s.grp.guardQ never = false ∧
    (s.grp.active never).getLsbD 4 = true ∧ (∀ i, i < 4 → (s.grp.active never).getLsbD i = false) ∧ s.grp.active ⟨1#3, false⟩ = 0#32 := by decide +kernel
theorem witness_SoftwareAndDeferredTraps_due : let s : State := placed { half with pend := [(7, { a := 5 })] }
    let g := s.groupAt 0
    g.trapMode = false ∧ g.idle (s.cycOf g.owner (s.groupIsland g)) = true ∧ s.placed g = true ∧ g.hint = none ∧ s.heldOn g.owner (s.groupIsland g) = false ∧
    [9, 8, 4, 6, 7] = [9, 8, 4, 6] ++ 7 :: [] ∧ (∀ e ∈ [9, 8, 4, 6], mapFind g.pend e = none) ∧ mapFind g.pend 7 = some { a := 5 } ∧
    (s.launchAt g.launch).handler = some 0x11000 := by decide +kernel
theorem witness_ReturnFromTrap : let g : Group := { half with trapMode := true, trapPc := 0xFFFFFFFFFFFFFC }
    let s := alone g
    s.grp.trapMode = true ∧ s.grp.guardQ always = true ∧ s.grp.noResume = false ∧ s.grp.trapPc.toNat = 2 ^ 56 - 4 ∧
    (s.grp.thread 0).st ≠ .ended ∧ (mapGet {} s.grp.frame.threads 0).st = .running ∧ (alone { g with noResume := true }).grp.noResume = true ∧
    ¬((alone { g with trapPc := 0x1002 }).grp.trapPc.toNat % 4 = 0) ∧ ¬((alone { g with trapPc := 0x100000000000000 }).grp.trapPc.toNat < 2 ^ 56) ∧
    (encode (.rte always)).isSome = true ∧ (alone half).grp.trapMode = false := by decide +kernel

/-! Memory and engines -/

/-- A partition with L1 and L2 ways, whose launch has a writable lease of the page at 0x10000 in frame 4, and whose workgroup holds 4,096 bytes of scratch; the
group's g2 and g3 point at the page, g4 and g5 at scratch, and g6 and g7 at neither. -/
def stocked (g : Group) : State :=
  let s := State.reset.withProgram
  let s := s.putMem 0x30008 (leBytes 8 (0x29F + 0x400 + 0x40000))
  { s with
    owners := [(1, { live := true, lanes := [(0, (1, 1))], part := some { loadedPart with l2Ways := (List.range 128).map (fun i => (i, 1)), shares := [⟨0, 0, 0x2000, 0, 16, 0, 16, 0, 4, 1⟩] } })]
    launches := [(0, { loadedLaunch with
      leases := [{ base := loadedAt, len := 0x10000, r := true, w := true, x := false, silo := false, vault := true, resident := true }], producerGroup := some 0
      trecs := [⟨0, 1, 0x10000, [16], [1], 1, 16⟩], templates := [⟨0, 512, 0, 0, 0⟩] })]
    wgs := [(0, { loadedWg with scratch := 4096 })]
    groups := [(0, { g with
      live := true, owner := 1, g := g.g ++ [(2, 0x10000#32), (4, 64#32), (5, 0x00F00000#32), (6, 0x20000#32)] })] }

theorem witness_MemoryInstructionsIssue : let s := stocked half
    let check (r : Reg) (n : Nat) (w : Want) := s.checkAccess s.grp (s.grp.getG64 r) true n w false
    let ok (r : Reg) (n : Nat) (k : AccKind) : Bool := match check r n k.want with
      | .ok hit => s.tileHeldAt hit n == false && (match s.fateOf s.grp k hit with
        | .stop _ => false
        | _ => true)
      | .error _ => false
    s.grp.lanes true always = [none] ∧ s.grp.lanes true never = [] ∧ s.grp.lanes false ⟨1#3, false⟩ = [] ∧ ok 2#6 16 .load = true ∧ ok 2#6 16 .store = true ∧
    ok 2#6 8 (.atom .addN64) = true ∧ ok 2#6 4 (.red .addN32) = true ∧ ok 4#6 8 .store = true ∧
    (s.wgAt s.grp.wg).entries + 2 * [(none : Lane)].length ≤ 8192 ∧ check 6#6 4 wantLoad = .error 6 ∧ [(none : Lane)] = [] ++ none :: [] := by decide +kernel

/-- The outcome of a check without its leaf. -/
def outcome (r : Except Nat Hit) : Nat ⊕ Place := match r with
  | .error c => .inl c
  | .ok h => .inr h.place

theorem witness_MemoryInstructionsIssue_checks : let s := stocked half
    let t : State := { s with launches := [(0, { loadedLaunch with leases := [{ base := loadedAt, len := 0x20000, r := true, w := true, x := false, silo := false, vault := true, resident := true }] })] }
    let c (s : State) (va size : Nat) (ldc : Bool) := outcome (s.checkAccess s.grp (BitVec.ofNat 64 va) true size wantLoad ldc)
    c s (2 ^ 56) 4 false = .inl 0 ∧ c s 0x1FFF8 16 false = .inl 1 ∧ c s 0x1FFF0 16 false = .inr (.mem 0x4FFF0) ∧ c s 0x20000 4 false = .inl 6 ∧ c t 0x20000 4 false = .inl 2 ∧
    c s 0x1FFFC 4 true = .inl 3 ∧ c s 0x00F0000000000000 4 true = .inl 3 ∧ c s 0x00F0000000080000 4 false = .inl 7 ∧ c s 0x00F0000000002000 4 false = .inl 7 ∧
    c s 0x00F000000000003C 4 false = .inr .guard ∧ c s 0x00F0000000000040 4 false = .inr (.scr 0 64) ∧ c s 0x00F000000000103C 4 false = .inr (.scr 0 4156) ∧
    c s 0x00F0000000001040 4 false = .inr .guard ∧ c s 0x00F1000000007FF8 8 false = .inr (.ctr 4095) ∧ c s 0x00F1000000007FF8 4 false = .inl 1 ∧
    c s 0x00F0000010000000 4 false = .inl 2 ∧ c s 0x00F1000000008000 8 false = .inl 2 ∧ s.holdsCore 1 0 = true := by decide +kernel
theorem witness_MemoryInstructionsIssue_translates : let e : TlbEntry := ⟨1, 0, 0x10000, 16, 0x4069F, 0x30008⟩
    let s : State := { stocked half with tlb := [e, { e with base := 0x20000, entry := 0x406BF }, { e with base := 0x30000, entry := 0x406FF }] }
    s.tlbHit 1 0 0x1FFFF = some e ∧ s.tlbHit 1 0 0x40000 = none ∧ e.entry.testBit 5 = false ∧ (0x406BF : Nat).testBit 5 = true ∧ (0x406BF : Nat).testBit 6 = false ∧ (0x406FF : Nat).testBit 6 = true ∧
    (0x406FF : Nat).testBit 4 = true ∧ (0x406AF : Nat).testBit 4 = false := by decide +kernel
/-- A table whose only entry, at address 0, is the number given. -/
def tabled (e : Nat) : Nat × Bool := let s := State.reset.putMem 0 (leBytes 8 e); let e := ofBytes (s.bytes (s.canon 1 (0 + 8 * pteIndex 0 1)) 8); (e, pteWellFormed loadedPart e 1)
theorem witness_MemoryInstructionsIssue_walks :
    tabled 0x4069E = (0x4069E, true) ∧ tabled 0x40A9F = (0x40A9F, true) ∧ 0x40A9F / 2 ^ 10 % 64 ≠ loadedPart.owner ∧ 0x4069F / 2 ^ 10 % 64 = loadedPart.owner ∧ 0x40401 / 4 % 256 = 0 ∧ 0x40401 / 2 ^ 52 = 0 ∧
    (0x40401 : Nat).testBit 1 = false ∧ (tabled 0x4069F).2 = true ∧ (tabled 0x4049F).2 = false ∧ (0x4069F : Nat).testBit 1 = true ∧ (0x40697 : Nat).testBit 3 = false := by decide +kernel

/-- One access of 4 bytes to the start of frame 4, or elsewhere, in flight as operation 3. -/
def flying (k : AccKind) (p : Place) (sent : Option Nat) (buffered : Bool) : State :=
  { stocked half with
    ops := [(3, { gid := 0, owner := 1, launch := 0, wg := 0, core := 0, island := 0, pc := 0, w := 0, kind := k, cls := k.cls, uni := true, dst := 9#6, ord := .plain
                  scope := .grp, hist := 1#32
                  accs := [{ thread := 0, va := 0x10000, place := p, size := 4, data := [1, 2, 3, 4], hor := 320, sent := sent, buffered := buffered }] })], nextId := 4 }

/-- Operation 3 does what is named, and its access has been sent, is not done, and reads no faulty place. -/
def pending (s : State) (k : AccKind) (p : Place) (b : Bool) : Bool :=
  match mapFind s.ops 3 with
  | some op => decide (op.kind = k) && !(s.groupAt op.gid).isEnded && op.accs.all (fun a => decide (a.thread = 0) && decide (a.place = p) && !a.done && a.sent.isSome &&
      decide (a.buffered = b) && (s.faultAt a.place a.size).isNone && decide (a.data.length ≤ 16)) && (op.acc 0).isSome
  | none => false

theorem witness_RepliesTakeEffect :
    pending (flying .load (.mem 0x40000) (some 0) false) .load (.mem 0x40000) false = true ∧
    pending (flying (.atom .addN32) (.mem 0x40000) (some 0) false) (.atom .addN32) (.mem 0x40000) false = true ∧
    pending (flying .store (.mem 0x40000) (some 0) false) .store (.mem 0x40000) false = true ∧
    pending (flying (.red .or) (.mem 0x40000) (some 0) false) (.red .or) (.mem 0x40000) false = true ∧
    pending (flying .store (.scr 0 64) (some 0) false) .store (.scr 0 64) false = true ∧
    pending (flying .store (.ctr 4095) (some 0) false) .store (.ctr 4095) false = true ∧
    pending (flying .store (.mem 0x40000) (some 0) true) .store (.mem 0x40000) true = true := by decide +kernel
theorem witness_RepliesTakeEffect_sends : let s := flying .store (.mem 0x40000) none false
    ((mapFind s.ops 3).bind (fun op => op.acc 0)).map (fun a => (a.sent, s.awaitAll 0 a.wait)) = some (none, some 0) ∧ s.cycOf 1 0 = 0 ∧
    s.l1Ways 1 0 ≠ [] ∧ s.l1Line 1 0 0x40000 = none ∧ (∀ p ∈ s.nets, p.2.stage ≠ .armed) := by decide +kernel

/-- Two stores to the same bytes, of which operation 3 happens before operation 4, and a made-up third that a save has made already. -/
def ordered34 : State :=
  let s := flying .store (.mem 0x40000) (some 0) false
  match mapFind s.ops 3 with
  | some op => { s with ops := [(3, op), (4, { op with after := [3] }), (5, { op with accs := op.accs.map (fun a => { a with settled := true }) })] }
  | none => s

theorem witness_RepliesTakeEffect_orders : let s := ordered34
    (mapFind s.ops 4).map (fun op => (op.after, op.kind)) = some ([3], .store) ∧ (mapFind s.ops 3).map (fun op => op.accs.map (fun b => b.within 0x40000 4)) = some [[0, 1, 2, 3]] ∧
    ((mapFind s.ops 5).bind (fun op => op.acc 0)).map (fun a => (a.settled, a.done)) = some (true, false) ∧ (mapFind s.ops 3).map (fun op => op.after) = some [] ∧
    pending (flying (.red .addN64) (.ctr 4095) (some 0) false) (.red .addN64) (.ctr 4095) false = true := by decide +kernel

/-- A group that asks for ownership of n lines from the page's start. -/
def asking (n : Word) (from_ : Word) : Group := { half with g := [(1, n), (8, from_)] }

theorem witness_OrderingInstructions : let s := stocked (asking 512#32 0x10000#32)
    let ls := (s.launchAt s.grp.launch).leases
    let owned (b : Nat) : Bool := ls.any (fun l => l.resident && l.w && decide (l.base ≤ b ∧ b < l.base + l.len))
    s.grp.guardQ always = true ∧ (s.grp.getG 1#6).toNat ≠ 0 ∧ (s.grp.getG64 8#6).toNat % 128 = 0 ∧ (s.grp.getG64 8#6).toNat + 128 * 512 = 0x20000 ∧
    ls.map (fun l => (l.resident, l.w, l.base, l.len)) = [(true, true, 0x10000, 0x10000)] ∧ owned 0x10000 = true ∧ owned 0x1FFFF = true ∧ owned 0x20000 = false ∧
    owned 0xFFFF = false ∧ ((stocked (asking 1#32 0x10040#32)).grp.getG64 8#6).toNat % 128 ≠ 0 ∧ ((stocked (asking 0#32 0#32)).grp.getG 1#6).toNat = 0 ∧
    (s.wgAt s.grp.wg).own.length < 64 ∧ s.grp.scopeOr .acq .dev ≠ .grp ∧ s.grp.scopeOr .acq .grp = .grp ∧ s.grp.scopeOr .acq .wg = .wg := by decide +kernel
theorem witness_OrderingInstructions_fences : let g : Group := { half with seen := [4], heard := [5], outs := [⟨.loads, 5, false⟩, ⟨.loads, 6, true⟩], g := [(8, 0x10000#32)] }
    let s : State := { flying .load (.mem 0x40000) (some 0) false with groups := [(0, { g with live := true, owner := 1 })] }
    (mapFind s.ops 3).map (fun op => (op.gid, op.hist &&& s.grp.running)) = some (0, 1#32) ∧ 4 ∈ s.grp.seen ∧ 5 ∈ s.grp.heard ∧ s.grp.scopeOr .ar .dev = .dev ∧ Scope.dev ≠ .wg ∧
    ((s.translate (some 0) (s.launchAt 0).leases 1 (s.grp.rd64 none 8#6).toNat 1 wantLoad).map (fun x => x.entry.testBit 5)).toOption = some false ∧
    s.readsFor (some 0) (s.launchAt 0).leases 1 0x10000 1 wantLoad = [0, 0x10000, 0x20000, 0x30008] ∧ (s.grp.rd64 none 8#6).toNat < 0x00F0000000000000 := by decide +kernel
theorem witness_OrderingInstructions_full : let s : State := { stocked (asking 1#32 0x10000#32) with
      wgs := [(0, { loadedWg with own := List.replicate 64 ⟨0, 1, false⟩ })], launches := [(0, { loadedLaunch with waits := true, producer := some 0 })] }
    64 ≤ (s.wgAt s.grp.wg).own.length ∧ (0, s.launchAt 0) ∈ s.launches ∧ (s.launchAt 0).producer = some s.grp.launch ∧ (s.launchAt 0).waits = true := by decide +kernel

/-- A workgroup whose barrier 3 is in the middle of a phase, with another group waiting there. -/
def atBarrier (g : Group) (b : Barrier) (r : Option GuardRec) : State :=
  { State.reset with
    groups := [(0, { g with live := true }), (1, { live := true, waitSlot := some 3 })]
    wgs := [(0, { live := true, groups := [0, 1], barriers := [(3, b)], guard := r })] }

theorem witness_NamedBarriers : let s := atBarrier half { latched := true, expect := 3, arrived := 1 } none
    let x := (s.wgAt s.grp.wg).bar 3
    mapFind s.grp.pend causeArithmetic = none ∧ (s.wgAt s.grp.wg).guard = none ∧ s.grp.waitSlot = none ∧ x.latched = true ∧ x.expect = 3#6 ∧
    x.arrived.toNat + x.engines.toNat + 1 ≤ (3#6 : BitVec 6).toNat ∧ x.arrived.toNat + 1 ≠ (3#6 : BitVec 6).toNat ∧ x.expect ≠ 2#6 ∧
    ((s.wgAt s.grp.wg).bar 4).latched = false ∧ (0#6 : BitVec 6).toNat < ((s.wgAt s.grp.wg).bar 4).arrived.toNat + ((s.wgAt s.grp.wg).bar 4).engines.toNat + 1 := by decide +kernel
theorem witness_NamedBarriers_last : let s := atBarrier half { latched := true, expect := 2, arrived := 1 } none
    let x := (s.wgAt s.grp.wg).bar 3
    x.arrived.toNat + 1 = (2#6 : BitVec 6).toNat ∧ (1 : Nat) ∈ (s.wgAt s.grp.wg).groups ∧ (s.groupAt 1).waitSlot = some 3 ∧
    (x.phase + 1 - s.grp.waitedOn 3).toNat = 1 ∧ (x.phase - s.grp.waitedOn 3).toNat = 0 := by decide +kernel
theorem witness_NamedBarriers_pending : let s := atBarrier { half with pend := [(causeArithmetic, { a := 2 })] } {} none
    let r := atBarrier half {} (some ⟨0, 1, 0x10#64, []⟩)
    s.grp.trapMode = false ∧ (s.wgAt s.grp.wg).guard = none ∧ mapFind s.grp.pend causeArithmetic = some { a := 2 } ∧
    r.grp.trapMode = false ∧ (r.wgAt r.grp.wg).guard = some ⟨0, 1, 0x10#64, []⟩ ∧ r.cur ∉ ([] : List Nat) ∧
    (atBarrier { half with trapMode := true } {} none).grp.trapMode = true := by decide +kernel

theorem witness_TensorSlotsAndReservations : let s := stocked half
    let l := s.launchAt s.grp.launch
    let s2 : State := { s with trec := [(5, ⟨0, 1, 0, [16], [1], 1, 16⟩)], rsv := [(4, ⟨0, 1, 0, 0, 0, true⟩)] }
    (l.trecs[0]?).isSome = true ∧ l.trecs[1]? = none ∧ (l.templates[0]?).isSome = true ∧ l.templates[1]? = none ∧
    mapFind s2.trec (s2.grp.wg * 16 + 5) = some ⟨0, 1, 0, [16], [1], 1, 16⟩ ∧ mapFind s.trec (s.grp.wg * 16 + 5) = none ∧
    (s.rsvAt s.grp.wg 4).valid = false ∧ (s2.rsvAt s2.grp.wg 4).valid = true ∧ (s.shareOf s.grp.owner s.grp.core).map (fun x => (x.obufFirst, x.obufCount)) = some (0, 16) ∧
    opFmtOf 0 = some (.flt .f32) ∧ 0 + 1 ≤ 16 := by decide +kernel
theorem witness_TensorSlotsAndReservations_held : let s := stocked half
    let s2 : State := { s with rsv := [(4, ⟨0, 1, 0, 0, 0, true⟩)], engObuf := [(0, true)] }
    0 < (s2.rsvAt s2.grp.wg 4).length.toNat ∧ mapGet false s2.engObuf (s2.groupCore s2.grp * 512 + (0 + (s2.rsvAt s2.grp.wg 4).offset.toNat + 0)) = true := by decide +kernel

/-- The group's copy block at g8: an origin of 0, its place at byte 512 of the slice. -/
def copying : Group := { half with g := [(12, 64#32)] }

theorem witness_CopiesIssue : let s : State := { stocked copying with trec := [(1, ⟨0, 1, 0x10000, [16], [1], 1, 16⟩)] }
    let g := s.grp
    let args := (List.range 8).map (fun i => g.getG (8#6 + BitVec.ofNat 6 i))
    (s.launchAt g.launch).producerGroup = some g.index ∧ (s.launchAt g.launch).detlvl = 0 ∧ mapFind s.trec (g.wg * 16 + 1) = some ⟨0, 1, 0x10000, [16], [1], 1, 16⟩ ∧
    mapFind s.trec (g.wg * 16 + 2) = none ∧ Trec.ok ⟨0, 1, 0x10000, [16], [1], 1, 16⟩ (args.getD 0 0#32).toNat = true ∧
    Trec.ok ⟨31, 1, 0x10000, [16], [1], 1, 16⟩ 0 = false ∧ (s.copyPlace g false false ⟨0, 1, 0x10000, [16], [1], 1, 16⟩ args).isOk = true ∧
    s.engScr = [] ∧ ((s.wgAt g.wg).bar 0).latched = false := by decide +kernel

/-- A group that names reservations 0 and 1, and a drain in FP32. -/
def tiling : Group := { half with
  v := (List.range 8).map (fun i => (32 * 1 + i, 0x10#32)), g := [(10, 128#32), (11, 0x00F00000#32), (16, 0xFF00#32)], batch := 3
  batches := [⟨2, true, []⟩, ⟨1, true, [9]⟩] }

theorem witness_TileInstructions : let s : State := { stocked { tiling with p := [(0, 0xFF#32)] } with
      rsv := [(0, ⟨0, 4, 0, 0, 0, true⟩), (1, ⟨0, 8, 4, 0, 0, true⟩)], tileOps := [(2, { gid := 1, owner := 1, core := 0, tile := 3, left := 1 })] }
    let g := s.grp
    let qs := (quartersOf (g.active never)).map (s.quarter g (g.active never) 1#6)
    g.active never ≠ 0#32 ∧ (s.shareOf g.owner g.core).map (fun x => (x.accFirst, x.accCount)) = some (0, 4) ∧ s.quarterFault (s.groupCore g) qs = none ∧
    qs.length = 1 ∧ (∃ p ∈ s.tileOps, p.2.owner = g.owner ∧ p.2.core = g.core ∧ p.2.tile = 0 + 3 ∧ p.2.gid ≠ s.cur) ∧
    ¬(∃ p ∈ s.tileOps, p.2.owner = g.owner ∧ p.2.core = g.core ∧ p.2.tile = 0 + 2 ∧ p.2.gid ≠ s.cur) ∧
    (stocked tiling).quarterFault 0 ((quartersOf (g.active never)).map ((stocked tiling).quarter g (g.active never) 1#6)) = some 1 ∧
    (alone half).shareOf 0 0 = none ∧ 4 ≤ (4#6 : Reg).toNat ∧ (3#6 : Reg).toNat < 4 := by decide +kernel
theorem witness_TileInstructions_batches : let g := (alone tiling).grp
    g.batchClosed 1 = true ∧ g.batchDone 1 = false ∧ g.batchClosed 2 = true ∧ g.batchDone 2 = true ∧ g.batchClosed 3 = false := by decide +kernel

/-- The images of the drain at g10, and what follows them. -/
def draining (g : Group) (off : Nat) : Bool :=
  match drainImages (stocked g).grp 10#6 with
  | none => false
  | some is0 => is0.all (fun x => decide (x.addr.toNat % 64 = 0)) && (match (stocked g).imagePlaces (stocked g).grp is0 with
    | .error _ => false
    | .ok is => decide (is.length = 1) && is.all (fun x => decide (x.off = some off)))

theorem witness_TileInstructions_drains :
    (drainImages (stocked { tiling with g := [(10, 128#32), (11, 0x00F00000#32), (16, 0xFFFF#32)] }).grp 10#6).isNone = true ∧
    (drainImages (stocked { tiling with g := [(10, 130#32), (11, 0x00F00000#32), (16, 0xFF00#32)] }).grp 10#6).map (fun is => is.any (fun x => decide (x.addr.toNat % 64 ≠ 0))) = some true ∧
    draining { tiling with g := [(10, 128#32), (11, 0x00F00000#32), (16, 0xFF00#32)] } 64 = false ∧
    draining { tiling with g := [(10, 64#32), (11, 0x00F00000#32), (16, 0xFF00#32)] } 64 = true := by decide +kernel
theorem witness_BlockQuantisation : f32Val 0x7FC00000#32 = .nan ∧ f32Val 0x7F800000#32 = .inf false ∧ numberOf 0#32 = some (false, 0) ∧ numberOf 0xBF800000#32 = some (true, -1) ∧
    numberOf 0x3F800000#32 = some (false, 1) ∧ bitsOf ((alone half).grp.active never) ≠ [] ∧ 0 < 0x7E := by decide +kernel

/-- A drain of owner 1 in flight, that arrives on barrier 3. -/
def landing : EngOp := {
  gid := 0, owner := 1, launch := 0, wg := 0, core := 0, island := 0, pc := 0, w := 0, cls := .tiles, job := .drain [] 0#32 0 0#32
  writes := [(.scr 512, 7), (.mem 0x40000, 8)], bytes := 2, granScr := [1], bar := some 3, fl := flagINX }

theorem witness_EngineOperationsComplete : let s : State := { stocked half with engs := [(3, landing)] }
    mapFind s.engs 3 = some landing ∧ landing.job = .drain [] 0#32 0 0#32 ∧ (s.groupAt landing.gid).isEnded = false ∧ landing.bar = some 3 ∧
    ({ landing with bar := none } : EngOp).bar = none := by decide +kernel

/-- An entry of the queue of lane 2 of core 0. -/
def entered (w : TileWork) : TileEntry := ⟨5, 0, 4, 1, w⟩

def operand0 : OperandAt := ⟨0, 0, 0, 0⟩

theorem witness_MatrixPasses : let s : State := { stocked half with
      passes := [(7, { owner := 1, core := 0, lane := 2, island := 0, left := 1 })], queues := [((1 * 512 + 0) * 8 + 3, [entered .zero, entered .zero])] }
    s.passes.find? (fun p => decide (p.2.owner = 1 ∧ p.2.core = 0 ∧ p.2.lane = 2 ∧ p.2.left ≠ 0)) = some (7, { owner := 1, core := 0, lane := 2, island := 0, left := 1 }) ∧
    (∀ p ∈ s.passes, ¬(p.2.owner = 1 ∧ p.2.core = 0 ∧ p.2.lane = 3 ∧ p.2.left ≠ 0)) ∧ mapGet [] s.queues ((1 * 512 + 0) * 8 + 3) = entered .zero :: [entered .zero] ∧
    mapGet [] s.queues ((1 * 512 + 0) * 8 + 4) = [] ∧ s.cycOf 1 0 = 0 ∧ 0 < (entered .zero).enter ∧ islandOf (s.phys 1 0) = 0 := by decide +kernel
theorem witness_MatrixPasses_works : let c (w : TileWork) : State := { stocked half with
      owners := [(1, { (stocked half).ownerAt 1 with cyc := [(0, 4)] })], queues := [((1 * 512 + 0) * 8 + 3, [entered w])], engs := [(6, landing)]
      passes := [(7, { owner := 1, core := 0, lane := 2, island := 0, left := 0, entries := [entered w], tiles := [(3, 9#32)], regs := [(32, 4#32)] })], tileOps := [(5, { gid := 0, owner := 1, core := 0, tile := 1, left := 1 })] }
    (c .zero).cycOf 1 0 = 4 ∧ (entered .zero).enter ≤ 4 ∧ (∀ w ∈ [TileWork.zero, .read 31 9#6 1#32, .quarter 3 operand0 operand0 0#32 0#32, .drain 6],
      mapGet [] (c w).queues ((1 * 512 + 0) * 8 + 3) = [entered w]) ∧ mapFind (c (.drain 6)).engs 6 = some landing ∧ (mapFind (c .zero).passes 7).isSome = true ∧
    mapFind (c .zero).tileOps 5 = some { gid := 0, owner := 1, core := 0, tile := 1, left := 1 } ∧ ((c .zero).groupAt 0).isEnded = false := by decide +kernel

/-! Queues, networks and the tree -/

/-- Owner 1 has declared queue 2 of 16 entries with one item, queue 40, and queue 3, closed and empty; a waiting instruction is given. -/
def queued (w : FMap WaitOp) (g : Group) : State :=
  let s := stocked g
  { s with
    owners := [(1, { s.ownerAt 1 with qdecl := [(2, ⟨16, false, 0⟩), (3, ⟨16, true, 0⟩), (40, ⟨16, false, 0⟩)], rings := [(2, [⟨List.replicate 64 7, 0, none⟩])] })]
    waits := w, nextId := 4 }

def held3 (k : WaitKind) (due : Option Nat) : FMap WaitOp := [(3, { gid := 0, owner := 1, island := 0, pc := 0, w := 0, kind := k, due := due })]

theorem witness_DroverQueues : let s := queued [] half
    s.grp.guardQ always = true ∧ (s.grp.opG (.imm 2#6)).toNat % 64 = 2 ∧ (mapFind (s.ownerAt 1).qdecl 2).isSome = true ∧ mapFind (s.ownerAt 1).qdecl 5 = none ∧
    s.waits = [] ∧ ((s.ownerAt 1).ring 2).find? (fun i => i.taken.isNone) = some ⟨List.replicate 64 7, 0, none⟩ ∧ ((s.ownerAt 1).ring 3).find? (fun i => i.taken.isNone) = none ∧
    s.hasCore 1 0 = true ∧ s.hasCore 1 1 = false ∧ 32 ≤ 40 ∧ (mapFind (s.ownerAt 1).qdecl 40).isSome = true := by decide +kernel
theorem witness_DroverQueues_disp : let s := (queued [] half).putMem 0x40000 [1]
    let check (va : Dword) := s.checkAccess s.grp va true 64 wantLoad false
    let good (va : Dword) : Bool := match check va with
      | .ok y => s.tileHeldAt y 64 == false && (match s.fateOf s.grp .load y with
        | .stop _ => false
        | _ => true)
      | .error _ => false
    check (s.grp.getG64 6#6) = .error 6 ∧ good (s.grp.getG64 2#6) = true ∧ good (s.grp.getG64 2#6 + 64#64) = true ∧
    (match check (s.grp.getG64 2#6) with
      | .ok y => decide (word32 (s.loadValue 1 0 0 false y.place 64 0).1 0 = 1)
      | .error _ => false) = true := by decide +kernel
theorem witness_DroverQueues_append : let s := queued (held3 (.append 2 2 [1] 0#3) none) half
    (mapFind s.waits 3).map (fun x => x.kind) = some (.append 2 2 [1] 0#3) ∧ (s.groupAt 0).isEnded = false ∧
    mapFind (s.ownerAt 1).qdecl (2 % 64) = some ⟨16, false, 0⟩ ∧ ((s.ownerAt 1).ring 2).length < 16 ∧ mapFind (s.ownerAt 1).qdecl (3 % 64) = some ⟨16, true, 0⟩ := by decide +kernel
theorem witness_DroverQueues_deq : let s := queued (held3 (.deq 2 2 16#6 0#3 (some [1])) (some 0)) half
    let r := queued (held3 (.deq 3 3 16#6 0#3 none) (some 0)) half
    (mapFind s.waits 3).map (fun x => (x.kind, x.due)) = some (.deq 2 2 16#6 0#3 (some [1]), some (s.cycOf 1 0)) ∧
    (mapFind r.waits 3).map (fun x => (x.kind, x.due)) = some (.deq 3 3 16#6 0#3 none, some (r.cycOf 1 0)) := by decide +kernel

theorem witness_DroverQueues_closed : let s := queued [] half
    (mapFind (s.ownerAt 1).qdecl 3).map (fun y => (y.closed, y.closedAt)) = some (true, 0) ∧ (s.ownerAt 1).ring 3 = [] ∧ (∃ i ∈ (s.ownerAt 1).ring 2, i.at_ = 0) := by decide +kernel
/-- A dispatch table of one row for one dimension of at most 40, kernel 9, as its reads return it. -/
def table1 : List Byte := leBytes 4 1 ++ leBytes 4 1 ++ List.replicate 56 0 ++ leBytes 4 40 ++ List.replicate 12 0 ++ leBytes 4 9 ++ List.replicate 12 0

/-- A dispatch of two pieces that has been read. -/
def dispatching : MemOp := {
  gid := 0, owner := 1, launch := 0, wg := 0, core := 0, island := 0, pc := 0, w := 0, kind := .load, cls := .loads, uni := true, dst := 0#6, ord := .plain, scope := .grp
  hist := 1#32, accs := [{ thread := 0, va := 0x10000, place := .mem 0x40000, size := 64, data := table1.take 64, hor := 0, sent := some 0, done := true },
    { thread := 1, va := 0x10040, place := .mem 0x40040, size := 64, data := table1.drop 64, hor := 0, sent := some 0 }] }

theorem witness_DroverQueues_result : let s : State := { queued (held3 (.disp 16#6 [40#32] false) none) half with ops := [(3, dispatching)] }
    let t := dispatching.accs.flatMap (fun a => a.data)
    (mapFind s.ops 3) = some dispatching ∧ (mapFind s.waits 3).map (fun x => x.kind) = some (.disp 16#6 [40#32] false) ∧
    (∀ a ∈ dispatching.accs, a.done = true ∨ a.sent.isSome = true ∧ a.vis ≤ s.cycOf 1 0) ∧ (∀ a ∈ dispatching.accs, a.done = false → s.faultAt a.place a.size = none) ∧
    word32 t 0 = 1 ∧ word32 t 4 = 1 ∧ (∀ y ∈ (t.drop 8).take 56, y = 0#8) ∧ (∀ y ∈ (t.drop 84).take 12, y = 0#8) ∧ word32 t 64 = 40 ∧
    ([40#32].getD 0 0#32).toNat ≤ word32 t 64 ∧ ¬(([41#32].getD 0 0#32).toNat ≤ word32 t 64) := by decide +kernel

/-- The page's entry has A and D set, so that an access marks nothing. -/
def marked : State := (stocked half).putMem 0x30008 (leBytes 8 (0x29F + 0x60 + 0x400 + 0x40000))

theorem witness_NetworkOperations : let s := stocked { half with g := [(1, 4095#32), (3, 4096#32), (20, 0x10000#32), (22, 0x10020#32), (24, 32#32), (25, 0xFFFF#32)] }
    let r (i : Nat) : Nat := (s.grp.getG (20#6 + BitVec.ofNat 6 i)).toNat
    (s.grp.getG 1#6).toNat < 4096 ∧ 4096 ≤ (s.grp.getG 3#6).toNat ∧ r 5 % 65536 = 0xFFFF ∧ r 4 = 32 ∧ (s.grp.getG64 20#6).toNat % 32 = 0 ∧
    (s.grp.getG64 22#6).toNat + r 4 ≤ 0x00F0000000000000 ∧ r 6 = 0 ∧ (s.checkAccess s.grp (s.grp.getG64 6#6) true 64 wantLoad false) = .error 6 ∧
    (s.checkAccess s.grp (s.grp.getG64 20#6) true 64 wantLoad false).isOk = true ∧ (0 : Nat) % 32 = 0 ∧
    ((marked.translate none (marked.partLeases 1) 1 0x10000 32 wantLoad).map (fun l => (marked.sectorFault (l.pa / 32), decide (l.next = l.entry)))).toOption = some (none, true) ∧
    (s.launchAt s.grp.launch).detlvl = 0 ∧ (alone half).launchAt 0 = {} := by decide +kernel
theorem witness_NetworkOperations_wait : let s := queued (held3 (.nctrWait 4095 0#64) none) half
    let r := queued (held3 (.nctrWait 4095 1#64) none) half
    let d := queued (held3 (.nctrWait 4095 1#64) (some 0)) half
    (mapFind s.waits 3).map (fun x => (x.kind, x.due, x.w)) = some (.nctrWait 4095 0#64, none, 0) ∧ (0#64 : Dword).toNat ≤ (s.counter 1 4095).toNat ∧ (0 - 0) % 32 = 0 ∧
    ¬((1#64 : Dword).toNat ≤ (r.counter 1 4095).toNat) ∧ (mapFind d.waits 3).map (fun x => x.due) = some (some (d.cycOf 1 0)) ∧ (d.groupAt 0).isEnded = false := by decide +kernel

/-- A network operation of owner 1, as operation 3. -/
def flownNet (post : Bool) (op : Nat) (data : List Byte) : NetOp :=
  { owner := 1, launch := 0, gid := 0, island := 0, pc := 0x1000, va := 0x10000, post := post, detlvl := 0, stage := .fired, data := data
    what := { op := op, peer := 0xFFFF, local_ := 0x10000, remote := 0x10000, length := 32, lctr := some 4095 } }

theorem witness_NetworkOperations_completes : let s (e : NetOp) : State := { stocked half with nets := [(3, e)] }
    (∀ e ∈ [flownNet false 0 [], flownNet true 3 [], flownNet false 1 (List.replicate 32 5)], mapFind (s e).nets 3 = some e ∧ e.stage = .fired ∧
      ((s e).groupAt e.gid).isEnded = false ∧ mapFind ((s e).groupAt e.gid).pend 6 = none) ∧
    (flownNet false 1 (List.replicate 32 5)).data.length = 32 ∧ ({ flownNet false 1 [] with dest := [0x40000] }).dest = [0x40000] ∧ ({ flownNet false 1 [] with bad := some (1, 32) }).bad = some (1, 32) := by decide +kernel
theorem witness_NetworkOperations_arms : let op : MemOp := { dispatching with accs := [{ thread := 0, va := 0x10000, place := .mem 0x40000, size := 64, data := List.replicate 64 0, hor := 0, sent := some 0 }] }
    let s : State := { stocked half with nets := [(3, { flownNet true 0 [] with stage := .reading })], ops := [(3, op)] }
    mapFind s.ops 3 = some op ∧ op.accs.all (fun a => !a.done && a.sent.isSome && decide (a.vis ≤ s.cycOf 1 0) && (s.faultAt a.place a.size).isNone) = true ∧
    recordFault (List.replicate 64 0) (s.members 1) 0 ≠ none ∧
    recordFault (leBytes 2 0 ++ leBytes 2 0xFFFF ++ List.replicate 28 0 ++ leBytes 8 32 ++ List.replicate 24 0) (s.members 1) 0 = none := by decide +kernel
theorem witness_NetworkOperations_arrives : let s := stocked half
    let m : NetMsg := ⟨1, 0, 3, 0, 0, 0x10000, List.replicate 32 5, 32, 0, 0, none, 0, 32, true, true⟩
    s.ownEntry m = none ∧ (s.netWrite none m.owner m.remote m.data).1 = none ∧ (s.netWrite none m.owner 0x20000 m.data).1.isSome = true ∧
    (s.netRead none 1 0x10000 32).1.2 = none ∧ (s.netRead none 1 0x20000 32).1.2.isSome = true ∧
    (s.netElement none 1 0x10000 (.atom (netAtom 0)) (netAtom 0) (List.replicate 8 1)).isOk = true ∧ (s.netElement none 1 0x20000 (.atom (netAtom 0)) (netAtom 0) (List.replicate 8 1)).isOk = false ∧
    (s.netCombine none 1 0x10000 (netReduce 0) (List.replicate 4 1)).1 = none ∧ (s.counter 1 7).toNat < 1 ∧
    ((marked.netSector 1 0x10000 32 wantStore).map (fun x => (x.pa, decide (x.next = x.entry)))).toOption = some (0x40000, true) := by decide +kernel
theorem witness_NetworkOperations_own : let s : State := { stocked half with nets := [(3, flownNet false 1 [])] }
    let m : NetMsg := ⟨1, s.rank, 3, 1, 0, 0x10000, [], 32, 0, 0, none, 0, 32, true, true⟩
    s.ownEntry m = some (3, flownNet false 1 []) ∧ (flownNet false 1 []).detlvl = 0 ∧ (flownNet false 1 []).lim = none ∧ m.source = s.rank := by decide +kernel

theorem witness_NetworkOperations_served : let s : State := { stocked half with inDomain := true, tables := [(tableKey .link 8 5, 1)] }
    let m : NetMsg := { owner := 1, source := 0, entry := 3, op := 0, fn := 0, remote := 0x10000, data := List.replicate 32 5, len := 32, order := 0, level := 0, rctr := some 7, total := 32 }
    let e : NetOp := { flownNet false 1 [] with what := { (flownNet false 1 []).what with peer := 1 } }
    let own (op : Nat) : State := { s with nets := [(3, if op = 0 then flownNet false 1 [] else e)] }
    m.served = false ∧ s.inDomain = true ∧ (stocked half).inDomain = false ∧ s.tableOwner .link (8 + (0 + 0 + s.rank) % 18) (5 % 32) = 1 ∧ s.tableOwner .link 8 4 = 62 ∧
    s.cycOf 1 (islandOf (s.phys 1 (s.lowCore 1))) = 0 ∧ s.ownEntry { m with op := 1, served := true } = none ∧ s.chunks = [] ∧
    (s.netSector 1 0x10000 32 wantStore).isOk = true ∧ (s.netSector 1 0x20000 32 wantStore).isOk = false ∧ (own 0).netHere (flownNet false 1 []).what = true ∧ (own 1).netHere e.what = false ∧
    mapFind (own 1).nets 3 = some e ∧ e.stage = .fired ∧ e.lim = none := by decide +kernel
/-- The only workgroup of a launch with a queue, all placed. -/
def treeing (more : FMap Workgroup) (ws : FMap WaitOp) : State :=
  { State.reset with
    launches := [(0, { levels := [⟨32, 0, 0⟩, ⟨1, 1, 1⟩], queues := [(2, 16)], groups := 1, placed := 1, stage := .running })]
    wgs := (0, { live := true, groups := [0] }) :: more, groups := [(0, { live := true, pc := 0x1000 }), (1, { live := true, index := 1, wg := 1 })], waits := ws, nextId := 4 }

theorem witness_ReductionTree : let s := treeing [] []
    s.grp.index = 0 ∧ (s.launchAt s.grp.launch).queues ≠ [] ∧ s.treeMembers 0 = [(s.cur, (s.wgAt s.grp.wg).index, s.grp.core)] ∧ (s.launchAt 0).allPlaced = true ∧
    (∀ p ∈ s.waits, p.2.gid ≠ s.cur) ∧ mapFind s.grp.pend causeArithmetic = none ∧ (s.wgAt s.grp.wg).guard = none ∧ s.coveredIds s.cur s.grp.running = [] ∧
    (alone half).launchAt 0 = {} ∧ ({ s with cur := 1 } : State).grp.index ≠ 0 := by decide +kernel
theorem witness_ReductionTree_waits : let s := treeing [(1, { live := true, index := 1, groups := [1] })] []
    (∃ m ∈ s.treeMembers 0, m.1 ≠ s.cur ∧ s.treeWait m.1 s.grp.treeN = none) ∧
    (∀ m ∈ s.treeMembers 0, m.1 = s.cur ∨ (s.wgAt (s.groupAt m.1).wg).ended = false ∨ s.grp.treeN < (s.groupAt m.1).treeN) := by decide +kernel
theorem witness_ReductionTree_completes : let s := treeing [] [(3, { gid := 0, owner := 0, island := 0, pc := 0, w := 0, kind := .tree 0 false 8#6 2 .addI32 [5#32, 6#32] 0#4, due := some 0 })]
    let r := treeing [] [(3, { gid := 0, owner := 0, island := 0, pc := 0, w := 0, kind := .tree 0 true 0#6 0 .addI32 [] 0#4, due := some 0 })]
    (mapFind s.waits 3).map (fun x => x.due) = some (some (s.cycOf 0 0)) ∧ (s.groupAt 0).isEnded = false ∧ [5#32, 6#32].length ≤ 8 ∧
    (mapFind r.waits 3).map (fun x => x.due) = some (some (r.cycOf 0 0)) := by decide +kernel
/-- Two participants, of which the second waits at its tree instruction, an addition of so many elements. -/
def twoAt (count : Nat) : State := treeing [(1, { live := true, index := 1, groups := [1] })]
  [(3, { gid := 1, owner := 0, island := 0, pc := 0, w := 5, kind := .tree 0 false 40#6 count .addI32 [5#32, 6#32] 0#4 })]

theorem witness_ReductionTree_combines : let s := twoAt 2
    s.grp.guardQ always = true ∧ (s.launchAt 0).queues ≠ [] ∧ s.grp.index = 0 ∧ (s.launchAt 0).allPlaced = true ∧ (s.cur, (s.wgAt s.grp.wg).index, s.grp.core) ∈ s.treeMembers 0 ∧
    ((s.treeMembers 0).map (fun m => m.1)).Nodup ∧ (s.waits.map (fun p => p.1)).Nodup ∧ (∀ p ∈ s.waits, p.2.gid ≠ s.cur ∧ p.1 < s.nextId) ∧ (s.wgAt (s.groupAt 1).wg).ended = false ∧
    (s.treeWait 1 0).map (fun p => (p.1, p.2.kind, p.2.hold)) = some (3, .tree 0 false 40#6 2 .addI32 [5#32, 6#32] 0#4, []) ∧
    ((twoAt 1).treeWait 1 0).map (fun p => p.2.kind) = some (.tree 0 false 40#6 1 .addI32 [5#32, 6#32] 0#4) := by decide +kernel
/-- The sum of the two, as the last of them comes. -/
theorem test_tree_adds : shows (exec (.treeRed always 8#6 0#6 1#3 .addI32) (twoAt 2)) (fun t => (t.waits.map (fun p => (p.1, p.2.kind, p.2.due))) ==
    [(3, .tree 0 false 40#6 2 .addI32 [5#32, 6#32] 0#4, some 261), (4, .tree 0 false 8#6 2 .addI32 [5#32, 6#32] 0#4, some 256)]) = true := by decide +kernel

/-! Launch control and power -/

/-- Owner 1 with a quota on island 0 and a sprint lease as given; a lease request waits as record 3. -/
def sprinting (y : Sprint) (q : Quota) (n : Dword) : State :=
  let s := queued (held3 (.lease 4#6 6#6 2 1 n) none) half
  { s with owners := [(1, { s.ownerAt 1 with quotas := [(0, q)], sprints := [(0, y)] })] }

theorem witness_HaltAndLeases : let s := sprinting { live := true, level := 2, endAt := 0 } { joules := 5, charging := 1 } 1#64
    s.grp.guardQ always = true ∧ (s.launchAt 0).halted = none ∧ (s.sprintAt 1 0).live = true ∧ (sprinting {} {} 1#64).sprintAt 1 0 = {} ∧
    (0, s.groupAt 0) ∈ s.groups ∧ (s.groupAt 0).launch = 0 ∧ (s.groupAt 0).live = true ∧ mapFind s.swapped 0 = none ∧ s.meltsNow 1 0 = false ∧
    s.cycOf 1 0 = (s.sprintAt 1 0).endAt ∧ (s.groupAt (s.sprintAt 1 0).gid).isEnded = false ∧ mapFind (s.groupAt 0).pend 7 = none ∧
    ((sprinting { live := true } { joules := 5 } 1#64).quotaAt 1 0).charging = 0 := by decide +kernel
theorem witness_HaltAndLeases_decides : let s := sprinting {} { joules := 5 } 1#64
    (mapFind s.waits 3).map (fun x => x.kind) = some (.lease 4#6 6#6 2 1 1#64) ∧ (s.groupAt 0).isEnded = false ∧
    s.holder 1 0 = true ∧ (s.sprintAt 1 0).live = false ∧ (1#64 : Dword).toNat ≠ 0 ∧ (1#64 : Dword).toNat < 2 ^ 40 ∧ (s.quotaAt 1 0).full = false ∧
    (s.sprintAt 1 0).waitFall = false ∧ (s.sprintAt 1 0).fell = none ∧ (s.islandAt 0).emergEnd = none ∧
    ((sprinting { fell := some 0 } {} 1#64).sprintAt 1 0).fell = some 0 ∧ s.now < 0 + 900000000 := by decide +kernel

theorem witness_HaltAndLeases_others : let s := sprinting { live := true, level := 1, endAt := 5 } { joules := 1, charging := 1, melted := 9998000 } 0#64
    let t : State := { s with groups := [(0, { s.grp with away := true })], islands := [(0, { clock := 2, emergEnd := some 0 })], owners := [(1, { s.ownerAt 1 with sprints := [] })] }
    (t.groupAt 0).away = true ∧ (s.groupAt 0).away = false ∧ s.cycOf 1 0 ≠ (s.sprintAt 1 0).endAt ∧ (t.islandAt 0).clock ≠ 0 ∧ (t.islandAt 0).emergEnd = some 0 ∧ t.now < 18000000000 ∧
    (2 ^ 40 : Nat) ≤ (0x10000000000#64 : Dword).toNat ∧ mapFind ({ s.ownerAt 1 with quotas := [] } : Owner).quotas 0 = none ∧ s.holder 2 0 = false ∧
    ({ s with agenda := [⟨.wall, 0, .meltUpdate⟩] } : State).meltsNow 1 0 = true := by decide +kernel

/-- Owner 1 with a fault of Hayloft's, the card or the rota to answer for: quotas on island 0, sensors, canaries, a hot stack. -/
def powered (ow : Owner) : State := { stocked half with owners := [(1, ow)] }

theorem witness_PowerEvents : let w : Owner := { (stocked half).ownerAt 1 with quotas := [(0, { joules := 5, charging := 2 })] }
    let s := powered w
    (s.owners.map (fun p => p.1)).Nodup ∧ (∀ p ∈ s.owners, (p.2.quotas.map (fun y => y.1)).Nodup) ∧ mapFind s.owners 1 = some w ∧ w.live = true ∧
    mapFind w.quotas 0 = some { joules := 5, charging := 2 } ∧ HoldCause.stack 0 ∉ w.held ∧ HoldCause.stack 0 ∈ ({ w with held := [.stack 0] } : Owner).held ∧
    ({} : Owner).live = false ∧ s.inStack 1 0 = true ∧ s.inStack 1 15 = false ∧ s.siloResident 1 = false ∧ (s.islandAt 0).clock = 0 ∧ (0 : Nat) < 32 := by decide +kernel
theorem witness_PowerEvents_canaries : let s : State := { powered ((stocked half).ownerAt 1) with islands := [(0, { canary := 3, canaryGoal := 3 }), (1, { canary := 4, canaryAt := 5 })], now := 18000000000 }
    (s.islandAt 0).canary ≠ 4 ∧ (s.islandAt 1).canary = 4 ∧ s.onIsland 1 0 = true ∧ (s.islandAt 0).canaryAt + 18000000000 ≤ s.now ∧ (s.islandAt 0).canaryGoal ≠ 0 ∧
    s.now < (s.islandAt 1).canaryAt + 18000000000 ∧ (s.islandAt 1).canaryGoal = 0 := by decide +kernel
theorem witness_PowerEvents_sensors : let s := powered ((stocked half).ownerAt 1)
    s.worksOn 1 0 = true ∧ s.now % 180000 = 0 ∧ 95 < 96 ∧ ([(0, 96)] : List (Nat × Nat)) = [] ++ (0, 96) :: [] ∧ islandOf 0 = 0 ∧ s.onIsland 1 0 = true := by decide +kernel
theorem witness_PowerEvents_retires : let w := (stocked half).ownerAt 1
    let r : PartRec := { loadedPart with gift := true }
    let s : State := { powered { w with part := some r } with groups := [] }
    s.part 1 = some r ∧ (s.ownerAt 1).live = true ∧ r.kind = .isolated ∧ (s.ownerAt 1).isRetired 0 = false ∧ s.laneEmpty 1 0 0 = true ∧
    (mapGet (0, 0) (s.ownerAt 1).lanes 0).1.testBit 0 = true ∧ loadedPart.gift = false := by decide +kernel

theorem witness_PowerEvents_rails : let w : Owner := { (stocked half).ownerAt 1 with sprints := [(0, { live := true, level := 2, stepAt := some 0 })] }
    let s : State := { powered w with islands := [(0, { rail := 2, canaryHold := true, canaryGoal := 4 })] }
    1 ∈ s.liveOwners ∧ (s.sprintAt 1 0).stepAt = some 0 ∧ s.vote 1 0 = 2 ∧ s.topVote 0 = 2 ∧ s.vote 1 1 = 0 ∧ (s.islandAt 0).canaryHold = true ∧ (s.islandAt 0).canaryGoal ≠ 0 ∧
    0 ∈ ({ w with used := [0] } : Owner).used ∧ 0 ∉ w.used := by decide +kernel

/-- Owner 1 with queue 0 enabled over 16 slots, a command at its head, and an event ring of 16; a launch as given. -/
def commanded (c : List Byte) (ls : FMap Launch) : State :=
  let s := stocked half
  { s with
    owners := [(1, { s.ownerAt 1 with
      lqGranted := true, evCtl := 0x14, evBase := 0x9000, lq := [(0, { base := 0x1000, ctl := 0x4001, tail := 1 })], qdecl := [(2, ⟨16, false, 0⟩), (3, ⟨16, true, 0⟩)]
      rings := [(2, List.replicate 16 ⟨[], 0, none⟩)] })]
    hostMem := putBytes [] 0x1000 c, launches := ls, nextId := 8 }

theorem witness_LaunchEvents_commands : let s (c : List Byte) := commanded c []
    (commanded [] []).hasCommand 1 0 = true ∧ (commanded [] []).hasCommand 1 1 = false ∧
    (∀ c ∈ [[1#8], [2, 0, 0, 0, 0, 0, 0, 0, 2], [3, 0, 0, 0, 0, 0, 0, 0, 63], [4], [5], [6]], ((s c).command 1 0).map (fun b => (num b 0 1, b.length)) = some ((c.headD 0).toNat, 64)) ∧
    ((s [3, 0, 0, 0, 0, 0, 0, 0, 63]).command 1 0).map (fun b => (num b 8 1, (b.drop 9).take 55)) = some (63, List.replicate 55 0#8) ∧
    ((s [1, 9]).command 1 0).map (fun b => (b.drop 1).take 1) = some [9] ∧ (((commanded [] []).ownerAt 1).lqAt 0).sess = false ∧
    (((commanded [] []).ownerAt 1).ring 2).length = 16 ∧ (((commanded [] []).ownerAt 1).ring 3).length < 16 := by decide +kernel

/-- An image at 0x20000 of host memory with one kernel whose record declares a workgroup of one group and nothing else, and the command that launches it. -/
def image : List (Nat × List Byte) :=
  [(0, leBytes 4 0x59565257 ++ [1, 0, 2]), (32, leBytes 8 0x200 ++ leBytes 4 1 ++ leBytes 4 24), (64, leBytes 8 0x220 ++ leBytes 4 1 ++ leBytes 4 32),
   (80, leBytes 8 0x240 ++ leBytes 4 1 ++ leBytes 4 784), (0x208, leBytes 8 0x10000), (0x240, [1, 0, 2, 0, 255]),
   (0x250, leBytes 4 32), (0x258, leBytes 4 1 ++ [1, 1])]

def launching : State :=
  let s := commanded ([1, 0, 0, 0, 7, 0, 0, 0] ++ leBytes 8 0x20000 ++ leBytes 8 0x11000 ++ leBytes 4 0 ++ leBytes 4 0xFFFFFFFF) []
  { s with
    owners := [(1, { s.ownerAt 1 with part := some { loadedPart with signed := false } })]
    hostMem := image.foldl (fun m p => putBytes m (0x20000 + p.1) p.2) s.hostMem }

theorem witness_LaunchEvents_launch : (match launching.command 1 0, launching.readImage 1 false 0x20000 with
    | some b, .ok im => decide (num b 0 1 = 1 ∧ num b 24 4 < im.kernels.length ∧ num b 16 8 = 0x11000 ∧ num b 28 4 = 0xFFFFFFFF ∧ allZero ((b.drop 36).take 28) = true) &&
      (match im.launch 1 0 (num b 24 4) 7#32 (num b 16 8) (num b 32 2, num b 34 2) false with
        | some (l, r) => l.fabLevel.isNone && decide (l.children = (0, 0)) && (launching.launchFault l r).isNone && l.leases.all Lease.valid && decide (l.stage = .residing) &&
            decide (l.entry = 0x10000)
        | none => false)
    | _, _ => false) = true ∧ (launching.readImage 1 false 0x1000).toOption = none := by decide +kernel

def anEvent : Event := ⟨2, 1, 5, 7#32, 0#32, 3, [9], false⟩

theorem witness_LaunchEvents_events : let s := commanded [] []
    let w : Owner := { s.ownerAt 1 with events := [{ anEvent with source := 0 }, anEvent] }
    let size := if w.evCtl.getLsbD 4 = true then 2 ^ (w.evCtl.toNat % 16) else 0
    size = 16 ∧ (w.evTail.toNat + 1) % size ≠ w.evHead.toNat ∧ w.events = [{ anEvent with source := 0 }] ++ anEvent :: [] ∧ anEvent.source = 1 ∧ anEvent.secured = false ∧
    (∀ e ∈ w.events, e.source ≠ 2) ∧ (15 + 1) % size = w.evHead.toNat := by decide +kernel

/-- A launch of one group with a lease still to be made Resident, or ready to place. -/
def waitingLaunch (ready : Bool) : Launch :=
  { owner := 1, levels := [⟨32, 0, 0⟩, ⟨1, 1, 1⟩], groups := 1, placed := 0, stage := if ready then .placing else .residing
    leases := if ready then [] else [⟨0x20000, 0x10000, true, true, false, false, true, false⟩] }

theorem witness_LaunchEvents_resides : let s := commanded [] [(0, waitingLaunch false)]
    mapFind s.launches 0 = some (waitingLaunch false) ∧ (waitingLaunch false).stage = .residing ∧ (s.part 1).isSome = true ∧
    (match (waitingLaunch false).leases[0]?, s.part 1 with
      | some le, some r => !le.resident && (s.resideAll r 0 le (le.len / 65536) 0 [16]).isSome && (s.resideAll r 0 le (le.len / 65536) 0 []).isNone
      | _, _ => false) = true ∧ (waitingLaunch false).queues = [] := by decide +kernel
theorem witness_LaunchEvents_places : let s : State := { commanded [] [(4, waitingLaunch true)] with groups := [], wgs := [] }
    let x := waitingLaunch true
    mapFind s.launches 4 = some x ∧ x.stage = .placing ∧ x.confirmed = true ∧ x.halted = none ∧ x.allPlaced = false ∧ s.blocked 4 = false ∧ x.producer = none ∧
    s.placeAt 4 = some (0, 0, [(0, 0)]) ∧ (commanded [] [(4, waitingLaunch true)]).placeAt 4 = none ∧ x.preloads = [] := by decide +kernel
theorem witness_LaunchEvents_releases : let s := commanded [] [(4, { waitingLaunch true with producer := some 3, waits := true }), (3, { waitingLaunch true with stage := .done })]
    (s.launchAt 4).producer = some 3 ∧ s.triggered 3 = true ∧ (s.launchAt 3).stage = .done ∧ (commanded [] [(3, waitingLaunch true)]).triggered 3 = false := by decide +kernel

/-- A page of the launch's lease that is kept in HBM, in a frame with a sector that fails its check, or without. -/
def keptPage (bad : Bool) : State :=
  let s := commanded [] [(0, waitingLaunch false), (4, { waitingLaunch true with producer := some 0, waits := true })]
  { s with
    owners := [(1, { s.ownerAt 1 with kept := [(2, 0x100697)], lq := [(0, { base := 0x1000, ctl := 0x4001, tail := 1, lastLaunch := some 0 })] })]
    faulty := if bad then [(32768, 1)] else [] }

theorem witness_LaunchEvents_waits : let le : Lease := ⟨0x20000, 0x10000, true, true, false, true, false, false⟩
    (keptPage true).stuckAtPort loadedPart le = true ∧ (keptPage false).stuckAtPort loadedPart le = false ∧ (keptPage true).stuckAtPort loadedPart { le with silo := false } = false ∧
    (((keptPage false).ownerAt 1).lqAt (waitingLaunch false).queue).lastLaunch = some 0 ∧ mapFind (keptPage false).launches 4 = some { waitingLaunch true with producer := some 0, waits := true } ∧
    ((keptPage false).before 4 (waitingLaunch true)).getLast?.map (fun z => z.2.detlvl) = some (waitingLaunch true).detlvl ∧ ({ waitingLaunch true with detlvl := 2 } : Launch).detlvl ≠ (waitingLaunch true).detlvl ∧
    (keptPage false).resideAll loadedPart 0 { le with silo := false } 1 0 [] = none := by decide +kernel

/-- A workgroup of one group, that waits at a barrier or has ended. -/
def resting (g : Group) (w : Workgroup) (l : Launch) : State :=
  { commanded [] [(0, l)] with groups := [(0, { g with live := true, owner := 1 })], wgs := [(0, { w with live := true, owner := 1, groups := [0] })] }

theorem witness_LaunchEvents_swaps : let s0 := resting { waitSlot := some 3, outs := [⟨.copies, 5, false⟩] } {} {}
    let s : State := { s0 with owners := [(1, { s0.ownerAt 1 with cyc := [(0, 262144)] })] }
    let c := s.cycOf 1 0
    let r : State := { resting {} {} {} with swapped := [(0, 0)], groups := [(0, { owner := 1, away := true })] }
    (s.wgAt 0).ended = false ∧ mapFind s.swapped 0 = none ∧ s.allWaiting 0 = true ∧ s.enginesOut 0 = true ∧ (∀ j ∈ s.liveOf 0, (s.groupAt j).waitFrom + s.swapT 1 ≤ c) ∧
    s.awake 0 = false ∧ r.awake 0 = true ∧ (r.launchAt 0).halted = none ∧
    r.contextsFor 1 0 true (r.coreLanes 1 0) (r.liveIndices 0) [] = some [(0, 0)] := by decide +kernel
theorem witness_LaunchEvents_commits : let s := resting {} { ended := true } {}
    let e : CommitEntry := ⟨0x40000, [1, 2], none, 0, 3⟩
    let t := resting {} { ended := true, commit := [e] } { detlvl := 2 }
    (s.wgAt 0).ended = true ∧ (s.wgAt 0).committed = false ∧ (s.wgAt 0).live = true ∧ (t.wgAt 0).reserved = 0 ∧ (∀ p ∈ t.ops, ∀ a ∈ p.2.accs, a.buffered = false) ∧ (s.launchAt 0).detlvl = 0 ∧ (s.wgAt 0).done = false ∧
    (t.launchAt 0).detlvl ≠ 0 ∧ t.committedBelow 0 0 = true ∧ (∀ p ∈ t.engs, p.2.wait.any Await.isCommit = false) ∧ (t.wgAt 0).commit = [e] ∧ e.op = none := by decide +kernel
theorem witness_LaunchEvents_completes : let l : Launch := { waitingLaunch true with placed := 1, stage := .running }
    let s := resting {} { ended := true, done := true, committed := true } l
    mapFind s.launches 0 = some l ∧ l.stage ≠ .done ∧ l.stage ≠ .residing ∧ s.launchQuiet 0 = true ∧ l.leases = [] := by decide +kernel

/-! Partitions, contexts, fabric, host port -/

def aSwitch : SwitchSpec := ⟨0, 0, [1], 62, 1, false⟩

theorem witness_PartitionAndContext_switches : let s : State := { stocked half with switches := [(aSwitch, 0)] }
    let b : BorderSpec := ⟨1, 0, 0, [1], true, none, none, []⟩
    let e : State := { s with bordering := [(aSwitch, b)], switches := [(aSwitch, 0), ({ aSwitch with incoming := 2 }, 0)] }
    (aSwitch, 0) ∈ s.switches ∧ (s.ownerAt 1).live = true ∧ s.slotHome 1 0 0 [1] = some 0 ∧ s.logicalOn 1 0 = some 0 ∧ (∀ c ∈ s.switches, c.1 ≠ { aSwitch with lane := 1 }) ∧
    s.borderOf aSwitch = none ∧ e.borderOf aSwitch = some b ∧ (e.part 1).isSome = true ∧ (e.ownerAt 2).live = false ∧ s.borderOk b = false ∧ s.contextTaken 1 0 0 0 = true ∧ s.contextTaken 1 0 0 1 = false ∧
    (s.launchAt 0).halted = none := by decide +kernel

/-- An elastic context below its target, which has two slots of lane 0 in its record and none on the lane. -/
def bordered (ws : FMap Workgroup) : State := { stocked half with
  wgs := ws
  owners := [(32, { live := true, part := some { loadedPart with
    owner := 32, kind := .elastic, target := 1, lanes := (List.range 8).map (fun l => ⟨0, l, if l = 0 then [0, 1] else [], if l = 0 then 1 else 0⟩), quotas := [(0, 1)] } })] }

theorem witness_PartitionAndContext_border : let b : BorderSpec := ⟨32, 0, 0, [1], true, none, none, []⟩
    let s := bordered []
    s.borderOk b = true ∧ s.borderReady b = true ∧ s.atWork 32 = false ∧ s.slotOwner 0 0 1 = 62 ∧ (bordered [(0, { live := true, owner := 32 })]).atWork 32 = true ∧
    (bordered [(0, { live := true, owner := 32 })]).borderOk b = true ∧ ({ s with rota := [(rotaKey 0 0 1, 32)] } : State).borderReady b = false := by decide +kernel
theorem witness_PartitionAndContext_moves : let s := stocked half
    (1, 0, 1) ∉ s.moves ∧ s.targetFor 1 0 = some 1 ∧ s.targetFor 1 0 ≠ some 2 := by decide +kernel
theorem witness_PartitionAndContext_transfers : let x : Transfer := ⟨1, 0, 0, 1, 0⟩
    let y : Transfer := ⟨1, 0, 0, 0, 0⟩
    let s : State := { stocked half with transfers := [x], rota := [(rotaKey 0 0 0, 1)] }
    s.transfers.find? (fun z => decide (z.owner = 1) && decide (z.src = 0) && decide (z.dst = 1)) = some x ∧ (s.shareOf 1 x.core).isSome = true ∧ (0 : Nat) ≠ 1 ∧
    (∀ p ∈ s.engs, p.2.owner ≠ 1) ∧ s.slotOwner 0 0 0 = 1 ∧ (∀ z ∈ s.transfers, z.owner = 1 → z.src = 0 → z = x) ∧ (∀ x ∈ s.transfers, ¬(x.owner = 2 ∧ x.src = 0 ∧ x.dst = 1)) ∧
    [x, y].find? (fun z => decide (z.owner = 1) && decide (z.src = 0) && decide (z.dst = 0)) = some y := by decide +kernel
theorem witness_PartitionAndContext_creates : let s : State := { State.reset with powered := true }
    s.powered = true ∧ (s.ownerAt 1).live = false ∧ loadedPart.kind ≠ .sys ∧ recWellFormed loadedPart = true ∧ s.fits loadedPart = true ∧
    recWellFormed { loadedPart with owner := 32 } = false ∧ (stocked half).fits loadedPart = false := by decide +kernel
theorem witness_PartitionAndContext_destroys : let s := stocked half
    (1 : Nat) < 48 ∧ (s.ownerAt 1).live = true ∧ (s.part 1).isSome = true ∧ (48 : Nat) ≤ 48 ∧ (s.ownerAt 47).live = false := by decide +kernel

/-- SYS and its handler's group, which waits for a context operation on group or workgroup 1, both of owner 1, within the switch of its lane. -/
def context (n : Nat) (st : Word) : State :=
  let s := ((loadedTables 63).foldl (fun s p => s.putMem p.1 (leBytes 8 p.2)) (stocked half)).putMem 0x30008 (leBytes 8 (0x29F + 63 * 0x400 + 0x40000))
  let s := [2, 3, 4].foldl (fun s k => s.putMem (0x30000 + 8 * k) (leBytes 8 (0x29F + 63 * 0x400 + 0x100000 * k))) s
  { s with
    owners := s.owners ++ [(63, { live := true, part := some { loadedPart with owner := 63, kind := .sys } })]
    groups := [(0, { live := true, owner := 63 }), (1, { live := true, owner := 1, pc := 0x1000, wg := 1 })], wgs := [(0, {}), (1, { live := true, owner := 1, groups := [1] })]
    waits := [(3, { gid := 0, owner := 63, island := 0, pc := 0, w := 0, kind := .ctx n 4#6 1#64 0x10000#64 st [], target := some 1 })], switches := [(⟨0, 0, [1], 1, 62, false⟩, 0)]
    launches := [(0, { loadedLaunch with owner := 63, leases := [{ base := 0x10000, len := 0x40000, r := true, w := true, x := false, silo := false, vault := true, resident := true }] })] }

/-- The page of the image stands in the TLB, so that no piece needs a walk. -/
theorem witness_PartitionAndContext_operates : let s : State := { context 0 0#32 with tlb := [⟨63, 0, 0x10000, 16, 0x2FF + 63 * 0x400 + 0x40000, 0x30008⟩] }
    s.ctxInTime 0 (ctxDesc 1#64) = true ∧ (0x10004#64 : Dword).toNat % 64 ≠ 0 ∧ s.hasCore 1 0 = true ∧ s.hasCore 1 1 = false ∧ s.ctxInTime 2 (ctxDesc 1#64) = false ∧
    (mapFind s.waits 3).map (fun x => (x.kind, x.target)) = some (.ctx 0 4#6 1#64 0x10000#64 0#32 [], some 1) ∧ (s.groupAt 0).isEnded = false ∧ (ctxDesc 1#64).owner = 1 ∧
    (s.ctxLeaves (s.groupAt 0) 0x10000 10240 wantStore).isSome = true ∧ (1#32 : Word) ≠ 0#32 ∧ (s.launchAt (s.groupAt 1).launch).halted = none ∧
    s.ctxTarget 2 (ctxDesc 1#64) [] = some 1 ∧ s.ctxTarget 3 (ctxDesc 1#64) [] = some 1 := by decide +kernel
/-- The first and the last 64 bytes of a workgroup's image, and those at the ends of its pages, have leaves; those between lie in the same pages. -/
theorem witness_PartitionAndContext_operates_wide : let s := context 2 0#32
    ([0x10000, 0x1FFC0, 0x20000, 0x2FFC0, 0x30000, 0x3FFC0, 0x40000, 0x44A00].all (fun a => match s.translate (some 0) (s.partLeases 63) 63 a 64 wantStore with
      | .ok _ => true
      | .error _ => false)) = true ∧ (s.wgAt 1).groups = [1] ∧ ((s.drainGroup 1).groupAt 0).isEnded = false := by decide +kernel
def aPacket : Packet := { id := 2, owner := 1, router := 0, queue := 3, num := 0, dst := 0, port := 4, prio := 1 }

/-- Owner 1 has the packets given on its mesh. -/
def meshed (ps : FMap Packet) (f : Fabric) : State := { stocked half with fabric := { f with packets := ps } }

/-- A packet that goes east, where it enters the next router's queue as 8203. -/
def eastward : Packet := { aPacket with dst := 1, port := 1 }

theorem witness_FabricEvents_ports :
    let key := ((0 * 8 + 1) * 2 + 0) * 64 + 1
    let s : State := { meshed [(8195, eastward)] {} with tables := [(tableKey .link 0 3, 1)] }
    let h := meshed [(8195, { eastward with flits := 2 })] { hold := [(key, (8195, 3))] }
    let full := meshed [(8195, eastward), (9, { aPacket with router := 1, flits := 2 })] {}
    s.meshOwner 0 1 3 = 1 ∧ s.meshSlot 0 1 false 3 = 1 ∧ s.heldOn 1 (islandOf 0) = false ∧ (meshed [] {}).meshOwner 0 1 3 = 62 ∧ mapFind s.fabric.hold key = none ∧
    s.requests 1 0 0 false = [] ∧ s.requests 1 0 1 false = [(8195, eastward)] ∧ s.requests 1 0 1 true = [] ∧ mapSorted s.fabric.packets = true ∧ neighbour 0 1 = some 1 ∧
    0 < s.freeBufs 1 1 3 false ∧ full.freeBufs 1 1 3 false = 0 ∧ full.requests 1 0 1 false = [] ∧ mapFind h.fabric.hold key = some (8195, 3) ∧ 4 ≤ 3 + 1 ∧ 2 * 4096 + 1 * 8 + 3 = 8203 ∧
    mapFind s.fabric.packets 8203 = none ∧ mapFind (meshed [(8203, { eastward with router := 1, flits := 1, more := 1 })] {}).fabric.packets 8203 ≠ none := by decide +kernel
theorem witness_FabricEvents_leaves : let x : Packet := { aPacket with router := 39, dst := 167, id := 3 }
    (meshed [(6, aPacket)] {}).requests 1 0 4 false = [(6, aPacket)] ∧ neighbour 0 4 = none ∧ adapterDie 0 4 = none ∧ aPacket.flits + aPacket.more = 1 ∧ aPacket.answer = 0 ∧
    (meshed [(6, x)] {}).requests 1 39 7 false = [(6, x)] ∧ neighbour 39 7 = none ∧ adapterDie 39 7 = some 1 := by decide +kernel
theorem witness_FabricEvents_ring : let s : State := { meshed [] {} with tables := [(tableKey .link 26 3, 1)] }
    s.tableOwner .link 26 3 = 1 ∧ s.heldOn 1 (islandOf 0) = false ∧ (s.ownerAt 1).live = true ∧ s.fabric.token 1 = 0 ∧ s.fabric.token 1 ≠ 1 ∧ mapFind s.fabric.captured 1 = none ∧
    s.fabric.suspects 1 0 = [] := by decide +kernel
theorem witness_FabricEvents_arbitrates : arbitrate 0 [(5, aPacket), (6, { aPacket with prio := 2 })] = some ((6, { aPacket with prio := 2 }), 0) ∧
    arbitrate 0 [(5, { aPacket with age := 256 }), (6, { aPacket with prio := 2 })] = some ((5, { aPacket with age := 256 }), 0) ∧
    (meshed [] {}).candidate eastward = some 1 ∧ eastward.router ≠ eastward.dst ∧ dieOf 0 = dieOf 127 ∧ productive 0 127 = [1, 2] := by decide +kernel
theorem witness_FabricEvents_misroutes : let x : Packet := { aPacket with wait := 64, misroutes := 7 }
    let s := meshed [(5, x)] {}
    (s.fabric.inQueue 1 0 3 false).head? = some (5, x) ∧ neighbour 0 1 = some 1 ∧ 0 < s.freeBufs 1 1 ((1 + 2) % 4) false ∧ s.fabric.passing 5 = false ∧ s.heldOn 1 (islandOf 0) = false ∧ 64 ≤ x.wait ∧ x.misroutes < 8 := by decide +kernel
theorem witness_FabricEvents_bellwether : let x : Packet := { aPacket with stuck := 1024, outer := true, more := 1 }
    let y : Packet := { aPacket with router := 8, dst := 8, port := 6, answer := 5, lane := true }
    let s := meshed [(5, x)] {}
    let c := meshed [(5, { aPacket with lane := true })] { captured := [(1, 5)] }
    let d := meshed [(5, y)] { captured := [(1, 5)] }
    s.fabric.suspects 1 0 = [(5, x)] ∧ s.fabric.token 1 = 0 ∧ mapSorted s.fabric.packets = true ∧ mapFind s.fabric.captured 1 = none ∧ s.fabric.suspects 1 1 = [] ∧ mapFind c.fabric.captured 1 = some 5 ∧
    mapFind c.fabric.packets 5 = some { aPacket with lane := true } ∧ aPacket.router = aPacket.dst ∧ c.portOff 0 4 = false ∧ aPacket.answer = 0 ∧ aPacket.more = 0 ∧ aPacket.sent = 0 ∧
    mapFind d.fabric.packets 5 = some y ∧ d.portOff 8 6 = false ∧ y.answer ≠ 0 ∧ d.heldOn 1 (islandOf 8) = false := by decide +kernel

def aFlit (n : BitVec 16) : Flit := ⟨1, n, true, [], 3⟩

/-- A mesh flit of owner 1 on its way from router 39 to the die beside. -/
def aMeshFlit : MeshFlit := { packet := 9, dst := 128, port := 4, prio := 1, age := 3, last := true, owner := 1, leaves := 39, exit := 7 }

theorem witness_FabricEvents_links : let w : LinkWay := { replay := [aFlit 6, aFlit 7], expect := 7, replays := 8 }
    let s : State := { meshed [] { ways := [(0, w)] } with tables := [(tableKey .link 4 3, 1)] }
    s.wayAt 0 = w ∧ (aFlit 7).seq = w.expect ∧ (aFlit 6).seq ≠ w.expect ∧ (aFlit 7).crcOk = true ∧ w.replay = [aFlit 6] ++ aFlit 7 :: [] ∧ (aFlit 7).seq = BitVec.ofNat 16 7 ∧
    (∀ z ∈ [aFlit 6], z.seq ≠ BitVec.ofNat 16 7) ∧ w.replay = [] ++ aFlit 6 :: [aFlit 7] ∧ 8 ≤ w.replays ∧ (∀ y ∈ w.replay, y.seq ≠ BitVec.ofNat 16 8) ∧ (s.linkAt 0).state = .up ∧
    (aFlit 7).cargo = [] ∧ s.slotReplays 0 3 1 = true ∧ s.slotReplays 0 4 1 = false := by decide +kernel
theorem witness_FabricEvents_packs : let v : State := { meshed [] { ways := [(0, { next := 8, expect := 8, waiting := [(39 * 8 + 7, [aMeshFlit])] })] } with tables := [(tableKey .link 4 3, 1), (tableKey .link 8 3, 1)] }
    let f : Flit := { aFlit 8 with cargo := [aMeshFlit] }
    v.slotCarries 0 3 1 = true ∧ v.slotCarries 0 4 1 = false ∧ f.seq = (v.wayAt 0).next ∧ f.seq = (v.wayAt 0).expect ∧ (∀ y ∈ (v.wayAt 0).replay, y.seq ≠ 8) ∧ mapSorted v.fabric.packets = true ∧
    f.cargo = ((mapGet [] (v.wayAt 0).waiting (39 * 8 + 7)).filter (fun m => decide (m.owner = f.owner))).take 2 ∧ mapGet [] (v.wayAt 0).partial_ (9 * 64 + 1) = [] ∧ (v.ownerAt 1).live = true ∧
    aMeshFlit.dst < 512 ∧ ejects aMeshFlit.dst aMeshFlit.port = true ∧ (farSide aMeshFlit.leaves aMeshFlit.exit).isSome = true ∧ v.slotCarries (9 / 2) 3 1 = true ∧
    ¬(9 < 8 ∨ 9 % 2 = 0) ∧ v.inDomain = false ∧ ({ v with inDomain := true } : State).inDomain = true := by decide +kernel
theorem witness_FabricEvents_retrains : let s0 := meshed [] {
      ways := [(0, { replay := [aFlit 6] })]
      links := [(0, { state := .retraining, lost := 1, lanes := 4 }), (1, { state := .retraining, lanes := 8, lost := 1 }), (2, { state := .retraining, tries := 99 }), (3, { state := .retraining, lost := 1, spares := 1, lanes := 8 })] }
    let s : State := { s0 with tables := [(tableKey .link 4 3, 1)] }
    1 ∈ s.linkOwners 0 ∧ s.isolated 1 = true ∧ s.onLink 0 1 = true ∧ (s.linkAt 0).spares < (s.linkAt 0).lost ∧ s.replayed 0 = false ∧ (s.linkAt 1).state = .retraining ∧ s.linkOwners 1 = [] ∧
    s.replayed 1 = true ∧ (s.linkAt 1).spares < (s.linkAt 1).lost ∧ (s.linkAt 1).lost < (s.linkAt 1).spares + (s.linkAt 1).lanes ∧ 99 ≤ (s.linkAt 2).tries ∧ (s.linkAt 1).tries < 99 ∧
    s.replayed 3 = true ∧ (s.linkAt 3).lost ≤ (s.linkAt 3).spares ∧ (s.linkAt 3).lost < (s.linkAt 3).spares + (s.linkAt 3).lanes ∧ (s.linkAt 4).state = .up ∧ s.inDomain = false ∧
    ((meshed [] {}).linkAt 0).spares = 2 ∧ ({ s with tables := [(tableKey .link 5 3, 62)] } : State).linkTable 1 62 ≠ [] := by decide +kernel
theorem witness_FabricEvents_columns : let s : State := { stocked half with owners := [(1, { live := true, part := some loadedPart })], columnsOff := [(15, 0), (15, 1), (15, 2)] }
    (15, 7) ∉ s.columnsOff ∧ s.columnsOff.countP (fun x => decide (x.1 = 15)) < 4 ∧ 1 ∈ s.liveOwners ∧ mapGet 0 loadedPart.l2Ways (8 * 15 + 7) = 0 ∧
    mapGet 0 { loadedPart with l2Ways := [(0, 3)] }.l2Ways (8 * 0 + 0) ≠ 0 := by decide +kernel

theorem witness_HostPortAndAttestation : let s := commanded [] []
    (s.ownerAt 1).live = true ∧ (s.ownerAt 1).lqGranted = true ∧ ((s.ownerAt 1).lqAt 0).en = true ∧ ((s.ownerAt 1).lqAt 7).en = false ∧ (s.ownerAt 1).events = [] ∧
    (s.ownerAt 2).lqGranted = false ∧ (s.ownerAt 63).live = false ∧ (0x59680000 - 1) % 0x80000000 < 0x59680000 ∧ ¬(0x59680000 % 0x80000000 < 0x59680000) ∧
    s.byteOwner 0x1000000 = some 1 ∧ s.isolated 1 = true ∧ s.byteOwner 0x80000000 = none ∧ s.sectorFault 0 = none ∧
    ({ s with faulty := [(0x4000000, 1)] } : State).sectorFault (0x80000000 / 32) ≠ none := by decide +kernel
theorem witness_HostPortAndAttestation_port : let s : State := { stocked half with owners := [(63, { live := true, lqGranted := true })] }
    (s.ownerAt 63).live = true ∧ (s.ownerAt 63).lqGranted = true := by decide
theorem witness_HostPortAndAttestation_spdm : let s : State := { stocked half with
      spdm := { on := true, negotiated := true, measurements := [(0, 5#256), (2, 6#256)], sessions := [(4, ⟨true, some 1, 0⟩), (5, ⟨false, none, 0⟩)] } }
    s.spdm.on = true ∧ State.reset.spdm.on = false ∧ mapFind s.spdm.measurements 0 = some 5#256 ∧ mapFind s.spdm.measurements 0xFE = none ∧ (0 : Nat) ≠ 0xFF ∧
    mapFind s.spdm.sessions 4 = some ⟨true, some 1, 0⟩ ∧ mapFind s.spdm.sessions 6 = none ∧ s.spdm.negotiated = true ∧ 1 < 48 ∧ (s.ownerAt 1).live = true ∧
    (s.ownerAt 2).live = false := by decide +kernel

theorem witness_HostPortAndAttestation_reads : let s : State := { stocked half with
      owners := [(1, { live := true, part := some loadedPart }), (63, { live := true, lqGranted := true, part := some { loadedPart with owner := 63, kind := .sys } })]
      spdm := { on := true, sessions := [(4, ⟨true, some 1, 0⟩)] }, box := [⟨0, 1, 1, 0, [1]⟩, ⟨0, 1, 32, 0, [2]⟩] }
    s.hostByte 0x5967FFFF = some 0x5967FFFF ∧ s.hostByte 0x59680000 = none ∧ s.hostByte (0x2000000000000 + 2048000000000) = none ∧ s.hostByte 0x1000000000000 = some 0x1000000 ∧
    s.hostByte 0x1000001000000 = none ∧ inStripes loadedPart 0x1000000FFFFFF 1 = true ∧ (s.box[0]?).map (fun e => e.owner) = some 1 ∧ (s.box[1]?).map (fun e => e.owner) = some 32 ∧
    (s.box[2]?).isNone = true ∧ mapFind s.spdm.sessions 4 = some ⟨true, some 1, 0⟩ := by decide +kernel

/-- What bring-up meets where all goes well. -/
def goodStart : BringUp := ⟨true, true, List.replicate 18 3, [], { loadedPart with owner := 63, kind := .sys }⟩

theorem witness_HostPortAndAttestation_bringUp : goodStart.signature = true ∧ goodStart.training = true ∧ goodStart.sys.kind = .sys ∧ recWellFormed goodStart.sys = true ∧
    State.reset.fits goodStart.sys = true ∧ State.reset.powered = false ∧ (stocked half).powered = true ∧ rankOf goodStart.ports = some 3 ∧ rankOf [] = none := by decide +kernel

theorem witness_StepRunsDecoded : let s := loaded 0x01E24981
    let r := loaded 0x0DE20305
    let t := loaded 0xE5E00000
    s.turn = .issue false ∧ s.grp.hint = none ∧ s.grp.dueRecord s.win = none ∧ s.grp.pc.toNat < 0x00F0000000000000 ∧
    (∀ y ∈ [(s, 0x01E24981#32), (r, 0x0DE20305#32), (t, 0xE5E00000#32)], ((y.1.translate (some y.1.grp.core) (y.1.launchAt y.1.grp.launch).leases y.1.grp.owner y.1.grp.pc.toNat 4 wantFetch).map (fun x =>
      BitVec.ofNat 32 (ofBytes (y.1.bytes x.pa 4)))).toOption = some y.2) ∧ decode 0x0DE20305#32 = .error .field ∧ decode 0xE5E00000#32 = .ok (.rte always) ∧
    stateReason t.grp (.rte always) = some 6 ∧ stateReason s.grp (.add true always 9#6 9#6 (.imm 1#6)) = none := by decide +kernel
theorem witness_StepRunsDecoded_others : let s := loaded 0x01E24981
    let d : State := { s with groups := [(0, { s.grp with pend := [(7, {})] })] }
    let f : State := { s with groups := [(0, { s.grp with pc := 0x30000 })] }
    d.grp.hint = none ∧ d.grp.dueRecord d.win ≠ none ∧ f.translate (some 0) (f.launchAt 0).leases 1 f.grp.pc.toNat 4 wantFetch = .error 6 ∧ State.reset.waitsOutside (.thermalSample [] 0) = false ∧
    ({ State.reset with powered := true, now := 1 } : State).waitsOutside (.thermalSample [] 0) = true ∧ State.reset.turn = .free ∧ State.reset.unsettled = [] ∧
    State.reset.inbox = [] ∧ (({ State.reset with agenda := [⟨.wall, 0, .meltUpdate⟩] } : State).nextDue).isSome = true := by decide +kernel
theorem witness_StepRunsDecoded_free : let s : State := { State.reset with powered := true }
    ({ s with unsettled := [3] } : State).turn = .free ∧ s.unsettled = [] ∧ s.inbox = [] ∧ s.nextDue = none ∧ ({ s with lanesLeft := [5] } : State).nextDue = none ∧
    ({ s with lanesLeft := [5] } : State).turn = .free ∧ ({ s with boundary := [0] } : State).nextDue = none ∧ ({ s with boundary := [0] } : State).turn = .free := by decide +kernel
theorem witness_EncodeDecodeRoundTrip : (Instr.add true ⟨6#3, true⟩ 63#6 63#6 (.neg 31#5)).wf = true ∧ encode (.add true ⟨6#3, true⟩ 63#6 63#6 (.neg 31#5)) = some 0x01DFFFDF#32 ∧
    decode 0x01DFFFDF#32 = .ok (.add true ⟨6#3, true⟩ 63#6 63#6 (.neg 31#5)) := by decide
theorem witness_StepKeepsSound : State.reset.sound ∧ (stocked half).sound ∧ ({ State.reset with boxFrozen := true } : State).boxFrozen = true := by decide +kernel

end Sys2Proof.Machine
end

section
/-! What one step of the device does: the word of a window, and the order of everything else (R10, R16, R40, R147). -/

namespace Sys2Proof.Machine

/-- The walker leaves the current group as it is. -/
theorem Walks.grp {s t : State} (h : Walks s t) : t.grp = s.grp := by
  rw [h.rest]
  rfl

/-- Reading a word through the owner's L2 ways leaves the current group as it is (R191). -/
theorem State.setLeaf_fillL2_grp (s : State) (o pa : Nat) (x : Leaf) (c : BitVec 2) : ((s.setLeaf o x).fillL2 o pa c).grp = s.grp :=
  ((s.setLeaf_walks o x).trans (State.fillL2_walks _ o pa c).1).grp

/-! ### The word of a window -/

theorem step_of_issue {s : State} {second : Bool} (h : s.turn = .issue second) : step s = s.issueStep second := by
  unfold step
  rw [h]

/-- A deferred trap that is due comes before the first word of a window (R329). -/
theorem State.issueStep_of_dueRecord {s : State} (hh : s.grp.hint = none) (hd : s.grp.dueRecord s.win ≠ none) :
    s.issueStep false = .next s.deliverTrap.closed := by
  unfold State.issueStep
  simp [hh, Option.isSome_iff_ne_none, hd]

/-- No deferred trap comes first in the second word of a window, in the bound word of a hint, and where none is due. -/
theorem State.fetches_first {s : State} {second : Bool} (h : second = true ∨ s.grp.hint ≠ none ∨ s.grp.dueRecord s.win = none) :
    ¬(!second && s.grp.hint.isNone && (s.grp.dueRecord s.win).isSome) = true := by
  rcases h with h | h | h <;> simp [h]

theorem State.issueStep_of_fault {s : State} {second : Bool} {c : Nat} (h : second = true ∨ s.grp.hint ≠ none ∨ s.grp.dueRecord s.win = none)
    (hf : s.fetchWord s.grp s.grp.pc = .error c) : s.issueStep second = .next (s.trap (fetchTrap s.grp c s.grp.pc)).closed := by
  unfold State.issueStep
  dsimp only
  rw [if_neg (State.fetches_first h), hf]

theorem State.issueStep_of_word {s : State} {second : Bool} {w : Word} {x : Leaf}
    (h : second = true ∨ s.grp.hint ≠ none ∨ s.grp.dueRecord s.win = none) (hf : s.fetchWord s.grp s.grp.pc = .ok (w, x)) :
    s.issueStep second = ((s.setLeaf s.grp.owner x).fillL2 s.grp.owner x.pa 0#2).runWord second w := by
  unfold State.issueStep
  dsimp only
  rw [if_neg (State.fetches_first h), hf]

/-- Below the scratch window a word is read where translation through the launch's leases puts it (R181). -/
theorem State.fetchWord_of_memory (s : State) (g : Group) {pc : PcWord} (h : pc.toNat < scratchBase) :
    s.fetchWord g pc = (s.translate (some g.core) (s.launchAt g.launch).leases g.owner pc.toNat 4 wantFetch).map
      (fun x => (BitVec.ofNat 32 (ofBytes (s.bytes x.pa 4)), x)) := by
  have hm : spaceOf pc.toNat = .memory := if_pos h
  unfold State.fetchWord
  rw [hm]
  dsimp only
  cases s.translate (some g.core) (s.launchAt g.launch).leases g.owner pc.toNat 4 wantFetch <;> rfl

theorem State.runWord_of_not_decoded {s : State} {second : Bool} {w : Word} {e : EncReason} (h : decode w = .error e) :
    s.runWord second w = .next (s.trap (s.badWord e w)).closed := by
  unfold State.runWord
  rw [h]

theorem State.runWord_of_reserved {s : State} {g : Group} {second : Bool} {w : Word} {i : Instr} {c : Nat} (hg : s.grp = g)
    (h : decode w = .ok i) (hr : stateReason g i = some c) : s.runWord second w = .next (s.trap (encTrap g c w)).closed := by
  subst hg
  unfold State.runWord
  rw [h]
  dsimp only
  rw [hr]

theorem State.runWord_of_decoded {s : State} {g : Group} {second : Bool} {w : Word} {i : Instr} (hg : s.grp = g) (h : decode w = .ok i)
    (hr : stateReason g i = none) : s.runWord second w = andThen (exec i (s.charge i)) (s.afterIssue second i) := by
  subst hg
  unfold State.runWord
  rw [h]
  dsimp only
  rw [hr]

/-! ### No window running -/

theorem step_of_free {s : State} (h : s.turn = .free) : step s = s.freeStep := by
  unfold step
  rw [h]

theorem State.freeStep_of_unsettled {s : State} (h : s.unsettled ≠ []) : s.freeStep = .next s.settle := by
  unfold State.freeStep
  simp [h]

theorem State.freeStep_of_arrival {s : State} {e : Instr} {es : List Instr} (hu : s.unsettled = []) (hi : s.inbox = e :: es)
    (hw : s.waitsOutside e = false) : s.freeStep = andThen (exec e { s with inbox := es }) State.tidy := by
  unfold State.freeStep
  simp [hu, hi, hw]

/-- Nothing arrives from outside, or what stands first waits: the device does something of its own. -/
theorem State.freeStep_of_waits {s : State} (hu : s.unsettled = []) (hw : ∀ e es, s.inbox = e :: es → s.waitsOutside e = true) :
    s.freeStep = s.ownStep := by
  unfold State.freeStep
  cases hi : s.inbox with
  | nil => simp [hu]
  | cons e es => simp [hu, hw e es hi]

theorem State.ownStep_of_due {s : State} {p : Pend} (h : s.nextDue = some p) :
    s.ownStep = andThen (exec p.ev { s with agenda := s.agenda.erase p }) State.tidy := by
  unfold State.ownStep
  rw [h]
  rfl

theorem State.ownStep_of_lane {s : State} {k : Nat} {ks : List Nat} (hd : s.nextDue = none) (hl : s.lanesLeft = k :: ks) :
    s.ownStep = .next (State.serveLane { s with lanesLeft := ks } k) := by
  unfold State.ownStep
  rw [hd]
  dsimp only
  rw [hl]

theorem State.ownStep_of_boundary {s : State} {i : Nat} {is : List Nat} (hd : s.nextDue = none) (hl : s.lanesLeft = [])
    (hb : s.boundary = i :: is) : s.ownStep = .next (s.atBoundary i) := by
  unfold State.ownStep
  rw [hd]
  dsimp only
  rw [hl]
  dsimp only
  rw [hb]

theorem State.ownStep_of_quiet {s : State} (hd : s.nextDue = none) (hl : s.lanesLeft = []) (hb : s.boundary = []) :
    s.ownStep = .next s.advance := by
  unfold State.ownStep
  rw [hd]
  dsimp only
  rw [hl]
  dsimp only
  rw [hb]

/-! ### The statement -/

/-- Settles O56: the issue of a window by the fetch and then the decoding of its word, the rest by the order of `freeStep` and `ownStep`. -/
theorem stepRunsDecoded : Obligations.StepRunsDecoded := by
  unfold Obligations.StepRunsDecoded
  refine ⟨fun s second ht => ?_, fun s ht => ?_⟩
  · rw [step_of_issue ht]
    refine ⟨?_, fun h hpc => ?_⟩
    · rintro rfl hh hd
      exact State.issueStep_of_dueRecord hh hd
    · have hf := s.fetchWord_of_memory s.grp hpc
      refine ⟨fun c hc => State.issueStep_of_fault h (by rw [hf, hc]; rfl), fun x hx => ?_⟩
      rw [State.issueStep_of_word h (by rw [hf, hx]; rfl)]
      have hg := s.setLeaf_fillL2_grp s.grp.owner x.pa x 0#2
      exact ⟨fun e he => State.runWord_of_not_decoded he, fun i c hi hr => State.runWord_of_reserved hg hi hr,
        fun i hi hr => State.runWord_of_decoded hg hi hr⟩
  · rw [step_of_free ht]
    refine ⟨State.freeStep_of_unsettled, fun hu => ⟨fun e es => State.freeStep_of_arrival hu, fun p hw hp => ?_, fun hw hd => ?_⟩⟩
    · rw [State.freeStep_of_waits hu hw, State.ownStep_of_due hp]
    · rw [State.freeStep_of_waits hu hw]
      exact ⟨fun k ks => State.ownStep_of_lane hd, fun hl => ⟨fun i is => State.ownStep_of_boundary hd hl, State.ownStep_of_quiet hd hl⟩⟩

end Sys2Proof.Machine
end

section
/-! Branches, jumps and calls: the target, the loops a jump leaves, the link (R12, R101 to R104). -/

namespace Sys2Proof.Machine

/-! ### The target -/

theorem extractLsb'_56_8_eq_zero {x : Dword} : x.extractLsb' 56 8 = 0#8 ↔ x.toNat < 2 ^ 56 := by
  have hx := x.isLt
  rw [← BitVec.toNat_inj, BitVec.extractLsb'_toNat, Nat.shiftRight_eq_div_pow, BitVec.toNat_ofNat]
  omega

theorem extractLsb'_0_2_eq_zero {x : Dword} : x.extractLsb' 0 2 = 0#2 ↔ x.toNat % 4 = 0 := by
  rw [← BitVec.toNat_inj, BitVec.extractLsb'_toNat, Nat.shiftRight_zero, BitVec.toNat_ofNat]

theorem targetTrap_of_nonCanonical (g : Group) {x : Dword} (h : 2 ^ 56 ≤ x.toNat) : targetTrap g x = some (memTrap g.running 5 0 x) := by
  unfold targetTrap
  rw [if_pos (mt extractLsb'_56_8_eq_zero.1 (by omega))]
  rfl

theorem targetTrap_of_misaligned (g : Group) {x : Dword} (h : x.toNat < 2 ^ 56) (ha : x.toNat % 4 ≠ 0) :
    targetTrap g x = some (memTrap g.running 5 1 x) := by
  unfold targetTrap
  rw [if_neg (not_not.2 (extractLsb'_56_8_eq_zero.2 h)), if_pos (mt extractLsb'_0_2_eq_zero.1 ha)]
  rfl

theorem targetTrap_of_good (g : Group) {x : Dword} (h : x.toNat < 2 ^ 56) (ha : x.toNat % 4 = 0) : targetTrap g x = none := by
  unfold targetTrap
  rw [if_neg (not_not.2 (extractLsb'_56_8_eq_zero.2 h)), if_neg (not_not.2 (extractLsb'_0_2_eq_zero.2 ha))]

/-- R101: a target with a bit of 63:56 set, or else one that is no multiple of 4, traps with nothing done. -/
def TrapsBadTarget (i : Instr) (s : State) (x : Dword) : Prop :=
  (2 ^ 56 ≤ x.toNat → exec i s = .next (s.trap (memTrap s.grp.running 5 0 x))) ∧
  (x.toNat < 2 ^ 56 → x.toNat % 4 ≠ 0 → exec i s = .next (s.trap (memTrap s.grp.running 5 1 x)))

theorem trapsBadTarget_of {i : Instr} {s : State} {x : Dword} (h : ∀ t, targetTrap s.grp x = some t → exec i s = .next (s.trap t)) :
    TrapsBadTarget i s x :=
  ⟨fun hx => h _ (targetTrap_of_nonCanonical _ hx), fun hx ha => h _ (targetTrap_of_misaligned _ hx ha)⟩

/-- A displacement in words, sign-extended and with two zeros below, is four times its value. -/
theorem signExtend_append_zero {w : Nat} (x : BitVec w) (hw : w ≤ 62) : (x.signExtend 62 ++ 0#2 : Dword) = BitVec.ofInt 64 (4 * x.toInt) := by
  have e : (x.signExtend 62 ++ 0#2 : BitVec (62 + 2)).toInt = 4 * x.toInt := by
    rw [BitVec.toInt_append_zero, BitVec.toInt_signExtend_of_le hw]
    rfl
  rw [← e]
  exact BitVec.ofInt_toInt.symm

theorem ofInt_pc_add (pc : PcWord) (d : Int) : BitVec.ofInt 64 (pc.toNat + 4 + d) = pc.setWidth 64 + 4 + BitVec.ofInt 64 d := by
  rw [BitVec.ofInt_add, BitVec.ofInt_add, BitVec.ofInt_natCast, BitVec.ofNat_toNat]
  rfl

/-- R102: the words of the displacement are counted from the word after the branch. -/
theorem Group.branchTarget_of_no_wide {g : Group} (f : BitVec 20) (h : g.wide = none) :
    g.branchTarget f = BitVec.ofInt 64 (g.pc.toNat + 4 + 4 * f.toInt) := by
  unfold Group.branchTarget Group.dispB
  rw [h, ofInt_pc_add, ← signExtend_append_zero f (by omega)]

/-- R33: under a WIDE hint its payload stands above the displacement. -/
theorem Group.branchTarget_of_wide {g : Group} {p : BitVec 22} (f : BitVec 20) (h : g.wide = some p) :
    g.branchTarget f = BitVec.ofInt 64 (g.pc.toNat + 4 + 4 * (p ++ f : BitVec 42).toInt) := by
  unfold Group.branchTarget Group.dispB
  rw [h, ofInt_pc_add, ← signExtend_append_zero (p ++ f : BitVec 42) (by omega)]

/-! ### The loops a jump leaves -/

theorem LoopReg.contains_iff (l : LoopReg) (x : PcWord) : l.contains x = true ↔ l.ls ≤ x ∧ x < l.le := by
  simp [LoopReg.contains]

/-- The condition on which `Jump` of R101 pops a loop. -/
theorem popLoops_cond (l : LoopReg) (p x : PcWord) :
    (l.contains p && !l.contains x) = true ↔ (l.ls ≤ p ∧ p < l.le) ∧ ¬(l.ls ≤ x ∧ x < l.le) := by
  rw [Bool.and_eq_true, Bool.not_eq_true', ← Bool.not_eq_true, LoopReg.contains_iff, LoopReg.contains_iff]

theorem popLoops_le (g : Group) (p x : PcWord) (n : Nat) : popLoops g p x n ≤ n := by
  induction n with
  | zero => exact le_refl 0
  | succ n ih =>
    unfold popLoops
    split
    · omega
    · exact le_refl _

/-- Every loop that a jump pops holds the instruction and not the target. -/
theorem popLoops_popped (g : Group) (p x : PcWord) (n : Nat) {j : Nat} (hj : popLoops g p x n ≤ j) (hn : j < n) :
    ((g.loop j).contains p && !(g.loop j).contains x) = true := by
  induction n with
  | zero => omega
  | succ n ih =>
    unfold popLoops at hj
    split at hj
    case isTrue hc =>
      rcases Nat.lt_succ_iff_lt_or_eq.1 hn with h | rfl
      · exact ih hj h
      · exact hc
    case isFalse => omega

/-- The innermost loop that a jump leaves active does not: popping stops there. -/
theorem popLoops_stays (g : Group) (p x : PcWord) (n : Nat) (hk : 0 < popLoops g p x n) :
    ¬((g.loop (popLoops g p x n - 1)).contains p && !(g.loop (popLoops g p x n - 1)).contains x) = true := by
  induction n with
  | zero => exact absurd hk (lt_irrefl 0)
  | succ n ih =>
    by_cases hc : ((g.loop n).contains p && !(g.loop n).contains x) = true
    · rw [popLoops, if_pos hc] at hk ⊢
      exact ih hk
    · rw [popLoops, if_neg hc]
      exact hc

/-! ### Jumps -/

theorem State.jump_of_trap {s : State} {x : Dword} {t : Trap} (h : targetTrap s.grp x = some t) : s.jump x = s.trap t := by
  unfold State.jump
  dsimp only
  rw [h]

theorem State.jump_of_good {s : State} {x : Dword} (h : targetTrap s.grp x = none) :
    s.jump x = s.setGrp { s.grp with pc := x.setWidth 56, n := popLoops s.grp s.grp.pc (x.setWidth 56) s.grp.n, hint := none } := by
  unfold State.jump
  dsimp only
  rw [h, BitVec.setWidth_eq_extractLsb' (by omega)]
  rfl

theorem State.diverge_of_trap {s : State} {x : Dword} {t : Trap} (a : BitVec 32) (h : targetTrap s.grp x = some t) : s.diverge a x = s.trap t := by
  unfold State.diverge
  dsimp only
  rw [h]

/-- An instruction that makes `Jump` of R101 goes to its target and leaves the loops it says. -/
theorem jumpsTo_of_jump {i : Instr} {s : State} {x : Dword} (h : exec i s = .next (s.jump x)) : JumpsTo i s x := by
  intro hx ha
  refine ⟨popLoops s.grp s.grp.pc (x.setWidth 56) s.grp.n, popLoops_le _ _ _ _, ?_, fun j hk hj => ?_, fun hk => ?_⟩
  · rw [h, State.jump_of_good (targetTrap_of_good _ hx ha)]
  · exact (popLoops_cond _ _ _).1 (popLoops_popped _ _ _ _ hk hj)
  · exact mt (popLoops_cond _ _ _).2 (popLoops_stays _ _ _ _ hk)

theorem trapsBadTarget_of_jump {i : Instr} {s : State} {x : Dword} (h : exec i s = .next (s.jump x)) : TrapsBadTarget i s x :=
  trapsBadTarget_of fun t ht => by rw [h, State.jump_of_trap ht]

/-! ### The instructions -/

theorem exec_nop (u : Bool) (h : Guard) (s : State) : Passes (.nop u h) s := rfl

theorem exec_bra_uniform {s : State} {h : Guard} (f : BitVec 20) (hq : s.grp.guardQ h = true) :
    exec (.bra true h f) s = .next (s.jump (s.grp.branchTarget f)) := by
  show execBra true h f s = _
  simp [execBra, hq]

theorem exec_bra_uniform_off {s : State} {h : Guard} (f : BitVec 20) (hq : s.grp.guardQ h = false) : Passes (.bra true h f) s := by
  show execBra true h f s = _
  simp [execBra, hq, State.finish]

theorem exec_bra_none {s : State} {h : Guard} (f : BitVec 20) (ha : s.grp.active h = 0#32) : Passes (.bra false h f) s := by
  show execBra false h f s = _
  simp [execBra, ha, State.finish]

/-- R102: a branch that some thread takes jumps where every running thread takes it, and diverges elsewhere. -/
theorem exec_bra_thread {s : State} {h : Guard} (f : BitVec 20) (ha : s.grp.active h ≠ 0#32) :
    exec (.bra false h f) s = .next (if s.grp.running &&& ~~~s.grp.active h = 0#32 then s.jump (s.grp.branchTarget f)
      else s.diverge (s.grp.active h) (s.grp.branchTarget f)) := by
  show execBra false h f s = _
  simp [execBra, ha]

theorem exec_bra_agreed {s : State} {h : Guard} (f : BitVec 20) (ha : s.grp.active h = s.grp.running) (hr : s.grp.running ≠ 0#32) :
    exec (.bra false h f) s = .next (s.jump (s.grp.branchTarget f)) := by
  have none_left : s.grp.running &&& ~~~s.grp.running = 0#32 := BitVec.and_not_self _
  rw [exec_bra_thread f (ha ▸ hr), ha, if_pos none_left]

theorem exec_brx {s : State} {h : Guard} (a : Reg) (hq : s.grp.guardQ h = true) : exec (.brx h a) s = .next (s.jump (s.grp.getG64 a)) := by
  show execBrx h a s = _
  simp [execBrx, hq]

theorem exec_brx_off {s : State} {h : Guard} (a : Reg) (hq : s.grp.guardQ h = false) : Passes (.brx h a) s := by
  show execBrx h a s = _
  simp [execBrx, hq, State.finish]

theorem exec_ret_off {s : State} {h : Guard} (a : Reg) (hq : s.grp.guardQ h = false) : Passes (.ret h a) s := by
  show execRet h a s = _
  simp [execRet, hq, State.finish]

/-- R104: `ret` checks its target as `Jump` does and leaves no loop. -/
theorem exec_ret_good {s : State} {h : Guard} {a : Reg} (hq : s.grp.guardQ h = true) (ht : targetTrap s.grp (s.grp.getG64 a) = none) :
    exec (.ret h a) s = .next (s.setGrp { s.grp with pc := (s.grp.getG64 a).setWidth 56, hint := none }) := by
  show execRet h a s = _
  unfold execRet
  dsimp only
  rw [if_pos hq, ht, BitVec.setWidth_eq_extractLsb' (by omega)]
  rfl

theorem exec_ret_trap {s : State} {h : Guard} {a : Reg} {t : Trap} (hq : s.grp.guardQ h = true)
    (ht : targetTrap s.grp (s.grp.getG64 a) = some t) : exec (.ret h a) s = .next (s.trap t) := by
  show execRet h a s = _
  unfold execRet
  dsimp only
  rw [if_pos hq, ht]

/-- R137: a branch on which threads disagree checks its target before it diverges. -/
theorem trapsBadTarget_bra_thread {s : State} {h : Guard} (f : BitVec 20) (ha : s.grp.active h ≠ 0#32) :
    TrapsBadTarget (.bra false h f) s (s.grp.branchTarget f) :=
  trapsBadTarget_of fun t ht => by rw [exec_bra_thread f ha, State.jump_of_trap ht, State.diverge_of_trap _ ht, ite_self]

/-- Settles O18: each instruction passes, makes `Jump` of R101 or traps, and `Jump` pops as `popLoops` says. -/
theorem controlTransfers : Obligations.ControlTransfers := by
  unfold Obligations.ControlTransfers
  intro s u h f a disp target pair
  have ht : target = s.grp.branchTarget f := by
    cases hw : s.grp.wide with
    | none => simp only [target, disp, hw, Group.branchTarget_of_no_wide f hw]
    | some p => simp only [target, disp, hw, Group.branchTarget_of_wide f hw]
  rw [ht]
  refine ⟨exec_nop u h s, fun hq => ⟨exec_bra_uniform_off f hq, exec_brx_off a hq, exec_ret_off a hq⟩, exec_bra_none f,
    fun hq => ⟨jumpsTo_of_jump (exec_bra_uniform f hq), jumpsTo_of_jump (exec_brx a hq)⟩,
    fun ha hr => jumpsTo_of_jump (exec_bra_agreed f ha hr), fun hq hx ha => exec_ret_good hq (targetTrap_of_good _ hx ha), ?_⟩
  rintro i x (⟨rfl, rfl, hq⟩ | ⟨rfl | rfl, rfl, hq⟩ | ⟨rfl, rfl, ha⟩)
  · exact trapsBadTarget_of_jump (exec_bra_uniform f hq)
  · exact trapsBadTarget_of_jump (exec_brx a hq)
  · exact trapsBadTarget_of fun _ => exec_ret_trap hq
  · exact trapsBadTarget_bra_thread f ha

/-! ### Calls -/

theorem Group.setG64_getG (g : Group) (d r : Reg) (w : Dword) :
    (g.setG64 d w).getG r = if r = d + 1 then w.extractLsb' 32 32 else if r = d then w.extractLsb' 0 32 else g.getG r := by
  simp only [Group.setG64, Group.setG_getG]

theorem Group.setG64_getG64 (g : Group) (d : Reg) (w : Dword) : (g.setG64 d w).getG64 d = w := by
  unfold Group.getG64
  rw [Group.setG64_getG, Group.setG64_getG, if_pos rfl, if_neg (reg_ne_succ d), if_pos rfl, dword_halves]

@[simp] theorem Group.goto_getG (g : Group) (x : PcWord) (r : Reg) : (g.goto x).getG r = g.getG r := rfl

theorem State.setGrp_onlyGroup (s : State) (g : Group) : OnlyGroup s (s.setGrp g) where
  rest := rfl
  others k hk := by rw [State.setGrp_groupAt, if_neg hk]

theorem State.callTo_of_trap {s : State} {d : Reg} {x : Dword} {t : Trap} (h : targetTrap s.grp x = some t) : s.callTo d x = s.trap t := by
  unfold State.callTo
  dsimp only
  rw [h]

/-- A call to a good target links, in the group as completing leaves it, the address at which completing goes on (R103). -/
theorem State.callTo_of_good {s : State} {d : Reg} {x : Dword} (h : targetTrap s.grp x = none) :
    s.callTo d x = s.setGrp (((s.grp.complete.setG64 d (s.grp.complete.pc.setWidth 64)).mark s.win 4 [locG d, locG (d + 1)]).goto (x.setWidth 56)) := by
  unfold State.callTo
  dsimp only
  rw [h, BitVec.setWidth_eq_extractLsb' (v := 64) (by omega)]
  rfl

/-- What a call leaves: the link in its pair, every other register, and the group as completing leaves it but for its PC. -/
theorem State.callTo_links {s : State} {d : Reg} {x : Dword} (h : targetTrap s.grp x = none) :
    OnlyGroup s (s.callTo d x) ∧ (s.callTo d x).grp.getG64 d = s.grp.complete.pc.setWidth 64 ∧
      (∀ r, r ≠ d → r ≠ d + 1 → (s.callTo d x).grp.getG r = s.grp.getG r) ∧
      (s.callTo d x).grp = { s.grp.complete with g := (s.callTo d x).grp.g, avail := (s.callTo d x).grp.avail, pc := x.setWidth 56 } := by
  rw [State.callTo_of_good h, State.setGrp_grp]
  refine ⟨s.setGrp_onlyGroup _, ?_, fun r hd hd' => ?_, ?_⟩
  · rw [Group.getG64, Group.goto_getG, Group.goto_getG, Group.mark_getG, Group.mark_getG]
    exact Group.setG64_getG64 _ _ _
  · rw [Group.goto_getG, Group.mark_getG, Group.setG64_getG, if_neg hd', if_neg hd]
    exact s.grp.complete_rd none r
  · rw [s.grp.complete_eta]
    rfl

theorem trapsBadTarget_of_call {i : Instr} {s : State} {d : Reg} {x : Dword} (h : exec i s = .next (s.callTo d x)) : TrapsBadTarget i s x :=
  trapsBadTarget_of fun t ht => by rw [h, State.callTo_of_trap ht]

theorem exec_call {s : State} {h : Guard} (f : BitVec 20) (hq : s.grp.guardQ h = true) :
    exec (.call h f) s = .next (s.callTo 62#6 (s.grp.branchTarget f)) := by
  show execCall h f s = _
  simp [execCall, hq]

theorem exec_call_off {s : State} {h : Guard} (f : BitVec 20) (hq : s.grp.guardQ h = false) : Passes (.call h f) s := by
  show execCall h f s = _
  simp [execCall, hq, State.finish]

theorem exec_callx {s : State} {h : Guard} (d a : Reg) (hq : s.grp.guardQ h = true) :
    exec (.callx h d a) s = .next (s.callTo d (s.grp.getG64 a)) := by
  show execCallx h d a s = _
  simp [execCallx, hq]

theorem exec_callx_off {s : State} {h : Guard} (d a : Reg) (hq : s.grp.guardQ h = false) : Passes (.callx h d a) s := by
  show execCallx h d a s = _
  simp [execCallx, hq, State.finish]

/-- Settles O19: both calls are `callTo`, which reads its target before it links. -/
theorem calls : Obligations.Calls := by
  unfold Obligations.Calls
  intro s h f d a links
  have linked {i : Instr} {d : Reg} {x : Dword} (hi : exec i s = .next (s.callTo d x)) : links i d x :=
    fun hx ha _ => ⟨_, hi, State.callTo_links (targetTrap_of_good _ hx ha)⟩
  refine ⟨fun hq => ⟨linked (exec_call f hq), linked (exec_callx d a hq)⟩, fun hq => ⟨exec_call_off f hq, exec_callx_off d a hq⟩, ?_⟩
  rintro i x hq (⟨rfl, rfl⟩ | ⟨rfl, rfl⟩)
  · exact trapsBadTarget_of_call (exec_call f hq)
  · exact trapsBadTarget_of_call (exec_callx d a hq)

end Sys2Proof.Machine
end

section
/-! Reading the special registers (R11, R115). -/

namespace Sys2Proof.Machine

/-- A narrow register whose value is the word given for each lane is delivered to d. -/
theorem gets_word {s : State} {u : Bool} {h : Guard} {d : Reg} {r : SReg} {f : Lane → Word} (hw : sregWide r = false)
    (hv : ∀ l, s.sreg s.grp l r (s.grp.rd l d) = (f l).setWidth 64) : Writes (.gets u h d r) s u h d f := by
  have e : exec (.gets u h d r) s = .next (s.alu u h d 4 f) := by
    show execGets u h d r s = _
    simp [execGets, hw, hv]
  exact ⟨_, e, s.alu_wrote u h d 4 f, fun l hl => s.alu_grp_rd u h d 4 f hl⟩

/-- The same for a register that counts or numbers something. -/
theorem gets_nat {s : State} {u : Bool} {h : Guard} {d : Reg} {r : SReg} {f : Lane → Nat} (hw : sregWide r = false)
    (hv : ∀ l, s.sreg s.grp l r (s.grp.rd l d) = BitVec.ofNat 64 (f l)) : Writes (.gets u h d r) s u h d (fun l => BitVec.ofNat 32 (f l)) := by
  have e : exec (.gets u h d r) s = .next (s.alu u h d 4 (fun l => BitVec.ofNat 32 (f l))) := by
    show execGets u h d r s = _
    simp [execGets, hw, hv, BitVec.setWidth_ofNat_of_le]
  exact ⟨_, e, s.alu_wrote u h d 4 _, fun l hl => s.alu_grp_rd u h d 4 _ hl⟩

/-- A register of 64 bits is delivered to Pair(d). -/
theorem gets_pair {s : State} {u : Bool} {h : Guard} {d : Reg} {r : SReg} {f : Lane → Nat} (hw : sregWide r = true)
    (hv : ∀ l, s.sreg s.grp l r 0#32 = BitVec.ofNat 64 (f l)) : ComputesPair (.gets u h d r) s u h d (fun l => f l) := by
  have e : exec (.gets u h d r) s = .next (s.alu64 u h d 4 (fun l => BitVec.ofInt 64 (f l))) := by
    show execGets u h d r s = _
    simp [execGets, hw, hv]
  exact ⟨_, e, s.alu64_wrote u h d 4 _, fun l hl => s.alu64_grp_rd u h d 4 _ hl⟩

/-- Settles O30: `sreg` gives each register's value, and `gets` delivers it by `alu` or `alu64`. -/
theorem readSpecialRegister : Obligations.ReadSpecialRegister := by
  unfold Obligations.ReadSpecialRegister
  intro s u h d
  have own (x : Dword) : x = BitVec.ofNat 64 x.toNat := by simp
  exact ⟨gets_nat rfl fun _ => rfl, gets_nat rfl fun _ => rfl, gets_word rfl fun _ => rfl, gets_nat rfl fun _ => rfl,
    gets_word rfl fun _ => rfl, gets_word rfl fun _ => rfl, gets_word rfl fun _ => rfl, gets_word rfl fun _ => rfl,
    gets_nat rfl fun _ => rfl, gets_word rfl fun _ => rfl, gets_word rfl fun _ => rfl, gets_word rfl fun _ => rfl,
    gets_word rfl fun _ => rfl, gets_word rfl fun _ => rfl, gets_pair rfl fun _ => rfl, gets_pair rfl fun _ => own _,
    gets_pair rfl fun _ => own _, gets_pair rfl fun _ => own _⟩

end Sys2Proof.Machine
end

section
/-! Words of instructions (R21 to R40): the fields of a word put together from its parts, and the decoder on the words of the encoder. -/

namespace Sys2Proof

/-! ### Fields of a concatenation

The library's lemmas name the width of `x ++ y` as a sum; a word's is the numeral 20 or 32, which `no_index` lets them meet. -/

theorem extractLsb'_append_low {v w start len : Nat} {x : BitVec v} {y : BitVec w} (h : start + len ≤ w) :
    (@HAppend.hAppend (BitVec v) (BitVec w) (BitVec (no_index (v + w))) _ x y).extractLsb' start len = y.extractLsb' start len :=
  BitVec.extractLsb'_append_eq_of_add_le h

theorem extractLsb'_append_high {v w start len : Nat} {x : BitVec v} {y : BitVec w} (h : w ≤ start) :
    (@HAppend.hAppend (BitVec v) (BitVec w) (BitVec (no_index (v + w))) _ x y).extractLsb' start len = x.extractLsb' (start - w) len :=
  BitVec.extractLsb'_append_eq_of_le h

theorem getLsbD_append_ite {v w i : Nat} {x : BitVec v} {y : BitVec w} :
    (@HAppend.hAppend (BitVec v) (BitVec w) (BitVec (no_index (v + w))) _ x y).getLsbD i = if i < w then y.getLsbD i else x.getLsbD (i - w) :=
  BitVec.getLsbD_append

/-- A test of bits under a mask is a test of each field under its part of the mask. -/
theorem append_and_eq_iff {v w : Nat} (x : BitVec v) (y : BitVec w) (m c : BitVec (no_index (v + w))) :
    (@HAppend.hAppend (BitVec v) (BitVec w) (BitVec (no_index (v + w))) _ x y) &&& m = c ↔
      x &&& m.extractLsb' w v = c.extractLsb' w v ∧ y &&& m.extractLsb' 0 w = c.extractLsb' 0 w := by
  have join (z : BitVec (v + w)) : z.extractLsb' w v ++ z.extractLsb' 0 w = z := BitVec.extractLsb'_append_extractLsb'
  have parts (z z' : BitVec (v + w)) : z = z' ↔ z.extractLsb' w v = z'.extractLsb' w v ∧ z.extractLsb' 0 w = z'.extractLsb' 0 w :=
    ⟨fun h => ⟨h ▸ rfl, h ▸ rfl⟩, fun ⟨hx, hy⟩ => by rw [← join z, hx, hy, join]⟩
  rw [parts, BitVec.extractLsb'_and, BitVec.extractLsb'_and, BitVec.extractLsb'_append_eq_left, BitVec.extractLsb'_append_eq_right]

@[simp] theorem bit_getLsbD (b : Bool) : (bit b).getLsbD 0 = b := by cases b <;> rfl

/-- `lea` keeps the two bits of its shift apart (R96). -/
theorem shift_halves (k : BitVec 2) : k.extractLsb' 1 1 ++ k.extractLsb' 0 1 = k :=
  BitVec.extractLsb'_append_extractLsb'

/-! ### Field codes -/

@[simp] theorem BSel.ofBits_bits (b : BSel) : BSel.ofBits b.bits = b := by
  cases b <;> simp [BSel.ofBits, BSel.bits, extractLsb'_append_low, extractLsb'_append_high, getLsbD_append_ite, -BitVec.getLsbD_eq_getElem]

@[simp] theorem Ord.ofBits_bits (o : Ord) : Ord.ofBits o.bits = o := by cases o <;> rfl
@[simp] theorem FCond.ofBits_bits (c : FCond) : FCond.ofBits c.bits = c := by cases c <;> rfl
@[simp] theorem condOf_bits (c : Cond) : condOf c.bits = .ok c := by cases c <;> rfl
@[simp] theorem scopeOf_bits (x : Scope) : scopeOf x.bits = .ok x := by cases x <;> rfl
@[simp] theorem classOf_bits (k : OpClass) : classOf k.bits = .ok k := by cases k <;> rfl
@[simp] theorem scalarOf_ftype_bits (t : FType) : scalarOf t.bits = .ok (.inl t) := by cases t <;> rfl
@[simp] theorem scalarOf_itype_bits (t : IType) : scalarOf t.bits = .ok (.inr t) := by cases t <;> rfl
@[simp] theorem dxOf_bits (f : DxFmt) : dxOf f.bits = .ok f := by cases f <;> rfl
@[simp] theorem gfnOf_bits (f : GFn) : gfnOf f.bits = .ok f := by cases f <;> rfl
@[simp] theorem sregOf_bits (r : SReg) : sregOf r.bits = .ok r := by cases r <;> rfl

theorem decoded_bind {α β : Type} (a : α) (f : α → Except EncReason β) : (Except.ok a >>= f) = f a := rfl
theorem decoded_pure {α : Type} (a : α) : (pure a : Except EncReason α) = .ok a := rfl

/-! ### The parts of a well-formed instruction -/

/-- Guard 7 with gn = 1 is the one reserved guard (R21), and no well-formed instruction has it. -/
theorem encodeParts_guard_ok {i : Instr} {p : Parts} (hw : i.wf = true) (he : encodeParts i = some p) : p.h.ok = true := by
  by_contra hg
  obtain ⟨op, u, ⟨idx, neg⟩, x⟩ := p
  obtain ⟨rfl, rfl⟩ : neg = true ∧ idx = 7#3 := by simpa [Guard.ok] using hg
  cases i <;> cases he <;> nomatch hw

/-- The major is assigned and no hint's, and the map permits the form (R38, R39). -/
structure Parts.Fits (p : Parts) : Prop where
  noHint : p.op ≠ 0x7F#7
  assigned : assignedMajor p.op = true
  permitted : permittedU p.op (p.x.extractLsb' 0 8) ≠ some (!p.u)

theorem encodeParts_fits {i : Instr} {p : Parts} (he : encodeParts i = some p) : p.Fits := by
  cases i <;> cases he <;> refine ⟨nofun, rfl, ?_⟩ <;> simp [permittedU, extractLsb'_append_low]

/-- The check of a register that `sets` may write (R373) is the decoder's, beside that of the instruction. -/
theorem decodeBody_sets {u : Bool} {h : Guard} {r : SReg} {b : BSel} (hb : b.ok true = true) (hr : r.writable = true) :
    decodeBody 0x70#7 u h (r.bits ++ 0#6 ++ b.bits) = .ok (.sets h r b) := by
  change decodeSets _ _ _ _ = _
  simp [decodeSets, extractLsb'_append_low, extractLsb'_append_high, decoded_bind, decoded_pure, hb, hr]

/-- Bits 19:0 of an instruction decode to it. A row of the decoder tests a function code, looks a code up, or answers at once: `change` lets the
row be found by computing with the major, where `simp` would try the rows one after the other. -/
theorem decodeBody_encodeParts {i : Instr} {p : Parts} (hw : i.wf = true) (he : encodeParts i = some p) :
    decodeBody p.op p.u p.h p.x = .ok i := by
  cases i
  case sets h r b =>
    cases he
    have hw : (h.ok && b.ok true && r.writable && _) = true := hw
    simp only [Bool.and_eq_true] at hw
    obtain ⟨⟨⟨-, hb⟩, hr⟩, -⟩ := hw
    exact decodeBody_sets hb hr
  all_goals clear hw; cases he
  all_goals
    first | change ite _ _ _ = _ | change Bind.bind _ _ = _ | change Except.ok _ = _
    simp only [extractLsb'_append_low, extractLsb'_append_high, append_and_eq_iff, getLsbD_append_ite, bit_getLsbD, shift_halves,
      Nat.reduceAdd, Nat.reduceLeDiff, Nat.reduceSub, Nat.reduceLT, BitVec.extractLsb'_eq_self, BitVec.reduceExtractLsb', BitVec.reduceAnd,
      BitVec.reduceEq, BitVec.and_zero, and_true, and_false, true_and, false_and, if_true, if_false, Ord.ofBits_bits, BSel.ofBits_bits,
      FCond.ofBits_bits, condOf_bits, scopeOf_bits, classOf_bits, gfnOf_bits, dxOf_bits, sregOf_bits, scalarOf_ftype_bits, scalarOf_itype_bits,
      decoded_bind, decoded_pure]

/-! ### What the decoder answers has a word -/

/-- Whatever `e` answers is an instruction with a word. -/
structure Answers (e : Except EncReason Instr) : Prop where
  encodes : ∀ i, e = .ok i → (encodeParts i).isSome = true

theorem Answers.ok {i : Instr} (h : (encodeParts i).isSome = true) : Answers (.ok i) :=
  ⟨fun _ e => Except.ok.inj e ▸ h⟩

theorem Answers.error {r : EncReason} : Answers (.error r) := ⟨fun _ h => nomatch h⟩

theorem Answers.ite {c : Prop} [Decidable c] {x y : Except EncReason Instr} (hx : Answers x) (hy : Answers y) :
    Answers (if c then x else y) := by
  split <;> assumption

theorem Answers.bind {α : Type} {e : Except EncReason α} {f : α → Except EncReason Instr} (hf : ∀ a, Answers (f a)) : Answers (e >>= f) := by
  cases e with
  | error r => exact Answers.error
  | ok a => exact hf a

theorem Answers.map {α : Type} {e : Except EncReason α} {f : α → Instr} (hf : ∀ a, (encodeParts (f a)).isSome = true) :
    Answers (do let a ← e; pure (f a)) :=
  .bind fun a => .ok (hf a)

theorem decodeConvert_answers (u : Bool) (h : Guard) (d a : Reg) (dt st : BitVec 4) : Answers (decodeConvert u h d a dt st) := by
  refine .bind fun t => .bind fun y => ?_
  cases t <;> cases y
  exacts [.ok rfl, .ok rfl, .ok rfl, .error]

theorem decodeSets_answers (h : Guard) (r z : BitVec 6) (b : BSel) : Answers (decodeSets h r z b) :=
  .ite .error (.bind fun _ => .ite (.ok rfl) .error)

theorem decodeBody_answers (op : BitVec 7) (u : Bool) (h : Guard) (bs : BitVec 20) : Answers (decodeBody op u h bs) := by
  unfold decodeBody
  split <;> apply_rules [decodeConvert_answers, decodeSets_answers, Answers.error, Answers.ite, Answers.map, Answers.ok, rfl]

theorem decodeHint_encodes {k : BitVec 3} {p : BitVec 22} {i : Instr} (h : decodeHint k p = .ok i) : (encode i).isSome = true := by
  unfold decodeHint at h
  split at h
  case h_1 => cases h; rfl
  case h_5 => cases h
  all_goals
    split at h
    · cases h; rfl
    · cases h

/-! ### Whole words -/

/-- R21: a word gives back the parts it is made of. -/
theorem Parts.word_fields (p : Parts) :
    p.word.extractLsb' 25 7 = p.op ∧ p.word.getLsbD 24 = p.u ∧ p.word.extractLsb' 21 3 = p.h.idx ∧ p.word.getLsbD 20 = p.h.neg ∧
      p.word.extractLsb' 0 20 = p.x ∧ p.word.extractLsb' 0 8 = p.x.extractLsb' 0 8 := by
  unfold Parts.word
  simp [extractLsb'_append_low, extractLsb'_append_high, getLsbD_append_ite, -BitVec.getLsbD_eq_getElem]

theorem decode_word {p : Parts} {i : Instr} (hf : p.Fits) (hg : p.h.ok = true) (hb : decodeBody p.op p.u p.h p.x = .ok i) (hw : i.wf = true) :
    decode p.word = .ok i := by
  obtain ⟨hop, hu, hidx, hneg, hx, hfn⟩ := p.word_fields
  obtain ⟨noHint, assigned, permitted⟩ := hf
  have body : (do let i ← decodeBody p.op p.u p.h p.x; if i.wf then pure i else .error .field) = Except.ok i := by
    rw [hb, decoded_bind, if_pos hw, decoded_pure]
  simp only [decode, hop, hu, hidx, hneg, hx, hfn, if_neg noHint, assigned, Bool.true_eq_false, if_false]
  split
  next hp hp' => exact absurd (hp'.symm ▸ hp) permitted
  next hp hp' => exact absurd (hp'.symm ▸ hp) permitted
  all_goals simp only [hg, Bool.true_eq_false, if_false, body]

theorem decodeMod_encodeMod (m : ModFields) : decodeMod (encodeMod m) = m := by
  simp [decodeMod, encodeMod, extractLsb'_append_low, extractLsb'_append_high, getLsbD_append_ite, -BitVec.getLsbD_eq_getElem]

theorem encodeMod_low (m : ModFields) : (encodeMod m).extractLsb' 0 8 = 0#8 := by
  simp [encodeMod, extractLsb'_append_low]

theorem decodeHint_encodeHint {i : Instr} {x : BitVec 25} (h : encodeHint i = some x) :
    decodeHint (x.extractLsb' 22 3) (x.extractLsb' 0 22) = .ok i := by
  unfold encodeHint at h
  split at h <;> cases h
  case h_1 p =>
    rw [extractLsb'_append_high (by decide), extractLsb'_append_low (by decide)]
    simp [decodeHint]
  case h_2 r y k =>
    simp [decodeHint, extractLsb'_append_low, extractLsb'_append_high, getLsbD_append_ite, BitVec.extractLsb'_extractLsb'_of_le,
      -BitVec.getLsbD_eq_getElem]
  case h_3 m =>
    simp [decodeHint, extractLsb'_append_low, extractLsb'_append_high, decodeMod_encodeMod, encodeMod_low]
  case h_4 k d a =>
    simp [decodeHint, extractLsb'_append_low, extractLsb'_append_high, getLsbD_append_ite, -BitVec.getLsbD_eq_getElem]

/-- R31: a hint's word decodes by its kind and payload. -/
theorem decode_hint (x : BitVec 25) :
    decode (0x7F#7 ++ x) = (do
      let i ← decodeHint (x.extractLsb' 22 3) (x.extractLsb' 0 22)
      if i.wf then pure i else .error .field) := by
  simp [decode, extractLsb'_append_low, extractLsb'_append_high]

theorem decode_encode {i : Instr} {w : Word} (hw : i.wf = true) (he : encode i = some w) : decode w = .ok i := by
  unfold encode at he
  split at he
  next p hp =>
    cases he
    exact decode_word (encodeParts_fits hp) (encodeParts_guard_ok hw hp) (decodeBody_encodeParts hw hp) hw
  next =>
    obtain ⟨x, hx, rfl⟩ := Option.map_eq_some_iff.1 he
    rw [decode_hint, decodeHint_encodeHint hx, decoded_bind, if_pos hw, decoded_pure]

/-- What passes the decoder's last check is well-formed. -/
theorem of_checked {e : Except EncReason Instr} {i : Instr}
    (h : (do let i ← e; if i.wf then pure i else .error .field) = Except.ok i) : e = .ok i ∧ i.wf = true := by
  cases e with
  | error r => cases h
  | ok j =>
    rw [decoded_bind] at h
    split at h
    next hw => cases h; exact ⟨rfl, hw⟩
    next => cases h

theorem encode_isSome_of_parts {i : Instr} (h : (encodeParts i).isSome = true) : (encode i).isSome = true := by
  obtain ⟨p, hp⟩ := Option.isSome_iff_exists.1 h
  simp [encode, hp]

/-- Whatever a word decodes to is well-formed (R40) and has a word. -/
theorem wf_and_encodes_of_decode {w : Word} {i : Instr} (h : decode w = .ok i) : i.wf = true ∧ (encode i).isSome = true := by
  simp only [decode] at h
  split at h
  next => exact ⟨(of_checked h).2, decodeHint_encodes (of_checked h).1⟩
  next =>
    split at h
    · cases h
    · split at h
      next => cases h
      next => cases h
      all_goals
        split at h
        · cases h
        · exact ⟨(of_checked h).2, encode_isSome_of_parts ((decodeBody_answers ..).encodes _ (of_checked h).1)⟩

/-- Settles O57: `decode_encode` is the one direction, and what the decoder answers is well-formed and has a word, to which that applies again. -/
theorem encodeDecodeRoundTrip : Obligations.EncodeDecodeRoundTrip := by
  refine ⟨fun i w => decode_encode, fun w i h => ?_⟩
  obtain ⟨hw, he⟩ := wf_and_encodes_of_decode h
  obtain ⟨v, hv⟩ := Option.isSome_iff_exists.1 he
  exact ⟨hw, v, hv, decode_encode hw hv⟩

/-- Settles O60: the decoder computes each word's answer. -/
theorem decodeWords : Obligations.DecodeWords := by
  unfold Obligations.DecodeWords
  and_intros <;> rfl

end Sys2Proof
end

section
/-! Predicates (R26, R98, R100), loops (R106, R108) and hints (R31 to R36, R41). -/

namespace Sys2Proof.Machine

/-! ### Predicates -/

/-- An instruction that completes by `setPreds` decides its predicate for each lane (R89). -/
theorem decides_of_setPreds {i : Instr} {s : State} {u : Bool} {h : Guard} {p : BitVec 3} {f : Lane → Bool} {P : Lane → Prop} (lat : Nat)
    (hp : p ≠ 7#3) (he : exec i s = .next (s.setPreds u h p lat f)) (hf : ∀ l, f l = true ↔ P l) : Decides i s u h p P :=
  ⟨_, he, s.setPreds_wrote u h p lat f hp, fun l hl => by rw [s.setPreds_grp_rp u h p lat f hp hl, hf]⟩

/-- R26: predicate 7 reads as true. -/
theorem Group.rp_iff (g : Group) (l : Lane) (i : BitVec 3) : g.rp l i = true ↔ i = 7#3 ∨ (match l with
    | none => g.q.getLsbD i.toNat = true
    | some t => (mapGet 0#32 g.p i.toNat).getLsbD t = true) := by
  cases l <;> simp [Group.rp, Group.getQ, Group.getP]

/-- An instruction that completes by `alu` computes the value of each lane. -/
theorem computes_of_alu {i : Instr} {s : State} {u : Bool} {h : Guard} {d : Reg} {f : Lane → Word} {v : Lane → Int} (lat : Nat)
    (he : exec i s = .next (s.alu u h d lat f)) (hf : ∀ l, f l = BitVec.ofInt 32 (v l)) : Computes i s u h d v :=
  ⟨_, he, s.alu_wrote u h d lat f, fun l hl => by rw [s.alu_grp_rd u h d lat f hl, hf]⟩

/-- Settles O10: `sel` completes by `alu` under the guard that is always true, the logic by `setPreds`. -/
theorem predicateLogic : Obligations.PredicateLogic := by
  unfold Obligations.PredicateLogic
  refine ⟨fun s u p n d a b => ?_, fun s u h d a b hd => ?_⟩
  · refine computes_of_alu 4 rfl fun l => ?_
    cases hr : s.grp.rp l p <;> cases n <;> simp
  · have negated (x : Bool) : (!x) = true ↔ ¬x = true := by cases x <;> simp
    have reads := s.grp.rp_iff
    exact ⟨decides_of_setPreds 4 hd rfl fun l => Bool.and_eq_true_iff.trans (and_congr (reads l a) (reads l b)),
      decides_of_setPreds 4 hd rfl fun l => Bool.or_eq_true_iff.trans (or_congr (reads l a) (reads l b)),
      decides_of_setPreds 4 hd rfl fun l => bne_iff_ne.trans (not_congr (Bool.eq_iff_iff.trans (iff_congr (reads l a) (reads l b)))),
      decides_of_setPreds 4 hd rfl fun l => (negated _).trans (not_congr (reads l a))⟩

/-! ### Loops -/

/-- R33: under a WIDE hint its payload stands above the 14 bits of the length. -/
theorem Group.bodyLength_eq (g : Group) (l : BitVec 14) : g.bodyLength l = match g.wide with
    | some p => p.toNat * 2 ^ 14 + l.toNat
    | none => l.toNat := by
  unfold Group.bodyLength
  cases g.wide with
  | none => rfl
  | some p =>
    show (p ++ l : BitVec 36).toNat = _
    rw [BitVec.toNat_append, ← Nat.shiftLeft_add_eq_or_of_lt l.isLt, Nat.shiftLeft_eq]

theorem exec_loop_off {s : State} {h : Guard} (c : Reg) (l : BitVec 14) (hq : s.grp.guardQ h = false) : Passes (.loop h c l) s := by
  show execLoop h c l s = _
  simp [execLoop, hq, State.finish]

theorem exec_brk_off {s : State} {h : Guard} (hq : s.grp.guardQ h = false) : Passes (.brk h) s := by
  show execBrk h s = _
  simp [execBrk, hq, State.finish]

theorem exec_loop_skips {s : State} {h : Guard} {c : Reg} (l : BitVec 14) (hq : s.grp.guardQ h = true) (hc : s.grp.getG c = 0#32) :
    exec (.loop h c l) s = .next (s.setGrp (s.grp.goto (s.grp.pc + 4 + BitVec.ofNat 56 (4 * s.grp.bodyLength l)))) := by
  show execLoop h c l s = _
  simp [execLoop, hq, hc]

theorem exec_loop_enters {s : State} {h : Guard} {c : Reg} (l : BitVec 14) (hq : s.grp.guardQ h = true) (hc : s.grp.getG c ≠ 0#32)
    (hn : s.grp.n < 4) : exec (.loop h c l) s = .next (s.setGrp
      ({ s.grp.setLoop s.grp.n ⟨s.grp.pc + 4, s.grp.pc + 4 + BitVec.ofNat 56 (4 * s.grp.bodyLength l), s.grp.getG c⟩ with
        n := s.grp.n + 1 }.goto (s.grp.pc + 4))) := by
  show execLoop h c l s = _
  simp [execLoop, hq, hc, Nat.not_le.2 hn]

theorem exec_loop_traps {s : State} {h : Guard} {c : Reg} (l : BitVec 14) (hq : s.grp.guardQ h = true) (hc : s.grp.getG c ≠ 0#32)
    (hn : 4 ≤ s.grp.n) : exec (.loop h c l) s = .next (s.trap (syncTrap s.grp.running 0 4 0#64)) := by
  show execLoop h c l s = _
  simp [execLoop, hq, hc, hn]

theorem exec_brk_traps {s : State} {h : Guard} (hq : s.grp.guardQ h = true) (hn : s.grp.n = 0) :
    exec (.brk h) s = .next (s.trap (syncTrap s.grp.running 1 0 0#64)) := by
  show execBrk h s = _
  simp [execBrk, hq, hn]

/-- `brk` completes as the last word of the innermost body would, with that loop gone (R107, R108). -/
theorem exec_brk_leaves {s : State} {h : Guard} (hq : s.grp.guardQ h = true) (hn : s.grp.n ≠ 0) :
    exec (.brk h) s = .next (s.setGrp { s.grp with n := s.grp.n - 1, pc := (s.grp.loop (s.grp.n - 1)).le - 4 }.complete) := by
  show execBrk h s = _
  simp [execBrk, hq, hn, Group.complete, Group.goto]

/-- Settles O21: one equation for each branch of `loop` and of `brk`. -/
theorem loopInstruction : Obligations.LoopInstruction := by
  unfold Obligations.LoopInstruction
  intro s h c l words start stop
  have hw : words = s.grp.bodyLength l := (s.grp.bodyLength_eq l).symm
  have hs : stop = s.grp.pc + 4 + BitVec.ofNat 56 (4 * s.grp.bodyLength l) := by simp only [stop, hw]
  rw [hs]
  exact ⟨exec_loop_off c l, exec_loop_skips l, exec_loop_enters l, exec_loop_traps l, exec_brk_off, exec_brk_traps, exec_brk_leaves⟩

/-! ### Hints -/

theorem State.hintIssue_of_pair {s : State} {i : Instr} {w : Word} (stall : Nat) (skip : Bool) (hw : encode i = some w)
    (hp : s.pairTrap w = none) : s.hintIssue i stall skip = s.setGrp { s.grp with
      hint := some ⟨s.grp.pc, w, i⟩, pc := s.grp.pc + 4, stall := stall, skip := s.grp.skip || skip } := by
  simp [State.hintIssue, hw, hp]

theorem State.hintIssue_of_trap {s : State} {i : Instr} {w : Word} {x : Trap} (stall : Nat) (skip : Bool) (hw : encode i = some w)
    (hp : s.pairTrap w = some x) : s.hintIssue i stall skip = s.trapAtPc x s.grp.pc := by
  simp [State.hintIssue, hw, hp]

/-- Settles O34: each hint issues by `hintIssue`, which asks `pairTrap` of the hint's own word. -/
theorem hintsBind : Obligations.HintsBind := by
  unfold Obligations.HintsBind
  intro s p r y n m k dl al binds
  have bound {i : Instr} {stall : Nat} {skip : Bool} (he : exec i s = .next (s.hintIssue i stall skip)) : binds i stall skip :=
    fun w hw => ⟨fun hp => by rw [he, State.hintIssue_of_pair stall skip hw hp], fun x hp => by rw [he, State.hintIssue_of_trap stall skip hw hp]⟩
  exact ⟨bound rfl, bound rfl, bound rfl, bound rfl⟩

end Sys2Proof.Machine
end

section
/-! Exact values as rational numbers, and rounding to a grid of powers of two (R82, R83). -/

namespace Sys2Proof.Machine

/-! ### Exact values -/

/-- The magnitude of an exact value. -/
def Exact.mag (x : Exact) : ℚ := x.n / x.d

theorem Exact.val_eq (x : Exact) : x.val = if x.s then -x.mag else x.mag := by
  unfold Exact.val Exact.num Exact.mag
  split <;> push_cast <;> ring

theorem Exact.mag_nonneg (x : Exact) : 0 ≤ x.mag := by
  unfold Exact.mag
  positivity

@[simp] theorem Exact.abs_val (x : Exact) : |x.val| = x.mag := by
  rw [x.val_eq]
  split
  · rw [abs_neg, abs_of_nonneg x.mag_nonneg]
  · rw [abs_of_nonneg x.mag_nonneg]

theorem Exact.eqv_iff {x y : Exact} (hx : 0 < x.d) (hy : 0 < y.d) : x.eqv y = true ↔ x.val = y.val := by
  have hx' : (x.d : ℚ) ≠ 0 := by positivity
  have hy' : (y.d : ℚ) ≠ 0 := by positivity
  unfold Exact.eqv Exact.val
  rw [decide_eq_true_iff, div_eq_div_iff hx' hy']
  norm_cast

theorem Exact.lt_iff {x y : Exact} (hx : 0 < x.d) (hy : 0 < y.d) : x.lt y = true ↔ x.val < y.val := by
  have hx' : (0 : ℚ) < x.d := by positivity
  have hy' : (0 : ℚ) < y.d := by positivity
  unfold Exact.lt Exact.val
  rw [decide_eq_true_iff, div_lt_div_iff₀ hx' hy']
  norm_cast

@[simp] theorem Exact.dyadic_s (s : Bool) (n : Nat) (e : Int) : (Exact.dyadic s n e).s = s := by
  unfold Exact.dyadic
  split <;> rfl

theorem Exact.dyadic_d_pos (s : Bool) (n : Nat) (e : Int) : 0 < (Exact.dyadic s n e).d := by
  unfold Exact.dyadic
  split <;> simp

@[simp] theorem Exact.dyadic_mag (s : Bool) (n : Nat) (e : Int) : (Exact.dyadic s n e).mag = n * 2 ^ e := by
  unfold Exact.dyadic Exact.mag
  split
  next h =>
    obtain ⟨k, rfl⟩ := Int.eq_ofNat_of_zero_le h
    simp
  next h =>
    obtain ⟨k, hk⟩ := Int.eq_ofNat_of_zero_le (show 0 ≤ -e by omega)
    obtain rfl : e = -k := by omega
    simp [div_eq_mul_inv]

theorem Exact.ofInt_val (i : Int) : (Exact.ofInt i).val = i := by
  have h : (Exact.ofInt i).num = i := by
    simp only [Exact.ofInt, Exact.num, decide_eq_true_eq]
    split <;> omega
  rw [Exact.val, h]
  simp [Exact.ofInt]

/-! ### Rounding a magnitude to an integer -/

/-- The greatest integer up to X. -/
def RoundsDown (X : ℚ) (k : Nat) : Prop := (k : ℚ) ≤ X ∧ X < k + 1

/-- The least integer from X on. -/
def RoundsUp (X : ℚ) (k : Nat) : Prop := (k : ℚ) - 1 < X ∧ X ≤ k

/-- The nearest integer, of two equally near the even one. -/
def RoundsNear (X : ℚ) (k : Nat) : Prop := |X - k| ≤ 1 / 2 ∧ (|X - k| = 1 / 2 → k % 2 = 0)

/-- k is the integer to which the mode rounds the magnitude X of a value with the sign s (R83). -/
def RoundsTo (m : RMode) (s : Bool) (X : ℚ) (k : Nat) : Prop :=
  match m with
  | .rn => RoundsNear X k
  | .rz => RoundsDown X k
  | .rdn => if s then RoundsUp X k else RoundsDown X k
  | .rup => if s then RoundsDown X k else RoundsUp X k

/-- Whatever the mode, the integer is less than 1 away. -/
theorem RoundsTo.near {m : RMode} {s : Bool} {X : ℚ} {k : Nat} (h : RoundsTo m s X k) : (k : ℚ) < X + 1 ∧ X < k + 1 := by
  have down : RoundsDown X k → (k : ℚ) < X + 1 ∧ X < k + 1 := fun ⟨h1, h2⟩ => ⟨by linarith, h2⟩
  have up : RoundsUp X k → (k : ℚ) < X + 1 ∧ X < k + 1 := fun ⟨h1, h2⟩ => ⟨by linarith, by linarith⟩
  cases m with
  | rn =>
    obtain ⟨h1, h2⟩ := abs_le.1 h.1
    exact ⟨by linarith, by linarith⟩
  | rz => exact down h
  | rdn =>
    cases s
    · exact down h
    · exact up h
  | rup =>
    cases s
    · exact up h
    · exact down h

/-- Rounding stays below a whole bound. -/
theorem RoundsTo.le_of_le {m : RMode} {s : Bool} {X : ℚ} {k j : Nat} (h : RoundsTo m s X k) (hX : X ≤ j) : k ≤ j := by
  have : (k : ℚ) < (j + 1 : Nat) := by
    push_cast
    linarith [h.near.1]
  exact Nat.lt_succ_iff.1 (by exact_mod_cast this)

/-- Rounding stays above a whole bound. -/
theorem RoundsTo.ge_of_ge {m : RMode} {s : Bool} {X : ℚ} {k j : Nat} (h : RoundsTo m s X k) (hX : j ≤ X) : j ≤ k := by
  have : (j : ℚ) < (k + 1 : Nat) := by
    push_cast
    linarith [h.near.2]
  exact Nat.lt_succ_iff.1 (by exact_mod_cast this)

/-- A whole magnitude is rounded to itself. -/
theorem RoundsTo.eq_of_nat {m : RMode} {s : Bool} {j k : Nat} (h : RoundsTo m s j k) : k = j :=
  le_antisymm (h.le_of_le le_rfl) (h.ge_of_ge le_rfl)

/-- A quotient is its whole part and a fraction of the divisor. -/
theorem div_eq_whole_add_part (n : Nat) {d : Nat} (hd : 0 < d) :
    (n / d : ℚ) = (n / d : Nat) + (n % d : Nat) / (d : ℚ) := by
  have hd' : (d : ℚ) ≠ 0 := by positivity
  rw [div_eq_iff hd', add_mul, div_mul_cancel₀ _ hd', mul_comm]
  exact_mod_cast (Nat.div_add_mod n d).symm

theorem roundNat_roundsTo (m : RMode) (s : Bool) (n : Nat) {d : Nat} (hd : 0 < d) : RoundsTo m s (n / d) (roundNat m s n d) := by
  have hd' : (0 : ℚ) < d := by exact_mod_cast hd
  have hr : n % d < d := Nat.mod_lt n hd
  rw [div_eq_whole_add_part n hd]
  unfold roundNat
  generalize n / d = q
  generalize n % d = r at hr ⊢
  have hlt : (r / d : ℚ) < 1 := by
    rw [div_lt_one hd']
    exact_mod_cast hr
  have hzero : (r / d : ℚ) = 0 ↔ r = 0 := by
    rw [div_eq_zero_iff]
    simp [hd'.ne']
  have hhalf : d < 2 * r ↔ (1 / 2 : ℚ) < r / d := by
    rw [div_lt_div_iff₀ two_pos hd', one_mul, mul_comm]
    norm_cast
  have htie : 2 * r = d ↔ (r / d : ℚ) = 1 / 2 := by
    rw [div_eq_div_iff hd'.ne' two_ne_zero, one_mul, mul_comm]
    norm_cast
  have hnonneg : (0 : ℚ) ≤ r / d := by positivity
  generalize (r / d : ℚ) = p at *
  have down : RoundsDown (q + p) q := ⟨by linarith, by linarith⟩
  have up : RoundsUp (q + p) (if r ≠ 0 then q + 1 else q) := by
    split
    next h =>
      have : 0 < p := lt_of_le_of_ne hnonneg fun e => h (hzero.1 e.symm)
      constructor <;> push_cast <;> linarith
    next h =>
      rw [hzero.2 (not_not.1 h)]
      constructor <;> linarith
  cases m with
  | rn =>
    dsimp only
    split
    next h =>
      rw [hhalf, htie] at h
      have hp : 1 / 2 ≤ p := h.elim le_of_lt fun h => h.1.ge
      have e : |(q : ℚ) + p - (q + 1 : Nat)| = 1 - p := by
        push_cast
        rw [abs_of_nonpos] <;> linarith
      refine ⟨by rw [e]; linarith, fun ht => ?_⟩
      rw [e] at ht
      rcases h with h | ⟨-, h⟩
      · linarith
      · omega
    next h =>
      rw [hhalf, htie] at h
      obtain ⟨h1, h2⟩ := not_or.1 h
      have e : |(q : ℚ) + p - (q : Nat)| = p := by
        rw [abs_of_nonneg] <;> linarith
      refine ⟨by rw [e]; linarith, fun ht => ?_⟩
      rw [e] at ht
      have : ¬q % 2 = 1 := fun k => h2 ⟨ht, k⟩
      omega
  | rz => exact down
  | rdn =>
    cases s
    · simpa [RoundsTo] using down
    · simpa [RoundsTo] using up
  | rup =>
    cases s
    · simpa [RoundsTo] using up
    · simpa [RoundsTo] using down

theorem roundsTo_zero (m : RMode) (s : Bool) : RoundsTo m s 0 0 := by
  cases m <;> cases s <;> norm_num [RoundsTo, RoundsNear, RoundsDown, RoundsUp]

/-! ### The grid of a value -/

theorem log2Ratio_spec {n d : Nat} (hn : 0 < n) (hd : 0 < d) :
    (2 : ℚ) ^ log2Ratio n d ≤ n / d ∧ (n / d : ℚ) < 2 ^ (log2Ratio n d + 1) := by
  have hd' : (0 : ℚ) < d := by exact_mod_cast hd
  have n1 : (2 : ℚ) ^ (n.log2 : Int) ≤ n := by exact_mod_cast Nat.log2_self_le hn.ne'
  have n2 : (n : ℚ) < 2 ^ ((n.log2 : Int) + 1) := by exact_mod_cast Nat.lt_log2_self
  have d1 : (2 : ℚ) ^ (d.log2 : Int) ≤ d := by exact_mod_cast Nat.log2_self_le hd.ne'
  have d2 : (d : ℚ) < 2 ^ ((d.log2 : Int) + 1) := by exact_mod_cast Nat.lt_log2_self
  unfold log2Ratio
  dsimp only
  generalize hl : (n.log2 : Int) - (d.log2 : Int) = l
  have low : (2 : ℚ) ^ (l - 1) < n / d := by
    rw [lt_div_iff₀ hd']
    calc (2 : ℚ) ^ (l - 1) * d < 2 ^ (l - 1) * 2 ^ ((d.log2 : Int) + 1) := by gcongr
      _ = 2 ^ (n.log2 : Int) := by rw [← zpow_add₀ two_ne_zero]; congr 1; omega
      _ ≤ n := n1
  have high : (n / d : ℚ) < 2 ^ (l + 1) := by
    rw [div_lt_iff₀ hd']
    calc (n : ℚ) < 2 ^ ((n.log2 : Int) + 1) := n2
      _ = 2 ^ (l + 1) * 2 ^ (d.log2 : Int) := by rw [← zpow_add₀ two_ne_zero]; congr 1; omega
      _ ≤ 2 ^ (l + 1) * d := by gcongr
  have below : (if 0 ≤ l then decide (n < d * 2 ^ l.toNat) else decide (n * 2 ^ (-l).toNat < d)) = true ↔ (n / d : ℚ) < 2 ^ l := by
    rw [div_lt_iff₀ hd']
    split
    next h =>
      obtain ⟨k, rfl⟩ := Int.eq_ofNat_of_zero_le h
      rw [decide_eq_true_iff, mul_comm]
      norm_cast
    next h =>
      obtain ⟨k, hk⟩ := Int.eq_ofNat_of_zero_le (show 0 ≤ -l by omega)
      obtain rfl : l = -k := by omega
      rw [decide_eq_true_iff, zpow_neg, zpow_natCast, inv_mul_eq_div, lt_div_iff₀ (by positivity)]
      norm_cast
      simp
  generalize (if 0 ≤ l then decide (n < d * 2 ^ l.toNat) else decide (n * 2 ^ (-l).toNat < d)) = b at below
  cases b
  · exact ⟨not_lt.1 fun h => Bool.false_ne_true (below.2 h), high⟩
  · exact ⟨low.le, by simpa using below.1 rfl⟩

/-- The rounded magnitude y = k * 2^q of x: its grid is that of the binade of x, or the grid 2^(emin - mw) of the subnormal numbers (R83). -/
structure RoundedOnGrid (mw : Nat) (emin : Int) (m : RMode) (x : Exact) (y : Rounded) : Prop where
  low : emin - mw ≤ y.q
  rounds : RoundsTo m x.s (x.mag / 2 ^ y.q) y.k
  below : x.mag / 2 ^ y.q < 2 ^ (mw + 1)
  above : y.q = emin - mw ∨ 2 ^ mw ≤ x.mag / 2 ^ y.q

theorem scaled_div (n d : Nat) (q : Int) : (n / d : ℚ) / 2 ^ q =
    if 0 ≤ q then (n : ℚ) / (d * 2 ^ q.toNat : Nat) else ((n * 2 ^ (-q).toNat : Nat) : ℚ) / d := by
  split
  next h =>
    obtain ⟨k, rfl⟩ := Int.eq_ofNat_of_zero_le h
    simp [div_div]
  next h =>
    obtain ⟨k, hk⟩ := Int.eq_ofNat_of_zero_le (show 0 ≤ -q by omega)
    obtain rfl : q = -k := by omega
    simp [div_eq_mul_inv, mul_right_comm]

theorem roundFloat_onGrid (mw : Nat) (emin : Int) (m : RMode) {x : Exact} (hx : 0 < x.d) :
    RoundedOnGrid mw emin m x (roundFloat mw emin m x) := by
  unfold roundFloat
  split
  next h =>
    have h0 : x.mag = 0 := by simp [Exact.mag, h]
    refine ⟨le_rfl, ?_, ?_, .inl rfl⟩
    · rw [h0, zero_div]
      exact roundsTo_zero m x.s
    · rw [h0, zero_div]
      positivity
  next h =>
    obtain ⟨e1, e2⟩ := log2Ratio_spec (Nat.pos_of_ne_zero h) hx
    dsimp only
    generalize log2Ratio x.n x.d = e at *
    generalize hq : (if e < emin then emin else e) - (mw : Int) = q
    have hmag : x.mag = x.n / x.d := rfl
    refine ⟨?_, ?_, ?_, ?_⟩ 
    · show _ ≤ q
      omega
    · show RoundsTo m x.s (x.mag / 2 ^ q) _
      rw [hmag, scaled_div]
      split
      · exact roundNat_roundsTo m x.s _ (by positivity)
      · exact roundNat_roundsTo m x.s _ hx
    · show x.mag / 2 ^ q < _
      rw [div_lt_iff₀ (by positivity), ← zpow_natCast, ← zpow_add₀ two_ne_zero]
      exact e2.trans_le (zpow_le_zpow_right₀ one_le_two (by push_cast; omega))
    · show q = _ ∨ _ ≤ x.mag / 2 ^ q
      by_cases he : e < emin
      · exact .inl (by omega)
      · right
        rw [le_div_iff₀ (by positivity), ← zpow_natCast, ← zpow_add₀ two_ne_zero]
        exact le_trans (zpow_le_zpow_right₀ one_le_two (by omega)) e1

end Sys2Proof.Machine
end

section
/-! The values of a floating format, and the code of a rounded value (R79, R80, R83, R87). -/

namespace Sys2Proof.Machine

/-! ### The best integer -/

/-- A magnitude of a format beside X, both measured by the spacing at X: a whole number, or one below the binade in which X lies. -/
def Representable (mw : Nat) (X z : ℚ) : Prop := (∃ j : Nat, z = j) ∨ (z < 2 ^ mw ∧ 2 ^ mw ≤ X)

/-- Nothing representable lies between X and the integer below it. -/
theorem RoundsDown.best {mw k : Nat} {X z : ℚ} (h : RoundsDown X k) (hz : Representable mw X z) (hle : z ≤ X) : z ≤ k := by
  have h' : RoundsTo .rz false X k := h
  rcases hz with ⟨j, rfl⟩ | ⟨h1, h2⟩
  · exact_mod_cast h'.ge_of_ge hle
  · exact h1.le.trans (by exact_mod_cast h'.ge_of_ge (j := 2 ^ mw) (by exact_mod_cast h2))

/-- Nothing representable lies between X and the integer above it. -/
theorem RoundsUp.best {mw k : Nat} {X z : ℚ} (h : RoundsUp X k) (hz : Representable mw X z) (hle : X ≤ z) : k ≤ z := by
  have h' : RoundsTo .rup false X k := h
  rcases hz with ⟨j, rfl⟩ | ⟨h1, h2⟩
  · exact_mod_cast h'.le_of_le hle
  · linarith

/-- No integer is nearer than the nearest, and one as near makes a tie. -/
theorem RoundsNear.best_int {k : Nat} {X : ℚ} (h : RoundsNear X k) (i : Int) :
    |X - k| ≤ |X - i| ∧ (|X - k| = |X - i| → (i : ℚ) = k ∨ k % 2 = 0) := by
  by_cases hi : i = k
  · subst hi
    simp
  · have far : (1 : ℚ) ≤ |(i : ℚ) - k| := by exact_mod_cast Int.one_le_abs (sub_ne_zero.2 hi)
    have := abs_sub_le (i : ℚ) X k
    rw [abs_sub_comm (i : ℚ) X] at this
    exact ⟨by linarith [h.1], fun e => .inr (h.2 (le_antisymm h.1 (by linarith)))⟩

/-- Nothing representable, of either sign, is nearer to X than the nearest integer. -/
theorem RoundsNear.best {mw k : Nat} {X z : ℚ} (h : RoundsNear X k) (hz : Representable mw X |z|) :
    |X - k| ≤ |X - z| ∧ (|X - k| = |X - z| → z = k ∨ k % 2 = 0) := by
  rcases hz with ⟨j, hj⟩ | ⟨h1, h2⟩
  · rcases abs_choice z with e | e
    · rw [← e, hj]
      exact_mod_cast h.best_int j
    · have := h.best_int (-j)
      obtain rfl : z = -j := by linarith
      exact_mod_cast this
  · have nearer := (h.best_int (2 ^ mw)).1
    push_cast at nearer
    have : |X - 2 ^ mw| < |X - z| := by
      rw [abs_of_nonneg (sub_nonneg.2 h2)]
      exact lt_of_lt_of_le (by linarith [le_abs_self z]) (le_abs_self _)
    exact ⟨by linarith, fun e => by linarith⟩

/-! ### Codes -/

section
variable (f : Layout) (s : Bool) {E F : Nat} (hE : E < 2 ^ f.ew) (hF : F < 2 ^ f.mw)
include hE hF

/-- The code of a sign, an exponent field and a fraction field. -/
theorem Layout.value_code : f.value (f.signBit s + E * 2 ^ f.mw + F) =
    if E = 2 ^ f.ew - 1 ∧ f.hasInf then (if F = 0 then .inf s else .nan)
    else if ¬f.hasInf ∧ E = 2 ^ f.ew - 1 ∧ F = 2 ^ f.mw - 1 then .nan
    else if E = 0 then .fin (Exact.dyadic s F (1 - (f.bias : Int) - f.mw))
    else .fin (Exact.dyadic s (2 ^ f.mw + F) ((E : Int) - f.bias - f.mw)) := by
  have hc : f.signBit s + E * 2 ^ f.mw + F = (s.toNat * 2 ^ f.ew + E) * 2 ^ f.mw + F := by
    cases s <;> simp [Layout.signBit, pow_add, add_mul]
  have frac : (f.signBit s + E * 2 ^ f.mw + F) % 2 ^ f.mw = F := by
    rw [hc, Nat.mul_add_mod_self_right, Nat.mod_eq_of_lt hF]
  have top : (f.signBit s + E * 2 ^ f.mw + F) / 2 ^ f.mw = s.toNat * 2 ^ f.ew + E := by
    rw [hc, mul_comm, Nat.mul_add_div (by positivity), Nat.div_eq_of_lt hF, add_zero]
  have exp : (f.signBit s + E * 2 ^ f.mw + F) / 2 ^ f.mw % 2 ^ f.ew = E := by
    rw [top, Nat.mul_add_mod_self_right, Nat.mod_eq_of_lt hE]
  have sign : decide ((f.signBit s + E * 2 ^ f.mw + F) / 2 ^ (f.ew + f.mw) % 2 = 1) = s := by
    rw [add_comm f.ew, pow_add, ← Nat.div_div_eq_div_mul, top, mul_comm, Nat.mul_add_div (by positivity), Nat.div_eq_of_lt hE]
    cases s <;> rfl
  unfold Layout.value
  simp only [frac, exp, sign]

end

/-- The finite values of a format are multiples of its spacings by at most mw + 1 bits. -/
theorem Layout.value_grid {f : Layout} {c : Nat} {z : Exact} (h : f.value c = .fin z) :
    ∃ (j : Nat) (q : Int), j < 2 ^ (f.mw + 1) ∧ f.emin - f.mw ≤ q ∧ z.mag = j * 2 ^ q := by
  have hm : c % 2 ^ f.mw < 2 ^ f.mw := Nat.mod_lt _ (by positivity)
  have hp : 2 ^ (f.mw + 1) = 2 ^ f.mw + 2 ^ f.mw := by ring
  unfold Layout.value at h
  dsimp only at h
  split at h
  · split at h <;> cases h
  · split at h
    · cases h
    · split at h
      · cases h
        exact ⟨_, _, by omega, le_rfl, Exact.dyadic_mag _ _ _⟩
      next he =>
        cases h
        exact ⟨_, _, by omega, by unfold Layout.emin; omega, Exact.dyadic_mag _ _ _⟩

/-- Powers of two are rearranged: a factor 2 from the significand to the exponent. -/
theorem two_pow_succ_mul_zpow (n : Nat) (q : Int) : (2 : ℚ) ^ (n + 1) * 2 ^ q = 2 ^ n * 2 ^ (q + 1) := by
  rw [zpow_add_one₀ two_ne_zero, pow_succ]
  ring

/-- A significand of n + 1 bits, measured by the spacing of a higher binade, is below that binade. -/
theorem significand_mul_zpow_lt {n j : Nat} {e : Int} (hj : j < 2 ^ (n + 1)) (he : e < 0) : (j : ℚ) * 2 ^ e < 2 ^ n := by
  have hj' : (j : ℚ) < 2 ^ (n + 1) := by exact_mod_cast hj
  calc (j : ℚ) * 2 ^ e ≤ j * 2 ^ (-1 : Int) := by gcongr <;> [norm_num; omega]
    _ < 2 ^ (n + 1) * 2 ^ (-1 : Int) := by gcongr
    _ = 2 ^ n := by rw [two_pow_succ_mul_zpow, neg_add_cancel, zpow_zero, mul_one]

/-- Every value of the format may be measured by the spacing at x. -/
theorem RoundedOnGrid.representable {f : Layout} {m : RMode} {x z : Exact} {y : Rounded} {c : Nat}
    (hg : RoundedOnGrid f.mw f.emin m x y) (h : f.value c = .fin z) : Representable f.mw (x.mag / 2 ^ y.q) (z.mag / 2 ^ y.q) := by
  obtain ⟨j, q, hj, hq, hz⟩ := Layout.value_grid h
  have e : z.mag / 2 ^ y.q = j * 2 ^ (q - y.q) := by rw [hz, zpow_sub₀ two_ne_zero, mul_div_assoc]
  rcases le_or_gt y.q q with hle | hlt
  · obtain ⟨n, hn⟩ := Int.eq_ofNat_of_zero_le (sub_nonneg.2 hle)
    refine .inl ⟨j * 2 ^ n, ?_⟩
    rw [e, hn]
    push_cast
    rfl
  · exact .inr ⟨e ▸ significand_mul_zpow_lt hj (by omega), hg.above.resolve_left (by omega)⟩

/-! ### The best value -/

/-- The sign of a value as a factor. -/
def signOf (s : Bool) : ℚ := if s then -1 else 1

theorem Exact.val_eq_signOf (x : Exact) : x.val = signOf x.s * x.mag := by
  rw [x.val_eq]
  unfold signOf
  split <;> ring

theorem signOf_mul_self (s : Bool) : signOf s * signOf s = 1 := by cases s <;> norm_num [signOf]

theorem signOf_ne_zero (s : Bool) : signOf s ≠ 0 := by cases s <;> norm_num [signOf]

theorem abs_signOf_mul (s : Bool) (a : ℚ) : |signOf s * a| = |a| := by cases s <;> simp [signOf]

/-- A code whose value is the rounded one holds the value to which the mode rounds. -/
theorem RoundedOnGrid.rounds_code {t : FType} {m : RMode} {x w : Exact} {y : Rounded} {r : FRes}
    (hg : RoundedOnGrid (layoutOf t).mw (layoutOf t).emin m x y) (hv : (layoutOf t).value r.bits = .fin w) (hs : w.s = x.s)
    (hw : w.mag = y.k * 2 ^ y.q) (hp : r.bits % 2 = y.k % 2) (hf : r.fl = if w.val = x.val then 0#4 else flagINX) : Rounds t m x r := by
  refine ⟨w, hv, hs, hf, fun c z _ hz => ?_⟩
  have rep := hg.representable hz
  have rounds := hg.rounds
  have hu : (0 : ℚ) < 2 ^ y.q := by positivity
  have hx : x.mag = x.mag / 2 ^ y.q * 2 ^ y.q := (div_mul_cancel₀ _ hu.ne').symm
  have hz : z.mag = z.mag / 2 ^ y.q * 2 ^ y.q := (div_mul_cancel₀ _ hu.ne').symm
  have hX : 0 ≤ x.mag / 2 ^ y.q := div_nonneg x.mag_nonneg hu.le
  have hZ : 0 ≤ z.mag / 2 ^ y.q := div_nonneg z.mag_nonneg hu.le
  have ex := x.val_eq
  have ez := z.val_eq
  have ew := w.val_eq
  rw [hw, hs] at ew
  rw [hx] at ex
  rw [hz] at ez
  generalize x.mag / 2 ^ y.q = X at *
  generalize z.mag / 2 ^ y.q = Z at *
  generalize (2 : ℚ) ^ y.q = v at *
  have down : RoundsDown X y.k → Z * v ≤ X * v → Z * v ≤ y.k * v := fun h hz => by
    rw [mul_le_mul_iff_left₀ hu] at hz ⊢
    exact h.best rep hz
  have up : RoundsUp X y.k → X * v ≤ Z * v → y.k * v ≤ Z * v := fun h hz => by
    rw [mul_le_mul_iff_left₀ hu] at hz ⊢
    exact h.best rep hz
  have hXv : 0 ≤ X * v := by positivity
  have hZv : 0 ≤ Z * v := by positivity
  have hkv : 0 ≤ y.k * v := by positivity
  cases m with
  | rn =>
    have hZs : |signOf x.s * (signOf z.s * Z)| = Z := by
      rw [abs_signOf_mul, abs_signOf_mul, abs_of_nonneg hZ]
    obtain ⟨best, tie⟩ := RoundsNear.best rounds (hZs.symm ▸ rep)
    have hzv : z.val = signOf x.s * (signOf x.s * (signOf z.s * Z) * v) := by
      rw [z.val_eq_signOf, hz, mul_assoc, mul_assoc, ← mul_assoc (signOf x.s), signOf_mul_self, one_mul]
    have dist (a : ℚ) : |signOf x.s * (a * v) - signOf x.s * (X * v)| = |X - a| * v := by
      rw [← mul_sub, abs_signOf_mul, ← sub_mul, abs_mul, abs_of_pos hu, abs_sub_comm]
    rw [hzv, w.val_eq_signOf, x.val_eq_signOf, hs, hw, hx, dist, dist]
    refine ⟨by gcongr, fun he => ?_⟩
    rw [hp]
    exact (tie (mul_right_cancel₀ hu.ne' he)).imp (fun e => by rw [e]) id
  | rz =>
    rw [w.abs_val, z.abs_val, x.abs_val, hw, hz, hx]
    have h : RoundsDown X y.k := rounds
    exact ⟨by gcongr; exact h.1, down h⟩
  | rdn =>
    rw [ex, ew, ez]
    cases hxs : x.s
    · have h : RoundsDown X y.k := by simpa [RoundsTo, hxs] using rounds
      have : y.k * v ≤ X * v := by gcongr; exact h.1
      cases z.s
      · exact ⟨this, down h⟩
      · exact ⟨this, fun _ => by dsimp; linarith⟩
    · have h : RoundsUp X y.k := by simpa [RoundsTo, hxs] using rounds
      have : X * v ≤ y.k * v := by gcongr; exact h.2
      cases z.s
      · refine ⟨neg_le_neg this, fun hle => ?_⟩
        dsimp at hle ⊢
        linarith [up h (by linarith)]
      · exact ⟨neg_le_neg this, fun hle => neg_le_neg (up h (neg_le_neg_iff.1 hle))⟩
  | rup =>
    rw [ex, ew, ez]
    cases hxs : x.s
    · have h : RoundsUp X y.k := by simpa [RoundsTo, hxs] using rounds
      have : X * v ≤ y.k * v := by gcongr; exact h.2
      cases z.s
      · exact ⟨this, up h⟩
      · refine ⟨this, fun hle => ?_⟩
        dsimp at hle ⊢
        linarith [up h (by linarith)]
    · have h : RoundsDown X y.k := by simpa [RoundsTo, hxs] using rounds
      have : y.k * v ≤ X * v := by gcongr; exact h.1
      cases z.s
      · exact ⟨neg_le_neg this, fun _ => by dsimp; linarith⟩
      · exact ⟨neg_le_neg this, fun hle => neg_le_neg (down h (neg_le_neg_iff.1 hle))⟩

/-! ### The formats of R78 to R80 -/

/-- The largest finite magnitude of a format is `topK` times the spacing 2^topQ there. -/
def topK : FType → Nat
  | .f32 => 2 ^ 24 - 1
  | .f16 => 2 ^ 11 - 1
  | .bf16 => 2 ^ 8 - 1
  | .e4m3 => 14
  | .e5m2 => 7
def topQ : FType → Int
  | .f32 => 104
  | .f16 => 5
  | .bf16 => 120
  | .e4m3 => 5
  | .e5m2 => 13

theorem topOf_eq (t : FType) : topOf t = topK t * 2 ^ topQ t := by cases t <;> norm_num [topOf, topK, topQ]
theorem gapOf_eq (t : FType) : gapOf t = 2 ^ topQ t := by cases t <;> norm_num [gapOf, topQ]

theorem value_largest (t : FType) (s : Bool) : (layoutOf t).value ((layoutOf t).largest s) = .fin (Exact.dyadic s (topK t) (topQ t)) := by
  cases t <;> cases s <;> decide

theorem value_infinity {t : FType} (ht : t ≠ .e4m3) (s : Bool) : (layoutOf t).value ((layoutOf t).infinity s) = .inf s := by
  cases t
  case e4m3 => exact absurd rfl ht
  all_goals cases s <;> rfl

/-- The exponent field of the largest finite value: E4M3 alone has finite values under the field of all ones. -/
theorem topQ_field (t : FType) :
    topQ t + (layoutOf t).mw + (layoutOf t).bias = if (layoutOf t).hasInf then 2 ^ (layoutOf t).ew - 2 else 2 ^ (layoutOf t).ew - 1 := by
  cases t <;> rfl

/-- The largest finite value has the greatest significand, in E4M3 the one below it. -/
theorem topK_field (t : FType) :
    topK t = if (layoutOf t).hasInf then 2 ^ ((layoutOf t).mw + 1) - 1 else 2 ^ ((layoutOf t).mw + 1) - 2 := by
  cases t <;> rfl

theorem layoutOf_pos (t : FType) : 2 ≤ (layoutOf t).ew ∧ 2 ≤ (layoutOf t).mw := by
  cases t <;> decide

theorem isLargest_largest (t : FType) (s : Bool) : IsLargest t s ((layoutOf t).largest s) :=
  ⟨_, value_largest t s, Exact.dyadic_s _ _ _, by rw [Exact.abs_val, Exact.dyadic_mag, topOf_eq]⟩

/-! ### The code of a rounded value -/

/-- The code holds the value k * 2^q with the sign s, and is even where k is. -/
def IsCodeOf (t : FType) (s : Bool) (y : Rounded) (c : Nat) : Prop :=
  (∃ w, (layoutOf t).value c = .fin w ∧ w.s = s ∧ w.mag = y.k * 2 ^ y.q) ∧ c % 2 = y.k % 2

/-- A significand that rounding carried to 2^(mw + 1) is coded in the next binade. -/
theorem Layout.encode_carry (f : Layout) (s : Bool) (q : Int) : f.encode s ⟨2 ^ (f.mw + 1), q⟩ = f.encode s ⟨2 ^ f.mw, q + 1⟩ := by
  unfold Layout.encode
  have h : ¬2 ^ (f.mw + 1) ≤ 2 ^ f.mw := by
    rw [pow_succ]
    have : 0 < 2 ^ f.mw := by positivity
    omega
  have h2 : 2 ^ (f.mw + 1) / 2 = 2 ^ f.mw := by rw [pow_succ]; simp
  simp only [le_refl, if_true, h, if_false, h2]

/-- A value of k below 2^(mw + 1) within the range of the format has a code. -/
theorem value_encode_of_lt {t : FType} (s : Bool) {y : Rounded} (hk : y.k < 2 ^ ((layoutOf t).mw + 1))
    (hq : (layoutOf t).emin - (layoutOf t).mw ≤ y.q) (hn : y.q = (layoutOf t).emin - (layoutOf t).mw ∨ 2 ^ (layoutOf t).mw ≤ y.k)
    (hfit : y.k * 2 ^ y.q ≤ topOf t) :
    IsCodeOf t s y ((layoutOf t).encode s y) := by
  unfold IsCodeOf
  have field := topQ_field t
  have signif := topK_field t
  obtain ⟨hew, hmw⟩ := layoutOf_pos t
  rw [topOf_eq] at hfit
  unfold Layout.emin at hq hn
  generalize layoutOf t = f at *
  obtain ⟨a, ha⟩ : ∃ a, 2 ^ f.mw = 2 * a := ⟨2 ^ (f.mw - 1), by rw [← pow_succ']; congr 1; omega⟩
  have hew' : 4 ≤ 2 ^ f.ew := le_trans (by norm_num) (Nat.pow_le_pow_right two_pos hew)
  have sign2 : f.signBit s % 2 = 0 := by
    unfold Layout.signBit
    split
    · rw [pow_add, ha, ← mul_assoc, mul_comm _ 2, mul_assoc, Nat.mul_mod_right]
    · rfl
  have hpow : 2 ^ (f.mw + 1) = 2 * 2 ^ f.mw := pow_succ' _ _
  unfold Layout.encode
  rw [if_neg (not_le.2 hk)]
  dsimp only
  split
  next hlt =>
    have e := f.value_code s (E := 0) (F := y.k) (by omega) hlt
    rw [zero_mul, add_zero, if_neg (by omega), if_neg (by omega), if_pos rfl] at e
    refine ⟨⟨_, e, Exact.dyadic_s _ _ _, ?_⟩, by omega⟩
    rw [Exact.dyadic_mag, hn.resolve_right (by omega)]
  next hge =>
    have hk' : ((2 ^ f.mw : Nat) : ℚ) ≤ y.k := by exact_mod_cast not_lt.1 hge
    have hqt : y.q ≤ topQ t := by
      by_contra hlt
      have : (topK t : ℚ) < (2 ^ (f.mw + 1) : Nat) := by
        have : 0 < 2 ^ f.mw := by positivity
        split at signif <;> exact_mod_cast (by omega)
      have : (topK t : ℚ) * 2 ^ topQ t < y.k * 2 ^ y.q := calc
        (topK t : ℚ) * 2 ^ topQ t < (2 ^ (f.mw + 1) : Nat) * 2 ^ topQ t := by gcongr
        _ = (2 ^ f.mw : Nat) * 2 ^ (topQ t + 1) := by push_cast; exact two_pow_succ_mul_zpow _ _
        _ ≤ y.k * 2 ^ y.q := by gcongr <;> [norm_num; omega]
      exact absurd hfit (not_le.2 this)
    have htop : y.q = topQ t → y.k ≤ topK t := fun e => by
      rw [e, mul_le_mul_iff_left₀ (by positivity)] at hfit
      exact_mod_cast hfit
    have hP : ((2 ^ f.ew : Nat) : Int) = 2 ^ f.ew := by push_cast; rfl
    rw [← hP] at field
    obtain ⟨E, hE⟩ := Int.eq_ofNat_of_zero_le (show 0 ≤ y.q + f.mw + f.bias by omega)
    rw [hE, Int.toNat_natCast]
    have e := f.value_code s (E := E) (F := y.k - 2 ^ f.mw) (by split at field <;> omega) (by omega)
    rw [if_neg, if_neg, if_neg (by omega)] at e
    rotate_left
    · rintro ⟨hi, h1, h2⟩
      rw [if_neg hi] at field signif
      have := htop (by omega)
      omega
    · rintro ⟨h1, hi⟩
      rw [if_pos hi] at field
      omega
    refine ⟨⟨_, e, Exact.dyadic_s _ _ _, ?_⟩, ?_⟩
    · rw [Exact.dyadic_mag]
      congr 2 <;> omega
    · rw [ha, ← mul_assoc, mul_comm E 2, mul_assoc]
      omega

/-- A value within the range of the format has a code (R87). -/
theorem value_encode {t : FType} (s : Bool) {y : Rounded} (hk : y.k ≤ 2 ^ ((layoutOf t).mw + 1)) (hq : (layoutOf t).emin - (layoutOf t).mw ≤ y.q)
    (hn : y.q = (layoutOf t).emin - (layoutOf t).mw ∨ 2 ^ (layoutOf t).mw ≤ y.k) (hfit : y.k * 2 ^ y.q ≤ topOf t) :
    IsCodeOf t s y ((layoutOf t).encode s y) := by
  rcases hk.lt_or_eq with hlt | heq
  · exact value_encode_of_lt s hlt hq hn hfit
  · obtain ⟨k, q⟩ := y
    obtain rfl : k = 2 ^ ((layoutOf t).mw + 1) := heq
    have hpow : 2 ^ ((layoutOf t).mw + 1) = 2 * 2 ^ (layoutOf t).mw := pow_succ' _ _
    have hpos : 0 < 2 ^ (layoutOf t).mw := by positivity
    have same : ((2 ^ (layoutOf t).mw : Nat) : ℚ) * 2 ^ (q + 1) = (2 ^ ((layoutOf t).mw + 1) : Nat) * 2 ^ q := by
      push_cast
      exact (two_pow_succ_mul_zpow _ _).symm
    obtain ⟨⟨w, hv, hs, hw⟩, hp⟩ := value_encode_of_lt s (y := ⟨2 ^ (layoutOf t).mw, q + 1⟩) (by dsimp only; omega) 
      (by dsimp only at hq ⊢; omega) (.inr le_rfl) (same.trans_le hfit)
    rw [Layout.encode_carry]
    refine ⟨⟨w, hv, hs, hw.trans same⟩, hp.trans ?_⟩
    rw [hpow, Nat.mul_mod_right]
    exact Nat.even_iff.1 ((Nat.even_pow.2 ⟨even_two, by have := (layoutOf_pos t).2; omega⟩))

end Sys2Proof.Machine
end

section
/-! Delivering, narrowing and converting (R84, R86, R87). -/

namespace Sys2Proof.Machine

/-! ### The range of a format -/

theorem topK_bounds (t : FType) : 2 ^ (layoutOf t).mw ≤ topK t ∧ topK t + 1 ≤ 2 ^ ((layoutOf t).mw + 1) := by
  cases t <;> decide

theorem topK_odd (t : FType) : topK t % 2 = 1 ↔ t ≠ .e4m3 := by
  cases t <;> decide

theorem emin_lt_topQ (t : FType) : (layoutOf t).emin - (layoutOf t).mw < topQ t := by
  cases t <;> decide

section
variable {t : FType} {m : RMode} {x : Exact} {y : Rounded}

theorem RoundedOnGrid.k_le {mw : Nat} {emin : Int} (hg : RoundedOnGrid mw emin m x y) : y.k ≤ 2 ^ (mw + 1) :=
  hg.rounds.le_of_le (by exact_mod_cast hg.below.le)

theorem RoundedOnGrid.k_ge {mw : Nat} {emin : Int} (hg : RoundedOnGrid mw emin m x y) : y.q = emin - mw ∨ 2 ^ mw ≤ y.k :=
  hg.above.imp_right fun h => hg.rounds.ge_of_ge (by exact_mod_cast h)

/-- A magnitude of at most mw + 1 bits within the binades of the format is rounded to itself. -/
theorem RoundedOnGrid.eq_of_mag {mw j : Nat} {emin p : Int} (hg : RoundedOnGrid mw emin m x y) (hx : x.mag = j * 2 ^ p)
    (hj : 2 ^ mw ≤ j) (hj' : j < 2 ^ (mw + 1)) (hp : emin - mw ≤ p) : y = ⟨j, p⟩ := by
  have hX : x.mag / 2 ^ y.q = j * 2 ^ (p - y.q) := by rw [hx, zpow_sub₀ two_ne_zero, mul_div_assoc]
  have h1 : (2 : ℚ) ^ mw ≤ j := by exact_mod_cast hj
  have hq : y.q = p := by
    rcases lt_trichotomy y.q p with h | h | h
    · have : (2 : ℚ) ^ (mw + 1) ≤ x.mag / 2 ^ y.q := calc
        (2 : ℚ) ^ (mw + 1) = 2 ^ mw * 2 ^ (1 : Int) := by rw [pow_succ, zpow_one]
        _ ≤ j * 2 ^ (p - y.q) := by gcongr <;> [norm_num; omega]
        _ = x.mag / 2 ^ y.q := hX.symm
      exact absurd hg.below (not_lt.2 this)
    · exact h
    · have : x.mag / 2 ^ y.q < 2 ^ mw := hX ▸ significand_mul_zpow_lt hj' (by omega)
      rcases hg.above with h' | h'
      · omega
      · exact absurd h' (not_le.2 this)
  have hr := hg.rounds
  rw [hX, hq, sub_self, zpow_zero, mul_one] at hr
  obtain ⟨k, q⟩ := y
  rw [show k = j from hr.eq_of_nat, show q = p from hq]

theorem not_beyond_of_le {v : ℚ} (h : |v| ≤ topOf t) : ¬Beyond t m v := by
  have hg : 0 < gapOf t := by rw [gapOf_eq]; positivity
  obtain ⟨h1, h2⟩ := abs_le.1 h
  cases m with
  | rn => exact not_or.2 ⟨by linarith, fun h => by linarith [h.1]⟩
  | rz => exact not_le.2 (by linarith)
  | rdn => exact not_or.2 ⟨by linarith, by linarith⟩
  | rup => exact not_or.2 ⟨by linarith, by linarith⟩

theorem beyond_of_ge {v : ℚ} (h : topOf t + gapOf t ≤ |v|) : Beyond t m v := by
  have hg : 0 < gapOf t := by rw [gapOf_eq]; positivity
  cases m with
  | rn => exact .inl (by linarith)
  | rz => exact h
  | rdn => exact (le_abs.1 h).imp id fun h => by linarith
  | rup => exact (le_abs.1 h).imp (fun h => by linarith) fun h => by linarith

/-- Where the integer below X exceeds K. -/
theorem RoundsDown.lt_iff {X : ℚ} {k K : Nat} (h : RoundsDown X k) : (K : ℚ) + 1 ≤ X ↔ K < k := by
  have h' : RoundsTo .rz false X k := h
  refine ⟨fun hX => h'.ge_of_ge (j := K + 1) (by exact_mod_cast hX), fun hK => ?_⟩
  exact le_trans (by exact_mod_cast Nat.succ_le_of_lt hK) h.1

/-- Where the integer above X exceeds K. -/
theorem RoundsUp.lt_iff {X : ℚ} {k K : Nat} (h : RoundsUp X k) : (K : ℚ) < X ↔ K < k := by
  have h' : RoundsTo .rup false X k := h
  refine ⟨fun hX => ?_, fun hK => ?_⟩
  · exact_mod_cast hX.trans_le h.2
  · have : (K : ℚ) + 1 ≤ k := by exact_mod_cast Nat.succ_le_of_lt hK
    linarith [h.1]

/-- Where the integer nearest to X exceeds K. -/
theorem RoundsNear.lt_iff {X : ℚ} {k K : Nat} (h : RoundsNear X k) : ((K : ℚ) + 1 / 2 < X ∨ (X = K + 1 / 2 ∧ K % 2 = 1)) ↔ K < k := by
  obtain ⟨h1, h2⟩ := h
  obtain ⟨ha, hb⟩ := abs_le.1 h1
  constructor
  · rintro (hX | ⟨hX, hK⟩)
    · have : (K : ℚ) < k := by linarith
      exact_mod_cast this
    · by_contra hle
      have hk : (k : ℚ) ≤ K := by exact_mod_cast not_lt.1 hle
      obtain rfl : k = K := by
        have : (k : ℚ) = K := by linarith
        exact_mod_cast this
      have := h2 (by rw [hX, add_sub_cancel_left, abs_of_pos one_half_pos])
      omega
  · intro hK
    have hk : (K : ℚ) + 1 ≤ k := by exact_mod_cast Nat.succ_le_of_lt hK
    rcases lt_or_ge ((K : ℚ) + 1 / 2) X with hX | hX
    · exact .inl hX
    · have hX : X = K + 1 / 2 := by linarith
      have hk' : k = K + 1 := by
        have : (k : ℚ) = (K + 1 : Nat) := by push_cast; linarith
        exact_mod_cast this
      have := h2 (by rw [hX, hk']; push_cast; rw [show (K : ℚ) + 1 / 2 - (K + 1) = -(1 / 2) by ring, abs_neg, abs_of_pos one_half_pos])
      exact .inr ⟨hX, by omega⟩

/-- In the binade of the largest finite value, the mode rounds beyond that value where `Beyond` says so. -/
theorem beyond_iff_of_top {X u : ℚ} {k K : Nat} (hX : 0 ≤ X) (hu : 0 < u) (hr : RoundsTo m x.s X k) (hx : x.mag = X * u) (ht : topOf t = K * u)
    (hgap : gapOf t = u) (hodd : K % 2 = 1 ↔ t ≠ .e4m3) : Beyond t m x.val ↔ K < k := by
  have hK : (0 : ℚ) ≤ K * u := by positivity
  have hXu : 0 ≤ X * u := by positivity
  have down : (K : ℚ) * u + u ≤ X * u ↔ (K : ℚ) + 1 ≤ X := by
    rw [← add_one_mul, mul_le_mul_iff_left₀ hu]
  have up : (K : ℚ) * u < X * u ↔ (K : ℚ) < X := mul_lt_mul_iff_left₀ hu
  have ev := x.val_eq
  rw [hx] at ev
  cases m with
  | rn =>
    have hr : RoundsNear X k := hr
    rw [← hr.lt_iff, hodd]
    show (_ < |x.val| ∨ |x.val| = _ ∧ _) ↔ _
    rw [x.abs_val, hx, ht, hgap, show (K : ℚ) * u + u / 2 = (K + 1 / 2) * u by ring, mul_lt_mul_iff_left₀ hu, mul_left_inj' hu.ne']
  | rz =>
    have hr : RoundsDown X k := hr
    show _ ≤ |x.val| ↔ _
    rw [x.abs_val, hx, ht, hgap, down, hr.lt_iff]
  | rdn =>
    show (_ ≤ x.val ∨ x.val < _) ↔ _
    rw [ev, ht, hgap]
    cases hs : x.s
    · have hr : RoundsDown X k := by simpa [RoundsTo, hs] using hr
      simp only [Bool.false_eq_true, if_false]
      rw [or_iff_left (by linarith), down, hr.lt_iff]
    · have hr : RoundsUp X k := by simpa [RoundsTo, hs] using hr
      simp only [if_true]
      rw [or_iff_right (by linarith), neg_lt_neg_iff, up, hr.lt_iff]
  | rup =>
    show (_ < x.val ∨ x.val ≤ _) ↔ _
    rw [ev, ht, hgap]
    cases hs : x.s
    · have hr : RoundsUp X k := by simpa [RoundsTo, hs] using hr
      simp only [Bool.false_eq_true, if_false]
      rw [or_iff_left (by linarith), up, hr.lt_iff]
    · have hr : RoundsDown X k := by simpa [RoundsTo, hs] using hr
      simp only [if_true]
      rw [or_iff_right (by linarith), neg_le_neg_iff, down, hr.lt_iff]

/-- In a binade below that of the largest finite value nothing exceeds it. -/
theorem RoundedOnGrid.le_topOf (hg : RoundedOnGrid (layoutOf t).mw (layoutOf t).emin m x y) (h : y.q < topQ t) :
    x.mag ≤ topOf t ∧ y.k * 2 ^ y.q ≤ topOf t := by
  have hu : (0 : ℚ) < 2 ^ y.q := by positivity
  have small : (2 : ℚ) ^ ((layoutOf t).mw + 1) * 2 ^ y.q ≤ topOf t := by
    rw [two_pow_succ_mul_zpow, topOf_eq]
    gcongr
    · exact_mod_cast (topK_bounds t).1
    · norm_num
    · omega
  exact ⟨(((div_lt_iff₀ hu).1 hg.below).le).trans small, le_trans (by gcongr; exact_mod_cast hg.k_le) small⟩

/-- `Beyond` says where the rounded magnitude exceeds the largest finite one. -/
theorem RoundedOnGrid.beyond_iff (hg : RoundedOnGrid (layoutOf t).mw (layoutOf t).emin m x y) : Beyond t m x.val ↔ topOf t < y.k * 2 ^ y.q := by
  have hK : (topK t : ℚ) + 1 ≤ 2 ^ ((layoutOf t).mw + 1) := by exact_mod_cast (topK_bounds t).2
  have hu : (0 : ℚ) < 2 ^ y.q := by positivity
  have hx : x.mag = x.mag / 2 ^ y.q * 2 ^ y.q := (div_mul_cancel₀ _ hu.ne').symm
  rcases lt_trichotomy y.q (topQ t) with h | h | h
  · obtain ⟨hx, hk⟩ := hg.le_topOf h
    exact iff_of_false (not_beyond_of_le (x.abs_val ▸ hx)) (not_lt.2 hk)
  · rw [topOf_eq, ← h, mul_lt_mul_iff_left₀ hu, Nat.cast_lt]
    exact beyond_iff_of_top (div_nonneg x.mag_nonneg hu.le) hu hg.rounds hx (h ▸ topOf_eq t) (h ▸ gapOf_eq t) (topK_odd t)
  · have hq : ¬y.q = (layoutOf t).emin - (layoutOf t).mw := by have := emin_lt_topQ t; omega
    have large : topOf t + gapOf t ≤ 2 ^ (layoutOf t).mw * 2 ^ y.q := by
      rw [topOf_eq, gapOf_eq, ← add_one_mul]
      calc ((topK t : ℚ) + 1) * 2 ^ topQ t ≤ 2 ^ ((layoutOf t).mw + 1) * 2 ^ topQ t := by gcongr
        _ = 2 ^ (layoutOf t).mw * 2 ^ (topQ t + 1) := two_pow_succ_mul_zpow _ _
        _ ≤ 2 ^ (layoutOf t).mw * 2 ^ y.q := by gcongr <;> [norm_num; omega]
    have hk : topOf t + gapOf t ≤ y.k * 2 ^ y.q := large.trans (by gcongr; exact_mod_cast hg.k_ge.resolve_left hq)
    have hm : topOf t + gapOf t ≤ |x.val| := by
      rw [x.abs_val, hx]
      exact large.trans (by gcongr; exact hg.above.resolve_left hq)
    have hgap : 0 < gapOf t := by rw [gapOf_eq]; positivity
    exact iff_of_true (beyond_of_ge hm) (by linarith)

end

/-! ### Delivering (R84) -/

section
variable {t : FType} {m : RMode} {x : Exact} {y : Rounded}

@[simp] theorem Rounded.exact_s (s : Bool) (y : Rounded) : (y.exact s).s = s := Exact.dyadic_s _ _ _
@[simp] theorem Rounded.exact_mag (s : Bool) (y : Rounded) : (y.exact s).mag = y.k * 2 ^ y.q := Exact.dyadic_mag _ _ _
theorem Rounded.exact_d_pos (s : Bool) (y : Rounded) : 0 < (y.exact s).d := Exact.dyadic_d_pos _ _ _

theorem Exact.val_of_false {x : Exact} (h : x.s = false) : x.val = x.mag := by
  rw [x.val_eq, h]
  rfl

/-- The largest finite magnitude, as the model has it. -/
theorem magnitude_largest_val (t : FType) : ((layoutOf t).magnitude ((layoutOf t).largest false)).val = topOf t ∧
    0 < ((layoutOf t).magnitude ((layoutOf t).largest false)).d := by
  have e : (layoutOf t).magnitude ((layoutOf t).largest false) = { Exact.dyadic false (topK t) (topQ t) with s := false } := by
    unfold Layout.magnitude
    rw [value_largest]
  rw [e]
  refine ⟨?_, Exact.dyadic_d_pos _ _ _⟩
  rw [Exact.val_of_false rfl, topOf_eq]
  exact Exact.dyadic_mag _ _ _

theorem largest_lt_iff (t : FType) (y : Rounded) :
    ((layoutOf t).magnitude ((layoutOf t).largest false)).lt (y.exact false) = true ↔ topOf t < y.k * 2 ^ y.q := by
  obtain ⟨e, h⟩ := magnitude_largest_val t
  rw [Exact.lt_iff h (y.exact_d_pos _), e, Exact.val_of_false (y.exact_s _), Rounded.exact_mag]

/-- The inexact flag, where the value w has what was rounded. -/
theorem inexact_flag {w : Exact} (hx : 0 < x.d) (hs : w.s = x.s) (hw : w.mag = y.k * 2 ^ y.q) :
    (if (y.exact x.s).eqv x then 0#4 else flagINX) = if w.val = x.val then 0#4 else flagINX := by
  have e : (y.exact x.s).val = w.val := by rw [Exact.val_eq, Exact.val_eq, Rounded.exact_s, Rounded.exact_mag, hs, hw]
  simp only [Exact.eqv_iff (y.exact_d_pos _) hx, e]

/-- What is not beyond the range is coded as the rounded value. -/
theorem RoundedOnGrid.rounds_encode (hx : 0 < x.d) (hg : RoundedOnGrid (layoutOf t).mw (layoutOf t).emin m x y) (hb : ¬Beyond t m x.val) :
    Rounds t m x ⟨(layoutOf t).encode x.s y, if (y.exact x.s).eqv x then 0#4 else flagINX⟩ := by
  rw [hg.beyond_iff, not_lt] at hb
  obtain ⟨⟨w, hv, hs, hw⟩, hp⟩ := value_encode x.s hg.k_le hg.low hg.k_ge hb
  exact hg.rounds_code hv hs hw hp (inexact_flag hx hs hw)

/-- R84: `deliver` does what R84 says, whatever the exact result. -/
theorem deliver_isDelivered (t : FType) (m : RMode) (sat : Bool) (hx : 0 < x.d) : IsDelivered t m sat x (deliver (layoutOf t) m sat x) := by
  have hg := roundFloat_onGrid (layoutOf t).mw (layoutOf t).emin m hx
  have range := largest_lt_iff t (roundFloat (layoutOf t).mw (layoutOf t).emin m x)
  rw [← hg.beyond_iff] at range
  unfold deliver
  dsimp only
  by_cases hb : Beyond t m x.val
  · rw [range.2 hb]
    refine ⟨fun h => absurd hb h, fun _ => ?_⟩
    cases sat
    · simp only [Bool.not_true, Bool.false_eq_true, if_false, false_or]
      split
      next hi =>
        refine ⟨rfl, fun hl => ?_, fun _ ht => value_infinity ht _⟩
        cases m <;> simp_all [toInfinity]
      next hi =>
        refine ⟨rfl, fun _ => isLargest_largest t x.s, fun hl => ?_⟩
        cases m <;> simp_all [toInfinity]
    · exact ⟨rfl, fun _ => isLargest_largest t x.s, fun h => absurd (.inl rfl) h⟩
  · rw [Bool.eq_false_iff.2 (fun h => hb (range.1 h))]
    exact ⟨fun _ => hg.rounds_encode hx hb, fun h => absurd h hb⟩

/-! ### Narrowing to a format (R87) -/

/-- R80: H, as the model has it. -/
theorem halfBeyond_val (t : FType) : (layoutOf t).halfBeyond.val = topOf t + gapOf t / 2 ∧ 0 < (layoutOf t).halfBeyond.d := by
  obtain ⟨e, h⟩ := magnitude_largest_val t
  have hm : ((layoutOf t).magnitude ((layoutOf t).largest false)).mag = topK t * 2 ^ topQ t := by
    rw [← topOf_eq, ← e, ← Exact.abs_val, e, abs_of_nonneg]
    rw [topOf_eq]
    positivity
  have top := (roundFloat_onGrid (layoutOf t).mw (layoutOf t).emin .rz h).eq_of_mag hm (topK_bounds t).1 (topK_bounds t).2 (emin_lt_topQ t).le
  unfold Layout.halfBeyond
  rw [top]
  refine ⟨?_, Exact.dyadic_d_pos _ _ _⟩
  rw [Exact.val_of_false (Exact.dyadic_s _ _ _), Exact.dyadic_mag, topOf_eq, gapOf_eq, zpow_sub_one₀ two_ne_zero]
  push_cast
  ring

theorem Rounded.exact_eqv_iff (y : Rounded) (hx : 0 < x.d) : (y.exact x.s).eqv x = true ↔ x.mag = y.k * 2 ^ y.q := by
  rw [Exact.eqv_iff (y.exact_d_pos _) hx, Exact.val_eq_signOf, Exact.val_eq_signOf, Rounded.exact_s, Rounded.exact_mag,
    mul_right_inj' (signOf_ne_zero _), eq_comm]

/-- Beyond the range the rounded value is the exact one where the exact one has no more bits than the format has (R87). -/
theorem RoundedOnGrid.exact_iff (hx : 0 < x.d) (hg : RoundedOnGrid (layoutOf t).mw (layoutOf t).emin m x y) (hb : Beyond t m x.val) :
    (y.exact x.s).eqv x = true ↔ ∃ (k : Nat) (e : Int), k < 2 ^ ((layoutOf t).mw + 1) ∧ |x.val| = k * 2 ^ e := by
  have hu : (0 : ℚ) < 2 ^ y.q := by positivity
  have hq : topQ t ≤ y.q := not_lt.1 fun h => absurd (hg.beyond_iff.1 hb) (not_lt.2 (hg.le_topOf h).2)
  have above : 2 ^ (layoutOf t).mw ≤ x.mag / 2 ^ y.q := hg.above.resolve_left (by have := emin_lt_topQ t; omega)
  rw [y.exact_eqv_iff hx, x.abs_val]
  constructor
  · intro e
    rcases hg.k_le.lt_or_eq with h | h
    · exact ⟨y.k, y.q, h, e⟩
    · refine ⟨2 ^ (layoutOf t).mw, y.q + 1, Nat.pow_lt_pow_right one_lt_two (Nat.lt_succ_self _), ?_⟩
      rw [e, h]
      push_cast
      exact two_pow_succ_mul_zpow _ _
  · rintro ⟨j, p, hj, hm⟩
    have hX : x.mag / 2 ^ y.q = j * 2 ^ (p - y.q) := by rw [hm, zpow_sub₀ two_ne_zero, mul_div_assoc]
    have hp : y.q ≤ p := by
      by_contra hlt
      have : x.mag / 2 ^ y.q < 2 ^ (layoutOf t).mw := hX ▸ significand_mul_zpow_lt hj (by omega)
      linarith
    obtain ⟨n, hn⟩ := Int.eq_ofNat_of_zero_le (sub_nonneg.2 hp)
    have whole : x.mag / 2 ^ y.q = (j * 2 ^ n : Nat) := by
      rw [hX, hn]
      push_cast
      rfl
    have hr := hg.rounds
    rw [whole] at hr
    rw [hr.eq_of_nat, ← whole, div_mul_cancel₀ _ hu.ne']

/-- R87 for a floating format: `narrowFloat` does what R87 says of every value. -/
theorem narrowFloat_isNarrowed (t : FType) (v2 : Bool) (m : RMode) {x : FVal} (hx : ∀ e, x = .fin e → 0 < e.d) :
    IsNarrowed t v2 m x (narrowFloat (layoutOf t) v2 m x) := by
  cases x with
  | nan => rfl
  | inf g => cases v2 <;> [exact ⟨isLargest_largest t g, rfl⟩; rfl]
  | fin x =>
    have hx := hx x rfl
    have hg := roundFloat_onGrid (layoutOf t).mw (layoutOf t).emin m hx
    have range := largest_lt_iff t (roundFloat (layoutOf t).mw (layoutOf t).emin m x)
    rw [← hg.beyond_iff] at range
    have tie : (m = .rn ∧ (Exact.mk false x.n x.d).eqv (layoutOf t).halfBeyond = true) ↔ (m = .rn ∧ |x.val| = topOf t + gapOf t / 2) := by
      obtain ⟨e, h⟩ := halfBeyond_val t
      rw [Exact.eqv_iff (x := Exact.mk false x.n x.d) hx h, e, x.abs_val, Exact.val_of_false rfl]
      rfl
    unfold narrowFloat IsNarrowed
    dsimp only
    by_cases ht : m = .rn ∧ |x.val| = topOf t + gapOf t / 2
    · rw [if_pos ht, if_pos (tie.2 ht)]
      exact ⟨isLargest_largest t x.s, rfl⟩
    · rw [if_neg ht, if_neg (mt tie.1 ht)]
      by_cases hb : Beyond t m x.val
      · rw [range.2 hb]
        refine ⟨fun h => absurd hb h, fun _ => ⟨isLargest_largest t x.s, fun h => ?_, fun h => ?_⟩⟩
        · rw [if_pos ((hg.exact_iff hx hb).2 h)]
          rfl
        · rw [if_neg (mt (hg.exact_iff hx hb).1 h)]
          rfl
      · rw [Bool.eq_false_iff.2 (fun h => hb (range.1 h))]
        exact ⟨fun _ => hg.rounds_encode hx hb, fun h => absurd h hb⟩

end

end Sys2Proof.Machine
end

section
/-! Conversions (R36, R85 to R88, R126, R127). -/

namespace Sys2Proof.Machine

/-! ### Between formats (R86) -/

theorem Layout.value_d_pos {f : Layout} {c : Nat} {e : Exact} (h : f.value c = .fin e) : 0 < e.d := by
  unfold Layout.value at h
  dsimp only at h
  split at h
  · split at h <;> cases h
  · split at h
    · cases h
    · split at h <;> cases h <;> exact Exact.dyadic_d_pos _ _ _

theorem narrowing_iff (src dst : FType) : narrowing src dst = true ↔ topOf dst < topOf src := by
  unfold narrowing
  rw [Exact.lt_iff (magnitude_largest_val dst).2 (magnitude_largest_val src).2, (magnitude_largest_val dst).1, (magnitude_largest_val src).1]

/-- R86: a conversion narrows where the source reaches further than the format, and else delivers. -/
theorem isConverted_of {source : ℚ} {t : FType} {v2 narrows : Bool} {m : RMode} {x : FVal} (hx : ∀ e, x = .fin e → 0 < e.d)
    (hn : narrows = true ↔ topOf t < source) :
    IsConverted source t v2 m x (if narrows then narrowFloat (layoutOf t) v2 m x else widenFloat (layoutOf t) m x) := by
  unfold IsConverted
  cases narrows
  · rw [if_neg fun h => Bool.false_ne_true (hn.2 h)]
    cases x with
    | nan => rfl
    | inf g => rfl
    | fin x => exact deliver_isDelivered t m false (hx x rfl)
  · rw [if_pos (hn.1 rfl)]
    exact narrowFloat_isNarrowed t v2 m hx

theorem convFF_isConverted (y t : FType) (v2 : Bool) (m : RMode) (c : Nat) :
    IsConverted (topOf y) t v2 m ((layoutOf y).value c) (convFF y t v2 m c) :=
  isConverted_of (fun _ => Layout.value_d_pos) (narrowing_iff y t)

/-! ### From integers -/

theorem intMax_eq (t : IType) : intMax t = greatestOf t := by cases t <;> rfl
theorem intMin_eq (t : IType) : intMin t = leastOf t := by cases t <;> rfl

theorem intValue_eq (t : IType) {c : Nat} (hc : c < 2 ^ intWidth t) : intValue t c = integerOf t c := by
  unfold intValue integerOf
  cases t <;> simp only [intSigned, intWidth, greatestOf, Bool.false_eq_true, true_and, false_and, if_false] at hc ⊢ <;> split_ifs <;> omega

theorem Exact.ofInt_s_iff (i : Int) : (Exact.ofInt i).s = true ↔ (Exact.ofInt i).val < 0 := by
  rw [Exact.ofInt_val]
  simp [Exact.ofInt]

theorem narrowingFromInt_iff (src : IType) (dst : FType) :
    narrowingFromInt src dst = true ↔ topOf dst < (max (greatestOf src) (-leastOf src) : Int) := by
  unfold narrowingFromInt
  rw [Exact.lt_iff (magnitude_largest_val dst).2 Nat.one_pos, (magnitude_largest_val dst).1, Exact.ofInt_val, intMax_eq, intMin_eq]

theorem convIF_isConverted (y : IType) (t : FType) (v2 : Bool) (m : RMode) (c : Nat) :
    IsConverted (max (greatestOf y) (-leastOf y) : Int) t v2 m (.fin (Exact.ofInt (intValue y c))) (convIF y t v2 m c) :=
  isConverted_of (fun e he => by cases he; exact Nat.one_pos) (narrowingFromInt_iff y t)

/-! ### To integers (R87) -/

/-- The integer nearest to v, of two equally near the even one. -/
theorem roundedInt_rn_of_near {v : ℚ} {k : Int} (h1 : |v - k| ≤ 1 / 2) (h2 : |v - k| = 1 / 2 → k % 2 = 0) : roundedInt .rn v = k := by
  obtain ⟨ha, hb⟩ := abs_le.1 h1
  have f1 := Int.floor_le v
  have f2 := Int.lt_floor_add_one v
  show (if _ then _ else _) = k
  generalize ⌊v⌋ = f at *
  have hk : k = f ∨ k = f + 1 := by
    have : (f : ℚ) < k + 1 := by linarith
    have : (k : ℚ) < f + 2 := by linarith
    norm_cast at *
    omega
  rcases hk with rfl | rfl
  · rw [if_pos]
    rcases hb.lt_or_eq with h | h
    · exact .inl h
    · exact .inr ⟨h, h2 (by rw [h, abs_of_pos one_half_pos])⟩
  · push_cast at ha h2
    rw [if_neg]
    rintro (h | ⟨h, he⟩)
    · linarith
    · have := h2 (by rw [show v - (f + 1) = -(1 / 2) by linarith, abs_neg, abs_of_pos one_half_pos])
      omega

/-- The sign of a value before its rounded magnitude. -/
def signedInt (s : Bool) (k : Nat) : Int := if s then -k else k

/-- Rounding the magnitude by the sign is rounding the value. -/
theorem roundedInt_of_roundsTo {m : RMode} {s : Bool} {X : ℚ} {k : Nat} (hX : 0 ≤ X) (h : RoundsTo m s X k) :
    roundedInt m (if s then -X else X) = signedInt s k := by
  have down : RoundsDown X k → ⌊X⌋ = k := fun h => Int.floor_eq_iff.2 h
  have up : RoundsUp X k → ⌈X⌉ = k := fun h => Int.ceil_eq_iff.2 h
  cases m with
  | rn =>
    obtain ⟨h1, h2⟩ : RoundsNear X k := h
    cases s
    · exact roundedInt_rn_of_near (k := k) h1 fun e => by exact_mod_cast h2 e
    · have e : |-X - ((-k : Int) : ℚ)| = |X - k| := by
        push_cast
        rw [← abs_neg]
        congr 1
        ring
      show roundedInt .rn (-X) = -(k : Int)
      exact roundedInt_rn_of_near (by rwa [e]) fun he => by have := h2 (e ▸ he); omega
  | rz =>
    have hk := down h
    cases s
    · show (if 0 ≤ X then _ else _) = _
      rw [if_pos hX]
      exact hk
    · show (if 0 ≤ -X then ⌊-X⌋ else ⌈-X⌉) = -(k : Int)
      rw [Int.ceil_neg, hk]
      split
      next h0 =>
        obtain rfl : X = 0 := by linarith
        rw [← hk]
        simp
      next => rfl
  | rdn =>
    cases s
    · exact down (by simpa [RoundsTo] using h)
    · show ⌊-X⌋ = -(k : Int)
      rw [Int.floor_neg, up (by simpa [RoundsTo] using h)]
  | rup =>
    cases s
    · exact up (by simpa [RoundsTo] using h)
    · show ⌈-X⌉ = -(k : Int)
      rw [Int.ceil_neg, down (by simpa [RoundsTo] using h)]

/-- R87 for an integer type: `narrowInt` rounds once and takes the nearest value of the type. -/
theorem narrowInt_isNarrowed (t : IType) (m : RMode) {x : FVal} (hx : ∀ e, x = .fin e → 0 < e.d) : IsNarrowedInt t m x (narrowInt t m x) := by
  have least : leastOf t ≤ 0 := by cases t <;> decide
  have greatest : 0 < greatestOf t := by cases t <;> decide
  cases x with
  | nan => exact ⟨by simp [narrowInt], rfl⟩
  | inf g =>
    cases g
    · exact ⟨by simp [narrowInt, intBits, intMax_eq], rfl⟩
    · exact ⟨by simp [narrowInt, intBits, intMin_eq], rfl⟩
  | fin x =>
    have hx := hx x rfl
    have rounded : roundedInt m x.val = signedInt x.s (roundNat m x.s x.n x.d) := by
      rw [x.val_eq]
      exact roundedInt_of_roundsTo x.mag_nonneg (roundNat_roundsTo m x.s x.n hx)
    have exact_iff (i : Int) : (Exact.ofInt i).eqv x = true ↔ x.val = i := by
      rw [Exact.eqv_iff Nat.one_pos hx, Exact.ofInt_val, eq_comm]
    have tie : (m = .rn ∧ x.s = false ∧ x.eqv ⟨false, (2 * intMax t + 1).toNat, 2⟩ = true) ↔
        (m = .rn ∧ x.val = greatestOf t + 1 / 2) := by
      have half : (Exact.mk false (2 * intMax t + 1).toNat 2).val = greatestOf t + 1 / 2 := by
        have hn : (((2 * intMax t + 1).toNat : Int) : ℚ) = 2 * greatestOf t + 1 := by
          rw [Int.toNat_of_nonneg (by rw [intMax_eq]; omega), intMax_eq]
          push_cast
          rfl
        rw [Exact.val_of_false rfl]
        show (((2 * intMax t + 1).toNat : Nat) : ℚ) / (2 : Nat) = _
        rw [← Int.cast_natCast (2 * intMax t + 1).toNat, hn]
        push_cast
        ring
      rw [Exact.eqv_iff hx two_pos, half]
      refine and_congr_right fun _ => ⟨And.right, fun e => ⟨?_, e⟩⟩
      by_contra hs
      have h0 : x.val ≤ 0 := by
        rw [x.val_eq, if_pos (by simpa using hs)]
        exact neg_nonpos.2 x.mag_nonneg
      have : (0 : ℚ) < greatestOf t := by exact_mod_cast greatest
      linarith
    have hy : (if x.s then -(roundNat m x.s x.n x.d : Int) else roundNat m x.s x.n x.d) = signedInt x.s (roundNat m x.s x.n x.d) := rfl
    unfold narrowInt IsNarrowedInt
    dsimp only
    rw [rounded, hy, intMax_eq, intMin_eq] at *
    generalize hk : roundNat m x.s x.n x.d = k
    by_cases ht : m = .rn ∧ x.val = greatestOf t + 1 / 2
    · rw [if_pos ht, if_pos (tie.2 ht)]
      exact ⟨rfl, rfl⟩
    rw [if_neg ht, if_neg (mt tie.1 ht)]
    simp only [exact_iff]
    by_cases low : signedInt x.s k < leastOf t
    · have hs : x.s = true := by
        cases hs : x.s
        · simp only [signedInt, hs, Bool.false_eq_true, if_false] at low
          omega
        · rfl
      rw [if_pos low, if_neg (by omega), hs]
      exact ⟨rfl, BitVec.or_assoc .. ▸ BitVec.or_comm ..⟩
    by_cases high : greatestOf t < signedInt x.s k
    · have hs : x.s = false := by
        cases hs : x.s
        · rfl
        · simp only [signedInt, hs, if_true] at high
          omega
      rw [if_neg low, if_pos high, if_neg (by omega), hs]
      exact ⟨rfl, BitVec.or_assoc .. ▸ BitVec.or_comm ..⟩
    · rw [if_neg low, if_neg high, if_pos (by omega)]
      exact ⟨rfl, rfl⟩

/-! ### Lanes (R36, R127) -/

theorem lowMask_getLsbD (w i : Nat) : (lowMask w).getLsbD i = (decide (i < 32) && decide (i < w)) := by
  rw [lowMask, BitVec.getLsbD_ofNat, Nat.testBit_two_pow_sub_one]

theorem writeLane_word (old : Word) (hint : Option (Bool × BitVec 2 × BitVec 2)) (sx : Bool) (code : Nat) :
    writeLane old hint 32 sx code = BitVec.ofNat 32 code := by
  apply BitVec.eq_of_toNat_eq
  simp [writeLane]

/-- Without a TYPE hint the register holds the narrow result extended by its sign, or by zeros. -/
theorem writeLane_extend (old : Word) {w : Nat} (hw : w < 32) (sx : Bool) (code : Nat) :
    writeLane old none w sx code = if sx then (BitVec.ofNat w code).signExtend 32 else (BitVec.ofNat w code).setWidth 32 := by
  have zero : BitVec.ofNat 32 (code % 2 ^ w) = (BitVec.ofNat w code).setWidth 32 := by
    apply BitVec.eq_of_toNat_eq
    simp
  have msb : (BitVec.ofNat w code).msb = decide (2 ^ (w - 1) ≤ code % 2 ^ w) := by
    rw [BitVec.msb_eq_decide, BitVec.toNat_ofNat]
  unfold writeLane
  dsimp only
  rw [if_neg (not_le.2 hw), zero]
  cases sx
  · simp
  · ext i hi
    rw [← BitVec.getLsbD_eq_getElem, ← BitVec.getLsbD_eq_getElem]
    simp only [true_and, if_true, BitVec.getLsbD_signExtend, msb, hi, decide_true, Bool.true_and]
    by_cases hiw : i < w
    · by_cases hm : 2 ^ (w - 1) ≤ code % 2 ^ w <;> simp [hm, hiw, hi, lowMask_getLsbD, -BitVec.getLsbD_eq_getElem]
    · have above : (BitVec.ofNat w code).getLsbD i = false := BitVec.getLsbD_of_ge _ _ (not_lt.1 hiw)
      by_cases hm : 2 ^ (w - 1) ≤ code % 2 ^ w <;> simp [hm, hiw, hi, above, lowMask_getLsbD, -BitVec.getLsbD_eq_getElem]

/-- Under a TYPE hint the result takes one lane, and the others are kept or cleared. -/
theorem writeLane_hint (old : Word) (keep : Bool) (d a : BitVec 2) {w : Nat} (hw : w < 32) (sx : Bool) (code : Nat) : ∀ i, i < 32 →
    (writeLane old (some (keep, d, a)) w sx code).getLsbD i = if d.toNat * w ≤ i ∧ i < d.toNat * w + w then code.testBit (i - d.toNat * w)
      else keep && old.getLsbD i := by
  intro i hi
  unfold writeLane
  dsimp only
  rw [if_neg (not_le.2 hw)]
  generalize d.toNat * w = n
  have inside : (decide (i < 32) && !decide (i < n) && (decide (i - n < 32) && decide (i - n < w))) = decide (n ≤ i ∧ i < n + w) := by
    simp only [← decide_not, ← Bool.decide_and, decide_eq_decide]
    omega
  have result : (BitVec.ofNat 32 (code % 2 ^ w) <<< n).getLsbD i = (decide (n ≤ i ∧ i < n + w) && code.testBit (i - n)) := by
    rw [← inside, BitVec.getLsbD_shiftLeft, BitVec.getLsbD_ofNat, Nat.testBit_mod_two_pow]
    simp only [Bool.and_assoc]
  have mask : (lowMask w <<< n).getLsbD i = decide (n ≤ i ∧ i < n + w) := by
    rw [← inside, BitVec.getLsbD_shiftLeft, lowMask_getLsbD]
  rw [BitVec.getLsbD_or, result]
  cases keep <;> by_cases hin : n ≤ i ∧ i < n + w <;> simp [hin, hi, mask, -BitVec.getLsbD_eq_getElem]

theorem Group.convSrc_lt (g : Group) (l : Lane) (a : Reg) (w : Nat) : g.convSrc l a w < 2 ^ w := by
  unfold Group.convSrc
  split
  next h =>
    subst h
    exact BitVec.isLt _
  next => exact Nat.mod_lt _ (by positivity)

/-! ### The instructions -/

theorem delivers_of_aluF {i : Instr} {s : State} {u : Bool} {h : Guard} {d : Reg} {r : Lane → IRes 32} (lat : Nat)
    (he : exec i s = .next (s.aluF u h d lat r)) : Delivers i s u h d (fun l => (r l).val) (fun l => (r l).fl) :=
  ⟨_, he, s.aluF_wrote u h d lat r, fun _ hl => s.aluF_grp_rd u h d lat r hl⟩

theorem deliversPair_of_alu64F {i : Instr} {s : State} {u : Bool} {h : Guard} {d : Reg} {r : Lane → IRes 64} (lat : Nat)
    (he : exec i s = .next (s.alu64F u h d lat r)) : DeliversPair i s u h d (fun l => (r l).val) (fun l => (r l).fl) :=
  ⟨_, he, s.alu64F_wrote u h d lat r, fun _ hl => s.alu64F_grp_rd u h d lat r hl⟩

theorem WroteFlags.pc {s t : State} {u : Bool} {h : Guard} {dst : List Reg} {fl : Lane → BitVec 4} (hw : WroteFlags s t u h dst fl) :
    t.grp.pc = s.grp.complete.pc := by
  rw [hw.fields]

theorem Delivers.completes {i : Instr} {s : State} {u : Bool} {h : Guard} {d : Reg} {f : Lane → Word} {fl : Lane → BitVec 4}
    (hd : Delivers i s u h d f fl) : ∃ r, exec i s = .next r ∧ OnlyGroup s r ∧ r.grp.pc = s.grp.complete.pc := by
  obtain ⟨t, he, hw, -⟩ := hd
  exact ⟨t, he, hw.toOnlyGroup, hw.pc⟩

theorem DeliversPair.completes {i : Instr} {s : State} {u : Bool} {h : Guard} {d : Reg} {f : Lane → Dword} {fl : Lane → BitVec 4}
    (hd : DeliversPair i s u h d f fl) : ∃ r, exec i s = .next r ∧ OnlyGroup s r ∧ r.grp.pc = s.grp.complete.pc := by
  obtain ⟨t, he, hw, -⟩ := hd
  exact ⟨t, he, hw.toOnlyGroup, hw.pc⟩

/-- A conversion's result of w bits as its register receives it. -/
def laneRes (g : Group) (l : Lane) (d : Reg) (w : Nat) (sx : Bool) (q : FRes) : IRes 32 := ⟨writeLane (g.rd l d) g.typeHint w sx q.bits, q.fl⟩

section
variable (s : State) (u : Bool) (h : Guard) (d a : Reg)

theorem exec_fcvt (t y : FType) : exec (.fcvt u h d a t y) s = .next (s.aluF u h d 12 fun l =>
    laneRes s.grp l d (ftypeWidth t) false (convFF y t s.grp.v2 s.grp.mode (s.grp.convSrc l a (ftypeWidth y)))) := rfl

theorem exec_icvtf (t : FType) (y : IType) : exec (.icvtf u h d a t y) s = .next (s.aluF u h d 12 fun l =>
    laneRes s.grp l d (ftypeWidth t) false (convIF y t s.grp.v2 s.grp.mode (s.grp.convSrc l a (intWidth y)))) := rfl

theorem exec_fcvti {t : IType} (ht : intWidth t ≠ 64) (y : FType) : exec (.fcvti u h d a t y) s = .next (s.aluF u h d 12 fun l =>
    laneRes s.grp l d (intWidth t) (intSigned t) (convFI y t s.grp.mode (s.grp.convSrc l a (ftypeWidth y)))) := by
  show execFcvti u h d a t y s = _
  unfold execFcvti
  rw [if_neg ht]
  rfl

theorem exec_fcvti_wide {t : IType} (ht : intWidth t = 64) (y : FType) : exec (.fcvti u h d a t y) s = .next (s.alu64F u h d 12 fun l =>
    let r := convFI y t s.grp.mode (s.grp.convSrc l a (ftypeWidth y))
    ⟨BitVec.ofNat 64 r.bits, r.fl⟩) := by
  show execFcvti u h d a t y s = _
  unfold execFcvti
  rw [if_pos ht]

/-- R126: a conversion completes in every state and on every operand. -/
theorem conversion_completes (t y : FType) (n : IType) : ∀ i ∈ [Instr.fcvt u h d a t y, .fcvti u h d a n y, .icvtf u h d a t n],
    ∃ r, exec i s = .next r ∧ OnlyGroup s r ∧ r.grp.pc = s.grp.complete.pc := by
  simp only [List.forall_mem_cons, List.not_mem_nil, false_imp_iff, implies_true, and_true]
  refine ⟨(delivers_of_aluF 12 (exec_fcvt s u h d a t y)).completes, ?_, (delivers_of_aluF 12 (exec_icvtf s u h d a t n)).completes⟩
  by_cases hn : intWidth n = 64
  · exact (deliversPair_of_alu64F 12 (exec_fcvti_wide s u h d a hn y)).completes
  · exact (delivers_of_aluF 12 (exec_fcvti s u h d a hn y)).completes

end

/-- The widths below that of a register. -/
theorem intWidth_cases {t : IType} (ht : intWidth t ≠ 64) : intWidth t = 32 ∨ intWidth t < 32 := by
  cases t <;> simp_all [intWidth]

theorem ftypeWidth_cases (t : FType) : ftypeWidth t = 32 ∨ ftypeWidth t < 32 := by
  cases t <;> simp [ftypeWidth]

/-- Settles O15: the conversion functions give what R86 and R87 say of the source code, and `laneRes` puts it into its lane. -/
theorem conversions : Obligations.Conversions := by
  unfold Obligations.Conversions
  intro s u h d a
  refine ⟨conversion_completes s u h d a, ?_⟩
  intro src lane v2 float integer
  have source (l : Lane) (w : Nat) : s.grp.convSrc l a w = src l w := by
    simp only [src, Group.convSrc, Group.srcLane]
    cases s.grp.typeHint <;> rfl
  have placed (l : Lane) {w : Nat} (hw : w = 32 ∨ w < 32) (sx : Bool) (q : FRes) : lane l w sx q (laneRes s.grp l d w sx q) := by
    refine ⟨rfl, ?_⟩
    rcases hw with rfl | hlt
    · exact writeLane_word (s.grp.rd l d) s.grp.typeHint sx q.bits
    · rw [if_neg hlt.ne]
      unfold laneRes
      cases s.grp.typeHint with
      | none => exact writeLane_extend (s.grp.rd l d) hlt sx q.bits
      | some x => exact writeLane_hint (s.grp.rd l d) x.1 x.2.1 x.2.2 hlt sx q.bits
  refine ⟨fun t y => ?_, fun t y ht => ?_, fun t y ht => ?_, fun t y => ?_⟩
  · exact ⟨_, fun l => ⟨_, source l _ ▸ convFF_isConverted y t _ _ _, placed l (ftypeWidth_cases t) _ _⟩,
      delivers_of_aluF 12 (exec_fcvt s u h d a t y)⟩
  · exact ⟨_, fun l => ⟨_, source l _ ▸ narrowInt_isNarrowed t _ fun _ => Layout.value_d_pos, placed l (intWidth_cases ht) _ _⟩,
      delivers_of_aluF 12 (exec_fcvti s u h d a ht y)⟩
  · exact ⟨_, fun l => source l _ ▸ narrowInt_isNarrowed t _ fun _ => Layout.value_d_pos,
      deliversPair_of_alu64F 12 (exec_fcvti_wide s u h d a ht y)⟩
  · refine ⟨_, fun l => ⟨_, _, ⟨Exact.ofInt (intValue y (src l (intWidth y))), rfl, Nat.one_pos, ?_, Exact.ofInt_s_iff _⟩,
      source l _ ▸ convIF_isConverted y t _ _ _, placed l (ftypeWidth_cases t) _ _⟩, delivers_of_aluF 12 (exec_icvtf s u h d a t y)⟩
    rw [Exact.ofInt_val, intValue_eq y (source l _ ▸ s.grp.convSrc_lt l a _)]

end Sys2Proof.Machine
end

section
/-! Delivered and saturated results (R80 to R85, R90). -/

namespace Sys2Proof.Machine

/-- Settles O17: `deliver_isDelivered`, which rounds on the grid of the result and compares with the largest value. -/
theorem deliverRoundsCorrectly : Obligations.DeliverRoundsCorrectly := by
  unfold Obligations.DeliverRoundsCorrectly
  exact fun t m sat _ hx => deliver_isDelivered t m sat hx

/-- R85: `saturateInt` holds its value between the least and the greatest of the type, and its flags say whether it had to. -/
theorem saturateInt_eq (t : IType) (x : Int) :
    saturateInt t x = (clamp (leastOf t) (greatestOf t) x, clampFlags (leastOf t) (greatestOf t) x) := by
  have ordered : leastOf t ≤ greatestOf t := by cases t <;> decide
  unfold saturateInt clamp clampFlags
  rw [intMax_eq, intMin_eq]
  rcases lt_or_ge (greatestOf t) x with high | high
  · rw [if_pos high, if_neg (by omega), if_pos high, if_pos (.inr high)]
  rcases lt_or_ge x (leastOf t) with low | low
  · rw [if_neg (by omega), if_pos low, if_pos low, if_pos (.inl low)]
  · rw [if_neg (by omega), if_neg (by omega), if_neg (by omega), if_neg (by omega), if_neg (by omega)]

/-- R90: an instruction that gives its exact result to `satOr32` delivers it saturated under SAT. -/
theorem delivers_of_satOr32 {i : Instr} {s : State} {u : Bool} {h : Guard} {d : Reg} {wrap : Lane → Word} {v : Lane → Int} (lat : Nat)
    (hs : s.grp.modf.sat = true) (he : exec i s = .next (s.aluF u h d lat fun l => satOr32 s.grp.modf.sat (wrap l) (v l))) :
    Delivers i s u h d (fun l => BitVec.ofInt 32 (clamp (leastOf .i32) (greatestOf .i32) (v l)))
      (fun l => clampFlags (leastOf .i32) (greatestOf .i32) (v l)) := by
  have saturated (l : Lane) : satOr32 s.grp.modf.sat (wrap l) (v l) =
      ⟨BitVec.ofInt 32 (clamp (leastOf .i32) (greatestOf .i32) (v l)), clampFlags (leastOf .i32) (greatestOf .i32) (v l)⟩ := by
    rw [satOr32, if_pos hs, saturateInt_eq]
  simp only [saturated] at he
  exact delivers_of_aluF lat he

/-- Settles O2: each instruction gives `satOr32` its exact signed result. -/
theorem integerSaturation : Obligations.IntegerSaturation := by
  unfold Obligations.IntegerSaturation
  intro s u h d a b hs
  exact ⟨delivers_of_satOr32 4 hs rfl, delivers_of_satOr32 4 hs rfl, delivers_of_satOr32 4 hs rfl, delivers_of_satOr32 4 hs rfl⟩

end Sys2Proof.Machine
end

section
/-! Exact sums and products of floating values (R82, R121). -/

namespace Sys2Proof.Machine

/-! ### Exact sums -/

theorem Exact.val_eq_zero_iff {x : Exact} (hx : 0 < x.d) : x.val = 0 ↔ x.n = 0 := by
  have hd : (x.d : ℚ) ≠ 0 := by positivity
  rw [← abs_eq_zero, x.abs_val, Exact.mag, div_eq_zero_iff, or_iff_left hd, Nat.cast_eq_zero]

/-- The sign that a zero sum of x and y has (R82). -/
def Exact.zeroSign (m : RMode) (x y : Exact) : Bool := if x.n = 0 ∧ y.n = 0 ∧ x.s = y.s then x.s else decide (m = .rdn)

section
variable {x y : Exact} (m : RMode) (hx : 0 < x.d) (hy : 0 < y.d)
include hx hy

theorem Exact.add_d_pos : 0 < (Exact.add m x y).d := by
  unfold Exact.add
  dsimp only
  split
  · exact Nat.one_pos
  · exact Nat.mul_pos hx hy

theorem Exact.add_val : (Exact.add m x y).val = x.val + y.val := by
  have hx' : (x.d : ℚ) ≠ 0 := by positivity
  have hy' : (y.d : ℚ) ≠ 0 := by positivity
  have sum : x.val + y.val = (x.num * y.d + y.num * x.d : Int) / (x.d * y.d : Nat) := by
    rw [Exact.val, Exact.val, div_add_div _ _ hx' hy']
    push_cast
    ring
  rw [sum]
  unfold Exact.add
  dsimp only
  generalize x.num * y.d + y.num * x.d = t
  split
  next h => simp [h, Exact.val, Exact.num]
  next h =>
    have num : (Exact.mk (decide (t < 0)) t.natAbs (x.d * y.d)).num = t := by
      simp only [Exact.num, decide_eq_true_eq]
      split <;> omega
    rw [Exact.val, num]

theorem Exact.add_s_of_zero (h : x.val + y.val = 0) : (Exact.add m x y).s = Exact.zeroSign m x y := by
  have ht : x.num * y.d + y.num * x.d = 0 := by
    have hx' : (x.d : ℚ) ≠ 0 := by positivity
    have hy' : (y.d : ℚ) ≠ 0 := by positivity
    rw [Exact.val, Exact.val, div_add_div _ _ hx' hy', div_eq_zero_iff, or_iff_left (mul_ne_zero hx' hy')] at h
    have : x.num * (y.d : Int) + x.d * y.num = 0 := by exact_mod_cast h
    rw [mul_comm y.num]
    exact this
  unfold Exact.add
  dsimp only
  rw [if_pos ht]
  rfl

end

theorem isTotal_singleton (m : RMode) {x : Exact} (hx : 0 < x.d) : IsTotal m [x] x := by
  refine ⟨hx, by simp, fun h => ?_⟩
  cases hs : x.s <;> simp [h, hs]

/-- An exact sum, one operand after the other, has the sign that the operands give it together. -/
theorem IsTotal.add {m : RMode} {xs : List Exact} {y z : Exact} (hz : IsTotal m xs z) (hxs : xs ≠ []) (hy : 0 < y.d) :
    IsTotal m (xs ++ [y]) (Exact.add m z y) := by
  obtain ⟨hd, hv, hs⟩ := hz
  refine ⟨Exact.add_d_pos m hd hy, by simp [Exact.add_val m hd hy, hv], fun h => ?_⟩
  rw [Exact.add_val m hd hy] at h
  rw [Exact.add_s_of_zero m hd hy h]
  simp only [Exact.zeroSign, ← Exact.val_eq_zero_iff hd, ← Exact.val_eq_zero_iff hy, List.forall_mem_append, List.forall_mem_singleton]
  by_cases hy0 : y.val = 0
  · have hz0 : z.val = 0 := by linarith
    have hs := hs hz0
    have apart : ¬((∀ x ∈ xs, x.val = 0 ∧ x.s = true) ∧ ∀ x ∈ xs, x.val = 0 ∧ x.s = false) := fun ⟨h1, h2⟩ => by
      obtain ⟨x, hx⟩ := List.exists_mem_of_ne_nil xs hxs
      exact Bool.false_ne_true ((h2 x hx).2.symm.trans (h1 x hx).2)
    generalize (∀ x ∈ xs, x.val = 0 ∧ x.s = true) = P at *
    generalize (∀ x ∈ xs, x.val = 0 ∧ x.s = false) = Q at *
    -- Toward minus infinity such a zero is minus unless every operand is plus, and else plus unless every operand is minus.
    by_cases hm : m = .rdn
    · cases hys : y.s <;> simp_all
    · cases hys : y.s <;> simp_all
  · simp [hy0]

theorem isTotal_foldl (m : RMode) (rest : List Exact) : ∀ {xs : List Exact} {z : Exact}, IsTotal m xs z → xs ≠ [] → (∀ y ∈ rest, 0 < y.d) →
    IsTotal m (xs ++ rest) (rest.foldl (Exact.add m) z) := by
  induction rest with
  | nil =>
    intro xs z hz _ _
    simpa using hz
  | cons y rest ih =>
    intro xs z hz hxs hd
    obtain ⟨hy, hrest⟩ := List.forall_mem_cons.1 hd
    simpa using ih (hz.add hxs hy) (by simp) hrest

/-! ### Sums of values (R121) -/

theorem FVal.isNan_iff (x : FVal) : x.isNan = true ↔ x = .nan := by
  cases x <;> simp [FVal.isNan]

theorem any_isNan_iff (ts : List FVal) : ts.any FVal.isNan = true ↔ FVal.nan ∈ ts := by
  simp [FVal.isNan_iff]

/-- A sum of values is rounded once from their exact sum, after NaN and infinities. -/
theorem sumVals_isSumOf (f : Layout) (m : RMode) (sat : Bool) {ts : List FVal} (ht : ∀ x, FVal.fin x ∈ ts → 0 < x.d) :
    IsSumOf f m sat ts (sumVals f m sat ts) := by
  have nan := any_isNan_iff ts
  have inf (a : Bool) : ts.any (fun t => decide (t = .inf a)) = true ↔ FVal.inf a ∈ ts := by simp
  have nan_off (h : FVal.nan ∉ ts) := Bool.eq_false_iff.2 (mt nan.1 h)
  have inf_off (a : Bool) (h : FVal.inf a ∉ ts) := Bool.eq_false_iff.2 (mt (inf a).1 h)
  unfold sumVals
  dsimp only
  refine ⟨fun h => ?_, fun hn hp hm => ?_, fun a hn ha hb => ?_, fun xs hxs hne => ?_⟩
  · rw [if_pos (nan.2 h)]
  · simp only [nan_off hn, (inf _).2 hp, (inf _).2 hm]
    rfl
  · cases a
    · simp only [nan_off hn, (inf _).2 ha, inf_off true hb]
      rfl
    · simp only [nan_off hn, (inf _).2 ha, inf_off false hb]
      rfl
  · have hfin : ∀ t ∈ ts, ∃ x, t = FVal.fin x := by simp [hxs]
    have hn : FVal.nan ∉ ts := fun h => by simpa using hfin _ h
    have hi (a : Bool) : FVal.inf a ∉ ts := fun h => by simpa using hfin _ h
    simp only [nan_off hn, inf_off _ (hi _)]
    obtain ⟨x, rest, rfl⟩ := List.exists_cons_of_ne_nil hne
    have hd : ∀ y ∈ x :: rest, 0 < y.d := fun y hy => ht y (by rw [hxs]; exact List.mem_map_of_mem hy)
    obtain ⟨hx, hrest⟩ := List.forall_mem_cons.1 hd
    refine ⟨_, isTotal_foldl m rest (isTotal_singleton m hx) (by simp) hrest, ?_⟩
    simp [hxs, List.filterMap_map]

/-- Where infinities are added and no NaN. -/
theorem IsSumOf.infinite {f : Layout} {m : RMode} {sat : Bool} {ts : List FVal} {r : FRes} (h : IsSumOf f m sat ts r) (hn : FVal.nan ∉ ts) {a : Bool}
    (ha : FVal.inf a ∈ ts) : r = if FVal.inf false ∈ ts ∧ FVal.inf true ∈ ts then ⟨f.nan, flagINV⟩
      else if FVal.inf false ∈ ts then ⟨f.infinity false, 0#4⟩ else ⟨f.infinity true, 0#4⟩ := by
  obtain ⟨-, opposite, like, -⟩ := h
  by_cases hp : FVal.inf false ∈ ts
  · by_cases hm : FVal.inf true ∈ ts
    · rw [if_pos ⟨hp, hm⟩]
      exact opposite hn hp hm
    · rw [if_neg fun h => hm h.2, if_pos hp]
      exact like false hn hp hm
  · rw [if_neg fun h => hp h.1, if_neg hp]
    cases a
    · exact absurd ha hp
    · exact like true hn ha hp

/-- R121: a sum of two. -/
theorem IsSumOf.isSum {f : Layout} {m : RMode} {sat : Bool} {x y : FVal} {r : FRes} (h : IsSumOf f m sat [x, y] r) : IsSum f m sat x y r := by
  obtain ⟨nan, opposite, like, total⟩ := h
  cases x with
  | nan => exact nan (by simp)
  | inf a =>
    cases y with
    | nan => exact nan (by simp)
    | inf b =>
      show if a = b then _ else _
      by_cases hab : a = b
      · subst hab
        rw [if_pos rfl]
        exact like a (by simp) (by simp) (by simp)
      · obtain rfl : b = !a := Bool.eq_not.2 (Ne.symm hab)
        rw [if_neg hab]
        cases a <;> exact opposite (by simp) (by simp) (by simp)
    | fin y => exact like a (by simp) (by simp) (by simp)
  | fin x =>
    cases y with
    | nan => exact nan (by simp)
    | inf b => exact like b (by simp) (by simp) (by simp)
    | fin y => exact total [x, y] rfl (by simp)

/-! ### Products and fused products (R121) -/

/-- A value whose exact part, if it has one, is a fraction. -/
def FVal.Proper (x : FVal) : Prop := ∀ e, x = .fin e → 0 < e.d

theorem Exact.mul_val (x y : Exact) : (x.mul y).val = x.val * y.val := by
  have num : (x.mul y).num = x.num * y.num := by
    unfold Exact.mul Exact.num
    cases x.s <;> cases y.s <;> simp
  rw [Exact.val, num, Exact.mul, Exact.val, Exact.val, div_mul_div_comm]
  push_cast
  rfl

theorem mulVals_isProduct {x y : FVal} (hx : x.Proper) (hy : y.Proper) : IsProduct x y (mulVals x y) := by
  cases x with
  | nan => rfl
  | inf a => cases y <;> rfl
  | fin x =>
    cases y with
    | nan => rfl
    | inf b => rfl
    | fin y => exact ⟨x.mul y, rfl, Nat.mul_pos (hx x rfl) (hy y rfl), x.mul_val y, rfl⟩

/-- What a product can be: a NaN of a NaN, an infinity, or an exact value. -/
theorem IsProduct.cases {x y p : FVal} (h : IsProduct x y (some p)) :
    (p = .nan ∧ (x.isNan = true ∨ y.isNan = true)) ∨ (∃ a, p = .inf a) ∨ ∃ e, p = .fin e ∧ 0 < e.d := by
  have infinite {n : Nat} {a : Bool} (h : some p = if n = 0 then none else some (FVal.inf a)) : ∃ a, p = .inf a := by
    split at h <;> cases h
    exact ⟨a, rfl⟩
  cases x with
  | nan =>
    cases h
    exact .inl ⟨rfl, .inl rfl⟩
  | inf a =>
    cases y with
    | nan =>
      cases h
      exact .inl ⟨rfl, .inr rfl⟩
    | inf b =>
      cases h
      exact .inr (.inl ⟨_, rfl⟩)
    | fin y => exact .inr (.inl (infinite h))
  | fin x =>
    cases y with
    | nan =>
      cases h
      exact .inl ⟨rfl, .inr rfl⟩
    | inf b => exact .inr (.inl (infinite h))
    | fin y =>
      obtain ⟨w, hw, hd, -⟩ := h
      cases hw
      exact .inr (.inr ⟨w, rfl, hd⟩)

theorem IsProduct.proper {x y p : FVal} (h : IsProduct x y (some p)) : p.Proper := by
  rcases h.cases with ⟨rfl, -⟩ | ⟨a, rfl⟩ | ⟨e, rfl, hd⟩
  · exact fun _ he => nomatch he
  · exact fun _ he => nomatch he
  · rintro _ ⟨⟩
    exact hd

section
variable (f : Layout) (m : RMode) (sat : Bool) {x y z : FVal}

theorem addF_isSum (hx : x.Proper) (hy : y.Proper) : IsSum f m sat x y (addF f m sat x y) := by
  refine (sumVals_isSumOf f m sat fun e he => ?_).isSum
  rcases List.mem_pair.1 he with he | he
  · exact hx e he.symm
  · exact hy e he.symm

theorem mulF_isRounded (x y : FVal) : IsRounded f m sat (mulVals x y) (mulF f m sat x y) := by
  unfold mulF
  rcases mulVals x y with _ | (_ | _ | _) <;> rfl

theorem fmaF_isFused (hx : x.Proper) (hy : y.Proper) (hz : z.Proper) : IsFused f m sat x y z (fmaF f m sat x y z) := by
  have product := mulVals_isProduct hx hy
  unfold IsFused fmaF
  simp only [Bool.or_eq_true, or_assoc]
  split
  next => rfl
  next =>
    refine ⟨_, product, ?_⟩
    cases hp : mulVals x y with
    | none => rfl
    | some p => exact addF_isSum f m sat (hp ▸ product).proper hz

end

/-! ### The dot product (R129) -/

theorem FVal.inf_or_fin {x : FVal} (h : ¬x.isNan = true) : (∃ a, x = .inf a) ∨ ∃ e, x = .fin e := by
  cases x with
  | nan => exact absurd rfl h
  | inf a => exact .inl ⟨a, rfl⟩
  | fin e => exact .inr ⟨e, rfl⟩

theorem IsProduct.not_nan {x y p : FVal} (h : IsProduct x y (some p)) (hx : ¬x.isNan = true) (hy : ¬y.isNan = true) : ¬p.isNan = true := by
  rcases h.cases with ⟨-, hn⟩ | ⟨a, rfl⟩ | ⟨e, rfl, -⟩
  · exact absurd hn (not_or.2 ⟨hx, hy⟩)
  · exact Bool.false_ne_true
  · exact Bool.false_ne_true

/-- An operand of a dot product is a NaN. -/
def DotNan (x0 y0 x1 y1 c : FVal) : Prop := x0.isNan ∨ x1.isNan ∨ y0.isNan ∨ y1.isNan ∨ c.isNan

theorem dotNan_iff (x0 y0 x1 y1 c : FVal) : (x0.isNan || y0.isNan || x1.isNan || y1.isNan || c.isNan) = true ↔ DotNan x0 y0 x1 y1 c := by
  simp only [Bool.or_eq_true, DotNan]
  tauto

section
variable {m : RMode} {sat : Bool} {x0 y0 x1 y1 c : FVal}

theorem dot2F_nan (h : DotNan x0 y0 x1 y1 c) : dot2F m sat x0 y0 x1 y1 c = ⟨(layoutOf .f32).nan, 0#4⟩ :=
  if_pos ((dotNan_iff ..).2 h)

/-- A product 0 × ∞ of operands that are no NaN. -/
theorem dot2F_invalid (h : ¬DotNan x0 y0 x1 y1 c) (hp : mulVals x0 y0 = none ∨ mulVals x1 y1 = none) :
    dot2F m sat x0 y0 x1 y1 c = ⟨(layoutOf .f32).nan, flagINV⟩ := by
  unfold dot2F
  dsimp only
  rw [if_neg (mt (dotNan_iff ..).1 h)]
  rcases hp with hp | hp
  · rw [hp]
  · rw [hp]
    cases mulVals x0 y0 <;> rfl

section
variable {p q : FVal} (h : ¬DotNan x0 y0 x1 y1 c) (hp : IsProduct x0 y0 (some p)) (hq : IsProduct x1 y1 (some q))
  (hc : c.Proper) (ep : mulVals x0 y0 = some p) (eq : mulVals x1 y1 = some q)
include h hp hq

/-- The terms of a dot product of operands that are no NaN are no NaN. -/
theorem dot_terms_not_nan : ∀ t ∈ [p, q, c], ¬t.isNan = true := by
  obtain ⟨hx0, hx1, hy0, hy1, hc⟩ : ¬x0.isNan = true ∧ ¬x1.isNan = true ∧ ¬y0.isNan = true ∧ ¬y1.isNan = true ∧ ¬c.isNan = true := by
    simpa only [DotNan, not_or] using h
  simp only [List.forall_mem_cons, List.not_mem_nil, false_imp_iff, implies_true, and_true]
  exact ⟨hp.not_nan hx0 hy0, hq.not_nan hx1 hy1, hc⟩

/-- Terms that are not all finite hold an infinity. -/
theorem dot_terms_infinite (hfin : ∀ a b e, p = .fin a → q = .fin b → c = .fin e → False) : ∃ a, p = .inf a ∨ q = .inf a ∨ c = .inf a := by
  have terms (t : FVal) (ht : t ∈ [p, q, c]) := FVal.inf_or_fin (dot_terms_not_nan h hp hq t ht)
  rcases terms p (by simp) with ⟨a, hi⟩ | ⟨u, hu⟩
  · exact ⟨a, .inl hi⟩
  rcases terms q (by simp) with ⟨a, hi⟩ | ⟨v, hv⟩
  · exact ⟨a, .inr (.inl hi)⟩
  rcases terms c (by simp) with ⟨a, hi⟩ | ⟨w, hw⟩
  · exact ⟨a, .inr (.inr hi)⟩
  · exact (hfin u v w hu hv hw).elim

include hc ep eq

theorem dot2F_isSumOf : IsSumOf (layoutOf .f32) m sat [p, q, c] (dot2F m sat x0 y0 x1 y1 c) := by
  have sum : dot2F m sat x0 y0 x1 y1 c = sumVals (layoutOf .f32) m sat [p, q, c] := by
    unfold dot2F
    dsimp only
    rw [if_neg (mt (dotNan_iff ..).1 h), ep, eq]
  rw [sum]
  refine sumVals_isSumOf _ m sat fun e he => ?_
  simp only [List.mem_cons, List.not_mem_nil, or_false] at he
  rcases he with rfl | rfl | rfl
  · exact hp.proper e rfl
  · exact hq.proper e rfl
  · exact hc e rfl

/-- A dot product with an infinite term. -/
theorem dot2F_infinite {a : Bool} (ha : p = .inf a ∨ q = .inf a ∨ c = .inf a) : dot2F m sat x0 y0 x1 y1 c =
    if FVal.inf false ∈ [p, q, c] ∧ FVal.inf true ∈ [p, q, c] then ⟨(layoutOf .f32).nan, flagINV⟩
    else if FVal.inf false ∈ [p, q, c] then ⟨(layoutOf .f32).infinity false, 0#4⟩ else ⟨(layoutOf .f32).infinity true, 0#4⟩ := by
  refine (dot2F_isSumOf h hp hq hc ep eq).infinite (a := a) (fun hn => dot_terms_not_nan h hp hq _ hn rfl) ?_
  simpa [@eq_comm _ (FVal.inf a)] using ha

end

end

end Sys2Proof.Machine
end

section
/-! The floating and packed instructions (R116, R121, R128, R129). -/

namespace Sys2Proof.Machine

theorem f32Val_proper (w : Word) : (f32Val w).Proper := fun _ => Layout.value_d_pos

theorem FVal.Proper.neg {x : FVal} (hx : x.Proper) : x.neg.Proper := by
  cases x with
  | nan => exact fun _ he => nomatch he
  | inf a => exact fun _ he => nomatch he
  | fin x =>
    rintro _ ⟨⟩
    exact hx x rfl

theorem FVal.Proper.abs {x : FVal} (hx : x.Proper) : x.abs.Proper := by
  cases x with
  | nan => exact fun _ he => nomatch he
  | inf a => exact fun _ he => nomatch he
  | fin x =>
    rintro _ ⟨⟩
    exact hx x rfl

theorem applyMod_proper (abs neg : Bool) {x : FVal} (hx : x.Proper) : (applyMod abs neg x).Proper := by
  cases abs <;> cases neg
  · exact hx
  · exact hx.neg
  · exact hx.abs
  · exact hx.abs.neg

theorem elemK_proper (f abs neg : Bool) (w : Word) (i : Nat) : (elemK f abs neg w i).Proper :=
  applyMod_proper abs neg fun _ => Layout.value_d_pos

theorem deliversSuch_of_aluF {i : Instr} {s : State} {u : Bool} {h : Guard} {d : Reg} {r : Lane → IRes 32} {good : Lane → IRes 32 → Prop} (lat : Nat)
    (he : exec i s = .next (s.aluF u h d lat r)) (hr : ∀ l, good l (r l)) : DeliversSuch i s u h d good :=
  ⟨r, hr, delivers_of_aluF lat he⟩

section
variable (s : State) (u : Bool) (h : Guard) (d a : Reg) (b : BSel)

theorem exec_fadd : exec (.fadd u h d a b) s = .next (s.aluF u h d 12 fun l =>
    (addF (layoutOf .f32) s.grp.mode s.grp.modf.sat (s.grp.fA l a) (s.grp.fB l b)).word) := rfl

theorem exec_fsub : exec (.fsub u h d a b) s = .next (s.aluF u h d 12 fun l =>
    (addF (layoutOf .f32) s.grp.mode s.grp.modf.sat (s.grp.fA l a) (s.grp.fB l b).neg).word) := rfl

theorem exec_fmul : exec (.fmul u h d a b) s = .next (s.aluF u h d 12 fun l =>
    (mulF (layoutOf .f32) s.grp.mode s.grp.modf.sat (s.grp.fA l a) (s.grp.fB l b)).word) := rfl

theorem exec_ffma : exec (.ffma u h d a b) s = .next (s.aluF u h d 12 fun l =>
    (fmaF (layoutOf .f32) s.grp.mode s.grp.modf.sat (s.grp.fA l a) (s.grp.fB l b) (s.grp.fD l d)).word) := rfl

/-- R121: floating arithmetic completes in every state and on every operand. -/
theorem floatArithmetic_completes : ∀ i ∈ [Instr.fadd u h d a b, .fsub u h d a b, .fmul u h d a b, .ffma u h d a b],
    ∃ t, exec i s = .next t ∧ OnlyGroup s t ∧ t.grp.pc = s.grp.complete.pc := by
  simp only [List.forall_mem_cons, List.not_mem_nil, false_imp_iff, implies_true, and_true]
  exact ⟨(delivers_of_aluF 12 (exec_fadd s u h d a b)).completes, (delivers_of_aluF 12 (exec_fsub s u h d a b)).completes,
    (delivers_of_aluF 12 (exec_fmul s u h d a b)).completes, (delivers_of_aluF 12 (exec_ffma s u h d a b)).completes⟩

end

/-- Settles O11: each result is rounded once from the exact sum, product or fused product of the operands. -/
theorem floatArithmetic : Obligations.FloatArithmetic := by
  unfold Obligations.FloatArithmetic
  intro s u h d a b
  refine ⟨floatArithmetic_completes s u h d a b, ?_⟩
  intro f m z x y w word
  have hx (l : Lane) : (x l).Proper := f32Val_proper _
  have hy (l : Lane) : (y l).Proper := f32Val_proper _
  have hw (l : Lane) : (w l).Proper := f32Val_proper _
  exact ⟨deliversSuch_of_aluF 12 (exec_fadd s u h d a b) fun l => ⟨_, addF_isSum f m z (hx l) (hy l), rfl⟩,
    deliversSuch_of_aluF 12 (exec_fsub s u h d a b) fun l => ⟨_, addF_isSum f m z (hx l) (hy l).neg, rfl⟩,
    deliversSuch_of_aluF 12 (exec_fmul s u h d a b) fun l =>
      ⟨_, ⟨_, mulVals_isProduct (hx l) (hy l), mulF_isRounded f m z (x l) (y l)⟩, rfl⟩,
    deliversSuch_of_aluF 12 (exec_ffma s u h d a b) fun l => ⟨_, fmaF_isFused f m z (hx l) (hy l) (hw l), rfl⟩⟩

/-! ### Packed forms -/

section
variable (s : State) (h : Guard) (d a : Reg) (bf ghalf : Bool) (b : BitVec 6)

theorem exec_hadd2 : exec (.hadd2 h d a bf ghalf b) s = .next (s.aluF false h d 12 fun l =>
    let r (i : Nat) := addF (layoutOf (fmtK bf)) s.grp.mode s.grp.modf.sat (s.grp.kA bf l a i) (s.grp.kB bf l (BitVec.ofBool ghalf ++ b) i)
    packK (r 0) (r 1)) := rfl

theorem exec_hmul2 : exec (.hmul2 h d a bf ghalf b) s = .next (s.aluF false h d 12 fun l =>
    let r (i : Nat) := mulF (layoutOf (fmtK bf)) s.grp.mode s.grp.modf.sat (s.grp.kA bf l a i) (s.grp.kB bf l (BitVec.ofBool ghalf ++ b) i)
    packK (r 0) (r 1)) := rfl

theorem exec_hfma2 : exec (.hfma2 h d a bf ghalf b) s = .next (s.aluF false h d 12 fun l =>
    let r (i : Nat) := fmaF (layoutOf (fmtK bf)) s.grp.mode s.grp.modf.sat (s.grp.kA bf l a i) (s.grp.kB bf l (BitVec.ofBool ghalf ++ b) i)
      (s.grp.kD bf l d i)
    packK (r 0) (r 1)) := rfl

theorem exec_dot2 : exec (.dot2 h d a bf ghalf b) s = .next (s.aluF false h d 12 fun l =>
    (dot2F s.grp.mode s.grp.modf.sat (s.grp.kA bf l a 0) (s.grp.kB bf l (BitVec.ofBool ghalf ++ b) 0)
      (s.grp.kA bf l a 1) (s.grp.kB bf l (BitVec.ofBool ghalf ++ b) 1) (s.grp.fD l d)).word) := rfl

/-- R128, R129: packed arithmetic completes in every state and on every operand. -/
theorem packedArithmetic_completes :
    ∀ i ∈ [Instr.hadd2 h d a bf ghalf b, .hmul2 h d a bf ghalf b, .hfma2 h d a bf ghalf b, .dot2 h d a bf ghalf b],
      ∃ t, exec i s = .next t ∧ OnlyGroup s t ∧ t.grp.pc = s.grp.complete.pc := by
  simp only [List.forall_mem_cons, List.not_mem_nil, false_imp_iff, implies_true, and_true]
  exact ⟨(delivers_of_aluF 12 (exec_hadd2 s h d a bf ghalf b)).completes, (delivers_of_aluF 12 (exec_hmul2 s h d a bf ghalf b)).completes,
    (delivers_of_aluF 12 (exec_hfma2 s h d a bf ghalf b)).completes, (delivers_of_aluF 12 (exec_dot2 s h d a bf ghalf b)).completes⟩

end

/-- An element of a packed word is the value of its 16 bits, after the modifiers. -/
theorem elemK_eq (f abs neg : Bool) (w : Word) (i : Nat) :
    elemK f abs neg w i = applyMod abs neg ((layoutOf (fmtK f)).value (w.toNat / 2 ^ (16 * i) % 2 ^ 16)) := by
  rw [elemK, BitVec.extractLsb'_toNat, Nat.shiftRight_eq_div_pow]

/-- The packed b operand is of the group's file where its half bit is set. -/
theorem Group.opK_append (g : Group) (l : Lane) (ghalf : Bool) (b : BitVec 6) :
    g.opK l (BitVec.ofBool ghalf ++ b) = if ghalf then g.getG b else g.rd l b := by
  have low : (BitVec.ofBool ghalf ++ b).extractLsb' 0 6 = b := BitVec.extractLsb'_append_eq_right
  have high : (BitVec.ofBool ghalf ++ b).getLsbD 6 = ghalf := by
    rw [BitVec.getLsbD_append]
    cases ghalf <;> rfl
  rw [Group.opK, low, high]

/-- Settles O12: the halves are rounded as sums, products and fused products are, the dot product as a sum of three. -/
theorem packedArithmetic : Obligations.PackedArithmetic := by
  unfold Obligations.PackedArithmetic
  intro s h d a bf ghalf b
  refine ⟨packedArithmetic_completes s h d a bf ghalf b, ?_⟩
  intro f m z half bw x y w both
  have hx (l : Lane) (i : Nat) : s.grp.kA bf l a i = x l i := elemK_eq bf _ _ _ i
  have hy (l : Lane) (i : Nat) : s.grp.kB bf l (BitVec.ofBool ghalf ++ b) i = y l i := by
    rw [Group.kB, elemK_eq, Group.opK_append]
    rfl
  have hw (l : Lane) (i : Nat) : s.grp.kD bf l d i = w l i := elemK_eq bf _ _ _ i
  have px (l : Lane) (i : Nat) : (x l i).Proper := hx l i ▸ elemK_proper _ _ _ _ _
  have py (l : Lane) (i : Nat) : (y l i).Proper := hy l i ▸ elemK_proper _ _ _ _ _
  have pw (l : Lane) (i : Nat) : (w l i).Proper := hw l i ▸ elemK_proper _ _ _ _ _
  have add := exec_hadd2 s h d a bf ghalf b
  have mul := exec_hmul2 s h d a bf ghalf b
  have fma := exec_hfma2 s h d a bf ghalf b
  have dot := exec_dot2 s h d a bf ghalf b
  simp only [hx, hy, hw] at add mul fma dot
  refine ⟨deliversSuch_of_aluF 12 add fun l => ?_, deliversSuch_of_aluF 12 mul fun l => ?_, deliversSuch_of_aluF 12 fma fun l => ?_, ?_⟩
  · have sum (i : Nat) := addF_isSum f m z (px l i) (py l i)
    exact ⟨_, _, sum 0, sum 1, rfl⟩
  · have product (i : Nat) := mulVals_isProduct (px l i) (py l i)
    have rounded (i : Nat) := mulF_isRounded f m z (x l i) (y l i)
    exact ⟨_, _, ⟨_, product 0, rounded 0⟩, ⟨_, product 1, rounded 1⟩, rfl⟩
  · have fused (i : Nat) := fmaF_isFused f m z (px l i) (py l i) (pw l i)
    exact ⟨_, _, fused 0, fused 1, rfl⟩
  intro c rounded infinite
  have hc (l : Lane) : s.grp.fD l d = c l := rfl
  have pc (l : Lane) : (c l).Proper := f32Val_proper _
  simp only [hc] at dot
  refine deliversSuch_of_aluF 12 dot fun l => ?_
  have hp := mulVals_isProduct (px l 0) (py l 0)
  have hq := mulVals_isProduct (px l 1) (py l 1)
  refine ⟨_, _, hp, hq, ?_⟩
  split
  next hn => exact congrArg FRes.word (dot2F_nan hn)
  next hn =>
    split
    next p q e ep eq ec =>
      obtain ⟨-, -, -, total⟩ := dot2F_isSumOf (m := m) (sat := z) hn (ep ▸ hp) (eq ▸ hq) (pc l) ep eq
      obtain ⟨t, ht, hr⟩ := total [p, q, e] (by simp [ec]) (by simp)
      exact ⟨t, ht, congrArg FRes.word hr⟩
    next p q ep eq hfin =>
      obtain ⟨g, hg⟩ := dot_terms_infinite hn (ep ▸ hp) (eq ▸ hq) fun a b e ha hb he => hfin a b e he ha hb
      refine ⟨?_, ?_⟩
      · cases g
        · exact hg.imp .inl (.imp .inl .inl)
        · exact hg.imp .inr (.imp .inr .inr)
      · rw [dot2F_infinite hn (ep ▸ hp) (eq ▸ hq) (pc l) ep eq hg]
        split
        · rfl
        · split <;> rfl
    next both_some _ =>
      refine congrArg FRes.word (dot2F_invalid hn ?_)
      cases ep : mulVals (x l 0) (y l 0) with
      | none => exact .inl rfl
      | some p =>
        cases eq : mulVals (x l 1) (y l 1) with
        | none => exact .inr rfl
        | some q => exact (both_some p q ep eq).elim

end Sys2Proof.Machine
end

section
/-! Integer arithmetic, minima, maxima and logic (R90, R93). -/

namespace Sys2Proof.Machine

/-! ### Results without flags -/

/-- Flags that are all 0 change nothing. -/
theorem Group.raise_eq_self (g : Group) (ls : List Lane) {f : Lane → BitVec 4} (hf : ∀ l, f l = 0#4) : g.raise ls f = g := by
  have none_raised : ls.foldl (fun x l => x ||| f l) 0#4 = 0#4 := by
    simp only [hf, BitVec.or_zero]
    exact List.foldl_fixed ls
  unfold Group.raise
  dsimp only
  rw [none_raised, if_neg (by simp)]
  simp

theorem State.aluF_eq_alu (s : State) (u : Bool) (h : Guard) (d : Reg) (lat : Nat) {f : Lane → IRes 32} (hf : ∀ l, (f l).fl = 0#4) :
    s.aluF u h d lat f = s.alu u h d lat fun l => (f l).val := by
  unfold State.aluF State.alu
  dsimp only
  rw [Group.raise_eq_self _ _ hf]

theorem State.alu64F_eq_alu64 (s : State) (u : Bool) (h : Guard) (d : Reg) (lat : Nat) {f : Lane → IRes 64} (hf : ∀ l, (f l).fl = 0#4) :
    s.alu64F u h d lat f = s.alu64 u h d lat fun l => (f l).val := by
  unfold State.alu64F State.alu64
  dsimp only
  rw [Group.raise_eq_self _ _ hf]

/-- An instruction that completes by `alu64` computes the value of each lane. -/
theorem computesPair_of_alu64 {i : Instr} {s : State} {u : Bool} {h : Guard} {d : Reg} {f : Lane → Dword} {v : Lane → Int} (lat : Nat)
    (he : exec i s = .next (s.alu64 u h d lat f)) (hf : ∀ l, f l = BitVec.ofInt 64 (v l)) : ComputesPair i s u h d v :=
  ⟨_, he, s.alu64_wrote u h d lat f, fun l hl => by rw [s.alu64_grp_rd u h d lat f hl, hf]⟩

/-- R90: without SAT an instruction of `satOr32` writes the wrapped result and raises nothing. -/
theorem computes_of_satOr32 {i : Instr} {s : State} {u : Bool} {h : Guard} {d : Reg} {wrap : Lane → Word} {v w : Lane → Int} (lat : Nat)
    (hs : s.grp.modf.sat = false) (he : exec i s = .next (s.aluF u h d lat fun l => satOr32 s.grp.modf.sat (wrap l) (w l)))
    (hv : ∀ l, wrap l = BitVec.ofInt 32 (v l)) : Computes i s u h d v := by
  have wraps (l : Lane) : satOr32 s.grp.modf.sat (wrap l) (w l) = ⟨wrap l, 0#4⟩ := by rw [satOr32, hs, if_neg Bool.false_ne_true]
  simp only [wraps] at he
  rw [s.aluF_eq_alu u h d lat fun _ => rfl] at he
  exact computes_of_alu lat he hv

/-- R90: the same for pairs. -/
theorem computesPair_of_satOr64 {i : Instr} {s : State} {u : Bool} {h : Guard} {d : Reg} {wrap : Lane → Dword} {v w : Lane → Int} (lat : Nat)
    (hs : s.grp.modf.sat = false) (he : exec i s = .next (s.alu64F u h d lat fun l => satOr64 s.grp.modf.sat (wrap l) (w l)))
    (hv : ∀ l, wrap l = BitVec.ofInt 64 (v l)) : ComputesPair i s u h d v := by
  have wraps (l : Lane) : satOr64 s.grp.modf.sat (wrap l) (w l) = ⟨wrap l, 0#4⟩ := by rw [satOr64, hs, if_neg Bool.false_ne_true]
  simp only [wraps] at he
  rw [s.alu64F_eq_alu64 u h d lat fun _ => rfl] at he
  exact computesPair_of_alu64 lat he hv

/-- R90: under SAT an instruction on pairs delivers its exact result saturated. -/
theorem deliversPair_of_satOr64 {i : Instr} {s : State} {u : Bool} {h : Guard} {d : Reg} {wrap : Lane → Dword} {v : Lane → Int} (lat : Nat)
    (hs : s.grp.modf.sat = true) (he : exec i s = .next (s.alu64F u h d lat fun l => satOr64 s.grp.modf.sat (wrap l) (v l))) :
    DeliversPair i s u h d (fun l => BitVec.ofInt 64 (clamp (leastOf .i64) (greatestOf .i64) (v l)))
      (fun l => clampFlags (leastOf .i64) (greatestOf .i64) (v l)) := by
  have saturated (l : Lane) : satOr64 s.grp.modf.sat (wrap l) (v l) =
      ⟨BitVec.ofInt 64 (clamp (leastOf .i64) (greatestOf .i64) (v l)), clampFlags (leastOf .i64) (greatestOf .i64) (v l)⟩ := by
    rw [satOr64, if_pos hs, saturateInt_eq]
  simp only [saturated] at he
  exact deliversPair_of_alu64F lat he

/-! ### Sums, differences and products -/

section
variable {w : Nat} (x y : BitVec w)

theorem add_eq_ofInt : x + y = BitVec.ofInt w (x.toInt + y.toInt) := by
  rw [BitVec.ofInt_add, BitVec.ofInt_toInt, BitVec.ofInt_toInt]

theorem mul_eq_ofInt : x * y = BitVec.ofInt w (x.toInt * y.toInt) := by
  rw [BitVec.ofInt_mul, BitVec.ofInt_toInt, BitVec.ofInt_toInt]

theorem sub_eq_ofInt : x - y = BitVec.ofInt w (x.toInt - y.toInt) := by
  rw [BitVec.sub_eq_add_neg, sub_eq_add_neg, BitVec.ofInt_add, BitVec.ofInt_neg, BitVec.ofInt_toInt, BitVec.ofInt_toInt]

end

/-- A word is the integer of its unsigned value. -/
theorem eq_ofInt_toNat {w : Nat} (x : BitVec w) : x = BitVec.ofInt w x.toNat := by
  rw [BitVec.ofInt_natCast, BitVec.ofNat_toNat, BitVec.setWidth_eq]

/-- The high word of an integer's 64 bits is the integer divided by 2^32. -/
theorem extractLsb'_high_ofInt (i : Int) : (BitVec.ofInt 64 i).extractLsb' 32 32 = BitVec.ofInt 32 (i / 2 ^ 32) := by
  apply BitVec.eq_of_toNat_eq
  rw [BitVec.extractLsb'_toNat, Nat.shiftRight_eq_div_pow, BitVec.toNat_ofInt, BitVec.toNat_ofInt]
  omega

theorem mulhS_eq (x y : Word) : mulhS x y = BitVec.ofInt 32 (x.toInt * y.toInt / 2 ^ 32) := by
  unfold mulhS
  rw [mul_eq_ofInt, BitVec.toInt_signExtend_of_le (by omega), BitVec.toInt_signExtend_of_le (by omega), extractLsb'_high_ofInt]

theorem mulhU_eq (x y : Word) : mulhU x y = BitVec.ofInt 32 (x.toNat * y.toNat / 2 ^ 32 : Nat) := by
  have product : x.setWidth 64 * y.setWidth 64 = BitVec.ofInt 64 (x.toNat * y.toNat : Nat) := by
    rw [BitVec.ofInt_natCast, BitVec.ofNat_mul, BitVec.ofNat_toNat, BitVec.ofNat_toNat]
  unfold mulhU
  rw [product, extractLsb'_high_ofInt]
  rfl

/-- Settles O1: without SAT `satOr32` gives the wrapped result, and the high halves are those of the 64-bit products. -/
theorem integerArithmeticWraps : Obligations.IntegerArithmeticWraps := by
  unfold Obligations.IntegerArithmeticWraps
  intro s u h d a b
  refine ⟨fun hs => ⟨?_, ?_, ?_, ?_⟩, computes_of_alu 4 rfl fun l => mulhS_eq _ _, computes_of_alu 4 rfl fun l => mulhU_eq _ _⟩
  · exact computes_of_satOr32 4 hs rfl fun l => add_eq_ofInt _ _
  · exact computes_of_satOr32 4 hs rfl fun l => sub_eq_ofInt _ _
  · exact computes_of_satOr32 4 hs rfl fun l => mul_eq_ofInt _ _
  · refine computes_of_satOr32 4 hs rfl fun l => ?_
    rw [mul_eq_ofInt, BitVec.ofInt_add, BitVec.ofInt_toInt]

/-- Settles O3: `addx` and `subx` give `satOr64` the wrapped and the exact result. -/
theorem pairArithmetic : Obligations.PairArithmetic := by
  unfold Obligations.PairArithmetic
  intro s u h d a b
  exact ⟨fun hs => ⟨computesPair_of_satOr64 4 hs rfl fun l => add_eq_ofInt _ _, computesPair_of_satOr64 4 hs rfl fun l => sub_eq_ofInt _ _⟩,
    fun hs => ⟨deliversPair_of_satOr64 4 hs rfl, deliversPair_of_satOr64 4 hs rfl⟩⟩

/-! ### Minima, maxima and logic -/

section
variable (x y : Word)

theorem minS_eq : minS x y = BitVec.ofInt 32 (min x.toInt y.toInt) := by
  unfold minS
  rw [BitVec.slt_eq_decide]
  by_cases h : x.toInt < y.toInt
  · simp [h, min_eq_left h.le]
  · simp [h, min_eq_right (not_lt.1 h)]

theorem maxS_eq : maxS x y = BitVec.ofInt 32 (max x.toInt y.toInt) := by
  unfold maxS
  rw [BitVec.slt_eq_decide]
  by_cases h : x.toInt < y.toInt
  · simp [h, max_eq_right h.le]
  · simp [h, max_eq_left (not_lt.1 h)]

theorem minU_eq : minU x y = BitVec.ofInt 32 (min x.toNat y.toNat : Nat) := by
  unfold minU
  rw [BitVec.ult_eq_decide]
  by_cases h : x.toNat < y.toNat
  · rw [min_eq_left h.le, ← eq_ofInt_toNat]
    simp [h]
  · rw [min_eq_right (not_lt.1 h), ← eq_ofInt_toNat]
    simp [h]

theorem maxU_eq : maxU x y = BitVec.ofInt 32 (max x.toNat y.toNat : Nat) := by
  unfold maxU
  rw [BitVec.ult_eq_decide]
  by_cases h : x.toNat < y.toNat
  · rw [max_eq_right h.le, ← eq_ofInt_toNat]
    simp [h]
  · rw [max_eq_left (not_lt.1 h), ← eq_ofInt_toNat]
    simp [h]

end

/-- Settles O4: the signed and the unsigned order choose, and the logic is that of the unsigned values. -/
theorem minMaxLogic : Obligations.MinMaxLogic := by
  unfold Obligations.MinMaxLogic
  intro s u h d a b x y
  refine ⟨computes_of_alu 4 rfl fun l => minS_eq _ _, computes_of_alu 4 rfl fun l => maxS_eq _ _, computes_of_alu 4 rfl fun l => minU_eq _ _,
    computes_of_alu 4 rfl fun l => maxU_eq _ _, computes_of_alu 4 rfl fun l => ?_, computes_of_alu 4 rfl fun l => ?_,
    computes_of_alu 4 rfl fun l => ?_, computes_of_alu 4 rfl fun l => ?_⟩
  · rw [← BitVec.toNat_and, ← eq_ofInt_toNat]
  · rw [← BitVec.toNat_or, ← eq_ofInt_toNat]
  · rw [← BitVec.toNat_xor, ← eq_ofInt_toNat]
  · rw [show 2 ^ 32 - 1 - (y l).toNat = (~~~y l).toNat from BitVec.toNat_not.symm, ← BitVec.toNat_and, ← eq_ofInt_toNat]

end Sys2Proof.Machine
end

section
/-! Shifts, unary operations, bit fields, addresses, immediates and compares (R93 to R99). -/

namespace Sys2Proof.Machine

/-- A word is the integer of any natural number that is its unsigned value modulo 2^w. -/
theorem eq_ofInt_of_mod {w n : Nat} {x : BitVec w} (h : x.toNat = n % 2 ^ w) : x = BitVec.ofInt w n := by
  rw [BitVec.ofInt_natCast]
  exact BitVec.eq_of_toNat_eq (by rw [h, BitVec.toNat_ofNat])

/-! ### Shifts -/

section
variable (x n : Word)

theorem shlW_eq : shlW x n = BitVec.ofInt 32 (if 32 ≤ n.toNat then 0 else (x.toNat * 2 ^ n.toNat : Nat)) := by
  unfold shlW
  split
  · rfl
  · exact eq_ofInt_of_mod (by rw [BitVec.toNat_shiftLeft, Nat.shiftLeft_eq])

theorem shrW_eq : shrW x n = BitVec.ofInt 32 (if 32 ≤ n.toNat then 0 else (x.toNat / 2 ^ n.toNat : Nat)) := by
  unfold shrW
  split
  · rfl
  · rw [← Nat.shiftRight_eq_div_pow, ← BitVec.toNat_ushiftRight, ← eq_ofInt_toNat]

theorem sarW_eq : sarW x n = BitVec.ofInt 32 (x.toInt / 2 ^ min n.toNat 31) := by
  rw [sarW, BitVec.sshiftRight, Int.shiftRight_eq_div_pow]
  norm_cast

/-- The two parts of a rotation do not overlap. -/
theorem rotation_disjoint {r : Nat} (hr : r < 32) : x <<< r &&& x >>> (32 - r) = 0#32 := by
  ext i hi
  rw [← BitVec.getLsbD_eq_getElem, BitVec.getLsbD_and, BitVec.getLsbD_shiftLeft, BitVec.getLsbD_ushiftRight]
  by_cases h : i < r
  · simp [h]
  · simp [BitVec.getLsbD_of_ge x (32 - r + i) (by omega)]

theorem rotlW_eq : rotlW x n = BitVec.ofInt 32 (x.toNat * 2 ^ (n.toNat % 32) + x.toNat / 2 ^ (32 - n.toNat % 32) : Nat) := by
  have hr : n.toNat % 32 < 32 := Nat.mod_lt _ (by omega)
  unfold rotlW
  generalize n.toNat % 32 = r at hr ⊢
  rw [BitVec.rotateLeft_eq_rotateLeftAux_of_lt hr, BitVec.rotateLeftAux, ← BitVec.add_eq_or_of_and_eq_zero _ _ (rotation_disjoint x hr)]
  refine eq_ofInt_of_mod ?_
  rw [BitVec.toNat_add, BitVec.toNat_shiftLeft, BitVec.toNat_ushiftRight, Nat.shiftLeft_eq, Nat.shiftRight_eq_div_pow, Nat.mod_add_mod]

end

/-- Settles O5: one equation for each function of R93 that shifts. -/
theorem shifts : Obligations.Shifts := by
  unfold Obligations.Shifts
  intro s u h d a b
  exact ⟨computes_of_alu 4 rfl fun l => shlW_eq _ _, computes_of_alu 4 rfl fun l => shrW_eq _ _, computes_of_alu 4 rfl fun l => sarW_eq _ _,
    computes_of_alu 4 rfl fun l => rotlW_eq _ _⟩

/-! ### Unary operations -/

section
variable (x : Word)

theorem neg_eq_ofInt : 0#32 - x = BitVec.ofInt 32 (-x.toInt) := by
  rw [sub_eq_ofInt, BitVec.toInt_zero, zero_sub]

theorem absW_eq : absW x = BitVec.ofInt 32 |x.toInt| := by
  unfold absW
  simp only [BitVec.slt_eq_decide, BitVec.toInt_zero, decide_eq_true_eq]
  split
  next h => rw [abs_of_neg h, neg_eq_ofInt]
  next h => rw [abs_of_nonneg (not_lt.1 h), BitVec.ofInt_toInt]

theorem not_eq_sub : ~~~x = -1#32 - x := by
  rw [BitVec.neg_one_eq_allOnes, BitVec.allOnes_sub_eq_not]

theorem not_eq_ofInt : ~~~x = BitVec.ofInt 32 (-1 - x.toInt) := by
  rw [not_eq_sub, sub_eq_ofInt]
  rfl

/-- The low v bits, sign-extended, are the value balanced modulo 2^v. -/
theorem signExtend_low_eq {v : Nat} (hv : v ≤ 32) (w : Nat) : (x.extractLsb' 0 v).signExtend w = BitVec.ofInt w (x.toInt.bmod (2 ^ v)) := by
  have low : (x.extractLsb' 0 v).toInt = x.toInt.bmod (2 ^ v) := by
    rw [← BitVec.setWidth_eq_extractLsb' hv, BitVec.toInt_setWidth, BitVec.toInt_eq_toNat_bmod, Int.bmod_bmod_of_dvd (pow_dvd_pow 2 hv)]
  rw [BitVec.signExtend, low]

/-- The low v bits, zero-extended, are the unsigned value modulo 2^v. -/
theorem setWidth_low_eq (v : Nat) : (x.extractLsb' 0 v).setWidth 32 = BitVec.ofInt 32 (x.toNat % 2 ^ v : Nat) := by
  refine eq_ofInt_of_mod ?_
  rw [BitVec.toNat_setWidth, BitVec.extractLsb'_toNat, Nat.shiftRight_zero]

theorem signExtend_word_eq : x.signExtend 64 = BitVec.ofInt 64 x.toInt := rfl

theorem setWidth_word_eq : x.setWidth 64 = BitVec.ofInt 64 x.toNat :=
  eq_ofInt_of_mod (BitVec.toNat_setWidth ..)

/-- The leading zeros leave a value below 2^(32 - n), and one of at least half that where there is a one. -/
theorem clzW_spec : (clzW x).toNat ≤ 32 ∧ x.toNat < 2 ^ (32 - (clzW x).toNat) ∧
    ((clzW x).toNat < 32 → 2 ^ (31 - (clzW x).toNat) ≤ x.toNat) := by
  unfold clzW
  split
  next h => simp [h]
  next h =>
    have hx : x.toNat ≠ 0 := fun e => h (BitVec.eq_of_toNat_eq e)
    have top : Nat.log2 x.toNat < 32 := (Nat.log2_lt hx).2 x.isLt
    have e : (BitVec.ofNat 32 (31 - Nat.log2 x.toNat)).toNat = 31 - Nat.log2 x.toNat := Nat.mod_eq_of_lt (by omega)
    rw [e, show 32 - (31 - Nat.log2 x.toNat) = Nat.log2 x.toNat + 1 by omega, show 31 - (31 - Nat.log2 x.toNat) = Nat.log2 x.toNat by omega]
    exact ⟨by omega, Nat.lt_log2_self, fun _ => Nat.log2_self_le hx⟩

theorem popcW_eq : popcW x = BitVec.ofInt 32 ((List.range 32).countP (fun i => x.getLsbD i) : Nat) := by
  rw [popcW, bitsOf, ← List.countP_eq_length_filter, BitVec.ofInt_natCast]

theorem brevW_getLsbD {i : Nat} (hi : i < 32) : (brevW x).getLsbD (31 - i) = x.getLsbD i := by
  rw [brevW, maskOf_getLsbD, show 31 - (31 - i) = i by omega]
  simp [show 31 - i < 32 by omega]

end

/-- Settles O6: one equation for each function of R94, and the two properties that name the counts and the reversal. -/
theorem unaryOperations : Obligations.UnaryOperations := by
  unfold Obligations.UnaryOperations
  intro s u h d a x
  exact ⟨computes_of_alu 4 rfl fun l => neg_eq_ofInt _, computes_of_alu 4 rfl fun l => absW_eq _, computes_of_alu 4 rfl fun l => not_eq_ofInt _,
    computes_of_alu 4 rfl fun l => eq_ofInt_toNat _, computes_of_alu 4 rfl fun l => signExtend_low_eq _ (by omega) 32,
    computes_of_alu 4 rfl fun l => signExtend_low_eq _ (by omega) 32, computes_of_alu 4 rfl fun l => setWidth_low_eq _ _,
    computes_of_alu 4 rfl fun l => setWidth_low_eq _ _, computesPair_of_alu64 4 rfl fun l => signExtend_word_eq _,
    computesPair_of_alu64 4 rfl fun l => setWidth_word_eq _,
    ⟨fun l => (clzW (x l)).toNat, computes_of_alu 4 rfl fun l => eq_ofInt_toNat _, fun l => clzW_spec _⟩,
    computes_of_alu 4 rfl fun l => popcW_eq _,
    ⟨fun l => brevW (x l), computes_of_alu 4 rfl fun l => eq_ofInt_toNat _, fun l i hi => brevW_getLsbD _ hi⟩⟩

/-! ### Bit fields -/

theorem fieldOf_eq (b : Word) : fieldOf b = (b.toNat % 32, min (min (b.toNat / 32 % 64) 32) (32 - b.toNat % 32)) := by
  unfold fieldOf
  rw [BitVec.extractLsb'_toNat, BitVec.extractLsb'_toNat, Nat.shiftRight_zero, Nat.shiftRight_eq_div_pow]

theorem fieldOf_le (b : Word) : (fieldOf b).1 + (fieldOf b).2 ≤ 32 := by
  have : (fieldOf b).1 < 32 := by
    rw [fieldOf_eq]
    exact Nat.mod_lt _ (by omega)
  have : (fieldOf b).2 ≤ 32 - (fieldOf b).1 := min_le_right _ _
  omega

theorem lowMask_toNat {n : Nat} (hn : n ≤ 32) : (lowMask n).toNat = 2 ^ n - 1 := by
  have : 2 ^ n ≤ 2 ^ 32 := Nat.pow_le_pow_right two_pos hn
  exact Nat.mod_eq_of_lt (by omega)

section
variable (x z b : Word)

theorem bfxU_toNat : (bfxU x b).toNat = x.toNat / 2 ^ (fieldOf b).1 % 2 ^ (fieldOf b).2 := by
  have := fieldOf_le b
  rw [bfxU, BitVec.toNat_and, BitVec.toNat_ushiftRight, lowMask_toNat (by omega), Nat.and_two_pow_sub_one_eq_mod, Nat.shiftRight_eq_div_pow]

theorem bfxU_eq : bfxU x b = BitVec.ofInt 32 (x.toNat / 2 ^ (fieldOf b).1 % 2 ^ (fieldOf b).2 : Nat) := by
  rw [← bfxU_toNat, ← eq_ofInt_toNat]

/-- A field of w bits whose highest is set, with ones above it, is the negative number that it is of w bits. -/
theorem or_not_lowMask_eq {f : Word} {w : Nat} (hf : f.toNat < 2 ^ w) : f ||| ~~~lowMask w = BitVec.ofInt 32 (f.toNat - 2 ^ w) := by
  have apart : f &&& ~~~lowMask w = 0#32 := by
    ext i hi
    rw [← BitVec.getLsbD_eq_getElem, BitVec.getLsbD_and, BitVec.getLsbD_not, lowMask_getLsbD]
    by_cases h : i < w
    · simp [h, hi]
    · simp [BitVec.getLsbD, Nat.testBit_lt_two_pow (lt_of_lt_of_le hf (Nat.pow_le_pow_right two_pos (not_lt.1 h)))]
  have ones : ~~~lowMask w = BitVec.ofInt 32 (-2 ^ w) := by
    have value : BitVec.ofNat 32 (2 ^ w - 1) = BitVec.ofInt 32 (2 ^ w - 1) := by
      rw [← BitVec.ofInt_natCast]
      push_cast [Nat.one_le_two_pow]
      rfl
    rw [not_eq_sub, lowMask, value, show -1#32 = BitVec.ofInt 32 (-1) from rfl, BitVec.sub_eq_add_neg, ← BitVec.ofInt_neg,
      ← BitVec.ofInt_add]
    congr 1
    ring
  rw [← BitVec.add_eq_or_of_and_eq_zero _ _ apart, ones, sub_eq_add_neg, BitVec.ofInt_add, ← eq_ofInt_toNat]

theorem bfxS_eq : bfxS x b = BitVec.ofInt 32 (if (fieldOf b).2 = 0 then 0 else
    ((x.toNat / 2 ^ (fieldOf b).1 : Nat) : Int).bmod (2 ^ (fieldOf b).2)) := by
  have hle := fieldOf_le b
  have hf := bfxU_toNat x b
  have hlt : (bfxU x b).toNat < 2 ^ (fieldOf b).2 := by
    rw [hf]
    exact Nat.mod_lt _ (by positivity)
  have hmod : ((x.toNat / 2 ^ (fieldOf b).1 : Nat) : Int).bmod (2 ^ (fieldOf b).2) = ((bfxU x b).toNat : Int).bmod (2 ^ (fieldOf b).2) := by
    rw [hf, Int.natCast_emod, Int.emod_bmod]
  unfold bfxS
  dsimp only
  rw [hmod]
  generalize bfxU x b = f at hlt ⊢
  generalize (fieldOf b).2 = w at hle hlt ⊢
  rcases w with _ | w
  · have : f = 0#32 := BitVec.eq_of_toNat_eq (by simpa using hlt)
    simp [this]
  have top : f.getLsbD w = true ↔ 2 ^ w ≤ f.toNat := by
    rw [BitVec.getLsbD, Nat.testBit_eq_decide_div_mod_eq, decide_eq_true_iff]
    rw [pow_succ] at hlt
    constructor
    · intro h
      by_contra hn
      rw [Nat.div_eq_of_lt (not_le.1 hn)] at h
      omega
    · intro h
      rw [Nat.div_eq_of_lt_le (k := 1) (by omega) (by omega)]
  rw [if_neg (Nat.succ_ne_zero w), Nat.add_sub_cancel]
  by_cases h : f.getLsbD w = true
  · rw [if_pos ⟨Nat.succ_ne_zero w, h⟩, or_not_lowMask_eq hlt]
    have := top.1 h
    congr 1
    rw [pow_succ] at hlt ⊢
    rw [Int.bmod_def, Int.emod_eq_of_lt (by omega) (by exact_mod_cast hlt), if_neg]
    · push_cast; ring
    · have : ((2 ^ w : Nat) : Int) ≤ f.toNat := by exact_mod_cast this
      push_cast at this ⊢
      omega
  · rw [if_neg fun k => h k.2]
    have := mt top.2 h
    conv_lhs => rw [eq_ofInt_toNat f]
    congr 1
    rw [pow_succ] at hlt ⊢
    rw [Int.bmod_def, Int.emod_eq_of_lt (by omega) (by exact_mod_cast hlt), if_pos]
    have : (f.toNat : Int) < (2 ^ w : Nat) := by exact_mod_cast not_le.1 this
    push_cast at this ⊢
    omega

/-- Three parts of a number: below p, the field of w bits there, and from p + w on. -/
theorem parts_testBit {p w lo f hi : Nat} (hlo : lo < 2 ^ p) (hf : f < 2 ^ w) (i : Nat) :
    (lo + f * 2 ^ p + hi * 2 ^ (p + w)).testBit i = if i < p then lo.testBit i else if i < p + w then f.testBit (i - p) else hi.testBit (i - (p + w)) := by
  have hfp : 2 ^ p * f + lo < 2 ^ (p + w) := by
    rw [pow_add]
    calc 2 ^ p * f + lo < 2 ^ p * f + 2 ^ p := by omega
      _ = 2 ^ p * (f + 1) := by ring
      _ ≤ 2 ^ p * 2 ^ w := Nat.mul_le_mul_left _ hf
  rw [show lo + f * 2 ^ p + hi * 2 ^ (p + w) = 2 ^ (p + w) * hi + (2 ^ p * f + lo) by ring, Nat.testBit_two_pow_mul_add _ hfp,
    Nat.testBit_two_pow_mul_add _ hlo]
  by_cases h : i < p
  · rw [if_pos (by omega), if_pos h, if_pos h]
  · rw [if_neg h, if_neg h]

theorem bfiW_eq : bfiW z x b = BitVec.ofInt 32 (z.toNat % 2 ^ (fieldOf b).1 + x.toNat % 2 ^ (fieldOf b).2 * 2 ^ (fieldOf b).1 +
    z.toNat / 2 ^ ((fieldOf b).1 + (fieldOf b).2) * 2 ^ ((fieldOf b).1 + (fieldOf b).2) : Nat) := by
  have hle := fieldOf_le b
  unfold bfiW
  dsimp only
  generalize (fieldOf b).1 = p at hle ⊢
  generalize (fieldOf b).2 = w at hle ⊢
  ext i hi
  rw [← BitVec.getLsbD_eq_getElem, ← BitVec.getLsbD_eq_getElem, BitVec.ofInt_natCast, BitVec.getLsbD_ofNat,
    parts_testBit (Nat.mod_lt _ (by positivity)) (Nat.mod_lt _ (by positivity))]
  have mask : (lowMask w <<< p).getLsbD i = decide (p ≤ i ∧ i < p + w) := by
    rw [BitVec.getLsbD_shiftLeft, lowMask_getLsbD]
    simp only [← decide_not, ← Bool.decide_and, decide_eq_decide]
    omega
  rw [BitVec.getLsbD_or, BitVec.getLsbD_and, BitVec.getLsbD_and, BitVec.getLsbD_not, mask, BitVec.getLsbD_shiftLeft, Nat.testBit_mod_two_pow,
    Nat.testBit_mod_two_pow, Nat.testBit_div_two_pow]
  rcases lt_or_ge i p with h1 | h1
  · simp [h1, hi, not_le.2 h1, BitVec.getLsbD]
  rcases lt_or_ge i (p + w) with h2 | h2
  · simp [h1, h2, hi, not_lt.2 h1, BitVec.getLsbD, show i - p < w by omega]
  · simp [h1, hi, not_lt.2 h1, not_lt.2 h2, BitVec.getLsbD, show i - (p + w) + (p + w) = i by omega]

end

/-- Settles O7: `fieldOf` gives pos and w', and each instruction reads or replaces the field there. -/
theorem bitFields : Obligations.BitFields := by
  unfold Obligations.BitFields
  intro s u h d a b
  have field (l : Lane) := fieldOf_eq (s.grp.opB l b)
  refine ⟨computes_of_alu 4 rfl fun l => ?_, computes_of_alu 4 rfl fun l => ?_, computes_of_alu 4 rfl fun l => ?_⟩
  · rw [bfxU_eq, field]
  · rw [bfxS_eq, field]
  · rw [bfiW_eq, field]

/-! ### Addresses and immediates -/

theorem shiftLeft_eq_ofInt {w : Nat} (x : BitVec w) (k : Nat) : x <<< k = BitVec.ofInt w (x.toInt * 2 ^ k) := by
  have power : BitVec.twoPow w k = BitVec.ofInt w (2 ^ k) := by
    rw [show (2 ^ k : Int) = (2 ^ k : Nat) by push_cast; rfl]
    exact eq_ofInt_of_mod (BitVec.toNat_twoPow ..)
  rw [BitVec.shiftLeft_eq_mul_twoPow, BitVec.ofInt_mul, BitVec.ofInt_toInt, power]

theorem Group.immI_of_no_wide {g : Group} (i : BitVec 14) (h : g.wide = none) : g.immI i = BitVec.ofInt 32 i.toInt := by
  unfold Group.immI
  rw [h]
  rfl

/-- R33: under a WIDE hint its payload stands above the immediate. -/
theorem Group.immI_of_wide {g : Group} {p : BitVec 22} (i : BitVec 14) (h : g.wide = some p) :
    g.immI i = BitVec.ofInt 32 (p.toNat * 2 ^ 14 + i.toNat : Nat) := by
  have value : (p ++ i : BitVec 36).toNat = p.toNat * 2 ^ 14 + i.toNat := by
    rw [BitVec.toNat_append, ← Nat.shiftLeft_add_eq_or_of_lt i.isLt, Nat.shiftLeft_eq]
  unfold Group.immI
  rw [h]
  exact eq_ofInt_of_mod (by rw [BitVec.toNat_setWidth, value])

theorem movh_wf_of_odd {u : Bool} {h : Guard} {d : Reg} (i : BitVec 14) (hd : d.getLsbD 0 = true) : (Instr.movh u h d i).wf = false := by
  show (h.ok && !d.getLsbD 0) = false
  simp [hd]

/-- Settles O8: `lea` adds a shifted operand, and `movi` and `movh` write `immI`, whatever the hint. -/
theorem addressesAndImmediates : Obligations.AddressesAndImmediates := by
  unfold Obligations.AddressesAndImmediates
  refine ⟨fun s u h d k a b => ?_, fun s u h d i => ?_⟩
  · refine computesPair_of_alu64 4 rfl fun l => ?_
    rw [shiftLeft_eq_ofInt, BitVec.toInt_signExtend_of_le (by omega), BitVec.ofInt_add, BitVec.ofInt_toInt]
  · intro v
    have immediate : s.grp.immI i = BitVec.ofInt 32 v := by
      unfold v
      cases hw : s.grp.wide with
      | none => exact Group.immI_of_no_wide i hw
      | some p => exact Group.immI_of_wide i hw
    exact ⟨computes_of_alu 4 rfl fun _ => immediate, computes_of_alu 4 rfl fun _ => immediate, movh_wf_of_odd i⟩

/-! ### Compares -/

/-- R99: what a condition says of two numbers. -/
def condHolds (c : Cond) (x y : Int) : Prop :=
  match c with
  | .eq => x = y
  | .ne => x ≠ y
  | .lt => x < y
  | .le => x ≤ y
  | .gt => y < x
  | .ge => y ≤ x

/-- An order of words that is the order of their numbers, and equality that is theirs, give each condition its truth. -/
theorem condTrue_iff {c : Cond} {lt : Word → Word → Bool} {num : Word → Int} (hlt : ∀ x y, lt x y = true ↔ num x < num y)
    (hinj : ∀ x y, num x = num y ↔ x = y) (x y : Word) : condTrue c lt x y = true ↔ condHolds c (num x) (num y) := by
  cases c with
  | eq => exact beq_iff_eq.trans (hinj x y).symm
  | ne => exact bne_iff_ne.trans (not_congr (hinj x y)).symm
  | lt => exact hlt x y
  | le => exact (iff_of_eq (Bool.not_eq_true' _)).trans ((Bool.not_eq_true _).symm.to_iff.trans ((not_congr (hlt y x)).trans not_lt))
  | gt => exact hlt y x
  | ge => exact (iff_of_eq (Bool.not_eq_true' _)).trans ((Bool.not_eq_true _).symm.to_iff.trans ((not_congr (hlt x y)).trans not_lt))

/-- Settles O9: `slt` is the order of signed and `ult` that of unsigned numbers. -/
theorem integerCompares : Obligations.IntegerCompares := by
  unfold Obligations.IntegerCompares
  intro s u h c p a b hp
  exact ⟨decides_of_setPreds 4 hp rfl fun l => condTrue_iff (num := BitVec.toInt) (fun _ _ => BitVec.slt_iff_toInt_lt) (fun _ _ => BitVec.toInt_inj) _ _,
    decides_of_setPreds 4 hp rfl fun l => condTrue_iff (num := fun x => (x.toNat : Int)) (fun x y => BitVec.ult_iff_lt.trans Int.ofNat_lt.symm)
      (fun _ _ => Int.natCast_inj.trans BitVec.toNat_inj) _ _⟩

/-! ### Waits -/

theorem underLimit_iff (g : Group) (k : OpClass) (n : BitVec 4) : underLimit g k n = true ↔ n = 15#4 ∨ g.count k ≤ n.toNat := by
  simp [underLimit]

theorem exec_wait (h : Guard) (l t c e r : BitVec 4) (s : State) : exec (.wait h l t c e r) s =
    .next (if s.grp.guardQ h && !s.grp.waitMet l t c e r then s else s.finish s.grp) := rfl

theorem exec_waitc (h : Guard) (k : OpClass) (a : Reg) (s : State) : exec (.waitc h k a) s =
    .next (if s.grp.guardQ h && decide ((s.grp.getG a).toNat < s.grp.count k) then s else s.finish s.grp) := rfl

/-- Settles O33: `waitMet` and the comparison of `waitc` say when the group stays. -/
theorem waitInstructions : Obligations.WaitInstructions := by
  unfold Obligations.WaitInstructions
  intro s h l t c e r k a g count met all
  have counted (k : OpClass) : g.count k = count k := List.countP_eq_length_filter.symm
  have met_iff : s.grp.waitMet l t c e r = true ↔ all := by
    simp only [Group.waitMet, Bool.and_eq_true, underLimit_iff, and_assoc, g, all, met, counted]
  refine ⟨fun hq => ?_, fun hq hn => ?_, fun hq => ?_, fun hq hn => ?_⟩
  · show exec _ s = _
    rw [exec_wait, if_neg]
    · rfl
    · rw [Bool.and_eq_true, Bool.not_eq_true', ← Bool.not_eq_true, met_iff]
      rintro ⟨h1, h2⟩
      exact hq.elim (fun hq => Bool.false_ne_true (hq.symm.trans h1)) h2
  · rw [exec_wait, if_pos]
    rw [Bool.and_eq_true, Bool.not_eq_true', ← Bool.not_eq_true, met_iff]
    exact ⟨hq, hn⟩
  · show exec _ s = _
    rw [← counted] at hq
    rw [exec_waitc, if_neg]
    · rfl
    · rw [Bool.and_eq_true, decide_eq_true_iff]
      rintro ⟨h1, h2⟩
      exact hq.elim (fun hq => Bool.false_ne_true (hq.symm.trans h1)) (not_le.2 h2)
  · rw [← counted] at hn
    rw [exec_waitc, if_pos]
    rw [Bool.and_eq_true, decide_eq_true_iff]
    exact ⟨hq, hn⟩

end Sys2Proof.Machine
end

section
/-! The end-of-iteration step (R107), and the ends of threads and groups (R105, R142). -/

namespace Sys2Proof.Machine

/-! ### The end-of-iteration step -/

theorem Group.setLoop_loop (g : Group) (k : Nat) (x : LoopReg) (j : Nat) : (g.setLoop k x).loop j = if j = k then x else g.loop j :=
  mapGet_mapSet _ _ _ _ _

/-- What the end-of-iteration step at the end x of a body makes of the n innermost loops of g: k of them stay active (R107). -/
structure EndsIteration (g t : Group) (x : PcWord) (n k : Nat) : Prop where
  le : k ≤ n
  active : t.n = k
  popped : ∀ j, k ≤ j → j < n → (g.loop j).le = x ∧ (g.loop j).lc = 1 ∧ t.loop j = { g.loop j with lc := 0 }
  kept : ∀ j, n ≤ j ∨ j + 1 < k → t.loop j = g.loop j
  through : 0 < k → (g.loop (k - 1)).le ≠ x → t.loop (k - 1) = g.loop (k - 1) ∧ t.pc = g.pc
  again : 0 < k → (g.loop (k - 1)).le = x → (g.loop (k - 1)).lc ≠ 1 ∧ t.pc = (g.loop (k - 1)).ls ∧
    t.loop (k - 1) = { g.loop (k - 1) with lc := (g.loop (k - 1)).lc - 1 }
  out : k = 0 → t.pc = g.pc

theorem eq_sub_four_iff {x y : PcWord} : x = y - 4 ↔ y = x + 4 := by
  rw [eq_sub_iff_add_eq, eq_comm]

/-- A loop of count one that ends here is popped, and the step goes on with the loops around it. -/
theorem EndsIteration.pop {g g1 t : Group} {x : PcWord} {n k : Nat} (h : EndsIteration g1 t x n k) (hx : (g.loop n).le = x) (hc : (g.loop n).lc = 1)
    (hloop : ∀ j, g1.loop j = if j = n then { g.loop n with lc := 0 } else g.loop j) (hpc : g1.pc = g.pc) : EndsIteration g t x (n + 1) k := by
  have around (j : Nat) (hj : j ≠ n) : g1.loop j = g.loop j := (hloop j).trans (if_neg hj)
  have here : g1.loop n = { g.loop n with lc := 0 } := (hloop n).trans (if_pos rfl)
  obtain ⟨le, active, popped, kept, through, again, out⟩ := h
  refine ⟨by omega, active, fun j hk hj => ?_, fun j hj => ?_, fun h0 => ?_, fun h0 => ?_, fun h0 => (out h0).trans hpc⟩
  · rcases Nat.lt_succ_iff_lt_or_eq.1 hj with hj | rfl
    · exact around j (by omega) ▸ popped j hk hj
    · exact ⟨hx, hc, (kept j (.inl le_rfl)).trans here⟩
  · exact (kept j (by omega)).trans (around j (by omega))
  · exact hpc ▸ around (k - 1) (by omega) ▸ through h0
  · exact around (k - 1) (by omega) ▸ again h0

theorem endStep_endsIteration (n : Nat) (x : PcWord) : ∀ g : Group, g.n = n → ∃ k, EndsIteration g (endStep n g x) (x + 4) n k := by
  induction n with
  | zero => exact fun g hn => ⟨0, le_rfl, hn, fun _ _ h => absurd h (Nat.not_lt_zero _), fun _ _ => rfl, nofun, nofun, fun _ => rfl⟩
  | succ n ih =>
    intro g hn
    unfold endStep
    dsimp only
    by_cases hx : x = (g.loop n).le - 4
    · rw [if_pos hx]
      have ends := eq_sub_four_iff.1 hx
      by_cases hc : (g.loop n).lc - 1 = 0
      · rw [if_neg (not_not.2 hc), hc]
        obtain ⟨k, h⟩ := ih { g.setLoop n { g.loop n with lc := 0 } with n := n } rfl
        exact ⟨k, h.pop ends (sub_eq_zero.1 hc) (g.setLoop_loop n _) rfl⟩
      · rw [if_pos hc]
        have loop (j : Nat) := g.setLoop_loop n { g.loop n with lc := (g.loop n).lc - 1 } j
        refine ⟨n + 1, le_rfl, hn, fun j _ _ => by omega, fun j hj => ?_, fun _ h => absurd ends h, fun _ _ => ⟨mt sub_eq_zero.2 hc, rfl, ?_⟩, nofun⟩
        · exact (loop j).trans (if_neg (by omega))
        · exact (loop n).trans (if_pos rfl)
    · rw [if_neg hx]
      have goesOn := mt eq_sub_four_iff.2 hx
      exact ⟨n + 1, le_rfl, hn, fun j _ _ => by omega, fun _ _ => rfl, fun _ _ => ⟨rfl, rfl⟩, fun _ h => absurd h goesOn, nofun⟩

/-- Settles O20: `complete` makes the end-of-iteration step from P + 4. -/
theorem endOfIteration : Obligations.EndOfIteration := by
  unfold Obligations.EndOfIteration
  intro s u h n ends
  obtain ⟨k, le, active, popped, kept, through, again, out⟩ := endStep_endsIteration s.grp.n s.grp.pc { s.grp with pc := s.grp.pc + 4, hint := none } rfl
  refine ⟨s.finish s.grp, k, rfl, s.finish_onlyGroup _, le, ?_⟩
  rw [State.finish_grp]
  refine ⟨active, popped, kept, through, again, out, ?_⟩
  conv_lhs => rw [Group.complete_eta]
  rw [show s.grp.complete.n = k from active]

/-! ### Threads of a set -/

/-- Changing each thread of a set once. -/
theorem foldl_mapSet_get {ts : List Nat} (hd : ts.Nodup) (f : Thread → Thread) (m : FMap Thread) (j : Nat) :
    mapGet {} (ts.foldl (fun m t => mapSet {} m t (f (mapGet {} m t))) m) j = if j ∈ ts then f (mapGet {} m j) else mapGet {} m j := by
  induction ts generalizing m with
  | nil => simp
  | cons t ts ih =>
    obtain ⟨ht, hd⟩ := List.nodup_cons.1 hd
    rw [List.foldl_cons, ih hd, mapGet_mapSet]
    by_cases hj : j = t
    · subst hj
      simp [ht]
    · simp [hj]

theorem setStates_get (m : FMap Thread) (set : BitVec 32) (f : Thread → Thread) (j : Nat) :
    mapGet {} (setStates m set f) j = if j < 32 ∧ set.getLsbD j = true then f (mapGet {} m j) else mapGet {} m j := by
  unfold setStates
  rw [foldl_mapSet_get (bitsOf_nodup set)]
  simp only [mem_bitsOf]

theorem Group.stateMask_getLsbD (g : Group) (f : TState → Bool) (t : Nat) : (g.stateMask f).getLsbD t = (decide (t < 32) && f (g.thread t).st) :=
  maskOf_getLsbD _ t

theorem Group.running_getLsbD (g : Group) (t : Nat) : g.running.getLsbD t = (decide (t < 32) && (g.thread t).st.isRunning) :=
  g.stateMask_getLsbD _ t

theorem Group.notEnded_getLsbD (g : Group) (t : Nat) : g.notEnded.getLsbD t = (decide (t < 32) && !(g.thread t).st.isEnded) :=
  g.stateMask_getLsbD _ t

theorem TState.isEnded_iff (x : TState) : x.isEnded = true ↔ x = .ended := by
  cases x <;> simp [TState.isEnded]

theorem Group.isEnded_iff (g : Group) : g.isEnded = true ↔ ∀ j, j < 32 → (g.thread j).st = .ended := by
  unfold Group.isEnded
  rw [decide_eq_true_iff]
  constructor
  · intro h j hj
    have := g.notEnded_getLsbD j
    rw [h] at this
    simpa [hj, TState.isEnded_iff] using this
  · intro h
    ext j hj
    rw [← BitVec.getLsbD_eq_getElem, g.notEnded_getLsbD, (TState.isEnded_iff _).2 (h j hj)]
    simp

/-! ### Joins whose threads end -/

/-- What a join that releases no thread to run leaves of a group: it changes the joins, the threads and, in trap mode, the Frame alone; a thread that runs
goes on, one that has ended stays so, and no other runs. -/
structure KeepsRunning (g t : Group) : Prop where
  only : t = { g with joins := t.joins, frame := t.frame, threads := t.threads }
  ended : ∀ j, (g.thread j).st = .ended → (t.thread j).st = .ended
  running : ∀ j, (t.thread j).st.isRunning = (g.thread j).st.isRunning

theorem KeepsRunning.refl (g : Group) : KeepsRunning g g := ⟨rfl, fun _ h => h, fun _ => rfl⟩

theorem KeepsRunning.trans {g t r : Group} (h : KeepsRunning g t) (h' : KeepsRunning t r) : KeepsRunning g r := by
  refine ⟨?_, fun j hj => h'.ended j (h.ended j hj), fun j => (h'.running j).trans (h.running j)⟩
  rw [h'.only, h.only]

theorem KeepsRunning.pc {g t : Group} (h : KeepsRunning g t) : t.pc = g.pc := by rw [h.only]

theorem KeepsRunning.running_eq {g t : Group} (h : KeepsRunning g t) : t.running = g.running := by
  ext j hj
  rw [← BitVec.getLsbD_eq_getElem, ← BitVec.getLsbD_eq_getElem, t.running_getLsbD, g.running_getLsbD, h.running]

theorem KeepsRunning.isEnded {g t : Group} (h : KeepsRunning g t) (hg : g.isEnded = true) : t.isEnded = true := by
  rw [Group.isEnded_iff] at hg ⊢
  exact fun j hj => h.ended j (hg j hj)

/-- A thread of a group that has ended does not run. -/
theorem Group.running_eq_zero {g : Group} (hg : g.isEnded = true) : g.running = 0#32 := by
  ext j hj
  rw [← BitVec.getLsbD_eq_getElem, g.running_getLsbD, g.isEnded_iff.1 hg j hj]
  simp [TState.isRunning]

/-- The threads that a join holds Joined. -/
def Group.joinedAt (g : Group) (k : Nat) : BitVec 32 :=
  maskOf (fun t => (mapGet {} g.joins k).arrived.getLsbD t && decide ((mapGet {} g.threads t).st = .joined (BitVec.ofNat 3 k)))

/-- R142: the group whose join k is released, with its threads Parked. -/
def Group.released (g : Group) (k : Nat) : Group :=
  let joined (m : FMap Thread) : BitVec 32 :=
    maskOf (fun t => (mapGet {} g.joins k).arrived.getLsbD t && decide ((mapGet {} m t).st = .joined (BitVec.ofNat 3 k)))
  { g with
    joins := mapSet {} g.joins k {}
    frame := if g.trapMode then
      { g.frame with threads := setStates g.frame.threads (joined g.frame.threads) (fun t => { t with st := .parked }) } else g.frame
    threads := setStates g.threads (g.joinedAt k) (fun t => { t with st := .parked }) }

theorem lowestResume_zero (m : FMap Thread) : lowestResume m 0#32 = none := by
  have empty : bitsOf 0#32 = [] := by decide
  rw [lowestResume, empty]
  rfl

theorem Group.joinedAt_st {g : Group} {k j : Nat} (h : j < 32 ∧ (g.joinedAt k).getLsbD j = true) : (g.thread j).st = .joined (BitVec.ofNat 3 k) := by
  rw [Group.joinedAt, maskOf_getLsbD] at h
  simp only [Bool.and_eq_true, decide_eq_true_eq] at h
  exact h.2.2.2

/-- Threads that a join holds neither run nor have ended, and Parked they do not either. -/
theorem Group.released_keepsRunning (g : Group) (k : Nat) : KeepsRunning g (g.released k) := by
  have thread (j : Nat) : (g.released k).thread j =
      if j < 32 ∧ (g.joinedAt k).getLsbD j = true then { g.thread j with st := .parked } else g.thread j :=
    setStates_get g.threads (g.joinedAt k) (fun t => { t with st := .parked }) j
  refine ⟨rfl, fun j hj => ?_, fun j => ?_⟩
  · rw [thread, if_neg fun h => by simp [g.joinedAt_st h] at hj]
    exact hj
  · rw [thread]
    split
    next h =>
      rw [g.joinedAt_st h]
      rfl
    next => rfl

/-- What a join's check can do: nothing, disarm it, release its threads as Parked, or run some of them where no thread runs. -/
theorem Group.checkRelease_cases (g : Group) (k : Nat) : g.checkRelease k = g ∨ (∃ m, g.checkRelease k = { g with joins := m }) ∨
    g.checkRelease k = g.released k ∨ ((g.released k).running = 0#32 ∧ lowestResume (g.released k).threads (g.joinedAt k) ≠ none) := by
  by_cases ha : (mapGet {} g.joins k).armed = false
  · exact .inl (if_pos ha)
  by_cases he : (mapGet {} g.joins k).expect = 0#32
  · exact .inr (.inl ⟨_, (if_neg ha).trans (if_pos he)⟩)
  by_cases hr : (mapGet {} g.joins k).arrived = (mapGet {} g.joins k).expect
  · have unfolded : g.checkRelease k = _ := (if_neg ha).trans ((if_neg he).trans (if_pos hr))
    by_cases h : (g.released k).running = 0#32
    · by_cases hl : lowestResume (g.released k).threads (g.joinedAt k) = none
      · refine .inr (.inr (.inl (unfolded.trans ((if_pos h).trans ?_))))
        split
        next => rfl
        next hs => exact absurd (hl.symm.trans hs) nofun
      · exact .inr (.inr (.inr ⟨h, hl⟩))
    · exact .inr (.inr (.inl (unfolded.trans (if_neg h))))
  · exact .inl ((if_neg ha).trans ((if_neg he).trans (if_neg hr)))

/-- Where a thread runs, or every thread has ended, a join lets no thread run. -/
theorem Group.checkRelease_keepsRunning {g : Group} (k : Nat) (hg : g.running ≠ 0#32 ∨ g.isEnded = true) : KeepsRunning g (g.checkRelease k) := by
  have kept := g.released_keepsRunning k
  rcases g.checkRelease_cases k with h | ⟨m, h⟩ | h | ⟨h, hl⟩
  · rw [h]
    exact .refl g
  · rw [h]
    exact ⟨rfl, fun _ h => h, fun _ => rfl⟩
  · rw [h]
    exact kept
  · have ended := hg.resolve_left (not_not.2 (kept.running_eq ▸ h))
    have nobody : g.joinedAt k = 0#32 := by
      ext j hj
      by_contra hm
      have := g.joinedAt_st ⟨hj, by simpa [BitVec.getLsbD_eq_getElem hj] using hm⟩
      simp [g.isEnded_iff.1 ended j hj] at this
    rw [nobody, lowestResume_zero] at hl
    exact absurd rfl hl

theorem Group.joinEnd_keepsRunning {g : Group} (set : BitVec 32) (k : Nat) (hg : g.running ≠ 0#32 ∨ g.isEnded = true) :
    KeepsRunning g (g.joinEnd set k) := by
  unfold Group.joinEnd
  dsimp only
  split
  · have lowered (j : FMap JoinReg) : KeepsRunning g { g with joins := j } := ⟨rfl, fun _ h => h, fun _ => rfl⟩
    exact (lowered _).trans (Group.checkRelease_keepsRunning k hg)
  · exact .refl g

theorem foldl_joinEnd_keepsRunning (set : BitVec 32) (ks : List Nat) : ∀ {g : Group}, g.running ≠ 0#32 ∨ g.isEnded = true →
    KeepsRunning g (ks.foldl (fun g k => g.joinEnd set k) g) := by
  induction ks with
  | nil => exact fun {g} _ => .refl g
  | cons k ks ih =>
    intro g hg
    have first := Group.joinEnd_keepsRunning set k hg
    exact first.trans (ih (hg.imp (fun h => first.running_eq ▸ h) first.isEnded))

/-- Some threads ended, nothing else done. -/
def Group.markEnded (g : Group) (set : BitVec 32) : Group := { g with threads := setStates g.threads set (fun t => { t with st := .ended }) }

theorem Group.markEnded_thread (g : Group) (set : BitVec 32) (j : Nat) :
    (g.markEnded set).thread j = if j < 32 ∧ set.getLsbD j = true then { g.thread j with st := .ended } else g.thread j :=
  setStates_get g.threads set (fun t => { t with st := .ended }) j

theorem Group.markEnded_running (g : Group) (set : BitVec 32) : (g.markEnded set).running = g.running &&& ~~~set := by
  ext j hj
  rw [← BitVec.getLsbD_eq_getElem, ← BitVec.getLsbD_eq_getElem, Group.running_getLsbD, g.markEnded_thread, BitVec.getLsbD_and, BitVec.getLsbD_not,
    g.running_getLsbD]
  by_cases h : set.getLsbD j = true
  · rw [if_pos ⟨hj, h⟩, h]
    simp [TState.isRunning]
  · rw [if_neg fun k => h k.2, Bool.eq_false_iff.2 h]
    simp [hj]

theorem Group.markEnded_isEnded (g : Group) : (g.markEnded g.notEnded).isEnded = true := by
  rw [Group.isEnded_iff]
  intro j hj
  rw [g.markEnded_thread]
  split
  next => rfl
  next h =>
    rw [g.notEnded_getLsbD] at h
    simpa [hj, TState.isEnded_iff] using h

/-- ThreadsEnd (R142) where another thread runs on, or none is left: the threads of the set end, and no thread begins to run. -/
theorem Group.endThreads_keepsRunning {g : Group} {set : BitVec 32} (h : g.running &&& ~~~set ≠ 0#32 ∨ (g.markEnded set).isEnded = true) :
    KeepsRunning (g.markEnded set) (g.endThreads set) := by
  have framed (x : Frame) : KeepsRunning (g.markEnded set) { g.markEnded set with frame := x } := ⟨rfl, fun _ h => h, fun _ => rfl⟩
  rw [← g.markEnded_running] at h
  unfold Group.endThreads
  dsimp only
  split
  · exact (framed _).trans (foldl_joinEnd_keepsRunning set _ h)
  · exact foldl_joinEnd_keepsRunning set _ h

/-- What the end of a set of threads leaves. -/
theorem KeepsRunning.of_markEnded {g t : Group} {set : BitVec 32} (h : KeepsRunning (g.markEnded set) t) :
    (∀ j, j < 32 → set.getLsbD j = true → (t.thread j).st = .ended) ∧ t.running = g.running &&& ~~~set ∧ t.v = g.v ∧ t.g = g.g ∧
      t.complete.pc = g.complete.pc := by
  have only : t = { g with joins := t.joins, frame := t.frame, threads := t.threads } := h.only
  refine ⟨fun j hj hs => h.ended j ?_, h.running_eq.trans (g.markEnded_running set), by rw [only], by rw [only], ?_⟩
  · rw [g.markEnded_thread, if_pos ⟨hj, hs⟩]
  · rw [Group.complete_of_eq g t (by rw [only]) (by rw [only]) (by rw [only])]

/-- R105: a group at its end: its threads have ended, and it waits no more. -/
def Group.atEnd (g : Group) : Group := { g.endThreads g.notEnded with waitSlot := none, busy := none, hint := none, trapMode := false }

theorem Group.endThreads_all_isEnded (g : Group) : (g.endThreads g.notEnded).isEnded = true :=
  (Group.endThreads_keepsRunning (.inr g.markEnded_isEnded)).isEnded g.markEnded_isEnded

theorem Group.atEnd_thread_st (g : Group) {j : Nat} (hj : j < 32) : (g.atEnd.thread j).st = .ended := by
  have := (g.endThreads g.notEnded).isEnded_iff.1 g.endThreads_all_isEnded j hj
  unfold Group.thread at this ⊢
  unfold Group.atEnd
  exact this

theorem Group.atEnd_regs (g : Group) : g.atEnd.v = g.v ∧ g.atEnd.g = g.g := by
  obtain ⟨-, -, hv, hg, -⟩ := (Group.endThreads_keepsRunning (.inr g.markEnded_isEnded)).of_markEnded
  unfold Group.atEnd
  dsimp only
  exact ⟨hv, hg⟩

/-! ### The end of a group -/

theorem foldl_soon_eq {α : Type} (due : α → Bool) (ev : α → Instr) (xs : List α) (s : State) :
    xs.foldl (fun s x => if due x then s.soon (ev x) else s) s =
      { s with agenda := s.agenda ++ (xs.filter due).map (fun x => ⟨.wall, s.now, ev x⟩) } := by
  induction xs generalizing s with
  | nil => simp
  | cons x xs ih =>
    rw [List.foldl_cons, ih]
    cases hx : due x <;> simp [hx, State.soon, State.schedule]

/-- R219, R288: each launch that waits for the producer is to look again, and nothing else happens. -/
theorem State.tellDependants_eq (s : State) (l : Nat) : s.tellDependants l = { s with
    agenda := s.agenda ++ (s.launches.filter (fun p => decide (p.2.producer = some l) && p.2.waits)).map (fun p => ⟨.wall, s.now, .dependantRelease p.1⟩) } := by
  rw [← foldl_soon_eq]
  unfold State.tellDependants
  simp only [Bool.and_eq_true, decide_eq_true_eq]

/-- What the end of group k leaves: its own record, that of its workgroup, what is to settle and to follow. -/
theorem State.groupGone_eq (s : State) (k : Nat) : ∃ ws ag, s.groupGone k = { s with
    groups := mapPut s.groups k { s.groupAt k with waitSlot := none, busy := none, hint := none, trapMode := false }
    unsettled := s.unsettled ++ [k], wgs := ws, agenda := ag } := by
  unfold State.groupGone
  dsimp only
  split
  · exact ⟨_, _, rfl⟩
  · exact ⟨s.wgs, s.agenda, rfl⟩

/-- R105: a group that has ended, after what the end of its threads has done to its joins. -/
theorem State.endGroup_eq (s : State) (k : Nat) : ∃ ws ag, s.endGroup k = { s with
    groups := mapPut (mapPut s.groups k ((s.groupAt k).endThreads (s.groupAt k).notEnded)) k (s.groupAt k).atEnd
    unsettled := s.unsettled ++ [k], wgs := ws, agenda := ag } := by
  obtain ⟨ws, ag, e⟩ := (s.setGroupAt k ((s.groupAt k).endThreads (s.groupAt k).notEnded)).groupGone_eq k
  refine ⟨ws, ag, ?_⟩
  rw [State.setGroupAt_groupAt, if_pos rfl] at e
  exact e

theorem State.endGroup_groupAt (s : State) (k j : Nat) : (s.endGroup k).groupAt j = if j = k then (s.groupAt k).atEnd else s.groupAt j := by
  obtain ⟨ws, ag, e⟩ := s.endGroup_eq k
  rw [e]
  show mapGet ({} : Group) (mapPut _ _ _) j = _
  rw [mapGet_mapPut]
  split
  · rfl
  next h => exact mapGet_mapPut_ne _ _ _ h

/-! ### Merged histories (R204) -/

/-- Merging histories changes the operations and, of groups, the fences of one. -/
theorem State.mergeHist_eq (s : State) (k : Nat) (set : BitVec 32) : ∃ ops fs, s.mergeHist k set = { s with
    ops := ops, groups := mapPut s.groups k { s.groupAt k with fences := fs } } := ⟨_, _, rfl⟩

/-- Only the fences of group k and the operations in flight differ. -/
structure OnlyHistory (s t : State) (k : Nat) : Prop where
  rest : t = { s with ops := t.ops, groups := t.groups }
  fences : ∃ fs, t.groupAt k = { s.groupAt k with fences := fs }
  others : ∀ j, j ≠ k → t.groupAt j = s.groupAt j

theorem OnlyHistory.refl (s : State) (k : Nat) : OnlyHistory s s k := ⟨rfl, ⟨_, rfl⟩, fun _ _ => rfl⟩

theorem OnlyHistory.trans {s t r : State} {k : Nat} (h : OnlyHistory s t k) (h' : OnlyHistory t r k) : OnlyHistory s r k := by
  obtain ⟨fs, hf⟩ := h.fences
  obtain ⟨fs', hf'⟩ := h'.fences
  refine ⟨?_, ⟨fs', ?_⟩, fun j hj => (h'.others j hj).trans (h.others j hj)⟩
  · rw [h'.rest, h.rest]
  · rw [hf', hf]

theorem State.mergeHist_onlyHistory (s : State) (k : Nat) (set : BitVec 32) : OnlyHistory s (s.mergeHist k set) k := by
  obtain ⟨ops, fs, e⟩ := s.mergeHist_eq k set
  rw [e]
  exact ⟨rfl, ⟨fs, mapGet_mapPut_same _ _ _ _⟩, fun j hj => mapGet_mapPut_ne _ _ _ hj⟩

theorem State.mergeReleases_onlyHistory (s : State) (k : Nat) (set : BitVec 32) : OnlyHistory s (s.mergeReleases k set) k := by
  unfold State.mergeReleases
  dsimp only
  generalize s.groupAt k = g
  induction List.range 8 generalizing s with
  | nil => exact .refl s k
  | cons x xs ih =>
    rw [List.foldl_cons]
    split
    · exact (s.mergeHist_onlyHistory k _).trans (ih _)
    · exact ih s

/-! ### The instruction -/

theorem exec_exit_uniform (h : Guard) (s : State) :
    exec (.exit true h) s = .next ((if s.grp.guardQ h = true then s.endGroup s.cur else s.finish s.grp).tellDependants s.grp.launch) := rfl

theorem exec_exit_thread (h : Guard) (s : State) : exec (.exit false h) s = .next ((if h.idx = 7#3 then s.endGroup s.cur
    else if s.grp.active h = 0#32 then s.finish s.grp else s.exitThreads (s.grp.active h)).tellDependants s.grp.launch) := rfl

theorem OnlyHistory.grp {s t : State} (h : OnlyHistory s t s.cur) : ∃ fs, t.grp = { s.grp with fences := fs } := by
  have cur : t.cur = s.cur := by rw [h.rest]
  show ∃ fs, t.groupAt t.cur = _
  rw [cur]
  exact h.fences

theorem Group.isEnded_eq_false {g : Group} (h : g.running ≠ 0#32) : g.isEnded = false :=
  Bool.eq_false_iff.2 fun he => h (g.running_eq_zero he)

/-- Threads end while others run on: with them ended, the group completes the instruction. -/
theorem State.exitThreads_of_left {s : State} {set : BitVec 32} (h : s.grp.running &&& ~~~set ≠ 0#32) :
    ∃ s1, OnlyHistory s s1 s.cur ∧ s.exitThreads set = s1.finish (s1.grp.endThreads set) := by
  refine ⟨s.mergeReleases s.cur set, s.mergeReleases_onlyHistory s.cur set, ?_⟩
  unfold State.exitThreads
  dsimp only
  obtain ⟨fs, hg⟩ := (s.mergeReleases_onlyHistory s.cur set).grp
  generalize s.mergeReleases s.cur set = s1 at hg ⊢
  have left : s1.grp.running &&& ~~~set ≠ 0#32 := by
    rw [hg]
    exact h
  have kept := Group.endThreads_keepsRunning (.inl left)
  have running : (s1.grp.endThreads set).running ≠ 0#32 := by
    rw [kept.running_eq, Group.markEnded_running]
    exact left
  rw [if_neg (by rw [Group.isEnded_eq_false running]; exact Bool.false_ne_true), if_pos (.inl left)]
  have pc : s1.grp.pc = (s1.grp.endThreads set).pc := kept.pc.symm
  rw [pc]

theorem Group.complete_running (g : Group) : g.complete.running = g.running := by
  rw [g.complete_eta]
  rfl

theorem Group.complete_thread (g : Group) (j : Nat) : g.complete.thread j = g.thread j := by
  rw [g.complete_eta]
  rfl

theorem State.tellDependants_groupAt (s : State) (l k : Nat) : (s.tellDependants l).groupAt k = s.groupAt k := by
  rw [s.tellDependants_eq]
  rfl

theorem State.tellDependants_grp (s : State) (l : Nat) : (s.tellDependants l).grp = s.grp := by
  rw [s.tellDependants_eq]
  rfl

theorem State.tellDependants_mem (s : State) (l : Nat) : (s.tellDependants l).mem = s.mem := by
  rw [s.tellDependants_eq]

theorem State.tellDependants_groups (s : State) (l : Nat) : (s.tellDependants l).groups = s.groups := by
  rw [s.tellDependants_eq]

theorem State.endGroup_grp (s : State) : (s.endGroup s.cur).grp = s.grp.atEnd := by
  obtain ⟨ws, ag, e⟩ := s.endGroup_eq s.cur
  have cur : (s.endGroup s.cur).cur = s.cur := by rw [e]
  show (s.endGroup s.cur).groupAt (s.endGroup s.cur).cur = _
  rw [cur, s.endGroup_groupAt, if_pos rfl]
  rfl

theorem State.endGroup_mem (s : State) (k : Nat) : (s.endGroup k).mem = s.mem := by
  obtain ⟨ws, ag, e⟩ := s.endGroup_eq k
  rw [e]

/-- Settles O23: the group ends by `endGroup`, some of its threads by `exitThreads`. -/
theorem exitInstruction : Obligations.ExitInstruction := by
  unfold Obligations.ExitInstruction
  intro s u h
  refine ⟨fun hu => ?_, fun hu hq => ?_, fun hu hi hr => ?_⟩
  · have ends : exec (.exit u h) s = .next ((s.endGroup s.cur).tellDependants s.grp.launch) := by
      rcases hu with ⟨rfl, hq⟩ | ⟨rfl, hi⟩
      · rw [exec_exit_uniform, if_pos hq]
      · rw [exec_exit_thread, if_pos hi]
    refine ⟨_, ends, ?_⟩
    rw [State.tellDependants_grp, State.tellDependants_mem, s.endGroup_grp, s.endGroup_mem]
    obtain ⟨hv, hg⟩ := s.grp.atEnd_regs
    refine ⟨fun j hj => s.grp.atEnd_thread_st hj, rfl, rfl, hv, hg, rfl, fun k hk => ?_⟩
    rw [State.tellDependants_groupAt, s.endGroup_groupAt, if_neg hk]
  · subst hu
    refine ⟨_, by rw [exec_exit_uniform, if_neg (by rw [hq]; exact Bool.false_ne_true)], ?_, ?_⟩
    · rw [State.tellDependants_groups]
      rfl
    · rw [State.tellDependants_mem]
      rfl
  · subst hu
    have he := exec_exit_thread h s
    rw [if_neg hi] at he
    by_cases ha : s.grp.active h = 0#32
    · rw [if_pos ha] at he
      refine ⟨_, he, ?_⟩
      rw [State.tellDependants_grp, State.tellDependants_mem, State.finish_grp, ha]
      refine ⟨fun j _ hj => by simp at hj, ?_, rfl, s.grp.complete_v, s.grp.complete_g, rfl, fun k hk => ?_⟩
      · rw [s.grp.complete_running, BitVec.not_zero, BitVec.and_allOnes]
      · rw [State.tellDependants_groupAt, (s.finish_onlyGroup s.grp).others k hk]
    · rw [if_neg ha] at he
      obtain ⟨s1, hs1, hx⟩ := State.exitThreads_of_left hr
      obtain ⟨fs, hg⟩ := hs1.grp
      have cur : s1.cur = s.cur := by rw [hs1.rest]
      have left : s1.grp.running &&& ~~~s.grp.active h ≠ 0#32 := by
        rw [hg]
        exact hr
      obtain ⟨ended, running, hv, hgg, pc⟩ := (Group.endThreads_keepsRunning (.inl left)).of_markEnded
      have grp : (s1.finish (s1.grp.endThreads (s.grp.active h))).grp = (s1.grp.endThreads (s.grp.active h)).complete := s1.finish_grp _
      have same : s1.grp.complete.pc = s.grp.complete.pc := by rw [hg, Group.complete_of_eq s.grp { s.grp with fences := fs } rfl rfl rfl]
      refine ⟨_, he, ?_⟩
      rw [State.tellDependants_grp, State.tellDependants_mem, hx, grp, Group.complete_running, running, Group.complete_v, Group.complete_g, hv, hgg, pc, same]
      refine ⟨fun j hj hs => ?_, ?_, rfl, ?_, ?_, ?_, fun k hk => ?_⟩
      · rw [Group.complete_thread]
        exact ended j hj hs
      · rw [hg]
        rfl
      · rw [hg]
      · rw [hg]
      · show s1.mem = _
        rw [hs1.rest]
      · rw [State.tellDependants_groupAt, (s1.finish_onlyGroup _).others k (cur ▸ hk), hs1.others k hk]

end Sys2Proof.Machine
end

section
/-! PROOF. O37: the memory instructions issue or trap, and what the check of an address finds. -/

namespace Sys2Proof.Machine

/-! ### The instructions -/

theorem Group.scopeOr_plain (g : Group) (x : Scope) : g.scopeOr .plain x = x := if_pos rfl

section
variable {i : Instr} {s : State} {u : Bool} {h : Guard} {d a : Reg} {o : Ord} {x : Scope} {f : BitVec 3}

theorem State.loadM_accesses {n : Nat} {ldc : Bool} (hi : exec i s = .next (s.loadM u h d a n o x f ldc)) :
    Accesses i s u h .load n d o (s.grp.scopeOr o x) ldc (fun l => (s.grp.addrM l a f n, true)) (fun _ => ([], [])) :=
  State.access_accesses i s h ⟨u, .load, n, d, o, s.grp.scopeOr o x, .loads, ldc⟩ ldc _ _ _ hi rfl

theorem State.storeM_accesses {n : Nat} (hi : exec i s = .next (s.storeM u h d a n o x f)) :
    Accesses i s u h .store n d o (s.grp.scopeOr o x) false (fun l => (s.grp.addrM l a f n, true)) (fun l => (s.grp.regBytes l d n, [])) :=
  State.access_accesses i s h ⟨u, .store, n, d, o, s.grp.scopeOr o x, .stores, false⟩ false _ _ _ hi rfl

theorem Group.addrS_eq (g : Group) (l : Lane) (n : Nat) : g.addrS l a f n =
    (BitVec.ofInt 64 (0x00F0000000000000 + ((g.rd l a).toNat + g.offM f * n)),
      decide (0 ≤ ((g.rd l a).toNat : Int) + g.offM f * n ∧ ((g.rd l a).toNat : Int) + g.offM f * n < 0x10000000)) :=
  Prod.ext rfl (Bool.decide_and ..).symm

theorem State.loadS_accesses {n : Nat} (hi : exec i s = .next (s.loadS u h d a n o x f)) :
    Accesses i s u h .load n d o (s.grp.scopeOr o x) false (fun l => (BitVec.ofInt 64 (0x00F0000000000000 + ((s.grp.rd l a).toNat + s.grp.offM f * n)),
      decide (0 ≤ ((s.grp.rd l a).toNat : Int) + s.grp.offM f * n ∧ ((s.grp.rd l a).toNat : Int) + s.grp.offM f * n < 0x10000000)))
      (fun _ => ([], [])) := by
  simp only [← Group.addrS_eq]
  exact State.access_accesses i s h ⟨u, .load, n, d, o, s.grp.scopeOr o x, .loads, false⟩ false _ _ _ hi rfl

theorem State.storeS_accesses {n : Nat} (hi : exec i s = .next (s.storeS u h d a n o x f)) :
    Accesses i s u h .store n d o (s.grp.scopeOr o x) false (fun l => (BitVec.ofInt 64 (0x00F0000000000000 + ((s.grp.rd l a).toNat + s.grp.offM f * n)),
      decide (0 ≤ ((s.grp.rd l a).toNat : Int) + s.grp.offM f * n ∧ ((s.grp.rd l a).toNat : Int) + s.grp.offM f * n < 0x10000000)))
      (fun l => (s.grp.regBytes l d n, [])) := by
  simp only [← Group.addrS_eq]
  exact State.access_accesses i s h ⟨u, .store, n, d, o, s.grp.scopeOr o x, .stores, false⟩ false _ _ _ hi rfl

theorem State.atomM_accesses {op : AtomOp} (hi : exec i s = .next (s.atomM u h d a op o x)) :
    Accesses i s u h (.atom op) op.size d o (s.grp.scopeOr o x) false (fun l => (s.grp.rd64 l a, true)) (fun l => s.grp.atomOperands l op d) :=
  State.access_accesses i s h ⟨u, .atom op, op.size, d, o, s.grp.scopeOr o x, .loads, false⟩ false _ _ _ hi rfl

theorem State.redM_accesses {op : AtomOp} (hi : exec i s = .next (s.redM u h d a op o x)) :
    Accesses i s u h (.red op) op.size d o (s.grp.scopeOr o x) false (fun l => (s.grp.rd64 l a, true)) (fun l => ((s.grp.atomOperands l op d).1, [])) :=
  State.access_accesses i s h ⟨u, .red op, op.size, d, o, s.grp.scopeOr o x, .stores, false⟩ false _ _ _ hi rfl

end

/-! ### The check of an address -/

/-- An address that is canonical and aligned is judged by its space alone. -/
theorem State.checkAccess_memory (s : State) (g : Group) {va : Dword} {size : Nat} (w : Want) (ldc : Bool) (hc : va.toNat < 2 ^ 56)
    (ha : va.toNat % size = 0) (hs : spaceOf va.toNat = .memory) :
    s.checkAccess g va true size w ldc = match s.translate (some g.core) (s.launchAt g.launch).leases g.owner va.toNat size w with
    | .error c => .error c
    | .ok x => if ldc && pteBit x.entry 3 then .error 3 else .ok { va := va.toNat, place := .mem x.pa, leaf := some x } := by
  unfold State.checkAccess
  dsimp only
  rw [if_neg (by decide), if_neg (by omega), if_neg (by omega), hs]
  rfl

theorem State.checkAccess_scratch (s : State) (g : Group) {va : Dword} {size c off : Nat} (w : Want) (ldc : Bool) (hc : va.toNat < 2 ^ 56)
    (ha : va.toNat % size = 0) (hs : spaceOf va.toNat = .scratch c off) :
    s.checkAccess g va true size w ldc = if ldc then .error 3 else match s.shareOf g.owner c with
    | none => .error 7
    | some sh =>
      if sh.scratchLen ≤ off ∨ !s.holdsCore g.owner c then .error 7
      else if guarded (s.allocOn g.owner c) off then .ok { va := va.toNat, place := .guard, core := c, off := off }
      else .ok { va := va.toNat, place := .scr (s.phys g.owner c) (sh.scratchBase + off), core := c, off := off } := by
  unfold State.checkAccess
  dsimp only
  rw [if_neg (by decide), if_neg (by omega), if_neg (by omega), hs]
  rfl

theorem State.checkAccess_counter (s : State) (g : Group) {va : Dword} {size n : Nat} (w : Want) (ldc : Bool) (hc : va.toNat < 2 ^ 56)
    (ha : va.toNat % size = 0) (hs : spaceOf va.toNat = .counter n) :
    s.checkAccess g va true size w ldc = if ldc then .error 3 else if size = 8 then .ok { va := va.toNat, place := .ctr n } else .error 1 := by
  unfold State.checkAccess
  dsimp only
  rw [if_neg (by decide), if_neg (by omega), if_neg (by omega), hs]
  dsimp only
  rw [ite_not]
  rfl

theorem State.checkAccess_reserved (s : State) (g : Group) {va : Dword} {size : Nat} (w : Want) (ldc : Bool) (hc : va.toNat < 2 ^ 56)
    (ha : va.toNat % size = 0) (hs : spaceOf va.toNat = .reserved) : s.checkAccess g va true size w ldc = .error 2 := by
  unfold State.checkAccess
  dsimp only
  rw [if_neg (by decide), if_neg (by omega), if_neg (by omega), hs]
  rfl

theorem spaceOf_memory {a : Nat} (h : a < 0x00F0000000000000) : spaceOf a = .memory := if_pos h

theorem spaceOf_scratch {core off : Nat} (hc : core < 512) (ho : off < 0x80000) :
    spaceOf (0x00F0000000000000 + 0x80000 * core + off) = .scratch core off := by
  unfold spaceOf scratchBase
  rw [if_neg (by omega), if_pos (by omega), show (0x00F0000000000000 + 0x80000 * core + off - 0x00F0000000000000) / 0x80000 = core by omega,
    show (0x00F0000000000000 + 0x80000 * core + off - 0x00F0000000000000) % 0x80000 = off by omega]

theorem spaceOf_counter {a : Nat} (h : 0x00F1000000000000 ≤ a) (h' : a < 0x00F1000000008000) : spaceOf a = .counter ((a - 0x00F1000000000000) / 8) := by
  unfold spaceOf scratchBase counterBase
  rw [if_neg (by omega), if_neg (by omega), if_pos (by omega)]

theorem spaceOf_reserved {a : Nat} (h : 0x00F0000010000000 ≤ a) (h' : a < 0x00F1000000000000 ∨ 0x00F1000000008000 ≤ a) : spaceOf a = .reserved := by
  unfold spaceOf scratchBase counterBase
  rw [if_neg (by omega), if_neg (by omega), if_neg (by omega)]

theorem coveredBy_iff (ls : List Lease) (w : Want) (a n : Nat) : coveredBy ls w a n = true ↔ ∃ l ∈ ls, l.resident = true ∧ l.base ≤ a ∧ a + n ≤ l.base + l.len ∧
    (w.r = true → l.r = true) ∧ (w.w = true → l.w = true) ∧ (w.x = true → l.x = true) := by
  have imp (p q : Bool) : (!p || q) = true ↔ (p = true → q = true) := by cases p <;> simp
  simp only [coveredBy, List.any_eq_true, Lease.covers, Bool.and_eq_true, decide_eq_true_eq, imp, and_assoc]

theorem pteGrants_iff (e : Nat) (w : Want) : pteGrants e w = true ↔
    (w.r = true → e.testBit 2 = true) ∧ (w.w = true → e.testBit 3 = true) ∧ (w.x = true → e.testBit 4 = true) := by
  have imp (p q : Bool) : (!p || q) = true ↔ (p = true → q = true) := by cases p <;> simp
  simp only [pteGrants, pteBit, Bool.and_eq_true, imp, and_assoc]

theorem guarded_iff (alloc off : Nat) : guarded alloc off = true ↔ off < 64 ∨ 64 + alloc ≤ off := by
  simp [guarded]

/-- The check of an address of ordinary memory (R195, R191). -/
theorem State.checkAccess_inMemory (s : State) (g : Group) {va : Dword} {size : Nat} (w : Want) (ldc : Bool) (hc : va.toNat < 2 ^ 56)
    (ha : va.toNat % size = 0) (hs : va.toNat < 0x00F0000000000000) :
    (¬coveredBy (s.launchAt g.launch).leases w va.toNat size = true → s.checkAccess g va true size w ldc = .error 6) ∧
    (coveredBy (s.launchAt g.launch).leases w va.toNat size = true →
      (∀ c, s.leafOn (some g.core) g.owner va.toNat w = .error c → s.checkAccess g va true size w ldc = .error c) ∧
      ∀ x, s.leafOn (some g.core) g.owner va.toNat w = .ok x → s.checkAccess g va true size w ldc =
        if ldc = true ∧ x.entry.testBit 3 = true then .error 3 else .ok { va := va.toNat, place := .mem x.pa, leaf := some x }) := by
  rw [s.checkAccess_memory g w ldc hc ha (spaceOf_memory hs)]
  unfold State.translate
  refine ⟨fun hn => ?_, fun hy => ⟨fun c e => ?_, fun x e => ?_⟩⟩
  · rw [if_neg hn]
    rfl
  · rw [if_pos hy, e]
  · rw [if_pos hy, e]
    dsimp only [pteBit]
    simp only [Bool.and_eq_true]

/-- The check of an address of scratch (R196). -/
theorem State.checkAccess_inScratch (s : State) (g : Group) {va : Dword} {size core off : Nat} (w : Want) (ldc : Bool) (hc : va.toNat < 2 ^ 56)
    (ha : va.toNat % size = 0) (hcore : core < 512) (hoff : off < 0x80000) (hs : va.toNat = 0x00F0000000000000 + 0x80000 * core + off) :
    (ldc = true → s.checkAccess g va true size w ldc = .error 3) ∧
    (ldc = false → (∀ sh, s.shareOf g.owner core = some sh → sh.scratchLen ≤ off ∨ s.holdsCore g.owner core = false) →
      s.checkAccess g va true size w ldc = .error 7) ∧
    (ldc = false → ∀ sh, s.shareOf g.owner core = some sh → off < sh.scratchLen → s.holdsCore g.owner core = true →
      s.checkAccess g va true size w ldc = .ok {
        va := va.toNat, core := core, off := off
        place := if off < 64 ∨ 64 + s.allocOn g.owner core ≤ off then .guard else .scr (s.phys g.owner core) (sh.scratchBase + off) }) := by
  rw [s.checkAccess_scratch g w ldc hc ha (hs ▸ spaceOf_scratch hcore hoff)]
  refine ⟨fun hl => if_pos hl, fun hl hno => ?_, fun hl sh hsh hlen hold => ?_⟩
  · rw [if_neg (by simp [hl])]
    cases hsh : s.shareOf g.owner core with
    | none => rfl
    | some sh => exact if_pos (by simpa using hno sh hsh)
  · rw [if_neg (by simp [hl]), hsh]
    dsimp only
    rw [if_neg (by simp [hold, hlen])]
    by_cases hg : guarded (s.allocOn g.owner core) off = true
    · rw [if_pos hg, if_pos ((guarded_iff _ _).1 hg)]
    · rw [if_neg hg, if_neg (mt (guarded_iff _ _).2 hg)]

/-! ### Translation -/

/-- What the TLB gives (R193). -/
theorem State.leafOn_cases (s : State) (c o va : Nat) (w : Want) :
    (s.tlbHit o c va = none → s.leafOn (some c) o va w = s.walk o va w) ∧
    ∀ e, s.tlbHit o c va = some e →
      ((e.entry.testBit 5 = false ∨ w.w = true ∧ e.entry.testBit 6 = false) → s.leafOn (some c) o va w = s.walk o va w) ∧
      (¬(e.entry.testBit 5 = false ∨ w.w = true ∧ e.entry.testBit 6 = false) → ¬pteGrants e.entry w = true →
        s.leafOn (some c) o va w = .error 3) ∧
      (¬(e.entry.testBit 5 = false ∨ w.w = true ∧ e.entry.testBit 6 = false) → pteGrants e.entry w = true →
        s.leafOn (some c) o va w = .ok ⟨s.canon o (pteFrame e.entry * 65536 + va % 2 ^ e.bits), e.at_, e.entry, e.entry, e.bits, []⟩) := by
  have hagain (e : TlbEntry) : (!pteBit e.entry 5 || (w.w && !pteBit e.entry 6)) = true ↔
      (e.entry.testBit 5 = false ∨ w.w = true ∧ e.entry.testBit 6 = false) := by
    simp [pteBit]
  unfold State.leafOn
  rw [Option.bind_some]
  refine ⟨fun e => by rw [e], fun e he => ?_⟩
  rw [he]
  dsimp only
  refine ⟨fun ha => if_pos ((hagain e).2 ha), fun ha hg => ?_, fun ha hg => ?_⟩
  · rw [if_neg (mt (hagain e).1 ha), if_pos (by simpa using hg)]
    rfl
  · rw [if_neg (mt (hagain e).1 ha), if_neg (by simpa using hg)]

theorem pageBits_eq (n : Nat) (hn : n ≤ 2) : pageBits (n + 1) = if n = 2 then 30 else if n = 1 then 21 else 16 := by
  match n, hn with
  | 0, _ => rfl
  | 1, _ => rfl
  | 2, _ => rfl

section
variable (s : State) (r : PartRec) (va n addr : Nat) (path : List Nat) (w : Want) {e : Nat} (he : s.entryAt r.owner (addr + 8 * pteIndex va (n + 1)) = e)
include he

theorem State.walkFrom_invalid (h : e.testBit 0 = false) : s.walkFrom r va w (n + 1) addr path = .error 2 := by
  subst he
  rw [State.walkFrom]
  exact if_pos (by rw [Bool.not_eq_true']; exact h)

theorem State.walkFrom_foreign (h : e.testBit 0 = true) (ho : e / 2 ^ 10 % 64 ≠ r.owner) : s.walkFrom r va w (n + 1) addr path = .error 4 := by
  subst he
  rw [State.walkFrom]
  exact (if_neg (by rw [Bool.not_eq_true', Bool.not_eq_false]; exact h)).trans (if_pos ho)

theorem State.walkFrom_table (h : e.testBit 0 = true) (ho : e / 2 ^ 10 % 64 = r.owner) (ht : e.testBit 1 = false) :
    s.walkFrom r va w (n + 1) addr path = if n = 0 ∨ e / 4 % 256 ≠ 0 ∨ e / 2 ^ 52 ≠ 0 then .error 5
      else s.walkFrom r va w n (e / 2 ^ 16 % 2 ^ 36 * 65536) (path ++ [s.canon r.owner (addr + 8 * pteIndex va (n + 1))]) := by
  subst he
  rw [State.walkFrom]
  refine (if_neg (by rw [Bool.not_eq_true', Bool.not_eq_false]; exact h)).trans ((if_neg (not_not.2 ho)).trans
    ((if_pos (by rw [Bool.not_eq_true']; exact ht)).trans ?_))
  simp only [Nat.add_eq_right]
  rfl

theorem State.walkFrom_leaf (h : e.testBit 0 = true) (ho : e / 2 ^ 10 % 64 = r.owner) (ht : e.testBit 1 = true) :
    s.walkFrom r va w (n + 1) addr path = if n = 3 ∨ pteWellFormed r e (n + 1) = false then .error 5
      else if pteGrants e w = false then .error 3
      else .ok ⟨s.canon r.owner (e / 2 ^ 16 % 2 ^ 36 * 65536 + va % 2 ^ pageBits (n + 1)), s.canon r.owner (addr + 8 * pteIndex va (n + 1)), e,
          e ||| (if w.w = true then 0x60 else 0x20), pageBits (n + 1), path ++ [s.canon r.owner (addr + 8 * pteIndex va (n + 1))]⟩ := by
  subst he
  rw [State.walkFrom]
  refine (if_neg (by rw [Bool.not_eq_true', Bool.not_eq_false]; exact h)).trans ((if_neg (not_not.2 ho)).trans
    ((if_neg (by rw [Bool.not_eq_true', Bool.not_eq_false]; exact ht)).trans ?_))
  simp only [Bool.not_eq_true', Nat.reduceEqDiff]
  rfl

end

/-- Settles O37: every memory instruction is the one access of the model, and a check goes by the space of its address, the TLB and the walk. -/
theorem memoryInstructionsIssue : Obligations.MemoryInstructionsIssue := by
  unfold Obligations.MemoryInstructionsIssue
  refine ⟨?_, ?_, ?_, ?_⟩
  · intro s u h d a o y f g off pair scr none2 regs sc loads stores
    have ld {n : Nat} {i : Instr} {ldc : Bool} (hi : exec i s = .next (s.loadM u h d a n .plain .grp f ldc)) : loads n i .plain .grp ldc := by
      have := State.loadM_accesses hi
      rwa [g.scopeOr_plain] at this
    have st {n : Nat} {i : Instr} (hi : exec i s = .next (s.storeM u h d a n .plain .grp f)) : stores n i .plain .grp := by
      have := State.storeM_accesses hi
      rwa [g.scopeOr_plain] at this
    refine ⟨ld rfl, ld rfl, ld rfl, ld rfl, ld rfl, ld rfl, State.loadM_accesses rfl, State.loadM_accesses rfl, st rfl, st rfl, st rfl, st rfl, st rfl,
      State.storeM_accesses rfl, State.storeM_accesses rfl, State.loadS_accesses rfl, State.loadS_accesses rfl, State.storeS_accesses rfl,
      State.storeS_accesses rfl, ?_, ?_⟩
    · simp only [List.forall_mem_cons, List.not_mem_nil, false_imp_iff, implies_true, and_true]
      refine ⟨?_, ?_, ?_, ?_, ?_, ?_, ?_, ?_, ?_, ?_, ?_, ?_, ?_, ?_, ?_⟩
      all_goals exact State.atomM_accesses rfl
    · simp only [List.forall_mem_cons, List.not_mem_nil, false_imp_iff, implies_true, and_true]
      refine ⟨?_, ?_, ?_, ?_, ?_, ?_, ?_, ?_, ?_, ?_, ?_⟩
      all_goals exact State.redM_accesses rfl
  · intro s g va size w ldc a gives
    refine ⟨rfl, fun hc => if_pos hc, fun hc ha => (if_neg (by omega)).trans (if_pos ha), fun hc ha => ⟨fun hm => ?_, ?_, fun hl hu => ?_, fun hl hu => ?_⟩⟩
    · intro inside
      obtain ⟨hout, hin⟩ := s.checkAccess_inMemory g w ldc hc ha hm
      have hi : coveredBy (s.launchAt g.launch).leases w a size = true ↔ inside := coveredBy_iff _ _ _ _
      exact ⟨fun hn => hout (mt hi.1 hn), fun hy => hin (hi.2 hy)⟩
    · exact fun core off hcore hoff hs => s.checkAccess_inScratch g w ldc hc ha hcore hoff hs
    · exact s.checkAccess_counter g w ldc hc ha (spaceOf_counter hl hu)
    · exact s.checkAccess_reserved g w ldc hc ha (spaceOf_reserved hl hu)
  · intro s c o va w
    obtain ⟨hn, hs⟩ := s.leafOn_cases c o va w
    refine ⟨hn, fun e he => ?_⟩
    intro again grants
    obtain ⟨hagain, hno, hyes⟩ := hs e he
    exact ⟨hagain, fun ha hg => hno ha (mt (pteGrants_iff _ _).1 hg), fun ha hg => ⟨_, hyes ha ((pteGrants_iff _ _).2 hg), rfl, rfl, rfl⟩⟩
  · intro s r va n addr path w hn place e frame bits grants gives
    refine ⟨s.walkFrom_invalid r va n addr path w rfl, s.walkFrom_foreign r va n addr path w rfl, fun h ho => ⟨fun ht => ⟨fun hb => ?_, fun h0 hz hr => ?_⟩,
      fun ht => ⟨fun hb => ?_, fun h3 hw => ⟨fun hg => ?_, fun hg => ?_⟩⟩⟩⟩
    · exact (s.walkFrom_table r va n addr path w rfl h ho ht).trans (if_pos hb)
    · exact (s.walkFrom_table r va n addr path w rfl h ho ht).trans (if_neg (by rintro (h | h | h) <;> contradiction))
    · exact (s.walkFrom_leaf r va n addr path w rfl h ho ht).trans (if_pos hb)
    · have hb : ¬(n = 3 ∨ pteWellFormed r e (n + 1) = false) := by simp [h3, hw]
      exact (s.walkFrom_leaf r va n addr path w rfl h ho ht).trans ((if_neg hb).trans (if_pos (Bool.eq_false_iff.2 (mt (pteGrants_iff _ _).1 hg))))
    · have hb : ¬(n = 3 ∨ pteWellFormed r e (n + 1) = false) := by simp [h3, hw]
      have := (s.walkFrom_leaf r va n addr path w rfl h ho ht).trans ((if_neg hb).trans (if_neg (Bool.not_eq_false _ ▸ (pteGrants_iff _ _).2 hg)))
      rw [pageBits_eq n (by omega)] at this
      exact this

end Sys2Proof.Machine
end

section
/-! SUPPORT. What becomes of the operations in flight while an access takes effect, and what waking and noting later events leaves. -/

namespace Sys2Proof.Machine

/-! ### Noting later events -/

/-- Events have been put on the agenda, and nothing else differs. -/
def Schedules (s t : State) : Prop := ∃ xs, t = { s with agenda := s.agenda ++ xs }

theorem Schedules.refl (s : State) : Schedules s s := ⟨[], by rw [List.append_nil]⟩

theorem Schedules.trans {r s t : State} (h : Schedules r s) (k : Schedules s t) : Schedules r t := by
  obtain ⟨xs, rfl⟩ := h
  obtain ⟨ys, rfl⟩ := k
  exact ⟨xs ++ ys, by rw [List.append_assoc]⟩

theorem Schedules.of_schedule (s : State) (c : Clk) (n : Nat) (ev : Instr) : Schedules s (s.schedule c n ev) := ⟨_, rfl⟩

theorem Schedules.foldl {α : Type} (xs : List α) (f : State → α → State) (hf : ∀ s x, Schedules s (f s x)) (s : State) : Schedules s (xs.foldl f s) := by
  induction xs generalizing s with
  | nil => exact Schedules.refl _
  | cons x xs ih => exact (hf s x).trans (ih _)

theorem State.nudge_schedules (s : State) (id : Nat) : Schedules s (s.nudge id) := by
  refine Schedules.foldl _ _ (fun s p => Schedules.foldl _ _ (fun s a => ?_) _) _
  split
  · exact Schedules.of_schedule _ _ _ _
  · exact Schedules.refl _

theorem State.tryArrive_schedules (s : State) (k : Nat) : Schedules s (s.tryArrive k) := by
  unfold State.tryArrive
  split
  · exact Schedules.refl _
  · split
    · exact Schedules.refl _
    · exact Schedules.of_schedule _ _ _ _

theorem State.wakeHeld_schedules (s : State) (f : Await → Bool) : Schedules s (s.wakeHeld f) := by
  refine (Schedules.foldl _ _ (fun s p => ?_) _).trans (Schedules.foldl _ _ (fun s p => ?_) _)
  · split
    · exact Schedules.of_schedule _ _ _ _
    · exact Schedules.refl _
  · split
    · exact State.tryArrive_schedules _ _
    · exact Schedules.refl _

/-! ### Operations further on -/

/-- An access further on: its thread, whether it is done and the bytes it has lost stay, and, where `keep` asks for it, its sending. -/
structure Acc.Later (keep : Bool) (a b : Acc) : Prop where
  thread : b.thread = a.thread
  done : b.done = a.done
  gone : ∀ i ∈ a.gone, i ∈ b.gone
  sent : keep = true → a.sent.isSome = true → b.sent = a.sent ∧ b.vis = a.vis

theorem Acc.Later.refl (keep : Bool) (a : Acc) : a.Later keep a := ⟨rfl, rfl, fun _ h => h, fun _ _ => ⟨rfl, rfl⟩⟩

theorem Acc.Later.trans {keep : Bool} {a b c : Acc} (h : a.Later keep b) (k : b.Later keep c) : a.Later keep c :=
  ⟨k.thread.trans h.thread, k.done.trans h.done, fun i hi => k.gone i (h.gone i hi), fun hk ha => by
    obtain ⟨e, v⟩ := h.sent hk ha
    obtain ⟨e', v'⟩ := k.sent hk (e ▸ ha)
    exact ⟨e'.trans e, v'.trans v⟩⟩

/-- An operation further on: its group stays and each access is further on. -/
def MemOp.Later (keep : Bool) (p q : MemOp) : Prop := q.gid = p.gid ∧ ∃ f, q.accs = p.accs.map f ∧ ∀ a, Acc.Later keep a (f a)

theorem MemOp.Later.refl (keep : Bool) (p : MemOp) : p.Later keep p := ⟨rfl, id, by rw [List.map_id], Acc.Later.refl keep⟩

theorem MemOp.Later.trans {keep : Bool} {p q r : MemOp} (h : p.Later keep q) (k : q.Later keep r) : p.Later keep r := by
  obtain ⟨hg, f, hf, hl⟩ := h
  obtain ⟨kg, g, kf, kl⟩ := k
  exact ⟨kg.trans hg, g ∘ f, by rw [kf, hf, List.map_map], fun a => (hl a).trans (kl _)⟩

theorem MemOp.Later.weaken {keep : Bool} {p q : MemOp} (h : p.Later keep q) : p.Later false q := by
  obtain ⟨hg, f, hf, hl⟩ := h
  exact ⟨hg, f, hf, fun a => ⟨(hl a).thread, (hl a).done, (hl a).gone, fun e => by cases e⟩⟩

theorem MemOp.Later.acc_mem {keep : Bool} {p q : MemOp} (h : p.Later keep q) {a : Acc} (ha : a ∈ p.accs) : ∃ b ∈ q.accs, a.Later keep b := by
  obtain ⟨-, f, hf, hl⟩ := h
  exact ⟨f a, hf ▸ List.mem_map_of_mem ha, hl a⟩

theorem MemOp.Later.all_done {keep : Bool} {p q : MemOp} (h : p.Later keep q) (t : Nat) :
    q.accs.all (fun b => b.done || decide (b.thread = t)) = p.accs.all (fun b => b.done || decide (b.thread = t)) := by
  obtain ⟨-, f, hf, hl⟩ := h
  rw [hf, List.all_map]
  congr 1
  funext a
  simp only [Function.comp, (hl a).done, (hl a).thread]

theorem MemOp.Later.done {keep : Bool} {p q : MemOp} (h : p.Later keep q) : q.done = p.done := by
  obtain ⟨-, f, hf, hl⟩ := h
  unfold MemOp.done
  rw [hf, List.all_map]
  congr 1
  funext a
  exact (hl a).done

theorem MemOp.Later.acc {keep : Bool} {p q : MemOp} (h : p.Later keep q) {t : Nat} {a : Acc} (ha : p.acc t = some a) :
    ∃ b, q.acc t = some b ∧ a.Later keep b := by
  obtain ⟨-, f, hf, hl⟩ := h
  refine ⟨f a, ?_, hl a⟩
  unfold MemOp.acc at ha ⊢
  rw [hf, List.find?_map]
  have : ((fun a : Acc => decide (a.thread = t)) ∘ f) = fun a => decide (a.thread = t) := by
    funext x
    simp only [Function.comp, (hl x).thread]
  rw [this, ha]
  rfl

/-- A change of one thread's accesses. -/
theorem setAcc_later {keep : Bool} (op : MemOp) (t : Nat) (f : Acc → Acc) (hf : ∀ a, Acc.Later keep a (f a)) : op.Later keep (setAcc op t f) := by
  refine ⟨rfl, _, rfl, fun a => ?_⟩
  split
  · exact hf a
  · exact Acc.Later.refl _ _

theorem setAcc_acc (op : MemOp) (t : Nat) (f : Acc → Acc) (hf : ∀ a, (f a).thread = a.thread) : (setAcc op t f).acc t = (op.acc t).map f := by
  unfold MemOp.acc setAcc
  dsimp only
  rw [List.find?_map]
  have : ((fun a : Acc => decide (a.thread = t)) ∘ fun a => if a.thread = t then f a else a) = fun a => decide (a.thread = t) := by
    funext x
    dsimp only [Function.comp]
    split
    · rw [hf]
    · rfl
  rw [this]
  cases h : op.accs.find? (fun a => decide (a.thread = t)) with
  | none => rfl
  | some a =>
    have ha : a.thread = t := by simpa using List.find?_some h
    rw [Option.map_some, Option.map_some, if_pos ha]

/-! ### The operations of a state further on -/

/-- Every operation is still there, further on. -/
def OpsLater (keep : Bool) (s t : State) : Prop := ∀ j p, mapFind s.ops j = some p → ∃ q, mapFind t.ops j = some q ∧ p.Later keep q

theorem OpsLater.of_eq {keep : Bool} {s t : State} (h : t.ops = s.ops) : OpsLater keep s t := fun _ p hp => ⟨p, h ▸ hp, MemOp.Later.refl _ _⟩

theorem OpsLater.refl (keep : Bool) (s : State) : OpsLater keep s s := OpsLater.of_eq rfl

theorem OpsLater.trans {keep : Bool} {r s t : State} (h : OpsLater keep r s) (k : OpsLater keep s t) : OpsLater keep r t := by
  intro j p hp
  obtain ⟨q, hq, e⟩ := h j p hp
  obtain ⟨q', hq', e'⟩ := k j q hq
  exact ⟨q', hq', e.trans e'⟩

theorem OpsLater.weaken {keep : Bool} {s t : State} (h : OpsLater keep s t) : OpsLater false s t := by
  intro j p hp
  obtain ⟨q, hq, e⟩ := h j p hp
  exact ⟨q, hq, e.weaken⟩

theorem OpsLater.foldl {α : Type} {keep : Bool} (xs : List α) (f : State → α → State) (hf : ∀ s x, OpsLater keep s (f s x)) (s : State) :
    OpsLater keep s (xs.foldl f s) := by
  induction xs generalizing s with
  | nil => exact OpsLater.refl _ _
  | cons x xs ih => exact (hf s x).trans (ih _)

theorem Schedules.opsLater {keep : Bool} {s t : State} (h : Schedules s t) : OpsLater keep s t := by
  obtain ⟨xs, rfl⟩ := h
  exact OpsLater.of_eq rfl

theorem OpsLater.of_put {keep : Bool} {s t : State} {k : Nat} {op op' : MemOp} (h : mapFind s.ops k = some op) (ht : t.ops = mapPut s.ops k op')
    (hl : op.Later keep op') : OpsLater keep s t := by
  intro j p hp
  rw [ht, mapFind_mapPut]
  by_cases hj : j = k
  · subst hj
    cases h.symm.trans hp
    exact ⟨op', if_pos rfl, hl⟩
  · exact ⟨p, (if_neg hj).trans hp, MemOp.Later.refl _ _⟩

theorem mapFind_mapAll {α : Type} (f : α → α) (m : FMap α) (k : Nat) : mapFind (mapAll f m) k = (mapFind m k).map f := by
  induction m with
  | nil => rfl
  | cons p m ih =>
    obtain ⟨j, v⟩ := p
    by_cases h : j = k
    · simp [mapAll, mapFind, h]
    · simpa [mapAll, mapFind, h] using ih

theorem State.passOn_opsLater {keep : Bool} (s : State) (k : Nat) (new : List Nat) : OpsLater keep s (s.passOn k new) := by
  unfold State.passOn
  split
  · exact OpsLater.refl _ _
  · intro j p hp
    refine ⟨_, (mapFind_mapAll _ _ _).trans (congrArg (Option.map _) hp), rfl, _, rfl, fun a => ?_⟩
    split
    · next h => exact ⟨rfl, rfl, fun _ h => h, fun _ hs => by cases ha : a.sent <;> simp [ha] at h hs⟩
    · exact Acc.Later.refl _ _

theorem State.learn_opsLater {keep : Bool} (s : State) (k : Nat) (op : MemOp) (a : Acc) (from_ : List Nat) (held : Bool) :
    OpsLater keep s (s.learn k op a from_ held) := by
  cases held with
  | true => exact (OpsLater.of_eq (t := s.learn k op a from_ false) rfl).trans (State.passOn_opsLater _ _ _)
  | false => exact OpsLater.of_eq rfl

theorem State.capture_opsLater {keep : Bool} (s : State) (k t now : Nat) (held : Bool) : OpsLater keep s (s.capture k t now held) := by
  unfold State.capture
  split
  · exact OpsLater.refl _ _
  · next op ho =>
    split
    · refine (OpsLater.of_put (t := { s with ops := mapPut s.ops k (setAcc op t _) }) ho rfl (setAcc_later _ _ _ fun a => ?_)).trans
        (State.learn_opsLater _ _ _ _ _ _)
      exact ⟨rfl, rfl, fun _ h => h, fun _ _ => ⟨rfl, rfl⟩⟩
    · exact OpsLater.refl _ _

theorem State.enterBuffer_ops (s : State) (k : Nat) (op : MemOp) (a : Acc) : (s.enterBuffer k op a).ops = s.ops := by
  unfold State.enterBuffer
  split <;> rfl

/-- What sending does to an access beyond fixing when: its place in a commit buffer, or its value. -/
def State.fixSent (s : State) (k t c : Nat) (held : Bool) (op : MemOp) (a : Acc) : State :=
  if a.settled then s else if a.buffered then s.enterBuffer k op a else s.capture k t c held

theorem State.fixSent_opsLater {keep : Bool} (s : State) (k t c : Nat) (held : Bool) (op : MemOp) (a : Acc) :
    OpsLater keep s (s.fixSent k t c held op a) := by
  unfold State.fixSent
  split
  · exact OpsLater.refl _ _
  · split
    · exact OpsLater.of_eq (State.enterBuffer_ops _ _ _ _)
    · exact State.capture_opsLater _ _ _ _ _

/-- The state in which an access has been marked as sent, visible at a cycle. -/
def State.markSent (s : State) (k t c vis : Nat) (op : MemOp) : State :=
  { s with ops := mapPut s.ops k (setAcc op t (fun a => { a with sent := some c, vis := vis })) }

theorem State.markSent_opsLater {s : State} {k : Nat} {op : MemOp} (ho : mapFind s.ops k = some op) (t c vis : Nat) :
    OpsLater false s (s.markSent k t c vis op) :=
  OpsLater.of_put ho rfl (setAcc_later _ _ _ fun _ => ⟨rfl, rfl, fun _ h => h, fun h => by cases h⟩)

/-- The cycle at which an access that is sent at cycle c is visible. -/
def Acc.visAt (a : Acc) (op : MemOp) (c : Nat) : Nat := visibleAt op.w a.hor c (if c = op.w then a.extra else 0)

/-- The state of an access that has been sent, before its reply is due. -/
def State.sentState (s : State) (k t c : Nat) (held : Bool) (op : MemOp) (a : Acc) : State :=
  (s.markSent k t c (a.visAt op c) op).fixSent k t c held op a

/-- Sending an access marks it, fixes what sending fixes, and notes the reply and what is to be looked at again. -/
theorem State.sendAcc_schedules {s : State} {k t : Nat} {op : MemOp} {a : Acc} (ho : mapFind s.ops k = some op) (ha : op.acc t = some a) (c : Nat)
    (held : Bool) : Schedules ((s.sentState k t c held op a).schedule (.owner op.owner op.island) (a.visAt op c)
      ((s.sentState k t c held op a).replyEvent k t op)) (s.sendAcc k t c held) := by
  unfold State.sendAcc
  rw [ho]
  dsimp only
  rw [ha]
  exact (State.nudge_schedules _ _).trans (State.wakeHeld_schedules _ _)

theorem State.sendAcc_opsLater (s : State) (k t c : Nat) (held : Bool) : OpsLater false s (s.sendAcc k t c held) := by
  cases ho : mapFind s.ops k with
  | none => exact OpsLater.of_eq (by unfold State.sendAcc; rw [ho])
  | some op =>
    cases ha : op.acc t with
    | none => exact OpsLater.of_eq (by unfold State.sendAcc; rw [ho]; dsimp only; rw [ha])
    | some a =>
      exact ((State.markSent_opsLater ho _ _ _).trans (State.fixSent_opsLater _ _ _ _ _ _ _)).trans
        ((Schedules.of_schedule _ _ _ _).trans (State.sendAcc_schedules ho ha c held)).opsLater

theorem State.trySend_opsLater (s : State) (k t now : Nat) (held : Bool) : OpsLater false s (s.trySend k t now held) := by
  unfold State.trySend
  split
  · exact OpsLater.refl _ _
  · split
    · exact OpsLater.refl _ _
    · split
      · exact OpsLater.refl _ _
      · split
        · exact OpsLater.refl _ _
        · split
          · exact State.sendAcc_opsLater _ _ _ _ _
          · exact (Schedules.of_schedule _ _ _ _).opsLater

theorem State.wakeIf_opsLater (s : State) (f : Await → Bool) : OpsLater false s (s.wakeIf f) := by
  unfold State.wakeIf
  dsimp only
  refine (OpsLater.foldl _ _ (fun s p => OpsLater.foldl _ _ (fun s a => ?_) _) _).trans (State.wakeHeld_schedules _ f).opsLater
  split
  · exact OpsLater.refl _ _
  · split
    · exact (Schedules.of_schedule _ _ _ _).opsLater
    all_goals exact State.trySend_opsLater _ _ _ _ _

/-! ### An access done -/

theorem mapFind_filter {α : Type} (P : Nat × α → Bool) {m : FMap α} {k : Nat} {v : α} (h : mapFind m k = some v) (hp : P (k, v) = true) :
    mapFind (m.filter P) k = some v := by
  induction m with
  | nil => cases h
  | cons q m ih =>
    obtain ⟨j, w⟩ := q
    by_cases hj : j = k
    · subst hj
      have hw : w = v := by simpa [mapFind] using h
      subst hw
      simp [hp, mapFind]
    · have hm : mapFind m k = some v := by simpa [mapFind, hj] using h
      rw [List.filter_cons]
      split
      · exact (if_neg hj).trans (ih hm)
      · exact ih hm

/-- An operation that still has an access to complete is not swept away. -/
theorem State.opReturned_ops {s : State} {j : Nat} {p : MemOp} (k : Nat) (op : MemOp) (h : mapFind s.ops j = some p) (hd : p.done = false) :
    mapFind (s.opReturned k op).ops j = some p := by
  unfold State.opReturned State.sweepOps
  dsimp only
  refine mapFind_filter _ ?_ (by rw [hd]; rfl)
  split
  · exact h
  · exact h

/-- Completing an access of an operation keeps what another operation that is not complete has lost. -/
theorem State.accDone_ops {s : State} {j k : Nat} {p : MemOp} (t : Nat) (hj : j ≠ k) (h : mapFind s.ops j = some p) (hd : p.done = false) :
    ∃ q, mapFind (s.accDone k t).ops j = some q ∧ p.Later false q := by
  unfold State.accDone
  split
  · exact ⟨p, h, MemOp.Later.refl _ _⟩
  · next op ho =>
    refine State.wakeIf_opsLater _ _ j p ?_
    have h' : mapFind (mapPut s.ops k (setAcc op t (fun a => { a with done := true }))) j = some p := by rw [mapFind_mapPut, if_neg hj, h]
    split
    · exact State.opReturned_ops k _ h' hd
    · exact h'

theorem State.accDone_rd (s : State) (k t j : Nat) (l : Lane) (x : Reg) : ((s.accDone k t).groupAt j).rd l x = (s.groupAt j).rd l x := by
  obtain ⟨-, h, -⟩ := s.accDone_spec k t
  obtain ⟨os, gt, lt, y, z, f, e⟩ := h j
  rw [e]
  exact Group.rd_of_eq rfl rfl l x

theorem State.accDone_mem (s : State) (k t : Nat) : (s.accDone k t).mem = s.mem := by
  obtain ⟨⟨l1, ops, groups, ag, wgs, engs, waits, nets, e⟩, -⟩ := s.accDone_spec k t
  rw [e]

theorem State.accDone_scratch (s : State) (k t : Nat) : (s.accDone k t).scratch = s.scratch := by
  obtain ⟨⟨l1, ops, groups, ag, wgs, engs, waits, nets, e⟩, -⟩ := s.accDone_spec k t
  rw [e]

theorem State.accDone_owners (s : State) (k t : Nat) : (s.accDone k t).owners = s.owners := by
  obtain ⟨⟨l1, ops, groups, ag, wgs, engs, waits, nets, e⟩, -⟩ := s.accDone_spec k t
  rw [e]

theorem Group.returned_outs {g g' : Group} (h : g'.outs = g.outs) (k : Nat) : (g'.returned k).outs = (g.returned k).outs := by
  unfold Group.returned
  rw [h]
  split
  · exact h
  · rfl

/-- The counter of an operation whose last access is done, from a state in which the operations are further on. -/
theorem State.accDone_outs {s x : State} {k t : Nat} {op : MemOp} (h : mapFind s.ops k = some op) (hx : OpsLater false s x)
    (ho : (x.groupAt op.gid).outs = (s.groupAt op.gid).outs) (hall : op.accs.all (fun b => b.done || decide (b.thread = t)) = true) :
    ((x.accDone k t).groupAt op.gid).outs = ((s.groupAt op.gid).returned k).outs := by
  obtain ⟨q, hq, hl⟩ := hx k op h
  obtain ⟨-, -, h3⟩ := x.accDone_spec k t
  have := h3 q hq (hl.all_done t ▸ hall)
  rw [hl.1] at this
  exact this.trans (Group.returned_outs ho k)

end Sys2Proof.Machine
end

section
/-! SUPPORT. What flushing earlier stores, delivering a reply, filling lines and setting a trigger counter leave. -/

namespace Sys2Proof.Machine

theorem foldl_eq_self {α β : Type} {xs : List α} {f : β → α → β} {s : β} (h : ∀ x ∈ xs, f s x = s) : xs.foldl f s = s := by
  induction xs with
  | nil => rfl
  | cons x xs ih =>
    rw [List.foldl_cons, h x List.mem_cons_self]
    exact ih fun y hy => h y (List.mem_cons_of_mem _ hy)

theorem mem_of_mapFind {α : Type} {m : FMap α} {k : Nat} {v : α} (h : mapFind m k = some v) : (k, v) ∈ m := by
  induction m with
  | nil => cases h
  | cons q m ih =>
    obtain ⟨j, w⟩ := q
    by_cases hj : j = k
    · subst hj
      have : w = v := by simpa [mapFind] using h
      simp [this]
    · exact List.mem_cons_of_mem _ (ih (by simpa [mapFind, hj] using h))

/-! ### Flushing the stores that happen before (R211) -/

/-- All that flushing can do. -/
structure Flushes (s t : State) : Prop where
  rest : t = { s with mem := t.mem, checks := t.checks, faulty := t.faulty, ops := t.ops }
  ops : OpsLater true s t

theorem Flushes.refl (s : State) : Flushes s s := ⟨rfl, OpsLater.refl _ _⟩

theorem Flushes.trans {r s t : State} (h : Flushes r s) (k : Flushes s t) : Flushes r t := ⟨by rw [k.rest, h.rest], h.ops.trans k.ops⟩

theorem Flushes.foldl {α : Type} (xs : List α) (f : State → α → State) (hf : ∀ s x, Flushes s (f s x)) (s : State) : Flushes s (xs.foldl f s) := by
  induction xs generalizing s with
  | nil => exact Flushes.refl _
  | cons x xs ih => exact (hf s x).trans (ih _)

theorem State.flushAcc_none {s : State} {k : Nat} {a : Acc} {pa n : Nat} (h : a.within pa n = []) : s.flushAcc k a pa n = s := by
  unfold State.flushAcc
  rw [h]
  split
  · next e => cases e
  · rfl

/-- The operation of an access whose bytes have been flushed. -/
def MemOp.lose (op : MemOp) (a : Acc) (pa n : Nat) : MemOp := setAcc op a.thread (fun b => { b with gone := b.gone ++ a.within pa n })

theorem MemOp.lose_later (op : MemOp) (a : Acc) (pa n : Nat) : op.Later true (op.lose a pa n) :=
  setAcc_later _ _ _ fun _ => ⟨rfl, rfl, fun _ h => List.mem_append_left _ h, fun _ _ => ⟨rfl, rfl⟩⟩

theorem State.putMem_fold (q : Nat) (bs : Nat → List Byte) (is : List Nat) (s : State) :
    ∃ m c f, is.foldl (fun s i => s.putMem (q + i) (bs i)) s = { s with mem := m, checks := c, faulty := f } := by
  induction is generalizing s with
  | nil => exact ⟨_, _, _, rfl⟩
  | cons i is ih =>
    obtain ⟨m, c, f, e⟩ := ih (s.putMem (q + i) (bs i))
    exact ⟨m, c, f, e⟩

theorem State.flushAcc_some {s : State} {k : Nat} {a : Acc} {pa n : Nat} {op : MemOp} (ho : mapFind s.ops k = some op) (h : a.within pa n ≠ []) :
    ∃ m c f, s.flushAcc k a pa n = { s with mem := m, checks := c, faulty := f, ops := mapPut s.ops k (op.lose a pa n) } := by
  unfold State.flushAcc MemOp.lose
  cases hp : a.place with
  | mem q =>
    cases hw : a.within pa n with
    | nil => exact absurd hw h
    | cons i is =>
      rw [ho]
      obtain ⟨m, c, f, e⟩ := State.putMem_fold q (fun i => [a.data.getD i 0#8]) (i :: is) s
      refine ⟨m, c, f, ?_⟩
      dsimp only
      rw [e]
  | scr _ _ => exact absurd (by unfold Acc.within; rw [hp]) h
  | guard => exact absurd (by unfold Acc.within; rw [hp]) h
  | ctr _ => exact absurd (by unfold Acc.within; rw [hp]) h

theorem State.flushAcc_flushes (s : State) (k : Nat) (a : Acc) (pa n : Nat) : Flushes s (s.flushAcc k a pa n) := by
  by_cases h : a.within pa n = []
  · rw [State.flushAcc_none h]
    exact Flushes.refl _
  · cases ho : mapFind s.ops k with
    | none =>
      have : s.flushAcc k a pa n = s := by
        unfold State.flushAcc
        rw [ho]
        split
        · next e _ => cases e
        · rfl
      rw [this]
      exact Flushes.refl _
    | some op =>
      obtain ⟨m, c, f, e⟩ := State.flushAcc_some ho h
      rw [e]
      exact ⟨rfl, OpsLater.of_put ho rfl (op.lose_later _ _ _)⟩

/-- What flushing does for one operation in flight. -/
def State.flushOp (ids : List Nat) (pa n : Nat) (s : State) (p : Nat × MemOp) : State :=
  if ids.contains p.1 ∧ p.2.kind = .store then p.2.accs.foldl (fun s a => s.flushAcc p.1 a pa n) s else s

theorem State.flush_eq (s : State) (ids : List Nat) (pa n : Nat) : s.flush ids pa n = s.ops.foldl (State.flushOp ids pa n) s := rfl

theorem State.flushOp_flushes (ids : List Nat) (pa n : Nat) (s : State) (p : Nat × MemOp) : Flushes s (State.flushOp ids pa n s p) := by
  unfold State.flushOp
  split
  · exact Flushes.foldl _ _ (fun s a => State.flushAcc_flushes _ _ _ _ _) _
  · exact Flushes.refl _

theorem State.flush_flushes (s : State) (ids : List Nat) (pa n : Nat) : Flushes s (s.flush ids pa n) :=
  Flushes.foldl _ _ (State.flushOp_flushes ids pa n) _

/-- With no byte there in flight, flushing does nothing. -/
theorem State.flush_of_first {s : State} {ids : List Nat} {pa n : Nat}
    (h : ∀ p ∈ s.ops, p.1 ∈ ids → p.2.kind = .store → ∀ b ∈ p.2.accs, b.within pa n = []) : s.flush ids pa n = s := by
  refine foldl_eq_self fun p hp => ?_
  split
  · next hc => exact foldl_eq_self fun b hb => State.flushAcc_none (h p hp (by simpa using hc.1) hc.2 b hb)
  · rfl

/-- A byte in flight that is flushed is one that its access has lost. -/
theorem State.flush_gone {s : State} {ids : List Nat} {pa n j : Nat} {p : MemOp} {b : Acc} {i : Nat} (hj : mapFind s.ops j = some p) (hi : j ∈ ids)
    (hk : p.kind = .store) (hb : b ∈ p.accs) (hw : i ∈ b.within pa n) :
    ∃ q c, mapFind (s.flush ids pa n).ops j = some q ∧ p.Later true q ∧ c ∈ q.accs ∧ c.thread = b.thread ∧ i ∈ c.gone := by
  obtain ⟨l1, l2, hl⟩ := List.append_of_mem (mem_of_mapFind hj)
  obtain ⟨a1, a2, ha⟩ := List.append_of_mem hb
  have step : s.flush ids pa n = l2.foldl (State.flushOp ids pa n) (a2.foldl (fun s a => s.flushAcc j a pa n)
      ((a1.foldl (fun s a => s.flushAcc j a pa n) (l1.foldl (State.flushOp ids pa n) s)).flushAcc j b pa n)) := by
    rw [State.flush_eq, hl, List.foldl_append, List.foldl_cons]
    congr 1
    unfold State.flushOp
    dsimp only
    rw [if_pos ⟨by simpa using hi, hk⟩, ha, List.foldl_append, List.foldl_cons]
  have before : Flushes s (a1.foldl (fun s a => s.flushAcc j a pa n) (l1.foldl (State.flushOp ids pa n) s)) :=
    (Flushes.foldl _ _ (State.flushOp_flushes ids pa n) _).trans (Flushes.foldl _ _ (fun s a => State.flushAcc_flushes s j a pa n) _)
  generalize a1.foldl (fun s a => s.flushAcc j a pa n) (l1.foldl (State.flushOp ids pa n) s) = u at step before
  have after : Flushes (u.flushAcc j b pa n) (s.flush ids pa n) := by
    rw [step]
    exact (Flushes.foldl _ _ (fun s a => State.flushAcc_flushes s j a pa n) _).trans (Flushes.foldl _ _ (State.flushOp_flushes ids pa n) _)
  obtain ⟨op, ho, hop⟩ := before.ops j p hj
  obtain ⟨m, c, f, e⟩ := State.flushAcc_some (pa := pa) (n := n) ho (List.ne_nil_of_mem hw)
  obtain ⟨q, hq, hlq⟩ := after.ops j (op.lose b pa n) (by rw [e]; exact mapFind_mapPut_same _ _ _)
  obtain ⟨b', hb', lb⟩ := hop.acc_mem hb
  have hlost : { b' with gone := b'.gone ++ b.within pa n } ∈ (op.lose b pa n).accs :=
    List.mem_map.2 ⟨b', hb', if_pos lb.thread⟩
  obtain ⟨d, hd, ld⟩ := hlq.acc_mem hlost
  exact ⟨q, d, hq, (hop.trans (op.lose_later _ _ _)).trans hlq, hd, ld.thread.trans lb.thread, ld.gone i (List.mem_append_right _ hw)⟩

/-! ### Filling lines -/

/-- Lines have been filled, and nothing else differs. -/
def Fills (s t : State) : Prop := ∃ l1 l2 os, t = { s with l1 := l1, l2 := l2, opens := os }

theorem Fills.refl (s : State) : Fills s s := ⟨_, _, _, rfl⟩

theorem Fills.trans {r s t : State} (h : Fills r s) (k : Fills s t) : Fills r t := by
  obtain ⟨l1, l2, os, rfl⟩ := h
  obtain ⟨l1', l2', os', rfl⟩ := k
  exact ⟨l1', l2', os', rfl⟩

theorem State.fillL2_fills (s : State) (o pa : Nat) (c : BitVec 2) : Fills s (s.fillL2 o pa c) := ⟨_, _, _, rfl⟩

theorem State.fillL1_fills (s : State) (o c pa : Nat) (x : BitVec 2) : Fills s (s.fillL1 o c pa x) := ⟨_, _, _, rfl⟩

theorem State.fillPath_fills (s : State) (o : Nat) (xs : List Nat) : Fills s (s.fillPath o xs) := by
  unfold State.fillPath
  induction xs generalizing s with
  | nil => exact Fills.refl _
  | cons x xs ih => exact (s.fillL2_fills o x 0#2).trans (ih _)

theorem State.fillPlace_fills (s : State) (o : Nat) (p : Place) (c : BitVec 2) : Fills s (s.fillPlace o p c) := by
  cases p with
  | mem pa => exact s.fillL2_fills o pa c
  | scr _ _ => exact Fills.refl _
  | guard => exact Fills.refl _
  | ctr _ => exact Fills.refl _

theorem State.fillFor_fills (s : State) (op : MemOp) (a : Acc) : Fills s (s.fillFor op a) := by
  unfold State.fillFor
  refine (s.fillPath_fills op.owner a.path).trans ?_
  generalize s.fillPath op.owner a.path = u
  have h : Fills u (if (a.l1 || a.buffered) = true then u else u.fillPlace op.owner a.place a.cache) := by
    split
    · exact Fills.refl _
    · exact State.fillPlace_fills _ _ _ _
  refine h.trans ?_
  dsimp only
  generalize (if (a.l1 || a.buffered) = true then u else u.fillPlace op.owner a.place a.cache) = w
  cases a.place with
  | mem pa =>
    dsimp only
    split
    · exact State.fillL1_fills _ _ _ _ _
    · exact Fills.refl _
  | scr _ _ => exact Fills.refl _
  | guard => exact Fills.refl _
  | ctr _ => exact Fills.refl _

/-! ### Delivering bytes to registers -/

theorem ofNat6_ne {i m : Nat} (h : i < m) (hm : m < 64) (d : Reg) : d + BitVec.ofNat 6 i ≠ d + BitVec.ofNat 6 m := by
  intro e
  have := congrArg BitVec.toNat e
  simp only [BitVec.toNat_add, BitVec.toNat_ofNat] at this
  omega

/-- The first m words of bytes in consecutive registers. -/
def Group.putWords (g : Group) (l : Lane) (d : Reg) (bs : List Byte) (m : Nat) : Group :=
  (List.range m).foldl (fun g i => g.wr l (d + BitVec.ofNat 6 i) (BitVec.ofNat 32 (ofBytes ((bs.drop (4 * i)).take 4)))) g

theorem Group.putWords_succ (g : Group) (l : Lane) (d : Reg) (bs : List Byte) (m : Nat) : g.putWords l d bs (m + 1) =
    (g.putWords l d bs m).wr l (d + BitVec.ofNat 6 m) (BitVec.ofNat 32 (ofBytes ((bs.drop (4 * m)).take 4))) := by
  unfold Group.putWords
  rw [List.range_succ, List.foldl_append]
  rfl

theorem Group.deliver_eq (g : Group) (u : Bool) (t : Nat) (d : Reg) (bs : List Byte) :
    g.deliver u t d bs = g.putWords (if u then none else some t) d bs ((bs.length + 3) / 4) := by
  have h (f : Nat → Reg) (n : Nat) : ((List.range n).map f).zipIdx = (List.range n).map (fun i => (f i, i)) := by
    refine List.ext_getElem (by simp) fun i _ _ => by simp
  unfold Group.deliver Group.putWords destRegs
  dsimp only
  rw [h, List.foldl_map]

theorem Group.putWords_rd_same (g : Group) {u : Bool} {l : Lane} (hl : laneFits u l) (d : Reg) (bs : List Byte) {m : Nat} (hm : m ≤ 64) {i : Nat} (hi : i < m) :
    (g.putWords l d bs m).rd l (d + BitVec.ofNat 6 i) = BitVec.ofNat 32 (ofBytes ((bs.drop (4 * i)).take 4)) := by
  induction m with
  | zero => omega
  | succ m ih =>
    rw [Group.putWords_succ, Group.wr_rd _ _ _ _ hl hl]
    by_cases e : i = m
    · rw [e, if_pos ⟨rfl, rfl⟩]
    · rw [if_neg fun h => ofNat6_ne (by omega) (by omega) d h.1]
      exact ih (by omega) (by omega)

theorem Group.putWords_rd_other (g : Group) {u : Bool} {l l' : Lane} (hl : laneFits u l) (hl' : laneFits u l') (d : Reg) (bs : List Byte) (m : Nat) {x : Reg}
    (h : l' = l → ∀ i < m, x ≠ d + BitVec.ofNat 6 i) : (g.putWords l d bs m).rd l' x = g.rd l' x := by
  induction m with
  | zero => rfl
  | succ m ih =>
    rw [Group.putWords_succ, Group.wr_rd _ _ _ _ hl hl', if_neg fun e => h e.2 m (by omega) e.1]
    exact ih fun e i hi => h e i (by omega)

theorem Group.putWords_only (g : Group) (l : Lane) (d : Reg) (bs : List Byte) (m : Nat) : ∃ v w, g.putWords l d bs m = { g with v := v, g := w } := by
  induction m with
  | zero => exact ⟨_, _, rfl⟩
  | succ m ih =>
    obtain ⟨v, w, e⟩ := ih
    rw [Group.putWords_succ, e, Group.wr_eta]
    exact ⟨_, _, rfl⟩

/-! ### Trigger counters -/

/-- All that firing network operations can change. -/
structure Fires (s t : State) : Prop where
  rest : t = { s with mem := t.mem, faulty := t.faulty, checks := t.checks, tlb := t.tlb, l2 := t.l2, opens := t.opens, nets := t.nets, agenda := t.agenda,
                      fabric := t.fabric, openTick := t.openTick, wgs := t.wgs, heldMsgs := t.heldMsgs }

theorem Fires.refl (s : State) : Fires s s := ⟨rfl⟩

theorem Fires.trans {r s t : State} (h : Fires r s) (k : Fires s t) : Fires r t := ⟨by rw [k.rest, h.rest]⟩

theorem Fires.foldl {α : Type} (xs : List α) (f : State → α → State) (hf : ∀ s x, Fires s (f s x)) (s : State) : Fires s (xs.foldl f s) := by
  induction xs generalizing s with
  | nil => exact Fires.refl _
  | cons x xs ih => exact (hf s x).trans (ih _)

theorem Walks.fires {s t : State} (h : Walks s t) : Fires s t := ⟨by rw [h.rest]⟩

theorem Schedules.fires {s t : State} (h : Schedules s t) : Fires s t := by
  obtain ⟨xs, rfl⟩ := h
  exact ⟨rfl⟩

theorem State.netRead_fires (s : State) (own : Option (Nat × NetOp)) (o a n : Nat) : Fires s (s.netRead own o a n).2 := by
  unfold State.netRead
  dsimp only
  refine List.foldlRecOn (motive := fun r : (List Byte × Option NetStop) × State => Fires s r.2) _ _ (Fires.refl _) fun r hr i _ => ?_
  split
  · exact hr
  · split
    · exact hr
    · exact hr.trans ((State.setLeaf_walks _ _ _).trans (State.fillL2_walks _ _ _ _).1).fires

theorem State.netDest_fires (s : State) (o a n : Nat) : Fires s (s.netDest o a n).2 := by
  unfold State.netDest
  refine List.foldlRecOn (motive := fun r : (List Nat × Option NetStop) × State => Fires s r.2) _ _ (Fires.refl _) fun r hr i _ => ?_
  split
  · exact hr
  · split
    · exact hr
    · exact hr.trans (State.setLeaf_walks _ _ _).fires

theorem State.portSend_fires (s : State) (m : NetMsg) (peer : Nat) : Fires s (s.portSend m peer) :=
  Fires.foldl _ _ (fun _ _ => ⟨rfl⟩) _

theorem Fires.of_nets (s : State) (xs : FMap NetOp) : Fires s { s with nets := xs } := ⟨rfl⟩

/-- The chunks of a network operation go out, here or at the ports. -/
def State.sendChunks (s : State) (c : Clk) (skip here : Bool) (due : Nat → Nat) (m : Nat → NetMsg) (peer n : Nat) : State :=
  if skip then s else (List.range n).foldl (fun t j => if here then t.schedule c (due j) (.messageArrival (m j)) else t.portSend (m j) peer) s

theorem State.sendChunks_fires (s : State) (c : Clk) (skip here : Bool) (due : Nat → Nat) (m : Nat → NetMsg) (peer n : Nat) :
    Fires s (s.sendChunks c skip here due m peer n) := by
  unfold State.sendChunks
  split
  · exact Fires.refl _
  · refine Fires.foldl _ _ (fun t j => ?_) _
    split
    · exact (Schedules.of_schedule _ _ _ _).fires
    · exact State.portSend_fires _ _ _

/-- What sending counts, and its fault. -/
def State.countChunks (s : State) (o n k : Nat) (bad : Bool) : State :=
  let s := State.bumpOpen { s with openTick := s.openTick + n } o streamNet n
  if bad then s.soon (.networkOperationFault k) else s

theorem State.countChunks_fires (s : State) (o n k : Nat) (bad : Bool) : Fires s (s.countChunks o n k bad) := by
  cases bad <;> exact ⟨rfl⟩

theorem State.netSend_eq (s : State) (k : Nat) (e : NetOp) (data : List Byte) (stop : Option NetStop) : ∃ ns c skip here due m peer n bad,
    s.netSend k e data stop = (State.sendChunks { s with nets := ns } c skip here due m peer n).countChunks e.owner n k bad :=
  ⟨_, _, _, _, _, _, _, _, _, rfl⟩

theorem State.netSend_fires (s : State) (k : Nat) (e : NetOp) (data : List Byte) (stop : Option NetStop) : Fires s (s.netSend k e data stop) := by
  obtain ⟨ns, c, skip, here, due, m, peer, n, bad, h⟩ := s.netSend_eq k e data stop
  rw [h]
  exact (Fires.of_nets s ns).trans ((State.sendChunks_fires _ _ _ _ _ _ _ _).trans (State.countChunks_fires _ _ _ _ _))

theorem State.netReserve_fires (s : State) (k : Nat) (e : NetOp) (n : Nat) : Fires s (s.netReserve k e n) := by
  unfold State.netReserve
  split
  · exact Fires.refl _
  · exact ⟨rfl⟩

theorem State.fireNet_fires (s : State) (k : Nat) : Fires s (s.fireNet k) := by
  unfold State.fireNet
  split
  · exact Fires.refl _
  · next e _ =>
    dsimp only
    generalize (if (e.post && decide (e.stage = .armed)) = true then s.netEntries e else 0) = n
    split
    · exact State.netSend_fires _ _ _ _ _
    · refine (s.netReserve_fires k e n).trans ?_
      generalize s.netReserve k e n = u
      split
      · exact Fires.of_nets _ _
      · split
        · exact (State.netRead_fires _ _ _ _ _).trans (State.netSend_fires _ _ _ _ _)
        · have send (w : State) (hw : Fires u w) (e' : NetOp) (data : List Byte) (stop : Option NetStop) : Fires u (w.netSend k e' data stop) :=
            hw.trans (State.netSend_fires _ _ _ _ _)
          split
          · split
            · exact send _ (State.netDest_fires _ _ _ _) _ _ _
            · exact send _ (State.netDest_fires _ _ _ _) _ _ _
          · rw [if_neg (by simp)]
            exact send u (Fires.refl _) _ _ _

/-- What setting a counter notes for later. -/
def State.counterSet (s : State) (o n : Nat) (v : Dword) : State :=
  let ready := s.heldMsgs.filter (fun m => decide (m.owner = o) && decide (m.rctr = some n) && decide (m.order ≤ v.toNat))
  let s := { s with heldMsgs := s.heldMsgs.filter (fun m => !ready.contains m) }
  let s := (ready.inOrder (fun a b => decide (a.order ≤ b.order))).foldl (fun s m => s.soon (.messageArrival m)) s
  s.waits.foldl (fun s p =>
    match p.2.kind with
    | .nctrWait k _ => if k = n ∧ p.2.owner = o ∧ p.2.due = none then
        s.schedule (.owner o p.2.island) (nextPoll p.2.w (s.cycOf o p.2.island)) (.nctrWaitMet p.1) else s
    | _ => s) s

theorem State.counterSet_schedules (s : State) (o n : Nat) (v : Dword) : ∃ hs, Schedules { s with heldMsgs := hs } (s.counterSet o n v) := by
  refine ⟨_, (Schedules.foldl _ _ (fun s m => Schedules.of_schedule s .wall s.now (.messageArrival m)) _).trans (Schedules.foldl _ _ (fun s p => ?_) _)⟩
  split
  · split
    · exact Schedules.of_schedule _ _ _ _
    · exact Schedules.refl _
  · exact Schedules.refl _

/-- The state in which a counter has its new value and nothing has fired. -/
def State.withCounter (s : State) (o n : Nat) (v : Dword) : State := s.modOwner o (fun w => { w with nctr := mapSet 0#64 w.nctr n v })

theorem State.setCounter_eq (s : State) (o n : Nat) (v : Dword) : s.setCounter o n v =
    (((s.withCounter o n v).firing o n v).foldl State.fireNet (s.withCounter o n v)).counterSet o n v := rfl

theorem State.setCounter_fires (s : State) (o n : Nat) (v : Dword) : Fires (s.withCounter o n v) (s.setCounter o n v) := by
  rw [State.setCounter_eq]
  have fired := Fires.foldl ((s.withCounter o n v).firing o n v) State.fireNet (fun s k => s.fireNet_fires k) (s.withCounter o n v)
  generalize ((s.withCounter o n v).firing o n v).foldl State.fireNet (s.withCounter o n v) = u at fired
  obtain ⟨hs, h⟩ := State.counterSet_schedules u o n v
  exact fired.trans (Fires.trans (s := { u with heldMsgs := hs }) ⟨rfl⟩ h.fires)

theorem State.setCounter_counter (s : State) (o n : Nat) (v : Dword) : (s.setCounter o n v).counter o n = v := by
  have h : (s.setCounter o n v).owners = (s.withCounter o n v).owners := by rw [(s.setCounter_fires o n v).rest]
  have e : (s.withCounter o n v).ownerAt o = { s.ownerAt o with nctr := mapSet 0#64 (s.ownerAt o).nctr n v } := by
    unfold State.withCounter State.modOwner
    rw [State.setOwner_ownerAt, if_pos rfl]
  unfold State.counter
  unfold State.ownerAt at e ⊢
  rw [h, e]
  exact mapGet_mapSet_same _ _ _ _

theorem State.setCounter_scratch (s : State) (o n : Nat) (v : Dword) : (s.setCounter o n v).scratch = s.scratch := by
  rw [(s.setCounter_fires o n v).rest]
  rfl

/-- With no entry armed, a counter's new value leaves memory alone. -/
theorem State.setCounter_mem {s : State} (o n : Nat) (v : Dword) (h : ∀ p ∈ s.nets, p.2.stage ≠ .armed) : (s.setCounter o n v).mem = s.mem := by
  have hf : (s.withCounter o n v).firing o n v = [] := by
    unfold State.firing
    rw [List.filter_eq_nil_iff.2]
    · rfl
    · intro p hp hc
      simp only [Bool.and_eq_true, decide_eq_true_eq] at hc
      exact h p hp hc.1.1.1.2
  rw [State.setCounter_eq, hf]
  obtain ⟨hs, xs, e⟩ := State.counterSet_schedules (s.withCounter o n v) o n v
  rw [List.foldl_nil, e]
  rfl

end Sys2Proof.Machine
end

section
/-! PROOF. O38: the events that complete an access take effect at its place and nowhere else. -/

namespace Sys2Proof.Machine

/-! ### What an access does when it is visible -/

section
variable {s : State} {k t : Nat} {op : MemOp} {a : Acc}

theorem MemOp.acc_thread (ha : op.acc t = some a) : a.thread = t := by
  simpa using List.find?_some ha

theorem State.reply_eq (ho : mapFind s.ops k = some op) (ha : op.acc t = some a) (hd : a.done = false) (hs : a.sent.isSome = true) :
    s.reply k t = (State.fillFor (if a.settled then s else s.takeEffect k op a) op a).accDone k t := by
  unfold State.reply
  rw [ho]
  dsimp only
  rw [ha]
  exact if_neg (by cases e : a.sent <;> simp [hd, e] at hs ⊢)

/-- The group's registers after a reply of an operation of another group, or of none. -/
def State.answered (s : State) (op : MemOp) (t : Nat) (bs : List Byte) : State :=
  s.setGroupAt op.gid ((s.groupAt op.gid).deliver op.uni t op.dst bs)

theorem State.takeEffect_load (hk : op.kind = .load) (hb : s.faultAt a.place a.size = none) (he : (s.groupAt op.gid).isEnded = false) :
    s.takeEffect k op a = s.answered op a.thread a.data := by
  unfold State.takeEffect
  dsimp only
  rw [hk, hb]
  exact if_neg (by rw [he]; decide)

theorem State.takeEffect_store (hk : op.kind = .store) (hb : a.buffered = false) :
    s.takeEffect k op a = (s.flushFor op a).writePlace op.owner op.core a.place ((s.flushFor op a).leftOf a) := by
  unfold State.takeEffect
  dsimp only
  rw [hk]
  exact if_neg (by rw [hb]; decide)

theorem State.takeEffect_buffered (hk : op.kind = .store) (hb : a.buffered = true) : s.takeEffect k op a = s := by
  unfold State.takeEffect
  dsimp only
  rw [hk]
  exact if_pos hb

theorem State.takeEffect_red {o : AtomOp} (hk : op.kind = .red o) (hb : a.buffered = false) :
    s.takeEffect k op a = ((s.flushFor op a).atomPlace op.owner op.core a.place o a.data a.data2).2 := by
  unfold State.takeEffect
  dsimp only
  rw [hk]
  exact if_neg (by rw [hb]; decide)

theorem State.takeEffect_atom {o : AtomOp} {bs : List Byte} {w : State} (hk : op.kind = .atom o)
    (hw : (s.flushFor op a).atomPlace op.owner op.core a.place o a.data a.data2 = (bs, w)) (hb : s.faultAt a.place a.size = none)
    (he : ((w.learn k op a [] true).groupAt op.gid).isEnded = false) : s.takeEffect k op a = (w.learn k op a [] true).answered op a.thread bs := by
  unfold State.takeEffect
  dsimp only
  rw [hk]
  dsimp only
  rw [hw, hb]
  exact if_neg (by rw [he]; decide)

theorem State.answered_group (s : State) (op : MemOp) (t : Nat) (bs : List Byte) :
    (s.answered op t bs).groupAt op.gid = (s.groupAt op.gid).deliver op.uni t op.dst bs := by
  unfold State.answered
  rw [State.setGroupAt_groupAt, if_pos rfl]

theorem State.answered_other (s : State) (op : MemOp) (t : Nat) (bs : List Byte) {j : Nat} (h : j ≠ op.gid) :
    (s.answered op t bs).groupAt j = s.groupAt j := by
  unfold State.answered
  rw [State.setGroupAt_groupAt, if_neg h]

theorem Group.deliver_outs (g : Group) (u : Bool) (t : Nat) (d : Reg) (bs : List Byte) : (g.deliver u t d bs).outs = g.outs := by
  rw [Group.deliver_eq]
  obtain ⟨v, w, e⟩ := g.putWords_only (if u then none else some t) d bs ((bs.length + 3) / 4)
  rw [e]

/-- The bytes of a reply stand in the registers of its lane, and no other register differs. -/
theorem Group.deliver_delivers (g : Group) (u : Bool) {t : Nat} (ht : t < 32) (d : Reg) {bs : List Byte} (hb : bs.length ≤ 16) :
    (∀ i, 4 * i < bs.length → (g.deliver u t d bs).rd (if u then none else some t) (d + BitVec.ofNat 6 i) =
      BitVec.ofNat 32 (ofBytes ((bs.drop (4 * i)).take 4))) ∧
    (∀ x l, laneFits u l → (l = (if u then none else some t) → ∀ i, 4 * i < bs.length → x ≠ d + BitVec.ofNat 6 i) →
      (g.deliver u t d bs).rd l x = g.rd l x) := by
  have fits : laneFits u (if u then none else some t) := by
    cases u with
    | true => exact rfl
    | false => exact ⟨rfl, ht⟩
  rw [Group.deliver_eq]
  exact ⟨fun i hi => g.putWords_rd_same fits d bs (by omega) (by omega),
    fun x l hl h => g.putWords_rd_other fits hl d bs _ fun e i hi => h e i (by omega)⟩

/-! ### Memory after a write -/

theorem State.writeMem_byte (s : State) (o c pa : Nat) (bs : List Byte) (x : Nat) :
    ((s.putMem pa bs).writeL1 o c pa bs).byte x = if pa ≤ x ∧ x < pa + bs.length then bs.getD (x - pa) 0#8 else s.byte x :=
  s.putMem_byte pa bs x

theorem State.leftOf_mem {pa : Nat} (hp : a.place = .mem pa) :
    s.leftOf a = a.data.zipIdx.map (fun x => if a.gone.contains x.2 then s.byte (pa + x.2) else x.1) := by
  unfold State.leftOf
  rw [hp]

/-- What a store writes where it lost bytes is what stands there. -/
theorem State.writeLeft_byte {pa : Nat} (hp : a.place = .mem pa) (o c x : Nat) :
    ((s.putMem pa (s.leftOf a)).writeL1 o c pa (s.leftOf a)).byte x =
      if pa ≤ x ∧ x < pa + a.data.length ∧ x - pa ∉ a.gone then a.data.getD (x - pa) 0#8 else s.byte x := by
  rw [State.writeMem_byte, State.leftOf_mem hp, List.length_map, List.length_zipIdx]
  by_cases h : pa ≤ x ∧ x < pa + a.data.length
  · rw [if_pos h]
    have hi : x - pa < a.data.length := by omega
    have hx : pa + (x - pa) = x := by omega
    by_cases hg : x - pa ∈ a.gone
    · rw [if_neg fun e => e.2.2 hg]
      simp [hi, hg, hx]
    · rw [if_pos ⟨h.1, h.2, hg⟩]
      simp [hi, hg]
  · rw [if_neg h, if_neg fun e => h ⟨e.1, e.2.1⟩]

/-! ### The access ends -/

/-- What the completion of an access leaves of the state its effect made, and the counter where it was the last. -/
structure Ended (s d r : State) (k t : Nat) (op : MemOp) : Prop where
  mem : r.mem = d.mem
  scratch : r.scratch = d.scratch
  owners : r.owners = d.owners
  rd : ∀ j l x, (r.groupAt j).rd l x = (d.groupAt j).rd l x
  finished : op.accs.all (fun b => b.done || decide (b.thread = t)) = true → (r.groupAt op.gid).outs = ((s.groupAt op.gid).returned k).outs

theorem Ended.byte {d r : State} (h : Ended s d r k t op) (x : Nat) : r.byte x = d.byte x := by
  unfold State.byte
  rw [h.mem]

theorem State.ended (d : State) (a : Acc) (ho : mapFind s.ops k = some op) (hd : OpsLater false s d)
    (hg : (d.groupAt op.gid).outs = (s.groupAt op.gid).outs) : Ended s d ((d.fillFor op a).accDone k t) k t op := by
  obtain ⟨l1, l2, os, e⟩ := d.fillFor_fills op a
  have hops : (d.fillFor op a).ops = d.ops := by rw [e]
  have hgrp (j : Nat) : (d.fillFor op a).groupAt j = d.groupAt j := by
    unfold State.groupAt
    rw [e]
  refine ⟨?_, ?_, ?_, fun j l x => ?_, fun hall => State.accDone_outs ho (hd.trans (OpsLater.of_eq hops)) ?_ hall⟩
  · rw [State.accDone_mem, e]
  · rw [State.accDone_scratch, e]
  · rw [State.accDone_owners, e]
  · rw [State.accDone_rd, hgrp]
  · rw [hgrp, hg]

/-- The stores that happen before an access have taken effect at its bytes when it ends. -/
theorem State.flush_placed {ids : List Nat} {pa n : Nat} {d : State} (op : MemOp) (a : Acc) (hd : OpsLater false (s.flush ids pa n) d) {j i : Nat} {p : MemOp}
    {b : Acc} (hj : mapFind s.ops j = some p) (hi : j ∈ ids) (hjk : j ≠ k) (hk : p.kind = .store) (hb : b ∈ p.accs) (hw : i ∈ b.within pa n) :
    ∃ q c, mapFind ((d.fillFor op a).accDone k t).ops j = some q ∧ c ∈ q.accs ∧ c.thread = b.thread ∧ i ∈ c.gone := by
  have hnot : p.done = false := by
    rw [Bool.eq_false_iff]
    intro hp
    have hbd := List.all_eq_true.1 hp b hb
    unfold Acc.within at hw
    split at hw
    · next q hq =>
      have := (List.mem_filter.1 hw).2
      simp [Acc.holdsByte, hq, hbd] at this
    all_goals cases hw
  obtain ⟨q, c, hq, hpq, hc, hct, hci⟩ := State.flush_gone hj hi hk hb hw
  obtain ⟨q1, hq1, l1⟩ := hd j q hq
  obtain ⟨f1, f2, os, e⟩ := d.fillFor_fills op a
  have hops : (d.fillFor op a).ops = d.ops := by rw [e]
  obtain ⟨q2, hq2, l2⟩ := State.accDone_ops t hjk (hops ▸ hq1) (l1.done.trans (hpq.done.trans hnot))
  obtain ⟨c2, hc2, lc⟩ := (l1.trans l2).acc_mem hc
  exact ⟨q2, c2, hq2, hc2, lc.thread.trans hct, lc.gone i hci⟩

theorem State.flushFor_mem {pa : Nat} (hp : a.place = .mem pa) : s.flushFor op a = s.flush op.after pa a.size := by
  unfold State.flushFor
  rw [hp]

theorem Flushes.groupAt {s f : State} (h : Flushes s f) (j : Nat) : f.groupAt j = s.groupAt j := by
  unfold State.groupAt
  rw [h.rest]

theorem Wakes.isEnded {s t : State} (h : Wakes s t) (j : Nat) : (t.groupAt j).isEnded = (s.groupAt j).isEnded := by
  obtain ⟨x, y, f, e⟩ := h.grp j
  rw [e]
  rfl

theorem Wakes.rd {s t : State} (h : Wakes s t) (j : Nat) (l : Lane) (x : Reg) : (t.groupAt j).rd l x = (s.groupAt j).rd l x := by
  obtain ⟨y, z, f, e⟩ := h.grp j
  rw [e]
  exact Group.rd_of_eq rfl rfl l x

theorem Wakes.outs {s t : State} (h : Wakes s t) (j : Nat) : (t.groupAt j).outs = (s.groupAt j).outs := by
  obtain ⟨y, z, f, e⟩ := h.grp j
  rw [e]

/-! ### Atomics and reductions of memory -/

/-- An atomic of memory: what stood at its bytes, and the state before its reply. -/
theorem State.atomPlace_mem {pa : Nat} (f : State) (op : MemOp) (o : AtomOp) (hp : a.place = .mem pa) :
    f.atomPlace op.owner op.core a.place o a.data a.data2 = (f.bytes pa o.size,
      (f.putMem pa (leBytes o.size (o.new (ofBytes (f.bytes pa o.size)) (ofBytes a.data) (ofBytes a.data2)))).writeL1 op.owner op.core pa
        (leBytes o.size (o.new (ofBytes (f.bytes pa o.size)) (ofBytes a.data) (ofBytes a.data2)))) := by
  rw [hp]
  rfl

/-- The state in which an atomic or a reduction of memory has been performed. -/
def State.performed (f : State) (op : MemOp) (o : AtomOp) (a : Acc) (pa : Nat) : State :=
  (f.putMem pa (leBytes o.size (o.new (ofBytes (f.bytes pa o.size)) (ofBytes a.data) (ofBytes a.data2)))).writeL1 op.owner op.core pa
    (leBytes o.size (o.new (ofBytes (f.bytes pa o.size)) (ofBytes a.data) (ofBytes a.data2)))

theorem State.performed_byte (f : State) (op : MemOp) (o : AtomOp) (a : Acc) (pa x : Nat) : (f.performed op o a pa).byte x =
    if pa ≤ x ∧ x < pa + (leBytes o.size (o.new (ofBytes (f.bytes pa o.size)) (ofBytes a.data) (ofBytes a.data2))).length then
      (leBytes o.size (o.new (ofBytes (f.bytes pa o.size)) (ofBytes a.data) (ofBytes a.data2))).getD (x - pa) 0#8 else f.byte x :=
  f.writeMem_byte _ _ _ _ _

theorem State.performed_ops (f : State) (op : MemOp) (o : AtomOp) (a : Acc) (pa : Nat) : (f.performed op o a pa).ops = f.ops := rfl

theorem State.performed_scratch (f : State) (op : MemOp) (o : AtomOp) (a : Acc) (pa : Nat) : (f.performed op o a pa).scratch = f.scratch := rfl

theorem AtomOp.size_le (o : AtomOp) : o.size ≤ 16 := by
  cases o <;> decide

theorem State.bytes_length (s : State) (pa n : Nat) : (s.bytes pa n).length = n := by
  simp [State.bytes]

end

/-! ### The replies -/

section
variable {s : State} {k t : Nat} {op : MemOp} {a : Acc} (ho : mapFind s.ops k = some op) (ha : op.acc t = some a) (hd : a.done = false)
  (hs : a.sent.isSome = true)
include ho ha hd hs

theorem exec_reply_settled (h : a.settled = true) : ∃ r, exec (.accessReply k t) s = .next r ∧ exec (.storeReturn k t) s = .next r ∧ Ended s s r k t op := by
  have e := State.reply_eq ho ha hd hs
  rw [if_pos h] at e
  exact ⟨_, congrArg Host.Outcome.next e, congrArg Host.Outcome.next e, State.ended s a ho (OpsLater.refl _ _) rfl⟩

theorem exec_accessReply (h : a.settled = false) : exec (.accessReply k t) s = .next (((s.takeEffect k op a).fillFor op a).accDone k t) := by
  have e := State.reply_eq ho ha hd hs
  rw [h] at e
  exact congrArg Host.Outcome.next e

theorem exec_storeReturn (h : a.settled = false) : exec (.storeReturn k t) s = .next (((s.takeEffect k op a).fillFor op a).accDone k t) :=
  exec_accessReply ho ha hd hs h

/-- R111: the reply of a load. -/
theorem exec_reply_load (h : a.settled = false) (hk : op.kind = .load) (hb : s.faultAt a.place a.size = none) (he : (s.groupAt op.gid).isEnded = false) :
    ∃ r, exec (.accessReply k t) s = .next r ∧ Ended s (s.answered op t a.data) r k t op := by
  refine ⟨_, exec_accessReply ho ha hd hs h, ?_⟩
  rw [State.takeEffect_load hk hb he, MemOp.acc_thread ha]
  refine State.ended _ a ho (OpsLater.of_eq rfl) ?_
  rw [State.answered_group, Group.deliver_outs]

/-- R234: the reply of an atomic of memory. -/
theorem exec_reply_atom (h : a.settled = false) {o : AtomOp} {pa : Nat} (hk : op.kind = .atom o) (hp : a.place = .mem pa) (hb : s.faultAt a.place a.size = none)
    (he : (s.groupAt op.gid).isEnded = false) : ∃ r w, Wakes ((s.flush op.after pa a.size).performed op o a pa) w ∧
      exec (.accessReply k t) s = .next r ∧ Ended s (w.answered op t ((s.flush op.after pa a.size).bytes pa o.size)) r k t op ∧
      ∀ j p b i, mapFind s.ops j = some p → j ∈ op.after → j ≠ k → p.kind = .store → b ∈ p.accs → i ∈ b.within pa a.size →
        ∃ q c, mapFind r.ops j = some q ∧ c ∈ q.accs ∧ c.thread = b.thread ∧ i ∈ c.gone := by
  have hf := s.flush_flushes op.after pa a.size
  have hwake := ((s.flush op.after pa a.size).performed op o a pa).learn_wakes k op a [] true
  have hlater : OpsLater false (s.flush op.after pa a.size) (((s.flush op.after pa a.size).performed op o a pa).learn k op a [] true) :=
    (OpsLater.of_eq (State.performed_ops _ _ _ _ _)).trans (State.learn_opsLater _ _ _ _ _ _)
  have eff : s.takeEffect k op a = (((s.flush op.after pa a.size).performed op o a pa).learn k op a [] true).answered op a.thread
      ((s.flush op.after pa a.size).bytes pa o.size) := by
    refine State.takeEffect_atom hk ?_ hb ((hwake.isEnded op.gid).trans ((congrArg Group.isEnded (hf.groupAt op.gid)).trans he))
    rw [State.flushFor_mem hp]
    exact State.atomPlace_mem _ op o hp
  refine ⟨_, _, hwake, exec_accessReply ho ha hd hs h, ?_, ?_⟩
  · rw [eff, MemOp.acc_thread ha]
    refine State.ended _ a ho ((hf.ops.weaken.trans hlater).trans (OpsLater.of_eq rfl)) ?_
    rw [State.answered_group, Group.deliver_outs, hwake.outs]
    exact congrArg Group.outs (hf.groupAt op.gid)
  · rw [eff]
    have hd' : OpsLater false (s.flush op.after pa a.size) ((((s.flush op.after pa a.size).performed op o a pa).learn k op a [] true).answered op a.thread
        ((s.flush op.after pa a.size).bytes pa o.size)) := hlater.trans (OpsLater.of_eq rfl)
    exact fun j p b i hj hi hjk hkind hb hw => State.flush_placed op a hd' hj hi hjk hkind hb hw

/-- R211, R250: the return of a store or reduction of memory, whose effect is a write of the state in which the stores before it have taken effect. -/
theorem exec_return_mem (h : a.settled = false) {pa : Nat} {d : State} (hd' : s.takeEffect k op a = d) (hops : d.ops = (s.flush op.after pa a.size).ops)
    (hgrp : d.groups = (s.flush op.after pa a.size).groups) : ∃ r, exec (.storeReturn k t) s = .next r ∧ Ended s d r k t op ∧
      ∀ j p b i, mapFind s.ops j = some p → j ∈ op.after → j ≠ k → p.kind = .store → b ∈ p.accs → i ∈ b.within pa a.size →
        ∃ q c, mapFind r.ops j = some q ∧ c ∈ q.accs ∧ c.thread = b.thread ∧ i ∈ c.gone := by
  have hf := s.flush_flushes op.after pa a.size
  refine ⟨_, exec_storeReturn ho ha hd hs h, ?_, ?_⟩
  · rw [hd']
    refine State.ended _ a ho (hf.ops.weaken.trans (OpsLater.of_eq hops)) ?_
    rw [← hf.groupAt op.gid]
    unfold State.groupAt
    rw [hgrp]
  · rw [hd']
    exact fun j p b i hj hi hjk hkind hb hw => State.flush_placed op a (OpsLater.of_eq hops) hj hi hjk hkind hb hw

/-- R311: a store or an `add.n64` of a trigger counter adds its data. -/
theorem exec_return_counter (h : a.settled = false) {n : Nat} (he : s.takeEffect k op a =
      s.setCounter op.owner n (s.counter op.owner n + BitVec.ofNat 64 (ofBytes a.data))) :
    ∃ r, exec (.storeReturn k t) s = .next r ∧ r.scratch = s.scratch ∧ ((∀ p ∈ s.nets, p.2.stage ≠ .armed) → r.mem = s.mem) ∧
      r.counter op.owner n = s.counter op.owner n + BitVec.ofNat 64 (ofBytes a.data) := by
  have hr := exec_storeReturn ho ha hd hs h
  rw [he] at hr
  have hc := s.setCounter_counter op.owner n (s.counter op.owner n + BitVec.ofNat 64 (ofBytes a.data))
  have hsc := s.setCounter_scratch op.owner n (s.counter op.owner n + BitVec.ofNat 64 (ofBytes a.data))
  have hm (hn : ∀ p ∈ s.nets, p.2.stage ≠ .armed) := State.setCounter_mem op.owner n (s.counter op.owner n + BitVec.ofNat 64 (ofBytes a.data)) hn
  generalize s.setCounter op.owner n (s.counter op.owner n + BitVec.ofNat 64 (ofBytes a.data)) = d at hr hc hsc hm
  obtain ⟨l1, l2, os, e⟩ := d.fillFor_fills op a
  refine ⟨_, hr, ?_, fun hn => ?_, ?_⟩
  · rw [State.accDone_scratch, e, ← hsc]
  · rw [State.accDone_mem, e, ← hm hn]
  · rw [← hc]
    unfold State.counter State.ownerAt
    rw [State.accDone_owners, e]

end

theorem State.takeEffect_store_mem {s : State} {op : MemOp} {a : Acc} (k : Nat) {pa : Nat} (hk : op.kind = .store) (hb : a.buffered = false)
    (hp : a.place = .mem pa) : s.takeEffect k op a = ((s.flush op.after pa a.size).putMem pa ((s.flush op.after pa a.size).leftOf a)).writeL1 op.owner op.core pa
      ((s.flush op.after pa a.size).leftOf a) := by
  rw [State.takeEffect_store hk hb, State.flushFor_mem hp]
  unfold State.writePlace
  rw [hp]

theorem State.takeEffect_red_mem {s : State} {op : MemOp} {a : Acc} (k : Nat) {pa : Nat} {o : AtomOp} (hk : op.kind = .red o) (hb : a.buffered = false)
    (hp : a.place = .mem pa) : s.takeEffect k op a = (s.flush op.after pa a.size).performed op o a pa := by
  rw [State.takeEffect_red hk hb, State.flushFor_mem hp, State.atomPlace_mem _ op o hp]
  rfl

/-- Outside memory nothing is flushed and a store has lost no byte. -/
theorem State.takeEffect_store_other {s : State} {op : MemOp} {a : Acc} (k : Nat) (hk : op.kind = .store) (hb : a.buffered = false)
    (hp : ∀ pa, a.place ≠ .mem pa) : s.takeEffect k op a = s.writePlace op.owner op.core a.place a.data := by
  rw [State.takeEffect_store hk hb]
  unfold State.flushFor State.leftOf
  cases h : a.place with
  | mem pa => exact absurd h (hp pa)
  | scr _ _ => rfl
  | guard => rfl
  | ctr _ => rfl

theorem State.takeEffect_addCounter {s : State} {op : MemOp} {a : Acc} (k : Nat) {n : Nat} (hk : op.kind = .red .addN64) (hb : a.buffered = false)
    (hp : a.place = .ctr n) : s.takeEffect k op a = s.setCounter op.owner n (s.counter op.owner n + BitVec.ofNat 64 (ofBytes a.data)) := by
  rw [State.takeEffect_red hk hb]
  unfold State.flushFor State.atomPlace
  rw [hp]
  have : BitVec.ofNat 64 (AtomOp.new .addN64 (s.counter op.owner n).toNat (ofBytes a.data) (ofBytes a.data2)) =
      s.counter op.owner n + BitVec.ofNat 64 (ofBytes a.data) := by
    refine BitVec.eq_of_toNat_eq ?_
    simp [AtomOp.new, BitVec.toNat_add]
  dsimp only
  rw [this]
  exact if_neg (by simp)

/-! ### Sending a held access -/

/-- R251: a held access whose conditions are met is sent at this cycle. -/
theorem State.trySend_sent {s : State} {k t c : Nat} {op : MemOp} {a : Acc} (ho : mapFind s.ops k = some op) (ha : op.acc t = some a) (hs : a.sent = none)
    (hw : s.awaitAll op.island a.wait = some c) {now : Nat} (hc : c ≤ now) : s.trySend k t now true = s.sendAcc k t now true := by
  unfold State.trySend
  rw [ho]
  dsimp only
  rw [ha]
  dsimp only
  rw [if_neg (by rw [hs]; decide), hw]
  exact if_pos hc

theorem State.sendAcc_sent {s : State} {k t : Nat} {op : MemOp} {a : Acc} (ho : mapFind s.ops k = some op) (ha : op.acc t = some a) (c : Nat) (held : Bool) :
    ((mapFind (s.sendAcc k t c held).ops k).bind (fun p => p.acc t)).map (fun b => (b.sent, b.vis)) = some (some c, a.visAt op c) ∧
    (⟨.owner op.owner op.island, a.visAt op c, (s.sendAcc k t c held).replyEvent k t op⟩ : Pend) ∈ (s.sendAcc k t c held).agenda := by
  have marked : mapFind (s.markSent k t c (a.visAt op c) op).ops k = some (setAcc op t (fun a' => { a' with sent := some c, vis := a.visAt op c })) :=
    mapFind_mapPut_same _ _ _
  obtain ⟨q, hq, hl⟩ := (s.markSent k t c (a.visAt op c) op).fixSent_opsLater (keep := true) k t c held op a k _ marked
  have hacc : (setAcc op t (fun a' => { a' with sent := some c, vis := a.visAt op c })).acc t = some { a with sent := some c, vis := a.visAt op c } := by
    rw [setAcc_acc]
    · rw [ha]
      rfl
    · exact fun _ => rfl
  obtain ⟨b, hb, lb⟩ := hl.acc hacc
  obtain ⟨hsent, hvis⟩ := lb.sent rfl rfl
  obtain ⟨xs, e⟩ := State.sendAcc_schedules ho ha c held
  generalize s.sendAcc k t c held = r at e
  unfold State.sentState at e
  generalize (s.markSent k t c (a.visAt op c) op).fixSent k t c held op a = u at e hq
  subst e
  refine ⟨?_, ?_⟩
  · show ((mapFind u.ops k).bind _).map _ = _
    rw [hq, Option.bind_some, hb, Option.map_some, hsent, hvis]
  · exact List.mem_append_left _ (List.mem_append_right _ (List.mem_singleton.2 rfl))

/-! ### Filling a line -/

theorem getD_mod_mem {α : Type} {xs : List α} (h : xs ≠ []) (n : Nat) (d : α) : xs.getD (n % xs.length) d ∈ xs := by
  have hl : n % xs.length < xs.length := Nat.mod_lt _ (List.length_pos_iff.2 h)
  rw [List.getD_eq_getElem _ _ hl]
  exact List.getElem_mem hl

/-- The way a line fills is one of those given. -/
theorem wayFor_mem (r : Option PartRec) (n : Nat) {ways : List Nat} (used : List (Nat × BitVec 2)) (h : ways ≠ []) : wayFor r n ways used ∈ ways := by
  unfold wayFor
  dsimp only
  split
  · next hm => exact List.mem_of_mem_filter (getD_mod_mem (by simpa using hm) _ _)
  · split
    · next hm => exact List.mem_of_mem_filter (getD_mod_mem (by simpa using hm) _ _)
    · exact getD_mod_mem h _ _

theorem State.fillL2_inL2 (s : State) (o l : Nat) (f : BitVec 2) (h : s.l2Ways o (s.homeSlice o (l * 128)) ≠ []) : (s.fillL2 o (l * 128) f).inL2 o (l * 128) = true := by
  unfold State.inL2 State.fillL2
  dsimp only
  by_cases hin : s.inL2 o (l * 128) = true
  · rw [if_pos (by rw [hin]; rfl)]
    exact hin
  · rw [if_neg (by simpa [hin] using h)]
    simp

theorem State.fillL1_mem (s : State) (o c l : Nat) (f : BitVec 2) (h : s.l1Ways o c ≠ []) (hn : s.l1Line o c (l * 128) = none) :
    ∃ w ∈ s.l1Ways o c, (⟨o, c, l, w, f, s.bytes (l * 128) 128⟩ : L1Line) ∈ (s.fillL1 o c (l * 128) f).l1 := by
  unfold State.fillL1
  dsimp only
  rw [hn, if_neg (by simpa using h), Nat.mul_div_cancel l (by decide : 0 < 128)]
  exact ⟨_, wayFor_mem _ _ _ h, List.mem_cons_self⟩

/-! ### The statement -/

theorem State.byte_of_mem {s t : State} (h : t.mem = s.mem) (x : Nat) : t.byte x = s.byte x := by
  unfold State.byte
  rw [h]

theorem Wakes.byte {s t : State} (h : Wakes s t) (x : Nat) : t.byte x = s.byte x := State.byte_of_mem (by rw [h.rest]) x

theorem Wakes.scratch {s t : State} (h : Wakes s t) : t.scratch = s.scratch := by rw [h.rest]

theorem Flushes.scratch {s t : State} (h : Flushes s t) : t.scratch = s.scratch := by rw [h.rest]

/-- Settles O38: each event ends its access from the state its effect makes, and a flush, a delivery and a write do what they say. -/
theorem repliesTakeEffect : Obligations.RepliesTakeEffect := by
  unfold Obligations.RepliesTakeEffect
  refine ⟨?_, ?_, ?_⟩
  · intro s k t op a ho ha hd hs ht bytesAt lane delivers others finished first ordered
    have flushed (pa : Nat) := s.flush_flushes op.after pa a.size
    refine ⟨?_, ?_, ?_, ?_, ?_, ?_, ?_, ?_⟩
    · intro h
      obtain ⟨r, reply, back, e⟩ := exec_reply_settled ho ha hd hs h
      exact ⟨fun _ => ⟨r, reply, e.mem, e.scratch, e.finished, e.rd⟩, fun _ => ⟨r, back, e.mem, e.scratch, e.finished, e.rd⟩⟩
    · intro h hk hb he hlen
      obtain ⟨r, hr, e⟩ := exec_reply_load ho ha hd hs h hk hb he
      obtain ⟨same, other⟩ := (s.groupAt op.gid).deliver_delivers op.uni ht op.dst hlen
      refine ⟨r, hr, ⟨fun i hi => ?_, fun x l hl hne => ?_⟩, fun j hj l x => ?_, e.finished, e.mem, e.scratch⟩
      · rw [e.rd, State.answered_group]
        exact same i hi
      · rw [e.rd, State.answered_group]
        exact other x l hl hne
      · rw [e.rd, State.answered_other _ _ _ _ hj]
    · intro h o pa hk hp hb he
      obtain ⟨r, w, hw, hr, e, hord⟩ := exec_reply_atom ho ha hd hs h hk hp hb he
      refine ⟨r, hr, fun j hj l x => ?_, e.finished, ?_, hord, fun hfirst => ?_⟩
      · rw [e.rd, State.answered_other _ _ _ _ hj, hw.rd]
        exact congrArg (fun g => Group.rd g l x) ((flushed pa).groupAt j)
      · exact e.scratch.trans (hw.scratch.trans (flushed pa).scratch)
      · rw [State.flush_of_first hfirst] at e hw
        have hlen : (s.bytes pa o.size).length ≤ 16 := (s.bytes_length pa o.size).symm ▸ o.size_le
        obtain ⟨same, other⟩ := (w.groupAt op.gid).deliver_delivers op.uni ht op.dst hlen
        refine ⟨⟨fun i hi => ?_, fun x l hl hne => ?_⟩, fun x => ?_⟩
        · rw [e.rd, State.answered_group]
          exact same i hi
        · rw [e.rd, State.answered_group, other x l hl hne, hw.rd]
          rfl
        · exact (e.byte x).trans ((hw.byte x).trans (s.performed_byte op o a pa x))
    · intro h hbuf pa hp
      refine ⟨fun hk => ?_, fun o hk => ?_⟩
      · obtain ⟨r, hr, e, hord⟩ := exec_return_mem ho ha hd hs h (State.takeEffect_store_mem k hk hbuf hp) rfl rfl
        refine ⟨r, hr, e.scratch.trans (flushed pa).scratch, e.finished, hord, fun hfirst x => ?_⟩
        rw [State.flush_of_first hfirst] at e
        exact (e.byte x).trans (State.writeLeft_byte hp _ _ x)
      · obtain ⟨r, hr, e, hord⟩ := exec_return_mem ho ha hd hs h (State.takeEffect_red_mem k hk hbuf hp) rfl rfl
        refine ⟨r, hr, e.scratch.trans ((State.performed_scratch _ _ _ _ _).trans (flushed pa).scratch), e.finished, hord, fun hfirst x => ?_⟩
        rw [State.flush_of_first hfirst] at e
        exact (e.byte x).trans (s.performed_byte op o a pa x)
    · intro h hbuf n hp hk
      exact exec_return_counter ho ha hd hs h (State.takeEffect_addCounter k hk hbuf hp)
    · intro h hbuf c off hp hk
      have eff : s.takeEffect k op a = s.putScr c off a.data := by
        rw [State.takeEffect_store_other k hk hbuf (by rw [hp]; exact fun _ e => by cases e), hp]
        rfl
      have e := State.ended (k := k) (t := t) (s.putScr c off a.data) a ho (OpsLater.of_eq rfl) rfl
      refine ⟨_, exec_storeReturn ho ha hd hs h, ?_⟩
      rw [eff]
      exact ⟨e.mem, e.finished, fun x => e.scratch ▸ putBytes_get s.scratch (scrKey c off) a.data x⟩
    · intro h hbuf n hp hk
      refine exec_return_counter ho ha hd hs h ?_
      rw [State.takeEffect_store_other k hk hbuf (by rw [hp]; exact fun _ e => by cases e), hp]
      rfl
    · intro h hbuf hk
      have e := State.ended (k := k) (t := t) s a ho (OpsLater.refl _ _) rfl
      refine ⟨_, exec_storeReturn ho ha hd hs h, ?_⟩
      rw [State.takeEffect_buffered hk hbuf]
      exact ⟨e.mem, e.scratch, e.finished⟩
  · intro s k t c op a ho ha hs now vis hw hc
    have hr : exec (.heldAccessSend k t) s = .next (s.sendAcc k t now true) := by
      have := State.trySend_sent ho ha hs hw hc
      rw [← this]
      show Host.Outcome.next (match mapFind s.ops k with
        | some op => s.trySend k t (s.cycOf op.owner op.island) true
        | none => s.tryFire k) = _
      rw [ho]
    obtain ⟨sent, due⟩ := State.sendAcc_sent ho ha now true
    have wakes := s.sendAcc_wakes k t now true
    exact ⟨_, hr, sent, due, by rw [wakes.rest], fun j l x => wakes.rd j l x⟩
  · intro s o c l f
    have l2 := s.fillL2_fills o (l * 128) f
    obtain ⟨l1', l2', os', e⟩ := l2
    have hin := s.fillL2_inL2 o l f
    have hr : exec (.prefetchFill o c l f) s = .next (if f = 3#2 ∨ ((s.fillL2 o (l * 128) f).l1Line o c (l * 128)).isSome then s.fillL2 o (l * 128) f
      else (s.fillL2 o (l * 128) f).fillL1 o c (l * 128) f) := rfl
    have hl1 : (s.fillL2 o (l * 128) f).l1 = s.l1 := rfl
    by_cases h : f = 3#2 ∨ ((s.fillL2 o (l * 128) f).l1Line o c (l * 128)).isSome
    · rw [if_pos h] at hr
      refine ⟨_, hr, hin, fun hf _ hn => ?_, fun _ => rfl, rfl, rfl⟩
      rcases h with h | h
      · exact absurd h hf
      · have : (s.l1Line o c (l * 128)).isSome := h
        rw [hn] at this
        cases this
    · rw [if_neg h] at hr
      refine ⟨_, hr, hin, fun hf hw hn => ?_, fun hf => absurd (.inl hf) h, rfl, rfl⟩
      exact (s.fillL2 o (l * 128) f).fillL1_mem o c l f hw hn

end Sys2Proof.Machine
end

section
/-! PROOF. O52 fails: sending the loads that waited for a commit changes the committed workgroup's barriers. -/

namespace Sys2Proof.Machine

/-- An acquiring load of another workgroup, held for the commits below its index. -/
def heldLoad : MemOp := {
  gid := 4, owner := 1, launch := 1, wg := 5, core := 0, island := 0, pc := 0, w := 0, kind := .load, cls := .loads, uni := true, dst := 0, ord := .acq
  scope := .dev, hist := 0, accs := [{ thread := 0, va := 0, place := .mem 0, size := 4, data := [], hor := 0, wait := [.commits 1 1] }] }

/-- A releasing store to the load's bytes that has ended while operation 7, which it covers, has not. -/
def endedStore : MemOp := {
  gid := 6, owner := 1, launch := 1, wg := 5, core := 0, island := 0, pc := 0, w := 0, kind := .store, cls := .stores, uni := true, dst := 0, ord := .rel
  scope := .dev, hist := 0, covers := [7]
  accs := [{ thread := 0, va := 0, place := .mem 0, size := 4, data := [], hor := 0, sent := some 0, done := true }] }

/-- The launch's first workgroup has ended and may commit; its barrier 0 carries the load. -/
def committing : State := { State.reset with
  launches := [(1, { owner := 1, detlvl := 1, placed := 1, stage := .running })]
  wgs := [(3, { live := true, owner := 1, launch := 1, ended := true, barriers := [(0, { carry := [1] })] })]
  ops := [(1, heldLoad), (2, endedStore)] }

/-- What barrier 0 of workgroup 3 carries after an outcome. -/
def carriedAfter : Res → List Nat
  | .next t => (mapGet {} (t.wgAt 3).barriers 0).carry
  | _ => []

/-- The commit wakes the load, which reads what the store has released, and R210 passes that on to the barrier. -/
theorem commit_passesOn : carriedAfter (exec (.workgroupCommit 3) committing) = [1, 7] := by
  decide

/-- Refutes O52: with a determinism level, a workgroup's commit wakes the loads held for it, and what an acquiring one of them then learns enters the
barriers that carry the load, those of the workgroup itself among them; the statement lets only its commit buffer and its reservation change. -/
theorem not_launchEvents : ¬ Obligations.LaunchEvents := by
  unfold Obligations.LaunchEvents
  rintro ⟨-, -, -, hwg, -⟩
  obtain ⟨-, -, -, -, -, hcommit⟩ := hwg committing 3
  obtain ⟨t, ht, hw, -⟩ := hcommit ⟨by decide, by decide, by decide⟩ (by decide) (by decide) (by decide) (by decide) (by decide)
  have kept : carriedAfter (exec (.workgroupCommit 3) committing) = [1] := by
    rw [ht]
    show (mapGet {} (t.wgAt 3).barriers 0).carry = [1]
    rw [hw]
    rfl
  exact absurd (commit_passesOn.symm.trans kept) (by decide)

end Sys2Proof.Machine
end

section
/-! Minima, maxima, classes and integral values of floating numbers, and their compares (R122 to R125). -/

namespace Sys2Proof.Machine

/-- An instruction that completes by `alu` writes the word of each lane. -/
theorem writes_of_alu {i : Instr} {s : State} {u : Bool} {h : Guard} {d : Reg} {f g : Lane → Word} (lat : Nat)
    (he : exec i s = .next (s.alu u h d lat f)) (hf : ∀ l, f l = g l) : Writes i s u h d g :=
  ⟨_, he, s.alu_wrote u h d lat f, fun l hl => by rw [s.alu_grp_rd u h d lat f hl, hf]⟩

theorem WroteRegs.pc {s t : State} {u : Bool} {h : Guard} {dst : List Reg} (hw : WroteRegs s t u h dst) : t.grp.pc = s.grp.complete.pc := by
  rw [hw.fields]

theorem WroteRegs.flags {s t : State} {u : Bool} {h : Guard} {dst : List Reg} (hw : WroteRegs s t u h dst) : t.grp.flags = s.grp.flags := by
  rw [hw.fields]
  exact s.grp.complete_flags

/-- An instruction that writes words of lanes completes, and no flag changes. -/
theorem Writes.completes {i : Instr} {s : State} {u : Bool} {h : Guard} {d : Reg} {f : Lane → Word} (hw : Writes i s u h d f) :
    ∃ t, exec i s = .next t ∧ OnlyGroup s t ∧ t.grp.pc = s.grp.complete.pc ∧ t.grp.flags = s.grp.flags := by
  obtain ⟨t, he, hw, -⟩ := hw
  exact ⟨t, he, hw.toOnlyGroup, hw.pc, hw.flags⟩

theorem WrotePred.pc {s t : State} {u : Bool} {h : Guard} {p : BitVec 3} (hw : WrotePred s t u h p) : t.grp.pc = s.grp.complete.pc := by
  rw [hw.fields]

theorem Decides.completes {i : Instr} {s : State} {u : Bool} {h : Guard} {p : BitVec 3} {f : Lane → Prop} (hd : Decides i s u h p f) :
    ∃ t, exec i s = .next t ∧ OnlyGroup s t ∧ t.grp.pc = s.grp.complete.pc := by
  obtain ⟨t, he, hw, -⟩ := hd
  exact ⟨t, he, hw.toOnlyGroup, hw.pc⟩

/-! ### Compares (R125) -/

/-- v is less than w as a number. -/
def FVal.Less (v w : FVal) : Prop :=
  match v, w with
  | .fin v, .fin w => v.val < w.val
  | .inf v, .fin _ => v = true
  | .fin _, .inf w => w = false
  | .inf v, .inf w => v = true ∧ w = false
  | _, _ => False

/-- v and w are one number, or one infinity. -/
def FVal.Same (v w : FVal) : Prop :=
  match v, w with
  | .fin v, .fin w => v.val = w.val
  | .inf v, .inf w => v = w
  | _, _ => False

theorem ltNum_iff {x y : FVal} (hx : x.Proper) (hy : y.Proper) : ltNum x y = true ↔ x.Less y := by
  cases x with
  | nan => cases y <;> simp [ltNum, ltVal, FVal.Less]
  | inf a => cases y <;> simp [ltNum, ltVal, FVal.Less]
  | fin x =>
    cases y with
    | nan => simp [ltNum, ltVal, FVal.Less]
    | inf b => simp [ltNum, ltVal, FVal.Less]
    | fin y => exact Exact.lt_iff (hx x rfl) (hy y rfl)

theorem eqNum_iff {x y : FVal} (hx : x.Proper) (hy : y.Proper) : eqNum x y = true ↔ x.Same y := by
  cases x with
  | nan => cases y <;> simp [eqNum, FVal.Same]
  | inf a => cases y <;> simp [eqNum, FVal.Same]
  | fin x =>
    cases y with
    | nan => simp [eqNum, FVal.Same]
    | inf b => simp [eqNum, FVal.Same]
    | fin y => exact Exact.eqv_iff (hx x rfl) (hy y rfl)

/-- R125: what a condition says of two values. -/
def fcondHolds (c : FCond) (x y : FVal) : Prop :=
  let un : Prop := x = .nan ∨ y = .nan
  match c with
  | .eq => ¬un ∧ x.Same y
  | .ne => un ∨ ¬x.Same y
  | .lt => ¬un ∧ x.Less y
  | .le => ¬un ∧ (x.Less y ∨ x.Same y)
  | .gt => ¬un ∧ y.Less x
  | .ge => ¬un ∧ (y.Less x ∨ x.Same y)
  | .un => un
  | .ord => ¬un

theorem fcmpTrue_iff (c : FCond) {x y : FVal} (hx : x.Proper) (hy : y.Proper) : fcmpTrue c x y = true ↔ fcondHolds c x y := by
  have un : (x.isNan || y.isNan) = true ↔ x = .nan ∨ y = .nan := by rw [Bool.or_eq_true, x.isNan_iff, y.isNan_iff]
  have ordered : (!(x.isNan || y.isNan)) = true ↔ ¬(x = .nan ∨ y = .nan) := by rw [← un, Bool.not_eq_true', Bool.not_eq_true]
  have same := eqNum_iff hx hy
  have less := ltNum_iff hx hy
  have greater := ltNum_iff hy hx
  cases c with
  | eq => exact Bool.and_eq_true_iff.trans (and_congr ordered same)
  | ne => exact (Bool.or_eq_true _ _).to_iff.trans (or_congr un (by rw [← same, Bool.not_eq_true', Bool.not_eq_true]))
  | lt => exact Bool.and_eq_true_iff.trans (and_congr ordered less)
  | le => exact Bool.and_eq_true_iff.trans (and_congr ordered ((Bool.or_eq_true _ _).to_iff.trans (or_congr less same)))
  | gt => exact Bool.and_eq_true_iff.trans (and_congr ordered greater)
  | ge => exact Bool.and_eq_true_iff.trans (and_congr ordered ((Bool.or_eq_true _ _).to_iff.trans (or_congr greater same)))
  | un => exact un
  | ord => exact ordered

/-- Settles O14: `fcmp` completes by `setPreds`, and `fcmpTrue` compares the numbers of its operands. -/
theorem floatCompares : Obligations.FloatCompares := by
  unfold Obligations.FloatCompares
  intro s u h c p a b hp
  have decided := decides_of_setPreds (i := .fcmp u h c p a b) (s := s) 12 hp rfl
    fun l => fcmpTrue_iff c (f32Val_proper (s.grp.opAF l a)) (f32Val_proper (s.grp.opBM l b))
  exact ⟨decided.completes, by cases c <;> rfl, by cases c <;> exact decided⟩

/-! ### Minima and maxima (R122) -/

theorem ltVal_irrefl (x : FVal) : ltVal x x = false := by
  cases x <;> simp [ltVal, Exact.lt]

theorem Exact.lt_asymm {x y : Exact} (h : x.lt y = true) : y.lt x = false := by
  simp only [Exact.lt, decide_eq_true_eq, decide_eq_false_iff_not] at h ⊢
  omega

theorem Exact.lt_zeros {x y : Exact} (hx : x.n = 0) (hy : y.n = 0) : x.lt y = false := by
  simp [Exact.lt, Exact.num, hx, hy]

theorem ltVal_asymm {x y : FVal} (h : ltVal x y = true) : ltVal y x = false := by
  cases x with
  | nan => cases h
  | inf a => cases y <;> simp_all [ltVal]
  | fin x =>
    cases y with
    | nan => cases h
    | inf b => simpa [ltVal] using h
    | fin y =>
      simp only [ltVal, Bool.or_eq_true, Bool.and_eq_true, decide_eq_true_eq, Bool.not_eq_true'] at h
      rcases h with h | ⟨⟨⟨hx, hy⟩, hxs⟩, hys⟩
      · have apart : ¬(y.n = 0 ∧ x.n = 0) := fun ⟨hy, hx⟩ => by simp [Exact.lt_zeros hx hy] at h
        simp [ltVal, Exact.lt_asymm h, apart]
      · simp [ltVal, Exact.lt_zeros hy hx, hys]

/-- Of two operands the one below which, in an order, the other does not lie. -/
theorem choice_least {less : FVal → FVal → Bool} (irrefl : ∀ v, less v v = false) (asymm : ∀ {v w}, less v w = true → less w v = false)
    (x y : Word) {r : Word} (hr : r = if less (f32Val y) (f32Val x) then y else x) :
    (r = x ∨ r = y) ∧ less (f32Val x) (f32Val r) = false ∧ less (f32Val y) (f32Val r) = false := by
  split at hr
  next h =>
    subst hr
    exact ⟨.inr rfl, asymm h, irrefl _⟩
  next h =>
    subst hr
    exact ⟨.inl rfl, irrefl _, Bool.eq_false_iff.2 h⟩

/-- R122: the minimum is an operand below which the other does not lie. -/
theorem fminBits_spec (x y : Word) : if (f32Val x).isNan ∨ (f32Val y).isNan then fminBits x y = f32NaN
    else (fminBits x y = x ∨ fminBits x y = y) ∧ ltVal (f32Val x) (f32Val (fminBits x y)) = false ∧
      ltVal (f32Val y) (f32Val (fminBits x y)) = false := by
  split
  next hn => exact if_pos ((Bool.or_eq_true _ _).to_iff.2 hn)
  next hn => exact choice_least ltVal_irrefl ltVal_asymm x y (if_neg (mt (Bool.or_eq_true _ _).to_iff.1 hn))

/-- R122: the maximum is an operand above which the other does not lie. -/
theorem fmaxBits_spec (x y : Word) : if (f32Val x).isNan ∨ (f32Val y).isNan then fmaxBits x y = f32NaN
    else (fmaxBits x y = x ∨ fmaxBits x y = y) ∧ ltVal (f32Val (fmaxBits x y)) (f32Val x) = false ∧
      ltVal (f32Val (fmaxBits x y)) (f32Val y) = false := by
  split
  next hn => exact if_pos ((Bool.or_eq_true _ _).to_iff.2 hn)
  next hn =>
    exact choice_least (less := fun v w => ltVal w v) ltVal_irrefl ltVal_asymm x y (if_neg (mt (Bool.or_eq_true _ _).to_iff.1 hn))

/-! ### Integral values and classes (R123, R124) -/

/-- R123: a finite value is rounded to the integer of the mode, and keeps its sign. -/
theorem frndVal_fin (m : RMode) {x : Exact} (hx : 0 < x.d) : frndVal m (.fin x) = .fin ⟨x.s, (roundedInt m x.val).natAbs, 1⟩ := by
  have rounded : roundedInt m x.val = signedInt x.s (roundNat m x.s x.n x.d) := by
    rw [x.val_eq]
    exact roundedInt_of_roundsTo x.mag_nonneg (roundNat_roundsTo m x.s x.n hx)
  have magnitude : (signedInt x.s (roundNat m x.s x.n x.d)).natAbs = roundNat m x.s x.n x.d := by
    unfold signedInt
    split <;> simp
  rw [rounded, magnitude]
  rfl

/-- The code of a value rounded to an integral one by q. -/
def integralCode (q : ℚ → ℤ) (x : FVal) : Word :=
  match x with
  | .nan => f32NaN
  | .inf g => f32Code (.inf g)
  | .fin v => f32Code (.fin ⟨v.s, (q v.val).natAbs, 1⟩)

theorem f32Code_frndVal (m : RMode) {x : FVal} (hx : x.Proper) : f32Code (frndVal m x) = integralCode (roundedInt m) x := by
  cases x with
  | nan => rfl
  | inf g => rfl
  | fin x => exact congrArg f32Code (frndVal_fin m (hx x rfl))

/-- The bit that R124 sets for a code. -/
def classBit (c : Word) : Nat :=
  match f32Val c with
  | .nan => 8
  | .inf g => if g then 0 else 7
  | .fin v => if v.n = 0 then (if v.s then 3 else 4) else if c.toNat / 2 ^ 23 % 256 = 0 then (if v.s then 2 else 5) else (if v.s then 1 else 6)

/-- A code of a subnormal number or a zero has the exponent field 0. -/
theorem exponentField_eq_zero_iff (c : Word) : c.extractLsb' 23 8 = 0#8 ↔ c.toNat / 2 ^ 23 % 256 = 0 := by
  rw [← BitVec.toNat_inj, BitVec.extractLsb'_toNat, Nat.shiftRight_eq_div_pow]
  rfl

theorem fclassMask_eq (c : Word) : fclassMask c = BitVec.twoPow 32 (classBit c) := by
  have field := exponentField_eq_zero_iff c
  unfold fclassMask classBit
  cases f32Val c with
  | nan => rfl
  | inf g => cases g <;> rfl
  | fin v =>
    simp only [field]
    cases v.s <;> split_ifs <;> rfl

section
variable (s : State) (u : Bool) (h : Guard) (d a : Reg) (b : BSel)

theorem fmin_writes : Writes (.fmin u h d a b) s u h d (fun l => fminBits (s.grp.opAF l a) (s.grp.opBM l b)) :=
  writes_of_alu 12 rfl fun _ => rfl

theorem fmax_writes : Writes (.fmax u h d a b) s u h d (fun l => fmaxBits (s.grp.opAF l a) (s.grp.opBM l b)) :=
  writes_of_alu 12 rfl fun _ => rfl

theorem fneg_writes : Writes (.fneg u h d a) s u h d (fun l => f32Code (s.grp.fA l a).neg) := writes_of_alu 12 rfl fun _ => rfl

theorem fabs_writes : Writes (.fabs u h d a) s u h d (fun l => f32Code (s.grp.fA l a).abs) := writes_of_alu 12 rfl fun _ => rfl

theorem fclass_writes : Writes (.fclass u h d a) s u h d (fun l => BitVec.twoPow 32 (classBit (s.grp.rd l a))) :=
  writes_of_alu 12 rfl fun _ => fclassMask_eq _

theorem frndRn_writes : Writes (.frndRn u h d a) s u h d (fun l => integralCode (roundedInt .rn) (s.grp.fA l a)) :=
  writes_of_alu 12 rfl fun _ => f32Code_frndVal .rn (f32Val_proper _)

theorem frndRz_writes : Writes (.frndRz u h d a) s u h d (fun l => integralCode (roundedInt .rz) (s.grp.fA l a)) :=
  writes_of_alu 12 rfl fun _ => f32Code_frndVal .rz (f32Val_proper _)

theorem frndRd_writes : Writes (.frndRd u h d a) s u h d (fun l => integralCode (roundedInt .rdn) (s.grp.fA l a)) :=
  writes_of_alu 12 rfl fun _ => f32Code_frndVal .rdn (f32Val_proper _)

theorem frndRu_writes : Writes (.frndRu u h d a) s u h d (fun l => integralCode (roundedInt .rup) (s.grp.fA l a)) :=
  writes_of_alu 12 rfl fun _ => f32Code_frndVal .rup (f32Val_proper _)

/-- R122 to R124: these instructions complete in every state and on every operand, and leave the flags. -/
theorem floatSelection_completes : ∀ i ∈ [Instr.fmin u h d a b, .fmax u h d a b, .fneg u h d a, .fabs u h d a, .fclass u h d a,
    .frndRn u h d a, .frndRz u h d a, .frndRd u h d a, .frndRu u h d a],
    ∃ t, exec i s = .next t ∧ OnlyGroup s t ∧ t.grp.pc = s.grp.complete.pc ∧ t.grp.flags = s.grp.flags := by
  simp only [List.forall_mem_cons, List.not_mem_nil, false_imp_iff, implies_true, and_true]
  exact ⟨(fmin_writes s u h d a b).completes, (fmax_writes s u h d a b).completes, (fneg_writes s u h d a).completes,
    (fabs_writes s u h d a).completes, (fclass_writes s u h d a).completes, (frndRn_writes s u h d a).completes,
    (frndRz_writes s u h d a).completes, (frndRd_writes s u h d a).completes, (frndRu_writes s u h d a).completes⟩

end

/-- Settles O13: each instruction completes by `alu` with the word of `fminBits`, `fmaxBits`, `f32Code` or `fclassMask`. -/
theorem floatSelection : Obligations.FloatSelection := by
  unfold Obligations.FloatSelection
  intro s u h d a b
  exact ⟨floatSelection_completes s u h d a b, ⟨_, fmin_writes s u h d a b, fun l => fminBits_spec _ _⟩,
    ⟨_, fmax_writes s u h d a b, fun l => fmaxBits_spec _ _⟩, fneg_writes s u h d a, fabs_writes s u h d a, fclass_writes s u h d a,
    frndRn_writes s u h d a, frndRz_writes s u h d a, frndRd_writes s u h d a, frndRu_writes s u h d a⟩

end Sys2Proof.Machine
end

section
/-! FP32 codes: the magnitude of a code, equal values have one code, and what has a code is delivered exactly (R79, R83, R84). -/

namespace Sys2Proof.Machine

/-! ### Codes -/

/-- The magnitude of the FP32 code with the exponent field E and the fraction F, counted in 2^-149. -/
def f32Units (E F : Nat) : Nat := if E = 0 then F else (2 ^ 23 + F) * 2 ^ (E - 1)

theorem f32Units_lt (E : Nat) {F : Nat} (hF : F < 2 ^ 23) : f32Units E F < 2 ^ (23 + E) := by
  unfold f32Units
  split
  next h => simpa [h] using hF
  next h => calc
    (2 ^ 23 + F) * 2 ^ (E - 1) < 2 ^ 24 * 2 ^ (E - 1) := Nat.mul_lt_mul_of_pos_right (by omega) (by positivity)
    _ = 2 ^ (23 + E) := by rw [← pow_add]; congr 1; omega

theorem le_f32Units {E : Nat} (F : Nat) (hE : 0 < E) : 2 ^ (22 + E) ≤ f32Units E F := by
  unfold f32Units
  rw [if_neg hE.ne']
  calc 2 ^ (22 + E) = 2 ^ 23 * 2 ^ (E - 1) := by rw [← pow_add]; congr 1; omega
    _ ≤ (2 ^ 23 + F) * 2 ^ (E - 1) := Nat.mul_le_mul_right _ (Nat.le_add_right _ _)

/-- A greater exponent field is a greater magnitude. -/
theorem f32Units_lt_of_lt {E E' F : Nat} (F' : Nat) (hF : F < 2 ^ 23) (hE : E < E') : f32Units E F < f32Units E' F' := calc
  f32Units E F < 2 ^ (23 + E) := f32Units_lt E hF
  _ ≤ 2 ^ (22 + E') := Nat.pow_le_pow_right two_pos (by omega)
  _ ≤ f32Units E' F' := le_f32Units F' (by omega)

theorem f32Units_inj {E E' F F' : Nat} (hF : F < 2 ^ 23) (hF' : F' < 2 ^ 23) (h : f32Units E F = f32Units E' F') : E = E' ∧ F = F' := by
  obtain rfl : E = E' := by
    rcases lt_trichotomy E E' with hlt | heq | hgt
    · exact absurd h (f32Units_lt_of_lt F' hF hlt).ne
    · exact heq
    · exact absurd h (f32Units_lt_of_lt F hF' hgt).ne'
  refine ⟨rfl, ?_⟩
  unfold f32Units at h
  split at h
  · exact h
  · exact Nat.add_left_cancel (Nat.eq_of_mul_eq_mul_right (by positivity) h)

/-- The fields of the code of a finite value (R79). -/
theorem f32Val_fields {c : Word} {x : Exact} (h : f32Val c = .fin x) :
    ∃ E F, E < 255 ∧ F < 2 ^ 23 ∧ c.toNat = x.s.toNat * 2 ^ 31 + E * 2 ^ 23 + F ∧ x.mag = f32Units E F * 2 ^ (-149 : Int) := by
  have hF : c.toNat % 2 ^ 23 < 2 ^ 23 := Nat.mod_lt _ (by positivity)
  have hc : c.toNat = (decide (c.toNat / 2 ^ 31 % 2 = 1)).toNat * 2 ^ 31 + c.toNat / 2 ^ 23 % 2 ^ 8 * 2 ^ 23 + c.toNat % 2 ^ 23 := by
    have := c.isLt
    by_cases hs : c.toNat / 2 ^ 31 % 2 = 1
    · simp only [hs, decide_true, Bool.toNat_true]
      omega
    · simp only [hs, decide_false, Bool.toNat_false]
      omega
  have hE : c.toNat / 2 ^ 23 % 2 ^ 8 < 2 ^ 8 := Nat.mod_lt _ (by positivity)
  generalize decide (c.toNat / 2 ^ 31 % 2 = 1) = s at hc
  generalize c.toNat / 2 ^ 23 % 2 ^ 8 = E at hc hE
  generalize c.toNat % 2 ^ 23 = F at hc hF
  have code : c.toNat = (layoutOf .f32).signBit s + E * 2 ^ (layoutOf .f32).mw + F := by
    rw [hc]
    cases s <;> rfl
  rw [f32Val, code, Layout.value_code (layoutOf .f32) s hE hF] at h
  split at h
  · split at h <;> cases h
  next hinf =>
    have hE' : E < 255 := by
      refine lt_of_le_of_ne (Nat.le_of_lt_succ hE) fun e => hinf ⟨e, rfl⟩
    rw [if_neg fun hn => hn.1 rfl] at h
    split at h <;> cases h
    next h0 =>
      refine ⟨E, F, hE', hF, by rwa [Exact.dyadic_s], ?_⟩
      rw [Exact.dyadic_mag, f32Units, if_pos h0]
      rfl
    next h0 =>
      refine ⟨E, F, hE', hF, by rwa [Exact.dyadic_s], ?_⟩
      rw [Exact.dyadic_mag, f32Units, if_neg h0, Nat.cast_mul, mul_assoc, Nat.cast_pow, Nat.cast_two, ← zpow_natCast, ← zpow_add₀ two_ne_zero]
      congr 2
      show (E : Int) - 127 - 23 = _
      omega

/-- One value with its sign has one code. -/
theorem f32Val_inj {c c' : Word} {x x' : Exact} (h : f32Val c = .fin x) (h' : f32Val c' = .fin x') (hs : x.s = x'.s) (hm : x.mag = x'.mag) :
    c = c' := by
  obtain ⟨E, F, -, hF, hc, hx⟩ := f32Val_fields h
  obtain ⟨E', F', -, hF', hc', hx'⟩ := f32Val_fields h'
  have units : f32Units E F = f32Units E' F' := by
    rw [hx, hx', mul_left_inj' (by positivity)] at hm
    exact_mod_cast hm
  obtain ⟨rfl, rfl⟩ := f32Units_inj hF hF' units
  apply BitVec.eq_of_toNat_eq
  rw [hc, hc', hs]

/-- A finite value is a whole number of units 2^-149. -/
theorem f32Val_units {c : Word} {x : Exact} (h : f32Val c = .fin x) : ∃ N : Nat, x.mag = N * 2 ^ (-149 : Int) := by
  obtain ⟨E, F, -, -, -, hx⟩ := f32Val_fields h
  exact ⟨_, hx⟩

theorem f32Val_lt {c : Word} {x : Exact} (h : f32Val c = .fin x) : x.mag < 2 ^ (128 : Int) := by
  obtain ⟨E, F, hE, hF, -, hx⟩ := f32Val_fields h
  have units : (f32Units E F : ℚ) < 2 ^ ((23 + E : Nat) : Int) := by
    rw [zpow_natCast]
    exact_mod_cast f32Units_lt E hF
  calc x.mag = f32Units E F * 2 ^ (-149 : Int) := hx
    _ < 2 ^ ((23 + E : Nat) : Int) * 2 ^ (-149 : Int) := by gcongr
    _ = 2 ^ (((23 + E : Nat) : Int) + -149) := (zpow_add₀ two_ne_zero _ _).symm
    _ ≤ 2 ^ (128 : Int) := zpow_le_zpow_right₀ one_le_two (by omega)

theorem le_f32Val {c : Word} {x : Exact} (h : f32Val c = .fin x) (hx : x.n ≠ 0) : (2 : ℚ) ^ (-149 : Int) ≤ x.mag := by
  obtain ⟨N, hm⟩ := f32Val_units h
  have hN : N ≠ 0 := by
    rintro rfl
    have : x.val = 0 := by rw [← abs_eq_zero, x.abs_val, hm, Nat.cast_zero, zero_mul]
    exact hx ((Exact.val_eq_zero_iff (f32Val_proper c x h)).1 this)
  rw [hm]
  exact le_mul_of_one_le_left (by positivity) (by exact_mod_cast Nat.one_le_iff_ne_zero.2 hN)

/-- A value is that of its three fields. -/
theorem Layout.value_congr {f : Layout} {c c' : Nat} (sign : c / 2 ^ (f.ew + f.mw) % 2 = c' / 2 ^ (f.ew + f.mw) % 2)
    (exp : c / 2 ^ f.mw % 2 ^ f.ew = c' / 2 ^ f.mw % 2 ^ f.ew) (frac : c % 2 ^ f.mw = c' % 2 ^ f.mw) : f.value c = f.value c' := by
  unfold Layout.value
  simp only [sign, exp, frac]

/-- The value of FP32 bits is that of the code whose low 32 bits they are. -/
theorem f32Val_ofNat (c : Nat) : f32Val (BitVec.ofNat 32 c) = (layoutOf .f32).value c := by
  rw [f32Val, BitVec.toNat_ofNat]
  have sign : c % 2 ^ 32 / 2 ^ 31 % 2 = c / 2 ^ 31 % 2 := by omega
  have exp : c % 2 ^ 32 / 2 ^ 23 % 2 ^ 8 = c / 2 ^ 23 % 2 ^ 8 := by omega
  have frac : c % 2 ^ 32 % 2 ^ 23 = c % 2 ^ 23 := by omega
  exact Layout.value_congr sign exp frac

/-! ### Magnitudes that have a code -/

/-- A magnitude with a significand of 24 bits in the range of FP32. -/
def IsF32 (v : ℚ) : Prop := ∃ (j : Nat) (q : Int), j < 2 ^ 24 ∧ -149 ≤ q ∧ q ≤ 104 ∧ v = j * 2 ^ q

theorem isF32_two_zpow {q : Int} (h : -149 ≤ q) (h' : q ≤ 127) : IsF32 (2 ^ q) := by
  rcases le_or_gt q 104 with hq | hq
  · exact ⟨1, q, by norm_num, h, hq, by simp⟩
  · refine ⟨2 ^ 23, q - 23, by norm_num, by omega, by omega, ?_⟩
    rw [Nat.cast_pow, Nat.cast_two, ← zpow_natCast, ← zpow_add₀ two_ne_zero]
    congr 1
    omega

theorem IsF32.le_topOf {v : ℚ} (h : IsF32 v) : v ≤ topOf .f32 := by
  obtain ⟨j, q, hj, -, hq, rfl⟩ := h
  have hj' : (j : ℚ) ≤ 2 ^ 24 - 1 := by
    rw [le_sub_iff_add_le]
    exact_mod_cast hj
  calc (j : ℚ) * 2 ^ q ≤ (2 ^ 24 - 1) * 2 ^ (104 : Int) := by gcongr; norm_num
    _ = topOf .f32 := rfl

/-- A magnitude of mw + 1 bits on the grid is rounded to itself. -/
theorem RoundedOnGrid.mag_eq {mw : Nat} {emin : Int} {m : RMode} {x : Exact} {y : Rounded} (hg : RoundedOnGrid mw emin m x y) {j : Nat} {q : Int}
    (hj : j < 2 ^ (mw + 1)) (hq : emin - mw ≤ q) (hx : x.mag = j * 2 ^ q) : x.mag = y.k * 2 ^ y.q := by
  have hu : (0 : ℚ) < 2 ^ y.q := by positivity
  have hX : x.mag / 2 ^ y.q = j * 2 ^ (q - y.q) := by rw [hx, zpow_sub₀ two_ne_zero, mul_div_assoc]
  have hle : y.q ≤ q := by
    by_contra hlt
    have : x.mag / 2 ^ y.q < 2 ^ mw := hX ▸ significand_mul_zpow_lt hj (by omega)
    exact absurd (hg.above.resolve_left (by omega)) (not_le.2 this)
  obtain ⟨n, hn⟩ := Int.eq_ofNat_of_zero_le (sub_nonneg.2 hle)
  have whole : x.mag / 2 ^ y.q = (j * 2 ^ n : Nat) := by
    rw [hX, hn]
    push_cast
    rfl
  have hr := hg.rounds
  rw [whole] at hr
  rw [hr.eq_of_nat, ← whole, div_mul_cancel₀ _ hu.ne']

theorem exists_f32Val (s : Bool) {v : ℚ} (h : IsF32 v) : ∃ c w, f32Val c = .fin w ∧ w.s = s ∧ w.mag = v := by
  have top := h.le_topOf
  obtain ⟨j, q, hj, hq, -, rfl⟩ := h
  have hg := roundFloat_onGrid (layoutOf .f32).mw (layoutOf .f32).emin .rz (Exact.dyadic_d_pos s j q)
  have hm := hg.mag_eq hj hq (Exact.dyadic_mag s j q)
  rw [Exact.dyadic_mag] at hm
  obtain ⟨⟨w, hv, hs, hw⟩, -⟩ := value_encode (t := .f32) s hg.k_le hg.low hg.k_ge (hm ▸ top)
  exact ⟨_, w, (f32Val_ofNat _).trans hv, hs, hw.trans hm.symm⟩

/-- What has a code is rounded to itself, in every mode. -/
theorem Rounds.eq_of_code {m : RMode} {x z : Exact} {r : FRes} {c : Word} (h : Rounds .f32 m x r) (hc : f32Val c = .fin z) (hz : z.val = x.val) :
    ∃ y, f32Val (BitVec.ofNat 32 r.bits) = .fin y ∧ y.s = x.s ∧ y.val = x.val ∧ r.fl = 0#4 := by
  obtain ⟨y, hy, hs, hfl, best⟩ := h
  have best := best c.toNat z c.isLt hc
  have same : y.val = x.val := by
    rw [hz] at best
    cases m with
    | rn =>
      have := best.1
      rw [sub_self, abs_zero, abs_nonpos_iff] at this
      exact sub_eq_zero.1 this
    | rz =>
      have : |y.val| = |x.val| := le_antisymm best.1 (best.2 le_rfl)
      rw [y.abs_val, x.abs_val] at this
      rw [y.val_eq, x.val_eq, this, hs]
    | rdn => exact le_antisymm best.1 (best.2 le_rfl)
    | rup => exact le_antisymm (best.2 le_rfl) best.1
  exact ⟨y, (f32Val_ofNat _).trans hy, hs, same, by rw [hfl, if_pos same]⟩

/-! ### Exact results -/

/-- The number v without a flag. -/
def IsExactResult (v : ℚ) (r : IRes 32) : Prop := r.fl = 0#4 ∧ ∃ y, f32Val r.val = .fin y ∧ y.val = v

theorem not_beyond_of_mag {m : RMode} {x : Exact} (h : x.mag ≤ topOf .f32) : ¬Beyond .f32 m x.val :=
  not_beyond_of_le (x.abs_val.le.trans h)

/-- R84: a magnitude that has a code is delivered exactly. -/
theorem fExact_isExactResult (m : RMode) (sat : Bool) {x : Exact} (hx : 0 < x.d) (h : IsF32 x.mag) : IsExactResult x.val (fExact m sat x).word := by
  obtain ⟨c, z, hc, hzs, hz⟩ := exists_f32Val x.s h
  have rounds := (deliver_isDelivered .f32 m sat hx).1 (not_beyond_of_mag h.le_topOf)
  obtain ⟨y, hy, -, hv, hfl⟩ := rounds.eq_of_code hc (by rw [z.val_eq, x.val_eq, hzs, hz])
  exact ⟨hfl, y, hy, hv⟩

end Sys2Proof.Machine
end

section
/-! Square roots and their reciprocals (R132): the integer root, the value that is delivered for the root, and its rounding. -/

namespace Sys2Proof.Machine

/-! ### The integer root -/

/-- The bits of the root from 2^b down, where those above are in acc. -/
theorem isqrtFrom_eq (n b : Nat) : ∀ acc, acc * acc ≤ n → n < (acc + 2 ^ (b + 1)) * (acc + 2 ^ (b + 1)) → isqrtFrom n b acc = Nat.sqrt n := by
  induction b with
  | zero =>
    intro acc low high
    rw [Nat.eq_sqrt]
    unfold isqrtFrom
    split
    next h => exact ⟨h, high⟩
    next h => exact ⟨low, not_le.1 h⟩
  | succ b ih =>
    intro acc low high
    unfold isqrtFrom
    split
    next h =>
      refine ih _ h ?_
      rwa [add_assoc, ← two_mul, ← pow_succ']
    next h => exact ih _ low (not_le.1 h)

theorem isqrt_eq (n : Nat) : isqrt n = Nat.sqrt n := by
  refine isqrtFrom_eq n _ 0 (Nat.zero_le n) ?_
  rw [zero_add, ← pow_add]
  exact Nat.lt_log2_self.trans_le (Nat.pow_le_pow_right two_pos (by omega))

/-! ### The value delivered for a root -/

/-- The value that `sqrtExact` rounds in place of the root of n / d: the root in w bits, after it a bit that says that something was lost. -/
def rootValue (w n d : Nat) : Exact :=
  let r := isqrt (n * 2 ^ (2 * w) / d)
  if r * r * d = n * 2 ^ (2 * w) then ⟨false, r, 2 ^ w⟩ else ⟨false, 2 * r + 1, 2 ^ (w + 1)⟩

theorem sqrtExact_eq (m : RMode) (n d : Nat) : sqrtExact m n d = fExact m false (rootValue 300 n d) := by
  unfold sqrtExact rootValue
  simp only [decide_eq_true_eq]

theorem rootValue_s (w n d : Nat) : (rootValue w n d).s = false := by
  unfold rootValue
  dsimp only
  split <;> rfl

theorem rootValue_d_pos (w n d : Nat) : 0 < (rootValue w n d).d := by
  unfold rootValue
  dsimp only
  split <;> positivity

theorem rootValue_d (w n d : Nat) : ∃ a, (rootValue w n d).d = 2 ^ a := by
  unfold rootValue
  dsimp only
  split
  · exact ⟨w, rfl⟩
  · exact ⟨w + 1, rfl⟩

/-- x lies between the multiples of 2^-w as the root of v does. -/
def LiesAsRoot (w : Nat) (v x : ℚ) : Prop :=
  ∀ j : Nat, ((j : ℚ) / 2 ^ w < x ↔ ((j : ℚ) / 2 ^ w) ^ 2 < v) ∧ (x < (j : ℚ) / 2 ^ w ↔ v < ((j : ℚ) / 2 ^ w) ^ 2)

section
variable {w : Nat} {v x : ℚ}

/-- A multiple of 2^-w that is x is the root of v. -/
theorem LiesAsRoot.sq_eq (h : LiesAsRoot w v x) {j : Nat} (hj : (j : ℚ) / 2 ^ w = x) : x ^ 2 = v := by
  obtain ⟨below, above⟩ := h j
  rw [hj] at below above
  exact le_antisymm (not_lt.1 fun hlt => lt_irrefl x (above.2 hlt)) (not_lt.1 fun hlt => lt_irrefl x (below.2 hlt))

theorem liesAsRoot_sq (hx : 0 ≤ x) : LiesAsRoot w (x ^ 2) x := fun j =>
  ⟨(pow_lt_pow_iff_left₀ (by positivity) hx two_ne_zero).symm, (pow_lt_pow_iff_left₀ hx (by positivity) two_ne_zero).symm⟩

/-- Half-way between two multiples of 2^-w between which the root of v lies. -/
theorem liesAsRoot_halfway {r : Nat} (low : ((r : ℚ) / 2 ^ w) ^ 2 < v) (high : v < (((r + 1 : Nat) : ℚ) / 2 ^ w) ^ 2) :
    LiesAsRoot w v ((2 * r + 1) / 2 ^ (w + 1)) := by
  have half : ((2 * r + 1 : ℚ) / 2 ^ (w + 1)) = (r + 1 / 2) / 2 ^ w := by
    rw [pow_succ', ← div_div]
    congr 1
    ring
  intro j
  rw [half, div_lt_div_iff_of_pos_right (by positivity), div_lt_div_iff_of_pos_right (by positivity)]
  rcases le_or_gt j r with hj | hj
  · have hj' : (j : ℚ) ≤ r := by exact_mod_cast hj
    have : ((j : ℚ) / 2 ^ w) ^ 2 < v := lt_of_le_of_lt (by gcongr) low
    exact ⟨iff_of_true (by linarith) this, iff_of_false (by linarith) this.not_gt⟩
  · have hj' : ((r + 1 : Nat) : ℚ) ≤ j := by exact_mod_cast hj
    have : v < ((j : ℚ) / 2 ^ w) ^ 2 := lt_of_lt_of_le high (by gcongr)
    push_cast at hj'
    exact ⟨iff_of_false (by linarith) this.not_gt, iff_of_true (by linarith) this⟩

end

theorem rootValue_liesAsRoot (w n : Nat) {d : Nat} (hd : 0 < d) : LiesAsRoot w (n / d) (rootValue w n d).val := by
  have hd' : (0 : ℚ) < d := by exact_mod_cast hd
  have scaled (k : Nat) : ((k : ℚ) / 2 ^ w) ^ 2 = (k * k * d : Nat) / (d * 2 ^ (2 * w)) := by
    push_cast
    rw [div_pow, ← pow_mul, mul_comm (d : ℚ), mul_div_mul_right _ _ hd'.ne', sq, mul_comm w]
  have whole : (n / d : ℚ) = (n * 2 ^ (2 * w) : Nat) / (d * 2 ^ (2 * w)) := by
    push_cast
    rw [mul_div_mul_right _ _ (by positivity)]
  have hp : (0 : ℚ) < d * 2 ^ (2 * w) := by positivity
  unfold rootValue
  rw [isqrt_eq]
  generalize n * 2 ^ (2 * w) = t at *
  have low : Nat.sqrt (t / d) * Nat.sqrt (t / d) * d ≤ t := (Nat.le_div_iff_mul_le hd).1 (Nat.sqrt_le _)
  have high : t < (Nat.sqrt (t / d) + 1) * (Nat.sqrt (t / d) + 1) * d := (Nat.div_lt_iff_lt_mul hd).1 (Nat.lt_succ_sqrt _)
  generalize Nat.sqrt (t / d) = r at *
  dsimp only
  split
  next h =>
    have hv : (n / d : ℚ) = ((r : ℚ) / 2 ^ w) ^ 2 := by rw [whole, scaled, h]
    rw [hv, Exact.val_of_false rfl, Exact.mag]
    push_cast
    exact liesAsRoot_sq (by positivity)
  next h =>
    rw [Exact.val_of_false rfl, Exact.mag]
    push_cast
    refine liesAsRoot_halfway ?_ ?_
    · rw [scaled, whole, div_lt_div_iff_of_pos_right hp]
      exact_mod_cast lt_of_le_of_ne low h
    · rw [scaled, whole, div_lt_div_iff_of_pos_right hp]
      exact_mod_cast high

/-! ### Roots of FP32 values -/

/-- An odd number whose square is k times a power of two is at most k. -/
theorem odd_le_of_sq_eq {M k : Nat} {e : Int} (hM : Odd M) (h : (M : ℚ) ^ 2 = k * 2 ^ e) : M ≤ k := by
  rcases le_or_gt e 0 with he | he
  · obtain ⟨c, hc⟩ := Int.eq_ofNat_of_zero_le (neg_nonneg.2 he)
    have hk' : M ^ 2 * 2 ^ c = k := by
      have : (M : ℚ) ^ 2 * 2 ^ c = k := by
        rw [h, ← zpow_natCast, ← hc, mul_assoc, ← zpow_add₀ two_ne_zero, add_neg_cancel, zpow_zero, mul_one]
      exact_mod_cast this
    calc M ≤ M ^ 2 := Nat.le_self_pow two_ne_zero M
      _ ≤ M ^ 2 * 2 ^ c := Nat.le_mul_of_pos_right _ (by positivity)
      _ = k := hk'
  · obtain ⟨c, rfl⟩ := Int.eq_ofNat_of_zero_le he.le
    have hM2 : M ^ 2 = k * 2 ^ c := by exact_mod_cast h
    have even : Even (M ^ 2) := hM2 ▸ (Nat.even_pow.2 ⟨even_two, by omega⟩).mul_left k
    exact absurd even (Nat.not_even_iff_odd.2 hM.pow)

/-- An odd number whose square divides a power of two is 1. -/
theorem odd_eq_one_of_sq_mul {M k : Nat} {e : Int} (hM : Odd M) (h : (M : ℚ) ^ 2 * k = 2 ^ e) : M = 1 := by
  rcases le_or_gt e 0 with he | he
  · obtain ⟨c, hc⟩ := Int.eq_ofNat_of_zero_le (neg_nonneg.2 he)
    have : (M : ℚ) ^ 2 * k * 2 ^ c = 1 := by
      rw [h, ← zpow_natCast, ← hc, ← zpow_add₀ two_ne_zero, add_neg_cancel, zpow_zero]
    have : M ^ 2 * k * 2 ^ c = 1 := by exact_mod_cast this
    exact (Nat.pow_eq_one.1 (Nat.eq_one_of_mul_eq_one_right (Nat.eq_one_of_mul_eq_one_right this))).resolve_right two_ne_zero
  · obtain ⟨c, rfl⟩ := Int.eq_ofNat_of_zero_le he.le
    have hM2 : M ^ 2 * k = 2 ^ c := by exact_mod_cast h
    have divides : M ∣ 2 ^ c := hM2 ▸ (Dvd.intro_left (M ^ 1) rfl).mul_right k
    exact Nat.Coprime.eq_one_of_dvd (Nat.Coprime.pow_right c (Nat.coprime_two_right.2 hM)) divides

/-- v is an FP32 significand times a power of two, or a power of two over one. -/
def HasShortRatio (v : ℚ) : Prop := ∃ (k : Nat) (e : Int), k < 2 ^ 24 ∧ (v = k * 2 ^ e ∨ v * k = 2 ^ e)

/-- A binary fraction whose square is such a number, not too small or great, has a code. -/
theorem isF32_of_sq {x : ℚ} {j a : Nat} (hx : x = j / 2 ^ a) (hsq : HasShortRatio (x ^ 2)) (low : 2 ^ (-160 : Int) ≤ x ^ 2)
    (high : x ^ 2 ≤ 2 ^ (160 : Int)) : IsF32 x := by
  have hj : j ≠ 0 := by
    rintro rfl
    rw [hx, Nat.cast_zero, zero_div, zero_pow two_ne_zero] at low
    exact absurd low (not_le.2 (by positivity))
  obtain ⟨b, M, hM, rfl⟩ := Nat.exists_eq_two_pow_mul_odd hj
  have hxM : x = M * 2 ^ ((b : Int) - a) := by
    rw [hx, zpow_sub₀ two_ne_zero]
    push_cast
    rw [zpow_natCast, zpow_natCast]
    ring
  generalize (b : Int) - a = q at hxM
  have hx2 : x ^ 2 = M ^ 2 * 2 ^ (2 * q) := by
    rw [hxM, mul_pow, mul_comm 2 q, zpow_mul]
    rfl
  have hM24 : M < 2 ^ 24 := by
    obtain ⟨k, e, hk, h | h⟩ := hsq
    · refine (odd_le_of_sq_eq (e := e - 2 * q) hM ?_).trans_lt hk
      rw [zpow_sub₀ two_ne_zero, ← mul_div_assoc, ← h, hx2, mul_div_cancel_right₀ _ (by positivity)]
    · rw [odd_eq_one_of_sq_mul (k := k) (e := e - 2 * q) hM]
      · norm_num
      · rw [zpow_sub₀ two_ne_zero, ← h, hx2, mul_right_comm, mul_div_cancel_right₀ _ (by positivity)]
  have hM1 : (1 : ℚ) ≤ M := by exact_mod_cast hM.pos
  have hM24' : (M : ℚ) < 2 ^ (24 : Int) := by exact_mod_cast hM24
  have hq : 2 * q ≤ 160 := by
    refine (zpow_le_zpow_iff_right₀ (one_lt_two (α := ℚ))).1 (le_trans ?_ high)
    rw [hx2]
    exact le_mul_of_one_le_left (by positivity) (one_le_pow₀ hM1)
  have hq' : -160 < 48 + 2 * q := by
    refine (zpow_lt_zpow_iff_right₀ (one_lt_two (α := ℚ))).1 (low.trans_lt ?_)
    rw [hx2, zpow_add₀ two_ne_zero]
    gcongr
    calc (M : ℚ) ^ 2 < (2 ^ (24 : Int)) ^ 2 := by gcongr
      _ = 2 ^ (48 : Int) := by norm_num
  exact ⟨M, q, hM24, by omega, by omega, hxM⟩

/-! ### The rounded root -/

/-- A number of the grid 2^-w. -/
def OnGrid (w : Nat) (g : ℚ) : Prop := ∃ j : Nat, g = j / 2 ^ w

theorem onGrid_nat (w n : Nat) : OnGrid w n := ⟨n * 2 ^ w, by push_cast; rw [mul_div_cancel_right₀ _ (by positivity)]⟩

theorem onGrid_units {w u : Nat} (hu : u ≤ w) (N : Nat) : OnGrid w (N * 2 ^ (-u : Int)) := by
  refine ⟨N * 2 ^ (w - u), ?_⟩
  push_cast
  rw [mul_div_assoc, ← zpow_natCast, ← zpow_natCast, ← zpow_sub₀ two_ne_zero]
  congr 2
  omega

/-- The values of FP32 and the middles between them are on the grid 2^-150. -/
theorem f32Val_onGrid {w : Nat} (hw : 149 ≤ w) {c : Word} {y : Exact} (hy : f32Val c = .fin y) (h0 : 0 ≤ y.val) : OnGrid w y.val := by
  obtain ⟨N, hN⟩ := f32Val_units hy
  rw [← abs_of_nonneg h0, y.abs_val, hN]
  exact onGrid_units (u := 149) hw N

theorem f32Val_middle_onGrid {w : Nat} (hw : 150 ≤ w) {c c' : Word} {y z : Exact} (hy : f32Val c = .fin y) (hz : f32Val c' = .fin z) (h0 : 0 ≤ y.val)
    (h0' : 0 ≤ z.val) : OnGrid w ((y.val + z.val) / 2) := by
  obtain ⟨N, hN⟩ := f32Val_units hy
  obtain ⟨N', hN'⟩ := f32Val_units hz
  have : (y.val + z.val) / 2 = ((N + N' : Nat) : ℚ) * 2 ^ (-(150 : Nat) : Int) := by
    rw [← abs_of_nonneg h0, y.abs_val, hN, ← abs_of_nonneg h0', z.abs_val, hN']
    push_cast
    rw [show (-150 : Int) = -149 - 1 by norm_num, zpow_sub_one₀ two_ne_zero]
    ring
  rw [this]
  exact onGrid_units hw _

section
variable {w : Nat} {v x g : ℚ} (h : LiesAsRoot w v x) (hg : OnGrid w g)
include h hg

theorem LiesAsRoot.lt_iff : g < x ↔ g ^ 2 < v := by
  obtain ⟨j, rfl⟩ := hg
  exact (h j).1

theorem LiesAsRoot.gt_iff : x < g ↔ v < g ^ 2 := by
  obtain ⟨j, rfl⟩ := hg
  exact (h j).2

theorem LiesAsRoot.eq_iff : g = x ↔ g ^ 2 = v := by
  have lt := h.lt_iff hg
  have gt := h.gt_iff hg
  constructor
  · intro e
    exact le_antisymm (not_lt.1 (mt gt.2 e.le.not_gt)) (not_lt.1 (mt lt.2 e.ge.not_gt))
  · intro e
    exact le_antisymm (not_lt.1 (mt gt.1 e.le.not_gt)) (not_lt.1 (mt lt.1 e.ge.not_gt))

end

/-- R132: the FP32 number to which the mode rounds the root of v, with INX where it is not that root. -/
def IsRoot (m : RMode) (v : ℚ) (r : IRes 32) : Prop := ∃ y, f32Val r.val = .fin y ∧ y.s = false ∧
  r.fl = (if y.val ^ 2 = v then 0#4 else flagINX) ∧ ∀ c z, f32Val c = .fin z → 0 ≤ z.val → match m with
    | .rn => (y.val < z.val → 4 * v < (y.val + z.val) ^ 2) ∧ (z.val < y.val → (y.val + z.val) ^ 2 < 4 * v)
    | .rz => y.val ^ 2 ≤ v ∧ (y.val < z.val → v < z.val ^ 2)
    | .rdn => y.val ^ 2 ≤ v ∧ (y.val < z.val → v < z.val ^ 2)
    | .rup => v ≤ y.val ^ 2 ∧ (z.val < y.val → z.val ^ 2 < v)

theorem Exact.val_nonneg {x : Exact} (h : x.s = false) : 0 ≤ x.val := x.val_of_false h ▸ x.mag_nonneg

/-- Rounding a value that lies as the root of v does is rounding that root. -/
theorem isRoot_of_rounds {w : Nat} (hw : 150 ≤ w) {m : RMode} {v : ℚ} {x : Exact} {q : FRes} (hs : x.s = false) (h : LiesAsRoot w v x.val)
    (hcode : x.val ^ 2 = v → IsF32 x.val) (rounds : Rounds .f32 m x q) : IsRoot m v q.word := by
  have attained {y : Exact} (hy : f32Val (BitVec.ofNat 32 q.bits) = .fin y) (e : x.val ^ 2 = v) : y.val = x.val := by
    obtain ⟨c, z, hc, hzs, hz⟩ := exists_f32Val false (hcode e)
    obtain ⟨y', hy', -, hv, -⟩ := rounds.eq_of_code hc (by rw [z.val_of_false hzs, hz])
    cases hy.symm.trans hy'
    exact hv
  obtain ⟨y, hy, hys, hfl, best⟩ := rounds
  rw [← f32Val_ofNat] at hy
  have hx0 := x.val_nonneg hs
  have hy0 := y.val_nonneg (hys.trans hs)
  have ygrid : OnGrid w y.val := f32Val_onGrid (by omega) hy hy0
  refine ⟨y, hy, hys.trans hs, ?_, fun c z hc hz0 => ?_⟩
  · show q.fl = _
    simp only [hfl, h.eq_iff ygrid]
  have zgrid : OnGrid w z.val := f32Val_onGrid (by omega) hc hz0
  have best := best c.toNat z c.isLt hc
  cases m with
  | rn =>
    have middle := f32Val_middle_onGrid hw hy hc hy0 hz0
    have closer : (y.val - x.val) ^ 2 ≤ (z.val - x.val) ^ 2 := sq_le_sq.2 best.1
    have off : y.val ≠ z.val → (y.val + z.val) / 2 ≠ x.val := fun hne e => hne (by
      have := attained hy (by rw [← e]; exact (h.eq_iff middle).1 e)
      linarith)
    constructor
    · intro hlt
      have : x.val < (y.val + z.val) / 2 := lt_of_le_of_ne (by nlinarith) (off hlt.ne).symm
      have := (h.gt_iff middle).1 this
      rw [div_pow] at this
      linarith
    · intro hlt
      have : (y.val + z.val) / 2 < x.val := lt_of_le_of_ne (by nlinarith) (off hlt.ne')
      have := (h.lt_iff middle).1 this
      rw [div_pow] at this
      linarith
  | rz =>
    obtain ⟨low, best⟩ := best
    rw [abs_of_nonneg hy0, abs_of_nonneg hx0] at *
    rw [abs_of_nonneg hz0] at best
    exact ⟨not_lt.1 (mt (h.gt_iff ygrid).2 low.not_gt), fun hlt => (h.gt_iff zgrid).1 (not_le.1 (mt best hlt.not_ge))⟩
  | rdn => exact ⟨not_lt.1 (mt (h.gt_iff ygrid).2 best.1.not_gt), fun hlt => (h.gt_iff zgrid).1 (not_le.1 (mt best.2 hlt.not_ge))⟩
  | rup => exact ⟨not_lt.1 (mt (h.lt_iff ygrid).2 best.1.not_gt), fun hlt => (h.lt_iff zgrid).1 (not_le.1 (mt best.2 hlt.not_ge))⟩

/-- A root that has a code is delivered exactly. -/
theorem IsRoot.eq_of_code {m : RMode} {v : ℚ} {r : IRes 32} (h : IsRoot m v r) {c : Word} {z : Exact} (hc : f32Val c = .fin z) (hs : z.s = false)
    (hv : v = z.val ^ 2) : r = ⟨c, 0#4⟩ := by
  obtain ⟨y, hy, hys, hfl, best⟩ := h
  have hz0 := z.val_nonneg hs
  have hy0 := y.val_nonneg hys
  have best := best c z hc hz0
  rw [hv] at best
  have down (h : y.val ^ 2 ≤ z.val ^ 2 ∧ (y.val < z.val → z.val ^ 2 < z.val ^ 2)) : y.val = z.val :=
    le_antisymm ((pow_le_pow_iff_left₀ hy0 hz0 two_ne_zero).1 h.1) (not_lt.1 fun hlt => lt_irrefl _ (h.2 hlt))
  have up (h : z.val ^ 2 ≤ y.val ^ 2 ∧ (z.val < y.val → z.val ^ 2 < z.val ^ 2)) : y.val = z.val :=
    le_antisymm (not_lt.1 fun hlt => lt_irrefl _ (h.2 hlt)) ((pow_le_pow_iff_left₀ hz0 hy0 two_ne_zero).1 h.1)
  have same : y.val = z.val := by
    cases m with
    | rn =>
      obtain ⟨above, below⟩ := best
      exact le_antisymm (not_lt.1 fun hlt => by nlinarith [below hlt]) (not_lt.1 fun hlt => by nlinarith [above hlt])
    | rz => exact down best
    | rdn => exact down best
    | rup => exact up best
  have code : r.val = c := f32Val_inj hy hc (hys.trans hs.symm) (by rw [← y.val_of_false hys, ← z.val_of_false hs, same])
  rw [if_pos (by rw [same, hv])] at hfl
  cases r
  cases code
  cases hfl
  rfl

/-- R132: `sqrtExact` rounds the root of a ratio that is an FP32 number or the reciprocal of one. -/
theorem sqrtExact_isRoot (m : RMode) {n d : Nat} (hd : 0 < d) (short : HasShortRatio (n / d)) (low : 2 ^ (-160 : Int) ≤ (n / d : ℚ))
    (high : (n / d : ℚ) ≤ 2 ^ (160 : Int)) : IsRoot m (n / d) (sqrtExact m n d).word := by
  have lies := rootValue_liesAsRoot 300 n hd
  have hs := rootValue_s 300 n d
  have hx : 0 < (rootValue 300 n d).d := rootValue_d_pos 300 n d
  obtain ⟨a, ha⟩ : ∃ a, (rootValue 300 n d).d = 2 ^ a := rootValue_d 300 n d
  have ratio : (rootValue 300 n d).val = (rootValue 300 n d).n / 2 ^ a := by
    rw [Exact.val_of_false hs, Exact.mag, ha, Nat.cast_pow, Nat.cast_two]
  rw [sqrtExact_eq]
  generalize rootValue 300 n d = x at *
  have small : x.val ≤ (2 ^ 80 : Nat) := by
    refine not_lt.1 fun hlt => ?_
    have := (lies.lt_iff (onGrid_nat 300 (2 ^ 80))).1 hlt
    refine absurd (this.trans_le high) (not_lt.2 ?_)
    norm_num
  have top : x.mag ≤ topOf .f32 := by
    rw [← Exact.val_of_false hs]
    refine small.trans ?_
    norm_num [topOf]
  refine isRoot_of_rounds (by norm_num) hs lies (fun e => ?_) ((deliver_isDelivered .f32 m false hx).1 (not_beyond_of_mag top))
  exact isF32_of_sq ratio (e ▸ short) (e ▸ low) (e ▸ high)

end Sys2Proof.Machine
end

section
/-! The special functions (R130 to R132): what each gives for every FP32 operand. -/

namespace Sys2Proof.Machine

/-! ### Words that R132 names -/

/-- The infinities, zeros and ones without a flag. -/
def infWord (g : Bool) : IRes 32 := ⟨if g then 0xFF800000#32 else 0x7F800000#32, 0#4⟩
def zeroWord (g : Bool) : IRes 32 := ⟨if g then 0x80000000#32 else 0#32, 0#4⟩
def oneWord (g : Bool) : IRes 32 := ⟨if g then 0xBF800000#32 else 0x3F800000#32, 0#4⟩
def nanWord : IRes 32 := ⟨f32NaN, 0#4⟩
def invalidWord : IRes 32 := ⟨f32NaN, flagINV⟩

theorem fNaN_word : fNaN.word = nanWord := rfl
theorem fInvalid_word : fInvalid.word = invalidWord := rfl
theorem fInf_word (g : Bool) : (fInf g).word = infWord g := by cases g <;> rfl
theorem fZero_word (g : Bool) : (fZero g).word = zeroWord g := by cases g <;> rfl
theorem fExact_one_word (g : Bool) : (fExact .rn false ⟨g, 1, 1⟩).word = oneWord g := by cases g <;> decide

/-! ### Whole and half-way values -/

/-- The whole part of a value. -/
theorem Exact.floor_val (x : Exact) : ⌊x.val⌋ = x.num / (x.d : Int) := Rat.floor_intCast_div_natCast x.num x.d

theorem Exact.num_natAbs (x : Exact) : x.num.natAbs = x.n := by
  unfold Exact.num
  split <;> simp

theorem Exact.whole_iff {x : Exact} (hx : 0 < x.d) : x.n % x.d = 0 ↔ ∃ k : Int, x.val = k := by
  have hd : (x.d : ℚ) ≠ 0 := by positivity
  rw [← Nat.dvd_iff_mod_eq_zero, ← x.num_natAbs, ← Int.natCast_dvd]
  refine exists_congr fun k => ?_
  rw [Exact.val, div_eq_iff hd, mul_comm]
  norm_cast

/-- A value is half of a whole number where twice its numerator is a multiple of its denominator. -/
theorem Exact.half_iff {x : Exact} (hx : 0 < x.d) : 2 * x.n % x.d = 0 ↔ ∃ k : Int, x.val = k / 2 := by
  have twice : (Exact.mk x.s (2 * x.n) x.d).val = 2 * x.val := by
    rw [Exact.val_eq_signOf, Exact.val_eq_signOf, Exact.mag, Exact.mag]
    push_cast
    ring
  rw [Exact.whole_iff (x := ⟨x.s, 2 * x.n, x.d⟩) hx, twice]
  refine exists_congr fun k => ?_
  rw [eq_div_iff two_ne_zero, mul_comm]

/-! ### Inexact results (R131) -/

theorem roundEnclosed_inexact (sat : Bool) (f : Nat → Approx) (n : Nat) : ∀ p, (roundEnclosed sat f n p).fl.getLsbD 0 = true := by
  induction n with
  | zero =>
    intro p
    simp [roundEnclosed, flagINX]
  | succ n ih =>
    intro p
    unfold roundEnclosed
    dsimp only
    split
    · simp [flagINX]
    · exact ih _

theorem enclose_inexact (sat : Bool) (f : Nat → Approx) : (enclose sat f).word.fl.getLsbD 0 = true := roundEnclosed_inexact sat f 5 320

/-! ### Reciprocals and roots (R132) -/

/-- R132: `rcp`. -/
def IsReciprocal (sat : Bool) (v : FVal) (r : IRes 32) : Prop :=
  match v with
  | .nan => r = nanWord
  | .inf g => r = zeroWord g
  | .fin y => (y.n = 0 → r = infWord y.s) ∧ (y.n ≠ 0 → ∃ z : Exact, z.s = y.s ∧ z.val = 1 / y.val ∧
      r = ⟨BitVec.ofNat 32 (deliver (layoutOf .f32) .rn sat z).bits, (deliver (layoutOf .f32) .rn sat z).fl⟩)

theorem rcpF_isReciprocal (sat : Bool) (v : FVal) : IsReciprocal sat v (rcpF sat v).word := by
  cases v with
  | nan => exact fNaN_word
  | inf g => exact fZero_word g
  | fin y =>
    unfold rcpF
    dsimp only
    refine ⟨fun h => ?_, fun h => ⟨⟨y.s, y.d, y.n⟩, rfl, ?_, ?_⟩⟩
    · rw [if_pos h, fInf_word]
    · rw [Exact.val_eq_signOf, Exact.val_eq_signOf, Exact.mag, Exact.mag]
      cases y.s <;> simp [signOf]
    · rw [if_neg h]
      rfl

/-- R132: `sqrt`. -/
def IsSquareRoot (m : RMode) (v : FVal) (r : IRes 32) : Prop :=
  match v with
  | .nan => r = nanWord
  | .inf g => r = if g then invalidWord else infWord false
  | .fin y => (y.n = 0 → r = zeroWord y.s) ∧ (y.n ≠ 0 → y.s = true → r = invalidWord) ∧
      (∀ c w, f32Val c = .fin w → w.s = false → y.n ≠ 0 → y.s = false → y.val = w.val ^ 2 → r = ⟨c, 0#4⟩) ∧
      (y.n ≠ 0 → y.s = false → IsRoot m y.val r)

/-- R132: `rsqrt`. -/
def IsReciprocalRoot (v : FVal) (r : IRes 32) : Prop :=
  match v with
  | .nan => r = nanWord
  | .inf g => r = if g then invalidWord else zeroWord false
  | .fin y => (y.n = 0 → r = infWord y.s) ∧ (y.n ≠ 0 → y.s = true → r = invalidWord) ∧
      (∀ k : Int, y.val = 4 ^ k → IsExactResult (2 ^ (-k)) r) ∧ (y.n ≠ 0 → y.s = false → IsRoot .rn (1 / y.val) r)

section
variable {c : Word} {y : Exact} (hc : f32Val c = .fin y) (hn : y.n ≠ 0) (hs : y.s = false)
include hc hn hs

theorem sqrtExact_isRoot_val (m : RMode) : IsRoot m y.val (sqrtExact m y.n y.d).word := by
  have val : y.val = (y.n : ℚ) / y.d := Exact.val_of_false hs
  have low := le_f32Val hc hn
  have high := f32Val_lt hc
  obtain ⟨j, q, hj, -, hm⟩ := Layout.value_grid hc
  rw [Exact.mag] at low high hm
  rw [val]
  refine sqrtExact_isRoot m (f32Val_proper c y hc) ⟨j, q, hj, .inl hm⟩ (le_trans ?_ low) (high.le.trans ?_)
  · exact zpow_le_zpow_right₀ one_le_two (by norm_num)
  · exact zpow_le_zpow_right₀ one_le_two (by norm_num)

theorem sqrtExact_isRoot_inv : IsRoot .rn (1 / y.val) (sqrtExact .rn y.d y.n).word := by
  have val : 1 / y.val = (y.d : ℚ) / y.n := by rw [Exact.val_of_false hs, Exact.mag, one_div_div]
  have hpos : (0 : ℚ) < y.mag := (zpow_pos two_pos _).trans_le (le_f32Val hc hn)
  have low : (2 : ℚ) ^ (-128 : Int) ≤ y.d / y.n := by
    rw [← one_div_div, zpow_neg, ← one_div]
    exact one_div_le_one_div_of_le hpos (f32Val_lt hc).le
  have high : (y.d / y.n : ℚ) ≤ 2 ^ (149 : Int) := by
    rw [← one_div_div, ← neg_neg (149 : Int), zpow_neg, ← one_div]
    exact one_div_le_one_div_of_le (by positivity) (le_f32Val hc hn)
  obtain ⟨j, q, hj, -, hm⟩ := Layout.value_grid hc
  have short : (y.d / y.n : ℚ) * j = 2 ^ (-q) := by
    rw [← one_div_div, ← Exact.mag, zpow_neg, one_div, inv_mul_eq_div, div_eq_iff hpos.ne', hm, mul_comm (j : ℚ), inv_mul_cancel_left₀ (by positivity)]
  rw [val]
  refine sqrtExact_isRoot .rn (Nat.pos_of_ne_zero hn) ⟨j, -q, hj, .inr short⟩ (le_trans ?_ low) (high.trans ?_)
  · exact zpow_le_zpow_right₀ one_le_two (by norm_num)
  · exact zpow_le_zpow_right₀ one_le_two (by norm_num)

end

theorem sqrtF_isSquareRoot (m : RMode) (c : Word) : IsSquareRoot m (f32Val c) (sqrtF m (f32Val c)).word := by
  cases hc : f32Val c with
  | nan => exact fNaN_word
  | inf g => cases g <;> [exact fInf_word false; exact fInvalid_word]
  | fin y =>
    have root (hn : y.n ≠ 0) (hs : y.s = false) : IsRoot m y.val (sqrtF m (.fin y)).word := by
      simpa [sqrtF, hn, hs] using sqrtExact_isRoot_val hc hn hs m
    refine ⟨fun h => ?_, fun hn hs => ?_, fun c' w hc' hws hn hs hv => (root hn hs).eq_of_code hc' hws hv, root⟩
    · simpa [sqrtF, h] using fZero_word y.s
    · simpa [sqrtF, hn, hs] using fInvalid_word

/-- A power of two that is the value of a code, and its exponent. -/
theorem zpow_bounds_of_f32Val {c : Word} {y : Exact} (hc : f32Val c = .fin y) {k : Int} (hv : y.val = 2 ^ k) :
    y.s = false ∧ y.n ≠ 0 ∧ -149 ≤ k ∧ k < 128 := by
  have hpos : (0 : ℚ) < y.val := hv ▸ zpow_pos two_pos k
  have hs : y.s = false := by
    by_contra hs
    rw [y.val_eq, if_pos (by simpa using hs)] at hpos
    linarith [y.mag_nonneg]
  have hn : y.n ≠ 0 := fun h => hpos.ne' ((Exact.val_eq_zero_iff (f32Val_proper c y hc)).2 h)
  have low := le_f32Val hc hn
  have high := f32Val_lt hc
  rw [← Exact.val_of_false hs, hv] at low high
  exact ⟨hs, hn, (zpow_le_zpow_iff_right₀ one_lt_two).1 low, (zpow_lt_zpow_iff_right₀ one_lt_two).1 high⟩

theorem rsqrtF_isReciprocalRoot (c : Word) : IsReciprocalRoot (f32Val c) (rsqrtF (f32Val c)).word := by
  cases hc : f32Val c with
  | nan => exact fNaN_word
  | inf g => cases g <;> [exact fZero_word false; exact fInvalid_word]
  | fin y =>
    have root (hn : y.n ≠ 0) (hs : y.s = false) : IsRoot .rn (1 / y.val) (rsqrtF (.fin y)).word := by
      simpa [rsqrtF, hn, hs] using sqrtExact_isRoot_inv hc hn hs
    refine ⟨fun h => ?_, fun hn hs => ?_, fun k hv => ?_, root⟩
    · simpa [rsqrtF, h] using fInf_word y.s
    · simpa [rsqrtF, hn, hs] using fInvalid_word
    · have four : (4 : ℚ) ^ k = 2 ^ (2 * k) := by rw [zpow_mul]; norm_num
      obtain ⟨hs, hn, low, high⟩ := zpow_bounds_of_f32Val hc (hv.trans four)
      obtain ⟨c', z, hc', hzs, hz⟩ := exists_f32Val false (isF32_two_zpow (q := -k) (by omega) (by omega))
      have hzv : z.val = 2 ^ (-k) := by rw [Exact.val_of_false hzs, hz]
      have square : 1 / y.val = z.val ^ 2 := by
        rw [hzv, hv, four, one_div, ← zpow_neg, mul_comm, ← neg_mul, zpow_mul]
        rfl
      rw [(root hn hs).eq_of_code hc' hzs square]
      exact ⟨rfl, z, hc', hzv⟩

/-! ### Powers and logarithms of two (R132) -/

/-- R132: `exp2`. -/
def IsPower (sat : Bool) (v : FVal) (r : IRes 32) : Prop :=
  match v with
  | .nan => r = nanWord
  | .inf g => r = if g then zeroWord false else infWord false
  | .fin y => (∀ k : Int, -149 ≤ k → k < 128 → y.val = k → IsExactResult (2 ^ k) r) ∧
      (128 ≤ y.val → r = if sat then ⟨0x7F7FFFFF#32, flagSAT ||| flagOVF ||| flagINX⟩ else ⟨0x7F800000#32, flagOVF ||| flagINX⟩) ∧
      ((∀ k : Int, y.val ≠ k) → r.fl.getLsbD 0 = true)

/-- What `exp2` gives from 128 on: the least power of two beyond the range, delivered. -/
theorem fExact_overflow (sat : Bool) : (fExact .rn sat ⟨false, 2 ^ 128, 1⟩).word =
    if sat then ⟨0x7F7FFFFF#32, flagSAT ||| flagOVF ||| flagINX⟩ else ⟨0x7F800000#32, flagOVF ||| flagINX⟩ := by
  cases sat <;> decide

theorem fExact_tiny_inexact (sat : Bool) : (fExact .rn sat ⟨false, 1, 2 ^ 200⟩).word.fl.getLsbD 0 = true := by
  cases sat <;> decide

theorem exp2F_isPower (sat : Bool) {v : FVal} (hv : v.Proper) : IsPower sat v (exp2F sat v).word := by
  cases v with
  | nan => exact fNaN_word
  | inf g => cases g <;> [exact fInf_word false; exact fZero_word false]
  | fin y =>
    have hd := hv y rfl
    have v128 : (Exact.mk false 128 1).val = 128 := by norm_num [Exact.val, Exact.num]
    have v200 : (Exact.mk true 200 1).val = -200 := by norm_num [Exact.val, Exact.num]
    have below : y.lt ⟨false, 128, 1⟩ = true ↔ y.val < 128 := by rw [Exact.lt_iff hd Nat.one_pos, v128]
    have tiny : y.lt ⟨true, 200, 1⟩ = true ↔ y.val < -200 := by rw [Exact.lt_iff hd Nat.one_pos, v200]
    unfold exp2F
    simp only [Bool.not_eq_true', Bool.eq_false_iff, ne_eq, below, tiny, ← Exact.floor_val]
    refine ⟨fun k low high hk => ?_, fun h => ?_, fun h => ?_⟩
    · have low' : (-149 : ℚ) ≤ k := by exact_mod_cast low
      have high' : (k : ℚ) < 128 := by exact_mod_cast high
      rw [if_neg (by rw [hk]; exact not_not.2 high'), if_neg (by rw [hk]; linarith), if_pos ((Exact.whole_iff hd).2 ⟨k, hk⟩), hk,
        Int.floor_intCast]
      have val : (Exact.dyadic false 1 k).mag = 2 ^ k := by rw [Exact.dyadic_mag, Nat.cast_one, one_mul]
      have := fExact_isExactResult .rn sat (Exact.dyadic_d_pos false 1 k) (val ▸ isF32_two_zpow low (by omega))
      rwa [Exact.val_of_false (Exact.dyadic_s ..), val] at this
    · rw [if_pos (not_lt.2 h)]
      exact fExact_overflow sat
    · rw [if_neg (mt (Exact.whole_iff hd).1 fun ⟨k, hk⟩ => h k hk)]
      split
      · rw [fExact_overflow]
        cases sat <;> decide
      · split
        · exact fExact_tiny_inexact sat
        · exact enclose_inexact sat _

/-- R132: `log2`. -/
def IsLogarithm (v : FVal) (r : IRes 32) : Prop :=
  match v with
  | .nan => r = nanWord
  | .inf g => r = if g then invalidWord else infWord false
  | .fin y => (y.n = 0 → r = infWord true) ∧ (y.n ≠ 0 → y.s = true → r = invalidWord) ∧ (∀ k : Int, y.val = 2 ^ k → IsExactResult k r) ∧
      (y.n ≠ 0 → y.s = false → (∀ k : Int, y.val ≠ 2 ^ k) → r.fl.getLsbD 0 = true)

/-- The exponent of a power of two. -/
theorem log2Ratio_eq {n d : Nat} (hn : 0 < n) (hd : 0 < d) {k : Int} (h : (n / d : ℚ) = 2 ^ k) : log2Ratio n d = k := by
  obtain ⟨low, high⟩ := log2Ratio_spec hn hd
  rw [h] at low high
  have := (zpow_le_zpow_iff_right₀ (one_lt_two (α := ℚ))).1 low
  have := (zpow_lt_zpow_iff_right₀ (one_lt_two (α := ℚ))).1 high
  omega

theorem log2F_isLogarithm (c : Word) : IsLogarithm (f32Val c) (log2F (f32Val c)).word := by
  cases hc : f32Val c with
  | nan => exact fNaN_word
  | inf g => cases g <;> [exact fInf_word false; exact fInvalid_word]
  | fin y =>
    have hd := f32Val_proper c y hc
    have power : (Exact.mk false y.n y.d).eqv (Exact.dyadic false 1 (log2Ratio y.n y.d)) = true ↔ y.mag = 2 ^ log2Ratio y.n y.d := by
      rw [Exact.eqv_iff (x := ⟨false, y.n, y.d⟩) hd (Exact.dyadic_d_pos ..), Exact.val_of_false rfl, Exact.val_of_false (Exact.dyadic_s ..),
        Exact.dyadic_mag, Nat.cast_one, one_mul]
      rfl
    unfold log2F
    dsimp only
    refine ⟨fun h => ?_, fun hn hs => ?_, fun k hv => ?_, fun hn hs hv => ?_⟩
    · rw [if_pos h, fInf_word]
    · rw [if_neg hn, if_pos hs, fInvalid_word]
    · obtain ⟨hs, hn, low, high⟩ := zpow_bounds_of_f32Val hc hv
      have hm : y.mag = 2 ^ k := by rw [← Exact.val_of_false hs, hv]
      have he : log2Ratio y.n y.d = k := log2Ratio_eq (Nat.pos_of_ne_zero hn) hd hm
      rw [if_neg hn, if_neg (by simp [hs]), if_pos (power.2 (he ▸ hm)), he]
      have small : IsF32 (Exact.ofInt k).mag := ⟨k.natAbs, 0, by omega, by norm_num, by norm_num, by simp [Exact.mag, Exact.ofInt]⟩
      have := fExact_isExactResult .rn false Nat.one_pos small
      rwa [Exact.ofInt_val] at this
    · rw [if_neg hn, if_neg (by simp [hs]), if_neg (mt power.1 fun h => hv _ (by rw [Exact.val_of_false hs]; exact h))]
      exact enclose_inexact false _

/-! ### Sines and cosines of multiples of π (R132) -/

/-- R132: `sinpi`. -/
def IsSine (v : FVal) (r : IRes 32) : Prop :=
  match v with
  | .nan => r = nanWord
  | .inf _ => r = invalidWord
  | .fin y => (∀ k : Int, y.val = k → r = zeroWord y.s) ∧
      (∀ k : Int, y.val = k + 1 / 2 → (k % 2 = 0 → r = oneWord false) ∧ (¬k % 2 = 0 → r = oneWord true)) ∧
      ((∀ k : Int, y.val ≠ k / 2) → r.fl.getLsbD 0 = true)

/-- R132: `cospi`. -/
def IsCosine (v : FVal) (r : IRes 32) : Prop :=
  match v with
  | .nan => r = nanWord
  | .inf _ => r = invalidWord
  | .fin y => (∀ k : Int, y.val = k → (k % 2 = 0 → r = oneWord false) ∧ (¬k % 2 = 0 → r = oneWord true)) ∧
      (∀ k : Int, y.val = k + 1 / 2 → r = zeroWord false) ∧ ((∀ k : Int, y.val ≠ k / 2) → r.fl.getLsbD 0 = true)

/-- The one of the sign of an odd number. -/
theorem oneWord_of_parity {k : Int} {b : Bool} (hb : b = true ↔ k % 2 = 1) :
    (k % 2 = 0 → oneWord b = oneWord false) ∧ (¬k % 2 = 0 → oneWord b = oneWord true) := by
  cases b
  · exact ⟨fun _ => rfl, fun h => absurd (hb.2 (by omega)) Bool.false_ne_true⟩
  · exact ⟨fun h => by have := hb.1 rfl; omega, fun _ => rfl⟩

/-- A whole number and a half is not whole. -/
theorem half_ne_whole {v : ℚ} {k : Int} (h : v = k + 1 / 2) : ¬∃ j : Int, v = j := by
  rintro ⟨j, hj⟩
  have : (2 * k + 1 : ℚ) = 2 * j := by linarith
  have : 2 * k + 1 = 2 * j := by exact_mod_cast this
  omega

theorem half_of_whole {v : ℚ} {k : Int} (h : v = k) : ∃ j : Int, v = j / 2 := ⟨2 * k, by rw [h]; push_cast; ring⟩

theorem half_of_half {v : ℚ} {k : Int} (h : v = k + 1 / 2) : ∃ j : Int, v = j / 2 := ⟨2 * k + 1, by rw [h]; push_cast; ring⟩

theorem sinpiF_isSine {v : FVal} (hv : v.Proper) : IsSine v (sinpiF v).word := by
  cases v with
  | nan => exact fNaN_word
  | inf g => exact fInvalid_word
  | fin y =>
    have hd := hv y rfl
    have whole := Exact.whole_iff hd
    have half := Exact.half_iff hd
    unfold sinpiF
    simp only [← Exact.floor_val]
    refine ⟨fun k hk => ?_, fun k hk => ?_, fun h => ?_⟩
    · rw [if_pos (whole.2 ⟨k, hk⟩), fZero_word]
    · have floor : ⌊y.val⌋ = k := by
        rw [hk, Int.floor_intCast_add]
        norm_num
      rw [if_neg (mt whole.1 (half_ne_whole hk)), if_pos (half.2 (half_of_half hk)), floor, fExact_one_word]
      exact oneWord_of_parity decide_eq_true_iff
    · have none : ¬∃ k : Int, y.val = k / 2 := fun ⟨k, hk⟩ => h k hk
      rw [if_neg (mt whole.1 fun ⟨k, hk⟩ => none (half_of_whole hk)), if_neg (mt half.1 none)]
      exact enclose_inexact false _

/-- The magnitude of a whole value has its parity. -/
theorem Exact.parity_of_whole {y : Exact} (hd : 0 < y.d) {k : Int} (hk : y.val = k) : y.n / y.d % 2 = 1 ↔ k % 2 = 1 := by
  have hmag : (y.n : ℚ) / y.d = (k.natAbs : Nat) := by
    rw [← Exact.mag, ← y.abs_val, hk, Nat.cast_natAbs, Int.cast_abs]
  have hn : y.n = k.natAbs * y.d := by
    rw [div_eq_iff (by positivity)] at hmag
    exact_mod_cast hmag
  rw [hn, Nat.mul_div_cancel _ hd]
  omega

theorem cospiF_isCosine {v : FVal} (hv : v.Proper) : IsCosine v (cospiF v).word := by
  cases v with
  | nan => exact fNaN_word
  | inf g => exact fInvalid_word
  | fin y =>
    have hd := hv y rfl
    have whole := Exact.whole_iff hd
    have half := Exact.half_iff hd
    unfold cospiF
    dsimp only
    refine ⟨fun k hk => ?_, fun k hk => ?_, fun h => ?_⟩
    · rw [if_pos (whole.2 ⟨k, hk⟩), fExact_one_word]
      exact oneWord_of_parity (decide_eq_true_iff.trans (Exact.parity_of_whole hd hk))
    · rw [if_neg (mt whole.1 (half_ne_whole hk)), if_pos (half.2 (half_of_half hk)), fZero_word]
    · have none : ¬∃ k : Int, y.val = k / 2 := fun ⟨k, hk⟩ => h k hk
      rw [if_neg (mt whole.1 fun ⟨k, hk⟩ => none (half_of_whole hk)), if_neg (mt half.1 none)]
      exact enclose_inexact false _

/-! ### The hyperbolic tangent (R132) -/

/-- R132: `tanh`. -/
def IsTangent (v : FVal) (r : IRes 32) : Prop :=
  match v with
  | .nan => r = nanWord
  | .inf g => r = oneWord g
  | .fin y => (y.n = 0 → r = zeroWord y.s) ∧ (y.n ≠ 0 → r.fl.getLsbD 0 = true) ∧ (16 ≤ |y.val| → r = ⟨(oneWord y.s).val, flagINX⟩)

/-- What `tanh` gives from 16 on: a value beside ±1, delivered. -/
theorem fExact_nearOne (g : Bool) : (fExact .rn false ⟨g, 2 ^ 40 - 1, 2 ^ 40⟩).word = ⟨(oneWord g).val, flagINX⟩ := by
  cases g <;> decide

theorem tanhF_isTangent {v : FVal} (hv : v.Proper) : IsTangent v (tanhF v).word := by
  cases v with
  | nan => exact fNaN_word
  | inf g => exact fExact_one_word g
  | fin y =>
    have hd : (0 : ℚ) < y.d := by exact_mod_cast hv y rfl
    have large : 16 * y.d ≤ y.n ↔ 16 ≤ |y.val| := by
      rw [y.abs_val, Exact.mag, le_div_iff₀ hd]
      norm_cast
    unfold tanhF
    simp only [large]
    refine ⟨fun h => ?_, fun hn => ?_, fun h => ?_⟩
    · rw [if_pos h, fZero_word]
    · rw [if_neg hn]
      split
      · rw [fExact_nearOne]
        show flagINX.getLsbD 0 = true
        decide
      · exact enclose_inexact false _
    · have hn : y.n ≠ 0 := fun h0 => by
        rw [(Exact.val_eq_zero_iff (hv y rfl)).2 h0, abs_zero] at h
        norm_num at h
      rw [if_neg hn, if_pos h, fExact_nearOne]

/-! ### The instructions -/

section
variable (s : State) (u : Bool) (h : Guard) (d a : Reg)

theorem exec_rcp : exec (.rcp u h d a) s = .next (s.aluF u h d 28 fun l => (rcpF s.grp.modf.sat (s.grp.fA l a)).word) := rfl
theorem exec_sqrt : exec (.sqrt u h d a) s = .next (s.aluF u h d 28 fun l => (sqrtF s.grp.mode (s.grp.fA l a)).word) := rfl
theorem exec_rsqrt : exec (.rsqrt u h d a) s = .next (s.aluF u h d 28 fun l => (rsqrtF (s.grp.fA l a)).word) := rfl
theorem exec_exp2 : exec (.exp2 u h d a) s = .next (s.aluF u h d 28 fun l => (exp2F s.grp.modf.sat (s.grp.fA l a)).word) := rfl
theorem exec_log2 : exec (.log2 u h d a) s = .next (s.aluF u h d 28 fun l => (log2F (s.grp.fA l a)).word) := rfl
theorem exec_sinpi : exec (.sinpi u h d a) s = .next (s.aluF u h d 28 fun l => (sinpiF (s.grp.fA l a)).word) := rfl
theorem exec_cospi : exec (.cospi u h d a) s = .next (s.aluF u h d 28 fun l => (cospiF (s.grp.fA l a)).word) := rfl
theorem exec_tanh : exec (.tanh u h d a) s = .next (s.aluF u h d 28 fun l => (tanhF (s.grp.fA l a)).word) := rfl

/-- The sine of an operand goes to the low word of the pair, its cosine to the high word. -/
def sincosRes (x : FVal) : IRes 64 := ⟨(cospiF x).word.val ++ (sinpiF x).word.val, (sinpiF x).word.fl ||| (cospiF x).word.fl⟩

theorem exec_sincospi : exec (.sincospi u h d a) s = .next (s.alu64F u h d 28 fun l => sincosRes (s.grp.fA l a)) := rfl

/-- R130: the special functions complete in every state and on every operand. -/
theorem specialFunctions_complete : ∀ i ∈ [Instr.rcp u h d a, .rsqrt u h d a, .sqrt u h d a, .exp2 u h d a, .log2 u h d a, .sinpi u h d a,
    .cospi u h d a, .sincospi u h d a, .tanh u h d a], ∃ t, exec i s = .next t ∧ OnlyGroup s t ∧ t.grp.pc = s.grp.complete.pc := by
  simp only [List.forall_mem_cons, List.not_mem_nil, false_imp_iff, implies_true, and_true]
  exact ⟨(delivers_of_aluF 28 (exec_rcp s u h d a)).completes, (delivers_of_aluF 28 (exec_rsqrt s u h d a)).completes,
    (delivers_of_aluF 28 (exec_sqrt s u h d a)).completes, (delivers_of_aluF 28 (exec_exp2 s u h d a)).completes,
    (delivers_of_aluF 28 (exec_log2 s u h d a)).completes, (delivers_of_aluF 28 (exec_sinpi s u h d a)).completes,
    (delivers_of_aluF 28 (exec_cospi s u h d a)).completes, (deliversPair_of_alu64F 28 (exec_sincospi s u h d a)).completes,
    (delivers_of_aluF 28 (exec_tanh s u h d a)).completes⟩

end

/-- Settles O16: each instruction delivers its function of the operand's value, and the functions give what R132 says. -/
theorem specialFunctions : Obligations.SpecialFunctions := by
  unfold Obligations.SpecialFunctions
  intro s u h d a
  have proper (l : Lane) : (s.grp.fA l a).Proper := f32Val_proper _
  exact ⟨specialFunctions_complete s u h d a,
    deliversSuch_of_aluF 28 (exec_rcp s u h d a) fun l => rcpF_isReciprocal _ _,
    deliversSuch_of_aluF 28 (exec_sqrt s u h d a) fun l => sqrtF_isSquareRoot _ _,
    deliversSuch_of_aluF 28 (exec_rsqrt s u h d a) fun l => rsqrtF_isReciprocalRoot _,
    deliversSuch_of_aluF 28 (exec_exp2 s u h d a) fun l => exp2F_isPower _ (proper l),
    deliversSuch_of_aluF 28 (exec_log2 s u h d a) fun l => log2F_isLogarithm _,
    deliversSuch_of_aluF 28 (exec_sinpi s u h d a) fun l => sinpiF_isSine (proper l),
    deliversSuch_of_aluF 28 (exec_cospi s u h d a) fun l => cospiF_isCosine (proper l),
    deliversSuch_of_aluF 28 (exec_tanh s u h d a) fun l => tanhF_isTangent (proper l),
    fun l => (sinpiF (s.grp.fA l a)).word, fun l => (cospiF (s.grp.fA l a)).word,
    fun l => ⟨sinpiF_isSine (proper l), cospiF_isCosine (proper l)⟩, deliversPair_of_alu64F 28 (exec_sincospi s u h d a)⟩

end Sys2Proof.Machine
end


section
/-! `yield`, and the slots of a lane that their owner lends or asks about (R145, R150, R175 to R177). -/

namespace Sys2Proof.Machine

/-! ### The owned slots of a lane (R145) -/

/-- A mask built up slot by slot holds the slots that satisfy the condition. -/
theorem foldl_twoPow_getLsbD (f : Nat → Prop) [DecidablePred f] (is : List Nat) (m : BitVec 8) {i : Nat} (hi : i < 8) :
    (is.foldl (fun m i => if f i then m ||| BitVec.twoPow 8 i else m) m).getLsbD i = (m.getLsbD i || decide (i ∈ is ∧ f i)) := by
  induction is generalizing m with
  | nil => simp
  | cons j is ih =>
    rw [List.foldl_cons, ih]
    by_cases hj : f j
    · rw [if_pos hj, BitVec.getLsbD_or, BitVec.getLsbD_twoPow]
      by_cases e : j = i
      · subst e
        simp [hi, hj]
      · simp [e, Ne.symm e]
    · rw [if_neg hj]
      by_cases e : i = j
      · subst e
        simp [hj]
      · simp [e]

theorem State.ownMask_getLsbD (s : State) (g : Group) {i : Nat} (hi : i < 8) :
    (s.ownMask g).getLsbD i = decide (s.slotOwner (s.groupCore g) g.lane i = g.owner) := by
  unfold State.ownMask
  rw [foldl_twoPow_getLsbD _ _ _ hi]
  simp [hi]

theorem rotaKey_inj {core lane i j : Nat} : rotaKey core lane i = rotaKey core lane j ↔ i = j := by
  unfold rotaKey
  omega

/-! ### Releases (R150, R176) -/

/-- The releases of an owner after those of the chosen slots have one more run. -/
def releasesWith (key : Nat → Nat) (chosen : Nat → Bool) (r : Nat × Nat) (is : List Nat) (m : FMap (List (Nat × Nat))) : FMap (List (Nat × Nat)) :=
  is.foldl (fun m i => if chosen i then mapPut m (key i) (mapGet [] m (key i) ++ [r]) else m) m

theorem releasesWith_get {key : Nat → Nat} (inj : ∀ i j, key i = key j → i = j) (chosen : Nat → Bool) (r : Nat × Nat) {is : List Nat} (hd : is.Nodup)
    (m : FMap (List (Nat × Nat))) (i : Nat) : mapGet [] (releasesWith key chosen r is m) (key i) =
      if i ∈ is ∧ chosen i = true then mapGet [] m (key i) ++ [r] else mapGet [] m (key i) := by
  unfold releasesWith
  induction is generalizing m with
  | nil => simp
  | cons j is ih =>
    obtain ⟨hj, hd⟩ := List.nodup_cons.1 hd
    rw [List.foldl_cons, ih hd]
    by_cases e : i = j
    · subst e
      by_cases hc : chosen i = true <;> simp [hj, hc]
    · have ne : key i ≠ key j := fun h => e (inj i j h)
      by_cases hc : chosen j = true <;> simp [e, hc, mapGet_mapPut_ne _ _ _ ne]

/-! ### The instructions (R175 to R177) -/

theorem exec_yield_off {s : State} {h : Guard} (hq : s.grp.guardQ h = false) : Passes (.yield h) s := by
  show execYield h s = _
  simp [execYield, hq, State.finish]

theorem Group.complete_yieldFor (g : Group) (ys : List (Nat × Bool)) : Group.complete { g with yieldFor := ys } = { g.complete with yieldFor := ys } :=
  (Group.complete_of_eq g { g with yieldFor := ys } rfl rfl rfl).trans (congrArg (fun x : Group => { x with yieldFor := ys }) g.complete_eta.symm)

theorem exec_yield {s : State} {h : Guard} (hq : s.grp.guardQ h = true) :
    exec (.yield h) s = .next (s.setGrp { s.grp.complete with yieldFor := s.othersReady.map (fun k => (k, false)) }) := by
  show execYield h s = _
  unfold execYield
  dsimp only
  rw [if_pos hq, State.finish, Group.complete_yieldFor]

theorem exec_slotRel_off {s : State} {h : Guard} (a : Reg) (b : BSel) (hq : s.grp.guardQ h = false) : Passes (.slotRel h a b) s := by
  show execSlotRel h a b s = _
  simp [execSlotRel, hq, State.finish]

/-- A release whose horizon ends before the next period publishes nothing. -/
theorem exec_slotRel_short {s : State} {h : Guard} {a : Reg} (b : BSel) (hs : s.win + (s.grp.getG a).toNat ≤ nextPeriod s.win) :
    Passes (.slotRel h a b) s := by
  show execSlotRel h a b s = _
  simp [execSlotRel, hs, State.finish]

/-- R176: `slot.rel` gives each owned slot of its mask one more run of periods. -/
theorem exec_slotRel {s : State} {h : Guard} {a : Reg} (b : BSel) (hq : s.grp.guardQ h = true) (hs : nextPeriod s.win < s.win + (s.grp.getG a).toNat) :
    exec (.slotRel h a b) s = .next ((s.modOwner s.grp.owner fun o => { o with
      releases := releasesWith (rotaKey s.grp.core s.grp.lane) (fun i => ((s.grp.opG b).extractLsb' 0 8 &&& s.ownMask s.grp).getLsbD i)
        (nextPeriod s.win, s.win + (s.grp.getG a).toNat) (List.range 8) o.releases }).finish s.grp) := by
  show execSlotRel h a b s = _
  unfold execSlotRel
  dsimp only
  rw [if_neg (by simp [hq, Nat.not_le.2 hs])]
  rfl

theorem State.modOwner_ownerAt (s : State) (o : Nat) (f : Owner → Owner) (k : Nat) :
    (s.modOwner o f).ownerAt k = if k = o then f (s.ownerAt o) else s.ownerAt k :=
  s.setOwner_ownerAt _ _ _

theorem State.finish_ownerAt (s : State) (g : Group) (o : Nat) : (s.finish g).ownerAt o = s.ownerAt o := rfl

theorem slotRel_effect {s : State} {h : Guard} (a : Reg) (b : BSel) (hq : s.grp.guardQ h = true) :
    ∃ t, exec (.slotRel h a b) s = .next t ∧ t.groups = (s.setGrp s.grp.complete).groups ∧ t.mem = s.mem ∧
      (∀ o, o ≠ s.grp.owner → t.ownerAt o = s.ownerAt o) ∧
      ∀ i, i < 8 → mapGet [] (t.ownerAt s.grp.owner).releases (rotaKey s.grp.core s.grp.lane i) =
        if nextPeriod s.win < s.win + (s.grp.getG a).toNat ∧ (s.grp.opG b).getLsbD i = true ∧ s.slotOwner (s.groupCore s.grp) s.grp.lane i = s.grp.owner
        then mapGet [] (s.ownerAt s.grp.owner).releases (rotaKey s.grp.core s.grp.lane i) ++ [(nextPeriod s.win, s.win + (s.grp.getG a).toNat)]
        else mapGet [] (s.ownerAt s.grp.owner).releases (rotaKey s.grp.core s.grp.lane i) := by
  rcases Nat.lt_or_ge (nextPeriod s.win) (s.win + (s.grp.getG a).toNat) with hs | hs
  · refine ⟨_, exec_slotRel b hq hs, rfl, rfl, fun o ho => ?_, fun i hi => ?_⟩
    · rw [State.finish_ownerAt, State.modOwner_ownerAt, if_neg ho]
    · rw [State.finish_ownerAt, State.modOwner_ownerAt, if_pos rfl, releasesWith_get (fun i j => rotaKey_inj.1) _ _ List.nodup_range]
      simp only [BitVec.getLsbD_and, BitVec.getLsbD_extractLsb', s.ownMask_getLsbD s.grp hi, hs, List.mem_range, hi, true_and, decide_true, Bool.true_and,
        Nat.zero_add, Bool.and_eq_true, decide_eq_true_eq]
  · refine ⟨_, exec_slotRel_short b hs, rfl, rfl, fun o _ => rfl, fun i _ => ?_⟩
    rw [if_neg fun h => Nat.not_lt.2 hs h.1]
    rfl

/-- R177: `slot.q` answers with the end of the releases of an owned slot, and all ones for another's. -/
theorem exec_slotQ (s : State) (h : Guard) (d : Reg) (b : BSel) : ∃ x : Int, ComputesPair (.slotQ h d b) s true h d (fun _ => x) ∧
    x = if s.slotOwner (s.groupCore s.grp) s.grp.lane ((s.grp.opB none b).toNat % 8) = s.grp.owner
      then (releaseEnd (mapGet [] (s.ownerAt s.grp.owner).releases (rotaKey s.grp.core s.grp.lane ((s.grp.opB none b).toNat % 8))) s.win : Int) else 2 ^ 64 - 1 := by
  refine ⟨_, ⟨_, rfl, s.alu64_wrote true h d 4 _, fun l hl => (s.alu64_grp_rd true h d 4 _ hl).trans ?_⟩, rfl⟩
  show (if (s.ownMask s.grp).getLsbD ((s.grp.opB none b).toNat % 8) = true then
    BitVec.ofNat 64 (releaseEnd (mapGet [] (s.ownerAt s.grp.owner).releases (rotaKey s.grp.core s.grp.lane ((s.grp.opB none b).toNat % 8))) s.win) else _) = _
  rw [s.ownMask_getLsbD s.grp (Nat.mod_lt _ (by decide))]
  split <;> simp_all

/-- Settles O29: `yield` notes the others that are ready, `slot.rel` adds a run to each owned slot of its mask, `slot.q` reads the runs. -/
theorem yieldAndSlots : Obligations.YieldAndSlots := by
  unfold Obligations.YieldAndSlots
  intro s h d a b first stop key rel
  obtain ⟨x, hx, e⟩ := exec_slotQ s h d b
  refine ⟨fun hq => ⟨exec_yield_off hq, exec_slotRel_off a b hq⟩, exec_yield, slotRel_effect a b, fun ho => ?_, fun ho => ?_⟩
  · rw [if_neg ho] at e
    exact e ▸ hx
  · rw [if_pos ho] at e
    exact e ▸ hx

end Sys2Proof.Machine
end


section
/-! Branches on which threads disagree (R137, R140), and joins (R142, R173, R174). -/

namespace Sys2Proof.Machine

/-! ### Branches on which threads disagree -/

theorem Group.active_subset {g : Group} {h : Guard} {t : Nat} (ht : (g.active h).getLsbD t = true) : g.running.getLsbD t = true := by
  rw [g.active_getLsbD] at ht
  rw [g.running_getLsbD]
  simp only [Bool.and_eq_true] at ht ⊢
  exact ⟨ht.1, ht.2.1⟩

theorem Group.active_eq_running {g : Group} {h : Guard} (hr : g.running &&& ~~~g.active h = 0#32) : g.active h = g.running := by
  refine BitVec.eq_of_getLsbD_eq fun t ht => ?_
  have hz : (g.running &&& ~~~g.active h).getLsbD t = false := by rw [hr]; simp
  rw [BitVec.getLsbD_and, BitVec.getLsbD_not] at hz
  cases ha : (g.active h).getLsbD t with
  | true => exact (Group.active_subset ha).symm
  | false =>
    rw [ha] at hz
    simpa only [ht, decide_true, Bool.not_false, Bool.and_true] using hz.symm

/-- R137: the group after a branch on which its threads disagree: those of the lower next address run on, the others are Parked with theirs. -/
def Group.fork (g : Group) (taken : BitVec 32) (x : PcWord) : Group :=
  let fall := g.complete.pc
  { g.complete with
    pc := if x < fall then x else fall
    threads := if x = fall then g.threads else
      setStates g.threads (if x < fall then g.running &&& ~~~taken else taken) (fun t => { t with st := .parked, resume := if x < fall then fall else x }) }

/-- A loop of the group holds the branch and not its target (R140). -/
def Group.leavesLoop (g : Group) (x : PcWord) : Bool := (List.range g.n).any fun k => (g.loop k).contains g.pc && !(g.loop k).contains x

theorem Group.leavesLoop_iff (g : Group) (x : PcWord) : g.leavesLoop x = true ↔
    ∃ k, k < g.n ∧ (g.loop k).ls ≤ g.pc ∧ g.pc < (g.loop k).le ∧ ¬((g.loop k).ls ≤ x ∧ x < (g.loop k).le) := by
  unfold Group.leavesLoop
  rw [List.any_eq_true]
  simp only [List.mem_range, popLoops_cond, and_assoc]

section
variable {s : State} {x : Dword} (taken : BitVec 32) (ht : targetTrap s.grp x = none)
include ht

theorem State.diverge_next (hx : x.setWidth 56 = s.grp.pc + 4) : s.diverge taken x = s.jump x := by
  unfold State.diverge
  dsimp only
  rw [ht]
  dsimp only
  rw [← BitVec.setWidth_eq_extractLsb' (by omega), if_pos hx]

theorem State.diverge_leaving (hx : x.setWidth 56 ≠ s.grp.pc + 4) (hl : s.grp.leavesLoop (x.setWidth 56) = true) :
    s.diverge taken x = s.trap (syncTrap s.grp.running 2 0 x) := by
  unfold State.diverge
  dsimp only
  rw [ht]
  dsimp only
  rw [← BitVec.setWidth_eq_extractLsb' (by omega), if_neg hx]
  exact if_pos hl

theorem State.diverge_forks (hx : x.setWidth 56 ≠ s.grp.pc + 4) (hl : s.grp.leavesLoop (x.setWidth 56) = false)
    (hs : s.grp.running &&& ~~~taken ≠ taken) : s.diverge taken x = s.setGrp (s.grp.fork taken (x.setWidth 56)) := by
  unfold State.diverge
  dsimp only
  rw [ht]
  dsimp only
  rw [← BitVec.setWidth_eq_extractLsb' (by omega), if_neg hx]
  refine (if_neg (by rw [Bool.not_eq_true]; exact hl)).trans ?_
  generalize x.setWidth 56 = y
  unfold Group.fork Group.goto
  have threads : s.grp.complete.threads = s.grp.threads := by rw [s.grp.complete_eta]
  have hint : s.grp.complete.hint = none := by rw [s.grp.complete_eta]
  dsimp only
  rw [threads]
  by_cases he : y = s.grp.complete.pc
  · rw [if_pos he, if_pos he, if_neg (by rw [he]; exact BitVec.lt_irrefl _), ← threads]
  · rw [if_neg he, if_neg he]
    by_cases hb : y < s.grp.complete.pc
    · simp only [if_pos hb, if_true, ← hint]
    · simp only [if_neg hb, if_neg hs]

end

theorem Group.fork_thread (g : Group) (h : Guard) (x : PcWord) {j : Nat} (hj : j < 32) : (g.fork (g.active h) x).thread j =
    if x ≠ g.complete.pc ∧ g.running.getLsbD j = true ∧ (g.active h).getLsbD j = !decide (x < g.complete.pc)
    then { g.thread j with st := .parked, resume := if x < g.complete.pc then g.complete.pc else x } else g.thread j := by
  by_cases he : x = g.complete.pc
  · rw [if_neg fun h => h.1 he]
    show mapGet {} (if x = g.complete.pc then g.threads else _) j = _
    rw [if_pos he]
    rfl
  · show mapGet {} (if x = g.complete.pc then g.threads else _) j = _
    rw [if_neg he, setStates_get]
    have parked : (j < 32 ∧ (if x < g.complete.pc then g.running &&& ~~~g.active h else g.active h).getLsbD j = true) ↔
        x ≠ g.complete.pc ∧ g.running.getLsbD j = true ∧ (g.active h).getLsbD j = !decide (x < g.complete.pc) := by
      by_cases hb : x < g.complete.pc
      · simp [hb, hj, he]
      · simp only [hb, hj, he, if_false, true_and, ne_eq, not_false_eq_true, decide_false, Bool.not_false, iff_and_self]
        exact Group.active_subset
    simp only [parked]
    rfl

/-- Settles O22: `diverge` jumps as one, traps or forks the group. -/
theorem divergedBranch : Obligations.DivergedBranch := by
  unfold Obligations.DivergedBranch
  intro s h f target x fall taken ha hr h56 h4
  have ht : targetTrap s.grp target = none := targetTrap_of_good _ h56 h4
  have run : exec (.bra false h f) s = .next (s.diverge taken target) := by
    rw [exec_bra_thread f ha, if_neg fun e => hr (Group.active_eq_running e)]
  refine ⟨fun hx => ?_, fun hx inside => ?_, fun hx leaves => ?_⟩
  · exact jumpsTo_of_jump (run.trans (by rw [State.diverge_next taken ht hx]))
  · have stays : s.grp.leavesLoop x = false := by
      rw [Bool.eq_false_iff, ne_eq, Group.leavesLoop_iff]
      exact fun ⟨k, hk, hl, hu, hn⟩ => hn (inside k hk hl hu)
    have apart : s.grp.running &&& ~~~taken ≠ taken := fun e => ha (by
      refine BitVec.eq_of_getLsbD_eq fun t _ => ?_
      have := congrArg (fun m : BitVec 32 => m.getLsbD t) e
      simp only [BitVec.getLsbD_and, BitVec.getLsbD_not] at this
      show taken.getLsbD t = _
      cases htk : taken.getLsbD t <;> simp_all)
    refine ⟨_, run.trans (by rw [State.diverge_forks taken ht hx stays apart]), s.setGrp_onlyGroup _, ?_⟩
    rw [State.setGrp_grp]
    exact ⟨rfl, fun j hj => s.grp.fork_thread h x hj, rfl⟩
  · exact run.trans (by rw [State.diverge_leaving taken ht hx ((Group.leavesLoop_iff _ _).2 leaves)])

/-! ### The lowest resume address -/

/-- One more thread's address, against the lowest so far. -/
def lowerOf (m : FMap Thread) (r : Option PcWord) (t : Nat) : Option PcWord :=
  match r with
  | none => some (mapGet {} m t).resume
  | some b => some (if (mapGet {} m t).resume < b then (mapGet {} m t).resume else b)

theorem foldl_lowerOf {m : FMap Thread} {x : PcWord} {ts : List Nat} {r : Option PcWord} (least : ∀ t ∈ ts, x ≤ (mapGet {} m t).resume)
    (low : ∀ b, r = some b → x ≤ b) (reached : (∃ t ∈ ts, (mapGet {} m t).resume = x) ∨ r = some x) : ts.foldl (lowerOf m) r = some x := by
  induction ts generalizing r with
  | nil => simpa using reached
  | cons t ts ih =>
    have lt := least t List.mem_cons_self
    refine ih (fun u hu => least u (List.mem_cons_of_mem _ hu)) (fun b hb => ?_) ?_
    · cases r with
      | none => exact Option.some.inj hb ▸ lt
      | some c =>
        have := low c rfl
        obtain rfl := Option.some.inj hb
        split
        · exact lt
        · exact this
    · rcases reached with ⟨u, hu, e⟩ | rfl
      · rcases List.mem_cons.1 hu with rfl | hu
        · right
          cases r with
          | none => exact congrArg some e
          | some c =>
            have := low c rfl
            refine congrArg some ?_
            rw [e]
            split
            · rfl
            · exact BitVec.le_antisymm (BitVec.not_lt.1 ‹_›) this
        · exact .inl ⟨u, hu, e⟩
      · exact .inr (congrArg some (if_neg (BitVec.not_lt.2 lt)))

theorem lowestResume_eq_some {m : FMap Thread} {set : BitVec 32} {x : PcWord} (reached : ∃ t, t < 32 ∧ set.getLsbD t = true ∧ (mapGet {} m t).resume = x)
    (least : ∀ t, t < 32 → set.getLsbD t = true → x ≤ (mapGet {} m t).resume) : lowestResume m set = some x := by
  obtain ⟨t, ht, hs, e⟩ := reached
  exact foldl_lowerOf (fun u hu => least u (mem_bitsOf.1 hu).1 (mem_bitsOf.1 hu).2) nofun (.inl ⟨t, mem_bitsOf.2 ⟨ht, hs⟩, e⟩)

/-- A set with a member has a lowest resume address. -/
theorem exists_lowest (m : FMap Thread) {set : BitVec 32} (h : set ≠ 0#32) : ∃ x, (∃ t, t < 32 ∧ set.getLsbD t = true ∧ (mapGet {} m t).resume = x) ∧
    ∀ t, t < 32 → set.getLsbD t = true → x ≤ (mapGet {} m t).resume := by
  have some_ : (bitsOf set).toFinset.Nonempty := by
    by_contra hn
    refine h (BitVec.eq_of_getLsbD_eq fun t ht => ?_)
    rw [BitVec.getLsbD_zero, Bool.eq_false_iff]
    exact fun hs => hn ⟨t, List.mem_toFinset.2 (mem_bitsOf.2 ⟨ht, hs⟩)⟩
  obtain ⟨t, ht, least⟩ := Finset.exists_min_image _ (fun t => (mapGet ({} : Thread) m t).resume.toNat) some_
  obtain ⟨ht, hs⟩ := mem_bitsOf.1 (List.mem_toFinset.1 ht)
  exact ⟨_, ⟨t, ht, hs, rfl⟩, fun u hu hu' => BitVec.le_def.2 (least u (List.mem_toFinset.2 (mem_bitsOf.2 ⟨hu, hu'⟩)))⟩

/-! ### Selection (R138) -/

theorem mapPut_mapPut {α : Type} (m : FMap α) (k : Nat) (v w : α) : mapPut (mapPut m k v) k w = mapPut m k w := by
  induction m with
  | nil => simp [mapPut]
  | cons p m ih =>
    obtain ⟨j, u⟩ := p
    by_cases h : k < j
    · simp [mapPut, h]
    · by_cases e : j = k
      · simp [mapPut, e]
      · simp [mapPut, h, e, ih]

theorem State.setGrp_setGrp (s : State) (g g' : Group) : (s.setGrp g).setGrp g' = s.setGrp g' := by
  unfold State.setGrp
  dsimp only
  rw [mapPut_mapPut]

/-- The group in which the threads of a set run from an address. -/
def Group.runAt (g : Group) (set : BitVec 32) (x : PcWord) : Group :=
  { g with threads := setStates g.threads set (fun t => { t with st := .running }), pc := x }

/-- The threads of a set that are to resume at an address. -/
def Group.resuming (g : Group) (set : BitVec 32) (x : PcWord) : BitVec 32 := maskOf fun t => set.getLsbD t && decide ((g.thread t).resume = x)

theorem Group.resuming_getLsbD (g : Group) (set : BitVec 32) (x : PcWord) {t : Nat} (ht : t < 32) :
    (g.resuming set x).getLsbD t = true ↔ set.getLsbD t = true ∧ (g.thread t).resume = x := by
  unfold Group.resuming
  rw [maskOf_getLsbD]
  simp [ht]

theorem Group.runAt_thread (g : Group) (set : BitVec 32) (x : PcWord) {t : Nat} (ht : t < 32) :
    (g.runAt set x).thread t = if set.getLsbD t = true then { g.thread t with st := .running } else g.thread t := by
  refine (setStates_get g.threads set (fun t => { t with st := .running }) t).trans ?_
  simp only [ht, true_and]
  rfl

/-- The Parked threads of a group. -/
def Group.parked (g : Group) : BitVec 32 := g.stateMask fun x => decide (x = .parked)

theorem Group.parked_getLsbD (g : Group) {t : Nat} (ht : t < 32) : g.parked.getLsbD t = true ↔ (g.thread t).st = .parked := by
  unfold Group.parked
  rw [g.stateMask_getLsbD]
  simp [ht]

theorem State.select_of_running {s : State} (h : s.grp.running ≠ 0#32) : s.select = s := if_pos (.inl h)

theorem State.select_parked {s : State} {x : PcWord} (hr : s.grp.running = 0#32) (he : s.grp.isEnded = false)
    (hx : lowestResume s.grp.threads s.grp.parked = some x) : s.select = s.setGrp (s.grp.runAt (s.grp.resuming s.grp.parked x) x) := by
  unfold State.select
  dsimp only
  rw [if_neg (by simp [hr, he])]
  split
  next a ha =>
    obtain rfl := Option.some.inj (hx.symm.trans ha)
    rfl
  next hn => exact absurd (hx.symm.trans hn) nofun

/-! ### Arming (R173) -/

theorem Group.complete_joins (g : Group) (m : FMap JoinReg) : Group.complete { g with joins := m } = { g.complete with joins := m } :=
  (Group.complete_of_eq g { g with joins := m } rfl rfl rfl).trans (congrArg (fun x : Group => { x with joins := m }) g.complete_eta.symm)

theorem State.arm_free {s : State} {k : Nat} (mask : BitVec 32) (hj : (mapGet {} s.grp.joins k).armed = false ∨ (mapGet {} s.grp.joins k).arrived = 0#32) :
    s.arm k mask = s.setGrp { s.grp.complete with
      joins := mapSet {} s.grp.joins k ⟨decide (mask &&& s.grp.notEnded ≠ 0#32), mask &&& s.grp.notEnded, 0#32⟩ } := by
  unfold State.arm
  dsimp only
  have free : ¬((mapGet {} s.grp.joins k).armed = true ∧ (mapGet {} s.grp.joins k).arrived ≠ 0#32) := fun ⟨ha, hn⟩ =>
    hj.elim (fun h => absurd (ha.symm.trans h) nofun) hn
  rw [if_neg free, State.finish, Group.complete_joins]

section
variable {s : State} {h : Guard} (k : BitVec 3) (b : BSel)

theorem exec_joinArm (hq : s.grp.guardQ h = true) : exec (.joinArm h k b) s = .next (s.arm k.toNat (s.grp.opB none b)) := by
  show execJoinArm h k b s = _
  rw [execJoinArm, if_pos hq]
  rfl

theorem exec_joinArmRun (hq : s.grp.guardQ h = true) : exec (.joinArmRun h k b) s = .next (s.arm k.toNat (s.grp.opB none b &&& s.grp.running)) := by
  show execJoinArmRun h k b s = _
  rw [execJoinArmRun, if_pos hq]
  rfl

theorem exec_joinWait (hq : s.grp.guardQ h = true) : exec (.joinWait h k) s = .next (s.arrive k) := by
  show execJoinWait h k s = _
  rw [execJoinWait, if_pos hq]

theorem exec_join_off (hq : s.grp.guardQ h = false) : Passes (.joinArm h k b) s ∧ Passes (.joinArmRun h k b) s ∧ Passes (.joinWait h k) s := by
  refine ⟨show execJoinArm h k b s = _ from ?_, show execJoinArmRun h k b s = _ from ?_, show execJoinWait h k s = _ from ?_⟩
  · simp [execJoinArm, hq, State.finish]
  · simp [execJoinArmRun, hq, State.finish]
  · simp [execJoinWait, hq, State.finish]

end

/-! ### Arriving (R142, R174) -/

/-- The group whose running threads have joined at k. -/
def Group.arrivedAt (g : Group) (k : BitVec 3) : Group :=
  { g with
    threads := setStates g.threads g.running (fun t => { t with st := .joined k, resume := g.pc + 4 })
    joins := mapSet {} g.joins k.toNat { mapGet {} g.joins k.toNat with arrived := (mapGet {} g.joins k.toNat).arrived ||| g.running } }

theorem Group.arrivedAt_thread (g : Group) (k : BitVec 3) {y : Nat} (hy : y < 32) : (g.arrivedAt k).thread y =
    if g.running.getLsbD y = true then { g.thread y with st := .joined k, resume := g.pc + 4 } else g.thread y := by
  refine (setStates_get g.threads g.running (fun t => { t with st := .joined k, resume := g.pc + 4 }) y).trans ?_
  simp only [hy, true_and]
  rfl

theorem Group.arrivedAt_join (g : Group) (k : BitVec 3) : mapGet {} (g.arrivedAt k).joins k.toNat =
    { mapGet {} g.joins k.toNat with arrived := (mapGet {} g.joins k.toNat).arrived ||| g.running } := mapGet_mapSet_same _ _ _ _

theorem Group.arrivedAt_running (g : Group) (k : BitVec 3) : (g.arrivedAt k).running = 0#32 := by
  refine BitVec.eq_of_getLsbD_eq fun y hy => ?_
  rw [Group.running_getLsbD, g.arrivedAt_thread k hy]
  cases hr : g.running.getLsbD y with
  | true => simp [TState.isRunning]
  | false =>
    rw [g.running_getLsbD] at hr
    simpa [hy] using hr

/-- What an arrival that the join expects comes to: the threads join, histories are merged where that releases them, and the group goes on or another
set is selected. -/
def State.afterArrival (s : State) (k : BitVec 3) (here : PcWord) : State :=
  if (s.grp.checkRelease k.toNat).running ≠ 0#32 ∧ (s.grp.checkRelease k.toNat).pc = here + 4 then s.finish { s.grp.checkRelease k.toNat with pc := here }
  else State.select (s.setGrp { s.grp.checkRelease k.toNat with hint := none })

theorem State.arrive_expected {s : State} {k : BitVec 3} (ha : (mapGet {} s.grp.joins k.toNat).armed = true)
    (he : s.grp.running &&& ~~~(mapGet {} s.grp.joins k.toNat).expect = 0#32) : s.arrive k =
      (if (s.grp.arrivedAt k).releaseSet k.toNat = 0#32 then s.setGrp (s.grp.arrivedAt k)
        else (s.setGrp (s.grp.arrivedAt k)).mergeHist s.cur ((s.grp.arrivedAt k).releaseSet k.toNat)).afterArrival k s.grp.pc := by
  unfold State.arrive
  dsimp only
  rw [if_neg fun h => ne_false_of_eq_true ha h, if_neg (not_not.2 he)]
  rfl

theorem State.arrive_disarmed {s : State} {k : BitVec 3} (ha : (mapGet {} s.grp.joins k.toNat).armed = false) : s.arrive k = s.finish s.grp := if_pos ha

/-! ### An arrival that leaves others outstanding -/

theorem Group.checkRelease_outstanding {g : Group} {k : Nat} (he : (mapGet {} g.joins k).expect ≠ 0#32)
    (hr : (mapGet {} g.joins k).arrived ≠ (mapGet {} g.joins k).expect) : g.checkRelease k = g := by
  by_cases ha : (mapGet {} g.joins k).armed = false
  · exact if_pos ha
  · exact (if_neg ha).trans ((if_neg he).trans (if_neg hr))

theorem Group.arrivedAt_isEnded {g : Group} (k : BitVec 3) (run : g.running ≠ 0#32) : (g.arrivedAt k).isEnded = false := by
  rw [Bool.eq_false_iff, ne_eq, Group.isEnded_iff]
  intro all
  refine run (BitVec.eq_of_getLsbD_eq fun y hy => ?_)
  rw [BitVec.getLsbD_zero, Bool.eq_false_iff]
  intro hr
  have := all y hy
  rw [Group.arrivedAt_thread _ _ hy, if_pos hr] at this
  cases this

/-- R142: the running threads have joined, and the Parked threads of the lowest resume address run. -/
theorem State.arrive_outstanding {s : State} {k : BitVec 3} (armed : (mapGet {} s.grp.joins k.toNat).armed = true)
    (some_ : (mapGet {} s.grp.joins k.toNat).expect ≠ 0#32) (run : s.grp.running ≠ 0#32)
    (expected : s.grp.running &&& ~~~(mapGet {} s.grp.joins k.toNat).expect = 0#32)
    (left : (mapGet {} s.grp.joins k.toNat).arrived ||| s.grp.running ≠ (mapGet {} s.grp.joins k.toNat).expect) {x : PcWord}
    (reached : ∃ y, y < 32 ∧ (s.grp.thread y).st = .parked ∧ (s.grp.thread y).resume = x)
    (least : ∀ y, y < 32 → (s.grp.thread y).st = .parked → x ≤ (s.grp.thread y).resume) :
    s.arrive k = s.setGrp ({ s.grp.arrivedAt k with hint := none }.runAt ((s.grp.arrivedAt k).resuming (s.grp.arrivedAt k).parked x) x) := by
  have join := s.grp.arrivedAt_join k
  have kept : (s.grp.arrivedAt k).checkRelease k.toNat = s.grp.arrivedAt k := Group.checkRelease_outstanding (by rw [join]; exact some_) (by rw [join]; exact left)
  have none_ : (s.grp.arrivedAt k).releaseSet k.toNat = 0#32 := by
    unfold Group.releaseSet
    dsimp only
    rw [join]
    exact if_neg fun h => left h.2.2
  have parked (y : Nat) (hy : y < 32) (hp : (s.grp.thread y).st = .parked) : (s.grp.arrivedAt k).thread y = s.grp.thread y := by
    rw [Group.arrivedAt_thread _ _ hy, if_neg]
    rw [s.grp.running_getLsbD, hp]
    simp [TState.isRunning]
  have still (y : Nat) (hy : y < 32) : (s.grp.arrivedAt k).parked.getLsbD y = true ↔ (s.grp.thread y).st = .parked := by
    rw [Group.parked_getLsbD _ hy, Group.arrivedAt_thread _ _ hy]
    split
    next hr =>
      rw [s.grp.running_getLsbD] at hr
      constructor
      · exact nofun
      · intro hp
        simp [hp, TState.isRunning] at hr
    next => rfl
  have low : lowestResume (s.grp.arrivedAt k).threads (s.grp.arrivedAt k).parked = some x := by
    obtain ⟨y, hy, hp, hx⟩ := reached
    refine lowestResume_eq_some ⟨y, hy, (still y hy).2 hp, ?_⟩ fun u hu hs => ?_
    · exact (congrArg Thread.resume (parked y hy hp)).trans hx
    · have hp := (still u hu).1 hs
      exact BitVec.le_trans (least u hu hp) (BitVec.le_of_eq (congrArg Thread.resume (parked u hu hp)).symm)
  rw [State.arrive_expected armed expected, if_pos none_]
  unfold State.afterArrival
  rw [State.setGrp_grp, kept, if_neg fun h => h.1 (s.grp.arrivedAt_running k)]
  rw [State.select_parked (x := x)]
  · rw [State.setGrp_grp]
    rw [State.setGrp_setGrp, State.setGrp_setGrp]
    rfl
  · rw [State.setGrp_grp]
    exact s.grp.arrivedAt_running k
  · rw [State.setGrp_grp]
    exact Group.arrivedAt_isEnded k run
  · rw [State.setGrp_grp]
    exact low

/-! ### An arrival that completes the set -/

/-- R142: the threads released by a join run from the lowest resume address among them, where no thread runs. -/
theorem Group.checkRelease_runs {g : Group} {k : Nat} {x : PcWord} (ha : (mapGet {} g.joins k).armed = true) (he : (mapGet {} g.joins k).expect ≠ 0#32)
    (hr : (mapGet {} g.joins k).arrived = (mapGet {} g.joins k).expect) (hn : (g.released k).running = 0#32)
    (hx : lowestResume (g.released k).threads (g.joinedAt k) = some x) :
    g.checkRelease k = (g.released k).runAt ((g.released k).resuming (g.joinedAt k) x) x := by
  have unfolded : g.checkRelease k = _ := (if_neg (ne_false_of_eq_true ha)).trans ((if_neg he).trans (if_pos hr))
  refine unfolded.trans ((if_pos hn).trans ?_)
  split
  next hs => exact absurd (hx.symm.trans hs) nofun
  next a hs =>
    obtain rfl := Option.some.inj (hx.symm.trans hs)
    rfl

theorem Group.joinedAt_getLsbD (g : Group) (k : Nat) {y : Nat} (hy : y < 32) :
    (g.joinedAt k).getLsbD y = true ↔ (mapGet {} g.joins k).arrived.getLsbD y = true ∧ (g.thread y).st = .joined (BitVec.ofNat 3 k) := by
  rw [Group.joinedAt, maskOf_getLsbD, Bool.and_eq_true, Bool.and_eq_true, decide_eq_true_eq, decide_eq_true_eq]
  exact and_iff_right hy

theorem Group.released_thread (g : Group) (k : Nat) (y : Nat) : (g.released k).thread y =
    if y < 32 ∧ (g.joinedAt k).getLsbD y = true then { g.thread y with st := .parked } else g.thread y :=
  setStates_get g.threads (g.joinedAt k) (fun t => { t with st := .parked }) y

theorem Group.released_resume (g : Group) (k : Nat) (y : Nat) : ((g.released k).thread y).resume = (g.thread y).resume := by
  rw [g.released_thread]
  split <;> rfl

/-- What a release that is complete leaves, of the group whose last threads have joined. -/
structure ReleasedAll (g t : Group) (k : BitVec 3) (x : PcWord) : Prop where
  only : t = { g with joins := t.joins, frame := t.frame, threads := t.threads, pc := x }
  join : mapGet {} t.joins k.toNat = {}
  member : ∀ y, y < 32 → (mapGet {} g.joins k.toNat).expect.getLsbD y = true →
    x ≤ (g.thread y).resume ∧ (t.thread y).st = (if (g.thread y).resume = x then .running else .parked)
  other : ∀ y, y < 32 → (mapGet {} g.joins k.toNat).expect.getLsbD y = false → t.thread y = g.thread y
  runs : t.running ≠ 0#32

theorem Group.checkRelease_complete {g : Group} {k : BitVec 3} (armed : (mapGet {} g.joins k.toNat).armed = true)
    (some_ : (mapGet {} g.joins k.toNat).expect ≠ 0#32) (all : (mapGet {} g.joins k.toNat).arrived = (mapGet {} g.joins k.toNat).expect)
    (joined : ∀ y, y < 32 → (mapGet {} g.joins k.toNat).expect.getLsbD y = true → (g.thread y).st = .joined k) (idle : g.running = 0#32) :
    ∃ x, ReleasedAll g (g.checkRelease k.toNat) k x := by
  have set : g.joinedAt k.toNat = (mapGet {} g.joins k.toNat).expect := BitVec.eq_of_getLsbD_eq fun y hy => by
    rw [Bool.eq_iff_iff, Group.joinedAt_getLsbD _ _ hy, all, BitVec.ofNat_toNat, BitVec.setWidth_eq]
    exact and_iff_left_of_imp (joined y hy)
  obtain ⟨x, ⟨u, hu, hs, hx⟩, least⟩ := exists_lowest (g.released k.toNat).threads some_
  have back (y : Nat) : (mapGet {} (g.released k.toNat).threads y).resume = (g.thread y).resume := g.released_resume k.toNat y
  have idle' : (g.released k.toNat).running = 0#32 := (g.released_keepsRunning k.toNat).running_eq.trans idle
  have e := Group.checkRelease_runs armed some_ all idle' (set ▸ lowestResume_eq_some ⟨u, hu, hs, hx⟩ least)
  have thread (y : Nat) (hy : y < 32) : (g.checkRelease k.toNat).thread y =
      if (mapGet {} g.joins k.toNat).expect.getLsbD y = true then { g.thread y with st := if (g.thread y).resume = x then .running else .parked }
      else g.thread y := by
    have low : ((g.released k.toNat).resuming (g.joinedAt k.toNat) x).getLsbD y = true ↔
        (mapGet {} g.joins k.toNat).expect.getLsbD y = true ∧ (g.thread y).resume = x := by
      rw [Group.resuming_getLsbD _ _ _ hy, set, g.released_resume]
    have before := g.released_thread k.toNat y
    rw [e, Group.runAt_thread _ _ _ hy]
    by_cases hm : (mapGet {} g.joins k.toNat).expect.getLsbD y = true
    · rw [if_pos ⟨hy, set.symm ▸ hm⟩] at before
      rw [if_pos hm, before]
      by_cases hb : (g.thread y).resume = x
      · rw [if_pos (low.2 ⟨hm, hb⟩), if_pos hb]
      · rw [if_neg fun h => hb (low.1 h).2, if_neg hb]
    · rw [if_neg fun h => hm (set ▸ h.2)] at before
      rw [if_neg hm, before, if_neg fun h => hm (low.1 h).1]
  refine ⟨x, by rw [e]; rfl, ?_, fun y hy hm => ⟨?_, ?_⟩, fun y hy hm => ?_, fun h0 => ?_⟩
  · rw [e]
    show mapGet {} (mapSet {} g.joins k.toNat {}) k.toNat = ({} : JoinReg)
    exact mapGet_mapSet_same _ _ _ _
  · exact BitVec.le_trans (least y hy hm) (BitVec.le_of_eq (back y))
  · rw [thread y hy, if_pos hm]
  · rw [thread y hy, if_neg (by rw [hm]; exact Bool.false_ne_true)]
  · have runs : (g.checkRelease k.toNat).running.getLsbD u = true := by
      rw [Group.running_getLsbD, thread u hu, if_pos hs, if_pos ((back u).symm.trans hx), decide_eq_true hu]
      rfl
    rw [h0, BitVec.getLsbD_zero] at runs
    cases runs

/-- R142: the last arrival releases the set; of the threads released those of the lowest resume address run on, and the others are Parked. -/
theorem State.arrive_complete {s : State} {k : BitVec 3} (armed : (mapGet {} s.grp.joins k.toNat).armed = true)
    (some_ : (mapGet {} s.grp.joins k.toNat).expect ≠ 0#32) (expected : s.grp.running &&& ~~~(mapGet {} s.grp.joins k.toNat).expect = 0#32)
    (held : ∀ y, y < 32 → ((mapGet {} s.grp.joins k.toNat).arrived.getLsbD y = true ↔ (s.grp.thread y).st = .joined k))
    (all : (mapGet {} s.grp.joins k.toNat).arrived ||| s.grp.running = (mapGet {} s.grp.joins k.toNat).expect) :
    ∃ x fs g ls n, ReleasedAll { s.grp.arrivedAt k with fences := fs } g k x ∧ (s.arrive k).mem = s.mem ∧
      (s.arrive k).grp = { g with loops := ls, n := n, pc := if x = s.grp.pc + 4 then s.grp.complete.pc else x, hint := none } := by
  have join := s.grp.arrivedAt_join k
  have merged : (s.grp.arrivedAt k).releaseSet k.toNat ≠ 0#32 := by
    unfold Group.releaseSet
    dsimp only
    rw [join, if_pos ⟨armed, some_, all⟩]
    exact fun e => some_ (all.symm.trans e)
  have joined (y : Nat) (hy : y < 32) (hm : (mapGet {} s.grp.joins k.toNat).expect.getLsbD y = true) : ((s.grp.arrivedAt k).thread y).st = .joined k := by
    rw [Group.arrivedAt_thread _ _ hy]
    split
    · rfl
    next hr =>
      rw [← all, BitVec.getLsbD_or, Bool.or_eq_true] at hm
      exact (held y hy).1 (hm.resolve_right hr)
  have hist := (s.setGrp (s.grp.arrivedAt k)).mergeHist_onlyHistory s.cur ((s.grp.arrivedAt k).releaseSet k.toNat)
  obtain ⟨fs, hg⟩ := hist.grp
  rw [State.arrive_expected armed expected, if_neg merged]
  generalize (s.setGrp (s.grp.arrivedAt k)).mergeHist s.cur ((s.grp.arrivedAt k).releaseSet k.toNat) = u at hist hg ⊢
  rw [State.setGrp_grp] at hg
  have mem : u.mem = s.mem := by rw [hist.rest]; rfl
  obtain ⟨x, rel⟩ := Group.checkRelease_complete (g := u.grp) (k := k) (by rw [hg]; exact (congrArg JoinReg.armed join).trans armed)
    (by rw [hg]; exact join.symm ▸ some_) (by rw [hg]; exact join.symm ▸ all)
    (by rw [hg]; exact fun y hy hm => joined y hy (by simpa only [join] using hm)) (by rw [hg]; exact s.grp.arrivedAt_running k)
  refine ⟨x, fs, u.grp.checkRelease k.toNat, ?_⟩
  have pc : (u.grp.checkRelease k.toNat).pc = x := by rw [rel.only]
  unfold State.afterArrival
  rw [pc]
  by_cases hx : x = s.grp.pc + 4
  · rw [if_pos ⟨rel.runs, hx⟩, if_pos hx, State.finish_grp, Group.complete_of_eq s.grp]
    · exact ⟨_, _, hg ▸ rel, mem, rfl⟩
    · show (u.grp.checkRelease k.toNat).loops = _
      rw [rel.only, hg]
      rfl
    · rfl
    · show (u.grp.checkRelease k.toNat).n = _
      rw [rel.only, hg]
      rfl
  · rw [if_neg fun h => hx h.2, if_neg hx, State.select_of_running, State.setGrp_grp]
    · exact ⟨_, _, hg ▸ rel, mem, by rw [← pc]⟩
    · rw [State.setGrp_grp]
      exact rel.runs

/-- Settles O28: arming writes the register, and an arrival passes, waits or releases. -/
theorem joins : Obligations.Joins := by
  unfold Obligations.Joins
  intro s h k b j run here arms
  refine ⟨exec_join_off k b, fun hq hj => ⟨?_, ?_⟩, fun hq ha => ?_, fun hq ha he hr hs _ _ hl x reached least => ?_, fun hq ha he _ hs _ held all => ?_⟩
  · exact (exec_joinArm k b hq).trans (by rw [State.arm_free _ hj])
  · exact (exec_joinArmRun k b hq).trans (by rw [State.arm_free _ hj])
  · exact (exec_joinWait k hq).trans (by rw [State.arrive_disarmed ha, State.finish])
  · refine ⟨_, (exec_joinWait k hq).trans (by rw [State.arrive_outstanding ha he hr hs hl reached least]), s.setGrp_onlyGroup _, ?_⟩
    rw [State.setGrp_grp]
    refine ⟨rfl, s.grp.arrivedAt_join k, fun y hy => ?_, rfl⟩
    refine (Group.runAt_thread { s.grp.arrivedAt k with hint := none } _ x hy).trans ?_
    show (if _ then { (s.grp.arrivedAt k).thread y with st := .running } else (s.grp.arrivedAt k).thread y) = _
    have before := s.grp.arrivedAt_thread k hy
    have low : ((s.grp.arrivedAt k).resuming (s.grp.arrivedAt k).parked x).getLsbD y = true ↔
        ((s.grp.arrivedAt k).thread y).st = .parked ∧ ((s.grp.arrivedAt k).thread y).resume = x := by
      rw [Group.resuming_getLsbD _ _ _ hy, Group.parked_getLsbD _ hy]
    by_cases hm : run.getLsbD y = true
    · rw [if_pos hm] at before ⊢
      have joined : ((s.grp.arrivedAt k).thread y).st = .joined k := congrArg Thread.st before
      rw [if_neg fun h => absurd (joined.symm.trans (low.1 h).1) nofun, before]
    · rw [if_neg hm] at before ⊢
      simp only [low, before]
  · obtain ⟨x, fs, g, ls, n, rel, mem, hg⟩ := State.arrive_complete ha he hs held all
    refine ⟨_, x, exec_joinWait k hq, ?_⟩
    rw [hg]
    have before (y : Nat) (hy : y < 32) := s.grp.arrivedAt_thread k hy
    have join := congrArg JoinReg.expect (s.grp.arrivedAt_join k)
    refine ⟨rel.join, by show g.v = _; rw [rel.only]; rfl, by show g.g = _; rw [rel.only]; rfl, mem, fun y hy hm => ?_, fun y hy hm => ?_, rfl⟩
    · have := rel.member y hy (by exact (congrArg (fun m : BitVec 32 => m.getLsbD y) join).trans hm)
      have resume : ((s.grp.arrivedAt k).thread y).resume = if run.getLsbD y = true then here else (s.grp.thread y).resume := by
        rw [before y hy]
        split <;> rfl
      exact resume ▸ this
    · refine (rel.other y hy ((congrArg (fun m : BitVec 32 => m.getLsbD y) join).trans hm)).trans ((before y hy).trans (if_neg fun hr => ?_))
      have expected : (run &&& ~~~j.expect).getLsbD y = true := by
        rw [BitVec.getLsbD_and, BitVec.getLsbD_not, hr, hm, decide_eq_true hy]
        rfl
      rw [hs, BitVec.getLsbD_zero] at expected
      cases expected

end Sys2Proof.Machine
end


section
/-! What a fold does to each of its keys, what holds do to their owners, and what an event of power, clock or heat leaves of an owner (R153). -/

namespace Sys2Proof.Machine

/-! ### What a fold does to each of its keys -/

section
variable {σ ι β : Type} {f : σ → ι → σ} {I : σ → Prop} {obs : σ → ι → β} {g : ι → β → β}

theorem foldl_obs_of_notMem (keeps : ∀ u x, I u → I (f u x)) (others : ∀ u x k, I u → k ≠ x → obs (f u x) k = obs u k) {xs : List ι} {s : σ} {k : ι}
    (hs : I s) (hk : k ∉ xs) : obs (xs.foldl f s) k = obs s k := by
  induction xs generalizing s with
  | nil => rfl
  | cons x xs ih =>
    obtain ⟨hx, hxs⟩ := (not_or.1 (mt List.mem_cons.2 hk))
    exact (ih (keeps s x hs) hxs).trans (others s x k hs hx)

/-- Over keys without repetition, each key is acted on once. -/
theorem foldl_obs_of_nodup (keeps : ∀ u x, I u → I (f u x)) (others : ∀ u x k, I u → k ≠ x → obs (f u x) k = obs u k)
    (here : ∀ u x, I u → obs (f u x) x = g x (obs u x)) {xs : List ι} {s : σ} {k : ι} (hs : I s) (hd : xs.Nodup) (hk : k ∈ xs) :
    obs (xs.foldl f s) k = g k (obs s k) := by
  induction xs generalizing s with
  | nil => cases hk
  | cons x xs ih =>
    obtain ⟨hx, hd⟩ := List.nodup_cons.1 hd
    rcases List.mem_cons.1 hk with rfl | hk
    · exact (foldl_obs_of_notMem keeps others (keeps s k hs) hx).trans (here s k hs)
    · rw [List.foldl_cons, ih (keeps s x hs) hd hk, others s x k hs fun e => hx (e ▸ hk)]

/-- An action that changes nothing the second time takes place once, however often its key is listed. -/
theorem foldl_obs_of_idem [DecidableEq ι] (keeps : ∀ u x, I u → I (f u x)) (others : ∀ u x k, I u → k ≠ x → obs (f u x) k = obs u k)
    (here : ∀ u x, I u → obs (f u x) x = g x (obs u x)) (idem : ∀ x y, g x (g x y) = g x y) {xs : List ι} {s : σ} (k : ι) (hs : I s) :
    obs (xs.foldl f s) k = if k ∈ xs then g k (obs s k) else obs s k := by
  induction xs generalizing s with
  | nil => rfl
  | cons x xs ih =>
    rw [List.foldl_cons, ih (keeps s x hs)]
    by_cases e : k = x
    · subst e
      rw [here s k hs, idem, ite_self, if_pos List.mem_cons_self]
    · simp only [others s x k hs e, List.mem_cons, e, false_or]

end

/-- What every step keeps or brings about, and one step brings about, holds after the fold. -/
theorem foldl_reaches {σ ι : Type} {f : σ → ι → σ} {I P : σ → Prop} {xs : List ι} {k : ι} (keeps : ∀ u, ∀ x ∈ xs, I u → I (f u x))
    (stays : ∀ u, ∀ x ∈ xs, I u → P u → P (f u x)) (hk : k ∈ xs) (here : ∀ u, I u → P (f u k)) {s : σ} (hs : I s) : P (xs.foldl f s) := by
  induction xs generalizing s with
  | nil => cases hk
  | cons x xs ih =>
    have keeps' (u : σ) (y : ι) (hy : y ∈ xs) := keeps u y (List.mem_cons_of_mem _ hy)
    have stays' (u : σ) (y : ι) (hy : y ∈ xs) := stays u y (List.mem_cons_of_mem _ hy)
    rcases List.mem_cons.1 hk with rfl | hk
    · exact (List.foldlRecOn (motive := fun u => I u ∧ P u) xs f ⟨keeps s k List.mem_cons_self hs, here s hs⟩ fun u hu y hy =>
        ⟨keeps' u y hy hu.1, stays' u y hy hu.1 hu.2⟩).2
    · exact ih keeps' stays' hk (keeps s x List.mem_cons_self hs)

theorem foldl_max_le_iff {ι : Type} (f : ι → Nat) (xs : List ι) (b n : Nat) :
    xs.foldl (fun m x => max m (f x)) b ≤ n ↔ b ≤ n ∧ ∀ x ∈ xs, f x ≤ n := by
  induction xs generalizing b with
  | nil => simp
  | cons x xs ih => rw [List.foldl_cons, ih, Nat.max_le, List.forall_mem_cons, and_assoc]

theorem foldl_max_attained {ι : Type} (f : ι → Nat) (xs : List ι) (b : Nat) :
    xs.foldl (fun m x => max m (f x)) b = b ∨ ∃ x ∈ xs, xs.foldl (fun m x => max m (f x)) b = f x := by
  induction xs generalizing b with
  | nil => exact .inl rfl
  | cons x xs ih =>
    rw [List.foldl_cons]
    rcases ih (max b (f x)) with h | ⟨y, hy, h⟩
    · rcases Nat.le_total b (f x) with hb | hb
      · exact .inr ⟨x, List.mem_cons_self, h.trans (Nat.max_eq_right hb)⟩
      · exact .inl (h.trans (Nat.max_eq_left hb))
    · exact .inr ⟨y, List.mem_cons_of_mem _ hy, h⟩

/-! ### Live owners -/

/-- Writing at a key a value that has a property just when the old one has leaves the keys with that property. -/
theorem exists_mem_mapPut_iff {α : Type} (P : α → Prop) {d : α} (hd : ¬P d) {m : FMap α} {k : Nat} {v : α} (hv : P v ↔ P (mapGet d m k)) (x : Nat) :
    (∃ w, (x, w) ∈ mapPut m k v ∧ P w) ↔ ∃ w, (x, w) ∈ m ∧ P w := by
  induction m with
  | nil =>
    have : ¬P v := fun h => hd (hv.1 h)
    simp [mapPut, this]
  | cons p m ih =>
    obtain ⟨j, u⟩ := p
    have hput : mapPut ((j, u) :: m) k v = if k < j then (k, v) :: (j, u) :: m else if j = k then (k, v) :: m else (j, u) :: mapPut m k v := rfl
    have hget : mapGet d ((j, u) :: m) k = if j = k then u else mapGet d m k := rfl
    rw [hget] at hv
    rw [hput]
    by_cases hlt : k < j
    · rw [if_pos hlt]
      rw [if_neg (by omega)] at hv
      constructor
      · rintro ⟨w, hw, hp⟩
        rcases List.mem_cons.1 hw with e | hw
        · cases e
          cases hf : mapFind m k with
          | none => rw [mapGet_of_mapFind, hf] at hv; exact absurd (hv.1 hp) hd
          | some y => rw [mapGet_of_mapFind, hf] at hv; exact ⟨y, List.mem_cons_of_mem _ (mem_of_mapFind hf), hv.1 hp⟩
        · exact ⟨w, hw, hp⟩
      · rintro ⟨w, hw, hp⟩
        exact ⟨w, List.mem_cons_of_mem _ hw, hp⟩
    · rw [if_neg hlt]
      by_cases e : j = k
      · subst e
        rw [if_pos rfl] at hv ⊢
        simp only [List.mem_cons, Prod.mk.injEq, or_and_right, exists_or, and_assoc, exists_and_left, exists_eq_left, hv]
      · rw [if_neg e] at hv ⊢
        simp only [List.mem_cons, or_and_right, exists_or, ih hv]

theorem State.mem_liveOwners {s : State} {o : Nat} : o ∈ s.liveOwners ↔ ∃ w, (o, w) ∈ s.owners ∧ w.live = true := by
  simp only [State.liveOwners, List.mem_map, List.mem_filter, Prod.exists, exists_and_right, exists_eq_right]

theorem State.ownerAt_of_mapFind {s : State} {o : Nat} {w : Owner} (h : mapFind s.owners o = some w) : s.ownerAt o = w := by
  show mapGet {} s.owners o = w
  rw [mapGet_of_mapFind, h]
  rfl

theorem State.mem_liveOwners_of_live {s : State} {o : Nat} (h : (s.ownerAt o).live = true) : o ∈ s.liveOwners := by
  change (mapGet {} s.owners o).live = true at h
  rw [mapGet_of_mapFind] at h
  cases hf : mapFind s.owners o with
  | none => rw [hf] at h; cases h
  | some w =>
    rw [hf] at h
    exact State.mem_liveOwners.2 ⟨w, mem_of_mapFind hf, h⟩

theorem State.mem_liveOwners_setOwner (s : State) (o : Nat) {w : Owner} (hw : w.live = (s.ownerAt o).live) (x : Nat) :
    x ∈ (s.setOwner o w).liveOwners ↔ x ∈ s.liveOwners := by
  rw [State.mem_liveOwners, State.mem_liveOwners]
  exact exists_mem_mapPut_iff (fun w : Owner => w.live = true) (d := {}) (by decide) (by rw [hw]; rfl) x

/-! ### Only owners change -/

def OnlyOwners (s t : State) : Prop := t = { s with owners := t.owners }

theorem OnlyOwners.refl (s : State) : OnlyOwners s s := rfl

theorem OnlyOwners.trans {s t u : State} (h : OnlyOwners s t) (h' : OnlyOwners t u) : OnlyOwners s u :=
  Eq.trans h' (congrArg (fun x : State => { x with owners := u.owners }) h)

theorem OnlyOwners.foldl {ι : Type} {f : State → ι → State} (hf : ∀ u x, OnlyOwners u (f u x)) (xs : List ι) (s : State) : OnlyOwners s (xs.foldl f s) :=
  List.foldlRecOn (motive := OnlyOwners s) xs f (.refl s) fun u hu x _ => hu.trans (hf u x)

theorem State.modOwner_only (s : State) (o : Nat) (f : Owner → Owner) : OnlyOwners s (s.modOwner o f) := rfl

/-! ### Holds (R153) -/

/-- A cause begins to hold an owner. -/
def Owner.withHold (c : HoldCause) (w : Owner) : Owner := if w.live && !w.held.contains c then { w with held := w.held ++ [c] } else w

/-- A cause lets an owner go. -/
def Owner.withoutHold (c : HoldCause) (w : Owner) : Owner := if w.live then { w with held := w.held.filter (fun x => decide (x ≠ c)) } else w

theorem Owner.withHold_of_mem {c : HoldCause} {w : Owner} (h : c ∈ w.held) : w.withHold c = w := if_neg (by simp [h])

theorem Owner.withHold_of_dead {c : HoldCause} {w : Owner} (h : w.live = false) : w.withHold c = w := if_neg (by simp [h])

theorem Owner.withoutHold_of_dead {c : HoldCause} {w : Owner} (h : w.live = false) : w.withoutHold c = w := if_neg (by simp [h])

theorem Owner.withHold_only (c : HoldCause) (w : Owner) : ∃ h, w.withHold c = { w with held := h } := by
  unfold Owner.withHold
  split
  exacts [⟨_, rfl⟩, ⟨_, rfl⟩]

theorem Owner.withoutHold_only (c : HoldCause) (w : Owner) : ∃ h, w.withoutHold c = { w with held := h } := by
  unfold Owner.withoutHold
  split
  exacts [⟨_, rfl⟩, ⟨_, rfl⟩]

theorem Owner.withoutHold_live (c : HoldCause) (w : Owner) : (w.withoutHold c).live = w.live := by
  obtain ⟨h, e⟩ := w.withoutHold_only c
  rw [e]

theorem Owner.mem_withHold {w : Owner} (hw : w.live = true) (c x : HoldCause) : x ∈ (w.withHold c).held ↔ x ∈ w.held ∨ x = c := by
  unfold Owner.withHold
  by_cases hc : c ∈ w.held
  · rw [if_neg (by simp [hc])]
    exact ⟨.inl, fun h => h.elim id fun e => e ▸ hc⟩
  · rw [if_pos (by simp [hc, hw])]
    simp

theorem Owner.mem_withoutHold {w : Owner} {c x : HoldCause} (hx : x ≠ c) : x ∈ (w.withoutHold c).held ↔ x ∈ w.held := by
  unfold Owner.withoutHold
  split
  · simp [hx]
  · rfl

theorem Owner.withoutHold_held {w : Owner} (hw : w.live = true) (c : HoldCause) : (w.withoutHold c).held = w.held.filter (fun x => decide (x ≠ c)) := by
  unfold Owner.withoutHold
  rw [if_pos hw]

theorem Owner.withHold_withHold (c : HoldCause) (w : Owner) : (w.withHold c).withHold c = w.withHold c := by
  cases hw : w.live with
  | false => rw [Owner.withHold_of_dead hw, Owner.withHold_of_dead hw]
  | true => exact Owner.withHold_of_mem ((Owner.mem_withHold hw c c).2 (.inr rfl))

theorem Owner.withoutHold_withoutHold (c : HoldCause) (w : Owner) : (w.withoutHold c).withoutHold c = w.withoutHold c := by
  cases hw : w.live with
  | false => rw [Owner.withoutHold_of_dead hw, Owner.withoutHold_of_dead hw]
  | true => simp [Owner.withoutHold, hw]

theorem State.hold_eq (s : State) (o : Nat) (c : HoldCause) : s.hold o c = s ∨ s.hold o c = s.setOwner o ((s.ownerAt o).withHold c) := by
  unfold State.hold Owner.withHold State.modOwner
  split
  · exact .inr rfl
  · exact .inl rfl

theorem State.hold_ownerAt (s : State) (o : Nat) (c : HoldCause) (k : Nat) :
    (s.hold o c).ownerAt k = if k = o then (s.ownerAt o).withHold c else s.ownerAt k := by
  unfold State.hold Owner.withHold
  split
  · exact s.modOwner_ownerAt o _ k
  · by_cases e : k = o
    · rw [if_pos e, e]
    · rw [if_neg e]

theorem State.unhold_eq (s : State) (o : Nat) (c : HoldCause) : s.unhold o c = s ∨ s.unhold o c = s.setOwner o ((s.ownerAt o).withoutHold c) := by
  unfold State.unhold Owner.withoutHold State.modOwner
  split
  · exact .inr rfl
  · exact .inl rfl

theorem State.unhold_ownerAt (s : State) (o : Nat) (c : HoldCause) (k : Nat) :
    (s.unhold o c).ownerAt k = if k = o then (s.ownerAt o).withoutHold c else s.ownerAt k := by
  unfold State.unhold Owner.withoutHold
  split
  · exact s.modOwner_ownerAt o _ k
  · by_cases e : k = o
    · rw [if_pos e, e]
    · rw [if_neg e]

theorem State.hold_only (s : State) (o : Nat) (c : HoldCause) : OnlyOwners s (s.hold o c) := by
  rcases s.hold_eq o c with e | e <;> rw [e] <;> rfl

theorem State.unhold_only (s : State) (o : Nat) (c : HoldCause) : OnlyOwners s (s.unhold o c) := by
  rcases s.unhold_eq o c with e | e <;> rw [e] <;> rfl

/-- The owners' list is not asked: an owner that is not listed as live is not live. -/
theorem State.holdAll_ownerAt (s : State) (f : Nat → Bool) (c : HoldCause) (o : Nat) :
    (s.holdAll f c).ownerAt o = if f o then (s.ownerAt o).withHold c else s.ownerAt o := by
  have h := foldl_obs_of_idem (f := fun s o => if f o then State.hold s o c else s) (I := fun _ => True) (obs := State.ownerAt)
    (g := fun o w => if f o then w.withHold c else w) (fun _ _ _ => trivial)
    (fun u x k _ hk => by
      split
      · rw [State.hold_ownerAt, if_neg hk]
      · rfl)
    (fun u x _ => by
      split
      · rw [State.hold_ownerAt, if_pos rfl]
      · rfl)
    (fun x w => by
      split
      · exact w.withHold_withHold c
      · rfl)
    (xs := s.liveOwners) (s := s) o trivial
  refine Eq.trans h ?_
  split
  · rfl
  · next hn =>
    have dead : (s.ownerAt o).live = false := by simpa using mt State.mem_liveOwners_of_live hn
    rw [Owner.withHold_of_dead dead, ite_self]

theorem State.unholdAll_ownerAt (s : State) (c : HoldCause) (o : Nat) : (s.unholdAll c).ownerAt o = (s.ownerAt o).withoutHold c := by
  have h := foldl_obs_of_idem (f := fun s o => State.unhold s o c) (I := fun _ => True) (obs := State.ownerAt)
    (g := fun _ w => w.withoutHold c) (fun _ _ _ => trivial)
    (fun u x k _ hk => by rw [State.unhold_ownerAt, if_neg hk]) (fun u x _ => by rw [State.unhold_ownerAt, if_pos rfl])
    (fun x w => w.withoutHold_withoutHold c) (xs := s.liveOwners) (s := s) o trivial
  refine Eq.trans h ?_
  split
  · rfl
  · next hn =>
    have dead : (s.ownerAt o).live = false := by simpa using mt State.mem_liveOwners_of_live hn
    rw [Owner.withoutHold_of_dead dead]

theorem State.holdAll_only (s : State) (f : Nat → Bool) (c : HoldCause) : OnlyOwners s (s.holdAll f c) :=
  OnlyOwners.foldl (fun u x => by
    split
    exacts [u.hold_only x c, .refl u]) _ s

theorem State.unholdAll_only (s : State) (c : HoldCause) : OnlyOwners s (s.unholdAll c) := OnlyOwners.foldl (fun u x => u.unhold_only x c) _ s

/-! ### What power, clocks and heat leave of an owner -/

/-- Owners keep all but their holds, leases and quotas, and of each lease its life and level: who votes for which clock stays. -/
structure KeepsVotes (s t : State) : Prop where
  owner : ∀ o, ∃ hs sp qs, t.ownerAt o = { s.ownerAt o with held := hs, sprints := sp, quotas := qs }
  lease : ∀ o i, (t.sprintAt o i).live = (s.sprintAt o i).live ∧ (t.sprintAt o i).level = (s.sprintAt o i).level
  listed : ∀ o, o ∈ t.liveOwners ↔ o ∈ s.liveOwners

theorem KeepsVotes.of_owners {s t : State} (h : t.owners = s.owners) : KeepsVotes s t := by
  have at_ : t.ownerAt = s.ownerAt := by unfold State.ownerAt; rw [h]
  have lease : t.sprintAt = s.sprintAt := by unfold State.sprintAt; rw [at_]
  have listed : t.liveOwners = s.liveOwners := by unfold State.liveOwners; rw [h]
  exact ⟨fun o => ⟨_, _, _, congrFun at_ o⟩, fun o i => by rw [lease]; exact ⟨rfl, rfl⟩, fun o => by rw [listed]⟩

theorem KeepsVotes.refl (s : State) : KeepsVotes s s := .of_owners rfl

theorem KeepsVotes.trans {s t u : State} (h : KeepsVotes s t) (h' : KeepsVotes t u) : KeepsVotes s u := by
  refine ⟨fun o => ?_, fun o i => ?_, fun o => (h'.listed o).trans (h.listed o)⟩
  · obtain ⟨_, _, _, e⟩ := h.owner o
    obtain ⟨hs, sp, qs, e'⟩ := h'.owner o
    exact ⟨hs, sp, qs, by rw [e', e]⟩
  · exact ⟨(h'.lease o i).1.trans (h.lease o i).1, (h'.lease o i).2.trans (h.lease o i).2⟩

theorem KeepsVotes.foldl {ι : Type} {f : State → ι → State} (hf : ∀ u x, KeepsVotes u (f u x)) (xs : List ι) (s : State) : KeepsVotes s (xs.foldl f s) :=
  List.foldlRecOn (motive := KeepsVotes s) xs f (.refl s) fun u hu x _ => hu.trans (hf u x)

theorem KeepsVotes.of_setOwner {s : State} {o : Nat} {w : Owner}
    (only : ∃ hs sp qs, w = { s.ownerAt o with held := hs, sprints := sp, quotas := qs })
    (lease : ∀ i, (mapGet {} w.sprints i).live = (s.sprintAt o i).live ∧ (mapGet {} w.sprints i).level = (s.sprintAt o i).level) :
    KeepsVotes s (s.setOwner o w) := by
  have live : w.live = (s.ownerAt o).live := by
    obtain ⟨_, _, _, e⟩ := only
    rw [e]
  refine ⟨fun k => ?_, fun k i => ?_, s.mem_liveOwners_setOwner o live⟩
  · rw [State.setOwner_ownerAt]
    by_cases e : k = o
    · rw [if_pos e, e]
      exact only
    · rw [if_neg e]
      exact ⟨_, _, _, rfl⟩
  · unfold State.sprintAt
    rw [State.setOwner_ownerAt]
    by_cases e : k = o
    · rw [if_pos e, e]
      exact lease i
    · rw [if_neg e]
      exact ⟨rfl, rfl⟩

theorem KeepsVotes.of_held (s : State) (o : Nat) (hs : List HoldCause) : KeepsVotes s (s.setOwner o { s.ownerAt o with held := hs }) :=
  .of_setOwner ⟨_, _, _, rfl⟩ fun _ => ⟨rfl, rfl⟩

theorem State.hold_keepsVotes (s : State) (o : Nat) (c : HoldCause) : KeepsVotes s (s.hold o c) := by
  obtain ⟨hs, e⟩ := (s.ownerAt o).withHold_only c
  rcases s.hold_eq o c with e' | e' <;> rw [e']
  · exact .refl s
  · rw [e]
    exact .of_held s o hs

theorem State.unhold_keepsVotes (s : State) (o : Nat) (c : HoldCause) : KeepsVotes s (s.unhold o c) := by
  obtain ⟨hs, e⟩ := (s.ownerAt o).withoutHold_only c
  rcases s.unhold_eq o c with e' | e' <;> rw [e']
  · exact .refl s
  · rw [e]
    exact .of_held s o hs

theorem State.holdAll_keepsVotes (s : State) (f : Nat → Bool) (c : HoldCause) : KeepsVotes s (s.holdAll f c) :=
  KeepsVotes.foldl (fun u x => by
    split
    exacts [u.hold_keepsVotes x c, .refl u]) _ s

theorem State.unholdAll_keepsVotes (s : State) (c : HoldCause) : KeepsVotes s (s.unholdAll c) := KeepsVotes.foldl (fun u x => u.unhold_keepsVotes x c) _ s

section
variable {s t : State} (h : KeepsVotes s t)
include h

theorem KeepsVotes.live (o : Nat) : (t.ownerAt o).live = (s.ownerAt o).live := by
  obtain ⟨_, _, _, e⟩ := h.owner o
  rw [e]

theorem KeepsVotes.part (o : Nat) : t.part o = s.part o := by
  obtain ⟨_, _, _, e⟩ := h.owner o
  unfold State.part
  rw [e]

theorem KeepsVotes.phys (o c : Nat) : t.phys o c = s.phys o c := by
  obtain ⟨_, _, _, e⟩ := h.owner o
  unfold State.phys
  rw [e]

theorem KeepsVotes.positionOn (o c : Nat) : t.positionOn o c = s.positionOn o c := by
  have shares : t.shareOf o c = s.shareOf o c := by
    unfold State.shareOf
    rw [h.part]
  obtain ⟨_, _, _, e⟩ := h.owner o
  unfold State.positionOn
  rw [e, shares]

theorem KeepsVotes.onIsland (o i : Nat) : t.onIsland o i = s.onIsland o i := by
  unfold State.onIsland
  simp only [h.live, h.part, h.phys, h.positionOn]

theorem KeepsVotes.holder (o i : Nat) : t.holder o i = s.holder o i := by
  have all (p : Nat → Bool) : t.liveOwners.all p = s.liveOwners.all p := by
    rw [Bool.eq_iff_iff, List.all_eq_true, List.all_eq_true]
    exact forall_congr' fun x => by rw [h.listed]
  unfold State.holder State.isolated State.elastic
  simp only [h.onIsland, h.part, all]

theorem KeepsVotes.vote (o i : Nat) : t.vote o i = s.vote o i := by
  have held : t.heldOn o i = s.heldOn o i := by
    obtain ⟨_, _, _, e⟩ := h.owner o
    unfold State.heldOn
    rw [e]
  obtain ⟨live, level⟩ := h.lease o i
  unfold State.vote
  simp only [live, level, held, h.holder]

theorem KeepsVotes.topVote (i : Nat) : t.topVote i = s.topVote i := by
  refine Nat.le_antisymm ((foldl_max_le_iff _ _ _ _).2 ⟨Nat.zero_le _, fun o ho => ?_⟩) ((foldl_max_le_iff _ _ _ _).2 ⟨Nat.zero_le _, fun o ho => ?_⟩)
  · rw [h.vote]
    exact ((foldl_max_le_iff _ _ _ _).1 (Nat.le_refl (s.topVote i))).2 o ((h.listed o).1 ho)
  · rw [← h.vote]
    exact ((foldl_max_le_iff _ _ _ _).1 (Nat.le_refl (t.topVote i))).2 o ((h.listed o).2 ho)

end

end Sys2Proof.Machine
end


section
/-! Hayloft's quotas at an update (R360, R366), clocks and rails (R365, R370, R425). -/

namespace Sys2Proof.Machine

theorem State.scheduleOnce_agenda (s : State) (due : Nat) (ev : Instr) : ∃ p ∈ (s.scheduleOnce due ev).agenda, p.ev = ev := by
  unfold State.scheduleOnce
  split
  · next h => simpa using h
  · exact ⟨_, List.mem_append_right _ (List.mem_singleton_self _), rfl⟩

theorem State.scheduleOnce_eq (s : State) (due : Nat) (ev : Instr) : s.scheduleOnce due ev = { s with agenda := (s.scheduleOnce due ev).agenda } := by
  unfold State.scheduleOnce
  split <;> rfl

/-! ### Quotas at an update (R360, R366) -/

theorem Quota.step_eq (y : Quota) :
    let top := y.joules * 10000000
    let m := if y.charging = 0 then y.melted - y.joules else min top (y.melted + if y.charging = 1 then 2000 else 5000)
    y.step = { y with
      melted := m, full := decide (m = top) || (!decide (10 * m ≤ 8 * top) && y.full)
      frac := if y.joules = 0 then 0xFFFF#16 else BitVec.ofNat 16 (min 65535 (65535 * m / top)) } := by
  have full (m top : Nat) (was : Bool) : (if m = top then true else if 10 * m ≤ 8 * top then false else was) =
      (decide (m = top) || (!decide (10 * m ≤ 8 * top) && was)) := by
    by_cases h : m = top
    · simp [h]
    · by_cases h' : 10 * m ≤ 8 * top <;> simp [h, h']
  have melted : (match y.charging with
      | 0 => y.melted - y.joules
      | 1 => min (y.joules * 10000000) (y.melted + 2000)
      | _ => min (y.joules * 10000000) (y.melted + 5000)) =
      if y.charging = 0 then y.melted - y.joules else min (y.joules * 10000000) (y.melted + if y.charging = 1 then 2000 else 5000) := by
    split
    · next h => rw [if_pos h]
    · next h => rw [h, if_neg (by decide), if_pos rfl]
    · next h0 h1 => rw [if_neg h0, if_neg h1]
  unfold Quota.step fracOf
  dsimp only
  rw [← full, ← melted] <;> rfl

/-- What the end of a lease does to it. -/
def Sprint.ended (x : Sprint) (base : Bool) (now : Nat) : Sprint :=
  if !x.live then x else { x with live := false, fell := if base then some now else x.fell, waitFall := !base, stepAt := none }

theorem Sprint.ended_live (x : Sprint) (base : Bool) (now : Nat) : (x.ended base now).live = false := by
  unfold Sprint.ended
  split
  · next h => simpa using h
  · rfl

/-- One quota of an owner at an update: where it melts fully the lease it carries ends. `base` says which islands run at their base clock. -/
def Owner.melt (base : Nat → Bool) (now : Nat) (w : Owner) (i : Nat) : Owner :=
  let x := (mapGet {} w.quotas i).step
  { w with
    quotas := mapPut w.quotas i x
    sprints := if x.melted = x.joules * 10000000 ∧ (mapGet {} w.sprints i).live = true then mapPut w.sprints i ((mapGet {} w.sprints i).ended (base i) now)
      else w.sprints }

/-- Every quota of an owner at an update. -/
def Owner.meltAll (base : Nat → Bool) (now : Nat) (w : Owner) : Owner := (w.quotas.map (fun p => p.1)).foldl (Owner.melt base now) w

/-- What an update shows of one quota: the quota, and whether the lease it carries lives. -/
def Owner.meltView (w : Owner) (i : Nat) : Quota × Bool := (mapGet {} w.quotas i, (mapGet {} w.sprints i).live)

theorem Owner.melt_view (base : Nat → Bool) (now : Nat) (w : Owner) (i : Nat) :
    (w.melt base now i).meltView i = ((w.meltView i).1.step,
      !decide ((w.meltView i).1.step.melted = (w.meltView i).1.step.joules * 10000000) && (w.meltView i).2) := by
  unfold Owner.melt Owner.meltView
  dsimp only
  rw [mapGet_mapPut_same]
  refine Prod.ext rfl ?_
  by_cases full : (mapGet {} w.quotas i).step.melted = (mapGet {} w.quotas i).step.joules * 10000000
  · cases live : (mapGet {} w.sprints i).live with
    | true => simp only [full, and_self, if_true, mapGet_mapPut_same, Sprint.ended_live, decide_true, Bool.not_true, Bool.false_and]
    | false => simp only [full, true_and, Bool.false_eq_true, if_false, live, Bool.and_false]
  · simp only [full, false_and, if_false, decide_false, Bool.not_false, Bool.true_and]

theorem Owner.melt_view_ne (base : Nat → Bool) (now : Nat) (w : Owner) {i k : Nat} (h : k ≠ i) : (w.melt base now i).meltView k = w.meltView k := by
  unfold Owner.melt Owner.meltView
  dsimp only
  rw [mapGet_mapPut_ne _ _ _ h]
  split
  · rw [mapGet_mapPut_ne _ _ _ h]
  · rfl

theorem Owner.meltAll_view (base : Nat → Bool) (now : Nat) {w : Owner} (hd : (w.quotas.map (fun y => y.1)).Nodup) {i : Nat} {y : Quota}
    (hy : mapFind w.quotas i = some y) :
    (w.meltAll base now).meltView i = (y.step, !decide (y.step.melted = y.step.joules * 10000000) && (mapGet {} w.sprints i).live) := by
  have view : (w.meltView i).1 = y := by
    show mapGet {} w.quotas i = y
    rw [mapGet_of_mapFind, hy]
    rfl
  have h := foldl_obs_of_nodup (f := Owner.melt base now) (I := fun _ => True) (obs := Owner.meltView)
    (g := fun _ v => (v.1.step, !decide (v.1.step.melted = v.1.step.joules * 10000000) && v.2))
    (fun _ _ _ => trivial) (fun u x k _ hk => u.melt_view_ne base now hk) (fun u x _ => u.melt_view base now x)
    (s := w) trivial hd (List.mem_map_of_mem (mem_of_mapFind hy))
  refine Eq.trans h ?_
  rw [view]
  rfl

/-- What an update of a quota leaves: only owners and groups change. -/
def OnlyMelts (s t : State) : Prop := t = { s with owners := t.owners, groups := t.groups }

theorem OnlyMelts.refl (s : State) : OnlyMelts s s := rfl

theorem OnlyMelts.trans {s t u : State} (h : OnlyMelts s t) (h' : OnlyMelts t u) : OnlyMelts s u :=
  Eq.trans h' (congrArg (fun x : State => { x with owners := u.owners, groups := u.groups }) h)

theorem OnlyMelts.foldl {ι : Type} {f : State → ι → State} (hf : ∀ u x, OnlyMelts u (f u x)) (xs : List ι) (s : State) : OnlyMelts s (xs.foldl f s) :=
  List.foldlRecOn (motive := OnlyMelts s) xs f (.refl s) fun u hu x _ => hu.trans (hf u x)

theorem Sprint.ended_of_live {x : Sprint} (h : x.live = true) (base : Bool) (now : Nat) :
    x.ended base now = { x with live := false, fell := if base then some now else x.fell, waitFall := !base, stepAt := none } :=
  if_neg (by simp [h])

/-- Which islands run at their base clock. -/
def State.atBase (s : State) (i : Nat) : Bool := decide ((s.islandAt i).clock = 0)

theorem State.endLease_of_dead {s : State} {o i : Nat} (h : (s.sprintAt o i).live = false) (r : Option Nat) : s.endLease o i r = s :=
  if_pos (by simp [h])

/-- A live lease ends, and a group may record its trap. -/
theorem State.endLease_of_live {s : State} {o i : Nat} (h : (s.sprintAt o i).live = true) (r : Option Nat) :
    s.endLease o i r = s.setSprint o i ((s.sprintAt o i).ended (s.atBase i) s.now) ∨
    ∃ f, s.endLease o i r = (s.setSprint o i ((s.sprintAt o i).ended (s.atBase i) s.now)).modGroup (s.sprintAt o i).gid f := by
  rw [Sprint.ended_of_live h]
  unfold State.endLease
  dsimp only
  rw [if_neg (by simp [h])]
  cases r with
  | none => exact .inl rfl
  | some r =>
    let y : Sprint := { s.sprintAt o i with
      live := false, fell := if s.atBase i then some s.now else (s.sprintAt o i).fell, waitFall := !s.atBase i, stepAt := none }
    by_cases gone : ((s.setSprint o i y).groupAt (s.sprintAt o i).gid).isEnded = true
    · exact .inl (if_pos gone)
    · exact .inr ⟨_, if_neg gone⟩

theorem State.endLease_only (s : State) (o i : Nat) (r : Option Nat) : OnlyMelts s (s.endLease o i r) := by
  cases h : (s.sprintAt o i).live with
  | false => rw [State.endLease_of_dead h]; exact .refl s
  | true => rcases State.endLease_of_live h r with e | ⟨f, e⟩ <;> exact e ▸ rfl

theorem State.setSprint_ownerAt (s : State) (o i : Nat) (y : Sprint) (k : Nat) :
    (s.setSprint o i y).ownerAt k = if k = o then { s.ownerAt o with sprints := mapPut (s.ownerAt o).sprints i y } else s.ownerAt k :=
  s.modOwner_ownerAt o _ k

theorem State.setQuota_ownerAt (s : State) (o i : Nat) (y : Quota) (k : Nat) :
    (s.setQuota o i y).ownerAt k = if k = o then { s.ownerAt o with quotas := mapPut (s.ownerAt o).quotas i y } else s.ownerAt k :=
  s.modOwner_ownerAt o _ k

theorem State.endLease_ownerAt_of_live {s : State} {o i : Nat} (h : (s.sprintAt o i).live = true) (r : Option Nat) (k : Nat) :
    (s.endLease o i r).ownerAt k = (s.setSprint o i ((s.sprintAt o i).ended (s.atBase i) s.now)).ownerAt k := by
  rcases State.endLease_of_live h r with e | ⟨f, e⟩ <;> exact e ▸ rfl

/-- One quota of MELT_UPDATE. -/
def State.meltOne (s : State) (o i : Nat) : State :=
  let x := (s.quotaAt o i).step
  let s := s.setQuota o i x
  if x.melted = x.joules * 10000000 then s.endLease o i (some 1) else s

theorem State.setQuota_melts (s : State) (o i : Nat) (y : Quota) : OnlyMelts s (s.setQuota o i y) := rfl

theorem State.meltOne_only (s : State) (o i : Nat) : OnlyMelts s (s.meltOne o i) := by
  unfold State.meltOne
  dsimp only
  split
  · exact OnlyMelts.trans (s.setQuota_melts o i _) (State.endLease_only _ o i _)
  · rfl

theorem OnlyMelts.atBase {s t : State} (h : OnlyMelts s t) : t.atBase = s.atBase := by
  unfold State.atBase State.islandAt
  rw [h]

theorem OnlyMelts.now {s t : State} (h : OnlyMelts s t) : t.now = s.now := by rw [h]

theorem State.meltOne_ownerAt (s : State) (o i k : Nat) :
    (s.meltOne o i).ownerAt k = if k = o then (s.ownerAt o).melt s.atBase s.now i else s.ownerAt k := by
  have sprint (y : Quota) : (s.setQuota o i y).sprintAt o i = mapGet {} (s.ownerAt o).sprints i := by
    unfold State.sprintAt
    rw [State.setQuota_ownerAt, if_pos rfl]
  by_cases full : (mapGet {} (s.ownerAt o).quotas i).step.melted = (mapGet {} (s.ownerAt o).quotas i).step.joules * 10000000
  · have ends : s.meltOne o i = (s.setQuota o i (mapGet {} (s.ownerAt o).quotas i).step).endLease o i (some 1) := if_pos full
    cases live : (mapGet {} (s.ownerAt o).sprints i).live with
    | true =>
      have melt : (s.ownerAt o).melt s.atBase s.now i = { s.ownerAt o with
          quotas := mapPut (s.ownerAt o).quotas i (mapGet {} (s.ownerAt o).quotas i).step
          sprints := mapPut (s.ownerAt o).sprints i ((mapGet {} (s.ownerAt o).sprints i).ended (s.atBase i) s.now) } := by
        unfold Owner.melt
        dsimp only
        rw [if_pos ⟨full, live⟩]
      rw [ends, State.endLease_ownerAt_of_live ((congrArg Sprint.live (sprint _)).trans live), State.setSprint_ownerAt, State.setQuota_ownerAt,
        State.setQuota_ownerAt, if_pos rfl, sprint, melt]
      split
      · rfl
      · rfl
    | false =>
      have melt : (s.ownerAt o).melt s.atBase s.now i = { s.ownerAt o with
          quotas := mapPut (s.ownerAt o).quotas i (mapGet {} (s.ownerAt o).quotas i).step } := by
        unfold Owner.melt
        dsimp only
        rw [if_neg fun h => Bool.noConfusion (live.symm.trans h.2)]
      rw [ends, State.endLease_of_dead ((congrArg Sprint.live (sprint _)).trans live), State.setQuota_ownerAt, melt]
  · have stays : s.meltOne o i = s.setQuota o i (mapGet {} (s.ownerAt o).quotas i).step := if_neg full
    have melt : (s.ownerAt o).melt s.atBase s.now i = { s.ownerAt o with
        quotas := mapPut (s.ownerAt o).quotas i (mapGet {} (s.ownerAt o).quotas i).step } := by
      unfold Owner.melt
      dsimp only
      rw [if_neg fun h => full h.1]
    rw [stays, State.setQuota_ownerAt, melt]

/-- Every quota of an owner, at MELT_UPDATE. -/
def State.meltOwner (s : State) (o : Nat) : State := (s.ownerAt o).quotas.foldl (fun s p => s.meltOne o p.1) s

theorem State.meltOwner_only (s : State) (o : Nat) : OnlyMelts s (s.meltOwner o) :=
  OnlyMelts.foldl (f := fun s (p : Nat × Quota) => s.meltOne o p.1) (fun u p => u.meltOne_only o p.1) _ s

theorem foldl_meltOne_ownerAt (o k : Nat) (qs : FMap Quota) (s : State) :
    (qs.foldl (fun s p => s.meltOne o p.1) s).ownerAt k =
      if k = o then (qs.map (fun p => p.1)).foldl (Owner.melt s.atBase s.now) (s.ownerAt o) else s.ownerAt k := by
  induction qs generalizing s with
  | nil =>
    split
    · next e => rw [e]; rfl
    · rfl
  | cons p qs ih =>
    have only := s.meltOne_only o p.1
    rw [List.foldl_cons, ih, only.atBase, only.now, State.meltOne_ownerAt, State.meltOne_ownerAt, if_pos rfl]
    split
    · rfl
    · rfl

theorem State.meltOwner_ownerAt (s : State) (o k : Nat) :
    (s.meltOwner o).ownerAt k = if k = o then (s.ownerAt o).meltAll s.atBase s.now else s.ownerAt k :=
  foldl_meltOne_ownerAt o k _ s

theorem exec_meltUpdate (s : State) :
    exec .meltUpdate s = .next ((s.liveOwners.foldl State.meltOwner s).scheduleOnce
      (((s.liveOwners.foldl State.meltOwner s).now / us10 + 1) * us10) .meltUpdate) := rfl

theorem State.melted_ownerAt {s : State} (hd : (s.owners.map (fun p => p.1)).Nodup) {o : Nat} (ho : o ∈ s.liveOwners) :
    (s.liveOwners.foldl State.meltOwner s).ownerAt o = (s.ownerAt o).meltAll s.atBase s.now := by
  refine foldl_obs_of_nodup (f := State.meltOwner) (I := OnlyMelts s) (obs := State.ownerAt) (g := fun _ w => w.meltAll s.atBase s.now)
    (fun u x hu => hu.trans (u.meltOwner_only x)) (fun u x k _ hk => by rw [State.meltOwner_ownerAt, if_neg hk])
    (fun u x hu => by rw [State.meltOwner_ownerAt, if_pos rfl, hu.atBase, hu.now]) (.refl s) ?_ ho
  exact hd.sublist (List.filter_sublist.map _)

/-- MELT_UPDATE (R360, R366). -/
theorem meltUpdate_effect {s : State} (hd : (s.owners.map (fun p => p.1)).Nodup) (hq : ∀ p ∈ s.owners, (p.2.quotas.map (fun y => y.1)).Nodup) :
    ∃ t, exec .meltUpdate s = .next t ∧ t = { s with owners := t.owners, groups := t.groups, agenda := t.agenda } ∧ (∃ p ∈ t.agenda, p.ev = .meltUpdate) ∧
      ∀ o w i y, mapFind s.owners o = some w → w.live = true → mapFind w.quotas i = some y →
        t.quotaAt o i = y.step ∧ (y.step.melted = y.step.joules * 10000000 → (t.sprintAt o i).live = false) := by
  refine ⟨_, exec_meltUpdate s, ?_, State.scheduleOnce_agenda _ _ _, fun o w i y hw hl hy => ?_⟩
  · rw [State.scheduleOnce_eq, (OnlyMelts.foldl State.meltOwner_only s.liveOwners s : _ = _)]
  · have w_eq := State.ownerAt_of_mapFind hw
    have at_ : ((s.liveOwners.foldl State.meltOwner s).scheduleOnce (((s.liveOwners.foldl State.meltOwner s).now / us10 + 1) * us10) .meltUpdate).ownerAt o =
        w.meltAll s.atBase s.now := by
      rw [State.scheduleOnce_eq, ← w_eq]
      exact State.melted_ownerAt hd (State.mem_liveOwners_of_live (w_eq ▸ hl))
    have view := Owner.meltAll_view s.atBase s.now (hq _ (mem_of_mapFind hw)) hy
    unfold State.quotaAt State.sprintAt
    rw [at_]
    refine ⟨congrArg Prod.fst view, fun full => (congrArg Prod.snd view).trans ?_⟩
    rw [decide_eq_true full]
    rfl

/-! ### Clocks and rails (R365, R370, R425) -/

/-- The vote of an owner on an island that its lease may step the clock to: 20 µs have passed since its own rail epoch. -/
def State.ripeVote (s : State) (i o : Nat) : Nat :=
  match (s.sprintAt o i).stepAt with
  | none => 0
  | some e => if e ≤ s.now then s.vote o i else 0

theorem State.risen_eq (s : State) (i : Nat) : s.risen i = s.liveOwners.foldl (fun m o => max m (s.ripeVote i o)) 0 := by
  unfold State.risen
  congr 1
  funext m o
  unfold State.ripeVote
  cases (s.sprintAt o i).stepAt with
  | none => exact (Nat.max_eq_left (Nat.zero_le m)).symm
  | some e =>
    dsimp only
    split
    · rfl
    · exact (Nat.max_eq_left (Nat.zero_le m)).symm

theorem State.le_risen {s : State} {o i e : Nat} (ho : o ∈ s.liveOwners) (hs : (s.sprintAt o i).stepAt = some e) (he : e ≤ s.now) : s.vote o i ≤ s.risen i := by
  have ripe : s.ripeVote i o = s.vote o i := by simp [State.ripeVote, hs, he]
  rw [← ripe, s.risen_eq]
  exact ((foldl_max_le_iff _ _ _ _).1 (Nat.le_refl _)).2 o ho

theorem State.risen_attained {s : State} {i : Nat} (hz : s.risen i ≠ 0) :
    ∃ o ∈ s.liveOwners, ∃ e, (s.sprintAt o i).stepAt = some e ∧ e ≤ s.now ∧ s.risen i = s.vote o i := by
  rw [s.risen_eq] at hz ⊢
  rcases foldl_max_attained (s.ripeVote i) s.liveOwners 0 with h | ⟨o, ho, h⟩
  · exact absurd h hz
  · rw [h] at hz ⊢
    refine ⟨o, ho, ?_⟩
    unfold State.ripeVote at hz ⊢
    cases hs : (s.sprintAt o i).stepAt with
    | none => rw [hs] at hz; exact absurd rfl hz
    | some e =>
      rw [hs] at hz
      dsimp only at hz ⊢
      by_cases he : e ≤ s.now
      · exact ⟨e, rfl, he, if_pos he⟩
      · rw [if_neg he] at hz
        exact absurd rfl hz

/-- CLOCK_STEP (R365). -/
theorem clockStep_effect (s : State) (i l : Nat) :
    ∃ v, exec (.clockStep i l) s = .next (s.setIsland i { s.islandAt i with clock := max (s.islandAt i).clock (min l (min (s.islandAt i).rail v)) }) ∧
      (∀ o ∈ s.liveOwners, ∀ e, (s.sprintAt o i).stepAt = some e → e ≤ s.now → s.vote o i ≤ v) ∧
      (v ≠ 0 → ∃ o ∈ s.liveOwners, ∃ e, (s.sprintAt o i).stepAt = some e ∧ e ≤ s.now ∧ v = s.vote o i) :=
  ⟨s.risen i, rfl, fun _ ho _ hs he => State.le_risen ho hs he, State.risen_attained⟩

/-- A vote of an owner that is new at a rail epoch may step the clock at `at_`. -/
def Owner.stepsAt (i v at_ : Nat) (w : Owner) : Owner :=
  if v ≠ 0 ∧ (mapGet {} w.sprints i).stepAt = none then { w with sprints := mapPut w.sprints i { mapGet {} w.sprints i with stepAt := some at_ } } else w

/-- The charge of an owner's quota on an island follows the voltage of its vote. -/
def Owner.charges (i v : Nat) (w : Owner) : Owner :=
  if (mapFind w.quotas i).isSome then { w with quotas := mapPut w.quotas i { mapGet {} w.quotas i with charging := v } } else w

theorem Owner.stepsAt_sprint (i v at_ : Nat) (w : Owner) (k : Nat) :
    mapGet {} (w.stepsAt i v at_).sprints k =
      if k = i ∧ v ≠ 0 then { mapGet {} w.sprints i with stepAt := (mapGet {} w.sprints i).stepAt.or (some at_) } else mapGet {} w.sprints k := by
  have same {x : Sprint} {e : Nat} (h : x.stepAt = some e) : x = { x with stepAt := x.stepAt.or (some at_) } := by
    rw [h]
    exact congrArg (fun e => { x with stepAt := e }) h
  unfold Owner.stepsAt
  by_cases hv : v = 0
  · rw [if_neg (fun h => h.1 hv), if_neg (fun h => h.2 hv)]
  · cases hs : (mapGet {} w.sprints i).stepAt with
    | none =>
      rw [if_pos ⟨hv, rfl⟩, mapGet_mapPut]
      by_cases e : k = i
      · rw [if_pos e, if_pos ⟨e, hv⟩]
        rfl
      · rw [if_neg e, if_neg fun h => e h.1]
    | some y =>
      rw [if_neg (by simp)]
      by_cases e : k = i
      · subst e
        rw [if_pos ⟨rfl, hv⟩, ← hs]
        exact same hs
      · rw [if_neg fun h => e h.1]

theorem Owner.charges_sprints (i v : Nat) (w : Owner) : (w.charges i v).sprints = w.sprints := by
  unfold Owner.charges
  split <;> rfl

theorem Owner.stepsAt_quotas (i v at_ : Nat) (w : Owner) : (w.stepsAt i v at_).quotas = w.quotas := by
  unfold Owner.stepsAt
  split <;> rfl

theorem Owner.charges_quota (i v : Nat) (w : Owner) (k : Nat) :
    mapFind (w.charges i v).quotas k = if k = i then (mapFind w.quotas i).map (fun y => { y with charging := v }) else mapFind w.quotas k := by
  unfold Owner.charges
  cases hq : mapFind w.quotas i with
  | none =>
    rw [if_neg (by simp)]
    by_cases e : k = i
    · rw [if_pos e, e, hq]
      rfl
    · rw [if_neg e]
  | some y =>
    rw [if_pos (by rfl), mapGet_of_mapFind, hq, mapFind_mapPut]
    rfl

theorem Owner.charges_charges (i v : Nat) (w : Owner) : (w.charges i v).charges i v = w.charges i v := by
  by_cases h : (mapFind w.quotas i).isSome
  · have e : w.charges i v = { w with quotas := mapPut w.quotas i { mapGet {} w.quotas i with charging := v } } := if_pos h
    rw [e]
    unfold Owner.charges
    rw [if_pos (by rw [mapFind_mapPut_same]; rfl), mapGet_mapPut_same, mapPut_mapPut]
  · have e : w.charges i v = w := if_neg h
    rw [e, e]

theorem Owner.stepsAt_stepsAt (i v at_ : Nat) (w : Owner) : (w.stepsAt i v at_).stepsAt i v at_ = w.stepsAt i v at_ := by
  by_cases h : v ≠ 0 ∧ (mapGet {} w.sprints i).stepAt = none
  · have e : w.stepsAt i v at_ = { w with sprints := mapPut w.sprints i { mapGet {} w.sprints i with stepAt := some at_ } } := if_pos h
    rw [e]
    unfold Owner.stepsAt
    rw [mapGet_mapPut_same, if_neg (by simp)]
  · have e : w.stepsAt i v at_ = w := if_neg h
    rw [e, e]

/-- A vote of one owner at a rail epoch of an island. -/
def State.stepVote (s : State) (i o : Nat) : State :=
  if s.vote o i ≠ 0 ∧ (s.sprintAt o i).stepAt = none then s.setSprint o i { s.sprintAt o i with stepAt := some (s.now + us20) } else s

/-- The charge of one owner at a rail epoch of an island. -/
def State.chargeVote (s : State) (i o : Nat) : State :=
  if (mapFind (s.ownerAt o).quotas i).isSome then s.setQuota o i { s.quotaAt o i with charging := s.vote o i } else s

theorem State.stepVote_eq (s : State) (i o : Nat) :
    s.stepVote i o = s ∨ s.stepVote i o = s.setOwner o ((s.ownerAt o).stepsAt i (s.vote o i) (s.now + us20)) := by
  by_cases h : s.vote o i ≠ 0 ∧ (s.sprintAt o i).stepAt = none
  · have e : (s.ownerAt o).stepsAt i (s.vote o i) (s.now + us20) = { s.ownerAt o with
        sprints := mapPut (s.ownerAt o).sprints i { s.sprintAt o i with stepAt := some (s.now + us20) } } := if_pos h
    rw [e]
    exact .inr (if_pos h)
  · exact .inl (if_neg h)

theorem State.stepVote_ownerAt (s : State) (i o k : Nat) :
    (s.stepVote i o).ownerAt k = if k = o then (s.ownerAt o).stepsAt i (s.vote o i) (s.now + us20) else s.ownerAt k := by
  by_cases h : s.vote o i ≠ 0 ∧ (s.sprintAt o i).stepAt = none
  · have e : s.stepVote i o = s.setSprint o i { s.sprintAt o i with stepAt := some (s.now + us20) } := if_pos h
    have e' : (s.ownerAt o).stepsAt i (s.vote o i) (s.now + us20) = { s.ownerAt o with
        sprints := mapPut (s.ownerAt o).sprints i { s.sprintAt o i with stepAt := some (s.now + us20) } } := if_pos h
    rw [e, e', State.setSprint_ownerAt]
  · have e : s.stepVote i o = s := if_neg h
    have e' : (s.ownerAt o).stepsAt i (s.vote o i) (s.now + us20) = s.ownerAt o := if_neg h
    rw [e, e']
    split
    · next e => rw [e]
    · rfl

theorem State.chargeVote_eq (s : State) (i o : Nat) :
    s.chargeVote i o = s ∨ s.chargeVote i o = s.setOwner o ((s.ownerAt o).charges i (s.vote o i)) := by
  by_cases h : (mapFind (s.ownerAt o).quotas i).isSome
  · have e : (s.ownerAt o).charges i (s.vote o i) = { s.ownerAt o with
        quotas := mapPut (s.ownerAt o).quotas i { s.quotaAt o i with charging := s.vote o i } } := if_pos h
    rw [e]
    exact .inr (if_pos h)
  · exact .inl (if_neg h)

theorem State.chargeVote_ownerAt (s : State) (i o k : Nat) :
    (s.chargeVote i o).ownerAt k = if k = o then (s.ownerAt o).charges i (s.vote o i) else s.ownerAt k := by
  by_cases h : (mapFind (s.ownerAt o).quotas i).isSome
  · have e : s.chargeVote i o = s.setQuota o i { s.quotaAt o i with charging := s.vote o i } := if_pos h
    have e' : (s.ownerAt o).charges i (s.vote o i) = { s.ownerAt o with
        quotas := mapPut (s.ownerAt o).quotas i { s.quotaAt o i with charging := s.vote o i } } := if_pos h
    rw [e, e', State.setQuota_ownerAt]
  · have e : s.chargeVote i o = s := if_neg h
    have e' : (s.ownerAt o).charges i (s.vote o i) = s.ownerAt o := if_neg h
    rw [e, e']
    split
    · next e => rw [e]
    · rfl

theorem Owner.stepsAt_only (i v at_ : Nat) (w : Owner) : ∃ sp, w.stepsAt i v at_ = { w with sprints := sp } := by
  unfold Owner.stepsAt
  split
  exacts [⟨_, rfl⟩, ⟨_, rfl⟩]

theorem Owner.charges_only (i v : Nat) (w : Owner) : ∃ qs, w.charges i v = { w with quotas := qs } := by
  unfold Owner.charges
  split
  exacts [⟨_, rfl⟩, ⟨_, rfl⟩]

theorem State.stepVote_keepsVotes (s : State) (i o : Nat) : KeepsVotes s (s.stepVote i o) := by
  rcases s.stepVote_eq i o with e | e
  · rw [e]
    exact .refl s
  · rw [e]
    obtain ⟨sp, only⟩ := (s.ownerAt o).stepsAt_only i (s.vote o i) (s.now + us20)
    refine .of_setOwner ⟨_, sp, _, only⟩ fun k => ?_
    rw [Owner.stepsAt_sprint]
    split
    · next h =>
      rw [h.1]
      exact ⟨rfl, rfl⟩
    · exact ⟨rfl, rfl⟩

theorem State.chargeVote_keepsVotes (s : State) (i o : Nat) : KeepsVotes s (s.chargeVote i o) := by
  rcases s.chargeVote_eq i o with e | e
  · rw [e]
    exact .refl s
  · rw [e]
    obtain ⟨qs, only⟩ := (s.ownerAt o).charges_only i (s.vote o i)
    exact .of_setOwner ⟨_, _, qs, only⟩ fun k => by rw [Owner.charges_sprints]; exact ⟨rfl, rfl⟩

theorem State.setOwner_only (s : State) (o : Nat) (w : Owner) : OnlyOwners s (s.setOwner o w) := rfl

theorem State.stepVote_only (s : State) (i o : Nat) : OnlyOwners s (s.stepVote i o) := by
  rcases s.stepVote_eq i o with e | e <;> rw [e]
  exacts [.refl s, s.setOwner_only o _]

theorem State.chargeVote_only (s : State) (i o : Nat) : OnlyOwners s (s.chargeVote i o) := by
  rcases s.chargeVote_eq i o with e | e <;> rw [e]
  exacts [.refl s, s.setOwner_only o _]

theorem State.stepVotes_ownerAt {s : State} (i : Nat) {o : Nat} (ho : o ∈ s.liveOwners) :
    (s.liveOwners.foldl (fun s o => s.stepVote i o) s).ownerAt o = (s.ownerAt o).stepsAt i (s.vote o i) (s.now + us20) := by
  have h := foldl_obs_of_idem (f := fun s o => State.stepVote s i o) (I := fun u => KeepsVotes s u ∧ OnlyOwners s u) (obs := State.ownerAt)
    (g := fun o w => w.stepsAt i (s.vote o i) (s.now + us20)) (fun u x hu => ⟨hu.1.trans (u.stepVote_keepsVotes i x), hu.2.trans (u.stepVote_only i x)⟩)
    (fun u x k _ hk => by rw [State.stepVote_ownerAt, if_neg hk])
    (fun u x hu => by
      have now : u.now = s.now := by rw [hu.2]
      rw [State.stepVote_ownerAt, if_pos rfl, hu.1.vote, now])
    (fun x w => w.stepsAt_stepsAt i _ _) (xs := s.liveOwners) o ⟨.refl s, .refl s⟩
  rw [if_pos ho] at h
  exact h

theorem State.chargeVotes_ownerAt {s : State} (i : Nat) {xs : List Nat} {o : Nat} (ho : o ∈ xs) :
    (xs.foldl (fun s o => s.chargeVote i o) s).ownerAt o = (s.ownerAt o).charges i (s.vote o i) := by
  have h := foldl_obs_of_idem (f := fun s o => State.chargeVote s i o) (I := KeepsVotes s) (obs := State.ownerAt)
    (g := fun o w => w.charges i (s.vote o i)) (fun u x hu => hu.trans (u.chargeVote_keepsVotes i x))
    (fun u x k _ hk => by rw [State.chargeVote_ownerAt, if_neg hk])
    (fun u x hu => by rw [State.chargeVote_ownerAt, if_pos rfl, hu.vote])
    (fun x w => w.charges_charges i _) (xs := xs) o (.refl s)
  rw [if_pos ho] at h
  exact h

/-- What a rail epoch leaves: only islands and owners change. -/
def OnlyRails (s t : State) : Prop := t = { s with islands := t.islands, owners := t.owners }

theorem OnlyRails.refl (s : State) : OnlyRails s s := rfl

theorem OnlyRails.trans {s t u : State} (h : OnlyRails s t) (h' : OnlyRails t u) : OnlyRails s u :=
  Eq.trans h' (congrArg (fun x : State => { x with islands := u.islands, owners := u.owners }) h)

theorem OnlyOwners.rails {s t : State} (h : OnlyOwners s t) : OnlyRails s t := by
  show t = { s with islands := t.islands, owners := t.owners }
  have e : t.islands = s.islands := by rw [h]
  rw [e]
  exact h

theorem State.setIsland_rails (s : State) (i : Nat) (x : Island) : OnlyRails s (s.setIsland i x) := rfl

theorem State.setIsland_keepsVotes (s : State) (i : Nat) (x : Island) : KeepsVotes s (s.setIsland i x) := .of_owners rfl

/-- The island of a rail epoch, and the owners its canary lets go. -/
def State.railSet (s : State) (i : Nat) : State :=
  let x := s.islandAt i
  let t := s.setIsland i { x with rail := s.topVote i, canary := x.canaryGoal, canaryHold := x.canaryHold && decide (x.canaryGoal ≠ 0) }
  if x.canary ≠ 0 ∧ x.canaryGoal = 0 then t.unholdAll (.canary i) else t

theorem State.railAt_eq (s : State) (i : Nat) :
    s.railAt i =
      ((s.railSet i).liveOwners.foldl (fun s o => s.stepVote i o) (s.railSet i)).liveOwners.foldl (fun s o => s.chargeVote i o)
        ((s.railSet i).liveOwners.foldl (fun s o => s.stepVote i o) (s.railSet i)) := rfl

theorem State.railSet_islandAt (s : State) (i k : Nat) :
    (s.railSet i).islandAt k = if k = i then { s.islandAt i with
      rail := s.topVote i, canary := (s.islandAt i).canaryGoal, canaryHold := (s.islandAt i).canaryHold && decide ((s.islandAt i).canaryGoal ≠ 0) }
    else s.islandAt k := by
  unfold State.railSet
  dsimp only
  split
  · rw [State.unholdAll_only]
    exact s.setIsland_islandAt i _ k
  · exact s.setIsland_islandAt i _ k

theorem State.railSet_keepsVotes (s : State) (i : Nat) : KeepsVotes s (s.railSet i) := by
  unfold State.railSet
  dsimp only
  split
  · exact (s.setIsland_keepsVotes i _).trans (State.unholdAll_keepsVotes _ _)
  · exact s.setIsland_keepsVotes i _

theorem State.railSet_rails (s : State) (i : Nat) : OnlyRails s (s.railSet i) := by
  unfold State.railSet
  dsimp only
  split
  · exact (s.setIsland_rails i _).trans (State.unholdAll_only _ _).rails
  · exact s.setIsland_rails i _

/-- Neither leases nor quotas are written as the rail is set. -/
theorem State.railSet_leases (s : State) (i o : Nat) :
    ((s.railSet i).ownerAt o).sprints = (s.ownerAt o).sprints ∧ ((s.railSet i).ownerAt o).quotas = (s.ownerAt o).quotas := by
  unfold State.railSet
  dsimp only
  split
  · rw [State.unholdAll_ownerAt]
    obtain ⟨h, e⟩ := (s.ownerAt o).withoutHold_only (.canary i)
    exact e ▸ ⟨rfl, rfl⟩
  · exact ⟨rfl, rfl⟩

theorem State.stepVotes_only (s : State) (i : Nat) : OnlyOwners s (s.liveOwners.foldl (fun s o => s.stepVote i o) s) :=
  OnlyOwners.foldl (fun u x => u.stepVote_only i x) _ s

theorem State.stepVotes_keepsVotes (s : State) (i : Nat) : KeepsVotes s (s.liveOwners.foldl (fun s o => s.stepVote i o) s) :=
  KeepsVotes.foldl (fun u x => u.stepVote_keepsVotes i x) _ s

theorem State.railAt_rails (s : State) (i : Nat) : OnlyRails s (s.railAt i) := by
  rw [State.railAt_eq]
  exact ((s.railSet_rails i).trans (State.stepVotes_only _ i).rails).trans (OnlyOwners.foldl (fun u x => u.chargeVote_only i x) _ _).rails

theorem State.railAt_keepsVotes (s : State) (i : Nat) : KeepsVotes s (s.railAt i) := by
  rw [State.railAt_eq]
  exact ((s.railSet_keepsVotes i).trans (State.stepVotes_keepsVotes _ i)).trans (KeepsVotes.foldl (fun u x => u.chargeVote_keepsVotes i x) _ _)

theorem State.railAt_islandAt (s : State) (i k : Nat) :
    (s.railAt i).islandAt k = if k = i then { s.islandAt i with
      rail := s.topVote i, canary := (s.islandAt i).canaryGoal, canaryHold := (s.islandAt i).canaryHold && decide ((s.islandAt i).canaryGoal ≠ 0) }
    else s.islandAt k := by
  rw [State.railAt_eq, OnlyOwners.foldl (fun u x => u.chargeVote_only i x) _ _]
  show State.islandAt (List.foldl _ _ _) k = _
  rw [State.stepVotes_only]
  exact s.railSet_islandAt i k

theorem State.railAt_ownerAt {s : State} {i o : Nat} (ho : o ∈ s.liveOwners) :
    (s.railAt i).ownerAt o = (((s.railSet i).ownerAt o).stepsAt i (s.vote o i) (s.now + us20)).charges i (s.vote o i) := by
  have votes := s.railSet_keepsVotes i
  have now : (s.railSet i).now = s.now := by rw [s.railSet_rails i]
  have ho' := (votes.listed o).2 ho
  rw [State.railAt_eq, State.chargeVotes_ownerAt i (((State.stepVotes_keepsVotes _ i).listed o).2 ho'), State.stepVotes_ownerAt i ho',
    (State.stepVotes_keepsVotes _ i).vote, votes.vote, now]

theorem State.railAt_sprintAt {s : State} {o : Nat} (ho : o ∈ s.liveOwners) (i k : Nat) :
    (s.railAt i).sprintAt o k =
      if k = i ∧ s.vote o i ≠ 0 then { s.sprintAt o i with stepAt := (s.sprintAt o i).stepAt.or (some (s.now + us20)) } else s.sprintAt o k := by
  unfold State.sprintAt
  rw [State.railAt_ownerAt ho, Owner.charges_sprints, Owner.stepsAt_sprint, (s.railSet_leases i o).1]

theorem State.railAt_quota {s : State} {o : Nat} (ho : o ∈ s.liveOwners) (i k : Nat) :
    mapFind ((s.railAt i).ownerAt o).quotas k =
      if k = i then (mapFind (s.ownerAt o).quotas i).map (fun y => { y with charging := s.vote o i }) else mapFind (s.ownerAt o).quotas k := by
  rw [State.railAt_ownerAt ho, Owner.charges_quota, Owner.stepsAt_quotas, (s.railSet_leases i o).2]

/-- The rails of all islands. -/
def State.rails (s : State) : State := (List.range 32).foldl State.railAt s

theorem exec_railEpoch (s : State) : exec .railEpoch s = .next (s.rails.scheduleOnce ((s.rails.now / us100 + 1) * us100) .railEpoch) := rfl

theorem State.rails_rails (s : State) : OnlyRails s s.rails :=
  List.foldlRecOn (motive := OnlyRails s) _ _ (.refl s) fun u hu i _ => hu.trans (u.railAt_rails i)

/-- What each island's rail epoch relies on: the votes, the live owners and the moment are those at the start. -/
def DuringRails (s u : State) : Prop := KeepsVotes s u ∧ u.now = s.now

theorem DuringRails.refl (s : State) : DuringRails s s := ⟨.refl s, rfl⟩

theorem DuringRails.railAt {s u : State} (h : DuringRails s u) (i : Nat) : DuringRails s (u.railAt i) :=
  ⟨h.1.trans (u.railAt_keepsVotes i), Eq.trans (by rw [u.railAt_rails i]) h.2⟩

theorem State.rails_islandAt (s : State) {i : Nat} (hi : i < 32) :
    s.rails.islandAt i = { s.islandAt i with
      rail := s.topVote i, canary := (s.islandAt i).canaryGoal, canaryHold := (s.islandAt i).canaryHold && decide ((s.islandAt i).canaryGoal ≠ 0) } :=
  foldl_obs_of_nodup (f := State.railAt) (I := DuringRails s) (obs := State.islandAt)
    (g := fun i x => { x with rail := s.topVote i, canary := x.canaryGoal, canaryHold := x.canaryHold && decide (x.canaryGoal ≠ 0) })
    (fun _ x hu => hu.railAt x) (fun u x k _ hk => by rw [State.railAt_islandAt, if_neg hk])
    (fun u x hu => by rw [State.railAt_islandAt, if_pos rfl, hu.1.topVote]) (.refl s) List.nodup_range (List.mem_range.2 hi)

theorem State.rails_sprintAt {s : State} {o i : Nat} (ho : o ∈ s.liveOwners) (hi : i < 32) :
    s.rails.sprintAt o i =
      if s.vote o i ≠ 0 then { s.sprintAt o i with stepAt := (s.sprintAt o i).stepAt.or (some (s.now + us20)) } else s.sprintAt o i :=
  foldl_obs_of_nodup (f := State.railAt) (I := DuringRails s) (obs := fun u => u.sprintAt o)
    (g := fun i x => if s.vote o i ≠ 0 then { x with stepAt := x.stepAt.or (some (s.now + us20)) } else x)
    (fun _ x hu => hu.railAt x) (fun u x k hu hk => by rw [State.railAt_sprintAt ((hu.1.listed o).2 ho), if_neg fun h => hk h.1])
    (fun u x hu => by
      rw [State.railAt_sprintAt ((hu.1.listed o).2 ho), hu.1.vote, hu.2]
      simp only [true_and]) (.refl s) List.nodup_range (List.mem_range.2 hi)

theorem State.rails_quota {s : State} {o i : Nat} (ho : o ∈ s.liveOwners) (hi : i < 32) :
    mapFind (s.rails.ownerAt o).quotas i = (mapFind (s.ownerAt o).quotas i).map (fun y => { y with charging := s.vote o i }) :=
  foldl_obs_of_nodup (f := State.railAt) (I := DuringRails s) (obs := fun u => mapFind (u.ownerAt o).quotas)
    (g := fun i x => x.map (fun y : Quota => { y with charging := s.vote o i }))
    (fun _ x hu => hu.railAt x) (fun u x k hu hk => by rw [State.railAt_quota ((hu.1.listed o).2 ho), if_neg hk])
    (fun u x hu => by rw [State.railAt_quota ((hu.1.listed o).2 ho), if_pos rfl, hu.1.vote]) (.refl s) List.nodup_range (List.mem_range.2 hi)

/-- RAIL_EPOCH (R365, R370, R425). -/
theorem railEpoch_effect (s : State) :
    ∃ t, exec .railEpoch s = .next t ∧ t = { s with islands := t.islands, owners := t.owners, agenda := t.agenda } ∧ (∃ p ∈ t.agenda, p.ev = .railEpoch) ∧
      ∀ i, i < 32 → (t.islandAt i).rail = s.topVote i ∧ (t.islandAt i).canary = (s.islandAt i).canaryGoal ∧ (t.islandAt i).clock = (s.islandAt i).clock ∧
        ((t.islandAt i).canaryHold = true ↔ (s.islandAt i).canaryHold = true ∧ (s.islandAt i).canaryGoal ≠ 0) ∧
        ∀ o w, mapFind s.owners o = some w → w.live = true →
          (s.vote o i ≠ 0 → (t.sprintAt o i).stepAt = (s.sprintAt o i).stepAt.or (some (s.now + 360000))) ∧ (s.vote o i = 0 → t.sprintAt o i = s.sprintAt o i) ∧
          ∀ y, mapFind w.quotas i = some y → (t.quotaAt o i).charging = s.vote o i := by
  have only := s.rails_rails
  have islands : ∀ i, i < 32 → s.rails.islandAt i = _ := fun i hi => s.rails_islandAt hi
  have sprints : ∀ o i, o ∈ s.liveOwners → i < 32 → s.rails.sprintAt o i = _ := fun o i ho hi => State.rails_sprintAt ho hi
  have quotas : ∀ o i, o ∈ s.liveOwners → i < 32 → mapFind (s.rails.ownerAt o).quotas i = _ := fun o i ho hi => State.rails_quota ho hi
  refine ⟨_, exec_railEpoch s, ?_, State.scheduleOnce_agenda _ _ _, fun i hi => ?_⟩
  all_goals
    rw [State.scheduleOnce_eq]
    generalize s.rails = u at *
    generalize (u.scheduleOnce _ _).agenda = agenda
  · rw [only]
  · have island : ({ u with agenda := agenda } : State).islandAt i = _ := islands i hi
    rw [island]
    refine ⟨rfl, rfl, rfl, (Bool.and_eq_true _ _).to_iff.trans (and_congr_right fun _ => decide_eq_true_iff), fun o w hw hl => ?_⟩
    have w_eq := State.ownerAt_of_mapFind hw
    have ho := State.mem_liveOwners_of_live (w_eq ▸ hl)
    have sprint : ({ u with agenda := agenda } : State).sprintAt o i = _ := sprints o i ho hi
    refine ⟨fun v => ?_, fun v => ?_, fun y hy => ?_⟩
    · rw [if_pos v] at sprint
      exact congrArg Sprint.stepAt sprint
    · rw [if_neg (not_not_intro v)] at sprint
      exact sprint
    · show (mapGet {} (u.ownerAt o).quotas i).charging = _
      rw [mapGet_of_mapFind, quotas o i ho hi, w_eq, hy]
      rfl

end Sys2Proof.Machine
end


section
/-! Canaries (R425, R426), sensors (R357, R369), hot stacks and broken links (R188, R198), retirement (R152, R178). -/

namespace Sys2Proof.Machine

/-! ### Holds given and taken by an event (R153) -/

theorem exec_holdBegin {s : State} {o : Nat} {c : HoldCause} (hl : (s.ownerAt o).live = true) (hc : c ∉ (s.ownerAt o).held) :
    exec (.holdBegin o c) s = .next (s.setOwner o { s.ownerAt o with held := (s.ownerAt o).held ++ [c] }) :=
  congrArg Host.Outcome.next (if_pos (by simp [hl, hc]))

theorem exec_holdBegin_off {s : State} {o : Nat} {c : HoldCause} (h : (s.ownerAt o).live = false ∨ c ∈ (s.ownerAt o).held) :
    exec (.holdBegin o c) s = .next s :=
  congrArg Host.Outcome.next (if_neg (by rcases h with h | h <;> simp [h]))

theorem exec_holdEnd {s : State} {o : Nat} (c : HoldCause) (hl : (s.ownerAt o).live = true) :
    exec (.holdEnd o c) s = .next (s.setOwner o { s.ownerAt o with held := (s.ownerAt o).held.filter (fun x => decide (x ≠ c)) }) :=
  congrArg Host.Outcome.next (if_pos hl)

theorem exec_holdEnd_off {s : State} {o : Nat} (c : HoldCause) (hl : (s.ownerAt o).live = false) : exec (.holdEnd o c) s = .next s :=
  congrArg Host.Outcome.next (if_neg (by simp [hl]))

theorem State.mem_held_holdAll {s : State} {f : Nat → Bool} {c : HoldCause} {o : Nat} (hl : (s.ownerAt o).live = true) (hf : f o = true) :
    c ∈ ((s.holdAll f c).ownerAt o).held := by
  rw [State.holdAll_ownerAt, if_pos hf]
  exact (Owner.mem_withHold hl c c).2 (.inr rfl)

/-! ### Hot stacks and broken links (R188, R198) -/

/-- A list with an element, once. -/
theorem mem_ite_contains_cons (n : Nat) (xs : List Nat) : n ∈ if xs.contains n then xs else n :: xs := by
  by_cases h : n ∈ xs <;> simp [h]

theorem notMem_filter_ne (n : Nat) (xs : List Nat) : n ∉ xs.filter (fun x => decide (x ≠ n)) := by simp

/-- Which owners a cause that begins holds. -/
theorem State.holdAll_held {s u : State} (hu : u.owners = s.owners) (f : Nat → Bool) (c : HoldCause) :
    ∀ o w, mapFind s.owners o = some w → w.live = true →
      (f o = true → c ∈ ((u.holdAll f c).ownerAt o).held) ∧ (f o = false → ((u.holdAll f c).ownerAt o).held = w.held) := by
  intro o w hw hl
  have w_eq : u.ownerAt o = w := State.ownerAt_of_mapFind (hu ▸ hw)
  refine ⟨fun hf => State.mem_held_holdAll (w_eq ▸ hl) hf, fun hf => ?_⟩
  rw [State.holdAll_ownerAt, if_neg (by simp [hf]), w_eq]

/-- A cause that ends lets every owner go. -/
theorem State.unholdAll_held {s u : State} (hu : u.owners = s.owners) (c : HoldCause) :
    ∀ o w, mapFind s.owners o = some w → w.live = true → ((u.unholdAll c).ownerAt o).held = w.held.filter (fun x => decide (x ≠ c)) := by
  intro o w hw hl
  have w_eq : u.ownerAt o = w := State.ownerAt_of_mapFind (hu ▸ hw)
  rw [State.unholdAll_ownerAt, w_eq, Owner.withoutHold_held hl]

theorem exec_dramStackOvertemp (s : State) (n : Nat) :
    exec (.dramStackOvertemp n) s =
      .next (State.holdAll { s with stacksHot := if s.stacksHot.contains n then s.stacksHot else n :: s.stacksHot } (fun o => s.inStack o n) (.stack n)) := rfl

theorem exec_dramStackCool (s : State) (n : Nat) :
    exec (.dramStackCool n) s = .next ({ s with stacksHot := s.stacksHot.filter (fun x => decide (x ≠ n)) }.unholdAll (.stack n)) := rfl

theorem exec_siloLinkDown (s : State) (n : Nat) :
    exec (.siloLinkDown n) s =
      .next (State.holdAll { s with siloDown := if s.siloDown.contains n then s.siloDown else n :: s.siloDown } s.siloResident (.silo n)) := rfl

theorem exec_siloLinkUp (s : State) (n : Nat) :
    exec (.siloLinkUp n) s = .next ({ s with siloDown := s.siloDown.filter (fun x => decide (x ≠ n)) }.unholdAll (.silo n)) := rfl

/-! ### Canaries (R425, R426) -/

theorem exec_canaryFailure_step {s : State} {i : Nat} (h : (s.islandAt i).canary ≠ 4) :
    exec (.canaryFailure i) s = .next
      ((s.setIsland i { s.islandAt i with canaryGoal := (s.islandAt i).canary + 1, canaryAt := s.now }).schedule .wall (s.now + sec1) (.canaryRelax i)) :=
  congrArg Host.Outcome.next (if_neg h)

theorem exec_canaryFailure_top {s : State} {i : Nat} (h : (s.islandAt i).canary = 4) :
    exec (.canaryFailure i) s = .next
      (((s.holdAll (fun o => s.onIsland o i) (.canary i)).freezeBox.setIsland i { s.islandAt i with
        canaryGoal := 4, canaryAt := s.now, canaryHold := true }).schedule .wall (s.now + sec1) (.canaryRelax i)) :=
  congrArg Host.Outcome.next (if_pos h)

theorem exec_canaryRelax_off {s : State} {i : Nat} (h : s.now < (s.islandAt i).canaryAt + sec1 ∨ (s.islandAt i).canaryGoal = 0) :
    exec (.canaryRelax i) s = .next s :=
  congrArg Host.Outcome.next (if_pos (by simpa using h))

theorem exec_canaryRelax {s : State} {i : Nat} (h : (s.islandAt i).canaryAt + sec1 ≤ s.now) (hg : (s.islandAt i).canaryGoal ≠ 0) :
    let t := s.setIsland i { s.islandAt i with canaryGoal := (s.islandAt i).canaryGoal - 1, canaryAt := s.now }
    exec (.canaryRelax i) s = .next (if (s.islandAt i).canaryGoal = 1 then t else t.schedule .wall (s.now + sec1) (.canaryRelax i)) :=
  congrArg Host.Outcome.next (if_neg (by simp [hg, h]))

theorem State.setIsland_islandAt_same (s : State) (i : Nat) (x : Island) : (s.setIsland i x).islandAt i = x := mapGet_mapPut_same _ _ _ _

theorem State.mem_schedule (s : State) (clk : Clk) (due : Nat) (ev : Instr) : (⟨clk, due, ev⟩ : Pend) ∈ (s.schedule clk due ev).agenda :=
  List.mem_append_right _ (List.mem_singleton_self _)

/-- CANARY_FAILURE at +40 mV (R426). -/
theorem canaryFailure_top_effect {s : State} {i : Nat} (h : (s.islandAt i).canary = 4) :
    ∃ t, exec (.canaryFailure i) s = .next t ∧ t = { s with islands := t.islands, owners := t.owners, boxFrozen := true, agenda := t.agenda } ∧
      (⟨.wall, s.now + 18000000000, .canaryRelax i⟩ : Pend) ∈ t.agenda ∧
      t.islandAt i = { s.islandAt i with canaryGoal := 4, canaryAt := s.now, canaryHold := true } ∧
      ∀ o w, mapFind s.owners o = some w → w.live = true → s.onIsland o i = true → .canary i ∈ (t.ownerAt o).held := by
  refine ⟨_, exec_canaryFailure_top h, ?_, State.mem_schedule _ _ _ _, State.setIsland_islandAt_same _ _ _, fun o w hw hl hon => ?_⟩
  · rw [State.holdAll_only]
    rfl
  · exact (State.holdAll_held (u := s) rfl (fun o => s.onIsland o i) (.canary i) o w hw hl).1 hon

/-! ### The thermal sample (R357, R369, R385) -/

/-- Requests for a move and the moves honoured: nothing else of the state changes. -/
def OnlyMoves (s t : State) : Prop := t = { s with migrations := t.migrations, moves := t.moves }

theorem OnlyMoves.refl (s : State) : OnlyMoves s s := rfl

theorem OnlyMoves.trans {s t u : State} (h : OnlyMoves s t) (h' : OnlyMoves t u) : OnlyMoves s u :=
  Eq.trans h' (congrArg (fun x : State => { x with migrations := u.migrations, moves := u.moves }) h)

/-- A request of an owner with work on a hot core. -/
def State.askMove (s : State) (c o : Nat) : State :=
  if s.worksOn o c && !s.migrations.contains (o, c) then { s with migrations := s.migrations ++ [(o, c)] } else s

/-- The requests for a hot core. -/
def State.askMoves (s : State) (c : Nat) : State := s.liveOwners.foldl (fun s o => s.askMove c o) s

/-- A request honoured where a target exists. -/
def State.grantMove (s : State) (m : Nat × Nat) : State :=
  if s.moves.any (fun x => decide (x.1 = m.1) && decide (x.2.1 = m.2)) then s else
    match s.targetFor m.1 m.2 with
    | none => s
    | some d => { s with moves := s.moves ++ [(m.1, m.2, d)] }

theorem State.raiseMoves_eq (s : State) (hot : List Nat) :
    s.raiseMoves hot = (hot.foldl State.askMoves s).migrations.foldl State.grantMove (hot.foldl State.askMoves s) := by
  refine congrArg (fun f => List.foldl f (hot.foldl State.askMoves s) (hot.foldl State.askMoves s).migrations) ?_
  funext u m
  unfold State.grantMove
  cases u.targetFor m.1 m.2 with
  | none => rfl
  | some d => rfl

theorem State.askMove_only (s : State) (c o : Nat) : OnlyMoves s (s.askMove c o) := by
  unfold State.askMove
  split <;> rfl

theorem State.askMoves_only (s : State) (c : Nat) : OnlyMoves s (s.askMoves c) :=
  List.foldlRecOn (motive := OnlyMoves s) _ _ (.refl s) fun u hu o _ => hu.trans (u.askMove_only c o)

theorem State.grantMove_eq (s : State) (m : Nat × Nat) : s.grantMove m = { s with moves := (s.grantMove m).moves } := by
  unfold State.grantMove
  split
  · rfl
  · split <;> rfl

theorem State.grantMove_only (s : State) (m : Nat × Nat) : OnlyMoves s (s.grantMove m) := by
  rw [s.grantMove_eq]
  rfl

theorem State.raiseMoves_only (s : State) (hot : List Nat) : OnlyMoves s (s.raiseMoves hot) := by
  rw [State.raiseMoves_eq]
  exact List.foldlRecOn (motive := OnlyMoves s) _ _ (List.foldlRecOn (motive := OnlyMoves s) _ _ (.refl s) fun u hu c _ => hu.trans (u.askMoves_only c))
    fun u hu m _ => hu.trans (u.grantMove_only m)

theorem State.raiseMoves_migrations (s : State) (hot : List Nat) : (s.raiseMoves hot).migrations = (hot.foldl State.askMoves s).migrations := by
  rw [State.raiseMoves_eq]
  exact List.foldlRecOn (motive := fun u : State => u.migrations = (hot.foldl State.askMoves s).migrations) _ _ rfl fun u hu m _ => by
    rw [u.grantMove_eq]
    exact hu

theorem State.mem_askMove_of_mem {s : State} {c o : Nat} {m : Nat × Nat} (h : m ∈ s.migrations) : m ∈ (s.askMove c o).migrations := by
  unfold State.askMove
  split
  · exact List.mem_append_left _ h
  · exact h

theorem State.mem_askMoves_of_mem {s : State} {c : Nat} {m : Nat × Nat} (h : m ∈ s.migrations) : m ∈ (s.askMoves c).migrations :=
  List.foldlRecOn (motive := fun u : State => m ∈ u.migrations) _ _ h fun _ hu _ _ => State.mem_askMove_of_mem hu

theorem State.mem_askMove {s : State} {c o : Nat} (h : s.worksOn o c = true) : (o, c) ∈ (s.askMove c o).migrations := by
  unfold State.askMove
  by_cases hm : (o, c) ∈ s.migrations
  · rw [if_neg (by simp [hm])]
    exact hm
  · rw [if_pos (by simp [h, hm])]
    exact List.mem_append_right _ (List.mem_singleton_self _)

theorem OnlyMoves.worksOn {s t : State} (h : OnlyMoves s t) (o c : Nat) : t.worksOn o c = s.worksOn o c := by
  rw [h]
  rfl

theorem OnlyMoves.liveOwners {s t : State} (h : OnlyMoves s t) : t.liveOwners = s.liveOwners := by
  rw [h]
  rfl

theorem State.mem_askMoves {s : State} {c o : Nat} (ho : o ∈ s.liveOwners) (h : s.worksOn o c = true) : (o, c) ∈ (s.askMoves c).migrations :=
  foldl_reaches (I := OnlyMoves s) (P := fun u => (o, c) ∈ u.migrations) (fun u x _ hu => hu.trans (u.askMove_only c x))
    (fun _ _ _ _ hp => State.mem_askMove_of_mem hp) ho (fun _ hu => State.mem_askMove ((hu.worksOn o c).trans h)) (.refl s)

theorem State.mem_raiseMoves {s : State} {hot : List Nat} {c o : Nat} (hc : c ∈ hot) (ho : o ∈ s.liveOwners) (h : s.worksOn o c = true) :
    (o, c) ∈ (s.raiseMoves hot).migrations := by
  rw [State.raiseMoves_migrations]
  exact foldl_reaches (I := OnlyMoves s) (P := fun u => (o, c) ∈ u.migrations) (fun u x _ hu => hu.trans (u.askMoves_only x))
    (fun _ _ _ _ hp => State.mem_askMoves_of_mem hp) hc (fun _ hu => State.mem_askMoves (hu.liveOwners ▸ ho) ((hu.worksOn o c).trans h)) (.refl s)

/-- An emergency on islands or the package: nothing else of the state changes. -/
def OnlyHeats (s t : State) : Prop := t = { s with islands := t.islands, owners := t.owners, boxFrozen := t.boxFrozen, lidEmergency := t.lidEmergency }

theorem OnlyHeats.refl (s : State) : OnlyHeats s s := rfl

theorem OnlyHeats.trans {s t u : State} (h : OnlyHeats s t) (h' : OnlyHeats t u) : OnlyHeats s u :=
  Eq.trans h' (congrArg (fun x : State => { x with islands := u.islands, owners := u.owners, boxFrozen := u.boxFrozen, lidEmergency := u.lidEmergency }) h)

theorem OnlyOwners.heats {s t : State} (h : OnlyOwners s t) : OnlyHeats s t := by
  have e : t.islands = s.islands ∧ t.boxFrozen = s.boxFrozen ∧ t.lidEmergency = s.lidEmergency := by
    rw [h]
    exact ⟨rfl, rfl, rfl⟩
  show t = { s with islands := t.islands, owners := t.owners, boxFrozen := t.boxFrozen, lidEmergency := t.lidEmergency }
  rw [e.1, e.2.1, e.2.2]
  exact h

theorem OnlyHeats.reading {s t : State} (h : OnlyHeats s t) (c : Nat) : t.reading c = s.reading c := by
  unfold State.reading
  rw [h]

theorem OnlyMoves.reading {s t : State} (h : OnlyMoves s t) (c : Nat) : t.reading c = s.reading c := by
  unfold State.reading
  rw [h]

/-- A core of an island is above 105 °C. -/
def State.isHot (s : State) (i : Nat) : Bool := ((List.range 512).filter (fun c => decide (islandOf c = i))).any (fun c => decide (105 < s.reading c))

/-- All cores of an island are below 100 °C. -/
def State.isCool (s : State) (i : Nat) : Bool := ((List.range 512).filter (fun c => decide (islandOf c = i))).all (fun c => decide (s.reading c < 100))

theorem State.isHot_iff (s : State) (i : Nat) : s.isHot i = true ↔ ∃ c, c < 512 ∧ islandOf c = i ∧ 105 < s.reading c := by
  simp only [State.isHot, List.any_eq_true, List.mem_filter, List.mem_range, decide_eq_true_eq, and_assoc]

theorem State.isCool_eq_false_iff (s : State) (i : Nat) : s.isCool i = false ↔ ∃ c, c < 512 ∧ islandOf c = i ∧ 100 ≤ s.reading c := by
  simp only [State.isCool, List.all_eq_false, List.mem_filter, List.mem_range, decide_eq_true_eq, and_assoc, Nat.not_lt]

theorem OnlyHeats.isHot {s t : State} (h : OnlyHeats s t) (i : Nat) : t.isHot i = s.isHot i := by
  unfold State.isHot
  simp only [h.reading]

theorem OnlyHeats.isCool {s t : State} (h : OnlyHeats s t) (i : Nat) : t.isCool i = s.isCool i := by
  unfold State.isCool
  simp only [h.reading]

/-- The emergency of an island is over. -/
def State.heatOff (s : State) (i : Nat) : State := s.setIsland i { s.islandAt i with emergency := false, emergEnd := some s.now }

/-- The emergency of an island is on. -/
def State.heatOn (s : State) (i : Nat) : State :=
  (if (s.islandAt i).emergency then s else s.freezeBox).setIsland i { s.islandAt i with emergency := true }

theorem State.heatOn_eq (s : State) (i : Nat) : ∃ b, s.heatOn i = { s with boxFrozen := b, islands := mapPut s.islands i { s.islandAt i with emergency := true } } := by
  unfold State.heatOn
  split
  exacts [⟨_, rfl⟩, ⟨_, rfl⟩]

theorem State.islandHeat_eq (s : State) (i : Nat) :
    s.islandHeat i =
      if ((s.islandAt i).emergency || s.isHot i) && s.isCool i then (s.heatOff i).unholdAll (.emergencyIsland i)
      else if (s.islandAt i).emergency || s.isHot i then (s.heatOn i).holdAll (fun o => (s.heatOn i).onIsland o i) (.emergencyIsland i)
      else s := rfl

theorem State.islandHeat_ends {s : State} {i : Nat} (hot : ((s.islandAt i).emergency || s.isHot i) = true) (cool : s.isCool i = true) :
    s.islandHeat i = (s.heatOff i).unholdAll (.emergencyIsland i) := by
  rw [State.islandHeat_eq, if_pos (by rw [hot, cool]; rfl)]

theorem State.islandHeat_holds {s : State} {i : Nat} (hot : ((s.islandAt i).emergency || s.isHot i) = true) (warm : s.isCool i = false) :
    s.islandHeat i = (s.heatOn i).holdAll (fun o => (s.heatOn i).onIsland o i) (.emergencyIsland i) := by
  rw [State.islandHeat_eq, if_neg (by rw [warm, Bool.and_false]; exact Bool.false_ne_true), if_pos hot]

theorem State.islandHeat_off {s : State} {i : Nat} (off : ((s.islandAt i).emergency || s.isHot i) = false) : s.islandHeat i = s := by
  rw [State.islandHeat_eq, if_neg (by rw [off, Bool.false_and]; exact Bool.false_ne_true), if_neg (by rw [off]; exact Bool.false_ne_true)]

/-- What can happen to an island at a sample: its emergency ends, begins or goes on, or there is none. -/
theorem State.islandHeat_cases {s : State} {i : Nat} {P : State → Prop}
    (ends : ((s.islandAt i).emergency || s.isHot i) = true → s.isCool i = true → P ((s.heatOff i).unholdAll (.emergencyIsland i)))
    (holds : ((s.islandAt i).emergency || s.isHot i) = true → s.isCool i = false →
      P ((s.heatOn i).holdAll (fun o => (s.heatOn i).onIsland o i) (.emergencyIsland i)))
    (off : ((s.islandAt i).emergency || s.isHot i) = false → P s) : P (s.islandHeat i) := by
  cases hot : (s.islandAt i).emergency || s.isHot i with
  | false =>
    rw [State.islandHeat_off hot]
    exact off hot
  | true =>
    cases cool : s.isCool i with
    | true =>
      rw [State.islandHeat_ends hot cool]
      exact ends hot cool
    | false =>
      rw [State.islandHeat_holds hot cool]
      exact holds hot cool

theorem State.heatOff_keepsVotes (s : State) (i : Nat) : KeepsVotes s (s.heatOff i) := .of_owners rfl

theorem State.heatOn_keepsVotes (s : State) (i : Nat) : KeepsVotes s (s.heatOn i) := by
  obtain ⟨b, e⟩ := s.heatOn_eq i
  exact .of_owners (by rw [e])

theorem State.setIsland_heats (s : State) (i : Nat) (x : Island) : OnlyHeats s (s.setIsland i x) := rfl

theorem State.heatOff_heats (s : State) (i : Nat) : OnlyHeats s (s.heatOff i) := rfl

theorem State.heatOn_heats (s : State) (i : Nat) : OnlyHeats s (s.heatOn i) := by
  obtain ⟨b, e⟩ := s.heatOn_eq i
  rw [e]
  rfl

theorem State.islandHeat_keepsVotes (s : State) (i : Nat) : KeepsVotes s (s.islandHeat i) :=
  State.islandHeat_cases (fun _ _ => (s.heatOff_keepsVotes i).trans (State.unholdAll_keepsVotes _ _))
    (fun _ _ => (s.heatOn_keepsVotes i).trans (State.holdAll_keepsVotes _ _ _)) fun _ => .refl s

theorem State.islandHeat_heats (s : State) (i : Nat) : OnlyHeats s (s.islandHeat i) :=
  State.islandHeat_cases (fun _ _ => (s.heatOff_heats i).trans (State.unholdAll_only _ _).heats)
    (fun _ _ => (s.heatOn_heats i).trans (State.holdAll_only _ _ _).heats) fun _ => .refl s

theorem State.islandHeat_lid (s : State) (i : Nat) : (s.islandHeat i).lidEmergency = s.lidEmergency := by
  refine State.islandHeat_cases (P := fun t => t.lidEmergency = s.lidEmergency) (fun _ _ => ?_) (fun _ _ => ?_) fun _ => rfl
  · rw [State.unholdAll_only]
    rfl
  · rw [State.holdAll_only]
    obtain ⟨b, e⟩ := s.heatOn_eq i
    rw [e]

theorem State.heatOff_islandAt (s : State) (i k : Nat) :
    (s.heatOff i).islandAt k = if k = i then { s.islandAt i with emergency := false, emergEnd := some s.now } else s.islandAt k :=
  s.setIsland_islandAt i _ k

theorem State.heatOn_islandAt (s : State) (i k : Nat) :
    (s.heatOn i).islandAt k = if k = i then { s.islandAt i with emergency := true } else s.islandAt k := by
  obtain ⟨b, e⟩ := s.heatOn_eq i
  rw [e]
  exact s.setIsland_islandAt i _ k

theorem State.heatOn_ownerAt (s : State) (i o : Nat) : (s.heatOn i).ownerAt o = s.ownerAt o := by
  obtain ⟨b, e⟩ := s.heatOn_eq i
  rw [e]
  rfl

theorem State.unholdAll_islandAt (s : State) (c : HoldCause) (k : Nat) : (s.unholdAll c).islandAt k = s.islandAt k := by
  rw [State.unholdAll_only]
  rfl

theorem State.holdAll_islandAt (s : State) (f : Nat → Bool) (c : HoldCause) (k : Nat) : (s.holdAll f c).islandAt k = s.islandAt k := by
  rw [State.holdAll_only]
  rfl

theorem State.islandHeat_emergency (s : State) (i k : Nat) :
    ((s.islandHeat i).islandAt k).emergency =
      if k = i then ((s.islandAt i).emergency || s.isHot i) && !s.isCool i else (s.islandAt k).emergency := by
  refine State.islandHeat_cases (P := fun t => (t.islandAt k).emergency = _) (fun hot cool => ?_) (fun hot warm => ?_) fun off => ?_
  · rw [State.unholdAll_islandAt, State.heatOff_islandAt, cool, Bool.not_true, Bool.and_false]
    split <;> rfl
  · rw [State.holdAll_islandAt, State.heatOn_islandAt, hot, warm]
    split <;> rfl
  · rw [off, Bool.false_and]
    split
    · next e =>
      rw [e]
      exact (Bool.or_eq_false_iff.1 off).1
    · rfl

theorem State.islandHeat_held {s : State} {o i : Nat} (hl : (s.ownerAt o).live = true) (hon : s.onIsland o i = true) :
    decide (.emergencyIsland i ∈ ((s.islandHeat i).ownerAt o).held) =
      if (s.islandAt i).emergency || s.isHot i then !s.isCool i else decide (.emergencyIsland i ∈ (s.ownerAt o).held) := by
  refine State.islandHeat_cases (P := fun t => decide (.emergencyIsland i ∈ (t.ownerAt o).held) = _) (fun hot cool => ?_) (fun hot warm => ?_) fun off => ?_
  · rw [if_pos hot, cool, State.unholdAll_ownerAt]
    refine decide_eq_false ?_
    have live : ((s.heatOff i).ownerAt o).live = true := hl
    rw [Owner.withoutHold_held live]
    simp
  · rw [if_pos hot, warm]
    exact decide_eq_true (State.mem_held_holdAll (by rw [State.heatOn_ownerAt]; exact hl) (((s.heatOn_keepsVotes i).onIsland o i).trans hon))
  · rw [off]
    rfl

theorem State.islandHeat_held_ne {s : State} {o i k : Nat} (hl : (s.ownerAt o).live = true) (hk : k ≠ i) :
    .emergencyIsland k ∈ ((s.islandHeat i).ownerAt o).held ↔ .emergencyIsland k ∈ (s.ownerAt o).held := by
  have other : HoldCause.emergencyIsland k ≠ .emergencyIsland i := fun e => hk (HoldCause.emergencyIsland.inj e)
  refine State.islandHeat_cases (P := fun t => .emergencyIsland k ∈ (t.ownerAt o).held ↔ .emergencyIsland k ∈ (s.ownerAt o).held)
    (fun _ _ => ?_) (fun _ _ => ?_) fun _ => Iff.rfl
  · rw [State.unholdAll_ownerAt, Owner.mem_withoutHold other]
    rfl
  · rw [State.holdAll_ownerAt, State.heatOn_ownerAt]
    split
    · rw [Owner.mem_withHold hl]
      exact or_iff_left other
    · rfl

/-- The islands at a sample. -/
def State.islandsHeat (s : State) : State := (List.range 32).foldl State.islandHeat s

theorem State.islandsHeat_heats (s : State) : OnlyHeats s s.islandsHeat :=
  List.foldlRecOn (motive := OnlyHeats s) _ _ (.refl s) fun u hu i _ => hu.trans (u.islandHeat_heats i)

theorem State.islandsHeat_lid (s : State) : s.islandsHeat.lidEmergency = s.lidEmergency :=
  List.foldlRecOn (motive := fun u : State => u.lidEmergency = s.lidEmergency) _ _ rfl fun u hu i _ => (u.islandHeat_lid i).trans hu

theorem State.islandsHeat_live (s : State) (o : Nat) : (s.islandsHeat.ownerAt o).live = (s.ownerAt o).live :=
  KeepsVotes.live (KeepsVotes.foldl State.islandHeat_keepsVotes (List.range 32) s) o

theorem State.islandsHeat_emergency (s : State) {i : Nat} (hi : i < 32) :
    (s.islandsHeat.islandAt i).emergency = (((s.islandAt i).emergency || s.isHot i) && !s.isCool i) :=
  foldl_obs_of_nodup (f := State.islandHeat) (I := OnlyHeats s) (obs := fun u i => (u.islandAt i).emergency)
    (g := fun i e => (e || s.isHot i) && !s.isCool i) (fun u x hu => hu.trans (u.islandHeat_heats x))
    (fun u x k _ hk => by rw [State.islandHeat_emergency, if_neg hk])
    (fun u x hu => by rw [State.islandHeat_emergency, if_pos rfl, hu.isHot, hu.isCool]) (.refl s) List.nodup_range (List.mem_range.2 hi)

/-- What a sample shows of an island to an owner: whether its emergency is on, and whether it holds the owner there. -/
def State.heatView (s : State) (o i : Nat) : Bool × Bool :=
  ((s.islandAt i).emergency, s.onIsland o i && decide (.emergencyIsland i ∈ (s.ownerAt o).held))

theorem State.islandHeat_view {s : State} {o : Nat} (hl : (s.ownerAt o).live = true) (i : Nat) :
    (s.islandHeat i).heatView o i = (((s.heatView o i).1 || s.isHot i) && !s.isCool i,
      s.onIsland o i && if (s.heatView o i).1 || s.isHot i then !s.isCool i else (s.heatView o i).2) := by
  unfold State.heatView
  rw [State.islandHeat_emergency, if_pos rfl, (s.islandHeat_keepsVotes i).onIsland]
  refine Prod.ext rfl ?_
  cases on : s.onIsland o i with
  | false => rfl
  | true =>
    rw [State.islandHeat_held hl on]
    rfl

theorem State.islandHeat_view_ne {s : State} {o i k : Nat} (hl : (s.ownerAt o).live = true) (hk : k ≠ i) :
    (s.islandHeat i).heatView o k = s.heatView o k := by
  unfold State.heatView
  rw [State.islandHeat_emergency, if_neg hk, (s.islandHeat_keepsVotes i).onIsland, decide_eq_decide.2 (State.islandHeat_held_ne hl hk)]

theorem State.islandsHeat_view {s : State} {o i : Nat} (hl : (s.ownerAt o).live = true) (hi : i < 32) :
    s.islandsHeat.heatView o i = (((s.heatView o i).1 || s.isHot i) && !s.isCool i,
      s.onIsland o i && if (s.heatView o i).1 || s.isHot i then !s.isCool i else (s.heatView o i).2) :=
  foldl_obs_of_nodup (f := State.islandHeat) (I := fun u => OnlyHeats s u ∧ KeepsVotes s u) (obs := fun u => u.heatView o)
    (g := fun i e => ((e.1 || s.isHot i) && !s.isCool i, s.onIsland o i && if e.1 || s.isHot i then !s.isCool i else e.2))
    (fun u x hu => ⟨hu.1.trans (u.islandHeat_heats x), hu.2.trans (u.islandHeat_keepsVotes x)⟩)
    (fun _ _ _ hu hk => State.islandHeat_view_ne ((hu.2.live o).trans hl) hk)
    (fun u x hu => by rw [State.islandHeat_view ((hu.2.live o).trans hl), hu.2.onIsland, hu.1.isHot, hu.1.isCool])
    ⟨.refl s, .refl s⟩ List.nodup_range (List.mem_range.2 hi)

/-- An emergency that is on after the sample holds whoever stands on its island. -/
theorem State.islandsHeat_held {s : State} {o i : Nat} (hi : i < 32) (hl : (s.ownerAt o).live = true) (hon : s.onIsland o i = true)
    (on : (s.islandsHeat.islandAt i).emergency = true) : .emergencyIsland i ∈ (s.islandsHeat.ownerAt o).held := by
  have view := State.islandsHeat_view hl hi
  generalize s.islandsHeat = u at on view ⊢
  unfold State.heatView at view
  rw [on, hon, Bool.true_and] at view
  obtain ⟨fst, snd⟩ := Prod.mk.inj view
  obtain ⟨hot, warm⟩ := Bool.and_eq_true_iff.1 fst.symm
  rw [if_pos hot, warm] at snd
  exact of_decide_eq_true (Bool.and_eq_true_iff.1 snd).2

/-! ### The package (R369) -/

/-- The islands as the package's emergency ends. -/
def State.lidOff (s : State) : State := (List.range 32).foldl (fun s i => s.setIsland i { s.islandAt i with emergEnd := some s.now }) s

theorem State.lidOff_heats (s : State) : OnlyHeats s s.lidOff := by
  unfold State.lidOff
  exact List.foldlRecOn (motive := OnlyHeats s) _ _ (.refl s) fun u hu i _ => hu.trans (u.setIsland_heats i _)

theorem State.lidOff_owners (s : State) : s.lidOff.owners = s.owners := by
  unfold State.lidOff
  exact List.foldlRecOn (motive := fun u : State => u.owners = s.owners) _ _ rfl fun _ hu _ _ => hu

theorem State.lidOff_emergency (s : State) (k : Nat) : (s.lidOff.islandAt k).emergency = (s.islandAt k).emergency := by
  unfold State.lidOff
  exact List.foldlRecOn (motive := fun u : State => (u.islandAt k).emergency = (s.islandAt k).emergency) _ _ rfl fun u hu i _ => by
    rw [State.setIsland_islandAt]
    split
    · next e => rw [← hu, e]
    · exact hu

theorem State.lidHeat_ends {s : State} (on : s.lidEmergency = true) (cool : s.meltSensor < 90) :
    s.lidHeat = { s.lidOff.unholdAll .emergencyLid with lidEmergency := false } :=
  if_pos (by simp [on, cool])

theorem State.lidHeat_holds {s : State} (warm : ¬(s.lidEmergency = true ∧ s.meltSensor < 90)) (hot : s.lidEmergency = true ∨ 98 < s.meltSensor) :
    ∃ b, s.lidHeat = { State.holdAll { s with boxFrozen := b } (fun _ => true) .emergencyLid with lidEmergency := true } := by
  refine ⟨(if s.lidEmergency then s else s.freezeBox).boxFrozen, ?_⟩
  unfold State.lidHeat
  rw [if_neg (by simpa using warm), if_pos (by simpa using hot)]
  split <;> rfl

theorem State.lidHeat_off {s : State} (off : ¬(s.lidEmergency = true ∨ 98 < s.meltSensor)) : s.lidHeat = s := by
  unfold State.lidHeat
  rw [if_neg (by simp at off ⊢; simp [off]), if_neg (by simpa using off)]

theorem State.lidHeat_cases {s : State} {P : State → Prop}
    (ends : s.lidEmergency = true → s.meltSensor < 90 → P { s.lidOff.unholdAll .emergencyLid with lidEmergency := false })
    (holds : ¬(s.lidEmergency = true ∧ s.meltSensor < 90) → s.lidEmergency = true ∨ 98 < s.meltSensor →
      ∀ b, P { State.holdAll { s with boxFrozen := b } (fun _ => true) .emergencyLid with lidEmergency := true })
    (off : ¬(s.lidEmergency = true ∨ 98 < s.meltSensor) → P s) : P s.lidHeat := by
  by_cases hot : s.lidEmergency = true ∨ 98 < s.meltSensor
  · by_cases gone : s.lidEmergency = true ∧ s.meltSensor < 90
    · rw [State.lidHeat_ends gone.1 gone.2]
      exact ends gone.1 gone.2
    · obtain ⟨b, e⟩ := State.lidHeat_holds gone hot
      rw [e]
      exact holds gone hot b
  · rw [State.lidHeat_off hot]
    exact off hot

theorem State.lidHeat_heats (s : State) : OnlyHeats s s.lidHeat := by
  refine State.lidHeat_cases (fun _ _ => ?_) (fun _ _ b => ?_) fun _ => .refl s
  · exact (s.lidOff_heats.trans (State.unholdAll_only _ _).heats).trans rfl
  · have frozen : OnlyHeats s { s with boxFrozen := b } := rfl
    exact (frozen.trans (State.holdAll_only _ _ _).heats).trans rfl

theorem State.lidHeat_emergency (s : State) (k : Nat) : (s.lidHeat.islandAt k).emergency = (s.islandAt k).emergency := by
  refine State.lidHeat_cases (P := fun t => (t.islandAt k).emergency = _) (fun _ _ => ?_) (fun _ _ b => ?_) fun _ => rfl
  · exact (congrArg Island.emergency (State.unholdAll_islandAt _ _ k)).trans (s.lidOff_emergency k)
  · exact congrArg Island.emergency (State.holdAll_islandAt { s with boxFrozen := b } _ _ k)

theorem State.lidHeat_held {s : State} {o i : Nat} (hl : (s.ownerAt o).live = true) (h : .emergencyIsland i ∈ (s.ownerAt o).held) :
    .emergencyIsland i ∈ (s.lidHeat.ownerAt o).held := by
  refine State.lidHeat_cases (P := fun t => .emergencyIsland i ∈ (t.ownerAt o).held) (fun _ _ => ?_) (fun _ _ b => ?_) fun _ => h
  · show .emergencyIsland i ∈ ((State.unholdAll s.lidOff .emergencyLid).ownerAt o).held
    rw [State.unholdAll_ownerAt]
    refine (Owner.mem_withoutHold (by simp)).2 ?_
    unfold State.ownerAt
    rw [s.lidOff_owners]
    exact h
  · show .emergencyIsland i ∈ ((State.holdAll { s with boxFrozen := b } (fun _ => true) .emergencyLid).ownerAt o).held
    rw [State.holdAll_ownerAt, if_pos rfl]
    exact (Owner.mem_withHold hl _ _).2 (.inl h)

theorem State.lidHeat_lid (s : State) :
    s.lidHeat.lidEmergency = true ↔ (s.lidEmergency = true ∧ 90 ≤ s.meltSensor) ∨ (s.lidEmergency = false ∧ 98 < s.meltSensor) := by
  refine State.lidHeat_cases (P := fun t => t.lidEmergency = true ↔ _) (fun on cool => ?_) (fun warm hot b => ?_) fun off => ?_
  · simp [on, cool]
  · cases on : s.lidEmergency with
    | true => simpa [on] using warm
    | false => simpa [on] using hot
  · have on : s.lidEmergency = false := by simpa using fun h => off (.inl h)
    simpa [on] using fun h => off (.inr h)

/-! ### A whole sample -/

/-- The readings of a sample. -/
def State.sense (s : State) (r : List (Nat × Nat)) (p : Nat) : State :=
  { s with sensors := r.foldl (fun m (x : Nat × Nat) => mapSet 0 m x.1 x.2) s.sensors, meltSensor := p }

/-- The cores that read more than 95 °C. -/
def hotCores (r : List (Nat × Nat)) : List Nat := (r.filter (fun (x : Nat × Nat) => decide (95 < x.2))).map (fun (x : Nat × Nat) => x.1)

theorem mem_hotCores {r : List (Nat × Nat)} {c v : Nat} (h : (c, v) ∈ r) (hv : 95 < v) : c ∈ hotCores r :=
  List.mem_map.2 ⟨(c, v), List.mem_filter.2 ⟨h, decide_eq_true hv⟩, rfl⟩

theorem exec_thermalSample_off {s : State} (r : List (Nat × Nat)) (p : Nat) (h : s.now % 180000 ≠ 0) : exec (.thermalSample r p) s = .next s :=
  if_pos h

theorem exec_thermalSample {s : State} (r : List (Nat × Nat)) (p : Nat) (h : s.now % 180000 = 0) :
    ∃ x, exec (.thermalSample r p) s = .next { ((s.sense r p).raiseMoves (hotCores r)).islandsHeat.lidHeat with sample := x } := by
  have due : ¬s.now % us10 ≠ 0 := not_not_intro h
  exact ⟨_, if_neg due⟩

/-- The readings in order: the last one of a core counts, and a core without one keeps what it has. -/
theorem mapGet_foldl_mapSet_of_notMem (r : List (Nat × Nat)) (m : FMap Nat) {c : Nat} (h : ∀ x ∈ r, x.1 ≠ c) :
    mapGet 0 (r.foldl (fun m (x : Nat × Nat) => mapSet 0 m x.1 x.2) m) c = mapGet 0 m c :=
  List.foldlRecOn (motive := fun m' => mapGet 0 m' c = mapGet 0 m c) _ _ rfl fun _ hm x hx => (mapGet_mapSet_ne 0 _ _ (h x hx).symm).trans hm

theorem State.sense_reading_last (s : State) (p : Nat) {before after : List (Nat × Nat)} {c v : Nat} (h : ∀ x ∈ after, x.1 ≠ c) :
    (s.sense (before ++ (c, v) :: after) p).reading c = v := by
  show mapGet 0 (List.foldl _ _ (before ++ (c, v) :: after)) c = v
  rw [List.foldl_append, List.foldl_cons, mapGet_foldl_mapSet_of_notMem _ _ h, mapGet_mapSet_same]

theorem State.sense_reading_none (s : State) (p : Nat) {r : List (Nat × Nat)} {c : Nat} (h : ∀ v, (c, v) ∉ r) : (s.sense r p).reading c = s.reading c :=
  mapGet_foldl_mapSet_of_notMem r s.sensors fun x hx e => h x.2 (e ▸ hx)

/-- THERMAL_SAMPLE (R357, R369, R385): what the sampled state becomes. -/
theorem thermalSample_effect {s : State} (r : List (Nat × Nat)) (p : Nat) (h : s.now % 180000 = 0) :
    ∃ t, exec (.thermalSample r p) s = .next t ∧
      t = { s with
        sensors := t.sensors, meltSensor := p, migrations := t.migrations, moves := t.moves, islands := t.islands, owners := t.owners
        lidEmergency := t.lidEmergency, boxFrozen := t.boxFrozen, sample := t.sample } ∧
      (∀ c, t.reading c = (s.sense r p).reading c) ∧
      (∀ c v, (c, v) ∈ r → 95 < v → ∀ o w, mapFind s.owners o = some w → w.live = true → s.worksOn o c = true → (o, c) ∈ t.migrations) ∧
      (t.lidEmergency = true ↔ (s.lidEmergency = true ∧ 90 ≤ p) ∨ (s.lidEmergency = false ∧ 98 < p)) ∧
      (∀ i, i < 32 →
        ((t.islandAt i).emergency = true ↔
          ((s.islandAt i).emergency = true ∨ ∃ c, c < 512 ∧ islandOf c = i ∧ 105 < t.reading c) ∧ ∃ c, c < 512 ∧ islandOf c = i ∧ 100 ≤ t.reading c) ∧
        ((t.islandAt i).emergency = true → ∀ o w, mapFind s.owners o = some w → w.live = true → s.onIsland o i = true →
          .emergencyIsland i ∈ (t.ownerAt o).held)) := by
  obtain ⟨x, ex⟩ := exec_thermalSample r p h
  have moves := (s.sense r p).raiseMoves_only (hotCores r)
  have asked : ∀ c o, c ∈ hotCores r → o ∈ s.liveOwners → s.worksOn o c = true → (o, c) ∈ ((s.sense r p).raiseMoves (hotCores r)).migrations :=
    fun c o hc ho hw => State.mem_raiseMoves hc ho hw
  generalize (s.sense r p).raiseMoves (hotCores r) = u at ex moves asked
  have owners : u.owners = s.owners := by rw [moves]; rfl
  have islands : u.islands = s.islands := by rw [moves]; rfl
  have lid : u.lidEmergency = s.lidEmergency := by rw [moves]; rfl
  have melt : u.meltSensor = p := by rw [moves]; rfl
  have heats := u.islandsHeat_heats
  have emergency (i : Nat) (hi : i < 32) := u.islandsHeat_emergency hi
  have held (o i : Nat) (hi : i < 32) (hl : (u.ownerAt o).live = true) := State.islandsHeat_held hi hl
  have live := u.islandsHeat_live
  have lid' := u.islandsHeat_lid
  generalize u.islandsHeat = v at ex heats emergency held live lid'
  have all := heats.trans v.lidHeat_heats
  have onIsland : ∀ o i, u.onIsland o i = s.onIsland o i := (KeepsVotes.of_owners owners).onIsland
  have ownerAt : ∀ o, u.ownerAt o = s.ownerAt o := fun o => by unfold State.ownerAt; rw [owners]
  have emergency' : ∀ i, i < 32 → (({ v.lidHeat with sample := x } : State).islandAt i).emergency = (((s.islandAt i).emergency || u.isHot i) && !u.isCool i) := by
    intro i hi
    refine (v.lidHeat_emergency i).trans ((emergency i hi).trans ?_)
    unfold State.islandAt
    rw [islands]
  have reading : ∀ c, ({ v.lidHeat with sample := x } : State).reading c = u.reading c := fun c => all.reading c
  refine ⟨_, ex, ?_, fun c => (reading c).trans (moves.reading c), fun c y hc hy o w hw hl hwork => ?_, ?_, fun i hi => ⟨?_, fun on o w hw hl hon => ?_⟩⟩
  · rw [all, moves]
    rfl
  · have ho := State.mem_liveOwners_of_live (State.ownerAt_of_mapFind hw ▸ hl)
    have same : v.lidHeat.migrations = u.migrations := by rw [all]
    show _ ∈ v.lidHeat.migrations
    rw [same]
    exact asked c o (mem_hotCores hc hy) ho hwork
  · have melt' : v.meltSensor = p := by rw [heats]; exact melt
    show v.lidHeat.lidEmergency = true ↔ _
    rw [v.lidHeat_lid, lid', lid, melt']
  · rw [emergency' i hi, Bool.and_eq_true, Bool.or_eq_true, u.isHot_iff, Bool.not_eq_true', u.isCool_eq_false_iff]
    simp only [reading]
  · have on' : (v.islandAt i).emergency = true := (v.lidHeat_emergency i).symm.trans on
    have hl' : (u.ownerAt o).live = true := by rw [ownerAt, State.ownerAt_of_mapFind hw]; exact hl
    exact State.lidHeat_held ((live o).trans hl') (held o i hi hl' ((onIsland o i).trans hon) on')

/-! ### Retirement (R152, R178) -/

/-- RETIREMENT takes place: an isolated owner that gives its slots on retiring has not given those of an empty lane. -/
def State.mayRetire (s : State) (o l : Nat) (r : PartRec) : Prop :=
  (s.ownerAt o).live = true ∧ r.kind = .isolated ∧ r.gift = true ∧ (s.ownerAt o).isRetired l = false ∧ s.laneEmpty o (l / 8) (l % 8) = true

/-- The first cycle of a retirement: 0 where the owner has never had a group, else the next period's. -/
def State.retireFrom (s : State) (o l : Nat) : Nat :=
  if l ∈ (s.ownerAt o).used then s.cycOf o (islandOf (s.phys o (l / 8))) / 32 * 32 + 32 else 0

theorem exec_retirement {s : State} {o l : Nat} {r : PartRec} (hr : s.part o = some r) (may : s.mayRetire o l r) :
    exec (.retirement o l) s = .next (s.modOwner o (fun w => { w with
      retired := mapSet [] w.retired l (mapGet [] w.retired l ++ [(s.retireFrom o l, foreverEnd)]) })) := by
  obtain ⟨live, kind, gift, retired, empty⟩ := may
  have part : (s.ownerAt o).part = some r := hr
  show execRetirement o l s = _
  unfold execRetirement State.retireFrom nextPeriod periodOf
  dsimp only
  rw [part]
  dsimp only
  rw [if_neg (by simp [live, kind, gift, retired, empty])]
  simp only [List.contains_iff_mem]

theorem exec_retirement_off {s : State} {o l : Nat} {r : PartRec} (hr : s.part o = some r) (may : ¬s.mayRetire o l r) :
    exec (.retirement o l) s = .next s := by
  have part : (s.ownerAt o).part = some r := hr
  show execRetirement o l s = _
  unfold execRetirement
  dsimp only
  rw [part]
  dsimp only
  rw [if_pos]
  unfold State.mayRetire at may
  simp only [Bool.or_eq_true, Bool.not_eq_true', decide_eq_true_eq]
  by_contra h
  simp only [not_or, Bool.not_eq_false, ne_eq, not_not, Bool.not_eq_true] at h
  obtain ⟨⟨⟨⟨live, kind⟩, gift⟩, retired⟩, empty⟩ := h
  exact may ⟨live, kind, gift, retired, empty⟩

theorem retirement_effect {s : State} {o l : Nat} {r : PartRec} (hr : s.part o = some r) (may : s.mayRetire o l r) :
    ∃ t, exec (.retirement o l) s = .next t ∧ t = { s with owners := t.owners } ∧ (t.ownerAt o).isRetired l = true ∧
      mapGet [] (t.ownerAt o).retired l = mapGet [] (s.ownerAt o).retired l ++ [(s.retireFrom o l, 2 ^ 64)] ∧
      (t.ownerAt o).releases = (s.ownerAt o).releases ∧ ∀ j, j ≠ o → t.ownerAt j = s.ownerAt j := by
  refine ⟨_, exec_retirement hr may, rfl, ?_, ?_, ?_, fun j hj => ?_⟩
  · rw [State.modOwner_ownerAt, if_pos rfl]
    unfold Owner.isRetired
    rw [mapGet_mapSet_same, List.any_append]
    simp
  · rw [State.modOwner_ownerAt, if_pos rfl, mapGet_mapSet_same]
    rfl
  · rw [State.modOwner_ownerAt, if_pos rfl]
  · rw [State.modOwner_ownerAt, if_neg hj]

/-! ### Every event (O51) -/

/-- Settles O51: each event by what it does to the owners and islands concerned. -/
theorem powerEvents : Obligations.PowerEvents := by
  unfold Obligations.PowerEvents
  refine ⟨fun s hd hq => ?_, fun s o c => ?_, clockStep_effect, railEpoch_effect, fun s i => ?_, fun s r p => ?_, fun s n => ?_, fun s o l r hr => ?_⟩
  · obtain ⟨t, ex, frame, again, quota⟩ := meltUpdate_effect hd hq
    refine ⟨t, ex, frame, again, fun o w i y hw hl hy => ?_⟩
    obtain ⟨stepped, ended⟩ := quota o w i y hw hl hy
    rw [y.step_eq] at stepped ended
    exact ⟨stepped, ended⟩
  · exact ⟨exec_holdBegin, exec_holdBegin_off, exec_holdEnd c, exec_holdEnd_off c⟩
  · refine ⟨fun h => ?_, fun h => ?_, exec_canaryRelax_off, fun h hg => ?_⟩
    · exact ⟨_, exec_canaryFailure_step h, rfl, State.mem_schedule _ _ _ _, State.setIsland_islandAt_same _ _ _,
        fun j hj => (State.setIsland_islandAt _ _ _ _).trans (if_neg hj)⟩
    · exact canaryFailure_top_effect h
    · refine ⟨_, exec_canaryRelax h hg, ?_, ?_⟩
      · split <;> rfl
      · split <;> exact State.setIsland_islandAt_same _ _ _
  · refine ⟨exec_thermalSample_off r p, fun h => ?_⟩
    obtain ⟨t, ex, frame, reading, asked, lid, islands⟩ := thermalSample_effect r p h
    refine ⟨t, ex, frame, fun before c v after e last => ?_, fun c none => ?_, asked, lid, islands⟩
    · rw [reading, e, State.sense_reading_last s p last]
    · rw [reading, State.sense_reading_none s p none]
  · refine ⟨⟨_, exec_dramStackOvertemp s n, ?_, ?_, ?_⟩, ⟨_, exec_dramStackCool s n, ?_, ?_, ?_⟩, ⟨_, exec_siloLinkDown s n, ?_, ?_, ?_⟩,
      ⟨_, exec_siloLinkUp s n, ?_, ?_, ?_⟩⟩
    · rw [State.holdAll_only]
    · rw [State.holdAll_only]
      exact mem_ite_contains_cons n s.stacksHot
    · exact State.holdAll_held (by rfl) _ _
    · rw [State.unholdAll_only]
    · rw [State.unholdAll_only]
      exact notMem_filter_ne n s.stacksHot
    · exact State.unholdAll_held (by rfl) _
    · rw [State.holdAll_only]
    · rw [State.holdAll_only]
      exact mem_ite_contains_cons n s.siloDown
    · exact State.holdAll_held (by rfl) _ _
    · rw [State.unholdAll_only]
    · rw [State.unholdAll_only]
      exact notMem_filter_ne n s.siloDown
    · exact State.unholdAll_held (by rfl) _
  · exact ⟨exec_retirement_off hr, retirement_effect hr⟩

end Sys2Proof.Machine
end


section
/-! Border moves and the two ends of a switch (R155, R157, R359, R420, R429). -/

namespace Sys2Proof.Machine

/-! ### Border moves (R157, R420) -/

/-- A border move of an owner that waits goes on now. -/
def State.borderGoes (s : State) (o : Nat) (b : BorderSpec) : Bool := decide (b.owner = o) && s.borderReady b

theorem State.startBorders_eq (s : State) (o : Nat) : s.startBorders o = { s with
    borders := s.borders.filter (fun b => !s.borderGoes o b)
    toBegin := s.toBegin ++ ((s.borders.filter (s.borderGoes o)).map (fun b => (s.borderAsSwitch b, b))).map (fun x => x.1)
    bordering := s.bordering ++ (s.borders.filter (s.borderGoes o)).map (fun b => (s.borderAsSwitch b, b)) } := rfl

theorem State.mem_startBorders {s : State} {o : Nat} {b : BorderSpec} :
    b ∈ (s.startBorders o).borders ↔ b ∈ s.borders ∧ ¬(b.owner = o ∧ s.borderReady b = true) := by
  rw [State.startBorders_eq]
  simp only [List.mem_filter, State.borderGoes, Bool.not_eq_true', Bool.and_eq_false_iff, decide_eq_false_iff_not, not_and_or, Bool.not_eq_true]

theorem exec_borderMove_off {s : State} {b : BorderSpec} (h : s.borderOk b = false) : exec (.borderMove b) s = .next s :=
  congrArg Host.Outcome.next (if_pos (by simp [h]))

theorem exec_borderMove_waits {s : State} {b : BorderSpec} (h : s.borderOk b = true) (work : s.atWork b.owner = true) :
    exec (.borderMove b) s = .next { s with borders := s.borders ++ [b] } := by
  refine congrArg Host.Outcome.next (Eq.trans (if_neg (by simp [h])) ?_)
  exact if_pos work

theorem exec_borderMove_goes {s : State} {b : BorderSpec} (h : s.borderOk b = true) (idle : s.atWork b.owner = false) :
    exec (.borderMove b) s = .next (State.startBorders { s with borders := s.borders ++ [b] } b.owner) := by
  have idle' : ¬State.atWork { s with borders := s.borders ++ [b] } b.owner = true := fun e => Bool.noConfusion (idle.symm.trans e)
  refine congrArg Host.Outcome.next (Eq.trans (if_neg (by simp [h])) ?_)
  exact if_neg idle'

/-- A border move of a context with nothing at work goes at once (R157). -/
theorem borderMove_goes_effect {s : State} {b : BorderSpec} (h : s.borderOk b = true) (idle : s.atWork b.owner = false) :
    ∃ t, exec (.borderMove b) s = .next t ∧
      t = { s with borders := t.borders, toBegin := t.toBegin, bordering := t.bordering } ∧
      (∀ x, x ∈ t.borders ↔ (x ∈ s.borders ∨ x = b) ∧ ¬(x.owner = b.owner ∧ s.borderReady x = true)) ∧
      (s.borderReady b = true → s.borderAsSwitch b ∈ t.toBegin ∧ (s.borderAsSwitch b, b) ∈ t.bordering) := by
  refine ⟨_, exec_borderMove_goes h idle, rfl, fun x => ?_, fun ready => ?_⟩
  · rw [State.mem_startBorders, List.mem_append, List.mem_singleton]
    rfl
  · have mine : (s.borderAsSwitch b, b) ∈ (List.filter (State.borderGoes { s with borders := s.borders ++ [b] } b.owner) (s.borders ++ [b])).map
        (fun x => (s.borderAsSwitch x, x)) :=
      List.mem_map.2 ⟨b, List.mem_filter.2 ⟨List.mem_append_right _ (List.mem_singleton_self b), by
        show (decide (b.owner = b.owner) && s.borderReady b) = true
        rw [ready, decide_eq_true rfl]
        rfl⟩, rfl⟩
    exact ⟨List.mem_append_right _ (List.mem_map.2 ⟨_, mine, rfl⟩), List.mem_append_right _ mine⟩

/-- What allows a border move. -/
theorem State.borderOk_elim {s : State} {b : BorderSpec} (h : s.borderOk b = true) :
    s.elastic b.owner = true ∧ (b.gain = true → (s.borderAsSwitch b).outgoing = 62 ∨ s.elastic (s.borderAsSwitch b).outgoing = true) ∧
      s.switchOk (s.borderAsSwitch b) = true ∧ s.towardsTarget b = true := by
  simp only [State.borderOk, Bool.and_eq_true, Bool.or_eq_true, Bool.not_eq_true', decide_eq_true_eq] at h
  obtain ⟨⟨⟨⟨⟨⟨⟨elastic, other⟩, ok⟩, -⟩, -⟩, towards⟩, -⟩, -⟩ := h
  refine ⟨elastic, fun gain => ?_, ok, towards⟩
  rcases other with (no | free) | el
  · rw [gain] at no
    cases no
  · exact .inl free
  · exact .inr el

theorem State.switchOk_slots {s : State} {w : SwitchSpec} (h : s.switchOk w = true) : ∀ i ∈ w.slots, s.slotOwner w.core w.lane i = w.outgoing := by
  intro i hi
  unfold State.switchOk at h
  simp only [Bool.and_eq_true, List.all_eq_true] at h
  obtain ⟨⟨⟨⟨⟨⟨-, slots⟩, -⟩, -⟩, -⟩, -⟩, -⟩ := h
  exact of_decide_eq_true (slots i hi).2

theorem State.borderAsSwitch_gain {s : State} {b : BorderSpec} (h : b.gain = true) :
    s.borderAsSwitch b = ⟨b.core, b.lane, b.slots, s.slotOwner b.core b.lane (b.slots.headD 0), b.owner, false⟩ := if_pos h

theorem State.borderAsSwitch_give {s : State} {b : BorderSpec} (h : b.gain = false) :
    s.borderAsSwitch b = ⟨b.core, b.lane, b.slots, b.owner, 62, false⟩ := if_neg (by simp [h])

theorem State.borderAsSwitch_eq (s : State) (b : BorderSpec) : s.borderAsSwitch b =
    ⟨b.core, b.lane, b.slots, if b.gain = true then s.slotOwner b.core b.lane (b.slots.headD 0) else b.owner, if b.gain = true then b.owner else 62, false⟩ := by
  cases h : b.gain with
  | true => exact State.borderAsSwitch_gain h
  | false => exact State.borderAsSwitch_give h

/-- A border move brings its owner towards its target, and takes or gives what may be taken or given (R420). -/
theorem State.borderOk_means {s : State} {b : BorderSpec} (h : s.borderOk b = true) :
    s.elastic b.owner = true ∧ ∃ r, s.part b.owner = some r ∧
      (b.gain = true → (s.ownerAt b.owner).doneRate s.now < r.target ∧
        ∀ i ∈ b.slots, s.slotOwner b.core b.lane i = 62 ∨ s.elastic (s.slotOwner b.core b.lane i) = true) ∧
      (b.gain = false → (r.target < (s.ownerAt b.owner).doneRate s.now ∨ s.atWork b.owner = false) ∧
        ∀ i ∈ b.slots, s.slotOwner b.core b.lane i = b.owner) := by
  obtain ⟨elastic, other, ok, towards⟩ := State.borderOk_elim h
  have slots := State.switchOk_slots ok
  unfold State.towardsTarget at towards
  refine ⟨elastic, ?_⟩
  cases hr : s.part b.owner with
  | none => rw [hr] at towards; cases towards
  | some r =>
    rw [hr] at towards
    dsimp only at towards
    refine ⟨r, rfl, fun gain => ⟨?_, fun i hi => ?_⟩, fun give => ⟨?_, fun i hi => ?_⟩⟩
    · rw [if_pos gain] at towards
      exact of_decide_eq_true towards
    · have out := other gain
      rw [State.borderAsSwitch_gain gain] at slots out
      rw [slots i hi]
      exact out
    · rw [if_neg (by simp [give])] at towards
      simpa using towards
    · rw [State.borderAsSwitch_give give] at slots
      exact slots i hi

/-! ### What the end of a switch leaves -/

/-- What the end of a switch changes besides the rota, but for shares. -/
def OnlySwitch (s t : State) : Prop := t = { s with
  owners := t.owners, groups := t.groups, unsettled := t.unsettled, wgs := t.wgs, agenda := t.agenda
  borders := t.borders, toBegin := t.toBegin, bordering := t.bordering }

theorem OnlySwitch.refl (s : State) : OnlySwitch s s := rfl

theorem OnlySwitch.trans {s t u : State} (h : OnlySwitch s t) (h' : OnlySwitch t u) : OnlySwitch s u :=
  Eq.trans h' (congrArg (fun x : State => { x with
    owners := u.owners, groups := u.groups, unsettled := u.unsettled, wgs := u.wgs, agenda := u.agenda
    borders := u.borders, toBegin := u.toBegin, bordering := u.bordering }) h)

/-- What the end of a switch changes besides the rota, with the shares of a border move. -/
def OnlyShares (s t : State) : Prop := t = { s with
  owners := t.owners, groups := t.groups, unsettled := t.unsettled, wgs := t.wgs, agenda := t.agenda
  borders := t.borders, toBegin := t.toBegin, bordering := t.bordering, engScr := t.engScr, engObuf := t.engObuf, readHold := t.readHold
  acc := t.acc, l1 := t.l1, l2 := t.l2, tlb := t.tlb }

theorem OnlyShares.refl (s : State) : OnlyShares s s := rfl

theorem OnlyShares.trans {s t u : State} (h : OnlyShares s t) (h' : OnlyShares t u) : OnlyShares s u :=
  Eq.trans h' (congrArg (fun x : State => { x with
    owners := u.owners, groups := u.groups, unsettled := u.unsettled, wgs := u.wgs, agenda := u.agenda
    borders := u.borders, toBegin := u.toBegin, bordering := u.bordering, engScr := u.engScr, engObuf := u.engObuf, readHold := u.readHold
    acc := u.acc, l1 := u.l1, l2 := u.l2, tlb := u.tlb }) h)

theorem OnlySwitch.shares {s t : State} (h : OnlySwitch s t) : OnlyShares s t := by
  unfold OnlySwitch at h
  generalize t.owners = a1, t.groups = a2, t.unsettled = a3, t.wgs = a4, t.agenda = a5, t.borders = a6, t.toBegin = a7, t.bordering = a8 at h
  subst h
  rfl

theorem OnlyOwners.switch {s t : State} (h : OnlyOwners s t) : OnlySwitch s t := by
  unfold OnlyOwners at h
  generalize t.owners = a at h
  subst h
  rfl

/-! ### Groups that come back (R156) -/

/-- Groups come back to their contexts or end: no register changes. -/
structure Returns (s t : State) : Prop where
  only : t = { s with groups := t.groups, unsettled := t.unsettled, wgs := t.wgs, agenda := t.agenda }
  regs : SameRegs s t

theorem SameRegs.refl (s : State) : SameRegs s s := fun _ => ⟨rfl, rfl, rfl, rfl⟩

theorem SameRegs.trans {s t u : State} (h : SameRegs s t) (h' : SameRegs t u) : SameRegs s u := fun j =>
  ⟨(h' j).1.trans (h j).1, (h' j).2.1.trans (h j).2.1, (h' j).2.2.1.trans (h j).2.2.1, (h' j).2.2.2.trans (h j).2.2.2⟩

theorem SameRegs.of_groups {s t : State} (h : t.groups = s.groups) : SameRegs s t := by
  intro j
  unfold State.groupAt
  rw [h]
  exact ⟨rfl, rfl, rfl, rfl⟩

theorem Returns.refl (s : State) : Returns s s := ⟨rfl, .refl s⟩

theorem Returns.trans {s t u : State} (h : Returns s t) (h' : Returns t u) : Returns s u :=
  ⟨Eq.trans h'.only (congrArg (fun x : State => { x with groups := u.groups, unsettled := u.unsettled, wgs := u.wgs, agenda := u.agenda }) h.only),
    h.regs.trans h'.regs⟩

theorem Returns.switch {s t : State} (h : Returns s t) : OnlySwitch s t := by
  have only := h.only
  generalize t.groups = a1, t.unsettled = a2, t.wgs = a3, t.agenda = a4 at only
  subst only
  rfl

theorem Returns.owners {s t : State} (h : Returns s t) : t.owners = s.owners := by rw [h.only]

theorem Schedules.returns {s t : State} (h : Schedules s t) : Returns s t := by
  obtain ⟨xs, rfl⟩ := h
  exact ⟨rfl, .of_groups rfl⟩

theorem State.decideLate_schedules (s : State) (k : Nat) : Schedules s (s.decideLate k) := by
  refine Schedules.foldl _ _ (fun u p => ?_) s
  split
  · dsimp only
    split
    · exact Schedules.of_schedule _ _ _ _
    · exact .refl u
  · exact .refl u

theorem Group.atEnd_all_regs (g : Group) : g.atEnd.v = g.v ∧ g.atEnd.g = g.g ∧ g.atEnd.p = g.p ∧ g.atEnd.q = g.q := by
  have only : g.endThreads g.notEnded = _ := (Group.endThreads_keepsRunning (.inr g.markEnded_isEnded)).only
  unfold Group.atEnd
  rw [only]
  exact ⟨rfl, rfl, rfl, rfl⟩

theorem State.endGroup_returns (s : State) (k : Nat) : Returns s (s.endGroup k) := by
  refine ⟨?_, fun j => ?_⟩
  · obtain ⟨ws, ag, e⟩ := s.endGroup_eq k
    rw [e]
  · rw [State.endGroup_groupAt]
    split
    · next h =>
      rw [h]
      exact Group.atEnd_all_regs _
    · exact ⟨rfl, rfl, rfl, rfl⟩

/-- A saved group of an owner whose context on the lane is free. -/
def State.canReturn (s : State) (o core lane : Nat) (g : Group) : Bool :=
  g.away && (mapFind s.swapped g.wg).isNone && decide (g.owner = o) && decide (g.core = core) && decide (g.lane = lane) && !s.contextTaken o core lane g.ctx

/-- The saved groups of an owner on a lane hold their contexts again. -/
def State.reinstate (s : State) (o core lane : Nat) : State :=
  { s with groups := mapAll (fun g => if s.canReturn o core lane g then { g with live := true, away := false } else g) s.groups }

/-- A group that is back goes on, or ends with its launch. -/
def State.goOnBack (s : State) (k : Nat) : State := if (s.launchAt (s.groupAt k).launch).halted.isSome then s.endGroup k else s.decideLate k

theorem State.bringBack_eq (s : State) (o core lane : Nat) :
    s.bringBack o core lane = ((s.groups.filter (fun p => s.canReturn o core lane p.2)).map (fun p => p.1)).foldl State.goOnBack (s.reinstate o core lane) := rfl

theorem State.reinstate_groupAt (s : State) (o core lane k : Nat) :
    (s.reinstate o core lane).groupAt k =
      if s.canReturn o core lane (s.groupAt k) then { s.groupAt k with live := true, away := false } else s.groupAt k := by
  unfold State.groupAt State.reinstate
  dsimp only
  rw [mapGet_of_mapFind, mapGet_of_mapFind, mapFind_mapAll]
  cases mapFind s.groups k with
  | none => rfl
  | some g => rfl

theorem State.reinstate_returns (s : State) (o core lane : Nat) : Returns s (s.reinstate o core lane) := by
  refine ⟨rfl, fun j => ?_⟩
  rw [State.reinstate_groupAt]
  split
  exacts [⟨rfl, rfl, rfl, rfl⟩, ⟨rfl, rfl, rfl, rfl⟩]

theorem State.goOnBack_returns (s : State) (k : Nat) : Returns s (s.goOnBack k) := by
  unfold State.goOnBack
  split
  · exact s.endGroup_returns k
  · exact (s.decideLate_schedules k).returns

theorem State.bringBack_returns (s : State) (o core lane : Nat) : Returns s (s.bringBack o core lane) := by
  rw [State.bringBack_eq]
  exact List.foldlRecOn (motive := Returns s) _ _ (s.reinstate_returns o core lane) fun u hu k _ => hu.trans (u.goOnBack_returns k)

/-- Where no launch has been halted, a group that can come back does, and goes on. -/
theorem State.bringBack_groupAt {s : State} (h : ∀ l, (s.launchAt l).halted = none) (o core lane k : Nat) :
    (s.bringBack o core lane).groupAt k = (s.reinstate o core lane).groupAt k := by
  rw [State.bringBack_eq]
  have all := List.foldlRecOn (motive := fun u : State => u.launches = s.launches ∧ u.groups = (s.reinstate o core lane).groups)
    ((s.groups.filter (fun p => s.canReturn o core lane p.2)).map (fun p => p.1)) State.goOnBack (b := s.reinstate o core lane) ⟨rfl, rfl⟩ fun u hu k _ => by
      have run : (u.launchAt (u.groupAt k).launch).halted = none := by
        unfold State.launchAt
        rw [hu.1]
        exact h _
      obtain ⟨xs, e⟩ := u.decideLate_schedules k
      unfold State.goOnBack
      rw [run, if_neg (by simp), e]
      exact hu
  unfold State.groupAt
  rw [all.2]

/-! ### Quotas and shares that a switch brings (R359, R429) -/

theorem State.gainQuota_eq (s : State) (o i : Nat) : s.gainQuota o i = s ∨ ∃ q, s.gainQuota o i = s.setQuota o i q := by
  unfold State.gainQuota
  split
  · exact .inl rfl
  · split
    · split
      · exact .inl rfl
      · exact .inr ⟨_, rfl⟩
    · exact .inl rfl

theorem State.gainQuota_only (s : State) (o i : Nat) : OnlyOwners s (s.gainQuota o i) := by
  rcases s.gainQuota_eq o i with e | ⟨q, e⟩ <;> rw [e] <;> rfl

theorem State.gainQuota_keepsVotes (s : State) (o i : Nat) : KeepsVotes s (s.gainQuota o i) := by
  rcases s.gainQuota_eq o i with e | ⟨q, e⟩ <;> rw [e]
  · exact .refl s
  · exact .of_setOwner ⟨_, _, _, rfl⟩ fun _ => ⟨rfl, rfl⟩

/-- Groups, launches and swaps stand, and every owner lives as before, with its cores and its cycles: contexts are taken as before. -/
structure KeepsPlaces (s t : State) : Prop where
  groups : t.groups = s.groups
  swapped : t.swapped = s.swapped
  launches : t.launches = s.launches
  owner : ∀ o, (t.ownerAt o).live = (s.ownerAt o).live ∧ (t.ownerAt o).remap = (s.ownerAt o).remap ∧ (t.ownerAt o).cyc = (s.ownerAt o).cyc

theorem KeepsPlaces.refl (s : State) : KeepsPlaces s s := ⟨rfl, rfl, rfl, fun _ => ⟨rfl, rfl, rfl⟩⟩

theorem KeepsPlaces.trans {s t u : State} (h : KeepsPlaces s t) (h' : KeepsPlaces t u) : KeepsPlaces s u :=
  ⟨h'.groups.trans h.groups, h'.swapped.trans h.swapped, h'.launches.trans h.launches, fun o =>
    ⟨(h'.owner o).1.trans (h.owner o).1, (h'.owner o).2.1.trans (h.owner o).2.1, (h'.owner o).2.2.trans (h.owner o).2.2⟩⟩

theorem KeepsPlaces.of_setOwner {s : State} {o : Nat} {w : Owner} (live : w.live = (s.ownerAt o).live) (remap : w.remap = (s.ownerAt o).remap)
    (cyc : w.cyc = (s.ownerAt o).cyc) : KeepsPlaces s (s.setOwner o w) := by
  refine ⟨rfl, rfl, rfl, fun k => ?_⟩
  rw [State.setOwner_ownerAt]
  split
  · next e => rw [e]; exact ⟨live, remap, cyc⟩
  · exact ⟨rfl, rfl, rfl⟩

theorem KeepsPlaces.of_owners {s t : State} (h : t.owners = s.owners) (groups : t.groups = s.groups) (swapped : t.swapped = s.swapped)
    (launches : t.launches = s.launches) : KeepsPlaces s t :=
  ⟨groups, swapped, launches, fun o => by unfold State.ownerAt; rw [h]; exact ⟨rfl, rfl, rfl⟩⟩

theorem State.unhold_keepsPlaces (s : State) (o : Nat) (c : HoldCause) : KeepsPlaces s (s.unhold o c) := by
  obtain ⟨hs, e⟩ := (s.ownerAt o).withoutHold_only c
  rcases s.unhold_eq o c with e' | e' <;> rw [e']
  · exact .refl s
  · rw [e]
    exact .of_setOwner rfl rfl rfl

section
variable {s t : State} (h : KeepsPlaces s t)
include h

theorem KeepsPlaces.phys (o c : Nat) : t.phys o c = s.phys o c := by
  unfold State.phys
  rw [(h.owner o).2.1]

theorem KeepsPlaces.contextTaken (o c lane ctx : Nat) : t.contextTaken o c lane ctx = s.contextTaken o c lane ctx := by
  have island (g : Group) : t.groupIsland g = s.groupIsland g := by
    unfold State.groupIsland State.groupCore
    rw [h.phys]
  have cyc (g : Group) : t.cycOf g.owner (t.groupIsland g) = s.cycOf g.owner (s.groupIsland g) := by
    unfold State.cycOf
    rw [(h.owner g.owner).2.2, island]
  unfold State.contextTaken State.occupies
  simp only [h.groups, h.swapped, cyc]

theorem KeepsPlaces.canReturn (o c lane : Nat) (g : Group) : t.canReturn o c lane g = s.canReturn o c lane g := by
  unfold State.canReturn
  rw [h.swapped, h.contextTaken]

end

/-- The shares of one physical core. -/
def placedOn (core c : Nat) (r : PartRec) : List (Nat × CoreShare) := (r.shares.filter (fun y => decide (y.core = c))).map (fun y => (core, y))

/-- An owner with the record and the contexts of a border move. -/
def Owner.withBorder (b : BorderSpec) (c : Nat) (r : PartRec) (w : Owner) : Owner :=
  { w with
    part := some (borderRecord b c r)
    lanes := mapSet (0, 0) w.lanes (c * 8 + b.lane)
      ((mapGet (0, 0) w.lanes (c * 8 + b.lane)).1, b.ctxMask.getD (mapGet (0, 0) w.lanes (c * 8 + b.lane)).2) }

theorem State.giveShares_off {s : State} {b : BorderSpec} (h : s.part b.owner = none ∨ s.logicalOn b.owner b.core = none) : s.giveShares b = s := by
  unfold State.giveShares
  rcases h with h | h
  · rw [h]
  · rw [h]
    cases s.part b.owner <;> rfl

theorem State.giveShares_eq {s : State} {b : BorderSpec} {c : Nat} {r : PartRec} (hc : s.logicalOn b.owner b.core = some c) (hr : s.part b.owner = some r) :
    ∃ l1 l2 tlb, s.giveShares b =
      { (s.clearShares (placedOn b.core c (borderRecord b c r)) (placedOn b.core c r)).modOwner b.owner (Owner.withBorder b c r) with l1 := l1, l2 := l2, tlb := tlb } := by
  unfold State.giveShares
  rw [hc, hr]
  exact ⟨_, _, _, rfl⟩

/-- What shares given to an elastic context leave. -/
theorem State.giveShares_cases {s : State} {b : BorderSpec} {P : State → Prop} (off : P s)
    (gives : ∀ c r l1 l2 tlb, s.logicalOn b.owner b.core = some c → s.part b.owner = some r →
      P { (s.clearShares (placedOn b.core c (borderRecord b c r)) (placedOn b.core c r)).modOwner b.owner (Owner.withBorder b c r) with
        l1 := l1, l2 := l2, tlb := tlb }) : P (s.giveShares b) := by
  cases hr : s.part b.owner with
  | none => rw [State.giveShares_off (.inl hr)]; exact off
  | some r =>
    cases hc : s.logicalOn b.owner b.core with
    | none => rw [State.giveShares_off (.inr hc)]; exact off
    | some c =>
      obtain ⟨l1, l2, tlb, e⟩ := State.giveShares_eq hc hr
      rw [e]
      exact gives c r l1 l2 tlb hc hr

theorem State.giveShares_shares (s : State) (b : BorderSpec) : OnlyShares s (s.giveShares b) :=
  State.giveShares_cases (.refl s) fun _ _ _ _ _ _ _ => rfl

theorem State.giveShares_keepsPlaces (s : State) (b : BorderSpec) : KeepsPlaces s (s.giveShares b) :=
  State.giveShares_cases (.refl s) fun c r l1 l2 tlb _ _ => by
    have cleared : KeepsPlaces s (s.clearShares (placedOn b.core c (borderRecord b c r)) (placedOn b.core c r)) := .of_owners rfl rfl rfl rfl
    have given : KeepsPlaces (s.clearShares (placedOn b.core c (borderRecord b c r)) (placedOn b.core c r))
      ((s.clearShares (placedOn b.core c (borderRecord b c r)) (placedOn b.core c r)).modOwner b.owner (Owner.withBorder b c r)) := .of_setOwner rfl rfl rfl
    exact (cleared.trans given).trans (.of_owners rfl rfl rfl rfl)

theorem State.giveShares_part {s : State} {b : BorderSpec} {c : Nat} {r : PartRec} (hc : s.logicalOn b.owner b.core = some c) (hr : s.part b.owner = some r) :
    (s.giveShares b).part b.owner = some (borderRecord b c r) := by
  obtain ⟨l1, l2, tlb, e⟩ := State.giveShares_eq hc hr
  rw [e]
  show ((State.modOwner _ _ _).ownerAt b.owner).part = _
  rw [State.modOwner_ownerAt, if_pos rfl]
  rfl

/-! ### The end of a switch (R155, R156) -/

/-- The slots of a lane that an owner has after a switch brings it some. -/
def State.lanesAfter (s : State) (w : SwitchSpec) (c : Nat) : Nat := (mapGet (0, 0) (s.ownerAt w.incoming).lanes (c * 8 + w.lane)).1 ||| slotMask w.slots

/-- The incoming owner has the slots. -/
def State.takeLanes (s : State) (w : SwitchSpec) (c : Nat) : State :=
  s.modOwner w.incoming (fun x => { x with
    lanes := mapSet (0, 0) x.lanes (c * 8 + w.lane) (s.lanesAfter w c, (mapGet (0, 0) (s.ownerAt w.incoming).lanes (c * 8 + w.lane)).2) })

/-- An isolated owner that has all slots its record gives it on the lane is no longer pre-empted there. -/
def State.endPreempt (s : State) (w : SwitchSpec) (c n : Nat) : State :=
  if n = s.recSlots w.incoming c w.lane then s.unhold w.incoming (.preempted c w.lane) else s

/-- The shares of the border move that a switch carries out. -/
def State.borderShares (s : State) (w : SwitchSpec) : State :=
  match s.borderOf w with
  | none => s
  | some b => { s.giveShares b with bordering := s.bordering.filter (fun x => decide (x.1 ≠ w)) }

theorem State.takeSlots_eq {s : State} {w : SwitchSpec} {c : Nat} (h : s.slotHome w.incoming w.core w.lane w.slots = some c) :
    s.takeSlots w =
      ((((s.takeLanes w c).endPreempt w c (s.lanesAfter w c)).borderShares w).bringBack w.incoming c w.lane).gainQuota w.incoming (islandOf w.core) := by
  unfold State.takeSlots
  rw [h]
  rfl

theorem State.takeLanes_keepsPlaces (s : State) (w : SwitchSpec) (c : Nat) : KeepsPlaces s (s.takeLanes w c) := .of_setOwner rfl rfl rfl

theorem State.endPreempt_keepsPlaces (s : State) (w : SwitchSpec) (c n : Nat) : KeepsPlaces s (s.endPreempt w c n) := by
  unfold State.endPreempt
  split
  · exact s.unhold_keepsPlaces _ _
  · exact .refl s

theorem State.endPreempt_keepsVotes (s : State) (w : SwitchSpec) (c n : Nat) : KeepsVotes s (s.endPreempt w c n) := by
  unfold State.endPreempt
  split
  · exact s.unhold_keepsVotes _ _
  · exact .refl s

theorem State.endPreempt_only (s : State) (w : SwitchSpec) (c n : Nat) : OnlyOwners s (s.endPreempt w c n) := by
  unfold State.endPreempt
  split
  · exact s.unhold_only _ _
  · exact .refl s

theorem State.borderShares_of_none {s : State} {w : SwitchSpec} (h : s.borderOf w = none) : s.borderShares w = s := by
  unfold State.borderShares
  rw [h]

theorem State.borderShares_of_some {s : State} {w : SwitchSpec} {b : BorderSpec} (h : s.borderOf w = some b) :
    s.borderShares w = { s.giveShares b with bordering := s.bordering.filter (fun x => decide (x.1 ≠ w)) } := by
  unfold State.borderShares
  rw [h]

theorem State.borderShares_shares (s : State) (w : SwitchSpec) : OnlyShares s (s.borderShares w) := by
  cases h : s.borderOf w with
  | none => rw [State.borderShares_of_none h]; exact .refl s
  | some b =>
    rw [State.borderShares_of_some h]
    exact (s.giveShares_shares b).trans rfl

theorem State.borderShares_keepsPlaces (s : State) (w : SwitchSpec) : KeepsPlaces s (s.borderShares w) := by
  cases h : s.borderOf w with
  | none => rw [State.borderShares_of_none h]; exact .refl s
  | some b =>
    rw [State.borderShares_of_some h]
    exact (s.giveShares_keepsPlaces b).trans (.of_owners rfl rfl rfl rfl)

theorem State.unholdBoth_keepsVotes (s : State) (w : SwitchSpec) : KeepsVotes s (s.unholdBoth w) :=
  (s.unhold_keepsVotes _ _).trans (State.unhold_keepsVotes _ _ _)

theorem State.unholdBoth_only (s : State) (w : SwitchSpec) : OnlyOwners s (s.unholdBoth w) := (s.unhold_only _ _).trans (State.unhold_only _ _ _)

/-- Both owners of a switch are let go. -/
theorem State.unholdBoth_held {s : State} {w : SwitchSpec} {o : Nat} (ho : o = w.outgoing ∨ o = w.incoming) (hl : (s.ownerAt o).live = true) :
    .switch w.core w.lane (slotMask w.slots) ∉ ((s.unholdBoth w).ownerAt o).held := by
  have gone {x : Owner} (hx : x.live = true) (c : HoldCause) : c ∉ (x.withoutHold c).held := by
    rw [Owner.withoutHold_held hx]
    simp
  unfold State.unholdBoth
  rw [State.unhold_ownerAt, State.unhold_ownerAt, State.unhold_ownerAt]
  by_cases hi : o = w.incoming
  · rw [if_pos hi, ← hi]
    split
    · exact gone (by rw [Owner.withoutHold_live]; exact (by assumption : o = w.outgoing) ▸ hl) _
    · exact gone hl _
  · rw [if_neg hi, if_pos (ho.resolve_right hi), ← ho.resolve_right hi]
    exact gone hl _

/-- What the slots' new rota reads as. -/
theorem foldl_mapSet_rota (o : Nat) (key : Nat → Nat) (xs : List Nat) (m : FMap Nat) (k : Nat) :
    mapGet 62 (xs.foldl (fun m i => mapSet 62 m (key i) o) m) k = if ∃ i ∈ xs, k = key i then o else mapGet 62 m k := by
  induction xs generalizing m with
  | nil => simp
  | cons x xs ih =>
    rw [List.foldl_cons, ih, mapGet_mapSet]
    by_cases h : ∃ i ∈ xs, k = key i
    · rw [if_pos h, if_pos (by obtain ⟨i, hi, e⟩ := h; exact ⟨i, List.mem_cons_of_mem _ hi, e⟩)]
    · rw [if_neg h]
      by_cases e : k = key x
      · rw [if_pos e, if_pos ⟨x, List.mem_cons_self, e⟩]
      · rw [if_neg e, if_neg]
        rintro ⟨i, hi, e'⟩
        rcases List.mem_cons.1 hi with rfl | hi
        exacts [e e', h ⟨i, hi, e'⟩]

theorem State.setSlots_rota (s : State) (core lane : Nat) (slots : List Nat) (o k : Nat) :
    mapGet 62 (s.setSlots core lane slots o).rota k = if ∃ i ∈ slots, k = rotaKey core lane i then o else mapGet 62 s.rota k :=
  foldl_mapSet_rota o (rotaKey core lane) slots s.rota k

theorem State.setSlots_slotOwner (s : State) (core lane : Nat) (slots : List Nat) (o : Nat) {i : Nat} (hi : i ∈ slots) :
    (s.setSlots core lane slots o).slotOwner core lane i = o :=
  (s.setSlots_rota core lane slots o _).trans (if_pos ⟨i, hi, rfl⟩)

/-! ### Border moves that an idle context goes on with (R157) -/

/-- Only border moves and the switches they become change. -/
def OnlyBorders (s t : State) : Prop := t = { s with borders := t.borders, toBegin := t.toBegin, bordering := t.bordering }

theorem OnlyBorders.refl (s : State) : OnlyBorders s s := rfl

theorem OnlyBorders.trans {s t u : State} (h : OnlyBorders s t) (h' : OnlyBorders t u) : OnlyBorders s u :=
  Eq.trans h' (congrArg (fun x : State => { x with borders := u.borders, toBegin := u.toBegin, bordering := u.bordering }) h)

theorem OnlyBorders.switch {s t : State} (h : OnlyBorders s t) : OnlySwitch s t := by
  unfold OnlyBorders at h
  generalize t.borders = a1, t.toBegin = a2, t.bordering = a3 at h
  subst h
  rfl

theorem OnlyBorders.atWork {s t : State} (h : OnlyBorders s t) (o : Nat) : t.atWork o = s.atWork o := by
  rw [h]
  rfl

theorem OnlyBorders.borderReady {s t : State} (h : OnlyBorders s t) (b : BorderSpec) : t.borderReady b = s.borderReady b := by
  rw [h]
  rfl

theorem State.startBorders_only (s : State) (o : Nat) : OnlyBorders s (s.startBorders o) := rfl

/-- The borders of an owner with nothing at work. -/
def State.idleBorder (s : State) (b : BorderSpec) : State := if s.atWork b.owner then s else s.startBorders b.owner

theorem State.idleBorder_only (s : State) (b : BorderSpec) : OnlyBorders s (s.idleBorder b) := by
  unfold State.idleBorder
  split
  · exact .refl s
  · exact s.startBorders_only _

theorem State.idleBorder_subset (s : State) (b : BorderSpec) {x : BorderSpec} (h : x ∈ (s.idleBorder b).borders) : x ∈ s.borders := by
  unfold State.idleBorder at h
  split at h
  · exact h
  · exact (State.mem_startBorders.1 h).1

theorem State.idleBorders_only (s : State) : OnlyBorders s s.idleBorders :=
  List.foldlRecOn (motive := OnlyBorders s) _ _ (.refl s) fun u hu b _ => hu.trans (u.idleBorder_only b)

theorem State.idleBorders_subset (s : State) {x : BorderSpec} (h : x ∈ s.idleBorders.borders) : x ∈ s.borders :=
  List.foldlRecOn (motive := fun u : State => x ∈ u.borders → x ∈ s.borders) s.borders State.idleBorder id
    (fun u hu b _ hx => hu (u.idleBorder_subset b hx)) h

/-- A border move that is left waits for a workgroup of its owner, or for its slots. -/
theorem State.idleBorders_left {s : State} {b : BorderSpec} (hb : b ∈ s.idleBorders.borders) (idle : s.atWork b.owner = false) : s.borderReady b = false := by
  by_contra ready
  rw [Bool.not_eq_false] at ready
  refine foldl_reaches (I := OnlyBorders s) (P := fun u => b ∉ u.borders) (f := State.idleBorder) (fun u x _ hu => hu.trans (u.idleBorder_only x))
    (fun u x _ _ hp hx => hp (u.idleBorder_subset x hx)) (s.idleBorders_subset hb) (fun u hu hx => ?_) (.refl s) hb
  have idle' : ¬u.atWork b.owner = true := by rw [hu.atWork, idle]; exact Bool.false_ne_true
  have goes : u.idleBorder b = u.startBorders b.owner := if_neg idle'
  rw [goes, State.mem_startBorders] at hx
  exact hx.2 ⟨rfl, (hu.borderReady b).trans ready⟩

end Sys2Proof.Machine
end


section
/-! The end of a switch, as a whole (R155 to R157, R179). -/

namespace Sys2Proof.Machine

/-- The rota after a switch: its slots are an owner's, or free. -/
def State.endRota (s : State) (w : SwitchSpec) (o : Nat) : State :=
  { s with switches := s.switches.filter (fun x => decide (x.1 ≠ w)) }.setSlots w.core w.lane w.slots o

theorem exec_switchEnd_off {s : State} {w : SwitchSpec} (h : ∀ c, (w, c) ∉ s.switches) : exec (.switchEnd w) s = .next s := by
  refine congrArg Host.Outcome.next (if_pos ?_)
  simp only [Bool.not_eq_true', List.any_eq_false, decide_eq_true_eq, Prod.forall]
  rintro a c hm rfl
  exact h c hm

theorem State.any_switches {s : State} {w : SwitchSpec} {c : Nat} (h : (w, c) ∈ s.switches) :
    ¬(!s.switches.any (fun x => decide (x.1 = w))) = true := by
  have : s.switches.any (fun x => decide (x.1 = w)) = true := List.any_eq_true.2 ⟨_, h, decide_eq_true rfl⟩
  rw [this]
  exact Bool.false_ne_true

theorem exec_switchEnd_live {s : State} {w : SwitchSpec} {c : Nat} (h : (w, c) ∈ s.switches) (hl : (s.ownerAt w.incoming).live = true) :
    exec (.switchEnd w) s = .next (((s.endRota w w.incoming).takeSlots w).unholdBoth w).idleBorders := by
  refine congrArg Host.Outcome.next (Eq.trans (if_neg (State.any_switches h)) ?_)
  have there : (State.ownerAt { s with switches := s.switches.filter (fun x => decide (x.1 ≠ w)) } w.incoming).live = true := hl
  dsimp only
  rw [there]
  rfl

theorem exec_switchEnd_dead {s : State} {w : SwitchSpec} {c : Nat} (h : (w, c) ∈ s.switches) (hl : (s.ownerAt w.incoming).live = false) :
    exec (.switchEnd w) s = .next ((s.endRota w 62).unholdBoth w).idleBorders := by
  refine congrArg Host.Outcome.next (Eq.trans (if_neg (State.any_switches h)) ?_)
  have gone : (State.ownerAt { s with switches := s.switches.filter (fun x => decide (x.1 ≠ w)) } w.incoming).live = false := hl
  dsimp only
  rw [gone]
  rfl

theorem State.endRota_notMem (s : State) (w : SwitchSpec) (o c : Nat) : (w, c) ∉ (s.endRota w o).switches := by
  intro h
  have : (w, c) ∈ s.switches.filter (fun x => decide (x.1 ≠ w)) := h
  simp at this

/-- What the incoming owner has before its groups come back. -/
def State.taken (s : State) (w : SwitchSpec) (n : Nat) : State := (s.takeLanes w n).endPreempt w n (s.lanesAfter w n)

theorem State.taken_only (s : State) (w : SwitchSpec) (n : Nat) : OnlyOwners s (s.taken w n) :=
  (s.modOwner_only _ _).trans (State.endPreempt_only _ w n _)

theorem State.taken_keepsPlaces (s : State) (w : SwitchSpec) (n : Nat) : KeepsPlaces s (s.taken w n) :=
  (s.takeLanes_keepsPlaces w n).trans (State.endPreempt_keepsPlaces _ w n _)

theorem State.taken_part (s : State) (w : SwitchSpec) (n o : Nat) : (s.taken w n).part o = s.part o := by
  refine (KeepsVotes.part (State.endPreempt_keepsVotes _ w n _) o).trans ?_
  unfold State.part State.takeLanes
  rw [State.modOwner_ownerAt]
  split
  · next e => rw [e]
  · rfl

theorem State.taken_logicalOn (s : State) (w : SwitchSpec) (n o core : Nat) : (s.taken w n).logicalOn o core = s.logicalOn o core := by
  unfold State.logicalOn State.logicals
  rw [State.taken_part]
  simp only [(s.taken_keepsPlaces w n).phys]

theorem State.takeLanes_lanes (s : State) (w : SwitchSpec) (n : Nat) :
    mapGet (0, 0) ((s.takeLanes w n).ownerAt w.incoming).lanes (n * 8 + w.lane) =
      (s.lanesAfter w n, (mapGet (0, 0) (s.ownerAt w.incoming).lanes (n * 8 + w.lane)).2) := by
  unfold State.takeLanes
  rw [State.modOwner_ownerAt, if_pos rfl, mapGet_mapSet_same]

/-- Owners keep their slots while holds, leases and quotas change. -/
theorem KeepsVotes.lanes {s t : State} (h : KeepsVotes s t) (o : Nat) : (t.ownerAt o).lanes = (s.ownerAt o).lanes := by
  obtain ⟨_, _, _, e⟩ := h.owner o
  rw [e]

/-- The end of a switch whose incoming owner lives. -/
structure EndsSwitch (s t : State) (w : SwitchSpec) (n : Nat) : Prop where
  shares : OnlyShares s t
  only : s.borderOf w = none → OnlySwitch s t
  record : ∀ b c r, s.borderOf w = some b → s.logicalOn b.owner b.core = some c → s.part b.owner = some r → t.part b.owner = some (borderRecord b c r)
  left : ∀ b ∈ t.borders, t.atWork b.owner = false → t.borderReady b = false
  lanes : s.borderOf w = none → mapGet (0, 0) (t.ownerAt w.incoming).lanes (n * 8 + w.lane) =
    (s.lanesAfter w n, (mapGet (0, 0) (s.ownerAt w.incoming).lanes (n * 8 + w.lane)).2)
  groups : (∀ l, (s.launchAt l).halted = none) → ∀ k, s.canReturn w.incoming n w.lane (s.groupAt k) = true →
    t.groupAt k = { s.groupAt k with live := true, away := false }
  held : ∀ o, o = w.outgoing ∨ o = w.incoming → (s.ownerAt o).live = true → .switch w.core w.lane (slotMask w.slots) ∉ (t.ownerAt o).held

theorem State.endsSwitch {s : State} {w : SwitchSpec} {n : Nat} (hn : s.slotHome w.incoming w.core w.lane w.slots = some n) :
    EndsSwitch s ((s.takeSlots w).unholdBoth w).idleBorders w n := by
  rw [State.takeSlots_eq hn]
  show EndsSwitch s (((((s.taken w n).borderShares w).bringBack w.incoming n w.lane).gainQuota w.incoming (islandOf w.core)).unholdBoth w).idleBorders w n
  have border : (s.taken w n).borderOf w = s.borderOf w := by rw [s.taken_only w n]; rfl
  have places := (s.taken_keepsPlaces w n).trans (State.borderShares_keepsPlaces _ w)
  have noBorder (h : s.borderOf w = none) : (s.taken w n).borderShares w = s.taken w n := State.borderShares_of_none (border.trans h)
  have borderPart (b : BorderSpec) (c : Nat) (r : PartRec) (h : s.borderOf w = some b) (hc : s.logicalOn b.owner b.core = some c)
      (hr : s.part b.owner = some r) : ((s.taken w n).borderShares w).part b.owner = some (borderRecord b c r) := by
    rw [State.borderShares_of_some (border.trans h)]
    exact State.giveShares_part ((s.taken_logicalOn w n _ _).trans hc) ((s.taken_part w n _).trans hr)
  have shares := (s.taken_only w n).switch.shares.trans (State.borderShares_shares _ w)
  have onlyTaken := (s.taken_only w n).switch
  have votesTaken := State.endPreempt_keepsVotes (s.takeLanes w n) w n (s.lanesAfter w n)
  change KeepsVotes (s.takeLanes w n) (s.taken w n) at votesTaken
  have lanesTaken := s.takeLanes_lanes w n
  generalize s.taken w n = p at *
  generalize p.borderShares w = b at *
  have back := b.bringBack_returns w.incoming n w.lane
  have backAt : (∀ l, (b.launchAt l).halted = none) → ∀ k, (b.bringBack w.incoming n w.lane).groupAt k = _ := fun h k => State.bringBack_groupAt h _ _ _ k
  generalize b.bringBack w.incoming n w.lane = g at *
  have quota := g.gainQuota_only w.incoming (islandOf w.core)
  have quotaVotes := g.gainQuota_keepsVotes w.incoming (islandOf w.core)
  generalize g.gainQuota w.incoming (islandOf w.core) = q at *
  have free := q.unholdBoth_only w
  have freeVotes := q.unholdBoth_keepsVotes w
  have freeHeld (o : Nat) := State.unholdBoth_held (s := q) (w := w) (o := o)
  generalize q.unholdBoth w = h at *
  have borders := h.idleBorders_only
  have left (x : BorderSpec) := State.idleBorders_left (s := h) (b := x)
  generalize h.idleBorders = t at *
  have tail : OnlySwitch b t := ((back.switch.trans quota.switch).trans free.switch).trans borders.switch
  have owners : t.owners = h.owners := by rw [borders]
  have votes : KeepsVotes b t := (((KeepsVotes.of_owners back.owners).trans quotaVotes).trans freeVotes).trans (.of_owners owners)
  refine ⟨shares.trans tail.shares, fun e => ?_, fun x c r e hc hr => ?_, fun x hx idle => ?_, fun e => ?_, fun run k can => ?_, fun o ho hl => ?_⟩
  · rw [noBorder e] at tail
    exact onlyTaken.trans tail
  · exact (votes.part _).trans (borderPart x c r e hc hr)
  · rw [borders.borderReady]
    exact left x hx ((borders.atWork x.owner).symm.trans idle)
  · rw [noBorder e] at votes
    rw [votes.lanes, votesTaken.lanes, lanesTaken]
  · have groups : t.groups = g.groups := by rw [borders, free, quota]
    have launches : ∀ l, (b.launchAt l).halted = none := by
      unfold State.launchAt
      rw [places.launches]
      exact run
    have same : b.groupAt k = s.groupAt k := by unfold State.groupAt; rw [places.groups]
    have at_ : t.groupAt k = g.groupAt k := by unfold State.groupAt; rw [groups]
    rw [at_, backAt launches, State.reinstate_groupAt, same, places.canReturn, if_pos can]
  · have live : (q.ownerAt o).live = true := by
      rw [quotaVotes.live, (KeepsVotes.of_owners back.owners).live, (places.owner o).1]
      exact hl
    unfold State.ownerAt
    rw [owners]
    exact freeHeld o ho live

theorem State.canReturn_of {s : State} {g : Group} {o n lane : Nat} (away : g.away = true) (swapped : mapFind s.swapped g.wg = none) (owner : g.owner = o)
    (core : g.core = n) (lane_ : g.lane = lane) (free : s.contextTaken o n lane g.ctx = false) : s.canReturn o n lane g = true := by
  unfold State.canReturn
  simp [away, swapped, owner, core, lane_, free]

theorem State.endRota_keepsPlaces (s : State) (w : SwitchSpec) (o : Nat) : KeepsPlaces s (s.endRota w o) := .of_owners rfl rfl rfl rfl

/-- SWITCH_END (R155 to R157). -/
theorem switchEnd_effect {s : State} {w : SwitchSpec} {c n : Nat} (h : (w, c) ∈ s.switches) (hl : (s.ownerAt w.incoming).live = true)
    (hn : s.slotHome w.incoming w.core w.lane w.slots = some n) :
    ∃ t, exec (.switchEnd w) s = .next t ∧ EndsSwitch (s.endRota w w.incoming) t w n ∧ t.rota = (s.endRota w w.incoming).rota ∧
      t.switches = (s.endRota w w.incoming).switches := by
  have hn' : (s.endRota w w.incoming).slotHome w.incoming w.core w.lane w.slots = some n := hn
  have ends := State.endsSwitch hn'
  refine ⟨_, exec_switchEnd_live h hl, ends, ?_, ?_⟩
  · rw [ends.shares]
  · rw [ends.shares]

end Sys2Proof.Machine
end


section
/-! Moves of an owner from core to core, and the end of a core-state transfer (R353, R355 to R357, R386). -/

namespace Sys2Proof.Machine

/-! ### Moves asked for (R357, R386) -/

theorem exec_migrationMove_off {s : State} {o c d : Nat} (h : (o, c, d) ∈ s.moves ∨ s.targetFor o c ≠ some d) : exec (.migrationMove o c d) s = .next s :=
  congrArg Host.Outcome.next (if_pos (by simpa using h))

theorem exec_migrationMove {s : State} {o c d : Nat} (h : (o, c, d) ∉ s.moves) (ht : s.targetFor o c = some d) :
    exec (.migrationMove o c d) s = .next { s with moves := s.moves.filter (fun m => !(decide (m.1 = o) && decide (m.2.1 = c))) ++ [(o, c, d)] } :=
  congrArg Host.Outcome.next (if_neg (by simp [h, ht]))

theorem migrationMove_effect {s : State} {o c d : Nat} (h : (o, c, d) ∉ s.moves) (ht : s.targetFor o c = some d) :
    ∃ t, exec (.migrationMove o c d) s = .next t ∧ t = { s with moves := t.moves } ∧
      ∀ m, m ∈ t.moves ↔ m = (o, c, d) ∨ m ∈ s.moves ∧ ¬(m.1 = o ∧ m.2.1 = c) := by
  refine ⟨_, exec_migrationMove h ht, rfl, fun m => ?_⟩
  simp only [List.mem_append, List.mem_filter, List.mem_singleton, Bool.not_eq_true', Bool.and_eq_false_iff, decide_eq_false_iff_not, not_and_or]
  exact or_comm

/-! ### Tables that pass from core to core (R353) -/

theorem mapGet_of_notMem {α : Type} (d : α) {m : FMap α} {k : Nat} (h : ∀ p ∈ m, p.1 ≠ k) : mapGet d m k = d := by
  induction m with
  | nil => rfl
  | cons p m ih =>
    have get : mapGet d (p :: m) k = if p.1 = k then p.2 else mapGet d m k := rfl
    rw [get, if_neg (h p List.mem_cons_self)]
    exact ih fun q hq => h q (List.mem_cons_of_mem _ hq)

theorem mapGet_filter_out {α : Type} (d : α) (m : FMap α) (P : Nat × α → Bool) {k : Nat} (h : ∀ v, P (k, v) = false) : mapGet d (m.filter P) k = d := by
  refine mapGet_of_notMem d fun p hp e => ?_
  have := (List.mem_filter.1 hp).2
  rw [show p = (k, p.2) from Prod.ext e rfl, h] at this
  cases this

/-- What lay at a key of the range lies at the key as far into the new range. -/
theorem shiftKeys_get {α : Type} (d : α) (m : FMap α) {a n b i : Nat} (hi : i < n) : mapGet d (shiftKeys m a n b) (b + i) = mapGet d m (a + i) := by
  have moved (rest : FMap α) (hrest : mapGet d rest (b + i) = d) :
      mapGet d ((m.filter (fun p => decide (a ≤ p.1) && decide (p.1 < a + n))).foldr (fun p m => mapPut m (p.1 - a + b) p.2) rest) (b + i) =
        mapGet d m (a + i) := by
    induction m with
    | nil => exact hrest
    | cons p m ih =>
      have get : mapGet d (p :: m) (a + i) = if p.1 = a + i then p.2 else mapGet d m (a + i) := rfl
      rw [get]
      by_cases mine : a ≤ p.1 ∧ p.1 < a + n
      · rw [List.filter_cons_of_pos (by simpa using mine), List.foldr_cons, mapGet_mapPut, ih]
        by_cases e : p.1 = a + i
        · rw [if_pos e, if_pos (by omega)]
        · rw [if_neg e, if_neg (by omega)]
      · rw [List.filter_cons_of_neg (by simpa using mine), ih, if_neg (by omega)]
  exact moved _ (mapGet_filter_out d m _ fun v => by simp; omega)

/-! ### What a transfer leaves -/

/-- The slots of an owner that pass from a core to another, one at a time. -/
def State.moveSlot (s : State) (o c d i : Nat) : State :=
  if s.slotOwner c (i / 8) (i % 8) = o then (s.setSlots c (i / 8) [i % 8] 62).setSlots d (i / 8) [i % 8] o else s

theorem State.moveSlots_eq (s : State) (o c d : Nat) : s.moveSlots o c d = (List.range 64).foldl (fun s i => s.moveSlot o c d i) s := rfl

theorem State.moveSlot_only (s : State) (o c d i : Nat) : s.moveSlot o c d i = { s with rota := (s.moveSlot o c d i).rota } := by
  unfold State.moveSlot
  split <;> rfl

theorem State.setSlots_slotOwner_ne (s : State) (core lane o : Nat) {slots : List Nat} {core' lane' i : Nat}
    (h : ∀ j ∈ slots, rotaKey core' lane' i ≠ rotaKey core lane j) : (s.setSlots core lane slots o).slotOwner core' lane' i = s.slotOwner core' lane' i :=
  (s.setSlots_rota core lane slots o _).trans (if_neg fun ⟨j, hj, e⟩ => h j hj e)

/-- A slot that has come to the new core stays the owner's there. -/
theorem State.moveSlot_stays {s : State} {o c d lane i : Nat} (hcd : c ≠ d) (hl : lane < 8) (hi : i < 8) (j : Nat) (hj : j < 64)
    (h : s.slotOwner d lane i = o) : (s.moveSlot o c d j).slotOwner d lane i = o := by
  unfold State.moveSlot
  split
  · by_cases e : rotaKey d lane i = rotaKey d (j / 8) (j % 8)
    · exact (State.setSlots_rota _ d (j / 8) [j % 8] o _).trans (if_pos ⟨_, List.mem_singleton_self _, e⟩)
    · rw [State.setSlots_slotOwner_ne _ _ _ _ (by simpa using e), State.setSlots_slotOwner_ne]
      · exact h
      · unfold rotaKey
        simp only [List.mem_singleton, forall_eq]
        omega
  · exact h

/-- At its turn a slot comes to the new core. -/
theorem State.moveSlot_turn {s : State} {o c d lane i : Nat} (_hl : lane < 8) (hi : i < 8) (h : s.slotOwner c lane i = o) :
    (s.moveSlot o c d (lane * 8 + i)).slotOwner d lane i = o := by
  have lane_ : (lane * 8 + i) / 8 = lane := by omega
  have slot : (lane * 8 + i) % 8 = i := by omega
  unfold State.moveSlot
  rw [lane_, slot, if_pos h]
  exact State.setSlots_slotOwner _ _ _ _ _ (List.mem_singleton_self _)

/-- Until its turn a slot is the owner's on the old core. -/
theorem State.moveSlot_waits {s : State} {o c d lane i : Nat} (_hcd : c ≠ d) (hl : lane < 8) (hi : i < 8) (j : Nat) (hj : j < 64)
    (h : s.slotOwner c lane i = o) : (s.moveSlot o c d j).slotOwner c lane i = o ∨ (s.moveSlot o c d j).slotOwner d lane i = o := by
  by_cases e : j = lane * 8 + i
  · rw [e]
    exact .inr (State.moveSlot_turn hl hi h)
  · refine .inl ?_
    unfold State.moveSlot
    split
    · rw [State.setSlots_slotOwner_ne, State.setSlots_slotOwner_ne]
      · exact h
      · unfold rotaKey
        simp only [List.mem_singleton, forall_eq]
        omega
      · unfold rotaKey
        simp only [List.mem_singleton, forall_eq]
        omega
    · exact h

theorem State.moveSlots_slotOwner {s : State} {o c d lane i : Nat} (hcd : c ≠ d) (hl : lane < 8) (hi : i < 8) (h : s.slotOwner c lane i = o) :
    (s.moveSlots o c d).slotOwner d lane i = o := by
  rw [State.moveSlots_eq]
  refine foldl_reaches (f := fun s i => State.moveSlot s o c d i) (I := fun u => u.slotOwner c lane i = o ∨ u.slotOwner d lane i = o)
    (P := fun u => u.slotOwner d lane i = o) (k := lane * 8 + i) (fun u j hj hu => ?_) (fun u j hj _ hp => State.moveSlot_stays hcd hl hi j (List.mem_range.1 hj) hp)
    (List.mem_range.2 (by omega)) (fun u hu => ?_) (.inl h)
  · rcases hu with hu | hu
    · exact State.moveSlot_waits hcd hl hi j (List.mem_range.1 hj) hu
    · exact .inr (State.moveSlot_stays hcd hl hi j (List.mem_range.1 hj) hu)
  · rcases hu with hu | hu
    · exact State.moveSlot_turn hl hi hu
    · exact State.moveSlot_stays hcd hl hi _ (by omega) hu

/-- What the end of a transfer brings: everything of the owner on the core is on the other one, and its request is answered. -/
def State.transferred (s : State) (x : Transfer) (o c d : Nat) : State :=
  let s := if c = d then s else s.moveCore o x.core c d
  { s with transfers := s.transfers.filter (fun y => decide (y ≠ x)), migrations := s.migrations.filter (fun m => decide (c = d) || decide (m ≠ (o, c))) }

/-- The saved groups of a lane come back where the owner has a slot. -/
def State.backOn (s : State) (o core l : Nat) : State := if (mapGet (0, 0) (s.ownerAt o).lanes (core * 8 + l)).1 = 0 then s else s.bringBack o core l

/-- The saved groups of all lanes of a core come back. -/
def State.backAll (s : State) (o core : Nat) : State := (List.range 8).foldl (fun s l => s.backOn o core l) s

/-- The owner is let go with the last of its transfers from the core. -/
def State.endHold (s : State) (o c : Nat) : State :=
  if s.transfers.any (fun x => decide (x.owner = o) && decide (x.src = c)) then s else s.unhold o (.migration c)

theorem State.moveSlots_only (s : State) (o c d : Nat) : s.moveSlots o c d = { s with rota := (s.moveSlots o c d).rota } := by
  rw [State.moveSlots_eq]
  refine List.foldlRecOn (motive := fun v : State => v = { s with rota := v.rota }) _ _ rfl fun v hv i _ => ?_
  exact Eq.trans (v.moveSlot_only o c d i) (congrArg (fun y : State => { y with rota := (v.moveSlot o c d i).rota }) hv)

theorem State.moveCore_engs (s : State) (o lc c d : Nat) : (s.moveCore o lc c d).engs = s.engs := by
  have slots (u : State) : ((u.moveSlots o c d).modOwner o (fun w => { w with remap := mapPut w.remap lc d })).engs = u.engs := by
    rw [u.moveSlots_only]
    rfl
  unfold State.moveCore
  cases s.shareOf o lc with
  | none => exact slots s
  | some sh => exact slots (s.moveShares o c d sh)

theorem State.transferred_engs (s : State) (x : Transfer) (o c d : Nat) : (s.transferred x o c d).engs = s.engs := by
  unfold State.transferred
  dsimp only
  split
  · rfl
  · exact s.moveCore_engs o x.core c d

theorem exec_coreStateTransferEnd_off {s : State} {o c d : Nat} (h : ∀ x ∈ s.transfers, ¬(x.owner = o ∧ x.src = c ∧ x.dst = d)) :
    exec (.coreStateTransferEnd o c d) s = .next s := by
  have none : s.transfers.find? (fun t => decide (t.owner = o) && decide (t.src = c) && decide (t.dst = d)) = none := by
    rw [List.find?_eq_none]
    intro x hx
    have := h x hx
    simpa [and_assoc] using this
  show execCoreStateTransferEnd o c d s = _
  unfold execCoreStateTransferEnd
  rw [none]

theorem exec_coreStateTransferEnd {s : State} {o c d : Nat} {x : Transfer}
    (hx : s.transfers.find? (fun y => decide (y.owner = o) && decide (y.src = c) && decide (y.dst = d)) = some x) (hengs : ∀ p ∈ s.engs, p.2.owner ≠ o) :
    exec (.coreStateTransferEnd o c d) s = .next (((s.transferred x o c d).backAll o x.core).endHold o c) := by
  have landed : (s.transferred x o c d).engs.foldl
      (fun u p => if p.2.owner = o ∧ p.2.core = x.core ∧ p.2.due.isSome then u.landAll p.1 (p.2.bytes / 64 + 1) else u) (s.transferred x o c d) =
      s.transferred x o c d := by
    refine foldl_eq_self fun p hp => if_neg fun h => ?_
    rw [State.transferred_engs] at hp
    exact hengs p hp h.1
  show execCoreStateTransferEnd o c d s = _
  unfold execCoreStateTransferEnd
  rw [hx]
  dsimp only
  rw [← landed]
  rfl

theorem State.backAll_returns (s : State) (o core : Nat) : Returns s (s.backAll o core) := by
  unfold State.backAll
  refine List.foldlRecOn (motive := Returns s) _ _ (.refl s) fun u hu l _ => hu.trans ?_
  unfold State.backOn
  split
  · exact .refl u
  · exact u.bringBack_returns o core l

theorem State.endHold_only (s : State) (o c : Nat) : OnlyOwners s (s.endHold o c) := by
  unfold State.endHold
  split
  · exact .refl s
  · exact s.unhold_only _ _

theorem State.endHold_keepsVotes (s : State) (o c : Nat) : KeepsVotes s (s.endHold o c) := by
  unfold State.endHold
  split
  · exact .refl s
  · exact s.unhold_keepsVotes _ _

theorem State.endHold_held {s : State} {o c : Nat} (last : ∀ y ∈ s.transfers, ¬(y.owner = o ∧ y.src = c)) (hl : (s.ownerAt o).live = true) :
    .migration c ∉ ((s.endHold o c).ownerAt o).held := by
  have none : ¬s.transfers.any (fun x => decide (x.owner = o) && decide (x.src = c)) = true := by
    intro h
    obtain ⟨y, hy, e⟩ := List.any_eq_true.1 h
    exact last y hy (by simpa using e)
  unfold State.endHold
  rw [if_neg none, State.unhold_ownerAt, if_pos rfl, Owner.withoutHold_held hl]
  simp

/-- The tail of a transfer's end: groups come back and the owner goes on. -/
structure EndsTransfer (u t : State) : Prop where
  only : t = { u with groups := t.groups, unsettled := t.unsettled, wgs := t.wgs, agenda := t.agenda, owners := t.owners }
  regs : SameRegs u t
  votes : KeepsVotes u t

theorem State.endsTransfer (u : State) (o core c : Nat) : EndsTransfer u ((u.backAll o core).endHold o c) := by
  have back := u.backAll_returns o core
  have hold := (u.backAll o core).endHold_only o c
  have votes := (u.backAll o core).endHold_keepsVotes o c
  generalize u.backAll o core = v at *
  generalize v.endHold o c = t at *
  have groups : t.groups = v.groups := by rw [hold]
  refine ⟨?_, back.regs.trans (.of_groups groups), (KeepsVotes.of_owners back.owners).trans votes⟩
  rw [hold, back.only]

theorem State.backAll_transfers (u : State) (o core : Nat) : (u.backAll o core).transfers = u.transfers ∧ (u.backAll o core).owners = u.owners := by
  have back := u.backAll_returns o core
  generalize u.backAll o core = v at *
  rw [back.only]
  exact ⟨rfl, rfl⟩

theorem State.ends_held {u : State} {o core c : Nat} (last : ∀ y ∈ u.transfers, ¬(y.owner = o ∧ y.src = c)) (hl : (u.ownerAt o).live = true) :
    .migration c ∉ (((u.backAll o core).endHold o c).ownerAt o).held := by
  obtain ⟨transfers, owners⟩ := u.backAll_transfers o core
  generalize u.backAll o core = v at transfers owners ⊢
  refine State.endHold_held (transfers ▸ last) ?_
  unfold State.ownerAt
  rw [owners]
  exact hl

/-- Everything of an owner on a core once it has passed to another (R353). -/
theorem State.moveCore_eq {s : State} {o lc c d : Nat} {sh : CoreShare} (hs : s.shareOf o lc = some sh) :
    ∃ rota, s.moveCore o lc c d = State.modOwner { s.moveShares o c d sh with rota := rota } o (fun w => { w with remap := mapPut w.remap lc d }) ∧
      ∀ lane i, c ≠ d → lane < 8 → i < 8 → s.slotOwner c lane i = o → mapGet 62 rota (rotaKey d lane i) = o := by
  have slots : ∀ lane i, c ≠ d → lane < 8 → i < 8 → (s.moveShares o c d sh).slotOwner c lane i = o →
      ((s.moveShares o c d sh).moveSlots o c d).slotOwner d lane i = o := fun _ _ hcd hl hi h => State.moveSlots_slotOwner hcd hl hi h
  have only := (s.moveShares o c d sh).moveSlots_only o c d
  have moved : s.moveCore o lc c d = ((s.moveShares o c d sh).moveSlots o c d).modOwner o (fun w => { w with remap := mapPut w.remap lc d }) := by
    unfold State.moveCore
    rw [hs]
  generalize (s.moveShares o c d sh).moveSlots o c d = v at slots only moved
  exact ⟨v.rota, by rw [moved, ← only], slots⟩

/-- CORE_STATE_TRANSFER_END of a move (R353, R355, R357). -/
theorem transferEnd_effect {s : State} {o c d : Nat} {x : Transfer} {sh : CoreShare}
    (hx : s.transfers.find? (fun y => decide (y.owner = o) && decide (y.src = c) && decide (y.dst = d)) = some x) (hs : s.shareOf o x.core = some sh)
    (hcd : c ≠ d) (hengs : ∀ p ∈ s.engs, p.2.owner ≠ o) :
    ∃ t, exec (.coreStateTransferEnd o c d) s = .next t ∧ t.mem = s.mem ∧ t.phys o x.core = d ∧ x ∉ t.transfers ∧
      (∀ n, n < sh.scratchLen → mapGet 0#8 t.scratch (scrKey d (sh.scratchBase + n)) = mapGet 0#8 s.scratch (scrKey c (sh.scratchBase + n))) ∧
      (∀ n, n < 1024 * sh.accCount → mapGet 0#32 t.acc (d * 32768 + 1024 * sh.accFirst + n) = mapGet 0#32 s.acc (c * 32768 + 1024 * sh.accFirst + n)) ∧
      (∀ n, n < 512 * sh.obufCount → mapGet 0#8 t.obuf (d * 262144 + 512 * sh.obufFirst + n) = mapGet 0#8 s.obuf (c * 262144 + 512 * sh.obufFirst + n)) ∧
      (∀ lane i, lane < 8 → i < 8 → s.slotOwner c lane i = o → t.slotOwner d lane i = o) ∧
      ((s.ownerAt o).live = true → (∀ y ∈ s.transfers, y.owner = o → y.src = c → y = x) → .migration c ∉ (t.ownerAt o).held) ∧
      (∀ m, m ∈ t.migrations ↔ m ∈ s.migrations ∧ m ≠ (o, c)) ∧ SameRegs s t := by
  obtain ⟨rota, moved, slots⟩ := State.moveCore_eq (c := c) (d := d) hs
  have result : s.transferred x o c d = { State.modOwner { s.moveShares o c d sh with rota := rota } o (fun w => { w with remap := mapPut w.remap x.core d }) with
      transfers := s.transfers.filter (fun y => decide (y ≠ x)), migrations := s.migrations.filter (fun m => decide (c = d) || decide (m ≠ (o, c))) } := by
    unfold State.transferred
    rw [if_neg hcd, moved]
    rfl
  have held := State.ends_held (u := s.transferred x o c d) (o := o) (core := x.core) (c := c)
  refine ⟨_, exec_coreStateTransferEnd hx hengs, ?_⟩
  have ends := (s.transferred x o c d).endsTransfer o x.core c
  generalize ((s.transferred x o c d).backAll o x.core).endHold o c = t at ends held ⊢
  generalize s.transferred x o c d = u at ends held result
  have owners : u.owners = mapPut s.owners o { s.ownerAt o with remap := mapPut (s.ownerAt o).remap x.core d } := by
    rw [result]
    rfl
  have owner : u.ownerAt o = { s.ownerAt o with remap := mapPut (s.ownerAt o).remap x.core d } := by
    show mapGet {} u.owners o = _
    rw [owners]
    exact mapGet_mapPut_same _ _ _ _
  have transfers : u.transfers = s.transfers.filter (fun y => decide (y ≠ x)) := by rw [result]
  refine ⟨?_, ?_, ?_, fun n hn => ?_, fun n hn => ?_, fun n hn => ?_, fun lane i hl hi h => ?_, fun hl last => held (fun y hy hyo => ?_) ?_, fun m => ?_, ?_⟩
  · rw [ends.only, result]
    rfl
  · rw [ends.votes.phys]
    unfold State.phys
    rw [owner]
    exact mapGet_mapPut_same _ _ _ _
  · rw [ends.only, result]
    simp
  · have same : t.scratch = u.scratch := by rw [ends.only]
    rw [same, result]
    have get := shiftKeys_get 0#8 s.scratch (a := scrKey c sh.scratchBase) (b := scrKey d sh.scratchBase) hn
    unfold scrKey at get ⊢
    rw [← Nat.add_assoc, ← Nat.add_assoc]
    exact get
  · have same : t.acc = u.acc := by rw [ends.only]
    have key (k : Nat) : k * 32768 + 1024 * sh.accFirst = accKey k sh.accFirst 0 0 := by unfold accKey; omega
    rw [same, result, key, key]
    exact shiftKeys_get 0#32 s.acc hn
  · have same : t.obuf = u.obuf := by rw [ends.only]
    rw [same, result]
    exact shiftKeys_get 0#8 s.obuf hn
  · have same : t.rota = u.rota := by rw [ends.only]
    unfold State.slotOwner
    rw [same, result]
    exact slots lane i hcd hl hi h
  · rw [transfers] at hy
    obtain ⟨hy, ne⟩ := List.mem_filter.1 hy
    exact of_decide_eq_true ne (last y hy hyo.1 hyo.2)
  · rw [owner]
    exact hl
  · have same : t.migrations = u.migrations := by rw [ends.only]
    rw [same, result]
    simp [hcd]
  · have groups : u.groups = s.groups := by rw [result]; rfl
    exact (SameRegs.of_groups groups).trans ends.regs

/-- CORE_STATE_TRANSFER_END of a save or a restore, which moves nothing (R353). -/
theorem transferEnd_stay_effect {s : State} {o c : Nat} {x : Transfer}
    (hx : s.transfers.find? (fun y => decide (y.owner = o) && decide (y.src = c) && decide (y.dst = c)) = some x) (hengs : ∀ p ∈ s.engs, p.2.owner ≠ o) :
    ∃ t, exec (.coreStateTransferEnd o c c) s = .next t ∧ t.mem = s.mem ∧ t.scratch = s.scratch ∧ x ∉ t.transfers ∧ t.migrations = s.migrations ∧
      (∀ n, t.phys o n = s.phys o n) ∧ SameRegs s t := by
  have result : s.transferred x o c c = { s with
      transfers := s.transfers.filter (fun y => decide (y ≠ x)), migrations := s.migrations.filter (fun m => decide (c = c) || decide (m ≠ (o, c))) } := by
    unfold State.transferred
    rw [if_pos rfl]
  refine ⟨_, exec_coreStateTransferEnd hx hengs, ?_⟩
  have ends := (s.transferred x o c c).endsTransfer o x.core c
  generalize ((s.transferred x o c c).backAll o x.core).endHold o c = t at ends ⊢
  generalize s.transferred x o c c = u at ends result
  have owners : u.owners = s.owners := by rw [result]
  have groups : u.groups = s.groups := by rw [result]
  refine ⟨?_, ?_, ?_, ?_, fun n => ?_, (SameRegs.of_groups groups).trans ends.regs⟩
  · rw [ends.only, result]
  · rw [ends.only, result]
  · rw [ends.only, result]
    simp
  · rw [ends.only, result]
    simp
  · exact (ends.votes.phys o n).trans ((KeepsVotes.of_owners owners).phys o n)

end Sys2Proof.Machine
end


section
/-! Creation and destruction of partitions (R179, R199, R420, R429). -/

namespace Sys2Proof.Machine

/-! ### Tables filtered or written at some keys -/

theorem mapGet_filter_in {α : Type} (d : α) (m : FMap α) (P : Nat × α → Bool) {k : Nat} (h : ∀ v, P (k, v) = true) :
    mapGet d (m.filter P) k = mapGet d m k := by
  induction m with
  | nil => rfl
  | cons p m ih =>
    obtain ⟨j, v⟩ := p
    have get (m : FMap α) : mapGet d ((j, v) :: m) k = if j = k then v else mapGet d m k := rfl
    by_cases hp : P (j, v) = true
    · rw [List.filter_cons_of_pos hp, get, get, ih]
    · rw [List.filter_cons_of_neg hp, get, ih, if_neg fun e : j = k => hp (e ▸ h v)]

theorem mapFind_mapErase_same {α : Type} (m : FMap α) (k : Nat) : mapFind (mapErase m k) k = none := by
  induction m with
  | nil => rfl
  | cons p m ih =>
    obtain ⟨j, v⟩ := p
    by_cases e : j = k
    · simpa [mapErase, e] using ih
    · simpa [mapErase, mapFind, e] using ih

/-- Keys written alike read alike. -/
theorem foldl_mapPut_get (d v : Nat) (ks : List Nat) (m : FMap Nat) {k : Nat} (hk : k ∈ ks) : mapGet d (ks.foldl (fun m k => mapPut m k v) m) k = v :=
  foldl_reaches (I := fun _ => True) (P := fun m => mapGet d m k = v) (fun _ _ _ _ => trivial)
    (fun m x _ _ hm => by
      rw [mapGet_mapPut]
      split
      exacts [rfl, hm]) hk (fun _ _ => mapGet_mapPut_same _ _ _ _) trivial

/-! ### Creation (R420, R429) -/

/-- A page written: memory and what is known of its sectors change. -/
def OnlyMemory (s t : State) : Prop := t = { s with mem := t.mem, faulty := t.faulty, checks := t.checks }

theorem OnlyMemory.refl (s : State) : OnlyMemory s s := rfl

theorem OnlyMemory.trans {s t u : State} (h : OnlyMemory s t) (h' : OnlyMemory t u) : OnlyMemory s u :=
  Eq.trans h' (congrArg (fun x : State => { x with mem := u.mem, faulty := u.faulty, checks := u.checks }) h)

theorem State.putMem_only (s : State) (a : Nat) (bs : List Byte) : OnlyMemory s (s.putMem a bs) := rfl

theorem State.putPage_only (s : State) (o pa : Nat) (bs : List Byte) : OnlyMemory s (s.putPage o pa bs) :=
  List.foldlRecOn (motive := OnlyMemory s) _ _ (.refl s) fun u hu _ _ => hu.trans (u.putMem_only _ _)

/-- The shares of a record on their physical cores. -/
def recShares (r : PartRec) : List (Nat × CoreShare) := r.shares.map (fun x => (mapGet x.core r.remap x.core, x))

/-- The new owner, before its root table is written. -/
def State.enlist (s : State) (r : PartRec) : State :=
  { s.clearShares (recShares r) [] with
    owners := mapPut s.owners r.owner (ownerOf r (Config.random s.openTick) s.columnsOff (State.aloneOn (s.clearShares (recShares r) []) r))
    openTick := s.openTick + 1
    tables := (tableKeys r).foldl (fun m k => mapPut m k r.owner) s.tables
    fabric := s.fabric.without r.owner
    frames := mapPut s.frames (frameKey r.owner (r.root / 65536)) r.owner
    spdm := if r.owner < 48 then { s.spdm with measurements := mapPut s.spdm.measurements (16 + r.owner) (Config.recordDigest r) } else s.spdm }

/-- What a creation changes. -/
def OnlyCreates (s t : State) : Prop := t = { s with
  owners := t.owners, openTick := t.openTick, spdm := t.spdm, frames := t.frames, mem := t.mem, faulty := t.faulty, checks := t.checks
  toBegin := t.toBegin, engScr := t.engScr, engObuf := t.engObuf, readHold := t.readHold, acc := t.acc, tables := t.tables, fabric := t.fabric }

theorem OnlyCreates.trans {s t u : State} (h : OnlyCreates s t) (h' : OnlyCreates t u) : OnlyCreates s u :=
  Eq.trans h' (congrArg (fun x : State => { x with
    owners := u.owners, openTick := u.openTick, spdm := u.spdm, frames := u.frames, mem := u.mem, faulty := u.faulty, checks := u.checks
    toBegin := u.toBegin, engScr := u.engScr, engObuf := u.engObuf, readHold := u.readHold, acc := u.acc, tables := u.tables, fabric := u.fabric }) h)

theorem OnlyOwners.creates {s t : State} (h : OnlyOwners s t) : OnlyCreates s t := by
  unfold OnlyOwners at h
  generalize t.owners = a at h
  subst h
  rfl

theorem OnlyMemory.creates {s t : State} (h : OnlyMemory s t) : OnlyCreates s t := by
  unfold OnlyMemory at h
  generalize t.mem = a1, t.faulty = a2, t.checks = a3 at h
  subst h
  rfl

theorem OnlyCreates.of_toBegin (s : State) (ws : List SwitchSpec) : OnlyCreates s { s with toBegin := ws } := rfl

theorem State.enlist_creates (s : State) (r : PartRec) : OnlyCreates s (s.enlist r) := rfl

theorem State.enrol_only (s : State) (r : PartRec) : OnlyMemory (s.enlist r) (s.enrol r) := by
  unfold State.enrol
  exact State.putPage_only (s.enlist r) _ _ _

/-- A record may be created. -/
def State.mayCreate (s : State) (r : PartRec) : Prop :=
  s.powered = true ∧ (s.ownerAt r.owner).live = false ∧ r.kind ≠ .sys ∧ recWellFormed r = true ∧ s.fits r = true

theorem exec_partitionCreate_off {s : State} {r : PartRec} (h : ¬s.mayCreate r) : exec (.partitionCreate r) s = .next s := by
  refine congrArg Host.Outcome.next (if_pos ?_)
  by_contra hn
  simp only [Bool.or_eq_true, not_or, Bool.not_eq_true', Bool.not_eq_false, Bool.not_eq_true, decide_eq_true_eq] at hn
  obtain ⟨⟨⟨⟨powered, dead⟩, kind⟩, formed⟩, fits⟩ := hn
  exact h ⟨powered, dead, kind, formed, fits⟩

/-- The switches yet to begin once a new owner exists. -/
def State.newSwitches (s : State) (r : PartRec) : List SwitchSpec := s.toBegin.map (s.redirected r) ++ s.arrivals r

theorem exec_partitionCreate {s : State} {r : PartRec} (h : s.mayCreate r) :
    exec (.partitionCreate r) s = .next (State.holdNew { s.enrol r with toBegin := s.newSwitches r } r.owner) := by
  obtain ⟨powered, dead, kind, formed, fits⟩ := h
  exact congrArg Host.Outcome.next (if_neg (by simp [powered, dead, kind, formed, fits]))

theorem State.holdNew_only (s : State) (o : Nat) : OnlyOwners s (s.holdNew o) :=
  OnlyOwners.foldl (fun u w => by
    split
    exacts [u.hold_only _ _, .refl u]) _ s

theorem State.hold_ownerAt_only (s : State) (o : Nat) (c : HoldCause) (k : Nat) : ∃ hs, (s.hold o c).ownerAt k = { s.ownerAt k with held := hs } := by
  rw [State.hold_ownerAt]
  split
  · next e =>
    rw [e]
    exact (s.ownerAt o).withHold_only c
  · exact ⟨_, rfl⟩

/-- The new owner's holds are all that its switches change, and other owners stand. -/
theorem State.holdNew_ownerAt (s : State) (o k : Nat) :
    (∃ hs, (s.holdNew o).ownerAt k = { s.ownerAt k with held := hs }) ∧ (k ≠ o → (s.holdNew o).ownerAt k = s.ownerAt k) := by
  refine List.foldlRecOn (motive := fun u : State => (∃ hs, u.ownerAt k = { s.ownerAt k with held := hs }) ∧ (k ≠ o → u.ownerAt k = s.ownerAt k)) _ _
    ⟨⟨_, rfl⟩, fun _ => rfl⟩ fun u hu w _ => ?_
  split
  · obtain ⟨hs, e⟩ := u.hold_ownerAt_only o (.switch w.core w.lane (slotMask w.slots)) k
    obtain ⟨hs', e'⟩ := hu.1
    refine ⟨⟨hs, by rw [e, e']⟩, fun hk => ?_⟩
    rw [State.hold_ownerAt, if_neg hk]
    exact hu.2 hk
  · exact hu

theorem State.holdNew_held {s : State} {o : Nat} (hl : (s.ownerAt o).live = true) {w : SwitchSpec} (hw : w ∈ s.toBegin) (hi : w.incoming = o) :
    .switch w.core w.lane (slotMask w.slots) ∈ ((s.holdNew o).ownerAt o).held := by
  refine foldl_reaches (I := fun u : State => (u.ownerAt o).live = true) (P := fun u => .switch w.core w.lane (slotMask w.slots) ∈ (u.ownerAt o).held)
    (fun u x _ hu => ?_) (fun u x _ hu hp => ?_) hw (fun u hu => ?_) hl
  · split
    · obtain ⟨hs, e⟩ := u.hold_ownerAt_only o (.switch x.core x.lane (slotMask x.slots)) o
      rw [e]
      exact hu
    · exact hu
  · split
    · rw [State.hold_ownerAt, if_pos rfl]
      exact (Owner.mem_withHold hu _ _).2 (.inl hp)
    · exact hp
  · rw [if_pos hi, State.hold_ownerAt, if_pos rfl]
    exact (Owner.mem_withHold hu _ _).2 (.inr rfl)

theorem ownerOf_heldOn (r : PartRec) (key : BitVec 256) (off : List (Nat × Nat)) (alone : Nat → Bool) {i : Nat} (hi : i < 32) :
    mapGet false (ownerOf r key off alone).heldOn i = true := by
  have all : ∀ i < 32, mapGet false ((List.range 32).map (fun i => (i, true))) i = true := by decide
  exact all i hi

/-- Tiles that a record brings are cleared. -/
theorem State.clearShares_acc (s : State) {r : PartRec} {x : CoreShare} (hx : x ∈ r.shares) {n : Nat} (hn : n < 1024 * x.accCount) :
    mapGet 0#32 (s.clearShares (recShares r) []).acc (mapGet x.core r.remap x.core * 32768 + 1024 * x.accFirst + n) = 0#32 := by
  have mine : outside (tileRanges (recShares r)) (mapGet x.core r.remap x.core * 32768 + 1024 * x.accFirst + n) = false := by
    unfold outside tileRanges recShares
    rw [List.all_eq_false]
    refine ⟨_, List.mem_map.2 ⟨_, List.mem_map.2 ⟨x, hx, rfl⟩, rfl⟩, ?_⟩
    unfold accKey
    simp
    omega
  exact mapGet_filter_out _ _ _ fun v => by
    show (outside (tileRanges (recShares r)) _ || !outside (tileRanges []) _) = false
    rw [mine]
    rfl

/-- PARTITION_CREATE (R155, R179, R420, R429). -/
theorem partitionCreate_effect {s : State} {r : PartRec} (h : s.mayCreate r) :
    ∃ t, exec (.partitionCreate r) s = .next t ∧
      t = { s with
        owners := t.owners, openTick := t.openTick, spdm := t.spdm, frames := t.frames, mem := t.mem, faulty := t.faulty, checks := t.checks
        toBegin := t.toBegin, engScr := t.engScr, engObuf := t.engObuf, readHold := t.readHold, acc := t.acc, tables := t.tables, fabric := t.fabric } ∧
      t.toBegin = s.newSwitches r ∧ (∀ k ∈ tableKeys r, mapGet 62 t.tables k = r.owner) ∧
      (∀ x ∈ r.shares, ∀ n, n < 1024 * x.accCount → mapGet 0#32 t.acc (mapGet x.core r.remap x.core * 32768 + 1024 * x.accFirst + n) = 0#32) ∧
      mapFind t.frames (frameKey r.owner (r.root / 65536)) = some r.owner ∧ (∀ o, o ≠ r.owner → t.ownerAt o = s.ownerAt o) ∧
      (∃ hs key off alone, t.ownerAt r.owner = { ownerOf r key off alone with held := hs }) ∧
      ∀ x ∈ t.toBegin, x.incoming = r.owner → .switch x.core x.lane (slotMask x.slots) ∈ (t.ownerAt r.owner).held := by
  refine ⟨_, exec_partitionCreate h, ?_⟩
  have page := s.enrol_only r
  have acc (x : CoreShare) (hx : x ∈ r.shares) (n : Nat) (hn : n < 1024 * x.accCount) := s.clearShares_acc hx hn
  have created := ((s.enlist_creates r).trans page.creates).trans (.of_toBegin _ (s.newSwitches r))
  generalize s.enrol r = e at page created
  generalize hu : ({ e with toBegin := s.newSwitches r } : State) = u at created
  have only : u = { s.enlist r with mem := e.mem, faulty := e.faulty, checks := e.checks, toBegin := s.newSwitches r } := by
    rw [← hu, page]
  have hold := u.holdNew_only r.owner
  have owners := u.holdNew_ownerAt r.owner
  have held (x : SwitchSpec) := State.holdNew_held (s := u) (o := r.owner) (w := x)
  generalize u.holdNew r.owner = t at hold owners held ⊢
  have new : u.ownerAt r.owner = ownerOf r (Config.random s.openTick) s.columnsOff (State.aloneOn (s.clearShares (recShares r) []) r) := by
    rw [only]
    exact mapGet_mapPut_same _ _ _ _
  have switches : t.toBegin = u.toBegin := by rw [hold]
  refine ⟨?_, ?_, fun k hk => ?_, fun x hx n hn => ?_, ?_, fun o ho => ?_, ?_, fun x hx hi => held x ?_ (switches ▸ hx) hi⟩
  · exact created.trans hold.creates
  · rw [switches, only]
  · rw [hold, only]
    exact foldl_mapPut_get 62 r.owner _ _ hk
  · rw [hold, only]
    exact acc x hx n hn
  · rw [hold, only]
    exact mapFind_mapPut_same _ _ _
  · rw [(owners o).2 ho, only]
    exact mapGet_mapPut_ne _ _ _ ho
  · obtain ⟨hs, e'⟩ := (owners r.owner).1
    exact ⟨hs, _, _, _, by rw [e', new]⟩
  · rw [new]
    rfl

/-! ### Destruction (R199, R420) -/

theorem exec_partitionDestroy_off {s : State} {o : Nat} (h : 48 ≤ o ∨ (s.ownerAt o).live = false) : exec (.partitionDestroy o) s = .next s :=
  congrArg Host.Outcome.next (if_pos (by simpa using h))

/-- The state an owner has left, with its slots on their way back. -/
def State.departed (s : State) (o : Nat) : State := { s.dissolve o with toBegin := s.toBegin.filterMap (fun w => orphaned w o) ++ s.returnSlots o }

/-- Elastic contexts that have become holders have their quotas. -/
def State.gainAll (s : State) : State := s.liveOwners.foldl (fun s o => (List.range 32).foldl (fun s i => s.gainQuota o i) s) s

theorem State.dissolve_toBegin (s : State) (o : Nat) : (s.dissolve o).toBegin = s.toBegin := by
  unfold State.dissolve
  split <;> rfl

theorem exec_partitionDestroy {s : State} {o : Nat} (ho : o < 48) (hl : (s.ownerAt o).live = true) :
    exec (.partitionDestroy o) s = .next (s.departed o).gainAll := by
  have on : ¬(48 ≤ o ∨ (!(s.ownerAt o).live) = true) := by simp [hl, ho]
  refine congrArg Host.Outcome.next (Eq.trans (if_neg on) ?_)
  unfold State.departed
  rw [← s.dissolve_toBegin o]
  rfl

/-- What an owner takes with it. -/
theorem State.dissolve_effect {s : State} {o : Nat} {r : PartRec} (hr : s.part o = some r) :
    (s.dissolve o).owners = mapErase s.owners o ∧ (s.dissolve o).groups = s.groups.filter (fun p => decide (p.2.owner ≠ o)) ∧
      (s.dissolve o).launches = s.launches.filter (fun p => decide (p.2.owner ≠ o)) ∧ (s.dissolve o).ops = s.ops.filter (fun p => decide (p.2.owner ≠ o)) ∧
      (s.dissolve o).frames = s.frames.filter (fun p => decide (p.2 ≠ o)) ∧ (s.dissolve o).mem = s.mem.filter (fun c => !s.ownsByte o r c.1) ∧
      (s.dissolve o).scratch = s.scratch := by
  unfold State.dissolve
  rw [hr]
  exact ⟨rfl, rfl, rfl, rfl, rfl, rfl, rfl⟩

theorem State.departed_owners {s : State} {o : Nat} {r : PartRec} (hr : s.part o = some r) : (s.departed o).owners = mapErase s.owners o :=
  (State.dissolve_effect hr).1

theorem State.notMem_liveOwners_departed {s : State} {o : Nat} {r : PartRec} (hr : s.part o = some r) : o ∉ (s.departed o).liveOwners := by
  intro h
  obtain ⟨w, hw, -⟩ := State.mem_liveOwners.1 h
  rw [State.departed_owners hr] at hw
  exact (mapErase_subset _ _ hw).2 rfl

/-- Quotas gained by others leave an owner that has gone out of the list. -/
theorem State.gainAll_gone {s : State} {o : Nat} (ho : o ∉ s.liveOwners) (hf : mapFind s.owners o = none) :
    OnlyOwners s s.gainAll ∧ mapFind s.gainAll.owners o = none := by
  refine List.foldlRecOn (motive := fun u : State => OnlyOwners s u ∧ mapFind u.owners o = none) _ _ ⟨.refl s, hf⟩ fun u hu x hx => ?_
  refine List.foldlRecOn (motive := fun u : State => OnlyOwners s u ∧ mapFind u.owners o = none) _ _ hu fun v hv i _ => ⟨hv.1.trans (v.gainQuota_only x i), ?_⟩
  have ne : o ≠ x := fun e => ho (e ▸ hx)
  rcases v.gainQuota_eq x i with e | ⟨q, e⟩ <;> rw [e]
  · exact hv.2
  · exact (mapFind_mapPut _ _ _ _).trans ((if_neg ne).trans hv.2)

/-- PARTITION_DESTROY (R199, R420). -/
theorem partitionDestroy_effect {s : State} {o : Nat} {r : PartRec} (ho : o < 48) (hl : (s.ownerAt o).live = true) (hr : s.part o = some r) :
    ∃ t, exec (.partitionDestroy o) s = .next t ∧ mapFind t.owners o = none ∧
      (∀ p, p ∈ t.groups ↔ p ∈ s.groups ∧ p.2.owner ≠ o) ∧ (∀ p, p ∈ t.launches ↔ p ∈ s.launches ∧ p.2.owner ≠ o) ∧
      (∀ p, p ∈ t.ops ↔ p ∈ s.ops ∧ p.2.owner ≠ o) ∧
      (∀ p ∈ t.frames, p.2 ≠ o) ∧ (∀ a, t.byte a = if s.ownsByte o r a = true then 0#8 else s.byte a) ∧ t.scratch = s.scratch ∧
      t.toBegin = s.toBegin.filterMap (fun w => if w.incoming ≠ o then some w else if w.outgoing = 62 then none else some { w with incoming := 62 }) ++ s.returnSlots o := by
  have gone : mapFind (s.departed o).owners o = none := by
    rw [State.departed_owners hr]
    exact mapFind_mapErase_same _ _
  obtain ⟨only, none⟩ := State.gainAll_gone (State.notMem_liveOwners_departed hr) gone
  refine ⟨_, exec_partitionDestroy ho hl, ?_⟩
  generalize (s.departed o).gainAll = t at only none ⊢
  obtain ⟨-, hgroups, hlaunches, hops, hframes, hmem, hscratch⟩ := State.dissolve_effect hr
  unfold State.departed at only
  generalize s.dissolve o = u at only hgroups hlaunches hops hframes hmem hscratch
  have groups : t.groups = s.groups.filter (fun p => decide (p.2.owner ≠ o)) := by rw [only, ← hgroups]
  have launches : t.launches = s.launches.filter (fun p => decide (p.2.owner ≠ o)) := by rw [only, ← hlaunches]
  have ops : t.ops = s.ops.filter (fun p => decide (p.2.owner ≠ o)) := by rw [only, ← hops]
  have frames : t.frames = s.frames.filter (fun p => decide (p.2 ≠ o)) := by rw [only, ← hframes]
  have mem : t.mem = s.mem.filter (fun c => !s.ownsByte o r c.1) := by rw [only, ← hmem]
  refine ⟨none, fun p => ?_, fun p => ?_, fun p => ?_, fun p hp => ?_, fun a => ?_, ?_, ?_⟩
  · rw [groups, List.mem_filter, decide_eq_true_eq]
  · rw [launches, List.mem_filter, decide_eq_true_eq]
  · rw [ops, List.mem_filter, decide_eq_true_eq]
  · rw [frames] at hp
    exact of_decide_eq_true (List.mem_filter.1 hp).2
  · unfold State.byte
    rw [mem]
    split
    · next h => exact mapGet_filter_out _ _ _ fun v => by simp [h]
    · next h => exact mapGet_filter_in _ _ _ fun v => by simp [h]
  · rw [only]
    exact hscratch
  · rw [only]
    rfl

end Sys2Proof.Machine
end


section
/-! What a save of a group leaves (R247, R270, R350): who the current group is, where an owner's cores stand, launches, and the threads of all other
groups. -/

namespace Sys2Proof.Machine

/-! ### The relation -/

/-- What is done on behalf of group j: the current group, the cores of owners, launches, and the threads of every other group stand. -/
structure Steady (j : Nat) (s t : State) : Prop where
  cur : t.cur = s.cur
  remap : ∀ o, (t.ownerAt o).remap = (s.ownerAt o).remap
  launches : t.launches = s.launches
  group : ∀ k, (t.groupAt k).launch = (s.groupAt k).launch ∧ (k ≠ j → (t.groupAt k).threads = (s.groupAt k).threads)

theorem Steady.refl (j : Nat) (s : State) : Steady j s s := ⟨rfl, fun _ => rfl, rfl, fun _ => ⟨rfl, fun _ => rfl⟩⟩

theorem Steady.trans {j : Nat} {s t u : State} (h : Steady j s t) (h' : Steady j t u) : Steady j s u :=
  ⟨h'.cur.trans h.cur, fun o => (h'.remap o).trans (h.remap o), h'.launches.trans h.launches, fun k =>
    ⟨(h'.group k).1.trans (h.group k).1, fun hk => ((h'.group k).2 hk).trans ((h.group k).2 hk)⟩⟩

theorem Steady.foldl {α : Type} {j : Nat} (xs : List α) (f : State → α → State) (hf : ∀ s x, Steady j s (f s x)) (s : State) :
    Steady j s (xs.foldl f s) := by
  induction xs generalizing s with
  | nil => exact .refl _ _
  | cons x xs ih => exact (hf s x).trans (ih _)

theorem Steady.of_same {j : Nat} {s t : State} (cur : t.cur = s.cur) (owners : t.owners = s.owners) (launches : t.launches = s.launches)
    (groups : t.groups = s.groups) : Steady j s t := by
  refine ⟨cur, fun o => ?_, launches, fun k => ?_⟩
  · unfold State.ownerAt
    rw [owners]
  · unfold State.groupAt
    rw [groups]
    exact ⟨rfl, fun _ => rfl⟩

theorem Steady.past {j : Nat} {s u t : State} (h : Steady j u t) (cur : u.cur = s.cur) (owners : u.owners = s.owners)
    (launches : u.launches = s.launches) (groups : u.groups = s.groups) : Steady j s t :=
  (Steady.of_same cur owners launches groups).trans h

theorem Steady.of_setOwner {j : Nat} {s : State} {o : Nat} {w : Owner} (h : w.remap = (s.ownerAt o).remap) : Steady j s (s.setOwner o w) := by
  refine ⟨rfl, fun k => ?_, rfl, fun k => ⟨rfl, fun _ => rfl⟩⟩
  rw [State.setOwner_ownerAt]
  split
  · next e => rw [e]; exact h
  · rfl

theorem Steady.of_setGroupAt {j : Nat} {s : State} {k : Nat} {g : Group} (launch : g.launch = (s.groupAt k).launch)
    (threads : k ≠ j → g.threads = (s.groupAt k).threads) : Steady j s (s.setGroupAt k g) := by
  refine ⟨rfl, fun _ => rfl, rfl, fun i => ?_⟩
  rw [State.setGroupAt_groupAt]
  split
  · next e => rw [e]; exact ⟨launch, threads⟩
  · exact ⟨rfl, fun _ => rfl⟩

theorem Steady.ite {j : Nat} {s t u : State} {c : Prop} [Decidable c] (h : Steady j s t) (h' : Steady j s u) : Steady j s (if c then t else u) := by
  split
  exacts [h, h']

section
variable {j : Nat} {s t : State}

theorem Wakes.steady (h : Wakes s t) : Steady j s t := by
  refine ⟨by rw [h.rest], fun o => by rw [h.rest]; rfl, by rw [h.rest], fun k => ?_⟩
  obtain ⟨x, y, f, e⟩ := h.grp k
  rw [e]
  exact ⟨rfl, fun _ => rfl⟩

theorem Flushes.steady (h : Flushes s t) : Steady j s t :=
  .of_same (by rw [h.rest]) (by rw [h.rest]) (by rw [h.rest]) (by rw [h.rest])

theorem Fires.steady (h : Fires s t) : Steady j s t :=
  .of_same (by rw [h.rest]) (by rw [h.rest]) (by rw [h.rest]) (by rw [h.rest])

theorem Walks.steady (h : Walks s t) : Steady j s t := h.fires.steady

theorem Schedules.steady (h : Schedules s t) : Steady j s t := h.fires.steady

theorem Fills.steady (h : Fills s t) : Steady j s t := by
  obtain ⟨l1, l2, os, rfl⟩ := h
  exact .of_same rfl rfl rfl rfl

/-- A group whose threads stand is as much alive as before. -/
theorem Steady.isEnded (h : Steady j s t) {k : Nat} (hk : k ≠ j) : (t.groupAt k).isEnded = (s.groupAt k).isEnded := by
  unfold Group.isEnded Group.notEnded Group.stateMask Group.thread
  rw [(h.group k).2 hk]

theorem Steady.launch (h : Steady j s t) (k : Nat) : t.launchAt (t.groupAt k).launch = s.launchAt (s.groupAt k).launch := by
  unfold State.launchAt
  rw [h.launches, (h.group k).1]

theorem Steady.groupIsland (h : Steady j s t) (g : Group) : t.groupIsland g = s.groupIsland g := by
  unfold State.groupIsland State.groupCore State.phys
  rw [h.remap]

end

theorem Steady.of_modWg (j : Nat) (s : State) (k : Nat) (f : Workgroup → Workgroup) : Steady j s (s.modWg k f) := .of_same rfl rfl rfl rfl

theorem Steady.of_schedule (j : Nat) (s : State) (c : Clk) (n : Nat) (ev : Instr) : Steady j s (s.schedule c n ev) := .of_same rfl rfl rfl rfl

/-! ### An access takes effect -/

theorem Group.deliver_stands (g : Group) (u : Bool) (t : Nat) (d : Reg) (bs : List Byte) :
    (g.deliver u t d bs).launch = g.launch ∧ (g.deliver u t d bs).threads = g.threads := by
  unfold Group.deliver
  refine List.foldlRecOn (motive := fun x : Group => x.launch = g.launch ∧ x.threads = g.threads) _ _ ⟨rfl, rfl⟩ fun x hx y _ => ?_
  cases u with
  | true => exact hx
  | false => exact hx

theorem Group.record_stands (g : Group) (c : Nat) (r : PendRec) : (g.record c r).launch = g.launch ∧ (g.record c r).threads = g.threads := by
  unfold Group.record
  split <;> exact ⟨rfl, rfl⟩

theorem Group.recordReply_stands (g : Group) (entry : PcWord) (op : MemOp) (t va n due : Nat) :
    (g.recordReply entry op t va n due).launch = g.launch ∧ (g.recordReply entry op t va n due).threads = g.threads := by
  unfold Group.recordReply
  dsimp only
  generalize (if n = 0 then causeIntegrity else causeHardware) = cause
  cases mapFind g.pend cause with
  | none => exact Group.record_stands _ _ _
  | some r =>
    dsimp only
    split
    · exact ⟨rfl, rfl⟩
    · exact Group.record_stands _ _ _

section
variable (j : Nat) (s : State)

theorem State.enterBuffer_steady (k : Nat) (op : MemOp) (a : Acc) : Steady j s (s.enterBuffer k op a) := by
  unfold State.enterBuffer
  cases a.place with
  | mem pa => exact .of_modWg _ _ _ _
  | scr _ _ => exact .refl _ _
  | guard => exact .refl _ _
  | ctr _ => exact .refl _ _

theorem State.setCounter_steady (o n : Nat) (v : Dword) : Steady j s (s.setCounter o n v) :=
  Steady.trans (t := s.withCounter o n v) (.of_setOwner rfl) (s.setCounter_fires o n v).steady

theorem State.writePlace_steady (o c : Nat) (p : Place) (bs : List Byte) : Steady j s (s.writePlace o c p bs) := by
  cases p with
  | mem pa => exact .of_same rfl rfl rfl rfl
  | scr _ _ => exact .of_same rfl rfl rfl rfl
  | guard => exact .refl _ _
  | ctr n => exact State.setCounter_steady _ _ _ _ _

theorem State.atomPlace_steady (o c : Nat) (p : Place) (op : AtomOp) (x x2 : List Byte) : Steady j s (s.atomPlace o c p op x x2).2 := by
  cases p with
  | mem pa => exact .of_same rfl rfl rfl rfl
  | scr _ _ => exact .of_same rfl rfl rfl rfl
  | guard => exact .refl _ _
  | ctr n => exact .ite (.refl _ _) (State.setCounter_steady _ _ _ _ _)

theorem State.flushFor_steady (op : MemOp) (a : Acc) : Steady j s (s.flushFor op a) := by
  unfold State.flushFor
  cases a.place with
  | mem pa => exact (s.flush_flushes _ _ _).steady
  | scr _ _ => exact .refl _ _
  | guard => exact .refl _ _
  | ctr _ => exact .refl _ _

theorem State.takeEffect_steady (k : Nat) (op : MemOp) (a : Acc) : Steady j s (s.takeEffect k op a) := by
  have fails (u : State) (va n due : Nat) :
      Steady j u (u.setGroupAt op.gid ((u.groupAt op.gid).recordReply (u.launchAt op.launch).entry op a.thread va n due)) :=
    .of_setGroupAt (Group.recordReply_stands _ _ _ _ _ _ _).1 fun _ => (Group.recordReply_stands _ _ _ _ _ _ _).2
  have delivers (u : State) (bs : List Byte) : Steady j u (u.setGroupAt op.gid ((u.groupAt op.gid).deliver op.uni a.thread op.dst bs)) :=
    .of_setGroupAt (Group.deliver_stands _ _ _ _ _).1 fun _ => (Group.deliver_stands _ _ _ _ _).2
  unfold State.takeEffect
  generalize s.faultAt a.place a.size = bad
  cases op.kind with
  | load => exact .ite (.refl _ _) (by cases bad with
    | none => exact delivers _ _
    | some x => exact fails _ _ _ _)
  | store => exact .ite (.refl _ _) ((s.flushFor_steady j op a).trans (State.writePlace_steady _ _ _ _ _ _))
  | red o => exact .ite (.refl _ _) ((s.flushFor_steady j op a).trans (State.atomPlace_steady _ _ _ _ _ _ _ _))
  | atom o =>
    have done := (s.flushFor_steady j op a).trans ((State.atomPlace_steady j (s.flushFor op a) op.owner op.core a.place o a.data a.data2).trans
      (State.learn_wakes _ k op a [] true).steady)
    exact .ite done (by cases bad with
      | none => exact done.trans (delivers _ _)
      | some x => exact done.trans (fails _ _ _ _))

/-! ### Accesses are completed -/

theorem State.settleAcc_steady (k t : Nat) : Steady j s (s.settleAcc k t) := by
  have sent (op : MemOp) (a : Acc) : Steady j s
      (if a.sent.isSome then s else if a.buffered then s.enterBuffer k op a else s.capture k t (s.cycOf op.owner op.island) true) :=
    .ite (.refl _ _) (.ite (s.enterBuffer_steady _ _ _ _) (s.capture_wakes _ _ _ _).steady)
  unfold State.settleAcc
  cases mapFind s.ops k with
  | none => exact .refl _ _
  | some op =>
    dsimp only
    cases op.acc t with
    | none => exact .refl _ _
    | some a =>
      refine .ite (.refl _ _) ((sent op a).trans ?_)
      generalize (if a.sent.isSome then s else if a.buffered then s.enterBuffer k op a else s.capture k t (s.cycOf op.owner op.island) true) = u
      cases mapFind u.ops k with
      | none => exact .refl _ _
      | some op =>
        dsimp only
        refine Steady.trans (t := if u.readsLines k then u else u.takeEffect k op ((op.acc t).getD a)) (.ite (.refl _ _) (u.takeEffect_steady _ _ _ _)) ?_
        generalize (if u.readsLines k then u else u.takeEffect k op ((op.acc t).getD a)) = v
        cases mapFind v.ops k with
        | none => exact .refl _ _
        | some op => exact .of_same rfl rfl rfl rfl

theorem State.settleHeld_steady (regs : Bool) (ids : List Nat) (n : Nat) (s : State) : Steady j s (s.settleHeld regs ids n) := by
  induction n generalizing s with
  | zero => exact .refl _ _
  | succ n ih =>
    refine Steady.trans (.foldl _ _ (fun u x => ?_) s) (ih _)
    split
    · exact .ite (u.settleAcc_steady _ _ _) (.refl _ _)
    · exact .refl _ _

theorem State.settleOps_steady (regs : Bool) (ids : List Nat) : Steady j s (s.settleOps regs ids) :=
  Steady.trans (.foldl _ _ (fun u _ => u.settleAcc_steady _ _ _) s) (State.settleHeld_steady _ _ _ _ _)

/-! ### Waits are withdrawn -/

theorem State.backOut_steady (k : Nat) (f : Group → Group) (hf : ∀ g, (f g).launch = g.launch ∧ (f g).threads = g.threads) :
    Steady j s (s.backOut k f) :=
  .ite (.refl _ _) (.of_setGroupAt (hf _).1 fun _ => (hf _).2)

theorem State.giveItem_steady (o r k : Nat) : Steady j s (s.giveItem o r k) := by
  unfold State.giveItem
  cases mapFind s.waits k with
  | none => exact .refl _ _
  | some x =>
    dsimp only
    cases x.kind with
    | deq q ring d pr got =>
      refine .ite (.refl _ _) ?_
      cases freeItem ((s.ownerAt o).ring r) with
      | some i =>
        exact Steady.trans (t := s.setOwner o ((s.ownerAt o).setRing r (takeItem k ((s.ownerAt o).ring r)))) (.of_setOwner rfl) (.of_same rfl rfl rfl rfl)
      | none => exact .ite (.of_same rfl rfl rfl rfl) (.refl _ _)
    | _ => exact .refl _ _

theorem State.serveRing_steady (o r : Nat) : Steady j s (s.serveRing o r) := .foldl _ _ (fun u _ => u.giveItem_steady _ _ _ _) s

theorem State.withdrawDeq_steady (k : Nat) : Steady j s (s.withdrawDeq k) := by
  unfold State.withdrawDeq
  cases mapFind s.waits k with
  | none => exact .refl _ _
  | some x =>
    dsimp only
    cases x.kind with
    | deq q ring d pr got =>
      exact Steady.trans (t := { s with waits := mapErase s.waits k }) (.of_same rfl rfl rfl rfl)
        (Steady.trans (t := State.untakeItem { s with waits := mapErase s.waits k } x.owner ring k) (.of_setOwner rfl) (State.serveRing_steady _ _ _ _))
    | _ => exact .refl _ _

theorem State.withdraw_steady (pairs : Bool) (k : Nat) (x : WaitOp) : Steady j s (s.withdraw pairs k x) := by
  have gone : Steady j s { s with waits := mapErase s.waits k } := .of_same rfl rfl rfl rfl
  unfold State.withdraw
  cases x.kind with
  | deq => exact (s.withdrawDeq_steady j k).trans (State.backOut_steady _ _ _ _ fun _ => ⟨rfl, rfl⟩)
  | nctrWait => exact gone.trans (State.backOut_steady _ _ _ _ fun _ => ⟨rfl, rfl⟩)
  | tree => exact .ite (.refl _ _) (gone.trans (State.backOut_steady _ _ _ _ fun _ => ⟨rfl, rfl⟩))
  | xchg => exact .ite (.refl _ _) (gone.trans (State.backOut_steady _ _ _ _ fun _ => ⟨rfl, rfl⟩))
  | _ => exact .refl _ _

/-- A save of any group is steady. -/
theorem State.settleGroup_steady (k : Nat) : Steady j s (s.settleGroup k) :=
  (s.settleOps_steady j false (s.opsOf k)).trans (.foldl _ _ (fun u _ => .ite (u.withdraw_steady _ _ _ _) (.refl _ _)) _)

theorem State.settleAll_steady (f : Group → Bool) : Steady j s (s.settleAll f) :=
  .foldl _ _ (fun u _ => .ite (u.settleGroup_steady _ _) (.refl _ _)) s

/-! ### Results that are known are written -/

theorem State.resume_steady (k : Nat) (f : Group → Group) (hf : ∀ g, (f g).launch = g.launch ∧ (f g).threads = g.threads) :
    Steady j s (s.resume k f) :=
  .ite (.refl _ _) (.of_setGroupAt (hf _).1 fun _ => (hf _).2)

theorem State.appendItem_steady (o r : Nat) (item : List Byte) (c : Nat) : Steady j s (s.appendItem o r item c).2 := by
  unfold State.appendItem
  dsimp only
  cases mapFind (s.ownerAt o).qdecl (ringQueue r) with
  | none => exact .refl _ _
  | some d =>
    dsimp only
    split
    · exact .refl _ _
    · exact Steady.trans (t := s.setOwner o ((s.ownerAt o).setRing r ((s.ownerAt o).ring r ++ [⟨item, c, none⟩]))) (.of_setOwner rfl)
        (State.serveRing_steady _ _ _ _)

theorem dispWrite_stands (d : Reg) (vals : List Word) (g : Group) : (dispWrite d vals g).launch = g.launch ∧ (dispWrite d vals g).threads = g.threads :=
  List.foldlRecOn (motive := fun x : Group => x.launch = g.launch ∧ x.threads = g.threads) _ _ ⟨rfl, rfl⟩ fun _ hx _ _ => hx

theorem Group.raise_stands (g : Group) (ls : List Lane) (f : Lane → BitVec 4) : (g.raise ls f).launch = g.launch ∧ (g.raise ls f).threads = g.threads := by
  unfold Group.raise
  dsimp only
  split <;> exact ⟨rfl, rfl⟩

theorem Group.returned_stands (g : Group) (k : Nat) : (g.returned k).launch = g.launch ∧ (g.returned k).threads = g.threads := by
  unfold Group.returned
  split <;> exact ⟨rfl, rfl⟩

theorem setV_fold_stands (d : Reg) (vals : FMap Word) (ts : List Nat) (g : Group) :
    (ts.foldl (fun g t => g.setV d t (mapGet 0#32 vals t)) g).launch = g.launch ∧
      (ts.foldl (fun g t => g.setV d t (mapGet 0#32 vals t)) g).threads = g.threads :=
  List.foldlRecOn (motive := fun x : Group => x.launch = g.launch ∧ x.threads = g.threads) _ _ ⟨rfl, rfl⟩ fun _ hx _ _ => hx

theorem execXchgComplete_steady {k : Nat} : ∃ t, execXchgComplete k s = .next t ∧ Steady j s t := by
  refine ⟨_, rfl, ?_⟩
  cases mapFind s.waits k with
  | none => exact .refl _ _
  | some x =>
    refine Steady.trans (t := { s with waits := mapErase s.waits k }) (.of_same rfl rfl rfl rfl) ?_
    dsimp only
    split
    · exact .ite (.refl _ _) (.of_setGroupAt (setV_fold_stands _ _ _ _).1 fun _ => (setV_fold_stands _ _ _ _).2)
    · exact .refl _ _

theorem execTreeRedComplete_steady {k : Nat} : ∃ t, execTreeRedComplete k s = .next t ∧ Steady j s t := by
  refine ⟨_, rfl, ?_⟩
  cases mapFind s.waits k with
  | none => exact .refl _ _
  | some x =>
    dsimp only
    split
    · refine .ite (.refl _ _) (Steady.trans (t := { s with waits := mapErase s.waits k }) (.of_same rfl rfl rfl rfl)
        (State.resume_steady _ _ _ _ fun g => ?_))
      exact ⟨(dispWrite_stands _ _ _).1.trans (Group.raise_stands _ _ _).1, (dispWrite_stands _ _ _).2.trans (Group.raise_stands _ _ _).2⟩
    · exact .refl _ _

theorem State.dropL1_steady (o c : Nat) : Steady j s (s.dropL1 o c) := .of_same rfl rfl rfl rfl

/-- A tree barrier that is due ends, and so does not look at its tree again. -/
theorem execTreeBarComplete_steady {k c : Nat} {x : WaitOp} (hx : mapFind s.waits k = some x) (hc : x.due = some c) :
    ∃ t, execTreeBarComplete k s = .next t ∧ Steady j s t := by
  refine ⟨_, rfl, ?_⟩
  rw [hx]
  dsimp only
  split
  · rw [hc, if_neg (by simp)]
    refine .ite (.refl _ _) (Steady.trans ?_ (State.dropL1_steady _ _ _ _))
    exact (State.resume_steady j { s with waits := mapErase s.waits k } x.gid id fun _ => ⟨rfl, rfl⟩).past rfl rfl rfl rfl
  · exact .refl _ _

end

/-! ### Traps of the group itself -/

theorem Group.atEnd_launch (g : Group) : g.atEnd.launch = g.launch := by
  unfold Group.atEnd
  rw [(Group.endThreads_keepsRunning (.inr g.markEnded_isEnded)).only]
  rfl

theorem State.endGroup_steady (j : Nat) (s : State) : Steady j s (s.endGroup j) := by
  obtain ⟨ws, ag, e⟩ := s.endGroup_eq j
  refine ⟨by rw [e], fun o => by rw [e]; rfl, by rw [e], fun k => ?_⟩
  rw [State.endGroup_groupAt]
  split
  · next h => exact ⟨by rw [Group.atEnd_launch, h], fun hk => absurd h hk⟩
  · exact ⟨rfl, fun _ => rfl⟩

theorem State.post_steady (j : Nat) (s : State) (o kind source : Nat) (tag status : Word) (data : List Byte) (secured : Bool) :
    Steady j s (s.post o kind source tag status data secured) := by
  have box (u : State) (r : BoxRec) : Steady j u (u.boxPut r) := .ite (.refl _ _) (.of_same rfl rfl rfl rfl)
  unfold State.post
  exact Steady.trans (.of_setOwner (by rfl)) ((box _ _).trans (.of_schedule _ _ _ _ _))

theorem State.doubleFault_steady {j : Nat} {s : State} (h : s.cur = j) (t : Trap) : Steady j s (s.doubleFault t) := by
  subst h
  exact (s.endGroup_steady s.cur).trans ((State.post_steady _ _ _ _ _ _ _ _ _).trans (.of_same rfl rfl rfl rfl))

theorem OnlyHistory.steady {j k : Nat} {s t : State} (h : OnlyHistory s t k) : Steady j s t := by
  refine ⟨by rw [h.rest], fun o => by rw [h.rest]; rfl, by rw [h.rest], fun i => ?_⟩
  by_cases e : i = k
  · obtain ⟨fs, hf⟩ := h.fences
    rw [e, hf]
    exact ⟨rfl, fun _ => rfl⟩
  · rw [h.others i e]
    exact ⟨rfl, fun _ => rfl⟩

theorem State.takeTrap_steady (s : State) (t : Trap) (pc x : PcWord) : Steady s.cur s (s.setGrp (s.grp.takeTrap t pc x)) :=
  Steady.of_setGroupAt (k := s.cur) (g := (s.groupAt s.cur).takeTrap t pc x) rfl fun hk => absurd rfl hk

theorem State.trapAtPc_steady {j : Nat} {s : State} (h : s.cur = j) (t : Trap) (pc : PcWord) : Steady j s (s.trapAtPc t pc) := by
  unfold State.trapAtPc
  dsimp only
  split
  · exact State.doubleFault_steady h t
  · next x _ =>
    refine .ite (State.doubleFault_steady h t) ?_
    subst h
    have merged := (s.mergeHist_onlyHistory s.cur s.grp.notEnded).steady (j := s.cur)
    have taken := (s.mergeHist s.cur s.grp.notEnded).takeTrap_steady t pc x
    rw [merged.cur] at taken
    exact .ite ((merged.trans taken).trans (.of_same rfl rfl rfl rfl)) (merged.trans taken)

/-- A trap of a waiting group is steady. -/
theorem State.trapGroup_steady (j : Nat) (s : State) (t : Trap) : Steady j s (s.trapGroup j t) := by
  have waits (b : BarMark) : Steady j s (s.modGroup j (fun g => { g with waitSlot := none, busy := none, n := b.n, loops := b.loops, pc := b.pc })) :=
    .of_setGroupAt rfl fun _ => rfl
  have h := State.trapAtPc_steady (j := j) (s := { s.modGroup j (fun g => { g with
    waitSlot := none, busy := none, n := (s.groupAt j).barMark.n, loops := (s.groupAt j).barMark.loops, pc := (s.groupAt j).barMark.pc }) with cur := j })
    rfl t (s.groupAt j).barMark.pc
  exact (waits _).trans ⟨rfl, h.remap, h.launches, h.group⟩

/-! ### A wait is forced -/

theorem Group.notBefore_steady (j : Nat) (s : State) (k c : Nat) : Steady j s (s.modGroup k (fun g => g.notBefore c)) := .of_setGroupAt rfl fun _ => rfl

theorem State.forceDisp_steady {j : Nat} (s : State) (k : Nat) {x : WaitOp} (hx : x.gid = j) (d : Reg) (shape : List Word) (bad : Bool) :
    Steady j s (s.forceDisp k x d shape bad) := by
  subst hx
  unfold State.forceDisp
  cases mapFind s.ops k with
  | none => exact .refl _ _
  | some op =>
    dsimp only
    have faults : Steady x.gid s (op.accs.foldl (fun s a => if a.done then s else match s.faultAt a.place a.size with
      | none => s
      | some (i, n) => s.modGroup op.gid (fun g => g.recordReply (s.launchAt op.launch).entry op 0 (a.va / 32 * 32 + 32 * i) n a.vis)) s) := by
      refine .foldl _ _ (fun u a => .ite (.refl _ _) ?_) s
      split
      · exact .refl _ _
      · exact .of_setGroupAt (Group.recordReply_stands _ _ _ _ _ _ _).1 fun _ => (Group.recordReply_stands _ _ _ _ _ _ _).2
    refine faults.trans ?_
    generalize op.accs.foldl (fun s a => if a.done then s else match s.faultAt a.place a.size with
      | none => s
      | some (i, n) => s.modGroup op.gid (fun g => g.recordReply (s.launchAt op.launch).entry op 0 (a.va / 32 * 32 + 32 * i) n a.vis)) s = u
    refine Steady.trans (t := { u with waits := mapErase u.waits k }) (.of_same rfl rfl rfl rfl) ?_
    generalize ({ u with waits := mapErase u.waits k } : State) = v
    refine .ite (.refl _ _) (.ite (State.resume_steady _ _ _ _ fun _ => ⟨rfl, rfl⟩) ?_)
    split
    · exact State.trapGroup_steady _ _ _
    · exact .ite (State.resume_steady _ _ _ _ fun _ => dispWrite_stands _ _ _) (State.trapGroup_steady _ _ _)

theorem State.forceWait_steady {j : Nat} (s : State) (k : Nat) {x : WaitOp} (hx : x.gid = j) : Steady j s (s.forceWait k x) := by
  unfold State.forceWait
  extract_lets c u after
  have due : Steady j s u := .of_same rfl rfl rfl rfl
  have now : ∃ y c, mapFind u.waits k = some y ∧ y.due = some c := ⟨_, _, mapFind_mapPut_same _ _ _, rfl⟩
  have late (t : State) (h : Steady j s t) : Steady j s (after t) := h.trans (Group.notBefore_steady _ _ _ _)
  clear_value u after
  cases x.kind with
  | append q r item p =>
    refine late _ (Steady.trans ?_ (State.resume_steady _ _ _ _ fun _ => ⟨rfl, rfl⟩))
    exact (State.appendItem_steady _ _ _ _ _ _).past rfl rfl rfl rfl
  | disp d shape bad => exact s.forceDisp_steady k hx d shape bad
  | xchg n tag d vals mask met =>
    cases met with
    | false => exact .refl _ _
    | true =>
      obtain ⟨t, e, h⟩ := execXchgComplete_steady j u (k := k)
      exact late _ (by rw [e]; exact due.trans h)
  | tree n bar d c f vals fl =>
    refine .ite (.refl _ _) (late _ ?_)
    cases bar with
    | false =>
      obtain ⟨t, e, h⟩ := execTreeRedComplete_steady j u (k := k)
      rw [if_neg (by simp), e]
      exact due.trans h
    | true =>
      obtain ⟨y, c, hy, hc⟩ := now
      obtain ⟨t, e, h⟩ := execTreeBarComplete_steady j u hy hc
      rw [if_pos rfl, e]
      exact due.trans h
  | _ => exact .refl _ _

/-! ### Tile operations are worked off -/

section
variable (j : Nat) (s : State)

theorem State.recordTile_steady (x : TileOp) : Steady j s (s.recordTile x) := by
  unfold State.recordTile
  cases x.bad with
  | none => exact .refl _ _
  | some n => exact .ite (.refl _ _) (.of_setGroupAt (Group.record_stands _ _ _).1 fun _ => (Group.record_stands _ _ _).2)

theorem State.tileDone_steady (e : TileEntry) : Steady j s (s.tileDone e) := by
  unfold State.tileDone
  cases mapFind s.tileOps e.op with
  | none => exact .refl _ _
  | some x =>
    have held (u : State) : Steady j u (match e.work with
      | .quarter _ a b _ _ => u.readHolds (u.phys x.owner x.core) a b false
      | .zero | .read _ _ _ | .drain _ => u) := by
      cases e.work with
      | quarter q a b ta tb => exact .of_same rfl rfl rfl rfl
      | _ => exact .refl _ _
    refine (held s).trans ?_
    dsimp only
    refine .ite (Steady.trans ?_ (.of_setGroupAt (by exact (Group.returned_stands _ _).1) fun _ => (Group.returned_stands _ _).2))
      (.of_same rfl rfl rfl rfl)
    exact (State.recordTile_steady _ _ x).past rfl rfl rfl rfl

theorem State.tileRegs_steady (e : TileEntry) (regs : List (Nat × Word)) : Steady j s (s.tileRegs e regs) := by
  unfold State.tileRegs
  split
  · exact .ite (.refl _ _) (.of_setGroupAt rfl fun _ => rfl)
  · exact .refl _ _

theorem execMatrixPassResult_steady (k : Nat) : ∃ t, execMatrixPassResult k s = .next t ∧ Steady j s t := by
  refine ⟨_, rfl, ?_⟩
  cases mapFind s.passes k with
  | none => exact .refl _ _
  | some p =>
    refine Steady.trans ?_ (.foldl _ _ (fun u e => u.tileDone_steady j e) _)
    exact (Steady.foldl p.entries _ (fun u e => u.tileRegs_steady j e p.regs) _).past rfl rfl rfl rfl

theorem State.takeMoved_steady (k : Nat) (e : EngOp) (m : Moved) : Steady j s (s.takeMoved k e m) :=
  (Steady.foldl m.leaves State.markLeaf (fun u x => (u.markLeaf_walks x).steady) s).trans (.ite (.refl _ _) (.of_modWg _ _ _ _))

theorem State.scheduleEngine_steady (k : Nat) (e : EngOp) (start due : Nat) : Steady j s (s.scheduleEngine k e start due) :=
  Steady.trans (t := { s with engs := mapPut s.engs k { e with due := some due } }) (.of_same rfl rfl rfl rfl)
    (Steady.trans (.ite (.refl _ _) (.foldl _ _ (fun _ _ => .of_schedule _ _ _ _ _) _)) (.of_schedule _ _ _ _ _))

theorem State.drainPass_steady (core tile w k : Nat) : Steady j s (s.drainPass core tile w k) := by
  unfold State.drainPass
  cases mapFind s.engs k with
  | none => exact .refl _ _
  | some e =>
    dsimp only
    cases e.job with
    | copy _ => exact .refl _ _
    | drain images t kk arm => exact (s.takeMoved_steady _ _ _ _).trans (State.scheduleEngine_steady _ _ _ _ _ _)

theorem goOn_passResult_steady (k : Nat) (ps : FMap Pass) (n : Nat) :
    Steady j s (goOn (execMatrixPassResult k { s with passes := ps, nextId := n }) s) := by
  obtain ⟨t, e, h⟩ := execMatrixPassResult_steady j { s with passes := ps, nextId := n } k
  rw [e]
  exact h.past rfl rfl rfl rfl

theorem State.drainLane_steady (o core lane : Nat) : Steady j s (s.drainLane o core lane) := by
  unfold State.drainLane
  dsimp only
  have passes := Steady.foldl s.passes (fun s p => if p.2.owner = o ∧ p.2.core = core ∧ p.2.lane = lane then goOn (execMatrixPassResult p.1 s) s else s)
    (fun u p => .ite (goOn_passResult_steady j u p.1 u.passes u.nextId) (.refl _ _)) s
  refine passes.trans ?_
  generalize s.passes.foldl (fun s p => if p.2.owner = o ∧ p.2.core = core ∧ p.2.lane = lane then goOn (execMatrixPassResult p.1 s) s else s) s = v
  refine (Steady.foldl _ _ (fun u e => ?_) _).past rfl rfl rfl rfl
  cases e.work with
  | drain k => exact u.drainPass_steady _ _ _ _ _
  | _ => exact goOn_passResult_steady _ _ _ _ _

theorem State.drainGroup_steady (k : Nat) : Steady j s (s.drainGroup k) := .ite (s.drainLane_steady _ _ _ _) (.refl _ _)

/-- A save of a group into an image is steady but for the group itself, which a trap may end. -/
theorem State.closeGroup_steady : Steady j s (s.closeGroup j) := by
  unfold State.closeGroup
  dsimp only
  refine ((s.settleGroup_steady j j).trans (State.settleOps_steady j (s.settleGroup j) true (s.opsOf j))).trans ?_
  generalize (s.settleGroup j).settleOps true (s.opsOf j) = u
  refine Steady.trans (.foldl _ _ (fun v p => ?_) u) (State.drainGroup_steady _ _ _)
  split
  · next h => exact v.forceWait_steady p.1 h
  · exact .refl _ _

end

end Sys2Proof.Machine
end


section
/-! The issue of a context operation (R382, R383). -/

namespace Sys2Proof.Machine

/-! ### The status at issue -/

section
variable (s : State) (g : Group) (fn : Nat) (d : CtxDesc) (a : Nat) (image : Option (List Leaf × List Byte))

theorem State.ctxStatus_le : s.ctxStatus g fn d a image ≤ 4 := by
  unfold State.ctxStatus
  extract_lets save addrBad found good
  split_ifs <;> decide

theorem State.ctxStatus_toNat : (BitVec.ofNat 32 (s.ctxStatus g fn d a image)).toNat = s.ctxStatus g fn d a image := by
  rw [BitVec.toNat_ofNat, Nat.mod_eq_of_lt (Nat.lt_of_le_of_lt (s.ctxStatus_le g fn d a image) (by decide))]

theorem State.ctxStatus_eq_zero : BitVec.ofNat 32 (s.ctxStatus g fn d a image) = 0#32 ↔ s.ctxStatus g fn d a image = 0 := by
  rw [← BitVec.toNat_inj, State.ctxStatus_toNat]
  rfl

variable {fn a} in
theorem State.ctxStatus_misaligned (hf : fn ≠ 4) (ha : a % 64 ≠ 0) : s.ctxStatus g fn d a image = 4 := by
  unfold State.ctxStatus
  extract_lets save addrBad found good
  refine if_pos ?_
  simp [addrBad, hf, ha]

variable {s g fn d a image} in
theorem State.ctxInTime_of_status (h : s.ctxStatus g fn d a image = 0) : s.ctxInTime fn d = true := by
  unfold State.ctxStatus at h
  extract_lets save addrBad found good at h
  split_ifs at h with bad missing late
  simpa using late

theorem State.ctxStatus_remap : s.ctxStatus g 4 d a none =
    if s.hasCore d.owner d.logical = false then 2 else if s.ctxInTime 4 d = false then 1 else 0 := by
  unfold State.ctxStatus
  cases s.hasCore d.owner d.logical <;> cases s.ctxInTime 4 d <;> rfl

end

/-! ### Marks of the walker -/

theorem leBytes_getD (n x i : Nat) : (leBytes n x).getD i 0#8 = if i < n then BitVec.ofNat 8 (x / 256 ^ i) else 0#8 := by
  induction n generalizing x i with
  | zero => rfl
  | succ n ih =>
    cases i with
    | zero => simp [leBytes]
    | succ i =>
      show (leBytes n (x / 256)).getD i 0#8 = _
      rw [ih, Nat.pow_succ', Nat.div_div_eq_div_mul]
      simp

theorem ofBytes_div (bs : List Byte) (i : Nat) : BitVec.ofNat 8 (ofBytes bs / 256 ^ i) = bs.getD i 0#8 := by
  induction bs generalizing i with
  | nil => simp [ofBytes]
  | cons b bs ih =>
    have hb := b.isLt
    cases i with
    | zero =>
      apply BitVec.eq_of_toNat_eq
      simp [ofBytes]
      omega
    | succ i =>
      have e : (b.toNat + 256 * ofBytes bs) / 256 = ofBytes bs := by omega
      show BitVec.ofNat 8 ((b.toNat + 256 * ofBytes bs) / 256 ^ (i + 1)) = bs.getD i 0#8
      rw [Nat.pow_succ', ← Nat.div_div_eq_div_mul, e, ih]

/-- Bits 5 and 6 of the first byte are all that A and D change. -/
theorem leBytes_marked (bs : List Byte) (n m i : Nat) (hm : m = 0x60 ∨ m = 0x20) (hi : i < n) :
    (leBytes n (ofBytes bs ||| m)).getD i 0#8 &&& 0x9F#8 = bs.getD i 0#8 &&& 0x9F#8 := by
  rw [leBytes_getD, if_pos hi, ← ofBytes_div bs i]
  generalize ofBytes bs = x
  have e : (256 : Nat) ^ i = 2 ^ (8 * i) := by rw [Nat.pow_mul]
  rw [e, ← Nat.shiftRight_eq_div_pow, ← Nat.shiftRight_eq_div_pow, Nat.shiftRight_or_distrib, BitVec.ofNat_or, BitVec.and_or_distrib_right]
  have clear : BitVec.ofNat 8 (m >>> (8 * i)) &&& 0x9F#8 = 0#8 := by
    cases i with
    | zero => rcases hm with rfl | rfl <;> rfl
    | succ i =>
      have small : m < 2 ^ (8 * (i + 1)) :=
        Nat.lt_of_lt_of_le (by rcases hm with rfl | rfl <;> decide) (Nat.pow_le_pow_right (by decide) (Nat.le_mul_of_pos_right 8 i.succ_pos))
      rw [Nat.shiftRight_eq_div_pow, Nat.div_eq_of_lt small]
      rfl
  rw [clear]
  simp

/-- What the walker writes into the entry of a leaf: what stands there with A, or A and D, or nothing. -/
def State.marksOnly (s : State) (x : Leaf) : Prop :=
  x.next = x.entry ∨ ∃ m, (m = 0x60 ∨ m = 0x20) ∧ x.next = ofBytes (s.bytes x.at_ 8) ||| m

theorem State.walkFrom_marksOnly {s : State} {r : PartRec} {va : Nat} {w : Want} {x : Leaf} (n : Nat) {addr : Nat} {path : List Nat}
    (h : s.walkFrom r va w n addr path = .ok x) : s.marksOnly x := by
  induction n generalizing addr path with
  | zero => cases h
  | succ n ih =>
    cases valid : (s.entryAt r.owner (addr + 8 * pteIndex va (n + 1))).testBit 0 with
    | false => exact nomatch (State.walkFrom_invalid s r va n addr path w rfl valid).symm.trans h
    | true =>
      by_cases own : s.entryAt r.owner (addr + 8 * pteIndex va (n + 1)) / 2 ^ 10 % 64 = r.owner
      · cases leaf : (s.entryAt r.owner (addr + 8 * pteIndex va (n + 1))).testBit 1 with
        | false =>
          rw [State.walkFrom_table s r va n addr path w rfl valid own leaf] at h
          split at h
          · cases h
          · exact ih h
        | true =>
          rw [State.walkFrom_leaf s r va n addr path w rfl valid own leaf] at h
          split_ifs at h <;> cases h <;> exact .inr ⟨_, by simp, rfl⟩
      · exact nomatch (State.walkFrom_foreign s r va n addr path w rfl valid own).symm.trans h

theorem State.walk_marksOnly {s : State} {o va : Nat} {w : Want} {x : Leaf} (h : s.walk o va w = .ok x) : s.marksOnly x := by
  unfold State.walk at h
  split at h
  · cases h
  · exact State.walkFrom_marksOnly 4 h

theorem State.translate_marksOnly {s : State} {c : Option Nat} {ls : List Lease} {o va len : Nat} {w : Want} {x : Leaf}
    (h : s.translate c ls o va len w = .ok x) : s.marksOnly x := by
  unfold State.translate State.leafOn at h
  split at h
  · split at h
    · exact State.walk_marksOnly h
    · split_ifs at h
      · exact State.walk_marksOnly h
      · cases h
        exact .inl rfl
  · cases h

theorem exists_of_mem_mapM {α β : Type} {f : α → Option β} {xs : List α} {ys : List β} (h : xs.mapM f = some ys) {y : β} (hy : y ∈ ys) :
    ∃ x ∈ xs, f x = some y := by
  induction xs generalizing ys with
  | nil =>
    cases h
    cases hy
  | cons x xs ih =>
    simp only [List.mapM_cons, bind, Option.bind_eq_some_iff] at h
    obtain ⟨z, hz, zs, hzs, e⟩ := h
    cases e
    rcases List.mem_cons.1 hy with rfl | hy
    · exact ⟨x, List.mem_cons_self, hz⟩
    · obtain ⟨w, hw, e⟩ := ih hzs hy
      exact ⟨w, List.mem_cons_of_mem _ hw, e⟩

theorem State.ctxLeaves_marksOnly {s : State} {g : Group} {a n : Nat} {w : Want} {ls : List Leaf} (h : s.ctxLeaves g a n w = some ls) :
    ∀ x ∈ ls, s.marksOnly x := by
  intro x hx
  obtain ⟨i, -, e⟩ := exists_of_mem_mapM h hx
  split at e
  · next y hy =>
    cases e
    exact State.translate_marksOnly hy
  · cases e

theorem State.ctxRead_marksOnly {s : State} {g : Group} {d : CtxDesc} {a : Nat} {ls : List Leaf} {b : List Byte}
    (h : s.ctxRead g 1 d a = some (ls, b)) : ∀ x ∈ ls, s.marksOnly x := by
  unfold State.ctxRead at h
  split at h
  · cases h
  · next l hl =>
    cases h
    exact State.ctxLeaves_marksOnly hl

theorem OnlyMarks.refl (s : State) : OnlyMarks s s := fun _ => rfl

theorem State.bytes_getD (s : State) (a n i : Nat) (hi : i < n) : (s.bytes a n).getD i 0#8 = s.byte (a + i) := by
  unfold State.bytes
  simp [hi]

theorem OnlyMarks.markLeaf {s u : State} (h : OnlyMarks s u) {x : Leaf} (hx : s.marksOnly x) : OnlyMarks s (u.markLeaf x) := by
  intro a
  unfold State.markLeaf
  split
  · exact h a
  · next hn =>
    obtain ⟨m, hm, e⟩ := hx.resolve_left hn
    show (u.putMem x.at_ (leBytes 8 x.next)).byte a &&& 0x9F#8 = _
    rw [State.putMem_byte]
    split
    · next hin =>
      have len : (leBytes 8 x.next).length = 8 := rfl
      rw [len] at hin
      rw [e, leBytes_marked _ 8 m _ hm (by omega), s.bytes_getD _ 8 _ (by omega)]
      congr 2
      omega
    · exact h a

/-! ### A restore reads its image -/

theorem State.ctxFill_fires (s : State) (g : Group) (ls : List Leaf) : Fires s (s.ctxFill g ls) := by
  refine Fires.foldl _ _ (fun u x => ?_) s
  have walked := (u.markLeaf_walks x).fires.trans (Fires.foldl x.path
    (fun t a => t.schedule (.owner 63 (s.groupIsland g)) (s.win + s.memHorizon 63 g.core a) (.prefetchFill 63 g.core (a / 128) 3#2)) (fun _ _ => ⟨rfl⟩) _)
  dsimp only
  split
  · exact walked
  · exact walked.trans ⟨rfl⟩

theorem State.ctxFill_marks {s : State} (g : Group) {ls : List Leaf} (h : ∀ x ∈ ls, s.marksOnly x) : OnlyMarks s (s.ctxFill g ls) := by
  refine List.foldlRecOn (motive := OnlyMarks s) _ _ (.refl s) fun u hu x hx => ?_
  have marked := hu.markLeaf (h x hx)
  have walked := Schedules.foldl x.path
    (fun t a => t.schedule (.owner 63 (s.groupIsland g)) (s.win + s.memHorizon 63 g.core a) (.prefetchFill 63 g.core (a / 128) 3#2))
    (fun _ _ => .of_schedule _ _ _ _) (u.markLeaf x)
  obtain ⟨xs, e⟩ := walked
  dsimp only
  rw [e]
  split
  · exact marked
  · exact marked

/-! ### What has begun when the group waits -/

/-- A restore has read its image. -/
def State.ctxFilled (s : State) (g : Group) (image : Option (List Leaf × List Byte)) : State := image.elim s fun x => s.ctxFill g x.1

/-- An operation on core-wide state outside a transfer begins one of its own. -/
def State.ownBegins (s : State) (fn : Nat) (d : CtxDesc) : State :=
  if s.inTransfer fn d || !s.ownTransfer fn d then s else
  (s.ctxWg d).elim s fun w => s.beginTransfer d.owner (s.wgAt w).core d.core d.core

theorem State.ctxBegins_eq (s : State) (g : Group) (fn : Nat) (d : CtxDesc) (image : Option (List Leaf × List Byte)) :
    s.ctxBegins g fn d image = (s.ctxFilled g image).ownBegins fn d := by
  have own (u : State) : (match u.ctxWg d with
      | none => u
      | some w => u.beginTransfer d.owner (u.wgAt w).core d.core d.core) =
      (u.ctxWg d).elim u fun w => u.beginTransfer d.owner (u.wgAt w).core d.core d.core := by
    cases u.ctxWg d <;> rfl
  unfold State.ctxBegins State.ownBegins
  rw [← own]
  cases image <;> rfl

theorem State.ownBegins_group (s : State) {fn : Nat} (d : CtxDesc) (h : fn ≠ 2 ∧ fn ≠ 3) : s.ownBegins fn d = s :=
  if_pos (by simp [State.ownTransfer, h])

theorem State.hold_steady (j : Nat) (s : State) (o : Nat) (c : HoldCause) : Steady j s (s.hold o c) := by
  obtain ⟨hs, e⟩ := (s.ownerAt o).withHold_only c
  rcases s.hold_eq o c with e' | e' <;> rw [e']
  · exact .refl _ _
  · rw [e]
    exact .of_setOwner rfl

theorem State.beginTransfer_steady (j : Nat) (s : State) (o c src dst : Nat) : Steady j s (s.beginTransfer o c src dst) :=
  (s.settleAll_steady j _).trans ((State.hold_steady _ _ _ _).trans (.of_same rfl rfl rfl rfl))

theorem State.ctxBegins_steady (j : Nat) (s : State) (g : Group) (fn : Nat) (d : CtxDesc) (image : Option (List Leaf × List Byte)) :
    Steady j s (s.ctxBegins g fn d image) := by
  rw [State.ctxBegins_eq]
  have filled : Steady j s (s.ctxFilled g image) := by
    cases image with
    | none => exact .refl _ _
    | some x => exact (s.ctxFill_fires g x.1).steady
  refine filled.trans (.ite (.refl _ _) ?_)
  cases (s.ctxFilled g image).ctxWg d with
  | none => exact .refl _ _
  | some w => exact State.beginTransfer_steady _ _ _ _ _ _

/-- The state in which the group begins to wait for a context operation of a status. -/
def State.ctxBegun (s : State) (fn : Nat) (d : CtxDesc) (image : Option (List Leaf × List Byte)) (st : Nat) : State :=
  if st = 3 then s.bumpOpen 63 (s.groupIsland s.grp) 1 else if st = 0 then s.ctxBegins s.grp fn d image else s

theorem State.ctxBegun_steady (j : Nat) (s : State) (fn : Nat) (d : CtxDesc) (image : Option (List Leaf × List Byte)) (st : Nat) :
    Steady j s (s.ctxBegun fn d image st) :=
  .ite (.of_same rfl rfl rfl rfl) (.ite (s.ctxBegins_steady _ _ _ _ _) (.refl _ _))

theorem State.ctxBegun_opens (s : State) {fn : Nat} (d : CtxDesc) {st : Nat} (image : Option (List Leaf × List Byte))
    (h : st ≠ 0 ∨ (fn ≠ 2 ∧ fn ≠ 3) ∧ image = none) : s.ctxBegun fn d image st = { s with opens := (s.ctxBegun fn d image st).opens } := by
  unfold State.ctxBegun
  split
  · rfl
  · split
    · next h0 =>
      obtain ⟨hf, rfl⟩ := h.resolve_left (fun hn => hn h0)
      rw [State.ctxBegins_eq, State.ownBegins_group _ _ hf]
      rfl
    · rfl

/-! ### The wait -/

/-- The group waits for the end of a context operation at a cycle. -/
def State.awaitCtx (s : State) (g : Group) (kind : WaitKind) (due : Nat) (target : Option Nat) : State :=
  let k := s.fresh
  let s := (s.await g kind (some due)).schedule (.owner g.owner (s.groupIsland g)) due (.contextOpComplete k)
  { s with waits := (match mapFind s.waits k with
      | none => s.waits
      | some x => mapPut s.waits k { x with target := target }) }

/-- The record of such a wait. -/
def State.ctxWait (s : State) (g : Group) (kind : WaitKind) (due : Nat) (target : Option Nat) : WaitOp :=
  { gid := s.cur, owner := g.owner, island := s.groupIsland g, pc := g.trapAt, w := s.win, kind := kind, due := some due, target := target }

/-- The group as it waits. -/
def Group.waiting (g : Group) (k : Nat) : Group := { g.complete with busy := some k, barMark := g.markHere }

theorem State.awaitCtx_eq (s : State) (g : Group) (kind : WaitKind) (due : Nat) (target : Option Nat) :
    s.awaitCtx g kind due target = { s with
      groups := mapPut s.groups s.cur (g.waiting s.nextId)
      waits := mapPut (mapPut s.waits s.nextId (s.ctxWait g kind due none)) s.nextId (s.ctxWait g kind due target)
      nextId := s.nextId + 1
      agenda := s.agenda ++ [⟨.owner g.owner (s.groupIsland g), due, .contextOpComplete s.nextId⟩] } := by
  have waiting : Group.complete { g with busy := some s.nextId, barMark := g.markHere } = g.waiting s.nextId :=
    (Group.complete_of_eq g { g with busy := some s.nextId, barMark := g.markHere } rfl rfl rfl).trans
      (congrArg (fun x : Group => { x with busy := some s.nextId, barMark := g.markHere }) g.complete_eta.symm)
  rw [← waiting]
  unfold State.awaitCtx
  have found : mapFind (mapPut s.waits s.nextId (s.ctxWait g kind due none)) s.nextId = some (s.ctxWait g kind due none) := mapFind_mapPut_same _ _ _
  show ({ s with
    groups := _, waits := (match mapFind (mapPut s.waits s.nextId (s.ctxWait g kind due none)) s.nextId with
      | none => mapPut s.waits s.nextId (s.ctxWait g kind due none)
      | some x => mapPut (mapPut s.waits s.nextId (s.ctxWait g kind due none)) s.nextId { x with target := target }), nextId := _, agenda := _ } : State) = _
  rw [found]
  rfl

section
variable (u : State) (g : Group) (kind : WaitKind) (due : Nat) (target : Option Nat)

theorem State.awaitCtx_wait : mapFind (u.awaitCtx g kind due target).waits u.nextId = some (u.ctxWait g kind due target) := by
  rw [State.awaitCtx_eq]
  exact mapFind_mapPut_same _ _ _

theorem State.awaitCtx_groupAt (k : Nat) : (u.awaitCtx g kind due target).groupAt k = if k = u.cur then g.waiting u.nextId else u.groupAt k := by
  rw [State.awaitCtx_eq]
  exact u.setGroupAt_groupAt u.cur (g.waiting u.nextId) k

theorem State.awaitCtx_grp : (u.awaitCtx g kind due target).grp = g.waiting u.nextId := by
  have cur : (u.awaitCtx g kind due target).cur = u.cur := by rw [State.awaitCtx_eq]
  show (u.awaitCtx g kind due target).groupAt (u.awaitCtx g kind due target).cur = _
  rw [cur, State.awaitCtx_groupAt, if_pos rfl]

theorem State.awaitCtx_due : (⟨.owner g.owner (u.groupIsland g), due, .contextOpComplete u.nextId⟩ : Pend) ∈ (u.awaitCtx g kind due target).agenda := by
  rw [State.awaitCtx_eq]
  exact List.mem_append_right _ (List.mem_singleton_self _)

end

theorem State.awaitCtx_awaits (s : State) (os : FMap Nat) (kind : WaitKind) (due : Nat) (target : Option Nat) :
    Awaits s (State.awaitCtx { s with opens := os } s.grp kind due target) kind (some due) [] target where
  wait := State.awaitCtx_wait _ _ _ _ _
  busy := by rw [State.awaitCtx_grp]; rfl
  mark := by rw [State.awaitCtx_grp]; rfl
  goesOn := by rw [State.awaitCtx_grp]; exact ⟨rfl, rfl, rfl⟩
  next := by rw [State.awaitCtx_eq]
  regs k := by
    rw [State.awaitCtx_groupAt]
    split
    · next e =>
      rw [e]
      exact ⟨s.grp.complete_v, s.grp.complete_g, s.grp.complete_p, s.grp.complete_q⟩
    · exact ⟨rfl, rfl, rfl, rfl⟩
  others k hk := by
    rw [State.awaitCtx_groupAt]
    exact if_neg hk
  mem := by rw [State.awaitCtx_eq]; exact ⟨rfl, rfl⟩

/-! ### The issue -/

/-- What an operation reads of its image. -/
def State.ctxImage (s : State) (fn : Nat) (x : CtxDesc) (a : Nat) : Option (List Leaf × List Byte) :=
  if fn = 1 ∨ fn = 3 then s.ctxRead s.grp fn x a else none

/-- The status of an operation of the current group. -/
def State.ctxCode (s : State) (fn : Nat) (x : CtxDesc) (a : Nat) : Nat := s.ctxStatus s.grp fn x a (s.ctxImage fn x a)

/-- The cycles that an operation of a status takes. -/
def State.ctxCycles (s : State) (fn : Nat) (x : CtxDesc) (a : Nat) : Nat :=
  if s.ctxCode fn x a = 0 then ctxTime fn else if s.ctxCode fn x a = 3 then s.ctxReadTime s.grp (s.ctxImage fn x a) else 4

/-- The image that an operation of a status keeps. -/
def State.ctxBytes (s : State) (fn : Nat) (x : CtxDesc) (a : Nat) : List Byte :=
  if s.ctxCode fn x a = 0 then ((s.ctxImage fn x a).map (fun p => p.2)).getD [] else []

theorem ctxOp_passes {s : State} {i : Instr} {h : Guard} {n : Nat} {d : Reg} {addr : Dword} (hi : exec i s = .next (s.ctxOp h n d addr))
    (hq : s.grp.guardQ h = false) : Passes i s :=
  hi.trans (congrArg Host.Outcome.next (if_pos (by rw [hq]; rfl)))

theorem State.ctxOp_on {s : State} {h : Guard} (hq : s.grp.guardQ h = true) (fn : Nat) (d : Reg) (addr : Dword) :
    let x := ctxDesc (s.grp.getG64 d)
    let bytes := s.ctxBytes fn x addr.toNat
    s.ctxOp h fn d addr = (s.ctxBegun fn x (s.ctxImage fn x addr.toNat) (s.ctxCode fn x addr.toNat)).awaitCtx s.grp
      (.ctx fn d (s.grp.getG64 d) addr (BitVec.ofNat 32 (s.ctxCode fn x addr.toNat)) bytes) (s.win + s.ctxCycles fn x addr.toNat) (s.ctxTarget fn x bytes) :=
  if_neg (by rw [hq]; decide)

/-- A restore that will be done has set marks in the entries of its image, and read it. -/
theorem State.ctxBegun_marks {s : State} {x : CtxDesc} {a : Nat} (h : s.ctxCode 1 x a = 0) :
    OnlyMarks s (s.ctxBegun 1 x (s.ctxImage 1 x a) (s.ctxCode 1 x a)) ∧ Fires s (s.ctxBegun 1 x (s.ctxImage 1 x a) (s.ctxCode 1 x a)) := by
  have begun : s.ctxBegun 1 x (s.ctxImage 1 x a) (s.ctxCode 1 x a) = s.ctxFilled s.grp (s.ctxImage 1 x a) := by
    unfold State.ctxBegun
    rw [h, if_neg (by decide), if_pos rfl, State.ctxBegins_eq, State.ownBegins_group _ _ ⟨by decide, by decide⟩]
  rw [begun]
  cases hi : s.ctxImage 1 x a with
  | none => exact ⟨.refl s, .refl s⟩
  | some y =>
    have read : s.ctxRead s.grp 1 x a = some (y.1, y.2) := (if_pos (.inl rfl)).symm.trans hi
    exact ⟨State.ctxFill_marks _ (State.ctxRead_marksOnly read), s.ctxFill_fires _ _⟩

/-- How a context operation issues (R382, R383). -/
theorem ctxOp_issues {s : State} {i : Instr} {h : Guard} {n : Nat} {d : Reg} {addr : Dword} (hi : exec i s = .next (s.ctxOp h n d addr))
    (hq : s.grp.guardQ h = true) :
    let g := s.grp
    let x := ctxDesc (g.getG64 d)
    ∃ (t : State) (st : Word) (c : Nat) (img : List Byte) (k : Nat) (y : WaitOp), exec i s = .next t ∧
      mapFind t.waits k = some y ∧ y.gid = s.cur ∧ y.kind = .ctx n d (g.getG64 d) addr st img ∧
      y.target = s.ctxTarget n x img ∧ y.due = some (s.win + c) ∧ t.grp.busy = some k ∧
      (⟨.owner g.owner (s.groupIsland g), s.win + c, .contextOpComplete k⟩ : Pend) ∈ t.agenda ∧
      (st ≠ 0#32 ∨ n = 0 ∨ n = 4 → t = { s with waits := t.waits, groups := t.groups, nextId := t.nextId, agenda := t.agenda, opens := t.opens } ∧
        Awaits s t (.ctx n d (g.getG64 d) addr st img) (some (s.win + c)) [] (s.ctxTarget n x img)) ∧
      (st = 0#32 → n = 1 → OnlyMarks s t ∧ t.scratch = s.scratch ∧ ∀ j, j ≠ s.cur → t.groupAt j = s.groupAt j) ∧
      (st = 0#32 → c = (if n = 2 ∨ n = 3 then 65536 else 2048) ∧ s.ctxInTime n x = true) ∧ (n ≠ 4 → addr.toNat % 64 ≠ 0 → st = 4#32) ∧ st.toNat ≤ 4 ∧
      (n = 4 → st = if s.hasCore x.owner x.logical = false then 2#32 else if s.ctxInTime n x = false then 1#32 else 0#32) := by
  intro g x
  rw [hi, State.ctxOp_on hq n d addr]
  have steady := s.ctxBegun_steady s.cur n x (s.ctxImage n x addr.toNat) (s.ctxCode n x addr.toNat)
  have opens (h : s.ctxCode n x addr.toNat ≠ 0 ∨ (n ≠ 2 ∧ n ≠ 3) ∧ s.ctxImage n x addr.toNat = none) :=
    s.ctxBegun_opens x (s.ctxImage n x addr.toNat) h
  have marks (h0 : s.ctxCode n x addr.toNat = 0) (hn : n = 1) : OnlyMarks s (s.ctxBegun n x (s.ctxImage n x addr.toNat) (s.ctxCode n x addr.toNat)) ∧
      Fires s (s.ctxBegun n x (s.ctxImage n x addr.toNat) (s.ctxCode n x addr.toNat)) := by
    subst hn
    exact State.ctxBegun_marks h0
  have zero := s.ctxStatus_eq_zero g n x addr.toNat (s.ctxImage n x addr.toNat)
  change BitVec.ofNat 32 (s.ctxCode n x addr.toNat) = 0#32 ↔ s.ctxCode n x addr.toNat = 0 at zero
  generalize s.ctxBegun n x (s.ctxImage n x addr.toNat) (s.ctxCode n x addr.toNat) = u at steady opens marks ⊢
  generalize hk : WaitKind.ctx n d (s.grp.getG64 d) addr (BitVec.ofNat 32 (s.ctxCode n x addr.toNat)) (s.ctxBytes n x addr.toNat) = kind
  generalize ht : s.ctxTarget n x (s.ctxBytes n x addr.toNat) = target
  generalize hc : s.win + s.ctxCycles n x addr.toNat = due
  refine ⟨u.awaitCtx g kind due target, BitVec.ofNat 32 (s.ctxCode n x addr.toNat), s.ctxCycles n x addr.toNat, s.ctxBytes n x addr.toNat, u.nextId, u.ctxWait g kind due target,
    rfl, State.awaitCtx_wait _ _ _ _ _, steady.cur, hk.symm, ht.symm, by rw [hc]; rfl, by rw [State.awaitCtx_grp]; rfl, ?_, fun same => ?_, fun done restores => ?_,
    fun done => ?_, fun hn ha => ?_, ?_, fun hn => ?_⟩
  · rw [hc, ← steady.groupIsland g]
    exact State.awaitCtx_due _ _ _ _ _
  · have hu := opens (by
      rcases same with h | rfl | rfl
      · exact .inl fun h0 => h (zero.2 h0)
      · exact .inr ⟨by decide, if_neg (by decide)⟩
      · exact .inr ⟨by decide, if_neg (by decide)⟩)
    generalize u.opens = os at hu
    subst hu
    rw [hk, ht, hc]
    exact ⟨by rw [State.awaitCtx_eq], State.awaitCtx_awaits _ _ _ _ _⟩
  · obtain ⟨marked, fires⟩ := marks (zero.1 done) restores
    refine ⟨fun a => Eq.trans ?_ (marked a), ?_, fun j hj => ?_⟩
    · unfold State.byte
      rw [State.awaitCtx_eq]
    · rw [State.awaitCtx_eq, fires.rest]
    · rw [State.awaitCtx_groupAt, if_neg (by rw [steady.cur]; exact hj), fires.rest]
      rfl
  · exact ⟨if_pos (zero.1 done), State.ctxInTime_of_status (zero.1 done)⟩
  · exact congrArg (BitVec.ofNat 32) (s.ctxStatus_misaligned g x _ hn ha)
  · exact le_of_eq_of_le (State.ctxStatus_toNat _ _ _ _ _ _) (State.ctxStatus_le _ _ _ _ _ _)
  · subst hn
    refine (congrArg (BitVec.ofNat 32) (s.ctxStatus_remap g x addr.toNat)).trans ?_
    split_ifs <;> rfl

end Sys2Proof.Machine
end


section
/-! CONTEXT_OP_COMPLETE: what a context operation does, and its status (R351 to R355, R383). -/

namespace Sys2Proof.Machine

/-! ### The group goes on -/

theorem State.resume_eq {s : State} {gid : Nat} (h : (s.groupAt gid).isEnded = false) (f : Group → Group) :
    s.resume gid f = s.setGroupAt gid { f (s.groupAt gid) with busy := none } :=
  if_neg (by rw [h]; decide)

theorem State.resume_groupAt {s : State} {gid : Nat} (h : (s.groupAt gid).isEnded = false) (f : Group → Group) (k : Nat) :
    (s.resume gid f).groupAt k = if k = gid then { f (s.groupAt gid) with busy := none } else s.groupAt k := by
  rw [State.resume_eq h, State.setGroupAt_groupAt]

theorem State.resume_only (s : State) (gid : Nat) (f : Group → Group) : s.resume gid f = { s with groups := (s.resume gid f).groups } := by
  unfold State.resume
  split <;> rfl

/-- A group with the status of its operation. -/
def Group.status (g : Group) (d : Reg) (st : Word) : Group := (g.setG d st).setG (d + 1) 0#32

section
variable {s : State} {k n : Nat} {x : WaitOp} {d : Reg} {desc addr : Dword} {st : Word} {img : List Byte}
  (hx : mapFind s.waits k = some x) (hk : x.kind = .ctx n d desc addr st img)
include hx hk

theorem exec_contextOpComplete_fails (h : st ≠ 0#32) :
    exec (.contextOpComplete k) s = .next (State.resume { s with waits := mapErase s.waits k } x.gid (fun g => g.status d st)) := by
  refine congrArg Host.Outcome.next ?_
  rw [hx]
  dsimp only
  rw [hk]
  dsimp only
  rw [if_neg h]
  rfl

theorem exec_contextOpComplete_done (h : st = 0#32) :
    exec (.contextOpComplete k) s = .next (State.resume (State.ctxEffect { s with waits := mapErase s.waits k } (s.groupAt x.gid) n (ctxDesc desc) x.target addr.toNat img)
      x.gid (fun g => g.status d st)) := by
  refine congrArg Host.Outcome.next ?_
  rw [hx]
  dsimp only
  rw [hk]
  dsimp only
  rw [if_pos h]
  rfl

end

/-- A wait whose effect leaves groups and memory alone ends. -/
theorem State.resumes {s u : State} {k gid : Nat} (hw : u.waits = mapErase s.waits k) (hg : u.groups = s.groups) (hm : u.mem = s.mem ∧ u.scratch = s.scratch)
    (h : (s.groupAt gid).isEnded = false) (f : Group → Group) : Resumes s (u.resume gid f) k gid (f (s.groupAt gid)) := by
  have same (j : Nat) : u.groupAt j = s.groupAt j := congrArg (fun m => mapGet ({} : Group) m j) hg
  have lives : (u.groupAt gid).isEnded = false := by rw [same]; exact h
  refine ⟨?_, ?_, fun j hj => ?_, ?_⟩
  · rw [State.resume_only]
    show mapFind u.waits k = none
    rw [hw]
    exact mapFind_mapErase_same _ _
  · rw [State.resume_groupAt lives, if_pos rfl, same]
  · rw [State.resume_groupAt lives, if_neg hj, same]
  · rw [State.resume_only]
    exact hm

/-- An operation that is refused writes its status alone. -/
theorem contextRefused_effect {s : State} {k n : Nat} {x : WaitOp} {d : Reg} {desc addr : Dword} {st : Word} {img : List Byte}
    (hx : mapFind s.waits k = some x) (hk : x.kind = .ctx n d desc addr st img) (hst : st ≠ 0#32) (h : (s.groupAt x.gid).isEnded = false) :
    ∃ t, exec (.contextOpComplete k) s = .next t ∧ t = { s with waits := t.waits, groups := t.groups } ∧
      Resumes s t k x.gid ((s.groupAt x.gid).status d st) := by
  have ends := State.resumes (s := s) (k := k) (gid := x.gid) (u := { s with waits := mapErase s.waits k }) rfl rfl ⟨rfl, rfl⟩ h fun g => g.status d st
  refine ⟨_, exec_contextOpComplete_fails hx hk hst, ?_, ends⟩
  rw [State.resume_only]

/-! ### A remap, and a workgroup's image restored -/

theorem State.remapped_phys (s : State) (o c p : Nat) : (s.modOwner o (fun w => { w with remap := mapPut w.remap c p })).phys o c = p := by
  unfold State.phys State.modOwner
  rw [State.setOwner_ownerAt, if_pos rfl]
  exact mapGet_mapPut_same _ _ _ _

theorem State.putWgImage_keeps (s : State) (w c : Nat) (b : List Byte) :
    (s.putWgImage w c b).groups = s.groups ∧ (s.putWgImage w c b).mem = s.mem ∧ (s.putWgImage w c b).waits = s.waits := ⟨rfl, rfl, rfl⟩

theorem State.putWgImage_rsv (s : State) (w c : Nat) (b : List Byte) {i : Nat} (hi : i < 16) :
    mapGet {} (s.putWgImage w c b).rsv (16 * w + i) = rsvOf b (0x140 + 8 * i) := by
  have all : (s.putWgImage w c b).rsv = (List.range 16).foldl (fun m k => mapSet {} m (Sys2Proof.Machine.slotKey w k) (rsvOf b (0x140 + 8 * k))) s.rsv := rfl
  rw [all, Nat.mul_comm]
  have stays (m : FMap Rsv) (k : Nat) (hm : mapGet {} m (w * 16 + i) = rsvOf b (0x140 + 8 * i)) :
      mapGet {} (mapSet {} m (Sys2Proof.Machine.slotKey w k) (rsvOf b (0x140 + 8 * k))) (w * 16 + i) = rsvOf b (0x140 + 8 * i) := by
    rw [mapGet_mapSet]
    split
    · next e =>
      have : i = k := by unfold Sys2Proof.Machine.slotKey at e; omega
      rw [this]
    · exact hm
  exact foldl_reaches (I := fun _ => True) (P := fun m => mapGet {} m (w * 16 + i) = rsvOf b (0x140 + 8 * i)) (fun _ _ _ h => h) (fun m k _ _ hm => stays m k hm)
    (List.mem_range.2 hi) (fun m _ => mapGet_mapSet_same _ _ _ _) trivial

theorem contextRemap_effect {s : State} {k : Nat} {x : WaitOp} {d : Reg} {desc addr : Dword} {img : List Byte} (hx : mapFind s.waits k = some x)
    (hk : x.kind = .ctx 4 d desc addr 0#32 img) (h : (s.groupAt x.gid).isEnded = false) :
    ∃ t, exec (.contextOpComplete k) s = .next t ∧ t = { s with waits := t.waits, groups := t.groups, owners := t.owners } ∧
      Resumes s t k x.gid ((s.groupAt x.gid).status d 0#32) ∧ t.phys (ctxDesc desc).owner (ctxDesc desc).logical = (ctxDesc desc).core := by
  have ends := State.resumes (s := s) (k := k) (gid := x.gid) (u := State.modOwner { s with waits := mapErase s.waits k } (ctxDesc desc).owner fun w =>
      { w with remap := mapPut w.remap (ctxDesc desc).logical (ctxDesc desc).core }) rfl rfl ⟨rfl, rfl⟩ h fun g => g.status d 0#32
  refine ⟨_, exec_contextOpComplete_done hx hk rfl, ?_, ends, ?_⟩
  · rw [State.resume_only]
    rfl
  · rw [State.resume_only]
    exact State.remapped_phys _ _ _ _

theorem contextWrest_effect {s : State} {k : Nat} {x : WaitOp} {d : Reg} {desc addr : Dword} {img : List Byte} {j : Nat} (hx : mapFind s.waits k = some x)
    (hk : x.kind = .ctx 3 d desc addr 0#32 img) (h : (s.groupAt x.gid).isEnded = false) (hj : x.target = some j) :
    ∃ t, exec (.contextOpComplete k) s = .next t ∧ t.mem = s.mem ∧ t.groupAt x.gid = { (s.groupAt x.gid).status d 0#32 with busy := none } ∧
      (∀ i, i ≠ x.gid → t.groupAt i = s.groupAt i) ∧
      (State.wgImage { s with waits := mapErase s.waits k } j (ctxDesc desc).core ≠ img → ∀ i, i < 16 → mapGet {} t.rsv (16 * j + i) = rsvOf img (0x140 + 8 * i)) := by
  have e := exec_contextOpComplete_done hx hk rfl
  generalize hu : ({ s with waits := mapErase s.waits k } : State) = u at e ⊢
  have same : u.groups = s.groups ∧ u.mem = s.mem := by rw [← hu]; exact ⟨rfl, rfl⟩
  rw [hj] at e
  have effect : u.ctxEffect (s.groupAt x.gid) 3 (ctxDesc desc) (some j) addr.toNat img =
      if u.wgImage j (ctxDesc desc).core = img then u else u.putWgImage j (ctxDesc desc).core img := rfl
  rw [effect] at e
  have kept : (if u.wgImage j (ctxDesc desc).core = img then u else u.putWgImage j (ctxDesc desc).core img).groups = s.groups ∧
      (if u.wgImage j (ctxDesc desc).core = img then u else u.putWgImage j (ctxDesc desc).core img).mem = s.mem := by
    split
    · exact same
    · exact ⟨(u.putWgImage_keeps j (ctxDesc desc).core img).1.trans same.1, (u.putWgImage_keeps j (ctxDesc desc).core img).2.1.trans same.2⟩
  have slots (hi : u.wgImage j (ctxDesc desc).core ≠ img) :
      (if u.wgImage j (ctxDesc desc).core = img then u else u.putWgImage j (ctxDesc desc).core img) = u.putWgImage j (ctxDesc desc).core img := if_neg hi
  generalize (if u.wgImage j (ctxDesc desc).core = img then u else u.putWgImage j (ctxDesc desc).core img) = v at e kept slots
  have at_ (i : Nat) : v.groupAt i = s.groupAt i := congrArg (fun m => mapGet ({} : Group) m i) kept.1
  have lives : (v.groupAt x.gid).isEnded = false := by rw [at_]; exact h
  refine ⟨_, e, ?_, ?_, fun i hi => ?_, fun hi i h16 => ?_⟩
  · rw [State.resume_only]
    exact kept.2
  · rw [State.resume_groupAt lives, if_pos rfl, at_]
  · rw [State.resume_groupAt lives, if_neg hi, at_]
  · rw [State.resume_only, slots hi]
    exact u.putWgImage_rsv j (ctxDesc desc).core img h16

/-! ### A save into an image -/

theorem Fills.groups {s t : State} (h : Fills s t) : t.groups = s.groups := by
  obtain ⟨l1, l2, os, rfl⟩ := h
  rfl

theorem State.leafWrite_groups (s : State) (g : Group) (ls : List Leaf) (bs : List Byte) : (s.leafWrite g ls bs).groups = s.groups := by
  unfold State.leafWrite
  refine List.foldlRecOn (motive := fun u : State => u.groups = s.groups) _ _ rfl fun u hu x _ => ?_
  have walked : (u.setLeaf 63 x.1).groups = u.groups := by rw [(u.setLeaf_walks 63 x.1).rest]
  generalize u.setLeaf 63 x.1 = v at walked ⊢
  exact (State.fillPlace_fills _ _ _ _).groups.trans (walked.trans hu)

/-- A group of SYS that waits goes on when another group has been put away. -/
theorem contextGsave_effect {s : State} {k : Nat} {x : WaitOp} {d : Reg} {desc addr : Dword} {img : List Byte} {j : Nat} {ls : List Leaf}
    (hx : mapFind s.waits k = some x) (hk : x.kind = .ctx 0 d desc addr 0#32 img) (h : (s.groupAt x.gid).isEnded = false) (hj : x.target = some j)
    (hls : State.ctxLeaves { s with waits := mapErase s.waits k } (s.groupAt x.gid) addr.toNat 10240 wantStore = some ls) (hne : j ≠ x.gid) :
    ∃ (t : State) (y : Group), exec (.contextOpComplete k) s = .next t ∧
      let v := State.closeGroup { s with waits := mapErase s.waits k } j
      t.mem = (v.leafWrite (s.groupAt x.gid) ls (v.groupImage j)).mem ∧ (t.groupAt j).away = true ∧ (t.groupAt j).live = false ∧
        t.groupAt x.gid = { y.status d 0#32 with busy := none } := by
  have e := exec_contextOpComplete_done hx hk rfl
  have steady := State.closeGroup_steady j { s with waits := mapErase s.waits k }
  rw [hj] at e
  generalize hu : ({ s with waits := mapErase s.waits k } : State) = u at e hls steady ⊢
  have effect : u.ctxEffect (s.groupAt x.gid) 0 (ctxDesc desc) (some j) addr.toNat img =
      ((u.closeGroup j).leafWrite (s.groupAt x.gid) ls ((u.closeGroup j).groupImage j)).modGroup j Group.putAway := by
    show (match (some j : Option Nat), u.ctxLeaves (s.groupAt x.gid) addr.toNat 10240 wantStore with
      | some k, some ls => ((u.closeGroup k).leafWrite (s.groupAt x.gid) ls ((u.closeGroup k).groupImage k)).modGroup k Group.putAway
      | _, _ => u) = _
    rw [hls]
  rw [effect] at e
  have groups := (u.closeGroup j).leafWrite_groups (s.groupAt x.gid) ls ((u.closeGroup j).groupImage j)
  generalize hv : (u.closeGroup j).leafWrite (s.groupAt x.gid) ls ((u.closeGroup j).groupImage j) = v at e groups ⊢
  have same (i : Nat) : v.groupAt i = (u.closeGroup j).groupAt i := congrArg (fun m => mapGet ({} : Group) m i) groups
  have lives : ((v.modGroup j Group.putAway).groupAt x.gid).isEnded = false := by
    unfold State.modGroup
    rw [State.setGroupAt_groupAt, if_neg hne.symm, same, steady.isEnded hne.symm, ← hu]
    exact h
  have at_ := State.resume_groupAt lives (fun g => g.status d 0#32)
  refine ⟨_, _, e, ?_, ?_, ?_, (at_ x.gid).trans (if_pos rfl)⟩
  · rw [State.resume_only]
    show v.mem = _
    rw [hv]
  · rw [at_ j, if_neg hne]
    unfold State.modGroup
    rw [State.setGroupAt_groupAt, if_pos rfl]
    rfl
  · rw [at_ j, if_neg hne]
    unfold State.modGroup
    rw [State.setGroupAt_groupAt, if_pos rfl]
    rfl

/-- A save of a workgroup writes its image as its lanes' queues leave it. -/
theorem contextWsave_effect {s : State} {k : Nat} {x : WaitOp} {d : Reg} {desc addr : Dword} {img : List Byte} {j : Nat} {ls : List Leaf}
    (hx : mapFind s.waits k = some x) (hk : x.kind = .ctx 2 d desc addr 0#32 img) (hj : x.target = some j) :
    let v := (s.wgAt j).groups.foldl State.drainGroup { s with waits := mapErase s.waits k }
    v.ctxLeaves (s.groupAt x.gid) addr.toNat (v.wgImage j (ctxDesc desc).core).length wantStore = some ls → (v.groupAt x.gid).isEnded = false →
    ∃ t, exec (.contextOpComplete k) s = .next t ∧
      t.mem = (v.leafWrite (s.groupAt x.gid) ls (v.wgImage j (ctxDesc desc).core)).mem ∧
      t.groupAt x.gid = { (v.groupAt x.gid).status d 0#32 with busy := none } ∧ ∀ i, i ≠ x.gid → t.groupAt i = v.groupAt i := by
  intro v hls hv
  have e := exec_contextOpComplete_done hx hk rfl
  rw [hj] at e
  have effect : State.ctxEffect { s with waits := mapErase s.waits k } (s.groupAt x.gid) 2 (ctxDesc desc) (some j) addr.toNat img =
      v.leafWrite (s.groupAt x.gid) ls (v.wgImage j (ctxDesc desc).core) := by
    show (match v.ctxLeaves (s.groupAt x.gid) addr.toNat (v.wgImage j (ctxDesc desc).core).length wantStore with
      | none => ({ s with waits := mapErase s.waits k } : State)
      | some ls => v.leafWrite (s.groupAt x.gid) ls (v.wgImage j (ctxDesc desc).core)) = _
    rw [hls]
  rw [effect] at e
  have groups := v.leafWrite_groups (s.groupAt x.gid) ls (v.wgImage j (ctxDesc desc).core)
  generalize v.leafWrite (s.groupAt x.gid) ls (v.wgImage j (ctxDesc desc).core) = w at e groups ⊢
  clear_value v
  have same (i : Nat) : w.groupAt i = v.groupAt i := congrArg (fun m => mapGet ({} : Group) m i) groups
  have lives : (w.groupAt x.gid).isEnded = false := by rw [same]; exact hv
  refine ⟨_, e, ?_, ?_, fun i hi => ?_⟩
  · rw [State.resume_only]
  · rw [State.resume_groupAt lives, if_pos rfl, same]
  · rw [State.resume_groupAt lives, if_neg hi, same]

/-! ### A group restored -/

/-- A group holds a context of its lane again. -/
structure Stands (g : Group) (ctx : Nat) : Prop where
  live : g.live = true
  away : g.away = false
  lane : g.lane = ctx / 12
  ctx : g.ctx = ctx % 12

/-- A group as it is placed in a context. -/
def Group.placed (g : Group) (ctx now rank : Nat) : Group :=
  { g with live := true, away := false, lane := ctx / 12, ctx := ctx % 12, rank := some (now, rank) }

/-- A restored group before it is placed: what it had in flight is completed, its fields are those of its image, and a lease of its owner is its own. -/
def State.refilled (s : State) (d : CtxDesc) (k : Nat) (b : List Byte) : State :=
  let s := s.settleGroup k
  let s := if s.groupImage k = b then s else s.modGroup k (fun g => g.fromImage b)
  let leased := (s.ownerAt d.owner).sprints.any (fun p => p.2.live && decide (p.2.gid = k))
  if num b 2 1 / 2 % 2 = 1 ∧ !leased then s.leaseTo d.owner (islandOf d.core) k else s

/-- A group that is back in its context goes on, or ends with its launch. -/
def State.backIn (s : State) (k now : Nat) : State :=
  if (s.launchAt (s.groupAt k).launch).halted.isSome then s.endGroup k else (s.recheckWait k now).decideLate k

theorem State.restoreGroup_eq (s : State) (d : CtxDesc) (k : Nat) (b : List Byte) :
    s.restoreGroup d (some k) b =
      let u := s.refilled d k b
      let now := u.cycOf d.owner (islandOf d.core)
      let v := u.modGroup k (fun g => g.placed d.ctx now (num b 0x759 1))
      (v.orderRestored d.owner (v.groupAt k).core (d.ctx / 12) now).backIn k now := rfl

theorem State.leaseTo_steady (j : Nat) (s : State) (o i k : Nat) : Steady j s (s.leaseTo o i k) := .ite (.of_setOwner rfl) (.refl _ _)

theorem State.refilled_steady (s : State) (d : CtxDesc) (k : Nat) (b : List Byte) : Steady k s (s.refilled d k b) := by
  unfold State.refilled
  dsimp only
  refine (s.settleGroup_steady k k).trans ?_
  generalize s.settleGroup k = u
  have filled : Steady k u (if u.groupImage k = b then u else u.modGroup k (fun g => g.fromImage b)) :=
    .ite (.refl _ _) (.of_setGroupAt rfl fun h => absurd rfl h)
  refine filled.trans ?_
  generalize (if u.groupImage k = b then u else u.modGroup k (fun g => g.fromImage b)) = v
  exact .ite (v.leaseTo_steady _ _ _ _) (.refl _ _)

theorem State.placed_steady (s : State) (k ctx now rank : Nat) : Steady k s (s.modGroup k (fun g => g.placed ctx now rank)) := .of_setGroupAt rfl fun _ => rfl

/-- The order of issue is all that changes. -/
theorem State.orderRestored_steady (j : Nat) (s : State) (o core lane now : Nat) : Steady j s (s.orderRestored o core lane now) := by
  unfold State.orderRestored
  extract_lets here back saved sorted n u
  have order : Steady j s u := by
    refine .foldl _ _ (fun v x => ?_) s
    exact Steady.of_setGroupAt (by rfl) fun _ => by rfl
  exact order.trans (.of_same rfl rfl rfl rfl)

theorem State.orderRestored_stands {s : State} {k ctx : Nat} (h : Stands (s.groupAt k) ctx) (o core lane now : Nat) :
    Stands ((s.orderRestored o core lane now).groupAt k) ctx := by
  unfold State.orderRestored
  extract_lets here back saved sorted n u
  refine List.foldlRecOn (motive := fun v : State => Stands (v.groupAt k) ctx) _ _ h fun v hv x _ => ?_
  unfold State.modGroup
  rw [State.setGroupAt_groupAt]
  split
  · next e =>
    rw [e] at hv
    exact ⟨hv.live, hv.away, hv.lane, hv.ctx⟩
  · exact hv

theorem State.recheckWait_steady (j : Nat) (s : State) (k now : Nat) : Steady j s (s.recheckWait k now) := by
  unfold State.recheckWait
  dsimp only
  split
  · exact .refl _ _
  · exact .ite (.of_setGroupAt rfl fun _ => rfl) (.refl _ _)

theorem State.recheckWait_stands {s : State} {k ctx : Nat} (h : Stands (s.groupAt k) ctx) (now : Nat) : Stands ((s.recheckWait k now).groupAt k) ctx := by
  unfold State.recheckWait
  dsimp only
  split
  · exact h
  · split
    · rw [State.setGroupAt_groupAt, if_pos rfl]
      exact ⟨h.live, h.away, h.lane, h.ctx⟩
    · exact h

theorem State.backIn_run {s : State} {k ctx : Nat} (run : (s.launchAt (s.groupAt k).launch).halted = none) (h : Stands (s.groupAt k) ctx) (now : Nat) :
    Steady k s (s.backIn k now) ∧ Stands ((s.backIn k now).groupAt k) ctx := by
  have e : s.backIn k now = (s.recheckWait k now).decideLate k := if_neg (by rw [run]; decide)
  obtain ⟨xs, e'⟩ := (s.recheckWait k now).decideLate_schedules k
  rw [e, e']
  exact ⟨(s.recheckWait_steady k k now).trans (.of_same rfl rfl rfl rfl), State.recheckWait_stands h now⟩

/-- A group of a launch that runs is back in the context that the descriptor names. -/
theorem State.restoreGroup_stands {s : State} (d : CtxDesc) {k : Nat} (b : List Byte) (run : (s.launchAt (s.groupAt k).launch).halted = none) :
    Steady k s (s.restoreGroup d (some k) b) ∧ Stands ((s.restoreGroup d (some k) b).groupAt k) d.ctx := by
  rw [State.restoreGroup_eq]
  extract_lets u now v
  have placed : Stands (v.groupAt k) d.ctx := by
    have : v.groupAt k = (u.groupAt k).placed d.ctx now (num b 0x759 1) := by
      show (u.setGroupAt k _).groupAt k = _
      rw [State.setGroupAt_groupAt, if_pos rfl]
    rw [this]
    exact ⟨rfl, rfl, rfl, rfl⟩
  have before : Steady k s (v.orderRestored d.owner (v.groupAt k).core (d.ctx / 12) now) :=
    ((s.refilled_steady d k b).trans (u.placed_steady k _ _ _)).trans (v.orderRestored_steady _ _ _ _ _)
  have order := State.orderRestored_stands placed d.owner (v.groupAt k).core (d.ctx / 12) now
  obtain ⟨steady, stands⟩ := State.backIn_run (by rw [before.launch]; exact run) order now
  exact ⟨before.trans steady, stands⟩

theorem contextGrest_effect {s : State} {k : Nat} {x : WaitOp} {d : Reg} {desc addr : Dword} {img : List Byte} {j : Nat}
    (hx : mapFind s.waits k = some x) (hk : x.kind = .ctx 1 d desc addr 0#32 img) (h : (s.groupAt x.gid).isEnded = false) (hj : x.target = some j)
    (run : (s.launchAt (s.groupAt j).launch).halted = none) (hne : j ≠ x.gid) :
    ∃ (t : State) (y : Group), exec (.contextOpComplete k) s = .next t ∧ (t.groupAt j).live = true ∧ (t.groupAt j).away = false ∧
      (t.groupAt j).lane = (ctxDesc desc).ctx / 12 ∧ (t.groupAt j).ctx = (ctxDesc desc).ctx % 12 ∧ t.groupAt x.gid = { y.status d 0#32 with busy := none } := by
  have e := exec_contextOpComplete_done hx hk rfl
  rw [hj] at e
  obtain ⟨steady, stands⟩ := State.restoreGroup_stands (s := { s with waits := mapErase s.waits k }) (ctxDesc desc) img run
  have effect : State.ctxEffect { s with waits := mapErase s.waits k } (s.groupAt x.gid) 1 (ctxDesc desc) (some j) addr.toNat img =
      State.restoreGroup { s with waits := mapErase s.waits k } (ctxDesc desc) (some j) img := rfl
  rw [effect] at e
  have lives := (steady.isEnded hne.symm).trans h
  generalize State.restoreGroup { s with waits := mapErase s.waits k } (ctxDesc desc) (some j) img = v at e stands lives
  have at_ := State.resume_groupAt lives (fun g => g.status d 0#32)
  have mine : (v.resume x.gid fun g => g.status d 0#32).groupAt j = v.groupAt j := (at_ j).trans (if_neg hne)
  refine ⟨_, _, e, ?_, ?_, ?_, ?_, (at_ x.gid).trans (if_pos rfl)⟩ <;> rw [mine]
  exacts [stands.live, stands.away, stands.lane, stands.ctx]

end Sys2Proof.Machine
end


section
/-! The statement on partitions, switches, migration and context operations. -/

namespace Sys2Proof.Machine

/-! ### The ends of a switch against the state before it -/

theorem OnlyShares.of_endRota {s t : State} {w : SwitchSpec} {o : Nat} (h : OnlyShares (s.endRota w o) t) : t = { s with
    switches := t.switches, rota := t.rota, owners := t.owners, groups := t.groups, unsettled := t.unsettled, wgs := t.wgs, agenda := t.agenda, borders := t.borders
    toBegin := t.toBegin, bordering := t.bordering, engScr := t.engScr, engObuf := t.engObuf, readHold := t.readHold, acc := t.acc, l1 := t.l1, l2 := t.l2, tlb := t.tlb } := by
  unfold OnlyShares at h
  generalize t.owners = a1, t.groups = a2, t.unsettled = a3, t.wgs = a4, t.agenda = a5, t.borders = a6, t.toBegin = a7, t.bordering = a8, t.engScr = a9,
    t.engObuf = a10, t.readHold = a11, t.acc = a12, t.l1 = a13, t.l2 = a14, t.tlb = a15 at h
  subst h
  rfl

theorem OnlySwitch.of_endRota {s t : State} {w : SwitchSpec} {o : Nat} (h : OnlySwitch (s.endRota w o) t) : t = { s with
    switches := t.switches, rota := t.rota, owners := t.owners, groups := t.groups, unsettled := t.unsettled, wgs := t.wgs, agenda := t.agenda, borders := t.borders
    toBegin := t.toBegin, bordering := t.bordering } := by
  unfold OnlySwitch at h
  generalize t.owners = a1, t.groups = a2, t.unsettled = a3, t.wgs = a4, t.agenda = a5, t.borders = a6, t.toBegin = a7, t.bordering = a8 at h
  subst h
  rfl

theorem State.endRota_slotOwner (s : State) (w : SwitchSpec) (o : Nat) {i : Nat} (hi : i ∈ w.slots) : (s.endRota w o).slotOwner w.core w.lane i = o :=
  State.setSlots_slotOwner _ _ _ _ _ hi

theorem State.endRota_rota_ne (s : State) (w : SwitchSpec) (o : Nat) {k : Nat} (h : ∀ i ∈ w.slots, k ≠ rotaKey w.core w.lane i) :
    mapGet 62 (s.endRota w o).rota k = mapGet 62 s.rota k :=
  (State.setSlots_rota _ _ _ _ _ _).trans (if_neg fun ⟨i, hi, e⟩ => h i hi e)

/-- SWITCH_END of a switch whose incoming owner has gone: its slots are free. -/
theorem switchEnd_dead_effect {s : State} {w : SwitchSpec} {c : Nat} (h : (w, c) ∈ s.switches) (hl : (s.ownerAt w.incoming).live = false) :
    ∃ t, exec (.switchEnd w) s = .next t ∧
      t = { s with switches := t.switches, rota := t.rota, owners := t.owners, borders := t.borders, toBegin := t.toBegin, bordering := t.bordering } ∧
      ∀ i ∈ w.slots, t.slotOwner w.core w.lane i = 62 := by
  have free := (s.endRota w 62).unholdBoth_only w
  have borders := ((s.endRota w 62).unholdBoth w).idleBorders_only
  refine ⟨_, exec_switchEnd_dead h hl, ?_, fun i hi => ?_⟩
  · generalize ((s.endRota w 62).unholdBoth w).idleBorders = t at borders ⊢
    generalize (s.endRota w 62).unholdBoth w = u at free borders
    unfold OnlyOwners at free
    unfold OnlyBorders at borders
    generalize t.borders = a1, t.toBegin = a2, t.bordering = a3 at borders
    generalize u.owners = a4 at free
    subst free borders
    rfl
  · unfold State.slotOwner
    rw [borders, free]
    exact s.endRota_slotOwner w 62 hi

/-- SWITCH_END of a switch whose incoming owner lives, clause by clause. -/
theorem switchEnd_live_effect {s : State} {w : SwitchSpec} {c n : Nat} (h : (w, c) ∈ s.switches) (hl : (s.ownerAt w.incoming).live = true)
    (hn : s.slotHome w.incoming w.core w.lane w.slots = some n) :
    ∃ t, exec (.switchEnd w) s = .next t ∧
      t = { s with
        switches := t.switches, rota := t.rota, owners := t.owners, groups := t.groups, unsettled := t.unsettled, wgs := t.wgs, agenda := t.agenda, borders := t.borders
        toBegin := t.toBegin, bordering := t.bordering, engScr := t.engScr, engObuf := t.engObuf, readHold := t.readHold, acc := t.acc, l1 := t.l1, l2 := t.l2, tlb := t.tlb } ∧
      (s.borderOf w = none → t = { s with
        switches := t.switches, rota := t.rota, owners := t.owners, groups := t.groups, unsettled := t.unsettled, wgs := t.wgs, agenda := t.agenda, borders := t.borders
        toBegin := t.toBegin, bordering := t.bordering }) ∧
      (∀ b c r, s.borderOf w = some b → s.logicalOn b.owner b.core = some c → s.part b.owner = some r → t.part b.owner = some (borderRecord b c r)) ∧
      (∀ b ∈ t.borders, t.atWork b.owner = false → t.borderReady b = false) ∧
      (∀ c, (w, c) ∉ t.switches) ∧ (∀ i ∈ w.slots, t.slotOwner w.core w.lane i = w.incoming) ∧
      (∀ k, (∀ i ∈ w.slots, k ≠ rotaKey w.core w.lane i) → mapGet 62 t.rota k = mapGet 62 s.rota k) ∧
      (s.borderOf w = none → mapGet (0, 0) (t.ownerAt w.incoming).lanes (8 * n + w.lane) =
        ((mapGet (0, 0) (s.ownerAt w.incoming).lanes (8 * n + w.lane)).1 ||| slotMask w.slots, (mapGet (0, 0) (s.ownerAt w.incoming).lanes (8 * n + w.lane)).2)) ∧
      ((∀ l, (s.launchAt l).halted = none) → ∀ k, s.canReturn w.incoming n w.lane (s.groupAt k) = true →
        t.groupAt k = { s.groupAt k with live := true, away := false }) ∧
      (∀ o, o = w.outgoing ∨ o = w.incoming → (s.ownerAt o).live = true → .switch w.core w.lane (slotMask w.slots) ∉ (t.ownerAt o).held) := by
  obtain ⟨t, ex, ends, rota, switches⟩ := switchEnd_effect h hl hn
  refine ⟨t, ex, ends.shares.of_endRota, fun e => (ends.only e).of_endRota, ends.record, ends.left, fun c hc => ?_, fun i hi => ?_, fun k hk => ?_,
    fun e => ?_, fun run k can => ?_, ends.held⟩
  · rw [switches] at hc
    exact s.endRota_notMem w _ c hc
  · unfold State.slotOwner
    rw [rota]
    exact s.endRota_slotOwner w _ hi
  · rw [rota]
    exact s.endRota_rota_ne w _ hk
  · rw [Nat.mul_comm 8 n, ends.lanes e]
    rfl
  · exact ends.groups run k (((s.endRota_keepsPlaces w _).canReturn _ _ _ _).trans can)

/-- Settles O53, event by event and operation by operation. -/
theorem partitionAndContext : Obligations.PartitionAndContext := by
  unfold Obligations.PartitionAndContext
  refine ⟨fun s w b => ⟨rfl, exec_borderMove_off, exec_borderMove_waits, fun ok idle => ?_, State.borderOk_means, exec_switchEnd_off, fun c n h hl hn => ?_,
    fun c h hl => switchEnd_dead_effect h hl⟩, fun s o c d => ⟨exec_migrationMove_off, migrationMove_effect, exec_coreStateTransferEnd_off,
    fun x sh hx hs hcd hengs => transferEnd_effect hx hs hcd hengs, fun x hx hengs => transferEnd_stay_effect hx hengs⟩, fun s r => ⟨exec_partitionCreate_off, fun ok => ?_⟩,
    fun s o => ⟨exec_partitionDestroy_off, fun r ho hl hr => partitionDestroy_effect ho hl hr⟩, fun s h d a => ?_, fun s k n x d desc addr st img hx hk live => ?_⟩
  · obtain ⟨t, ex, only, left, goes⟩ := borderMove_goes_effect ok idle
    rw [State.borderAsSwitch_eq] at goes
    exact ⟨t, ex, only, left, goes⟩
  · obtain ⟨t, ex, shares, only, record, left, gone, mine, others, lanes, groups, held⟩ := switchEnd_live_effect h hl hn
    exact ⟨t, ex, shares, only, record, left, gone, mine, others, lanes, fun run k away swapped owner core lane free =>
      groups run k (State.canReturn_of away swapped owner core lane free), held⟩
  · obtain ⟨t, ex, only, begins, tables, tiles, root, others, ⟨hs, key, off, alone, new⟩, held⟩ := partitionCreate_effect ok
    refine ⟨t, ex, only, begins, tables, tiles, root, others, ?_⟩
    have on (i : Nat) (hi : i < 32) : mapGet false (t.ownerAt r.owner).heldOn i = true := by
      rw [new]
      exact ownerOf_heldOn r key off alone hi
    refine ⟨?_, ?_, ?_, ?_, ?_, ?_, ?_, ?_, held, on⟩ <;> rw [new] <;> rfl
  · have runs {i : Instr} {n : Nat} {addr : Dword} (hi : exec i s = .next (s.ctxOp h n d addr)) := And.intro (ctxOp_passes hi) (ctxOp_issues hi)
    exact ⟨runs rfl, runs rfl, runs rfl, runs rfl, runs rfl⟩
  · refine ⟨fun fails => ?_, fun st0 n4 => ?_, fun st0 n0 j ls hj hls hne => ?_, fun st0 n1 j hj run hne => ?_, fun st0 n2 j ls hj hls lives => ?_, fun st0 n3 j hj => ?_⟩
    · exact contextRefused_effect hx hk fails live
    all_goals subst st0
    · subst n4
      exact contextRemap_effect hx hk live
    · subst n0
      exact contextGsave_effect hx hk live hj hls hne
    · subst n1
      exact contextGrest_effect hx hk live hj run hne
    · subst n2
      exact contextWsave_effect hx hk hj hls lives
    · subst n3
      exact contextWrest_effect hx hk live hj

end Sys2Proof.Machine
end


section
/-! What a result gathered from the active threads changes, and the votes and the election (R159, R162, R163). -/

namespace Sys2Proof.Machine

/-! ### One result for the group (R159) -/

@[simp] theorem Group.complete_getV (g : Group) (r : Reg) (x : Nat) : g.complete.getV r x = g.getV r x := g.complete_rd (some x) r

@[simp] theorem Group.complete_getG (g : Group) (r : Reg) : g.complete.getG r = g.getG r := g.complete_rd none r

@[simp] theorem Group.complete_getP (g : Group) (i : BitVec 3) (x : Nat) : g.complete.getP i x = g.getP i x := g.complete_rp (some x) i

@[simp] theorem Group.complete_getQ (g : Group) (i : BitVec 3) : g.complete.getQ i = g.getQ i := g.complete_rp none i

theorem Group.complete_mark (g : Group) (now lat : Nat) (locs : List Nat) : (g.mark now lat locs).complete = g.complete.mark now lat locs := by
  rw [Group.complete_of_eq g (g.mark now lat locs) rfl rfl rfl, g.complete_eta]
  rfl

theorem State.gather_off {s : State} {h : Guard} (ha : s.grp.active h = 0#32) (lat : Nat) (locs : List Nat) (f : Group → BitVec 32 → Group) :
    s.gather h lat locs f = s.setGrp s.grp.complete := if_pos ha

theorem State.gather_on {s : State} {h : Guard} (ha : s.grp.active h ≠ 0#32) (lat : Nat) (locs : List Nat) (f : Group → BitVec 32 → Group) :
    s.gather h lat locs f = s.finish ((f s.grp (s.grp.active h)).mark s.win lat locs) := if_neg ha

/-- The group that completes with registers and predicates written and marked for the interlock makes the frame. -/
theorem wrote_of_finish {s : State} {g : Group} {vs : Reg → Nat → Prop} {gs : Reg → Prop} {ps : BitVec 3 → Nat → Prop} {qs : BitVec 3 → Prop} (n lat : Nat)
    (locs : List Nat) (hf : g = { s.grp with v := g.v, g := g.g, p := g.p, q := g.q })
    (hv : ∀ r x, ¬vs r x → x < 32 → g.getV r x = s.grp.getV r x) (hg : ∀ r, ¬gs r → g.getG r = s.grp.getG r)
    (hp : ∀ i x, ¬ps i x → x < 32 → g.getP i x = s.grp.getP i x) (hq : ∀ i, ¬qs i → g.getQ i = s.grp.getQ i) :
    Wrote s (s.finish (g.mark n lat locs)) vs gs ps qs where
  toOnlyGroup := s.finish_onlyGroup _
  vKept r x hr hx := by rw [State.finish_grp, Group.complete_getV]; exact hv r x hr hx
  gKept r hr := by rw [State.finish_grp, Group.complete_getG]; exact hg r hr
  pKept i x hi hx := by rw [State.finish_grp, Group.complete_getP]; exact hp i x hi hx
  qKept i hi := by rw [State.finish_grp, Group.complete_getQ]; exact hq i hi
  fields := by
    rw [State.finish_grp, Group.complete_mark, Group.complete_of_eq s.grp g (by rw [hf]) (by rw [hf]) (by rw [hf]), s.grp.complete_eta, hf]
    rfl

section
variable {i : Instr} {s : State} {h : Guard} {lat : Nat} {locs : List Nat}

/-- An instruction that gathers: with no active thread it passes, and else what it makes of the group is written. -/
theorem gathers {f : Group → BitVec 32 → Group} {vs : Reg → Nat → Prop} {gs : Reg → Prop} {ps : BitVec 3 → Nat → Prop} {qs : BitVec 3 → Prop}
    {post : State → Prop} (he : exec i s = .next (s.gather h lat locs f))
    (on : s.grp.active h ≠ 0#32 → let t := s.finish ((f s.grp (s.grp.active h)).mark s.win lat locs)
      Wrote s t vs gs ps qs ∧ post t) :
    (s.grp.active h = 0#32 → Passes i s) ∧ (s.grp.active h ≠ 0#32 → ∃ t, exec i s = .next t ∧ Wrote s t vs gs ps qs ∧ post t) :=
  ⟨fun ha => he.trans (congrArg Host.Outcome.next (State.gather_off ha lat locs f)),
    fun ha => ⟨_, he.trans (congrArg Host.Outcome.next (State.gather_on ha lat locs f)), on ha⟩⟩

/-- One that gathers a word into a register of the group. -/
theorem gathers_reg {d : Reg} {w : Group → BitVec 32 → Word} {post : State → Prop}
    (he : exec i s = .next (s.gather h lat locs fun g a => g.setG d (w g a)))
    (hw : s.grp.active h ≠ 0#32 → ∀ t : State, t.grp.getG d = w s.grp (s.grp.active h) → post t) :
    (s.grp.active h = 0#32 → Passes i s) ∧
    (s.grp.active h ≠ 0#32 → ∃ t, exec i s = .next t ∧ Wrote s t (fun _ _ => False) (· = d) (fun _ _ => False) (fun _ => False) ∧ post t) := by
  refine gathers he fun ha => ⟨wrote_of_finish _ _ _ rfl (fun _ _ _ _ => rfl) (fun r hr => ?_) (fun _ _ _ _ => rfl) (fun _ _ => rfl), hw ha _ ?_⟩
  · rw [Group.setG_getG, if_neg hr]
  · rw [State.finish_grp, Group.complete_getG, Group.mark_getG, Group.setG_getG, if_pos rfl]

/-- One that gathers a truth into a predicate of the group. -/
theorem gathers_pred {q : BitVec 3} {w : Group → BitVec 32 → Bool} {post : State → Prop} (hq : q ≠ 7#3)
    (he : exec i s = .next (s.gather h lat locs fun g a => g.setQ q (w g a)))
    (hw : ∀ t : State, t.grp.getQ q = w s.grp (s.grp.active h) → post t) :
    (s.grp.active h = 0#32 → Passes i s) ∧
    (s.grp.active h ≠ 0#32 → ∃ t, exec i s = .next t ∧ Wrote s t (fun _ _ => False) (fun _ => False) (fun _ _ => False) (· = q) ∧ post t) := by
  refine gathers he fun _ => ⟨wrote_of_finish _ _ _ rfl (fun _ _ _ _ => rfl) (fun _ _ => rfl) (fun _ _ _ _ => rfl) (fun r hr => ?_), hw _ ?_⟩
  · rw [Group.setQ_getQ _ _ _ _ hq, if_neg hr]
  · rw [State.finish_grp, Group.complete_getQ]
    exact (Group.setQ_getQ _ _ _ _ hq).trans (if_pos rfl)

end

/-! ### Thread sets -/

theorem mask_eq_iff {m n : BitVec 32} : m = n ↔ ∀ x, x < 32 → (m.getLsbD x = true ↔ n.getLsbD x = true) :=
  ⟨fun e x _ => by rw [e], fun h => BitVec.eq_of_getLsbD_eq fun x hx => Bool.eq_iff_iff.2 (h x hx)⟩

theorem mask_ne_zero_iff {m : BitVec 32} : m ≠ 0#32 ↔ ∃ x, x < 32 ∧ m.getLsbD x = true := by
  rw [Ne, mask_eq_iff]
  simp

/-- A set of threads that is not empty has a lowest member. -/
theorem lowestBit_spec {m : BitVec 32} (hm : m ≠ 0#32) : ∃ e, lowestBit m = some e ∧ e < 32 ∧ m.getLsbD e = true ∧ ∀ x, x < e → ¬m.getLsbD x = true := by
  obtain ⟨y, hy, hm⟩ := mask_ne_zero_iff.1 hm
  obtain ⟨e, he⟩ := Option.isSome_iff_exists.1 (List.find?_isSome.2 ⟨y, List.mem_range.2 hy, hm⟩)
  obtain ⟨hset, hlt, hlow⟩ := List.find?_range_eq_some.1 he
  exact ⟨e, by rw [lowestBit, bitsOf, List.head?_filter, he], List.mem_range.1 hlt, hset, fun x hx => by simpa using hlow x hx⟩

/-! ### Votes and election (R162, R163) -/

theorem Group.voters_getLsbD (g : Group) (a : BitVec 32) (p : BitVec 3) {x : Nat} (hx : x < 32) :
    (g.voters a p).getLsbD x = true ↔ a.getLsbD x = true ∧ g.getP p x = true := by
  rw [Group.voters, maskOf_getLsbD, decide_eq_true hx, Bool.true_and, Bool.and_eq_true]

theorem Group.voters_every (g : Group) (a : BitVec 32) (p : BitVec 3) : g.voters a p = a ↔ ∀ x, x < 32 → a.getLsbD x = true → g.getP p x = true := by
  rw [mask_eq_iff]
  exact forall₂_congr fun x hx => by rw [g.voters_getLsbD a p hx, and_iff_left_iff_imp]

theorem Group.voters_some (g : Group) (a : BitVec 32) (p : BitVec 3) :
    g.voters a p ≠ 0#32 ↔ ∃ x, x < 32 ∧ a.getLsbD x = true ∧ g.getP p x = true := by
  rw [mask_ne_zero_iff]
  exact exists_congr fun x => and_congr_right fun hx => g.voters_getLsbD a p hx

theorem Group.voters_count (g : Group) (a : BitVec 32) (p : BitVec 3) :
    (BitVec.ofNat 32 (bitsOf (g.voters a p)).length).toNat = (List.range 32).countP (fun x => a.getLsbD x && g.getP p x) := by
  have counted : (bitsOf (g.voters a p)).length = (List.range 32).countP (fun x => a.getLsbD x && g.getP p x) := by
    rw [bitsOf, ← List.countP_eq_length_filter]
    exact List.countP_congr fun x hx => by rw [g.voters_getLsbD a p (List.mem_range.1 hx), Bool.and_eq_true]
  have few := List.countP_le_length (p := fun x => a.getLsbD x && g.getP p x) (l := List.range 32)
  rw [List.length_range] at few
  rw [counted, BitVec.toNat_ofNat, Nat.mod_eq_of_lt (by omega)]

/-- All values of a list are its first one where all are one value. -/
theorem all_eq_head_iff (xs : List Word) : xs.all (fun x => decide (some x = xs.head?)) = true ↔ ∃ w, ∀ x ∈ xs, x = w := by
  cases xs with
  | nil => simp
  | cons y ys =>
    simp only [List.all_eq_true, decide_eq_true_eq, List.head?_cons, Option.some.injEq]
    exact ⟨fun h => ⟨y, h⟩, fun ⟨w, h⟩ x hx => (h x hx).trans (h y List.mem_cons_self).symm⟩

/-- The group after `elect` of thread e with a predicate. -/
def Group.elected (g : Group) (h : Guard) (d : Reg) (p : BitVec 3) (e : Nat) : Group :=
  (g.setG d (BitVec.ofNat 32 e)).writePred (g.lanes false h) p fun l => decide (l = some e)

section
variable (g : Group) (h : Guard) (d : Reg) (p : BitVec 3) (e : Nat)

theorem Group.elected_eta : g.elected h d p e = { g with g := (g.setG d (BitVec.ofNat 32 e)).g, p := (g.elected h d p e).p } := by
  have q : (g.elected h d p e).q = g.q := Group.writePred_other_q _ fun l hl hn => g.none_not_mem_lanes h (hn ▸ hl)
  have eta : g.elected h d p e = { g.setG d (BitVec.ofNat 32 e) with p := (g.elected h d p e).p, q := (g.elected h d p e).q } := Group.writePred_eta _ _ _ _
  rw [q] at eta
  exact eta

theorem Group.elected_getG (r : Reg) : (g.elected h d p e).getG r = if r = d then BitVec.ofNat 32 e else g.getG r := by
  rw [← Group.setG_getG, Group.elected_eta]
  rfl

theorem Group.elected_getP (hp : p ≠ 7#3) (i : BitVec 3) {x : Nat} (hx : x < 32) :
    (g.elected h d p e).getP i x = if i = p ∧ (g.active h).getLsbD x = true then decide (x = e) else g.getP i x := by
  have written : (g.elected h d p e).rp (some x) i = _ := Group.writePred_rp _ hp (fun _ hl => Group.lanes_fit hl) ⟨rfl, hx⟩
  simp only [Group.mem_lanes_thread, hx, true_and, Option.some.injEq] at written
  exact written

end

/-- `elect` names the lowest active thread in a register, and where it has a predicate, sets it in that thread and clears it in the other active ones. -/
theorem exec_elect (s : State) (h : Guard) (d : Reg) (p : BitVec 3) :
    (s.grp.active h = 0#32 → Passes (.elect h d p) s) ∧
    (s.grp.active h ≠ 0#32 → ∃ t, exec (.elect h d p) s = .next t ∧
      Wrote s t (fun _ _ => False) (· = d) (fun i x => i = p ∧ p ≠ 7#3 ∧ (s.grp.active h).getLsbD x = true) (fun _ => False) ∧
      ∃ e, e < 32 ∧ (s.grp.active h).getLsbD e = true ∧ (∀ x, x < e → ¬(s.grp.active h).getLsbD x = true) ∧ t.grp.getG d = BitVec.ofNat 32 e ∧
        (p ≠ 7#3 → ∀ x, x < 32 → (s.grp.active h).getLsbD x = true → (t.grp.getP p x = true ↔ x = e))) := by
  refine gathers rfl fun ha => ?_
  obtain ⟨e, he, hlt, hset, hlow⟩ := lowestBit_spec ha
  rw [he, Option.getD_some]
  by_cases hp : p = 7#3
  · rw [if_pos hp]
    refine ⟨wrote_of_finish _ _ _ rfl (fun _ _ _ _ => rfl) (fun r hr => ?_) (fun _ _ _ _ => rfl) (fun _ _ => rfl), e, hlt, hset, hlow, ?_, fun h => absurd hp h⟩
    · rw [Group.setG_getG, if_neg hr]
    · rw [State.finish_grp, Group.complete_getG, Group.mark_getG, Group.setG_getG, if_pos rfl]
  · rw [if_neg hp]
    have eta := s.grp.elected_eta h d p e
    have regs := s.grp.elected_getG h d p e
    have preds := s.grp.elected_getP h d p e hp
    refine ⟨wrote_of_finish (g := s.grp.elected h d p e) _ _ _ (by rw [eta]) (fun r x _ _ => by rw [eta]; rfl) (fun r hr => (regs r).trans (if_neg hr))
      (fun i x hi hx => (preds i hx).trans (if_neg fun k => hi ⟨k.1, hp, k.2⟩)) (fun i _ => by rw [eta]; rfl), e, hlt, hset, hlow, ?_, fun _ x hx hax => ?_⟩
    · rw [State.finish_grp, Group.complete_getG, Group.mark_getG]
      exact (regs d).trans (if_pos rfl)
    · rw [State.finish_grp, Group.complete_getP]
      rw [← decide_eq_true_eq (p := x = e)]
      exact Bool.eq_iff_iff.1 ((preds p hx).trans (if_pos ⟨rfl, hax⟩))

/-- Settles O24: each vote gathers what its thread set says, and `elect` writes the lowest active thread. -/
theorem groupVotes : Obligations.GroupVotes := by
  unfold Obligations.GroupVotes
  intro s h d q p b hq act none1 makes noP
  refine ⟨gathers_reg rfl fun _ t e x hx => ?_, gathers_pred hq rfl fun t e => ?_, gathers_pred hq rfl fun t e => ?_, gathers_pred hq rfl fun t e => ?_,
    gathers_reg rfl fun _ t e => ?_, exec_elect s h d p⟩
  · rw [e, s.grp.voters_getLsbD _ p hx]
  · rw [e, decide_eq_true_eq, Group.voters_every]
  · rw [e, decide_eq_true_eq, Group.voters_some]
  · rw [e, all_eq_head_iff]
    simp only [List.forall_mem_map, mem_bitsOf, and_imp]
    rfl
  · rw [e, Group.voters_count]

end Sys2Proof.Machine
end


section
/-! Values moved between the active threads (R164, R165). -/

namespace Sys2Proof.Machine

/-! ### Shuffles (R164) -/

/-- The number that R164 computes of a reader and its distance; it may lie outside the group. -/
def ShflMode.place (m : ShflMode) (t n : Nat) : Int :=
  match m with
  | .at_ => n
  | .back => t - n
  | .fwd => t + n
  | .mix => (t ^^^ n : Nat)

theorem xor_lt_32_iff {t n : Nat} (ht : t < 32) : t ^^^ n < 32 ↔ n < 32 := by
  refine ⟨fun h => ?_, fun h => Nat.xor_lt_two_pow (n := 5) ht h⟩
  have := Nat.xor_lt_two_pow (n := 5) ht h
  rwa [← Nat.xor_assoc, Nat.xor_self, Nat.zero_xor] at this

/-- A source is the number that its mode computes, within the group. -/
theorem ShflMode.source_eq_some {m : ShflMode} {t n y : Nat} (ht : t < 32) : m.source t n = some y ↔ m.place t n = y ∧ y < 32 := by
  unfold ShflMode.source
  rw [Option.filter_eq_some_iff, decide_eq_true_eq]
  refine and_congr_left fun hy => ?_
  cases m with
  | at_ => simp [ShflMode.place]
  | back =>
    simp only [ShflMode.place, Option.ite_none_right_eq_some, Option.some.injEq]
    omega
  | fwd =>
    simp only [ShflMode.place, Option.some.injEq]
    omega
  | mix =>
    simp only [ShflMode.place, Option.ite_none_right_eq_some, Option.some.injEq, Int.natCast_inj, and_iff_right_iff_imp]
    rintro rfl
    exact (xor_lt_32_iff ht).1 hy

/-- The distance of a reader: its own register, or an immediate. -/
def Group.shflN (g : Group) (r : Bool) (k : BitVec 5) (x : Nat) : Nat := if r then (g.getV (0#1 ++ k) x).toNat else k.toNat

theorem shuffle_writes {i : Instr} {s : State} {h : Guard} {d a : Reg} {m : ShflMode} {r : Bool} {k : BitVec 5} (he : exec i s = .next (s.shuffle h d a m r k)) :
    ∃ f, Writes i s false h d f ∧ ∀ x, x < 32 →
      (∀ y : Nat, m.place x (s.grp.shflN r k x) = y → y < 32 → (s.grp.active h).getLsbD y = true → f (some x) = s.grp.getV a y) ∧
      ((∀ y : Nat, m.place x (s.grp.shflN r k x) = y → y < 32 → ¬(s.grp.active h).getLsbD y = true) → f (some x) = s.grp.getV a x) := by
  refine ⟨_, writes_of_alu 8 he fun _ => rfl, fun x hx => ⟨fun y e hy ha => ?_, fun off => ?_⟩⟩
  all_goals
    show (match m.source x (s.grp.shflN r k x) with
      | some y => if (s.grp.active h).getLsbD y then s.grp.getV a y else s.grp.getV a x
      | none => s.grp.getV a x) = _
  · rw [(ShflMode.source_eq_some hx).2 ⟨e, hy⟩]
    exact if_pos ha
  · cases hs : m.source x (s.grp.shflN r k x) with
    | none => rfl
    | some y =>
      obtain ⟨e, hy⟩ := (ShflMode.source_eq_some hx).1 hs
      exact if_neg (off y e hy)

/-! ### The broadcast (R165) -/

theorem Group.lanes_eq_nil {g : Group} {h : Guard} (ha : g.active h = 0#32) : g.lanes false h = [] := by
  rw [Group.lanes, ha]
  rfl

/-- A per-thread instruction with no active thread only completes. -/
theorem passes_of_alu {i : Instr} {s : State} {h : Guard} {d : Reg} {lat : Nat} {f : Lane → Word} (he : exec i s = .next (s.alu false h d lat f))
    (ha : s.grp.active h = 0#32) : Passes i s := by
  rw [Passes, he, State.alu, Group.lanes_eq_nil ha]
  rfl

/-- The thread whose value `bcast` takes: the one named, where it is active, and else the lowest active one. -/
def bcastSource (act : BitVec 32) (n : Nat) : Nat := if n < 32 ∧ act.getLsbD n then n else (lowestBit act).getD 0

theorem bcastSource_spec {act : BitVec 32} (ha : act ≠ 0#32) (n : Nat) : act.getLsbD (bcastSource act n) = true ∧
    (act.getLsbD n = true → bcastSource act n = n) ∧ (¬act.getLsbD n = true → ∀ x, x < bcastSource act n → ¬act.getLsbD x = true) := by
  obtain ⟨e, he, -, hset, hlow⟩ := lowestBit_spec ha
  unfold bcastSource
  by_cases hn : act.getLsbD n = true
  · have small : n < 32 := BitVec.lt_of_getLsbD hn
    rw [if_pos ⟨small, hn⟩]
    exact ⟨hn, fun _ => rfl, fun off => absurd hn off⟩
  · rw [if_neg fun k => hn k.2, he]
    exact ⟨hset, fun on => absurd on hn, fun _ => hlow⟩

theorem exec_bcast (s : State) (h : Guard) (d a : Reg) (b : BSel) : exec (.bcast h d a b) s =
    .next (s.alu false h d 8 fun _ => s.grp.getV a (bcastSource (s.grp.active h) (s.grp.opB none b).toNat)) := rfl

/-- Settles O25: each shuffle reads the place of its mode, `bcast` the value of `bcastSource`. -/
theorem movesBetweenThreads : Obligations.MovesBetweenThreads := by
  unfold Obligations.MovesBetweenThreads
  intro s h d a r k b act n moves
  refine ⟨shuffle_writes (m := .at_) rfl, shuffle_writes (m := .back) rfl, shuffle_writes (m := .fwd) rfl, shuffle_writes (m := .mix) rfl, fun ha => ?_, fun ha => ?_⟩
  · obtain ⟨on, named, lowest⟩ := bcastSource_spec ha (s.grp.opB none b).toNat
    exact ⟨_, on, named, lowest, writes_of_alu 8 (exec_bcast s h d a b) fun _ => rfl⟩
  · exact passes_of_alu (exec_bcast s h d a b) ha

end Sys2Proof.Machine
end


section
/-! Combining the values of a group: minima and maxima as choices, sums and logic (R166), then `gred` and the scans (R167, R168). -/

namespace Sys2Proof.Machine

/-! ### Folds that choose an operand -/

/-- `pick` gives, of two words that fit, one that is below both in a transitive order whose last word is `unit`. -/
structure Picks (fits : Word → Prop) (le : Word → Word → Prop) (pick : Word → Word → Word) (unit : Word) : Prop where
  choice : ∀ {x y}, fits x → fits y → (pick x y = x ∨ pick x y = y) ∧ le (pick x y) x ∧ le (pick x y) y
  trans : ∀ {x y z}, fits x → fits y → fits z → le x y → le y z → le x z
  last : ∀ {x}, fits x → le unit x → x = unit
  unit : fits unit

section
variable {fits : Word → Prop} {le : Word → Word → Prop} {pick : Word → Word → Word} {unit : Word}

theorem Picks.foldl_from (h : Picks fits le pick unit) {u : Word} {xs : List Word} (hxs : ∀ x ∈ u :: xs, fits x) :
    xs.foldl pick u ∈ u :: xs ∧ ∀ x ∈ u :: xs, le (xs.foldl pick u) x := by
  induction xs generalizing u with
  | nil =>
    have hu := hxs u (by simp)
    obtain ⟨same, below, -⟩ := h.choice hu hu
    rw [or_self] at same
    simpa [same] using below
  | cons y ys ih =>
    have hu := hxs u (by simp)
    have hy := hxs y (by simp)
    obtain ⟨one, leu, ley⟩ := h.choice hu hy
    have hp : fits (pick u y) := by rcases one with e | e <;> rwa [e]
    have hps : ∀ x ∈ pick u y :: ys, fits x := List.forall_mem_cons.2 ⟨hp, fun x hx => hxs x (by simp [hx])⟩
    obtain ⟨mem, below⟩ := ih hps
    obtain ⟨belowp, belowys⟩ := List.forall_mem_cons.1 below
    have hr := hps _ mem
    rw [List.foldl_cons]
    refine ⟨?_, List.forall_mem_cons.2 ⟨h.trans hr hp hu belowp leu, List.forall_mem_cons.2 ⟨h.trans hr hp hy belowp ley, belowys⟩⟩⟩
    rcases List.mem_cons.1 mem with e | mem
    · rw [e]
      rcases one with e | e <;> simp [e]
    · simp [mem]

/-- From its unit on, the fold over words is one of them, below all of them. -/
theorem Picks.foldl (h : Picks fits le pick unit) {xs : List Word} (hxs : ∀ x ∈ xs, fits x) :
    (xs = [] → xs.foldl pick unit = unit) ∧ (xs ≠ [] → xs.foldl pick unit ∈ xs ∧ ∀ x ∈ xs, le (xs.foldl pick unit) x) := by
  obtain ⟨mem, below⟩ := h.foldl_from (List.forall_mem_cons.2 ⟨h.unit, hxs⟩)
  have below := (List.forall_mem_cons.1 below).2
  refine ⟨fun e => by rw [e]; rfl, fun hne => ⟨(List.mem_cons.1 mem).elim (fun e => ?_) id, below⟩⟩
  obtain ⟨x, hx⟩ := List.exists_mem_of_ne_nil xs hne
  have := h.last (hxs x hx) (e ▸ below x hx)
  rwa [e, ← this]

end

/-- A choice by a number that tells words apart. -/
theorem picks_of_num {num : Word → Int} {le : Word → Word → Prop} {pick : Word → Word → Word} {unit : Word} (inj : ∀ {x y}, num x = num y → x = y)
    (hle : ∀ x y, le x y ↔ num x ≤ num y) (choice : ∀ x y, pick x y = x ∧ num x ≤ num y ∨ pick x y = y ∧ num y ≤ num x) (last : ∀ x, num x ≤ num unit) :
    Picks (fun _ => True) le pick unit where
  choice {x y} _ _ := by
    rw [hle, hle]
    rcases choice x y with ⟨e, h⟩ | ⟨e, h⟩
    · rw [e]
      exact ⟨.inl rfl, le_rfl, h⟩
    · rw [e]
      exact ⟨.inr rfl, h, le_rfl⟩
  trans {x y z} _ _ _ h1 h2 := (hle x z).2 (((hle x y).1 h1).trans ((hle y z).1 h2))
  last {x} _ h := inj (le_antisymm (last x) ((hle _ _).1 h))
  unit := trivial

theorem minS_picks : Picks (fun _ => True) (fun x y => x.toInt ≤ y.toInt) minS 0x7FFFFFFF#32 := by
  refine picks_of_num (num := fun x => x.toInt) BitVec.eq_of_toInt_eq (fun _ _ => Iff.rfl) (fun x y => ?_) fun x => ?_
  · unfold minS
    rw [BitVec.slt_eq_decide]
    by_cases h : x.toInt < y.toInt
    · simp [h, h.le]
    · simp [h, not_lt.1 h]
  · have := BitVec.toInt_le (x := x)
    simpa using this

theorem maxS_picks : Picks (fun _ => True) (fun x y => y.toInt ≤ x.toInt) maxS 0x80000000#32 := by
  refine picks_of_num (num := fun x => -x.toInt) (fun h => BitVec.eq_of_toInt_eq (neg_inj.1 h)) (fun _ _ => neg_le_neg_iff.symm) (fun x y => ?_) fun x => ?_
  · unfold maxS
    rw [BitVec.slt_eq_decide, neg_le_neg_iff, neg_le_neg_iff]
    by_cases h : x.toInt < y.toInt
    · simp [h, h.le]
    · simp [h, not_lt.1 h]
  · have := BitVec.le_toInt (x := x)
    exact neg_le_neg this

theorem minU_picks : Picks (fun _ => True) (fun x y => x.toNat ≤ y.toNat) minU 0xFFFFFFFF#32 := by
  refine picks_of_num (num := fun x => x.toNat) (fun h => BitVec.eq_of_toNat_eq (Int.natCast_inj.1 h)) (fun _ _ => Int.ofNat_le.symm) (fun x y => ?_) fun x => ?_
  · unfold minU
    rw [BitVec.ult_eq_decide, Int.ofNat_le, Int.ofNat_le]
    by_cases h : x.toNat < y.toNat
    · simp [h, h.le]
    · simp [h, not_lt.1 h]
  · exact Int.ofNat_le.2 (Nat.le_of_lt_succ x.isLt)

theorem maxU_picks : Picks (fun _ => True) (fun x y => y.toNat ≤ x.toNat) maxU 0#32 := by
  refine picks_of_num (num := fun x => -(x.toNat : Int)) (fun h => BitVec.eq_of_toNat_eq (Int.natCast_inj.1 (neg_inj.1 h)))
    (fun _ _ => Int.ofNat_le.symm.trans neg_le_neg_iff.symm) (fun x y => ?_) fun x => ?_
  · unfold maxU
    rw [BitVec.ult_eq_decide, neg_le_neg_iff, neg_le_neg_iff, Int.ofNat_le, Int.ofNat_le]
    by_cases h : x.toNat < y.toNat
    · simp [h, h.le]
    · simp [h, not_lt.1 h]
  · simp

/-! ### Floating minima and maxima (R122) -/

/-- The order of R122 on the values that are no NaN: what is not less than y, which is not less than x, is not less than x. -/
theorem ltVal_trans {x y z : FVal} (hx : x.Proper) (hy : y.Proper) (hz : z.Proper) (hn : y ≠ .nan) (hxy : ltVal y x = false) (hyz : ltVal z y = false) :
    ltVal z x = false := by
  cases y with
  | nan => exact absurd rfl hn
  | inf b => cases x <;> cases z <;> simp_all [ltVal]
  | fin y =>
    cases x with
    | nan => cases z <;> rfl
    | inf a => cases z <;> simp_all [ltVal]
    | fin x =>
      cases z with
      | nan => rfl
      | inf c => simpa [ltVal] using hyz
      | fin z =>
        have dx := hx x rfl
        have dy := hy y rfl
        have dz := hz z rfl
        rw [Bool.eq_false_iff] at hxy hyz ⊢
        simp only [ltVal, ne_eq, Bool.or_eq_true, Bool.and_eq_true, Bool.not_eq_true', decide_eq_true_eq, Exact.lt_iff dz dx, Exact.lt_iff dz dy,
          Exact.lt_iff dy dx, ← Exact.val_eq_zero_iff dx, ← Exact.val_eq_zero_iff dy, ← Exact.val_eq_zero_iff dz, not_or, not_lt] at hxy hyz ⊢
        obtain ⟨le_xy, zeros_xy⟩ := hxy
        obtain ⟨le_yz, zeros_yz⟩ := hyz
        refine ⟨le_xy.trans le_yz, fun ⟨⟨⟨z0, x0⟩, zs⟩, xs⟩ => ?_⟩
        have y0 : y.val = 0 := le_antisymm (z0 ▸ le_yz) (x0 ▸ le_xy)
        cases ys : y.s with
        | true => exact zeros_xy ⟨⟨⟨y0, x0⟩, ys⟩, xs⟩
        | false => exact zeros_yz ⟨⟨⟨z0, y0⟩, zs⟩, ys⟩

/-- An infinity has one code. -/
theorem eq_of_f32Val_inf {c : Word} {g : Bool} (h : f32Val c = .inf g) : c = if g then 0xFF800000#32 else 0x7F800000#32 := by
  have hc := c.isLt
  unfold f32Val Layout.value layoutOf at h
  dsimp only at h
  split_ifs at h with he hm
  rw [FVal.inf.injEq] at h
  apply BitVec.eq_of_toNat_eq
  cases g <;> simp at h he ⊢ <;> omega

theorem fminBits_picks : Picks (fun x => f32Val x ≠ .nan) (fun x y => ltVal (f32Val y) (f32Val x) = false) fminBits 0x7F800000#32 where
  choice {x y} hx hy := by
    have := fminBits_spec x y
    rwa [if_neg (by simp [FVal.isNan_iff, hx, hy])] at this
  trans {x y z} _ hy _ := ltVal_trans (f32Val_proper x) (f32Val_proper y) (f32Val_proper z) hy
  last {x} hx h := by
    have unit : f32Val 0x7F800000#32 = .inf false := by decide
    rw [unit] at h
    cases e : f32Val x with
    | nan => exact absurd e hx
    | inf g =>
      cases g with
      | true => rw [e] at h; cases h
      | false => exact eq_of_f32Val_inf e
    | fin v => rw [e] at h; cases h
  unit := by decide

theorem fmaxBits_picks : Picks (fun x => f32Val x ≠ .nan) (fun x y => ltVal (f32Val x) (f32Val y) = false) fmaxBits 0xFF800000#32 where
  choice {x y} hx hy := by
    have := fmaxBits_spec x y
    rwa [if_neg (by simp [FVal.isNan_iff, hx, hy])] at this
  trans {x y z} _ hy _ h1 h2 := ltVal_trans (f32Val_proper z) (f32Val_proper y) (f32Val_proper x) hy h2 h1
  last {x} hx h := by
    have unit : f32Val 0xFF800000#32 = .inf true := by decide
    rw [unit] at h
    cases e : f32Val x with
    | nan => exact absurd e hx
    | inf g =>
      cases g with
      | true => exact eq_of_f32Val_inf e
      | false => rw [e] at h; cases h
    | fin v => rw [e] at h; cases h
  unit := by decide

/-- A NaN among the words makes the fold the canonical NaN. -/
theorem foldl_eq_f32NaN {pick : Word → Word → Word} (nan : ∀ x y, f32Val x = .nan ∨ f32Val y = .nan → pick x y = f32NaN) {u : Word} {xs : List Word}
    (h : u = f32NaN ∨ ∃ x ∈ xs, f32Val x = .nan) : xs.foldl pick u = f32NaN := by
  have canonical : f32Val f32NaN = .nan := by decide
  induction xs generalizing u with
  | nil => simpa using h
  | cons y ys ih =>
    rw [List.foldl_cons]
    rcases h with rfl | h
    · exact ih (.inl (nan _ _ (.inl canonical)))
    · rw [List.exists_mem_cons_iff] at h
      exact ih (h.imp (fun e => nan _ _ (.inr e)) id)

theorem fminBits_nan (x y : Word) (h : f32Val x = .nan ∨ f32Val y = .nan) : fminBits x y = f32NaN := by
  have := fminBits_spec x y
  rwa [if_pos (by simpa [FVal.isNan_iff] using h)] at this

theorem fmaxBits_nan (x y : Word) (h : f32Val x = .nan ∨ f32Val y = .nan) : fmaxBits x y = f32NaN := by
  have := fmaxBits_spec x y
  rwa [if_pos (by simpa [FVal.isNan_iff] using h)] at this

/-! ### Sums and logic -/

theorem foldl_add_eq (u : Word) (xs : List Word) : xs.foldl (fun x y => x + y) u = u + BitVec.ofNat 32 (xs.map fun x => x.toNat).sum := by
  induction xs generalizing u with
  | nil => simp
  | cons x xs ih => rw [List.foldl_cons, ih, List.map_cons, List.sum_cons, BitVec.ofNat_add, BitVec.ofNat_toNat, BitVec.setWidth_eq, BitVec.add_assoc]

theorem foldl_and_getLsbD (u : Word) (xs : List Word) (i : Nat) :
    (xs.foldl (fun x y => x &&& y) u).getLsbD i = true ↔ u.getLsbD i = true ∧ ∀ x ∈ xs, x.getLsbD i = true := by
  induction xs generalizing u with
  | nil => simp
  | cons x xs ih => rw [List.foldl_cons, ih, BitVec.getLsbD_and, Bool.and_eq_true, List.forall_mem_cons, and_assoc]

theorem foldl_or_word_getLsbD (u : Word) (xs : List Word) (i : Nat) :
    (xs.foldl (fun x y => x ||| y) u).getLsbD i = true ↔ u.getLsbD i = true ∨ ∃ x ∈ xs, x.getLsbD i = true := by
  induction xs generalizing u with
  | nil => simp
  | cons x xs ih => rw [List.foldl_cons, ih, BitVec.getLsbD_or, Bool.or_eq_true, List.exists_mem_cons_iff, or_assoc]

theorem foldl_xor_getLsbD (u : Word) (xs : List Word) (i : Nat) :
    (xs.foldl (fun x y => x ^^^ y) u).getLsbD i = true ↔ ((u.getLsbD i).toNat + xs.countP fun x => x.getLsbD i) % 2 = 1 := by
  induction xs generalizing u with
  | nil => cases h : u.getLsbD i <;> simp [h]
  | cons x xs ih =>
    rw [List.foldl_cons, ih, BitVec.getLsbD_xor, List.countP_cons]
    cases u.getLsbD i <;> cases x.getLsbD i <;> simp <;> omega

/-! ### The combination (R166) -/

theorem combine_of_fold {f : GFn} (hf : f ≠ .faddF32) (xs : List Word) :
    combine f xs = ⟨xs.foldl (fun x y => (gfnPair f x y).val) (gfnIdentity f), 0#4⟩ := by
  cases xs with
  | nil => rfl
  | cons x xs => exact if_neg hf

theorem combine_combined (f : GFn) (xs : List Word) : Combined f xs (combine f xs) := by
  have fold (hf : f ≠ .faddF32) := combine_of_fold hf xs
  have fits {x : Word} (_ : x ∈ xs) : True := trivial
  cases f with
  | addI32 => exact (fold nofun).trans (congrArg (IRes.mk · 0#4) ((foldl_add_eq 0#32 xs).trans (BitVec.zero_add _)))
  | minI32 => rw [fold nofun]; exact ⟨rfl, minS_picks.foldl fun _ => fits⟩
  | maxI32 => rw [fold nofun]; exact ⟨rfl, maxS_picks.foldl fun _ => fits⟩
  | minN32 => rw [fold nofun]; exact ⟨rfl, minU_picks.foldl fun _ => fits⟩
  | maxN32 => rw [fold nofun]; exact ⟨rfl, maxU_picks.foldl fun _ => fits⟩
  | and =>
    rw [fold nofun]
    refine ⟨rfl, fun i hi => (foldl_and_getLsbD _ xs i).trans (and_iff_right ?_)⟩
    exact (BitVec.getLsbD_allOnes (v := 32)).trans (decide_eq_true hi)
  | or =>
    rw [fold nofun]
    refine ⟨rfl, fun i _ => (foldl_or_word_getLsbD _ xs i).trans (or_iff_right ?_)⟩
    simp [gfnIdentity]
  | xor =>
    rw [fold nofun]
    refine ⟨rfl, fun i _ => (foldl_xor_getLsbD _ xs i).trans ?_⟩
    simp [gfnIdentity]
  | faddF32 =>
    refine ⟨fun e => by rw [e]; rfl, fun hne => ⟨_, sumVals_isSumOf _ _ _ fun v hv => ?_, ?_⟩⟩
    · obtain ⟨x, -, e⟩ := List.mem_map.1 hv
      exact f32Val_proper x v e
    · rw [combine, if_neg (by simpa using hne), if_pos rfl]
      rfl
  | fminF32 => rw [fold nofun]; exact ⟨fun h => congrArg (IRes.mk · 0#4) (foldl_eq_f32NaN fminBits_nan (.inr h)), fun h => ⟨rfl, fminBits_picks.foldl h⟩⟩
  | fmaxF32 => rw [fold nofun]; exact ⟨fun h => congrArg (IRes.mk · 0#4) (foldl_eq_f32NaN fmaxBits_nan (.inr h)), fun h => ⟨rfl, fmaxBits_picks.foldl h⟩⟩

/-! ### `gred` and the scans (R167, R168) -/

/-- Flags that all lanes raise alike. -/
theorem Group.raise_flags_const (g : Group) {ls : List Lane} (hls : ls ≠ []) (x : BitVec 4) : (g.raise ls fun _ => x).flags = g.flags ||| x.setWidth 32 := by
  apply BitVec.eq_of_getLsbD_eq
  intro i hi
  have any : (ls.any fun _ => x.getLsbD i) = x.getLsbD i := by
    rw [Bool.eq_iff_iff, List.any_eq_true]
    exact ⟨fun ⟨_, _, h⟩ => h, fun h => (List.exists_mem_of_ne_nil ls hls).imp fun _ hl => ⟨hl, h⟩⟩
  rw [Group.raise_flags, any, BitVec.getLsbD_or, BitVec.getLsbD_setWidth]
  simp [hi]

theorem Group.lanes_ne_nil {g : Group} {h : Guard} (ha : g.active h ≠ 0#32) : g.lanes false h ≠ [] := by
  obtain ⟨x, hx, hax⟩ := mask_ne_zero_iff.1 ha
  exact List.ne_nil_of_mem (Group.mem_lanes_thread.2 ⟨hx, hax⟩)

/-- The group after `gred`. -/
def Group.reduced (g : Group) (h : Guard) (d : Reg) (r : IRes 32) : Group := (g.setG d r.val).raise (g.lanes false h) fun _ => r.fl

theorem Group.reduced_eta (g : Group) (h : Guard) (d : Reg) (r : IRes 32) :
    g.reduced h d r = { g with g := (g.reduced h d r).g, flags := (g.reduced h d r).flags, pend := (g.reduced h d r).pend } := by
  unfold Group.reduced
  rw [Group.raise_eta]
  rfl

theorem Group.reduced_getG (g : Group) (h : Guard) (d : Reg) (r : IRes 32) (x : Reg) : (g.reduced h d r).getG x = if x = d then r.val else g.getG x :=
  ((g.setG d r.val).raise_rd _ _ none x).trans (g.setG_getG d x r.val)

/-- `gred` writes a combination to its register, raises the combination's flags, and completes. -/
theorem gred_effect {s : State} {h : Guard} (d a : Reg) (f : GFn) (ha : s.grp.active h ≠ 0#32) (r : IRes 32)
    (hr : r = combine f ((bitsOf (s.grp.active h)).map (s.grp.getV a))) : ∃ t, exec (.gred h d a f) s = .next t ∧ OnlyGroup s t ∧
      t.grp.getG d = r.val ∧ (∀ x, x ≠ d → t.grp.getG x = s.grp.getG x) ∧ t.grp.flags = s.grp.flags ||| r.fl.setWidth 32 ∧
      (∀ c, c ≠ causeArithmetic → mapFind t.grp.pend c = mapFind s.grp.pend c) ∧
      t.grp = { s.grp.complete with g := t.grp.g, avail := t.grp.avail, flags := t.grp.flags, pend := t.grp.pend } := by
  subst hr
  have eta := s.grp.reduced_eta h d (combine f ((bitsOf (s.grp.active h)).map (s.grp.getV a)))
  have regs := s.grp.reduced_getG h d (combine f ((bitsOf (s.grp.active h)).map (s.grp.getV a)))
  refine ⟨s.finish ((s.grp.reduced h d _).mark s.win (gfnLatency f) [locG d]), congrArg Host.Outcome.next (State.gather_on ha _ _ _), s.finish_onlyGroup _, ?_⟩
  rw [State.finish_grp]
  refine ⟨?_, fun x hx => ?_, ?_, fun c hc => ?_, ?_⟩
  · rw [Group.complete_getG, Group.mark_getG, regs, if_pos rfl]
  · rw [Group.complete_getG, Group.mark_getG, regs, if_neg hx]
  · rw [Group.complete_flags]
    exact Group.raise_flags_const _ (Group.lanes_ne_nil ha) _
  · rw [Group.complete_pend]
    exact Group.raise_pend _ _ _ hc
  · rw [Group.complete_mark, Group.complete_of_eq s.grp (s.grp.reduced h d _) (by rw [eta]) (by rw [eta]) (by rw [eta]), s.grp.complete_eta, eta]
    rfl

theorem gred_passes {s : State} {h : Guard} (d a : Reg) (f : GFn) (ha : s.grp.active h = 0#32) : Passes (.gred h d a f) s :=
  congrArg Host.Outcome.next (State.gather_off ha _ _ _)

/-- The values that R166 combines for a set of threads, the active ones of which a property holds. -/
theorem valuesOf_eq (g : Group) (act : BitVec 32) (a : Reg) (p : Nat → Bool) :
    ((bitsOf act).filter p).map (g.getV a) = ((List.range 32).filter fun x => act.getLsbD x && p x).map fun x => g.getV a x := by
  rw [bitsOf, List.filter_filter]
  simp only [Bool.and_comm]

/-- Settles O26: `combine` is what R166 says of the values that it is given, and those are the ones of the active threads, up to a thread or below it. -/
theorem reductionsAndScans : Obligations.ReductionsAndScans := by
  unfold Obligations.ReductionsAndScans
  intro s h d a f
  have combined (p : Nat → Bool) : Combined f (((List.range 32).filter fun x => (s.grp.active h).getLsbD x && p x).map fun x => s.grp.getV a x)
      (combine f (((bitsOf (s.grp.active h)).filter p).map (s.grp.getV a))) := by
    rw [valuesOf_eq]
    exact combine_combined f _
  refine ⟨fun i hi => ?_, gred_passes d a f, fun ha => ⟨_, ?_, gred_effect d a f ha _ rfl⟩, deliversSuch_of_aluF (gfnLatency f) rfl fun l y e => ?_,
    deliversSuch_of_aluF (gfnLatency f) rfl fun l y e => ?_⟩
  · simp only [List.mem_cons, List.not_mem_nil, or_false] at hi
    rcases hi with rfl | rfl | rfl
    · by_cases ha : s.grp.active h = 0#32
      · exact ⟨_, gred_passes d a f ha, s.setGrp_onlyGroup _, by rw [State.setGrp_grp]⟩
      · obtain ⟨t, he, only, -, -, -, -, fields⟩ := gred_effect d a f ha _ rfl
        exact ⟨t, he, only, by rw [fields]⟩
    · exact (delivers_of_aluF (gfnLatency f) rfl).completes
    · exact (delivers_of_aluF (gfnLatency f) rfl).completes
  · simpa only [List.filter_true, decide_true] using combined fun _ => true
  · subst e
    exact combined fun x => decide (x ≤ y)
  · subst e
    exact combined fun x => decide (x < y)

end Sys2Proof.Machine
end


section
/-! `xchg`: the first of a pair waits, the second meets it, and both receive the other's values (R170, R171). -/

namespace Sys2Proof.Machine

/-! ### Waiting for a record -/

/-- The record of a group that waits. -/
def State.waitRecord (s : State) (g : Group) (kind : WaitKind) (due : Option Nat) : WaitOp :=
  { gid := s.cur, owner := g.owner, island := s.groupIsland g, pc := g.trapAt, w := s.win, kind := kind, due := due }

theorem Group.waiting_eq (g : Group) (k : Nat) : Group.complete { g with busy := some k, barMark := g.markHere } = g.waiting k :=
  (Group.complete_of_eq g { g with busy := some k, barMark := g.markHere } rfl rfl rfl).trans
    (congrArg (fun x : Group => { x with busy := some k, barMark := g.markHere }) g.complete_eta.symm)

theorem State.await_eq (s : State) (g : Group) (kind : WaitKind) (due : Option Nat) :
    s.await g kind due = { s.setGrp (g.waiting s.nextId) with waits := mapPut s.waits s.nextId (s.waitRecord g kind due), nextId := s.nextId + 1 } := by
  rw [← Group.waiting_eq]
  rfl

theorem State.await_grp (s : State) (g : Group) (kind : WaitKind) (due : Option Nat) : (s.await g kind due).grp = g.waiting s.nextId := by
  rw [State.await_eq]
  exact s.setGrp_grp _

theorem State.await_wait (s : State) (g : Group) (kind : WaitKind) (due : Option Nat) :
    mapFind (s.await g kind due).waits s.nextId = some (s.waitRecord g kind due) := by
  rw [State.await_eq]
  exact mapFind_mapPut_same _ _ _

/-! ### The issue (R170, R171) -/

/-- The group as it counts one more exchange. -/
def Group.nextXchg (g : Group) : Group := { g with xchgN := g.xchgN + 1 }

theorem Group.nextXchg_waiting (g : Group) (k : Nat) :
    g.nextXchg.waiting k = { g.complete with xchgN := g.xchgN + 1, busy := some k, barMark := g.markHere } := by
  unfold Group.waiting
  rw [Group.complete_of_eq g g.nextXchg rfl rfl rfl, g.complete_eta]
  rfl

/-- A core whose partner stands beside it, where there is one, may exchange. -/
theorem xchg_near {s : State} (near : s.hasCore s.grp.owner (s.grp.core ^^^ 4) = true → s.paired s.grp.owner s.grp.core = true) :
    ¬(s.hasCore s.grp.owner (s.grp.core ^^^ 4) && !s.paired s.grp.owner s.grp.core) = true := by
  simpa using near

section
variable {s : State} {p : Nat} (h : Guard) (d a : Reg) (tag : BitVec 6)
  (near : s.hasCore s.grp.owner (s.grp.core ^^^ 4) = true → s.paired s.grp.owner s.grp.core = true) (hp : s.partner s.grp = some p)
include near hp

/-- The first of a pair waits with its values and its active threads. -/
theorem exec_xchg_first (hw : s.xchgWaiting p s.grp.xchgN = none) : exec (.xchg h d a tag) s =
    .next (s.await s.grp.nextXchg (.xchg s.grp.xchgN tag.toNat d (s.grp.column a) (s.grp.active h) false) none) := by
  show execXchg h d a tag s = _
  unfold execXchg
  dsimp only
  rw [if_neg (xchg_near near), hp]
  dsimp only
  rw [hw]
  rfl

/-- The second waits with the first's values, hands over its own, and sets both due. -/
theorem exec_xchg_second {k m : Nat} {x : WaitOp} {pd : Reg} {vals : FMap Word} {mask : BitVec 32} (hw : s.xchgWaiting p s.grp.xchgN = some (k, x))
    (hx : x.kind = .xchg m tag.toNat pd vals mask false) : exec (.xchg h d a tag) s =
    .next (let t := s.await s.grp.nextXchg (.xchg s.grp.xchgN tag.toNat d vals (s.grp.active h &&& mask) true) (some (s.win + 16))
      let met : WaitOp := { x with kind := .xchg m tag.toNat pd (s.grp.column a) (s.grp.active h &&& mask) true, due := some (s.win + 16) }
      (({ t with waits := mapPut t.waits k met }.schedule (.owner s.grp.owner (s.groupIsland s.grp)) (s.win + 16) (.xchgComplete k)).schedule
        (.owner s.grp.owner (s.groupIsland s.grp)) (s.win + 16) (.xchgComplete s.nextId))) := by
  show execXchg h d a tag s = _
  unfold execXchg
  dsimp only
  rw [if_neg (xchg_near near), hp]
  dsimp only
  rw [hw]
  dsimp only
  rw [hx]
  dsimp only
  rw [if_neg (not_not.2 rfl)]
  rfl

theorem xchg_first_effect (hw : s.xchgWaiting p s.grp.xchgN = none) : ∃ t, exec (.xchg h d a tag) s = .next t ∧
    t.grp = { s.grp.complete with xchgN := s.grp.xchgN + 1, busy := some s.nextId, barMark := s.grp.markHere } ∧
    mapFind t.waits s.nextId = some {
      gid := s.cur, owner := s.grp.owner, island := s.groupIsland s.grp, pc := s.grp.trapAt, w := s.win
      kind := .xchg s.grp.xchgN tag.toNat d (s.grp.column a) (s.grp.active h) false } ∧
    t.mem = s.mem ∧ t.agenda = s.agenda :=
  ⟨_, exec_xchg_first h d a tag near hp hw, (s.await_grp _ _ _).trans (s.grp.nextXchg_waiting _), s.await_wait _ _ _, rfl, rfl⟩

theorem xchg_second_effect {k m : Nat} {x : WaitOp} {pd : Reg} {vals : FMap Word} {mask : BitVec 32} (hw : s.xchgWaiting p s.grp.xchgN = some (k, x))
    (hx : x.kind = .xchg m tag.toNat pd vals mask false) (hk : k < s.nextId) : ∃ t, exec (.xchg h d a tag) s = .next t ∧ t.grp.busy = some s.nextId ∧
      (mapFind t.waits k).map (fun y => y.kind) = some (.xchg m tag.toNat pd (s.grp.column a) (s.grp.active h &&& mask) true) ∧
      (mapFind t.waits s.nextId).map (fun y => y.kind) = some (.xchg s.grp.xchgN tag.toNat d vals (s.grp.active h &&& mask) true) ∧
      (⟨.owner s.grp.owner (s.groupIsland s.grp), s.win + 16, .xchgComplete k⟩ : Pend) ∈ t.agenda ∧
      (⟨.owner s.grp.owner (s.groupIsland s.grp), s.win + 16, .xchgComplete s.nextId⟩ : Pend) ∈ t.agenda := by
  refine ⟨_, exec_xchg_second h d a tag near hp hw hx, ?_, ?_, ?_, List.mem_append_left _ (State.mem_schedule _ _ _ _), State.mem_schedule _ _ _ _⟩
  · exact congrArg Group.busy (s.await_grp s.grp.nextXchg (.xchg s.grp.xchgN tag.toNat d vals (s.grp.active h &&& mask) true) (some (s.win + 16)))
  · exact congrArg (Option.map _) (mapFind_mapPut_same _ _ _)
  · refine congrArg (Option.map _) ((mapFind_mapPut _ _ _ _).trans ((if_neg hk.ne').trans (s.await_wait _ _ _)))

end

/-! ### The completion (R171) -/

/-- A group that receives the other side's values for the threads of a mask. -/
def Group.receive (g : Group) (d : Reg) (vals : FMap Word) (mask : BitVec 32) : Group :=
  (bitsOf mask).foldl (fun g t => g.setV d t (mapGet 0#32 vals t)) g

theorem Group.receive_eq (g : Group) (d : Reg) (vals : FMap Word) (mask : BitVec 32) :
    g.receive d vals mask = g.writeAll ((bitsOf mask).map some) d fun l => mapGet 0#32 vals (l.getD 0) := by
  unfold Group.receive Group.writeAll
  rw [List.foldl_map]
  rfl

theorem Group.receive_getV (g : Group) (d : Reg) (vals : FMap Word) (mask : BitVec 32) (r : Reg) {y : Nat} (hy : y < 32) :
    (g.receive d vals mask).getV r y = if r = d ∧ mask.getLsbD y = true then mapGet 0#32 vals y else g.getV r y := by
  have fits : ∀ l ∈ (bitsOf mask).map some, laneFits false l := by
    intro l hl
    obtain ⟨t, ht, rfl⟩ := List.mem_map.1 hl
    exact ⟨rfl, (mem_bitsOf.1 ht).1⟩
  rw [Group.receive_eq]
  have := Group.writeAll_rd g (d := d) (f := fun l => mapGet 0#32 vals (l.getD 0)) (r := r) fits (l := some y) ⟨rfl, hy⟩
  simpa [mem_bitsOf, hy, Group.rd] using this

theorem Group.receive_eta (g : Group) (d : Reg) (vals : FMap Word) (mask : BitVec 32) : g.receive d vals mask = { g with v := (g.receive d vals mask).v } := by
  have kept : (g.receive d vals mask).g = g.g := by
    rw [Group.receive_eq]
    refine Group.writeAll_other_g g fun l hl => ?_
    obtain ⟨t, -, rfl⟩ := List.mem_map.1 hl
    exact Option.some_ne_none t
  conv_lhs => rw [Group.receive_eq, Group.writeAll_eta, ← Group.receive_eq, kept]

theorem exec_xchgComplete {s : State} {k m tag : Nat} {x : WaitOp} {d : Reg} {vals : FMap Word} {mask : BitVec 32} (hk : mapFind s.waits k = some x)
    (hx : x.kind = .xchg m tag d vals mask true) (live : (s.groupAt x.gid).isEnded = false) : exec (.xchgComplete k) s =
    .next ({ s with waits := mapErase s.waits k }.setGroupAt x.gid { (s.groupAt x.gid).receive d vals mask with busy := none }) := by
  show execXchgComplete k s = _
  unfold execXchgComplete
  rw [hk]
  dsimp only
  rw [hx]
  exact congrArg Host.Outcome.next (if_neg (Bool.eq_false_iff.1 live))

theorem xchgComplete_effect {s : State} {k m tag : Nat} {x : WaitOp} {d : Reg} {vals : FMap Word} {mask : BitVec 32} (hk : mapFind s.waits k = some x)
    (hx : x.kind = .xchg m tag d vals mask true) (live : (s.groupAt x.gid).isEnded = false) :
    ∃ t, exec (.xchgComplete k) s = .next t ∧ mapFind t.waits k = none ∧ (t.groupAt x.gid).busy = none ∧
      (∀ r y, y < 32 → (t.groupAt x.gid).getV r y = if r = d ∧ mask.getLsbD y = true then mapGet 0#32 vals y else (s.groupAt x.gid).getV r y) ∧
      (∀ j, j ≠ x.gid → t.groupAt j = s.groupAt j) ∧ t.mem = s.mem ∧
      t.groupAt x.gid = { s.groupAt x.gid with v := (t.groupAt x.gid).v, busy := none } := by
  refine ⟨_, exec_xchgComplete hk hx live, mapFind_mapErase_same _ _, ?_⟩
  rw [State.setGroupAt_groupAt, if_pos rfl]
  refine ⟨rfl, fun r y hy => (s.groupAt x.gid).receive_getV d vals mask r hy, fun j hj => ?_, rfl, ?_⟩
  · rw [State.setGroupAt_groupAt, if_neg hj]
    rfl
  · exact congrArg (fun g : Group => { g with busy := none }) ((s.groupAt x.gid).receive_eta d vals mask)

/-- Settles O27: the first `xchg` of a pair waits, the second meets it, and each completion hands over the values. -/
theorem exchange : Obligations.Exchange := by
  unfold Obligations.Exchange
  exact ⟨fun s h d a tag p near hp => ⟨xchg_first_effect h d a tag near hp, fun k x m pd vals mask hw hx hk => xchg_second_effect h d a tag near hp hw hx hk⟩,
    fun s k x m tag d vals mask hk hx live => xchgComplete_effect hk hx live⟩

end Sys2Proof.Machine
end

section
/-! The host port (R183, R411 to R413, R417, R419, R421, R424): the registers of an owner's window, requests for memory, and the recorder. -/

namespace Sys2Proof.Machine

/-! ### A window (R411) -/

theorem State.granted_iff (s : State) (o : Nat) : s.granted o = true ↔ (s.ownerAt o).live = true ∧ (s.ownerAt o).lqGranted = true :=
  Bool.and_eq_true_iff

theorem State.granted_eq_false_iff (s : State) (o : Nat) : s.granted o = false ↔ (s.ownerAt o).live = false ∨ (s.ownerAt o).lqGranted = false :=
  Bool.and_eq_false_iff

theorem State.window_refused {s : State} {o : Nat} (h : ¬s.granted o = true) (f : Owner → Owner) :
    s.window o f = { s with port := some .unsupportedRequest } := if_neg h

theorem State.window_granted {s : State} {o : Nat} (h : s.granted o = true) (f : Owner → Owner) :
    s.window o f = { s.setOwner o (f (s.ownerAt o)) with port := some (.ok 0) } := if_pos h

/-- A write that does not reach a window completes with Unsupported Request. -/
theorem exec_of_window_refused {i : Instr} {s : State} {o : Nat} {f : Owner → Owner} (hi : exec i s = .next (s.window o f)) (h : ¬s.granted o = true) :
    exec i s = .next { s with port := some .unsupportedRequest } :=
  hi.trans (congrArg Host.Outcome.next (State.window_refused h f))

theorem exec_of_window_granted {i : Instr} {s : State} {o : Nat} {f : Owner → Owner} {y : Owner} (hi : exec i s = .next (s.window o f)) (h : s.granted o = true)
    (hf : f (s.ownerAt o) = y) : exec i s = .next { s.setOwner o y with port := some (.ok 0) } := by
  rw [hi, State.window_granted h, hf]

/-! ### The launch queues' registers (R411 to R413) -/

/-- The low twelve bits are those that `page4k` clears. -/
theorem page4k_eq (x : Dword) : page4k x = BitVec.ofNat 64 (x.toNat / 4096 * 4096) := by
  have mask : ∀ i, i < 64 → (0xFFFFFFFFFFFFF000#64).getLsbD i = decide (12 ≤ i) := by decide
  refine BitVec.eq_of_getLsbD_eq fun i hi => ?_
  have bit : (x.toNat / 2 ^ 12 * 2 ^ 12).testBit i = (decide (12 ≤ i) && x.getLsbD i) := by
    rw [Nat.testBit_mul_two_pow, Nat.testBit_div_two_pow]
    by_cases h : 12 ≤ i
    · rw [Nat.sub_add_cancel h]
      rfl
    · simp [h]
  rw [page4k, BitVec.getLsbD_and, mask i hi, BitVec.getLsbD_ofNat]
  exact (Bool.and_comm _ _).trans (by simpa [hi] using bit.symm)

theorem exec_registerWrite_evBase {s : State} {o : Nat} (h : s.granted o = true) (x : Dword) :
    exec (.registerWrite o 0 x) s = .next { s.setOwner o { s.ownerAt o with evBase := BitVec.ofNat 64 (x.toNat / 4096 * 4096) } with port := some (.ok 0) } :=
  exec_of_window_granted rfl h (by rw [if_pos rfl, page4k_eq])

/-- A write of LQ_BASE takes effect on a queue that is not enabled (R412). -/
theorem exec_registerWrite_lqBase {s : State} {o q : Nat} (h : s.granted o = true) (hq : q < 8) (x : Dword) :
    exec (.registerWrite o (0x100 + 0x20 * q) x) s = .next { s.setOwner o
      (if ((s.ownerAt o).lqAt q).en = true then s.ownerAt o else
        { s.ownerAt o with lq := mapPut (s.ownerAt o).lq q { (s.ownerAt o).lqAt q with base := BitVec.ofNat 64 (x.toNat / 4096 * 4096) } }) with
      port := some (.ok 0) } := by
  have number : (0x100 + 0x20 * q - 0x100) / 0x20 = q := by omega
  refine exec_of_window_granted rfl h ?_
  dsimp only
  rw [if_neg (by omega), if_pos (by omega), number, page4k_eq]

theorem exec_lqTailWrite {s : State} {o q : Nat} (h : s.granted o = true) (hq : q < 8) (v : Word) :
    exec (.lqTailWrite o q v) s = .next { s.setOwner o { s.ownerAt o with
      lq := mapPut (s.ownerAt o).lq q { (s.ownerAt o).lqAt q with tail := BitVec.ofNat 32 (v.toNat % ((s.ownerAt o).lqAt q).slots) } } with port := some (.ok 0) } :=
  exec_of_window_granted rfl h (if_pos hq)

theorem exec_lqCtlWrite {s : State} {o q : Nat} (h : s.granted o = true) (hq : q < 8) (v : Word) :
    exec (.lqCtlWrite o q v) s = .next { s.setOwner o { s.ownerAt o with lq := mapPut (s.ownerAt o).lq q (((s.ownerAt o).lqAt q).writeCtl v) } with
      port := some (.ok 0) } :=
  exec_of_window_granted rfl h (if_pos hq)

/-- There are eight queues; a write to the registers of another changes none. -/
theorem exec_lqWrites_none {s : State} {o q : Nat} (h : s.granted o = true) (hq : 8 ≤ q) (v : Word) :
    exec (.lqTailWrite o q v) s = .next { s.setOwner o (s.ownerAt o) with port := some (.ok 0) } ∧
    exec (.lqCtlWrite o q v) s = .next { s.setOwner o (s.ownerAt o) with port := some (.ok 0) } :=
  ⟨exec_of_window_granted rfl h (if_neg (Nat.not_lt.2 hq)), exec_of_window_granted rfl h (if_neg (Nat.not_lt.2 hq))⟩

/-! ### The fields of LQ_CTL (R412) -/

/-- LQ_CTL with its count, the bits that a write sets, the error bit and the enable bit. -/
def lqCtl (n : BitVec 4) (v : Word) (err en : Bool) : Word :=
  (n.setWidth 32 <<< 12) ||| (v &&& 0xC04#32) ||| (if err then 2#32 else 0#32) ||| (if en then 1#32 else 0#32)

theorem lqCtl_en (n : BitVec 4) (v : Word) (err en : Bool) : (lqCtl n v err en).getLsbD 0 = en := by
  cases err <;> cases en <;> simp [lqCtl]

/-- From bit 2 on, LQ_CTL holds the count and what a write sets. -/
theorem lqCtl_getLsbD (n : BitVec 4) (v : Word) (err en : Bool) {i : Nat} (hi : 2 ≤ i) :
    (lqCtl n v err en).getLsbD i = ((n.setWidth 32 <<< 12).getLsbD i || v.getLsbD i && (0xC04#32).getLsbD i) := by
  have flag {k : Nat} (hk : k < 4) : (BitVec.ofNat 32 k).getLsbD i = false := by
    rw [BitVec.getLsbD_ofNat, Nat.testBit_lt_two_pow (hk.trans_le (Nat.pow_le_pow_right (n := 2) (by decide) hi)), Bool.and_false]
  have errBit : (if err then 2#32 else 0#32).getLsbD i = false := by
    cases err <;> exact flag (by decide)
  have enBit : (if en then 1#32 else 0#32).getLsbD i = false := by
    cases en <;> exact flag (by decide)
  rw [lqCtl, BitVec.getLsbD_or, BitVec.getLsbD_or, BitVec.getLsbD_or, BitVec.getLsbD_and, errBit, enBit, Bool.or_false, Bool.or_false]

theorem lqCtl_sess (n : BitVec 4) (v : Word) (err en : Bool) : (lqCtl n v err en).getLsbD 2 = v.getLsbD 2 := by
  rw [lqCtl_getLsbD n v err en (le_refl 2)]
  simp

theorem lqCtl_prio (n : BitVec 4) (v : Word) (err en : Bool) : (lqCtl n v err en).extractLsb' 10 2 = v.extractLsb' 10 2 := by
  have mask : ∀ i, i < 2 → (0xC04#32).getLsbD (10 + i) = true := by decide
  refine BitVec.eq_of_getLsbD_eq fun i hi => ?_
  have below : decide (10 + i < 12) = true := decide_eq_true (by omega)
  rw [BitVec.getLsbD_extractLsb', BitVec.getLsbD_extractLsb', lqCtl_getLsbD n v err en (by omega), mask i hi, BitVec.getLsbD_shiftLeft, below]
  simp

theorem lqCtl_count (n : BitVec 4) (v : Word) (err en : Bool) : (lqCtl n v err en).extractLsb' 12 4 = n := by
  have mask : ∀ i, i < 4 → (0xC04#32).getLsbD (12 + i) = false := by decide
  refine BitVec.eq_of_getLsbD_eq fun i hi => ?_
  have inside : 12 + i < 32 := by omega
  have low : i < 32 := by omega
  rw [BitVec.getLsbD_extractLsb', lqCtl_getLsbD n v err en (by omega), mask i hi, BitVec.getLsbD_shiftLeft]
  simp [hi, inside, low]

/-- The count that a write of LQ_CTL leaves: an enabled queue keeps its own. -/
def LqRegs.newCount (x : LqRegs) (v : Word) : BitVec 4 := if x.en then x.ctl.extractLsb' 12 4 else v.extractLsb' 12 4

/-- The queue is enabled after a write of LQ_CTL. -/
def LqRegs.newEn (x : LqRegs) (v : Word) : Bool := v.getLsbD 0 && decide (4 ≤ (x.newCount v).toNat) && decide ((x.newCount v).toNat ≤ 12)

theorem LqRegs.writeCtl_eq (x : LqRegs) (v : Word) : x.writeCtl v =
    if (x.newEn v && !x.en) = true then { x with ctl := lqCtl (x.newCount v) v (x.ctl.getLsbD 1 && !v.getLsbD 1) (x.newEn v), head := 0#32, tail := 0#32 }
    else { x with ctl := lqCtl (x.newCount v) v (x.ctl.getLsbD 1 && !v.getLsbD 1) (x.newEn v) } := rfl

theorem LqRegs.writeCtl_ctl (x : LqRegs) (v : Word) : (x.writeCtl v).ctl = lqCtl (x.newCount v) v (x.ctl.getLsbD 1 && !v.getLsbD 1) (x.newEn v) := by
  rw [LqRegs.writeCtl_eq]
  split <;> rfl

theorem LqRegs.writeCtl_base (x : LqRegs) (v : Word) : (x.writeCtl v).base = x.base := by
  rw [LqRegs.writeCtl_eq]
  split <;> rfl

theorem LqRegs.writeCtl_en (x : LqRegs) (v : Word) : (x.writeCtl v).en = x.newEn v := by
  rw [LqRegs.en, LqRegs.writeCtl_ctl, lqCtl_en]

theorem LqRegs.writeCtl_sess (x : LqRegs) (v : Word) : (x.writeCtl v).sess = v.getLsbD 2 := by
  rw [LqRegs.sess, LqRegs.writeCtl_ctl, lqCtl_sess]

theorem LqRegs.writeCtl_prio (x : LqRegs) (v : Word) : (x.writeCtl v).prio = v.toNat / 1024 % 4 := by
  rw [LqRegs.prio, LqRegs.writeCtl_ctl, lqCtl_prio, BitVec.extractLsb'_toNat, Nat.shiftRight_eq_div_pow]

theorem LqRegs.newCount_toNat (x : LqRegs) (v : Word) :
    (x.newCount v).toNat = if x.en = true then x.ctl.toNat / 4096 % 16 else v.toNat / 4096 % 16 := by
  unfold LqRegs.newCount
  split <;> rw [BitVec.extractLsb'_toNat, Nat.shiftRight_eq_div_pow]

theorem LqRegs.writeCtl_slots (x : LqRegs) (v : Word) : (x.writeCtl v).slots = 2 ^ (x.newCount v).toNat := by
  rw [LqRegs.slots, LqRegs.writeCtl_ctl, lqCtl_count]

theorem LqRegs.newEn_iff (x : LqRegs) (v : Word) : x.newEn v = true ↔ v.getLsbD 0 = true ∧ 4 ≤ (x.newCount v).toNat ∧ (x.newCount v).toNat ≤ 12 := by
  simp [LqRegs.newEn, and_assoc]

/-- Enabling a queue empties it. -/
theorem LqRegs.writeCtl_enables {x : LqRegs} {v : Word} (h : (x.writeCtl v).en = true) (hx : x.en = false) :
    (x.writeCtl v).head = 0#32 ∧ (x.writeCtl v).tail = 0#32 := by
  rw [LqRegs.writeCtl_en] at h
  rw [LqRegs.writeCtl_eq, if_pos (by simp [h, hx])]
  exact ⟨rfl, rfl⟩

/-- A queue that was enabled keeps its pointers. -/
theorem LqRegs.writeCtl_pointers {x : LqRegs} (hx : x.en = true) (v : Word) : (x.writeCtl v).head = x.head ∧ (x.writeCtl v).tail = x.tail := by
  rw [LqRegs.writeCtl_eq, if_neg (by simp [hx])]
  exact ⟨rfl, rfl⟩

/-! ### The event ring's registers (R417) -/

theorem State.flushEvents_of_empty {s : State} {o : Nat} (h : (s.ownerAt o).events = []) : s.flushEvents o = s := by
  rw [State.flushEvents, h]
  rfl

/-- With no event waiting, a write to the ring's registers lets none enter. -/
theorem State.window_flushEvents {s : State} {o : Nat} {f : Owner → Owner} (h : (s.ownerAt o).events = []) (hf : (f (s.ownerAt o)).events = []) :
    (s.window o f).flushEvents o = s.window o f := by
  refine State.flushEvents_of_empty ?_
  unfold State.window
  split
  · exact (congrArg Owner.events ((s.modOwner_ownerAt o f o).trans (if_pos rfl))).trans hf
  · exact h

/-- The ring is enabled by a word written to EV_CTL. -/
def evEnables (v : Word) : Bool := v.getLsbD 4 && decide (4 ≤ (v.extractLsb' 0 4).toNat) && decide ((v.extractLsb' 0 4).toNat ≤ 12)

/-- What a write leaves in EV_CTL. -/
def evCtlWord (v : Word) : Word := (v &&& 0xF#32) ||| (if evEnables v then 0x10#32 else 0#32)

/-- An owner after a write of EV_CTL. -/
def Owner.writeEvCtl (w : Owner) (v : Word) : Owner :=
  if (evEnables v && !w.evCtl.getLsbD 4) = true then { w with evCtl := evCtlWord v, evHead := 0#32, evTail := 0#32 } else { w with evCtl := evCtlWord v }

theorem evEnables_iff (v : Word) : evEnables v = true ↔ v.getLsbD 4 = true ∧ 4 ≤ v.toNat % 16 ∧ v.toNat % 16 ≤ 12 := by
  simp [evEnables, BitVec.extractLsb'_toNat, and_assoc]

theorem evCtlWord_count (v : Word) : (evCtlWord v).toNat % 16 = v.toNat % 16 := by
  have low : (v &&& 0xF#32).toNat = v.toNat % 16 := by
    rw [BitVec.toNat_and]
    exact Nat.and_two_pow_sub_one_eq_mod v.toNat 4
  have bits : (evCtlWord v).toNat % 2 ^ 4 = (v &&& 0xF#32).toNat % 2 ^ 4 := by
    unfold evCtlWord
    split
    · rw [BitVec.toNat_or, Nat.or_mod_two_pow]
      exact Nat.or_zero _
    · rw [BitVec.or_zero]
  omega

theorem evCtlWord_en (v : Word) : (evCtlWord v).getLsbD 4 = evEnables v := by
  cases h : evEnables v <;> simp [evCtlWord, h]

theorem Owner.writeEvCtl_evCtl (w : Owner) (v : Word) : (w.writeEvCtl v).evCtl = evCtlWord v := by
  unfold Owner.writeEvCtl
  split <;> rfl

theorem Owner.writeEvCtl_evBase (w : Owner) (v : Word) : (w.writeEvCtl v).evBase = w.evBase := by
  unfold Owner.writeEvCtl
  split <;> rfl

theorem Owner.writeEvCtl_events (w : Owner) (v : Word) : (w.writeEvCtl v).events = w.events := by
  unfold Owner.writeEvCtl
  split <;> rfl

/-- Enabling the ring empties it. -/
theorem Owner.writeEvCtl_enables {w : Owner} {v : Word} (h : evEnables v = true) (hw : w.evCtl.getLsbD 4 = false) :
    (w.writeEvCtl v).evHead = 0#32 ∧ (w.writeEvCtl v).evTail = 0#32 := by
  rw [Owner.writeEvCtl, if_pos (by rw [h, hw]; rfl)]
  exact ⟨rfl, rfl⟩

theorem exec_evCtlWrite {s : State} {o : Nat} (h : (s.ownerAt o).events = []) (v : Word) :
    exec (.evCtlWrite o v) s = .next (s.window o (fun w => w.writeEvCtl v)) :=
  congrArg Host.Outcome.next (State.window_flushEvents h (((s.ownerAt o).writeEvCtl_events v).trans h))

theorem exec_evHeadWrite {s : State} {o : Nat} (h : (s.ownerAt o).events = []) (v : Word) :
    exec (.evHeadWrite o v) s = .next (s.window o (fun w => { w with evHead := if w.evSize = 0 then v else BitVec.ofNat 32 (v.toNat % w.evSize) })) :=
  congrArg Host.Outcome.next (State.window_flushEvents (f := fun w => { w with evHead := if w.evSize = 0 then v else BitVec.ofNat 32 (v.toNat % w.evSize) }) h h)

/-! ### Registers read (R411, R412) -/

/-- A launch queue's register by its offset from LQ_BASE. -/
def LqRegs.field (x : LqRegs) (k : Nat) : Nat :=
  match k with
  | 0 => x.base.toNat
  | 0x8 => x.ctl.toNat
  | 0xC => x.head.toNat
  | 0x10 => x.tail.toNat
  | _ => 0

theorem Owner.register_lq (w : Owner) {a q k : Nat} (hq : q < 8) (hk : k < 0x20) (ha : a = 0x100 + 0x20 * q + k) : w.register a = (w.lqAt q).field k := by
  have number : (a - 0x100) / 0x20 = q := by omega
  have offset : a % 0x20 = k := by omega
  unfold Owner.register
  dsimp only
  rw [if_neg (by omega), if_neg (by omega), if_neg (by omega), if_neg (by omega), if_neg (by omega), number, offset]
  rfl

theorem exec_registerRead {s : State} {o a n : Nat} (h : s.granted o = true) (hn : (s.ownerAt o).register a = n) :
    exec (.hostMemoryRequest a (.register o)) s = .next { s with port := some (.ok n) } := by
  show execHostMemoryRequest a (.register o) s = _
  unfold execHostMemoryRequest
  dsimp only
  rw [if_pos h, hn]

theorem exec_registerRead_refused {s : State} {o : Nat} (h : ¬s.granted o = true) (a : Nat) :
    exec (.hostMemoryRequest a (.register o)) s = .next { s with port := some .unsupportedRequest } := by
  show execHostMemoryRequest a (.register o) s = _
  unfold execHostMemoryRequest
  dsimp only
  rw [if_neg h]

/-! ### Requests for memory (R183, R421, R424) -/

/-- The memory of frames, or of Silo, answers an address. -/
theorem memoryThere_iff (a : Nat) : (directOk a || siloOk a) = true ↔
    a < 0x10000000000 ∧ a % 0x80000000 < 0x59680000 ∨ 0x2000000000000 ≤ a ∧ a < 0x2000000000000 + 2048000000000 := by
  simp only [directOk, siloOk, Bool.or_eq_true, Bool.and_eq_true, decide_eq_true_eq]
  rfl

theorem State.hostByte_there (s : State) {a : Nat} (h : (directOk a || siloOk a) = true) : s.hostByte a = some a := if_pos h

/-- The byte of memory behind an address of an owner's striped window. -/
def State.stripedByte (s : State) (a o : Nat) : Option Nat :=
  match s.part o with
  | none => none
  | some r => if inStripes r a 1 then stripedToVault r (a - stripeBase) else none

theorem State.hostByte_striped (s : State) {a : Nat} (h : ¬(directOk a || siloOk a) = true) :
    s.hostByte a = s.liveOwners.findSome? (s.stripedByte a) := if_neg h

theorem State.stripedByte_eq_some {s : State} {a o pa : Nat} (h : s.stripedByte a o = some pa) :
    ∃ r, s.part o = some r ∧ inStripes r a 1 = true ∧ stripedToVault r (a - stripeBase) = some pa := by
  unfold State.stripedByte at h
  split at h
  · cases h
  · next r hr =>
    obtain ⟨inside, place⟩ := Option.ite_none_right_eq_some.1 h
    exact ⟨r, hr, inside, place⟩

theorem State.stripedByte_outside {s : State} {a o : Nat} (h : ∀ r, s.part o = some r → inStripes r a 1 = false) : s.stripedByte a o = none := by
  unfold State.stripedByte
  split
  · rfl
  · next r hr => rw [if_neg (by rw [h r hr]; exact Bool.false_ne_true)]

theorem State.hostByte_outside {s : State} {a : Nat} (h : ¬(directOk a || siloOk a) = true)
    (outside : ∀ o ∈ s.liveOwners, ∀ r, s.part o = some r → inStripes r a 1 = false) : s.hostByte a = none := by
  rw [State.hostByte_striped s h, List.findSome?_eq_none_iff]
  exact fun o ho => State.stripedByte_outside (outside o ho)

theorem State.hostByte_inStripes {s : State} {a pa : Nat} (h : ¬(directOk a || siloOk a) = true) (hp : s.hostByte a = some pa) :
    ∃ o ∈ s.liveOwners, ∃ r, s.part o = some r ∧ inStripes r a 1 = true ∧ stripedToVault r (a - stripeBase) = some pa := by
  rw [State.hostByte_striped s h] at hp
  obtain ⟨o, ho, place⟩ := List.exists_of_findSome?_eq_some hp
  exact ⟨o, ho, State.stripedByte_eq_some place⟩

theorem State.hostMemory_unpopulated {s : State} {a : Nat} (h : s.hostByte a = none) (w : Option Byte) : s.hostMemory a w = .fault (.unpopulated a) := by
  unfold State.hostMemory
  rw [h]

/-- The byte lies in a frame of an isolated partition. -/
def State.Private (s : State) (pa : Nat) : Prop := ∃ o, s.byteOwner pa = some o ∧ s.isolated o = true

theorem State.hostMemory_isolated {s : State} {a pa : Nat} (h : s.hostByte a = some pa) (hp : s.Private pa) (w : Option Byte) :
    s.hostMemory a w = .next { s with port := some .completerAbort } := by
  obtain ⟨o, ho, isolated⟩ := hp
  unfold State.hostMemory
  rw [h]
  dsimp only
  rw [ho]
  exact if_pos isolated

/-- What a request for a byte does that is no isolated partition's. -/
def State.memoryServed (s : State) (pa : Nat) : Option Byte → State
  | some b => { s.putMem pa [b] with port := some (.ok 0) }
  | none => { s with port := some (if (s.sectorFault (pa / 32)).isSome then .completerAbort else .ok (s.byte pa).toNat) }

theorem State.hostMemory_served {s : State} {a pa : Nat} (h : s.hostByte a = some pa) (hp : ¬s.Private pa) (w : Option Byte) :
    s.hostMemory a w = .next (s.memoryServed pa w) := by
  have open_ : ∀ o, s.byteOwner pa = some o → ¬s.isolated o = true := fun o ho hi => hp ⟨o, ho, hi⟩
  unfold State.hostMemory
  rw [h]
  dsimp only
  cases ho : s.byteOwner pa with
  | none => cases w <;> rfl
  | some o =>
    refine (if_neg (open_ o ho)).trans ?_
    cases w <;> rfl

theorem exec_hostRead {s : State} {a pa : Nat} (h : s.hostByte a = some pa) (hp : ¬s.Private pa) (sound : s.sectorFault (pa / 32) = none) :
    exec (.hostMemoryRequest a .read) s = .next { s with port := some (.ok (s.byte pa).toNat) } := by
  refine (State.hostMemory_served h hp none).trans ?_
  rw [State.memoryServed, if_neg (by simp [sound])]

/-- A byte of a sector that fails is not sent (R424). -/
theorem exec_hostRead_fails {s : State} {a pa : Nat} (h : s.hostByte a = some pa) (hp : ¬s.Private pa) (fails : s.sectorFault (pa / 32) ≠ none) :
    exec (.hostMemoryRequest a .read) s = .next { s with port := some .completerAbort } := by
  refine (State.hostMemory_served h hp none).trans ?_
  rw [State.memoryServed, if_pos (Option.isSome_iff_ne_none.2 fails)]

theorem hostWrite_effect {s : State} {a pa : Nat} (h : s.hostByte a = some pa) (hp : ¬s.Private pa) (b : Byte) :
    ∃ t, exec (.hostMemoryRequest a (.write b)) s = .next t ∧ t = { s with mem := t.mem, faulty := t.faulty, checks := t.checks, port := some (.ok 0) } ∧
      ∀ c, t.byte c = if c = pa then b else s.byte c := by
  refine ⟨_, State.hostMemory_served h hp (some b), rfl, fun c => ?_⟩
  refine (s.putMem_byte pa [b] c).trans ?_
  by_cases e : c = pa
  · rw [if_pos e, if_pos (by simp [e]), e, Nat.sub_self]
    rfl
  · rw [if_neg e, if_neg (by simp only [List.length_singleton]; omega)]

/-! ### The recorder (R419) -/

theorem exec_freeze {s : State} (h : s.granted 63 = true) : exec .freeze s = .next { s with boxFrozen := true, port := some (.ok 0) } :=
  congrArg Host.Outcome.next (if_pos h)

theorem exec_freeze_refused {s : State} (h : ¬s.granted 63 = true) : exec .freeze s = .next { s with port := some .unsupportedRequest } :=
  congrArg Host.Outcome.next (if_neg h)

theorem exec_recordRead_refused {s : State} (h : ¬s.granted 63 = true) (n : Nat) (i : Option Nat) :
    exec (.hostMemoryRequest n (.record i)) s = .next { s with port := some .unsupportedRequest } := by
  show execHostMemoryRequest n (.record i) s = _
  unfold execHostMemoryRequest
  rw [Bool.eq_false_iff.2 h]
  rfl

theorem exec_recordRead {s : State} (h : s.granted 63 = true) (n : Nat) (i : Option Nat) : exec (.hostMemoryRequest n (.record i)) s =
    .next { s with port := some ((s.box[n]?).elim .unsupportedRequest fun e => .entry (s.boxEntry e i)) } := by
  show execHostMemoryRequest n (.record i) s = _
  unfold execHostMemoryRequest
  rw [h]
  cases s.box[n]? <;> rfl

theorem exec_recordRead_missing {s : State} {n : Nat} (h : s.box[n]? = none) (i : Option Nat) :
    exec (.hostMemoryRequest n (.record i)) s = .next { s with port := some .unsupportedRequest } := by
  by_cases granted : s.granted 63 = true
  · rw [exec_recordRead granted, h]
    rfl
  · exact exec_recordRead_refused granted n i

theorem exec_recordRead_entry {s : State} {n : Nat} {e : BoxRec} (h : s.granted 63 = true) (he : s.box[n]? = some e) (i : Option Nat) :
    exec (.hostMemoryRequest n (.record i)) s = .next { s with port := some (.entry (s.boxEntry e i)) } := by
  rw [exec_recordRead h, he]
  rfl

theorem State.sessionOf_iff (s : State) (i : Option Nat) (o : Nat) :
    s.sessionOf i o = true ↔ ∃ k y, i = some k ∧ mapFind s.spdm.sessions k = some y ∧ y.up = true ∧ y.partition = some o := by
  unfold State.sessionOf
  cases i with
  | none => simp
  | some k => cases h : mapFind s.spdm.sessions k <;> simp [h]

theorem State.boxEntry_shown {s : State} {e : BoxRec} {i : Option Nat} (h : 32 ≤ e.owner ∨ s.sessionOf i e.owner = true) : s.boxEntry e i = e := by
  refine if_neg fun hidden => ?_
  obtain ⟨low, none⟩ := hidden
  rcases h with h | h
  · omega
  · simp [h] at none

theorem State.boxEntry_hidden {s : State} {e : BoxRec} {i : Option Nat} (low : e.owner < 32) (h : ¬s.sessionOf i e.owner = true) :
    s.boxEntry e i = { e with data := List.replicate 16 0#8 } :=
  if_pos ⟨low, by simp [h]⟩

end Sys2Proof.Machine
end

section
/-! Attestation (R422, R423): the answer to each request, and the sessions. -/

namespace Sys2Proof.Machine

/-! ### Answers (R422) -/

theorem State.spdmAnswer_off {s : State} (off : s.spdm.on = false) (f : Spdm → Spdm × SpdmReply) : s.spdmAnswer f = s := if_pos (by simp [off])

/-- The responder with one more reply. -/
def Spdm.answered (x : Spdm × SpdmReply) : Spdm := { x.1 with replies := x.1.replies ++ [x.2] }

theorem State.spdmAnswer_on {s : State} (on : s.spdm.on = true) (f : Spdm → Spdm × SpdmReply) :
    s.spdmAnswer f = { s with spdm := Spdm.answered (f s.spdm) } := if_neg (by simp [on])

theorem exec_of_answer_off {i : Instr} {s : State} {f : Spdm → Spdm × SpdmReply} (hi : exec i s = .next (s.spdmAnswer f)) (off : s.spdm.on = false) :
    exec i s = .next s := by
  rw [hi, State.spdmAnswer_off off]

theorem exec_of_answer {i : Instr} {s : State} {f : Spdm → Spdm × SpdmReply} {u : Spdm} (hi : exec i s = .next (s.spdmAnswer f))
    (on : s.spdm.on = true) (hu : Spdm.answered (f s.spdm) = u) : exec i s = .next { s with spdm := u } := by
  rw [hi, State.spdmAnswer_on on, hu]

theorem exec_getMeasurements_one {s : State} {i : Nat} (on : s.spdm.on = true) (hi : i ≠ 0xFF) : exec (.getMeasurements i) s =
    .next { s with spdm := { s.spdm with
      replies := s.spdm.replies ++ [(mapFind s.spdm.measurements i).elim (.error 1) fun y => .measurements [(i, y)]] } } := by
  refine exec_of_answer rfl on ?_
  dsimp only
  rw [if_neg hi]
  cases mapFind s.spdm.measurements i <;> rfl

/-! ### Requests within a session (R423) -/

theorem exec_of_session_closed {i : Instr} {s : State} {k : Nat} {f : Spdm → Session → Spdm × SpdmReply} (hi : exec i s = .next (s.inSession k f))
    (on : s.spdm.on = true) (closed : ¬∃ y, mapFind s.spdm.sessions k = some y ∧ y.up = true) :
    exec i s = .next { s with spdm := { s.spdm with replies := s.spdm.replies ++ [.error 2] } } := by
  refine exec_of_answer hi on ?_
  dsimp only
  cases h : mapFind s.spdm.sessions k with
  | none => rfl
  | some y => exact congrArg Spdm.answered (if_neg fun up => closed ⟨y, h, up⟩)

theorem State.inSession_up {s : State} {k : Nat} {y : Session} (on : s.spdm.on = true) (hy : mapFind s.spdm.sessions k = some y) (up : y.up = true)
    (f : Spdm → Session → Spdm × SpdmReply) : s.inSession k f = { s with spdm := Spdm.answered (f s.spdm y) } := by
  rw [State.inSession, State.spdmAnswer_on on, hy]
  exact congrArg (fun x => { s with spdm := Spdm.answered x }) (if_pos up)

theorem exec_of_session {i : Instr} {s : State} {k : Nat} {y : Session} {f : Spdm → Session → Spdm × SpdmReply} {u : Spdm}
    (hi : exec i s = .next (s.inSession k f)) (on : s.spdm.on = true) (hy : mapFind s.spdm.sessions k = some y) (up : y.up = true)
    (hu : Spdm.answered (f s.spdm y) = u) : exec i s = .next { s with spdm := u } := by
  rw [hi, State.inSession_up on hy up, hu]

/-- An owner after a session has ended. -/
def Owner.leaveSession (i : Nat) (w : Owner) : Owner := if w.session = some i then { w with session := none } else w

theorem exec_endSession {s : State} {i : Nat} {y : Session} (on : s.spdm.on = true) (hy : mapFind s.spdm.sessions i = some y) (up : y.up = true) :
    exec (.endSession i) s = .next { s with
      spdm := { s.spdm with sessions := mapErase s.spdm.sessions i, replies := s.spdm.replies ++ [.endSessionAck i] }
      owners := mapAll (Owner.leaveSession i) s.owners } := by
  show execEndSession i s = _
  unfold execEndSession
  rw [State.inSession_up on hy up]
  refine congrArg Host.Outcome.next (if_neg ?_)
  rw [Spdm.answered, mapFind_mapErase_same]
  exact Bool.false_ne_true

theorem endSession_effect {s : State} {i : Nat} {y : Session} (on : s.spdm.on = true) (hy : mapFind s.spdm.sessions i = some y) (up : y.up = true) :
    ∃ t, exec (.endSession i) s = .next t ∧ t = { s with spdm := t.spdm, owners := t.owners } ∧ mapFind t.spdm.sessions i = none ∧
      t.spdm.replies = s.spdm.replies ++ [.endSessionAck i] ∧ ∀ o w, mapFind s.owners o = some w → w.session = some i → (t.ownerAt o).session = none := by
  refine ⟨_, exec_endSession on hy up, rfl, mapFind_mapErase_same _ _, rfl, fun o w hw bound => ?_⟩
  rw [State.ownerAt_of_mapFind ((mapFind_mapAll _ _ _).trans (congrArg _ hw)), Owner.leaveSession, if_pos bound]

/-! ### Sessions opened (R422, R423) -/

/-- The partition that a new session is to be bound to, where one is named, is there. -/
def State.bindable (s : State) (p : Option Nat) : Bool :=
  match p with
  | none => true
  | some o => decide (o < 48) && (s.ownerAt o).live

theorem State.bindable_iff (s : State) (p : Option Nat) : s.bindable p = true ↔ ∀ o, p = some o → o < 48 ∧ (s.ownerAt o).live = true := by
  cases p <;> simp [State.bindable]

/-- What KEY_EXCHANGE makes of the responder, and its answer. -/
def State.keyAnswer (s : State) (c : Nat) (p : Option Nat) (x : Spdm) : Spdm × SpdmReply :=
  if !x.negotiated then (x, .error 4)
  else if 2 ≤ c ∨ !s.bindable p then (x, .error 1)
  else ({ x with sessions := mapPut x.sessions s.nextId ⟨false, p, 0⟩ }, .keyExchangeRsp s.nextId (Config.random s.openTick)
    (Config.sm2Sign (s.slotKey c) (leBytes 4 s.nextId ++ leBytes 32 (Config.random s.openTick).toNat)))

theorem exec_keyExchange {s : State} (on : s.spdm.on = true) (c : Nat) (p : Option Nat) : exec (.keyExchange c p) s =
    .next { s with openTick := s.openTick + 1, nextId := s.nextId + 1, spdm := Spdm.answered (s.keyAnswer c p s.spdm) } :=
  congrArg Host.Outcome.next (State.spdmAnswer_on (s := { s with openTick := s.openTick + 1, nextId := s.nextId + 1 }) on (s.keyAnswer c p))

theorem State.keyAnswer_early {s : State} (h : s.spdm.negotiated = false) (c : Nat) (p : Option Nat) :
    s.keyAnswer c p s.spdm = (s.spdm, .error 4) := if_pos (by simp [h])

theorem State.keyAnswer_refused {s : State} {c : Nat} {p : Option Nat} (h : s.spdm.negotiated = true) (bad : 2 ≤ c ∨ ¬s.bindable p = true) :
    s.keyAnswer c p s.spdm = (s.spdm, .error 1) := by
  rw [State.keyAnswer, if_neg (by simp [h]), if_pos (by simpa using bad)]

theorem State.keyAnswer_opens {s : State} {c : Nat} {p : Option Nat} (h : s.spdm.negotiated = true) (hc : c < 2) (hp : s.bindable p = true) :
    s.keyAnswer c p s.spdm = ({ s.spdm with sessions := mapPut s.spdm.sessions s.nextId ⟨false, p, 0⟩ },
      .keyExchangeRsp s.nextId (Config.random s.openTick) (Config.sm2Sign (s.slotKey c) (leBytes 4 s.nextId ++ leBytes 32 (Config.random s.openTick).toNat))) := by
  rw [State.keyAnswer, if_neg (by simp [h]), if_neg (by simp [hp, hc])]

/-! ### FINISH (R422) -/

/-- The partition of a session that is up has that session. -/
def State.bindSession (s : State) (p : Option Nat) (i : Nat) : State :=
  match p with
  | none => s
  | some o => s.modOwner o (fun w => { w with session := some i })

theorem State.bindSession_only (s : State) (p : Option Nat) (i : Nat) : OnlyOwners s (s.bindSession p i) := by
  cases p with
  | none => exact .refl s
  | some o => exact s.modOwner_only o fun w => { w with session := some i }

theorem State.bindSession_spdm (s : State) (p : Option Nat) (i : Nat) : (s.bindSession p i).spdm = s.spdm := by
  rw [s.bindSession_only p i]

theorem exec_finish_unknown {s : State} {i : Nat} (on : s.spdm.on = true) (hi : mapFind s.spdm.sessions i = none) (m : Bool) :
    exec (.finish i m) s = .next { s with spdm := { s.spdm with replies := s.spdm.replies ++ [.error 2] } } := by
  show execFinish i m s = _
  unfold execFinish
  rw [hi]
  exact congrArg Host.Outcome.next (State.spdmAnswer_on on _)

theorem exec_finish_refused {s : State} {i : Nat} {y : Session} (on : s.spdm.on = true) (hi : mapFind s.spdm.sessions i = some y) :
    exec (.finish i false) s = .next { s with spdm := { s.spdm with sessions := mapErase s.spdm.sessions i, replies := s.spdm.replies ++ [.error 1] } } := by
  show execFinish i false s = _
  unfold execFinish
  rw [hi]
  show Host.Outcome.next (s.spdmAnswer fun x => ({ x with sessions := mapErase x.sessions i }, .error 1)) = _
  rw [State.spdmAnswer_on on]
  rfl

theorem exec_finish_up {s : State} {i : Nat} {y : Session} (on : s.spdm.on = true) (hi : mapFind s.spdm.sessions i = some y) :
    exec (.finish i true) s = .next (State.bindSession { s with spdm := { s.spdm with
      sessions := mapPut s.spdm.sessions i { y with up := true }, replies := s.spdm.replies ++ [.finishRsp i] } } y.partition i) := by
  show execFinish i true s = _
  unfold execFinish
  rw [hi]
  exact congrArg (fun u : State => Host.Outcome.next (u.bindSession y.partition i)) (State.spdmAnswer_on on _)

theorem finish_up_effect {s : State} {i : Nat} {y : Session} (on : s.spdm.on = true) (hi : mapFind s.spdm.sessions i = some y) :
    ∃ t, exec (.finish i true) s = .next t ∧ t = { s with spdm := t.spdm, owners := t.owners } ∧ mapFind t.spdm.sessions i = some { y with up := true } ∧
      t.spdm.replies = s.spdm.replies ++ [.finishRsp i] ∧ (y.partition = none → t.owners = s.owners) ∧
      ∀ o, y.partition = some o → (t.ownerAt o).session = some i := by
  refine ⟨_, exec_finish_up on hi, ?_, ?_, ?_, fun none => ?_, fun o ho => ?_⟩
  · cases y.partition <;> rfl
  · rw [State.bindSession_spdm]
    exact mapFind_mapPut_same _ _ _
  · rw [State.bindSession_spdm]
  · rw [none]
    rfl
  · rw [ho, State.bindSession, State.modOwner_ownerAt, if_pos rfl]

end Sys2Proof.Machine
end

section
/-! Bring-up (R405, R420, R428), and the statement on the host port, attestation and bring-up. -/

namespace Sys2Proof.Machine

/-! ### SYS is created (R420, R428) -/

theorem recWellFormed_sys {r : PartRec} (kind : r.kind = .sys) (formed : recWellFormed r = true) : r.owner = 63 := by
  by_contra other
  simp [recWellFormed, kind, other] at formed

/-- SYS with the slots of its record, held by nothing. -/
def Owner.asSys (r : PartRec) (w : Owner) : Owner :=
  { w with heldOn := [], lanes := r.lanes.foldl (fun m x => mapSet (0, 0) m (x.core * 8 + x.lane) (slotMask x.slots, x.ctxMask)) [] }

/-- Slots given out, and memory written. -/
def OnlySlots (s t : State) : Prop := t = { s with rota := t.rota, mem := t.mem, faulty := t.faulty, checks := t.checks }

theorem OnlySlots.trans {s t u : State} (h : OnlySlots s t) (h' : OnlySlots t u) : OnlySlots s u :=
  Eq.trans h' (congrArg (fun x : State => { x with rota := u.rota, mem := u.mem, faulty := u.faulty, checks := u.checks }) h)

theorem State.setSlots_only (s : State) (core lane : Nat) (slots : List Nat) (o : Nat) : OnlySlots s (s.setSlots core lane slots o) := rfl

theorem OnlyMemory.slots {s t : State} (h : OnlyMemory s t) : OnlySlots s t := by
  unfold OnlyMemory at h
  generalize t.mem = a1, t.faulty = a2, t.checks = a3 at h
  subst h
  rfl

theorem State.admitSys_eq (s : State) (r : PartRec) : ∃ u, OnlySlots (s.enlist r) u ∧ s.admitSys r = u.modOwner 63 (Owner.asSys r) := by
  refine ⟨(recLanes r).foldl (fun s a => s.setSlots a.1 a.2.lane a.2.slots 63) (s.enrol r), ?_, by rw [State.admitSys]; rfl⟩
  exact List.foldlRecOn (motive := OnlySlots (s.enlist r)) _ _ (s.enrol_only r).slots fun u hu a _ => hu.trans (u.setSlots_only _ _ _ _)

theorem State.admitSys_ownerAt (s : State) {r : PartRec} (sys : r.owner = 63) : ∃ key off alone, (s.admitSys r).ownerAt 63 = (ownerOf r key off alone).asSys r := by
  obtain ⟨u, only, e⟩ := s.admitSys_eq r
  refine ⟨Config.random s.openTick, s.columnsOff, State.aloneOn (s.clearShares (recShares r) []) r, ?_⟩
  rw [e, State.modOwner_ownerAt, if_pos rfl]
  refine congrArg (Owner.asSys r) ((congrArg (fun x : State => x.ownerAt 63) only).trans ?_)
  show mapGet {} (mapPut s.owners r.owner _) 63 = _
  rw [sys, mapGet_mapPut_same]

/-- What the creation of SYS changes. -/
def OnlyAdmits (s t : State) : Prop := t = { s with
  owners := t.owners, openTick := t.openTick, tables := t.tables, fabric := t.fabric, frames := t.frames, rota := t.rota, mem := t.mem, faulty := t.faulty
  checks := t.checks, engScr := t.engScr, engObuf := t.engObuf, readHold := t.readHold, acc := t.acc }

theorem State.admitSys_only (s : State) {r : PartRec} (sys : r.owner = 63) : OnlyAdmits s (s.admitSys r) := by
  obtain ⟨u, only, e⟩ := s.admitSys_eq r
  have spdm : (s.enlist r).spdm = s.spdm := if_neg (by omega)
  have listed : OnlyAdmits s (s.enlist r) := congrArg (fun d : Spdm => ({ s.enlist r with spdm := d } : State)) spdm
  unfold OnlySlots at only
  generalize u.rota = rota, u.mem = mem, u.faulty = faulty, u.checks = checks at only
  rw [e, only]
  exact congrArg (fun x : State => State.modOwner { x with rota := rota, mem := mem, faulty := faulty, checks := checks } 63 (Owner.asSys r)) listed

/-! ### Bring-up (R428) -/

/-- Bring-up succeeds. -/
def State.mayStart (s : State) (r : BringUp) : Prop :=
  r.signature = true ∧ r.training = true ∧ r.sys.kind = .sys ∧ recWellFormed r.sys = true ∧ s.fits r.sys = true

/-- The device as bring-up finds it in order, before SYS is created. -/
def State.started (s : State) (r : BringUp) : State :=
  { s with
    powered := true
    inDomain := (rankOf r.ports).isSome
    rank := (rankOf r.ports).getD 0
    islands := (List.range 32).map (fun i => (i, { tick := s.now }))
    spdm := { s.spdm with on := true, measurements := (r.measurements.take 4).zipIdx.foldl (fun m x => mapPut m (x.2 + 1) (BitVec.ofNat 256 x.1)) [] } }

/-- The first updates of quotas and of rails are due. -/
def State.scheduleEpochs (s : State) (now : Nat) : State :=
  (s.schedule .wall ((now / us10 + 1) * us10) .meltUpdate).schedule .wall ((now / us100 + 1) * us100) .railEpoch

theorem exec_powerGood_on {s : State} (on : s.powered = true) (r : BringUp) : exec (.powerGood r) s = .next s :=
  congrArg Host.Outcome.next (if_pos on)

theorem exec_powerGood_fails {s : State} {r : BringUp} (off : s.powered = false) (h : ¬s.mayStart r) :
    exec (.powerGood r) s = .next { s with boxFrozen := true } := by
  refine congrArg Host.Outcome.next ((if_neg (by simp [off])).trans (if_pos ?_))
  by_contra hn
  simp only [Bool.or_eq_true, not_or, Bool.not_eq_true', Bool.not_eq_false, decide_eq_true_eq, not_not] at hn
  obtain ⟨⟨⟨⟨signature, training⟩, kind⟩, formed⟩, fits⟩ := hn
  exact h ⟨signature, training, kind, formed, fits⟩

theorem exec_powerGood {s : State} {r : BringUp} (off : s.powered = false) (h : s.mayStart r) :
    exec (.powerGood r) s = .next (((s.started r).admitSys r.sys).scheduleEpochs s.now) := by
  obtain ⟨signature, training, kind, formed, fits⟩ := h
  exact congrArg Host.Outcome.next ((if_neg (by simp [off])).trans (if_neg (by simp [signature, training, kind, formed, fits])))

theorem powerGood_effect {s : State} {r : BringUp} (off : s.powered = false) (h : s.mayStart r) :
    ∃ t, exec (.powerGood r) s = .next t ∧ t.powered = true ∧ t.spdm.on = true ∧ t.islands = (List.range 32).map (fun i => (i, { tick := s.now })) ∧
      (∀ n, rankOf r.ports = some n → t.inDomain = true ∧ t.rank = n) ∧ (rankOf r.ports = none → t.inDomain = false) ∧ (t.ownerAt 63).live = true ∧
      (t.ownerAt 63).part = some r.sys ∧ (t.ownerAt 63).heldOn = [] ∧ (∃ p ∈ t.agenda, p.ev = .meltUpdate) ∧ (∃ p ∈ t.agenda, p.ev = .railEpoch) ∧
      t.groups = s.groups ∧ t.hostMem = s.hostMem ∧ t.box = s.box := by
  have sys : r.sys.owner = 63 := by
    obtain ⟨-, -, kind, formed, -⟩ := h
    exact recWellFormed_sys kind formed
  have only := (s.started r).admitSys_only sys
  obtain ⟨key, off', alone, owner⟩ := (s.started r).admitSys_ownerAt sys
  have ex := exec_powerGood off h
  unfold OnlyAdmits at only
  generalize (s.started r).admitSys r.sys = u at ex only owner
  refine ⟨_, ex, congrArg State.powered only, congrArg (fun x : State => x.spdm.on) only, congrArg State.islands only, fun n hn => ⟨?_, ?_⟩, fun hn => ?_,
    congrArg Owner.live owner, congrArg Owner.part owner, congrArg Owner.heldOn owner, ⟨_, List.mem_append_left _ (State.mem_schedule _ _ _ _), rfl⟩,
    ⟨_, State.mem_schedule _ _ _ _, rfl⟩, (congrArg State.groups only :), (congrArg State.hostMem only :), (congrArg State.box only :)⟩
  · exact (congrArg State.inDomain only).trans (by rw [State.started, hn]; rfl)
  · exact (congrArg State.rank only).trans (by rw [State.started, hn]; rfl)
  · exact (congrArg State.inDomain only).trans (by rw [State.started, hn]; rfl)

/-! ### The statement (O55) -/

/-- Settles O55: the windows' registers, requests for memory and for the recorder, the answers of attestation, bring-up, the warm reset. -/
theorem hostPortAndAttestation : Obligations.HostPortAndAttestation := by
  unfold Obligations.HostPortAndAttestation
  refine ⟨fun s o q a v x => ?_, fun s a b => ⟨?_, ?_, ?_, fun n i => ?_⟩, fun s v c i a n x p m => ⟨fun off => ?_, fun on => ?_⟩,
    fun s r => ⟨fun on => exec_powerGood_on on r, exec_powerGood_fails, powerGood_effect⟩, fun s => rfl⟩
  · intro w granted refused sets page
    have refusedIff : ¬granted ↔ ¬s.granted o = true := (s.granted_iff o).not.symm
    have grantedIff : granted ↔ s.granted o = true := (s.granted_iff o).symm
    refine ⟨fun no => ?_, ⟨fun no => exec_registerRead_refused (refusedIff.1 no) a, fun yes => ?_⟩, fun yes => ?_, fun quiet => ?_⟩
    · exact ⟨exec_of_window_refused rfl (refusedIff.1 no), exec_of_window_refused rfl (refusedIff.1 no), exec_of_window_refused rfl (refusedIff.1 no)⟩
    · have reads {a n : Nat} := exec_registerRead (a := a) (n := n) (grantedIff.1 yes)
      exact ⟨reads rfl, reads rfl, reads rfl, reads rfl, fun hq => ⟨reads (w.register_lq (k := 0) hq (by decide) rfl),
        reads (w.register_lq (k := 0x8) hq (by decide) (by omega)), reads (w.register_lq (k := 0xC) hq (by decide) (by omega)),
        reads (w.register_lq (k := 0x10) hq (by decide) (by omega))⟩⟩
    · have yes := grantedIff.1 yes
      refine ⟨exec_registerWrite_evBase yes x, fun hq en => ?_, fun hq en => ?_, fun hq => exec_lqTailWrite yes hq v, fun hq => exec_lqWrites_none yes hq v,
        fun hq => ⟨_, exec_lqCtlWrite yes hq v, (w.lqAt q).writeCtl_base v, (w.lqAt q).writeCtl_sess v, (w.lqAt q).writeCtl_prio v, ⟨?_, ?_⟩,
          LqRegs.writeCtl_enables, fun en => LqRegs.writeCtl_pointers en v⟩⟩
      · have written := exec_registerWrite_lqBase yes hq x
        rwa [if_neg (Bool.eq_false_iff.1 en)] at written
      · have written := exec_registerWrite_lqBase yes hq x
        rwa [if_pos en] at written
      · rw [LqRegs.writeCtl_slots, LqRegs.newCount_toNat]
      · rw [LqRegs.writeCtl_en, LqRegs.newEn_iff, LqRegs.newCount_toNat]
    · refine ⟨fun no => ⟨?_, ?_⟩, fun yes => ⟨w.writeEvCtl v, ?_, ?_, ?_, w.writeEvCtl_evBase v, fun en => Owner.writeEvCtl_enables ((evEnables_iff v).2 en)⟩, fun yes => ?_⟩
      · exact exec_of_window_refused (exec_evCtlWrite quiet v) (refusedIff.1 no)
      · exact exec_of_window_refused (exec_evHeadWrite quiet v) (refusedIff.1 no)
      · exact exec_of_window_granted (exec_evCtlWrite quiet v) (grantedIff.1 yes) rfl
      · rw [Owner.writeEvCtl_evCtl, evCtlWord_count]
      · rw [Owner.writeEvCtl_evCtl, evCtlWord_en, evEnables_iff]
      · exact exec_of_window_granted (exec_evHeadWrite quiet v) (grantedIff.1 yes) rfl
  · exact fun live granted => exec_freeze ((s.granted_iff 63).2 ⟨live, granted⟩)
  · exact fun no => exec_freeze_refused (Bool.eq_false_iff.1 ((s.granted_eq_false_iff 63).2 no))
  · exact ⟨fun there => s.hostByte_there ((memoryThere_iff a).2 there), fun gone => State.hostByte_outside ((memoryThere_iff a).not.2 gone),
      fun gone pa => State.hostByte_inStripes ((memoryThere_iff a).not.2 gone),
      fun away => ⟨State.hostMemory_unpopulated away none, State.hostMemory_unpopulated away (some b)⟩,
      fun pa place => ⟨fun hidden => ⟨State.hostMemory_isolated place hidden none, State.hostMemory_isolated place hidden (some b)⟩,
        fun shown => ⟨exec_hostRead place shown, exec_hostRead_fails place shown, hostWrite_effect place shown b⟩⟩⟩
  · refine ⟨fun no => ?_, fun live granted e he => ?_⟩
    · rcases or_assoc.2 no with no | missing
      · exact exec_recordRead_refused (Bool.eq_false_iff.1 ((s.granted_eq_false_iff 63).2 no)) n i
      · exact exec_recordRead_missing missing i
    · have reads := exec_recordRead_entry ((s.granted_iff 63).2 ⟨live, granted⟩) he i
      refine ⟨fun shown => ?_, fun low hidden => ?_⟩
      · rwa [State.boxEntry_shown (shown.imp_right (s.sessionOf_iff i e.owner).2)] at reads
      · rwa [State.boxEntry_hidden low ((s.sessionOf_iff i e.owner).not.2 hidden)] at reads
  · exact ⟨exec_of_answer_off rfl off, exec_of_answer_off rfl off, exec_of_answer_off rfl off, exec_of_answer_off rfl off, exec_of_answer_off rfl off,
      exec_of_answer_off rfl off, exec_of_answer_off rfl off, exec_of_answer_off rfl off, exec_of_answer_off rfl off, exec_of_answer_off rfl off⟩
  · refine ⟨exec_of_answer rfl on rfl, exec_of_answer rfl on rfl, exec_of_answer rfl on rfl, exec_of_answer rfl on rfl, exec_of_answer rfl on rfl,
      exec_of_answer rfl on rfl, fun all => ?_, fun one absent => ?_, fun y one hy => ?_, exec_of_answer rfl on rfl, ⟨fun closed => ?_, fun y hy up => ?_⟩, ?_,
      fun absent => exec_finish_unknown on absent m, fun y hy => ⟨⟨_, exec_finish_refused on hy, mapFind_mapErase_same _ _, rfl, rfl⟩, finish_up_effect on hy⟩⟩
    · exact exec_of_answer rfl on (by rw [if_pos all]; rfl)
    · have answer := exec_getMeasurements_one on one
      rwa [absent] at answer
    · have answer := exec_getMeasurements_one on one
      rwa [hy] at answer
    · exact ⟨exec_of_session_closed rfl on closed, exec_of_session_closed rfl on closed⟩
    · exact ⟨exec_of_session rfl on hy up rfl, exec_of_session rfl on hy up rfl, endSession_effect on hy up⟩
    · refine ⟨_, exec_keyExchange on c p, rfl, fun early => ?_, fun negotiated bad => ?_, fun negotiated hc bound => ?_⟩
      · rw [State.keyAnswer_early early]
        exact ⟨rfl, rfl⟩
      · rw [State.keyAnswer_refused negotiated (bad.imp_right (s.bindable_iff p).not.2)]
        exact ⟨rfl, rfl⟩
      · rw [State.keyAnswer_opens negotiated hc ((s.bindable_iff p).2 bound)]
        exact ⟨mapFind_mapPut_same _ _ _, rfl⟩

end Sys2Proof.Machine
end
